-- ==== Sys2Proof/Word.lean ====
section
/-! DEFINITION. The word types of the device and their plainest arithmetic (spec 00, R2, R4, R5). -/

namespace Sys2Proof

/-- A word is 64 bits (R2). -/
abbrev Word := BitVec 64

/-- A byte is 8 bits (R2). -/
abbrev Byte := BitVec 8

/-- A core id: panel, cluster, core number (R11). -/
abbrev CoreId := BitVec 10

/-- An owner tag (R17). -/
abbrev Tag := BitVec 12

/-- Bits `[lo + n - 1 : lo]` of a bit vector (R4). -/
abbrev field {w : Nat} (x : BitVec w) (lo n : Nat) : BitVec n := x.extractLsb' lo n

/-- One bit of a bit vector as a truth value. -/
abbrev bit {w : Nat} (x : BitVec w) (i : Nat) : Bool := x.getLsbD i

/-- A truth value as a field of `n` bits. -/
abbrev ofBool (n : Nat) (b : Bool) : BitVec n := if b then 1 else 0

/-- Sign extension to a word. -/
abbrev sext64 {w : Nat} (x : BitVec w) : Word := x.signExtend 64

/-- Zero extension (or truncation) to a word. -/
abbrev zext64 {w : Nat} (x : BitVec w) : Word := x.setWidth 64

/-- A natural number as a word, modulo 2^64. -/
abbrev w64 (n : Nat) : Word := BitVec.ofNat 64 n

/-- The word with every bit set. -/
abbrev allOnes : Word := BitVec.allOnes 64

end Sys2Proof
end

