-- ==== Sys2Proof/Syntax.lean ====
section
/-! DEFINITION. The abstract instructions of the device: one constructor of Instr per row of
spec/opcode_table.json. A stream word holds its wait and signal clauses (R57, R58) and its operand fields
(R212, R215) without the bits that its encoding reserves. A row that is no stream word is an event of the
device and holds what its outside party supplies. -/

namespace Sys2Proof

/-- The five streams of a core (R26), in the order of their codes (R203). -/
inductive Strm where
  | a | x | m | v | c
  deriving DecidableEq, Repr, Inhabited

/-- The wait byte (R57). -/
inductive Wait where
  | none
  | one (v : BitVec 6)
  | thresh (v : BitVec 6)
  | probe (v : BitVec 6)
  deriving DecidableEq, Repr, Inhabited

/-- The signal byte (R58). -/
inductive Sig where
  | none
  | one (v : BitVec 6)
  | incr (v : BitVec 6)
  | issue (v : BitVec 6)
  deriving DecidableEq, Repr, Inhabited

/-- The two upper bytes of every stream word (R56). -/
structure Hdr where
  wait : Wait
  sig : Sig
  deriving DecidableEq, Repr, Inhabited

/-- A register field of an A or X word (R213). -/
abbrev Reg := BitVec 5

/-- A predicate number (R213). -/
abbrev Pred := BitVec 3

/-- A descriptor number of an engine (R72). -/
abbrev Desc := BitVec 4

/-- Format LI (R212). -/
structure LIOp where
  d : Reg
  imm : BitVec 35
  deriving DecidableEq, Repr, Inhabited

/-- LIH's operands (R226): [34:32] are reserved. -/
structure LIHOp where
  d : Reg
  imm : BitVec 32
  deriving DecidableEq, Repr, Inhabited

/-- Format RR with three registers (R212). -/
structure RR3 where
  d : Reg
  s1 : Reg
  s2 : Reg
  deriving DecidableEq, Repr, Inhabited

/-- Format RR with a destination and one source. -/
structure RR2 where
  d : Reg
  s1 : Reg
  deriving DecidableEq, Repr, Inhabited

/-- Format RR with three registers and the modifier k. -/
structure RR3K where
  d : Reg
  s1 : Reg
  s2 : Reg
  k : BitVec 3
  deriving DecidableEq, Repr, Inhabited

/-- Format RR with a destination, one source and the modifier k. -/
structure RR2K where
  d : Reg
  s1 : Reg
  k : BitVec 3
  deriving DecidableEq, Repr, Inhabited

/-- Format RR with three registers and the keyword `signed` in k[0]. -/
structure RR3S where
  d : Reg
  s1 : Reg
  s2 : Reg
  sgn : Bool
  deriving DecidableEq, Repr, Inhabited

/-- Format RI (R212). -/
structure RIOp where
  d : Reg
  s1 : Reg
  imm : BitVec 30
  deriving DecidableEq, Repr, Inhabited

/-- SHLI and SHRI (R226): the amount in [5:0]. -/
structure ShiftOp where
  d : Reg
  s1 : Reg
  n : BitVec 6
  deriving DecidableEq, Repr, Inhabited

/-- Format M (R212). -/
structure MOp where
  reg : Reg
  base : Reg
  size : BitVec 3
  sx : Bool
  off : BitVec 26
  deriving DecidableEq, Repr, Inhabited

/-- PFM's operands (R234): the count of lines less one. -/
structure PfmOp where
  n1 : BitVec 5
  base : Reg
  off : BitVec 26
  deriving DecidableEq, Repr, Inhabited

/-- Format B (R212). -/
structure BOp where
  s1 : Reg
  s2 : Reg
  off : BitVec 30
  deriving DecidableEq, Repr, Inhabited

/-- Format AT of atomics, gate words and MONW (R246). -/
structure ATOp where
  d : Reg
  base : Reg
  s2 : Reg
  size : BitVec 3
  sg : Bool
  off : BitVec 21
  deriving DecidableEq, Repr, Inhabited

/-- OWN's operands (R238). -/
structure OwnOp where
  first : BitVec 8
  n1 : BitVec 8
  v : Bool
  deriving DecidableEq, Repr, Inhabited

/-- RINGSET's operands (R240). -/
structure RingSetOp where
  strm : BitVec 3
  size : BitVec 4
  base : BitVec 13
  deriving DecidableEq, Repr, Inhabited

/-- RINGPUB's value: an immediate (REG 0) or a register (REG 1) (R240). -/
inductive RingVal where
  | imm (u : BitVec 32)
  | reg (r : Reg)
  deriving DecidableEq, Repr, Inhabited

/-- RINGPUB's operands (R241). -/
structure RingPubOp where
  strm : BitVec 3
  val : RingVal
  deriving DecidableEq, Repr, Inhabited

/-- RINGRD's operands (R242). -/
structure RingRdOp where
  d : Reg
  strm : BitVec 3
  sel : Bool
  deriving DecidableEq, Repr, Inhabited

/-- TICKRD's operands (R244). -/
structure TickOp where
  d : Reg
  ctxd : Bool
  dom : BitVec 3
  deriving DecidableEq, Repr, Inhabited

/-- PMRD's operands (R245). -/
structure PmOp where
  d : Reg
  n : BitVec 3
  deriving DecidableEq, Repr, Inhabited

/-- FINC's operands (R250). -/
structure FincOp where
  vf : BitVec 6
  rem : Bool
  s1 : Reg
  amount : BitVec 16
  deriving DecidableEq, Repr, Inhabited

/-- FSET's operands (R251). -/
structure FsetOp where
  vf : BitVec 6
  fld : BitVec 2
  s1 : Reg
  imm : BitVec 16
  deriving DecidableEq, Repr, Inhabited

/-- FRD's operands (R252). -/
structure FrdOp where
  d : Reg
  vf : BitVec 6
  deriving DecidableEq, Repr, Inhabited

/-- FWAIT's operands (R253). -/
structure FwaitOp where
  vf : BitVec 6
  keep : Bool
  n : BitVec 16
  deriving DecidableEq, Repr, Inhabited

/-- BBIND's operands (R254). -/
structure BbindOp where
  b : BitVec 5
  s1 : Reg
  deriving DecidableEq, Repr, Inhabited

/-- BFILLW's and BFREEW's operands (R254). -/
structure BwaitOp where
  b : BitVec 5
  n : BitVec 7
  deriving DecidableEq, Repr, Inhabited

/-- MARK's operands (R255). -/
structure MarkOp where
  token : BitVec 2
  c : Bool
  v : Bool
  m : Bool
  deriving DecidableEq, Repr, Inhabited

/-- RBTLD's operands (R261). -/
structure RbtldOp where
  d : Reg
  s1 : Reg
  blk : BitVec 6
  w : BitVec 3
  deriving DecidableEq, Repr, Inhabited

/-- TENROL's operands (R264). -/
structure Tree4 where
  d : Reg
  s1 : Reg
  s2 : Reg
  s3 : Reg
  deriving DecidableEq, Repr, Inhabited

/-- TUNROL's operands (R264). -/
structure Tree3 where
  s1 : Reg
  s2 : Reg
  s3 : Reg
  deriving DecidableEq, Repr, Inhabited

/-- Two source registers in the s1 and s2 fields, no destination. -/
structure SS where
  s1 : Reg
  s2 : Reg
  deriving DecidableEq, Repr, Inhabited

/-- TREAD's operands (R264). -/
structure TreadOp where
  d : Reg
  s1 : Reg
  patch : Bool
  deriving DecidableEq, Repr, Inhabited

/-- CSRR's and CSRW's operands (R267). -/
structure CsrOp where
  r : Reg
  n : BitVec 12
  deriving DecidableEq, Repr, Inhabited

/-- CTXSV's and CTXLD's operands (R271). -/
structure CtxOp where
  s1 : Reg
  spad : Bool
  deriving DecidableEq, Repr, Inhabited

/-- CMP's and FCMP's operands (R278, R280). -/
structure CmpOp where
  p : Pred
  s1 : Reg
  s2 : Reg
  k : BitVec 3
  deriving DecidableEq, Repr, Inhabited

/-- PLOG's operands (R278). -/
structure PlogOp where
  p : Pred
  s1 : Pred
  s2 : Pred
  op : BitVec 3
  deriving DecidableEq, Repr, Inhabited

/-- CVTF's operands (R281). -/
structure CvtfOp where
  d : Reg
  s1 : Reg
  sg : Bool
  rnd : BitVec 3
  deriving DecidableEq, Repr, Inhabited

/-- CVTI's operands (R282). -/
structure CvtiOp where
  d : Reg
  s1 : Reg
  wid : BitVec 2
  sg : Bool
  rnd : BitVec 3
  deriving DecidableEq, Repr, Inhabited

/-- CVTN's operands (R283). -/
structure CvtnOp where
  d : Reg
  s1 : Reg
  fs : BitVec 4
  dir : Bool
  sat : Bool
  rnd : BitVec 3
  deriving DecidableEq, Repr, Inhabited

/-- BRP's operands (R284). -/
structure BrpOp where
  p : Pred
  neg : Bool
  off : BitVec 30
  deriving DecidableEq, Repr, Inhabited

/-- LOOP's operands (R286). -/
structure LoopOp where
  s1 : Reg
  off : BitVec 30
  deriving DecidableEq, Repr, Inhabited

/-- DSET's operands (R216). -/
structure DsetOp where
  d : Desc
  q : BitVec 2
  value : BitVec 32
  deriving DecidableEq, Repr, Inhabited

/-- PT and PROW: `none` is PT = 0, `some n` is PT = 1 with PROW = n (R297, R312, R326). -/
abbrev Pass := Option (BitVec 8)

/-- The B operand of MMA and SMMA: a descriptor or a weight stage (R297). -/
inductive BSrc where
  | desc (d : Desc)
  | stage (st : Bool)
  deriving DecidableEq, Repr, Inhabited

/-- WLOAD's operands (R298). -/
structure WloadOp where
  d1 : Desc
  stg : Bool
  deriving DecidableEq, Repr, Inhabited

/-- MMA's operands (R299). -/
structure MmaOp where
  d0 : Desc
  d1 : Desc
  b : BSrc
  pass : Pass
  deriving DecidableEq, Repr, Inhabited

/-- GMMA's operands (R299). -/
structure GmmaOp where
  d0 : Desc
  d1 : Desc
  d2 : Desc
  pass : Pass
  deriving DecidableEq, Repr, Inhabited

/-- SMMA's operands (R300). -/
structure SmmaOp where
  d0 : Desc
  d1 : Desc
  b : BSrc
  q : BitVec 2
  pass : Pass
  deriving DecidableEq, Repr, Inhabited

/-- MQBIND's operands (R301): the mode is 0 for 2:4 and 1 for 1:4. -/
structure MqbindOp where
  q : BitVec 2
  mode : Bool
  deriving DecidableEq, Repr, Inhabited

/-- ACLR's operands (R302). -/
structure AclrOp where
  d0 : Desc
  mode : Bool
  pass : Pass
  deriving DecidableEq, Repr, Inhabited

/-- ALD's and ASCL's operands (R303, R305). -/
structure D2Pass where
  d0 : Desc
  d1 : Desc
  pass : Pass
  deriving DecidableEq, Repr, Inhabited

/-- Two descriptors, PT, SAT and RND: AST, the unary vector words, the copies. -/
structure D2Conv where
  d0 : Desc
  d1 : Desc
  pass : Pass
  sat : Bool
  rnd : BitVec 3
  deriving DecidableEq, Repr, Inhabited

/-- The binary vector words (R313). -/
structure VBinOp where
  d0 : Desc
  d1 : Desc
  d2 : Desc
  br : Bool
  pass : Pass
  sat : Bool
  rnd : BitVec 3
  deriving DecidableEq, Repr, Inhabited

/-- VFMA (R313). -/
structure VFmaOp where
  d0 : Desc
  d1 : Desc
  d2 : Desc
  d3 : Desc
  br : Bool
  bc : Bool
  pass : Pass
  sat : Bool
  rnd : BitVec 3
  deriving DecidableEq, Repr, Inhabited

/-- VBCAST (R316): `col` is FN[8]. -/
structure VBcastOp where
  d0 : Desc
  d1 : Desc
  col : Bool
  pass : Pass
  sat : Bool
  rnd : BitVec 3
  deriving DecidableEq, Repr, Inhabited

/-- VEPI (R317): `bias` is d2 when BIAS = 1. -/
structure VEpiOp where
  d0 : Desc
  d1 : Desc
  bias : Option Desc
  fn : BitVec 4
  pass : Pass
  sat : Bool
  rnd : BitVec 3
  deriving DecidableEq, Repr, Inhabited

/-- CFILL (R328). -/
structure CfillOp where
  d0 : Desc
  value : BitVec 16
  sat : Bool
  rnd : BitVec 3
  deriving DecidableEq, Repr, Inhabited

/-- CMCAST (R329): `tflag` is TFLAG when TSIG = 1. -/
structure CmcastOp where
  d0 : Desc
  d1 : Desc
  storer : Bool
  tflag : Option (BitVec 6)
  n1 : BitVec 8
  sat : Bool
  rnd : BitVec 3
  deriving DecidableEq, Repr, Inhabited

/-- CWBIND (R330). -/
structure CwbindOp where
  d0 : Desc
  d1 : Desc
  win : BitVec 2
  n1 : BitVec 8
  sat : Bool
  rnd : BitVec 3
  deriving DecidableEq, Repr, Inhabited

/-- CWADV (R330). -/
structure CwadvOp where
  win : BitVec 2
  n1 : BitVec 8
  deriving DecidableEq, Repr, Inhabited

/-- CPFA (R333). -/
structure CpfaOp where
  d0 : Desc
  d1 : Desc
  sat : Bool
  rnd : BitVec 3
  deriving DecidableEq, Repr, Inhabited

/-- CMETA (R334). -/
structure CmetaOp where
  d1 : Desc
  q : BitVec 2
  deriving DecidableEq, Repr, Inhabited

/-- CLSEND and CLRECV (R336). -/
structure ClOp where
  d : Desc
  link : BitVec 4
  block : BitVec 12
  deriving DecidableEq, Repr, Inhabited

/-- CLRED (R336). -/
structure ClredOp where
  d0 : Desc
  d1 : Desc
  link : BitVec 4
  block : BitVec 12
  sat : Bool
  rnd : BitVec 3
  deriving DecidableEq, Repr, Inhabited

/-- A seam-link flit (R189): its eight header words and its payload bytes. -/
structure Flit where
  h0 : Word
  h1 : Word
  h2 : Word
  a0 : Word
  a1 : Word
  a2 : Word
  fts : Word
  h7 : Word
  payload : List Byte
  deriving DecidableEq, Repr, Inhabited

/-- A host connection's delivery mode (R176). -/
inductive Conn where
  | rod (n : Nat)
  | rud (n : Nat)
  | unreliable
  /-- a packet that fails the transport's integrity check (R176) -/
  | corrupt
  deriving DecidableEq, Repr, Inhabited

/-- What the firmware complex does in one step (R184): a hart's next instruction; a load or a store, whose size is log2 of its bytes; or one of the
settings that the spec has firmware make and gives no register for (log 136). -/
inductive HartAccess where
  /-- the hart executes its next instruction (log 162) -/
  | run
  | load (size : BitVec 2)
  | store (size : BitVec 2) (value : Word)
  /-- a context's default budget and tick domain (R17, R41) -/
  | setContext (tag : Tag) (budget : BitVec 32) (dom : BitVec 3)
  /-- a region registered for the host: its base, length and owner; none takes it back (R176) -/
  | setRegion (region : Nat) (what : Option (Nat × Nat × Tag))
  /-- a receive posted for the host's sends (R176, R411) -/
  | setReceive (receive : Nat) (what : Option (Nat × Nat × Tag))
  /-- a CSR of a core on which no stream has started (R61, R223, R343, R346) -/
  | setCsr (core : CoreId) (n : BitVec 9) (value : Word)
  /-- the feed configuration of such a core, at a lining address (R223, R270, R340) -/
  | setFeed (core : CoreId) (addr : BitVec 56)
  /-- the monitor measures a plug-in into MREG3 before it loads it (R194) -/
  | measure (image : List Byte)
  /-- the monitor produces a quote for a nonce (R195) -/
  | quote (nonce : BitVec 512)
  deriving DecidableEq, Repr, Inhabited

/-- A line of L2: of a lining address (or of its replica), or a page-table line by its physical line number (R115, R148). -/
inductive L2Name where
  | line (n : BitVec 50)
  | table (n : BitVec 50)
  deriving DecidableEq, Repr, Inhabited

/-- A two-step PTP exchange (R188): the port it comes through, and its four times. -/
structure PtpTimes where
  port : BitVec 3
  t1 : Word
  t2 : Word
  t3 : Word
  t4 : Word
  deriving DecidableEq, Repr, Inhabited

/-- Where the loader takes an image from: bytes that firmware holds, or a virtual range of the context, which the loader reads on
its behalf (R107, R109). -/
inductive ImageSrc where
  | held (bytes : List Byte)
  | placed (va : Word) (len : Nat)
  deriving DecidableEq, Repr, Inhabited

/-- What the boot finds outside the module's state (R193): the images read from flash and the outcomes of
the physical steps. -/
structure BootInput where
  keyOk : Bool
  firstStage : List Byte
  firstSig : BitVec 4096
  config : List Byte
  configSig : BitVec 4096
  rollback : Word
  hbmOk : Bool
  lanesOk : BitVec 16
  stages : List (List Byte × BitVec 4096)
  /-- the time to which the master steps before EN is set (R188) -/
  ptpTime : Option Word
  /-- the entry point of the monitor, the last stage (R186, R193) -/
  monitor : Word
  deriving DecidableEq, Repr, Inhabited

/-- One constructor per row of spec/opcode_table.json. -/
inductive Instr where
  -- access unit: arithmetic, memory and control (spec 13)
  | aNop (h : Hdr)
  | aLi (h : Hdr) (o : LIOp)
  | aLih (h : Hdr) (o : LIHOp)
  | aAdd (h : Hdr) (o : RR3)
  | aAddi (h : Hdr) (o : RIOp)
  | aSub (h : Hdr) (o : RR3)
  | aAnd (h : Hdr) (o : RR3)
  | aOr (h : Hdr) (o : RR3)
  | aXor (h : Hdr) (o : RR3)
  | shli (h : Hdr) (o : ShiftOp)
  | shri (h : Hdr) (o : ShiftOp)
  | lea (h : Hdr) (o : RR3K)
  | lds (h : Hdr) (o : MOp)
  | sts (h : Hdr) (o : MOp)
  | ldm (h : Hdr) (o : MOp)
  | stm (h : Hdr) (o : MOp)
  | ldc (h : Hdr) (o : MOp)
  | csync (h : Hdr)
  | pfm (h : Hdr) (o : PfmOp)
  | beq (h : Hdr) (o : BOp)
  | bne (h : Hdr) (o : BOp)
  | blt (h : Hdr) (o : BOp)
  | bge (h : Hdr) (o : BOp)
  | aJmp (h : Hdr) (o : LIOp)
  | aJr (h : Hdr) (o : RR2)
  -- access unit: atomics, synchronisation, tasks and system (spec 14)
  | aadd (h : Hdr) (o : ATOp)
  | aaddb (h : Hdr) (o : ATOp)
  | amax (h : Hdr) (o : ATOp)
  | amin (h : Hdr) (o : ATOp)
  | aor (h : Hdr) (o : ATOp)
  | axchg (h : Hdr) (o : ATOp)
  | acas (h : Hdr) (o : ATOp)
  | raddf (h : Hdr) (o : ATOp)
  | gset (h : Hdr) (o : ATOp)
  | gclr (h : Hdr) (o : ATOp)
  | gld (h : Hdr) (o : ATOp)
  | finc (h : Hdr) (o : FincOp)
  | fset (h : Hdr) (o : FsetOp)
  | frd (h : Hdr) (o : FrdOp)
  | fwait (h : Hdr) (o : FwaitOp)
  | bbind (h : Hdr) (o : BbindOp)
  | bfillw (h : Hdr) (o : BwaitOp)
  | bfreew (h : Hdr) (o : BwaitOp)
  | badv (h : Hdr) (b : BitVec 5)
  | brel (h : Hdr) (b : BitVec 5)
  | own (h : Hdr) (o : OwnOp)
  | ringset (h : Hdr) (o : RingSetOp)
  | ringpub (h : Hdr) (o : RingPubOp)
  | ringrd (h : Hdr) (o : RingRdOp)
  | mark (h : Hdr) (o : MarkOp)
  | join (h : Hdr) (t : BitVec 2)
  | fence (h : Hdr) (scope : BitVec 2)
  | monw (h : Hdr) (o : ATOp)
  | enq (h : Hdr) (o : RR2)
  | poppass (h : Hdr) (d : Reg)
  | rbtld (h : Hdr) (o : RbtldOp)
  | passdone (h : Hdr)
  | yield (h : Hdr) (adv : Bool)
  | aSafe (h : Hdr) (n : BitVec 16)
  | stadv (h : Hdr) (n : BitVec 8)
  | tnode (h : Hdr) (o : RR3)
  | tenrol (h : Hdr) (o : Tree4)
  | tunrol (h : Hdr) (o : Tree3)
  | trepar (h : Hdr) (o : SS)
  | tsettle (h : Hdr) (s1 : Reg)
  | tread (h : Hdr) (o : TreadOp)
  | tfree (h : Hdr) (s1 : Reg)
  | aFtrd (h : Hdr) (d : Reg)
  | tickrd (h : Hdr) (o : TickOp)
  | pmrd (h : Hdr) (o : PmOp)
  | sysc (h : Hdr) (n : BitVec 16)
  | rfe (h : Hdr)
  | csrr (h : Hdr) (o : CsrOp)
  | csrw (h : Hdr) (o : CsrOp)
  | lptw (h : Hdr) (o : RR3K)
  | ldrain (h : Hdr) (o : RR2)
  | lconf (h : Hdr) (o : SS)
  | keyset (h : Hdr) (o : SS)
  | keykill (h : Hdr) (s1 : Reg)
  | fmap (h : Hdr) (s1 : Reg)
  | ctxsv (h : Hdr) (o : CtxOp)
  | ctxld (h : Hdr) (o : CtxOp)
  -- execute unit (spec 15)
  | xNop (h : Hdr)
  | xLi (h : Hdr) (o : LIOp)
  | xLih (h : Hdr) (o : LIHOp)
  | xAdd (h : Hdr) (o : RR3)
  | xAddi (h : Hdr) (o : RIOp)
  | xSub (h : Hdr) (o : RR3)
  | xAnd (h : Hdr) (o : RR3)
  | xOr (h : Hdr) (o : RR3)
  | xXor (h : Hdr) (o : RR3)
  | mul (h : Hdr) (o : RR3)
  | mulh (h : Hdr) (o : RR3K)
  | div (h : Hdr) (o : RR3S)
  | rem (h : Hdr) (o : RR3S)
  | shl (h : Hdr) (o : RR3)
  | shr (h : Hdr) (o : RR3)
  | sra (h : Hdr) (o : RR3)
  | min (h : Hdr) (o : RR3S)
  | max (h : Hdr) (o : RR3S)
  | popc (h : Hdr) (o : RR2)
  | clz (h : Hdr) (o : RR2)
  | cmp (h : Hdr) (o : CmpOp)
  | sel (h : Hdr) (o : RR3K)
  | plog (h : Hdr) (o : PlogOp)
  | fadd (h : Hdr) (o : RR3K)
  | fsub (h : Hdr) (o : RR3K)
  | fmul (h : Hdr) (o : RR3K)
  | ffma (h : Hdr) (o : RR3K)
  | fmin (h : Hdr) (o : RR3)
  | fmax (h : Hdr) (o : RR3)
  | fdiv (h : Hdr) (o : RR3K)
  | fsqrt (h : Hdr) (o : RR2K)
  | fcmp (h : Hdr) (o : CmpOp)
  | cvtf (h : Hdr) (o : CvtfOp)
  | cvti (h : Hdr) (o : CvtiOp)
  | cvtn (h : Hdr) (o : CvtnOp)
  | brp (h : Hdr) (o : BrpOp)
  | xJmp (h : Hdr) (o : LIOp)
  | xJr (h : Hdr) (o : RR2)
  | loop (h : Hdr) (o : LoopOp)
  | xSafe (h : Hdr) (n : BitVec 16)
  | xFtrd (h : Hdr) (d : Reg)
  -- matrix engine (spec 16)
  | mNop (h : Hdr)
  | mDset (h : Hdr) (o : DsetOp)
  | wload (h : Hdr) (o : WloadOp)
  | mma (h : Hdr) (o : MmaOp)
  | gmma (h : Hdr) (o : GmmaOp)
  | smma (h : Hdr) (o : SmmaOp)
  | mqbind (h : Hdr) (o : MqbindOp)
  | aclr (h : Hdr) (o : AclrOp)
  | ald (h : Hdr) (o : D2Pass)
  | ast (h : Hdr) (o : D2Conv)
  | ascl (h : Hdr) (o : D2Pass)
  -- vector engine (spec 17)
  | vNop (h : Hdr)
  | vDset (h : Hdr) (o : DsetOp)
  | vadd (h : Hdr) (o : VBinOp)
  | vsub (h : Hdr) (o : VBinOp)
  | vmul (h : Hdr) (o : VBinOp)
  | vmax (h : Hdr) (o : VBinOp)
  | vmin (h : Hdr) (o : VBinOp)
  | vfma (h : Hdr) (o : VFmaOp)
  | vexp (h : Hdr) (o : D2Conv)
  | vlog (h : Hdr) (o : D2Conv)
  | vrcp (h : Hdr) (o : D2Conv)
  | vrsq (h : Hdr) (o : D2Conv)
  | vtanh (h : Hdr) (o : D2Conv)
  | vgelu (h : Hdr) (o : D2Conv)
  | vsilu (h : Hdr) (o : D2Conv)
  | vabs (h : Hdr) (o : D2Conv)
  | vcvt (h : Hdr) (o : D2Conv)
  | vqmx (h : Hdr) (o : D2Conv)
  | vdqmx (h : Hdr) (o : D2Conv)
  | vrsum (h : Hdr) (o : D2Conv)
  | vrmax (h : Hdr) (o : D2Conv)
  | vcsum (h : Hdr) (o : D2Conv)
  | vbcast (h : Hdr) (o : VBcastOp)
  | vtrn (h : Hdr) (o : D2Conv)
  | vepi (h : Hdr) (o : VEpiOp)
  | vtagsel (h : Hdr) (o : D2Conv)
  -- copy engine (spec 18)
  | cNop (h : Hdr)
  | cDset (h : Hdr) (o : DsetOp)
  | ccopy (h : Hdr) (o : D2Conv)
  | cgath (h : Hdr) (o : D2Conv)
  | cscat (h : Hdr) (o : D2Conv)
  | cfill (h : Hdr) (o : CfillOp)
  | cmcast (h : Hdr) (o : CmcastOp)
  | cwbind (h : Hdr) (o : CwbindOp)
  | cwadv (h : Hdr) (o : CwadvOp)
  | csched (h : Hdr) (d1 : Desc)
  | cpfa (h : Hdr) (o : CpfaOp)
  | cmeta (h : Hdr) (o : CmetaOp)
  | clsend (h : Hdr) (o : ClOp)
  | clrecv (h : Hdr) (o : ClOp)
  | clred (h : Hdr) (o : ClredOp)
  -- events of a core
  /-- The k-th word in progress of a stream completes (R59, R172). -/
  | wordCompletion (core : CoreId) (strm : Strm) (k : Nat)
  | engineFetch (core : CoreId) (strm : Strm)
  | schedEntryRelease (core : CoreId)
  | clsendTransmit (link : BitVec 4)
  /-- The k-th remote addition in flight reaches its target (R404). -/
  | remoteAddition (k : Nat)
  | lateWordStall (core : CoreId) (strm : Strm)
  | budgetTrap (core : CoreId)
  | preemptEntry (core : CoreId)
  /-- The loader places an image (its bytes, R218) on a core under a context, at the ring bases given. -/
  | programLoad (core : CoreId) (ctx : Tag) (image : ImageSrc) (bases : List (BitVec 13))
  | streamsStart (core : CoreId)
  /-- The write of FRES with RETRY; also a retried word that has waited on a draining page goes on (R360, R385). -/
  | fresRetry (core : CoreId) (strm : Strm)
  | illegalWord (strm : Strm) (word : Word)
  -- events of the task graph, Gatherers and weight store
  | sqtailWrite (q : BitVec 10) (value : Word)
  | sqpull (q : BitVec 10)
  | sqEnable (q : BitVec 10) (value : Word)
  | taskDispatch (task : BitVec 32)
  | rangeDispatch (task : BitVec 32)
  | barrierFire (task : BitVec 32)
  | gathererCycle (g : BitVec 3)
  | binClosePatience (g : BitVec 3) (b : BitVec 6)
  | binCloseDeadline (g : BitVec 3) (b : BitVec 6)
  | feedWrite (core : CoreId)
  | tailRegisterWrite (k : BitVec 12) (value : Word)
  | shapeClassWrite (g : BitVec 3) (s : BitVec 8) (high : Bool) (value : Word)
  | gdepthWrite (g : BitVec 3) (value : Word)
  | wlock (i : BitVec 12)
  | wunlock (i : BitVec 12)
  | wscmdReservedOp (op : BitVec 2) (i : BitVec 12)
  | widBinding
  | swatchPeriodic
  | swatchTriggered
  -- events of the change tree
  | patchChange (k : Nat)
  | deltaApply (k : Nat)
  | ptcapWrite (p : BitVec 2) (value : Word)
  | rerrClear (p : BitVec 2) (value : Word)
  -- events of the memory system
  | l2Fill (panel : BitVec 2) (owner : Tag) (line : BitVec 50)
  | leaseReread (ctl : BitVec 3) (k : Nat)
  | tcEntryExpiry (ctl : BitVec 3) (k : Nat)
  /-- A line by its lining number; with `pt`, a page-table line by its physical number (R115, R154). -/
  | l2Eviction (panel : BitVec 2) (line : L2Name)
  | victimEviction (ctl : BitVec 3) (pline : BitVec 42)
  | writebackArrival (k : Nat)
  | updateApply (panel : BitVec 2) (k : Nat)
  | monwWake (core : CoreId)
  | monwTimeout (core : CoreId)
  | refresh (stack : BitVec 3)
  | refreshEnd (stack : BitVec 3)
  | scrubRead (stack : BitVec 3)
  | scrubWriteback (stack : BitVec 3)
  | skewCompare (ctl : BitVec 3)
  | ccinv (p : BitVec 2)
  -- events of the host and the firmware complex
  | uetRmaWrite (port : BitVec 3) (conn : Conn) (region : Nat) (off : Nat) (data : List Byte)
  | uetRmaRead (port : BitVec 3) (conn : Conn) (region : Nat) (off : Nat) (len : Nat)
  | uetSend (port : BitVec 3) (conn : Conn) (receive : Nat) (data : List Byte)
  | logcommitWrite (value : Word)
  | fwbeat
  | watchdogExpiry
  | fallbackPull
  | fallbackStop
  /-- The times of one two-step exchange on a port (R188): Sync sent and received, Delay_Req sent and received. -/
  | ptpMessage (time : PtpTimes)
  | ftCorrection (panel : BitVec 2)
  -- events of the seam links
  | timeSyncSend (link : BitVec 4)
  | timeSyncReceive (link : BitVec 4) (flit : Flit)
  | linkRead (link : BitVec 4) (flit : Flit)
  | linkWrite (link : BitVec 4) (flit : Flit)
  | linkAtomic (link : BitVec 4) (flit : Flit)
  | linkSignal (link : BitVec 4) (flit : Flit)
  | linkSchedBlock (link : BitVec 4) (flit : Flit)
  | linkManagement (link : BitVec 4) (flit : Flit)
  | linkReply (link : BitVec 4) (flit : Flit)
  | linkFlitCorrupt (link : BitVec 4)
  | linkFlitReserved (link : BitVec 4) (flit : Flit)
  | linkNak (link : BitVec 4) (flit : Flit)
  | linkDown (link : BitVec 4)
  | linkRetrain (link : BitVec 4) (ok : Bool) (ackseq : BitVec 16)
  | linkDiscard (link : BitVec 4)
  -- events of power, monitors and reset
  | p1Entry (cluster : BitVec 3)
  | p1Exit (cluster : BitVec 3)
  | p2Enter (cluster : BitVec 3)
  | p2Exit (cluster : BitVec 3)
  | throttleUpdate (watts : BitVec 16)
  | thermalLimit
  | plimitWrite (value : Word)
  | pmSelectWrite (p : BitVec 2) (j : BitVec 5) (value : Word)
  | moduleReset (b : BootInput)
  -- events of fault handling and pre-emption
  | fresSkip (core : CoreId) (strm : Strm)
  | pkresRelease (g : BitVec 3) (task : BitVec 32)
  | pkresAbandon (g : BitVec 3) (task : BitVec 32)
  | preemptRequest (core : CoreId)
  | budgadd (core : CoreId) (add : BitVec 32)
  | fpark (core : CoreId)
  | awayEntryWrite (core : CoreId) (i : BitVec 3) (w0 w1 : Word)
  | registerWrite (addr : BitVec 56) (value : Word)
  | firmwareComplexAccess (hart : BitVec 2) (addr : BitVec 56) (acc : HartAccess)
  | idleFlit (link : BitVec 4) (flit : Flit)
  | thermalRelease
  | stackTemperatureCrossing (stack : BitVec 3) (hot : Bool)
  deriving DecidableEq, Repr, Inhabited

/-- Who takes a turn: a stream of a core, or an event of the device. -/
inductive Actor where
  | stream (core : CoreId) (strm : Strm)
  | event (e : Instr)
  deriving DecidableEq, Repr, Inhabited

/-- One turn: the arithmetic-clock cycles that pass before it, who takes it (log 1), and how many operations on lines of memory
a word that issues in it makes at once; none where it is performed whole (R59, R166, log 43). -/
structure Turn where
  cycles : Nat
  actor : Actor
  lines : Option Nat := none
  deriving DecidableEq, Repr, Inhabited

end Sys2Proof
end

