-- ==== Sys2Proof/Decode.lean ====
section
/-! DEFINITION. The decoder of stream words and, after it, the encoder, both written from the encoding tables of
spec 12 to 18. The decoder is total: a word is an instruction with the mask of its non-zero reserved bits, or
its opcode is not assigned. A bit is reserved exactly where the encoder of the word's instruction puts none of
the word's own bits. -/

namespace Sys2Proof

/-! ## Reading operand fields -/

/-- The wait byte [63:56] (R57). -/
def getWait (w : Word) : Wait :=
  match (field w 62 2).toNat with
  | 0 => .none
  | 1 => .one (field w 56 6)
  | 2 => .thresh (field w 56 6)
  | _ => .probe (field w 56 6)

/-- The signal byte [55:48] (R58). -/
def getSig (w : Word) : Sig :=
  match (field w 54 2).toNat with
  | 0 => .none
  | 1 => .one (field w 48 6)
  | 2 => .incr (field w 48 6)
  | _ => .issue (field w 48 6)

def getHdr (w : Word) : Hdr := { wait := getWait w, sig := getSig w }

def getLi (w : Word) : LIOp := { d := field w 35 5, imm := field w 0 35 }
def getLih (w : Word) : LIHOp := { d := field w 35 5, imm := field w 0 32 }
def getRr3 (w : Word) : RR3 := { d := field w 35 5, s1 := field w 30 5, s2 := field w 25 5 }
def getRr2 (w : Word) : RR2 := { d := field w 35 5, s1 := field w 30 5 }
def getRr3k (w : Word) : RR3K :=
  { d := field w 35 5, s1 := field w 30 5, s2 := field w 25 5, k := field w 0 3 }
def getRr2k (w : Word) : RR2K := { d := field w 35 5, s1 := field w 30 5, k := field w 0 3 }
def getRr3s (w : Word) : RR3S :=
  { d := field w 35 5, s1 := field w 30 5, s2 := field w 25 5, sgn := bit w 0 }
def getRi (w : Word) : RIOp := { d := field w 35 5, s1 := field w 30 5, imm := field w 0 30 }
def getSh (w : Word) : ShiftOp := { d := field w 35 5, s1 := field w 30 5, n := field w 0 6 }
def getM (w : Word) : MOp :=
  { reg := field w 35 5, base := field w 30 5, size := field w 27 3, sx := bit w 26, off := field w 0 26 }
def getPfm (w : Word) : PfmOp := { n1 := field w 35 5, base := field w 30 5, off := field w 0 26 }
def getB (w : Word) : BOp := { s1 := field w 35 5, s2 := field w 30 5, off := field w 0 30 }
def getAt (w : Word) : ATOp :=
  { d := field w 35 5, base := field w 30 5, s2 := field w 25 5, size := field w 22 3,
    sg := bit w 21, off := field w 0 21 }
/-- GSET reserves d (R249). -/
def getGset (w : Word) : ATOp := { getAt w with d := 0 }
/-- GCLR reserves d and s2 (R249). -/
def getGclr (w : Word) : ATOp := { getAt w with d := 0, s2 := 0 }
/-- FINC reserves s1 for the issuing core's flag (R250: s1 is zero). -/
def getFinc (w : Word) : FincOp :=
  { vf := field w 34 6, rem := bit w 33, s1 := if bit w 33 then field w 28 5 else 0,
    amount := field w 0 16 }
def getFset (w : Word) : FsetOp :=
  { vf := field w 34 6, fld := field w 32 2, s1 := field w 27 5, imm := field w 0 16 }
def getFrd (w : Word) : FrdOp := { d := field w 35 5, vf := field w 29 6 }
def getFwait (w : Word) : FwaitOp := { vf := field w 34 6, keep := bit w 33, n := field w 0 16 }
def getBbind (w : Word) : BbindOp := { b := field w 35 5, s1 := field w 30 5 }
def getBwait (w : Word) : BwaitOp := { b := field w 35 5, n := field w 0 7 }
def getBob (w : Word) : BitVec 5 := field w 35 5
def getOwn (w : Word) : OwnOp := { first := field w 32 8, n1 := field w 24 8, v := bit w 0 }
def getRingset (w : Word) : RingSetOp :=
  { strm := field w 37 3, size := field w 32 4, base := field w 0 13 }
def getRingpub (w : Word) : RingPubOp :=
  { strm := field w 37 3, val := if bit w 34 then .reg (field w 0 5) else .imm (field w 0 32) }
def getRingrd (w : Word) : RingRdOp := { d := field w 35 5, strm := field w 32 3, sel := bit w 0 }
def getMark (w : Word) : MarkOp :=
  { token := field w 38 2, c := bit w 37, v := bit w 36, m := bit w 35 }
def getTop2 (w : Word) : BitVec 2 := field w 38 2
def getD (w : Word) : Reg := field w 35 5
def getS1 (w : Word) : Reg := field w 30 5
def getRbtld (w : Word) : RbtldOp :=
  { d := field w 35 5, s1 := field w 30 5, blk := field w 3 6, w := field w 0 3 }
def getB0 (w : Word) : Bool := bit w 0
def getN16 (w : Word) : BitVec 16 := field w 0 16
def getN8 (w : Word) : BitVec 8 := field w 0 8
def getT4 (w : Word) : Tree4 :=
  { d := field w 35 5, s1 := field w 30 5, s2 := field w 25 5, s3 := field w 20 5 }
def getT3 (w : Word) : Tree3 := { s1 := field w 30 5, s2 := field w 25 5, s3 := field w 20 5 }
def getSs (w : Word) : SS := { s1 := field w 30 5, s2 := field w 25 5 }
def getTread (w : Word) : TreadOp := { d := field w 35 5, s1 := field w 30 5, patch := bit w 0 }
def getTick (w : Word) : TickOp := { d := field w 35 5, ctxd := bit w 3, dom := field w 0 3 }
def getPm (w : Word) : PmOp := { d := field w 35 5, n := field w 0 3 }
def getCsrr (w : Word) : CsrOp := { r := field w 35 5, n := field w 0 12 }
def getCsrw (w : Word) : CsrOp := { r := field w 30 5, n := field w 0 12 }
def getCtx (w : Word) : CtxOp := { s1 := field w 30 5, spad := bit w 0 }
def getCmp (w : Word) : CmpOp :=
  { p := field w 35 3, s1 := field w 30 5, s2 := field w 25 5, k := field w 0 3 }
/-- PLOG's `not` reserves s2 (R278: s2 zero). -/
def getPlog (w : Word) : PlogOp :=
  { p := field w 35 3, s1 := field w 30 3, s2 := if field w 0 3 = 4 then 0 else field w 25 3,
    op := field w 0 3 }
def getCvtf (w : Word) : CvtfOp :=
  { d := field w 35 5, s1 := field w 30 5, sg := bit w 4, rnd := field w 0 3 }
def getCvti (w : Word) : CvtiOp :=
  { d := field w 35 5, s1 := field w 30 5, wid := field w 5 2, sg := bit w 4, rnd := field w 0 3 }
def getCvtn (w : Word) : CvtnOp :=
  { d := field w 35 5, s1 := field w 30 5, fs := field w 5 4, dir := bit w 4, sat := bit w 3,
    rnd := field w 0 3 }
def getBrp (w : Word) : BrpOp := { p := field w 35 3, neg := bit w 30, off := field w 0 30 }
def getLoop (w : Word) : LoopOp := { s1 := field w 35 5, off := field w 0 30 }

/-- PT [5] and PROW [23:16] (R297, R312, R326). -/
def getPass (w : Word) : Pass := if bit w 5 then some (field w 16 8) else none

def getDset (w : Word) : DsetOp :=
  { d := field w 36 4, q := field w 34 2, value := field w 0 32 }
def getWload (w : Word) : WloadOp := { d1 := field w 32 4, stg := bit w 6 }
/-- WST [7] and STG [6], or d2 (R297). -/
def getBsrc (w : Word) : BSrc := if bit w 7 then .stage (bit w 6) else .desc (field w 28 4)
def getMma (w : Word) : MmaOp :=
  { d0 := field w 36 4, d1 := field w 32 4, b := getBsrc w, pass := getPass w }
def getGmma (w : Word) : GmmaOp :=
  { d0 := field w 36 4, d1 := field w 32 4, d2 := field w 28 4, pass := getPass w }
def getSmma (w : Word) : SmmaOp :=
  { d0 := field w 36 4, d1 := field w 32 4, b := getBsrc w, q := field w 8 2, pass := getPass w }
def getMqbind (w : Word) : MqbindOp := { q := field w 8 2, mode := bit w 0 }
def getAclr (w : Word) : AclrOp := { d0 := field w 36 4, mode := bit w 0, pass := getPass w }
def getD2p (w : Word) : D2Pass := { d0 := field w 36 4, d1 := field w 32 4, pass := getPass w }
def getD2c (w : Word) : D2Conv :=
  { d0 := field w 36 4, d1 := field w 32 4, pass := getPass w, sat := bit w 3, rnd := field w 0 3 }
def getVbin (w : Word) : VBinOp :=
  { d0 := field w 36 4, d1 := field w 32 4, d2 := field w 28 4, br := bit w 7, pass := getPass w,
    sat := bit w 3, rnd := field w 0 3 }
def getVfma (w : Word) : VFmaOp :=
  { d0 := field w 36 4, d1 := field w 32 4, d2 := field w 28 4, d3 := field w 24 4, br := bit w 7,
    bc := bit w 6, pass := getPass w, sat := bit w 3, rnd := field w 0 3 }
def getVbcast (w : Word) : VBcastOp :=
  { d0 := field w 36 4, d1 := field w 32 4, col := bit w 8, pass := getPass w, sat := bit w 3,
    rnd := field w 0 3 }
def getVepi (w : Word) : VEpiOp :=
  { d0 := field w 36 4, d1 := field w 32 4, bias := if bit w 12 then some (field w 28 4) else none,
    fn := field w 8 4, pass := getPass w, sat := bit w 3, rnd := field w 0 3 }
def getCfill (w : Word) : CfillOp :=
  { d0 := field w 36 4, value := field w 8 16, sat := bit w 3, rnd := field w 0 3 }
def getCmcast (w : Word) : CmcastOp :=
  { d0 := field w 36 4, d1 := field w 32 4, storer := bit w 23,
    tflag := if bit w 22 then some (field w 16 6) else none, n1 := field w 8 8, sat := bit w 3,
    rnd := field w 0 3 }
def getCwbind (w : Word) : CwbindOp :=
  { d0 := field w 36 4, d1 := field w 32 4, win := field w 16 2, n1 := field w 8 8, sat := bit w 3,
    rnd := field w 0 3 }
def getCwadv (w : Word) : CwadvOp := { win := field w 16 2, n1 := field w 8 8 }
def getD1 (w : Word) : Desc := field w 32 4
/-- CPFA moves and converts rows (R324), so it holds SAT and RND (R326): DEDUCED (log 25). -/
def getCpfa (w : Word) : CpfaOp :=
  { d0 := field w 36 4, d1 := field w 32 4, sat := bit w 3, rnd := field w 0 3 }
def getCmeta (w : Word) : CmetaOp := { d1 := field w 32 4, q := field w 8 2 }
/-- CLSEND names its source in d1 (R326's words, R336). -/
def getClsend (w : Word) : ClOp := { d := field w 32 4, link := field w 20 4, block := field w 8 12 }
/-- CLRECV names its destination in d0. -/
def getClrecv (w : Word) : ClOp := { d := field w 36 4, link := field w 20 4, block := field w 8 12 }
def getClred (w : Word) : ClredOp :=
  { d0 := field w 36 4, d1 := field w 32 4, link := field w 20 4, block := field w 8 12,
    sat := bit w 3, rnd := field w 0 3 }

/-! ## Opcode maps -/

/-- The opcode map of the A stream (R217): the instruction a word holds, its reserved bits ignored. -/
def decodeA (w : Word) : Option Instr :=
  let h := getHdr w
  match (field w 40 8).toNat with
  | 0x00 => some (.aNop h)
  | 0x01 => some (.aLi h (getLi w))
  | 0x02 => some (.aLih h (getLih w))
  | 0x03 => some (.aAdd h (getRr3 w))
  | 0x04 => some (.aAddi h (getRi w))
  | 0x05 => some (.aSub h (getRr3 w))
  | 0x06 => some (.aAnd h (getRr3 w))
  | 0x07 => some (.aOr h (getRr3 w))
  | 0x08 => some (.aXor h (getRr3 w))
  | 0x09 => some (.shli h (getSh w))
  | 0x0A => some (.shri h (getSh w))
  | 0x0B => some (.lea h (getRr3k w))
  | 0x10 => some (.lds h (getM w))
  | 0x11 => some (.sts h (getM w))
  | 0x12 => some (.ldm h (getM w))
  | 0x13 => some (.stm h (getM w))
  | 0x14 => some (.ldc h (getM w))
  | 0x15 => some (.csync h)
  | 0x16 => some (.pfm h (getPfm w))
  | 0x18 => some (.beq h (getB w))
  | 0x19 => some (.bne h (getB w))
  | 0x1A => some (.blt h (getB w))
  | 0x1B => some (.bge h (getB w))
  | 0x1C => some (.aJmp h (getLi w))
  | 0x1D => some (.aJr h (getRr2 w))
  | 0x20 => some (.aadd h (getAt w))
  | 0x21 => some (.aaddb h (getAt w))
  | 0x22 => some (.amax h (getAt w))
  | 0x23 => some (.amin h (getAt w))
  | 0x24 => some (.aor h (getAt w))
  | 0x25 => some (.axchg h (getAt w))
  | 0x26 => some (.acas h (getAt w))
  | 0x27 => some (.raddf h (getAt w))
  | 0x28 => some (.gset h (getGset w))
  | 0x29 => some (.gclr h (getGclr w))
  | 0x2A => some (.gld h (getAt w))
  | 0x30 => some (.finc h (getFinc w))
  | 0x31 => some (.fset h (getFset w))
  | 0x32 => some (.frd h (getFrd w))
  | 0x33 => some (.fwait h (getFwait w))
  | 0x34 => some (.bbind h (getBbind w))
  | 0x35 => some (.bfillw h (getBwait w))
  | 0x36 => some (.bfreew h (getBwait w))
  | 0x37 => some (.badv h (getBob w))
  | 0x38 => some (.brel h (getBob w))
  | 0x3C => some (.own h (getOwn w))
  | 0x3D => some (.ringset h (getRingset w))
  | 0x3E => some (.ringpub h (getRingpub w))
  | 0x3F => some (.ringrd h (getRingrd w))
  | 0x40 => some (.mark h (getMark w))
  | 0x41 => some (.join h (getTop2 w))
  | 0x42 => some (.fence h (getTop2 w))
  | 0x43 => some (.monw h (getAt w))
  | 0x48 => some (.enq h (getRr2 w))
  | 0x49 => some (.poppass h (getD w))
  | 0x4A => some (.passdone h)
  | 0x4B => some (.rbtld h (getRbtld w))
  | 0x4C => some (.yield h (getB0 w))
  | 0x4D => some (.aSafe h (getN16 w))
  | 0x4E => some (.stadv h (getN8 w))
  | 0x50 => some (.tnode h (getRr3 w))
  | 0x51 => some (.tenrol h (getT4 w))
  | 0x52 => some (.tunrol h (getT3 w))
  | 0x53 => some (.trepar h (getSs w))
  | 0x54 => some (.tsettle h (getS1 w))
  | 0x55 => some (.tread h (getTread w))
  | 0x56 => some (.tfree h (getS1 w))
  | 0x58 => some (.aFtrd h (getD w))
  | 0x59 => some (.tickrd h (getTick w))
  | 0x5A => some (.pmrd h (getPm w))
  | 0x60 => some (.sysc h (getN16 w))
  | 0x61 => some (.rfe h)
  | 0x62 => some (.csrr h (getCsrr w))
  | 0x63 => some (.csrw h (getCsrw w))
  | 0x64 => some (.lptw h (getRr3k w))
  | 0x65 => some (.ldrain h (getRr2 w))
  | 0x66 => some (.lconf h (getSs w))
  | 0x67 => some (.keyset h (getSs w))
  | 0x68 => some (.keykill h (getS1 w))
  | 0x69 => some (.fmap h (getS1 w))
  | 0x6A => some (.ctxsv h (getCtx w))
  | 0x6B => some (.ctxld h (getCtx w))
  | _ => none

/-- The opcode map of the X stream (R217): the instruction a word holds, its reserved bits ignored. -/
def decodeX (w : Word) : Option Instr :=
  let h := getHdr w
  match (field w 40 8).toNat with
  | 0x00 => some (.xNop h)
  | 0x01 => some (.xLi h (getLi w))
  | 0x02 => some (.xLih h (getLih w))
  | 0x03 => some (.xAdd h (getRr3 w))
  | 0x04 => some (.xAddi h (getRi w))
  | 0x05 => some (.xSub h (getRr3 w))
  | 0x06 => some (.mul h (getRr3 w))
  | 0x07 => some (.mulh h (getRr3k w))
  | 0x08 => some (.div h (getRr3s w))
  | 0x09 => some (.rem h (getRr3s w))
  | 0x0A => some (.xAnd h (getRr3 w))
  | 0x0B => some (.xOr h (getRr3 w))
  | 0x0C => some (.xXor h (getRr3 w))
  | 0x0D => some (.shl h (getRr3 w))
  | 0x0E => some (.shr h (getRr3 w))
  | 0x0F => some (.sra h (getRr3 w))
  | 0x10 => some (.min h (getRr3s w))
  | 0x11 => some (.max h (getRr3s w))
  | 0x12 => some (.popc h (getRr2 w))
  | 0x13 => some (.clz h (getRr2 w))
  | 0x18 => some (.cmp h (getCmp w))
  | 0x19 => some (.sel h (getRr3k w))
  | 0x1A => some (.plog h (getPlog w))
  | 0x20 => some (.fadd h (getRr3k w))
  | 0x21 => some (.fsub h (getRr3k w))
  | 0x22 => some (.fmul h (getRr3k w))
  | 0x23 => some (.ffma h (getRr3k w))
  | 0x24 => some (.fmin h (getRr3 w))
  | 0x25 => some (.fmax h (getRr3 w))
  | 0x26 => some (.fdiv h (getRr3k w))
  | 0x27 => some (.fsqrt h (getRr2k w))
  | 0x28 => some (.fcmp h (getCmp w))
  | 0x2C => some (.cvtf h (getCvtf w))
  | 0x2D => some (.cvti h (getCvti w))
  | 0x2E => some (.cvtn h (getCvtn w))
  | 0x30 => some (.brp h (getBrp w))
  | 0x31 => some (.xJmp h (getLi w))
  | 0x32 => some (.xJr h (getRr2 w))
  | 0x33 => some (.loop h (getLoop w))
  | 0x38 => some (.xSafe h (getN16 w))
  | 0x39 => some (.xFtrd h (getD w))
  | _ => none

/-- The opcode map of the M stream (R217): the instruction a word holds, its reserved bits ignored. -/
def decodeM (w : Word) : Option Instr :=
  let h := getHdr w
  match (field w 40 8).toNat with
  | 0x00 => some (.mNop h)
  | 0x01 => some (.mDset h (getDset w))
  | 0x10 => some (.wload h (getWload w))
  | 0x11 => some (.mma h (getMma w))
  | 0x12 => some (.gmma h (getGmma w))
  | 0x13 => some (.smma h (getSmma w))
  | 0x14 => some (.mqbind h (getMqbind w))
  | 0x18 => some (.aclr h (getAclr w))
  | 0x19 => some (.ald h (getD2p w))
  | 0x1A => some (.ast h (getD2c w))
  | 0x1B => some (.ascl h (getD2p w))
  | _ => none

/-- The opcode map of the V stream (R217): the instruction a word holds, its reserved bits ignored. -/
def decodeV (w : Word) : Option Instr :=
  let h := getHdr w
  match (field w 40 8).toNat with
  | 0x00 => some (.vNop h)
  | 0x01 => some (.vDset h (getDset w))
  | 0x10 => some (.vadd h (getVbin w))
  | 0x11 => some (.vsub h (getVbin w))
  | 0x12 => some (.vmul h (getVbin w))
  | 0x13 => some (.vmax h (getVbin w))
  | 0x14 => some (.vmin h (getVbin w))
  | 0x15 => some (.vfma h (getVfma w))
  | 0x18 => some (.vexp h (getD2c w))
  | 0x19 => some (.vlog h (getD2c w))
  | 0x1A => some (.vrcp h (getD2c w))
  | 0x1B => some (.vrsq h (getD2c w))
  | 0x1C => some (.vtanh h (getD2c w))
  | 0x1D => some (.vgelu h (getD2c w))
  | 0x1E => some (.vsilu h (getD2c w))
  | 0x1F => some (.vabs h (getD2c w))
  | 0x20 => some (.vcvt h (getD2c w))
  | 0x21 => some (.vqmx h (getD2c w))
  | 0x22 => some (.vdqmx h (getD2c w))
  | 0x28 => some (.vrsum h (getD2c w))
  | 0x29 => some (.vrmax h (getD2c w))
  | 0x2A => some (.vcsum h (getD2c w))
  | 0x30 => some (.vbcast h (getVbcast w))
  | 0x31 => some (.vtrn h (getD2c w))
  | 0x32 => some (.vepi h (getVepi w))
  | 0x33 => some (.vtagsel h (getD2c w))
  | _ => none

/-- The opcode map of the C stream (R217): the instruction a word holds, its reserved bits ignored. -/
def decodeC (w : Word) : Option Instr :=
  let h := getHdr w
  match (field w 40 8).toNat with
  | 0x00 => some (.cNop h)
  | 0x01 => some (.cDset h (getDset w))
  | 0x10 => some (.ccopy h (getD2c w))
  | 0x11 => some (.cfill h (getCfill w))
  | 0x12 => some (.cgath h (getD2c w))
  | 0x13 => some (.cscat h (getD2c w))
  | 0x14 => some (.cmcast h (getCmcast w))
  | 0x18 => some (.cwbind h (getCwbind w))
  | 0x19 => some (.cwadv h (getCwadv w))
  | 0x1A => some (.csched h (getD1 w))
  | 0x1C => some (.cpfa h (getCpfa w))
  | 0x1D => some (.cmeta h (getCmeta w))
  | 0x20 => some (.clsend h (getClsend w))
  | 0x21 => some (.clrecv h (getClrecv w))
  | 0x22 => some (.clred h (getClred w))
  | _ => none

/-- The instruction of a stream's word, its reserved bits ignored; none for an unassigned opcode (R368). -/
def decodeLoose (t : Strm) (w : Word) : Option Instr :=
  match t with
  | .a => decodeA w
  | .x => decodeX w
  | .m => decodeM w
  | .v => decodeV w
  | .c => decodeC w

/-! ## The encoder -/

def Wait.enc : Wait → BitVec 8
  | .none => 0
  | .one v => 1#2 ++ v
  | .thresh v => 2#2 ++ v
  | .probe v => 3#2 ++ v

def Sig.enc : Sig → BitVec 8
  | .none => 0
  | .one v => 1#2 ++ v
  | .incr v => 2#2 ++ v
  | .issue v => 3#2 ++ v

def Hdr.enc (h : Hdr) : BitVec 16 := h.wait.enc ++ h.sig.enc

def putLi (o : LIOp) : BitVec 40 := o.d ++ o.imm
def putLih (o : LIHOp) : BitVec 40 := o.d ++ 0#3 ++ o.imm
def putRr3 (o : RR3) : BitVec 40 := o.d ++ o.s1 ++ o.s2 ++ 0#25
def putRr2 (o : RR2) : BitVec 40 := o.d ++ o.s1 ++ 0#30
def putRr3k (o : RR3K) : BitVec 40 := o.d ++ o.s1 ++ o.s2 ++ 0#22 ++ o.k
def putRr2k (o : RR2K) : BitVec 40 := o.d ++ o.s1 ++ 0#27 ++ o.k
def putRr3s (o : RR3S) : BitVec 40 := o.d ++ o.s1 ++ o.s2 ++ 0#24 ++ ofBool 1 o.sgn
def putRi (o : RIOp) : BitVec 40 := o.d ++ o.s1 ++ o.imm
def putSh (o : ShiftOp) : BitVec 40 := o.d ++ o.s1 ++ 0#24 ++ o.n
def putM (o : MOp) : BitVec 40 := o.reg ++ o.base ++ o.size ++ ofBool 1 o.sx ++ o.off
def putPfm (o : PfmOp) : BitVec 40 := o.n1 ++ o.base ++ 0#4 ++ o.off
def putB (o : BOp) : BitVec 40 := o.s1 ++ o.s2 ++ o.off
def putAt (o : ATOp) : BitVec 40 := o.d ++ o.base ++ o.s2 ++ o.size ++ ofBool 1 o.sg ++ o.off
def putGset (o : ATOp) : BitVec 40 := putAt { o with d := 0 }
def putGclr (o : ATOp) : BitVec 40 := putAt { o with d := 0, s2 := 0 }
def putFinc (o : FincOp) : BitVec 40 :=
  o.vf ++ ofBool 1 o.rem ++ (if o.rem then o.s1 else 0) ++ 0#12 ++ o.amount
def putFset (o : FsetOp) : BitVec 40 := o.vf ++ o.fld ++ o.s1 ++ 0#11 ++ o.imm
def putFrd (o : FrdOp) : BitVec 40 := o.d ++ o.vf ++ 0#29
def putFwait (o : FwaitOp) : BitVec 40 := o.vf ++ ofBool 1 o.keep ++ 0#17 ++ o.n
def putBbind (o : BbindOp) : BitVec 40 := o.b ++ o.s1 ++ 0#30
def putBwait (o : BwaitOp) : BitVec 40 := o.b ++ 0#28 ++ o.n
def putBob (b : BitVec 5) : BitVec 40 := b ++ 0#35
def putOwn (o : OwnOp) : BitVec 40 := o.first ++ o.n1 ++ 0#23 ++ ofBool 1 o.v
def putRingset (o : RingSetOp) : BitVec 40 := o.strm ++ 0#1 ++ o.size ++ 0#19 ++ o.base
def putRingpub (o : RingPubOp) : BitVec 40 :=
  match o.val with
  | .imm u => o.strm ++ 0#2 ++ 0#1 ++ 0#2 ++ u
  | .reg r => o.strm ++ 0#2 ++ 1#1 ++ 0#2 ++ 0#27 ++ r
def putRingrd (o : RingRdOp) : BitVec 40 := o.d ++ o.strm ++ 0#31 ++ ofBool 1 o.sel
def putMark (o : MarkOp) : BitVec 40 :=
  o.token ++ ofBool 1 o.c ++ ofBool 1 o.v ++ ofBool 1 o.m ++ 0#35
def putTop2 (t : BitVec 2) : BitVec 40 := t ++ 0#38
def putD (d : Reg) : BitVec 40 := d ++ 0#35
def putS1 (r : Reg) : BitVec 40 := 0#5 ++ r ++ 0#30
def putRbtld (o : RbtldOp) : BitVec 40 := o.d ++ o.s1 ++ 0#21 ++ o.blk ++ o.w
def putB0 (b : Bool) : BitVec 40 := 0#39 ++ ofBool 1 b
def putN16 (n : BitVec 16) : BitVec 40 := 0#24 ++ n
def putN8 (n : BitVec 8) : BitVec 40 := 0#32 ++ n
def putT4 (o : Tree4) : BitVec 40 := o.d ++ o.s1 ++ o.s2 ++ o.s3 ++ 0#20
def putT3 (o : Tree3) : BitVec 40 := 0#5 ++ o.s1 ++ o.s2 ++ o.s3 ++ 0#20
def putSs (o : SS) : BitVec 40 := 0#5 ++ o.s1 ++ o.s2 ++ 0#25
def putTread (o : TreadOp) : BitVec 40 := o.d ++ o.s1 ++ 0#29 ++ ofBool 1 o.patch
def putTick (o : TickOp) : BitVec 40 := o.d ++ 0#31 ++ ofBool 1 o.ctxd ++ o.dom
def putPm (o : PmOp) : BitVec 40 := o.d ++ 0#32 ++ o.n
def putCsrr (o : CsrOp) : BitVec 40 := o.r ++ 0#23 ++ o.n
def putCsrw (o : CsrOp) : BitVec 40 := 0#5 ++ o.r ++ 0#18 ++ o.n
def putCtx (o : CtxOp) : BitVec 40 := 0#5 ++ o.s1 ++ 0#29 ++ ofBool 1 o.spad
def putCmp (o : CmpOp) : BitVec 40 := 0#2 ++ o.p ++ o.s1 ++ o.s2 ++ 0#22 ++ o.k
def putPlog (o : PlogOp) : BitVec 40 :=
  0#2 ++ o.p ++ 0#2 ++ o.s1 ++ 0#2 ++ (if o.op = 4 then 0 else o.s2) ++ 0#22 ++ o.op
def putCvtf (o : CvtfOp) : BitVec 40 := o.d ++ o.s1 ++ 0#25 ++ ofBool 1 o.sg ++ 0#1 ++ o.rnd
def putCvti (o : CvtiOp) : BitVec 40 :=
  o.d ++ o.s1 ++ 0#23 ++ o.wid ++ ofBool 1 o.sg ++ 0#1 ++ o.rnd
def putCvtn (o : CvtnOp) : BitVec 40 :=
  o.d ++ o.s1 ++ 0#21 ++ o.fs ++ ofBool 1 o.dir ++ ofBool 1 o.sat ++ o.rnd
def putBrp (o : BrpOp) : BitVec 40 := 0#2 ++ o.p ++ 0#4 ++ ofBool 1 o.neg ++ o.off
def putLoop (o : LoopOp) : BitVec 40 := o.s1 ++ 0#5 ++ o.off

/-- PROW, or zero without PT. -/
def prowBits (p : Pass) : BitVec 8 := p.getD 0
/-- PT. -/
def ptBit (p : Pass) : BitVec 1 := ofBool 1 p.isSome
/-- Field [7:6] of the B operand: WST and STG. -/
def bsrcBits : BSrc → BitVec 2
  | .desc _ => 0
  | .stage st => 1#1 ++ ofBool 1 st
/-- Field d2 of the B operand. -/
def bsrcDesc : BSrc → BitVec 4
  | .desc d => d
  | .stage _ => 0

def putDset (o : DsetOp) : BitVec 40 := o.d ++ o.q ++ 0#2 ++ o.value
def putWload (o : WloadOp) : BitVec 40 := 0#4 ++ o.d1 ++ 0#25 ++ ofBool 1 o.stg ++ 0#6
def putMma (o : MmaOp) : BitVec 40 :=
  o.d0 ++ o.d1 ++ bsrcDesc o.b ++ 0#4 ++ prowBits o.pass ++ 0#8 ++ bsrcBits o.b ++ ptBit o.pass ++ 0#5
def putGmma (o : GmmaOp) : BitVec 40 :=
  o.d0 ++ o.d1 ++ o.d2 ++ 0#4 ++ prowBits o.pass ++ 0#10 ++ ptBit o.pass ++ 0#5
def putSmma (o : SmmaOp) : BitVec 40 :=
  o.d0 ++ o.d1 ++ bsrcDesc o.b ++ 0#4 ++ prowBits o.pass ++ 0#6 ++ o.q ++ bsrcBits o.b ++ ptBit o.pass ++ 0#5
def putMqbind (o : MqbindOp) : BitVec 40 := 0#30 ++ o.q ++ 0#7 ++ ofBool 1 o.mode
def putAclr (o : AclrOp) : BitVec 40 :=
  o.d0 ++ 0#12 ++ prowBits o.pass ++ 0#10 ++ ptBit o.pass ++ 0#4 ++ ofBool 1 o.mode
def putD2p (o : D2Pass) : BitVec 40 :=
  o.d0 ++ o.d1 ++ 0#8 ++ prowBits o.pass ++ 0#10 ++ ptBit o.pass ++ 0#5
def putD2c (o : D2Conv) : BitVec 40 :=
  o.d0 ++ o.d1 ++ 0#8 ++ prowBits o.pass ++ 0#10 ++ ptBit o.pass ++ 0#1 ++ ofBool 1 o.sat ++ o.rnd
def putVbin (o : VBinOp) : BitVec 40 :=
  o.d0 ++ o.d1 ++ o.d2 ++ 0#4 ++ prowBits o.pass ++ 0#8 ++ ofBool 1 o.br ++ 0#1 ++ ptBit o.pass ++ 0#1 ++
    ofBool 1 o.sat ++ o.rnd
def putVfma (o : VFmaOp) : BitVec 40 :=
  o.d0 ++ o.d1 ++ o.d2 ++ o.d3 ++ prowBits o.pass ++ 0#8 ++ ofBool 1 o.br ++ ofBool 1 o.bc ++ ptBit o.pass ++
    0#1 ++ ofBool 1 o.sat ++ o.rnd
def putVbcast (o : VBcastOp) : BitVec 40 :=
  o.d0 ++ o.d1 ++ 0#8 ++ prowBits o.pass ++ 0#7 ++ ofBool 1 o.col ++ 0#2 ++ ptBit o.pass ++ 0#1 ++
    ofBool 1 o.sat ++ o.rnd
def putVepi (o : VEpiOp) : BitVec 40 :=
  o.d0 ++ o.d1 ++ o.bias.getD 0 ++ 0#4 ++ prowBits o.pass ++ 0#3 ++ ofBool 1 o.bias.isSome ++ o.fn ++ 0#2 ++
    ptBit o.pass ++ 0#1 ++ ofBool 1 o.sat ++ o.rnd
def putCfill (o : CfillOp) : BitVec 40 :=
  o.d0 ++ 0#12 ++ o.value ++ 0#4 ++ ofBool 1 o.sat ++ o.rnd
def putCmcast (o : CmcastOp) : BitVec 40 :=
  o.d0 ++ o.d1 ++ 0#8 ++ ofBool 1 o.storer ++ ofBool 1 o.tflag.isSome ++ o.tflag.getD 0 ++ o.n1 ++ 0#4 ++
    ofBool 1 o.sat ++ o.rnd
def putCwbind (o : CwbindOp) : BitVec 40 :=
  o.d0 ++ o.d1 ++ 0#14 ++ o.win ++ o.n1 ++ 0#4 ++ ofBool 1 o.sat ++ o.rnd
def putCwadv (o : CwadvOp) : BitVec 40 := 0#22 ++ o.win ++ o.n1 ++ 0#8
def putD1 (d : Desc) : BitVec 40 := 0#4 ++ d ++ 0#32
def putCpfa (o : CpfaOp) : BitVec 40 := o.d0 ++ o.d1 ++ 0#28 ++ ofBool 1 o.sat ++ o.rnd
def putCmeta (o : CmetaOp) : BitVec 40 := 0#4 ++ o.d1 ++ 0#22 ++ o.q ++ 0#8
def putClsend (o : ClOp) : BitVec 40 := 0#4 ++ o.d ++ 0#8 ++ o.link ++ o.block ++ 0#8
def putClrecv (o : ClOp) : BitVec 40 := o.d ++ 0#12 ++ o.link ++ o.block ++ 0#8
def putClred (o : ClredOp) : BitVec 40 :=
  o.d0 ++ o.d1 ++ 0#8 ++ o.link ++ o.block ++ 0#4 ++ ofBool 1 o.sat ++ o.rnd

/-- The upper bytes of a stream word (R56). -/
def Instr.hdr? : Instr → Option (Strm × Hdr)
  | .aNop h => some (.a, h)
  | .aLi h _ => some (.a, h)
  | .aLih h _ => some (.a, h)
  | .aAdd h _ => some (.a, h)
  | .aAddi h _ => some (.a, h)
  | .aSub h _ => some (.a, h)
  | .aAnd h _ => some (.a, h)
  | .aOr h _ => some (.a, h)
  | .aXor h _ => some (.a, h)
  | .shli h _ => some (.a, h)
  | .shri h _ => some (.a, h)
  | .lea h _ => some (.a, h)
  | .lds h _ => some (.a, h)
  | .sts h _ => some (.a, h)
  | .ldm h _ => some (.a, h)
  | .stm h _ => some (.a, h)
  | .ldc h _ => some (.a, h)
  | .csync h => some (.a, h)
  | .pfm h _ => some (.a, h)
  | .beq h _ => some (.a, h)
  | .bne h _ => some (.a, h)
  | .blt h _ => some (.a, h)
  | .bge h _ => some (.a, h)
  | .aJmp h _ => some (.a, h)
  | .aJr h _ => some (.a, h)
  | .aadd h _ => some (.a, h)
  | .aaddb h _ => some (.a, h)
  | .amax h _ => some (.a, h)
  | .amin h _ => some (.a, h)
  | .aor h _ => some (.a, h)
  | .axchg h _ => some (.a, h)
  | .acas h _ => some (.a, h)
  | .raddf h _ => some (.a, h)
  | .gset h _ => some (.a, h)
  | .gclr h _ => some (.a, h)
  | .gld h _ => some (.a, h)
  | .finc h _ => some (.a, h)
  | .fset h _ => some (.a, h)
  | .frd h _ => some (.a, h)
  | .fwait h _ => some (.a, h)
  | .bbind h _ => some (.a, h)
  | .bfillw h _ => some (.a, h)
  | .bfreew h _ => some (.a, h)
  | .badv h _ => some (.a, h)
  | .brel h _ => some (.a, h)
  | .own h _ => some (.a, h)
  | .ringset h _ => some (.a, h)
  | .ringpub h _ => some (.a, h)
  | .ringrd h _ => some (.a, h)
  | .mark h _ => some (.a, h)
  | .join h _ => some (.a, h)
  | .fence h _ => some (.a, h)
  | .monw h _ => some (.a, h)
  | .enq h _ => some (.a, h)
  | .poppass h _ => some (.a, h)
  | .passdone h => some (.a, h)
  | .rbtld h _ => some (.a, h)
  | .yield h _ => some (.a, h)
  | .aSafe h _ => some (.a, h)
  | .stadv h _ => some (.a, h)
  | .tnode h _ => some (.a, h)
  | .tenrol h _ => some (.a, h)
  | .tunrol h _ => some (.a, h)
  | .trepar h _ => some (.a, h)
  | .tsettle h _ => some (.a, h)
  | .tread h _ => some (.a, h)
  | .tfree h _ => some (.a, h)
  | .aFtrd h _ => some (.a, h)
  | .tickrd h _ => some (.a, h)
  | .pmrd h _ => some (.a, h)
  | .sysc h _ => some (.a, h)
  | .rfe h => some (.a, h)
  | .csrr h _ => some (.a, h)
  | .csrw h _ => some (.a, h)
  | .lptw h _ => some (.a, h)
  | .ldrain h _ => some (.a, h)
  | .lconf h _ => some (.a, h)
  | .keyset h _ => some (.a, h)
  | .keykill h _ => some (.a, h)
  | .fmap h _ => some (.a, h)
  | .ctxsv h _ => some (.a, h)
  | .ctxld h _ => some (.a, h)
  | .xNop h => some (.x, h)
  | .xLi h _ => some (.x, h)
  | .xLih h _ => some (.x, h)
  | .xAdd h _ => some (.x, h)
  | .xAddi h _ => some (.x, h)
  | .xSub h _ => some (.x, h)
  | .mul h _ => some (.x, h)
  | .mulh h _ => some (.x, h)
  | .div h _ => some (.x, h)
  | .rem h _ => some (.x, h)
  | .xAnd h _ => some (.x, h)
  | .xOr h _ => some (.x, h)
  | .xXor h _ => some (.x, h)
  | .shl h _ => some (.x, h)
  | .shr h _ => some (.x, h)
  | .sra h _ => some (.x, h)
  | .min h _ => some (.x, h)
  | .max h _ => some (.x, h)
  | .popc h _ => some (.x, h)
  | .clz h _ => some (.x, h)
  | .cmp h _ => some (.x, h)
  | .sel h _ => some (.x, h)
  | .plog h _ => some (.x, h)
  | .fadd h _ => some (.x, h)
  | .fsub h _ => some (.x, h)
  | .fmul h _ => some (.x, h)
  | .ffma h _ => some (.x, h)
  | .fmin h _ => some (.x, h)
  | .fmax h _ => some (.x, h)
  | .fdiv h _ => some (.x, h)
  | .fsqrt h _ => some (.x, h)
  | .fcmp h _ => some (.x, h)
  | .cvtf h _ => some (.x, h)
  | .cvti h _ => some (.x, h)
  | .cvtn h _ => some (.x, h)
  | .brp h _ => some (.x, h)
  | .xJmp h _ => some (.x, h)
  | .xJr h _ => some (.x, h)
  | .loop h _ => some (.x, h)
  | .xSafe h _ => some (.x, h)
  | .xFtrd h _ => some (.x, h)
  | .mNop h => some (.m, h)
  | .mDset h _ => some (.m, h)
  | .wload h _ => some (.m, h)
  | .mma h _ => some (.m, h)
  | .gmma h _ => some (.m, h)
  | .smma h _ => some (.m, h)
  | .mqbind h _ => some (.m, h)
  | .aclr h _ => some (.m, h)
  | .ald h _ => some (.m, h)
  | .ast h _ => some (.m, h)
  | .ascl h _ => some (.m, h)
  | .vNop h => some (.v, h)
  | .vDset h _ => some (.v, h)
  | .vadd h _ => some (.v, h)
  | .vsub h _ => some (.v, h)
  | .vmul h _ => some (.v, h)
  | .vmax h _ => some (.v, h)
  | .vmin h _ => some (.v, h)
  | .vfma h _ => some (.v, h)
  | .vexp h _ => some (.v, h)
  | .vlog h _ => some (.v, h)
  | .vrcp h _ => some (.v, h)
  | .vrsq h _ => some (.v, h)
  | .vtanh h _ => some (.v, h)
  | .vgelu h _ => some (.v, h)
  | .vsilu h _ => some (.v, h)
  | .vabs h _ => some (.v, h)
  | .vcvt h _ => some (.v, h)
  | .vqmx h _ => some (.v, h)
  | .vdqmx h _ => some (.v, h)
  | .vrsum h _ => some (.v, h)
  | .vrmax h _ => some (.v, h)
  | .vcsum h _ => some (.v, h)
  | .vbcast h _ => some (.v, h)
  | .vtrn h _ => some (.v, h)
  | .vepi h _ => some (.v, h)
  | .vtagsel h _ => some (.v, h)
  | .cNop h => some (.c, h)
  | .cDset h _ => some (.c, h)
  | .ccopy h _ => some (.c, h)
  | .cfill h _ => some (.c, h)
  | .cgath h _ => some (.c, h)
  | .cscat h _ => some (.c, h)
  | .cmcast h _ => some (.c, h)
  | .cwbind h _ => some (.c, h)
  | .cwadv h _ => some (.c, h)
  | .csched h _ => some (.c, h)
  | .cpfa h _ => some (.c, h)
  | .cmeta h _ => some (.c, h)
  | .clsend h _ => some (.c, h)
  | .clrecv h _ => some (.c, h)
  | .clred h _ => some (.c, h)
  | .wordCompletion _ _ _ => none
  | .engineFetch _ _ => none
  | .schedEntryRelease _ => none
  | .clsendTransmit _ => none
  | .remoteAddition _ => none
  | .lateWordStall _ _ => none
  | .budgetTrap _ => none
  | .preemptEntry _ => none
  | .programLoad _ _ _ _ => none
  | .streamsStart _ => none
  | .sqtailWrite _ _ => none
  | .sqpull _ => none
  | .sqEnable _ _ => none
  | .taskDispatch _ => none
  | .rangeDispatch _ => none
  | .barrierFire _ => none
  | .gathererCycle _ => none
  | .binClosePatience _ _ => none
  | .binCloseDeadline _ _ => none
  | .feedWrite _ => none
  | .tailRegisterWrite _ _ => none
  | .shapeClassWrite _ _ _ _ => none
  | .gdepthWrite _ _ => none
  | .wlock _ => none
  | .wunlock _ => none
  | .wscmdReservedOp _ _ => none
  | .widBinding => none
  | .swatchPeriodic => none
  | .swatchTriggered => none
  | .patchChange _ => none
  | .deltaApply _ => none
  | .ptcapWrite _ _ => none
  | .rerrClear _ _ => none
  | .l2Fill _ _ _ => none
  | .leaseReread _ _ => none
  | .tcEntryExpiry _ _ => none
  | .l2Eviction _ _ => none
  | .victimEviction _ _ => none
  | .writebackArrival _ => none
  | .updateApply _ _ => none
  | .monwWake _ => none
  | .monwTimeout _ => none
  | .refresh _ => none
  | .refreshEnd _ => none
  | .scrubRead _ => none
  | .scrubWriteback _ => none
  | .skewCompare _ => none
  | .ccinv _ => none
  | .uetRmaWrite _ _ _ _ _ => none
  | .uetRmaRead _ _ _ _ _ => none
  | .uetSend _ _ _ _ => none
  | .logcommitWrite _ => none
  | .fwbeat => none
  | .watchdogExpiry => none
  | .fallbackPull => none
  | .fallbackStop => none
  | .ptpMessage _ => none
  | .ftCorrection _ => none
  | .timeSyncSend _ => none
  | .timeSyncReceive _ _ => none
  | .linkRead _ _ => none
  | .linkWrite _ _ => none
  | .linkAtomic _ _ => none
  | .linkSignal _ _ => none
  | .linkSchedBlock _ _ => none
  | .linkManagement _ _ => none
  | .linkReply _ _ => none
  | .linkFlitCorrupt _ => none
  | .linkFlitReserved _ _ => none
  | .linkNak _ _ => none
  | .linkDown _ => none
  | .linkRetrain _ _ _ => none
  | .linkDiscard _ => none
  | .p1Entry _ => none
  | .p1Exit _ => none
  | .p2Enter _ => none
  | .p2Exit _ => none
  | .throttleUpdate _ => none
  | .thermalLimit => none
  | .plimitWrite _ => none
  | .pmSelectWrite _ _ _ => none
  | .moduleReset _ => none
  | .fresRetry _ _ => none
  | .fresSkip _ _ => none
  | .pkresRelease _ _ => none
  | .pkresAbandon _ _ => none
  | .preemptRequest _ => none
  | .budgadd _ _ => none
  | .fpark _ => none
  | .awayEntryWrite _ _ _ _ => none
  | .registerWrite _ _ => none
  | .illegalWord _ _ => none
  | .firmwareComplexAccess _ _ _ => none
  | .idleFlit _ _ => none
  | .thermalRelease => none
  | .stackTemperatureCrossing _ _ => none

/-- The operand field and opcode of a stream word (R212, R215 and each entry), none for an event. -/
def encodeBody : Instr → Option (BitVec 48)
  | .aNop _ => some (0x00#8 ++ 0#40)
  | .aLi _ o => some (0x01#8 ++ putLi o)
  | .aLih _ o => some (0x02#8 ++ putLih o)
  | .aAdd _ o => some (0x03#8 ++ putRr3 o)
  | .aAddi _ o => some (0x04#8 ++ putRi o)
  | .aSub _ o => some (0x05#8 ++ putRr3 o)
  | .aAnd _ o => some (0x06#8 ++ putRr3 o)
  | .aOr _ o => some (0x07#8 ++ putRr3 o)
  | .aXor _ o => some (0x08#8 ++ putRr3 o)
  | .shli _ o => some (0x09#8 ++ putSh o)
  | .shri _ o => some (0x0A#8 ++ putSh o)
  | .lea _ o => some (0x0B#8 ++ putRr3k o)
  | .lds _ o => some (0x10#8 ++ putM o)
  | .sts _ o => some (0x11#8 ++ putM o)
  | .ldm _ o => some (0x12#8 ++ putM o)
  | .stm _ o => some (0x13#8 ++ putM o)
  | .ldc _ o => some (0x14#8 ++ putM o)
  | .csync _ => some (0x15#8 ++ 0#40)
  | .pfm _ o => some (0x16#8 ++ putPfm o)
  | .beq _ o => some (0x18#8 ++ putB o)
  | .bne _ o => some (0x19#8 ++ putB o)
  | .blt _ o => some (0x1A#8 ++ putB o)
  | .bge _ o => some (0x1B#8 ++ putB o)
  | .aJmp _ o => some (0x1C#8 ++ putLi o)
  | .aJr _ o => some (0x1D#8 ++ putRr2 o)
  | .aadd _ o => some (0x20#8 ++ putAt o)
  | .aaddb _ o => some (0x21#8 ++ putAt o)
  | .amax _ o => some (0x22#8 ++ putAt o)
  | .amin _ o => some (0x23#8 ++ putAt o)
  | .aor _ o => some (0x24#8 ++ putAt o)
  | .axchg _ o => some (0x25#8 ++ putAt o)
  | .acas _ o => some (0x26#8 ++ putAt o)
  | .raddf _ o => some (0x27#8 ++ putAt o)
  | .gset _ o => some (0x28#8 ++ putGset o)
  | .gclr _ o => some (0x29#8 ++ putGclr o)
  | .gld _ o => some (0x2A#8 ++ putAt o)
  | .finc _ o => some (0x30#8 ++ putFinc o)
  | .fset _ o => some (0x31#8 ++ putFset o)
  | .frd _ o => some (0x32#8 ++ putFrd o)
  | .fwait _ o => some (0x33#8 ++ putFwait o)
  | .bbind _ o => some (0x34#8 ++ putBbind o)
  | .bfillw _ o => some (0x35#8 ++ putBwait o)
  | .bfreew _ o => some (0x36#8 ++ putBwait o)
  | .badv _ o => some (0x37#8 ++ putBob o)
  | .brel _ o => some (0x38#8 ++ putBob o)
  | .own _ o => some (0x3C#8 ++ putOwn o)
  | .ringset _ o => some (0x3D#8 ++ putRingset o)
  | .ringpub _ o => some (0x3E#8 ++ putRingpub o)
  | .ringrd _ o => some (0x3F#8 ++ putRingrd o)
  | .mark _ o => some (0x40#8 ++ putMark o)
  | .join _ o => some (0x41#8 ++ putTop2 o)
  | .fence _ o => some (0x42#8 ++ putTop2 o)
  | .monw _ o => some (0x43#8 ++ putAt o)
  | .enq _ o => some (0x48#8 ++ putRr2 o)
  | .poppass _ o => some (0x49#8 ++ putD o)
  | .passdone _ => some (0x4A#8 ++ 0#40)
  | .rbtld _ o => some (0x4B#8 ++ putRbtld o)
  | .yield _ o => some (0x4C#8 ++ putB0 o)
  | .aSafe _ o => some (0x4D#8 ++ putN16 o)
  | .stadv _ o => some (0x4E#8 ++ putN8 o)
  | .tnode _ o => some (0x50#8 ++ putRr3 o)
  | .tenrol _ o => some (0x51#8 ++ putT4 o)
  | .tunrol _ o => some (0x52#8 ++ putT3 o)
  | .trepar _ o => some (0x53#8 ++ putSs o)
  | .tsettle _ o => some (0x54#8 ++ putS1 o)
  | .tread _ o => some (0x55#8 ++ putTread o)
  | .tfree _ o => some (0x56#8 ++ putS1 o)
  | .aFtrd _ o => some (0x58#8 ++ putD o)
  | .tickrd _ o => some (0x59#8 ++ putTick o)
  | .pmrd _ o => some (0x5A#8 ++ putPm o)
  | .sysc _ o => some (0x60#8 ++ putN16 o)
  | .rfe _ => some (0x61#8 ++ 0#40)
  | .csrr _ o => some (0x62#8 ++ putCsrr o)
  | .csrw _ o => some (0x63#8 ++ putCsrw o)
  | .lptw _ o => some (0x64#8 ++ putRr3k o)
  | .ldrain _ o => some (0x65#8 ++ putRr2 o)
  | .lconf _ o => some (0x66#8 ++ putSs o)
  | .keyset _ o => some (0x67#8 ++ putSs o)
  | .keykill _ o => some (0x68#8 ++ putS1 o)
  | .fmap _ o => some (0x69#8 ++ putS1 o)
  | .ctxsv _ o => some (0x6A#8 ++ putCtx o)
  | .ctxld _ o => some (0x6B#8 ++ putCtx o)
  | .xNop _ => some (0x00#8 ++ 0#40)
  | .xLi _ o => some (0x01#8 ++ putLi o)
  | .xLih _ o => some (0x02#8 ++ putLih o)
  | .xAdd _ o => some (0x03#8 ++ putRr3 o)
  | .xAddi _ o => some (0x04#8 ++ putRi o)
  | .xSub _ o => some (0x05#8 ++ putRr3 o)
  | .mul _ o => some (0x06#8 ++ putRr3 o)
  | .mulh _ o => some (0x07#8 ++ putRr3k o)
  | .div _ o => some (0x08#8 ++ putRr3s o)
  | .rem _ o => some (0x09#8 ++ putRr3s o)
  | .xAnd _ o => some (0x0A#8 ++ putRr3 o)
  | .xOr _ o => some (0x0B#8 ++ putRr3 o)
  | .xXor _ o => some (0x0C#8 ++ putRr3 o)
  | .shl _ o => some (0x0D#8 ++ putRr3 o)
  | .shr _ o => some (0x0E#8 ++ putRr3 o)
  | .sra _ o => some (0x0F#8 ++ putRr3 o)
  | .min _ o => some (0x10#8 ++ putRr3s o)
  | .max _ o => some (0x11#8 ++ putRr3s o)
  | .popc _ o => some (0x12#8 ++ putRr2 o)
  | .clz _ o => some (0x13#8 ++ putRr2 o)
  | .cmp _ o => some (0x18#8 ++ putCmp o)
  | .sel _ o => some (0x19#8 ++ putRr3k o)
  | .plog _ o => some (0x1A#8 ++ putPlog o)
  | .fadd _ o => some (0x20#8 ++ putRr3k o)
  | .fsub _ o => some (0x21#8 ++ putRr3k o)
  | .fmul _ o => some (0x22#8 ++ putRr3k o)
  | .ffma _ o => some (0x23#8 ++ putRr3k o)
  | .fmin _ o => some (0x24#8 ++ putRr3 o)
  | .fmax _ o => some (0x25#8 ++ putRr3 o)
  | .fdiv _ o => some (0x26#8 ++ putRr3k o)
  | .fsqrt _ o => some (0x27#8 ++ putRr2k o)
  | .fcmp _ o => some (0x28#8 ++ putCmp o)
  | .cvtf _ o => some (0x2C#8 ++ putCvtf o)
  | .cvti _ o => some (0x2D#8 ++ putCvti o)
  | .cvtn _ o => some (0x2E#8 ++ putCvtn o)
  | .brp _ o => some (0x30#8 ++ putBrp o)
  | .xJmp _ o => some (0x31#8 ++ putLi o)
  | .xJr _ o => some (0x32#8 ++ putRr2 o)
  | .loop _ o => some (0x33#8 ++ putLoop o)
  | .xSafe _ o => some (0x38#8 ++ putN16 o)
  | .xFtrd _ o => some (0x39#8 ++ putD o)
  | .mNop _ => some (0x00#8 ++ 0#40)
  | .mDset _ o => some (0x01#8 ++ putDset o)
  | .wload _ o => some (0x10#8 ++ putWload o)
  | .mma _ o => some (0x11#8 ++ putMma o)
  | .gmma _ o => some (0x12#8 ++ putGmma o)
  | .smma _ o => some (0x13#8 ++ putSmma o)
  | .mqbind _ o => some (0x14#8 ++ putMqbind o)
  | .aclr _ o => some (0x18#8 ++ putAclr o)
  | .ald _ o => some (0x19#8 ++ putD2p o)
  | .ast _ o => some (0x1A#8 ++ putD2c o)
  | .ascl _ o => some (0x1B#8 ++ putD2p o)
  | .vNop _ => some (0x00#8 ++ 0#40)
  | .vDset _ o => some (0x01#8 ++ putDset o)
  | .vadd _ o => some (0x10#8 ++ putVbin o)
  | .vsub _ o => some (0x11#8 ++ putVbin o)
  | .vmul _ o => some (0x12#8 ++ putVbin o)
  | .vmax _ o => some (0x13#8 ++ putVbin o)
  | .vmin _ o => some (0x14#8 ++ putVbin o)
  | .vfma _ o => some (0x15#8 ++ putVfma o)
  | .vexp _ o => some (0x18#8 ++ putD2c o)
  | .vlog _ o => some (0x19#8 ++ putD2c o)
  | .vrcp _ o => some (0x1A#8 ++ putD2c o)
  | .vrsq _ o => some (0x1B#8 ++ putD2c o)
  | .vtanh _ o => some (0x1C#8 ++ putD2c o)
  | .vgelu _ o => some (0x1D#8 ++ putD2c o)
  | .vsilu _ o => some (0x1E#8 ++ putD2c o)
  | .vabs _ o => some (0x1F#8 ++ putD2c o)
  | .vcvt _ o => some (0x20#8 ++ putD2c o)
  | .vqmx _ o => some (0x21#8 ++ putD2c o)
  | .vdqmx _ o => some (0x22#8 ++ putD2c o)
  | .vrsum _ o => some (0x28#8 ++ putD2c o)
  | .vrmax _ o => some (0x29#8 ++ putD2c o)
  | .vcsum _ o => some (0x2A#8 ++ putD2c o)
  | .vbcast _ o => some (0x30#8 ++ putVbcast o)
  | .vtrn _ o => some (0x31#8 ++ putD2c o)
  | .vepi _ o => some (0x32#8 ++ putVepi o)
  | .vtagsel _ o => some (0x33#8 ++ putD2c o)
  | .cNop _ => some (0x00#8 ++ 0#40)
  | .cDset _ o => some (0x01#8 ++ putDset o)
  | .ccopy _ o => some (0x10#8 ++ putD2c o)
  | .cfill _ o => some (0x11#8 ++ putCfill o)
  | .cgath _ o => some (0x12#8 ++ putD2c o)
  | .cscat _ o => some (0x13#8 ++ putD2c o)
  | .cmcast _ o => some (0x14#8 ++ putCmcast o)
  | .cwbind _ o => some (0x18#8 ++ putCwbind o)
  | .cwadv _ o => some (0x19#8 ++ putCwadv o)
  | .csched _ o => some (0x1A#8 ++ putD1 o)
  | .cpfa _ o => some (0x1C#8 ++ putCpfa o)
  | .cmeta _ o => some (0x1D#8 ++ putCmeta o)
  | .clsend _ o => some (0x20#8 ++ putClsend o)
  | .clrecv _ o => some (0x21#8 ++ putClrecv o)
  | .clred _ o => some (0x22#8 ++ putClred o)
  | .wordCompletion _ _ _ => none
  | .engineFetch _ _ => none
  | .schedEntryRelease _ => none
  | .clsendTransmit _ => none
  | .remoteAddition _ => none
  | .lateWordStall _ _ => none
  | .budgetTrap _ => none
  | .preemptEntry _ => none
  | .programLoad _ _ _ _ => none
  | .streamsStart _ => none
  | .sqtailWrite _ _ => none
  | .sqpull _ => none
  | .sqEnable _ _ => none
  | .taskDispatch _ => none
  | .rangeDispatch _ => none
  | .barrierFire _ => none
  | .gathererCycle _ => none
  | .binClosePatience _ _ => none
  | .binCloseDeadline _ _ => none
  | .feedWrite _ => none
  | .tailRegisterWrite _ _ => none
  | .shapeClassWrite _ _ _ _ => none
  | .gdepthWrite _ _ => none
  | .wlock _ => none
  | .wunlock _ => none
  | .wscmdReservedOp _ _ => none
  | .widBinding => none
  | .swatchPeriodic => none
  | .swatchTriggered => none
  | .patchChange _ => none
  | .deltaApply _ => none
  | .ptcapWrite _ _ => none
  | .rerrClear _ _ => none
  | .l2Fill _ _ _ => none
  | .leaseReread _ _ => none
  | .tcEntryExpiry _ _ => none
  | .l2Eviction _ _ => none
  | .victimEviction _ _ => none
  | .writebackArrival _ => none
  | .updateApply _ _ => none
  | .monwWake _ => none
  | .monwTimeout _ => none
  | .refresh _ => none
  | .refreshEnd _ => none
  | .scrubRead _ => none
  | .scrubWriteback _ => none
  | .skewCompare _ => none
  | .ccinv _ => none
  | .uetRmaWrite _ _ _ _ _ => none
  | .uetRmaRead _ _ _ _ _ => none
  | .uetSend _ _ _ _ => none
  | .logcommitWrite _ => none
  | .fwbeat => none
  | .watchdogExpiry => none
  | .fallbackPull => none
  | .fallbackStop => none
  | .ptpMessage _ => none
  | .ftCorrection _ => none
  | .timeSyncSend _ => none
  | .timeSyncReceive _ _ => none
  | .linkRead _ _ => none
  | .linkWrite _ _ => none
  | .linkAtomic _ _ => none
  | .linkSignal _ _ => none
  | .linkSchedBlock _ _ => none
  | .linkManagement _ _ => none
  | .linkReply _ _ => none
  | .linkFlitCorrupt _ => none
  | .linkFlitReserved _ _ => none
  | .linkNak _ _ => none
  | .linkDown _ => none
  | .linkRetrain _ _ _ => none
  | .linkDiscard _ => none
  | .p1Entry _ => none
  | .p1Exit _ => none
  | .p2Enter _ => none
  | .p2Exit _ => none
  | .throttleUpdate _ => none
  | .thermalLimit => none
  | .plimitWrite _ => none
  | .pmSelectWrite _ _ _ => none
  | .moduleReset _ => none
  | .fresRetry _ _ => none
  | .fresSkip _ _ => none
  | .pkresRelease _ _ => none
  | .pkresAbandon _ _ => none
  | .preemptRequest _ => none
  | .budgadd _ _ => none
  | .fpark _ => none
  | .awayEntryWrite _ _ _ _ => none
  | .registerWrite _ _ => none
  | .illegalWord _ _ => none
  | .firmwareComplexAccess _ _ _ => none
  | .idleFlit _ _ => none
  | .thermalRelease => none
  | .stackTemperatureCrossing _ _ => none

/-- The word of an instruction (R56); none for an event of the device. -/
def encode (i : Instr) : Option Word :=
  match i.hdr?, encodeBody i with
  | some (_, h), some b => some (h.enc ++ b)
  | _, _ => none

/-- The word of an instruction, zero for an event. -/
def encodeWord (i : Instr) : Word := (encode i).getD 0

/-- What the decode stage sees of a stream word (R365). -/
inductive Decoded where
  /-- The opcode is not assigned: class 0x01 (R368). -/
  | illegal
  /-- The instruction, with the mask of the reserved bits that are not zero: class 0x02 (R369). -/
  | word (i : Instr) (reserved : Word)
  deriving DecidableEq, Repr, Inhabited

/-- Decoding a word at the head of a stream. -/
def decodeWord (t : Strm) (w : Word) : Decoded :=
  match decodeLoose t w with
  | none => .illegal
  | some i => .word i (w ^^^ encodeWord i)

/-- Why bytes are no instruction. -/
inductive DecodeError where
  | short
  | unassignedOpcode
  | reservedBits (mask : Word)
  deriving DecidableEq, Repr, Inhabited

/-- Eight bytes as a word, little-endian (R5). -/
def wordOfBytes (b : List Byte) : Word :=
  b.foldr (fun x acc => (acc <<< 8) ||| zext64 x) 0

/-- Decoding the bytes of a stream: the instruction and the rest, or why there is none. -/
def decode (t : Strm) (bytes : List Byte) : Except DecodeError (Instr × List Byte) :=
  if bytes.length < 8 then .error .short
  else match decodeWord t (wordOfBytes (bytes.take 8)) with
    | .illegal => .error .unassignedOpcode
    | .word i m => if m = 0 then .ok (i, bytes.drop 8) else .error (.reservedBits m)

/-- The bytes of a word, little-endian (R5). -/
def bytesOfWord (w : Word) : List Byte :=
  (List.range 8).map fun i => field w (8 * i) 8

/-- A stream from its code (R203). -/
def Strm.ofCode : Nat → Option Strm
  | 0 => some .a
  | 1 => some .x
  | 2 => some .m
  | 3 => some .v
  | 4 => some .c
  | _ => none

/-- The code of a stream (R203), and the code of its unit (R354). -/
def Strm.code : Strm → Nat
  | .a => 0
  | .x => 1
  | .m => 2
  | .v => 3
  | .c => 4

/-- The instruction the decoder reads from a table row's word. The table gives no word any bits, so the low 64
bits are the stream word and bits [66:64], where nbits reaches them, the code of its stream (A without). -/
def decodeTableWord (nbits w : Nat) : Option Instr :=
  match Strm.ofCode (if nbits ≤ 64 then 0 else w / 2 ^ 64 % 8) with
  | none => none
  | some t =>
    match decode t (bytesOfWord (BitVec.ofNat 64 w)) with
    | .ok (i, _) => some i
    | .error _ => none

end Sys2Proof
end

