-- ==== Sys2Proof/Config.lean ====
section
/-! DEFINITION. The free values of the model: what the spec leaves open, as constants with no body. No proof
can see their values, so a claim is true whatever they are. -/

namespace Sys2Proof

/-- DESIGN CHOICE (log 1). Who moves when the agenda is empty, by the number of the turn: the spec orders
no two agents but by its arbiters (R34, R165). -/
opaque Config.nextTurn : Nat → Turn

/-- DESIGN CHOICE (log 2). Values the spec calls unpredictable (R7), one per reading. -/
opaque Config.freeWord : Nat → Word

/-- DESIGN CHOICE (log 21). The leaf entry (R117, SIZE 0) that stands for a 64 KiB lining page while
TROOT.EN is 0 (R115): the spec gives no translation then. -/
opaque Config.bootPage : Nat → Word

/-- DESIGN CHOICE (log 84). The set of an L2 slice that holds a line, by the line's number and whether it is a page-table
line: the spec names no sets but has the victim of an eviction chosen in one (R151). -/
opaque Config.l2Set : Bool → Nat → Nat

/-- DESIGN CHOICE (log 47). Cycles, taken modulo 9, from a late word's raising of the group stall wire to the point at which
every SCNT holds still, by the cycle: the spec bounds them by 8 (R80). -/
opaque Config.wireDelay : Nat → Nat

/-- DESIGN CHOICE (log 12). A byte of the firmware complex's boot ROM (R184), by its offset. -/
opaque Config.bootRom : Nat → BitVec 8

/-- DESIGN CHOICE (log 12). Where the complex's 8 MiB private SRAM begins among its own addresses, and where in it the boot ROM
places the first-stage image and the configuration record (R184, R193). -/
opaque Config.sramBase : Nat
opaque Config.sramImage : Nat
opaque Config.sramRecord : Nat

/-- DESIGN CHOICE (log 164). What the identification registers of a hart hold: mvendorid, marchid, mimpid and mconfigptr, which the privileged
architecture leaves to each implementation (R184). -/
opaque Config.hartVendor : Word
opaque Config.hartArch : Word
opaque Config.hartImp : Word
opaque Config.hartConfig : Word

/-- DESIGN CHOICE (log 20). The device identity key pair that the physically unclonable function of base die 0 gives (R193). -/
opaque Config.identity : List (BitVec 8)

/-- DESIGN CHOICE (log 20). Whether an RSASSA-PSS signature over bytes verifies under the key with the given
index: 0 the Ebwald root key (R193), 1 + t the key registered for owner tag t (R220). -/
opaque Config.pssVerify : Nat → List Byte → BitVec 4096 → Bool

/-- DESIGN CHOICE (log 20). The RSASSA-PSS signature over bytes under the device identity key (R195). -/
opaque Config.identitySign : List Byte → BitVec 4096

/-- DESIGN CHOICE (log 23). The throttle level the power limiter moves to (R198), from its last level, the
power measured and the limit. -/
opaque Config.throttleLevel : BitVec 3 → BitVec 16 → BitVec 16 → BitVec 3

/-- DESIGN CHOICE (log 139). The entries that one swatch message holds: the spec gives no size from which on a table goes in several
parts (R55). -/
opaque Config.swatchRoom : Nat

/-- DESIGN CHOICE (log 24). Whether the fabric-time master (0) or replica p (1 + p) moves a quarter of a nanosecond towards
another clock (R188), from its own reading and the other in quarters: the spec bounds the slew and gives no law. -/
opaque Config.slew : Nat → Nat → Nat → Bool

/-- DESIGN CHOICE (log 38). Whether the partner of a seam link is the one nearer the time root (R191): the layout of the
seam domain is outside the module. -/
opaque Config.towardRoot : Nat → Bool

end Sys2Proof
end

