-- ==== Sys2Proof/Machine/State.lean ====
section
/-! DEFINITION. The state of the module as plain data (spec 01 to 11, 23, 26), its reset value, and the reasons a
step can stop. Sparse tables are lists of key and value in rising key order; the memories are lists of address
and byte in one canonical form. -/

namespace Sys2Proof.Machine

/-- A sparse table: keys strictly rising. -/
abbrev SMap (α : Type) := List (Nat × α)

/-- A memory: addresses strictly rising, no entry equal to 0, which is what an unlisted address reads as (DESIGN
CHOICE, log 7). -/
abbrev Memory := List Host.Cell

/-- Why the machine stops: no step of the device goes on from there. -/
inductive Fault where
  /-- Raised by an access of a controller to a physical address from 2^39 upwards: R152 says that it names no
  memory. Safe: the device gives no effect there. -/
  | noMemory (p : Nat)
  deriving DecidableEq, Repr, Inhabited

/-- Why a step has no meaning. -/
inductive Refusal where
  /-- Raised by the dispatch arm of an instruction whose meaning is not written. Safe: nothing can be proved of it. -/
  | notModelled (mnemonic : String)
  deriving DecidableEq, Repr, Inhabited

/-- A vector clock: four counts of 64 bits (R167). -/
abbrev VClock := Vector Word 4

/-- A clock that counts nothing. -/
abbrev VClock.zero : VClock := Vector.replicate 4 0

/-! ## A core -/

/-- A flag (R60). -/
structure Flag where
  ceil : BitVec 16
  incr : BitVec 16
  thresh : BitVec 16
  count : BitVec 16
  deriving DecidableEq, Repr, Inhabited

/-- A bobbin: its configuration word and its state (R69). -/
structure Bobbin where
  config : Word
  free : Nat
  filled : Nat
  rptr : Nat
  wptr : Nat
  deriving DecidableEq, Repr, Inhabited

/-- A stream's ring registers (R64), the words its section holds and whether it runs (R27). For A and X, `fetch`
is the section index of the next word. -/
structure Ring where
  base : BitVec 13
  size : BitVec 4
  fetch : BitVec 32
  pub : BitVec 32
  count : Nat
  started : Bool
  ended : Bool
  /-- the section has an entry (R219): the stream starts when the load is complete (R223) -/
  entry : Bool
  deriving DecidableEq, Repr, Inhabited

/-- A descriptor as a word latched it (R72). -/
abbrev Dsc := BitVec 128

/-- A weight stage (R290, R298): the rows as packed bytes, the scales, the format, elements per row. -/
structure Stage where
  rows : List (List Byte)
  scales : List (List Byte)
  fmt : BitVec 32
  cols : Nat
  deriving DecidableEq, Repr, Inhabited

/-- What a word in progress does at its completion (R71, R172, R298, R330, R334). -/
inductive Deferred where
  | release (b : BitVec 5) (n : Nat)
  | advance (b : BitVec 5) (n : Nat)
  | setStage (st : Bool) (s : Stage)
  | pushMeta (q : BitVec 2) (bytes : List Byte)
  /-- the next slot of a window to fill and advance, with the word's rounding -/
  | fill (win : BitVec 2) (rnd : BitVec 3)
  /-- the word's flits were dropped with its link (R410) -/
  | linkLost
  deriving DecidableEq, Repr, Inhabited

/-- The formats and the rounding mode that a word keeps from its issue (R86, R90): FMT_SLOT, ROUND, the issuing core's BANK_FMT,
and the MODE bits of each core whose accumulators an operand lies in. -/
structure Env where
  fmtSlot : Vector (BitVec 32) 16
  round : BitVec 3
  bankFmt : Vector (BitVec 32) 176
  modes : List (Nat × Vector Bool 4)
  deriving DecidableEq, Repr, Inhabited

/-- Where a result of the X unit goes: a register, a predicate, or the XA entry it has reserved (R272). -/
inductive XDest where
  | reg (r : BitVec 5)
  | pred (p : BitVec 3)
  | xa
  deriving DecidableEq, Repr, Inhabited

/-- A word that has issued: the word itself, where it stood, what it captured (R354, R358) and the names it holds
(R418). -/
structure Issued where
  word : Word
  /-- position among the words of its stream since the last load -/
  abs : Nat
  rword : BitVec 13
  pass : BitVec 32
  ctx : Tag
  dscs : List Dsc
  /-- the bobbin slot of each operand -/
  slots : List Nat
  /-- banks named: core and bank -/
  banks : List (Nat × Nat)
  bobbins : List (BitVec 5)
  readsPass : Bool
  /-- an entry of a schedule, by its number (R332) -/
  entry : Option Nat
  /-- the metadata entry that an SMMA popped at issue (R300) -/
  popped : Option (List Byte)
  /-- bytes of the destination already written (R384) -/
  resume : Nat
  deferred : List Deferred
  /-- remote additions and link acknowledgments still to come -/
  pending : Nat
  /-- the engine's LFSR when the word issued (R93, R364) -/
  lfsr0 : BitVec 32
  /-- its effects are still to be performed, from `resume` on (R59, R166) -/
  todo : Bool
  /-- where a word that FRES RETRY runs again began to (R384) -/
  retry : Option Nat
  /-- the line operations it has made in the row at `resume`: the bytes of a read, none of a write (R166) -/
  ops : List (List Byte)
  /-- the lines of memory it has written -/
  lines : List Nat
  /-- the engine's LFSR as this word goes on with it, where the unit has loaded another seed since (R93) -/
  own : Option (BitVec 32)
  /-- what it keeps from its issue, where effects are still to come -/
  env : Option Env
  /-- results of an X word still to be written (R272, R275) -/
  res : List (XDest × Word)
  deriving DecidableEq, Repr, Inhabited

/-- A remote addition: its sender's word and tag, the flag and the amount (R404). -/
structure Held where
  sender : CoreId
  strm : Strm
  v : BitVec 6
  amount : BitVec 16
  clock : VClock
  pass : BitVec 32
  rword : BitVec 13
  word : Word
  abs : Nat
  entry : Option Nat
  /-- the link of a signal packet; `word` is then its header word -/
  link : Option (BitVec 4)
  deriving DecidableEq, Repr, Inhabited

/-- What a halted stream waits on (R359, R372, R373, R384). -/
inductive Halt where
  /-- the word at the stream's head, which has not issued -/
  | head
  /-- a schedule entry that has not issued -/
  | entry (w : Word)
  /-- an issued word that stopped at perform -/
  | performed (w : Issued)
  /-- a refused addition of a word: virtual flag and amount -/
  | addition (v : BitVec 6) (amount : BitVec 16) (w : Issued)
  /-- a refused remote addition of CMCAST, with the word that still waits -/
  | remote (target : CoreId) (h : Held) (w : Issued)
  /-- refused bobbin changes, and whether the word's signal is still to come (R373) -/
  | change (d : List Deferred) (signal : Bool) (w : Issued)
  deriving DecidableEq, Repr, Inhabited

/-- A window of the copy engine (R330): its latched operands, RND, SAT and NEXT. -/
structure Window where
  src : Dsc
  dst : Dsc
  rnd : BitVec 3
  sat : Bool
  next : BitVec 56
  deriving DecidableEq, Repr, Inhabited

/-- The schedule of a CSCHED in progress (R332): the stage counter at its issue, its table, the next entry to release. -/
structure Sched where
  abs : Nat
  rword : BitVec 13
  base : BitVec 32
  table : Dsc
  next : Nat
  /-- the next entry as it was read at its release -/
  held : Option (List Byte)
  deriving DecidableEq, Repr, Inhabited

/-- One of the M, V and C engines. -/
structure Engine where
  /-- the elastic buffer: words with their ring positions, oldest first (R65) -/
  buf : List (BitVec 32 × Word)
  /-- positions of buffered words that failed the check of their fetch (R163) -/
  bad : List (BitVec 32)
  live : Vector Dsc 16
  shadow : Vector Dsc 16
  lfsr : BitVec 32
  reload : Bool
  /-- words issued since the last load -/
  issued : Nat
  /-- the last cycles, newest first, in which the engine issued an operation word (R198) -/
  recent : List Nat
  prog : List Issued
  halt : Option Halt
  deriving DecidableEq, Repr, Inhabited

/-- A metadata queue (R300, R301): false is 2:4. -/
structure MetaQ where
  mode : Bool
  entries : List (List Byte)
  deriving DecidableEq, Repr, Inhabited

/-- A range register (R107). -/
structure RangeReg where
  w0 : Word
  w8 : Word
  w16 : Word
  w24 : Word
  deriving DecidableEq, Repr, Inhabited

/-- A range set: eight range registers. -/
abbrev RangeSet := List RangeReg

/-- A monitor armed by MONW (R258). -/
structure Monitor where
  line : Nat
  /-- the fabric time at which it times out -/
  deadline : Option Nat
  woken : Bool
  deriving DecidableEq, Repr, Inhabited

/-- A Gatherer notice (R29). -/
structure Notice where
  seq : Word
  pass : BitVec 32
  deriving DecidableEq, Repr, Inhabited

/-- The feed configuration of a core (R270) and the Gatherer's side of the ring (R49). -/
structure Feed where
  logc : Nat
  ring : Nat
  head : Word
  comp : Nat
  tail : Nat
  shared : Bool
  pair : Nat
  lastSeq : Word
  notices : List Notice
  deriving DecidableEq, Repr, Inhabited

/-- An away entry (spec 26): mode 0 free, 1 SAVED, 2 HOLD, 3 FWD. -/
structure Away where
  mode : BitVec 2
  num : BitVec 7
  core : CoreId
  owner : Tag
  image : BitVec 44
  held : List Held
  deriving DecidableEq, Repr, Inhabited

/-- A slack region (R220, R271). -/
structure Region where
  slack : BitVec 16
  first : BitVec 13
  count : BitVec 13
  strm : BitVec 3
  due : Word
  stepBy : Word
  deriving DecidableEq, Repr, Inhabited

/-- A TREPAR that has issued and whose perform point is to come (R145, R224): the word, its ring index, the node and the new parent. -/
structure Move where
  word : Word
  rword : BitVec 13
  node : Nat
  parent : Nat
  deriving DecidableEq, Repr, Inhabited

/-- What the module keeps of the sections of a context that CTXSV has saved, beside its image (R27, R28): the owner and the rings of A
and X for which it holds, the words of their sections, CODE_HASH and the advertisement (DESIGN CHOICE, log 39). -/
structure Saved where
  owner : Tag
  aRing : Word
  xRing : Word
  aCount : Nat
  xCount : Nat
  codeHash : Word
  advert : Bool
  deriving DecidableEq, Repr, Inhabited

/-- A scheduled block in a receive buffer (R336), as far as its flits have arrived; `whole` once its last flit is known
to have. -/
structure Block where
  owner : Tag
  sched : BitVec 32
  num : BitVec 12
  bytes : List Byte
  whole : Bool
  deriving DecidableEq, Repr, Inhabited

/-- A core (R13, R26, R83). -/
structure Core where
  a : Vector Word 32
  x : Vector Word 32
  p : Vector Bool 8
  ax : List Word
  /-- entries of the XA queue, one that is reserved and not yet poppable as none (R272) -/
  xa : List (Option Word)
  flags : Vector Flag 64
  flagNum : BitVec 7
  flagBase : BitVec 6
  ctx : Tag
  priv : Bool
  /-- BUDGET_LEFT at cycle `budgetAt` (R52) -/
  budget : BitVec 32
  budgetAt : Nat
  passId : BitVec 32
  fmtSlot : Vector (BitVec 32) 16
  round : BitVec 3
  srSeed : BitVec 32
  pmSel : Vector (BitVec 16) 8
  pmCnt : Vector (BitVec 48) 8
  /-- the cycle at which a counter of cycles was last brought up to date -/
  pmAt : Vector Nat 8
  excCause : Word
  excWord : Word
  excAddr : Word
  excRet : Word
  bankFmt : Vector (BitVec 32) 176
  owner : Vector Bool 176
  spad : Memory
  side : Memory
  rings : Vector Ring 5
  handler : SMap Word
  handlerPos : Nat
  /-- the wait byte of the A head has been met (R266) -/
  wdone : Bool
  /-- issued TREPAR words that have not completed (R224) -/
  aMoves : List Move
  xLfsr : BitVec 32
  xReload : Bool
  xHalt : Option Halt
  /-- issued X words that have not completed, in the order of their issue (R272) -/
  xProg : List Issued
  /-- the results of the X word that issues in this step, where it completes later -/
  xRes : List (XDest × Word)
  m : Engine
  v : Engine
  c : Engine
  acc : SMap (BitVec 32)
  accMode : Vector Bool 4
  accShadow : SMap (BitVec 32)
  /-- rows of the accumulator shadow that hold a copy -/
  accShadowRows : List Nat
  stages : Vector (Option Stage) 2
  metaQ : Vector MetaQ 4
  bobbins : Vector Bobbin 32
  windows : Vector (Option Window) 4
  sched : Option Sched
  stageCtr : BitVec 32
  /-- token to positions in M, V and C (R255) -/
  marks : Vector (Option (Option Nat × Option Nat × Option Nat)) 4
  monitor : Option Monitor
  /-- a remote FINC of the A head waits for its answer (R250) -/
  finc : Bool
  passMem : Vector Word 256
  rangeTags : List Tag
  rangeFile : List RangeSet
  header : Vector Word 8
  current : Bool
  budgetArmed : Bool
  /-- owners already sent a missed-deadline record or a parking record in this pass -/
  parkedOwners : List Tag
  rangeSet : RangeSet
  feed : Option Feed
  codeHash : Word
  loaded : Bool
  advert : Bool
  /-- the core holds its stall wire for a fault (R359) -/
  stall : Bool
  late : Bool
  /-- fetching and issue have stopped until a cold launch (R376) -/
  dead : Bool
  /-- the A handler was entered for a fault that raised the wire (R360) -/
  wireInHandler : Bool
  preempt : Bool
  sigDrop : BitVec 32
  away : Vector Away 8
  regions : List Region
  scnt : Int
  scntAt : Nat
  scntRun : Bool
  lsSched : BitVec 32
  lsEn : Bool
  lsGroup : BitVec 12
  lsStart : Word
  /-- the number of the SAFE last completed by A, if the next word has not issued (R400) -/
  aSafe : Option (BitVec 16)
  aSafeWord : Word
  /-- the safe point at which the handler of a pre-emption was entered: its number, none where both streams have ended -/
  safeAt : Option (Option (BitVec 16))
  recv : SMap (List Block)
  /-- scratchpad words of 8 bytes and accumulator elements with an uncorrectable error (R163, R389) -/
  spadErr : List Nat
  accErr : List Nat
  /-- blocks of the ending pass still to be handed to the parked list, with DONEONLY (R362) -/
  handover : Option (List (Nat × Bool))
  /-- the cycle in which a word of the core last issued or completed (R197) -/
  movedAt : Nat
  /-- the copy engine's adapter prefetch hints, oldest first: pass id and RBTADDR (R53) -/
  hints : List (BitVec 32 × Word)
  /-- the time that an LPTW or LDRAIN has still to return, while no translation cache holds entries (R386) -/
  ptTime : Option Word
  /-- streams whose head word has presented its wait test without passing it (R62) -/
  stalled : Vector Bool 5
  /-- the clocks of the writes that other units have made into the core through its window (R170) -/
  winClk : VClock
  /-- the cycle of the flag arbiter's last step and the place reached in that cycle's order (R62) -/
  arbAt : Nat
  arbRank : Nat
  deriving DecidableEq, Repr, Inhabited

/-! ## Memory side -/

/-- The tag of a line homed in L2 (R149, R380, R390). Its bytes stand in `l2`. -/
structure Line where
  dirty : Bool
  w : Bool
  exp : Word
  key : BitVec 8
  owner : Tag
  failed : Bool
  /-- the 32-byte halves with an uncorrectable error (R163) -/
  err : BitVec 2
  deriving DecidableEq, Repr, Inhabited

/-- A read replica (R148). -/
structure Replica where
  key : BitVec 8
  owner : Tag
  err : BitVec 2
  data : BitVec 512
  deriving DecidableEq, Repr, Inhabited

/-- A line of a victim cache (R154). -/
structure Victim where
  key : BitVec 8
  owner : Tag
  dirty : Bool
  err : BitVec 2
  /-- it holds an error that the check corrects (R389) -/
  cor : Bool
  data : BitVec 512
  deriving DecidableEq, Repr, Inhabited

/-- A page-table line in L2, under its physical line number: key slot 0 and owner tag 0 (R115). -/
structure PtLine where
  dirty : Bool
  failed : Bool
  err : BitVec 2
  data : BitVec 512
  deriving DecidableEq, Repr, Inhabited

/-- A translation-cache entry (R118). -/
structure TcEntry where
  page : Nat
  size : BitVec 2
  frame : BitVec 29
  key : BitVec 8
  w : Bool
  d : Bool
  lease : BitVec 4
  pte : Nat
  stamp : Word
  reread : Bool
  /-- a parity error (R395) -/
  bad : Bool
  deriving DecidableEq, Repr, Inhabited

/-- A controller's registers and translation cache (R115, R158, R382). -/
structure Ctl where
  root : BitVec 33
  en : Bool
  skew : BitVec 16
  disc : BitVec 32
  uncached : Bool
  good : BitVec 2
  /-- streams stalled on a draining page: core and stream -/
  drained : List Nat
  uncorr : BitVec 32
  corr : BitVec 32
  bal : Int
  /-- the cycle of the last refresh due -/
  dueAt : Nat
  refreshing : Bool
  hot : Bool
  srate : BitVec 32
  scrubEn : Bool
  scrubPos : BitVec 36
  scrub : Option (Nat × BitVec 512)
  tc : List TcEntry
  deriving DecidableEq, Repr, Inhabited

/-- A dirty line on its way to its frame (R382). -/
structure WriteBack where
  line : Nat
  data : BitVec 512
  key : BitVec 8
  owner : Tag
  deriving DecidableEq, Repr, Inhabited

/-- An update or notice on its way to a panel (R168). -/
structure Update where
  panel : Nat
  src : Nat
  stamp : VClock
  line : Nat
  data : BitVec 512
  deriving DecidableEq, Repr, Inhabited

/-- A key slot (R155, R269). -/
structure KeySlot where
  key : BitVec 512
  loaded : Bool
  retired : Bool
  deriving DecidableEq, Repr, Inhabited

/-- The line operations of the row in hand: those already made, as a word that goes on finds them again; those made in this
step too; and how many this step may still make, where it has a limit. -/
structure OpLog where
  replay : List (List Byte)
  made : List (List Byte)
  left : Option Nat
  deriving DecidableEq, Repr, Inhabited

/-- L2, replicas, constant caches, controllers and HBM. -/
structure Mem where
  l2 : Memory
  lines : SMap Line
  /-- page-table lines (R115) -/
  pt : SMap PtLine
  replicas : SMap Replica
  /-- lines of the constant caches: panel and line as for replicas (R162) -/
  const : SMap Replica
  stamps : SMap VClock
  /-- what an atomic that wrote nothing leaves for the next one to its address (R170) -/
  rmws : SMap VClock
  clocks : Vector VClock 4
  updates : List Update
  gates : List Nat
  limits : SMap (BitVec 24)
  ctls : Vector Ctl 8
  victims : SMap Victim
  writebacks : List WriteBack
  /-- while an engine word writes, the lines it has written: more bytes of such a line are of the same operation (R166) -/
  opLines : Option (List Nat)
  /-- while an engine word runs that makes some of its line operations later, what it has made and may make (R166) -/
  opLog : Option OpLog
  hbm : Memory
  hbmKey : SMap (BitVec 512)
  hbmUnc : List Nat
  hbmCor : List Nat
  keys : SMap KeySlot
  deriving DecidableEq, Repr, Inhabited

/-! ## Change tree and weight store -/

/-- A roll-up engine (R137, R393). -/
structure RollUp where
  en : Bool
  ntBase : BitVec 27
  ptBase : BitVec 40
  ptLog : BitVec 5
  freeNum : BitVec 24
  freeHead : BitVec 24
  err : Bool
  errNode : BitVec 24
  deriving DecidableEq, Repr, Inhabited

/-- A patch record (R137, R139): the leaf that TENROL gave it, and its place in its slice's table, whose 16 bytes in memory hold
it. -/
structure Patch where
  leaf : BitVec 24
  place : Nat
  deriving DecidableEq, Repr, Inhabited

/-- A delta bound for a node (R141). -/
structure Delta where
  node : BitVec 24
  amount : Nat
  /-- the roll-up engine that holds it -/
  engine : Nat
  /-- it goes on to the parent (R141); the deltas of a TREPAR do not (R145) -/
  rise : Bool
  /-- the number of the TREPAR it belongs to, and the nodes below it in that union of chains, which come first (R142) -/
  move : Nat
  below : List (BitVec 24)
  deriving DecidableEq, Repr, Inhabited

structure Tree where
  engines : Vector RollUp 4
  patches : SMap Patch
  /-- patch changes on their way, oldest first (R140) -/
  changes : List Nat
  deltas : List Delta
  /-- TREPAR words performed so far -/
  moves : Nat
  deriving DecidableEq, Repr, Inhabited

/-- A WID table entry (R159). -/
structure Wid where
  wid : Word
  base : BitVec 40
  tiles : BitVec 32
  tbytes : BitVec 32
  node : Word
  regCount : Word
  locked : Bool
  owner : Tag
  deriving DecidableEq, Repr, Inhabited

structure WeightStore where
  err : BitVec 3
  busy : Bool
  /-- the entry whose lock waits for its binding (R160) -/
  pending : Option (BitVec 12)
  wids : SMap Wid
  deriving DecidableEq, Repr, Inhabited

/-! ## Task graph and Gatherers -/

/-- The fields of a fault record (R354). -/
structure Rec where
  pass : BitVec 32
  owner : Tag
  unit : BitVec 3
  cont : BitVec 2
  block : BitVec 6
  cls : BitVec 8
  wv : Bool
  core : CoreId
  strm : BitVec 3
  rword : BitVec 13
  laddr : Nat
  d0 : Word
  d1 : Word
  word : Word
  deriving DecidableEq, Repr, Inhabited

/-- A record whose write waits (log 133): its queue, the detecting panel and the time of detection. -/
structure WaitRec where
  queue : Nat
  panel : Nat
  ft : Word
  body : Rec
  deriving DecidableEq, Repr, Inhabited

/-- A fault queue (R356); `clock` is what TAIL carries (R169, R357). -/
structure FaultQ where
  base : BitVec 50
  logc : BitVec 4
  tail : Word
  head : Word
  lost : BitVec 32
  clock : VClock
  deriving DecidableEq, Repr, Inhabited

/-- The parts of a context that firmware sets outside the register map (R17). -/
structure CtxCfg where
  budget : BitVec 32
  dom : BitVec 3
  deriving DecidableEq, Repr, Inhabited

/-- The kinds of record (R19). -/
inductive Kind where
  | tile | range | barrier
  deriving DecidableEq, Repr, Inhabited

/-- Where a live record stands. -/
inductive Stage2 where
  /-- waiting for gates -/
  | waiting
  /-- in a Gatherer's input, held list, a pass, or a parked list -/
  | dispatched
  deriving DecidableEq, Repr, Inhabited

/-- A live record of the task graph: its sixteen words, its owner, its gates already satisfied (R19, R24), and the deadline
and budget that admission fixed (R41). -/
structure Task where
  words : Vector Word 16
  owner : Tag
  gath : Nat
  gatesMet : List Bool
  stage : Stage2
  clock : VClock
  fixed : Option (Word × BitVec 32)
  deriving DecidableEq, Repr, Inhabited

structure TaskGraph where
  tasks : SMap Task
  nextId : BitVec 32
  /-- range tasks that have been dispatched (R31) -/
  ranges : List Nat
  deriving DecidableEq, Repr, Inhabited

/-- A member of a bin or pass (R41, R47). -/
structure Member where
  task : Nat
  owner : Tag
  rows : Nat
  arrival : Word
  deadline : Word
  budget : BitVec 32
  expiry : Nat
  act : Word
  out : Word
  adapter : Word
  strides : Word
  uarg : Word
  cmpl : Word
  deriving DecidableEq, Repr, Inhabited

/-- An occupied bin (R43). -/
structure Bin where
  hash : Word
  wid : Word
  shape : BitVec 8
  members : List Member
  deriving DecidableEq, Repr, Inhabited

/-- A pass in a held list (R45, R48). -/
structure HeldPass where
  id : BitVec 32
  hash : Word
  wid : Word
  shape : BitVec 8
  members : List Member
  deadline : Word
  budget : BitVec 32
  arrival : Word
  cause : BitVec 3
  est : BitVec 32
  kext : BitVec 16
  width : BitVec 16
  core : Option CoreId
  deriving DecidableEq, Repr, Inhabited

/-- An entry of a parked list (R362). -/
structure Parked where
  task : Nat
  owner : Tag
  reason : BitVec 3
  doneOnly : Bool
  member : Member
  hash : Word
  wid : Word
  shape : BitVec 8
  chunk : Bool
  deriving DecidableEq, Repr, Inhabited

/-- An item in a Gatherer's input, in arrival order (R36). -/
inductive Arrival where
  /-- a dispatched record, which takes its deadline and budget at admission -/
  | tile (task : Nat)
  /-- a released task, which keeps them (R363) -/
  | again (m : Member) (hash wid : Word) (shape : BitVec 8)
  /-- a released range chunk -/
  | chunk (m : Member) (hash : Word)
  /-- a dispatched range task, of which a chunk is taken or, where `steal` says so, stolen next (R33, R54) -/
  | range (task : Nat) (steal : Bool)
  deriving DecidableEq, Repr, Inhabited

/-- A shape-class entry (R38). -/
structure Shape where
  high : Word
  tgt : BitVec 3
  deriving DecidableEq, Repr, Inhabited

/-- A pass written to a feed ring and not yet popped (R48, R54). -/
structure Written where
  core : CoreId
  est : BitVec 32
  deadline : Word
  pass : BitVec 32
  task : Nat
  chunk : Bool
  deriving DecidableEq, Repr, Inhabited

structure Gatherer where
  en : Bool
  gcyc : Word
  lat : BitVec 16
  depth : BitVec 13
  pcount : BitVec 29
  bins : SMap Bin
  shapes : SMap Shape
  /-- entries written since the last evaluation step, which take effect at the next cycle's (R39) -/
  shapesNew : SMap Shape
  /-- the Gatherer has had its steps of the present cycle (R36) -/
  ran : Bool
  held : List HeldPass
  parked : List Parked
  input : List Arrival
  written : List Written
  /-- views of locked WIDs' counts (R42) -/
  views : List (Word × Word)
  deriving DecidableEq, Repr, Inhabited

/-! ## Host, links, power and boot -/

/-- A submission queue (R178); `clock` is what the writes to TAIL carry (R170). -/
structure SubQ where
  en : Bool
  gath : BitVec 3
  logc : BitVec 4
  ring : BitVec 49
  owner : Tag
  tail : Word
  head : Word
  clock : VClock
  deriving DecidableEq, Repr, Inhabited

/-- What a port answers (R176, R411). -/
inductive Reply where
  | ack (port : BitVec 3)
  | data (port : BitVec 3) (bytes : List Byte)
  | error (port : BitVec 3) (code : Nat)
  deriving DecidableEq, Repr, Inhabited

/-- A registered region of the host (R176). -/
structure HostRegion where
  base : Nat
  len : Nat
  owner : Tag
  deriving DecidableEq, Repr, Inhabited

/-- A write to SQTAIL that is held while the log is full: its clock, the port it came through with its connection, and whether the
port's acknowledgment waits for it (R177, R183). -/
structure HeldTail where
  queue : BitVec 10
  value : Word
  clock : VClock
  port : Option (BitVec 3 × Conn)
  ack : Bool
  deriving DecidableEq, Repr, Inhabited

/-- A packet of a ROD connection that waits to be performed (R177): an RMA write to a region at an offset, or a send to a receive. -/
structure RodPacket where
  port : BitVec 3
  conn : Conn
  send : Bool
  target : Nat
  off : Nat
  data : List Byte
  deriving DecidableEq, Repr, Inhabited

/-- The submission log, watchdog, fallback, swatch unit and host side (R181 to R187, R55). -/
structure HostIf where
  sqs : SMap SubQ
  logBase : BitVec 35
  logNext : Word
  logCommit : Word
  wdLimit : BitVec 32
  wdStart : Nat
  fbActive : Bool
  fbNext : Nat
  swDesc : BitVec 48
  swPort : BitVec 3
  sseq : BitVec 32
  swLast : Nat
  /-- the cycle of the last periodic message -/
  swPer : Nat
  swDue : Bool
  /-- messages sent: port, addressing descriptor and bytes -/
  swOut : List (BitVec 3 × List Byte × List Byte)
  heldTails : List HeldTail
  /-- packets of ROD connections whose writes wait, in order (R177) -/
  rodQ : List RodPacket
  regions : SMap HostRegion
  receives : SMap HostRegion
  replies : List Reply
  /-- operations that each port has rejected (R411) -/
  rejects : Vector Nat 8
  irqLog : Bool
  irqCold : Bool
  irqFault : Bool
  cold : List (Nat × Word)
  deriving DecidableEq, Repr, Inhabited

/-- A flit kept for replay (R190), with the cycle of its first sending. -/
structure Sent where
  flit : Flit
  resends : Nat
  at0 : Nat
  deriving DecidableEq, Repr, Inhabited

/-- A block waiting for its reserved slots (R336). -/
structure Outgoing where
  core : CoreId
  abs : Nat
  slot : Nat
  flits : List Flit
  deriving DecidableEq, Repr, Inhabited

structure Link where
  down : Bool
  discard : Bool
  rej : BitVec 32
  fseq : BitVec 16
  lastIn : BitVec 16
  lastAck : BitVec 16
  unacked : List Sent
  out : List Flit
  /-- flits to be sent again and idle flits that wait for a slot (R192) -/
  pend : List Flit
  outgoing : List Outgoing
  /-- flits of CLSEND words not yet acknowledged: FSEQ, core, position -/
  sends : List (BitVec 16 × CoreId × Nat)
  replies : List Flit
  /-- registers that management flits write, by number (R189) -/
  mgmt : SMap Word
  offset : Word
  /-- the 8 ns slot in which the link last sent a flit, and how many it has sent in it (R192) -/
  slotNo : Nat
  slotUsed : Nat
  deriving DecidableEq, Repr, Inhabited

/-- A remote addition on its way (R404). -/
structure Remote where
  held : Held
  target : CoreId
  owner : Tag
  deriving DecidableEq, Repr, Inhabited

/-- Power, thermal and panel monitors (R199 to R201). -/
structure Power where
  limit : BitVec 16
  level : BitVec 3
  watts : BitVec 16
  idle : BitVec 16
  cluster : Vector (BitVec 2) 8
  /-- how many dies have reached 105 °C and have not fallen below 95 °C since (R200) -/
  hot : Nat
  pmSel : SMap (BitVec 16)
  pmCnt : SMap (BitVec 48)
  deriving DecidableEq, Repr, Inhabited

/-- A privilege mode of a hart (R184). -/
inductive HartMode where
  | u | s | m
  deriving DecidableEq, Repr, Inhabited

/-- The reservation of a hart's LR: its address and bytes, and the stamp of the last write to its line. -/
structure Reserved where
  addr : Nat
  bytes : Nat
  stamp : VClock
  deriving DecidableEq, Repr, Inhabited

/-- A hart of the firmware complex: the registers that RV64GC and the privileged architecture give it (R184; PRESUMED, log 162). -/
structure Hart where
  pc : Word
  mode : HartMode
  x : Vector Word 32
  f : Vector Word 32
  fflags : BitVec 5
  frm : BitVec 3
  mstatus : Word
  medeleg : Word
  mideleg : Word
  mie : Word
  /-- the pending bits that software has written -/
  mip : Word
  mtvec : Word
  mcounteren : BitVec 32
  mcountinhibit : BitVec 32
  mscratch : Word
  mepc : Word
  mcause : Word
  mtval : Word
  /-- FIOM of menvcfg and senvcfg -/
  menvcfg : Bool
  senvcfg : Bool
  mcycle : Word
  minstret : Word
  stvec : Word
  scounteren : BitVec 32
  sscratch : Word
  sepc : Word
  scause : Word
  stval : Word
  satp : Word
  pmpcfg : Vector (BitVec 8) 16
  pmpaddr : Vector Word 16
  reserved : Option Reserved
  deriving DecidableEq, Repr, Inhabited

/-- Boot and the firmware complex (R184, R193 to R196, R412). -/
structure Boot where
  mreg : Vector (BitVec 512) 4
  stat : BitVec 4
  booted : Bool
  module : Word
  ptpPort : BitVec 3
  timeRoot : Bool
  /-- the configuration record that the boot applied (R196) -/
  config : List Byte
  harts : BitVec 4
  /-- the harts themselves, and the entry of the verified monitor, at which they restart (R184, R186) -/
  hart : Vector Hart 4
  monitor : Word
  /-- the device identity key pair, as bytes (R193) -/
  identity : List Byte
  /-- quotes that the monitor has produced (R195) -/
  quotes : List (List Byte)
  sram : Memory
  deriving DecidableEq, Repr, Inhabited

/-! ## The module -/

structure State where
  agenda : List Turn
  turnNo : Nat
  /-- how many operations on lines of memory the word that issues in this step makes in it; none: all its effects are
  performed in it (R59, R166) -/
  lineOps : Option Nat
  cur : CoreId
  free : Nat
  cycle : Nat
  ft : Word
  ftRep : Vector Word 4
  /-- quarters of a nanosecond past `ft` and past each replica -/
  phase : BitVec 2
  repPhase : Vector (BitVec 2) 4
  /-- the cycle of the last slewing step of the master and of each replica (R188) -/
  slewAt : Nat
  repSlewAt : Vector Nat 4
  tickOrigin : Vector Word 8
  tickPeriod : Vector Word 8
  rsBase : Word
  tails : SMap Word
  /-- the clocks that the writes to each tail register carried (R169, R231) -/
  tailClks : SMap VClock
  /-- the clocks of the writes to the registers of region 3, by lining address (R170) -/
  regClks : SMap VClock
  fqs : SMap FaultQ
  /-- fault records whose write waits, oldest first -/
  waitRecs : List WaitRec
  ctxs : SMap CtxCfg
  ws : WeightStore
  mem : Mem
  tree : Tree
  tg : TaskGraph
  gath : Vector Gatherer 8
  host : HostIf
  links : Vector Link 16
  remotes : List Remote
  power : Power
  boot : Boot
  /-- saved sections, by the lining address of the image -/
  saves : SMap Saved
  cores : SMap Core
  deriving DecidableEq, Repr, Inhabited

/-! ## Reset -/

/-- A flag at reset (R60). -/
def Flag.reset : Flag := { ceil := 0xFFFF, incr := 1, thresh := 1, count := 0 }

def Ring.reset : Ring :=
  { base := 0, size := 0, fetch := 0, pub := 0, count := 0, started := false, ended := false,
    entry := false }

/-- An engine at reset: descriptors zero (R72), LFSR 1 (DESIGN CHOICE, log 18). -/
def Engine.reset : Engine :=
  { buf := [], bad := [], live := Vector.replicate 16 0, shadow := Vector.replicate 16 0, lfsr := 1,
    reload := false, issued := 0, recent := [], prog := [], halt := none }

def Bobbin.reset : Bobbin := { config := 0, free := 0, filled := 0, rptr := 0, wptr := 0 }

def Away.reset : Away := { mode := 0, num := 0, core := 0, owner := 0, image := 0, held := [] }

/-- A core at reset (R83 and the entries of INVENTORY.md). DESIGN CHOICE, unsafe (log 7): the pass memory, the pass header and the
range file hold zeros and no set. -/
def Core.reset : Core :=
  { a := Vector.replicate 32 0, x := Vector.replicate 32 0, p := Vector.replicate 8 false, ax := [], xa := [],
    flags := Vector.replicate 64 Flag.reset, flagNum := 64, flagBase := 0, ctx := 0, priv := false,
    budget := 0, budgetAt := 0, passId := 0, fmtSlot := Vector.replicate 16 0, round := 0, srSeed := 1,
    pmSel := Vector.replicate 8 0, pmCnt := Vector.replicate 8 0, pmAt := Vector.replicate 8 0,
    excCause := 0, excWord := 0, excAddr := 0, excRet := 0,
    bankFmt := Vector.replicate 176 0, owner := Vector.replicate 176 false, spad := [], side := [],
    rings := Vector.replicate 5 Ring.reset, handler := [], handlerPos := 0, wdone := false, aMoves := [],
    xLfsr := 1, xReload := false, xHalt := none, xProg := [], xRes := [],
    m := Engine.reset, v := Engine.reset, c := Engine.reset,
    acc := [], accMode := Vector.replicate 4 false, accShadow := [], accShadowRows := [],
    stages := Vector.replicate 2 none, metaQ := Vector.replicate 4 { mode := false, entries := [] },
    bobbins := Vector.replicate 32 Bobbin.reset, windows := Vector.replicate 4 none, sched := none,
    stageCtr := 0, marks := Vector.replicate 4 none, monitor := none, finc := false,
    passMem := Vector.replicate 256 0, rangeTags := [], rangeFile := [], header := Vector.replicate 8 0,
    current := false, budgetArmed := false, parkedOwners := [], rangeSet := [], feed := none,
    codeHash := 0, loaded := false, advert := false, stall := false, late := false, dead := false,
    wireInHandler := false, preempt := false, sigDrop := 0, away := Vector.replicate 8 Away.reset,
    regions := [], scnt := 0, scntAt := 0, scntRun := false, lsSched := 0, lsEn := false, lsGroup := 0,
    lsStart := 0, aSafe := none, aSafeWord := 0, safeAt := none, recv := [], spadErr := [], accErr := [],
    handover := none, movedAt := 0, hints := [], ptTime := none,
    stalled := Vector.replicate 5 false, winClk := VClock.zero, arbAt := 0, arbRank := 0 }

def Ctl.reset : Ctl :=
  { root := 0, en := false, skew := 0, disc := 0, uncached := false, good := 0, drained := [], uncorr := 0,
    corr := 0, bal := 0, dueAt := 0, refreshing := false, hot := false, srate := 16, scrubEn := false,
    scrubPos := 0, scrub := none, tc := [] }

def Mem.reset : Mem :=
  { l2 := [], lines := [], pt := [], replicas := [], const := [], stamps := [], rmws := [],
    clocks := Vector.replicate 4 VClock.zero, updates := [], gates := [], limits := [],
    ctls := Vector.replicate 8 Ctl.reset, victims := [], writebacks := [], opLines := none, opLog := none, hbm := [], hbmKey := [],
    hbmUnc := [], hbmCor := [], keys := [] }

def RollUp.reset : RollUp :=
  { en := false, ntBase := 0, ptBase := 0, ptLog := 0, freeNum := 0, freeHead := 0xFFFFFF, err := false,
    errNode := 0 }

def Gatherer.reset : Gatherer :=
  { en := false, gcyc := 0, lat := 400, depth := 2, pcount := 0, bins := [], shapes := [], shapesNew := [], ran := false, held := [],
    parked := [], input := [], written := [], views := [] }

def Link.reset : Link :=
  { down := false, discard := false, rej := 0, fseq := 0, lastIn := 0xFFFF, lastAck := 0xFFFF, unacked := [],
    out := [], pend := [], outgoing := [], sends := [], replies := [], mgmt := [], offset := 0, slotNo := 0, slotUsed := 0 }

def FaultQ.reset : FaultQ := { base := 0, logc := 0, tail := 0, head := 0, lost := 0, clock := VClock.zero }

def SubQ.reset : SubQ :=
  { en := false, gath := 0, logc := 0, ring := 0, owner := 0, tail := 0, head := 0, clock := VClock.zero }

def Wid.reset : Wid :=
  { wid := 0, base := 0, tiles := 0, tbytes := 0, node := 0, regCount := 0, locked := false, owner := 0 }

def KeySlot.reset : KeySlot := { key := 0, loaded := false, retired := false }

def Shape.reset : Shape := { high := 0, tgt := 0 }

def HostIf.reset : HostIf :=
  { sqs := [], logBase := 0, logNext := 0, logCommit := 0, wdLimit := 10000, wdStart := 0,
    fbActive := false, fbNext := 0, swDesc := 0, swPort := 0, sseq := 0, swLast := 0, swPer := 0, swDue := false,
    swOut := [], heldTails := [], rodQ := [], regions := [], receives := [], replies := [], rejects := Vector.replicate 8 0, irqLog := false,
    irqCold := false, irqFault := false, cold := [] }

def Power.reset : Power :=
  { limit := 3000, level := 0, watts := 0, idle := 50, cluster := Vector.replicate 8 0, hot := 0,
    pmSel := [], pmCnt := [] }

/-- A hart as its reset leaves it: in M-mode at an entry, without a reservation, MIE and MPRV 0, no PMP entry on. What the privileged
architecture leaves unspecified is 0 (DESIGN CHOICE, unsafe, log 164). -/
def Hart.reset (entry : Word) : Hart :=
  { pc := entry, mode := .m, x := Vector.replicate 32 0, f := Vector.replicate 32 0, fflags := 0, frm := 0, mstatus := 0, medeleg := 0,
    mideleg := 0, mie := 0, mip := 0, mtvec := 0, mcounteren := 0, mcountinhibit := 0, mscratch := 0, mepc := 0, mcause := 0, mtval := 0,
    menvcfg := false, senvcfg := false, mcycle := 0, minstret := 0, stvec := 0, scounteren := 0, sscratch := 0, sepc := 0, scause := 0,
    stval := 0, satp := 0, pmpcfg := Vector.replicate 16 0, pmpaddr := Vector.replicate 16 0, reserved := none }

def Boot.reset : Boot :=
  { mreg := Vector.replicate 4 0, stat := 0, booted := false, module := 0, ptpPort := 0, timeRoot := false, config := [],
    harts := 0, hart := Vector.replicate 4 (Hart.reset 0), monitor := 0, identity := [], quotes := [], sram := [] }

/-- The module after reset: every field at the value the spec states; where it states none, at the value that
the log names (logs 1 to 18). -/
def State.reset : State :=
  { agenda := [], turnNo := 0, lineOps := none, cur := 0, free := 0, cycle := 0, ft := 0, ftRep := Vector.replicate 4 0,
    phase := 0, repPhase := Vector.replicate 4 0,
    slewAt := 0, repSlewAt := Vector.replicate 4 0, tickOrigin := Vector.replicate 8 0, tickPeriod := Vector.replicate 8 0, rsBase := 0,
    tails := [], tailClks := [], regClks := [], fqs := [], waitRecs := [], ctxs := [],
    ws := { err := 0, busy := false, pending := none, wids := [] },
    mem := Mem.reset,
    tree := { engines := Vector.replicate 4 RollUp.reset, patches := [], changes := [], deltas := [], moves := 0 },
    tg := { tasks := [], nextId := 0, ranges := [] },
    gath := Vector.replicate 8 Gatherer.reset, host := HostIf.reset,
    links := Vector.replicate 16 Link.reset, remotes := [], power := Power.reset, boot := Boot.reset, saves := [],
    cores := [] }

end Sys2Proof.Machine
end

