-- ==== Sys2Proof/Machine/Sparse.lean ====
section
/-! DEFINITION. Sparse tables, byte memories in canonical form, and the conversions between bytes and numbers in
little-endian order (R5). -/

namespace Sys2Proof.Machine

/-- The entry of a table under a key. -/
def mapGet {α : Type} : SMap α → Nat → Option α
  | [], _ => none
  | (k', v) :: m, k => if k' = k then some v else if k < k' then none else mapGet m k

/-- The table with one entry written. -/
def mapPut {α : Type} : SMap α → Nat → α → SMap α
  | [], k, v => [(k, v)]
  | (k', v') :: m, k, v =>
    if k' = k then (k, v) :: m else if k < k' then (k, v) :: (k', v') :: m else (k', v') :: mapPut m k v

/-- The table without one entry. -/
def mapDel {α : Type} : SMap α → Nat → SMap α
  | [], _ => []
  | (k', v') :: m, k => if k' = k then m else if k < k' then (k', v') :: m else (k', v') :: mapDel m k

/-- Keys strictly rise. -/
def keysRise {α : Type} : SMap α → Bool
  | [] => true
  | [_] => true
  | (k, _) :: (k', v') :: m => decide (k < k') && keysRise ((k', v') :: m)

/-- The canonical form of a memory. -/
def Memory.wf (m : Memory) : Bool := keysRise m && m.all fun c => c.2 != 0

/-- The byte at an address: 0 where nothing is listed (log 7). -/
def byteAt (m : Memory) (a : Nat) : Byte := (mapGet m a).getD 0

/-- Writing one byte keeps the canonical form. -/
def setByte (m : Memory) (a : Nat) (b : Byte) : Memory :=
  if b = 0 then mapDel m a else mapPut m a b

/-- `n` bytes from an address upwards. -/
def bytesAt (m : Memory) (a : Nat) : Nat → List Byte
  | 0 => []
  | n + 1 => byteAt m a :: bytesAt m (a + 1) n

/-- Writing bytes from an address upwards. -/
def setBytes (m : Memory) (a : Nat) : List Byte → Memory
  | [] => m
  | b :: bs => setBytes (setByte m a b) (a + 1) bs

/-- Bytes as a number, the first byte lowest. -/
def natOfBytes : List Byte → Nat
  | [] => 0
  | b :: bs => b.toNat + 256 * natOfBytes bs

/-- The low `n` bytes of a number. -/
def bytesOfNat : Nat → Nat → List Byte
  | 0, _ => []
  | n + 1, v => BitVec.ofNat 8 v :: bytesOfNat n (v / 256)

/-- A word in `n` bytes. -/
def bytesOfW (n : Nat) (w : Word) : List Byte := bytesOfNat n w.toNat

/-- Bytes as a word. -/
def wordOf (bs : List Byte) : Word := w64 (natOfBytes bs)

/-- The 64 bytes of a line as one value. -/
def lineOf (bs : List Byte) : BitVec 512 := BitVec.ofNat 512 (natOfBytes bs)

/-- One value as the 64 bytes of a line. -/
def lineBytes (d : BitVec 512) : List Byte := bytesOfNat 64 d.toNat

/-- Entry `i` of a vector, a default outside it. -/
def vget {α : Type} [Inhabited α] {n : Nat} (v : Vector α n) (i : Nat) : α := v[i]?.getD default

/-- A vector with entry `i` written; unchanged where `i` lies outside it. -/
def vset {α : Type} {n : Nat} (v : Vector α n) (i : Nat) (x : α) : Vector α n := v.setIfInBounds i x

/-- Element `i` of a list replaced. -/
def listSet {α : Type} : List α → Nat → α → List α
  | [], _, _ => []
  | _ :: xs, 0, y => y :: xs
  | x :: xs, i + 1, y => x :: listSet xs i y

/-- Element `i` of a list removed. -/
def listDrop {α : Type} : List α → Nat → List α
  | [], _ => []
  | _ :: xs, 0 => xs
  | x :: xs, i + 1 => x :: listDrop xs i

/-- `x` in front of a list unless it holds it already. -/
def addNew (xs : List Nat) (x : Nat) : List Nat := if xs.contains x then xs else x :: xs

/-- `f 0`, `f 1`, … `f (n - 1)`. -/
def tabulate {α : Type} (n : Nat) (f : Nat → α) : List α := (List.range n).map f

end Sys2Proof.Machine
end

