-- ==== Sys2Proof/Machine/Numeric.lean ====
section
/-! DEFINITION. Number formats and arithmetic (spec 05): decoding, the one rounding function, MX quantisation,
exact products and sums, the transcendental functions, and the conversion of rows. -/

namespace Sys2Proof.Machine

/-! ## Values -/

/-- An exact value: NaN, an infinity, or (-1)^neg * m * 2^e. -/
inductive Val where
  | nan
  | inf (neg : Bool)
  | fin (neg : Bool) (m : Nat) (e : Int)
  deriving DecidableEq, Repr, Inhabited

/-- The rounding modes (R90). -/
inductive Mode where
  | rne | rtz | rup | rdn | sr
  deriving DecidableEq, Repr, Inhabited

/-- RND with the mode that CSR ROUND holds (R90). -/
def modeOf (rnd round : BitVec 3) : Mode :=
  match (if rnd = 7 then round else rnd).toNat with
  | 1 => .rtz
  | 2 => .rup
  | 3 => .rdn
  | 4 => .sr
  | _ => .rne

/-- A float layout (R84, R87): `spec` 0 finite with a NaN, 1 IEEE-like, 2 no specials. -/
structure FloatFmt where
  sign : Bool
  eb : Nat
  mb : Nat
  bias : Int
  spec : Nat
  deriving DecidableEq, Repr, Inhabited

/-- How one element decodes (R84). -/
inductive Elem where
  | flt (f : FloatFmt)
  | int (signed : Bool) (w : Nat)
  | raw
  deriving DecidableEq, Repr, Inhabited

/-- A valid format: the element, and the block size of an MX format (0 for none). -/
structure Fmt where
  elem : Elem
  blk : Nat
  deriving DecidableEq, Repr, Inhabited

def fp32F : FloatFmt := { sign := true, eb := 8, mb := 23, bias := 127, spec := 1 }
def bf16F : FloatFmt := { sign := true, eb := 8, mb := 7, bias := 127, spec := 1 }
def fp16F : FloatFmt := { sign := true, eb := 5, mb := 10, bias := 15, spec := 1 }

/-- The encodings of FP32 and s32 (R84), which accumulator rows take (R86). -/
def fp32Enc : BitVec 32 := 0x30000000
def s32Enc : BitVec 32 := 0x40000020

/-- The float layout of classes 0 and 7. -/
def narrow (r : BitVec 32) : FloatFmt :=
  { sign := bit r 27, eb := (field r 24 3).toNat, mb := (field r 21 3).toNat,
    bias := (field r 13 8).toInt, spec := (field r 11 2).toNat }

/-- The float layout obeys R85. -/
def FloatFmt.ok (f : FloatFmt) : Bool :=
  let w := (if f.sign then 1 else 0) + f.eb + f.mb
  decide (2 ≤ f.eb) && decide (f.eb ≤ 7) && decide (4 ≤ w) && decide (w ≤ 8) && decide (f.spec ≤ 2)

/-- BLK (R85). -/
def blkOf (r : BitVec 32) : Option Nat :=
  match (field r 8 3).toNat with
  | 1 => some 16
  | 2 => some 32
  | _ => none

/-- The format of an encoding; none for an invalid one (R85). -/
def Fmt.parse (r : BitVec 32) : Option Fmt :=
  let iw := (field r 0 8).toNat
  match (field r 28 4).toNat with
  | 0 =>
    if (narrow r).ok && field r 0 11 == 0 then some { elem := .flt (narrow r), blk := 0 } else none
  | 1 => if field r 0 28 = 0 then some { elem := .flt bf16F, blk := 0 } else none
  | 2 => if field r 0 28 = 0 then some { elem := .flt fp16F, blk := 0 } else none
  | 3 => if field r 0 28 = 0 then some { elem := .flt fp32F, blk := 0 } else none
  | 4 => if field r 8 20 == 0 && [2, 4, 8, 16, 32].contains iw then some { elem := .int true iw, blk := 0 } else none
  | 5 => if field r 8 20 == 0 && [2, 4, 8, 16, 32].contains iw then some { elem := .int false iw, blk := 0 } else none
  | 6 =>
    match blkOf r with
    | some b => if field r 11 17 == 0 && iw == 8 then some { elem := .int true 8, blk := b } else none
    | none => none
  | 7 =>
    match blkOf r with
    | some b => if (narrow r).ok && iw == 0 then some { elem := .flt (narrow r), blk := b } else none
    | none => none
  | 8 => if field r 0 28 = 0 then some { elem := .raw, blk := 0 } else none
  | _ => none

/-- Bits of an element (R88). -/
def Elem.width : Elem → Nat
  | .flt f => (if f.sign then 1 else 0) + f.eb + f.mb
  | .int _ w => w
  | .raw => 8

/-! ## Decoding -/

/-- The value of a float code (R87). -/
def FloatFmt.decode (f : FloatFmt) (c : Nat) : Val :=
  let m := c % 2 ^ f.mb
  let e := c / 2 ^ f.mb % 2 ^ f.eb
  let s := f.sign && c / 2 ^ (f.mb + f.eb) % 2 == 1
  let t := 2 ^ f.eb - 1
  if e = t && f.spec = 0 && m = 2 ^ f.mb - 1 then .nan
  else if e = t && f.spec = 1 then (if m = 0 then .inf s else .nan)
  else if e = 0 then .fin s m (1 - f.bias - f.mb)
  else .fin s (2 ^ f.mb + m) (e - f.bias - f.mb)

/-- A two's complement or unsigned integer of `w` bits. -/
def intOf (signed : Bool) (w c : Nat) : Int :=
  let c := c % 2 ^ w
  if signed && 2 ^ (w - 1) ≤ c then (c : Int) - 2 ^ w else c

/-- An integer as an exact value. -/
def Val.ofInt (n : Int) : Val := .fin (decide (n < 0)) n.natAbs 0

/-- The value of an element's code. -/
def Elem.decode (el : Elem) (c : Nat) : Val :=
  match el with
  | .flt f => f.decode c
  | .int s w => .ofInt (intOf s w c)
  | .raw => .ofInt c

/-- A value times a power of two. -/
def Val.scale (v : Val) (k : Int) : Val :=
  match v with
  | .fin s m e => .fin s m (e + k)
  | v => v

/-- An MX element under its block's scale code (R94). -/
def mxDecode (el : Elem) (scale c : Nat) : Val :=
  if scale = 255 then .nan
  else
    let k : Int := (scale : Int) - 127
    match el with
    | .int s w => (Val.ofInt (intOf s w c)).scale (k - 6)
    | el => (el.decode c).scale k

/-! ## Rounding -/

/-- Rounding `lo + rem / 2^d` (with a further non-zero part when `sticky`) to an integer (R91, R93). -/
def roundUp (mode : Mode) (neg : Bool) (lo rem d : Nat) (sticky : Bool) (l : Nat) : Bool :=
  let inexact := rem != 0 || sticky
  match mode with
  | .rne =>
    decide (2 ^ d < 2 * rem) || (2 * rem == 2 ^ d && (sticky || lo % 2 == 1))
  | .rtz => false
  | .rup => inexact && !neg
  | .rdn => inexact && neg
  | .sr => decide (2 ^ 16 ≤ rem * 2 ^ 16 / 2 ^ d + l)

/-- The multiple of 2^q that `m * 2^e` rounds to, as its quotient by 2^q. -/
def roundAt (mode : Mode) (neg : Bool) (m : Nat) (e q : Int) (sticky : Bool) (l : Nat) : Nat :=
  let d := (q - e).toNat
  let m := m * 2 ^ (e - q).toNat
  let lo := m / 2 ^ d
  let rem := m % 2 ^ d
  if roundUp mode neg lo rem d sticky l then lo + 1 else lo

/-- floor(log2 (m * 2^e)) for m > 0. -/
def flog2 (m : Nat) (e : Int) : Int := (Nat.log2 m : Int) + e

/-- The largest finite magnitude of a float format, as m * 2^e (R89). -/
def FloatFmt.maxfin (f : FloatFmt) : Nat × Int :=
  let t : Int := 2 ^ f.eb - 1
  match f.spec with
  | 0 =>
    if f.mb = 0 then (1, t - 1 - f.bias) else (2 ^ (f.mb + 1) - 2, t - f.bias - f.mb)
  | 1 => (2 ^ (f.mb + 1) - 1, t - 1 - f.bias - f.mb)
  | _ => (2 ^ (f.mb + 1) - 1, t - f.bias - f.mb)

/-- a * 2^ea <= b * 2^eb. -/
def leScaled (a : Nat) (ea : Int) (b : Nat) (eb : Int) : Bool :=
  decide (a * 2 ^ (ea - eb).toNat ≤ b * 2 ^ (eb - ea).toNat)

/-- The code of the magnitude k * 2^q of a float format, k * 2^q in its grid. -/
def FloatFmt.codeOf (f : FloatFmt) (neg : Bool) (k : Nat) (q : Int) : Nat :=
  let s := if neg && f.sign then 2 ^ (f.mb + f.eb) else 0
  if k = 0 then s
  else
    let lg := flog2 k q
    if lg < 1 - f.bias then s + k * 2 ^ (q - (1 - f.bias - f.mb)).toNat / 2 ^ ((1 - f.bias - f.mb) - q).toNat
    else
      let m := k * 2 ^ f.mb / 2 ^ Nat.log2 k - 2 ^ f.mb
      s + (lg + f.bias).toNat * 2 ^ f.mb + m

/-- The canonical NaN code; +0 where the format has none (R91). -/
def FloatFmt.nan (f : FloatFmt) : Nat :=
  match f.spec with
  | 0 => 2 ^ (f.eb + f.mb) - 1
  | 1 => if f.mb = 0 then 0 else (2 ^ f.eb - 1) * 2 ^ f.mb + 2 ^ (f.mb - 1)
  | _ => 0

/-- The code of an infinity of an IEEE-like format. -/
def FloatFmt.inf (f : FloatFmt) (neg : Bool) : Nat :=
  (if neg && f.sign then 2 ^ (f.mb + f.eb) else 0) + (2 ^ f.eb - 1) * 2 ^ f.mb

/-- round_to for a finite magnitude m * 2^e and a float format (R91). -/
def FloatFmt.round (f : FloatFmt) (neg : Bool) (m : Nat) (e : Int) (sticky : Bool) (mode : Mode) (sat : Bool)
    (l : Nat) : Nat :=
  if m = 0 && !sticky then f.codeOf neg 0 0
  else if neg && !f.sign then 0
  else
    let q := max (flog2 m e - f.mb) (1 - f.bias - f.mb)
    let k := roundAt mode neg m e q sticky l
    let (mx, ex) := f.maxfin
    if leScaled k q mx ex then f.codeOf neg k q
    else if f.spec ≠ 1 || sat then f.codeOf neg mx ex
    else if mode = .rtz || (mode = .rup && neg) || (mode = .rdn && !neg) then f.codeOf neg mx ex
    else f.inf neg

/-- Clamping an integer. -/
def clampInt (lo hi n : Int) : Int := if n < lo then lo else if hi < n then hi else n

/-- The least and greatest value of an integer format. -/
def intMin (s : Bool) (w : Nat) : Int := if s then -(2 ^ (w - 1)) else 0
def intMax (s : Bool) (w : Nat) : Int := if s then 2 ^ (w - 1) - 1 else 2 ^ w - 1

/-- The code of an integer of `w` bits. -/
def intCode (w : Nat) (n : Int) : Nat := (n % (2 ^ w : Int)).toNat

/-- round_int (R91): a finite value to an integer. -/
def roundInt (neg : Bool) (m : Nat) (e : Int) (mode : Mode) (l : Nat) : Int :=
  let k : Int := roundAt mode neg m e 0 false l
  if neg then -k else k

/-- round_to (R91): the code of a value in an element format that is not MX. -/
def roundTo (el : Elem) (v : Val) (mode : Mode) (sat : Bool) (l : Nat) : Nat :=
  match el, v with
  | .flt f, .nan => f.nan
  | .flt f, .inf neg =>
    if neg && !f.sign then 0
    else if f.spec = 1 && !sat then f.inf neg
    else f.codeOf neg f.maxfin.1 f.maxfin.2
  | .flt f, .fin neg m e => f.round neg m e false mode sat l
  | .int _ _, .nan => 0
  | .int s w, .inf neg => intCode w (if neg then intMin s w else intMax s w)
  | .int s w, .fin neg m e => intCode w (clampInt (intMin s w) (intMax s w) (roundInt neg m e mode l))
  | .raw, .fin neg m e => intCode 8 (clampInt 0 255 (roundInt neg m e mode l))
  | .raw, _ => 0

/-- round_to an FP32 code. -/
def round32 (v : Val) (mode : Mode) (l : Nat) : BitVec 32 :=
  BitVec.ofNat 32 (roundTo (.flt fp32F) v mode false l)

/-- rne32 (R91). -/
def rne32 (v : Val) : BitVec 32 := round32 v .rne 0

/-- The value of an FP32 code. -/
def val32 (c : BitVec 32) : Val := fp32F.decode c.toNat

/-- sat32 (R91). -/
def sat32 (n : Int) : Int := clampInt (-(2 ^ 31)) (2 ^ 31 - 1) n

/-! ## Exact operations -/

/-- The exact sum (R92): an exact zero of mixed signs is +0, or -0 when `rdn`. -/
def Val.add (rdn : Bool) : Val → Val → Val
  | .nan, _ => .nan
  | _, .nan => .nan
  | .inf a, .inf b => if a = b then .inf a else .nan
  | .inf a, _ => .inf a
  | _, .inf b => .inf b
  | .fin s m e, .fin s' m' e' =>
    let q := min e e'
    let x : Int := (m * 2 ^ (e - q).toNat : Nat)
    let y : Int := (m' * 2 ^ (e' - q).toNat : Nat)
    let t := (if s then -x else x) + (if s' then -y else y)
    if t = 0 then .fin (if m = 0 && m' = 0 && s = s' then s else rdn) 0 0
    else .fin (decide (t < 0)) t.natAbs q

/-- The exact product. -/
def Val.mul : Val → Val → Val
  | .nan, _ => .nan
  | _, .nan => .nan
  | .inf a, .inf b => .inf (a != b)
  | .inf a, .fin b m _ => if m = 0 then .nan else .inf (a != b)
  | .fin a m _, .inf b => if m = 0 then .nan else .inf (a != b)
  | .fin a m e, .fin b m' e' => .fin (a != b) (m * m') (e + e')

def Val.neg : Val → Val
  | .nan => .nan
  | .inf s => .inf !s
  | .fin s m e => .fin (!s) m e

def Val.abs : Val → Val
  | .nan => .nan
  | .inf _ => .inf false
  | .fin _ m e => .fin false m e

def Val.isNan : Val → Bool
  | .nan => true
  | _ => false

def Val.isZero : Val → Bool
  | .fin _ m _ => m == 0
  | _ => false

def Val.isNeg : Val → Bool
  | .nan => false
  | .inf s => s
  | .fin s _ _ => s

/-- a < b for values that are not NaN; zeros compare equal. -/
def Val.lt : Val → Val → Bool
  | .nan, _ => false
  | _, .nan => false
  | .inf a, .inf b => a && !b
  | .inf a, _ => a
  | _, .inf b => !b
  | .fin s m e, .fin s' m' e' =>
    let q := min e e'
    let x : Int := (m * 2 ^ (e - q).toNat : Nat)
    let y : Int := (m' * 2 ^ (e' - q).toNat : Nat)
    decide ((if s then -x else x) < (if s' then -y else y))

/-- The lesser of two values, -0 below +0; NaN if either is NaN (R279, R313). -/
def Val.minv (a b : Val) : Val :=
  if a.isNan || b.isNan then .nan
  else if a.isZero && b.isZero then (if a.isNeg then a else b)
  else if b.lt a then b else a

/-- The greater of two values, +0 above -0; NaN if either is NaN. -/
def Val.maxv (a b : Val) : Val :=
  if a.isNan || b.isNan then .nan
  else if a.isZero && b.isZero then (if a.isNeg then b else a)
  else if a.lt b then b else a

/-- dot_exact (R99): the exact sum of products; an exact zero is +0. -/
def dotExact (ps : List (Val × Val)) : Val :=
  let prods := ps.map fun p => p.1.mul p.2
  let sum := prods.foldl (Val.add false) (.fin false 0 0)
  match sum with
  | .fin _ 0 _ => .fin false 0 0
  | v => v

/-- Integer square root, from bit `n` downwards. -/
def isqrtFrom : Nat → Nat → Nat → Nat
  | 0, r, x => if (r + 1) * (r + 1) ≤ x then r + 1 else r
  | n + 1, r, x =>
    let t := r + 2 ^ (n + 1)
    isqrtFrom n (if t * t ≤ x then t else r) x

def isqrt (x : Nat) : Nat := isqrtFrom (Nat.log2 x / 2 + 1) 0 x

/-- Rounding an FP32 result that lies just above the truncation m * 2^e when `sticky`. -/
def round32s (neg : Bool) (m : Nat) (e : Int) (sticky : Bool) (mode : Mode) (l : Nat) : BitVec 32 :=
  BitVec.ofNat 32 (fp32F.round neg m e sticky mode false l)

/-- The correctly rounded FP32 quotient (R279). -/
def div32 (a b : Val) (mode : Mode) (l : Nat) : BitVec 32 :=
  match a, b with
  | .nan, _ => rne32 .nan
  | _, .nan => rne32 .nan
  | .inf _, .inf _ => rne32 .nan
  | .inf s, .fin s' _ _ => rne32 (.inf (s != s'))
  | .fin s _ _, .inf s' => rne32 (.fin (s != s') 0 0)
  | .fin s m e, .fin s' m' e' =>
    if m' = 0 then (if m = 0 then rne32 .nan else rne32 (.inf (s != s')))
    else if m = 0 then rne32 (.fin (s != s') 0 0)
    else
      let k := 80 + Nat.log2 m'
      let n := m * 2 ^ k
      round32s (s != s') (n / m') (e - e' - k) (n % m' != 0) mode l

/-- The correctly rounded FP32 square root (R279). -/
def sqrt32 (a : Val) (mode : Mode) (l : Nat) : BitVec 32 :=
  match a with
  | .nan => rne32 .nan
  | .inf s => if s then rne32 .nan else rne32 (.inf false)
  | .fin s m e =>
    if m = 0 then rne32 (.fin s 0 0)
    else if s then rne32 .nan
    else
      let odd := e % 2 != 0
      let m := if odd then m * 2 else m
      let e := if odd then e - 1 else e
      let n := m * 2 ^ 128
      let r := isqrt n
      round32s false r ((e - 128) / 2) (r * r != n) mode l

/-! ## Transcendental functions (R101), in fixed point with enough bits for one correct rounding (log 26) -/

/-- Sum of z^(2i+1) / (2i+1) over `n` terms, alternating when `alt`; `p` is the unit. -/
def atanSeries (alt : Bool) (p z2 : Nat) : Nat → Nat → Nat → Int
  | 0, _, _ => 0
  | n + 1, zp, i =>
    let t : Int := (zp / (2 * i + 1) : Nat)
    (if alt && i % 2 == 1 then -t else t) + atanSeries alt p z2 n (zp * z2 / p) (i + 1)

/-- ln 2 = 2 atanh(1/3) in units of 1/p. -/
def ln2Fix (p : Nat) : Nat :=
  (2 * atanSeries false p (p / 9) (Nat.log2 p / 3 + 8) (p / 3) 0).toNat

/-- pi by Machin's formula in units of 1/p. -/
def piFix (p : Nat) : Nat :=
  (16 * atanSeries true p (p / 25) (Nat.log2 p / 4 + 8) (p / 5) 0 -
    4 * atanSeries true p (p / 57121) (Nat.log2 p / 15 + 8) (p / 239) 0).toNat

/-- e^r for 0 <= r < 1 in units of 1/p. -/
def expSeries (p r : Nat) : Nat → Nat → Nat → Nat
  | 0, t, _ => t
  | n + 1, t, i => t + expSeries p r n (t * r / p / (i + 1)) (i + 1)

/-- e^x for x = xi / 2^pb, as (mantissa in units of 2^-pb, power of two). -/
def expFix (pb : Nat) (xi : Int) : Nat × Int :=
  let p := 2 ^ pb
  let l := ln2Fix p
  let k := xi / l
  let r := (xi - k * l).toNat
  (expSeries p r (pb / 3 + 10) p 0, k)

/-- x as an integer in units of 2^-pb. -/
def fixOf (pb : Nat) (neg : Bool) (m : Nat) (e : Int) : Int :=
  let x : Int := (m * 2 ^ (e + pb).toNat / 2 ^ (-(e + pb)).toNat : Nat)
  if neg then -x else x

/-- |x| > 2^k. -/
def bigger (m : Nat) (e k : Int) : Bool := m != 0 && decide (k ≤ flog2 m e)

/-- VEXP (R101). -/
def exp32 : Val → BitVec 32
  | .nan => rne32 .nan
  | .inf s => if s then 0 else rne32 (.inf false)
  | .fin s m e =>
    if m = 0 then rne32 (.fin false 1 0)
    else if bigger m e 8 then (if s then 0 else rne32 (.inf false))
    else
      let (y, k) := expFix 400 (fixOf 400 s m e)
      round32s false y (k - 400) true .rne 0

/-- VLOG (R101). -/
def log32 : Val → BitVec 32
  | .nan => rne32 .nan
  | .inf s => if s then rne32 .nan else rne32 (.inf false)
  | .fin s m e =>
    if m = 0 then rne32 (.inf true)
    else if s then rne32 .nan
    else if m = 2 ^ Nat.log2 m && flog2 m e = 0 then 0
    else
      let p := 2 ^ 400
      let lg := Nat.log2 m
      let f := m * p / 2 ^ lg
      let up := 3 * p < 2 * f
      let f := if up then f / 2 else f
      let k : Int := (lg : Int) + e + (if up then 1 else 0)
      let num : Int := (f : Int) - p
      let z := num.natAbs * p / (f + p)
      let at0 := 2 * atanSeries false p (z * z / p) 220 z 0
      let y := k * (ln2Fix p : Int) + (if num < 0 then -at0 else at0)
      round32s (decide (y < 0)) y.natAbs (-400) true .rne 0

/-- VRSQ (R101). -/
def rsq32 : Val → BitVec 32
  | .nan => rne32 .nan
  | .inf s => if s then rne32 .nan else 0
  | .fin s m e =>
    if m = 0 then rne32 (.inf s)
    else if s then rne32 .nan
    else
      let odd := e % 2 != 0
      let m := if odd then m * 2 else m
      let e := if odd then e - 1 else e
      let n := 2 ^ 256 / m
      let r := isqrt n
      round32s false r (-128 - e / 2) (r * r * m != 2 ^ 256) .rne 0

/-- VTANH (R101). -/
def tanh32 : Val → BitVec 32
  | .nan => rne32 .nan
  | .inf s => rne32 (.fin s 1 0)
  | .fin s m e =>
    if m = 0 then rne32 (.fin s 0 0)
    else if bigger m e 6 then round32s s (2 ^ 400 - 1) (-400) true .rne 0
    else
      let pb := 500
      let (y, k) := expFix pb (2 * fixOf pb false m e)
      let y := y * 2 ^ k.toNat
      let p := 2 ^ pb
      round32s s ((y - p) * p / (y + p)) (-(pb : Int)) true .rne 0

/-- 1 / (1 + e^-x) in units of 2^-pb, for |x| < 2^8. -/
def sigmaFix (pb : Nat) (xi : Int) : Nat :=
  let p := 2 ^ pb
  let (y, k) := expFix pb (-xi)
  let y := y * 2 ^ k.toNat / 2 ^ (-k).toNat
  p * p / (p + y)

/-- VSILU (R101). -/
def silu32 : Val → BitVec 32
  | .nan => rne32 .nan
  | .inf s => if s then rne32 (.fin true 0 0) else rne32 (.inf false)
  | .fin s m e =>
    if m = 0 then rne32 (.fin s 0 0)
    else if bigger m e 8 then (if s then rne32 (.fin true 0 0) else round32s false m e false .rne 0)
    else
      let g := sigmaFix 800 (fixOf 800 s m e)
      round32s s (m * g) (e - 800) true .rne 0

/-- Sum of x^(2n+1) / (2n+1)!! in units of 1/p. -/
def phiSeries (p x2 : Nat) : Nat → Nat → Nat → Nat
  | 0, _, _ => 0
  | n + 1, t, i => t + phiSeries p x2 n (t * x2 / p / (2 * i + 3)) (i + 1)

/-- The standard normal distribution function in units of 2^-pb, for |x| <= 16. -/
def phiFix (pb : Nat) (neg : Bool) (xa : Nat) : Nat :=
  let p := 2 ^ pb
  let x2 := xa * xa / p
  let (y, k) := expFix pb (-((x2 / 2 : Nat) : Int))
  let ex := y * 2 ^ k.toNat / 2 ^ (-k).toNat
  let root := isqrt (2 * piFix p * p)
  let sum := phiSeries p x2 1600 xa 0
  let h := ex * sum / root
  if neg then p / 2 - h else p / 2 + h

/-- VGELU (R101). -/
def gelu32 : Val → BitVec 32
  | .nan => rne32 .nan
  | .inf s => if s then rne32 (.fin true 0 0) else rne32 (.inf false)
  | .fin s m e =>
    if m = 0 then rne32 (.fin s 0 0)
    else if bigger m e 4 then (if s then rne32 (.fin true 0 0) else round32s false m e false .rne 0)
    else
      let g := phiFix 900 s (fixOf 900 false m e).toNat
      round32s s (m * g) (e - 900) true .rne 0

/-! ## LFSRs (R93) -/

/-- One step. -/
def lfsrStep (q : BitVec 32) : BitVec 32 :=
  (q <<< 1) ||| ofBool 32 (bit q 31 ^^ bit q 21 ^^ bit q 1 ^^ bit q 0)

def lfsrSteps : Nat → BitVec 32 → BitVec 32
  | 0, q => q
  | n + 1, q => lfsrSteps n (lfsrStep q)

/-- L: the low 16 bits. -/
def lfsrL (q : BitVec 32) : Nat := (field q 0 16).toNat

/-- The state a seed loads: 0 loads 1. -/
def lfsrSeed (seed : BitVec 32) : BitVec 32 := if seed = 0 then 1 else seed

/-! ## Rows -/

/-- An element row: packed elements (R88) and block scales (R96). -/
structure Row where
  bytes : List Byte
  scales : List Byte
  deriving DecidableEq, Repr, Inhabited

/-- Bytes of `cols` packed elements. -/
def Elem.rowBytes (el : Elem) (cols : Nat) : Nat := (cols * el.width + 7) / 8

/-- Scales of a row. -/
def Fmt.scaleBytes (f : Fmt) (cols : Nat) : Nat := if f.blk = 0 then 0 else cols / f.blk

/-- Bytes of a row in memory (R88, R96). -/
def Fmt.memBytes (f : Fmt) (cols : Nat) : Nat := f.scaleBytes cols + f.elem.rowBytes cols

/-- Element code `i` of packed bytes held as one number. -/
def codeAt (w n i : Nat) : Nat := n / 2 ^ (w * i) % 2 ^ w

/-- The codes of a row. -/
def Row.codes (f : Fmt) (cols : Nat) (r : Row) : List Nat :=
  let n := natOfBytes r.bytes
  tabulate cols fun i => codeAt f.elem.width n i

/-- The values of a row (R87, R94). -/
def Row.values (f : Fmt) (cols : Nat) (r : Row) : List Val :=
  let n := natOfBytes r.bytes
  tabulate cols fun i =>
    let c := codeAt f.elem.width n i
    if f.blk = 0 then f.elem.decode c else mxDecode f.elem (r.scales.getD (i / f.blk) 0).toNat c

/-- Packing codes of width `w` from bit 0 (R88). DEDUCED, unsafe (log 145): bits of the last byte that no code takes are zero, as
R208 gives them for an assembled row. -/
def packCodes (w : Nat) (cs : List Nat) : List Byte :=
  bytesOfNat ((cs.length * w + 7) / 8) (cs.foldr (fun c n => c % 2 ^ w + 2 ^ w * n) 0)

/-- The greatest magnitude of a list, as m * 2^e. -/
def amax : List Val → Nat × Int
  | [] => (0, 0)
  | .fin _ m e :: vs =>
    let (m', e') := amax vs
    if leScaled m e m' e' then (m', e') else (m, e)
  | _ :: vs => amax vs

/-- emax_elem (R89). -/
def Elem.emax : Elem → Int
  | .flt f => flog2 f.maxfin.1 f.maxfin.2
  | _ => 0

/-- One element of mx_quantise (R95), its block's exponent given. -/
def mxElem (el : Elem) (x : Int) (v : Val) (mode : Mode) (l : Nat) : Nat :=
  match el, v with
  | .int _ w, .fin s m e => intCode w (clampInt (-127) 127 (roundInt s m (e + 6 - x) mode l))
  | el, v => roundTo el (v.scale (-x)) mode true l

/-- A fold over elements that steps the LFSR once after each (R93). -/
def mapLfsr (step : Bool) (f : Nat → Val → Nat) : List Val → BitVec 32 → List Nat × BitVec 32
  | [], q => ([], q)
  | v :: vs, q =>
    let (cs, q') := mapLfsr step f vs (if step then lfsrStep q else q)
    (f (lfsrL q) v :: cs, q')

/-- mx_quantise (R95): scale code and element codes. -/
def mxQuantise (el : Elem) (mode : Mode) (vs : List Val) (q : BitVec 32) : Nat × List Nat × BitVec 32 :=
  let sr := mode == .sr
  if vs.any fun v => match v with | .fin _ _ _ => false | _ => true then
    (255, vs.map fun _ => 0, if sr then lfsrSteps vs.length q else q)
  else
    let (m, e) := amax vs
    if m = 0 then (0, vs.map fun _ => 0, if sr then lfsrSteps vs.length q else q)
    else
      let x := clampInt (-127) 127 (flog2 m e - el.emax)
      let (cs, q') := mapLfsr sr (fun l v => mxElem el x v mode l) vs q
      ((x + 127).toNat, cs, q')

/-- Quantising the blocks of a row. -/
def mxBlocks (el : Elem) (mode : Mode) (blk : Nat) : Nat → List Val → BitVec 32 →
    List Nat × List Nat × BitVec 32
  | 0, _, q => ([], [], q)
  | n + 1, vs, q =>
    let (s, cs, q1) := mxQuantise el mode (vs.take blk) q
    let (ss, cs', q2) := mxBlocks el mode blk n (vs.drop blk) q1
    (s :: ss, cs ++ cs', q2)

/-- Values written as a row of a format (R91, R95). -/
def writeRow (f : Fmt) (mode : Mode) (sat : Bool) (vs : List Val) (q : BitVec 32) : Row × BitVec 32 :=
  if f.blk = 0 then
    let (cs, q') := mapLfsr (mode == .sr) (fun l v => roundTo f.elem v mode sat l) vs q
    ({ bytes := packCodes f.elem.width cs, scales := [] }, q')
  else
    let (ss, cs, q') := mxBlocks f.elem mode f.blk (vs.length / f.blk) vs q
    ({ bytes := packCodes f.elem.width cs, scales := ss.map (BitVec.ofNat 8) }, q')

/-- Conversion of one row on a move (R97): `cols` elements of the source, `dcols` of the destination. -/
def convertRow (fsEnc fdEnc : BitVec 32) (fs fd : Fmt) (cols dcols : Nat) (mode : Mode) (sat : Bool) (r : Row)
    (q : BitVec 32) : Row × BitVec 32 :=
  let copied := if mode == .sr then lfsrSteps dcols q else q
  if fsEnc = fdEnc then (r, copied)
  else if fs.elem = .raw then
    let n := fd.scaleBytes dcols
    ({ bytes := r.bytes.drop n, scales := r.bytes.take n }, copied)
  else if fd.elem = .raw then ({ bytes := r.scales ++ r.bytes, scales := [] }, copied)
  else writeRow fd mode sat (r.values fs cols) q

/-- A vector operand's element: rne32 of its value (R100). -/
def widen (v : Val) : Val := val32 (rne32 v)

/-! ## Reductions (R102, R103) -/

/-- op of VRSUM. -/
def sumOp (a b : Val) : Val := val32 (rne32 (a.add false b))

/-- op of VRMAX. -/
def maxOp (a b : Val) : Val := val32 (rne32 (a.maxv b))

/-- The lanes of row_reduce: lane j mod 64 takes element j. -/
def laneFold (op : Val → Val → Val) (id : Val) (vs : List Val) (i : Nat) : Val :=
  (tabulate ((vs.length + 63 - i) / 64) fun k => vs.getD (i + 64 * k) id).foldl op id

/-- One fold of the lanes: (i, i + d) for i below d. -/
def foldLanes (op : Val → Val → Val) (d : Nat) (s : List Val) : List Val :=
  tabulate d fun i => op (s.getD i .nan) (s.getD (i + d) .nan)

/-- row_reduce (R102). -/
def rowReduce (op : Val → Val → Val) (id : Val) (vs : List Val) : Val :=
  let s := tabulate 64 (laneFold op id vs)
  ([32, 16, 8, 4, 2, 1].foldl (fun s d => foldLanes op d s) s).getD 0 .nan

end Sys2Proof.Machine
end

