-- ==== Sys2Proof/Machine/Flags.lean ====
section
/-! DEFINITION. The counting flags: virtual numbers, wait tests and additions (R57 to R62, R370, R371), and the
bobbin counters (R69, R70). -/

namespace Sys2Proof.Machine

/-- The physical flag of a virtual flag (R61); none at or above NUM. -/
def flagIdx (num : BitVec 7) (base : BitVec 6) (v : BitVec 6) : Option Nat :=
  if v.toNat < num.toNat then some ((v.toNat + base.toNat) % 64) else none

/-- The flag word (R60). -/
def Flag.word (f : Flag) : Word := f.ceil ++ f.incr ++ f.thresh ++ f.count

/-- The flag a flag word describes. -/
def Flag.ofWord (w : Word) : Flag :=
  { ceil := field w 48 16, incr := field w 32 16, thresh := field w 16 16, count := field w 0 16 }

/-- An addition that fits under CEIL; none where it is refused (R371). -/
def Flag.add (f : Flag) (n : Nat) : Option Flag :=
  if f.count.toNat + n ≤ f.ceil.toNat then some { f with count := BitVec.ofNat 16 (f.count.toNat + n) }
  else none

/-- The virtual flag a wait byte names. -/
def waitFlag : Wait → Option (BitVec 6)
  | .none => none
  | .one v => some v
  | .thresh v => some v
  | .probe v => some v

/-- The virtual flag a signal byte names. -/
def sigFlag : Sig → Option (BitVec 6)
  | .none => none
  | .one v => some v
  | .incr v => some v
  | .issue v => some v

/-- A wait on THRESH can never pass while THRESH exceeds CEIL (R370). -/
def waitHopeless (w : Wait) (f : Flag) : Bool :=
  match w with
  | .thresh _ | .probe _ => decide (f.ceil.toNat < f.thresh.toNat)
  | _ => false

/-- The wait condition and the count after it (R57); none while the condition does not hold. -/
def waitTest (w : Wait) (f : Flag) : Option Flag :=
  match w with
  | .none => some f
  | .one _ => if 1 ≤ f.count.toNat then some { f with count := f.count - 1 } else none
  | .thresh _ => if f.thresh.toNat ≤ f.count.toNat then some { f with count := f.count - f.thresh } else none
  | .probe _ => if f.thresh.toNat ≤ f.count.toNat then some f else none

/-- What a completion-time signal adds (R58). -/
def sigCompletion (g : Sig) (f : Flag) : Option Nat :=
  match g with
  | .one _ => some 1
  | .incr _ => some f.incr.toNat
  | _ => none

/-- What an issue-time signal adds (R58). -/
def sigIssue : Sig → Option Nat
  | .issue _ => some 1
  | _ => none

/-! ## Bobbins -/

/-- The fields of a bobbin's configuration word (R69). -/
def Bobbin.count (b : Bobbin) : Nat := (field b.config 29 6).toNat
def Bobbin.size (b : Bobbin) : Nat := (field b.config 20 9).toNat
def Bobbin.span (b : Bobbin) : Nat := (field b.config 14 5).toNat
def Bobbin.row (b : Bobbin) : Nat := (field b.config 8 6).toNat
def Bobbin.bank (b : Bobbin) : Nat := (field b.config 0 8).toNat

/-- A configuration word that meets R69. -/
def bobbinCfgOk (w : Word) : Bool :=
  let b : Bobbin := { config := w, free := 0, filled := 0, rptr := 0, wptr := 0 }
  field w 35 29 == 0 && !bit w 19 && decide (b.size ≤ 255) && decide (b.bank ≤ 175) &&
    decide (b.bank / 32 = (b.bank + b.span) / 32) && decide (b.bank + b.span ≤ 175) &&
    decide (b.row + ((b.count + 1) * (b.size + 1) + b.span) / (b.span + 1) ≤ 64)

/-- BBIND (R69). -/
def Bobbin.bind (w : Word) : Bobbin :=
  let b : Bobbin := { config := w, free := 0, filled := 0, rptr := 0, wptr := 0 }
  { b with free := b.count + 1 }

/-- The state word (R69). -/
def Bobbin.stateWord (b : Bobbin) : Word :=
  w64 (b.wptr % 64 + 2 ^ 8 * (b.rptr % 64) + 2 ^ 16 * (b.filled % 128) + 2 ^ 24 * (b.free % 128))

/-- BADV (R70); none while FREE is 0 (R373). -/
def Bobbin.adv (b : Bobbin) : Option Bobbin :=
  if b.free = 0 then none
  else some { b with wptr := (b.wptr + 1) % (b.count + 1), free := b.free - 1, filled := b.filled + 1 }

/-- BREL (R70); none while FILLED is 0 (R373). -/
def Bobbin.rel (b : Bobbin) : Option Bobbin :=
  if b.filled = 0 then none
  else some { b with rptr := (b.rptr + 1) % (b.count + 1), filled := b.filled - 1, free := b.free + 1 }

end Sys2Proof.Machine
end

