-- ==== Sys2Proof/Machine/Aes.lean ====
section
/-! DEFINITION. AES-256 (FIPS 197) in the XTS mode of IEEE 1619-2018, which encrypts the lines of HBM (spec 08 R155). -/

namespace Sys2Proof.Machine

/-- The substitution table. -/
def aesSbox : List Nat :=
  [0x63, 0x7C, 0x77, 0x7B, 0xF2, 0x6B, 0x6F, 0xC5, 0x30, 0x01, 0x67, 0x2B, 0xFE, 0xD7, 0xAB, 0x76] ++
  [0xCA, 0x82, 0xC9, 0x7D, 0xFA, 0x59, 0x47, 0xF0, 0xAD, 0xD4, 0xA2, 0xAF, 0x9C, 0xA4, 0x72, 0xC0] ++
  [0xB7, 0xFD, 0x93, 0x26, 0x36, 0x3F, 0xF7, 0xCC, 0x34, 0xA5, 0xE5, 0xF1, 0x71, 0xD8, 0x31, 0x15] ++
  [0x04, 0xC7, 0x23, 0xC3, 0x18, 0x96, 0x05, 0x9A, 0x07, 0x12, 0x80, 0xE2, 0xEB, 0x27, 0xB2, 0x75] ++
  [0x09, 0x83, 0x2C, 0x1A, 0x1B, 0x6E, 0x5A, 0xA0, 0x52, 0x3B, 0xD6, 0xB3, 0x29, 0xE3, 0x2F, 0x84] ++
  [0x53, 0xD1, 0x00, 0xED, 0x20, 0xFC, 0xB1, 0x5B, 0x6A, 0xCB, 0xBE, 0x39, 0x4A, 0x4C, 0x58, 0xCF] ++
  [0xD0, 0xEF, 0xAA, 0xFB, 0x43, 0x4D, 0x33, 0x85, 0x45, 0xF9, 0x02, 0x7F, 0x50, 0x3C, 0x9F, 0xA8] ++
  [0x51, 0xA3, 0x40, 0x8F, 0x92, 0x9D, 0x38, 0xF5, 0xBC, 0xB6, 0xDA, 0x21, 0x10, 0xFF, 0xF3, 0xD2] ++
  [0xCD, 0x0C, 0x13, 0xEC, 0x5F, 0x97, 0x44, 0x17, 0xC4, 0xA7, 0x7E, 0x3D, 0x64, 0x5D, 0x19, 0x73] ++
  [0x60, 0x81, 0x4F, 0xDC, 0x22, 0x2A, 0x90, 0x88, 0x46, 0xEE, 0xB8, 0x14, 0xDE, 0x5E, 0x0B, 0xDB] ++
  [0xE0, 0x32, 0x3A, 0x0A, 0x49, 0x06, 0x24, 0x5C, 0xC2, 0xD3, 0xAC, 0x62, 0x91, 0x95, 0xE4, 0x79] ++
  [0xE7, 0xC8, 0x37, 0x6D, 0x8D, 0xD5, 0x4E, 0xA9, 0x6C, 0x56, 0xF4, 0xEA, 0x65, 0x7A, 0xAE, 0x08] ++
  [0xBA, 0x78, 0x25, 0x2E, 0x1C, 0xA6, 0xB4, 0xC6, 0xE8, 0xDD, 0x74, 0x1F, 0x4B, 0xBD, 0x8B, 0x8A] ++
  [0x70, 0x3E, 0xB5, 0x66, 0x48, 0x03, 0xF6, 0x0E, 0x61, 0x35, 0x57, 0xB9, 0x86, 0xC1, 0x1D, 0x9E] ++
  [0xE1, 0xF8, 0x98, 0x11, 0x69, 0xD9, 0x8E, 0x94, 0x9B, 0x1E, 0x87, 0xE9, 0xCE, 0x55, 0x28, 0xDF] ++
  [0x8C, 0xA1, 0x89, 0x0D, 0xBF, 0xE6, 0x42, 0x68, 0x41, 0x99, 0x2D, 0x0F, 0xB0, 0x54, 0xBB, 0x16]

/-- SubBytes of one byte, and its inverse. -/
def subByte (b : Byte) : Byte := BitVec.ofNat 8 (aesSbox.getD b.toNat 0)
def invSubByte (b : Byte) : Byte := BitVec.ofNat 8 (aesSbox.findIdx (· == b.toNat))

/-- The product with x in GF(2^8). -/
def xtime (b : Byte) : Byte := (b <<< 1) ^^^ (if b.msb then 0x1B else 0)

/-- The product with a constant below 16. -/
def gmul (n : Nat) (b : Byte) : Byte :=
  let b1 := xtime b
  let b2 := xtime b1
  let b3 := xtime b2
  let part (i : Nat) (x : Byte) : Byte := if n.testBit i then x else 0
  part 0 b ^^^ part 1 b1 ^^^ part 2 b2 ^^^ part 3 b3

/-- Exclusive or of two byte strings. -/
def xorBytes (a b : List Byte) : List Byte := List.zipWith (· ^^^ ·) a b

/-- The words of the expanded key, last first, with `n` words more; `i` counts them (FIPS 197, Nk = 8). -/
def aesExpand : Nat → Nat → Byte → List (List Byte) → List (List Byte)
  | 0, _, _, ws => ws
  | n + 1, i, rcon, ws =>
    let last := ws.getD 0 []
    let t :=
      if i % 8 = 0 then xorBytes ((last.drop 1 ++ last.take 1).map subByte) [rcon, 0, 0, 0]
      else if i % 8 = 4 then last.map subByte
      else last
    aesExpand n (i + 1) (if i % 8 = 0 then xtime rcon else rcon) (xorBytes (ws.getD 7 []) t :: ws)

/-- The fifteen round keys of a 256-bit key. -/
def aesKeys (key : List Byte) : List (List Byte) :=
  let ws := (aesExpand 52 8 1 (tabulate 8 fun i => key.drop (4 * i) |>.take 4).reverse).reverse
  tabulate 15 fun r => ((ws.drop (4 * r)).take 4).flatten

/-- ShiftRows by `k` columns a row: byte 4c + r comes from column c + k r. -/
def shiftRows (k : Nat) (b : List Byte) : List Byte :=
  tabulate 16 fun i => b.getD (4 * ((i / 4 + k * (i % 4)) % 4) + i % 4) 0

/-- MixColumns with the row of coefficients that makes the first byte of a column. -/
def mixColumns (row : List Nat) (b : List Byte) : List Byte :=
  tabulate 16 fun i =>
    (List.range 4).foldl (fun x j => x ^^^ gmul (row.getD ((j + 4 - i % 4) % 4) 0) (b.getD (4 * (i / 4) + j) 0)) 0

/-- One block encrypted. -/
def aesEncrypt (key block : List Byte) : List Byte :=
  let ks := aesKeys key
  let mid := ((ks.drop 1).take 13).foldl
    (fun b k => xorBytes (mixColumns [2, 3, 1, 1] (shiftRows 1 (b.map subByte))) k) (xorBytes block (ks.getD 0 []))
  xorBytes (shiftRows 1 (mid.map subByte)) (ks.getD 14 [])

/-- One block decrypted. -/
def aesDecrypt (key block : List Byte) : List Byte :=
  let ks := aesKeys key
  let first := (shiftRows 3 (xorBytes block (ks.getD 14 []))).map invSubByte
  let mid := ((ks.drop 1).take 13).reverse.foldl
    (fun b k => (shiftRows 3 (mixColumns [14, 11, 13, 9] (xorBytes b k))).map invSubByte) first
  xorBytes mid (ks.getD 0 [])

/-- The product of a tweak with the primitive element of GF(2^128), as little-endian bytes. -/
def xtsNext (t : BitVec 128) : BitVec 128 := (t <<< 1) ^^^ (if t.msb then 0x87 else 0)

/-- The tweaks of the blocks of a data unit. -/
def xtsTweaks : Nat → BitVec 128 → List (BitVec 128)
  | 0, _ => []
  | n + 1, t => t :: xtsTweaks n (xtsNext t)

/-- The four blocks of a line under XTS; `f` acts on one block with Key1, and the data unit is the line's number (R155). -/
def xtsLine (f : List Byte → List Byte → List Byte) (key : BitVec 512) (unit : Nat) (d : BitVec 512) : BitVec 512 :=
  let kb := lineBytes key
  let t0 := BitVec.ofNat 128 (natOfBytes (aesEncrypt (kb.drop 32) (bytesOfNat 16 unit)))
  let bs := lineBytes d
  lineOf ((xtsTweaks 4 t0).zipIdx.map fun e =>
    let t := bytesOfNat 16 e.1.toNat
    xorBytes (f (kb.take 32) (xorBytes (bs.drop (16 * e.2) |>.take 16) t)) t).flatten

/-- A line on its way to HBM, and on its way back. -/
def xtsEncrypt (key : BitVec 512) (unit : Nat) (d : BitVec 512) : BitVec 512 := xtsLine aesEncrypt key unit d
def xtsDecrypt (key : BitVec 512) (unit : Nat) (d : BitVec 512) : BitVec 512 := xtsLine aesDecrypt key unit d

end Sys2Proof.Machine
end

