-- ==== Sys2Proof/Machine/Monad.lean ====
section
/-! DEFINITION. Actions on the state that may stop: the reasons one step of an agent stops short, and the access
to the parts of the state. -/

namespace Sys2Proof.Machine

/-- What a word has written so far: bytes written, the place in its order with rows left out, remote additions sent, the place
a retry goes on from (R324, R383, R384), and the lines of memory written (R140, R166). -/
structure Perf where
  done : Nat
  pos : Nat
  sent : Nat
  resume : Nat
  lines : List Nat
  deriving DecidableEq, Repr, Inhabited

/-- A fault as its detector sees it (R354, R355): class, lining address, details, and how far its word had come. -/
structure Flt where
  cls : BitVec 8
  laddr : Nat
  d0 : Word
  d1 : Word
  perf : Option Perf := none
  deriving DecidableEq, Repr, Inhabited

/-- Why an action stops. -/
inductive Stop where
  /-- not now: nothing has happened -/
  | stall
  /-- the word has issued past its wait byte and stalls without effect (R396) -/
  | waiting
  /-- an engine word has made the line operations of its step (R166); where its present row starts -/
  | pause (p : Option Perf)
  /-- a demand request met DRAIN = 1 at a controller, in the entry at a physical address (R385) -/
  | drain (ctl : Nat) (pte : Nat)
  | fault (f : Flt)
  | halt (f : Fault)
  deriving DecidableEq, Repr, Inhabited

/-- An action: it changes the state, and gives a value or stops with the state it has reached. -/
abbrev M (α : Type) := EStateM Stop State α

/-- Stopping with a fault. -/
def raise {α : Type} (cls : BitVec 8) (laddr : Nat) (d0 d1 : Word) : M α :=
  throw (.fault { cls := cls, laddr := laddr, d0 := d0, d1 := d1 })

/-- Not now. -/
def stallIf (b : Bool) : M Unit := if b then throw .stall else pure ()

/-- An action whose fault is caught; the state it reached stays. -/
def attempt {α : Type} (act : M α) : M (Except Flt α) := fun s =>
  match act s with
  | .ok a s' => .ok (.ok a) s'
  | .error (.fault f) s' => .ok (.error f) s'
  | .error e s' => .error e s'

/-- A core's state; a core that nothing has touched is as at reset. -/
def State.core (s : State) (c : CoreId) : Core := (mapGet s.cores c.toNat).getD Core.reset

/-- A core's state written. -/
def State.setCore (s : State) (c : CoreId) (k : Core) : State := { s with cores := mapPut s.cores c.toNat k }

/-- A core's state changed. -/
def State.onCore (s : State) (c : CoreId) (f : Core → Core) : State := s.setCore c (f (s.core c))

/-- The memory side changed. -/
def State.onMem (s : State) (f : Mem → Mem) : State := { s with mem := f s.mem }

/-- The panel, cluster and Gatherer of a core (R11, R35). -/
def panelOf (c : CoreId) : Nat := c.toNat / 256
def clusterOf (c : CoreId) : Nat := c.toNat / 128
def gathOf (c : CoreId) : Nat := c.toNat / 128

/-- The next free value (R7, log 2). -/
def freeWord : M Word := fun s => .ok (Config.freeWord s.free) { s with free := s.free + 1 }

/-- `n` free bytes. -/
def freeBytes (n : Nat) : M (List Byte) :=
  (List.range n).mapM fun _ => do
    let w ← freeWord
    pure (field w 0 8)

/-- The running core. -/
def getCore : M Core := fun s => .ok (s.core s.cur) s
def modCore (f : Core → Core) : M Unit := fun s => .ok () (s.onCore s.cur f)
def modState (f : State → State) : M Unit := fun s => .ok () (f s)
def modMem (f : Mem → Mem) : M Unit := fun s => .ok () (s.onMem f)
def getState : M State := fun s => .ok s s

/-- The fabric time of a panel's replica. -/
def State.ftOf (s : State) (p : Nat) : Word := vget s.ftRep p

/-- A panel monitor source counts `n` (R201). Panel counter j of panel p has key 32 p + j. -/
def State.pmPanel (s : State) (p : Nat) (src : Nat) (n : Nat) : State :=
  let hits := s.power.pmSel.filter fun e => decide (e.1 / 32 = p) && decide (e.2.toNat = src)
  { s with power := { s.power with
    pmCnt := hits.foldl (fun m e => mapPut m e.1 ((mapGet m e.1).getD 0 + BitVec.ofNat 48 n)) s.power.pmCnt } }

/-- A core monitor source counts `n` (R201). -/
def Core.pm (k : Core) (src : Nat) (n : Nat) : Core :=
  { k with pmCnt := Vector.ofFn fun i =>
      if (vget k.pmSel i.val).toNat = src then vget k.pmCnt i.val + BitVec.ofNat 48 n else vget k.pmCnt i.val }

end Sys2Proof.Machine
end

