-- ==== Sys2Proof/Machine/Memory.lean ====
section
/-! DEFINITION. The memory side: homing, the page table and translation caches, L2, replicas, victim caches and
HBM, and the vector clocks (spec 06, 08, 09, 25). -/

namespace Sys2Proof.Machine

/-! ## Places -/

/-- home_slice of a line number (R147): the exclusive or of its bytes. -/
def sliceOfLine (line : Nat) : Nat :=
  (tabulate 7 fun i => line / 2 ^ (8 * i) % 256).foldl (· ^^^ ·) 0

/-- The home panel of a line. -/
def homePanel (line : Nat) : Nat := sliceOfLine line / 64

/-- The controller that translates the misses of a line (R115). -/
def xlatCtl (line : Nat) : Nat :=
  let s := sliceOfLine line
  2 * (s / 64) + s / 32 % 2

/-- The controller that serves a physical address (R152). -/
def physCtl (p : Nat) : Nat := (p / 2 ^ 8 % 8) ^^^ (p / 2 ^ 17 % 8) ^^^ (p / 2 ^ 26 % 8)

/-- The region of a lining address (R113). -/
def regionOf (la : Nat) : Nat := la / 2 ^ 52 % 16

/-- L(k) for k from 1 (R119). -/
def leaseNs (k : Nat) : Nat := 2 ^ (k - 1) * 1024

/-! ## Physical memory -/

/-- A counter that stops at its greatest value (R382). -/
def satInc (x : BitVec 32) : BitVec 32 := if x = BitVec.allOnes 32 then x else x + 1

/-- An uncorrectable error, and a corrected one, counted at a controller (R382). -/
def Ctl.lostOne (c : Ctl) : Ctl := { c with uncorr := satInc c.uncorr }
def Ctl.corrected (c : Ctl) : Ctl := { c with corr := satInc c.corr }

/-- The keys of a slot. -/
def State.keyOf (s : State) (slot : Nat) : KeySlot := (mapGet s.mem.keys slot).getD KeySlot.reset

/-- The key of the victim-cache table: line and slot (R154). -/
def victimKey (pline slot : Nat) : Nat := pline * 256 + slot

/-- The cycles of one tREFI (R3, R156). -/
def Ctl.refi (q : Ctl) : Nat := if q.hot then 7800 else 15600

/-- Refreshes that came due since the count was last brought up to date. -/
def State.refDue (s : State) (q : Ctl) : Nat := (s.cycle - q.dueAt) / q.refi

/-- BAL now (R156): a controller at -8 has performed the refreshes that would take it lower. -/
def State.balNow (s : State) (q : Ctl) : Int := max (-8) (q.bal - s.refDue q)

/-- A stack serves no access: it is in refresh, or owes a refresh that comes first (R156). -/
def State.hbmBusy (s : State) (h : Nat) : Bool :=
  let q := vget s.mem.ctls h
  q.refreshing || decide (s.balNow q = -8)

/-- A line of HBM decrypted under a slot: under another key than it was encrypted with, what AES-XTS gives (R155). A line
that nothing has written is as if written under the key of slot 0 at reset (log 7). -/
def State.hbmLine (s : State) (pline slot : Nat) : BitVec 512 :=
  let d := lineOf (bytesAt s.mem.hbm (pline * 64) 64)
  let k := (mapGet s.mem.hbmKey pline).getD 0
  if k = (s.keyOf slot).key then d else xtsDecrypt (s.keyOf slot).key pline (xtsEncrypt k pline d)

/-- The write of a granule cancels the write-back of what the scrubber has read there (R157). -/
def Ctl.cancelScrub (c : Ctl) (pline : Nat) : Ctl :=
  match c.scrub with
  | some (g, _) => if g = pline then { c with scrub := none } else c
  | none => c

/-- A demand write reaches the controller of a physical line (R157). -/
def State.demand (s : State) (pline : Nat) : State :=
  let h := physCtl (pline * 64)
  s.onMem fun m => { m with ctls := vset m.ctls h ((vget m.ctls h).cancelScrub pline) }

/-- A line of HBM written under a slot. -/
def State.setHbmLine (s : State) (pline slot : Nat) (d : BitVec 512) : State :=
  (s.onMem fun m => { m with
    hbm := setBytes m.hbm (pline * 64) (lineBytes d)
    hbmKey := mapPut m.hbmKey pline (s.keyOf slot).key
    hbmUnc := m.hbmUnc.filter (· != pline)
    hbmCor := m.hbmCor.filter (· != pline) }).demand pline

/-- A single error of a line of HBM is corrected in place and counted (R389). -/
def State.mendHbm (s : State) (pline : Nat) : State :=
  if s.mem.hbmCor.contains pline then
    let h := physCtl (pline * 64)
    s.onMem fun m => { m with hbmCor := m.hbmCor.filter (· != pline), ctls := vset m.ctls h (vget m.ctls h).corrected }
  else s

/-! ## Vector clocks (R167 to R169) -/

/-- Component `i` of a clock. -/
def vcAt (v : VClock) (i : Nat) : Nat := (vget v i).toNat

/-- The greater of two clocks, entry by entry. -/
def vcMax (a b : VClock) : VClock := Vector.ofFn fun i => w64 (max (vcAt a i.val) (vcAt b i.val))

/-- b >= a in every entry. -/
def vcLe (a b : VClock) : Bool := (List.range 4).all fun i => decide (vcAt a i ≤ vcAt b i)

/-- A clock with one entry set. -/
def vcSet (v : VClock) (i n : Nat) : VClock := vset v i (w64 n)

/-- The clock of a panel. -/
def State.vc (s : State) (p : Nat) : VClock := vget s.mem.clocks p

/-- The stamp of the last write to a line at its home (R169). -/
def State.stampOf (s : State) (line : Nat) : VClock := (mapGet s.mem.stamps line).getD VClock.zero

/-- The key of the replica table. -/
def replicaKey (p line : Nat) : Nat := p * 2 ^ 50 + line

/-- Applying one update at its panel (R168). -/
def Mem.applyUpdate (m : Mem) (u : Update) : Mem :=
  let k := replicaKey u.panel u.line
  { m with
    clocks := vset m.clocks u.panel (vcSet (vget m.clocks u.panel) u.src (vcAt u.stamp u.src))
    replicas := match mapGet m.replicas k with
      | some r => mapPut m.replicas k { r with data := u.data, err := 0 }
      | none => m.replicas }

/-- The updates in flight split into those that stay and those panel `p` must apply, in order, to reach a clock:
what the clock counts, what that causally needs, and what home order puts before it (R168). -/
def splitNeeded (p : Nat) (need : VClock) : List Update → List Update × List Update × VClock × List Nat
  | [] => ([], [], need, [])
  | u :: us =>
    let (keep, app, need, lines) := splitNeeded p need us
    if u.panel = p && (decide (vcAt u.stamp u.src ≤ vcAt need u.src) || lines.contains u.line) then
      (keep, u :: app, vcMax need u.stamp, u.line :: lines)
    else (u :: keep, app, need, lines)

/-- Panel `p` applies what it must to reach a clock (R169). -/
def Mem.catchUp (m : Mem) (p : Nat) (need : VClock) : Mem :=
  let (keep, app, _, _) := splitNeeded p need m.updates
  app.foldl Mem.applyUpdate { m with updates := keep }

/-- Panel `p` applies every update in flight to a line, and what they need. -/
def Mem.catchLine (m : Mem) (p line : Nat) : Mem :=
  let need := (m.updates.filter fun u => u.panel == p && u.line == line).foldl (fun v u => vcMax v u.stamp)
    (vget m.clocks p)
  m.catchUp p need

/-- A write sequenced on panel `q` and performed on panel `h`, at a place whose order is kept under `key`: its stamp and what the
two panels have applied (R167, R168). -/
def Mem.order (m : Mem) (q h key : Nat) : Mem :=
  let m := m.catchLine q key
  let v := vcSet (vget m.clocks q) q (vcAt (vget m.clocks q) q + 1)
  let m := m.catchUp h (vcSet v q (vcAt v q - 1))
  { m with
    stamps := mapPut m.stamps key v
    clocks := vset (vset m.clocks q v) h (vcSet (if h = q then v else vget m.clocks h) q (vcAt v q)) }

/-- The update of a write, or a notice, to every panel but the two that have it (R168). -/
def Mem.tell (m : Mem) (q h key : Nat) (d : BitVec 512) : Mem :=
  { m with
    replicas := match mapGet m.replicas (replicaKey q key) with
      | some r => mapPut m.replicas (replicaKey q key) { r with data := d, err := 0 }
      | none => m.replicas
    updates := m.updates ++ ((List.range 4).filter (fun p => p != q && p != h)).map fun p =>
      { panel := p, src := q, stamp := (mapGet m.stamps key).getD VClock.zero, line := key, data := d } }

/-! ## Page-table lines (R115, R147, R154) -/

/-- Lines a slice holds: 12 MiB (R13). -/
def sliceLines : Nat := 196608

/-- The lines that slice `k` holds: homed, page-table lines, and replicas at slice 64 q + (s mod 64) of panel q (R148). -/
def State.sliceLoad (s : State) (k : Nat) : Nat :=
  (s.mem.lines.filter fun e => sliceOfLine e.1 == k).length + (s.mem.pt.filter fun e => sliceOfLine e.1 == k).length +
    (s.mem.replicas.filter fun e =>
      decide (e.1 / 2 ^ 50 * 64 + sliceOfLine (e.1 % 2 ^ 50) % 64 = k)).length

/-- A slice has no room until it has evicted a line. -/
def State.sliceFull (s : State) (k : Nat) : Bool := decide (sliceLines ≤ s.sliceLoad k)

/-- The line of a page-table word: in L2, in the victim cache, or in HBM, under slot 0. -/
def State.ptData (s : State) (pline : Nat) : BitVec 512 :=
  match mapGet s.mem.pt pline with
  | some t => t.data
  | none =>
    match mapGet s.mem.victims (victimKey pline 0) with
    | some v => v.data
    | none => s.hbmLine pline 0

/-- A page-table word at a physical address. -/
def State.ptWord (s : State) (p : Nat) : Word := (s.ptData (p / 64)).extractLsb' (8 * (p % 64)) 64

/-- The line of a page-table word in L2: a line of the victim cache moves there (R154). -/
def State.ptFill (s : State) (pline : Nat) : State :=
  match mapGet s.mem.pt pline with
  | some _ => s
  | none =>
    let h := physCtl (pline * 64)
    match mapGet s.mem.victims (victimKey pline 0) with
    | some v =>
      let s := if v.cor then s.onMem fun m => { m with ctls := vset m.ctls h (vget m.ctls h).corrected } else s
      (s.pmPanel (h / 2) 0x102 1).onMem fun m => { m with
        pt := mapPut m.pt pline { dirty := v.dirty, failed := false, err := 0, data := v.data }
        victims := mapDel m.victims (victimKey pline 0) }
    | none =>
      let s := s.mendHbm pline
      (s.pmPanel (h / 2) 0x105 64).onMem fun m => { m with
        pt := mapPut m.pt pline { dirty := false, failed := false, err := 0, data := s.hbmLine pline 0 } }

/-- The key under which the order of the writes to a page-table line is kept, beside those of the lines of lining memory. -/
def ptKey (pline : Nat) : Nat := 2 ^ 60 + pline

/-- A page-table word written, in L2: a write sequenced on panel `q`, performed at the line's home slice (R115, R122, R167). -/
def State.setPtWord (s : State) (q p : Nat) (w : Word) : State :=
  let s := s.ptFill (p / 64)
  let d := lineOf (bytesAt (setBytes (setBytes [] 0 (lineBytes (s.ptData (p / 64)))) (p % 64) (bytesOfW 8 w)) 0 64)
  let old : PtLine := (mapGet s.mem.pt (p / 64)).getD default
  let h := homePanel (p / 64)
  s.onMem fun m =>
    let m := m.order q h (ptKey (p / 64))
    { m with pt := mapPut m.pt (p / 64) { old with dirty := true, data := d } }.tell q h (ptKey (p / 64)) d

/-- The 32-byte halves of a line that an access of `n` bytes touches (R163). -/
def halves (la n : Nat) : BitVec 2 :=
  ofBool 1 (decide (32 < la % 64 + n)) ++ ofBool 1 (decide (la % 64 < 32))

/-- Reaching a page-table word for lining address `la`: its line is filled into its slice, or the access stalls or faults as
any fill does (R115, R152, R154, R156, R379, R389). -/
def ptOpen (la p : Nat) : M Unit := fun s =>
  let pline := p / 64
  let h := physCtl p
  let lost (store : Nat) (s : State) : EStateM.Result Stop State Unit :=
    .error (.fault { cls := 0x30, laddr := la, d0 := w64 store, d1 := w64 (pline * 64) }) s
  let counted : State := s.onMem fun m => { m with ctls := vset m.ctls h (vget m.ctls h).lostOne }
  match mapGet s.mem.pt pline with
  | some t => if t.failed || t.err &&& halves p 8 != 0 then lost 3 s else .ok () s
  | none =>
    if 2 ^ 39 ≤ p then .error (.halt (.noMemory p)) s
    else if (s.keyOf 0).retired then
      .error (.fault { cls := 0x41, laddr := la, d0 := 0, d1 := w64 (pline * 64) }) s
    else if s.sliceFull (sliceOfLine pline) then .error .stall s
    else
      match mapGet s.mem.victims (victimKey pline 0) with
      | some v => if v.err != 0 then lost 4 counted else .ok () (s.ptFill pline)
      | none =>
        if s.hbmBusy h then .error .stall s
        else if s.mem.hbmUnc.contains pline then lost 5 counted
        else .ok () (s.ptFill pline)

/-! ## The page table -/

/-- A leaf found for a lining address: the entry, its physical address and its level's size. -/
structure Leaf where
  pte : Word
  at0 : Nat
  size : Nat
  deriving DecidableEq, Repr, Inhabited

/-- The levels of a walk: lowest index bit, index bits, size of a leaf allowed there (R116). -/
def walkLevels : List (Nat × Nat × Option Nat) :=
  [(48, 8, none), (39, 9, none), (30, 9, some 2), (21, 9, some 1), (16, 5, some 0)]

/-- Valid, drain and lease of an entry (R117). -/
def pteV (w : Word) : Bool := bit w 63
def pteDrain (w : Word) : Bool := bit w 62
def pteLease (w : Word) : Nat := (field w 58 4).toNat
def pteSize (w : Word) : Nat := (field w 56 2).toNat
def pteD (w : Word) : Bool := bit w 55
def pteA (w : Word) : Bool := bit w 54
def pteKey (w : Word) : Nat := (field w 46 8).toNat
def pteW (w : Word) : Bool := bit w 45

/-- The page bits of a SIZE. -/
def pageBits (size : Nat) : Nat := if size = 0 then 16 else if size = 1 then 21 else 30

/-- A directory entry with a bit set that is neither V, 0b11 nor the address (R117). -/
def dirBad (w : Word) : Bool := field w 0 8 != 0 || field w 45 11 != 0 || field w 58 5 != 0

/-- A walk from a table (R116): the leaf, or none where the walk meets what R379 refuses. -/
def walkFrom (s : State) (la : Nat) : List (Nat × Nat × Option Nat) → Nat → Option Leaf
  | [], _ => none
  | (lo, n, leaf) :: ls, table =>
    let p := table + 8 * (la / 2 ^ lo % 2 ^ n)
    let e := s.ptWord p
    if !pteV e then none
    else if pteSize e = 3 then (if dirBad e then none else walkFrom s la ls ((field e 8 37).toNat * 256))
    else if leaf = some (pteSize e) && field e 0 16 == 0 then some { pte := e, at0 := p, size := pteSize e }
    else none

/-- The addresses of the entries that a walk reads. -/
def walkPath (s : State) (la : Nat) : List (Nat × Nat × Option Nat) → Nat → List Nat
  | [], _ => []
  | (lo, n, _) :: ls, table =>
    let p := table + 8 * (la / 2 ^ lo % 2 ^ n)
    let e := s.ptWord p
    p :: (if pteV e && pteSize e == 3 && !dirBad e then walkPath s la ls ((field e 8 37).toNat * 256) else [])

/-- Reaching every entry of a walk. -/
def walkOpen (ctl la : Nat) : M Unit := fun s =>
  (walkPath s la walkLevels ((vget s.mem.ctls ctl).root.toNat * 4096)).forM (ptOpen la) s

/-- The walk of a lining address from a controller's root. -/
def State.walk (s : State) (ctl la : Nat) : Option Leaf :=
  walkFrom s la walkLevels ((vget s.mem.ctls ctl).root.toNat * 4096)

/-- The physical address under an entry (R117). -/
def physOf (frame size la : Nat) : Nat :=
  let b := pageBits size
  frame * 65536 / 2 ^ b * 2 ^ b + la % 2 ^ b

/-- What a lookup gives. -/
structure Xlat where
  phys : Nat
  key : Nat
  w : Bool
  exp : Word
  pte : Option Nat
  d : Bool
  deriving DecidableEq, Repr, Inhabited

/-- An entry still serves lookups (R120). -/
def TcEntry.live (e : TcEntry) (c : Word) : Bool :=
  decide (c.toNat + 64 < e.stamp.toNat + leaseNs e.lease.toNat)

/-- An entry covers a lining address. -/
def TcEntry.covers (e : TcEntry) (la : Nat) : Bool :=
  decide (la / 2 ^ pageBits e.size.toNat = e.page)

/-- The live entry with the smallest page (R118); one with a parity error serves nothing (R395). -/
def lookupTc (tc : List TcEntry) (c : Word) (la : Nat) : Option TcEntry :=
  let hits := tc.filter fun e => e.covers la && e.live c && !e.bad
  match hits.find? (·.size == 0) with
  | some e => some e
  | none =>
    match hits.find? (·.size == 1) with
    | some e => some e
    | none => hits.head?

/-- A controller changed. -/
def State.onCtl (s : State) (h : Nat) (f : Ctl → Ctl) : State :=
  s.onMem fun m => { m with ctls := vset m.ctls h (f (vget m.ctls h)) }

/-- A lookup drops an entry that it finds with a parity error (R395). -/
def State.dropBad (s : State) (h la : Nat) : State :=
  if (vget s.mem.ctls h).tc.any fun e => e.bad && e.covers la then
    s.onCtl h fun q => { q with tc := q.tc.filter fun e => !(e.bad && e.covers la) }
  else s

/-- A hit past three quarters of the lease starts a re-read (R121). -/
def TcEntry.renew (e : TcEntry) (c : Word) : TcEntry :=
  if !e.reread && decide (e.stamp.toNat + leaseNs e.lease.toNat * 3 / 4 ≤ c.toNat) then { e with reread := true }
  else e

/-- A bit set in a leaf entry by controller `h`, by an atomic OR at the entry's home slice (R122); a directory entry has no such
bit (R117). -/
def State.markPte (s : State) (h p n : Nat) : State :=
  let e := s.ptWord p
  if pteV e && pteSize e != 3 && !bit e n then s.setPtWord (h / 2) p (e ||| (1#64 <<< n)) else s

/-- The lookup of a lining address at its translating controller (R115 to R122, R379, R385, R386); `va` fills
DETAIL0. -/
def translate (la : Nat) (va : Word) : M Xlat := fun s =>
  let h := xlatCtl (la / 64)
  let ctl := vget s.mem.ctls h
  let c := s.ftOf (h / 2)
  if !ctl.en then
    let e := Config.bootPage (la / 65536)
    .ok { phys := physOf (field e 16 29).toNat 0 la, key := pteKey e, w := pteW e, exp := c, pte := none, d := true } s
  else
    let s := s.dropBad h la
    match (if ctl.uncached then none else lookupTc ctl.tc c la) with
    | some e =>
      let s := s.onCtl h fun k => { k with tc := k.tc.map fun e' => if e' = e then e'.renew c else e' }
      .ok { phys := physOf e.frame.toNat e.size.toNat la, key := e.key.toNat, w := e.w,
            exp := e.stamp + w64 (leaseNs e.lease.toNat), pte := some e.pte, d := e.d } s
    | none =>
      match walkOpen h la (s.pmPanel (h / 2) 0x103 1) with
      | .error e s => .error e s
      | .ok _ s =>
      match s.walk h la with
      | none => .error (.fault { cls := 0x12, laddr := la, d0 := va, d1 := 0 }) s
      | some l =>
        let s := s.markPte h l.at0 54
        if pteDrain l.pte then .error (.drain h l.at0) s
        else
          let f := s.ftOf (homePanel (l.at0 / 64))
          let k := pteLease l.pte
          let e : TcEntry :=
            { page := la / 2 ^ pageBits l.size, size := BitVec.ofNat 2 l.size, frame := field l.pte 16 29,
              key := field l.pte 46 8, w := pteW l.pte, d := pteD l.pte, lease := BitVec.ofNat 4 k,
              pte := l.at0, stamp := f, reread := false, bad := false }
          let s := if k = 0 || ctl.uncached then s
            else s.onCtl h fun q => { q with tc := e :: (q.tc.filter fun e' =>
              !(e'.page == e.page && e'.size == e.size)).take 65535 }
          .ok { phys := physOf (field l.pte 16 29).toNat l.size la, key := pteKey l.pte, w := pteW l.pte,
                exp := if k = 0 || ctl.uncached then f else f + w64 (leaseNs k), pte := some l.at0, d := pteD l.pte } s

/-! ## L2 -/

/-- Filling a line at its home (R149, R154, R155, R379, R388, R389): the translation has been made. A line whose
write-back has not arrived comes back from it; a busy stack serves no access (R156), and a full slice evicts first.
`whole` marks a write of all 64 bytes: what is lost comes in with its mark, which the write takes away (R391). -/
def fillHome (line : Nat) (owner : Tag) (x : Xlat) (whole : Bool) : M Unit := fun s =>
  let pline := x.phys / 64
  let h := physCtl x.phys
  if (s.keyOf x.key).retired then
    .error (.fault { cls := 0x41, laddr := line * 64, d0 := w64 x.key, d1 := w64 (pline * 64) }) s
  else if 2 ^ 39 ≤ x.phys then .error (.halt (.noMemory x.phys)) s
  else if s.sliceFull (sliceOfLine line) then .error .stall s
  else
    let tag (dirty bad : Bool) : Line :=
      { dirty := dirty, w := x.w, exp := x.exp, key := BitVec.ofNat 8 x.key, owner := owner, failed := false,
        err := if bad then 3 else 0 }
    let install (s : State) (dirty bad : Bool) (d : BitVec 512) : State :=
      s.onMem fun m => { m with lines := mapPut m.lines line (tag dirty bad)
                                l2 := setBytes m.l2 (line * 64) (lineBytes d) }
    match s.mem.writebacks.find? fun b => b.line == line && b.key.toNat == x.key with
    | some b =>
      .ok () (install (s.onMem fun m => { m with writebacks := m.writebacks.filter (· != b) }) true false b.data)
    | none =>
    if s.mem.writebacks.any (·.line == line) then .error .stall s
    else
    match mapGet s.mem.victims (victimKey pline x.key) with
    | some v =>
      if v.err != 0 && !whole then
        .error (.fault { cls := 0x30, laddr := line * 64, d0 := 4, d1 := w64 (pline * 64) }) (s.onCtl h Ctl.lostOne)
      else
        let s := if v.cor then s.onCtl h Ctl.corrected else s
        let s := (s.pmPanel (h / 2) 0x102 1).onMem fun m =>
          { m with victims := mapDel m.victims (victimKey pline x.key) }
        .ok () (install s v.dirty (v.err != 0) v.data)
    | none =>
      if s.hbmBusy h then .error .stall s
      else if s.mem.hbmUnc.contains pline && !whole then
        .error (.fault { cls := 0x30, laddr := line * 64, d0 := 5, d1 := w64 (pline * 64) }) (s.onCtl h Ctl.lostOne)
      else
        let bad := s.mem.hbmUnc.contains pline
        .ok () (install ((s.mendHbm pline).pmPanel (h / 2) 0x105 64) false bad (s.hbmLine pline x.key))

/-- The tag of a homed line. -/
def State.line? (s : State) (line : Nat) : Option Line := mapGet s.mem.lines line

/-- The bytes of a resident line. -/
def State.lineData (s : State) (line : Nat) : BitVec 512 := lineOf (bytesAt s.mem.l2 (line * 64) 64)

/-- Making a line readable at its home: resident and, in the halves read, without error (R149, R389, R390). -/
def needLine (line : Nat) (part : BitVec 2) (owner : Tag) (va : Word) : M Unit := fun s =>
  match s.line? line with
  | some t =>
    if t.failed || t.err &&& part != 0 then
      .error (.fault { cls := 0x30, laddr := line * 64, d0 := 3, d1 := w64 (line * 64) }) s
    else .ok () (s.pmPanel (homePanel line) 0x100 1)
  | none =>
    match translate (line * 64) va (s.pmPanel (homePanel line) 0x101 1) with
    | .ok x s => fillHome line owner x false s
    | .error e s => .error e s

/-! ## Reads and writes of one line -/

/-- Reading within one line of regions 0, 1 and 4 as panel `p` sees it (R148, R166, R169). -/
def readLine (p : Nat) (owner : Tag) (la n : Nat) (va : Word) : M (List Byte) := fun s =>
  let line := la / 64
  let cut (d : BitVec 512) : List Byte := bytesOfNat n (d.toNat / 2 ^ (8 * (la % 64)))
  if p = homePanel line then
    match needLine line (halves la n) owner va s with
    | .ok _ s => .ok (cut (s.lineData line)) s
    | .error (.fault f) s => .error (.fault { f with laddr := la }) s
    | .error e s => .error e s
  else
    match mapGet s.mem.replicas (replicaKey p line) with
    | some r =>
      if r.err &&& halves la n != 0 then
        .error (.fault { cls := 0x30, laddr := la, d0 := 3, d1 := w64 (line * 64) }) s
      else .ok (cut r.data) (s.pmPanel p 0x100 1)
    | none =>
      if s.sliceFull (64 * p + sliceOfLine line % 64) then .error .stall s
      else
      match needLine line 3 owner va s with
      | .error (.fault f) s => .error (.fault { f with laddr := la }) s
      | .error e s => .error e s
      | .ok _ s =>
        if s.sliceFull (64 * p + sliceOfLine line % 64) then .error .stall s
        else
        let d := s.lineData line
        let key := ((s.line? line).getD default).key
        let s := s.onMem fun m =>
          let m := m.catchUp p (s.stampOf line)
          { m with replicas := mapPut m.replicas (replicaKey p line) { key := key, owner := owner, err := 0, data := d } }
        .ok (cut d) s

/-- A lining range of an entry of the WID table. -/
def Wid.holds (w : Wid) (la : Nat) : Bool :=
  decide (w.base.toNat * 65536 ≤ la) &&
    decide (la < w.base.toNat * 65536 + w.tiles.toNat * w.tbytes.toNat)

/-- A write to an extent of a locked WID (R160). -/
def State.lockedAt (s : State) (la : Nat) : Bool :=
  regionOf la == 1 && s.ws.wids.any fun e => e.2.locked && e.2.holds la

/-- The patch of a lining address. -/
def patchOf (la : Nat) : Nat := la / 65536

/-- A write of an enrolled patch sends one change to the patch's home (R140). -/
def State.change (s : State) (la : Nat) : State :=
  if (mapGet s.tree.patches (patchOf la)).isSome then
    { s with tree := { s.tree with changes := s.tree.changes ++ [patchOf la] } }
  else s

/-- A monitor of panel `p` has timed out. -/
def State.timedOut (s : State) (p : Nat) (m : Monitor) : Bool :=
  match m.deadline with
  | some d => decide (d ≤ (s.ftOf p).toNat)
  | none => false

/-- A write to a line wakes the monitors on it that have not timed out (R258). -/
def State.wake (s : State) (line : Nat) : State :=
  { s with cores := s.cores.map fun e =>
      match e.2.monitor with
      | some m =>
        if m.line = line && !s.timedOut (e.1 / 256) m then (e.1, { e.2 with monitor := some { m with woken := true } })
        else e
      | none => e }

/-- Performing a write at the home of its line, sequenced on panel `q` (R167, R168): the line is resident. -/
def State.sequence (s : State) (q : Nat) (la : Nat) (bs : List Byte) : State :=
  let line := la / 64
  let h := homePanel line
  let m := s.mem.order q h line
  let t := (mapGet m.lines line).getD default
  let m := { m with l2 := setBytes m.l2 la bs, lines := mapPut m.lines line { t with dirty := true } }
  { s with mem := m.tell q h line (lineOf (bytesAt m.l2 (line * 64) 64)) }.wake line

/-- More bytes of the write that panel `q` sequenced last, to the same line: the same operation (R166). -/
def State.widen (s : State) (q : Nat) (la : Nat) (bs : List Byte) : State :=
  let line := la / 64
  let v := s.stampOf line
  let l2 := setBytes s.mem.l2 la bs
  let d := lineOf (bytesAt l2 (line * 64) 64)
  s.onMem fun m => { m with
    l2 := l2
    replicas := match mapGet m.replicas (replicaKey q line) with
      | some r => mapPut m.replicas (replicaKey q line) { r with data := d, err := 0 }
      | none => m.replicas
    updates := m.updates.map fun u => if u.line = line && u.src = q && u.stamp = v then { u with data := d } else u }

/-- A write at the home of its line: an engine word's bytes in one line are one operation (R166). -/
def State.commit (s : State) (q : Nat) (la : Nat) (bs : List Byte) : State :=
  match s.mem.opLines with
  | none => s.sequence q la bs
  | some ls =>
    if ls.contains (la / 64) then s.widen q la bs
    else (s.sequence q la bs).onMem fun m => { m with opLines := some (la / 64 :: ls) }

/-- Making a line writable at its home (R160, R380, R386, R390, R391). -/
def needWrite (owner : Tag) (la n : Nat) (va : Word) : M Unit := fun s =>
  let line := la / 64
  let whole := n = 64
  if s.lockedAt la then .error (.fault { cls := 0x13, laddr := la, d0 := va, d1 := 0 }) s
  else
    match s.line? line with
    | some t =>
      if (t.failed && !(whole && owner == 0)) || (t.err &&& halves la n != 0 && !whole) then
        .error (.fault { cls := 0x30, laddr := la, d0 := 3, d1 := w64 (line * 64) }) s
      else
        if t.w && decide ((s.ftOf (homePanel line)).toNat + 64 < t.exp.toNat) && !(vget s.mem.ctls (xlatCtl line)).uncached then
          .ok () s
        else
          match translate (line * 64) va s with
          | .error (.fault f) s => .error (.fault { f with laddr := la }) s
          | .error e s => .error e s
          | .ok x s =>
            if !x.w then .error (.fault { cls := 0x13, laddr := la, d0 := va, d1 := 0 }) s
            else .ok () (s.onMem fun m => { m with lines := mapPut m.lines line { t with w := true, exp := x.exp } })
    | none =>
      match translate (line * 64) va (s.pmPanel (homePanel line) 0x101 1) with
      | .error (.fault f) s => .error (.fault { f with laddr := la }) s
      | .error e s => .error e s
      | .ok x s =>
        if !x.w then .error (.fault { cls := 0x13, laddr := la, d0 := va, d1 := 0 }) s
        else
          match fillHome line owner x whole s with
          | .error (.fault f) s => .error (.fault { f with laddr := la }) s
          | r => r

/-- The entry of the node table at bytes `i` to `i + 31` of a line is live (R134). -/
def liveAt (d : BitVec 512) (i : Nat) : Bool := d.getLsbD (8 * i + 127)

/-- The entries of the node table that a store of `n` bytes at `la` meets while the tree runs, as places in the line. -/
def State.nodesAt (s : State) (la n : Nat) : List Nat :=
  let e := vget s.tree.engines 0
  let base := e.ntBase.toNat * 2 ^ 29
  if e.en && decide (base ≤ la) && decide (la < base + 2 ^ 29) then
    [0, 32].filter fun i => liveAt (s.lineData (la / 64)) i && decide (la % 64 < i + 32) && decide (i < la % 64 + n)
  else []

/-- A line after a store into live entries of the node table: their counts and links are free values (R134), the first of them
number `f`. -/
def spoilNodes (d : List Byte) (f : Nat) : List Nat → List Byte
  | [] => d
  | i :: is =>
    let w (k : Nat) : List Byte := bytesOfW 8 (Config.freeWord (f + k))
    let d := d.take i ++ w 0 ++ (w 1).take 3 ++ (d.drop (i + 11)).take 5 ++ w 2 ++ d.drop (i + 24)
    spoilNodes d (f + 3) is

/-- What a write is for the change tree: the tree's own write or a gate word's, which it takes no notice of; a part of a store
whose change is sent apart; a store that sends a change (R134, R140). -/
inductive Store where
  | inner | part | whole
  deriving DecidableEq, Repr, Inhabited

/-- A write of all 64 bytes of a line takes its marks away (R390, R391). -/
def State.cleanLine (s : State) (line n : Nat) : State :=
  match s.line? line with
  | some t =>
    if n = 64 && (t.failed || t.err != 0) then
      s.onMem fun m => { m with lines := mapPut m.lines line { t with failed := false, err := 0 } }
    else s
  | none => s

/-- A write within one line of regions 0, 1 and 4, sequenced on panel `p`. -/
def writeLine (p : Nat) (owner : Tag) (la : Nat) (bs : List Byte) (va : Word) (how : Store) : M Unit := fun s =>
  match needWrite owner la bs.length va s with
  | .error e s => .error e s
  | .ok _ s =>
    let s := s.cleanLine (la / 64) bs.length
    match (if how = .inner then [] else s.nodesAt la bs.length) with
    | [] => .ok () (if how = .whole then (s.commit p la bs).change la else s.commit p la bs)
    | ns =>
      let old := lineBytes (s.lineData (la / 64))
      let new := old.take (la % 64) ++ bs ++ old.drop (la % 64 + bs.length)
      let t := { s with free := s.free + 3 * ns.length }.commit p (la / 64 * 64) (spoilNodes new s.free ns)
      .ok () (if how = .whole then t.change la else t)

/-- Reading across lines: one operation per line (R166). -/
def readSpan (rd : Nat → Nat → M (List Byte)) : Nat → Nat → Nat → M (List Byte)
  | 0, _, _ => pure []
  | fuel + 1, la, n =>
    if n = 0 then pure []
    else do
      let k := min n (64 - la % 64)
      let b ← rd la k
      let r ← readSpan rd fuel (la + k) (n - k)
      pure (b ++ r)

/-- Bytes of memory read as panel `p` sees them. -/
def memRead (p : Nat) (owner : Tag) (la n : Nat) (va : Word) : M (List Byte) :=
  readSpan (fun a k => readLine p owner a k va) (n / 64 + 2) la n

/-- Writing across lines. -/
def writeSpan (wr : Nat → List Byte → M Unit) : Nat → Nat → List Byte → M Unit
  | 0, _, _ => pure ()
  | fuel + 1, la, bs =>
    match bs with
    | [] => pure ()
    | bs => do
      let k := min bs.length (64 - la % 64)
      wr la (bs.take k)
      writeSpan wr fuel (la + k) (bs.drop k)

/-- Bytes of memory written, sequenced on panel `p`. -/
def memWrite (p : Nat) (owner : Tag) (la : Nat) (bs : List Byte) (va : Word) (how : Store) : M Unit :=
  writeSpan (fun a b => writeLine p owner a b va how) (bs.length / 64 + 2) la bs

/-! ## Line operations of an engine word (R166) -/

/-- One operation of an engine word on a line: a word that makes only some of its operations in a step finds those made
before, and stops where the step's are made. -/
def lineOp (act : M (List Byte)) : M (List Byte) := fun s =>
  match s.mem.opLog with
  | none => act s
  | some g =>
    match g.replay with
    | b :: bs => .ok b (s.onMem fun m => { m with opLog := some { g with replay := bs } })
    | [] =>
      if g.left = some 0 then .error (.pause none) s
      else
        match act s with
        | .ok b t => .ok b (t.onMem fun m => { m with opLog := some { g with made := g.made ++ [b], left := g.left.map (· - 1) } })
        | .error e t => .error e t

/-- Bytes that an engine word reads. -/
def opRead (p : Nat) (owner : Tag) (la n : Nat) (va : Word) : M (List Byte) :=
  readSpan (fun a k => lineOp (readLine p owner a k va)) (n / 64 + 2) la n

/-- Bytes that an engine word writes. The change of R140 goes with its first write in a patch. -/
def opWrite (p : Nat) (owner : Tag) (la : Nat) (bs : List Byte) (va : Word) : M Unit :=
  writeSpan (fun a b => do
    let _ ← lineOp (do
      let ls := (← getState).mem.opLines.getD []
      writeLine p owner a b va .part
      modState fun s => if ls.any fun l => patchOf (l * 64) == patchOf a then s else s.change a
      pure [])
    pure ()) (bs.length / 64 + 2) la bs

/-- A new row of an engine word begins. -/
def newRow : M Unit :=
  modMem fun m => { m with opLog := m.opLog.map fun g => { g with made := g.replay } }

/-- An access of a unit other than a stream: none where it faults (log 27). Where it stalls, its step waits (R129, R156). -/
def unitTry {α : Type} (act : M α) : M (Option α) := fun s =>
  match act s with
  | .ok a s' => .ok (some a) s'
  | .error (.fault _) s' => .ok none s'
  | .error e s' => .error e s'

/-- A unit's own read: bytes that cannot be reached read 0 (log 27). -/
def unitRead (p : Nat) (la n : Nat) : M (List Byte) := do
  let b ← unitTry (memRead p 0 la n 0)
  pure (b.getD (List.replicate n 0))

/-- A unit's own write: a write that cannot be performed leaves memory unchanged (log 27). -/
def unitWrite (p : Nat) (la : Nat) (bs : List Byte) : M Unit := do
  let _ ← unitTry (memWrite p 0 la bs 0 .whole)
  pure ()

/-- A unit's read of a word. -/
def unitWord (p la : Nat) : M Word := do
  let b ← unitRead p la 8
  pure (wordOf b)

end Sys2Proof.Machine
end

