-- ==== Sys2Proof/WellFormed.lean ====
section
/-! DEFINITION. The operand values a stream word may hold by itself (the decode-stage checks of R365 that need
no state), and the instructions that a word can carry. -/

namespace Sys2Proof

/-- A mask over the stream word: bits `[lo + n - 1 : lo]` where `bad` holds (R367: DETAIL0). -/
def maskIf (bad : Bool) (lo n : Nat) : Word :=
  if bad then (allOnes >>> (64 - n)) <<< lo else 0

/-- RND 5 and 6 are reserved (R90). -/
def rndBad (r : BitVec 3) : Word := maskIf (r == 5 || r == 6) 0 3

/-- Sizes and sign extension of LDS, LDM and LDC (R212, R374). -/
def loadBad (o : MOp) : Word :=
  maskIf (decide (4 ≤ o.size.toNat)) 27 3 ||| maskIf (o.sx && decide (3 ≤ o.size.toNat)) 26 1

/-- STS and STM take no sign extension (R227, R374). -/
def storeBad (o : MOp) : Word :=
  maskIf (decide (4 ≤ o.size.toNat)) 27 3 ||| maskIf o.sx 26 1

/-- Sizes `lo` through `hi` and SG of the AT words (R246, R258). -/
def atBad (o : ATOp) (lo hi : Nat) (sgOk : Bool) : Word :=
  maskIf (decide (o.size.toNat < lo) || decide (hi < o.size.toNat)) 22 3 ||| maskIf (o.sg && !sgOk) 21 1

/-- The CSR numbers that R83 lists. -/
def csrListed (n : Nat) : Bool :=
  n ≤ 2 || n == 8 || n == 9 || (0x10 ≤ n && n ≤ 0x21) || (0x30 ≤ n && n ≤ 0x37) || n == 0x40 ||
    (0x50 ≤ n && n ≤ 0x53) || (0x100 ≤ n && n ≤ 0x1BF)

/-- The CSRs of Access PRIV (R267). -/
def csrPriv (n : Nat) : Bool := n == 0x40 || (0x50 ≤ n && n ≤ 0x53)

/-- The bits of a word that hold an operand value outside its limits (class 0x04, R365), as far as the word alone
tells. Every instruction the match does not name has none. -/
def badOperands : Instr → Word
  | .lds _ o | .ldm _ o | .ldc _ o => loadBad o
  | .sts _ o | .stm _ o => storeBad o
  | .aadd _ o | .aor _ o | .axchg _ o | .acas _ o => atBad o 2 3 false
  | .aaddb _ o => atBad o 3 3 false
  | .amax _ o | .amin _ o => atBad o 2 3 true
  | .raddf _ o => atBad o 1 2 false ||| maskIf (o.d != 0) 35 5
  | .gset _ o | .gclr _ o | .gld _ o => atBad o 0 0 false
  | .monw _ o => atBad o 2 3 false
  | .finc _ o => maskIf (o.amount == 0) 0 16
  | .fwait _ o => maskIf (o.n == 0) 0 16
  | .bfillw _ o | .bfreew _ o => maskIf (o.n == 0 || decide (64 < o.n.toNat)) 0 7
  | .own _ o => maskIf (decide (176 < o.first.toNat + o.n1.toNat + 1)) 24 16
  | .ringset _ o =>
    maskIf (!(o.strm == 2 || o.strm == 3 || o.strm == 4)) 37 3 |||
      maskIf (decide (o.size.toNat < 4) || decide (13 < o.size.toNat)) 32 4 |||
      maskIf (decide (4 ≤ o.size.toNat) && decide (o.size.toNat ≤ 13) &&
        (o.base.toNat % 2 ^ o.size.toNat != 0 || decide (8192 < o.base.toNat + 2 ^ o.size.toNat))) 0 13
  | .ringpub _ o => maskIf (!(o.strm == 2 || o.strm == 3 || o.strm == 4)) 37 3
  | .ringrd _ o => maskIf (decide (5 ≤ o.strm.toNat)) 32 3
  | .mark _ o => maskIf (!(o.c || o.v || o.m)) 35 3
  | .stadv _ n => maskIf (n == 0) 0 8
  | .csrr _ o | .csrw _ o => maskIf (!csrListed o.n.toNat) 0 12
  | .mulh _ o => maskIf (decide (3 ≤ o.k.toNat)) 0 3
  | .cmp _ o | .fcmp _ o => maskIf (decide (6 ≤ o.k.toNat)) 0 3
  | .plog _ o => maskIf (decide (5 ≤ o.op.toNat)) 0 3
  | .fadd _ o | .fsub _ o | .fmul _ o | .ffma _ o | .fdiv _ o => rndBad o.k
  | .fsqrt _ o => rndBad o.k
  | .cvtf _ o => rndBad o.rnd
  | .cvti _ o => rndBad o.rnd
  | .cvtn _ o => rndBad o.rnd
  | .loop _ o => maskIf (o.s1 == 0 || o.s1 == 31) 35 5
  | .gmma _ o => maskIf o.pass.isNone 5 1
  | .ast _ o => rndBad o.rnd
  | .vadd _ o | .vsub _ o | .vmul _ o | .vmax _ o | .vmin _ o => rndBad o.rnd
  | .vfma _ o => rndBad o.rnd
  | .vexp _ o | .vlog _ o | .vrcp _ o | .vrsq _ o | .vtanh _ o | .vgelu _ o | .vsilu _ o | .vabs _ o
  | .vcvt _ o | .vqmx _ o | .vdqmx _ o | .vrsum _ o | .vrmax _ o | .vcsum _ o => rndBad o.rnd
  | .vbcast _ o => rndBad o.rnd
  | .vtrn _ o => rndBad o.rnd ||| maskIf o.pass.isSome 5 1
  | .vepi _ o => rndBad o.rnd ||| maskIf (decide (5 ≤ o.fn.toNat)) 8 4
  | .vtagsel _ o => rndBad o.rnd ||| maskIf o.pass.isNone 5 1
  | .ccopy _ o => rndBad o.rnd
  | .cgath _ o | .cscat _ o => rndBad o.rnd ||| maskIf o.pass.isNone 5 1
  | .cfill _ o => rndBad o.rnd
  | .cmcast _ o => rndBad o.rnd ||| maskIf (decide (128 ≤ o.n1.toNat)) 8 8
  | .cwbind _ o => rndBad o.rnd ||| maskIf (decide (64 ≤ o.n1.toNat)) 8 8
  | .cwadv _ o => maskIf (decide (64 ≤ o.n1.toNat)) 8 8
  | .cpfa _ o => rndBad o.rnd
  | .clred _ o => rndBad o.rnd
  | _ => 0

/-- The fields that another field of the word reserves hold zero: GSET's and GCLR's registers (R249), FINC's s1
without REM (R250), PLOG's s2 under `not` (R278). Every other instruction has none. -/
def Instr.canonical : Instr → Bool
  | .gset _ o => o.d == 0
  | .gclr _ o => o.d == 0 && o.s2 == 0
  | .finc _ o => o.rem || o.s1 == 0
  | .plog _ o => o.op != 4 || o.s2 == 0
  | _ => true

/-- A stream word that its operand fields do not break: no reserved field is set and every operand value lies in
its limits. -/
abbrev Instr.WellFormed (i : Instr) : Prop :=
  i.canonical = true ∧ badOperands i = 0 ∧ i.hdr?.isSome = true

end Sys2Proof
end

