-- ==== Sys2Proof/Machine/Ops.lean ====
section
/-! DEFINITION. The shared operations of the core: range sets, fault records, the stall wire, taking an exception
and returning from one, registers and queues, and the running of one A or X word (spec 04, 06, 23, 24, 26). -/

namespace Sys2Proof.Machine

abbrev Out := Host.Outcome State Fault Refusal

/-- Bits `lo .. lo + n - 1`. -/
def bitsOf (lo n : Nat) : Word := maskIf true lo n

/-! ## Range sets -/

def RangeReg.valid (r : RangeReg) : Bool := bit r.w0 3
def RangeReg.vbase (r : RangeReg) : Nat := (field r.w0 16 41).toNat * 65536
def RangeReg.vlimit (r : RangeReg) : Nat := (field r.w8 16 41).toNat * 65536
def RangeReg.loff (r : RangeReg) : Nat := (field r.w16 16 40).toNat * 65536

/-- A right in the numbering of DETAIL1: 1 R, 2 W, 4 X (R355). -/
def RangeReg.grants (r : RangeReg) (need : Nat) : Bool :=
  (need % 2 == 0 || bit r.w0 0) && (need / 2 % 2 == 0 || bit r.w0 1) && (need / 4 % 2 == 0 || bit r.w0 2)

/-- A reserved bit of a range register is set (R107). -/
def RangeReg.bad (r : RangeReg) : Bool :=
  field r.w0 57 7 != 0 || field r.w0 4 12 != 0 || field r.w8 57 7 != 0 || field r.w8 0 16 != 0 ||
    field r.w16 56 8 != 0 || field r.w16 0 16 != 0 || r.w24 != 0

/-- What a translation gives: the lining address, or the class and DETAIL0 of the fault. -/
inductive Ranged where
  | ok (la : Nat)
  | bad (cls : BitVec 8) (d0 : Word)
  deriving DecidableEq, Repr, Inhabited

/-- range_translate for an access of `n` bytes (R108). -/
def rangeTranslate (set : RangeSet) (va : Word) (n need : Nat) : Ranged :=
  match set.find? fun r => r.valid && decide (r.vbase ≤ va.toNat) && decide (va.toNat < r.vlimit) with
  | none => .bad 0x10 va
  | some r =>
    if r.vlimit < va.toNat + n then .bad 0x10 (w64 r.vlimit)
    else if !r.grants need then .bad 0x11 va
    else .ok (r.loff + (va.toNat - r.vbase))

/-- A lining range inside the lining image of one register that grants a right (R110): none inside, or the class. -/
def imageCheck (set : RangeSet) (la n need : Nat) : Option (BitVec 8) :=
  let inside := set.filter fun r =>
    r.valid && decide (r.loff ≤ la) && decide (la + n ≤ r.loff + (r.vlimit - r.vbase))
  if inside.any (·.grants need) then none else if inside.isEmpty then some 0x10 else some 0x11

/-- A range set image (R107). -/
def rangeSetOf (bs : List Byte) : RangeSet :=
  tabulate 8 fun i =>
    let w (j : Nat) : Word := wordOf (bs.drop (32 * i + 8 * j) |>.take 8)
    { w0 := w 0, w8 := w 1, w16 := w 2, w24 := w 3 }

/-- The bytes of a range set. -/
def rangeSetBytes (set : RangeSet) : List Byte :=
  (tabulate 8 fun i =>
    let r := set.getD i default
    bytesOfW 8 r.w0 ++ bytesOfW 8 r.w8 ++ bytesOfW 8 r.w16 ++ bytesOfW 8 r.w24).flatten

/-- A line read at its home, as a read sequenced on panel `p`. -/
def homeLine (p la : Nat) : M (List Byte) := do
  let b ← readLine (homePanel (la / 64)) 0 la 64 0
  modState fun s => s.onMem fun m => m.catchUp p (s.stampOf (la / 64))
  pure b

/-- The image of an owner tag in the range-set table, read at its home (R112): a read that stalls or faults stops the
action that loads the set. -/
def readRangeSet (p : Nat) (t : Tag) : M RangeSet := do
  let s ← getState
  let la := s.rsBase.toNat + 256 * t.toNat
  let b ← (List.range 4).mapM fun i => homeLine p (la + 64 * i)
  pure (rangeSetOf b.flatten)

/-- The set of an owner tag as an access uses it: an image with a reserved bit set faults (R6, R107). -/
def useRangeSet (p : Nat) (t : Tag) : M RangeSet := do
  let set ← readRangeSet p t
  if set.any RangeReg.bad then raise 0x02 0 0 0
  pure set

/-- The set the A unit translates through: the running context's, or firmware's while PRIV is 1 (R111, R265,
log 19). -/
def aSet : M RangeSet := do
  let s ← getState
  let k := s.core s.cur
  if k.priv then useRangeSet (panelOf s.cur) 0 else pure k.rangeSet

/-- The tag of an A-unit access (R18, R265). -/
def Core.tag (k : Core) : Tag := if k.priv then 0 else k.ctx

/-! ## Requests that wait on a draining page (R122, R385) -/

/-- The numbers of the requests that DRAINSTALL counts: 8 c + t stream t of core c, and from 8,192 on the other units: the
Gatherers, the task graph, the links, the Ethernet ports, the firmware's harts, the loader, the tree, the weight store, and the
fault queues by tag (log 66). -/
def unitGath (g : Nat) : Nat := 8192 + g
def unitGraph : Nat := 8200
def unitLink (l : Nat) : Nat := 8208 + l
def unitPort (p : Nat) : Nat := 8224 + p
def unitHart (h : Nat) : Nat := 8232 + h
def unitLoader : Nat := 8240
def unitWeights : Nat := 8241
def unitTree (p : Nat) : Nat := 8244 + p
def unitQueue (t : Nat) : Nat := 8448 + t

/-- A request no longer waits. -/
def State.undrainAt (s : State) (key : Nat) : State :=
  if s.mem.ctls.any (·.drained.contains key) then
    s.onMem fun m => { m with ctls := m.ctls.map fun q => { q with drained := q.drained.filter (· != key) } }
  else s

/-- A request waits at controller `h` on the entry at `p`, in which the walk has set A (R122). -/
def State.addDrainAt (s : State) (key h p : Nat) : State :=
  (s.markPte h p 54).onCtl h fun q => { q with drained := addNew q.drained key }

/-! ## Fault records -/

/-- The words of a record, with the time and the sequence number given (R354). -/
def Rec.words (r : Rec) (ft seq : Word) : List Word :=
  [r.pass ++ r.owner ++ r.unit ++ 0#1 ++ r.cont ++ r.block ++ r.cls,
   if r.wv then 0#37 ++ 1#1 ++ r.core ++ r.strm ++ r.rword else 0,
   BitVec.ofNat 56 r.laddr |>.setWidth 64, ft, r.d0, r.d1, if r.wv then r.word else 0, seq]

def State.fq (s : State) (t : Nat) : FaultQ := (mapGet s.fqs t).getD FaultQ.reset
def State.setFq (s : State) (t : Nat) (q : FaultQ) : State := { s with fqs := mapPut s.fqs t q }

/-- A queue holds as many records as it can (R357). -/
def FaultQ.full (q : FaultQ) : Bool := q.base == 0 || decide (q.head.toNat + 2 ^ q.logc.toNat ≤ q.tail.toNat)

/-- Appending a record detected at time `ft` to queue `t`, in one step (R357): TAIL carries the clock of the write. -/
def appendNow (ft : Word) (t : Nat) (p : Nat) (r : Rec) : M Unit := do
  let s ← getState
  let q := s.fq t
  if q.full then modState fun s => s.setFq t { q with lost := satInc q.lost }
  else
    let la := q.base.toNat * 64 + 64 * (q.tail.toNat % 2 ^ q.logc.toNat)
    unitWrite p la ((r.words ft q.tail).map (bytesOfW 8)).flatten
    modState fun s => { s.setFq t { q with tail := q.tail + 1, clock := s.vc p } with
      host := { s.host with irqFault := true } }

/-- A record for queue `t`: where its write stalls (R129, R156), or another of the queue waits already, it waits in order
(log 133). -/
def appendAt (ft : Word) (t : Nat) (p : Nat) (r : Rec) : M Unit := fun s =>
  let later : State := { s with waitRecs := s.waitRecs ++ [{ queue := t, panel := p, ft := ft, body := r }] }
  if s.waitRecs.any (·.queue == t) then .ok () later
  else
    match appendNow ft t p r s with
    | .ok _ s' => .ok () (s'.undrainAt (unitQueue t))
    | .error (.halt f) s' => .error (.halt f) s'
    | .error (.drain h q) _ => .ok () (later.addDrainAt (unitQueue t) h q)
    | .error _ _ => .ok () later

/-- Appending a record to the queue of a tag (R356); `p` is the detecting unit's panel. -/
def appendTo (t : Nat) (p : Nat) (r : Rec) : M Unit := do
  let s ← getState
  appendAt (s.ftOf p) (if (s.fq t).base = 0 then 0 else t) p r

/-- Appending a record to the queue it is routed by (R358). -/
def appendFault (p : Nat) (r : Rec) : M Unit := appendTo r.owner.toNat p r

/-- An event's action as an outcome: a stall or an uncaught fault leaves the state as it was. -/
def runEvent (act : M Unit) (s : State) : Out :=
  match act s with
  | .ok _ s' => .next s'
  | .error (.halt f) _ => .fault f
  | .error _ _ => .next s

/-- The action of a unit whose demand requests DRAINSTALL counts, under the unit's number: its stall on a draining page counts
until the unit's next action does not meet it (R385). -/
def runUnit (unit : Nat) (act : M Unit) (s : State) : Out :=
  match act s with
  | .ok _ s' => .next (s'.undrainAt unit)
  | .error (.halt f) _ => .fault f
  | .error (.drain h p) _ => .next (s.addDrainAt unit h p)
  | .error (.fault _) _ => .next (s.undrainAt unit)
  | .error _ _ => .next s

/-- An action that a step makes after its own effect: its stalls and faults leave the state as it was. -/
def also (act : M Unit) (s : State) : State :=
  match act s with
  | .ok _ s' => s'
  | .error _ _ => s

/-- The records that wait are appended as far as their writes can be made. -/
def State.retryRecs (s : State) : State :=
  also (s.waitRecs.forM fun w => appendAt w.ft w.queue w.panel w.body) { s with waitRecs := [] }

/-! ## The stall wire and the schedule counter (R79, R80, R359) -/

/-- SCNT now: it counts from the cycle `scntAt` on. -/
def State.scntNow (s : State) (k : Core) : Int :=
  if k.scntRun then k.scnt + ((s.cycle - k.scntAt : Nat) : Int) else k.scnt

/-- Two cores share a stall wire (R81). -/
def sameWire (c d : Nat) (k j : Core) : Bool := c == d || (k.lsEn && j.lsEn && k.lsGroup == j.lsGroup)

/-- The wire of a core is high. -/
def State.wireHigh (s : State) (c : Nat) (k : Core) : Bool :=
  s.cores.any fun e => sameWire c e.1 k e.2 && (e.2.stall || e.2.late)

/-- Every core on the wire of core `c` brings its SCNT up to date and counts or holds (R79, R359); one that has held counts from
the next cycle on, in which the wire falls (R80, R360). -/
def State.syncWire (s : State) (c : CoreId) : State :=
  let k := s.core c
  let high := s.wireHigh c.toNat k
  { s with cores := s.cores.map fun e =>
      if sameWire c.toNat e.1 k e.2 then
        (e.1, { e.2 with scnt := s.scntNow e.2, scntAt := if e.2.scntRun then max s.cycle e.2.scntAt else s.cycle + 1,
                         scntRun := !high && e.2.rings.any (·.started) })
      else e }

/-- A core raises its wire for a fault. -/
def State.raiseWire (s : State) (c : CoreId) : State :=
  (s.onCore c fun k => { k with stall := true }).syncWire c

/-- The streams halted, as the HALT field (R360). -/
def Core.haltBits (k : Core) : List Bool :=
  [false, k.xHalt.isSome, k.m.halt.isSome, k.v.halt.isSome, k.c.halt.isSome]

/-- The wire falls once no stream is halted and the handler does not serve such a fault (R360). -/
def State.dropWire (s : State) (c : CoreId) : State :=
  let k := s.core c
  if k.stall && !k.dead && !k.wireInHandler && !k.haltBits.any (· == true) then
    (s.onCore c fun k => { k with stall := false }).syncWire c
  else s

/-- The classes that raise the wire under word or pass-wide containment (R359). -/
def wireClass (c : BitVec 8) : Bool :=
  c == 0x10 || c == 0x11 || c == 0x12 || c == 0x13 || c == 0x30 || c == 0x41

/-! ## Streams -/

def Core.ring (k : Core) (t : Strm) : Ring := vget k.rings t.code
def Core.setRing (k : Core) (t : Strm) (r : Ring) : Core := { k with rings := vset k.rings t.code r }

/-- The ring word index of a position of a stream (R63, R64). -/
def Ring.wordIdx (r : Ring) (pos : Nat) : BitVec 13 :=
  BitVec.ofNat 13 (r.base.toNat + pos % 2 ^ r.size.toNat)

def Core.engine (k : Core) (t : Strm) : Engine :=
  match t with
  | .v => k.v
  | .c => k.c
  | _ => k.m

def Core.setEngine (k : Core) (t : Strm) (e : Engine) : Core :=
  match t with
  | .v => { k with v := e }
  | .c => { k with c := e }
  | _ => { k with m := e }

/-- The position of a stream's head word. -/
def Core.headPos (k : Core) (t : Strm) : Nat :=
  match t with
  | .a => if k.priv then k.handlerPos else (k.ring .a).fetch.toNat
  | .x => (k.ring .x).fetch.toNat
  | t =>
    match (k.engine t).buf with
    | (p, _) :: _ => p.toNat
    | [] => (k.ring t).fetch.toNat

/-- RWORD of a stream's head word; in the handler the handler word's number. -/
def Core.headWord (k : Core) (t : Strm) : BitVec 13 :=
  if t = .a && k.priv then BitVec.ofNat 13 k.handlerPos else (k.ring t).wordIdx (k.headPos t)

/-- The slack region that holds position `pos` of a stream's section: due count and slack (R209, R220). -/
def Core.dueAt (k : Core) (t : Strm) (pos : Nat) : Option (Int × Int) :=
  match k.regions.find? fun r =>
      r.strm.toNat == t.code && decide (r.first.toNat ≤ pos) && decide (pos < r.first.toNat + r.count.toNat) with
  | none => none
  | some r => some ((r.due.toNat : Int) + ((pos - r.first.toNat : Nat) : Int) * r.stepBy.toNat, r.slack.toNat)

/-- The slack region of a stream's head word. -/
def Core.due? (k : Core) (t : Strm) : Option (Int × Int) :=
  if t = .a && k.priv then none
  else
    k.dueAt t (match t with
      | .a | .x => k.headPos t
      | t => k.headPos t % 2 ^ (k.ring t).size.toNat)

/-- A word of a slack region issues only once SCNT has reached its due count (R79). -/
def State.dueOk (s : State) (k : Core) (t : Strm) : Bool :=
  match k.due? t with
  | some (due, _) => decide (due ≤ s.scntNow k)
  | none => true

/-- A stream has a word at its head: the next word of its section, or of its elastic buffer. -/
def Core.hasHead (k : Core) (t : Strm) : Bool :=
  match t with
  | .a | .x => (k.ring t).started && !(k.ring t).ended
  | t => !(k.engine t).buf.isEmpty

/-- The positions of the words of a stream that have not issued: the first, and how many follow in the section or have been
published. -/
def Core.unissuedSpan (k : Core) (t : Strm) : Nat × Nat :=
  let r := k.ring t
  match t with
  | .a | .x => if r.started && !r.ended then (r.fetch.toNat, r.count - r.fetch.toNat) else (0, 0)
  | t => (k.headPos t, (r.pub.toNat + 2 ^ 32 - k.headPos t) % 2 ^ 32)

/-- The smallest due count plus slack of a word of a stream that has not issued (R80). -/
def Core.firstDue (k : Core) (t : Strm) : Option Int :=
  if k.regions.any fun r => r.strm.toNat == t.code then
    let u := k.unissuedSpan t
    let at0 (i : Nat) : Nat := match t with
      | .a | .x => u.1 + i
      | t => (u.1 + i) % 2 ^ (k.ring t).size.toNat
    ((List.range u.2).filterMap fun i => (k.dueAt t (at0 i)).map fun d => d.1 + d.2).min?
  else none

/-- A word of a stream has waited beyond its slack (R80). -/
def State.streamLate (s : State) (k : Core) (t : Strm) : Bool :=
  match k.firstDue t with
  | some d => decide (d < s.scntNow k)
  | none => false

/-- A word of a core has moved on: the cycle is kept (R197), and the wire raised for a late word falls once the core has
none (R80). -/
def State.endLate (s : State) (c : CoreId) : State :=
  let s := s.onCore c fun k => { k with movedAt := s.cycle }
  let k := s.core c
  if k.late && !([Strm.a, .x, .m, .v, .c].any (s.streamLate k)) then
    (s.onCore c fun k => { k with late := false }).syncWire c
  else s

/-! ## Taking an exception and returning from one -/

/-- Entering the handler (R265, R266, R359): the cause, the word, the address and the place to return to are saved,
PRIV becomes 1 and the A unit goes on at a handler word. -/
def Core.enterHandler (k : Core) (cause word addr ret : Word) (at0 : Nat) : Core :=
  { k with excCause := cause, excWord := word, excAddr := addr, excRet := ret, priv := true, handlerPos := at0,
           wdone := false, aSafe := none }

/-- EXC_RET: WDONE in [16], the stream in [15:13], the ring word in [12:0] (R266). -/
def excRetWord (wdone : Bool) (rword : BitVec 13) : Word := 0#47 ++ ofBool 1 wdone ++ 0#3 ++ rword

/-- The section position of a ring word of the A ring. -/
def Ring.posOf (r : Ring) (rword : BitVec 13) : Nat :=
  (rword.toNat + 8192 - r.base.toNat) % 2 ^ r.size.toNat

/-- The ring word that follows the last word of a section (R400). -/
def Ring.endWord (r : Ring) : BitVec 13 := BitVec.ofNat 13 (r.base.toNat + r.count)

/-- A stream goes on at a section position; past the last word of the section it has ended (R27). -/
def Ring.moveTo (r : Ring) (pos : Nat) : Ring :=
  { r with fetch := BitVec.ofNat 32 pos, ended := decide (r.count ≤ pos) && decide (0 < r.count) }

/-- Returning from the handler (R266): PRIV becomes 0 and the A unit goes on at EXC_RET, its wait byte met when
WDONE is 1. An ended stream whose EXC_RET still names the word after its section stays ended. -/
def Core.leaveHandler (k : Core) : Core :=
  let r := k.ring .a
  let at0 := field k.excRet 0 13
  let r' := if r.ended && at0 == r.endWord then r else r.moveTo (r.posOf at0)
  let k' := { k.setRing .a r' with wireInHandler := false, safeAt := none }
  { k' with priv := false, wdone := bit k.excRet 16 }

/-- The ring word at which the A stream goes on (R371, R400). -/
def Core.resumeWord (k : Core) : BitVec 13 :=
  if (k.ring .a).ended then (k.ring .a).endWord else k.headWord .a

/-- A fault of the A head word with containment word (R359, R376). WDONE is 1 where the word has met and subtracted a wait
byte of its own (R266). -/
def State.aFault (s : State) (w : Word) (f : Flt) : State :=
  let c := s.cur
  let k := s.core c
  let r : Rec :=
    { pass := if k.current then k.passId else 0, owner := k.ctx, unit := 0, cont := 0, block := 63, cls := f.cls,
      wv := true, core := c, strm := 0, rword := k.headWord .a, laddr := f.laddr, d0 := f.d0, d1 := f.d1,
      word := w }
  if k.priv then
    ((also (appendTo 0 (panelOf c) r) s).onCore c fun k => { k with dead := true }).raiseWire c
  else
    let s := also (appendFault (panelOf c) r) s
    let s := s.onCore c fun k =>
      k.enterHandler (f.cls.setWidth 64) w (w64 f.laddr) (excRetWord (k.wdone && field w 62 2 != 0) (k.headWord .a)) 16
    if wireClass f.cls then (s.onCore c fun k => { k with wireInHandler := true }).raiseWire c else s

/-- A fault of the X head word (R359): the stream halts at the word. -/
def State.xFault (s : State) (w : Word) (f : Flt) : State :=
  let c := s.cur
  let k := s.core c
  let r : Rec :=
    { pass := if k.current then k.passId else 0, owner := k.ctx, unit := 1, cont := 0, block := 63, cls := f.cls,
      wv := true, core := c, strm := 1, rword := k.headWord .x, laddr := f.laddr, d0 := f.d0, d1 := f.d1,
      word := w }
  (also (appendFault (panelOf c) r) s).onCore c fun k => { k with xHalt := some .head }

/-! ## Registers, predicates and queues (R77, R213, R274) -/

/-- Reading an A register: 0 reads zero, 31 pops XA, once its next entry holds a value (R272). -/
def rdA (r : Reg) : M Word := fun s =>
  let k := s.core s.cur
  if r = 0 then .ok 0 s
  else if r = 31 then
    match k.xa with
    | some w :: ws => .ok w (s.setCore s.cur { k with xa := ws })
    | _ => .error .stall s
  else .ok (k.a[r.toNat]'r.isLt) s

/-- What reading A registers one after another would give: none where it would stall (R224, R365). -/
def Core.peekA (k : Core) : List Reg → List (Option Word)
  | [] => []
  | r :: rs =>
    if r = 31 then k.xa.head?.join :: Core.peekA { k with xa := k.xa.tail } rs
    else some (if r = 0 then 0 else k.a[r.toNat]'r.isLt) :: k.peekA rs

/-- The value of the last of the registers that a word reads, as its decode stage sees it. -/
def Core.seeA (k : Core) (rs : List Reg) : Option Word := (k.peekA rs).getLast?.join

/-- Writing an A register: 0 discards, 31 pushes AX. -/
def wrA (r : Reg) (v : Word) : M Unit := fun s =>
  let k := s.core s.cur
  if r = 0 then .ok () s
  else if r = 31 then
    if 32 ≤ k.ax.length then .error .stall s else .ok () (s.setCore s.cur { k with ax := k.ax ++ [v] })
  else .ok () (s.setCore s.cur { k with a := k.a.set r.toNat v r.isLt })

/-- An X word in progress has still to write a destination (R272). -/
def Core.xPending (k : Core) (d : XDest) : Bool := k.xProg.any fun w => w.res.any fun r => r.1 == d

/-- Reading an X register: 0 reads zero, 31 pops AX; a register that an earlier word has still to write is waited for (R272). -/
def rdX (r : Reg) : M Word := fun s =>
  let k := s.core s.cur
  if r = 0 then .ok 0 s
  else if r = 31 then
    match k.ax with
    | [] => .error .stall s
    | w :: ws => .ok w (s.setCore s.cur { k with ax := ws })
  else if k.xPending (.reg r) then .error .stall s
  else .ok (k.x[r.toNat]'r.isLt) s

/-- What reading an X register would give (R365). -/
def Core.seeX (k : Core) (r : Reg) : Option Word :=
  if r = 0 then some 0
  else if r = 31 then k.ax.head?
  else if k.xPending (.reg r) then none
  else some (k.x[r.toNat]'r.isLt)

/-- A result of an X word: written now, or kept among the results to come where the word completes later (R275). -/
def keepX (d : XDest) (v : Word) (now : Core → Core) : M Unit := fun s =>
  let k := s.core s.cur
  if s.lineOps.isSome then .ok () (s.setCore s.cur { k with xRes := k.xRes ++ [(d, v)] })
  else if d != .xa && k.xPending d then .error .stall s
  else .ok () (s.setCore s.cur (now k))

/-- Writing an X register: 0 discards, 31 pushes XA, whose entry is reserved at issue (R272). -/
def wrX (r : Reg) (v : Word) : M Unit := fun s =>
  let k := s.core s.cur
  if r = 0 then .ok () s
  else if r = 31 then
    if 32 ≤ k.xa.length then .error .stall s
    else keepX .xa v (fun k => { k with xa := k.xa ++ [some v] }) s
  else keepX (.reg r) v (fun k => { k with x := k.x.set r.toNat v r.isLt }) s

/-- Reading a predicate: p0 reads true. -/
def rdP (p : Pred) : M Bool := fun s =>
  let k := s.core s.cur
  if p != 0 && k.xPending (.pred p) then .error .stall s
  else .ok (p == 0 || k.p[p.toNat]'p.isLt) s

/-- Writing a predicate: p0 discards. -/
def wrP (p : Pred) (b : Bool) : M Unit := fun s =>
  if p = 0 then .ok () s
  else keepX (.pred p) (if b then 1 else 0) (fun k => { k with p := k.p.set p.toNat b p.isLt }) s

/-! ## Wait and signal clauses -/

/-- The bits of the word that name a flag at or above NUM, or a threshold that can never be reached (R370). -/
def Core.clauseBad (k : Core) (h : Hdr) : Word :=
  let w := match waitFlag h.wait with
    | none => 0
    | some v =>
      match flagIdx k.flagNum k.flagBase v with
      | none => maskIf true 56 6
      | some i => maskIf (waitHopeless h.wait (vget k.flags i)) 56 6
  let g := match sigFlag h.sig with
    | none => 0
    | some v => maskIf (flagIdx k.flagNum k.flagBase v).isNone 48 6
  w ||| g

/-- The wait test: the core after the subtraction, none while the condition does not hold (R57). -/
def Core.passWait (k : Core) (w : Wait) : Option Core :=
  match waitFlag w with
  | none => some k
  | some v =>
    match flagIdx k.flagNum k.flagBase v with
    | none => none
    | some i => (waitTest w (vget k.flags i)).map fun f => { k with flags := vset k.flags i f }

/-- Adding to a virtual flag: the core after it, or the flag word that refuses it (R371). -/
def Core.addFlag (k : Core) (v : BitVec 6) (n : Nat) : Except Word Core :=
  match flagIdx k.flagNum k.flagBase v with
  | none => .ok k
  | some i =>
    match (vget k.flags i).add n with
    | some f => .ok { k with flags := vset k.flags i f }
    | none => .error (vget k.flags i).word

/-- The issue-time signal (R58, R371). -/
def Core.issueSig (k : Core) (g : Sig) : Except Word Core :=
  match sigFlag g, sigIssue g with
  | some v, some n => k.addFlag v n
  | _, _ => .ok k

/-- The amount of a word's completion-time signal with its flag. -/
def Core.completionSig (k : Core) (g : Sig) : Option (BitVec 6 × Nat) :=
  match sigFlag g with
  | none => none
  | some v =>
    match flagIdx k.flagNum k.flagBase v with
    | none => none
    | some i => (sigCompletion g (vget k.flags i)).map fun n => (v, n)

/-! ## Running one A or X word -/

/-- Where a stream goes on after a word. -/
inductive Flow where
  | next
  | goto (pos : Nat)
  /-- the word has set the position itself -/
  | stay
  deriving DecidableEq, Repr, Inhabited

/-- The first class of two breaches (R367). -/
def classRank (c : BitVec 8) : Nat :=
  ([0x01, 0x03, 0x02, 0x04, 0x0A, 0x06, 0x05, 0x07, 0x09, 0x10, 0x11, 0x12, 0x13, 0x40, 0x30, 0x41] :
    List (BitVec 8)).findIdx (· == c)

/-- The number of words of the A section as the fetch sees it: the handler ring's 256 while PRIV is 1. -/
def Core.aCount (k : Core) : Nat := if k.priv then 256 else (k.ring .a).count

/-- The A unit goes on after a word: at the next word, or at a target (R27). -/
def Core.advanceA (k : Core) (inHandler : Bool) (fl : Flow) : Core :=
  let go (pos : Nat) : Core :=
    if inHandler then { k with handlerPos := pos % 256, wdone := false }
    else { k.setRing .a ((k.ring .a).moveTo pos) with wdone := false, aSafe := none }
  match fl with
  | .stay => k
  | .goto p => go p
  | .next => go ((if inHandler then k.handlerPos else (k.ring .a).fetch.toNat) + 1)

/-- The completion-time signal of an A word; a refusal enters the handler (R371). -/
def State.aComplete (s : State) (h : Hdr) (w : Word) (rword : BitVec 13) : State :=
  let c := s.cur
  let k := s.core c
  match k.completionSig h.sig with
  | none => s
  | some (v, n) =>
    match k.addFlag v n with
    | .ok k' => s.setCore c k'
    | .error old =>
      let r : Rec :=
        { pass := if k.current then k.passId else 0, owner := k.ctx, unit := 0, cont := 0, block := 63, cls := 0x07,
          wv := true, core := c, strm := 0, rword := rword, laddr := 0, d0 := old, d1 := w64 n, word := w }
      if k.priv then ((also (appendTo 0 (panelOf c) r) s).onCore c fun k => { k with dead := true }).raiseWire c
      else (also (appendFault (panelOf c) r) s).onCore c fun k =>
        k.enterHandler 0x07 w 0 (excRetWord false k.resumeWord) 16

/-- TREPAR, whose perform point may come after later A words have issued (R145, R224). -/
def isTrepar : Instr → Bool
  | .trepar _ _ => true
  | _ => false

/-- The A words that issue only once every earlier A word has completed (R262 to R266), every earlier tree word at the least (R264), or
the streams stand at a safe point (R271, R400). -/
def afterMoves : Instr → Bool
  | .tnode _ _ | .tenrol _ _ | .tunrol _ _ | .trepar _ _ | .tsettle _ _ | .tread _ _ | .tfree _ _ | .passdone _ | .stadv _ _
  | .sysc _ _ | .aSafe _ _ | .ctxsv _ _ | .ctxld _ _ => true
  | _ => false

def Core.movesHold (k : Core) (i : Instr) : Bool := !k.aMoves.isEmpty && afterMoves i

/-- A request of core `c` on stream `t` no longer waits on a draining page (R385). -/
def State.undrain (s : State) (c : CoreId) (t : Strm) : State :=
  s.undrainAt (c.toNat * 8 + t.code)

/-- A request of core `c` on stream `t` stalls on a draining page at controller `h`: it is counted (R385), and the walk has
set A in the entry at `p` (R122). -/
def State.addDrain (s : State) (c : CoreId) (t : Strm) (h p : Nat) : State := s.addDrainAt (c.toNat * 8 + t.code) h p

/-- What stands after a word that faulted without effect (R359): the memory side's own fills, walks and counters, the panel
counters, the free values read, and a lost tree entry with its report (R393). -/
def State.afterFault (s t : State) : State :=
  { s with mem := t.mem, power := t.power, free := t.free, tree := t.tree, fqs := t.fqs, waitRecs := t.waitRecs,
           host := { s.host with irqFault := t.host.irqFault } }

/-- Running the word at the A head (R59, R224, R365 to R367): the decode checks, the wait test and issue checks as one
step, the effect, the completion-time signal. `priv` marks a privileged word, `bad` what the word's own state-dependent
operands break. -/
def runA (i : Instr) (h : Hdr) (priv : Bool) (bad : Core → Word) (body : M Flow) (s : State) : Out :=
  let w := encodeWord i
  let c := s.cur
  let k := s.core c
  let m := badOperands i ||| k.clauseBad h ||| bad k
  if priv && !k.priv then .next (s.aFault w { cls := 0x03, laddr := 0, d0 := 0, d1 := 0 })
  else if m ≠ 0 then .next (s.aFault w { cls := 0x04, laddr := 0, d0 := m, d1 := 0 })
  else if !s.dueOk k .a || k.movesHold i then .next s
  else
    match (if k.wdone then some k else k.passWait h.wait) with
    | none => .next s
    | some k1 =>
      match (if k.wdone then .ok k1 else k1.issueSig h.sig) with
      | .error old =>
        match body (s.setCore c k1) with
        | .error (.fault f) _ =>
          if classRank f.cls < classRank 0x07 then .next (s.aFault w f)
          else .next (s.aFault w { cls := 0x07, laddr := 0, d0 := old, d1 := 1 })
        | .error .stall _ => .next s
        | _ => .next (s.aFault w { cls := 0x07, laddr := 0, d0 := old, d1 := 1 })
      | .ok k2 =>
        let s2 := s.setCore c k2
        match body s2 with
        | .ok fl s3 =>
          let s4 := (s3.undrain c .a).onCore c fun q => q.advanceA k.priv fl
          .next ((if s.lineOps.isSome && isTrepar i then s4 else s4.aComplete h w (k.headWord .a)).endLate c)
        | .error .stall _ | .error (.pause _) _ => .next s
        | .error .waiting s3 =>
          if k.wdone then .next s3 else .next ((s3.onCore c fun q => { q with wdone := true }).endLate c)
        | .error (.drain d p) _ => .next (s.addDrain c .a d p)
        | .error (.fault f) s3 => .next (((s.afterFault s3).undrain c .a).aFault w f)
        | .error (.halt f) _ => .fault f

/-- The X unit goes on after a word. -/
def Core.advanceX (k : Core) (fl : Flow) : Core :=
  let r := k.ring .x
  let go (pos : Nat) : Core := k.setRing .x (r.moveTo pos)
  match fl with
  | .stay => k
  | .goto p => go p
  | .next => go (r.fetch.toNat + 1)

/-- An X word, for a refused signal. -/
def Core.issuedX (k : Core) (w : Word) (rword : BitVec 13) : Issued :=
  { word := w, abs := 0, rword := rword, pass := if k.current then k.passId else 0, ctx := k.ctx, dscs := [],
    slots := [], banks := [], bobbins := [], readsPass := false, entry := none, popped := none, resume := 0,
    deferred := [], pending := 0, lfsr0 := 0, todo := false, retry := none, ops := [], lines := [], own := none, env := none, res := [] }

/-- The completion-time signal of an X word: no state where a second refusal must wait for the first. A refusal halts the stream
at the addition (R371). -/
def State.xSignal (s : State) (c : CoreId) (w : Issued) : Option State :=
  let k := s.core c
  match k.completionSig (getSig w.word) with
  | none => some s
  | some (v, n) =>
    match k.addFlag v n with
    | .ok k' => some (s.setCore c k')
    | .error old =>
      if k.xHalt.isSome then none
      else
        let r : Rec :=
          { pass := w.pass, owner := w.ctx, unit := 1, cont := 0, block := 63, cls := 0x07, wv := true, core := c, strm := 1,
            rword := w.rword, laddr := 0, d0 := old, d1 := w64 n, word := w.word }
        some ((also (appendFault (panelOf c) r) s).onCore c fun k =>
          { k with xHalt := some (.addition v (BitVec.ofNat 16 n) w) })

/-- An X word that has issued completes: now, or later in a step WORD_COMPLETION, with its results and its completion-time
signal; an XA entry it fills is reserved (R59, R272, R275). -/
def State.xComplete (s : State) (late : Bool) (w : Word) (rword : BitVec 13) : State :=
  let x := (s.core s.cur).issuedX w rword
  if late then
    s.onCore s.cur fun k => { k with
      xProg := k.xProg ++ [{ x with res := k.xRes }], xRes := []
      xa := k.xa ++ (k.xRes.filter fun r => r.1 == .xa).map fun _ => none }
  else (s.xSignal s.cur x).getD s

/-- The words that are not pipelined, by the row of R275: 1 DIV and REM, 2 FDIV, 3 FSQRT. -/
def xRow (w : Word) : Nat :=
  match (field w 40 8).toNat with
  | 0x08 | 0x09 => 1
  | 0x26 => 2
  | 0x27 => 3
  | _ => 0

/-- An earlier word of the same row has not completed (R275). -/
def Core.xRowBusy (k : Core) (w : Word) : Bool := xRow w != 0 && k.xProg.any fun x => xRow x.word == xRow w

/-- SAFE completes when it issues (R275, R287). -/
def isXSafe : Instr → Bool
  | .xSafe _ _ => true
  | _ => false

/-- Running the word at the X head (R272, R365 to R367). -/
def runX (i : Instr) (h : Hdr) (bad : Core → Word) (body : M Flow) (s : State) : Out :=
  let w := encodeWord i
  let c := s.cur
  let k := s.core c
  let m := badOperands i ||| k.clauseBad h ||| bad k
  if m ≠ 0 then .next (s.xFault w { cls := 0x04, laddr := 0, d0 := m, d1 := 0 })
  else if !s.dueOk k .x || k.xRowBusy w then .next s
  else
    match k.passWait h.wait with
    | none => .next s
    | some k1 =>
      match k1.issueSig h.sig with
      | .error old =>
        match body (s.setCore c k1) with
        | .error (.fault f) _ =>
          if classRank f.cls < classRank 0x07 then .next (s.xFault w f)
          else .next (s.xFault w { cls := 0x07, laddr := 0, d0 := old, d1 := 1 })
        | .error .stall _ => .next s
        | _ => .next (s.xFault w { cls := 0x07, laddr := 0, d0 := old, d1 := 1 })
      | .ok k2 =>
        let s1 := s.setCore c k2
        match body s1 with
        | .ok fl s2 =>
          let s3 := s2.onCore c fun q => q.advanceX fl
          .next ((s3.xComplete (s.lineOps.isSome && !isXSafe i) w (k.headWord .x)).endLate c)
        | .error (.fault f) _ => .next (s.xFault w f)
        | .error (.halt f) _ => .fault f
        | .error _ _ => .next s

/-- No state-dependent operand. -/
def noBad (_ : Core) : Word := 0

/-- Running an event that is no word. -/
def State.stutter (s : State) : Out := .next s

end Sys2Proof.Machine
end

