-- ==== Sys2Proof/Machine/Window.lean ====
section
/-! DEFINITION. The scratchpad, side stores and accumulators of a core as bytes, and its window in the on-chip map (spec 04
R74, R82, 08 R163, 25 R389). -/

namespace Sys2Proof.Machine

/-! ## Scratchpad and accumulators -/

/-- Bytes `0 .. n - 1` of a bank row of a core. -/
def Core.bankBytes (k : Core) (bank row n : Nat) : List Byte := bytesAt k.spad (bank * 4096 + row * 64) n

/-- The scales of a bank row (R74). -/
def Core.bankScales (k : Core) (bank row n : Nat) : List Byte := bytesAt k.side (bank * 128 + 2 * row) n

/-- A check fails over some of the `n` scratchpad bytes from `a`: one check covers 8 bytes (R163). -/
def Core.spadBad (k : Core) (a n : Nat) : Bool := k.spadErr.any fun w => decide (8 * w < a + n) && decide (a < 8 * w + 8)

/-- `n` scratchpad bytes from `a` are written: the checks over words they cover are made anew (R163). -/
def Core.spadMend (k : Core) (a n : Nat) : Core :=
  { k with spadErr := k.spadErr.filter fun w => !(decide (a ≤ 8 * w) && decide (8 * w + 8 ≤ a + n)) }

/-- A check fails over some of the first `cols` elements of an accumulator row: one check covers an element (R163). -/
def Core.accBad (k : Core) (row cols : Nat) : Bool :=
  k.accErr.any fun e => decide (row * 32 ≤ e) && decide (e < row * 32 + cols)

/-- Accumulator element: row 0 through 1,023, column 0 through 31. -/
def Core.accAt (k : Core) (row col : Nat) : BitVec 32 := (mapGet k.acc (row * 32 + col)).getD 0
def Core.setAcc (k : Core) (row col : Nat) (v : BitVec 32) : Core :=
  { k with acc := if v = 0 then mapDel k.acc (row * 32 + col) else mapPut k.acc (row * 32 + col) v
           accErr := k.accErr.filter (· != row * 32 + col) }

/-- An accumulator row's columns. -/
def Core.accRow (k : Core) (row cols : Nat) : List (BitVec 32) := tabulate cols fun n => k.accAt row n

/-- Writing the first columns of an accumulator row. -/
def Core.setAccRow (k : Core) (row : Nat) (vs : List (BitVec 32)) : Core :=
  (vs.zip (List.range vs.length)).foldl (fun k e => k.setAcc row e.2 e.1) k

/-! ## The on-chip map (R82) -/

/-- The core and the offset of a lining address of region 2. -/
def winCore (la : Nat) : CoreId := BitVec.ofNat 10 (la / 2 ^ 20)
def winOff (la : Nat) : Nat := la % 2 ^ 20

/-- Region 2 holds the windows of 1,024 cores and nothing above them. -/
def winNone (la : Nat) : Bool := decide (2 ^ 30 ≤ la % 2 ^ 52)

/-- Who makes an access through the map: a unit under a tag, or the firmware complex, which no owner bit holds back. -/
inductive WinBy where
  | unit (tag : Tag)
  | firmware
  deriving DecidableEq, Repr, Inhabited

/-- It acts as owner tag 0. -/
def WinBy.tagZero : WinBy → Bool
  | .unit t => t == 0
  | .firmware => true

/-- A part of a core's window. -/
inductive WinPart where
  /-- the scratchpad or its side stores, with the bank -/
  | spad (bank : Nat) | side (bank : Nat)
  | acc | passMem | flag (v : Nat) | bobCfg (b : Nat) | bobState (b : Nat) | regs (i : Nat) | handler (w : Nat)
  deriving DecidableEq, Repr, Inhabited

/-- The part that holds an offset; none where the offset is reserved. -/
def winPart (off : Nat) : Option WinPart :=
  if off < 0xC0000 then some (.spad (off / 4096))
  else if off < 0xE0000 then some .acc
  else if off < 0xE6000 then some (.side ((off - 0xE0000) / 128))
  else if 0xE8000 ≤ off && decide (off < 0xE8800) then some .passMem
  else if 0xF0000 ≤ off && decide (off < 0xF0200) then some (.flag ((off - 0xF0000) / 8))
  else if 0xF1000 ≤ off && decide (off < 0xF1200) then
    some (if off % 16 < 8 then .bobCfg ((off - 0xF1000) / 16) else .bobState ((off - 0xF1000) / 16))
  else if 0xF2000 ≤ off && decide (off < 0xF2208) then some (.regs ((off - 0xF2000) / 8))
  else if 0xF3000 ≤ off && decide (off < 0xF3800) then some (.handler ((off - 0xF3000) / 8))
  else none

/-- p0 to p7 in one byte; p0 reads true. -/
def Core.predByte (k : Core) : Word :=
  (List.range 8).foldl (fun w i => if i = 0 || vget k.p i then w ||| (1#64 <<< i) else w) 0

/-- The 8-byte word at an aligned offset of a part other than the scratchpad and its side stores. -/
def Core.winWord (k : Core) (off : Nat) : Word :=
  match winPart off with
  | some .acc =>
    let e := (off - 0xC0000) / 4
    k.accAt ((e + 1) / 32) ((e + 1) % 32) ++ k.accAt (e / 32) (e % 32)
  | some .passMem => vget k.passMem ((off - 0xE8000) / 8)
  | some (.flag v) =>
    match flagIdx k.flagNum k.flagBase (BitVec.ofNat 6 v) with
    | some i => (vget k.flags i).word
    | none => 0
  | some (.bobCfg b) => (vget k.bobbins b).config
  | some (.bobState b) => (vget k.bobbins b).stateWord
  | some (.regs i) =>
    if i = 64 then k.predByte
    else if i % 32 = 0 || i % 32 = 31 then 0
    else if i < 32 then vget k.a i
    else vget k.x (i - 32)
  | some (.handler w) => (mapGet k.handler w).getD 0
  | _ => 0

/-- Panel `p` reads what lies in core `c`: it comes after the writes that other units have made into the core through its window,
and after what the core's own panel has applied (R170). -/
def seeWin (p : Nat) (c : CoreId) : M Unit :=
  modState fun s => s.onMem fun m => m.catchUp p (vcMax (s.vc (panelOf c)) (s.core c).winClk)

/-- Panel `p` writes into core `c`. -/
def markWin (p : Nat) (c : CoreId) : M Unit :=
  modState fun s => s.onCore c fun k => { k with winClk := vcMax k.winClk (s.vc p) }

/-- A bobbin's state word written. -/
def Bobbin.putState (b : Bobbin) (v : Word) : Bobbin :=
  { b with free := (field v 24 7).toNat, filled := (field v 16 7).toNat, rptr := (field v 8 6).toNat,
           wptr := (field v 0 6).toNat }

/-- That word written. -/
def Core.putWinWord (k : Core) (off : Nat) (v : Word) : Core :=
  match winPart off with
  | some .acc =>
    let e := (off - 0xC0000) / 4
    (k.setAcc (e / 32) (e % 32) (field v 0 32)).setAcc ((e + 1) / 32) ((e + 1) % 32) (field v 32 32)
  | some .passMem => { k with passMem := vset k.passMem ((off - 0xE8000) / 8) v }
  | some (.flag i) =>
    match flagIdx k.flagNum k.flagBase (BitVec.ofNat 6 i) with
    | some i => { k with flags := vset k.flags i (Flag.ofWord v) }
    | none => k
  | some (.bobCfg b) =>
    let x := vget k.bobbins b
    { k with bobbins := vset k.bobbins b { x with config := v &&& (bitsOf 20 15 ||| bitsOf 0 19) } }
  | some (.bobState b) => { k with bobbins := vset k.bobbins b ((vget k.bobbins b).putState v) }
  | some (.regs i) =>
    if i = 64 then { k with p := Vector.ofFn fun j => bit v j.val }
    else if i % 32 = 0 || i % 32 = 31 then k
    else if i < 32 then { k with a := vset k.a i v }
    else { k with x := vset k.x (i - 32) v }
  | some (.handler w) => { k with handler := mapPut k.handler w v }
  | _ => k

/-- Bytes laid over a word from byte `i` on. -/
def patchWord (w : Word) (i : Nat) (bs : List Byte) : Word :=
  let b := bytesOfW 8 w
  wordOf (b.take i ++ bs ++ b.drop (i + bs.length))

/-- Scratchpad and accumulator words with an uncorrectable error (R389). -/
def Core.winErr (k : Core) (off n : Nat) : Option (Word × Word) :=
  match winPart off with
  | some (.spad b) => if k.spadBad off n then some (1, w64 (b * 256 + off % 4096 / 64)) else none
  | some .acc =>
    let e := (off - 0xC0000) / 4
    if k.accErr.any fun x => decide (4 * x < off - 0xC0000 + n) && decide (e ≤ x) then some (2, w64 (e / 32)) else none
  | _ => none

/-- A part is one that an engine's access may reach: owner bits of the banks are 1, and what only owner tag 0 reaches is
reached under that tag (R82). -/
def Core.engReach (k : Core) (owner : Tag) (off : Nat) (write : Bool) : Option (BitVec 8 × Word) :=
  match winPart off with
  | none => some (0x04, 0)
  | some (.spad b) | some (.side b) => if vget k.owner b then none else some (0x06, w64 b)
  | some .acc => none
  | some (.flag v) => if k.flagNum.toNat ≤ v || (write && owner != 0) then some (0x04, 0) else none
  | some (.handler _) => if owner = 0 then none else some (0x04, 0)
  | _ => if write && owner != 0 then some (0x04, 0) else none

/-- The byte of a window. -/
def Core.winByte (k : Core) (off : Nat) : Byte :=
  match winPart off with
  | some (.spad _) => byteAt k.spad off
  | some (.side _) => byteAt k.side (off - 0xE0000)
  | some .acc =>
    let e := (off - 0xC0000) / 4
    field (k.accAt (e / 32) (e % 32)) (8 * (off % 4)) 8
  | _ => field (k.winWord (off / 8 * 8)) (8 * (off % 8)) 8

/-- A byte of an element of the accumulators written. -/
def Core.putAccByte (k : Core) (e i : Nat) (b : Byte) : Core :=
  let bs := bytesOfNat 4 (k.accAt (e / 32) (e % 32)).toNat
  k.setAcc (e / 32) (e % 32) (BitVec.ofNat 32 (natOfBytes (bs.take i ++ [b] ++ bs.drop (i + 1))))

/-- That byte written. -/
def Core.putWinByte (k : Core) (off : Nat) (b : Byte) : Core :=
  match winPart off with
  | some (.spad _) => { k with spad := setByte k.spad off b }
  | some (.side _) => { k with side := setByte k.side (off - 0xE0000) b }
  | some .acc => k.putAccByte ((off - 0xC0000) / 4) (off % 4) b
  | _ => k.putWinWord (off / 8 * 8) (patchWord (k.winWord (off / 8 * 8)) (off % 8) [b])

/-- The first of `n` window bytes with an uncorrectable error, as DETAIL0 and DETAIL1 (R355, R389). -/
def Core.winLost (k : Core) (off n : Nat) : Option (Word × Word) :=
  (tabulate n fun i => k.winErr (off + i) 1).findSome? id

/-- The first of `n` window bytes that an engine may not reach. -/
def Core.winShut (k : Core) (owner : Tag) (off n : Nat) (write : Bool) : Option (BitVec 8 × Word) :=
  (tabulate n fun i => k.engReach owner (off + i) write).findSome? id

/-- The window bytes of the on-chip map that an engine reads at a lining address of region 2 (R82). A cluster that is off
gives free values (R197). -/
def windowRead (owner : Tag) (la n : Nat) : M (List Byte) := do
  let s ← getState
  let c := winCore la
  let off := winOff la
  let k := s.core c
  if winNone la || decide (2 ^ 20 < off + n) then raise 0x04 la 0 0
  else
    match k.winShut owner off n false with
    | some (cls, d0) => raise cls la d0 0
    | none =>
      if vget s.power.cluster (clusterOf c) = 2 then do
        let w ← freeWord
        pure (tabulate n fun i => field w (8 * (i % 8)) 8)
      else
        match k.winLost off n with
        | some (d0, d1) => raise 0x30 la d0 d1
        | none => pure (tabulate n fun i => k.winByte (off + i))

/-- The window bytes that an engine writes (R82). -/
def windowWrite (owner : Tag) (la : Nat) (bs : List Byte) : M Unit := do
  let s ← getState
  let c := winCore la
  let off := winOff la
  let n := bs.length
  let k := s.core c
  if winNone la || decide (2 ^ 20 < off + n) then raise 0x04 la 0 0
  else
    match k.winShut owner off n true with
    | some (cls, d0) => raise cls la d0 0
    | none =>
      if vget s.power.cluster (clusterOf c) = 2 then pure ()
      else
        modState fun s => s.onCore c fun k =>
          bs.zipIdx.foldl (fun k e => k.putWinByte (off + e.2) e.1) (if off + n ≤ 0xC0000 then k.spadMend off n else k)

end Sys2Proof.Machine
end

