-- ==== Sys2Proof/Machine/Operands.lean ====
section
/-! DEFINITION. The operand forms of the engines: the descriptor's kinds, their limits and formats, the place of every
element row, and reading and writing one row (spec 04 R69 to R76, 05 R86 to R97, 06 R110, R133, 16 R293, 18 R324,
R325, 23 R361). -/

namespace Sys2Proof.Machine

/-! ## The descriptor (R73) -/

def dKind (d : Dsc) : Nat := (field d 124 4).toNat
def dFmt (d : Dsc) : Nat := (field d 120 4).toNat
def dRows (d : Dsc) : Nat := (field d 111 9).toNat + 1
def dCols (d : Dsc) : Nat := (field d 102 9).toNat + 1
def dGroup (d : Dsc) : Nat := (field d 99 3).toNat
def dFirstBank (d : Dsc) : Nat := (field d 94 5).toNat
def dSpan (d : Dsc) : Nat := (field d 89 5).toNat + 1
def dBase (d : Dsc) : Nat := (field d 83 6).toNat
def dBob (d : Dsc) : BitVec 5 := field d 97 5
def dOff (d : Dsc) : Nat := (field d 89 8).toNat
def dAuto (d : Dsc) : Bool := bit d 88
def dAccBank (d : Dsc) : Nat := (field d 100 2).toNat
def dAccRow (d : Dsc) : Nat := (field d 92 8).toNat
def dAddr (d : Dsc) : Nat := (field d 46 56).toNat
def dStride (d : Dsc) : Nat := (field d 26 20).toNat
def dDeclare (d : Dsc) : Bool := bit d 25
def dSel (d : Dsc) : Nat := (field d 97 5).toNat
def dStride5 (d : Dsc) : Nat := (field d 77 20).toNat
def dWid (d : Dsc) : Word := field d 38 64
def dTile (d : Dsc) : Nat := (field d 18 20).toNat
def dCore (d : Dsc) : CoreId := field d 92 10
def dWindow (d : Dsc) : Nat := (field d 90 2).toNat
def dByte (d : Dsc) : Nat := (field d 60 30).toNat

/-- A bit that the KIND does not use is set (R73, R369). -/
def dscReserved (d : Dsc) : Bool :=
  match dKind d with
  | 1 => field d 0 83 != 0
  | 2 => field d 0 88 != 0
  | 3 => field d 0 92 != 0
  | 4 => field d 0 25 != 0
  | 5 => field d 0 77 != 0
  | 6 => field d 0 18 != 0
  | 7 => field d 0 60 != 0
  | _ => false

/-- Bytes of a scratchpad bank row. -/
def bankRow : Nat := 64

/-- A row of `cols` elements of a format fits a bank row; an MX row holds whole blocks, at most two (R73, R96). -/
def rowFits (f : Fmt) (cols : Nat) : Bool :=
  decide (f.elem.rowBytes cols ≤ bankRow) &&
    (f.blk == 0 || (decide (cols % f.blk = 0) && decide (cols ≤ 2 * f.blk)))

/-- An MX row in memory holds whole blocks, at most two (R96). -/
def rowWhole (f : Fmt) (cols : Nat) : Bool := f.blk == 0 || (decide (cols % f.blk = 0) && decide (cols ≤ 2 * f.blk))

/-- A WID table entry that is locked under a WID. -/
def State.lockedWid (s : State) (w : Word) : Option Wid :=
  (s.ws.wids.find? fun e => e.2.locked && e.2.wid == w).map (·.2)

/-- The limits of a descriptor that hold at decode (R73, R85, R365): false where one is broken. -/
def State.dscOk (s : State) (c : CoreId) (d : Dsc) : Bool :=
  let k := s.core c
  let slot := Fmt.parse (vget k.fmtSlot (dFmt d))
  let spadFmt := dFmt d == 0 || (match slot with
    | some f => rowFits f (dCols d)
    | none => false)
  let memFmt := match slot with
    | some f => rowWhole f (dCols d)
    | none => false
  match dKind d with
  | 1 =>
    decide (dGroup d ≤ 5) && decide (dFirstBank d + dSpan d ≤ 32) &&
      decide (32 * dGroup d + dFirstBank d + dSpan d ≤ 176) &&
      decide (dBase d + (dRows d + dSpan d - 1) / dSpan d ≤ 64) && spadFmt
  | 2 => decide (dOff d + dRows d ≤ (vget k.bobbins (dBob d).toNat).size + 1) && spadFmt
  | 3 => decide (dAccRow d + dRows d ≤ 256) && decide (dCols d ≤ 32) && dFmt d == 0
  | 4 => memFmt
  | 5 => decide (dSel d ≤ 2) && memFmt
  | 6 =>
    memFmt && (match s.lockedWid (dWid d) with
      | some w => decide (dTile d < w.tiles.toNat)
      | none => false)
  | 7 =>
    (clusterOf (dCore d) == clusterOf c) &&
      (match dWindow d with
      | 0 => decide (dByte d % 64 = 0) && decide (dByte d + 64 * dRows d ≤ 720896) && spadFmt
      | 1 => decide (dByte d % 128 = 0) && decide (dByte d / 128 + dRows d ≤ 1024) && decide (dCols d ≤ 32) &&
          dFmt d == 0
      | _ => false)
  | _ => false

/-! ## Rows in scratchpad and accumulators -/

/-- Bank and bank row of element row `j` of a scratchpad operand; `slot` is the bobbin slot of a KIND 2 operand. -/
def placeOf (k : Core) (d : Dsc) (slot j : Nat) : Nat × Nat :=
  if dKind d = 1 then (32 * dGroup d + dFirstBank d + j % dSpan d, dBase d + j / dSpan d)
  else if dKind d = 2 then
    let b := vget k.bobbins (dBob d).toNat
    let q := slot * (b.size + 1) + dOff d + j
    (b.bank + q % (b.span + 1), b.row + q / (b.span + 1))
  else (dByte d / 4096 + (dByte d % 4096 + 64 * j) / 4096, (dByte d + 64 * j) % 4096 / 64)

/-- Bank of the accumulators and row of element row `j`, as one row number 0 through 1,023. -/
def accPlace (d : Dsc) (j : Nat) : Nat :=
  if dKind d = 3 then 256 * dAccBank d + dAccRow d + j else dByte d / 128 + j

/-- The core whose scratchpad or accumulators an operand lies in. -/
def opCore (c : CoreId) (d : Dsc) : CoreId := if dKind d = 7 then dCore d else c

/-- An operand in accumulator rows. -/
def inAcc (d : Dsc) : Bool := dKind d == 3 || (dKind d == 7 && dWindow d == 1)

/-- An operand in scratchpad rows. -/
def inSpad (d : Dsc) : Bool := dKind d == 1 || dKind d == 2 || (dKind d == 7 && dWindow d == 0)

/-- The format encoding of element row `j` (R86, R325). DEDUCED, unsafe (log 144): a KIND 7 operand that names a format slot
names one of the issuing core. -/
def State.rowEnc (s : State) (c : CoreId) (d : Dsc) (slot j : Nat) : BitVec 32 :=
  let k := s.core c
  if inAcc d then
    if vget (s.core (opCore c d)).accMode (accPlace d j / 256) then s32Enc else fp32Enc
  else if inSpad d && dFmt d == 0 then
    vget (s.core (opCore c d)).bankFmt (placeOf k d slot j).1
  else vget k.fmtSlot (dFmt d)

/-- The one format of an operand, of its first row. -/
def State.opEnc (s : State) (c : CoreId) (d : Dsc) (slot : Nat) : BitVec 32 := s.rowEnc c d slot 0

/-- Banks a scratchpad operand spans for R86. -/
def spanBanks (k : Core) (d : Dsc) : List Nat :=
  if dKind d = 1 then tabulate (dSpan d) fun i => 32 * dGroup d + dFirstBank d + i
  else if dKind d = 2 then
    let b := vget k.bobbins (dBob d).toNat
    tabulate (b.span + 1) fun i => b.bank + i
  else if dKind d = 7 && dWindow d = 0 then
    (tabulate (dRows d) fun j => (placeOf k d 0 j).1).eraseDups
  else []

/-- The banks an operand names, each with its core (R418). -/
def State.namedBanks (s : State) (c : CoreId) (d : Dsc) : List (Nat × Nat) :=
  (spanBanks (s.core c) d).map fun b => ((opCore c d).toNat, b)

/-- The bobbins an operand names (R418). -/
def namedBobs (d : Dsc) : List (BitVec 5) := if dKind d = 2 then [dBob d] else []

/-- The issue check of the bank formats an FMT = 0 operand spans (R86, R325, R365). -/
def State.bankFmtsOk (s : State) (c : CoreId) (d : Dsc) : Bool :=
  if inSpad d && dFmt d == 0 then
    let t := s.core (opCore c d)
    let encs := (spanBanks (s.core c) d).map fun b => vget t.bankFmt b
    let ok (e : BitVec 32) : Bool := match Fmt.parse e with
      | some f => rowFits f (dCols d)
      | none => false
    encs.all ok && (dKind d == 7 || encs.all fun e => e == encs.headD 0)
  else true

/-- A bank an operand names that has owner bit 0 (R67). -/
def State.unowned (s : State) (c : CoreId) (d : Dsc) : Option Nat :=
  ((s.namedBanks c d).find? fun b => !vget (s.core (BitVec.ofNat 10 b.1)).owner b.2).map (·.2)

/-! ## Pass rows (R293) -/

/-- Word `w` of row-block entry `b` of pass memory. -/
def Core.rbt (k : Core) (b w : Nat) : Word := vget k.passMem (8 * b + w)
def Core.rbtOwner (k : Core) (b : Nat) : Tag := field (k.rbt b 0) 0 12
def Core.rbtParked (k : Core) (b : Nat) : Bool := bit (k.rbt b 0) 15
def Core.rbtStart (k : Core) (b : Nat) : Nat := (field (k.rbt b 0) 16 8).toNat
def Core.rbtCount (k : Core) (b : Nat) : Nat := (field (k.rbt b 0) 24 8).toNat

/-- header.BLOCKS and the rows of the current pass. -/
def Core.hdrBlocks (k : Core) : Nat := (field (vget k.header 1) 16 8).toNat
def Core.hdrRows (k : Core) : Nat := (field (vget k.header 1) 0 8).toNat + 1

/-- block_of. -/
def Core.blockOf (k : Core) (r : Nat) : Nat :=
  ((List.range (min (k.hdrBlocks + 1) 32)).find? fun b =>
    decide (k.rbtStart b ≤ r) && decide (r < k.rbtStart b + k.rbtCount b)).getD 0

/-- The block of element row `i` under PT and PROW. -/
def Core.rowBlock (k : Core) (p : Pass) (i : Nat) : Nat :=
  match p with
  | some r => k.blockOf (r.toNat + i)
  | none => 0

/-- Element row `i` is parked. -/
def Core.rowParked (k : Core) (p : Pass) (i : Nat) : Bool := p.isSome && k.rbtParked (k.rowBlock p i)

/-- The range set of an owner in the range file (R133). -/
def Core.fileSet (k : Core) (t : Tag) : RangeSet :=
  (((k.rangeTags.zip k.rangeFile).find? fun e => e.1 == t).map (·.2)).getD []

/-! ## Reading a row -/

/-- Reading a scratchpad row under a format (R88, R96, R389). -/
def readSpadRow (c : CoreId) (bank row : Nat) (f : Fmt) (cols : Nat) : M Row := fun s =>
  let k := s.core c
  if k.spadBad (bank * 4096 + row * 64) (f.elem.rowBytes cols) then
    .error (.fault { cls := 0x30, laddr := 0, d0 := 1, d1 := w64 (bank * 256 + row) }) s
  else
    .ok { bytes := k.bankBytes bank row (f.elem.rowBytes cols), scales := k.bankScales bank row (f.scaleBytes cols) } s

/-- Reading an accumulator row; an uncorrectable error faults (R389). -/
def readAccRow (c : CoreId) (row cols : Nat) : M (List (BitVec 32)) := fun s =>
  let k := s.core c
  if k.accBad row cols then
    .error (.fault { cls := 0x30, laddr := 0, d0 := 2, d1 := w64 (row / 256 * 256 + row % 256) }) s
  else .ok (k.accRow row cols) s

/-- The lining address of row `j` of a KIND 5 operand (R133, R327): `b` its block, `first` the row within the block,
`packed` the packed size of a row. -/
def addr5 (k : Core) (d : Dsc) (b first packed : Nat) : Word :=
  let base := k.rbt b (match dSel d with
    | 0 => 2
    | 1 => 3
    | _ => 4)
  let own := match dSel d with
    | 0 => (field (k.rbt b 5) 0 32).toNat
    | 1 => (field (k.rbt b 5) 32 32).toNat
    | _ => packed
  base + w64 (first * (if dStride5 d = 0 then own else dStride5 d))

/-- The translation of a KIND 5 row (R108, R114, R133): region 4 is refused as R114 says. Region 3 answers 64-bit words
alone, which no row of an engine is (R166, R231), and the regions from 5 on hold nothing (R113): class 0x04 (log 134). -/
def translate5 (c : CoreId) (b : Nat) (va : Word) (n need : Nat) : M Nat := do
  let s ← getState
  let k := s.core c
  match rangeTranslate (k.fileSet (k.rbtOwner b)) va n need with
  | .ok la =>
    if regionOf la = 4 then raise 0x11 la va (w64 need)
    else if 3 ≤ regionOf la then raise 0x04 la 0 0
    else pure la
  | .bad cls d0 => raise cls 0 d0 (w64 need)

/-- The check of a KIND 4 row against the running context's lining images (R110, R114, R379); a row that an image grants
and that lies where no row can be performed raises class 0x04 as in `translate5`. -/
def check4 (c : CoreId) (la n need : Nat) : M Unit := do
  let s ← getState
  if regionOf la = 4 then raise 0x04 la 0 0
  else
    match imageCheck (s.core c).rangeSet la n need with
    | some cls => raise cls la 0 (w64 need)
    | none => if 3 ≤ regionOf la then raise 0x04 la 0 0 else pure ()

/-- Splitting MX row layout into a row (R96). -/
def rowOfBytes (f : Fmt) (cols : Nat) (bs : List Byte) : Row :=
  { bytes := bs.drop (f.scaleBytes cols), scales := bs.take (f.scaleBytes cols) }

/-- Reading lining memory for an engine of core `c`. -/
def engRead (c : CoreId) (owner : Tag) (la n : Nat) (va : Word) : M (List Byte) :=
  if regionOf la = 2 then do
    let b ← windowRead owner la n
    seeWin (panelOf c) (winCore la)
    pure b
  else opRead (panelOf c) owner la n va

/-- The lining address of row `j` of a KIND 6 operand, with the owner check of R161. -/
def addr6 (c : CoreId) (d : Dsc) (rowBytes j : Nat) : M Nat := do
  let s ← getState
  match s.lockedWid (dWid d) with
  | none => raise 0x04 0 0 0
  | some w =>
    let tile := w.base.toNat * 65536 + dTile d * w.tbytes.toNat
    if w.owner != 0 && w.owner != (s.core c).ctx then raise 0x13 tile 0 0
    else pure (tile + j * rowBytes)

/-- Reading element row `j` of a source operand under a format (R324, R325). `b` and `first` are the block and the row
within it for KIND 5. -/
def readRowAs (enc : BitVec 32) (c : CoreId) (d : Dsc) (slot j b first : Nat) : M (Row × BitVec 32) := do
  let s ← getState
  let k := s.core c
  let cols := dCols d
  match Fmt.parse enc with
  | none => raise 0x04 0 0 0
  | some f =>
    if inAcc d then
      let vs ← readAccRow (opCore c d) (accPlace d j) cols
      seeWin (panelOf c) (opCore c d)
      pure ({ bytes := (vs.map fun v => bytesOfNat 4 v.toNat).flatten, scales := [] }, enc)
    else if inSpad d then
      let p := placeOf k d slot j
      let r ← readSpadRow (opCore c d) p.1 p.2 f cols
      seeWin (panelOf c) (opCore c d)
      pure (r, enc)
    else
      let n := f.memBytes cols
      match dKind d with
      | 4 => do
        let la := dAddr d + j * dStride d
        check4 c la n 1
        let bs ← engRead c k.ctx la n 0
        pure (rowOfBytes f cols bs, enc)
      | 5 => do
        let va := addr5 k d b first n
        let la ← translate5 c b va n 1
        let bs ← engRead c (k.rbtOwner b) la n va
        pure (rowOfBytes f cols bs, enc)
      | _ => do
        let la ← addr6 c d n j
        let bs ← opRead (panelOf c) k.ctx la n 0
        pure (rowOfBytes f cols bs, enc)

/-- Reading element row `j` of a source operand with its format. -/
def readRow (c : CoreId) (d : Dsc) (slot j b first : Nat) : M (Row × BitVec 32) := do
  let s ← getState
  readRowAs (s.rowEnc c d slot j) c d slot j b first

/-! ## Writing a row -/

/-- Writing a scratchpad row: its bytes and its scales (R74, R96). -/
def Core.putSpadRow (k : Core) (bank row : Nat) (r : Row) : Core :=
  { k.spadMend (bank * 4096 + row * 64) r.bytes.length with
    spad := setBytes k.spad (bank * 4096 + row * 64) r.bytes
    side := setBytes k.side (bank * 128 + 2 * row) r.scales }

/-- `n` more bytes stand written. -/
def Perf.step (p : Perf) (n : Nat) : Perf := { p with done := p.done + n, pos := p.pos + n }

/-- `n` bytes of the word's order are left out. -/
def Perf.pass (p : Perf) (n : Nat) : Perf := { p with pos := p.pos + n }

/-- The lines of a granule made writable before any of it is written (R383). -/
def needLines (owner : Tag) (va : Word) : Nat → Nat → Nat → M Unit
  | 0, _, _ => pure ()
  | fuel + 1, la, n =>
    if n = 0 then pure ()
    else do
      let k := min n (64 - la % 64)
      needWrite owner la k va
      needLines owner va fuel (la + k) (n - k)

/-- A write of an engine word that has written `lines`: more bytes of such a line are of the same operation (R166). -/
def oneOp (lines : List Nat) (act : M Unit) : M (List Nat) := fun s =>
  match act (s.onMem fun m => { m with opLines := some lines }) with
  | .ok _ s' => .ok (s'.mem.opLines.getD lines) (s'.onMem fun m => { m with opLines := none })
  | .error (.pause _) s' =>
    .error (.pause (some { (default : Perf) with lines := s'.mem.opLines.getD lines })) (s'.onMem fun m => { m with opLines := none })
  | .error e s' => .error e (s'.onMem fun m => { m with opLines := none })

/-- One granule of at most 256 bytes written (R324). -/
def writeGranule (c : CoreId) (owner : Tag) (la : Nat) (bs : List Byte) (va : Word) (p : Perf) : M Perf := do
  if decide (p.pos + bs.length ≤ p.resume) then pure (p.step bs.length)
  else if regionOf la = 2 then do
    windowWrite owner la bs
    markWin (panelOf c) (winCore la)
    pure (p.step bs.length)
  else do
    needLines owner va (bs.length / 64 + 2) la bs.length
    let ls ← oneOp p.lines (opWrite (panelOf c) owner la bs va)
    pure { p.step bs.length with lines := ls }

/-- A row written in granules of 256 bytes; a fault carries the bytes written before it (R324, R383). -/
def writeMemRow (c : CoreId) (owner : Tag) (va : Word) (isVa : Bool) : Nat → Nat → List Byte → Perf → M Perf
  | 0, _, _, p => pure p
  | fuel + 1, la, bs, p =>
    if bs.isEmpty then pure p
    else do
      match ← attempt (writeGranule c owner la (bs.take 256) va p) with
      | .error f =>
        throw (.fault { f with perf := some p })
      | .ok p' => writeMemRow c owner (if isVa then va + 256 else va) isVa fuel (la + 256) (bs.drop 256) p'

/-- Writing element row `j` of a destination operand (R324, R325, R327). -/
def writeRowTo (c : CoreId) (d : Dsc) (slot j b first : Nat) (f : Fmt) (r : Row) (p : Perf) : M Perf := do
  let s ← getState
  let k := s.core c
  let n := f.memBytes (dCols d)
  if inAcc d || inSpad d then
    if decide (p.pos + n ≤ p.resume) then pure (p.step n)
    else do
      let t := opCore c d
      if t = c then pure () else markWin (panelOf c) t
      if inAcc d then
        let vs := tabulate (dCols d) fun i => BitVec.ofNat 32 (natOfBytes (r.bytes.drop (4 * i) |>.take 4))
        modState fun s => s.onCore t fun k =>
          k.setAccRow (accPlace d j) vs
      else
        let q := placeOf k d slot j
        modState fun s => s.onCore t fun k => k.putSpadRow q.1 q.2 r
      pure (p.step n)
  else
    let bs := r.scales ++ r.bytes
    match dKind d with
    | 4 => do
      let la := dAddr d + j * dStride d
      if decide (p.pos + n ≤ p.resume) then pure (p.step n)
      else do
        check4 c la n 2
        writeMemRow c k.ctx 0 false (n / 256 + 1) la bs p
    | _ => do
      let va := addr5 k d b first n
      if decide (p.pos + n ≤ p.resume) then pure (p.step n)
      else do
        let la ← translate5 c b va n 2
        writeMemRow c (k.rbtOwner b) va true (n / 256 + 1) la bs p

/-! ## Parking (R361) -/

/-- Blocks of the current pass. -/
def Core.blocks (k : Core) : List Nat := List.range (min (k.hdrBlocks + 1) 32)

/-- A block's PARKED bit set. -/
def Core.park (k : Core) (b : Nat) : Core :=
  { k with passMem := vset k.passMem (8 * b) (k.rbt b 0 ||| 0x8000) }

/-- A row-level fault of an owner: every block of the owner is parked, with one record in a pass. -/
def parkOwner (c : CoreId) (unit : BitVec 3) (strm : BitVec 3) (rword : BitVec 13) (word : Word) (owner : Tag)
    (f : Flt) : M Unit := do
  let s ← getState
  let k := s.core c
  let mine := k.blocks.filter fun b => k.rbtOwner b == owner
  let fresh := mine.filter fun b => !k.rbtParked b
  let rows := (fresh.map k.rbtCount).sum
  modState fun s => s.onCore c fun k =>
    { (fresh.foldl Core.park k).pm 8 rows with
      parkedOwners := if k.parkedOwners.contains owner then k.parkedOwners else owner :: k.parkedOwners }
  if k.parkedOwners.contains owner then pure ()
  else
    appendFault (panelOf c)
      { pass := k.passId, owner := owner, unit := unit, cont := 1, block := BitVec.ofNat 6 (mine.headD 0),
        cls := f.cls, wv := true, core := c, strm := strm, rword := rword, laddr := f.laddr, d0 := f.d0,
        d1 := f.d1, word := word }

end Sys2Proof.Machine
end

