-- ==== Sys2Proof/Machine/Engine.lean ====
section
/-! DEFINITION. The running of one engine word (spec 04 R57 to R72, 16 R290, 17 R308, 18 R322, 23 R359 to R364,
24 R365 to R373, 25 R383, R384): the checks in their order, issue, perform, and completion. -/

namespace Sys2Proof.Machine

/-- A descriptor field of an engine word: its low bit, its descriptor, whether it is a source. -/
structure EOp where
  at0 : Nat
  num : Desc
  src : Bool
  deriving DecidableEq, Repr, Inhabited

/-- The descriptor fields of R215. -/
def src0 (d : Desc) : EOp := { at0 := 36, num := d, src := true }
def dst0 (d : Desc) : EOp := { at0 := 36, num := d, src := false }
def src1 (d : Desc) : EOp := { at0 := 32, num := d, src := true }
def src2 (d : Desc) : EOp := { at0 := 28, num := d, src := true }
def src3 (d : Desc) : EOp := { at0 := 24, num := d, src := true }

/-- The bits of the word that name descriptor field `at0`. -/
def opMask (at0 : Nat) (b : Bool) : Word := maskIf b at0 4

/-- Whether a word's effects may come after the step of its issue (R59, R166, log 43): never; all together; or one operation on a
line of memory after another. -/
inductive Later where
  | no | whole | lines
  deriving DecidableEq, Repr, Inhabited

/-- What an entry of spec 16 to 18 gives for an engine word. -/
structure EWord where
  strm : Strm
  hdr : Hdr
  ops : List EOp
  pass : Pass
  /-- an operation word (R290, R308, R322) -/
  op : Bool
  /-- the bits that offend: at decode (false) and at issue (true) -/
  check : Bool → State → CoreId → List Dsc → Word
  /-- a stall at issue beyond R71 -/
  stall : State → CoreId → List Dsc → Bool
  /-- a bank that breaks the bank groups (0x05) -/
  group : Core → List Dsc → Option Nat
  /-- banks named beyond the operands' own, each with its core (R418) -/
  more : State → CoreId → List Dsc → List (Nat × Nat)
  /-- what stands of a word that faults at issue (R300) -/
  spoil : State → CoreId → List Dsc → Core → Core
  /-- what the word takes at issue, once -/
  prep : Issued → M Issued
  later : State → CoreId → List Dsc → Later
  /-- the word's effects -/
  body : Issued → M Issued

/-! ## Formats in checks -/

/-- The encodings an operand's rows are known to take at decode (false) or at issue (true). -/
def State.encsOf (s : State) (issue : Bool) (c : CoreId) (d : Dsc) : List (BitVec 32) :=
  if inAcc d || (inSpad d && dFmt d == 0) then
    if !issue then []
    else if dKind d = 7 then (tabulate (dRows d) fun j => s.rowEnc c d 0 j).eraseDups
    else [s.opEnc c d 0]
  else [vget (s.core c).fmtSlot (dFmt d)]

/-- Every known format of an operand meets a condition. -/
def State.fmtAll (s : State) (issue : Bool) (c : CoreId) (d : Dsc) (p : Fmt → Bool) : Bool :=
  (s.encsOf issue c d).all fun e =>
    match Fmt.parse e with
    | some f => p f
    | none => false

/-- The kinds an operand slot takes. -/
def kindIn (d : Dsc) (ks : List Nat) : Bool := ks.contains (dKind d)

/-- A KIND 7 operand takes window 0 or 1 (R73). PROW and the rows of a word lie within the pass (R293). -/
def Core.passOk (k : Core) (p : Pass) (rows : Nat) : Bool :=
  match p with
  | none => true
  | some r => decide (r.toNat + rows ≤ k.hdrRows)

/-! ## Bobbins at issue (R71, R373) -/

/-- Slots of a bobbin that words in progress will advance or fill. -/
def heldSlots (prog : List Issued) (b : BitVec 5) : Nat :=
  (prog.map fun w => (w.deferred.map fun d =>
    match d with
    | .advance b' n => if b' = b then n else 0
    | _ => 0).sum).sum

/-- The stall of R71 for one operand. -/
def Core.bobStall (k : Core) (t : Strm) (o : EOp) (d : Dsc) : Bool :=
  dKind d == 2 &&
    (let b := vget k.bobbins (dBob d).toNat
     if o.src then b.filled == 0
     else decide (b.free ≤ (if t = .c then heldSlots (k.engine t).prog (dBob d) else 0)))

/-- The slot an operand uses (R71). -/
def Core.bobSlot (k : Core) (t : Strm) (o : EOp) (d : Dsc) : Nat :=
  if dKind d = 2 then
    let b := vget k.bobbins (dBob d).toNat
    if o.src then b.rptr
    else (b.wptr + (if t = .c then heldSlots (k.engine t).prog (dBob d) else 0)) % (b.count + 1)
  else 0

/-- The bobbin changes at completion that R71 gives. -/
def bobEnds (t : Strm) (ops : List EOp) (ds : List Dsc) : List Deferred :=
  (ops.zip ds).filterMap fun (o, d) =>
    if dKind d = 2 then
      if o.src then (if dAuto d then some (.release (dBob d) 1) else none)
      else if t = .c || dAuto d then some (.advance (dBob d) 1) else none
    else none

/-- An operation word's opcode is 0x10 or above (R217). -/
def Issued.isOp (w : Issued) : Bool := decide (0x10 ≤ (field w.word 40 8).toNat)

/-- The opcode of a word in progress. -/
def Issued.opcode (w : Issued) : Nat := (field w.word 40 8).toNat

/-- The engine takes one more word: an operation word where there is room, and none past a schedule (R290, R308, R322,
R332). -/
def Core.opRoom (k : Core) (t : Strm) (op entry : Bool) : Bool :=
  let prog := (k.engine t).prog.filter (·.isOp)
  match t with
  | .c => (!op || decide (prog.length < 8)) && (entry || k.sched.isNone)
  | .v => !op || prog.isEmpty
  | _ => true

/-! ## Faults -/

/-- PASSID as a word captures it at issue: 0 outside a pass (R354). -/
def Core.passNow (k : Core) : BitVec 32 := if k.current then k.passId else 0

/-- The record of an engine word. -/
def engRec (c : CoreId) (t : Strm) (w : Issued) (cont : BitVec 2) (f : Flt) : Rec :=
  { pass := w.pass, owner := w.ctx, unit := BitVec.ofNat 3 t.code, cont := cont, block := 63, cls := f.cls, wv := true,
    core := c, strm := BitVec.ofNat 3 t.code, rword := w.rword, laddr := f.laddr, d0 := f.d0, d1 := f.d1,
    word := w.word }

/-- The engine of a stream halts. -/
def Core.haltEngine (k : Core) (t : Strm) (h : Halt) : Core :=
  k.setEngine t { k.engine t with halt := some h }

/-- A fault of the word at the head: it has not issued (R359, R366). -/
def State.headFault (s : State) (c : CoreId) (t : Strm) (w : Issued) (f : Flt) : State :=
  (also (appendFault (panelOf c) (engRec c t w 0 f)) s).onCore c fun k =>
    k.haltEngine t (if w.entry.isSome then .entry w.word else .head)

/-- A fault at a place in the word's order; classes 0x12 and 0x13 report the bytes written (R355, R383). -/
def Flt.atPerf (f : Flt) (p : Perf) : Flt :=
  { f with perf := some p, d1 := if f.cls == 0x12 || f.cls == 0x13 then w64 p.done else f.d1 }

/-- The words that take the accumulator shadow at issue, and whose retry takes it again from their start (R294, R364): MMA, GMMA
and SMMA. -/
def Issued.shadows (w : Issued) (t : Strm) : Bool := t == .m && decide (0x11 ≤ w.opcode) && decide (w.opcode ≤ 0x13)

/-- A fault of a word at perform that no row of a pass contains (R359, R364, R384). The word goes on from R_off, where the LFSR
stands then; one that runs from its start again finds the LFSR as at its issue. -/
def State.performFault (s : State) (c : CoreId) (t : Strm) (w : Issued) (f : Flt) : State :=
  let wide := wireClass f.cls
  let cont : BitVec 2 := if wide && (t != .c || w.pass != 0) then 2 else 0
  let p := f.perf.getD { (default : Perf) with done := w.resume, pos := w.resume }
  let f := if f.perf.isNone then f.atPerf p else f
  let s := also (appendFault (panelOf c) (engRec c t w cont f)) s
  let again := w.shadows t
  let w' := { w with resume := if again then 0 else p.pos, pending := w.pending + p.sent, ops := [], lines := [],
                     own := if again && w.own.isSome then some w.lfsr0 else w.own }
  let s := s.onCore c fun k =>
    let k := if again && w.own.isNone then k.setEngine t { k.engine t with lfsr := w.lfsr0 } else k
    k.haltEngine t (.performed w')
  if wide then s.raiseWire c else s

/-! ## Issue and perform -/

/-- The engine loads its LFSR before the word that issues; one with effects still to come goes on from the state it had (R93). -/
def Core.reloadLfsr (k : Core) (t : Strm) : Core :=
  let e := k.engine t
  if e.reload then
    k.setEngine t { e with lfsr := lfsrSeed k.srSeed, reload := false
                           prog := e.prog.map fun w => { w with own := some (w.own.getD e.lfsr) } }
  else k

/-- A latch copies the shadow descriptors that a word names to the live ones (R72). -/
def latch (ops : List EOp) (ds : List Dsc) (live : Vector Dsc 16) : Vector Dsc 16 :=
  (ops.zip ds).foldl (fun v e => vset v e.1.num.toNat e.2) live

/-- The word as it issues. -/
def Core.issuedWord (k : Core) (t : Strm) (e : EWord) (w : Word) (ds : List Dsc) (entry : Option Nat)
    (banks : List (Nat × Nat)) : Issued :=
  let at0 := match entry, k.sched with
    | some _, some g => (g.abs, g.rword)
    | _, _ => ((k.engine t).issued, k.headWord t)
  { word := w, abs := at0.1, rword := at0.2, pass := k.passNow, ctx := k.ctx, dscs := ds,
    slots := (e.ops.zip ds).map fun x => k.bobSlot t x.1 x.2,
    banks := banks, bobbins := ds.flatMap namedBobs,
    readsPass := e.pass.isSome || ds.any fun d => dKind d == 5,
    entry := entry, popped := none, resume := 0, deferred := [], pending := 0,
    lfsr0 := ((k.reloadLfsr t).engine t).lfsr, todo := false, retry := none, ops := [], lines := [], own := none, env := none, res := [] }

/-- The word leaves the head of its stream (R59, R72). -/
def Core.takeHead (k : Core) (t : Strm) (e : EWord) (ds : List Dsc) : Core :=
  let g := k.engine t
  k.setEngine t { g with buf := g.buf.tail, live := latch e.ops ds g.live, issued := g.issued + 1 }

/-- A word enters the engine's words in progress. -/
def Core.addProg (k : Core) (t : Strm) (w : Issued) : Core :=
  let g := k.engine t
  k.setEngine t { g with prog := g.prog ++ [w] }

/-- Core counters of issued operation words (R201). -/
def Core.pmIssue (k : Core) (t : Strm) (op : Bool) : Core :=
  if !op then k
  else match t with
    | .m => k.pm 2 1
    | .v => k.pm 4 1
    | _ => k

/-- The issue of an operation word is kept for eight cycles (R198). -/
def Core.noteIssue (k : Core) (t : Strm) (op : Bool) (cycle : Nat) : Core :=
  let g := k.engine t
  if op then k.setEngine t { g with recent := cycle :: g.recent.filter fun r => r != cycle && decide (cycle < r + 8) } else k

/-- At throttle level L an M or V engine issues operation words in at most 8 - L of every eight cycles (R198). -/
def Core.throttled (k : Core) (t : Strm) (level : BitVec 3) (cycle : Nat) : Bool :=
  let r := (k.engine t).recent
  (t == .m || t == .v) && level != 0 && !r.contains cycle &&
    decide (8 ≤ (r.filter fun x => decide (cycle < x + 8)).length + level.toNat)

/-- What a word keeps from its issue where effects are still to come (R86, R90). -/
def State.envOf (s : State) (c : CoreId) (ds : List Dsc) : Env :=
  let k := s.core c
  { fmtSlot := k.fmtSlot, round := k.round, bankFmt := k.bankFmt
    modes := ((ds.filter inAcc).map fun d => ((opCore c d).toNat, (s.core (opCore c d)).accMode)).eraseDups }

/-- The formats that a word sees: those it keeps from its issue. -/
def State.withEnv (s : State) (c : CoreId) (e : Env) : State :=
  let s := s.onCore c fun k => { k with fmtSlot := e.fmtSlot, round := e.round, bankFmt := e.bankFmt }
  e.modes.foldl (fun s m => s.onCore (BitVec.ofNat 10 m.1) fun k => { k with accMode := m.2 }) s

/-- An action of a word in what it keeps from its issue: its formats and its own LFSR. -/
def inWord {α : Type} (c : CoreId) (t : Strm) (w : Issued) (act : M α) : M (α × Option (BitVec 32)) := fun s =>
  let out := s.envOf c w.dscs
  let q := ((s.core c).engine t).lfsr
  let s := match w.env with
    | some e => s.withEnv c e
    | none => s
  let s := match w.own with
    | some l => s.onCore c fun k => k.setEngine t { k.engine t with lfsr := l }
    | none => s
  let back (s : State) : State :=
    let s := if w.env.isSome then s.withEnv c out else s
    if w.own.isSome then s.onCore c fun k => k.setEngine t { k.engine t with lfsr := q } else s
  match act s with
  | .ok a s' => .ok (a, w.own.map fun _ => ((s'.core c).engine t).lfsr) (back s')
  | .error e s' => .error e (back s')

/-- A word's effects, all of them or as far as a step's line operations reach: what is still to be performed stays with the
word. -/
def runBody (c : CoreId) (t : Strm) (body : Issued → M Issued) (w : Issued) (n : Option Nat) : M Issued := fun s =>
  let logs := n.isSome || !w.ops.isEmpty
  let start := if logs then s.onMem fun m => { m with opLog := some { replay := w.ops, made := w.ops, left := n } } else s
  let done (t : State) : State := if logs then t.onMem fun m => { m with opLog := s.mem.opLog } else t
  match inWord c t w (body w) start with
  | .ok (w', q) s' => .ok { w' with todo := false, ops := [], lines := [], own := q } (done s')
  | .error (.pause p) s' =>
    let p := p.getD { (default : Perf) with pos := w.resume, lines := w.lines }
    .ok { w with todo := true, resume := p.pos, lines := p.lines, ops := (s'.mem.opLog.map (·.made)).getD [] } (done s')
  | .error e s' => .error e (done s')

/-- How many line operations a word makes in this step: none where it performs its effects whole. -/
def State.opsNow (s : State) (e : EWord) (c : CoreId) (ds : List Dsc) : Option Nat :=
  match s.lineOps, e.later s c ds with
  | some n, .lines => some n
  | some 0, .whole => some 0
  | _, _ => none

/-- Running a word's effects and placing it among the words in progress; `back` is the state of a step in which nothing
happened. A word whose step makes no line operation is placed there with all of them to come. -/
def perform (e : EWord) (c : CoreId) (w : Issued) (s back : State) : Out :=
  let n := s.opsNow e c w.dscs
  let w := { w with todo := true, env := if n.isSome then some (w.env.getD (s.envOf c w.dscs)) else w.env }
  let place (s : State) (w : Issued) : Out := .next (((s.undrain c e.strm).onCore c fun k => k.addProg e.strm w).endLate c)
  if n = some 0 then place s w
  else
    match runBody c e.strm e.body w n s with
    | .ok w' s' => place s' w'
    | .error (.fault f) s' => .next (((s'.undrain c e.strm).performFault c e.strm w f).endLate c)
    | .error (.drain d p) _ => .next (back.addDrain c e.strm d p)
    | .error (.halt f) _ => .fault f
    | .error _ _ => .next back

/-- The checks at decode (R365, R369, R370): the fault of the first class broken (R367). -/
def decodeFault (s : State) (c : CoreId) (bad : Word) (e : EWord) (ds : List Dsc) : Option Flt :=
  let k := s.core c
  let os := e.ops.zip ds
  let fold (p : Dsc → Bool) : Word := os.foldl (fun m x => m ||| opMask x.1.at0 (p x.2)) 0
  let resv := fold dscReserved
  let m := bad ||| k.clauseBad e.hdr ||| fold (fun d => !s.dscOk c d) ||| e.check false s c ds
  if resv ≠ 0 then some { cls := 0x02, laddr := 0, d0 := resv, d1 := 0 }
  else if m ≠ 0 then some { cls := 0x04, laddr := 0, d0 := m, d1 := 0 }
  else none

/-- The checks at issue but that of the signal (R365, R367). -/
def issueFault (s : State) (c : CoreId) (e : EWord) (ds : List Dsc) : Option Flt :=
  let k := s.core c
  let os := e.ops.zip ds
  let m := os.foldl (fun m x => m ||| opMask x.1.at0 (!s.bankFmtsOk c x.2)) 0 ||| e.check true s c ds
  if m ≠ 0 then some { cls := 0x04, laddr := 0, d0 := m, d1 := 0 }
  else
    match (ds.flatMap (s.namedBanks c) ++ e.more s c ds).find? fun b => !vget (s.core (BitVec.ofNat 10 b.1)).owner b.2 with
    | some b => some { cls := 0x06, laddr := 0, d0 := w64 b.2, d1 := 0 }
    | none => (e.group k ds).map fun b => { cls := 0x05, laddr := 0, d0 := w64 b, d1 := 0 }

/-- One turn of an engine word at its head, or of a schedule entry (`entry`), with the descriptors it latches. -/
def tryWord (w bad : Word) (e : EWord) (ds : List Dsc) (entry : Option Nat) (s : State) : Out :=
  let c := s.cur
  let k := s.core c
  let t := e.strm
  let banks := ds.flatMap (s.namedBanks c) ++ e.more s c ds
  let w0 := k.issuedWord t e w ds entry banks
  match decodeFault s c bad e ds with
  | some f => .next (s.headFault c t w0 f)
  | none =>
    if !(entry.isSome || s.dueOk k t) then .next s
    else if !k.opRoom t e.op entry.isSome || (e.op && k.throttled t s.power.level s.cycle) then .next s
    else
      match k.passWait e.hdr.wait with
      | none => .next s
      | some k1 =>
        if (e.ops.zip ds).any (fun x => k.bobStall t x.1 x.2) || e.stall s c ds then .next s
        else
          match issueFault s c e ds with
          | some f => .next ((s.onCore c (e.spoil s c ds)).headFault c t w0 f)
          | none =>
            match k1.issueSig e.hdr.sig with
            | .error old => .next (s.headFault c t w0 { cls := 0x07, laddr := 0, d0 := old, d1 := 1 })
            | .ok k2 =>
              let k3 := ((k2.reloadLfsr t).pmIssue t e.op).noteIssue t e.op s.cycle
              let k4 := match entry with
                | some n => { k3 with sched := k3.sched.map fun g => { g with next := n + 1, held := none } }
                | none => k3.takeHead t e ds
              match e.prep w0 (s.setCore c k4) with
              | .ok w1 s1 => perform e c w1 s1 s
              | .error _ _ => .next s

/-- Running the word at the head of an engine. -/
def runE (i : Instr) (e : EWord) (s : State) : Out :=
  let k := s.core s.cur
  tryWord (encodeWord i) (badOperands i) e (e.ops.map fun o => vget (k.engine e.strm).shadow o.num.toNat) none s

/-! ## Parts of entries -/

def noCheck (_ : Bool) (_ : State) (_ : CoreId) (_ : List Dsc) : Word := 0
def noStall (_ : State) (_ : CoreId) (_ : List Dsc) : Bool := false
def noGroup (_ : Core) (_ : List Dsc) : Option Nat := none
/-- The effects of a word that come at one time, at its issue or later (R59, log 43). -/
def wholeLater (_ : State) (_ : CoreId) (_ : List Dsc) : Later := .whole

def noMore (_ : State) (_ : CoreId) (_ : List Dsc) : List (Nat × Nat) := []

/-- A word with no operands and no effect but its wait and signal (R217). -/
def nopWord (t : Strm) (h : Hdr) : EWord :=
  { strm := t, hdr := h, ops := [], pass := none, op := false, check := noCheck, stall := noStall, group := noGroup,
    more := noMore, spoil := fun _ _ _ k => k, prep := pure, later := fun _ _ _ => .no, body := pure }

/-- DSET (R72, R216): one quarter of a shadow descriptor. -/
def putQuarter (d : Dsc) (q : BitVec 2) (v : BitVec 32) : Dsc :=
  let sh := 32 * q.toNat
  (d &&& ~~~((BitVec.allOnes 128 >>> 96) <<< sh)) ||| (v.setWidth 128 <<< sh)

def dsetWord (t : Strm) (h : Hdr) (o : DsetOp) : EWord :=
  { nopWord t h with
    body := fun w => do
      modCore fun k =>
        let g := k.engine t
        k.setEngine t { g with shadow := vset g.shadow o.d.toNat (putQuarter (vget g.shadow o.d.toNat) o.q o.value) }
      pure w }

/-- The descriptors of a word in progress by position. -/
def Issued.dsc (w : Issued) (i : Nat) : Dsc := w.dscs.getD i 0
def Issued.slot (w : Issued) (i : Nat) : Nat := w.slots.getD i 0

/-- A row's own access: a fault of R361's classes under PT = 1 parks the owner of the row's block and leaves the row
out; any other fault ends the word. -/
def ownRow {α : Type} (c : CoreId) (t : Strm) (w : Issued) (p : Pass) (b : Nat) (act : M α) : M (Option α) := do
  match ← attempt act with
  | .ok a => pure (some a)
  | .error f =>
    if p.isSome && wireClass f.cls then
      let s ← getState
      parkOwner c (BitVec.ofNat 3 t.code) (BitVec.ofNat 3 t.code) w.rword w.word ((s.core c).rbtOwner b) f
      pure none
    else throw (.fault f)

/-- Engine `t`'s LFSR. -/
def engLfsr (c : CoreId) (t : Strm) : M (BitVec 32) := do
  let s ← getState
  pure ((s.core c).engine t).lfsr

def setLfsr (c : CoreId) (t : Strm) (q : BitVec 32) : M Unit :=
  modState fun s => s.onCore c fun k => k.setEngine t { k.engine t with lfsr := q }

/-- The mode of a converting word (R90): ROUND is read when the word issues. -/
def engMode (c : CoreId) (rnd : BitVec 3) : M Mode := do
  let s ← getState
  pure (modeOf rnd (s.core c).round)

/-- The values of element row `j` of a source operand. An element of class 8 is a byte that no operation interprets (R87): the
spec states no value for it, so it is a free value (log 64). -/
def readVals (c : CoreId) (d : Dsc) (slot j b first : Nat) : M (List Val) := do
  let (r, enc) ← readRow c d slot j b first
  match Fmt.parse enc with
  | some f =>
    if f.elem = .raw then (List.range (dCols d)).mapM fun _ => do pure (val32 (field (← freeWord) 0 32))
    else pure (r.values f (dCols d))
  | none => raise 0x04 0 0 0

/-- A row skipped at a retry, whose bytes stand before R_off (R384). -/
def skipRow (n : Nat) (p : Perf) : Bool := decide (0 < n) && decide (p.pos + n ≤ p.resume)

/-- Values converted into element row `j` of a destination; the LFSR steps once the row is written (R91, R93, R95). The
spec states no value for a result in a format of class 8, which no operation interprets (R87): free bytes (log 64). A KIND 3
destination in MODE 0 receives the value unchanged (R309). -/
def writeVals (c : CoreId) (t : Strm) (d : Dsc) (slot j b first : Nat) (mode : Mode) (sat : Bool) (vs : List Val)
    (p : Perf) : M Perf := do
  let s ← getState
  match Fmt.parse (s.rowEnc c d slot j) with
  | none => raise 0x04 0 0 0
  | some f =>
    let n := f.memBytes (dCols d)
    if skipRow n p then pure (p.step n)
    else
      let sat := sat && !(dKind d == 3 && f.elem == .flt fp32F)
      let (r, q) := writeRow f mode sat vs (← engLfsr c t)
      let free ← if f.elem = .raw then freeBytes (f.elem.rowBytes (dCols d)) else pure r.bytes
      let r : Row := { r with bytes := free }
      let p' ← writeRowTo c d slot j b first f r p
      setLfsr c t q
      pure p'

/-- No bytes written yet. -/
def perf0 : Perf := { done := 0, pos := 0, sent := 0, resume := 0, lines := [] }

/-- Where a word starts, or a retry goes on. -/
def Issued.start (w : Issued) : Perf := { perf0 with resume := w.resume, lines := w.lines }

/-- One row after another, from what is written to what is written then; a word that stops between line operations goes on at the
row it has stopped in. -/
def copyRows (n : Nat) (f : Nat → Perf → M Perf) (p : Perf) : M Perf :=
  (List.range n).foldlM (fun p i => fun s =>
    match (do newRow; f i p : M Perf) s with
    | .error (.pause q) s' => .error (.pause (some { p with lines := (q.map (·.lines)).getD p.lines })) s'
    | r => r) p

/-- An action whose fault stands at a place in the word's order. -/
def atPlace {α : Type} (p : Perf) (act : M α) : M α := do
  match ← attempt act with
  | .ok a => pure a
  | .error f => throw (.fault (f.atPerf p))

/-- The bytes of element row `i` of a destination in the word's order. -/
def State.rowBytes (s : State) (c : CoreId) (d : Dsc) (slot i : Nat) : Nat :=
  match Fmt.parse (s.rowEnc c d slot i) with
  | some f => f.memBytes (dCols d)
  | none => 0

/-- The element rows of a destination that stand before an offset in the word's order. -/
def State.rowsBefore (s : State) (c : CoreId) (d : Dsc) (slot off : Nat) : Nat :=
  ((List.range (dRows d)).foldl (fun (x : Nat × Nat) i =>
    let at1 := x.2 + s.rowBytes c d slot i
    (if at1 ≤ off then i + 1 else x.1, at1)) (0, 0)).1

/-- One row of an M or V word with `n` destination bytes: passed over where it stands before R_off or is parked; read, and
written unless it is parked by then; a fault of the row's own parks its owner (R361, R383, R384). -/
def oneRow {α : Type} (c : CoreId) (t : Strm) (w : Issued) (pass : Pass) (parked : M Bool) (b n : Nat) (read : M α)
    (write : α → Perf → M Perf) (p : Perf) : M Perf := do
  if skipRow n p then pure (p.step n)
  else if ← parked then pure (p.pass n)
  else
    match ← ownRow c t w pass b (atPlace p read) with
    | none => pure (p.pass n)
    | some a =>
      if ← parked then pure (p.pass n)
      else
        match ← ownRow c t w pass b (atPlace p (write a p)) with
        | none => pure (p.pass n)
        | some q => pure q

/-- Doing something for 0 .. n - 1 in order. -/
def forRows (n : Nat) (f : Nat → M Unit) : M Unit := (List.range n).forM f

/-- The state of a row's PARKED bit now. -/
def parkedNow (c : CoreId) (p : Pass) (i : Nat) : M Bool := do
  let s ← getState
  pure ((s.core c).rowParked p i)

/-! ## Completion -/

/-- One bobbin change, `n` times; the number left when one is refused. -/
def bobTimes (f : Bobbin → Option Bobbin) : Nat → Bobbin → Bobbin × Nat
  | 0, b => (b, 0)
  | n + 1, b =>
    match f b with
    | some b' => bobTimes f n b'
    | none => (b, n + 1)

/-- A word in progress leaves the engine. -/
def Core.dropProg (k : Core) (t : Strm) (i : Nat) : Core :=
  let g := k.engine t
  k.setEngine t { g with prog := listDrop g.prog i }

/-- A word of the copy engine in progress changed. -/
def Core.onProg (k : Core) (w : Issued) (f : Issued → Issued) : Core :=
  k.setEngine .c { k.c with prog := k.c.prog.map fun x => if x.abs = w.abs && x.entry = w.entry then f x else x }

/-- What a word's completion does, one part at a time: the parts that still wait, and the bobbin changes that are refused,
each with the bobbin's state (R373). A refused change keeps back no other part. -/
def runDeferred (fillSlot : BitVec 2 → BitVec 3 → Nat → Issued → M Unit) (c : CoreId) :
    List Deferred → Issued → M (List Deferred × List (Deferred × Word))
  | [], _ => pure ([], [])
  | d :: ds, w => do
    let k := (← getState).core c
    let put (b : BitVec 5) (x : Bobbin) : M Unit :=
      modState fun s => s.onCore c fun k => { k with bobbins := vset k.bobbins b.toNat x }
    match d with
    | .release b n =>
      let (x, left) := bobTimes Bobbin.rel n (vget k.bobbins b.toNat)
      put b x
      let r ← runDeferred fillSlot c ds w
      pure (if left = 0 then r else (r.1, (.release b left, x.stateWord) :: r.2))
    | .advance b n =>
      let (x, left) := bobTimes Bobbin.adv n (vget k.bobbins b.toNat)
      put b x
      let r ← runDeferred fillSlot c ds w
      pure (if left = 0 then r else (r.1, (.advance b left, x.stateWord) :: r.2))
    | .setStage st g =>
      modState fun s => s.onCore c fun k => { k with stages := vset k.stages st.toNat (some g) }
      runDeferred fillSlot c ds w
    | .pushMeta q bytes =>
      modState fun s => s.onCore c fun k =>
        let m := vget k.metaQ q.toNat
        { k with metaQ := vset k.metaQ q.toNat { m with entries := m.entries ++ [bytes] } }
      runDeferred fillSlot c ds w
    | .linkLost => do
      modState fun s => s.onCore c fun k => k.onProg w fun x => { x with deferred := [], todo := true, resume := 0 }
      raise 0x11 0 0 (field (← freeWord) 0 3 |>.setWidth 64)
    | .fill win rnd =>
      match vget k.windows win.toNat with
      | none => runDeferred fillSlot c ds w
      | some v =>
        if (vget k.bobbins (dBob v.dst).toNat).free = 0 then pure (d :: ds, [])
        else
          match ← attempt (inWord c .c w (fillSlot win rnd ds.length w)) with
          | .error f => do
            modState fun s => s.onCore c fun k => k.onProg w fun x => { x with deferred := d :: ds, own := w.own }
            throw (.fault f)
          | .ok (_, q) => do
            modState fun s => s.onCore c fun k => k.onProg w fun x => { x with own := q }
            runDeferred fillSlot c ds { w with own := q, resume := 0 }

/-- The words of a stream in progress that a completion of word `i` waits for: an earlier push to the same metadata queue
(R334), the entries of a schedule (R332), answers still to come. -/
def Core.mayComplete (k : Core) (t : Strm) (i : Nat) (w : Issued) : Bool :=
  let before := (k.engine t).prog.take i
  let metaOk := w.deferred.all fun d =>
    match d with
    | .pushMeta q _ => !before.any fun x => x.deferred.any fun e =>
        match e with
        | .pushMeta q' _ => q' == q
        | _ => false
    | _ => true
  let schedOk := t != .c || w.opcode != 0x1A ||
    (match k.sched with
     | none => true
     | some g => decide (dRows g.table ≤ g.next) && !k.c.prog.any (·.entry.isSome) &&
         (match k.c.halt with
          | some (.performed x) | some (.addition _ _ x) | some (.remote _ _ x) | some (.change _ _ x) => x.entry.isNone
          | some (.entry _) => false
          | some .head | none => true))
  !w.todo && w.pending == 0 && metaOk && schedOk

/-- The completion-time signal of a word whose stream halts at something else: where it is refused, the flag word and the
amount; it is made with the rest of the halt (R372). -/
def State.engTrySignal (s : State) (c : CoreId) (w : Issued) : Except (Word × Word) State :=
  let k := s.core c
  match k.completionSig (getSig w.word) with
  | none => .ok s
  | some (v, n) =>
    match k.addFlag v n with
    | .ok k' => .ok (s.setCore c k')
    | .error old => .error (old, w64 n)

/-- The completion-time signal of an engine word; a refusal halts the stream at the addition (R58, R371). -/
def State.engSignal (s : State) (c : CoreId) (t : Strm) (w : Issued) : State × Bool :=
  let k := s.core c
  match k.completionSig (getSig w.word) with
  | none => (s, true)
  | some (v, n) =>
    match k.addFlag v n with
    | .ok k' => (s.setCore c k', true)
    | .error old =>
      ((also (appendFault (panelOf c) (engRec c t w 0 { cls := 0x07, laddr := 0, d0 := old, d1 := w64 n })) s).onCore c
        fun k => k.haltEngine t (.addition v (BitVec.ofNat 16 n) w), false)

/-- The completion of word `i` among the words in progress of an engine. While the stream is halted, a completion that
would fault waits (R359, R377). -/
def completeWord (fillSlot : BitVec 2 → BitVec 3 → Nat → Issued → M Unit) (c : CoreId) (t : Strm) (i : Nat) (s : State) :
    Out :=
  let k := s.core c
  let halted := (k.engine t).halt.isSome
  match (k.engine t).prog[i]? with
  | none => .next s
  | some w =>
    if !k.mayComplete t i w then .next s
    else
      match runDeferred fillSlot c w.deferred w s with
      | .ok ([], []) s' =>
        let s' := (s'.undrain c t).onCore c fun k =>
          let k := k.dropProg t i
          if t = .c && w.opcode == 0x1A then { k with sched := none } else k
        match s'.engSignal c t w with
        | (s'', true) => .next (s''.endLate c)
        | (s'', false) => if halted then .next s else .next s''
      | .ok ([], (d, old) :: more) s' =>
        if halted then .next s
        else
          let left := d :: more.map (·.1)
          let stop (f : Flt) (signal : Bool) (s : State) : Out :=
            .next ((also (appendFault (panelOf c) (engRec c t w 0 f)) s).onCore c fun k =>
              (k.dropProg t i).haltEngine t (.change left signal { w with deferred := left }))
          match s'.engTrySignal c w with
          | .ok s'' => stop { cls := 0x09, laddr := 0, d0 := old, d1 := 0 } false s''
          | .error (f, n) => stop { cls := 0x07, laddr := 0, d0 := f, d1 := n } true s'
      | .ok (left, refused) s' =>
        .next ((s'.undrain c t).onCore c fun k =>
          let g := k.engine t
          k.setEngine t { g with prog := listSet g.prog i { g.prog.getD i w with deferred := left ++ refused.map (·.1) } })
      | .error (.fault f) s' =>
        if halted then .next s
        else
          let w' := ((s'.core c).engine t).prog.getD i w
          .next (((s'.undrain c t).onCore c fun k => k.dropProg t i).performFault c t w' f)
      | .error (.drain d p) _ => .next (s.addDrain c t d p)
      | .error (.halt f) _ => .fault f
      | .error _ _ => .next s

/-- A word in progress goes on with its effects: the rest of them, or as many line operations as the step makes (R166). While the
stream is halted, what would fault waits (R359, R377). -/
def goOn (e : EWord) (body : Issued → M Issued) (c : CoreId) (i : Nat) (s : State) : Out :=
  let t := e.strm
  match ((s.core c).engine t).prog[i]? with
  | none => .next s
  | some w =>
    let n := s.opsNow e c w.dscs
    if n = some 0 then .next s
    else
      match runBody c t body w n s with
      | .ok w' s' =>
        .next (((s'.undrain c t).onCore c fun k => k.setEngine t { k.engine t with prog := listSet (k.engine t).prog i w' }).endLate c)
      | .error (.fault f) s' =>
        if ((s.core c).engine t).halt.isSome then .next s
        else .next ((((s'.undrain c t).onCore c fun k => k.dropProg t i).performFault c t w f).endLate c)
      | .error (.drain d p) _ => .next (s.addDrain c t d p)
      | .error (.halt f) _ => .fault f
      | .error _ _ => .next s

end Sys2Proof.Machine
end

