-- ==== Sys2Proof/Machine/Fetch.lean ====
section
/-! DEFINITION. What a stream does in its turn: the traps that come before its head word, the conditions under which it
issues nothing, and the word it fetches (spec 02 R27, 04 R63 to R66, R79, R80, 23 R359, 24 R365 to R369, 26 R396,
R400). -/

namespace Sys2Proof.Machine

/-- A word of the ring banks (R63). -/
def Core.ringWord (k : Core) (w : BitVec 13) : Word := wordOf (bytesAt k.spad (720896 + 8 * w.toNat) 8)

/-- The word at the head of a stream (R65, R265). DEDUCED, unsafe (log 147): of a word of the A or X ring that an STS has rewritten
the unit runs the new one. An engine word that failed its check is read again. -/
def Core.headOf (k : Core) (t : Strm) : Option Word :=
  match t with
  | .a =>
    if k.priv then some ((mapGet k.handler k.handlerPos).getD 0)
    else if k.hasHead .a then some (k.ringWord (k.headWord .a)) else none
  | .x => if k.hasHead .x then some (k.ringWord (k.headWord .x)) else none
  | t => ((k.engine t).buf.head?).map fun e =>
      if (k.engine t).bad.contains e.1 then k.ringWord ((k.ring t).wordIdx e.1.toNat) else e.2

/-- The place of a ring word in the scratchpad. -/
def ringOff (w : BitVec 13) : Nat := 720896 + 8 * w.toNat

/-- The head word of a stream fails the check of its read (R163, R389): its place in the scratchpad. -/
def Core.headLost (k : Core) (t : Strm) : Option Nat :=
  let off := ringOff (k.headWord t)
  let read := match t with
    | .a => !k.priv && k.hasHead .a
    | .x => k.hasHead .x
    | t => ((k.engine t).buf.head?).any fun e => (k.engine t).bad.contains e.1
  if read && k.spadBad off 8 then some off else none

/-- The descriptor fields of an engine word (R215). Every instruction the match does not name has none. -/
def descFields : Instr → List (Nat × Desc)
  | .wload _ o => [(32, o.d1)]
  | .mma _ o => [(36, o.d0), (32, o.d1)] ++ (match o.b with
    | .desc d => [(28, d)]
    | .stage _ => [])
  | .gmma _ o => [(36, o.d0), (32, o.d1), (28, o.d2)]
  | .smma _ o => [(36, o.d0), (32, o.d1)] ++ (match o.b with
    | .desc d => [(28, d)]
    | .stage _ => [])
  | .aclr _ o => [(36, o.d0)]
  | .ald _ o | .ascl _ o => [(36, o.d0), (32, o.d1)]
  | .ast _ o | .vexp _ o | .vlog _ o | .vrcp _ o | .vrsq _ o | .vtanh _ o | .vgelu _ o | .vsilu _ o | .vabs _ o
  | .vcvt _ o | .vqmx _ o | .vdqmx _ o | .vrsum _ o | .vrmax _ o | .vcsum _ o | .vtrn _ o | .vtagsel _ o
  | .ccopy _ o | .cgath _ o | .cscat _ o => [(36, o.d0), (32, o.d1)]
  | .vadd _ o | .vsub _ o | .vmul _ o | .vmax _ o | .vmin _ o => [(36, o.d0), (32, o.d1), (28, o.d2)]
  | .vfma _ o => [(36, o.d0), (32, o.d1), (28, o.d2), (24, o.d3)]
  | .vbcast _ o => [(36, o.d0), (32, o.d1)]
  | .vepi _ o => [(36, o.d0), (32, o.d1)] ++ (match o.bias with
    | some d => [(28, d)]
    | none => [])
  | .cfill _ o => [(36, o.d0)]
  | .cmcast _ o => [(36, o.d0), (32, o.d1)]
  | .cwbind _ o => [(36, o.d0), (32, o.d1)]
  | .csched _ d => [(32, d)]
  | .cpfa _ o => [(36, o.d0), (32, o.d1)]
  | .cmeta _ o => [(32, o.d1)]
  | .clsend _ o => [(32, o.d)]
  | .clrecv _ o => [(36, o.d)]
  | .clred _ o => [(36, o.d0), (32, o.d1)]
  | _ => []

/-- The privileged words of the A unit (R217), CSRR and CSRW of a privileged register among them (R268). -/
def privOp (w : Word) : Bool :=
  let op := (field w 40 8).toNat
  op == 0x61 || (decide (0x64 ≤ op) && decide (op ≤ 0x6B)) ||
    (match decodeA w with
     | some (.csrr _ o) | some (.csrw _ o) => csrPriv o.n.toNat
     | _ => false)

/-- A word that has not issued, for a fault at its head. -/
def Core.unissued (k : Core) (t : Strm) (w : Word) : Issued :=
  { word := w, abs := (k.engine t).issued, rword := k.headWord t, pass := k.passNow, ctx := k.ctx, dscs := [],
    slots := [], banks := [], bobbins := [], readsPass := false, entry := none, popped := none, resume := 0, deferred := [],
    pending := 0, lfsr0 := 0, todo := false, retry := none, ops := [], lines := [], own := none, env := none, res := [] }

/-- A fault of a head word found at decode, on any stream. -/
def State.decodeStop (s : State) (t : Strm) (w : Word) (f : Flt) : State :=
  match t with
  | .a => s.aFault w f
  | .x => s.xFault w f
  | t => s.headFault s.cur t ((s.core s.cur).unissued t w) f

/-- A head word with reserved bits that are not zero (R367, R369): class 0x02, after class 0x03 of a privileged word, its
mask with the reserved bits of the descriptors it would latch. -/
def State.reservedFault (s : State) (t : Strm) (i : Instr) (w mask : Word) : State :=
  let k := s.core s.cur
  if t = .a && privOp w && !k.priv then s.decodeStop t w { cls := 0x03, laddr := 0, d0 := 0, d1 := 0 }
  else
    let ds := (descFields i).foldl
      (fun m e => m ||| opMask e.1 (dscReserved (vget (k.engine t).shadow e.2.toNat))) mask
    s.decodeStop t w { cls := 0x02, laddr := 0, d0 := ds, d1 := 0 }

/-- BUDGET_LEFT now (R52, R396). -/
def State.budgetNow (s : State) (k : Core) : BitVec 32 :=
  BitVec.ofNat 32 (k.budget.toNat - (s.cycle - k.budgetAt))

/-- The budget trap is due (R396). -/
def State.budgetDue (s : State) (k : Core) : Bool :=
  k.current && k.budgetArmed && s.budgetNow k == 0 && !k.priv && !k.finc && k.handover.isNone

/-- Where the A stream stands for R400: none, which it is while a word of it is in progress, ended, or at a SAFE at which it has stopped. -/
def Core.aStands (k : Core) : Option (Option (BitVec 16)) :=
  if !k.aMoves.isEmpty then none
  else if (k.ring .a).ended then (if k.ax.isEmpty && k.xa.isEmpty then some none else none)
  else
    match (k.headOf .a).map decodeA with
    | some (some (.aSafe _ n)) => if k.wdone then some (some n) else none
    | _ => if k.wdone then k.aSafe.map some else none

/-- Where the X stream stands for R400: nowhere while a word of it is in progress. DEDUCED, unsafe (log 137): without a section it
stands with the A stream, so that a core whose A stream has ended stands at the end of both (R27), with EXC_CAUSE 0x30000. -/
def Core.xStands (k : Core) : Option (Option (BitVec 16)) :=
  if !k.xProg.isEmpty then none
  else if !(k.ring .x).started && (k.ring .x).count == 0 then some none
  else if (k.ring .x).ended then (if k.ax.isEmpty && k.xa.isEmpty then some none else none)
  else
    match (k.headOf .x).map decodeX with
    | some (some (.xSafe h n)) =>
      if (k.passWait h.wait).isSome && k.xHalt.isNone then some (some n) else none
    | _ => none

/-- The safe point a core stands at: its number, or none where both streams have ended (R27, R400). -/
def Core.safePoint (k : Core) : Option (Option (BitVec 16)) :=
  match k.aStands, k.xStands with
  | some none, some none => some none
  | some (some n), some none => some (some n)
  | some none, some (some n) => some (some n)
  | some (some n), some (some m) => if n = m then some (some n) else none
  | _, _ => none

/-- The pre-emption entry is due (R400). -/
def Core.preemptDue (k : Core) : Bool :=
  k.preempt && !k.priv && !k.dead && !k.finc && k.handover.isNone && k.safePoint.isSome

/-- A stream of the core is halted at a word (R359). -/
def Core.haltedAt (k : Core) (t : Strm) : Bool := k.haltBits.getD t.code false

/-- What a stream does in its turn. -/
inductive Decision where
  | run (i : Instr)
  | out (o : Out)

/-- The turn of stream `t` of core `c`; `s` has `c` as its current core. -/
def turnOf (c : CoreId) (t : Strm) (s : State) : Decision :=
  let k := s.core c
  if k.dead || vget s.power.cluster (clusterOf c) != 0 then .out (.next s)
  else if t = .a && s.budgetDue k then .run (.budgetTrap c)
  else if t = .a && k.preemptDue then .run (.preemptEntry c)
  else if s.streamLate k t && !k.late then .run (.lateWordStall c t)
  else if (k.stall && !(t = .a && k.priv)) || k.haltedAt t then .out (.next s)
  else
    match k.headOf t with
    | none => .out (.next s)
    | some w =>
      match k.headLost t with
      | some off =>
        .out (.next (s.decodeStop t w { cls := 0x30, laddr := 0, d0 := 1, d1 := w64 (off / 4096 * 256 + off % 4096 / 64) }))
      | none =>
        match decodeWord t w with
        | .illegal => .run (.illegalWord t w)
        | .word i m => if m = 0 then .run i else .out (.next (s.reservedFault t i w m))

/-- Time passes: `n` cycles of the arithmetic clock, four to a nanosecond of fabric time (R3, R14, R15). -/
def State.advance (s : State) (n : Nat) : State :=
  let q := s.phase.toNat + n
  let r (p : Nat) : Nat := (vget s.repPhase p).toNat + n
  { s with cycle := s.cycle + n, phase := BitVec.ofNat 2 (q % 4), ft := s.ft + w64 (q / 4),
           ftRep := Vector.ofFn fun p => vget s.ftRep p.val + w64 (r p.val / 4),
           repPhase := Vector.ofFn fun p => BitVec.ofNat 2 (r p.val % 4) }

/-- The next turn and the state it is taken in: the head of the agenda, or where that is empty a free choice (log 1). -/
def State.nextTurn (s : State) : Turn × State :=
  match s.agenda with
  | t :: ts => (t, { s with agenda := ts })
  | [] => (Config.nextTurn s.turnNo, { s with turnNo := s.turnNo + 1 })

/-- An instruction that only a stream runs. -/
def streamOnly (i : Instr) : Bool :=
  i.hdr?.isSome || (match i with
    | .illegalWord _ _ => true
    | _ => false)

/-! ## Placing a word (for withFetchWord) -/

/-- A state whose next step runs a stream word on core 0, and nothing else (log 28). -/
def State.placeWord (s : State) (t : Strm) (w : Word) : State :=
  let k := s.core 0
  let turn : Turn := { cycles := 0, actor := .stream 0 t }
  let k' : Core :=
    match t with
    | .a | .x =>
      let r := k.ring t
      let r' : Ring := { r with started := true, ended := false, count := max r.count (r.fetch.toNat + 1) }
      let k1 := k.setRing t r'
      if t = .a && k.priv then { k with handler := mapPut k.handler k.handlerPos w }
      else { k1 with spad := setBytes k.spad (720896 + 8 * (k1.headWord t).toNat) (bytesOfW 8 w) }
    | t =>
      let g := k.engine t
      let p := match g.buf with
        | (p, _) :: _ => p
        | [] => (k.ring t).fetch
      k.setEngine t { g with buf := (p, w) :: g.buf.tail }
  { s with agenda := turn :: s.agenda, cores := mapPut s.cores 0 k' }

end Sys2Proof.Machine
end

