-- ==== Sys2Proof/Machine/AccessArith.lean ====
section
/-! DEFINITION. The access unit's arithmetic, branches, jumps, and time and counter reads (spec 13 R224 to R226, R235 to
R237, R243 to R245). -/

namespace Sys2Proof.Machine

/-! ## Arithmetic (R226) -/

/-- A_NOP: only the wait and signal bytes. -/
def execANop (h : Hdr) (s : State) : Out := runA (.aNop h) h false noBad (pure .next) s

/-- A_LI: ad := sext64(imm). -/
def execALi (h : Hdr) (o : LIOp) (s : State) : Out :=
  runA (.aLi h o) h false noBad (do wrA o.d (sext64 o.imm); pure .next) s

/-- A_LIH: ad := the immediate above the low half of ad. -/
def execALih (h : Hdr) (o : LIHOp) (s : State) : Out :=
  runA (.aLih h o) h false noBad (do
    let v ← rdA o.d
    wrA o.d (o.imm ++ field v 0 32)
    pure .next) s

/-- A word of two sources and one result. -/
def aBin (i : Instr) (h : Hdr) (d s1 s2 : Reg) (f : Word → Word → Word) (s : State) : Out :=
  runA i h false noBad (do
    let x ← rdA s1
    let y ← rdA s2
    wrA d (f x y)
    pure .next) s

/-- A word of one source and one result. -/
def aUn (i : Instr) (h : Hdr) (d s1 : Reg) (f : Word → Word) (s : State) : Out :=
  runA i h false noBad (do
    let x ← rdA s1
    wrA d (f x)
    pure .next) s

def execAAdd (h : Hdr) (o : RR3) (s : State) : Out := aBin (.aAdd h o) h o.d o.s1 o.s2 (· + ·) s
def execAAddi (h : Hdr) (o : RIOp) (s : State) : Out := aUn (.aAddi h o) h o.d o.s1 (· + sext64 o.imm) s
def execASub (h : Hdr) (o : RR3) (s : State) : Out := aBin (.aSub h o) h o.d o.s1 o.s2 (· - ·) s
def execAAnd (h : Hdr) (o : RR3) (s : State) : Out := aBin (.aAnd h o) h o.d o.s1 o.s2 (· &&& ·) s
def execAOr (h : Hdr) (o : RR3) (s : State) : Out := aBin (.aOr h o) h o.d o.s1 o.s2 (· ||| ·) s
def execAXor (h : Hdr) (o : RR3) (s : State) : Out := aBin (.aXor h o) h o.d o.s1 o.s2 (· ^^^ ·) s
def execShli (h : Hdr) (o : ShiftOp) (s : State) : Out := aUn (.shli h o) h o.d o.s1 (· <<< o.n.toNat) s
def execShri (h : Hdr) (o : ShiftOp) (s : State) : Out := aUn (.shri h o) h o.d o.s1 (· >>> o.n.toNat) s
def execLea (h : Hdr) (o : RR3K) (s : State) : Out :=
  aBin (.lea h o) h o.d o.s1 o.s2 (fun x y => x + (y <<< o.k.toNat)) s

/-! ## Branches and jumps (R214, R235 to R237) -/

/-- The word index of the A head in its section. -/
def Core.aIndex (k : Core) : Nat := if k.priv then k.handlerPos else (k.ring .a).fetch.toNat

/-- A branch target: index i + offset. -/
def aimAt (i : Nat) (off : Int) : Int := i + off

/-- A target inside a section of `n` words. -/
def inSection (n : Nat) (t : Int) : Bool := decide (0 ≤ t) && decide (t < n)

/-- The bits of the offset field where the target lies outside the A section (R374). -/
def badTargetA (bits : Nat) (off : Int) (k : Core) : Word :=
  maskIf (!inSection k.aCount (aimAt k.aIndex off)) 0 bits

/-- A conditional branch of the A unit. -/
def aBranch (i : Instr) (h : Hdr) (o : BOp) (taken : Word → Word → Bool) (s : State) : Out :=
  runA i h false (badTargetA 30 o.off.toInt) (do
    let k ← getCore
    let x ← rdA o.s1
    let y ← rdA o.s2
    pure (if taken x y then .goto (aimAt k.aIndex o.off.toInt).toNat else .next)) s

def execBeq (h : Hdr) (o : BOp) (s : State) : Out := aBranch (.beq h o) h o (· == ·) s
def execBne (h : Hdr) (o : BOp) (s : State) : Out := aBranch (.bne h o) h o (· != ·) s
def execBlt (h : Hdr) (o : BOp) (s : State) : Out := aBranch (.blt h o) h o BitVec.slt s
def execBge (h : Hdr) (o : BOp) (s : State) : Out := aBranch (.bge h o) h o (fun x y => !BitVec.slt x y) s

/-- A_JMP: ad := i + 2 where d is not 0, then on at i + offset. -/
def execAJmp (h : Hdr) (o : LIOp) (s : State) : Out :=
  runA (.aJmp h o) h false (badTargetA 35 o.imm.toInt) (do
    let k ← getCore
    wrA o.d (w64 (k.aIndex + 2))
    pure (.goto (aimAt k.aIndex o.imm.toInt).toNat)) s

/-- The word before index `t` of a section is a SAFE word of the stream with opcode `op` (R222). -/
def Core.afterSafe (k : Core) (t : Strm) (op i : Nat) : Bool :=
  decide (0 < i) && (field (k.ringWord ((k.ring t).wordIdx (i - 1))) 40 8).toNat == op

/-- A_JR to a target outside the section, or not directly after a SAFE word (R237), offends at decode, as far as its register is
there (R365). In the handler any of its words is a target (DEDUCED, log 46). -/
def jrBad (o : RR2) (k : Core) : Word :=
  maskIf ((k.seeA [o.s1]).any fun t => decide (k.aCount ≤ t.toNat) || !(k.priv || k.afterSafe .a 0x4D t.toNat)) 30 5

def execAJr (h : Hdr) (o : RR2) (s : State) : Out :=
  runA (.aJr h o) h false (jrBad o) (do
    let k ← getCore
    let t ← rdA o.s1
    wrA o.d (w64 (k.aIndex + 2))
    pure (.goto t.toNat)) s

/-! ## Time and counters (R243 to R245) -/

/-- A reading of the panel's fabric-time replica (R15, R243). -/
def readFt : M Word := do
  let s ← getState
  pure (s.ftOf (panelOf s.cur))

def execAFtrd (h : Hdr) (d : Reg) (s : State) : Out :=
  runA (.aFtrd h d) h false noBad (do wrA d (← readFt); pure .next) s

/-- The tick number of a domain at a reading (R244). -/
def tickOf (f origin period : Word) : Word :=
  if period = 0 then allOnes else if f.toNat < origin.toNat then 0 else w64 ((f.toNat - origin.toNat) / period.toNat)

/-- The tick domain of a context (R17). -/
def State.domOf (s : State) (t : Tag) : BitVec 3 := ((mapGet s.ctxs t.toNat).getD default).dom

def execTickrd (h : Hdr) (o : TickOp) (s : State) : Out :=
  runA (.tickrd h o) h false noBad (do
    let st ← getState
    let d := if o.ctxd then (st.domOf (st.core st.cur).ctx).toNat else o.dom.toNat
    let f ← readFt
    wrA o.d (tickOf f (vget st.tickOrigin d) (vget st.tickPeriod d))
    pure .next) s

/-- A core counter now: source 1 counts cycles (R201). -/
def pmRead (n : Nat) : M (BitVec 48) := do
  let s ← getState
  let k := s.core s.cur
  match (vget k.pmSel n).toNat with
  | 1 => pure (vget k.pmCnt n + BitVec.ofNat 48 (s.cycle - vget k.pmAt n))
  | _ => pure (vget k.pmCnt n)

def execPmrd (h : Hdr) (o : PmOp) (s : State) : Out :=
  runA (.pmrd h o) h false noBad (do
    let v ← pmRead o.n.toNat
    wrA o.d (v.setWidth 64)
    pure .next) s

end Sys2Proof.Machine
end

