-- ==== Sys2Proof/Machine/AccessSync.lean ====
section
/-! DEFINITION. The access unit's owner bits, rings, flags, bobbins, markers, fences, safe points, exceptions and CSRs
(spec 13 R238 to R242, 14 R250 to R257, R263, R266, R267). -/

namespace Sys2Proof.Machine

/-! ## Owner bits (R68, R238, R418) -/

/-- Words of an engine that have issued and not completed. -/
def Engine.unfinished (g : Engine) : List Issued :=
  g.prog ++ (match g.halt with
    | some (.performed w) => [w]
    | some (.remote _ _ w) => [w]
    | some (.change _ _ w) => [w]
    | _ => [])

/-- Words of a core's engines that have issued and not completed. -/
def Core.unfinished (k : Core) : List Issued := k.m.unfinished ++ k.v.unfinished ++ k.c.unfinished

/-- An issued engine word of any core names bank `b` of core `c`. -/
def State.bankNamed (s : State) (c : CoreId) (b : Nat) : Bool :=
  s.cores.any fun e => e.2.unfinished.any fun w => w.banks.contains (c.toNat, b)

/-- The owner bits of `n` banks from `b0` set to `v`. -/
def Core.setOwner (k : Core) (b0 n : Nat) (v : Bool) : Core :=
  { k with owner := (List.range n).foldl (fun o i => vset o (b0 + i) v) k.owner }

def execOwn (h : Hdr) (o : OwnOp) (s : State) : Out :=
  runA (.own h o) h false noBad (do
    let st ← getState
    let n := o.n1.toNat + 1
    stallIf (!o.v && (List.range n).any fun i => st.bankNamed st.cur (o.first.toNat + i))
    modCore fun k => k.setOwner o.first.toNat n o.v
    pure .next) s

/-! ## Engine rings (R240 to R242) -/

/-- Two rings overlap; a stream with SIZE below 4 has no ring (log 16). -/
def ringsMeet (b1 n1 : Nat) (r : Ring) : Bool :=
  decide (4 ≤ r.size.toNat) && decide (b1 < r.base.toNat + 2 ^ r.size.toNat) && decide (r.base.toNat < b1 + n1)

/-- The BASE field of a RINGSET that overlaps the ring of another stream. -/
def ringsetBad (o : RingSetOp) (k : Core) : Word :=
  maskIf ((List.range 5).any fun t => t != o.strm.toNat &&
    ringsMeet o.base.toNat (2 ^ o.size.toNat) (vget k.rings t)) 0 13

/-- The engine stream a 3-bit code names. -/
def engStream (c : BitVec 3) : Strm := if c = 2 then .m else if c = 3 then .v else .c

def execRingset (h : Hdr) (o : RingSetOp) (s : State) : Out :=
  runA (.ringset h o) h false (ringsetBad o) (do
    let k ← getCore
    let t := engStream o.strm
    let r := k.ring t
    stallIf (r.fetch != r.pub || !(k.engine t).buf.isEmpty)
    modCore fun k => k.setRing t { r with base := o.base, size := o.size, fetch := 0, pub := 0 }
    pure .next) s

/-- PUB after a publication of u (R241). -/
def raisePub (pub u : BitVec 32) : BitVec 32 :=
  let d := (u - pub).toNat
  if 1 ≤ d && decide (d < 2 ^ 31) then u else pub

/-- A publication of more words than the ring holds (R241) offends at decode, as far as its register is there (R365). -/
def ringpubBad (o : RingPubOp) (k : Core) : Word :=
  let r := k.ring (engStream o.strm)
  let tooFar (u : BitVec 32) : Bool := decide (2 ^ r.size.toNat < (u - r.fetch).toNat)
  match o.val with
  | .imm u => maskIf (tooFar u) 0 32
  | .reg q => maskIf ((k.seeA [q]).any fun v => tooFar (field v 0 32)) 0 5

def execRingpub (h : Hdr) (o : RingPubOp) (s : State) : Out :=
  runA (.ringpub h o) h false (ringpubBad o) (do
    let u ← (match o.val with
      | .imm u => pure u
      | .reg r => do
        let v ← rdA r
        pure (field v 0 32))
    let k ← getCore
    let t := engStream o.strm
    let r := k.ring t
    modCore fun k => k.setRing t { r with pub := raisePub r.pub u, started := true }
    pure .next) s

/-- What RINGRD returns (R64, R242). FETCH of the A stream counts the RINGRD itself, which in the handler is no word of
that ring. -/
def ringWordOf (r : Ring) (inHandler : Bool) (t : Nat) (sel : Bool) : Word :=
  if sel then w64 (r.size.toNat * 2 ^ 16 + r.base.toNat)
  else if t = 0 then w64 (r.fetch.toNat + (if inHandler then 0 else 1))
  else if t = 1 then w64 r.fetch.toNat
  else r.pub ++ r.fetch

def execRingrd (h : Hdr) (o : RingRdOp) (s : State) : Out :=
  runA (.ringrd h o) h false noBad (do
    let k ← getCore
    wrA o.d (ringWordOf (vget k.rings o.strm.toNat) k.priv o.strm.toNat o.sel)
    pure .next) s

/-! ## Flags (R250 to R253) -/

/-- The bits of the VF field that name a flag at or above NUM. -/
def badVf (v : BitVec 6) (at0 : Nat) (k : Core) : Word := maskIf (flagIdx k.flagNum k.flagBase v).isNone at0 6

/-- A remote addition sent to a core (R404): it carries the sender's tag, pass, word and its panel's clock. -/
def sendRemote (target : CoreId) (t : Strm) (v : BitVec 6) (n : BitVec 16) (w : Word) (rword : BitVec 13) (pass : BitVec 32)
    (owner : Tag) (abs : Nat) (entry : Option Nat) : M Unit :=
  modState fun s =>
    let x : Remote :=
      { held := { sender := s.cur, strm := t, v := v, amount := n, clock := s.vc (panelOf s.cur), pass := pass,
                  rword := rword, word := w, abs := abs, entry := entry, link := none },
        target := target, owner := owner }
    { s with remotes := s.remotes ++ [x] }

def execFinc (h : Hdr) (o : FincOp) (s : State) : Out :=
  runA (.finc h o) h false (badVf o.vf 34) (do
    let k ← getCore
    if o.rem then
      stallIf k.finc
      let t ← rdA o.s1
      sendRemote (field t 0 10) .a o.vf o.amount (encodeWord (.finc h o)) (k.headWord .a) k.passNow k.ctx 0 none
      modCore fun k => { k with finc := true }
      throw .waiting
    else
      match k.addFlag o.vf o.amount.toNat with
      | .ok k' => do
        modCore fun _ => k'
        pure .next
      | .error old => raise 0x07 0 old (w64 o.amount.toNat)) s

/-- The amount that an FSET would add to COUNT (R251, R355): 0 where it writes CEIL. -/
def Flag.added (f f' : Flag) : Word := w64 (f'.count.toNat - f.count.toNat)

/-- A flag with one field written (R251). -/
def Flag.setField (f : Flag) (fld : BitVec 2) (v : BitVec 16) : Flag :=
  match fld.toNat with
  | 0 => { f with count := v }
  | 1 => { f with thresh := v }
  | 2 => { f with incr := v }
  | _ => { f with ceil := v }

def execFset (h : Hdr) (o : FsetOp) (s : State) : Out :=
  runA (.fset h o) h false (badVf o.vf 34) (do
    let x ← rdA o.s1
    let k ← getCore
    let i := (flagIdx k.flagNum k.flagBase o.vf).getD 0
    let f := vget k.flags i
    let f' := f.setField o.fld (field (x + o.imm.setWidth 64) 0 16)
    if f'.ceil.toNat < f'.count.toNat then raise 0x07 0 f.word (f.added f')
    modCore fun k => { k with flags := vset k.flags i f' }
    pure .next) s

def execFrd (h : Hdr) (o : FrdOp) (s : State) : Out :=
  runA (.frd h o) h false (badVf o.vf 29) (do
    let k ← getCore
    wrA o.d (vget k.flags ((flagIdx k.flagNum k.flagBase o.vf).getD 0)).word
    pure .next) s

def execFwait (h : Hdr) (o : FwaitOp) (s : State) : Out :=
  runA (.fwait h o) h false (badVf o.vf 34) (do
    let k ← getCore
    let i := (flagIdx k.flagNum k.flagBase o.vf).getD 0
    let f := vget k.flags i
    if f.count.toNat < o.n.toNat then throw .waiting
    if !o.keep then modCore fun k => { k with flags := vset k.flags i { f with count := f.count - o.n } }
    pure .next) s

/-! ## Bobbins (R70, R254) -/

def setBob (b : BitVec 5) (x : Bobbin) : M Unit :=
  modCore fun k => { k with bobbins := vset k.bobbins b.toNat x }

/-- A configuration that no bobbin takes (R254) offends at decode, as far as its register is there (R365). -/
def bbindBad (o : BbindOp) (k : Core) : Word := maskIf ((k.seeA [o.s1]).any fun v => !bobbinCfgOk v) 30 5

def execBbind (h : Hdr) (o : BbindOp) (s : State) : Out :=
  runA (.bbind h o) h false (bbindBad o) (do
    let k ← getCore
    stallIf (k.unfinished.any fun w => w.bobbins.contains o.b)
    let v ← rdA o.s1
    setBob o.b (Bobbin.bind v)
    pure .next) s

def execBfillw (h : Hdr) (o : BwaitOp) (s : State) : Out :=
  runA (.bfillw h o) h false noBad (do
    let k ← getCore
    if (vget k.bobbins o.b.toNat).filled < o.n.toNat then throw .waiting
    pure .next) s

def execBfreew (h : Hdr) (o : BwaitOp) (s : State) : Out :=
  runA (.bfreew h o) h false noBad (do
    let k ← getCore
    if (vget k.bobbins o.b.toNat).free < o.n.toNat then throw .waiting
    pure .next) s

def execBadv (h : Hdr) (b : BitVec 5) (s : State) : Out :=
  runA (.badv h b) h false noBad (do
    let k ← getCore
    let x := vget k.bobbins b.toNat
    match x.adv with
    | some y => setBob b y
    | none => raise 0x09 0 x.stateWord 0
    pure .next) s

/-- The rows of every slot of a bobbin take free values: a BREL on the bobbin of a window leaves the window's contents
unpredictable (R330). -/
def spoilBobbin (x : Bobbin) : M Unit :=
  (List.range ((x.count + 1) * (x.size + 1))).forM fun q => do
    let bytes ← freeBytes 64
    let scales ← freeBytes 2
    modCore fun k => k.putSpadRow (x.bank + q % (x.span + 1)) (x.row + q / (x.span + 1)) { bytes := bytes, scales := scales }

def execBrel (h : Hdr) (b : BitVec 5) (s : State) : Out :=
  runA (.brel h b) h false noBad (do
    let k ← getCore
    let x := vget k.bobbins b.toNat
    match x.rel with
    | some y => do
      setBob b y
      if k.windows.toList.any fun v => (v.map fun v => dBob v.dst) == some b then spoilBobbin x
    | none => raise 0x09 0 x.stateWord 0
    pure .next) s

/-! ## Markers and fences (R255 to R257) -/

/-- The position of a marker placed now: the words issued, buffered and published (R255). -/
def Core.markPos (k : Core) (t : Strm) : Nat :=
  (k.engine t).issued + (k.engine t).buf.length + ((k.ring t).pub - (k.ring t).fetch).toNat

def execMark (h : Hdr) (o : MarkOp) (s : State) : Out :=
  runA (.mark h o) h false noBad (do
    modCore fun k =>
      let at0 (b : Bool) (t : Strm) : Option Nat := if b then some (k.markPos t) else none
      { k with marks := vset k.marks o.token.toNat (some (at0 o.m .m, at0 o.v .v, at0 o.c .c)) }
    pure .next) s

/-- Every word before a marker has completed. -/
def Core.markReached (k : Core) (t : Strm) : Option Nat → Bool
  | none => true
  | some p => decide (p ≤ (k.engine t).issued) && (k.engine t).unfinished.all fun w => decide (p ≤ w.abs)

def execJoin (h : Hdr) (t : BitVec 2) (s : State) : Out :=
  runA (.join h t) h false noBad (do
    let k ← getCore
    match vget k.marks t.toNat with
    | none => pure ()
    | some (m, v, c) => stallIf !(k.markReached .m m && k.markReached .v v && k.markReached .c c)
    modCore fun k => { k with marks := vset k.marks t.toNat none }
    pure .next) s

/-- Every write that panel `p` has applied is applied at all four panels (R173). -/
def Mem.settledAt (m : Mem) (p : Nat) : Bool :=
  m.updates.all fun u => !decide (vcAt u.stamp u.src ≤ vcAt (vget m.clocks p) u.src)

def execFence (h : Hdr) (scope : BitVec 2) (s : State) : Out :=
  runA (.fence h scope) h false noBad (do
    let st ← getState
    stallIf (scope == 3 && !st.mem.settledAt (panelOf st.cur))
    pure .next) s

/-! ## Safe points and schedules (R263) -/

def execASafe (h : Hdr) (n : BitVec 16) (s : State) : Out :=
  runA (.aSafe h n) h false noBad (do
    let k ← getCore
    if k.preempt && !k.priv then throw .waiting
    modCore fun q => { q.advanceA k.priv .next with aSafe := some n, aSafeWord := encodeWord (.aSafe h n) }
    pure .stay) s

def execStadv (h : Hdr) (n : BitVec 8) (s : State) : Out :=
  runA (.stadv h n) h false noBad (do
    modCore fun k => { k with stageCtr := k.stageCtr + n.setWidth 32 }
    pure .next) s

/-! ## Exceptions (R266) -/

/-- SYSC enters the handler at word 0; from within the handler the ring word of EXC_RET is a free value (log 29). -/
def execSysc (h : Hdr) (n : BitVec 16) (s : State) : Out :=
  runA (.sysc h n) h false noBad (do
    let k ← getCore
    let free ← (if k.priv then freeWord else pure 0)
    modCore fun k =>
      let k' := if k.priv then k else k.setRing .a ((k.ring .a).moveTo ((k.ring .a).fetch.toNat + 1))
      let ret := if k.priv then field free 0 13 else k'.resumeWord
      k'.enterHandler (0x10000 + n.setWidth 64) (encodeWord (.sysc h n)) 0 (excRetWord false ret) 0
    pure .stay) s

/-- RFE returns from the handler; a wire that only a handled fault held falls (R360). -/
def execRfe (h : Hdr) (s : State) : Out :=
  runA (.rfe h) h true noBad (do
    modCore Core.leaveHandler
    modState fun s => s.dropWire s.cur
    pure .stay) s

/-! ## CSRs (R83, R267) -/

/-- A CSR's value. -/
def State.csr (s : State) (c : CoreId) (n : Nat) : Word :=
  let k := s.core c
  if n = 0 then c.setWidth 64
  else if n = 1 then k.ctx.setWidth 64
  else if n = 2 then ofBool 64 k.priv
  else if n = 8 then (s.budgetNow k).setWidth 64
  else if n = 9 then k.passId.setWidth 64
  else if 0x10 ≤ n && n ≤ 0x1F then (vget k.fmtSlot (n - 0x10)).setWidth 64
  else if n = 0x20 then k.round.setWidth 64
  else if n = 0x21 then k.srSeed.setWidth 64
  else if 0x30 ≤ n && n ≤ 0x37 then (vget k.pmSel (n - 0x30)).setWidth 64
  else if n = 0x40 then w64 (k.flagNum.toNat * 256 + k.flagBase.toNat)
  else if n = 0x50 then k.excCause
  else if n = 0x51 then k.excWord
  else if n = 0x52 then k.excAddr
  else if n = 0x53 then k.excRet
  else if 0x100 ≤ n && n < 0x1B0 then (vget k.bankFmt (n - 0x100)).setWidth 64
  else 0

/-- A core with a CSR's writable fields written; read-only fields ignore the write (R8). -/
def Core.setCsr (k : Core) (cycle n : Nat) (v : Word) : Core :=
  if 0x10 ≤ n && n ≤ 0x1F then { k with fmtSlot := vset k.fmtSlot (n - 0x10) (field v 0 32) }
  else if n = 0x20 then { k with round := field v 0 3 }
  else if n = 0x21 then
    { k with srSeed := field v 0 32, xReload := true, m := { k.m with reload := true },
             v := { k.v with reload := true }, c := { k.c with reload := true } }
  else if 0x30 ≤ n && n ≤ 0x37 then
    { k with pmSel := vset k.pmSel (n - 0x30) (field v 0 16), pmCnt := vset k.pmCnt (n - 0x30) 0,
             pmAt := vset k.pmAt (n - 0x30) cycle }
  else if n = 0x40 then { k with flagNum := field v 8 7, flagBase := field v 0 6 }
  else if n = 0x50 then { k with excCause := v }
  else if n = 0x51 then { k with excWord := v }
  else if n = 0x52 then { k with excAddr := v }
  else if n = 0x53 then { k with excRet := (field v 0 17).setWidth 64 }
  else if 0x100 ≤ n && n < 0x1B0 then { k with bankFmt := vset k.bankFmt (n - 0x100) (field v 0 32) }
  else k

def execCsrr (h : Hdr) (o : CsrOp) (s : State) : Out :=
  runA (.csrr h o) h (csrPriv o.n.toNat) noBad (do
    let st ← getState
    wrA o.r (st.csr st.cur o.n.toNat)
    pure .next) s

def execCsrw (h : Hdr) (o : CsrOp) (s : State) : Out :=
  runA (.csrw h o) h (csrPriv o.n.toNat) noBad (do
    let st ← getState
    let k ← getCore
    let n := o.n.toNat
    let v ← rdA o.r
    if n = 0x20 && decide (5 ≤ (field v 0 3).toNat) then raise 0x04 0 (maskIf true 30 5) 0
    if 0x100 ≤ n && n < 0x1B0 && vget k.owner (n - 0x100) then raise 0x06 0 (w64 (n - 0x100)) 0
    modCore fun k => k.setCsr st.cycle n v
    pure .next) s

end Sys2Proof.Machine
end

