-- ==== Sys2Proof/Machine/Matrix.lean ====
section
/-! DEFINITION. The matrix engine (spec 16). -/

namespace Sys2Proof.Machine

/-! ## Formats and shapes (R98, R291) -/

/-- The formats a multiplied operand takes. -/
def matFmt (f : Fmt) : Bool :=
  match f.elem with
  | .flt g => decide (1 + g.eb + g.mb ≤ 16)
  | .int _ w => f.blk != 0 || decide (w ≤ 8)
  | .raw => false

/-- The K step of a wider element width (R98). -/
def kStep (w : Nat) : Nat := if w ≤ 4 then 128 else if w ≤ 8 then 64 else 32

/-- The integer path (R98): both operands of class 4 or 5. -/
def intFmt (f : Fmt) : Bool :=
  match f.elem with
  | .int _ _ => f.blk == 0
  | _ => false

/-- A matrix word: MMA, GMMA, SMMA, ACLR, ALD, AST or ASCL. -/
def matrixOp (op : Nat) : Bool :=
  op == 0x11 || op == 0x12 || op == 0x13 || op == 0x18 || op == 0x19 || op == 0x1A || op == 0x1B

/-- No matrix word is in progress (R290). -/
def Core.matrixFree (k : Core) : Bool := k.m.prog.all fun w => !matrixOp w.opcode

/-- The stage that a word reads, or that a WLOAD fills. -/
def stageRead (w : Word) : Option Bool :=
  let op := (field w 40 8).toNat
  if (op == 0x11 || op == 0x13) && bit w 7 then some (bit w 6) else none
def stageFilled (w : Word) : Option Bool := if (field w 40 8).toNat == 0x10 then some (bit w 6) else none

/-- The stall of a matrix word, and of its stage (R290). -/
def matStall (stg : Option Bool) (s : State) (c : CoreId) (_ : List Dsc) : Bool :=
  let k := s.core c
  !k.matrixFree || (match stg with
    | none => false
    | some b => k.m.prog.any fun w => stageFilled w.word == some b)

/-- The mask of PROW where the rows pass the end of the pass (R293). -/
def prowBad (k : Core) (p : Pass) (rows : Nat) : Word := maskIf (!k.passOk p rows) 16 8

/-- The kinds of operand `i`. -/
def kindBad (at0 : Nat) (d : Dsc) (ks : List Nat) : Word := opMask at0 (!kindIn d ks)

/-- MODE of the bank of a KIND 3 operand. -/
def Core.modeOfBank (k : Core) (d : Dsc) : Bool := vget k.accMode (dAccBank d)

/-- The bank group of a scratchpad operand of KIND 1 or 2. -/
def groupOf (k : Core) (d : Dsc) : Option Nat :=
  if dKind d = 1 then some (dGroup d)
  else if dKind d = 2 then some ((vget k.bobbins (dBob d).toNat).bank / 32) else none

/-- A and B in one bank group: the first bank of B (R291, 0x05). -/
def groupClash (k : Core) (a b : Dsc) : Option Nat :=
  match groupOf k a, groupOf k b with
  | some x, some y => if x = y then (spanBanks k b).head? else none
  | _, _ => none

/-! ## WLOAD (R298) -/

/-- The declare bit where R324 forbids it. -/
def declares (at0 : Nat) (d : Dsc) : Word := opMask at0 (dKind d == 4 && dDeclare d)

def wloadCheck (issue : Bool) (s : State) (c : CoreId) (ds : List Dsc) : Word :=
  let d := ds.getD 0 0
  kindBad 32 d [1, 2, 4, 6] ||| declares 32 d |||
    opMask 32 (decide (32 < dRows d) || !s.fmtAll issue c d fun f => matFmt f && decide (dCols d ≤ kStep f.elem.width))

def wloadBody (stg : Bool) (ends : List Deferred) (w : Issued) : M Issued := do
  let s ← getState
  let c := s.cur
  let d := w.dsc 0
  let rows ← (List.range (dRows d)).mapM fun j => readRow c d (w.slot 0) j 0 0
  let g : Stage :=
    { rows := rows.map (·.1.bytes), scales := rows.map (·.1.scales), fmt := s.opEnc c d (w.slot 0), cols := dCols d }
  pure { w with deferred := .setStage stg g :: ends }

def wloadWord (h : Hdr) (o : WloadOp) : EWord :=
  { nopWord .m h with
    ops := [src1 o.d1], op := true, check := wloadCheck
    stall := fun s c _ => (s.core c).m.prog.any fun w => (stageFilled w.word).isSome || stageRead w.word == some o.stg
    later := wholeLater
    body := fun w => wloadBody o.stg (bobEnds .m [src1 o.d1] w.dscs) w }

/-! ## Multiplying (R294, R299, R300) -/

/-- The accumulator shadow takes the unparked rows of d0 (R294). -/
def Core.takeShadow (k : Core) (d : Dsc) (p : Pass) : Core :=
  let rows := (List.range (dRows d)).filter fun i => !k.rowParked p i
  let rs := rows.map (accPlace d)
  { k with
    accShadowRows := rs
    accShadow := rs.foldl (fun m r => (List.range 32).foldl (fun m n =>
      let v := k.accAt r n
      if v = 0 then m else mapPut m (r * 32 + n) v) m) [] }

/-- A pass-wide fault restores the unparked shadowed rows (R364, R389). -/
def Core.restoreShadow (k : Core) (d : Dsc) (p : Pass) : Core :=
  (List.range (dRows d)).foldl (fun k i =>
    let r := accPlace d i
    if k.accShadowRows.contains r && !k.rowParked p i && !k.accBad r 32 then
      k.setAccRow r (tabulate 32 fun n => (mapGet k.accShadow (r * 32 + n)).getD 0)
    else k) k

/-- An action whose faults restore the shadow. -/
def shadowed {α : Type} (c : CoreId) (d : Dsc) (p : Pass) (act : M α) : M α := do
  modState fun s => s.onCore c fun k => k.takeShadow d p
  match ← attempt act with
  | .ok a => pure a
  | .error f =>
    modState fun s => s.onCore c fun k => k.restoreShadow d p
    throw (.fault f)

/-- The integer a value holds. -/
def Val.toInt : Val → Int
  | .fin neg m e => (if neg then -1 else 1) * ((m * 2 ^ e.toNat : Nat) : Int)
  | _ => 0

/-- row_update of one element (R99). -/
def accUpdate (ints : Bool) (old : BitVec 32) (ps : List (Val × Val)) : BitVec 32 :=
  let d := dotExact ps
  if ints then BitVec.ofInt 32 (sat32 (old.toInt + d.toInt))
  else rne32 ((val32 old).add false (val32 (rne32 d)))

/-- The values of a stage's rows, column by column of B. -/
def Stage.values (g : Stage) : List (List Val) :=
  match Fmt.parse g.fmt with
  | some f => (g.rows.zip g.scales).map fun r => Row.values f g.cols { bytes := r.1, scales := r.2 }
  | none => []

/-- B as values: the stage, or the rows of operand d2. -/
def readB (c : CoreId) (b : BSrc) (w : Issued) : M (List (List Val)) := do
  let s ← getState
  match b with
  | .stage st => pure (((vget (s.core c).stages st.toNat).map Stage.values).getD [])
  | .desc _ =>
    let d := w.dsc 2
    (List.range (dRows d)).mapM fun j => readVals c d (w.slot 2) j 0 0

/-- One accumulator row updated by the products of a row of A with the columns of B. -/
def multiplyRow (c : CoreId) (w : Issued) (p : Pass) (ints : Bool) (i : Nat) (pairs : Nat → List (Val × Val)) : M Unit := do
  let d := w.dsc 0
  let s ← getState
  let b := (s.core c).rowBlock p i
  match ← ownRow c .m w p b (readAccRow c (accPlace d i) (dCols d)) with
  | none => pure ()
  | some old =>
    let v := tabulate (dCols d) fun n => accUpdate ints (old.getD n 0) (pairs n)
    if ← parkedNow c p i then pure ()
    else modState fun s => s.onCore c fun k => (k.setAccRow (accPlace d i) v).pm 3 1

/-- Both multiplied formats are on the integer path. -/
def onIntPath (a b : BitVec 32) : Bool :=
  match Fmt.parse a, Fmt.parse b with
  | some f, some g => intFmt f && intFmt g
  | _, _ => false

/-- The encoding of B. -/
def State.encB (s : State) (c : CoreId) (b : BSrc) (d : Dsc) : BitVec 32 :=
  match b with
  | .stage st => ((vget (s.core c).stages st.toNat).map (·.fmt)).getD 0
  | .desc _ => s.opEnc c d 0

/-- The checks of a multiplying word on A, B and the accumulators: `p` is the number of rows of A for each row, `at2` the
low bit of the field that names B. -/
def mulCheck (pass : Pass) (b : BSrc) (ratio : State → CoreId → Nat) (issue : Bool) (s : State) (c : CoreId)
    (ds : List Dsc) : Word :=
  let k := s.core c
  let d0 := ds.getD 0 0
  let d1 := ds.getD 1 0
  let d2 := ds.getD 2 0
  let aOk := s.fmtAll issue c d1 fun f => matFmt f && decide (dCols d1 ≤ kStep f.elem.width)
  let base := kindBad 36 d0 [3] ||| kindBad 32 d1 [1, 2] |||
    opMask 32 (dRows d1 != ratio s c * dRows d0 || !aOk) ||| prowBad k pass (dRows d0)
  let ints := match s.encsOf issue c d1 with
    | e :: _ => some (onIntPath e (s.encB c b d2))
    | [] => none
  let mode := opMask 36 (issue && (match ints with
    | some i => k.modeOfBank d0 != i
    | none => false))
  match b with
  | .desc _ =>
    base ||| kindBad 28 d2 [1, 2] ||| mode |||
      opMask 28 (dRows d2 != dCols d0 || dCols d2 != dCols d1 || !s.fmtAll issue c d2 fun f =>
        matFmt f && decide (dCols d1 ≤ kStep f.elem.width))
  | .stage st =>
    base ||| mode ||| (if issue then maskIf (match vget k.stages st.toNat with
      | none => true
      | some g => g.rows.length != dCols d0 || g.cols != dCols d1 || (match Fmt.parse g.fmt with
        | some f => decide (kStep f.elem.width < dCols d1)
        | none => true)) 6 2 else 0)

/-- The operands of a multiplying word. -/
def mulOps (d0 d1 : Desc) (b : BSrc) : List EOp :=
  [dst0 d0, src1 d1] ++ (match b with
    | .desc d => [src2 d]
    | .stage _ => [])

/-- The stage B names. -/
def bStage : BSrc → Option Bool
  | .desc _ => none
  | .stage st => some st

def mmaBody (o : MmaOp) (w : Issued) : M Issued := do
  let s ← getState
  let c := s.cur
  let d0 := w.dsc 0
  let ints := onIntPath (s.opEnc c (w.dsc 1) (w.slot 1)) (s.encB c o.b (w.dsc 2))
  shadowed c d0 o.pass (do
    let bs ← readB c o.b w
    forRows (dRows d0) fun i => do
      if ← parkedNow c o.pass i then pure ()
      else
        let k := (← getState).core c
        match ← ownRow c .m w o.pass (k.rowBlock o.pass i) (readVals c (w.dsc 1) (w.slot 1) i 0 0) with
        | none => pure ()
        | some a => multiplyRow c w o.pass ints i fun n => a.zip (bs.getD n []))
  pure { w with deferred := bobEnds .m (mulOps o.d0 o.d1 o.b) w.dscs }

def mmaWord (h : Hdr) (o : MmaOp) : EWord :=
  { nopWord .m h with
    ops := mulOps o.d0 o.d1 o.b, pass := o.pass, op := true
    check := mulCheck o.pass o.b fun _ _ => 1
    stall := matStall (bStage o.b)
    group := fun k ds => match o.b with
      | .desc _ => groupClash k (ds.getD 1 0) (ds.getD 2 0)
      | .stage _ => none
    later := wholeLater, body := mmaBody o }

/-- The highest block that the rows of a word touch. -/
def Core.topBlock (k : Core) (p : Pass) (rows : Nat) : Nat :=
  ((List.range rows).map fun i => k.rowBlock p i).foldl max 0

/-- The columns of block `b`'s adapter tile (R299). -/
def adapterTile (c : CoreId) (w : Issued) (b : Nat) : M (List (List Val)) := do
  let s ← getState
  let d := w.dsc 2
  let x := vget (s.core c).bobbins (dBob d).toNat
  let slot := (w.slot 2 + b) % (x.count + 1)
  (List.range (dRows d)).mapM fun j => readVals c d slot j 0 0

def gmmaBody (o : GmmaOp) (w : Issued) : M Issued := do
  let s ← getState
  let c := s.cur
  let d0 := w.dsc 0
  let d2 := w.dsc 2
  let ints := onIntPath (s.opEnc c (w.dsc 1) (w.slot 1)) (s.opEnc c d2 0)
  shadowed c d0 o.pass (forRows (dRows d0) fun i => do
    let k := (← getState).core c
    let b := k.rowBlock o.pass i
    if k.rowParked o.pass i || k.rbt b 4 == 0 then pure ()
    else
      match ← ownRow c .m w o.pass b (adapterTile c w b) with
      | none => pure ()
      | some bs =>
        match ← ownRow c .m w o.pass b (readVals c (w.dsc 1) (w.slot 1) i 0 0) with
        | none => pure ()
        | some a => multiplyRow c w o.pass ints i fun n => a.zip (bs.getD n []))
  let rel := if dAuto d2 then [Deferred.release (dBob d2) ((s.core c).topBlock o.pass (dRows d0) + 1)] else []
  pure { w with deferred := bobEnds .m [dst0 o.d0, src1 o.d1] w.dscs ++ rel }

def gmmaWord (h : Hdr) (o : GmmaOp) : EWord :=
  { nopWord .m h with
    ops := [dst0 o.d0, src1 o.d1, src2 o.d2], pass := o.pass, op := true
    check := fun issue s c ds => mulCheck o.pass (.desc o.d2) (fun _ _ => 1) issue s c ds |||
      kindBad 28 (ds.getD 2 0) [2]
    stall := fun s c ds => matStall none s c ds ||
      (let k := s.core c
       decide ((vget k.bobbins (dBob (ds.getD 2 0)).toNat).filled <
         k.topBlock o.pass (dRows (ds.getD 0 0)) + 1))
    group := fun k ds => groupClash k (ds.getD 1 0) (ds.getD 2 0)
    later := wholeLater, body := gmmaBody o }

/-! ### SMMA (R300) -/

/-- P of a queue's mode: 2 under 2:4, 4 under 1:4. -/
def MetaQ.ratio (q : MetaQ) : Nat := if q.mode then 4 else 2

/-- The position that stored element `t` of column `n` multiplies: `meta` the entry as a number, `sc` stored elements per
column. -/
def smmaPos (mode : Bool) (entry sc n t : Nat) : Nat :=
  if mode then 4 * t + entry / 2 ^ (2 * sc * n + 2 * t) % 4
  else 4 * (t / 2) + entry / 2 ^ (2 * sc * n + 4 * (t / 2) + (if t % 2 = 0 then 0 else 2)) % 4

/-- An entry with idx0 at or above idx1 in a group (R300). -/
def smmaBad (mode : Bool) (entry sc cols : Nat) : Bool :=
  !mode && (List.range cols).any fun n => (List.range (sc / 2)).any fun g =>
    decide (entry / 2 ^ (2 * sc * n + 4 * g + 2) % 4 ≤ entry / 2 ^ (2 * sc * n + 4 * g) % 4)

def smmaBody (o : SmmaOp) (w : Issued) : M Issued := do
  let s ← getState
  let c := s.cur
  let d0 := w.dsc 0
  let d1 := w.dsc 1
  let q := vget (s.core c).metaQ o.q.toNat
  let sc := dCols d1
  let entry := natOfBytes (w.popped.getD [])
  let ints := onIntPath (s.opEnc c d1 (w.slot 1)) (s.encB c o.b (w.dsc 2))
  shadowed c d0 o.pass (do
    let bs ← readB c o.b w
    forRows (dRows d0) fun i => do
      if ← parkedNow c o.pass i then pure ()
      else
        let k := (← getState).core c
        match ← ownRow c .m w o.pass (k.rowBlock o.pass i)
            ((List.range q.ratio).mapM fun r => readVals c d1 (w.slot 1) (q.ratio * i + r) 0 0) with
        | none => pure ()
        | some subs =>
          let a := subs.flatten
          multiplyRow c w o.pass ints i fun n =>
            (bs.getD n []).zip (List.range sc) |>.map fun e => (a.getD (smmaPos q.mode entry sc n e.2) .nan, e.1))
  pure { w with deferred := bobEnds .m (mulOps o.d0 o.d1 o.b) w.dscs }

/-- The entry that an SMMA would pop is bad (R300). -/
def smmaEntryBad (o : SmmaOp) (s : State) (c : CoreId) (ds : List Dsc) : Bool :=
  let q := vget (s.core c).metaQ o.q.toNat
  smmaBad q.mode (natOfBytes (q.entries.headD [])) (dCols (ds.getD 1 0)) (dCols (ds.getD 0 0))

/-- The oldest entry of a metadata queue leaves it. -/
def Core.popMeta (k : Core) (q : BitVec 2) : Core :=
  let x := vget k.metaQ q.toNat
  { k with metaQ := vset k.metaQ q.toNat { x with entries := x.entries.tail } }

def smmaWord (h : Hdr) (o : SmmaOp) : EWord :=
  { nopWord .m h with
    ops := mulOps o.d0 o.d1 o.b, pass := o.pass, op := true
    check := fun issue s c ds =>
      let q := vget (s.core c).metaQ o.q.toNat
      mulCheck o.pass o.b (fun s c => (vget (s.core c).metaQ o.q.toNat).ratio) issue s c ds |||
        opMask 32 (!q.mode && dCols (ds.getD 1 0) % 2 != 0) ||| maskIf (issue && smmaEntryBad o s c ds) 8 2
    stall := fun s c ds => matStall (bStage o.b) s c ds || (vget (s.core c).metaQ o.q.toNat).entries.isEmpty
    group := fun k ds => match o.b with
      | .desc _ => groupClash k (ds.getD 1 0) (ds.getD 2 0)
      | .stage _ => none
    spoil := fun s c ds k => if smmaEntryBad o s c ds then k.popMeta o.q else k
    prep := fun w => do
      let k ← getCore
      let q := vget k.metaQ o.q.toNat
      modCore fun k => k.popMeta o.q
      pure { w with popped := some (q.entries.headD []) }
    later := wholeLater, body := smmaBody o }

/-- MQBIND (R301). -/
def mqbindWord (h : Hdr) (o : MqbindOp) : EWord :=
  { nopWord .m h with
    op := true
    stall := fun s c _ => !(s.core c).matrixFree
    body := fun w => do
      modCore fun k => { k with metaQ := vset k.metaQ o.q.toNat { mode := o.mode, entries := [] } }
      pure w }

/-! ## Accumulator words (R302 to R305) -/

/-- ACLR (R302): MODE at issue, then zeros in every unparked row. -/
def aclrWord (h : Hdr) (o : AclrOp) : EWord :=
  { nopWord .m h with
    ops := [dst0 o.d0], pass := o.pass, op := true
    check := fun _ s c ds => kindBad 36 (ds.getD 0 0) [3] ||| prowBad (s.core c) o.pass (dRows (ds.getD 0 0))
    stall := matStall none
    prep := fun w => do
      modCore fun k => { k with accMode := vset k.accMode (dAccBank (w.dsc 0)) o.mode }
      pure w
    later := wholeLater
    body := fun w => do
      let s ← getState
      let c := s.cur
      let d := w.dsc 0
      forRows (dRows d) fun i => do
        if ← parkedNow c o.pass i then pure ()
        else modCore fun k => k.setAccRow (accPlace d i) (List.replicate (dCols d) 0)
      pure w }

/-- The source formats of ALD under a MODE (R303). -/
def aldFmt (mode : Bool) (f : Fmt) : Bool :=
  match f.elem with
  | .flt _ => !mode
  | .int sgn w => if f.blk != 0 then !mode else mode && (sgn || decide (w ≤ 16))
  | .raw => false

/-- Equal ROWS and COLS of two operands, as the mask of the second's field. -/
def shapeBad (at0 : Nat) (d e : Dsc) : Word := opMask at0 (dRows d != dRows e || dCols d != dCols e)

/-- An accumulator row written from the values of a row. -/
def putAcc {α : Type} (r : Nat) (f : α → BitVec 32) (vs : List α) (p : Perf) : M Perf := do
  modCore fun k => k.setAccRow r (vs.map f)
  pure (p.step (4 * vs.length))

def aldWord (h : Hdr) (o : D2Pass) : EWord :=
  { nopWord .m h with
    ops := [dst0 o.d0, src1 o.d1], pass := o.pass, op := true
    check := fun issue s c ds =>
      let d0 := ds.getD 0 0
      let d1 := ds.getD 1 0
      let k := s.core c
      kindBad 36 d0 [3] ||| kindBad 32 d1 [1, 2, 7] ||| shapeBad 32 d0 d1 ||| prowBad k o.pass (dRows d0) |||
        opMask 32 (!s.fmtAll issue c d1 fun f => !issue || aldFmt (k.modeOfBank d0) f)
    stall := matStall none
    later := wholeLater
    body := fun w => do
      let s ← getState
      let c := s.cur
      let d0 := w.dsc 0
      let mode := (s.core c).modeOfBank d0
      let _ ← copyRows (dRows d0) (fun i p => do
        let b := ((← getState).core c).rowBlock o.pass i
        oneRow c .m w o.pass (parkedNow c o.pass i) b (4 * dCols d0) (readVals c (w.dsc 1) (w.slot 1) i 0 0)
          (putAcc (accPlace d0 i) fun v => if mode then BitVec.ofInt 32 v.toInt else rne32 v) p) w.start
      pure { w with deferred := bobEnds .m [dst0 o.d0, src1 o.d1] w.dscs } }

def astWord (h : Hdr) (o : D2Conv) : EWord :=
  { nopWord .m h with
    ops := [dst0 o.d0, src1 o.d1], pass := o.pass, op := true
    check := fun issue s c ds =>
      let d0 := ds.getD 0 0
      let d1 := ds.getD 1 0
      kindBad 36 d0 [1, 2, 7] ||| kindBad 32 d1 [3] ||| shapeBad 36 d1 d0 ||| prowBad (s.core c) o.pass (dRows d1) |||
        opMask 36 (!s.fmtAll issue c d0 fun _ => true)
    stall := matStall none
    later := wholeLater
    body := fun w => do
      let s ← getState
      let c := s.cur
      let d1 := w.dsc 1
      let mode ← engMode c o.rnd
      let _ ← copyRows (dRows d1) (fun i p => do
        let s ← getState
        let b := (s.core c).rowBlock o.pass i
        oneRow c .m w o.pass (parkedNow c o.pass i) b (s.rowBytes c (w.dsc 0) (w.slot 0) i) (readVals c d1 0 i 0 0)
          (writeVals c .m (w.dsc 0) (w.slot 0) i 0 0 mode o.sat) p) w.start
      pure { w with deferred := bobEnds .m [dst0 o.d0, src1 o.d1] w.dscs } }

def asclWord (h : Hdr) (o : D2Pass) : EWord :=
  { nopWord .m h with
    ops := [dst0 o.d0, src1 o.d1], pass := o.pass, op := true
    check := fun issue s c ds =>
      let d0 := ds.getD 0 0
      let d1 := ds.getD 1 0
      let k := s.core c
      kindBad 36 d0 [3] ||| kindBad 32 d1 [1, 2, 7] ||| opMask 32 (dRows d1 != dRows d0 || dCols d1 != 1) |||
        prowBad k o.pass (dRows d0) ||| opMask 32 (!s.fmtAll issue c d1 fun f => f.elem == .flt fp32F && f.blk == 0) |||
        opMask 36 (issue && k.modeOfBank d0)
    stall := matStall none
    later := wholeLater
    body := fun w => do
      let s ← getState
      let c := s.cur
      let d0 := w.dsc 0
      let _ ← copyRows (dRows d0) (fun i p => do
        let b := ((← getState).core c).rowBlock o.pass i
        oneRow c .m w o.pass (parkedNow c o.pass i) b (4 * dCols d0)
          (do
            let f ← readVals c (w.dsc 1) (w.slot 1) i 0 0
            let x ← readAccRow c (accPlace d0 i) (dCols d0)
            pure (x.map fun x => (f.headD .nan, x)))
          (putAcc (accPlace d0 i) fun x => rne32 ((val32 x.2).mul x.1)) p) w.start
      pure { w with deferred := bobEnds .m [dst0 o.d0, src1 o.d1] w.dscs } }

/-! ## The meanings -/

def execMNop (h : Hdr) (s : State) : Out := runE (.mNop h) (nopWord .m h) s
def execMDset (h : Hdr) (o : DsetOp) (s : State) : Out := runE (.mDset h o) (dsetWord .m h o) s
def execWload (h : Hdr) (o : WloadOp) (s : State) : Out := runE (.wload h o) (wloadWord h o) s
def execMma (h : Hdr) (o : MmaOp) (s : State) : Out := runE (.mma h o) (mmaWord h o) s
def execGmma (h : Hdr) (o : GmmaOp) (s : State) : Out := runE (.gmma h o) (gmmaWord h o) s
def execSmma (h : Hdr) (o : SmmaOp) (s : State) : Out := runE (.smma h o) (smmaWord h o) s
def execMqbind (h : Hdr) (o : MqbindOp) (s : State) : Out := runE (.mqbind h o) (mqbindWord h o) s
def execAclr (h : Hdr) (o : AclrOp) (s : State) : Out := runE (.aclr h o) (aclrWord h o) s
def execAld (h : Hdr) (o : D2Pass) (s : State) : Out := runE (.ald h o) (aldWord h o) s
def execAst (h : Hdr) (o : D2Conv) (s : State) : Out := runE (.ast h o) (astWord h o) s
def execAscl (h : Hdr) (o : D2Pass) (s : State) : Out := runE (.ascl h o) (asclWord h o) s

end Sys2Proof.Machine
end

