-- ==== Sys2Proof/Machine/Copy.lean ====
section
/-! DEFINITION. The copy engine but its link words (spec 18). -/

namespace Sys2Proof.Machine

/-! ## Shapes and formats (R97, R327) -/

/-- Rows of two formats of one move: equal COLS, or equal byte counts when either is class 8. -/
def movePair (es ed : BitVec 32) (cs cd : Nat) : Bool :=
  match Fmt.parse es, Fmt.parse ed with
  | some f, some g =>
    if es != ed && (f.elem == .raw || g.elem == .raw) then f.memBytes cs == g.memBytes cd else cs == cd
  | _, _ => false

/-- Every row of a move has rows that fit; at decode as far as the formats are known. -/
def State.moveOk (s : State) (issue : Bool) (c : CoreId) (dd ds : Dsc) : Bool :=
  if issue then
    (List.range (min (dRows dd) (dRows ds))).all fun j =>
      movePair (s.rowEnc c ds 0 j) (s.rowEnc c dd 0 j) (dCols ds) (dCols dd)
  else
    match s.encsOf false c ds, s.encsOf false c dd with
    | es :: _, ed :: _ => movePair es ed (dCols ds) (dCols dd)
    | _, _ => true

/-- The kinds of CCOPY's operands. -/
def copySrc : List Nat := [1, 2, 3, 4, 6, 7]
def copyDst : List Nat := [1, 2, 3, 4, 7]

/-! ## Rows in the word's order (R324, R361, R383, R384) -/

/-- What a copy's fault does: a row's own operand parks the owner of block `b`; any other stops the word (R339). -/
def copyFault (c : CoreId) (w : Issued) (own : Bool) (b : Nat) (f : Flt) : M Unit := do
  if own && wireClass f.cls then
    let s ← getState
    parkOwner c 4 4 w.rword w.word ((s.core c).rbtOwner b) f
  else throw (.fault f)

/-- A row's operand kinds whose faults are the row's own (R339). -/
def ownKind (p : Pass) (d : Dsc) : Bool := p.isSome && kindIn d [1, 2, 3, 5]

/-- A row operand of a copy with the row it takes. -/
structure RowAt where
  d : Dsc
  slot : Nat
  row : Nat
  own : Bool
  deriving DecidableEq, Repr, Inhabited

/-- A row written, in the word's order; whether it was. -/
def copyPut (c : CoreId) (w : Issued) (y : RowAt) (b first : Nat) (f : Fmt) (r : Row) (p : Perf) :
    M (Perf × Bool) := do
  match ← attempt (writeRowTo c y.d y.slot y.row b first f r p) with
  | .ok q => do
    modState fun s => s.onCore c fun k => k.pm 5 (q.done - p.done)
    pure (q, true)
  | .error f' => do
    copyFault c w y.own b (f'.atPerf (f'.perf.getD p))
    pure ({ (f'.perf.getD p) with pos := p.pos + f.memBytes (dCols y.d) }, false)

/-- One element row moved by R97 from a source row to a destination row; `parked` is asked again before the write. -/
def copyRow (c : CoreId) (w : Issued) (mode : Mode) (sat : Bool) (x y : RowAt) (b first : Nat) (parked : M Bool)
    (p : Perf) : M Perf := do
  let s ← getState
  let ed := s.rowEnc c y.d y.slot y.row
  match Fmt.parse ed with
  | none => raise 0x04 0 0 0
  | some fd =>
    let n := fd.memBytes (dCols y.d)
    if skipRow n p then pure (p.step n)
    else
      match ← attempt (readRow c x.d x.slot x.row b first) with
      | .error f => do
        copyFault c w x.own b (f.atPerf p)
        pure (p.pass n)
      | .ok (r, es) =>
        if ← parked then pure (p.pass n)
        else
          match Fmt.parse es with
          | none => raise 0x04 0 0 0
          | some fs =>
            let (r', q) := convertRow es ed fs fd (dCols x.d) (dCols y.d) mode sat r (← engLfsr c .c)
            let (p', ok) ← copyPut c w y b first fd r' p
            if ok then setLfsr c .c q
            pure p'

/-! ## Declared destinations (R123) -/

/-- The pages of 64 KiB that hold a byte of one of a KIND 4 operand's rows. -/
def extentOf (d : Dsc) (rowBytes : Nat) : List Nat :=
  ((List.range (dRows d)).flatMap fun j =>
    let a := dAddr d + j * dStride d
    [patchOf a, patchOf (a + rowBytes - 1)]).eraseDups

/-- The translating controllers set D in the page's entry, as writes sequenced on the panel of the controller (R167). -/
def State.markDirty (s : State) (page : Nat) : State :=
  let la := page * 65536
  let h := xlatCtl (la / 64)
  if !(vget s.mem.ctls h).en then s
  else
    match s.walk h la with
    | none => s
    | some l =>
      let s := s.setPtWord (h / 2) l.at0 (l.pte ||| (3#64 <<< 54))
      s.onMem fun m => { m with ctls := m.ctls.map fun q => { q with
        tc := q.tc.map fun e => if e.pte = l.at0 then { e with d := true } else e } }

/-- The marks of a destination that declares. -/
def declareMarks (c : CoreId) (d : Dsc) : M Unit := do
  if dKind d = 4 && dDeclare d then
    let s ← getState
    match Fmt.parse (s.rowEnc c d 0 0) with
    | some f => (extentOf d (f.memBytes (dCols d))).forM fun page => do
      let _ ← attempt (walkOpen (xlatCtl (page * 1024)) (page * 65536))
      modState fun s => s.markDirty page
    | none => pure ()

/-! ## CCOPY, CGATH, CSCAT (R327) -/

/-- A row left out because its block has no adapter. -/
def noAdapter (k : Core) (ds : List Dsc) (b : Nat) : Bool :=
  (ds.any fun d => dKind d == 5 && dSel d == 2) && k.rbt b 4 == 0

def copyCheck (srcs dsts : List Nat) (p : Pass) (decl issue : Bool) (s : State) (c : CoreId) (ds : List Dsc) : Word :=
  let d0 := ds.getD 0 0
  let d1 := ds.getD 1 0
  kindBad 36 d0 dsts ||| kindBad 32 d1 srcs ||| opMask 32 (dRows d0 != dRows d1) |||
    opMask 32 (!s.moveOk issue c d0 d1) ||| prowBad (s.core c) p (dRows d0) ||| declares 32 d1 |||
    (if decl then 0 else declares 36 d0)

/-- The rows of an operand lie on whole lines of memory, each row on lines of its own, or not in memory at all. -/
def State.onLines (s : State) (c : CoreId) (d : Dsc) : Bool :=
  let n := match Fmt.parse (vget (s.core c).fmtSlot (dFmt d)) with
    | some f => f.memBytes (dCols d)
    | none => 0
  match dKind d with
  | 4 => dAddr d % 64 == 0 && dStride d % 64 == 0 && (dRows d == 1 || decide (n ≤ dStride d))
  | 5 => false
  | 6 => n % 64 == 0 && (match s.lockedWid (dWid d) with
    | some w => w.tbytes.toNat % 64 == 0
    | none => false)
  | _ => true

/-- Whether a copy's effects may come after its issue one line after another. DESIGN CHOICE, unsafe (log 43): a copy whose rows
share lines, or whose rows are placed by the pass, has them all at one time. -/
def copyLater (s : State) (c : CoreId) (ds : List Dsc) : Later := if ds.all (s.onLines c) then .lines else .whole

def copyBody (o : D2Conv) (w : Issued) : M Issued := do
  let s ← getState
  let c := s.cur
  let mode ← engMode c o.rnd
  declareMarks c (w.dsc 0)
  let _ ← copyRows (dRows (w.dsc 0)) (fun i p => do
    let s ← getState
    let k := s.core c
    let b := k.rowBlock o.pass i
    let n := match Fmt.parse (s.rowEnc c (w.dsc 0) (w.slot 0) i) with
      | some f => f.memBytes (dCols (w.dsc 0))
      | none => 0
    if k.rowParked o.pass i || noAdapter k w.dscs b then pure (p.pass n)
    else
      let first := (o.pass.getD 0).toNat + i - k.rbtStart b
      copyRow c w mode o.sat { d := w.dsc 1, slot := w.slot 1, row := i, own := ownKind o.pass (w.dsc 1) }
        { d := w.dsc 0, slot := w.slot 0, row := i, own := ownKind o.pass (w.dsc 0) } b first
        (parkedNow c o.pass i) p) w.start
  pure { w with deferred := bobEnds .c [dst0 o.d0, src1 o.d1] w.dscs }

def copyWord (h : Hdr) (o : D2Conv) (srcs dsts : List Nat) : EWord :=
  { nopWord .c h with
    ops := [dst0 o.d0, src1 o.d1], pass := o.pass, op := true, check := copyCheck srcs dsts o.pass true
    later := copyLater, body := copyBody o }

def ccopyWord (h : Hdr) (o : D2Conv) : EWord := copyWord h o copySrc copyDst
def cgathWord (h : Hdr) (o : D2Conv) : EWord := copyWord h o [5] [1, 2, 3]
def cscatWord (h : Hdr) (o : D2Conv) : EWord := copyWord h o [1, 2, 3] [5]

/-! ## CFILL (R328) -/

/-- The row that CFILL writes. -/
def fillRow (v : BitVec 16) (f : Fmt) (cols : Nat) (mode : Mode) (sat : Bool) (q : BitVec 32) : Row × BitVec 32 :=
  if f.elem = .raw then
    ({ bytes := List.replicate cols (field v 0 8), scales := [] }, if mode == .sr then lfsrSteps cols q else q)
  else writeRow f mode sat (List.replicate cols (bf16F.decode v.toNat)) q

def cfillWord (h : Hdr) (o : CfillOp) : EWord :=
  { nopWord .c h with
    ops := [dst0 o.d0], op := true
    check := fun _ _ _ ds => kindBad 36 (ds.getD 0 0) copyDst
    later := copyLater, body := fun w => do
      let s ← getState
      let c := s.cur
      let d := w.dsc 0
      let mode ← engMode c o.rnd
      declareMarks c d
      let _ ← copyRows (dRows d) (fun i p => do
        let s ← getState
        match Fmt.parse (s.rowEnc c d (w.slot 0) i) with
        | none => raise 0x04 0 0 0
        | some f =>
          let n := f.memBytes (dCols d)
          if skipRow n p then pure (p.step n)
          else
            let (r, q) := fillRow o.value f (dCols d) mode o.sat (← engLfsr c .c)
            let (p', _) ← copyPut c w { d := d, slot := w.slot 0, row := i, own := false } 0 0 f r p
            setLfsr c .c q
            pure p') w.start
      pure { w with deferred := bobEnds .c [dst0 o.d0] w.dscs } }

/-! ## CMCAST (R329) -/

/-- A KIND 7 descriptor aimed at another core. -/
def aimDsc (d : Dsc) (c : CoreId) : Dsc := (d &&& ~~~(1023#128 <<< 92)) ||| (c.setWidth 128 <<< 92)

/-- Core t0 + k. -/
def mcastCore (d : Dsc) (k : Nat) : CoreId := dCore d + BitVec.ofNat 10 k

/-- The KIND 7 operand of a CMCAST. -/
def mcastDsc (o : CmcastOp) (ds : List Dsc) : Dsc := if o.storer then ds.getD 1 0 else ds.getD 0 0

def cmcastCheck (o : CmcastOp) (issue : Bool) (s : State) (c : CoreId) (ds : List Dsc) : Word :=
  let d0 := ds.getD 0 0
  let d1 := ds.getD 1 0
  let t := mcastDsc o ds
  let n := o.n1.toNat + 1
  let shape :=
    if o.storer then
      kindBad 36 d0 [1, 2, 4] ||| kindBad 32 d1 [7] ||| opMask 36 (dRows d0 != n * dRows d1) ||| declares 32 d1
    else
      kindBad 36 d0 [7] ||| kindBad 32 d1 copySrc ||| opMask 36 (dWindow d0 != 0) ||| opMask 32 (dRows d0 != dRows d1) |||
        declares 32 d1
  let fmts := (List.range n).all fun k =>
    let a := aimDsc t (mcastCore t k)
    if o.storer then s.moveOk issue c d0 a && (!issue || s.bankFmtsOk c a)
    else s.moveOk issue c a d1 && (!issue || s.bankFmtsOk c a)
  shape ||| maskIf (decide (127 < (dCore t).toNat % 128 + n - 1)) 8 8 ||| opMask (if o.storer then 32 else 36) (!fmts)

/-- One more addition sent. -/
def mcastSignal (o : CmcastOp) (w : Issued) (target : CoreId) (p : Perf) : M Perf := do
  match o.tflag with
  | none => pure p
  | some v => do
    sendRemote target .c v 1 w.word w.rword w.pass w.ctx w.abs w.entry
    pure { p with sent := p.sent + 1 }

/-- The loader role: the source is read once, then written at each target. -/
def mcastLoad (o : CmcastOp) (c : CoreId) (w : Issued) (mode : Mode) : M Perf := do
  let d0 := w.dsc 0
  let d1 := w.dsc 1
  let rows ← (List.range (dRows d1)).mapM fun i => readRow c d1 (w.slot 1) i 0 0
  copyRows (o.n1.toNat + 1) (fun k p => do
    let d := aimDsc d0 (mcastCore d0 k)
    let p ← copyRows (dRows d) (fun i p => do
      let s ← getState
      let (r, es) := rows.getD i default
      let ed := s.rowEnc c d 0 i
      match Fmt.parse es, Fmt.parse ed with
      | some fs, some fd => do
        let (r', q) := convertRow es ed fs fd (dCols d1) (dCols d) mode o.sat r (← engLfsr c .c)
        let (p', _) ← copyPut c w { d := d, slot := 0, row := i, own := false } 0 0 fd r' p
        setLfsr c .c q
        pure p'
      | _, _ => raise 0x04 0 0 0) p
    mcastSignal o w (mcastCore d0 k) p) w.start

/-- The storer role: the tile of core t0 + k lands in rows k × (ROWS + 1) onwards. -/
def mcastStore (o : CmcastOp) (c : CoreId) (w : Issued) (mode : Mode) : M Perf := do
  let d0 := w.dsc 0
  let d1 := w.dsc 1
  declareMarks c d0
  copyRows (o.n1.toNat + 1) (fun k p => do
    let d := aimDsc d1 (mcastCore d1 k)
    let before := p
    let p ← copyRows (dRows d) (fun i p =>
      copyRow c w mode o.sat { d := d, slot := 0, row := i, own := false }
        { d := d0, slot := w.slot 0, row := k * dRows d + i, own := false } 0 0 (pure false) p) p
    if decide (p.pos ≤ p.resume) && decide (before.pos < p.pos) then pure p
    else mcastSignal o w (mcastCore d1 k) p) w.start

def cmcastWord (h : Hdr) (o : CmcastOp) : EWord :=
  { nopWord .c h with
    ops := [dst0 o.d0, src1 o.d1], op := true, check := cmcastCheck o
    more := fun s c ds =>
      let t := mcastDsc o ds
      (List.range (o.n1.toNat + 1)).flatMap fun k => s.namedBanks c (aimDsc t (mcastCore t k))
    later := wholeLater
    body := fun w => do
      let s ← getState
      let c := s.cur
      let mode ← engMode c o.rnd
      let p ← if o.storer then mcastStore o c w mode else mcastLoad o c w mode
      pure { w with deferred := bobEnds .c [dst0 o.d0, src1 o.d1] w.dscs, pending := w.pending + p.sent } }

/-! ## Windows (R330) -/

/-- An earlier word on a window has not completed. -/
def Core.windowBusy (k : Core) (win : BitVec 2) : Bool :=
  k.c.unfinished.any fun w => (w.opcode == 0x18 || w.opcode == 0x19) && field w.word 16 2 == win

/-- RND as the word takes it at issue (R90). -/
def rndNow (k : Core) (rnd : BitVec 3) : BitVec 3 := if rnd = 7 then k.round else rnd

/-- The formats of a bound window break a rule of CWBIND's operands (R86, R330, R339): bank formats that differ, an invalid
format, or a shape that does not move. -/
def State.windowBad (s : State) (issue : Bool) (c : CoreId) (v : Window) : Bool :=
  !s.moveOk issue c v.dst v.src || (issue && !s.bankFmtsOk c v.dst) ||
    !(s.dscOk c v.src && (s.encsOf issue c v.dst).all fun e => match Fmt.parse e with
      | some f => rowFits f (dCols v.dst)
      | none => false)

def cwbindWord (h : Hdr) (o : CwbindOp) : EWord :=
  { nopWord .c h with
    ops := [dst0 o.d0, src1 o.d1], op := true
    check := fun issue s c ds =>
      let d0 := ds.getD 0 0
      let d1 := ds.getD 1 0
      kindBad 36 d0 [2] ||| kindBad 32 d1 [4] ||| declares 32 d1 |||
        opMask 36 (dKind d0 == 2 && decide ((vget (s.core c).bobbins (dBob d0).toNat).size + 1 < dOff d0 + dRows d1)) |||
        opMask 32 (!s.moveOk issue c d0 d1)
    stall := fun s c _ => (s.core c).windowBusy o.win
    body := fun w => do
      let s ← getState
      let k := s.core s.cur
      let d1 := w.dsc 1
      let v : Window := { src := d1, dst := w.dsc 0, rnd := o.rnd, sat := o.sat, next := field d1 46 56 }
      modCore fun k => { k with windows := vset k.windows o.win.toNat (some v) }
      pure { w with
        env := some (s.envOf s.cur w.dscs)
        deferred := List.replicate (o.n1.toNat + 1) (.fill o.win (rndNow k o.rnd)) } }

/-- The bobbin of a bound window. -/
def Core.windowBob (k : Core) (win : BitVec 2) : Option (BitVec 5) := (vget k.windows win.toNat).map fun v => dBob v.dst

/-- CWADV stalls at issue until the window's bobbin holds the slots it retires (R322, R330). -/
def Core.windowShort (k : Core) (o : CwadvOp) : Bool :=
  match k.windowBob o.win with
  | some b => decide ((vget k.bobbins b.toNat).filled < o.n1.toNat + 1)
  | none => false

/-- CWADV; on a window that is not bound it only completes (log 30). -/
def cwadvWord (h : Hdr) (o : CwadvOp) : EWord :=
  { nopWord .c h with
    op := true
    check := fun issue s c _ =>
      match vget (s.core c).windows o.win.toNat with
      | some v => maskIf (s.windowBad issue c v) 16 2
      | none => 0
    stall := fun s c _ => (s.core c).windowBusy o.win || (s.core c).windowShort o
    more := fun s c _ =>
      match vget (s.core c).windows o.win.toNat with
      | some v => s.namedBanks c v.dst
      | none => []
    body := fun w => do
      let s ← getState
      let k := s.core s.cur
      match vget k.windows o.win.toNat with
      | none => pure w
      | some v => do
        let b := dBob v.dst
        modCore fun k => { k with
          bobbins := vset k.bobbins b.toNat (bobTimes Bobbin.rel (o.n1.toNat + 1) (vget k.bobbins b.toNat)).1 }
        pure { w with
          bobbins := [b], env := some (s.envOf s.cur w.dscs)
          deferred := List.replicate (o.n1.toNat + 1) (.fill o.win (rndNow k v.rnd)) } }

/-- A KIND 4 descriptor at another address. -/
def moveDsc (d : Dsc) (a : BitVec 56) : Dsc :=
  (d &&& ~~~((BitVec.allOnes 56).setWidth 128 <<< 46)) ||| (a.setWidth 128 <<< 46)

/-- Filling one slot of a window, with `left` slots still to fill after it. -/
def fillSlot (win : BitVec 2) (rnd : BitVec 3) (left : Nat) (w : Issued) : M Unit := do
  let s ← getState
  let c := s.cur
  let k := s.core c
  match vget k.windows win.toNat with
  | none => pure ()
  | some v =>
    let b := dBob v.dst
    let slot := (vget k.bobbins b.toNat).wptr
    let g := dRows v.src
    let n := match Fmt.parse (s.rowEnc c v.dst slot 0) with
      | some f => f.memBytes (dCols v.dst)
      | none => 0
    let at0 := ((field w.word 8 8).toNat - left) * (g * n)
    let _ ← copyRows g (fun j p =>
      copyRow c w (modeOf rnd k.round) v.sat { d := moveDsc v.src v.next, slot := 0, row := j, own := false }
        { d := v.dst, slot := slot, row := j, own := false } 0 0 (pure false) p)
      { w.start with done := at0, pos := at0 }
    modState fun s => s.onCore c fun k =>
      let x := vget k.bobbins b.toNat
      { k with
        bobbins := vset k.bobbins b.toNat (x.adv.getD x)
        windows := vset k.windows win.toNat (some { v with next := v.next + BitVec.ofNat 56 (g * dStride v.src) }) }

/-! ## CPFA (R333) -/

def cpfaWord (h : Hdr) (o : CpfaOp) : EWord :=
  { nopWord .c h with
    ops := [dst0 o.d0, src1 o.d1], op := true
    check := fun issue s c ds =>
      let d0 := ds.getD 0 0
      let d1 := ds.getD 1 0
      kindBad 36 d0 [2] ||| kindBad 32 d1 [5] ||| opMask 32 (dSel d1 != 2) ||| opMask 36 (dRows d0 != dRows d1) |||
        opMask 36 (!s.moveOk issue c d0 d1)
    stall := fun s c ds =>
      let k := s.core c
      let b := dBob (ds.getD 0 0)
      decide ((vget k.bobbins b.toNat).free < heldSlots k.c.prog b + k.hdrBlocks + 1)
    later := wholeLater
    body := fun w => do
      let s ← getState
      let c := s.cur
      let k := s.core c
      let d0 := w.dsc 0
      let d1 := w.dsc 1
      let h := k.hdrBlocks
      let mode ← engMode c o.rnd
      let cnt := (vget k.bobbins (dBob d0).toNat).count + 1
      let _ ← copyRows (h + 1) (fun b p => do
        let s ← getState
        let slot := (w.slot 0 + b) % cnt
        let n := match Fmt.parse (s.rowEnc c d0 slot 0) with
          | some f => f.memBytes (dCols d0)
          | none => 0
        copyRows (dRows d1) (fun j p => do
          let k := (← getState).core c
          if k.rbtParked b || k.rbt b 4 == 0 then pure (p.pass n)
          else
            copyRow c w mode o.sat { d := d1, slot := 0, row := j, own := true }
              { d := d0, slot := slot, row := j, own := true } b j
              (do let s ← getState; pure ((s.core c).rbtParked b)) p) p) w.start
      pure { w with deferred := [.advance (dBob d0) (h + 1)] } }

/-! ## CMETA (R334) -/

/-- Entries of a metadata queue, with the pushes to come. -/
def Core.metaHeld (k : Core) (q : BitVec 2) : Nat :=
  (vget k.metaQ q.toNat).entries.length + (k.c.unfinished.filter fun w => w.opcode == 0x1D && field w.word 8 2 == q).length

def cmetaWord (h : Hdr) (o : CmetaOp) : EWord :=
  { nopWord .c h with
    ops := [src1 o.d1], op := true
    check := fun issue s c ds =>
      let d := ds.getD 0 0
      kindBad 32 d [1, 2, 4] ||| declares 32 d ||| opMask 32 (decide (1024 < dRows d * dCols d)) |||
        opMask 32 (!s.fmtAll issue c d fun f => f.elem == .raw)
    stall := fun s c _ => decide (8 ≤ (s.core c).metaHeld o.q)
    later := wholeLater
    body := fun w => do
      let s ← getState
      let c := s.cur
      let d := w.dsc 0
      let rows ← (List.range (dRows d)).mapM fun j => readRow c d (w.slot 0) j 0 0
      let bs := (rows.map (·.1.bytes)).flatten
      modCore fun k => k.pm 5 bs.length
      pure { w with
        deferred := .pushMeta o.q (bs ++ List.replicate (1024 - bs.length) 0) :: bobEnds .c [src1 o.d1] w.dscs } }

/-! ## CSCHED (R331, R332) -/

def cschedWord (h : Hdr) (d1 : Desc) : EWord :=
  { nopWord .c h with
    ops := [src1 d1], op := true
    check := fun issue s c ds =>
      let d := ds.getD 0 0
      kindBad 32 d [4] ||| declares 32 d ||| opMask 32 (dCols d != 128 || dStride d != 128) |||
        opMask 32 (!s.fmtAll issue c d fun f => f.elem == .raw)
    body := fun w => do
      let g (k : Core) : Sched := { abs := w.abs, rword := w.rword, base := k.stageCtr, table := w.dsc 0, next := 0, held := none }
      modCore fun k => { k with sched := some (g k) }
      pure w }

/-- The words a schedule entry may hold. -/
def entryWord : Instr → Option EWord
  | .ccopy h o => some (ccopyWord h o)
  | .cfill h o => some (cfillWord h o)
  | .cgath h o => some (cgathWord h o)
  | .cscat h o => some (cscatWord h o)
  | .cmcast h o => some (cmcastWord h o)
  | .cpfa h o => some (cpfaWord h o)
  | .cmeta h o => some (cmetaWord h o)
  | _ => none

/-- The parts of a schedule entry: its word, its descriptors, and whether a reserved field of it is zero. -/
structure Entry where
  word : Word
  dscs : List Dsc
  clean : Bool
  deriving DecidableEq, Repr, Inhabited

/-- The fields of R331. -/
def entryOf (bs : List Byte) : Entry :=
  let n (lo k : Nat) : Nat := natOfBytes (bs.drop lo |>.take k)
  { word := w64 (n 0 8)
    dscs := tabulate 4 fun i => BitVec.ofNat 128 (n (16 + 16 * i) 16)
    clean := n 8 8 == 0 && n 80 48 == 0 }

/-- Issuing entry `e` of a schedule. -/
def issueEntry (e : Nat) (x : Entry) (s : State) : Out :=
  let c := s.cur
  let bad (f : Flt) : Out := .next (s.headFault c .c ((s.core c).issuedWord .c (nopWord .c (getHdr 0)) x.word [] (some e) []) f)
  match decodeWord .c (field x.word 0 56 |>.setWidth 64) with
  | .illegal =>
    if x.clean && field x.word 56 8 == 0 then bad { cls := 0x04, laddr := 0, d0 := maskIf true 40 8, d1 := 0 }
    else bad { cls := 0x02, laddr := 0, d0 := field x.word 56 8 ++ 0#56, d1 := 0 }
  | .word i m =>
    let resv := m ||| (field x.word 56 8 ++ 0#56)
    match entryWord i with
    | none =>
      if x.clean && resv == 0 then bad { cls := 0x04, laddr := 0, d0 := maskIf true 40 8, d1 := 0 }
      else bad { cls := 0x02, laddr := 0, d0 := resv, d1 := 0 }
    | some w =>
      let ds := w.ops.map fun o => x.dscs.getD ((36 - o.at0) / 4) 0
      if x.clean && resv == 0 then tryWord x.word (badOperands i) w ds (some e) s
      else
        let m := (w.ops.zip ds).foldl (fun m y => m ||| opMask y.1.at0 (dscReserved y.2)) resv
        bad { cls := 0x02, laddr := 0, d0 := m, d1 := 0 }

/-- The next entry of a schedule is released (R332). -/
def Core.entryDue (k : Core) (g : Sched) : Bool :=
  decide (g.next < dRows g.table) && decide (g.next + 1 ≤ (k.stageCtr - g.base).toNat)

/-- A core's engines may issue now: the core is powered, its wire is low and the stream is not halted. -/
def State.mayIssue (s : State) (c : CoreId) (t : Strm) : Bool :=
  let k := s.core c
  !k.dead && vget s.power.cluster (clusterOf c) == 0 && !k.stall && !k.haltedAt t

def execSchedEntryRelease (core : CoreId) (s : State) : Out :=
  let s := { s with cur := core }
  let k := s.core core
  match k.sched with
  | none => .next s
  | some g =>
    if !(s.mayIssue core .c && k.entryDue g) then .next s
    else
      match g.held with
      | some bs => issueEntry g.next (entryOf bs) s
      | none =>
      let la := dAddr g.table + 128 * g.next
      match (do check4 core la 128 1; engRead core k.ctx la 128 0 : M (List Byte)) s with
      | .ok bs s' =>
        issueEntry g.next (entryOf bs) ((s'.undrain core .c).onCore core fun k =>
          { k with sched := k.sched.map fun g => { g with held := some bs } })
      | .error (.fault f) s' =>
        match k.c.prog.findIdx? fun w => w.opcode == 0x1A with
        | none => .next s
        | some i =>
          .next (((s.afterFault s').onCore core fun k => k.dropProg .c i).performFault core .c (k.c.prog.getD i default) f)
      | .error (.drain d p) _ => .next (s.addDrain core .c d p)
      | .error (.halt f) _ => .fault f
      | .error _ _ => .next s

/-! ## The meanings -/

def execCNop (h : Hdr) (s : State) : Out := runE (.cNop h) (nopWord .c h) s
def execCDset (h : Hdr) (o : DsetOp) (s : State) : Out := runE (.cDset h o) (dsetWord .c h o) s
def execCcopy (h : Hdr) (o : D2Conv) (s : State) : Out := runE (.ccopy h o) (ccopyWord h o) s
def execCgath (h : Hdr) (o : D2Conv) (s : State) : Out := runE (.cgath h o) (cgathWord h o) s
def execCscat (h : Hdr) (o : D2Conv) (s : State) : Out := runE (.cscat h o) (cscatWord h o) s
def execCfill (h : Hdr) (o : CfillOp) (s : State) : Out := runE (.cfill h o) (cfillWord h o) s
def execCmcast (h : Hdr) (o : CmcastOp) (s : State) : Out := runE (.cmcast h o) (cmcastWord h o) s
def execCwbind (h : Hdr) (o : CwbindOp) (s : State) : Out := runE (.cwbind h o) (cwbindWord h o) s
def execCwadv (h : Hdr) (o : CwadvOp) (s : State) : Out := runE (.cwadv h o) (cwadvWord h o) s
def execCsched (h : Hdr) (d1 : Desc) (s : State) : Out := runE (.csched h d1) (cschedWord h d1) s
def execCpfa (h : Hdr) (o : CpfaOp) (s : State) : Out := runE (.cpfa h o) (cpfaWord h o) s
def execCmeta (h : Hdr) (o : CmetaOp) (s : State) : Out := runE (.cmeta h o) (cmetaWord h o) s

end Sys2Proof.Machine
end

