-- ==== Sys2Proof/Machine/Flits.lean ====
section
/-! DEFINITION. Seam-link flits, the sender's replay state, and the link words of the copy engine (spec 10 R189 to R192,
18 R335 to R337). -/

namespace Sys2Proof.Machine

/-! ## The flit (R189) -/

def flType (f : Flit) : Nat := (field f.h0 60 4).toNat
def flRsp (f : Flit) : Bool := bit f.h0 59
def flFseq (f : Flit) : BitVec 16 := field f.h0 40 16
def flAckseq (f : Flit) : BitVec 16 := field f.h0 24 16
def flNak (f : Flit) : Bool := bit f.h0 9
def flBytes (f : Flit) : Nat := (field f.h0 0 8).toNat
def flOwner (f : Flit) : Tag := field f.h1 52 12
def flSrc (f : Flit) : CoreId := field f.h1 42 10
def flDst (f : Flit) : CoreId := field f.h1 32 10
def flTag (f : Flit) : BitVec 32 := field f.h1 0 32
def flAddr (f : Flit) : Nat := (field f.h2 0 56).toNat

/-- The payload, padded to 192 bytes. -/
def flBody (f : Flit) : List Byte := (f.payload ++ List.replicate 192 0).take 192

/-- One step of CRC-32 over a byte (polynomial 0x04C1_1DB7; PRESUMED, log 32: the bit order of IEEE 802.3). -/
def crcBits : Nat → BitVec 32 → BitVec 32
  | 0, c => c
  | n + 1, c => crcBits n (if bit c 0 then (c >>> 1) ^^^ 0xEDB88320 else c >>> 1)

def crc32 (bs : List Byte) : BitVec 32 :=
  ~~~(bs.foldl (fun c b => crcBits 8 (c ^^^ b.setWidth 32)) 0xFFFFFFFF)

/-- The 256 bytes of a flit with its CRC taken as zero. -/
def flRaw (f : Flit) : List Byte :=
  ([f.h0, f.h1, f.h2, f.a0, f.a1, f.a2, f.fts, field f.h7 32 32 ++ 0#32].map (bytesOfW 8)).flatten ++ flBody f

/-- The CRC of a flit is good (R190). -/
def flGood (f : Flit) : Bool := crc32 (flRaw f) == field f.h7 0 32

/-- A flit with the fields its sender gives; the port fills in the rest. -/
def mkFlit (type : BitVec 4) (rsp : Bool) (owner : Tag) (src dst : CoreId) (tag : BitVec 32) (addr : Nat)
    (a0 a1 a2 : Word) (payload : List Byte) : Flit :=
  { h0 := type ++ ofBool 1 rsp ++ 0#51 ++ BitVec.ofNat 8 payload.length
    h1 := owner ++ src ++ dst ++ tag
    h2 := BitVec.ofNat 56 addr |>.setWidth 64
    a0 := a0, a1 := a1, a2 := a2, fts := 0, h7 := 0, payload := payload }

/-- A flit as it leaves: FSEQ, ACKSEQ, NAK, FTS and CRC. -/
def flSeal (f : Flit) (fseq ack : BitVec 16) (nak : Bool) (fts : Word) : Flit :=
  let f := { f with
    h0 := f.h0 ||| (fseq.setWidth 64 <<< 40) ||| (ack.setWidth 64 <<< 24) ||| (ofBool 64 nak <<< 9)
    fts := fts }
  let f := { f with h7 := 0 }
  { f with h7 := (crc32 (flRaw f)).setWidth 64 }

/-- The panel of a link (R11). -/
def linkPanel (l : Nat) : Nat := l / 4

def State.link (s : State) (l : Nat) : Link := vget s.links l
def State.onLink (s : State) (l : Nat) (f : Link → Link) : State :=
  { s with links := vset s.links l (f (vget s.links l)) }

/-- The link takes one more flit for replay (R190, R410). -/
def Link.room (k : Link) : Bool := !k.down && decide (k.unacked.length < 64)

/-- The 8 ns slot of a link's time, and the flits it has sent in it (R192). -/
def State.slotNow (s : State) (l : Nat) : Nat := (s.ftOf (linkPanel l)).toNat / 8
def State.slotLoad (s : State) (l : Nat) : Nat := if (s.link l).slotNo = s.slotNow l then (s.link l).slotUsed else 0

/-- The link takes one more flit that is no scheduled block: seven fit a slot, and in a reserved slot the schedule's flits go
first (R192). -/
def State.linkRoom (s : State) (l : Nat) : Bool :=
  (s.link l).room && (s.link l).pend.isEmpty && decide (s.slotLoad l < 7) && !((s.link l).outgoing.any fun x => decide (x.slot ≤ s.slotNow l))

/-- Sending a flit: it takes the next FSEQ and is kept until it is acknowledged (R190). -/
def State.sendFlit (s : State) (l : Nat) (f : Flit) : State :=
  let t := s.ftOf (linkPanel l)
  let n := s.slotLoad l
  s.onLink l fun k =>
    let g := flSeal f k.fseq k.lastIn false t
    { k with fseq := k.fseq + 1, unacked := k.unacked ++ [{ flit := g, resends := 0, at0 := s.cycle }],
             out := k.out ++ [g], slotNo := s.slotNow l, slotUsed := n + 1 }

/-- Flits that are no new ones go out in the present slot as far as its seven go, after those that wait; the others wait (R192). -/
def State.emit (s : State) (l : Nat) (fs : List Flit) : State :=
  let n := 7 - s.slotLoad l
  s.onLink l fun k =>
    let all := k.pend ++ fs
    let m := min n all.length
    { k with out := k.out ++ all.take m, pend := all.drop m, slotNo := s.slotNow l, slotUsed := 7 - n + m }

/-- The flits of link `l` that could go out in `slots` whole slots before the present one and in that slot have done so. -/
def State.flush (s : State) (l slots : Nat) : State :=
  let k := s.link l
  if k.pend.isEmpty || k.down then s
  else
    let past := min (7 * slots) k.pend.length
    (s.onLink l fun k => { k with out := k.out ++ k.pend.take past, pend := k.pend.drop past }).emit l []

/-- An idle flit, which takes no FSEQ of its own (log 33). -/
def State.sendIdle (s : State) (l : Nat) (nak : Bool) : State :=
  let k := s.link l
  s.emit l [flSeal (mkFlit 0 false 0 0 0 0 0 0 0 0 []) (k.fseq - 1) k.lastIn nak (s.ftOf (linkPanel l))]

/-! ## Answers to words in progress -/

/-- One answer of a copy word has come, by the word's place in its stream. -/
def Issued.answer (w : Issued) (at0 : Nat) (entry : Option Nat) : Issued :=
  if w.abs = at0 && w.entry = entry then { w with pending := w.pending - 1 } else w

/-- The copy word of a core that waits on an answer. -/
def Core.answer (k : Core) (at0 : Nat) (entry : Option Nat) : Core :=
  { k with c := { k.c with
      prog := k.c.prog.map fun w => w.answer at0 entry
      halt := match k.c.halt with
        | some (.performed w) => some (.performed (w.answer at0 entry))
        | some (.remote t h w) => some (.remote t h (w.answer at0 entry))
        | some (.change d g w) => some (.change d g (w.answer at0 entry))
        | x => x } }

/-- The partner has received every flit up to ACKSEQ (R190): CLSEND words count their answers (R336). -/
def State.linkAck (s : State) (l : Nat) (ack : BitVec 16) : State :=
  let k := s.link l
  let n := (ack - k.lastAck).toNat
  if n = 0 || decide (k.unacked.length < n) then s
  else
    let (got, left) := k.sends.partition fun e => decide ((e.1 - k.lastAck).toNat ≤ n)
    let s := s.onLink l fun k => { k with unacked := k.unacked.drop n, lastAck := ack, sends := left }
    got.foldl (fun s e => s.onCore e.2.1 fun k => k.answer e.2.2 none) s

/-- Sending again from ACKSEQ + 1, in order, as the slots allow (R190, R192). -/
def State.resend (s : State) (l : Nat) : State :=
  let fs := (s.link l).unacked.map (·.flit)
  (s.onLink l fun k => { k with unacked := k.unacked.map fun u => { u with resends := u.resends + 1 }
                                pend := k.pend.filter fun f => flType f == 0 }).emit l fs

/-! ## CLSEND (R335, R336) -/

/-- The kinds of a link word's operand. -/
def linkKinds : List Nat := [1, 2, 3, 7]

/-- A tile holds at most 4,096 bytes. -/
def blockFits (issue : Bool) (s : State) (c : CoreId) (d : Dsc) : Bool :=
  s.fmtAll issue c d fun f => decide (dRows d * f.memBytes (dCols d) ≤ 4096)

/-- The flits of a block. -/
def blockFlits (owner : Tag) (core : CoreId) (sched : BitVec 32) (num : BitVec 12) (bs : List Byte) : List Flit :=
  tabulate ((bs.length + 191) / 192) fun i =>
    mkFlit 5 false owner core core 0 0 (sched ++ 0#20 ++ num) (w64 i) 0 (bs.drop (192 * i) |>.take 192)

/-- The reserved slot from which a CLSEND at a position of the C section occupies its link (R336). -/
def Core.slotOf (k : Core) (pos : Nat) : Option Nat :=
  (k.dueAt .c pos).map fun d => (4 * k.lsStart.toNat + d.1.toNat + 31) / 32

/-- The slots from which the schedule of a core's program reserves link `l`: one for each CLSEND with a due count in its C section. -/
def Core.reserved (k : Core) (l : Nat) : List Nat :=
  (List.range (2 ^ (k.ring .c).size.toNat)).filterMap fun i =>
    match decodeC (k.ringWord ((k.ring .c).wordIdx i)) with
    | some (.clsend _ o) => if o.link.toNat = l then k.slotOf i else none
    | _ => none

/-- The first reserved slot of its schedule that has not begun when a CLSEND issues (R192, R336). Without a due count, and where the
schedule has none left, it is the first slot that has not begun (log 34). -/
def State.firstSlot (s : State) (k : Core) (l : Nat) (rword : BitVec 13) : Nat :=
  let now := (s.ftOf (linkPanel l)).toNat / 8 + 1
  match k.slotOf ((k.ring .c).posOf rword) with
  | none => now
  | some u => if now ≤ u then u else (((k.reserved l).filter fun r => decide (now ≤ r)).min?).getD now

def clsendWord (h : Hdr) (o : ClOp) : EWord :=
  { nopWord .c h with
    ops := [src1 o.d], op := true
    check := fun issue s c ds =>
      let d := ds.getD 0 0
      kindBad 32 d linkKinds ||| opMask 32 (!blockFits issue s c d)
    body := fun w => do
      let s ← getState
      let c := s.cur
      let d := w.dsc 0
      let rows ← (List.range (dRows d)).mapM fun j => readRow c d (w.slot 0) j 0 0
      let bs := (rows.map fun r => r.1.scales ++ r.1.bytes).flatten
      let k := s.core c
      let fs := blockFlits w.ctx c k.lsSched o.block bs
      let x : Outgoing := { core := c, abs := w.abs, slot := s.firstSlot k o.link.toNat w.rword, flits := fs }
      modState fun s => s.onLink o.link.toNat fun q => { q with outgoing := q.outgoing ++ [x] }
      pure { w with pending := fs.length, deferred := bobEnds .c [src1 o.d] w.dscs } }

/-- The block at the head of a link goes out from its slot on, as far as the slot's seven flits go (R192). -/
def execClsendTransmit (link : BitVec 4) (s : State) : Out :=
  let l := link.toNat
  let k := s.link l
  match k.outgoing with
  | [] => .next s
  | x :: xs =>
    let n := min (min (7 - s.slotLoad l) x.flits.length) (64 - k.unacked.length)
    if k.down || n = 0 || !k.pend.isEmpty || decide (s.slotNow l < x.slot) then .next s
    else
      let s1 := (x.flits.take n).foldl (fun s f =>
        (s.onLink l fun q => { q with sends := q.sends ++ [(q.fseq, x.core, x.abs)] }).sendFlit l f) s
      let x' := { x with flits := x.flits.drop n }
      .next (s1.onLink l fun q => { q with outgoing := if x'.flits.isEmpty then xs else x' :: xs })

/-! ## CLRECV and CLRED (R336) -/

/-- The blocks a core holds for a link. -/
def Core.linkBlocks (k : Core) (l : Nat) : List Block := (mapGet k.recv l).getD []

/-- The block a link word matches: its link, its core's schedule id and its block number. -/
def Core.blockFor (k : Core) (o : BitVec 4) (num : BitVec 12) : Option Block :=
  (k.linkBlocks o.toNat).find? fun b => b.sched == k.lsSched && b.num == num

/-- A word takes its block. -/
def takeBlock (c : CoreId) (l : BitVec 4) (num : BitVec 12) : M (List Byte) := do
  let s ← getState
  match (s.core c).blockFor l num with
  | none => throw .stall
  | some b =>
    modState fun s => s.onCore c fun k => { k with recv := mapPut k.recv l.toNat ((k.linkBlocks l.toNat).erase b) }
    pure b.bytes

/-- `n` bytes of a block from a byte on; a byte that the block does not hold is a free value (log 31). -/
def blockRow (bs : List Byte) (at0 n : Nat) : M (List Byte) := do
  let have0 := (bs.drop at0).take n
  let rest ← (List.range (n - have0.length)).mapM fun _ => do
    let w ← freeWord
    pure (field w 0 8)
  pure (have0 ++ rest)

/-- A block cut into the rows of an operand. -/
def blockRows (c : CoreId) (d : Dsc) (slot : Nat) (bs : List Byte) : M (List (Row × Fmt)) := do
  let s ← getState
  let step (acc : List (Row × Fmt) × Nat) (j : Nat) : M (List (Row × Fmt) × Nat) := do
    match Fmt.parse (s.rowEnc c d slot j) with
    | none => raise 0x04 0 0 0
    | some f =>
      let n := f.memBytes (dCols d)
      let b ← blockRow bs acc.2 n
      pure (acc.1 ++ [(rowOfBytes f (dCols d) b, f)], acc.2 + n)
  let r ← (List.range (dRows d)).foldlM step ([], 0)
  pure r.1

/-- Bytes of the block that fills an operand. -/
def State.blockSize (s : State) (c : CoreId) (d : Dsc) : Nat :=
  ((List.range (dRows d)).map fun j =>
    match Fmt.parse (s.rowEnc c d 0 j) with
    | some f => f.memBytes (dCols d)
    | none => 0).sum

/-- The word's block is not whole in the buffer yet. -/
def noBlock (o : BitVec 4) (num : BitVec 12) (s : State) (c : CoreId) (ds : List Dsc) : Bool :=
  match (s.core c).blockFor o num with
  | none => true
  | some b => !b.whole && decide (b.bytes.length < s.blockSize c (ds.getD 0 0))

def clrecvWord (h : Hdr) (o : ClOp) : EWord :=
  { nopWord .c h with
    ops := [dst0 o.d], op := true
    check := fun issue s c ds =>
      let d := ds.getD 0 0
      kindBad 36 d linkKinds ||| opMask 36 (!blockFits issue s c d)
    stall := noBlock o.link o.block
    body := fun w => do
      let s ← getState
      let c := s.cur
      let d := w.dsc 0
      let rows ← blockRows c d (w.slot 0) (← takeBlock c o.link o.block)
      let _ ← copyRows (dRows d) (fun j p => do
        match rows[j]? with
        | none => pure p
        | some (r, f) => do
          let (p', _) ← copyPut c w { d := d, slot := w.slot 0, row := j, own := false } 0 0 f r p
          pure p') w.start
      pure { w with deferred := bobEnds .c [dst0 o.d] w.dscs } }

/-- Formats that decode to values. -/
def someValues (f : Fmt) : Bool := f.elem != .raw

/-- Consecutive pieces of a list, `n` long. -/
def pieces {α : Type} (n : Nat) : Nat → List α → List (List α)
  | 0, _ => []
  | k + 1, xs => xs.take n :: pieces n k (xs.drop n)

def clredWord (h : Hdr) (o : ClredOp) : EWord :=
  { nopWord .c h with
    ops := [dst0 o.d0, src1 o.d1], op := true
    check := fun issue s c ds =>
      let d0 := ds.getD 0 0
      let d1 := ds.getD 1 0
      kindBad 36 d0 linkKinds ||| kindBad 32 d1 linkKinds ||| opMask 32 (dRows d0 * dCols d0 != dRows d1 * dCols d1) |||
        opMask 36 (!(blockFits issue s c d0 && s.fmtAll issue c d0 someValues)) |||
        opMask 32 (!s.fmtAll issue c d1 someValues)
    stall := noBlock o.link o.block
    body := fun w => do
      let s ← getState
      let c := s.cur
      let d0 := w.dsc 0
      let d1 := w.dsc 1
      let mode ← engMode c o.rnd
      let loc ← (List.range (dRows d1)).mapM fun j => readVals c d1 (w.slot 1) j 0 0
      let rows ← blockRows c d0 (w.slot 0) (← takeBlock c o.link o.block)
      let arr := (rows.map fun x => x.1.values x.2 (dCols d0)).flatten
      let sums := (arr.zip loc.flatten).map fun e => sumOp (widen e.1) (widen e.2)
      let _ ← copyRows (dRows d0) (fun j p => do
        match rows[j]? with
        | none => pure p
        | some (_, f) => do
          let vs := (pieces (dCols d0) (dRows d0) sums).getD j []
          let (r, q) := writeRow f mode o.sat vs (← engLfsr c .c)
          let (p', _) ← copyPut c w { d := d0, slot := w.slot 0, row := j, own := false } 0 0 f r p
          setLfsr c .c q
          pure p') w.start
      pure { w with deferred := bobEnds .c [dst0 o.d0, src1 o.d1] w.dscs } }

def execClsend (h : Hdr) (o : ClOp) (s : State) : Out := runE (.clsend h o) (clsendWord h o) s
def execClrecv (h : Hdr) (o : ClOp) (s : State) : Out := runE (.clrecv h o) (clrecvWord h o) s
def execClred (h : Hdr) (o : ClredOp) (s : State) : Out := runE (.clred h o) (clredWord h o) s

end Sys2Proof.Machine
end

