-- ==== Sys2Proof/Machine/MemEvents.lean ====
section
/-! DEFINITION. The events of the memory side: fills, evictions, write-backs, updates, leases, refresh, scrubbing and
clock comparisons (spec 06 R118 to R122, 08 R147 to R158, R162, 09 R168, 25 R382 to R394). -/

namespace Sys2Proof.Machine

/-- BAL brought up to date. -/
def State.balance (s : State) (q : Ctl) : Ctl :=
  { q with bal := s.balNow q, dueAt := q.dueAt + s.refDue q * q.refi }

/-- A record of the memory side (R358, R382, R386, R389). -/
def memRec (owner : Tag) (cls : BitVec 8) (laddr : Nat) (d0 d1 : Word) : Rec :=
  { pass := 0, owner := owner, unit := 6, cont := 3, block := 63, cls := cls, wv := false, core := 0, strm := 0,
    rword := 0, laddr := laddr, d0 := d0, d1 := d1, word := 0 }

/-! ## Fills, evictions and write-backs -/

/-- A missed line is filled: at its home, or as a replica. A fill that fails installs nothing (R379). -/
def execL2Fill (panel : BitVec 2) (owner : Tag) (line : BitVec 50) (s : State) : Out :=
  let l := line.toNat
  let r := regionOf (l * 64)
  if r = 0 || r = 1 || r = 4 then
    runEvent (do
      if panel.toNat = homePanel l then needLine l 3 owner 0
      else
        let _ ← readLine panel.toNat owner (l * 64) 64 0
        pure ()) s
  else .next s

/-- A translation under a leaf, for a line on its way out. -/
def Leaf.xlat (l : Leaf) (la : Nat) : Xlat :=
  { phys := physOf (field l.pte 16 29).toNat l.size la, key := pteKey l.pte, w := pteW l.pte, exp := 0, pte := some l.at0,
    d := pteD l.pte }

/-- The translation of a line on its way out (R115, R128): V alone is needed; none where there is none. -/
def xlatBack (line : Nat) : M (Option Xlat) := do
  let s ← getState
  let la := line * 64
  let h := xlatCtl line
  let ctl := vget s.mem.ctls h
  let c := s.ftOf (h / 2)
  modState fun s => s.dropBad h la
  if !ctl.en then
    let x ← translate la 0
    pure (some x)
  else
    match (if ctl.uncached then none else lookupTc ctl.tc c la) with
    | some e => do
      modState fun s => s.onCtl h fun k => { k with tc := k.tc.map fun e' => if e' = e then e'.renew c else e' }
      pure (some { phys := physOf e.frame.toNat e.size.toNat la, key := e.key.toNat, w := e.w, exp := e.stamp,
                   pte := some e.pte, d := e.d })
    | none => do
      modState fun s => s.pmPanel (h / 2) 0x103 1
      walkOpen h la
      match (← getState).walk h la with
      | none => pure none
      | some l => do
        modState fun s => s.markPte h l.at0 54
        pure (some (l.xlat la))

/-- A line leaves L2. -/
def State.dropLine (s : State) (line : Nat) : State :=
  s.onMem fun m => { m with lines := mapDel m.lines line
                            l2 := setBytes m.l2 (line * 64) (List.replicate 64 0) }

/-- Lines a victim cache holds: 48 MiB (R154). -/
def victimLines : Nat := 786432

/-- The victim cache that serves a physical line has no room for it until it has evicted another. -/
def State.victimFull (s : State) (pline slot : Nat) : Bool :=
  (mapGet s.mem.victims (victimKey pline slot)).isNone &&
    decide (victimLines ≤ (s.mem.victims.filter fun e => physCtl (e.1 / 256 * 64) == physCtl (pline * 64)).length)

/-- A line placed in the victim cache that serves its frame (R154). -/
def State.toVictim (s : State) (phys : Nat) (key : BitVec 8) (owner : Tag) (dirty : Bool) (d : BitVec 512) : State :=
  let v : Victim := { key := key, owner := owner, dirty := dirty, err := 0, cor := false, data := d }
  s.onMem fun m => { m with victims := mapPut m.victims (victimKey (phys / 64) key.toNat) v }

/-- The page of a line is draining (R129). -/
def State.draining (s : State) (line : Nat) : Bool :=
  match s.walk (xlatCtl line) (line * 64) with
  | some l => pteDrain l.pte
  | none => false

/-! ### Occupancy (R151) -/

/-- OCC of an owner tag on a panel: lines homed there, replicas, and page-table lines, which have tag 0 (R115). -/
def State.occOf (s : State) (p t : Nat) : Nat :=
  (s.mem.lines.filter fun e => homePanel e.1 == p && e.2.owner.toNat == t).length +
    (s.mem.replicas.filter fun e => e.1 / 2 ^ 50 == p && e.2.owner.toNat == t).length +
    (if t = 0 then (s.mem.pt.filter fun e => homePanel e.1 == p).length else 0)

/-- An owner holds more lines on a panel than its LIMIT. -/
def State.overLimit (s : State) (p : Nat) (t : Tag) : Bool :=
  decide (((mapGet s.mem.limits (p * 4096 + t.toNat)).getD 0xFFFFFF).toNat < s.occOf p t.toNat)

/-- The owners of the lines in one set of slice `k`. -/
def State.setOwners (s : State) (k n : Nat) : List Tag :=
  ((s.mem.lines.filter fun e => sliceOfLine e.1 == k && Config.l2Set false e.1 == n).map (·.2.owner)) ++
    ((s.mem.replicas.filter fun e => e.1 / 2 ^ 50 * 64 + sliceOfLine (e.1 % 2 ^ 50) % 64 == k &&
      Config.l2Set false (e.1 % 2 ^ 50) == n).map (·.2.owner)) ++
    ((s.mem.pt.filter fun e => sliceOfLine e.1 == k && Config.l2Set true e.1 == n).map fun _ => 0)

/-- The slice may choose a line of an owner: where its set holds a line of an owner over its LIMIT, it chooses such a line. -/
def State.mayChoose (s : State) (p k n : Nat) (owner : Tag) : Bool :=
  s.overLimit p owner || !(s.setOwners k n).any (s.overLimit p)

/-! ### Evictions -/

/-- A clean line goes to the victim cache of its frame; where another line of the frame is there, or the frame holds other bytes
since its page has moved (R128), it is only dropped (log 84). -/
def keepClean (line : Nat) (t : Line) : M Unit := do
  match ← attempt (xlatBack line) with
  | .ok (some x) => do
    let s ← getState
    if 2 ^ 39 ≤ x.phys then throw (.halt (.noMemory x.phys))
    let p := x.phys / 64
    let d := s.lineData line
    if (mapGet s.mem.victims (victimKey p t.key.toNat)).isNone && s.hbmLine p t.key.toNat == d then
      stallIf (s.victimFull p t.key.toNat)
      modState fun s => s.toVictim x.phys t.key t.owner false d
  | _ => pure ()
  modState fun s => s.dropLine line

/-- A homed line is evicted (R129, R149, R154, R389, R390). -/
def evictLine (l : Nat) (t : Line) : M Unit := do
  let s ← getState
  if t.failed then pure ()
  else if t.err != 0 then do
    appendFault (homePanel l) (memRec t.owner 0x30 (l * 64) 3 (w64 (l * 64)))
    modState fun s =>
      if t.dirty then s.onMem fun m => { m with lines := mapPut m.lines l { t with failed := true } } else s.dropLine l
  else if !t.dirty then keepClean l t
  else if s.draining l then pure ()
  else
    let b : WriteBack := { line := l, data := s.lineData l, key := t.key, owner := t.owner }
    modState fun s => (s.onMem fun m => { m with writebacks := m.writebacks ++ [b] }).dropLine l

/-- A page-table line is evicted into the victim cache of its controller; where it is dirty that is a demand write (R115, R154,
R157). -/
def evictPt (l : Nat) (t : PtLine) : M Unit := do
  let s ← getState
  let gone (s : State) : State := s.onMem fun m => { m with pt := mapDel m.pt l }
  if t.failed then pure ()
  else if t.err != 0 then do
    appendFault (homePanel l) (memRec 0 0x30 0 3 (w64 (l * 64)))
    modState fun s => if t.dirty then s.onMem fun m => { m with pt := mapPut m.pt l { t with failed := true } } else gone s
  else do
    stallIf (s.victimFull l 0)
    modState fun s => gone ((if t.dirty then s.demand l else s).toVictim (l * 64) 0 0 t.dirty t.data)

/-- A replica is dropped; one with an uncorrectable error is reported to the line's owner (R389). -/
def evictReplica (p l : Nat) (r : Replica) : M Unit := do
  if r.err != 0 then appendFault p (memRec r.owner 0x30 (l * 64) 3 (w64 (l * 64)))
  modMem fun m => { m with replicas := mapDel m.replicas (replicaKey p l) }

/-- An L2 line is evicted: a replica, a homed line, or a page-table line. -/
def execL2Eviction (panel : BitVec 2) (line : L2Name) (s : State) : Out :=
  let p := panel.toNat
  match line with
  | .table n =>
    let l := n.toNat
    match mapGet s.mem.pt l with
    | some t =>
      if p = homePanel l && s.mayChoose p (sliceOfLine l) (Config.l2Set true l) 0 then runEvent (evictPt l t) s else .next s
    | none => .next s
  | .line n =>
    let l := n.toNat
    let set := Config.l2Set false l
    if p ≠ homePanel l then
      match mapGet s.mem.replicas (replicaKey p l) with
      | some r =>
        if s.mayChoose p (64 * p + sliceOfLine l % 64) set r.owner then runEvent (evictReplica p l r) s else .next s
      | none => .next s
    else
      match s.line? l with
      | some t => if s.mayChoose p (sliceOfLine l) set t.owner then runEvent (evictLine l t) s else .next s
      | none => .next s

/-- D set in the PTE of a line by an atomic OR at its home slice, then in the entry through which it is written back (R122).
After a split the PTE is the small leaf (R131). -/
def setDirty (line : Nat) (x : Xlat) : M Unit := do
  match x.pte with
  | none => pure ()
  | some p =>
    if !x.d then do
      let h := xlatCtl line
      ptOpen (line * 64) p
      let s ← getState
      let at0 ← (if pteSize (s.ptWord p) = 3 then do
          walkOpen h (line * 64)
          pure ((((← getState).walk h (line * 64)).map (·.at0)).getD p)
        else pure p)
      modState fun s => (s.markPte h at0 55).onCtl h fun q =>
        { q with tc := q.tc.map fun e => if e.pte = p && e.covers (line * 64) then { e with d := true } else e }

/-- A write-back is performed under a translation, or discarded with a record (R128, R379, R382). -/
def backLine (b : WriteBack) (look : M (Option Xlat)) (land : Xlat → M Unit) : M Unit := do
  let h := xlatCtl b.line
  match ← attempt look with
  | .error f => appendFault (homePanel b.line) (memRec b.owner f.cls (b.line * 64) f.d0 f.d1)
  | .ok none => do
    modState fun s => s.onCtl h fun q => { q with disc := satInc q.disc }
    appendFault (homePanel b.line) (memRec b.owner 0x12 (b.line * 64) 0 0)
  | .ok (some x) => do
    let s ← getState
    if (s.keyOf b.key.toNat).retired then
      appendFault (homePanel b.line) (memRec b.owner 0x41 (b.line * 64) (b.key.setWidth 64) (w64 x.phys))
    else if 2 ^ 39 ≤ x.phys then throw (.halt (.noMemory x.phys))
    else
      match ← attempt (setDirty b.line x) with
      | .error f => appendFault (homePanel b.line) (memRec b.owner f.cls (b.line * 64) f.d0 f.d1)
      | .ok _ => land x

/-- The k-th write-back in flight reaches its controller: a demand write (R157). -/
def execWritebackArrival (k : Nat) (s : State) : Out :=
  match s.mem.writebacks[k]? with
  | none => .next s
  | some b =>
    runEvent (do
      modMem fun m => { m with writebacks := listDrop m.writebacks k }
      backLine b (xlatBack b.line) fun x => do
        let s ← getState
        stallIf (s.victimFull (x.phys / 64) b.key.toNat)
        modState fun s => (s.demand (x.phys / 64)).toVictim x.phys b.key b.owner true b.data) s

/-- A victim-cache line is evicted; a dirty one is written to HBM (R154, R156). One with an uncorrectable error stays. -/
def execVictimEviction (ctl : BitVec 3) (pline : BitVec 42) (s : State) : Out :=
  let p := pline.toNat
  if physCtl (p * 64) ≠ ctl.toNat || s.hbmBusy ctl.toNat then .next s
  else
    match s.mem.victims.find? fun e => e.1 / 256 == p && e.2.err == 0 with
    | none => .next s
    | some (k, v) =>
      let s := if v.cor then s.onCtl ctl.toNat Ctl.corrected else s
      let s := if v.dirty then s.setHbmLine p (k % 256) v.data else s
      .next (s.onMem fun m => { m with victims := mapDel m.victims k })

/-! ## Leases (R118 to R122) -/

/-- The re-read of an entry's PTE is performed (R121). An entry whose PTE cannot be read goes. -/
def execLeaseReread (ctl : BitVec 3) (k : Nat) (s : State) : Out :=
  let h := ctl.toNat
  match (vget s.mem.ctls h).tc[k]? with
  | none => .next s
  | some e =>
    if e.bad then .next (s.onCtl h fun q => { q with tc := listDrop q.tc k })
    else if !e.reread then .next s
    else
      runEvent (do
        modState fun s => s.pmPanel (h / 2) 0x104 1
        match ← attempt (ptOpen (e.page * 2 ^ pageBits e.size.toNat) e.pte) with
        | .error _ => modState fun s => s.onCtl h fun q => { q with tc := listDrop q.tc k }
        | .ok _ => do
          modState fun s => s.markPte h e.pte 54
          modState fun s =>
            let w := s.ptWord e.pte
            let keep := pteV w && !pteDrain w && pteLease w != 0 && pteSize w == e.size.toNat && field w 0 16 == 0
            let e' : TcEntry :=
              { e with frame := field w 16 29, key := field w 46 8, w := pteW w, d := pteD w, lease := field w 58 4,
                       stamp := s.ftOf (homePanel (e.pte / 64)), reread := false, bad := false }
            s.onCtl h fun q => { q with tc := if keep then listSet q.tc k e' else listDrop q.tc k }) s

/-- A dead entry goes (R120), and one with a parity error (R395). -/
def execTcEntryExpiry (ctl : BitVec 3) (k : Nat) (s : State) : Out :=
  let h := ctl.toNat
  match (vget s.mem.ctls h).tc[k]? with
  | none => .next s
  | some e =>
    if e.live (s.ftOf (h / 2)) && !e.bad then .next s else .next (s.onCtl h fun q => { q with tc := listDrop q.tc k })

/-! ## Updates (R168) -/

/-- The conditions under which a panel applies an update, with the updates before it in flight. -/
def Mem.mayApply (m : Mem) (before : List Update) (u : Update) : Bool :=
  let v := vget m.clocks u.panel
  vcAt v u.src + 1 == vcAt u.stamp u.src &&
    ((List.range 4).all fun j => j == u.src || decide (vcAt u.stamp j ≤ vcAt v j)) &&
    !(before.any fun b => b.panel == u.panel && b.line == u.line)

/-- The k-th update in flight to a panel is applied once its clock conditions hold. -/
def execUpdateApply (panel : BitVec 2) (k : Nat) (s : State) : Out :=
  match s.mem.updates[k]? with
  | none => .next s
  | some u =>
    if u.panel = panel.toNat && s.mem.mayApply (s.mem.updates.take k) u then
      .next (s.onMem fun m => { m with updates := listDrop m.updates k }.applyUpdate u)
    else .next s

/-! ## Refresh (R156, R392) -/

/-- A refresh that is due or pulled in starts. -/
def execRefresh (stack : BitVec 3) (s : State) : Out :=
  let q := vget s.mem.ctls stack.toNat
  if q.refreshing || decide (8 ≤ s.balNow q) then .next s
  else .next (s.onCtl stack.toNat fun q => { s.balance q with bal := s.balNow q + 1, refreshing := true })

/-- tRFC ends. -/
def execRefreshEnd (stack : BitVec 3) (s : State) : Out :=
  .next (s.onCtl stack.toNat fun q => { q with refreshing := false })

/-- A stack's temperature crosses 85 °C: tREFI changes from here on. -/
def execStackTemperatureCrossing (stack : BitVec 3) (hot : Bool) (s : State) : Out :=
  .next (s.onCtl stack.toNat fun q => { s.balance q with hot := hot, dueAt := s.cycle })

/-! ## Scrubbing (R152, R157) -/

/-- The physical address at an offset of a stack. -/
def physOfStack (h o : Nat) : Nat :=
  let hi := o / 256
  let top := hi * 2048 + o % 256
  top + 256 * (h ^^^ (top / 2 ^ 17 % 8) ^^^ (top / 2 ^ 26 % 8))

/-- The scrubber reads its next granule. -/
def execScrubRead (stack : BitVec 3) (s : State) : Out :=
  let h := stack.toNat
  let q := vget s.mem.ctls h
  if !q.scrubEn || q.srate == 0 || s.hbmBusy h || q.scrub.isSome then .next s
  else
    let g := physOfStack h q.scrubPos.toNat / 64
    let s := s.onCtl h fun q => { q with scrubPos := q.scrubPos + 64 }
    if s.mem.hbmUnc.contains g then
      runEvent (do
        modState fun s => s.onCtl h fun q => { q with uncorr := satInc q.uncorr }
        appendFault (h / 2) (memRec 0 0x30 0 5 (w64 (g * 64)))) s
    else if s.mem.hbmCor.contains g then
      .next (s.onCtl h fun q => { q with scrub := some (g, lineOf (bytesAt s.mem.hbm (g * 64) 64)) })
    else .next s

/-- The corrected granule is written back and counted; a demand write since the read has cancelled it (R391). -/
def execScrubWriteback (stack : BitVec 3) (s : State) : Out :=
  match (vget s.mem.ctls stack.toNat).scrub with
  | none => .next s
  | some (g, d) =>
    if s.hbmBusy stack.toNat then .next s
    else .next ((s.onMem fun m => { m with
      hbm := setBytes m.hbm (g * 64) (lineBytes d)
      hbmCor := m.hbmCor.filter (· != g) }).onCtl stack.toNat fun q => { q with corr := satInc q.corr, scrub := none })

/-! ## Clock skew (R132, R386) -/

/-- A controller compares its replica with the master. Where it is too far off, every translation cache is emptied; DEDUCED, safe
(log 148): what L2 lines hold of the expiries of its entries (R380) goes with them. -/
def execSkewCompare (ctl : BitVec 3) (s : State) : Out :=
  let h := ctl.toNat
  let d := s.ftOf (h / 2) - s.ft
  let far := decide (16 < d.toInt.natAbs)
  let s := s.onCtl h fun q => { q with skew := field d 0 16 }
  if far then
    let s := s.onMem fun m => { m with
      ctls := m.ctls.map fun q => { q with tc := [], uncached := true, good := 0 }
      lines := m.lines.map fun e => (e.1, { e.2 with exp := 0 }) }
    runEvent (appendTo 0 (h / 2) (memRec 0 0x15 0 (w64 h) ((field d 0 16).setWidth 64))) s
  else
    let s := s.onCtl h fun q => { q with good := if q.good = 3 then 3 else q.good + 1 }
    if (List.range 8).all fun i => (vget s.mem.ctls i).good == 3 then
      .next (s.onMem fun m => { m with ctls := m.ctls.map fun q => { q with uncached := false } })
    else .next s

/-! ## The constant path (R162, R394) -/

/-- The constant cache of panel `p` holds nothing. -/
def Mem.dropConst (m : Mem) (p : Nat) : Mem := { m with const := m.const.filter fun e => e.1 / 2 ^ 50 != p }

def execCcinv (p : BitVec 2) (s : State) : Out := .next (s.onMem fun m => m.dropConst p.toNat)

end Sys2Proof.Machine
end

