-- ==== Sys2Proof/Machine/Tree.lean ====
section
/-! DEFINITION. The change tree: the node table, the roll-up engines, the tree words and their events (spec 07, 14 R264,
24 R374, 25 R393). -/

namespace Sys2Proof.Machine

/-! ## Addresses of the access unit -/

/-- The address of an access of `n` bytes translated through a set (R108). -/
def xlateBy (set : RangeSet) (va : Word) (n need : Nat) : M Nat :=
  match rangeTranslate set va n need with
  | .ok la => pure la
  | .bad cls d0 => raise cls 0 d0 (w64 need)

/-- An A-unit address of an access of `n` bytes translated through the unit's set (R108, R111). -/
def aXlate (va : Word) (n need : Nat) : M Nat := do xlateBy (← aSet) va n need

/-- An address translated through set(CTX) whatever PRIV is (R249, R264). -/
def ctxXlate (va : Word) (n need : Nat) : M Nat := do xlateBy (← getCore).rangeSet va n need

/-- The tag the A unit acts under. -/
def aTag : M Tag := do
  let k ← getCore
  pure k.tag

/-- The bits of the word that name source register 1, 2 or 3 of format RR. -/
def regMask (i : Nat) : Word := maskIf true (35 - 5 * i) 5

/-! ## The node table (R134, R135) -/

def State.rollup (s : State) (p : Nat) : RollUp := vget s.tree.engines p
def State.onRollup (s : State) (p : Nat) (f : RollUp → RollUp) : State :=
  { s with tree := { s.tree with engines := vset s.tree.engines p (f (vget s.tree.engines p)) } }

/-- "None". -/
def noNode : Nat := 0xFFFFFF

/-- The lining address of word `i` of node `n`'s entry. -/
def State.nodeAddr (s : State) (n i : Nat) : Nat := (s.rollup 0).ntBase.toNat * 2 ^ 29 + 32 * n + 8 * i

/-- The roll-up engine of a node: its entry's panel (R141). -/
def State.nodeEngine (s : State) (n : Nat) : Nat := homePanel (s.nodeAddr n 0 / 64)

/-- A lost entry (R393). -/
def treeLost (n p : Nat) (f : Flt) : M Unit := do
  modState fun s => s.onRollup p fun e => { e with err := true, errNode := BitVec.ofNat 24 n }
  appendTo 0 p (memRec 0 0x30 f.laddr f.d0 f.d1)

/-- Word `i` of a node's entry, read at its home. An uncorrectable error is recorded and ends the reader; an entry that
cannot be reached otherwise reads 0 (log 27). -/
def nodeWord (n i : Nat) : M Word := do
  let s ← getState
  let la := s.nodeAddr n i
  let p := homePanel (la / 64)
  match ← unitTry (attempt (memRead p 0 la 8 0)) with
  | some (.ok b) => pure (wordOf b)
  | some (.error f) =>
    if f.cls = 0x30 then do
      treeLost n p f
      throw (.fault f)
    else pure 0
  | none => pure 0

/-- Writing word `i` of an entry at its home, as a write of panel `p` (R167): no change of R140. -/
def nodePut (p n i : Nat) (w : Word) : M Unit := do
  let s ← getState
  let _ ← unitTry (memWrite p 0 (s.nodeAddr n i) (bytesOfW 8 w) 0 .inner)
  pure ()

/-- The answer of engine 0 comes after the last write of an entry or record: its panel applies what that write needs (R169). -/
def treeSee (la : Nat) : M Unit :=
  modState fun s => s.onMem fun m => m.catchUp (panelOf s.cur) (s.stampOf (la / 64))

def ndLive (w : Word) : Bool := bit w 63
def ndLeaf (w : Word) : Bool := bit w 62
def ndShr (w : Word) : Bool := bit w 61
def ndWlk (w : Word) : Bool := bit w 60
def ndOwner (w : Word) : Tag := field w 24 12
def ndParent (w : Word) : Nat := (field w 0 24).toNat
def ndPatches (w : Word) : Nat := (field w 32 32).toNat
def ndChildren (w : Word) : Nat := (field w 0 32).toNat
def ndGen (w : Word) : BitVec 32 := field w 32 32

/-- Word 1 of an entry with its parent field written. -/
def ndWithParent (w : Word) (p : Nat) : Word := field w 24 40 ++ BitVec.ofNat 24 p

/-- Word 2 of an entry. -/
def ndCounts (patches children : Nat) : Word := BitVec.ofNat 32 patches ++ BitVec.ofNat 32 children

/-- A handle (R135). -/
def handleOf (gen : BitVec 32) (n : Nat) : Word := 0#8 ++ gen ++ BitVec.ofNat 24 n

/-- The node a handle names, while it is valid. -/
def handleNode (h : Word) : M (Option Nat) := do
  let n := (field h 0 24).toNat
  if field h 56 8 != 0 || n = noNode then pure none
  else
    let w ← nodeWord n 1
    let g ← nodeWord n 3
    pure (if ndLive w && ndGen g == field h 24 32 then some n else none)

/-- The node of a handle that must be valid. -/
def needNode (h : Word) : M Nat := do
  match ← handleNode h with
  | some n => pure n
  | none => raise 0x40 0 h 3

/-- R136: reading, settling and building under a node; owning it. -/
def mayRead (t : Tag) (w : Word) : Bool := t == 0 || ndOwner w == t || ndShr w
def mayOwn (t : Tag) (w : Word) : Bool := t == 0 || ndOwner w == t

/-- A count of an entry's children or patches moved. -/
def nodeCount (n : Nat) (patches children : Int) : M Unit := do
  let w ← nodeWord n 2
  nodePut 0 n 2 (ndCounts ((ndPatches w : Int) + patches).toNat ((ndChildren w : Int) + children).toNat)

/-! ## Deltas (R141 to R143) -/

/-- A delta of 1 for a node. -/
def State.putDelta (s : State) (n : Nat) (rise : Bool) (move : Nat) (below : List (BitVec 24)) : State :=
  let d : Delta := { node := BitVec.ofNat 24 n, amount := 1, engine := s.nodeEngine n, rise := rise, move := move, below := below }
  { s with tree := { s.tree with deltas := s.tree.deltas ++ [d] } }

/-- A delta of 1 starts at a node and rises. -/
def State.addDelta (s : State) (n : Nat) : State := s.putDelta n true 0 []

/-- A node and its ancestors, read one after another: a read that stalls stalls the reader (R129). -/
def chain : Nat → Nat → M (List Nat)
  | 0, _ => pure []
  | fuel + 1, n =>
    if n = noNode then pure []
    else do
      let w ← nodeWord n 1
      let r ← chain fuel (ndParent w)
      pure (n :: r)

/-- Nodes in the table bound a chain. -/
def pathOf (n : Nat) : M (List Nat) := chain (2 ^ 24) n

/-- Some element of a list passes a test, in order. -/
def anyM {α : Type} (f : α → M Bool) : List α → M Bool
  | [] => pure false
  | x :: xs => do if ← f x then pure true else anyM f xs

/-- The home panel of a patch (R139). -/
def patchPanel (x : Nat) : Nat := homePanel (x * 1024)

/-- The records of a slice's table begin here (R137). -/
def State.tableAt (s : State) (k : Nat) : Nat :=
  let e := s.rollup (k / 64)
  e.ptBase.toNat * 65536 + k % 64 * 2 ^ e.ptLog.toNat * 16

/-- The slice that holds a patch's record (R139). -/
def patchSlice (x : Nat) : Nat := sliceOfLine (x * 1024)

/-- Records that a slice's table holds (R137). -/
def State.tableSize (s : State) (k : Nat) : Nat := 2 ^ (s.rollup (k / 64)).ptLog.toNat

/-- The place of a patch's record in its slice's table. -/
def State.patchAt (s : State) (x : Nat) (r : Patch) : Nat := s.tableAt (patchSlice x) + 16 * r.place

/-- The place of a new record of a patch: the first of its slice's table that no record has (log 54). -/
def State.freePlace (s : State) (x : Nat) : Nat :=
  let used := (s.tree.patches.filter fun e => patchSlice e.1 == patchSlice x).map (·.2.place)
  ((List.range (s.tableSize (patchSlice x))).find? fun i => !used.contains i).getD 0

/-- The first word of a record: patch number and leaf, whose fields overlap in bits [23:16] (R137): free bits (log 54). -/
def recordWord (x leaf : Nat) (w : Word) : Word :=
  (field (w64 (x * 65536)) 24 40 ++ field w 16 8 ++ BitVec.ofNat 16 leaf)

/-- A record that cannot be read (R393): all ones for the node. -/
def patchLost (x : Nat) (f : Flt) : M Unit := treeLost noNode (patchPanel x) f

/-- Writing bytes of a patch's record at its home. -/
def patchPut (x la : Nat) (bs : List Byte) : M Unit := do
  match ← unitTry (attempt (memWrite (patchPanel x) 0 la bs 0 .inner)) with
  | some (.error f) => if f.cls = 0x30 then patchLost x f
  | _ => pure ()

/-- A patch's record as memory holds it (R137): its leaf and its count; none where the slice's table at its present place does not
hold it, or where it is lost. Of the leaf, the bits that the first word gives to the patch number too are those of the enrolment
(log 54). -/
def patchRecord (x : Nat) (r : Patch) : M (Option (Nat × Word)) := do
  let s ← getState
  let la := s.patchAt x r
  if decide (s.tableSize (patchSlice x) ≤ r.place) then pure none
  else
    match ← unitTry (attempt (memRead (homePanel (la / 64)) 0 la 16 0)) with
    | some (.ok b) =>
      let w := wordOf (b.take 8)
      if field w 24 32 == field (w64 (x * 65536)) 24 32 then
        pure (some ((field r.leaf 16 8 ++ field w 0 16).toNat, wordOf (b.drop 8)))
      else pure none
    | some (.error f) =>
      if f.cls = 0x30 then do
        patchLost x f
        pure none
      else pure none
    | none => pure none

/-- A change that has not been applied to node `n` and has it on its path. -/
def unsettled (n : Nat) : M Bool := do
  let s ← getState
  if ← anyM (fun (d : Delta) =>
      if d.rise then do
        let ns ← pathOf d.node.toNat
        pure (ns.contains n)
      else pure (d.node.toNat == n)) s.tree.deltas then pure true
  else
    anyM (fun (x : Nat) => do
      match mapGet s.tree.patches x with
      | none => pure false
      | some r => do
        match ← patchRecord x r with
        | some (leaf, _) => do
          let ns ← pathOf leaf
          pure (ns.contains n)
        | none => pure false) s.tree.changes

/-- Every change that has a node on its path is applied to it, or the step waits (R143). -/
def settle (n : Nat) : M Unit := do stallIf (← unsettled n)

/-- A change reaches its patch's home (R137, R140): the count in the record rises, and a delta starts at the leaf. -/
def execPatchChange (k : Nat) (s : State) : Out :=
  match s.tree.changes[k]? with
  | none => .next s
  | some x =>
    let s1 := { s with tree := { s.tree with changes := listDrop s.tree.changes k } }
    match mapGet s.tree.patches x with
    | none => .next s1
    | some r =>
      if !(s.rollup (patchPanel x)).en then .next s1
      else
        match (do
          match ← patchRecord x r with
          | none => pure ()
          | some (leaf, n) => do
            patchPut x ((← getState).patchAt x r + 8) (bytesOfW 8 (n + 1))
            modState fun s => s.addDelta leaf : M Unit) s1 with
        | .ok _ s2 => .next (s2.undrainAt (unitTree (patchPanel x)))
        | .error (.halt f) _ => .fault f
        | .error (.drain h p) _ => .next (s.addDrainAt (unitTree (patchPanel x)) h p)
        | .error _ _ => .next s

/-- A Gatherer's view of a locked WID's count. -/
def setView (views : List (Word × Word)) (w c : Word) : List (Word × Word) := (w, c) :: views.filter fun e => e.1 != w

/-- A new count of a node is sent for every locked WID bound to it (R42, R55). DESIGN CHOICE, unsafe (log 142): a
notice is applied at every Gatherer in the step that raises the count. -/
def State.noteCount (s : State) (n : Nat) (c : Word) : State :=
  let ws := (s.ws.wids.filter fun e => e.2.locked && (field e.2.node 0 24).toNat == n).map (·.2.wid)
  if ws.isEmpty then s
  else { s with gath := s.gath.map fun g => { g with views := ws.foldl (fun v w => setView v w c) g.views },
                host := { s.host with swDue := true } }

/-- A roll-up engine applies a delta to its node and forwards it (R141). -/
def applyDelta (d : Delta) : M Unit := do
  let n := d.node.toNat
  let c ← nodeWord n 0
  let w ← nodeWord n 1
  let c' := c + w64 d.amount
  nodePut ((← getState).nodeEngine n) n 0 c'
  modState fun s => (s.pmPanel (s.nodeEngine n) 0x106 1)
  if ndWlk w then modState fun s => s.noteCount n c'
  if d.rise && ndParent w != noNode then
    modState fun s =>
      let d' := { d with node := field w 0 24, engine := s.nodeEngine (ndParent w) }
      { s with tree := { s.tree with deltas := s.tree.deltas ++ [d'] } }

/-- A delta of a TREPAR waits for those of the nodes beneath (R142). -/
def State.deltaHeld (s : State) (d : Delta) : Bool :=
  s.tree.deltas.any fun e => e.move == d.move && d.below.contains e.node

def execDeltaApply (k : Nat) (s : State) : Out :=
  match s.tree.deltas[k]? with
  | none => .next s
  | some d =>
    if !(s.rollup (s.nodeEngine d.node.toNat)).en || s.deltaHeld d then .next s
    else
      runUnit (unitTree (s.nodeEngine d.node.toNat)) (do
        modState fun s => { s with tree := { s.tree with deltas := listDrop s.tree.deltas k } }
        let _ ← attempt (applyDelta d)
        pure ()) s

/-! ## Registers with a rule of their own (R137, R393) -/

def execPtcapWrite (p : BitVec 2) (value : Word) (s : State) : Out :=
  let v := field value 0 5
  .next (s.onRollup p.toNat fun e => { e with ptLog := if 16 < v.toNat then 16 else v })

def execRerrClear (p : BitVec 2) (value : Word) (s : State) : Out :=
  .next (s.onRollup p.toNat fun e => { e with err := e.err && !bit value 63 })

/-! ## The tree words (R144, R145, R264) -/

/-- A move has still to be performed: engine 0 takes the structural words one after another (R138, R145). -/
def State.moving (s : State) : Bool := s.cores.any fun e => !e.2.aMoves.isEmpty

/-- A structural word waits at engine 0 while EN is 0. -/
def treeOn : M Unit := do
  let s ← getState
  stallIf (!(s.rollup 0).en || s.moving)

/-- Class 0x30 while a lost entry has not been repaired; its details are free values. -/
def treeErr : M Unit := do
  let s ← getState
  if (List.range 4).any fun p => (s.rollup p).err then
    let a ← freeWord
    let b ← freeWord
    raise 0x30 0 a b

/-- A node taken from the free list under node `p` for tag `t`, `b` what tag 0 says of its owner and SHR: its handle, all
ones where the list is empty (R144). -/
def newNode (p : Nat) (t : Tag) (b : Word) : M Word := do
  let s ← getState
  let n := (s.rollup 0).freeHead.toNat
  if n = noNode then pure allOnes
  else
    let free ← nodeWord n 1
    let gen ← nodeWord n 3
    let own : Tag := if t = 0 then field b 0 12 else t
    let shr := t == 0 && bit b 12
    modState fun s => s.onRollup 0 fun e => { e with freeHead := field free 0 24, freeNum := e.freeNum - 1 }
    nodePut 0 n 0 0
    nodePut 0 n 1 (1#1 ++ 0#1 ++ ofBool 1 shr ++ 0#25 ++ own ++ BitVec.ofNat 24 p)
    nodePut 0 n 2 0
    nodeCount p 0 1
    modState fun s => s.addDelta p
    pure (handleOf (ndGen gen) n)

def execTnode (h : Hdr) (o : RR3) (s : State) : Out :=
  runA (.tnode h o) h false noBad (do
    treeOn
    let a ← rdA o.s1
    let b ← rdA o.s2
    let t ← aTag
    let p ← needNode a
    let w ← nodeWord p 1
    if !mayRead t w then raise 0x03 0 0 0
    if ndLeaf w then raise 0x04 0 (regMask 1) 0
    wrA o.d (← newNode p t b)
    pure .next) s

/-- The leaf and the lining address of an enrolment: R367's order of R374's checks. -/
def treeRange (hd va size : Word) (kids : Bool) : M (Nat × Nat) := do
  let t ← aTag
  let leaf ← handleNode hd
  match leaf with
  | some n => do
    let w ← nodeWord n 1
    if !mayOwn t w then raise 0x03 0 0 0
    let c ← nodeWord n 2
    if kids && ndChildren c != 0 then raise 0x04 0 (regMask 1) 0
  | none => pure ()
  if field va 0 16 != 0 then raise 0x04 0 (regMask 2) 0
  if size.toNat % 65536 != 0 || size = 0 || decide (2 ^ 30 < size.toNat) then raise 0x04 0 (regMask 3) 0
  let la ← ctxXlate va size.toNat 1
  if kids && (2 ≤ regionOf la || 2 ≤ regionOf (la + size.toNat - 1)) then raise 0x04 la (regMask 2) 0
  match leaf with
  | some n => pure (n, la)
  | none => raise 0x40 0 hd 3

/-- The patches of a range. -/
def patchesOf (la size : Nat) : List Nat := tabulate (size / 65536) fun i => la / 65536 + i

/-- Every slice's table has room for the new records (R137). -/
def State.patchRoom (s : State) (new : List Nat) : Bool :=
  new.all fun x =>
    let c := patchSlice x
    decide ((s.tree.patches.filter fun e => patchSlice e.1 == c).length + (new.filter fun y => patchSlice y == c).length ≤
      2 ^ (s.rollup (c / 64)).ptLog.toNat)

/-- Patches enrolled at a leaf (R144): their records, the leaf's count and its mark, and one delta. -/
def enrol (leaf : Nat) (ps : List Nat) : M Unit := do
  ps.forM fun x => do
    let r : Patch := { leaf := BitVec.ofNat 24 leaf, place := (← getState).freePlace x }
    let w ← freeWord
    modState fun s => { s with tree := { s.tree with patches := mapPut s.tree.patches x r } }
    patchPut x ((← getState).patchAt x r) (bytesOfW 8 (recordWord x leaf w) ++ bytesOfW 8 0)
  nodeCount leaf ps.length 0
  let w ← nodeWord leaf 1
  nodePut 0 leaf 1 (w ||| (1#64 <<< 62))
  modState fun s => s.addDelta leaf

/-- Patches taken from a leaf (R144): what is left in the places of their records is free. -/
def unrol (leaf : Nat) (ps : List Nat) : M Unit := do
  ps.forM fun x => do
    match mapGet (← getState).tree.patches x with
    | some r => patchPut x ((← getState).patchAt x r) (← freeBytes 16)
    | none => pure ()
    modState fun s => { s with tree := { s.tree with patches := mapDel s.tree.patches x } }
  nodeCount leaf (-(ps.length : Int)) 0
  let c ← nodeWord leaf 2
  let w ← nodeWord leaf 1
  if ndPatches c = 0 then nodePut 0 leaf 1 (w &&& ~~~(1#64 <<< 62))
  modState fun s => s.addDelta leaf

/-- Every patch has a record of this leaf. -/
def patchesAt (leaf : Nat) (ps : List Nat) : M Bool := do
  let no ← anyM (fun x => do
    match mapGet (← getState).tree.patches x with
    | some r => do
      let q ← patchRecord x r
      pure (q.map (·.1) != some leaf)
    | none => pure true) ps
  pure !no

/-- The nodes of a chain beneath one of it. -/
def beneath (n : Nat) (chain : List Nat) : List Nat := if chain.contains n then chain.takeWhile (· != n) else []

/-- The deltas of a TREPAR: 1 for every node of the union of two chains, from each chain's lower nodes up (R142, R145). -/
def State.moveDeltas (s : State) (old new : List Nat) : State :=
  let m := s.tree.moves + 1
  let s := { s with tree := { s.tree with moves := m } }
  ((old ++ new).eraseDups).foldl (fun s n =>
    s.putDelta n false m ((beneath n old ++ beneath n new).map fun x => BitVec.ofNat 24 x)) s

/-- A node moved under another (R145): the counts of both parents, and a delta for each of their ancestors. -/
def reparent (m p : Nat) : M Unit := do
  let w ← nodeWord m 1
  let old := ndParent w
  let up ← pathOf old
  let down ← pathOf p
  nodePut 0 m 1 (ndWithParent w p)
  nodeCount old 0 (-1)
  nodeCount p 0 1
  modState fun s => s.moveDeltas up down

/-- A node given back (R144): its generation rises, and it heads the free list; one whose generations are used up stays out of
it. Where the former parent's entry is lost, nothing is written. -/
def freeNode (n : Nat) : M Unit := do
  let w ← nodeWord n 1
  let g ← nodeWord n 3
  let old := ndParent w
  let _ ← nodeWord old 2
  if ndGen g = BitVec.allOnes 32 then nodePut 0 n 1 (w &&& ~~~(1#64 <<< 63))
  else do
    let s ← getState
    nodePut 0 n 1 (ndWithParent (w &&& ~~~(1#64 <<< 63)) (s.rollup 0).freeHead.toNat)
    nodePut 0 n 3 ((ndGen g + 1) ++ 0#32)
    modState fun s => s.onRollup 0 fun e => { e with freeHead := BitVec.ofNat 24 n, freeNum := e.freeNum + 1 }
  nodeCount old 0 (-1)
  modState fun s => s.addDelta old

def execTenrol (h : Hdr) (o : Tree4) (s : State) : Out :=
  runA (.tenrol h o) h false noBad (do
    treeOn
    let hd ← rdA o.s1
    let va ← rdA o.s2
    let size ← rdA o.s3
    let (leaf, la) ← treeRange hd va size true
    let s ← getState
    let ps := patchesOf la size.toNat
    if ps.any fun x => (mapGet s.tree.patches x).isSome then raise 0x40 0 hd 1
    if !s.patchRoom ps then wrA o.d allOnes
    else
      enrol leaf ps
      wrA o.d 0
    pure .next) s

def execTunrol (h : Hdr) (o : Tree3) (s : State) : Out :=
  runA (.tunrol h o) h false noBad (do
    treeOn
    let hd ← rdA o.s1
    let va ← rdA o.s2
    let size ← rdA o.s3
    let (leaf, la) ← treeRange hd va size false
    let ps := patchesOf la size.toNat
    if !(← patchesAt leaf ps) then do
      treeErr
      raise 0x40 0 hd 1
    unrol leaf ps
    pure .next) s

/-- The perform point of a TREPAR (R145): in the step that issues it, or, for `later`, in one to come, where nothing keeps it from being performed
now (log 68). -/
def moveNow (later : Bool) (i : Instr) (m p : Nat) : M Unit := fun s =>
  if !later then reparent m p s
  else
    match reparent m p s with
    | .ok _ _ => .ok () (s.onCore s.cur fun k =>
        { k with aMoves := k.aMoves ++ [{ word := encodeWord i, rword := k.headWord .a, node := m, parent := p }] })
    | .error e t => .error e t

def execTrepar (h : Hdr) (o : SS) (s : State) : Out :=
  runA (.trepar h o) h false noBad (do
    treeOn
    let hm ← rdA o.s1
    let hp ← rdA o.s2
    let t ← aTag
    let m ← handleNode hm
    let p ← handleNode hp
    let own ← (match m with
      | some m => do
        let w ← nodeWord m 1
        let old := ndParent w
        let wo ← if old = noNode then pure w else nodeWord old 1
        pure (mayOwn t w && mayRead t wo)
      | none => pure true)
    let new ← (match p with
      | some p => do
        let w ← nodeWord p 1
        pure (mayRead t w, ndLeaf w)
      | none => pure (true, false))
    if !(own && new.1) then raise 0x03 0 0 0
    if m = some 0 then raise 0x04 0 (regMask 1) 0
    if new.2 || (p.isSome && p == m) then raise 0x04 0 (regMask 2) 0
    match m, p with
    | some m, some p => do
      if (← pathOf p).contains m then raise 0x40 0 hp 2
      settle m
      moveNow s.lineOps.isSome (.trepar h o) m p
      pure .next
    | none, _ => raise 0x40 0 hm 3
    | _, none => raise 0x40 0 hp 3) s

def execTsettle (h : Hdr) (s1 : Reg) (s : State) : Out :=
  runA (.tsettle h s1) h false noBad (do
    let hd ← rdA s1
    let s ← getState
    if !(s.rollup 0).en then do
      treeErr
      throw .stall
    let t ← aTag
    let n ← handleNode hd
    match n with
    | none => raise 0x40 0 hd 3
    | some n => do
      let w ← nodeWord n 1
      if !mayRead t w then raise 0x03 0 0 0
      treeErr
      settle n
      treeErr
      pure .next) s

def execTread (h : Hdr) (o : TreadOp) (s : State) : Out :=
  runA (.tread h o) h false noBad (do
    let v ← rdA o.s1
    let s ← getState
    if !(s.rollup 0).en then do
      treeErr
      throw .stall
    let t ← aTag
    if o.patch then
      let la ← ctxXlate v 1 1
      match mapGet s.tree.patches (patchOf la) with
      | none => do
        treeErr
        wrA o.d allOnes
      | some r => do
        match ← patchRecord (patchOf la) r with
        | none => do
          treeErr
          wrA o.d allOnes
        | some (leaf, c) => do
          let w ← nodeWord leaf 1
          if !mayRead t w then raise 0x03 0 0 0
          treeErr
          treeSee (s.patchAt (patchOf la) r)
          wrA o.d c
    else
      let n ← needNode v
      let w ← nodeWord n 1
      if !mayRead t w then raise 0x03 0 0 0
      treeErr
      let c ← nodeWord n 0
      treeSee (s.nodeAddr n 0)
      wrA o.d c
    pure .next) s

def execTfree (h : Hdr) (s1 : Reg) (s : State) : Out :=
  runA (.tfree h s1) h false noBad (do
    treeOn
    let hd ← rdA s1
    let t ← aTag
    let n ← needNode hd
    let w ← nodeWord n 1
    let c ← nodeWord n 2
    if !mayOwn t w then raise 0x03 0 0 0
    if n = 0 || ndChildren c != 0 || ndPatches c != 0 || ndWlk w then raise 0x04 0 (regMask 1) 0
    settle n
    freeNode n
    pure .next) s

end Sys2Proof.Machine
end

