-- ==== Sys2Proof/Machine/HomeOps.lean ====
section
/-! DEFINITION. Operations performed at a home slice: atomics, gate words and completions (spec 02 R21 to R24, 08 R150,
14 R246 to R249, 23 R419). -/

namespace Sys2Proof.Machine

/-! ## Reading and changing a word at its home (R150, R169, R247) -/

/-- Bytes within one line read at their home; panel `p` reaches the write they come from. -/
def homeRead (p : Nat) (owner : Tag) (la n : Nat) (va : Word) : M (List Byte) := do
  let b ← readLine (homePanel (la / 64)) owner la n va
  modState fun s => s.onMem fun m => m.catchUp p (s.stampOf (la / 64))
  pure b

/-- One indivisible read and write of `n` bytes at a place that may be written; none writes nothing, and leaves only its clock
for the atomics after it (R170). -/
def homeRmwBy (p : Nat) (owner : Tag) (la n : Nat) (va : Word) (f : Nat → M (Option Nat)) : M Nat := do
  needWrite owner la n va
  let b ← homeRead p owner la n va
  modMem fun m => m.catchUp p ((mapGet m.rmws la).getD VClock.zero)
  let old := natOfBytes b
  match ← f old with
  | none => do
    modState fun s => s.onMem fun m =>
      { m with rmws := mapPut m.rmws la (vcMax ((mapGet m.rmws la).getD VClock.zero) (s.vc p)) }
    pure old
  | some v => do
    memWrite p owner la (bytesOfNat n v) va .whole
    pure old

/-- The same with a new value that depends on the old one alone. -/
def homeRmw (p : Nat) (owner : Tag) (la n : Nat) (va : Word) (f : Nat → Option Nat) : M Nat :=
  homeRmwBy p owner la n va fun old => pure (f old)

/-! ## Gate words (R23, R24) -/

/-- The tag of a gate word. -/
def State.gateFull (s : State) (la : Nat) : Bool := s.mem.gates.contains la

/-- Word `i` of a record. -/
def Task.word (t : Task) (i : Nat) : Word := vget t.words i

/-- A record sees a gate full: it stays satisfied (R24), and the dispatch comes causally after the fill (R25). -/
def Task.seeGate (t : Task) (la : Nat) (stamp : VClock) : Task :=
  let hit (i : Nat) : Bool := (t.word (11 + i)).toNat == la
  if t.stage == .waiting && (List.range 4).any hit then
    { t with gatesMet := (List.range 4).map fun i => t.gatesMet.getD i false || hit i, clock := vcMax t.clock stamp }
  else t

/-- A gate word is filled with a value: its tag becomes full and the records that list it see it. -/
def gateFill (p : Nat) (owner : Tag) (la : Nat) (v va : Word) : M Unit := do
  memWrite p owner la (bytesOfW 8 v) va .inner
  modState fun s =>
    let stamp := s.stampOf (la / 64)
    { (s.onMem fun m => { m with gates := addNew m.gates la }) with
      tg := { s.tg with tasks := s.tg.tasks.map fun e => (e.1, e.2.seeGate la stamp) } }

/-- A gate word's tag becomes empty; its home must be reachable for a write. -/
def gateClear (p : Nat) (owner : Tag) (la : Nat) (va : Word) : M Unit := do
  let b ← homeRead p owner la 8 va
  memWrite p owner la b va .inner
  modMem fun m => { m with gates := m.gates.filter (· != la) }

/-! ## Completions (R21) -/

/-- The completion at a virtual address through an owner's range set, sequenced on panel `p`. An address in a region that
holds neither memory nor gates is refused as class 0x11 (log 35). -/
def completeAt (p : Nat) (set : RangeSet) (owner : Tag) (va : Word) : M Unit := do
  match rangeTranslate set va 8 3 with
  | .bad cls d0 => raise cls 0 d0 3
  | .ok la =>
    if regionOf la = 4 then gateFill p owner la 1 va
    else if regionOf la ≤ 1 then
      let _ ← homeRmw p owner la 8 va fun old => some ((old + 1) % 2 ^ 64)
      pure ()
    else raise 0x11 la va 3

/-- A completion that no stream word makes (R419), after the events that a clock counts (R170): a fault is reported and the
completion is not performed. -/
def unitComplete (owner : Tag) (va : Word) (clock : VClock) : M Bool := do
  modMem fun m => m.catchUp 0 clock
  if va = 0 then pure true
  else
    match ← attempt (do completeAt 0 (← useRangeSet 0 owner) owner va : M Unit) with
    | .ok _ => pure true
    | .error f => do
      appendFault 0 { memRec owner f.cls f.laddr f.d0 f.d1 with unit := 5 }
      pure false

end Sys2Proof.Machine
end

