-- ==== Sys2Proof/Machine/Weights.lean ====
section
/-! DEFINITION. The weight store's commands (spec 07 R146, 08 R159 to R161). -/

namespace Sys2Proof.Machine

def State.wid (s : State) (i : Nat) : Wid := (mapGet s.ws.wids i).getD Wid.reset
def State.setWid (s : State) (i : Nat) (w : Wid) : State := { s with ws := { s.ws with wids := mapPut s.ws.wids i w } }

/-- A failed command (R160): ERR, a record to tag 0, BUSY 0. DESIGN CHOICE, unsafe (log 135): the placement table gives the weight
store no panel (R10), and its record is written and stamped as a unit of panel 0. -/
def wsFail (i : Nat) (e : BitVec 3) : M Unit := do
  modState fun s => { s with ws := { s.ws with err := e, busy := false, pending := none } }
  appendTo 0 0 (memRec 0 0x04 0 (w64 i) (e.setWidth 64))

/-- The node of a handle as the weight store's lock finds it: none where it is not valid. -/
def wsNode (h : Word) : M (Option Nat) := do
  match ← attempt (handleNode h) with
  | .ok n => pure n
  | .error _ => pure none

/-- A node's WLK. -/
def wsBound (n : Nat) : M Bool := do
  match ← attempt (nodeWord n 1) with
  | .ok w => pure (ndWlk w)
  | .error _ => pure false

/-- The WID of an entry may be locked. -/
def State.widFree (s : State) (i : Nat) : Bool :=
  let w := (s.wid i).wid
  w != 0 && !(s.ws.wids.any fun e => e.1 != i && e.2.locked && e.2.wid == w)

/-- The extent of an entry lies in region 1 (R160). -/
def Wid.extentOk (w : Wid) : Bool :=
  let lo := w.base.toNat * 65536
  let n := w.tiles.toNat * w.tbytes.toNat
  regionOf lo == 1 && decide (lo + n ≤ 2 ^ 53) && decide (w.tbytes.toNat % 64 = 0)

/-- A command to lock an entry: the checks in order; then the lock waits for its binding. A check whose reads stall keeps the write
that asks for it waiting (R129). -/
def wlockCmd (i : BitVec 12) : M Unit := do
  let n := i.toNat
  let s ← getState
  let w := s.wid n
  if s.ws.busy then pure ()
  else if w.locked then wsFail n 5
  else
    match ← wsNode w.node with
    | none => wsFail n 1
    | some d => do
      if ← wsBound d then wsFail n 2
      else
        let s ← getState
        if !s.widFree n then wsFail n 3
        else if !w.extentOk then wsFail n 4
        else modState fun s => { s with ws := { s.ws with busy := true, pending := some i } }

/-- WLOCK of entry i. -/
def execWlock (i : BitVec 12) (s : State) : Out := runUnit unitWeights (wlockCmd i) s

/-- Every constant cache is emptied. -/
def Mem.dropConsts (m : Mem) : Mem := (List.range 4).foldl Mem.dropConst m

/-- Engine 0 performs the binding of the waiting lock, and the lock completes (R146, R160). -/
def execWidBinding (s : State) : Out :=
  match s.ws.pending with
  | none => .next s
  | some i =>
    if !(s.rollup 0).en then .next s
    else
      let w := s.wid i.toNat
      runUnit unitWeights (do
        match ← wsNode w.node with
        | none => wsFail i.toNat 1
        | some n => do
          let w1 ← nodeWord n 1
          if ndWlk w1 then wsFail i.toNat 2
          else
            settle n
            nodePut 0 n 1 (w1 ||| (1#64 <<< 60))
            let c ← nodeWord n 0
            modState fun s =>
              let s := s.setWid i.toNat { w with regCount := c, locked := true }
              { (s.onMem Mem.dropConsts) with
                gath := s.gath.map fun g => { g with views := setView g.views w.wid c }
                ws := { s.ws with err := 0, busy := false, pending := none }
                host := { s.host with swDue := true } }) s

/-- A command to unlock an entry. -/
def wunlockCmd (i : BitVec 12) : M Unit := do
  let n := i.toNat
  let s ← getState
  let w := s.wid n
  if s.ws.busy then pure ()
  else if !w.locked then wsFail n 5
  else
    match ← wsNode w.node with
    | some d => do
      match ← attempt (nodeWord d 1) with
      | .ok w1 => nodePut 0 d 1 (w1 &&& ~~~(1#64 <<< 60))
      | .error _ => pure ()
    | none => pure ()
    modState fun s =>
      let s := s.setWid n { w with locked := false }
      { s with gath := s.gath.map fun g => { g with views := g.views.filter fun e => e.1 != w.wid }
               ws := { s.ws with err := 0, busy := false, pending := none }
               host := { s.host with swDue := true } }

/-- WUNLOCK of entry i. -/
def execWunlock (i : BitVec 12) (s : State) : Out := runUnit unitWeights (wunlockCmd i) s

/-- A command whose OP is 0 or 3. -/
def execWscmdReservedOp (op : BitVec 2) (i : BitVec 12) (s : State) : Out :=
  if s.ws.busy || op = 1 || op = 2 then .next s else runEvent (wsFail i.toNat 6) s

/-- A write to WSCMD (R159); one made while BUSY is 1 is discarded. -/
def wscmd (v : Word) : M Unit := do
  match (field v 62 2).toNat with
  | 1 => wlockCmd (field v 0 12)
  | 2 => wunlockCmd (field v 0 12)
  | _ =>
    let s ← getState
    if !s.ws.busy then wsFail (field v 0 12).toNat 6

end Sys2Proof.Machine
end

