-- ==== Sys2Proof/Machine/TaskGraph.lean ====
section
/-! DEFINITION. The task graph: acceptance of records, dispatch, barriers, range tasks, and the parked list (spec 02 R17 to
R25, R30 to R33, 03 R41, 23 R362, R363, R419, 26 R408). -/

namespace Sys2Proof.Machine

/-! ## Fields of a record (R19, R22, R30) -/

def tkHash (t : Task) : Word := t.word 0
def tkWid (t : Task) : Word := t.word 1
def tkPatience (t : Task) : Nat := (field (t.word 2) 32 32).toNat
def tkKind (w : Word) : Nat := (field w 17 2).toNat
def tkTick (t : Task) : Bool := bit (t.word 2) 16
def tkRows (t : Task) : Nat := (field (t.word 2) 8 8).toNat
def tkShape (t : Task) : BitVec 8 := field (t.word 2) 0 8
def tkCmpl (t : Task) : Word := t.word 10
def tkLo (t : Task) : Nat := (field (t.word 5) 0 32).toNat
def tkHi (t : Task) : Nat := (field (t.word 5) 32 32).toNat
def tkChunk (t : Task) : Nat := (field (t.word 6) 0 32).toNat
def tkState (t : Task) : Nat := (t.word 7).toNat

/-- The kind of a record. -/
def Task.kind (t : Task) : Kind :=
  match tkKind (t.word 2) with
  | 1 => .range
  | 2 => .barrier
  | _ => .tile

/-- The parts of a context that firmware sets (R17). -/
def State.ctxCfg (s : State) (t : Tag) : CtxCfg := (mapGet s.ctxs t.toNat).getD default

/-! ## Acceptance (R20, R22, R30) -/

/-- A gate address in a record: region 4, aligned, in an image that grants R. -/
def gateOk (set : RangeSet) (g : Word) : Bool :=
  g == 0 || (regionOf g.toNat == 4 && field g 56 8 == 0 && field g 0 3 == 0 && (imageCheck set g.toNat 8 1).isNone)

/-- The conditions on a record under its context's range set. -/
def recordOk (t : Task) (set : RangeSet) (dom : BitVec 3) : Bool :=
  let w2 := t.word 2
  let w4 := t.word 4
  let common := !(set.any RangeReg.bad) && field w2 19 13 == 0 && field w4 35 29 == 0 && t.word 15 == 0 &&
    tkKind w2 != 3 && (!bit w2 16 || field w4 32 3 == dom) && field (tkCmpl t) 0 3 == 0 &&
    ([11, 12, 13, 14].all fun i => gateOk set (t.word i))
  let kind := match tkKind w2 with
    | 0 => tkRows t != 0
    | 1 =>
      tkRows t == 0 && tkShape t == 0 && tkWid t == 0 && tkPatience t == 0 && decide (tkLo t < tkHi t) &&
        field (t.word 6) 32 32 == 0 && decide (1 ≤ tkChunk t) && decide (tkChunk t ≤ 2 ^ 31) &&
        decide (tkState t < 2 ^ 52) && decide (tkState t % 64 = 0) && (imageCheck set (tkState t) 64 3).isNone
    | _ =>
      t.word 0 == 0 && t.word 1 == 0 && field w2 0 17 == 0 && field w2 32 32 == 0 && t.word 3 == 0 && w4 == 0 &&
        t.word 9 == 0 && ([5, 6, 7, 8].all fun i => gateOk set (t.word i))
  common && kind

/-- A task number that no live record has (R47). -/
def freshId (tasks : SMap Task) : Nat → BitVec 32 → BitVec 32
  | 0, n => n
  | fuel + 1, n => if (mapGet tasks n.toNat).isSome then freshId tasks fuel (n + 1) else n

/-- The task graph checks a record and takes it, or rejects it with a report (R20, R408). -/
def submit (owner : Tag) (gath : Nat) (bytes : List Byte) (laddr : Nat) (d0 d1 : Word) (clock : VClock) :
    M (Option (BitVec 32)) := do
  match ← attempt (useRangeSet 0 owner) with
  | .error f => do
    appendFault 0 { memRec owner f.cls f.laddr f.d0 f.d1 with unit := 5 }
    pure none
  | .ok set => do
  let s ← getState
  let ws : Vector Word 16 := Vector.ofFn fun i => wordOf (bytes.drop (8 * i.val) |>.take 8)
  let t0 : Task :=
    { words := ws, owner := owner, gath := gath, gatesMet := [], stage := .waiting, clock := clock, fixed := none }
  let met := [11, 12, 13, 14].map fun i => t0.word i == 0 || s.gateFull (t0.word i).toNat
  let seen := [11, 12, 13, 14].foldl (fun c i =>
    if t0.word i != 0 && s.gateFull (t0.word i).toNat then vcMax c (s.stampOf ((t0.word i).toNat / 64)) else c) clock
  let t := { t0 with gatesMet := met, clock := seen }
  if recordOk t set (s.ctxCfg owner).dom then
    let id := freshId s.tg.tasks (s.tg.tasks.length + 1) s.tg.nextId
    modState fun s => { s with tg := { s.tg with tasks := mapPut s.tg.tasks id.toNat t, nextId := id + 1 } }
    pure (some id)
  else
    appendFault 0 { memRec owner 0x42 laddr d0 d1 with unit := 5 }
    pure none

/-! ## Dispatch (R24, R25, R35) -/

/-- All gates of a record are satisfied. -/
def Task.ready (t : Task) : Bool := t.stage == .waiting && t.gatesMet.all (· == true)

def State.task? (s : State) (id : Nat) : Option Task := mapGet s.tg.tasks id

/-- A record's stage. -/
def State.setStage (s : State) (id : Nat) (t : Task) (g : Stage2) : State :=
  { s with tg := { s.tg with tasks := mapPut s.tg.tasks id { t with stage := g } } }

/-- A record leaves the task graph. -/
def State.endTask (s : State) (id : Nat) : State :=
  { s with tg := { s.tg with tasks := mapDel s.tg.tasks id, ranges := s.tg.ranges.filter (· != id) } }

def State.onGath (s : State) (g : Nat) (f : Gatherer → Gatherer) : State :=
  { s with gath := vset s.gath g (f (vget s.gath g)) }

/-- The panel of a Gatherer. -/
def gathPanel (g : Nat) : Nat := g / 2

def execTaskDispatch (task : BitVec 32) (s : State) : Out :=
  match s.task? task.toNat with
  | none => .next s
  | some t =>
    if t.ready && t.kind == .tile then
      let s := s.onMem fun m => m.catchUp (gathPanel t.gath) t.clock
      .next ((s.setStage task.toNat t .dispatched).onGath t.gath fun g =>
        { g with input := g.input ++ [.tile task.toNat] })
    else .next s

/-- The chunks of a range task. -/
def tkChunks (t : Task) : Nat := (tkHi t - tkLo t + tkChunk t - 1) / tkChunk t

/-- The state block as dispatch writes it (R31). -/
def rangeBlock (n : Nat) : List Byte :=
  ((tabulate 4 fun p => bytesOfNat 4 (n * p / 4) ++ bytesOfNat 4 (n * (p + 1) / 4)).flatten) ++ bytesOfNat 8 0 ++
    bytesOfNat 8 n ++ List.replicate 16 0

def execRangeDispatch (task : BitVec 32) (s : State) : Out :=
  match s.task? task.toNat with
  | none => .next s
  | some t =>
    if t.ready && t.kind == .range then
      runUnit unitGraph (do
        modState fun s => (s.onMem fun m => m.catchUp 0 t.clock).setStage task.toNat t .dispatched
        let _ ← unitTry (memWrite 0 t.owner (tkState t) (rangeBlock (tkChunks t)) 0 .whole)
        modState fun s => { s with
          tg := { s.tg with ranges := s.tg.ranges ++ [task.toNat] }
          gath := s.gath.map fun g : Gatherer => { g with input := g.input ++ [.range task.toNat false] } }) s
    else .next s

/-- A barrier fires (R22): its OGATEs in order, then its completion. -/
def execBarrierFire (task : BitVec 32) (s : State) : Out :=
  match s.task? task.toNat with
  | none => .next s
  | some t =>
    if t.ready && t.kind == .barrier then
      runUnit unitGraph (do
        modState fun s => s.onMem fun m => m.catchUp 0 t.clock
        (List.range 4).forM fun i => do
          let g := t.word (5 + i)
          if g != 0 then
            let _ ← unitTry (gateFill 0 t.owner g.toNat 1 0)
            pure ()
        let _ ← unitComplete t.owner (tkCmpl t) t.clock
        modState fun s => s.endTask task.toNat) s
    else .next s

/-! ## Range words (R32, R33) -/

/-- A panel's range word. -/
def rangeAddr (t : Task) (p : Nat) : Nat := tkState t + 8 * p

/-- NEXT and END of a range word. -/
def rwNext (w : Nat) : Nat := w % 2 ^ 32
def rwEnd (w : Nat) : Nat := w / 2 ^ 32
def rwOf (next stop : Nat) : Nat := stop * 2 ^ 32 + next

/-- A take at a range word: the chunk, if there is one. -/
def rangeTake (g : Nat) (t : Task) : M (Option Nat) := do
  let f (w : Nat) : Option Nat := if rwNext w < rwEnd w then some (rwOf (rwNext w + 1) (rwEnd w)) else none
  let w ← unitTry (homeRmw (gathPanel g) t.owner (rangeAddr t (gathPanel g)) 8 0 f)
  let w := w.getD 0
  pure (if rwNext w < rwEnd w then some (rwNext w) else none)

/-- The panel a thief chooses: the largest remainder, the lowest panel of a tie. -/
def stealFrom (me : Nat) (ws : List Nat) : Option Nat :=
  let left (p : Nat) : Nat := rwEnd (ws.getD p 0) - rwNext (ws.getD p 0)
  let ps := (List.range 4).filter (· != me)
  let most := (ps.map left).foldl max 0
  if most = 0 then none else ps.find? fun p => left p == most

/-- A steal: the chunks go into the thief's own range word; whether it got some. -/
def rangeSteal (g : Nat) (t : Task) : M Bool := do
  let me := gathPanel g
  let ws ← (List.range 4).mapM fun p => do
    let b ← unitTry (homeRead me t.owner (rangeAddr t p) 8 0)
    pure (natOfBytes (b.getD []))
  match stealFrom me ws with
  | none => pure false
  | some p => do
    let k (w : Nat) : Nat := (rwEnd w - rwNext w + 1) / 2
    let f (w : Nat) : Option Nat := if rwNext w < rwEnd w then some (rwOf (rwNext w) (rwEnd w - k w)) else none
    let w := (← unitTry (homeRmw me t.owner (rangeAddr t p) 8 0 f)).getD 0
    if rwNext w < rwEnd w then
      let _ ← unitTry (memWrite me t.owner (rangeAddr t me) (bytesOfNat 8 (rwOf (rwEnd w - k w) (rwEnd w))) 0 .whole)
    pure (decide (rwNext w < rwEnd w))

/-- One more chunk is done: at n the task completes (R32). Faults of the addition are the caller's; faults of the
completion are reported by R419. -/
def rangeDone (p : Nat) (owner : Tag) (state : Word) (task : Nat) (cmpl : Word) : M Unit := do
  let a := state.toNat
  let old ← homeRmw p owner (a + 32) 8 0 fun old => some ((old + 1) % 2 ^ 64)
  let n ← homeRead p owner (a + 40) 8 0
  if (old + 1) % 2 ^ 64 = natOfBytes n then
    let s ← getState
    let _ ← unitComplete owner cmpl (vcMax (s.vc p) (s.stampOf ((a + 32) / 64)))
    modState fun s => s.endTask task

/-! ## The values fixed at admission (R41) -/

/-- D of a record. -/
def deadlineOf (s : State) (t : Task) : Word :=
  if !tkTick t then t.word 3
  else
    let d := (field (t.word 4) 32 3).toNat
    let v := (vget s.tickOrigin d).toNat + (t.word 3).toNat * (vget s.tickPeriod d).toNat
    if vget s.tickPeriod d = 0 || 2 ^ 64 - 1 ≤ v then allOnes else w64 v

/-- B of a record. -/
def budgetOf (s : State) (t : Task) : BitVec 32 :=
  let b := field (t.word 4) 0 32
  if b = 0 then (s.ctxCfg t.owner).budget else b

/-- A record as a member of a bin or pass, admitted in cycle `e`. -/
def memberOf (s : State) (id : Nat) (t : Task) (e : Word) : Member :=
  { task := id, owner := t.owner, rows := tkRows t, arrival := e, deadline := deadlineOf s t, budget := budgetOf s t,
    expiry := e.toNat + tkPatience t, act := t.word 5, out := t.word 6, adapter := t.word 7, strides := t.word 8,
    uarg := t.word 9, cmpl := t.word 10 }

/-- A chunk as a member of its pass: first and end index, STATE in the +32 word (R262). -/
def chunkOf (s : State) (id : Nat) (t : Task) (c : Nat) (e : Word) : Member :=
  let lo := tkLo t + c * tkChunk t
  { task := id, owner := t.owner, rows := 1, arrival := e, deadline := deadlineOf s t, budget := budgetOf s t,
    expiry := e.toNat, act := w64 lo, out := w64 (min (lo + tkChunk t) (tkHi t)), adapter := t.word 7,
    strides := t.word 8, uarg := t.word 9, cmpl := t.word 10 }

/-! ## The parked list (R362, R363) -/

/-- A listed task with the rest of the list. -/
def takeParked (task : BitVec 32) : List Parked → Option (Parked × List Parked)
  | [] => none
  | x :: xs =>
    if x.task = task.toNat then some (x, xs)
    else match takeParked task xs with
      | some (y, ys) => some (y, x :: ys)
      | none => none

/-- A DONEONLY entry's completion; a fault gives it back to the list. -/
def completeParked (g : Nat) (x : Parked) : M Unit := do
  let back : M Unit := modState fun s => s.onGath g fun q => { q with parked := q.parked ++ [x] }
  if x.chunk then
    match ← attempt (rangeDone (gathPanel g) x.owner x.member.adapter x.task x.member.cmpl) with
    | .ok _ => pure ()
    | .error f => do
      appendFault 0 { memRec x.owner f.cls f.laddr f.d0 f.d1 with unit := 5 }
      back
  else
    let s ← getState
    if ← unitComplete x.owner x.member.cmpl (s.vc (gathPanel g)) then modState fun s => s.endTask x.task else back

/-- A parked task is released; where its completion stalls, it stays listed and what asks for it waits (R385). -/
def releaseParked (g : BitVec 3) (task : BitVec 32) : M Unit := do
  let n := g.toNat
  match takeParked task (vget (← getState).gath n).parked with
  | none => pure ()
  | some (x, rest) => do
    modState fun s => s.onGath n fun q => { q with parked := rest }
    if x.doneOnly then completeParked n x
    else if x.chunk then modState fun s => s.onGath n fun q => { q with input := q.input ++ [.chunk x.member x.hash] }
    else modState fun s => s.onGath n fun q => { q with input := q.input ++ [.again x.member x.hash x.wid x.shape] }

def execPkresRelease (g : BitVec 3) (task : BitVec 32) (s : State) : Out := runUnit (unitGath g.toNat) (releaseParked g task) s

def execPkresAbandon (g : BitVec 3) (task : BitVec 32) (s : State) : Out :=
  let n := g.toNat
  match takeParked task (vget s.gath n).parked with
  | none => .next s
  | some (x, rest) =>
    let s := s.onGath n fun q => { q with parked := rest }
    .next (if x.chunk then s else s.endTask x.task)

end Sys2Proof.Machine
end

