-- ==== Sys2Proof/Machine/Gather.lean ====
section
/-! DEFINITION. The Gatherers: admission, closing, posting, placing, feed writes and swatches (spec 02 R28, R29, R32, R33,
03 R36 to R55). -/

namespace Sys2Proof.Machine

/-! ## Shapes, bins and held passes -/

def Gatherer.shape (g : Gatherer) (c : BitVec 8) : Shape := (mapGet g.shapes c.toNat).getD Shape.reset

/-- An entry as last written; it takes effect at the next cycle's evaluation (R39). -/
def Gatherer.shapeWritten (g : Gatherer) (c : BitVec 8) : Shape := (mapGet g.shapesNew c.toNat).getD (g.shape c)

/-- The entries written take effect (R39). -/
def Gatherer.takeShapes (g : Gatherer) : Gatherer :=
  { g with shapes := g.shapesNew.foldl (fun m e => mapPut m e.1 e.2) g.shapes, shapesNew := [] }
def Shape.est (x : Shape) : BitVec 32 := field x.high 32 32
def Shape.kext (x : Shape) : BitVec 16 := field x.high 16 16
def Shape.width (x : Shape) : BitVec 16 := field x.high 0 16

/-- Target rows of a class (R38). -/
def Shape.target (x : Shape) : Nat := 8 * 2 ^ x.tgt.toNat

def Bin.rows (b : Bin) : Nat := (b.members.map (·.rows)).sum

/-- FREE (R46). -/
def Gatherer.free (g : Gatherer) : Nat := 1024 - g.held.length - g.parked.length

/-- A pass on its way to the held list; its id and its core come later. -/
def passOf (x : Shape) (b : Bin) (cause : BitVec 3) : HeldPass :=
  let budgets := b.members.map (·.budget.toNat)
  let first := b.members.headD default
  { id := 0, hash := b.hash, wid := b.wid, shape := b.shape, members := b.members,
    deadline := w64 ((b.members.map (·.deadline.toNat)).foldl min (2 ^ 64 - 1)),
    budget := if budgets.contains 0 then 0 else BitVec.ofNat 32 (budgets.foldl max 0),
    arrival := first.arrival, cause := cause, est := x.est, kext := x.kext, width := x.width, core := none }

/-- A pass of one block. -/
def soloPass (x : Shape) (m : Member) (hash wid : Word) (shape : BitVec 8) (cause : BitVec 3) : HeldPass :=
  passOf x { hash := hash, wid := wid, shape := shape, members := [m] } cause

/-! ## Admission (R42, R43) -/

/-- A WID is stale for a Gatherer. -/
def State.stale (s : State) (g : Gatherer) (wid : Word) : Bool :=
  wid != 0 &&
    (match g.views.find? fun e => e.1 == wid, s.ws.wids.find? fun e => e.2.locked && e.2.wid == wid with
     | some v, some w => v.2 != w.2.regCount
     | _, _ => true)

/-- The bin that holds a key. -/
def Gatherer.binOf (g : Gatherer) (hash wid : Word) (shape : BitVec 8) : Option (Nat × Bin) :=
  g.bins.find? fun e => e.2.hash == hash && e.2.wid == wid && e.2.shape == shape

/-- The lowest free bin. -/
def Gatherer.freeBin (g : Gatherer) : Option Nat := (List.range 64).find? fun b => (mapGet g.bins b).isNone

def Gatherer.putBin (g : Gatherer) (b : Nat) (x : Bin) : Gatherer := { g with bins := mapPut g.bins b x }

/-- Placing an admitted task (R43): the Gatherer after it and the passes that close at once. -/
def placeTask (s : State) (g : Gatherer) (m : Member) (hash wid : Word) (shape : BitVec 8) : Gatherer × List HeldPass :=
  let x := g.shape shape
  let alone : Bin := { hash := hash, wid := wid, shape := shape, members := [m] }
  if s.stale g wid then (g, [soloPass x m hash wid shape 5])
  else
    match g.binOf hash wid shape with
    | none =>
      match g.freeBin with
      | some b => (g.putBin b alone, [])
      | none => (g, [soloPass x m hash wid shape 4])
    | some (b, q) =>
      let joined := g.putBin b { q with members := q.members ++ [m] }
      if q.rows + m.rows ≤ x.target && q.members.length < 32 then (joined, [])
      else if x.target ≤ m.rows && q.rows + m.rows ≤ 256 && q.members.length < 32 then (joined, [])
      else (g.putBin b alone, [passOf x q 1])

/-! ## Advertisements and placing (R28, R48, R50) -/

/-- Cores of a Gatherer's cluster that advertise an image. -/
def State.advertisers (s : State) (g : Nat) (hash : Word) : List CoreId :=
  (s.cores.filter fun e => e.1 / 128 == g && e.2.advert && e.2.loaded && e.2.codeHash == hash).map fun e =>
    BitVec.ofNat 10 e.1

/-- QW of a core for a pass with a deadline. -/
def Gatherer.queueWork (g : Gatherer) (c : CoreId) (deadline : Word) : Nat :=
  ((g.held.filter fun p => p.core == some c && decide (p.deadline.toNat ≤ deadline.toNat)).map (·.est.toNat)).sum +
    ((g.written.filter fun w => w.core == c && decide (w.deadline.toNat ≤ deadline.toNat)).map (·.est.toNat)).sum

/-- The core of least QW, the lowest id of a tie. -/
def leastWork (g : Gatherer) (deadline : Word) : List CoreId → Option CoreId
  | [] => none
  | c :: cs =>
    match leastWork g deadline cs with
    | none => some c
    | some d => if g.queueWork c deadline ≤ g.queueWork d deadline then some c else some d

/-- No unpopped chunk pass of a range task at a core. -/
def Gatherer.chunkFree (g : Gatherer) (c : CoreId) (task : Nat) : Bool :=
  !(g.held.any fun p => p.core == some c && p.cause == 6 && (p.members.headD default).task == task) &&
    !(g.written.any fun w => w.core == c && w.chunk && w.task == task)

/-- A core for a pass: by R48; a chunk that is posted, by R54. -/
def State.pickCore (s : State) (gn : Nat) (g : Gatherer) (p : HeldPass) (posted : Bool) : Option CoreId :=
  let cs := s.advertisers gn p.hash
  if posted && p.cause == 6 then cs.find? fun c => g.chunkFree c (p.members.headD default).task
  else leastWork g p.deadline cs

/-- Assigning one held pass, by its place; without an advertiser, a request for a cold launch (R50). -/
def State.assignAt (s : State) (gn i : Nat) (posted : Bool) : State :=
  let g := vget s.gath gn
  match g.held[i]? with
  | none => s
  | some p =>
    if p.core.isSome then s
    else
      match s.pickCore gn g p posted with
      | some c => s.onGath gn fun g => { g with held := listSet g.held i { p with core := some c } }
      | none =>
        if (s.advertisers gn p.hash).isEmpty then
          { s with host := { s.host with
              irqCold := true
              cold := if s.host.cold.contains (gn, p.hash) then s.host.cold else s.host.cold ++ [(gn, p.hash)] } }
        else s

/-- Every unassigned held pass is assigned, in the order of the list: the spec gives no order (DESIGN CHOICE, log 138). -/
def State.assignAll (s : State) (gn : Nat) : State :=
  (List.range (vget s.gath gn).held.length).foldl (fun s i => s.assignAt gn i false) s

/-- Posting order (R45): by cause code, then by arrival. -/
def postBefore (a b : HeldPass) : Bool :=
  decide (a.cause.toNat < b.cause.toNat) || (a.cause == b.cause && decide (a.arrival.toNat ≤ b.arrival.toNat))

/-- A pass in its place among passes in order. -/
def postInsert (p : HeldPass) : List HeldPass → List HeldPass
  | [] => [p]
  | q :: qs => if postBefore p q then p :: q :: qs else q :: postInsert p qs

def postOrder (ps : List HeldPass) : List HeldPass := ps.foldr postInsert []

/-- A pass takes its id and enters the held list. -/
def State.post (s : State) (gn : Nat) (p : HeldPass) : State :=
  let s := s.onGath gn fun g =>
    { g with held := g.held ++ [{ p with id := BitVec.ofNat 3 gn ++ g.pcount }], pcount := g.pcount + 1 }
  s.assignAt gn ((vget s.gath gn).held.length - 1) true

def State.postAll (s : State) (gn : Nat) (ps : List HeldPass) : State := (postOrder ps).foldl (fun s p => s.post gn p) s

/-! ## Closing (R44) -/

def targetDue (g : Gatherer) (b : Bin) : Bool := decide ((g.shape b.shape).target ≤ b.rows)
def patienceDue (g : Gatherer) (b : Bin) : Bool := b.members.any fun m => decide (m.expiry ≤ g.gcyc.toNat)
def deadlineDue (g : Gatherer) (ft : Word) (b : Bin) : Bool :=
  b.members.any fun m => m.deadline != allOnes &&
    decide (4 * m.deadline.toNat ≤ 4 * (ft.toNat + g.lat.toNat) + (g.shape b.shape).est.toNat)

/-- The cause by which a bin closes now. -/
def closeCause (g : Gatherer) (ft : Word) (b : Bin) : Option (BitVec 3) :=
  if targetDue g b then some 0
  else if patienceDue g b then some 2
  else if deadlineDue g ft b then some 3
  else none

/-- Evaluation of every occupied bin. -/
def closeBins (g : Gatherer) (ft : Word) : Gatherer × List HeldPass :=
  let due := g.bins.filterMap fun e => (closeCause g ft e.2).map fun c => (e.1, passOf (g.shape e.2.shape) e.2 c)
  ({ g with bins := due.foldl (fun m e => mapDel m e.1) g.bins }, due.map (·.2))

/-! ## Range takes (R32, R33, R54) -/

/-- A core that may take a chunk of a range task. -/
def State.chunkCore (s : State) (gn task : Nat) (hash : Word) : Bool :=
  (s.advertisers gn hash).any fun c => (vget s.gath gn).chunkFree c task

/-- An item of the input that can be admitted now; a range task that is over leaves its place to the next. -/
def State.admissible (s : State) (gn : Nat) : Arrival → Bool
  | .tile _ => true
  | .again _ _ _ _ => true
  | .chunk m hash => s.chunkCore gn m.task hash
  | .range id _ =>
    match s.task? id with
    | some t => s.tg.ranges.contains id && s.chunkCore gn id (tkHash t)
    | none => false

/-- An item of the input admitted, with the items before and after it: the passes that close at once, and the input left. A range task
keeps its place as long as it gives chunks; where its panel's word is empty, cluster 0's Gatherer steals next, and after an empty
take or steal it stands behind what has arrived (DESIGN CHOICE, log 36). -/
def admitItem (gn : Nat) (before after : List Arrival) (a : Arrival) : M (List HeldPass × List Arrival) := do
  let s ← getState
  let g := vget s.gath gn
  let rest := before ++ after
  let put (r : Gatherer × List HeldPass) : M (List HeldPass × List Arrival) := do
    modState fun s => s.onGath gn fun _ => r.1
    pure (r.2, rest)
  match a with
  | .tile id =>
    match s.task? id with
    | none => pure ([], rest)
    | some t => do
      let m := memberOf s id t g.gcyc
      modState fun s => { s with tg := { s.tg with
        tasks := mapPut s.tg.tasks id { t with fixed := some (m.deadline, m.budget) } } }
      put (placeTask s g m (tkHash t) (tkWid t) (tkShape t))
  | .again m hash wid shape =>
    let p := match s.task? m.task with
      | some t => tkPatience t
      | none => 0
    put (placeTask s g { m with arrival := g.gcyc, expiry := g.gcyc.toNat + p } hash wid shape)
  | .chunk m hash => pure ([soloPass (g.shape 0) { m with arrival := g.gcyc } hash 0 0 6], rest)
  | .range id steal =>
    match s.task? id with
    | none => pure ([], rest)
    | some t =>
      if steal then do
        let got ← rangeSteal gn t
        pure ([], if got then before ++ .range id false :: after else rest ++ [.range id false])
      else
        match ← rangeTake gn t with
        | some c => do
          let g := vget (← getState).gath gn
          pure ([soloPass (g.shape 0) (chunkOf s id t c g.gcyc) (tkHash t) 0 0 6], before ++ a :: after)
        | none => pure ([], if gn % 2 = 0 then before ++ .range id true :: after else rest ++ [a])

/-- The input without range tasks that are over. -/
def State.liveInput (s : State) (gn : Nat) : List Arrival :=
  (vget s.gath gn).input.filter fun a => match a with
    | .range id _ => s.tg.ranges.contains id
    | _ => true

/-- The place of the item that a Gatherer admits next: the first that can be admitted now (R36, R46). -/
def State.nextItem (s : State) (gn : Nat) : Option Nat :=
  let g := vget s.gath gn
  if !g.en || g.free < 65 then none else (s.liveInput gn).findIdx? (s.admissible gn)

/-- The admission step: one item of the input in arrival order, a task or one take or steal of a range task. -/
def admission (gn : Nat) : M (List HeldPass) := do
  let s ← getState
  let input := s.liveInput gn
  match s.nextItem gn with
  | none => pure []
  | some i =>
    match input[i]? with
    | none => pure []
    | some a => do
      let (ps, left) ← admitItem gn (input.take i) (input.drop (i + 1)) a
      modState fun s => s.onGath gn fun q => { q with input := left }
      pure ps

/-- Admission as far as it can be made: one that waits for memory leaves its cycle without. -/
def admitNow (gn : Nat) : M (List HeldPass) := fun s =>
  match admission gn s with
  | .ok ps s' => .ok ps (s'.undrainAt (unitGath gn))
  | .error (.halt f) s' => .error (.halt f) s'
  | .error (.drain h p) _ => .ok [] (s.addDrainAt (unitGath gn) h p)
  | .error _ _ => .ok [] s

/-- The three steps of a Gatherer's cycle (R36): admission, evaluation under the entries written before (R39), posting. A Gatherer
whose cluster is off has none (R197). -/
def ownSteps (gn : Nat) : M Unit := do
  if vget (← getState).power.cluster gn != 2 then
    let now ← admitNow gn
    modState fun s =>
      let (q, due) := closeBins (vget s.gath gn).takeShapes (s.ftOf (gathPanel gn))
      (s.onGath gn fun _ => q).postAll gn (now ++ due)
    modState fun s => s.onGath gn fun q => { q with gcyc := q.gcyc + 1, ran := true }

/-- A Gatherer's admission of this cycle is a steal. -/
def State.steals (s : State) (gn : Nat) : Bool :=
  match (s.nextItem gn).bind fun i => (s.liveInput gn)[i]? with
  | some (.range _ true) => true
  | _ => false

/-- A Gatherer's steps of the cycle; a steal comes after the other Gatherers' takes of the same cycle (R33). -/
def gathererSteps (gn : Nat) : M Unit := do
  let s ← getState
  if s.steals gn then
    ((List.range 8).filter fun i => i != gn && !(vget s.gath i).ran && !s.steals i).forM ownSteps
  ownSteps gn

/-- One Gatherer cycle (R36): once in each cycle of the arithmetic clock. -/
def execGathererCycle (g : BitVec 3) (s : State) : Out :=
  if (vget s.gath g.toNat).ran then .next s else runEvent (gathererSteps g.toNat) s

/-- The bin closes by a test of R44 in this cycle, if no test before it holds and the Gatherer's steps are still to come. -/
def State.binDue (s : State) (gn b : Nat) (cause : BitVec 3) : Bool :=
  let g := vget s.gath gn
  !g.ran && (match mapGet g.bins b with
    | none => false
    | some q => closeCause g (s.ftOf (gathPanel gn)) q == some cause)

/-- A close is part of its Gatherer's cycle: admission comes before it, and the passes of the cycle are posted in the order of
R45 (R36, R44). -/
def execBinClosePatience (g : BitVec 3) (b : BitVec 6) (s : State) : Out :=
  if s.binDue g.toNat b.toNat 2 then runEvent (gathererSteps g.toNat) s else .next s
def execBinCloseDeadline (g : BitVec 3) (b : BitVec 6) (s : State) : Out :=
  if s.binDue g.toNat b.toNat 3 then runEvent (gathererSteps g.toNat) s else .next s

/-! ## Feed writes (R29, R47, R49) -/

/-- The row-block image (R47). -/
def blockEntry (m : Member) (start : Nat) : List Byte :=
  let w0 : Word := BitVec.ofNat 32 m.task ++ BitVec.ofNat 8 m.rows ++ BitVec.ofNat 8 start ++ 0#4 ++ m.owner
  ([w0, m.deadline, m.act, m.out, m.adapter, m.strides, m.uarg, m.cmpl].map (bytesOfW 8)).flatten

/-- The entries of a pass in order. -/
def blockEntries : Nat → List Member → List Byte
  | _, [] => []
  | start, m :: ms => blockEntry m start ++ blockEntries (start + m.rows) ms

/-- The feed record (R49). -/
def feedRecord (p : HeldPass) (seq : Word) (rbt : Nat) : List Byte :=
  let rows := (p.members.map (·.rows)).sum
  let w1 : Word := p.id ++ 0#8 ++ BitVec.ofNat 8 (p.members.length - 1) ++ p.shape ++ BitVec.ofNat 8 (rows - 1)
  let w6 : Word := p.est ++ p.kext ++ p.width
  ([seq, w1, p.deadline, p.budget.setWidth 64, p.wid, w64 rbt, w6, p.cause.setWidth 64].map (bytesOfW 8)).flatten

/-- The assigned pass that goes first: least deadline, then arrival. -/
def firstHeld (c : CoreId) : List HeldPass → Option HeldPass
  | [] => none
  | p :: ps =>
    match firstHeld c ps with
    | none => if p.core = some c then some p else none
    | some q =>
      if p.core = some c && (decide (p.deadline.toNat < q.deadline.toNat) ||
          (p.deadline == q.deadline && decide (p.arrival.toNat ≤ q.arrival.toNat))) then some p else some q

/-- A sequence number for a feed ring (R49); none where the reservation is refused. -/
def reserveSeq (p : Nat) (f : Feed) : M (Option Word) := do
  if !f.shared then pure (some (f.lastSeq + 1))
  else
    let lim ← unitWord p (f.pair + 8)
    let add (old : Nat) : Option Nat := if old + 1 ≤ lim.toNat then some (old + 1) else none
    match ← unitTry (homeRmw p 0 f.pair 8 0 add) with
    | some old => pure (if old + 1 ≤ lim.toNat then some (w64 (old + 1)) else none)
    | none => pure none

/-- A tail register keeps the larger value (R29, R270); a write that raises it carries a clock (R231). -/
def State.raiseTail (s : State) (k : Nat) (v : Word) (clock : VClock) : State :=
  let old := (mapGet s.tails k).getD 0
  if old.toNat < v.toNat then
    { s with tails := mapPut s.tails k v
             tailClks := mapPut s.tailClks k (vcMax ((mapGet s.tailClks k).getD VClock.zero) clock) }
  else s

/-- A cluster in P1 goes back to run (R197). -/
def State.wakeCluster (s : State) (k : Nat) : State :=
  if vget s.power.cluster k = 1 then { s with power := { s.power with cluster := vset s.power.cluster k 0 } } else s

/-- A copy engine keeps the last four adapter prefetch hints (R53). -/
def Core.hint (k : Core) (pass : BitVec 32) (rbt : Word) : Core :=
  let h := k.hints ++ [(pass, rbt)]
  { k with hints := h.drop (h.length - 4) }

/-- The clusters of the cores whose feed has a tail register. -/
def State.wakeTail (s : State) (k : Nat) : State :=
  (s.cores.filter fun e => e.2.feed.any fun f => f.tail == k).foldl (fun s e => s.wakeCluster (e.1 / 128)) s

/-- A write to a tail register by a unit of panel 0. -/
def execTailRegisterWrite (k : BitVec 12) (value : Word) (s : State) : Out :=
  .next ((s.raiseTail k.toNat value (s.vc 0)).wakeTail k.toNat)

/-- A write of the Gatherer that is performed before it goes on; one that cannot be made keeps the pass held (R49). -/
def feedPut (p la : Nat) (bs : List Byte) : M Unit := do
  match ← attempt (memWrite p 0 la bs 0 .whole) with
  | .ok _ => pure ()
  | .error _ => throw .stall

/-- The Gatherer writes a core's next held pass into its feed ring (R49), and sends the core a hint (R53). -/
def feedWrite (c : CoreId) : M Unit := do
  let s ← getState
  let gn := gathOf c
  let g := vget s.gath gn
  match (s.core c).feed, firstHeld c g.held with
  | some f, some p => do
    if g.depth.toNat ≤ (g.written.filter fun w => w.core == c).length then throw .stall
    match ← reserveSeq (gathPanel gn) f with
    | none => pure ()
    | some seq => do
      let slot := (seq - 1).toNat % 2 ^ f.logc
      let rbt := f.comp + 2048 * slot
      feedPut (gathPanel gn) rbt (blockEntries 0 p.members)
      let rec0 := feedRecord p seq rbt
      feedPut (gathPanel gn) (f.ring + 64 * slot + 8) (rec0.drop 8)
      feedPut (gathPanel gn) (f.ring + 64 * slot) (rec0.take 8)
      let w : Written := { core := c, est := p.est, deadline := p.deadline, pass := p.id,
                           task := (p.members.headD default).task, chunk := p.cause == 6 }
      let note : Notice := { seq := seq, pass := p.id }
      modState fun s =>
        let s := s.onGath gn fun g => { g with held := g.held.erase p, written := g.written ++ [w] }
        let s := s.onCore c fun k => { k.hint p.id (w64 rbt) with feed := k.feed.map fun f =>
          { f with lastSeq := seq, notices := f.notices ++ [note] } }
        (s.raiseTail f.tail seq (s.vc (gathPanel gn))).wakeTail f.tail
  | _, _ => throw .stall

def execFeedWrite (core : CoreId) (s : State) : Out := runEvent (feedWrite core) s

/-! ## Registers with a rule of their own (R37, R38) -/

/-- A write to a shape-class entry takes effect at the next cycle's evaluation (R39): the Gatherer's steps of this cycle come
before it. A reserved target is reported and not stored. -/
def execShapeClassWrite (g : BitVec 3) (c : BitVec 8) (high : Bool) (value : Word) (s : State) : Out :=
  let put (f : Shape → Shape) : M Unit := do
    let s ← getState
    if !(vget s.gath g.toNat).ran then gathererSteps g.toNat
    modState fun s => s.onGath g.toNat fun q => { q with shapesNew := mapPut q.shapesNew c.toNat (f (q.shapeWritten c)) }
  if high then runEvent (put fun x => { x with high := value }) s
  else if 6 ≤ (field value 0 3).toNat then
    runEvent (appendTo 0 (gathPanel g.toNat) { memRec 0 0x04 0 (c.setWidth 64) value with unit := 5 }) s
  else runEvent (put fun x => { x with tgt := field value 0 3 }) s

def execGdepthWrite (g : BitVec 3) (value : Word) (s : State) : Out :=
  let v := field value 0 13
  if v = 0 then .next s
  else .next (s.onGath g.toNat fun q => { q with depth := if 4096 < v.toNat then 4096 else v })

/-! ## Swatches (R55) -/

/-- A bin entry of a swatch. -/
def swatchBin (gn : Nat) (g : Gatherer) (b : Bin) : List Byte :=
  let occ := min 3 (4 * b.rows / (g.shape b.shape).target)
  ([b.hash, b.wid, w64 (occ * 2048 + gn * 256 + b.shape.toNat)].map (bytesOfW 8)).flatten

/-- The entries of a snapshot: locked WIDs with the count last sent, and occupied bins; the first list marks the WIDs. -/
def State.swatchEntries (s : State) : List (Bool × List Byte) :=
  let view (w : Wid) : Word := (((vget s.gath 0).views.find? fun e => e.1 == w.wid).map (·.2)).getD w.regCount
  ((s.ws.wids.filter (·.2.locked)).map fun e => (true, bytesOfW 8 e.2.wid ++ bytesOfW 8 (view e.2))) ++
    (List.range 8).flatMap fun gn =>
      let g := vget s.gath gn
      g.bins.map fun e => (false, swatchBin gn g e.2)

/-- Entries in parts of at most `n`, the first list being at hand in any case. -/
def swatchParts (n : Nat) : Nat → List (Bool × List Byte) → List (List (Bool × List Byte))
  | 0, es => [es]
  | fuel + 1, es => if es.length ≤ n then [es] else es.take n :: swatchParts n fuel (es.drop n)

/-- The entries of one message: as many as it holds, and so many that there are at most 255 parts. -/
def swatchSize (total : Nat) : Nat := max (max 1 Config.swatchRoom) ((total + 254) / 255)

/-- The message of one part: header and entries. FT is panel 0's reading (R10). -/
def swatchPart (s : State) (parts part : Nat) (es : List (Bool × List Byte)) : List Byte :=
  let wids := (es.filter (·.1)).length
  let head := [s.ftOf 0, w64 ((es.length - wids) * 2 ^ 48 + wids * 2 ^ 32 + s.host.sseq.toNat), s.boot.module,
    w64 (256 * parts + part)]
  (head.map (bytesOfW 8)).flatten ++ (es.map (·.2)).flatten

/-- The messages of a snapshot, under one sequence number. -/
def swatchMessages (s : State) : List (List Byte) :=
  let es := s.swatchEntries
  let ps := swatchParts (swatchSize es.length) es.length es
  ps.zipIdx.map fun e => swatchPart s ps.length e.2 e.1

/-- A snapshot is sent through SWDST's port, under the addressing descriptor that stands at its address. -/
def swatch : M Unit := do
  let s ← getState
  let desc ← unitRead 0 (256 * s.host.swDesc.toNat) 256
  modState fun t => { t with host := { t.host with
    swOut := t.host.swOut ++ (swatchMessages s).map fun m => (s.host.swPort, desc, m)
    sseq := t.host.sseq + 1, swLast := t.cycle, swDue := false } }

/-- Every 100 µs. -/
def execSwatchPeriodic (s : State) : Out :=
  if s.host.swPer + 400000 ≤ s.cycle then
    runEvent (do
      swatch
      modState fun s => { s with host := { s.host with swPer := s.cycle } }) s
  else .next s

/-- After a lock, an unlock or a count change, never sooner than 10 µs after the last message. -/
def execSwatchTriggered (s : State) : Out :=
  if s.host.swDue && decide (s.host.swLast + 40000 ≤ s.cycle) then runEvent swatch s else .next s

end Sys2Proof.Machine
end

