-- ==== Sys2Proof/Machine/CoreEvents.lean ====
section
/-! DEFINITION. The events of a core: completions, engine fetch, late words, illegal words, the budget trap, the
pre-emption entry, and remote additions with the away entries (spec 04 R59, R62, R65, R80, 24 R368, R371, 26 R396 to R405).
-/

namespace Sys2Proof.Machine

/-! ## Completion, fetch, late and illegal words -/

/-- The cluster of a core is clocked. -/
def State.powered (s : State) (c : CoreId) : Bool := vget s.power.cluster (clusterOf c) == 0

/-- An engine fetches its next published word into its elastic buffer (R65), where the check of the read is kept with it (R163).
DEDUCED, unsafe (log 147): a word rewritten after it was published and before it is fetched runs as rewritten (R66). -/
def execEngineFetch (core : CoreId) (strm : Strm) (s : State) : Out :=
  match strm with
  | .a | .x => .next s
  | t =>
    let k := s.core core
    let r := k.ring t
    let g := k.engine t
    if k.dead || !s.powered core || !r.started || r.fetch == r.pub || decide (16 ≤ g.buf.length) then .next s
    else
      let w := k.ringWord (r.wordIdx r.fetch.toNat)
      let k1 := k.setRing t { r with fetch := r.fetch + 1 }
      let bad := if k.spadBad (ringOff (r.wordIdx r.fetch.toNat)) 8 then r.fetch :: g.bad else g.bad.filter (· != r.fetch)
      .next (s.setCore core (k1.setEngine t { g with buf := g.buf ++ [(r.fetch, w)], bad := bad }))

/-- A head word has waited beyond its slack: the core raises the stall wire of its group (R80). -/
def execLateWordStall (core : CoreId) (strm : Strm) (s : State) : Out :=
  let s := { s with cur := core }
  let k := s.core core
  if s.streamLate k strm && !k.late then .next ((s.onCore core fun k => { k with late := true }).syncWire core) else .next s

/-- A word whose opcode is no instruction reaches a stream head (R368). -/
def execIllegalWord (strm : Strm) (word : Word) (s : State) : Out :=
  .next (s.decodeStop strm word { cls := 0x01, laddr := 0, d0 := 0, d1 := 0 })

/-! ## The budget trap (R396) -/

/-- The pass budget, in word +24 of the header. -/
def Core.passBudget (k : Core) : Word := (field (vget k.header 3) 0 32).setWidth 64

/-- The record of a core that names its A stream. -/
def Core.aRec (k : Core) (c : CoreId) (cls : BitVec 8) (d0 d1 word : Word) : Rec :=
  { pass := k.passNow, owner := k.ctx, unit := 0, cont := 0, block := 63, cls := cls, wv := true, core := c, strm := 0,
    rword := k.resumeWord, laddr := 0, d0 := d0, d1 := d1, word := word }

def execBudgetTrap (core : CoreId) (s : State) : Out :=
  let s := { s with cur := core }
  let k := s.core core
  if k.dead || !s.powered core || !s.budgetDue k then .next s
  else
    let w := (k.headOf .a).getD 0
    let s := also (appendFault (panelOf core) (k.aRec core 0x20 k.passBudget 0 w)) s
    let enter (k : Core) : Core :=
      { k.enterHandler 0x20 w 0 (excRetWord k.wdone k.resumeWord) 16 with
        monitor := none, budgetArmed := false, budget := 0, budgetAt := s.cycle }
    .next (s.onCore core enter)

/-! ## The pre-emption entry (R400) -/

/-- EXC_CAUSE of a pre-emption at a safe point. -/
def preemptCause : Option (BitVec 16) → Word
  | some n => 0x20000 + n.setWidth 64
  | none => 0x30000

/-- The handler of a pre-emption is entered. -/
def Core.enterPreempt (k : Core) (point : Option (BitVec 16)) (word : Word) (wdone : Bool) : Core :=
  { k.enterHandler (preemptCause point) word 0 (excRetWord wdone k.resumeWord) 16 with
    preempt := false, monitor := none, safeAt := some point }

def execPreemptEntry (core : CoreId) (s : State) : Out :=
  let s := { s with cur := core }
  let k := s.core core
  match k.safePoint with
  | none => .next s
  | some point =>
    if !k.preemptDue || !s.powered core then .next s
    else if (k.ring .a).ended then .next (s.onCore core fun k => k.enterPreempt point 0 false)
    else
      let w := (k.headOf .a).getD 0
      match decodeA w with
      | some (.aSafe h _) =>
        let s1 := (s.onCore core fun k => k.advanceA false .next).aComplete h w (k.headWord .a)
        if (s1.core core).priv then .next s1
        else .next ((s1.onCore core fun k => k.enterPreempt point w false).endLate core)
      | _ => .next (s.onCore core fun k => k.enterPreempt point k.aSafeWord true)

/-! ## Remote additions (R62, R371, R404) -/

/-- A remote addition as it names no word of its sender any more. -/
def Held.orphan (h : Held) : Held := { h with abs := 2 ^ 64 }

/-- The additions, link flits and blocks that the words of a core sent no longer answer to them. -/
def State.orphan (s : State) (c : CoreId) : State :=
  let mine (h : Held) : Held := if h.sender = c && h.link.isNone then h.orphan else h
  { s with
    remotes := s.remotes.map fun x => { x with held := mine x.held }
    cores := s.cores.map fun e => (e.1, { e.2 with away := e.2.away.map fun a => { a with held := a.held.map mine } })
    links := s.links.map fun l => { l with sends := l.sends.filter fun e => e.2.1 != c
                                           outgoing := l.outgoing.filter fun o => o.core != c } }

/-- The record of a word that sent a remote addition. -/
def Held.record (h : Held) (owner : Tag) (cls : BitVec 8) (cont : BitVec 2) (d0 d1 : Word) : Rec :=
  { pass := h.pass, owner := owner, unit := BitVec.ofNat 3 h.strm.code, cont := cont, block := 63, cls := cls, wv := true,
    core := h.sender, strm := BitVec.ofNat 3 h.strm.code, rword := h.rword, laddr := 0, d0 := d0, d1 := d1,
    word := h.word }

/-- The sender's word has its answer: a FINC completes, a CMCAST counts it. -/
def State.answered (s : State) (h : Held) : State :=
  if h.link.isSome || h.abs = 2 ^ 64 then s
  else
    match h.strm with
    | .a =>
      let cur := s.cur
      let s1 := { s with cur := h.sender }.onCore h.sender fun k => { k.advanceA k.priv .next with finc := false }
      { (s1.aComplete (getHdr h.word) h.word h.rword).endLate h.sender with cur := cur }
    | _ => s.onCore h.sender fun k => k.answer h.abs h.entry

/-- A rejected packet of a link: a record to its owner and, where it is dropped, one more in LREJ (R409). -/
def linkReject (l : BitVec 4) (owner : Tag) (h0 : Word) (dropped : Bool := true) : M Unit := do
  if dropped then modState fun s => s.onLink l.toNat fun q => { q with rej := satInc q.rej }
  appendFault (linkPanel l.toNat) { memRec owner 0x32 0 (l.setWidth 64) h0 with unit := 7 }

/-- An addition that no live flag takes (R404). -/
def remoteDrop (h : Held) (owner : Tag) (target : CoreId) (noFlag : Bool) : M Unit := do
  modState fun s => s.onCore target fun k => { k with sigDrop := satInc k.sigDrop }
  match h.link with
  | some l => linkReject l owner h.word
  | none =>
    let mask := match h.strm with
      | .a => if noFlag then maskIf true 34 6 else maskIf true 28 6
      | _ => if noFlag then maskIf true 16 6 else maskIf true 16 7
    appendFault (panelOf target) (h.record owner 0x04 3 mask (target.setWidth 64))
    modState fun s => s.answered h

/-- A refused FINC enters its sender's handler. What it did as it issued, its wait and an issue-time signal, stands and is not done
again (DEDUCED, log 151). -/
def State.refuseFinc (s : State) (h : Held) (owner : Tag) (old : Word) : State :=
  let c := h.sender
  let r := h.record owner 0x07 0 old (h.amount.setWidth 64)
  let k := s.core c
  if k.priv then
    ((also (appendTo 0 (panelOf c) r) s).onCore c fun k => { k with dead := true, finc := false }).raiseWire c
  else
    (also (appendFault (panelOf c) r) s).onCore c fun k =>
      { k.enterHandler 0x07 h.word 0 (excRetWord (field h.word 62 2 != 0 || (sigIssue (getSig h.word)).isSome) (k.headWord .a)) 16 with finc := false }

/-- A refused addition of a CMCAST halts its stream at the addition. -/
def State.refuseCmcast (s : State) (h : Held) (owner : Tag) (target : CoreId) (old : Word) (i : Nat) (w : Issued) :
    State :=
  let c := h.sender
  (also (appendFault (panelOf c) (h.record owner 0x07 0 old (h.amount.setWidth 64))) s).onCore c fun k =>
    (k.dropProg .c i).haltEngine .c (.remote target h w)

/-- An addition refused at its target (R371); one of a CMCAST whose stream has halted waits. A signal packet is reported
as a dropped one (log 37); one whose sender's word is gone is recorded and stops nothing (log 151). -/
def remoteRefuse (h : Held) (owner : Tag) (target : CoreId) (old : Word) : M Unit := do
  match h.link with
  | some l => linkReject l owner h.word
  | none =>
    let alone : M Unit := appendFault (panelOf h.sender) (h.record owner 0x07 0 old (h.amount.setWidth 64))
    if h.abs = 2 ^ 64 then alone
    else
      match h.strm with
      | .a => modState fun s => s.refuseFinc h owner old
      | _ => do
        let s ← getState
        let k := s.core h.sender
        stallIf k.c.halt.isSome
        match k.c.prog.findIdx? fun w => w.abs == h.abs && w.entry == h.entry with
        | none => alone
        | some i => modState fun s => s.refuseCmcast h owner target old i (k.c.prog.getD i default)

/-- The away entry of a core for a tag. -/
def Core.awayFor (k : Core) (owner : Tag) : Option Nat :=
  (List.range 8).find? fun i => (vget k.away i).mode != 0 && (vget k.away i).owner == owner

/-- One atomic at the flag word of a context image: the word before it. -/
def imageAdd (p : Nat) (a : Away) (h : Held) : M Word := do
  modMem fun m => m.catchUp p h.clock
  let la := a.image.toNat * 4096 + 0x600 + 8 * h.v.toNat
  let add (old : Nat) : Option Nat := ((Flag.ofWord (w64 old)).add h.amount.toNat).map fun f => f.word.toNat
  match ← unitTry (homeRmw p 0 la 8 0 add) with
  | some old => pure (w64 old)
  | none => throw .stall

/-- A remote addition is decided at its target by the table of R404: the flags of a cluster in P1 take it whatever its tag. -/
def decideRemote (x : Remote) : M Unit := do
  let s ← getState
  let h := x.held
  let t := x.target
  let k := s.core t
  if (k.loaded && k.ctx == x.owner && vget s.power.cluster (clusterOf t) != 2) || vget s.power.cluster (clusterOf t) == 1 then
    if k.flagNum.toNat ≤ h.v.toNat then remoteDrop h x.owner t true
    else do
      modState fun s => (s.wakeCluster (clusterOf t)).onMem fun m => m.catchUp (panelOf t) h.clock
      match k.addFlag h.v h.amount.toNat with
      | .ok k' => do
        modState fun s => s.setCore t k'
        modState fun s => s.answered h
      | .error old => remoteRefuse h x.owner t old
  else
    match k.awayFor x.owner with
    | none => remoteDrop h x.owner t false
    | some i =>
      let a := vget k.away i
      if a.num.toNat ≤ h.v.toNat then remoteDrop h x.owner t true
      else if a.mode = 1 then do
        let old ← imageAdd (panelOf t) a h
        if ((Flag.ofWord old).add h.amount.toNat).isSome then modState fun s => s.answered h
        else remoteRefuse h x.owner t old
      else if a.mode = 2 then
        modState fun s => s.onCore t fun k => { k with away := vset k.away i { a with held := a.held ++ [h] } }
      else modState fun s => { s with remotes := s.remotes ++ [{ x with target := a.core }] }

/-- The k-th remote addition in flight reaches its target. -/
def execRemoteAddition (k : Nat) (s : State) : Out :=
  match s.remotes[k]? with
  | none => .next s
  | some x =>
    runEvent (do
      modState fun s => { s with remotes := listDrop s.remotes k }
      decideRemote x) s

/-! ## Firmware's registers of R396 to R405 -/

/-- PREEMPT.PEND written 1. -/
def execPreemptRequest (core : CoreId) (s : State) : Out := .next (s.onCore core fun k => { k with preempt := true })

/-- BUDGADD (R396): a budget raised above 0 while a pass is current is armed again. -/
def execBudgadd (core : CoreId) (add : BitVec 32) (s : State) : Out :=
  let k := s.core core
  let b := min (2 ^ 32 - 1) ((s.budgetNow k).toNat + add.toNat)
  .next (s.setCore core { k with
    budget := BitVec.ofNat 32 b, budgetAt := s.cycle, budgetArmed := k.budgetArmed || (k.current && decide (0 < b)) })

/-- FPARK (R398): every block of the current pass is parked, with a record for each owner that is newly parked. -/
def execFpark (core : CoreId) (s : State) : Out :=
  let k := s.core core
  if !k.current then .next s
  else
    let fresh := k.blocks.filter fun b => !k.rbtParked b
    let owners := (fresh.map k.rbtOwner).eraseDups
    let k' := { (fresh.foldl Core.park k).pm 8 ((fresh.map k.rbtCount).sum) with parkedOwners := owners ++ k.parkedOwners }
    let note (o : Tag) : Rec :=
      { pass := k.passId, owner := o, unit := 0, cont := 1,
        block := BitVec.ofNat 6 ((fresh.find? fun b => k.rbtOwner b == o).getD 0), cls := 0x20, wv := false, core := 0,
        strm := 0, rword := 0, laddr := 0, d0 := k.passBudget, d1 := 0, word := 0 }
    runEvent (owners.forM fun o => appendFault (panelOf core) (note o)) (s.setCore core k')

/-- Both words of an away entry are written (R404): under HOLD the held additions stay; otherwise they are decided
anew, in their order. -/
def execAwayEntryWrite (core : CoreId) (i : BitVec 3) (w0 w1 : Word) (s : State) : Out :=
  let k := s.core core
  let old := vget k.away i.toNat
  let new : Away :=
    { mode := field w0 62 2, num := field w0 32 7, core := field w0 16 10, owner := field w0 0 12,
      image := field w1 12 44, held := if field w0 62 2 = 2 then old.held else [] }
  let free := if field w0 62 2 = 2 then [] else old.held
  let s := s.setCore core { k with away := vset k.away i.toNat new }
  .next { s with remotes := s.remotes ++ free.map fun h => { held := h, target := core, owner := old.owner } }

end Sys2Proof.Machine
end

