-- ==== Sys2Proof/Machine/AccessAtomic.lean ====
section
/-! DEFINITION. The access unit's atomics, gate words and monitored wait (spec 14 R246 to R249, R258). -/

namespace Sys2Proof.Machine

/-! ## Addresses (R108, R114, R246, R367) -/

/-- The bits of a word of format AT or M that make its address: the base and the low `bits` of the offset. -/
def addrMask (bits : Nat) : Word := maskIf true 30 5 ||| maskIf true 0 bits

/-- The place of an aligned access of `n` bytes: its region is checked first, then its alignment, then the range and the
rights (R367). -/
def placeIn (set : RangeSet) (va : Word) (n need align : Nat) (mask : Word) (okRegion : Nat → Bool) : M Nat := do
  match rangeTranslate set va 0 0 with
  | .ok la => if !okRegion (regionOf la) then raise 0x04 la mask 0
  | .bad _ _ => pure ()
  if va.toNat % align ≠ 0 then raise 0x0A 0 va (w64 align)
  match rangeTranslate set va n need with
  | .ok la => pure la
  | .bad cls d0 => raise cls 0 d0 (w64 need)

/-- That place through the running word's set (R265). -/
def aPlace (va : Word) (n need align : Nat) (mask : Word) (okRegion : Nat → Bool) : M Nat := do
  placeIn (← aSet) va n need align mask okRegion

/-- The place of a gate word, through set(CTX) whatever PRIV is (R249). -/
def gatePlace (va : Word) (need : Nat) : M Nat := do
  placeIn (← getCore).rangeSet va 8 need 8 (addrMask 21) (· == 4)

/-- The panel of the running core. -/
def aPanel : M Nat := do
  let s ← getState
  pure (panelOf s.cur)

/-- Bytes of an access of a size field. -/
def sizeBytes (size : BitVec 3) : Nat := 2 ^ size.toNat

/-- The address of an AT word: base plus offset. -/
def atAddr (o : ATOp) : M Word := do
  let b ← rdA o.base
  pure (b + sext64 o.off)

/-! ## Atomics (R246 to R248) -/

/-- One atomic: the new value from the old value and the operand, none where nothing is written; the old value goes to
`d`. Sources are read in field order: d of ACAS, base, s2. -/
def aAtomic (i : Instr) (h : Hdr) (o : ATOp) (readD : Bool) (f : Nat → Nat → Nat → Nat → Option Nat) (s : State) : Out :=
  runA i h false noBad (do
    let d ← (if readD then rdA o.d else pure 0)
    let va ← atAddr o
    let x ← rdA o.s2
    let n := sizeBytes o.size
    let la ← aPlace va n 3 n (addrMask 21) (fun r => decide (r ≤ 1))
    let old ← homeRmw (← aPanel) (← aTag) la n va fun old => f n old (x.toNat % 256 ^ n) (d.toNat % 256 ^ n)
    wrA o.d (w64 old)
    pure .next) s

def execAadd (h : Hdr) (o : ATOp) (s : State) : Out :=
  aAtomic (.aadd h o) h o false (fun n old v _ => some ((old + v) % 256 ^ n)) s

/-- AADDB: the index, read first, rises only while the sum does not exceed the limit in the next word. -/
def execAaddb (h : Hdr) (o : ATOp) (s : State) : Out :=
  runA (.aaddb h o) h false noBad (do
    let va ← atAddr o
    let x ← rdA o.s2
    let la ← aPlace va 8 3 16 (addrMask 21) (fun r => decide (r ≤ 1))
    let p ← aPanel
    let t ← aTag
    let _ ← homeRmwBy p t la 8 va fun old => do
      let lim := natOfBytes (← homeRead p t (la + 8) 8 (va + 8))
      let ok := decide (old + x.toNat ≤ lim)
      wrA o.d (if ok then w64 old else allOnes)
      pure (if ok then some (old + x.toNat) else none)
    pure .next) s

/-- A value of `n` bytes as the comparison of AMAX and AMIN takes it. -/
def atInt (sg : Bool) (n v : Nat) : Int := if sg && decide (256 ^ n ≤ 2 * v) then (v : Int) - (256 ^ n : Nat) else v

def execAmax (h : Hdr) (o : ATOp) (s : State) : Out :=
  aAtomic (.amax h o) h o false (fun n old v _ => some (if atInt o.sg n old < atInt o.sg n v then v else old)) s

def execAmin (h : Hdr) (o : ATOp) (s : State) : Out :=
  aAtomic (.amin h o) h o false (fun n old v _ => some (if atInt o.sg n v < atInt o.sg n old then v else old)) s

def execAor (h : Hdr) (o : ATOp) (s : State) : Out := aAtomic (.aor h o) h o false (fun _ old v _ => some (old ||| v)) s

def execAxchg (h : Hdr) (o : ATOp) (s : State) : Out := aAtomic (.axchg h o) h o false (fun _ _ v _ => some v) s

def execAcas (h : Hdr) (o : ATOp) (s : State) : Out :=
  aAtomic (.acas h o) h o true (fun _ old v d => if old = d then some v else none) s

/-- The format of RADDF: FP32 at size 2, BF16 at size 1. -/
def raddfFmt (size : BitVec 3) : FloatFmt := if size = 2 then fp32F else bf16F

/-- RADDF: the exact sum rounded once to nearest even; no register is written. -/
def execRaddf (h : Hdr) (o : ATOp) (s : State) : Out :=
  runA (.raddf h o) h false noBad (do
    let va ← atAddr o
    let x ← rdA o.s2
    let n := sizeBytes o.size
    let f := raddfFmt o.size
    let la ← aPlace va n 3 n (addrMask 21) (fun r => decide (r ≤ 1))
    let sum (old : Nat) : Val := (f.decode old).add false (f.decode (x.toNat % 256 ^ n))
    let _ ← homeRmw (← aPanel) (← aTag) la n va fun old => some (roundTo (.flt f) (sum old) .rne false 0)
    pure .next) s

/-! ## Gate words (R249) -/

def execGset (h : Hdr) (o : ATOp) (s : State) : Out :=
  runA (.gset h o) h false noBad (do
    let va ← atAddr o
    let x ← rdA o.s2
    let la ← gatePlace va 2
    gateFill (← aPanel) (← aTag) la x va
    pure .next) s

def execGclr (h : Hdr) (o : ATOp) (s : State) : Out :=
  runA (.gclr h o) h false noBad (do
    let va ← atAddr o
    let la ← gatePlace va 2
    gateClear (← aPanel) (← aTag) la va
    pure .next) s

/-- GLD: the value and then the tag, so that the tag stands where both destinations are equal. -/
def execGld (h : Hdr) (o : ATOp) (s : State) : Out :=
  runA (.gld h o) h false noBad (do
    let va ← atAddr o
    let la ← gatePlace va 1
    let b ← homeRead (← aPanel) (← aTag) la 8 va
    let st ← getState
    wrA o.d (wordOf b)
    wrA o.s2 (ofBool 64 (st.gateFull la))
    pure .next) s

/-! ## MONW (R258) -/

/-- The operands of MONW: the timeout, the address and the value compared. -/
def monwArgs (o : ATOp) : M (Word × Word × Word) := do
  let t ← rdA o.d
  let va ← atAddr o
  let x ← rdA o.s2
  pure (t, va, x)

/-- MONW arms its line and reads the word as one step; where the word is equal it sleeps, its XA entries not yet popped,
until an event ends it. -/
def execMonw (h : Hdr) (o : ATOp) (s : State) : Out :=
  runA (.monw h o) h false noBad (do
    let k ← getCore
    stallIf k.monitor.isSome
    let (t, va, x) ← monwArgs o
    let n := sizeBytes o.size
    let la ← aPlace va n 3 n (addrMask 21) (fun r => decide (r ≤ 1))
    let old ← homeRead (← aPanel) (← aTag) la n va
    if natOfBytes old ≠ x.toNat % 256 ^ n then
      wrA o.d 1
      pure .next
    else
      let st ← getState
      let d := (st.ftOf (panelOf st.cur)).toNat + t.toNat
      let m : Monitor := { line := la / 64, deadline := if t = 0 then none else some d, woken := false }
      modCore fun q => { q with monitor := some m, xa := k.xa }
      throw .waiting) s

/-- A sleeping MONW ends with a result, and completes. -/
def monwEnd (c : CoreId) (result : Word) : M Unit := do
  modState fun s => { s with cur := c }
  let k ← getCore
  let w := (k.headOf .a).getD 0
  match decodeA w with
  | some (.monw h o) => do
    let _ ← monwArgs o
    wrA o.d result
    modState fun s =>
      let s := s.onCore c fun q => { q.advanceA k.priv .next with monitor := none }
      ((s.wakeCluster (clusterOf c)).aComplete h w (k.headWord .a)).endLate c
  | _ => throw .stall

/-- A write to the line of an armed MONW has been performed (R258): it is causally before the result. -/
def execMonwWake (core : CoreId) (s : State) : Out :=
  match (s.core core).monitor with
  | some m =>
    if m.woken then
      runEvent (do
        modState fun s => s.onMem fun q => q.catchUp (panelOf core) (s.stampOf m.line)
        monwEnd core 0) s
    else .next s
  | none => .next s

/-- FT has reached the deadline of an armed MONW that nothing has woken. -/
def execMonwTimeout (core : CoreId) (s : State) : Out :=
  match (s.core core).monitor with
  | some m => if !m.woken && s.timedOut (panelOf core) m then runEvent (monwEnd core 2) s else .next s
  | none => .next s

end Sys2Proof.Machine
end

