-- ==== Sys2Proof/Machine/Fabric.lean ====
section
/-! DEFINITION. Fabric time and the seam links but for the packets that access memory (spec 10 R188 to R192, 18 R336,
26 R409, R410). -/

namespace Sys2Proof.Machine

/-! ## Fabric time (R188) -/

/-- The master in quarters of a nanosecond, and a replica. -/
def State.ftQ (s : State) : Nat := 4 * s.ft.toNat + s.phase.toNat
def State.repQ (s : State) (p : Nat) : Nat := 4 * (vget s.ftRep p).toNat + (vget s.repPhase p).toNat

/-- A clock one quarter of a nanosecond further, or back within its nanosecond: no reading ever falls. -/
def slewed (q other : Nat) : Nat := if q < other then q + 1 else if other < q && q % 4 != 0 then q - 1 else q

/-- A slew of at most 200 parts per million: one quarter of a nanosecond in 1.25 µs. -/
def slewGap : Nat := 5000

/-- Every replica stands within the package skew bound of a master reading: 16 ns, in quarters (R15). -/
def State.skewOk (s : State) (q : Nat) : Bool :=
  (List.range 4).all fun p => decide (q ≤ s.repQ p + 64) && decide (s.repQ p ≤ q + 64)

/-- The master slews towards a reading, never further from a replica than the skew bound (R15, R243, log 24). -/
def State.slewMaster (s : State) (other : Nat) : State :=
  let q := slewed s.ftQ other
  if decide (s.slewAt + slewGap ≤ s.cycle) && Config.slew 0 s.ftQ other && s.skewOk q then
    { s with ft := w64 (q / 4), phase := BitVec.ofNat 2 q, slewAt := s.cycle }
  else s

/-- Twice the offset of the master from its PTP master, in ns: (t2 - t1) - (t4 - t3). -/
def ptpOffset (t1 t2 t3 t4 : Word) : Int := ((t2 - t1) - (t4 - t3)).toInt

/-- A two-step exchange on the port that the configuration record names: the root's master slews towards the host's time. -/
def execPtpMessage (time : PtpTimes) (s : State) : Out :=
  if s.boot.stat != 0 || !s.boot.timeRoot || time.port != s.boot.ptpPort then .next s
  else .next (s.slewMaster ((s.ftQ : Int) - 2 * ptpOffset time.t1 time.t2 time.t3 time.t4).toNat)

/-- The master's correction of a replica. -/
def execFtCorrection (panel : BitVec 2) (s : State) : Out :=
  let p := panel.toNat
  if decide (vget s.repSlewAt p + slewGap ≤ s.cycle) && Config.slew (p + 1) (s.repQ p) s.ftQ then
    let q := slewed (s.repQ p) s.ftQ
    .next { s with ftRep := vset s.ftRep p (w64 (q / 4)), repPhase := vset s.repPhase p (BitVec.ofNat 2 q),
                   repSlewAt := vset s.repSlewAt p s.cycle }
  else .next s

/-! ## Receiving flits (R190, R409) -/

/-- Sizes of an atomic packet's opcode (R246). -/
def linkAtomicOk (op size : Nat) : Bool :=
  decide (0x20 ≤ op) && decide (op ≤ 0x27) &&
    (if op = 0x27 then size == 1 || size == 2 else if op = 0x21 then size == 3 else size == 2 || size == 3)

/-- A reserved bit of a flit is set, for its TYPE, or its TYPE or a value of a field is reserved. -/
def flReserved (f : Flit) : Bool :=
  let args : Bool := match flType f with
    | 1 => !flRsp f && (field f.a0 2 62 != 0 || field f.a0 0 2 == 3 || f.a1 != 0 || f.a2 != 0)
    | 3 => !flRsp f && field f.a0 11 53 != 0
    | 4 => field f.a0 6 10 != 0 || field f.a0 32 32 != 0 || f.a1 != 0 || f.a2 != 0
    | 5 => field f.a0 12 20 != 0 || f.a2 != 0
    | 7 => f.a2 != 0
    | _ => false
  decide (8 ≤ flType f) || field f.h0 56 3 != 0 || field f.h0 10 14 != 0 || bit f.h0 8 || field f.h2 56 8 != 0 ||
    field f.h7 32 32 != 0 || decide (192 < flBytes f) || args

/-- The partner's acknowledgment and its request to send again (R190). -/
def State.linkFeedback (s : State) (l : Nat) (f : Flit) : State :=
  let s := s.linkAck l (flAckseq f)
  if flNak f then s.resend l else s

/-- A flit in sequence is accepted. -/
def State.inOrder (s : State) (l : Nat) (f : Flit) : Bool := flFseq f == (s.link l).lastIn + 1

/-- A flit arrives: with a bad CRC it is discarded with a NAK. Otherwise its acknowledgment acts; in sequence it is accepted and
handled; after a gap it is discarded with a NAK; one that came before is discarded. Nothing passes a link that is down. -/
def receive (l : BitVec 4) (f : Flit) (handle : M Unit) (s : State) : Out :=
  let n := l.toNat
  if (s.link n).down then .next s
  else if !flGood f then .next (s.sendIdle n true)
  else
    let s1 := s.linkFeedback n f
    if s1.inOrder n f then
      match handle (s1.onLink n fun k => { k with lastIn := flFseq f }) with
      | .ok _ s2 => .next s2
      | .error (.halt h) _ => .fault h
      | .error _ _ => .next s
    else if decide ((flFseq f - (s1.link n).lastIn).toNat < 2 ^ 15) && flFseq f != (s1.link n).lastIn then
      .next (s1.sendIdle n true)
    else .next s1

/-- A flit with a bad CRC is discarded with a NAK. -/
def execLinkFlitCorrupt (link : BitVec 4) (s : State) : Out :=
  if (s.link link.toNat).down then .next s else .next (s.sendIdle link.toNat true)

/-- A flit of a reserved TYPE or with a reserved bit: acknowledged, dropped and reported to tag 0. -/
def execLinkFlitReserved (link : BitVec 4) (flit : Flit) (s : State) : Out :=
  if flReserved flit && flType flit != 0 then receive link flit (linkReject link 0 flit.h0) s else .next s

/-- An idle flit takes no FSEQ: only its ACKSEQ and NAK act. One with a bad CRC is discarded with a NAK (R190), one with a reserved
bit dropped and reported (R409). -/
def execIdleFlit (link : BitVec 4) (flit : Flit) (s : State) : Out :=
  let l := link.toNat
  if (s.link l).down || flType flit != 0 then .next s
  else if !flGood flit then .next (s.sendIdle l true)
  else if flReserved flit then runEvent (linkReject link 0 flit.h0) s
  else .next (s.linkFeedback l flit)

/-- A NAK: its sender wants everything again from ACKSEQ + 1. One with a bad CRC is discarded with a NAK of its own. -/
def execLinkNak (link : BitVec 4) (flit : Flit) (s : State) : Out :=
  if (s.link link.toNat).down || !flNak flit || flReserved flit then .next s
  else if !flGood flit then .next (s.sendIdle link.toNat true)
  else .next ((s.linkAck link.toNat (flAckseq flit)).resend link.toNat)

/-- A flit of a TYPE that the device handles, with no reserved bit. -/
def flIs (f : Flit) (type : Nat) (rsp : Bool) : Bool := flType f == type && flRsp f == rsp && !flReserved f

/-- A signal packet becomes a remote addition at its target core (R190, R404). -/
def execLinkSignal (link : BitVec 4) (flit : Flit) (s : State) : Out :=
  if !flIs flit 4 (flRsp flit) then .next s
  else
    receive link flit (modState fun s =>
      let h : Held :=
        { sender := flSrc flit, strm := .a, v := field flit.a0 0 6, amount := field flit.a0 16 16,
          clock := s.vc (linkPanel link.toNat), pass := 0, rword := 0, word := flit.h0, abs := 0, entry := none,
          link := some link }
      { s with remotes := s.remotes ++ [{ held := h, target := flDst flit, owner := flOwner flit }] }) s

/-- A block's flit placed in a receive buffer: at the end of its block, or as a new one; none for a later flit of a block
that was dropped. -/
def addPart (owner : Tag) (sched : BitVec 32) (num : BitVec 12) (at0 : Nat) (bs : List Byte) :
    List Block → Option (List Block)
  | [] =>
    if at0 = 0 then
      some [{ owner := owner, sched := sched, num := num, bytes := bs, whole := decide (bs.length < 192) }]
    else none
  | b :: rest =>
    if b.owner = owner && b.sched == sched && b.num == num && !b.whole && b.bytes.length == at0 then
      let all := b.bytes ++ bs
      some ({ b with bytes := all, whole := decide (bs.length < 192) || decide (4096 ≤ all.length) } :: rest)
    else (addPart owner sched num at0 bs rest).map fun r => b :: r

/-- The blocks of a link that stand before a new one are whole. -/
def closeParts (num : Nat) (bs : List Block) : List Block := if num = 0 then bs.map fun b => { b with whole := true } else bs

/-- A scheduled-block flit is delivered to the core DST (R336); one whose core runs no context of OWNER is dropped. -/
def execLinkSchedBlock (link : BitVec 4) (flit : Flit) (s : State) : Out :=
  if !flIs flit 5 (flRsp flit) then .next s
  else
    receive link flit (do
      let s ← getState
      let c := flDst flit
      let k := s.core c
      let i := flit.a1.toNat
      if !(k.loaded && k.ctx == flOwner flit && vget s.power.cluster (clusterOf c) != 2) then
        linkReject link (flOwner flit) flit.h0
      else
        let have0 := closeParts i (k.linkBlocks link.toNat)
        match addPart (flOwner flit) (field flit.a0 32 32) (field flit.a0 0 12) (192 * i)
          ((flBody flit).take (flBytes flit)) have0 with
        | none => linkReject link (flOwner flit) flit.h0
        | some now => do
          stallIf (decide (64 < now.length))
          modState fun s =>
            (s.onCore c fun k => { k with recv := mapPut k.recv link.toNat now }).wakeCluster (clusterOf c)) s

/-- A management flit writes the register of its number. -/
def execLinkManagement (link : BitVec 4) (flit : Flit) (s : State) : Out :=
  if !flIs flit 7 (flRsp flit) then .next s
  else
    receive link flit (modState fun s => s.onLink link.toNat fun k =>
      { k with mgmt := mapPut k.mgmt flit.a0.toNat flit.a1 }) s

/-- A reply is kept for its requester. -/
def execLinkReply (link : BitVec 4) (flit : Flit) (s : State) : Out :=
  if !(flIs flit 1 true || flIs flit 3 true) then .next s
  else receive link flit (modState fun s => s.onLink link.toNat fun k => { k with replies := k.replies ++ [flit] }) s

/-! ## Time-sync (R191) -/

/-- A side of a link sends a time-sync packet stamped T1. -/
def execTimeSyncSend (link : BitVec 4) (s : State) : Out :=
  let l := link.toNat
  if !s.linkRoom l then .next s
  else .next (s.sendFlit l (mkFlit 6 false 0 0 0 0 0 (s.ftOf (linkPanel l)) 0 0 []))

/-- ((T2 - T1) - (T4 - T3)) / 2. -/
def syncOffset (t1 t2 t3 t4 : Word) : Word := ((t2 - t1) - (t4 - t3)).sshiftRight 1

/-- A time-sync packet: a request is answered with T2 and T3; a reply gives the offset, and a master that does not follow
IEEE 1588 slews towards the partner nearer the root. -/
def execTimeSyncReceive (link : BitVec 4) (flit : Flit) (s : State) : Out :=
  let l := link.toNat
  if flIs flit 6 false then
    receive link flit (do
      let s ← getState
      stallIf !s.linkRoom l
      let t := s.ftOf (linkPanel l)
      modState fun s => s.sendFlit l (mkFlit 6 true 0 0 0 (flTag flit) 0 flit.a0 t t [])) s
  else if flIs flit 6 true then
    receive link flit (modState fun s =>
      let off := syncOffset flit.a0 flit.a1 flit.a2 (s.ftOf (linkPanel l))
      let s := s.onLink l fun k => { k with offset := off }
      if s.boot.timeRoot || !Config.towardRoot l then s
      else s.slewMaster ((s.ftQ : Int) + 4 * off.toInt).toNat) s
  else .next s

/-! ## Links that go down (R410) -/

/-- 100 µs in cycles. -/
def ackLimit : Nat := 400000

/-- A flit has had 16 resends or waited 100 µs: the link enters DOWN, with a record to tag 0 and to each owner of a held
flit. -/
def execLinkDown (link : BitVec 4) (s : State) : Out :=
  let l := link.toNat
  let k := s.link l
  if k.down || !(k.unacked.any fun u => decide (16 ≤ u.resends) || decide (u.at0 + ackLimit ≤ s.cycle)) then .next s
  else
    let owners := ((0 : Tag) :: k.unacked.map fun u => flOwner u.flit).eraseDups
    runEvent (do
      modState fun s => s.onLink l fun k => { k with down := true, pend := [] }
      owners.forM fun o =>
        appendFault (linkPanel l)
          { memRec o 0x31 0 (link.setWidth 64) (k.lastAck.setWidth 64) with unit := 7 }) s

/-- A DOWN link retrains, unless a failed boot has set it down (R412); on success the sender resends from the partner's ACKSEQ + 1.
DESIGN CHOICE (log 161): the resends and the 100 µs are then counted anew. -/
def execLinkRetrain (link : BitVec 4) (ok : Bool) (ackseq : BitVec 16) (s : State) : Out :=
  let l := link.toNat
  let k := s.link l
  if s.boot.stat != 0 || !k.down || k.discard || !ok then .next s
  else
    let s1 := (s.onLink l fun k => { k with down := false }).linkAck l ackseq
    let fresh (k : Link) : Link :=
      if k.unacked.isEmpty then { k with fseq := ackseq + 1, lastAck := ackseq }
      else { k with unacked := k.unacked.map fun u => { u with resends := 0, at0 := s.cycle } }
    .next ((s1.onLink l fresh).emit l ((s1.link l).unacked.map (·.flit)))

/-- The words that sent the dropped flits of a link are answered as by a reply with BYTES 0. -/
def Core.loseLink (k : Core) (lost : List Nat) : Core :=
  { k with c := { k.c with
      prog := k.c.prog.map fun w =>
        if lost.contains w.abs && w.entry.isNone then { w with pending := 0, deferred := [.linkLost] } else w } }

/-- DISCARD set: the port drops its held flits and answers what waited on them. DESIGN CHOICE (log 161): the next flit takes the FSEQ
after the last one acknowledged. -/
def execLinkDiscard (link : BitVec 4) (s : State) : Out :=
  let l := link.toNat
  let k := s.link l
  let lost : List (CoreId × Nat) := k.sends.map (fun e => (e.2.1, e.2.2)) ++ k.outgoing.map fun o => (o.core, o.abs)
  let drop (k : Link) : Link :=
    { k with discard := true, unacked := [], pend := [], sends := [], outgoing := [], fseq := k.lastAck + 1 }
  let cores := (lost.map (·.1)).eraseDups
  .next (cores.foldl (fun s c => s.onCore c fun q => q.loseLink ((lost.filter (·.1 == c)).map (·.2))) (s.onLink l drop))

end Sys2Proof.Machine
end

