-- ==== Sys2Proof/Machine/HostQueues.lean ====
section
/-! DEFINITION. The submission queues, the submission log, the watchdog and the fallback scheduler (spec 10 R178 to R187,
26 R406, R407). -/

namespace Sys2Proof.Machine

def State.sq (s : State) (q : Nat) : SubQ := (mapGet s.host.sqs q).getD SubQ.reset
def State.setSq (s : State) (q : Nat) (x : SubQ) : State := { s with host := { s.host with sqs := mapPut s.host.sqs q x } }
def State.onHost (s : State) (f : HostIf → HostIf) : State := { s with host := f s.host }

/-! ## SQCFG (R178) -/

/-- The fields of SQCFG; EN set from 0 to 1 also clears TAIL and HEAD. DESIGN CHOICE (log 156): LOGC 13 to 15 are stored, and the ring
then holds 2^LOGC records. -/
def SubQ.configure (x : SubQ) (v : Word) : SubQ :=
  let y := { x with en := bit v 63, gath := field v 60 3, logc := field v 56 4, ring := field v 7 49 }
  if !x.en && bit v 63 then { y with tail := 0, head := 0 } else y

def execSqEnable (q : BitVec 10) (value : Word) (s : State) : Out :=
  .next (s.setSq q.toNat ((s.sq q.toNat).configure value))

/-! ## SQTAIL and the log (R180, R181, R183) -/

/-- The log holds 65,536 entries that are not served. -/
def HostIf.logFull (h : HostIf) : Bool := decide (h.logCommit.toNat + 65536 ≤ h.logNext.toNat)

/-- The log's interrupt: NEXT > COMMIT (R185). -/
def HostIf.logIrq (h : HostIf) : HostIf := { h with irqLog := decide (h.logCommit.toNat < h.logNext.toNat) }

/-- The place of a log entry. -/
def HostIf.logAddr (h : HostIf) (n : Word) : Nat := h.logBase.toNat * 2 ^ 21 + 32 * (n.toNat % 65536)

/-- A write to the SQTAIL of a mapped queue is appended to the log and applied by MAX, in one step. -/
def logTail (q : BitVec 10) (v : Word) (clk : VClock) : M Unit := do
  let s ← getState
  let x := s.sq q.toNat
  let n := s.host.logNext
  let raised := decide (x.tail.toNat < v.toNat)
  let last : Word := ofBool 64 raised <<< 16 ||| q.setWidth 64
  unitWrite 0 (s.host.logAddr n) (([n, v, s.ftOf 0, last].map (bytesOfW 8)).flatten)
  modState fun s =>
    let s := s.onHost fun h => { h with logNext := n + 1 }.logIrq
    s.setSq q.toNat { x with clock := vcMax x.clock clk, tail := if raised then v else x.tail }

/-- The acknowledgment of the port a write came through. -/
def State.ackPort (s : State) (port : Option (BitVec 3)) : State :=
  match port with
  | some p => s.onHost fun h => { h with replies := h.replies ++ [.ack p] }
  | none => s

/-- The port that acknowledges with a write, if one does. -/
def HeldTail.toAck (x : HeldTail) : Option (BitVec 3) := if x.ack then x.port.map (·.1) else none

/-- A write to SQTAIL: discarded while EN is 0, held while the log is full. -/
def tailWrite (x : HeldTail) : M Unit := do
  let s ← getState
  if !(s.sq x.queue.toNat).en then modState fun s => s.ackPort x.toAck
  else if s.host.logFull then modState fun s => s.onHost fun h => { h with heldTails := h.heldTails ++ [x] }
  else
    logTail x.queue x.value x.clock
    modState fun s => s.ackPort x.toAck

/-- A write to SQTAIL that no port acknowledges. -/
def plainTail (q : BitVec 10) (v : Word) (clk : VClock) : HeldTail :=
  { queue := q, value := v, clock := clk, port := none, ack := false }

def execSqtailWrite (q : BitVec 10) (value : Word) (s : State) : Out := runEvent (tailWrite (plainTail q value VClock.zero)) s

/-- A write of an earlier packet of a ROD connection is still held: the writes of the next wait for it (R177). -/
def HostIf.rodWaits (h : HostIf) (port : BitVec 3) (conn : Conn) : Bool :=
  match conn with
  | .rod _ => h.heldTails.any fun x => x.port == some (port, conn)
  | _ => false

/-- The held writes are taken in order while the log has room. -/
def releaseTails : List HeldTail → M Unit
  | [] => pure ()
  | x :: rest => do
    let s ← getState
    if s.host.logFull then modState fun s => s.onHost fun h => { h with heldTails := x :: rest }
    else
      tailWrite x
      releaseTails rest

/-- COMMIT rises (MAX) and releases held writes. -/
def raiseCommit (v : Word) : M Unit := do
  let s ← getState
  if s.host.logCommit.toNat < v.toNat then
    let held := s.host.heldTails
    modState fun s => s.onHost fun h => { h with logCommit := v, heldTails := [] }.logIrq
    releaseTails held

def execLogcommitWrite (value : Word) (s : State) : Out := runEvent (raiseCommit value) s

/-! ## SQPULL (R180) -/

/-- A queue has a record to take. -/
def SubQ.ready (x : SubQ) : Bool := x.en && decide (x.head.toNat < x.tail.toNat)

/-- One pull, on panel 0, after the writes that raised TAIL (R170): the record is read, checked, and HEAD rises. -/
def pull (q : Nat) : M Unit := do
  let s ← getState
  let x := s.sq q
  if x.ready then
    modState fun s => s.onMem fun m => m.catchUp 0 x.clock
    let la := x.ring.toNat * 128 + 128 * (x.head.toNat % 2 ^ x.logc.toNat)
    let b ← unitRead 0 la 128
    let s ← getState
    let _ ← submit x.owner x.gath.toNat b la (w64 q) x.head (s.vc 0)
    modState fun s => s.setSq q { s.sq q with head := x.head + 1 }

def execSqpull (q : BitVec 10) (s : State) : Out := runEvent (pull q.toNat) s

/-! ## Watchdog and fallback (R186, R187) -/

def execFwbeat (s : State) : Out := .next (s.onHost fun h => { h with wdStart := s.cycle })

/-- The harts are reset and run from the monitor's entry (R184, R186). -/
def Boot.startHarts (b : Boot) : Boot := { b with harts := 0xF, hart := Vector.replicate 4 (Hart.reset b.monitor) }

/-- LIMIT µs without a beat: ACTIVE is set and the harts start again from the monitor entry. DESIGN CHOICE (log 155): the count starts
again too. -/
def execWatchdogExpiry (s : State) : Out :=
  if s.host.wdStart + 4000 * s.host.wdLimit.toNat ≤ s.cycle then
    let s := s.onHost fun h => { h with fbActive := true, wdStart := s.cycle }
    .next { s with boot := if s.boot.booted then s.boot.startHarts else s.boot }
  else .next s

/-- The next queue of the round robin that has a record. -/
def State.fallbackQueue (s : State) : Option Nat :=
  ((List.range 1024).map fun i => (s.host.fbNext + i) % 1024).find? fun q => (s.sq q).ready

/-- COMMIT past every leading entry that is served. -/
def servedFrom : Nat → Word → M Word
  | 0, c => pure c
  | fuel + 1, c => do
    let s ← getState
    if s.host.logNext.toNat ≤ c.toNat then pure c
    else
      let b ← unitRead 0 (s.host.logAddr c) 32
      let q := (field (wordOf (b.drop 24)) 0 10).toNat
      let v := wordOf (b.drop 8 |>.take 8)
      if v.toNat ≤ (s.sq q).head.toNat then servedFrom fuel (c + 1) else pure c

def execFallbackPull (s : State) : Out :=
  if !s.host.fbActive then .next s
  else
    match s.fallbackQueue with
    | none => .next s
    | some q =>
      runEvent (do
        pull q
        modState fun s => s.onHost fun h => { h with fbNext := (q + 1) % 1024 }
        let s ← getState
        raiseCommit (← servedFrom (s.host.logNext - s.host.logCommit).toNat s.host.logCommit)) s

def execFallbackStop (s : State) : Out := .next (s.onHost fun h => { h with fbActive := false })

end Sys2Proof.Machine
end

