-- ==== Sys2Proof/Machine/PowerOps.lean ====
section
/-! DEFINITION. Power states, the power and thermal limiter, and the panel monitors (spec 11 R197 to R201). -/

namespace Sys2Proof.Machine

/-! ## Clusters (R197) -/

/-- The cores of a cluster that hold anything. -/
def State.coresOf (s : State) (cl : Nat) : List CoreId :=
  (s.cores.filter fun e => e.1 / 128 == cl).map fun e => BitVec.ofNat 10 e.1

def State.setCluster (s : State) (cl : Nat) (st : BitVec 2) : State :=
  { s with power := { s.power with cluster := vset s.power.cluster cl st } }

/-- Free words that one core's contents take. -/
def coreWords : Nat := 2 ^ 18

/-- A memory of `n` words of free values, the first of them number `f`. -/
def freeMem (f n : Nat) : Memory := setBytes [] 0 ((tabulate n fun i => bytesOfW 8 (Config.freeWord (f + i))).flatten)

/-- An engine that has lost its state. -/
def Engine.powerOff (f : Nat) : Engine :=
  { Engine.reset with
    live := Vector.ofFn fun i => Config.freeWord (f + 2 * i.val) ++ Config.freeWord (f + 2 * i.val + 1)
    shadow := Vector.ofFn fun i => Config.freeWord (f + 32 + 2 * i.val) ++ Config.freeWord (f + 33 + 2 * i.val)
    lfsr := field (Config.freeWord (f + 64)) 0 32 }

/-- A core that has lost its state: its contents are free values (R197), the first of them number `f`, until a load
places others; of the fault control registers it keeps the away entries, SIGDROP and SCNTV, and its streams hold and run nothing.
What a load empties and nothing reads before it (stages, metadata queues, markers, windows) stands empty (log 107). -/
def Core.powerOff (k : Core) (cycle : Nat) (scnt : Int) (f : Nat) : Core :=
  let w (i : Nat) : Word := Config.freeWord (f + i)
  { Core.reset with
    away := k.away, sigDrop := k.sigDrop, scnt := scnt, scntAt := cycle, winClk := k.winClk, arbAt := k.arbAt,
    arbRank := k.arbRank, lsSched := field (w 170000) 32 32, lsEn := bit (w 170000) 31, lsGroup := field (w 170000) 0 12,
    lsStart := w 170001, preempt := bit (w 170002) 0,
    feed := if bit (w 170002) 1 then none else some
      { logc := (w 170003).toNat % 13, ring := (field (w 170004) 6 46).toNat * 64, head := w 170005,
        comp := (field (w 170006) 11 41).toNat * 2048, tail := (field (w 170007) 0 12).toNat, shared := bit (w 170007) 12,
        pair := (field (w 170008) 4 48).toNat * 16, lastSeq := w 170005, notices := [] },
    spad := freeMem f 98304, side := freeMem (f + 98304) 3072,
    acc := (tabulate 32768 fun i => (i, field (w (110000 + i)) 0 32)).filter fun e => e.2 != 0,
    passMem := Vector.ofFn fun i => w (150000 + i.val), handler := tabulate 256 fun i => (i, w (151000 + i)),
    a := Vector.ofFn fun i => if i.val = 0 || i.val = 31 then 0 else w (152000 + i.val),
    x := Vector.ofFn fun i => if i.val = 0 || i.val = 31 then 0 else w (153000 + i.val),
    p := Vector.ofFn fun i => bit (w (154000 + i.val)) 0,
    ax := [], xa := [], flags := Vector.ofFn fun i => Flag.ofWord (w (156000 + i.val)),
    flagNum := BitVec.ofNat 7 ((w 156100).toNat % 65), flagBase := field (w 156101) 0 6, passId := field (w 156102) 0 32,
    fmtSlot := Vector.ofFn fun i => field (w (156200 + i.val)) 0 32, round := field (w 156300) 0 3,
    srSeed := field (w 156301) 0 32, xLfsr := field (w 156302) 0 32,
    pmSel := Vector.ofFn fun i => field (w (156400 + i.val)) 0 16, pmCnt := Vector.ofFn fun i => field (w (156500 + i.val)) 0 48,
    bankFmt := Vector.ofFn fun i => field (w (157000 + i.val)) 0 32, owner := Vector.ofFn fun i => bit (w (158000 + i.val)) 0,
    rings := Vector.ofFn fun i =>
      let q := w (159000 + 2 * i.val)
      { Ring.reset with base := field q 0 13, size := field q 16 4, fetch := field q 32 32, pub := field q 32 32 },
    m := Engine.powerOff (f + 160000), v := Engine.powerOff (f + 161000), c := Engine.powerOff (f + 162000),
    accMode := Vector.ofFn fun i => bit (w 163000) i.val,
    bobbins := Vector.ofFn fun i =>
      let q := w (164001 + 2 * i.val)
      { config := w (164000 + 2 * i.val) &&& (bitsOf 20 15 ||| bitsOf 0 19), free := (field q 24 7).toNat, filled := (field q 16 7).toNat,
        rptr := (field q 8 6).toNat, wptr := (field q 0 6).toNat },
    stageCtr := field (w 165000) 0 32, header := Vector.ofFn fun i => w (166000 + i.val),
    excCause := w 155000, excWord := w 155001, excAddr := w 155002, excRet := (field (w 155003) 0 17).setWidth 64 }

/-- A Gatherer that has lost its state, while its cluster is off (R197): its registers are free values, and its tables and lists hold
nothing (log 107). -/
def Gatherer.powerOff (f : Nat) : Gatherer :=
  let w (i : Nat) : Word := Config.freeWord (f + i)
  { Gatherer.reset with
    en := bit (w 0) 0, gcyc := w 1, lat := field (w 0) 8 16, depth := field (w 0) 24 13, pcount := field (w 2) 0 29,
    shapes := tabulate 256 fun i => (i, { high := w (16 + 2 * i), tgt := BitVec.ofNat 3 ((w (17 + 2 * i)).toNat % 6) }) }

/-- STATE written 2, while the Gatherer is disabled and no core of the cluster holds an image; otherwise the write only wakes the
cluster. -/
def execP2Enter (cluster : BitVec 3) (s : State) : Out :=
  let n := cluster.toNat
  if (vget s.gath n).en || (s.coresOf n).any fun c => (s.core c).loaded then .next (s.wakeCluster n)
  else
    let off (s : State) (i : Nat) : State :=
      let c : CoreId := BitVec.ofNat 10 (128 * n + i)
      s.setCore c ((s.core c).powerOff s.cycle (s.scntNow (s.core c)) (s.free + i * coreWords))
    let s := (List.range 128).foldl off (s.setCluster n 2)
    let g := Gatherer.powerOff (s.free + 128 * coreWords)
    .next { s.onGath n fun _ => g with free := s.free + 129 * coreWords }

/-- STATE written 0: a cluster that was off runs again, and one that retains wakes. -/
def execP2Exit (cluster : BitVec 3) (s : State) : Out :=
  if vget s.power.cluster cluster.toNat = 0 then .next s else .next (s.setCluster cluster.toNat 0)

/-! ## Limits (R198 to R200) -/

/-- The limiter's step: the power measured, and the level, which a hot die holds at 7. -/
def execThrottleUpdate (watts : BitVec 16) (s : State) : Out :=
  let l := if s.power.hot ≠ 0 then 7 else Config.throttleLevel s.power.level watts s.power.limit
  .next { s with power := { s.power with watts := watts, level := l } }

/-- A die that was cool reaches 105 °C. -/
def execThermalLimit (s : State) : Out := .next { s with power := { s.power with hot := s.power.hot + 1, level := 7 } }

/-- Such a die falls below 95 °C; the level holds while another has not. -/
def execThermalRelease (s : State) : Out := .next { s with power := { s.power with hot := s.power.hot - 1 } }

/-- LIMIT holds at most 3,000. DESIGN CHOICE (log 157): a value below 500 is stored as written. -/
def execPlimitWrite (value : Word) (s : State) : Out :=
  let v := field value 0 16
  .next { s with power := { s.power with limit := if 3000 < v.toNat then 3000 else v } }

/-- A panel counter's select is written: its count is cleared (R201). -/
def execPmSelectWrite (p : BitVec 2) (j : BitVec 5) (value : Word) (s : State) : Out :=
  let key := 32 * p.toNat + j.toNat
  .next { s with power := { s.power with
    pmSel := mapPut s.power.pmSel key (field value 0 16), pmCnt := mapPut s.power.pmCnt key 0 } }

end Sys2Proof.Machine
end

