-- ==== Sys2Proof/Machine/Vector.lean ====
section
/-! DEFINITION. The vector engine (spec 17). -/

namespace Sys2Proof.Machine

/-! ## Checks -/

/-- The kinds and formats every V operand takes (R309): any valid format (R85, R86). -/
def vOperand (issue : Bool) (s : State) (c : CoreId) (at0 : Nat) (d : Dsc) : Word :=
  kindBad at0 d [1, 2, 3, 7] ||| opMask at0 (!s.fmtAll issue c d fun _ => true)

/-- All operands of a V word. -/
def vOperands (issue : Bool) (s : State) (c : CoreId) (ats : List Nat) (ds : List Dsc) : Word :=
  (ats.zip ds).foldl (fun m e => m ||| vOperand issue s c e.1 e.2) 0

/-- A V word: its operands, options and effect. -/
def vWord (h : Hdr) (ops : List EOp) (p : Pass) (check : Bool → State → CoreId → List Dsc → Word)
    (body : Issued → M Unit) : EWord :=
  { nopWord .v h with
    ops := ops, pass := p, op := true
    check := fun issue s c ds => vOperands issue s c (ops.map (·.at0)) ds ||| check issue s c ds
    later := wholeLater
    body := fun w => do
      body w
      pure { w with deferred := bobEnds .v ops w.dscs } }

/-- One row of d0 written for every unparked row, from its own values (R310, R318). -/
def vRows (w : Issued) (p : Pass) (rnd : BitVec 3) (sat : Bool) (rows : Nat) (own : Nat → Nat → M (List Val)) :
    M Unit := do
  let c := (← getState).cur
  let mode ← engMode c rnd
  let _ ← copyRows rows (fun i q => do
    let s ← getState
    let b := (s.core c).rowBlock p i
    oneRow c .v w p (parkedNow c p i) b (s.rowBytes c (w.dsc 0) (w.slot 0) i) (own i b)
      (writeVals c .v (w.dsc 0) (w.slot 0) i 0 0 mode sat) q) w.start

/-- The widened values of element row `j` of operand `n` (R100). -/
def vRead (w : Issued) (n j : Nat) : M (List Val) := do
  let c := (← getState).cur
  let vs ← readVals c (w.dsc n) (w.slot n) j 0 0
  pure (vs.map widen)

/-! ## Elementwise words (R313) -/

/-- The shape of a second or third source: as d0, or one row under BR or BC. -/
def sideShape (at0 : Nat) (one : Bool) (d e : Dsc) : Word :=
  opMask at0 ((if one then dRows e != 1 else dRows e != dRows d) || dCols e != dCols d)

/-- f of two values, rounded once. -/
abbrev VBin := Val → Val → Val

def vBinCheck (o : VBinOp) (_ : Bool) (s : State) (c : CoreId) (ds : List Dsc) : Word :=
  let d := ds.getD 0 0
  shapeBad 32 d (ds.getD 1 0) ||| sideShape 28 o.br d (ds.getD 2 0) ||| prowBad (s.core c) o.pass (dRows d)

def vBinWord (h : Hdr) (o : VBinOp) (f : VBin) : EWord :=
  vWord h [dst0 o.d0, src1 o.d1, src2 o.d2] o.pass (vBinCheck o) fun w => do
    let one ← if o.br then vRead w 2 0 else pure []
    vRows w o.pass o.rnd o.sat (dRows (w.dsc 0)) fun i _ => do
      let x ← vRead w 1 i
      let y ← if o.br then pure one else vRead w 2 i
      pure ((x.zip y).map fun e => f e.1 e.2)

/-- One rne32 of an exact result. -/
def once (v : Val) : Val := val32 (rne32 v)

def vaddWord (h : Hdr) (o : VBinOp) : EWord := vBinWord h o fun a b => once (a.add false b)
def execVadd (h : Hdr) (o : VBinOp) (s : State) : Out := runE (.vadd h o) (vaddWord h o) s
def vsubWord (h : Hdr) (o : VBinOp) : EWord := vBinWord h o fun a b => once (a.add false b.neg)
def execVsub (h : Hdr) (o : VBinOp) (s : State) : Out := runE (.vsub h o) (vsubWord h o) s
def vmulWord (h : Hdr) (o : VBinOp) : EWord := vBinWord h o fun a b => once (a.mul b)
def execVmul (h : Hdr) (o : VBinOp) (s : State) : Out := runE (.vmul h o) (vmulWord h o) s
def vmaxWord (h : Hdr) (o : VBinOp) : EWord := vBinWord h o fun a b => once (a.maxv b)
def execVmax (h : Hdr) (o : VBinOp) (s : State) : Out := runE (.vmax h o) (vmaxWord h o) s
def vminWord (h : Hdr) (o : VBinOp) : EWord := vBinWord h o fun a b => once (a.minv b)
def execVmin (h : Hdr) (o : VBinOp) (s : State) : Out := runE (.vmin h o) (vminWord h o) s

def vfmaWord (h : Hdr) (o : VFmaOp) : EWord :=
  vWord h [dst0 o.d0, src1 o.d1, src2 o.d2, src3 o.d3] o.pass
    (fun _ s c ds =>
      let d := ds.getD 0 0
      shapeBad 32 d (ds.getD 1 0) ||| sideShape 28 o.br d (ds.getD 2 0) ||| sideShape 24 o.bc d (ds.getD 3 0) |||
        prowBad (s.core c) o.pass (dRows d))
    fun w => do
      let one ← if o.br then vRead w 2 0 else pure []
      let two ← if o.bc then vRead w 3 0 else pure []
      vRows w o.pass o.rnd o.sat (dRows (w.dsc 0)) fun i _ => do
        let x ← vRead w 1 i
        let y ← if o.br then pure one else vRead w 2 i
        let z ← if o.bc then pure two else vRead w 3 i
        pure ((x.zip (y.zip z)).map fun e => once ((e.1.mul e.2.1).add false e.2.2))

def execVfma (h : Hdr) (o : VFmaOp) (s : State) : Out := runE (.vfma h o) (vfmaWord h o) s

/-- A word of one source of the same shape. -/
def vUnWord (h : Hdr) (o : D2Conv) (f : Val → Val) : EWord :=
  vWord h [dst0 o.d0, src1 o.d1] o.pass
    (fun _ s c ds => shapeBad 32 (ds.getD 0 0) (ds.getD 1 0) ||| prowBad (s.core c) o.pass (dRows (ds.getD 0 0)))
    fun w => vRows w o.pass o.rnd o.sat (dRows (w.dsc 0)) fun i _ => do
      let x ← vRead w 1 i
      pure (x.map f)

def vexpWord (h : Hdr) (o : D2Conv) : EWord := vUnWord h o fun a => val32 (exp32 a)
def execVexp (h : Hdr) (o : D2Conv) (s : State) : Out := runE (.vexp h o) (vexpWord h o) s
def vlogWord (h : Hdr) (o : D2Conv) : EWord := vUnWord h o fun a => val32 (log32 a)
def execVlog (h : Hdr) (o : D2Conv) (s : State) : Out := runE (.vlog h o) (vlogWord h o) s
def vrcpWord (h : Hdr) (o : D2Conv) : EWord := vUnWord h o fun a => val32 (div32 (.fin false 1 0) a .rne 0)
def execVrcp (h : Hdr) (o : D2Conv) (s : State) : Out := runE (.vrcp h o) (vrcpWord h o) s
def vrsqWord (h : Hdr) (o : D2Conv) : EWord := vUnWord h o fun a => val32 (rsq32 a)
def execVrsq (h : Hdr) (o : D2Conv) (s : State) : Out := runE (.vrsq h o) (vrsqWord h o) s
def vtanhWord (h : Hdr) (o : D2Conv) : EWord := vUnWord h o fun a => val32 (tanh32 a)
def execVtanh (h : Hdr) (o : D2Conv) (s : State) : Out := runE (.vtanh h o) (vtanhWord h o) s
def vgeluWord (h : Hdr) (o : D2Conv) : EWord := vUnWord h o fun a => val32 (gelu32 a)
def execVgelu (h : Hdr) (o : D2Conv) (s : State) : Out := runE (.vgelu h o) (vgeluWord h o) s
def vsiluWord (h : Hdr) (o : D2Conv) : EWord := vUnWord h o fun a => val32 (silu32 a)
def execVsilu (h : Hdr) (o : D2Conv) (s : State) : Out := runE (.vsilu h o) (vsiluWord h o) s
def vabsWord (h : Hdr) (o : D2Conv) : EWord := vUnWord h o Val.abs
def execVabs (h : Hdr) (o : D2Conv) (s : State) : Out := runE (.vabs h o) (vabsWord h o) s

/-! ## Conversion (R314) -/

/-- A list cut into rows of `n`. -/
def cutRows (n : Nat) : Nat → List Val → List (List Val)
  | 0, _ => []
  | r + 1, vs => vs.take n :: cutRows n r (vs.drop n)

def vConvWord (h : Hdr) (o : D2Conv) (srcOk dstOk : Fmt → Bool) : EWord :=
  vWord h [dst0 o.d0, src1 o.d1] o.pass
    (fun issue s c ds =>
      let d0 := ds.getD 0 0
      let d1 := ds.getD 1 0
      opMask 32 (dRows d0 * dCols d0 != dRows d1 * dCols d1) |||
        (if o.pass.isSome then shapeBad 32 d0 d1 else 0) ||| prowBad (s.core c) o.pass (dRows d0) |||
        opMask 36 (!s.fmtAll issue c d0 dstOk) ||| opMask 32 (!s.fmtAll issue c d1 srcOk))
    fun w => do
      if o.pass.isSome || dCols (w.dsc 0) = dCols (w.dsc 1) then
        vRows w o.pass o.rnd o.sat (dRows (w.dsc 0)) fun i _ => vRead w 1 i
      else
        let s ← getState
        let first := s.rowsBefore s.cur (w.dsc 0) (w.slot 0) w.resume * dCols (w.dsc 0) / dCols (w.dsc 1)
        let vs ← (List.range (dRows (w.dsc 1))).mapM fun j =>
          if j < first then pure (List.replicate (dCols (w.dsc 1)) .nan) else vRead w 1 j
        let rows := cutRows (dCols (w.dsc 0)) (dRows (w.dsc 0)) vs.flatten
        vRows w o.pass o.rnd o.sat (dRows (w.dsc 0)) fun i _ => pure (rows.getD i [])

def anyFmt (_ : Fmt) : Bool := true
def isMx (f : Fmt) : Bool := f.blk != 0
def notMx (f : Fmt) : Bool := f.blk == 0

def vcvtWord (h : Hdr) (o : D2Conv) : EWord := vConvWord h o anyFmt anyFmt
def execVcvt (h : Hdr) (o : D2Conv) (s : State) : Out := runE (.vcvt h o) (vcvtWord h o) s
def vqmxWord (h : Hdr) (o : D2Conv) : EWord := vConvWord h o notMx isMx
def execVqmx (h : Hdr) (o : D2Conv) (s : State) : Out := runE (.vqmx h o) (vqmxWord h o) s
def vdqmxWord (h : Hdr) (o : D2Conv) : EWord := vConvWord h o isMx notMx
def execVdqmx (h : Hdr) (o : D2Conv) (s : State) : Out := runE (.vdqmx h o) (vdqmxWord h o) s

/-! ## Reductions (R315) -/

def vReduceWord (h : Hdr) (o : D2Conv) (op : Val → Val → Val) (id : Val) : EWord :=
  vWord h [dst0 o.d0, src1 o.d1] o.pass
    (fun _ s c ds =>
      let d0 := ds.getD 0 0
      opMask 36 (dCols d0 != 1) ||| opMask 32 (dRows (ds.getD 1 0) != dRows d0) |||
        prowBad (s.core c) o.pass (dRows d0))
    fun w => vRows w o.pass o.rnd o.sat (dRows (w.dsc 0)) fun i _ => do
      let x ← vRead w 1 i
      pure [rowReduce op id x]

def vrsumWord (h : Hdr) (o : D2Conv) : EWord := vReduceWord h o sumOp (.fin true 0 0)
def execVrsum (h : Hdr) (o : D2Conv) (s : State) : Out := runE (.vrsum h o) (vrsumWord h o) s
def vrmaxWord (h : Hdr) (o : D2Conv) : EWord := vReduceWord h o maxOp (.inf true)
def execVrmax (h : Hdr) (o : D2Conv) (s : State) : Out := runE (.vrmax h o) (vrmaxWord h o) s

/-- The blocks that the rows of d1 touch: the first, and how many. -/
def Core.blocksOf (k : Core) (p : Pass) (rows : Nat) : Nat × Nat :=
  match p with
  | none => (0, 1)
  | some r =>
    let b0 := k.blockOf r.toNat
    (b0, k.blockOf (r.toNat + rows - 1) + 1 - b0)

/-- The column sums of a block's unparked rows, from -0 (R103). -/
def colSums (w : Issued) (p : Pass) (b : Nat) : M (List Val) := do
  let s ← getState
  let c := s.cur
  let d1 := w.dsc 1
  (List.range (dRows d1)).foldlM (fun acc i => do
    let k := (← getState).core c
    if (p.isSome && k.rowBlock p i != b) || k.rowParked p i then pure acc
    else
      let x ← vRead w 1 i
      pure ((acc.zip x).map fun e => sumOp e.1 e.2)) (List.replicate (dCols d1) (.fin true 0 0))

def vcsumWord (h : Hdr) (o : D2Conv) : EWord :=
  vWord h [dst0 o.d0, src1 o.d1] o.pass
    (fun _ s c ds =>
      let d0 := ds.getD 0 0
      let d1 := ds.getD 1 0
      opMask 36 (dRows d0 != ((s.core c).blocksOf o.pass (dRows d1)).2 || dCols d0 != dCols d1) |||
        prowBad (s.core c) o.pass (dRows d1))
    fun w => do
      let s ← getState
      let c := s.cur
      let mode ← engMode c o.rnd
      let (b0, n) := (s.core c).blocksOf o.pass (dRows (w.dsc 1))
      let _ ← copyRows n (fun j p => do
        let s ← getState
        oneRow c .v w o.pass (do pure (o.pass.isSome && ((← getState).core c).rbtParked (b0 + j))) (b0 + j)
          (s.rowBytes c (w.dsc 0) (w.slot 0) j) (colSums w o.pass (b0 + j))
          (writeVals c .v (w.dsc 0) (w.slot 0) j 0 0 mode o.sat) p) w.start
      pure ()

def execVcsum (h : Hdr) (o : D2Conv) (s : State) : Out := runE (.vcsum h o) (vcsumWord h o) s

/-! ## Layout (R316) -/

def vbcastWord (h : Hdr) (o : VBcastOp) : EWord :=
  vWord h [dst0 o.d0, src1 o.d1] o.pass
    (fun _ s c ds =>
      let d0 := ds.getD 0 0
      let d1 := ds.getD 1 0
      opMask 32 (if o.col then dRows d1 != dRows d0 || dCols d1 != 1 else dRows d1 != 1 || dCols d1 != dCols d0) |||
        prowBad (s.core c) o.pass (dRows d0))
    fun w => do
      let one ← if o.col then pure [] else vRead w 1 0
      vRows w o.pass o.rnd o.sat (dRows (w.dsc 0)) fun i _ => do
        if o.col then
          let x ← vRead w 1 i
          pure (List.replicate (dCols (w.dsc 0)) (x.headD .nan))
        else pure one

def execVbcast (h : Hdr) (o : VBcastOp) (s : State) : Out := runE (.vbcast h o) (vbcastWord h o) s

def vtrnWord (h : Hdr) (o : D2Conv) : EWord :=
  vWord h [dst0 o.d0, src1 o.d1] none
    (fun _ _ _ ds =>
      let d0 := ds.getD 0 0
      let d1 := ds.getD 1 0
      opMask 36 (dRows d0 != dCols d1 || dCols d0 != dRows d1))
    fun w => do
      let rows ← (List.range (dRows (w.dsc 1))).mapM fun j => vRead w 1 j
      vRows w none o.rnd o.sat (dRows (w.dsc 0)) fun n _ => pure (rows.map fun r => r.getD n .nan)

def execVtrn (h : Hdr) (o : D2Conv) (s : State) : Out := runE (.vtrn h o) (vtrnWord h o) s

/-! ## The epilogue (R317) -/

/-- relu: +0 for values that are not above zero; NaN stays. -/
def relu (a : Val) : Val := if a.isNan then .nan else if (Val.fin false 0 0).lt a then a else .fin false 0 0

/-- act. -/
def epiAct (fn : BitVec 4) (a : Val) : Val :=
  match fn.toNat with
  | 1 => relu a
  | 2 => val32 (gelu32 a)
  | 3 => val32 (silu32 a)
  | 4 => val32 (tanh32 a)
  | _ => a

def vepiOps (o : VEpiOp) : List EOp :=
  [dst0 o.d0, src1 o.d1] ++ (match o.bias with
    | some d => [src2 d]
    | none => [])

def vepiWord (h : Hdr) (o : VEpiOp) : EWord :=
  vWord h (vepiOps o) o.pass
    (fun _ s c ds =>
      let d0 := ds.getD 0 0
      let d1 := ds.getD 1 0
      let d2 := ds.getD 2 0
      kindBad 36 d0 [1, 2, 7] ||| kindBad 32 d1 [3] ||| shapeBad 32 d0 d1 |||
        opMask 28 (o.bias.isSome && (dRows d2 != 1 || dCols d2 != dCols d0)) ||| prowBad (s.core c) o.pass (dRows d0))
    fun w => do
      let bias ← if o.bias.isSome then vRead w 2 0 else pure []
      vRows w o.pass o.rnd o.sat (dRows (w.dsc 0)) fun i _ => do
        let x ← vRead w 1 i
        let a := if o.bias.isSome then (x.zip bias).map fun e => once (e.1.add false e.2) else x
        pure (a.map (epiAct o.fn))

def execVepi (h : Hdr) (o : VEpiOp) (s : State) : Out := runE (.vepi h o) (vepiWord h o) s

/-! ## Select by row tag (R319) -/

def vtagselWord (h : Hdr) (o : D2Conv) : EWord :=
  vWord h [dst0 o.d0, src1 o.d1] o.pass
    (fun _ s c ds =>
      let d0 := ds.getD 0 0
      let d1 := ds.getD 1 0
      opMask 32 (decide (dRows d1 < (s.core c).hdrBlocks + 1) || dCols d1 != dCols d0) |||
        prowBad (s.core c) o.pass (dRows d0))
    fun w => do
      let s ← getState
      let c := s.cur
      let k := s.core c
      let mode ← engMode c o.rnd
      let _ ← copyRows (dRows (w.dsc 0)) (fun i p => do
        let s ← getState
        let n := s.rowBytes c (w.dsc 0) (w.slot 0) i
        if skipRow n p then pure (p.step n)
        else if ← parkedNow c o.pass i then pure (p.pass n)
        else
          let b := k.rowBlock o.pass i
          let ys ← atPlace p (vRead w 1 b)
          oneRow c .v w o.pass (parkedNow c o.pass i) b n (pure ys)
            (writeVals c .v (w.dsc 0) (w.slot 0) i 0 0 mode o.sat) p) w.start
      pure ()

def execVtagsel (h : Hdr) (o : D2Conv) (s : State) : Out := runE (.vtagsel h o) (vtagselWord h o) s

def execVNop (h : Hdr) (s : State) : Out := runE (.vNop h) (nopWord .v h) s
def vDsetWord (h : Hdr) (o : DsetOp) : EWord := dsetWord .v h o
def execVDset (h : Hdr) (o : DsetOp) (s : State) : Out := runE (.vDset h o) (vDsetWord h o) s

end Sys2Proof.Machine
end

