-- ==== Sys2Proof/Machine/Resume.lean ====
section
/-! DEFINITION. Resuming a halted stream by FRES, and the completion of words in progress (spec 04 R59, 15 R272, R275, 23 R360, 24
R371 to R373, 25 R384). -/

namespace Sys2Proof.Machine

/-! ## The entry of an engine word -/

/-- What spec 16 to 18 give for an instruction of an engine. Every instruction the match does not name is no engine word. -/
def engineWord : Instr → Option EWord
  | .mNop h => some (nopWord .m h)
  | .mDset h o => some (dsetWord .m h o)
  | .wload h o => some (wloadWord h o)
  | .mma h o => some (mmaWord h o)
  | .gmma h o => some (gmmaWord h o)
  | .smma h o => some (smmaWord h o)
  | .mqbind h o => some (mqbindWord h o)
  | .aclr h o => some (aclrWord h o)
  | .ald h o => some (aldWord h o)
  | .ast h o => some (astWord h o)
  | .ascl h o => some (asclWord h o)
  | .vNop h => some (nopWord .v h)
  | .vDset h o => some (dsetWord .v h o)
  | .vadd h o => some (vaddWord h o)
  | .vsub h o => some (vsubWord h o)
  | .vmul h o => some (vmulWord h o)
  | .vmax h o => some (vmaxWord h o)
  | .vmin h o => some (vminWord h o)
  | .vfma h o => some (vfmaWord h o)
  | .vexp h o => some (vexpWord h o)
  | .vlog h o => some (vlogWord h o)
  | .vrcp h o => some (vrcpWord h o)
  | .vrsq h o => some (vrsqWord h o)
  | .vtanh h o => some (vtanhWord h o)
  | .vgelu h o => some (vgeluWord h o)
  | .vsilu h o => some (vsiluWord h o)
  | .vabs h o => some (vabsWord h o)
  | .vcvt h o => some (vcvtWord h o)
  | .vqmx h o => some (vqmxWord h o)
  | .vdqmx h o => some (vdqmxWord h o)
  | .vrsum h o => some (vrsumWord h o)
  | .vrmax h o => some (vrmaxWord h o)
  | .vcsum h o => some (vcsumWord h o)
  | .vbcast h o => some (vbcastWord h o)
  | .vtrn h o => some (vtrnWord h o)
  | .vepi h o => some (vepiWord h o)
  | .vtagsel h o => some (vtagselWord h o)
  | .cNop h => some (nopWord .c h)
  | .cDset h o => some (dsetWord .c h o)
  | .ccopy h o => some (ccopyWord h o)
  | .cgath h o => some (cgathWord h o)
  | .cscat h o => some (cscatWord h o)
  | .cfill h o => some (cfillWord h o)
  | .cmcast h o => some (cmcastWord h o)
  | .cwbind h o => some (cwbindWord h o)
  | .cwadv h o => some (cwadvWord h o)
  | .csched h d => some (cschedWord h d)
  | .cpfa h o => some (cpfaWord h o)
  | .cmeta h o => some (cmetaWord h o)
  | .clsend h o => some (clsendWord h o)
  | .clrecv h o => some (clrecvWord h o)
  | .clred h o => some (clredWord h o)
  | _ => none

/-- The entry of a word in progress. -/
def Issued.entryOf (w : Issued) (t : Strm) : Option EWord :=
  match decodeWord t w.word with
  | .word i _ => engineWord i
  | .illegal => none

/-! ## Parts of FRES -/

/-- The halt of a stream. -/
def Core.haltOf (k : Core) (t : Strm) : Option Halt :=
  match t with
  | .a => none
  | .x => k.xHalt
  | t => (k.engine t).halt

/-- The halt of a stream set. -/
def Core.setHalt (k : Core) (t : Strm) (h : Option Halt) : Core :=
  match t with
  | .a => k
  | .x => { k with xHalt := h }
  | t => k.setEngine t { k.engine t with halt := h }

def onHalt (c : CoreId) (t : Strm) (h : Option Halt) : M Unit :=
  modState fun s => s.onCore c fun k => k.setHalt t h

/-- An addition of a word; a refusal halts its stream at the addition with a record (R371). -/
def tryAddition (c : CoreId) (t : Strm) (v : BitVec 6) (n : BitVec 16) (w : Issued) : M Unit := do
  let s ← getState
  match (s.core c).addFlag v n.toNat with
  | .ok k => modState fun s => s.setCore c k
  | .error old => do
    appendFault (panelOf c) (engRec c t w 0 { cls := 0x07, laddr := 0, d0 := old, d1 := n.setWidth 64 })
    onHalt c t (some (.addition v n w))

/-- The signal of a word that SKIP completes, in either of its modes. -/
def skipSignal (c : CoreId) (t : Strm) (w : Issued) : M Unit := do
  let s ← getState
  let g := getSig w.word
  match sigFlag g, sigIssue g, (s.core c).completionSig g with
  | some v, some n, _ => tryAddition c t v (BitVec.ofNat 16 n) w
  | _, _, some (v, n) => tryAddition c t v (BitVec.ofNat 16 n) w
  | _, _, none => pure ()

/-- A word that has not issued leaves the head of its stream (R360). -/
def Core.passHead (k : Core) (t : Strm) : Core :=
  match t with
  | .a => k
  | .x => k.advanceX .next
  | t =>
    let g := k.engine t
    k.setEngine t { g with buf := g.buf.tail, issued := g.issued + 1 }

/-- The word at the head of an X or engine stream, as a word in progress. -/
def Core.headWordOf (k : Core) (t : Strm) (w : Word) : Issued :=
  match t with
  | .x => k.issuedX w (k.headWord .x)
  | t => k.unissued t w

/-- A released entry that SKIP passes over. -/
def Core.passEntry (k : Core) : Core := { k with sched := k.sched.map fun g => { g with next := g.next + 1, held := none } }

/-! ## Rows that a retry leaves open (R364) -/

/-- The place of element row `j` of an operand: a space, its first byte and its bytes. A KIND 5 or 6 row has none here. -/
def State.rowSpan (s : State) (c : CoreId) (d : Dsc) (slot j : Nat) : (Nat × Nat) × Nat × Nat :=
  match Fmt.parse (s.rowEnc c d slot j) with
  | none => ((0, 0), 0, 0)
  | some f =>
    if inAcc d then ((1, (opCore c d).toNat), accPlace d j * 128, 4 * dCols d)
    else if inSpad d then
      let q := placeOf (s.core c) d slot j
      ((0, (opCore c d).toNat), q.1 * 4096 + q.2 * 64, f.elem.rowBytes (dCols d))
    else if dKind d = 4 then ((2, 0), dAddr d + j * dStride d, f.memBytes (dCols d))
    else ((0, 0), 0, 0)

/-- Two places share a byte. -/
def spansMeet (x y : (Nat × Nat) × Nat × Nat) : Bool :=
  x.1 == y.1 && decide (x.2.1 < y.2.1 + y.2.2) && decide (y.2.1 < x.2.1 + x.2.2)

/-- A destination row takes a free value. -/
def freeRow (c : CoreId) (d : Dsc) (slot j : Nat) : M Unit := do
  let s ← getState
  match Fmt.parse (s.rowEnc c d slot j) with
  | none => pure ()
  | some f => do
    let bytes ← freeBytes (f.elem.rowBytes (dCols d))
    let scales ← freeBytes (f.scaleBytes (dCols d))
    if dKind d = 4 then
      let _ ← unitTry (memWrite (panelOf c) (s.core c).ctx (dAddr d + j * dStride d) (scales ++ bytes) 0 .part)
      pure ()
    else
      let _ ← writeRowTo c d slot j 0 0 f { bytes := bytes, scales := scales } perf0
      pure ()

/-- After a retry from an offset on, the destination rows that it has written and that overlap the word's own sources hold free
values (R364, R384); a parked row is skipped. -/
def freeOverlap (e : EWord) (c : CoreId) (w : Issued) (off : Nat) : M Unit := do
  let s ← getState
  let ops := (e.ops.zip (List.range e.ops.length)).map fun x => (x.1.src, w.dsc x.2, w.slot x.2)
  let rows (x : Bool × Dsc × Nat) : List ((Nat × Nat) × Nat × Nat) :=
    tabulate (dRows x.2.1) fun j => s.rowSpan c x.2.1 x.2.2 j
  let srcs := (ops.filter (·.1)).flatMap rows
  (ops.filter fun x => !x.1).forM fun x =>
    (List.range (dRows x.2.1)).forM fun j =>
      if decide (j < s.rowsBefore c x.2.1 x.2.2 off) then pure ()
      else if srcs.any (spansMeet (s.rowSpan c x.2.1 x.2.2 j)) && !(s.core c).rowParked e.pass j then freeRow c x.2.1 x.2.2 j
      else pure ()

/-- The effects of a word, a retried one's too. -/
def Issued.bodyOf (e : EWord) (c : CoreId) (w : Issued) : M Issued := do
  let w' ← e.body w
  match w.retry with
  | some off => if !w.shadows e.strm then freeOverlap e c w off
  | none => pure ()
  pure w'

/-- The effects of a word that halted at perform, again (R384): with its latched descriptors, and with no new wait. Where they
stall, the word is in progress with them to come. -/
def again (e : EWord) (c : CoreId) (w : Issued) : M Unit := fun s =>
  let cur := s.cur
  let w := { w with retry := some w.resume }
  let place (s : State) (w : Issued) : EStateM.Result Stop State Unit :=
    .ok () { s.onCore c fun k => k.addProg e.strm w with cur := cur }
  match runBody c e.strm (Issued.bodyOf e c) w none { s with cur := c } with
  | .ok w' s1 => place ((s1.undrain c e.strm).endLate c) w'
  | .error (.fault f) s1 => .ok () { ((s1.undrain c e.strm).performFault c e.strm w f).endLate c with cur := cur }
  | .error (.halt f) s1 => .error (.halt f) s1
  | .error (.drain d p) _ => place (s.addDrain c e.strm d p) w
  | .error _ _ => place s w

/-- Bobbin changes tried again (R372, R373): one that is refused halts the stream again, and the signal that is still to come is
tried with it, whose refusal is named first (R367); after the last, that signal. -/
def tryChanges (c : CoreId) (t : Strm) (d : List Deferred) (signal : Bool) (w : Issued) : M Unit := do
  match ← runDeferred (fun _ _ _ _ => pure ()) c d w with
  | (_, []) => do
    let s ← getState
    match signal, (s.core c).completionSig (getSig w.word) with
    | true, some (v, n) => tryAddition c t v (BitVec.ofNat 16 n) w
    | _, _ => pure ()
  | (_, (x, old) :: more) => do
    let stop (f : Flt) (signal : Bool) : M Unit := do
      appendFault (panelOf c) (engRec c t w 0 f)
      onHalt c t (some (.change (x :: more.map (·.1)) signal w))
    let s ← getState
    match (if signal then s.engTrySignal c w else Except.ok s) with
    | .ok s => do
      set s
      stop { cls := 0x09, laddr := 0, d0 := old, d1 := 0 } false
    | .error (f, n) => stop { cls := 0x07, laddr := 0, d0 := f, d1 := n } true

/-- RETRY (R360, R372, R384). A CSCHED that halted at its table goes on with its entries. -/
def retryHalt (c : CoreId) (t : Strm) : Halt → M Unit
  | .head => pure ()
  | .entry _ => pure ()
  | .performed w =>
    if w.todo then
      match w.entryOf t with
      | some e => again e c w
      | none => pure ()
    else modState fun s => s.onCore c fun k => k.addProg t w
  | .addition v n w => tryAddition c t v n w
  | .remote target h w =>
    modState fun s =>
      let s := s.onCore c fun k => k.addProg t w
      { s with remotes := s.remotes ++ [{ held := h, target := target, owner := w.ctx }] }
  | .change d signal w => tryChanges c t d signal w

/-- The bobbin changes left without the one refused. -/
def dropChange : List Deferred → List Deferred
  | .release b n :: ds => if n ≤ 1 then ds else .release b (n - 1) :: ds
  | .advance b n :: ds => if n ≤ 1 then ds else .advance b (n - 1) :: ds
  | ds => ds.tail

/-- SKIP (R360, R372). -/
def skipHalt (c : CoreId) (t : Strm) : Halt → M Unit
  | .head => do
    let k := (← getState).core c
    let w := k.headWordOf t ((k.headOf t).getD 0)
    modState fun s => s.onCore c fun k => k.passHead t
    skipSignal c t w
  | .entry x => do
    let k := (← getState).core c
    let w := k.issuedWord t (nopWord t (getHdr x)) x [] (k.sched.map (·.next)) []
    modState fun s => s.onCore c Core.passEntry
    skipSignal c t w
  | .performed w => do
    modState fun s => s.onCore c fun k => if w.opcode = 0x1A && t = .c then { k with sched := none } else k
    if (sigIssue (getSig w.word)).isNone then skipSignal c t w
  | .addition _ _ _ => pure ()
  | .remote _ _ w => modState fun s => s.onCore c fun k => k.addProg t { w with pending := w.pending - 1 }
  | .change d signal w => tryChanges c t (dropChange d) signal w

/-- A write to FRES: the HALT bit clears, the action is made, and the wire falls where nothing holds it. -/
def resume (c : CoreId) (t : Strm) (skip : Bool) : M Unit := do
  match ((← getState).core c).haltOf t with
  | none => pure ()
  | some h => do
    onHalt c t none
    if skip then skipHalt c t h else retryHalt c t h
    modState fun s => s.dropWire c

def execFresRetry (core : CoreId) (strm : Strm) (s : State) : Out := runEvent (resume core strm false) s
def execFresSkip (core : CoreId) (strm : Strm) (s : State) : Out := runEvent (resume core strm true) s

/-! ## Completion (R59, R272, R275) -/

/-- A result of the X word at place `i` of those in progress reaches its destination; an XA entry is the one it has reserved. -/
def Core.landX (k : Core) (i : Nat) (r : XDest × Word) : Core :=
  match r.1 with
  | .reg q => { k with x := k.x.set q.toNat r.2 q.isLt }
  | .pred q => { k with p := k.p.set q.toNat (r.2 != 0) q.isLt }
  | .xa =>
    let n := ((k.xProg.take i).map fun w => (w.res.filter fun e => e.1 == .xa).length).sum
    let open0 := (List.range k.xa.length).filter fun j => (k.xa.getD j (some 0)).isNone
    match open0[n]? with
    | some j => { k with xa := k.xa.set j (some r.2) }
    | none => k

/-- The k-th X word in progress completes, in whatever order (R272), but after the earlier words that write its destinations. -/
def completeX (core : CoreId) (i : Nat) (s : State) : Out :=
  let k := s.core core
  match k.xProg[i]? with
  | none => .next s
  | some w =>
    if (k.xProg.take i).any fun x => x.res.any fun r => r.1 != .xa && w.res.any fun e => e.1 == r.1 then .next s
    else
      let k1 := w.res.foldl (fun k r => k.landX i r) k
      .next (((s.setCore core { k1 with xProg := k1.xProg.eraseIdx i }).xSignal core w).getD s)

/-- The k-th TREPAR in progress of an A stream is performed and completes (R145, R264). A fault that comes up only now leaves the tree as
it is (log 68). -/
def completeA (core : CoreId) (i : Nat) (s : State) : Out :=
  match (s.core core).aMoves[i]? with
  | none => .next s
  | some x =>
    let drop (s : State) : State := s.onCore core fun k => { k with aMoves := k.aMoves.eraseIdx i }
    match reparent x.node x.parent s with
    | .ok _ t => .next ((drop (t.undrain core .a)).aComplete (getHdr x.word) x.word x.rword)
    | .error (.halt f) _ => .fault f
    | .error (.drain h p) _ => .next (s.addDrain core .a h p)
    | .error (.fault _) _ => .next ((drop (s.undrain core .a)).aComplete (getHdr x.word) x.word x.rword)
    | .error _ _ => .next s

/-- The k-th word in progress of a stream goes on with its effects, or completes where they are all performed. Of the A words only a
TREPAR completes in another step than the one that issues it. -/
def execWordCompletion (core : CoreId) (strm : Strm) (k : Nat) (s : State) : Out :=
  if vget s.power.cluster (clusterOf core) = 2 then .next s
  else
    let s := { s with cur := core }
    match strm with
    | .a => completeA core k s
    | .x => completeX core k s
    | t =>
      match ((s.core core).engine t).prog[k]? with
      | none => .next s
      | some w =>
        match (if w.todo then w.entryOf t else none) with
        | some e => goOn e (Issued.bodyOf e core) core k s
        | none => completeWord fillSlot core t k s

end Sys2Proof.Machine
end

