-- ==== Sys2Proof/Machine/RegMap.lean ====
section
/-! DEFINITION. The device registers of lining region 3: which register an address names, its value, its access codes and a
write to it (R8, R231 and the field maps of spec 03, 06, 07, 08, 10, 11, 14, 23, 25, 26). -/

namespace Sys2Proof.Machine

/-! ## Names -/

/-- A register of region 3, with the numbers that place it. -/
inductive RegId where
  | gctl (g : Nat) | gcyc (g : Nat) | glat (g : Nat) | gdepth (g : Nat) | gnext (g : Nat) | gheld (g : Nat)
  | bin (g b : Nat) | shapeLow (g n : Nat) | shapeHigh (g n : Nat) | pktop (g : Nat) | pkres (g : Nat)
  | tickOrigin (d : Nat) | tickPeriod (d : Nat)
  | troot (h : Nat) | tstat (h : Nat) | tskew (h : Nat) | tdisc (h : Nat) | tskstat (h : Nat) | drainstall (h : Nat)
  | eccstat (h : Nat) | refbal (h : Nat) | scrub (h : Nat) | scrubpos (h : Nat)
  | rctl (p : Nat) | ntbase (p : Nat) | ptbase (p : Nat) | ptcap (p : Nat) | nfree (p : Nat) | rpend (p : Nat)
  | rerr (p : Nat)
  | ccinv (p : Nat) | occ (p t : Nat)
  | wscmd | wsstat | wid (i w : Nat)
  | sqcfg (q : Nat) | sqctx (q : Nat) | sqtail (q : Nat) | sqhead (q : Nat) | sqpull (q : Nat)
  | logbase | lognext | logcommit | fwwdt | fwbeat | fbctl | swdst
  | plimit | pmeas | pidle | cluster (k : Nat) | pmsel (p j : Nat) | pmval (p j : Nat)
  | tail (k : Nat)
  | fqbase (t : Nat) | fqtail (t : Nat) | fqhead (t : Nat) | fqlost (t : Nat)
  | fstat (c : Nat) | fres (c : Nat) | preempt (c : Nat) | scntv (c : Nat) | sigdrop (c : Nat) | budgadd (c : Nat)
  | fpark (c : Nat) | away0 (c i : Nat) | away1 (c i : Nat) | lsgrp (c : Nat) | lsstart (c : Nat)
  | lstat (l : Nat) | lrej (l : Nat)
  | rsbase
  deriving DecidableEq, Repr, Inhabited

/-- A Gatherer's register (R37, R362). -/
def gathReg (g o : Nat) : Option RegId :=
  if o = 0 then some (.gctl g)
  else if o = 0x08 then some (.gcyc g)
  else if o = 0x10 then some (.glat g)
  else if o = 0x18 then some (.gdepth g)
  else if o = 0x20 then some (.gnext g)
  else if o = 0x28 then some (.gheld g)
  else if 0x100 ≤ o && decide (o < 0x300) then some (.bin g ((o - 0x100) / 8))
  else if 0x1000 ≤ o && decide (o < 0x2000) then
    some (if o % 16 = 0 then .shapeLow g ((o - 0x1000) / 16) else .shapeHigh g ((o - 0x1000) / 16))
  else if o = 0x3000 then some (.pktop g)
  else if o = 0x3008 then some (.pkres g)
  else none

/-- A controller's register (R115, R158, R382). -/
def ctlReg (h o : Nat) : Option RegId :=
  match o with
  | 0x00 => some (.troot h)
  | 0x08 => some (.tstat h)
  | 0x10 => some (.tskew h)
  | 0x18 => some (.tdisc h)
  | 0x20 => some (.tskstat h)
  | 0x28 => some (.drainstall h)
  | 0x30 => some (.eccstat h)
  | 0x100 => some (.refbal h)
  | 0x108 => some (.scrub h)
  | 0x110 => some (.scrubpos h)
  | _ => none

/-- A roll-up engine's register (R137, R393). -/
def rollReg (p o : Nat) : Option RegId :=
  match o with
  | 0x00 => some (.rctl p)
  | 0x08 => some (.ntbase p)
  | 0x10 => some (.ptbase p)
  | 0x18 => some (.ptcap p)
  | 0x20 => some (.nfree p)
  | 0x28 => some (.rpend p)
  | 0x30 => some (.rerr p)
  | _ => none

/-- A register of the submission queues and the log (R178, R182). -/
def hostReg (o : Nat) : Option RegId :=
  if o < 0x400000 then
    let q := o / 0x1000
    match o % 0x1000 with
    | 0x00 => some (.sqcfg q)
    | 0x08 => some (.sqctx q)
    | 0x10 => some (.sqtail q)
    | 0x18 => some (.sqhead q)
    | 0x20 => some (.sqpull q)
    | _ => none
  else
    match o - 0x400000 with
    | 0x00 => some .logbase
    | 0x08 => some .lognext
    | 0x10 => some .logcommit
    | 0x18 => some .fwwdt
    | 0x20 => some .fwbeat
    | 0x28 => some .fbctl
    | 0x30 => some .swdst
    | _ => none

/-- A power register or panel counter (R199, R201). -/
def powerReg (o : Nat) : Option RegId :=
  if o = 0 then some .plimit
  else if o = 0x08 then some .pmeas
  else if o = 0x10 then some .pidle
  else if 0x100 ≤ o && decide (o < 0x140) then some (.cluster ((o - 0x100) / 8))
  else if 0x10000 ≤ o && decide (o < 0x14000) && decide (o % 0x1000 < 0x200) then
    let p := (o - 0x10000) / 0x1000
    let j := o % 0x1000 / 16
    some (if o % 16 = 0 then .pmsel p j else .pmval p j)
  else none

/-- A register of a core's fault control block (R81, R360, R396 to R404). -/
def coreReg (c o : Nat) : Option RegId :=
  if 0x40 ≤ o && decide (o < 0xC0) then
    some (if o % 16 = 0 then .away0 c ((o - 0x40) / 16) else .away1 c ((o - 0x40) / 16))
  else
    match o with
    | 0x00 => some (.fstat c)
    | 0x08 => some (.fres c)
    | 0x10 => some (.preempt c)
    | 0x18 => some (.scntv c)
    | 0x20 => some (.sigdrop c)
    | 0x28 => some (.budgadd c)
    | 0x30 => some (.fpark c)
    | 0xC0 => some (.lsgrp c)
    | 0xC8 => some (.lsstart c)
    | _ => none

/-- A fault queue's register (R356). -/
def faultReg (t o : Nat) : Option RegId :=
  match o with
  | 0x00 => some (.fqbase t)
  | 0x08 => some (.fqtail t)
  | 0x10 => some (.fqhead t)
  | _ => some (.fqlost t)

/-- A register of the weight store (R159). -/
def weightReg (o : Nat) : Option RegId :=
  if o = 0 then some .wscmd
  else if o = 0x08 then some .wsstat
  else if 0x1000 ≤ o && decide (o < 0x41000) && decide (o % 64 < 48) then
    some (.wid ((o - 0x1000) / 64) (o % 64 / 8))
  else none

/-- The register at an 8-byte aligned lining address of region 3; none at an unassigned offset (R6). -/
def regAt (la : Nat) : Option RegId :=
  let off := la % 2 ^ 52
  let o := off % 2 ^ 32
  match off / 2 ^ 32 with
  | 1 =>
    if o < 0x80000 then gathReg (o / 0x10000) (o % 0x10000)
    else if o < 0x80080 then
      some (if o % 16 = 0 then .tickOrigin ((o - 0x80000) / 16) else .tickPeriod ((o - 0x80000) / 16))
    else none
  | 2 => if o < 0x80000 then ctlReg (o / 0x10000) (o % 0x10000) else none
  | 3 => if o < 0x40000 then rollReg (o / 0x10000) (o % 0x10000) else none
  | 4 =>
    if 0x40000 ≤ o then none
    else if o % 0x10000 = 0 then some (.ccinv (o / 0x10000))
    else if 0x8000 ≤ o % 0x10000 then some (.occ (o / 0x10000) ((o % 0x10000 - 0x8000) / 8))
    else none
  | 5 => weightReg o
  | 6 => hostReg o
  | 7 => powerReg o
  | 9 => if o < 0x8000 then some (.tail (o / 8)) else none
  | 10 => if o < 0x20000 then faultReg (o / 32) (o % 32) else none
  | 11 => if o < 0x40000 then coreReg (o / 0x100) (o % 0x100) else none
  | 12 =>
    if 0x1000 ≤ o then none
    else if o % 0x100 = 0 then some (.lstat (o / 0x100))
    else if o % 0x100 = 8 then some (.lrej (o / 0x100))
    else none
  | 13 => if o = 0 then some .rsbase else none
  | _ => none

/-! ## Access codes (R8) -/

/-- The bits that a write can reach: every field that is neither RO nor reserved. -/
def regWritable : RegId → Word
  | .gctl _ | .rctl _ | .ccinv _ | .sqpull _ | .fbctl | .preempt _ | .fpark _ => bitsOf 0 1
  | .glat _ | .plimit | .pidle | .pmsel _ _ => bitsOf 0 16
  | .gdepth _ => bitsOf 0 13
  | .shapeLow _ _ => bitsOf 0 3
  | .shapeHigh _ _ | .tickOrigin _ | .tickPeriod _ | .sqtail _ | .logcommit | .fwbeat | .tail _ | .fqhead _ | .scntv _
  | .lsstart _ => allOnes
  | .pkres _ => bitsOf 62 2 ||| bitsOf 0 32
  | .troot _ => bitsOf 12 33 ||| bitsOf 0 1
  | .scrub _ => bitsOf 16 32 ||| bitsOf 0 1
  | .ntbase _ => bitsOf 29 27
  | .ptbase _ => bitsOf 16 40
  | .ptcap _ => bitsOf 0 5
  | .nfree _ => bitsOf 0 48
  | .rerr _ => bitsOf 63 1
  | .occ _ _ => bitsOf 32 24
  | .wscmd => bitsOf 62 2 ||| bitsOf 0 12
  | .wid _ w => if w = 1 then bitsOf 16 40 else if w = 4 then 0 else if w = 5 then bitsOf 0 12 else allOnes
  | .sqcfg _ => bitsOf 7 57
  | .sqctx _ => bitsOf 0 12
  | .logbase => bitsOf 21 35
  | .fwwdt | .fqlost _ | .budgadd _ => bitsOf 0 32
  | .swdst => bitsOf 8 48 ||| bitsOf 0 3
  | .cluster _ => bitsOf 0 2
  | .fqbase _ => bitsOf 6 50 ||| bitsOf 0 4
  | .fres _ => bitsOf 12 3 ||| bitsOf 0 2
  | .away0 _ _ => bitsOf 62 2 ||| bitsOf 32 7 ||| bitsOf 16 10 ||| bitsOf 0 12
  | .away1 _ _ => bitsOf 12 44
  | .lsgrp _ => bitsOf 31 33 ||| bitsOf 0 12
  | .lstat _ => bitsOf 1 1
  | .rsbase => bitsOf 20 36
  | .gcyc _ | .gnext _ | .gheld _ | .bin _ _ | .pktop _ | .tstat _ | .tskew _ | .tdisc _ | .tskstat _ | .drainstall _
  | .eccstat _ | .refbal _ | .scrubpos _ | .rpend _ | .wsstat | .sqhead _ | .lognext | .pmeas | .pmval _ _ | .fqtail _
  | .fstat _ | .sigdrop _ | .lrej _ => 0

/-- The bits of Access PRIV. -/
def regPriv : RegId → Word
  | .troot h => regWritable (.troot h)
  | .scrub h => regWritable (.scrub h)
  | .rctl p => regWritable (.rctl p)
  | .ntbase p => regWritable (.ntbase p)
  | .ptbase p => regWritable (.ptbase p)
  | .ptcap p => regWritable (.ptcap p)
  | .nfree p => regWritable (.nfree p)
  | .rerr p => regWritable (.rerr p)
  | .occ p t => regWritable (.occ p t)
  | .wid i w => regWritable (.wid i w)
  | .sqcfg q => regWritable (.sqcfg q)
  | .sqctx q => regWritable (.sqctx q)
  | .logbase => regWritable .logbase
  | .logcommit => allOnes
  | .fwwdt => regWritable .fwwdt
  | .fbctl => regWritable .fbctl
  | .swdst => regWritable .swdst
  | .plimit => regWritable .plimit
  | .pidle => regWritable .pidle
  | .cluster k => regWritable (.cluster k)
  | .fqbase t => regWritable (.fqbase t)
  | .fqhead _ => allOnes
  | .fqlost t => regWritable (.fqlost t)
  | .preempt c => regWritable (.preempt c)
  | .scntv _ => allOnes
  | .away0 c i => regWritable (.away0 c i)
  | .away1 c i => regWritable (.away1 c i)
  | .lsgrp c => regWritable (.lsgrp c)
  | .lsstart _ => allOnes
  | .lstat l => regWritable (.lstat l)
  | .rsbase => regWritable .rsbase
  | _ => 0

/-- Only owner tag 0 writes SQPULL (R180), and no tag but 0 writes a field of Access PRIV. -/
def regTagZero (r : RegId) : Bool :=
  match r with
  | .sqpull _ => true
  | r => regPriv r != 0

/-! ## Values -/

/-- A word of a WID table entry. -/
def Wid.regWord (w : Wid) (i : Nat) : Word :=
  match i with
  | 0 => w.wid
  | 1 => w.base.setWidth 64 <<< 16
  | 2 => w.tiles ++ w.tbytes
  | 3 => w.node
  | 4 => w.regCount
  | _ => ofBool 1 w.locked ++ 0#51 ++ w.owner

/-- Bits [55:lo] of a lining address. -/
def baseWord {n : Nat} (b : BitVec n) (lo : Nat) : Word := b.setWidth 64 <<< lo

/-- A bin's register. -/
def binWord (b : Option Bin) : Word :=
  match b with
  | none => 0
  | some b => ofBool 1 true ++ 0#23 ++ b.shape ++ BitVec.ofNat 8 b.members.length ++ BitVec.ofNat 9 b.rows ++ 0#15

/-- PKTOP. -/
def parkedWord (x : Option Parked) : Word :=
  match x with
  | none => 0
  | some x => ofBool 1 true ++ 0#3 ++ ofBool 1 x.doneOnly ++ x.reason ++ x.owner ++ 0#12 ++ BitVec.ofNat 32 x.task

/-- Word 0 of an away entry. -/
def Away.word0 (a : Away) : Word := a.mode ++ 0#23 ++ a.num ++ 0#6 ++ a.core ++ 0#4 ++ a.owner

/-- FSTAT. -/
def Core.fstat (k : Core) : Word :=
  ofBool 64 k.stall <<< 7 ||| ofBool 64 (k.haltedAt .x) <<< 1 ||| ofBool 64 (k.haltedAt .m) <<< 2 |||
    ofBool 64 (k.haltedAt .v) <<< 3 ||| ofBool 64 (k.haltedAt .c) <<< 4

/-- The value of a register as it stands. A WO field reads zero. DESIGN CHOICE (log 152): SHAPE_s reads as before between its write and
the evaluation step at which it takes effect. DESIGN CHOICE (log 153): TSTAT.ENTRIES counts an entry that is dead by R120 until it has
been removed. -/
def State.regValue (s : State) (r : RegId) : Word :=
  match r with
  | .gctl g => ofBool 64 (vget s.gath g).en
  | .gcyc g => (vget s.gath g).gcyc
  | .glat g => (vget s.gath g).lat.setWidth 64
  | .gdepth g => (vget s.gath g).depth.setWidth 64
  | .gnext g => (vget s.gath g).pcount.setWidth 64
  | .gheld g => w64 (vget s.gath g).free
  | .bin g b => binWord (mapGet (vget s.gath g).bins b)
  | .shapeLow g n => ((vget s.gath g).shape (BitVec.ofNat 8 n)).tgt.setWidth 64
  | .shapeHigh g n => ((vget s.gath g).shape (BitVec.ofNat 8 n)).high
  | .pktop g => parkedWord (vget s.gath g).parked.head?
  | .tickOrigin d => vget s.tickOrigin d
  | .tickPeriod d => vget s.tickPeriod d
  | .troot h => baseWord (vget s.mem.ctls h).root 12 ||| ofBool 64 (vget s.mem.ctls h).en
  | .tstat h => w64 (vget s.mem.ctls h).tc.length
  | .tskew h => (vget s.mem.ctls h).skew.setWidth 64
  | .tdisc h => (vget s.mem.ctls h).disc.setWidth 64
  | .tskstat h => ofBool 64 (vget s.mem.ctls h).uncached <<< 8 ||| (vget s.mem.ctls h).good.setWidth 64
  | .drainstall h => w64 ((vget s.mem.ctls h).drained.length % 65536)
  | .eccstat h => (vget s.mem.ctls h).uncorr ++ (vget s.mem.ctls h).corr
  | .refbal h => (BitVec.ofInt 5 (s.balNow (vget s.mem.ctls h))).setWidth 64
  | .scrub h => baseWord (vget s.mem.ctls h).srate 16 ||| ofBool 64 (vget s.mem.ctls h).scrubEn
  | .scrubpos h => (vget s.mem.ctls h).scrubPos.setWidth 64
  | .rctl p => ofBool 64 (s.rollup p).en
  | .ntbase p => baseWord (s.rollup p).ntBase 29
  | .ptbase p => baseWord (s.rollup p).ptBase 16
  | .ptcap p => (s.rollup p).ptLog.setWidth 64
  | .nfree p => baseWord (s.rollup p).freeNum 24 ||| (s.rollup p).freeHead.setWidth 64
  | .rpend p => w64 (s.tree.deltas.filter fun d => d.engine == p).length
  | .rerr p => ofBool 64 (s.rollup p).err <<< 63 ||| (s.rollup p).errNode.setWidth 64
  | .occ p t =>
    baseWord ((mapGet s.mem.limits (p * 4096 + t)).getD 0xFFFFFF) 32 ||| w64 (s.occOf p t % 2 ^ 24)
  | .wsstat => w64 (2 * s.ws.err.toNat) ||| ofBool 64 s.ws.busy
  | .wid i w => (s.wid i).regWord w
  | .sqcfg q => ofBool 1 (s.sq q).en ++ (s.sq q).gath ++ (s.sq q).logc ++ (s.sq q).ring ++ 0#7
  | .sqctx q => (s.sq q).owner.setWidth 64
  | .sqtail q => (s.sq q).tail
  | .sqhead q => (s.sq q).head
  | .logbase => baseWord s.host.logBase 21
  | .lognext => s.host.logNext
  | .logcommit => s.host.logCommit
  | .fwwdt => s.host.wdLimit.setWidth 64
  | .fbctl => ofBool 64 s.host.fbActive
  | .swdst => baseWord s.host.swDesc 8 ||| s.host.swPort.setWidth 64
  | .plimit => s.power.limit.setWidth 64
  | .pmeas => baseWord s.power.level 16 ||| s.power.watts.setWidth 64
  | .pidle => s.power.idle.setWidth 64
  | .cluster k => (vget s.power.cluster k).setWidth 64
  | .pmsel p j => ((mapGet s.power.pmSel (32 * p + j)).getD 0).setWidth 64
  | .pmval p j => ((mapGet s.power.pmCnt (32 * p + j)).getD 0).setWidth 64
  | .tail k => (mapGet s.tails k).getD 0
  | .fqbase t => baseWord (s.fq t).base 6 ||| (s.fq t).logc.setWidth 64
  | .fqtail t => (s.fq t).tail
  | .fqhead t => (s.fq t).head
  | .fqlost t => (s.fq t).lost.setWidth 64
  | .fstat c => (s.core (BitVec.ofNat 10 c)).fstat
  | .preempt c => ofBool 64 (s.core (BitVec.ofNat 10 c)).preempt
  | .scntv c => BitVec.ofInt 64 (s.scntNow (s.core (BitVec.ofNat 10 c)))
  | .sigdrop c => (s.core (BitVec.ofNat 10 c)).sigDrop.setWidth 64
  | .away0 c i => (vget (s.core (BitVec.ofNat 10 c)).away i).word0
  | .away1 c i => baseWord (vget (s.core (BitVec.ofNat 10 c)).away i).image 12
  | .lsgrp c =>
    let k := s.core (BitVec.ofNat 10 c)
    k.lsSched ++ ofBool 1 k.lsEn ++ 0#19 ++ k.lsGroup
  | .lsstart c => (s.core (BitVec.ofNat 10 c)).lsStart
  | .lstat l => ofBool 64 (s.link l).discard <<< 1 ||| ofBool 64 (s.link l).down
  | .lrej l => (s.link l).rej.setWidth 64
  | .rsbase => s.rsBase
  | .pkres _ | .ccinv _ | .wscmd | .sqpull _ | .fwbeat | .fres _ | .budgadd _ | .fpark _ => 0

/-- Reading region 3 under a tag: outside privileged state a field of Access PRIV gives free bits. -/
def regRead (tag : Tag) (la : Nat) : M Word := do
  match regAt la with
  | none => pure 0
  | some r => do
    let s ← getState
    let v := s.regValue r
    if tag != 0 && regPriv r != 0 then
      let w ← freeWord
      pure ((v &&& ~~~regPriv r) ||| (w &&& regPriv r))
    else pure v

/-! ## Writes -/

/-- An event made by a write. -/
def viaOut (f : State → Out) : M Unit := fun s =>
  match f s with
  | .next t => .ok () t
  | .fault h => .error (.halt h) s
  | .refused _ => .ok () s

def onG (g : Nat) (f : Gatherer → Gatherer) : M Unit := modState fun s => s.onGath g f
def onC (h : Nat) (f : Ctl → Ctl) : M Unit := modState fun s => s.onCtl h f
def onR (p : Nat) (f : RollUp → RollUp) : M Unit := modState fun s => s.onRollup p f
def onH (f : HostIf → HostIf) : M Unit := modState fun s => s.onHost f
def onP (f : Power → Power) : M Unit := modState fun s => { s with power := f s.power }
def onQ (t : Nat) (f : FaultQ → FaultQ) : M Unit := modState fun s => s.setFq t (f (s.fq t))
def onK (c : Nat) (f : Core → Core) : M Unit := modState fun s => s.onCore (BitVec.ofNat 10 c) f

/-- The PRIV words of a WID table entry; a locked entry keeps them (R160). -/
def Wid.putWord (w : Wid) (i : Nat) (v : Word) : Wid :=
  if w.locked then w
  else
    match i with
    | 0 => { w with wid := v }
    | 1 => { w with base := field v 16 40 }
    | 2 => { w with tiles := field v 32 32, tbytes := field v 0 32 }
    | 3 => { w with node := v }
    | 5 => { w with owner := field v 0 12 }
    | _ => w

/-- The stream that FRES names. -/
def fresStream (v : Word) : Option Strm :=
  match (field v 12 3).toNat with
  | 1 => some .x
  | 2 => some .m
  | 3 => some .v
  | 4 => some .c
  | _ => none

/-- A write to FRES: a reserved ACTION, a stream that has no HALT bit, and one whose bit is 0 change nothing. -/
def fresWrite (c : Nat) (v : Word) : M Unit := do
  match fresStream v, (field v 0 2).toNat with
  | some t, 1 => resume (BitVec.ofNat 10 c) t false
  | some t, 2 => resume (BitVec.ofNat 10 c) t true
  | _, _ => pure ()

/-- What follows a write to a register is causally after it at a panel (R360, R363). -/
def after (p q : Nat) : M Unit := do
  let s ← getState
  modMem fun m => m.catchUp q (s.vc p)

/-- A whole word written to a register whose access codes allow it; `p` is the issuing panel. DESIGN CHOICE (log 140): where a
write sets reserved bits of a WO register (FRES, PKRES, WSCMD, SQPULL, BUDGADD, FPARK, CCINV), for which R6 names no outcome,
those bits are ignored and the rest of the write acts. DESIGN CHOICE (log 154): EN and NTBASE are kept for each roll-up engine by
itself, and the tree's words look at engine 0's. -/
def regPut (p : Nat) (r : RegId) (v : Word) : M Unit := do
  match r with
  | .gctl g => onG g fun q => { q with en := bit v 0 }
  | .glat g => onG g fun q => { q with lat := field v 0 16 }
  | .gdepth g => viaOut (execGdepthWrite (BitVec.ofNat 3 g) v)
  | .shapeLow g n => viaOut (execShapeClassWrite (BitVec.ofNat 3 g) (BitVec.ofNat 8 n) false v)
  | .shapeHigh g n => viaOut (execShapeClassWrite (BitVec.ofNat 3 g) (BitVec.ofNat 8 n) true v)
  | .pkres g =>
    after p (gathPanel g)
    after p 0
    match (field v 62 2).toNat with
    | 1 => releaseParked (BitVec.ofNat 3 g) (field v 0 32)
    | 2 => viaOut (execPkresAbandon (BitVec.ofNat 3 g) (field v 0 32))
    | _ => pure ()
  | .tickOrigin d => modState fun s => { s with tickOrigin := vset s.tickOrigin d v }
  | .tickPeriod d => modState fun s => { s with tickPeriod := vset s.tickPeriod d v }
  | .troot h => onC h fun q => { q with root := field v 12 33, en := bit v 0 }
  | .scrub h => onC h fun q => { q with srate := field v 16 32, scrubEn := bit v 0 }
  | .rctl p => onR p fun e => { e with en := bit v 0 }
  | .ntbase p => onR p fun e => { e with ntBase := field v 29 27 }
  | .ptbase p => onR p fun e => { e with ptBase := field v 16 40 }
  | .ptcap p => viaOut (execPtcapWrite (BitVec.ofNat 2 p) v)
  | .nfree p => onR p fun e => { e with freeNum := field v 24 24, freeHead := field v 0 24 }
  | .rerr p => viaOut (execRerrClear (BitVec.ofNat 2 p) v)
  | .ccinv p => if bit v 0 then viaOut (execCcinv (BitVec.ofNat 2 p))
  | .occ p t => modMem fun m => { m with limits := mapPut m.limits (p * 4096 + t) (field v 32 24) }
  | .wscmd => wscmd v
  | .wid i w => modState fun s => s.setWid i ((s.wid i).putWord w v)
  | .sqcfg q => viaOut (execSqEnable (BitVec.ofNat 10 q) v)
  | .sqctx q => modState fun s => s.setSq q { s.sq q with owner := field v 0 12 }
  | .sqtail q => tailWrite (plainTail (BitVec.ofNat 10 q) v ((← getState).vc p))
  | .sqpull q => if bit v 0 then pull q
  | .logbase => onH fun h => { h with logBase := field v 21 35 }
  | .logcommit => raiseCommit v
  | .fwwdt => onH fun h => { h with wdLimit := field v 0 32 }
  | .fwbeat => viaOut execFwbeat
  | .fbctl => onH fun h => { h with fbActive := bit v 0 }
  | .swdst => onH fun h => { h with swDesc := field v 8 48, swPort := field v 0 3 }
  | .plimit => viaOut (execPlimitWrite v)
  | .pidle => onP fun w => { w with idle := field v 0 16 }
  | .cluster k =>
    match (field v 0 2).toNat with
    | 0 => viaOut (execP2Exit (BitVec.ofNat 3 k))
    | 2 => viaOut (execP2Enter (BitVec.ofNat 3 k))
    | _ => modState fun s => s.wakeCluster k
  | .pmsel p j => viaOut (execPmSelectWrite (BitVec.ofNat 2 p) (BitVec.ofNat 5 j) v)
  | .tail k => modState fun s => (s.raiseTail k v (s.vc p)).wakeTail k
  | .fqbase t => onQ t fun q => { q with base := field v 6 50, logc := field v 0 4 }
  | .fqhead t => onQ t fun q => { q with head := if q.head.toNat < v.toNat then v else q.head }
  | .fqlost t => onQ t fun q => { q with lost := field v 0 32 }
  | .fres c =>
    after p (panelOf (BitVec.ofNat 10 c))
    fresWrite c v
  | .preempt c => onK c fun k => { k with preempt := bit v 0 }
  | .scntv c => modState fun s => s.onCore (BitVec.ofNat 10 c) fun k => { k with scnt := v.toInt, scntAt := s.cycle }
  | .budgadd c => viaOut (execBudgadd (BitVec.ofNat 10 c) (field v 0 32))
  | .fpark c => if bit v 0 then viaOut (execFpark (BitVec.ofNat 10 c))
  | .away0 c i => do
    let s ← getState
    viaOut (execAwayEntryWrite (BitVec.ofNat 10 c) (BitVec.ofNat 3 i) v (s.regValue (.away1 c i)))
  | .away1 c i => do
    let s ← getState
    viaOut (execAwayEntryWrite (BitVec.ofNat 10 c) (BitVec.ofNat 3 i) (s.regValue (.away0 c i)) v)
  | .lsgrp c =>
    onK c fun k => { k with lsSched := field v 32 32, lsEn := bit v 31, lsGroup := field v 0 12 }
    modState fun s => s.syncWire (BitVec.ofNat 10 c)
  | .lsstart c => onK c fun k => { k with lsStart := v }
  | .lstat l =>
    if bit v 1 then viaOut (execLinkDiscard (BitVec.ofNat 4 l))
    else modState fun s => s.onLink l fun q => { q with discard := false }
  | .rsbase => modState fun s => { s with rsBase := v &&& bitsOf 20 36 }
  | .gcyc _ | .gnext _ | .gheld _ | .bin _ _ | .pktop _ | .tstat _ | .tskew _ | .tdisc _ | .tskstat _ | .drainstall _
  | .eccstat _ | .refbal _ | .scrubpos _ | .rpend _ | .wsstat | .sqhead _ | .lognext | .pmeas | .pmval _ _ | .fqtail _
  | .fstat _ | .sigdrop _ | .lrej _ => pure ()

/-- Writing region 3 under a tag: a write outside privileged state to a field of Access PRIV is ignored, as is one to an
unassigned offset. -/
def regWrite (p : Nat) (tag : Tag) (la : Nat) (v : Word) : M Unit := do
  match regAt la with
  | none => pure ()
  | some r =>
    if tag != 0 && regTagZero r then pure ()
    else
      regPut p r v
      if let .sqtail _ := r then pure () else modState fun s => { s with regClks := mapPut s.regClks la (vcMax ((mapGet s.regClks la).getD VClock.zero) (s.vc p)) }

/-- A write of one word of region 3 by firmware, outside any stream (R184). -/
def execRegisterWrite (addr : BitVec 56) (value : Word) (s : State) : Out :=
  if regionOf addr.toNat = 3 && addr.toNat % 8 = 0 then runEvent (regWrite 0 0 addr.toNat value) s else .next s

end Sys2Proof.Machine
end

