-- ==== Sys2Proof/Machine/AccessMem.lean ====
section
/-! DEFINITION. The access unit's loads, stores, constant path and prefetch, and the on-chip map (spec 04 R82, 08 R162,
13 R227 to R234, 24 R374, R375). -/

namespace Sys2Proof.Machine

/-- The check of R375: class 0x06 for an owner bit, else class 0x04. A virtual flag at or above NUM has no word there. -/
def winCheck (k : Core) (by0 : WinBy) (la : Nat) (write : Bool) (mask : Word) : Option (BitVec 8 × Word) :=
  let owned (b : Nat) : Option (BitVec 8 × Word) :=
    if by0 != .firmware && vget k.owner b then some (0x06, w64 b) else none
  let zero : Option (BitVec 8 × Word) := if write && !by0.tagZero then some (0x04, mask) else none
  match (if winNone la then none else winPart (winOff la)) with
  | none => some (0x04, mask)
  | some (.spad b) | some (.side b) => owned b
  | some .acc => if write && by0 != .firmware then some (0x04, mask) else none
  | some (.flag v) => if k.flagNum.toNat ≤ v then some (0x04, mask) else zero
  | some (.handler _) => if by0.tagZero then none else some (0x04, mask)
  | _ => zero

/-- Reading `n` bytes, within one aligned word, of a window. A cluster that is off gives free values (R197). -/
def winRead (by0 : WinBy) (mask : Word) (la n : Nat) : M (List Byte) := do
  let s ← getState
  let c := winCore la
  let off := winOff la
  let k := s.core c
  match winCheck k by0 la false mask with
  | some (cls, d0) => raise cls la d0 0
  | none =>
    if vget s.power.cluster (clusterOf c) = 2 then
      let w ← freeWord
      pure (bytesOfW n w)
    else
      match k.winErr off n with
      | some (d0, d1) => raise 0x30 la d0 d1
      | none =>
        match winPart off with
        | some (.spad _) => pure (bytesAt k.spad off n)
        | some (.side _) => pure (bytesAt k.side (off - 0xE0000) n)
        | _ => pure ((bytesOfW 8 (k.winWord (off / 8 * 8))).drop (off % 8) |>.take n)

/-- Writing bytes within one aligned word of a window. -/
def winWrite (by0 : WinBy) (mask : Word) (la : Nat) (bs : List Byte) : M Unit := do
  let s ← getState
  let c := winCore la
  let off := winOff la
  let k := s.core c
  match winCheck k by0 la true mask with
  | some (cls, d0) => raise cls la d0 0
  | none =>
    if vget s.power.cluster (clusterOf c) = 2 then pure ()
    else
      modState fun s => s.onCore c fun k =>
        match winPart off with
        | some (.spad _) => { k.spadMend off bs.length with spad := setBytes k.spad off bs }
        | some (.side _) => { k with side := setBytes k.side (off - 0xE0000) bs }
        | _ => k.putWinWord (off / 8 * 8) (patchWord (k.winWord (off / 8 * 8)) (off % 8) bs)

/-! ## LDS and STS (R227, R228) -/

/-- The address of a word of format M. -/
def mAddr (o : MOp) : M Word := do
  let b ← rdA o.base
  pure (b + sext64 o.off)

/-- A loaded value in a register: zero-extended or sign-extended. -/
def extend (n : Nat) (sx : Bool) (bs : List Byte) : Word :=
  let v := wordOf bs
  if sx && bit v (8 * n - 1) then v ||| (allOnes <<< (8 * n)) else v

/-- The checks of a scratchpad address. -/
def ldsPlace (sa : Word) (n : Nat) : M Nat := do
  let k ← getCore
  let a := sa.toNat
  if 786432 < a + n then raise 0x04 0 (addrMask 26) 0
  if a % n ≠ 0 then raise 0x0A 0 sa (w64 n)
  if vget k.owner (a / 4096) then raise 0x06 0 (w64 (a / 4096)) 0
  pure a

/-- A scratchpad address past the end offends at decode (R365, R374), as far as its register is there. -/
def ldsBad (o : MOp) (rs : List Reg) (k : Core) : Word :=
  match k.seeA rs with
  | some b => if 786432 < (b + sext64 o.off).toNat + sizeBytes o.size then addrMask 26 else 0
  | none => 0

def execLds (h : Hdr) (o : MOp) (s : State) : Out :=
  runA (.lds h o) h false (ldsBad o [o.base]) (do
    let n := sizeBytes o.size
    let a ← ldsPlace (← mAddr o) n
    let k ← getCore
    match k.winErr a n with
    | some (d0, d1) => raise 0x30 0 d0 d1
    | none =>
      seeWin (← aPanel) (← getState).cur
      wrA o.reg (extend n o.sx (bytesAt k.spad a n))
      pure .next) s

def execSts (h : Hdr) (o : MOp) (s : State) : Out :=
  runA (.sts h o) h false (ldsBad o [o.reg, o.base]) (do
    let n := sizeBytes o.size
    let v ← rdA o.reg
    let a ← ldsPlace (← mAddr o) n
    modCore fun k => { k.spadMend a n with spad := setBytes k.spad a (bytesOfW n v) }
    pure .next) s

/-! ## LDM, STM and LDC (R229 to R232) -/

/-- What R375 checks of `k` words of region 2 stands in the order of R367: class 0x04 before alignment, class 0x06 after it and before
the range and the rights. -/
def winFirst (t : Tag) (la k : Nat) (write : Bool) (mask : Word) (aligned : Bool) : M Unit := do
  let s ← getState
  let off := (List.range k).filterMap fun i =>
    (winCheck (s.core (winCore (la + 8 * i))) (.unit t) (la + 8 * i) write mask).map fun e => (e.1, e.2, la + 8 * i)
  match off.find? (·.1 == 0x04) with
  | some e => raise 0x04 e.2.2 e.2.1 0
  | none => if aligned then
      match off.head? with
      | some e => raise e.1 e.2.2 e.2.1 0
      | none => pure ()

/-- The place of an LDM, STM or LDC. -/
def mPlace (va : Word) (o : MOp) (need : Nat) : M Nat := do
  let n := sizeBytes o.size
  match rangeTranslate (← aSet) va 0 0 with
  | .ok la => do
    if regionOf la = 3 && o.size != 3 then raise 0x04 la (maskIf true 27 3) 0
    if regionOf la = 2 then winFirst (← aTag) la 1 (need == 2) (addrMask 26) (decide (va.toNat % n = 0))
  | .bad _ _ => pure ()
  aPlace va n need n (addrMask 26) (fun r => decide (r ≤ 3))

/-- A panel that reads a tail register comes after the writes that raised it (R169, R231). -/
def seeTail (p k : Nat) : M Unit := modState fun s => s.onMem fun m => m.catchUp p ((mapGet s.tailClks k).getD VClock.zero)

/-- Reading region 3 on a panel: it comes after the writes that the register has taken (R170), and TAIL of a fault queue carries the
clock of its records' writes (R357). -/
def regLoad (p : Nat) (tag : Tag) (la : Nat) : M Word := do
  match regAt la with
  | some (.tail k) => seeTail p k
  | some (.fqtail t) => modState fun s => s.onMem fun m => m.catchUp p (s.fq t).clock
  | some (.sqtail q) => modState fun s => s.onMem fun m => m.catchUp p (s.sq q).clock
  | _ => modState fun s => s.onMem fun m => m.catchUp p ((mapGet s.regClks la).getD VClock.zero)
  regRead tag la

/-- Bytes read at a lining address of regions 0 to 3 under a tag. -/
def loadAs (t : Tag) (la n : Nat) (va : Word) : M (List Byte) := do
  let p ← aPanel
  if regionOf la = 2 then do
    let b ← winRead (.unit t) (addrMask 26) la n
    seeWin p (winCore la)
    pure b
  else if regionOf la = 3 then pure (bytesOfW 8 (← regLoad p t la))
  else memRead p t la n va

/-- Bytes read under the running word's tag (R265). -/
def aLoad (la n : Nat) (va : Word) : M (List Byte) := do loadAs (← aTag) la n va

/-- Bytes written at a lining address of regions 0 to 3. -/
def aStore (la : Nat) (bs : List Byte) (va : Word) : M Unit := do
  let p ← aPanel
  let t ← aTag
  if regionOf la = 2 then do
    winWrite (.unit t) (addrMask 26) la bs
    markWin p (winCore la)
  else if regionOf la = 3 then regWrite p t la (wordOf bs)
  else memWrite p t la bs va .whole

def execLdm (h : Hdr) (o : MOp) (s : State) : Out :=
  runA (.ldm h o) h false noBad (do
    let va ← mAddr o
    let la ← mPlace va o 1
    let b ← aLoad la (sizeBytes o.size) va
    wrA o.reg (extend (sizeBytes o.size) o.sx b)
    pure .next) s

def execStm (h : Hdr) (o : MOp) (s : State) : Out :=
  runA (.stm h o) h false noBad (do
    let v ← rdA o.reg
    let va ← mAddr o
    let la ← mPlace va o 2
    aStore la (bytesOfW (sizeBytes o.size) v) va
    pure .next) s

/-- A constant cache holds 65,536 lines (4 MiB): where it is full one leaves it (R162). -/
def constRoom (p : Nat) : M Unit := do
  let s ← getState
  let own := s.mem.const.filter fun e => e.1 / 2 ^ 50 == p
  if 65536 ≤ own.length then
    let w ← freeWord
    match own[w.toNat % own.length]? with
    | some e => modMem fun m => { m with const := mapDel m.const e.1 }
    | none => pure ()

/-- The line of a constant cache: held, or filled from the panel's L2 (R162). The spec does not say when a held line leaves the
cache: a free bit says whether it has left (log 84). -/
def constLine (p : Nat) (owner : Tag) (la : Nat) (va : Word) : M (BitVec 512) := do
  let s ← getState
  let line := la / 64
  match mapGet s.mem.const (replicaKey p line), bit (← freeWord) 0 with
  | some r, false => pure r.data
  | _, _ =>
    match ← attempt (readLine p owner (line * 64) 64 va) with
    | .error f => throw (.fault { f with laddr := la })
    | .ok bs => do
      let s ← getState
      let key := match s.line? line, mapGet s.mem.replicas (replicaKey p line) with
        | some t, _ => t.key
        | none, some r => r.key
        | none, none => 0
      constRoom p
      let r : Replica := { key := key, owner := owner, err := 0, data := lineOf bs }
      modMem fun m => { m with const := mapPut m.const (replicaKey p line) r }
      pure (lineOf bs)

def execLdc (h : Hdr) (o : MOp) (s : State) : Out :=
  runA (.ldc h o) h false noBad (do
    let n := sizeBytes o.size
    let va ← mAddr o
    let la ← mPlace va o 1
    let b ← (if regionOf la ≤ 1 then do
        let d ← constLine (← aPanel) (← aTag) la va
        pure ((lineBytes d).drop (la % 64) |>.take n)
      else aLoad la n va)
    wrA o.reg (extend n o.sx b)
    pure .next) s

def execCsync (h : Hdr) (s : State) : Out :=
  runA (.csync h) h false noBad (do
    let p ← aPanel
    modMem fun m => m.dropConst p
    pure .next) s

/-! ## PFM (R234) -/

/-- One line is asked for: whatever keeps it from being held, its range set, its range or its page, is not reported, and nothing
waits for it. -/
def prefetch (va : Word) : M Unit := fun s =>
  let act : M Unit := do
    match rangeTranslate (← aSet) va 64 1 with
    | .bad _ _ => pure ()
    | .ok la =>
      if regionOf la ≤ 1 then
        let _ ← readLine (← aPanel) (← aTag) (la / 64 * 64) 64 va
  match act s with
  | .ok _ s' | .error (.fault _) s' => .ok () s'
  | .error _ _ => .ok () s

def execPfm (h : Hdr) (o : PfmOp) (s : State) : Out :=
  runA (.pfm h o) h false noBad (do
    let b ← rdA o.base
    let va := b + sext64 o.off
    let first := va &&& ~~~(0x3F#64)
    (List.range (o.n1.toNat + 1)).forM fun i => prefetch (first + w64 (64 * i))
    pure .next) s

end Sys2Proof.Machine
end

