-- ==== Sys2Proof/Machine/Passes.lean ====
section
/-! DEFINITION. The access unit's task and pass words: ENQ, POPPASS, RBTLD, PASSDONE and YIELD (spec 02 R28, R29, 03 R46,
R50 to R52, 14 R259 to R263, 23 R361, R362, 26 R399). -/

namespace Sys2Proof.Machine

/-! ## ENQ (R259) -/

/-- The bits that name source register 1. -/
def s1Mask : Word := maskIf true 30 5

/-- ENQ: the record is read through set(CTX) and submitted under CTX, in the handler too (R18, R259); its task number or all ones
goes to the destination. -/
def execEnq (h : Hdr) (o : RR2) (s : State) : Out :=
  runA (.enq h o) h false noBad (do
    let va ← rdA o.s1
    let k ← getCore
    let t := k.ctx
    match rangeTranslate k.rangeSet va 0 0 with
    | .ok la => if regionOf la = 2 then winFirst t la 16 false s1Mask (decide (va.toNat % 128 = 0))
    | .bad _ _ => pure ()
    let la ← placeIn k.rangeSet va 128 1 128 s1Mask (fun r => decide (r ≤ 3))
    let p ← aPanel
    let b ← (if regionOf la ≤ 1 then memRead p t la 128 va
      else do
        let ws ← (List.range 16).mapM fun i => loadAs t (la + 8 * i) 8 va
        pure ws.flatten)
    let st ← getState
    match ← submit t (gathOf st.cur) b la allOnes 0 (st.vc p) with
    | some id => wrA o.d (id.setWidth 64)
    | none => wrA o.d allOnes
    pure .next) s

/-! ## Handing tasks to the parked list (R46, R362) -/

/-- The Gatherer of the current pass. -/
def Core.passGath (k : Core) : Nat := (field k.passId 29 3).toNat

/-- CAUSE 6: a range chunk. -/
def Core.isChunk (k : Core) : Bool := field (vget k.header 7) 0 3 == 6

/-- The task of a block. -/
def Core.rbtTask (k : Core) (b : Nat) : Nat := (field (k.rbt b 0) 32 32).toNat

/-- A block as a member of a later pass: it keeps its D and B. -/
def Core.blockMember (k : Core) (b : Nat) (budget : BitVec 32) : Member :=
  { task := k.rbtTask b, owner := k.rbtOwner b, rows := k.rbtCount b, arrival := 0, deadline := k.rbt b 1,
    budget := budget, expiry := 0, act := k.rbt b 2, out := k.rbt b 3, adapter := k.rbt b 4, strides := k.rbt b 5,
    uarg := k.rbt b 6, cmpl := k.rbt b 7 }

/-- The parked entry of a block. -/
def parkedEntry (k : Core) (t : Task) (b : Nat) (reason : BitVec 3) (only : Bool) : Parked :=
  let budget := if k.isChunk then field (vget k.header 3) 0 32 else (t.fixed.map (·.2)).getD 0
  { task := k.rbtTask b, owner := k.rbtOwner b, reason := reason, doneOnly := only, member := k.blockMember b budget,
    hash := tkHash t, wid := tkWid t, shape := tkShape t, chunk := k.isChunk }

/-- The blocks left to hand over: one entry at a time, while FREE is at least 65. -/
def handOver (reason : BitVec 3) : List (Nat × Bool) → M (List (Nat × Bool))
  | [] => pure []
  | (b, only) :: rest => do
    let s ← getState
    let k := s.core s.cur
    match s.task? (k.rbtTask b) with
    | none => handOver reason rest
    | some t =>
      if (vget s.gath k.passGath).free < 65 then pure ((b, only) :: rest)
      else
        modState fun s => (s.onMem fun m => m.catchUp (gathPanel k.passGath) (s.vc (panelOf s.cur))).onGath k.passGath fun g =>
          { g with parked := g.parked ++ [parkedEntry k t b reason only] }
        handOver reason rest

/-- Handing over what is left; the word waits while the list is full. -/
def handOverAll (reason : BitVec 3) (bs : List (Nat × Bool)) : M Unit := do
  let left ← handOver reason bs
  if left.isEmpty then modCore fun k => { k with handover := none }
  else
    modCore fun k => { k with handover := some left }
    throw .waiting

/-! ## POPPASS (R29, R260) -/

/-- The owners of an image, in order of first appearance. -/
def ownersOf (img : List Word) (n : Nat) : List Tag :=
  ((List.range n).map fun b => field (img.getD (8 * b) 0) 0 12).eraseDups

/-- A record as POPPASS takes it: its words, its row-block image and the sets of its owners. -/
structure Popped where
  words : List Word
  img : List Word
  tags : List Tag
  sets : List RangeSet
  deriving DecidableEq, Repr, Inhabited

def Popped.word (r : Popped) (i : Nat) : Word := r.words.getD i 0

/-- A record with a row-block image is a pass. -/
def Popped.isPass (r : Popped) : Bool := r.word 5 != 0

/-- Little-endian words of bytes. -/
def wordsOf (n : Nat) (bs : List Byte) : List Word := tabulate n fun i => wordOf (bs.drop (8 * i) |>.take 8)

/-- The record at the head of the ring, once it is present, with the checks of R260. -/
def fetchPass (f : Feed) : M Popped := do
  let s ← getState
  let p := panelOf s.cur
  let t := (s.core s.cur).tag
  if ((mapGet s.tails f.tail).getD 0).toNat ≤ f.head.toNat then throw .waiting
  seeTail p f.tail
  let b ← memRead p t (f.ring + 64 * (f.head.toNat % 2 ^ f.logc)) 64 0
  let ws := wordsOf 8 b
  let w (i : Nat) : Word := ws.getD i 0
  if w 0 != f.head + 1 then throw .waiting
  if field (w 1) 24 8 != 0 || field (w 3) 32 32 != 0 || field (w 7) 3 61 != 0 then raise 0x02 0 0 0
  if w 5 = 0 then pure { words := ws, img := [], tags := [], sets := [] }
  else
    if !(f.notices.any fun n => n.seq == f.head + 1 && n.pass == field (w 1) 32 32) then raise 0x03 0 0 0
    let n := min ((field (w 1) 16 8).toNat + 1) 32
    let ib ← memRead p t (w 5).toNat (64 * n) 0
    let img := wordsOf (8 * n) ib
    let tags := ownersOf img n
    if (List.range n).any fun b => field (img.getD (8 * b) 0) 12 3 != 0 then raise 0x02 0 0 0
    let sets ← tags.mapM fun t => readRangeSet p t
    if sets.any (·.any RangeReg.bad) then raise 0x02 0 0 0
    pure { words := ws, img := img, tags := tags, sets := sets }

/-- Every LFSR of a core loads its seed again (R93). -/
def Core.reloadAll (k : Core) : Core :=
  { k with xReload := true, m := { k.m with reload := true }, v := { k.v with reload := true },
           c := { k.c with reload := true } }

/-- A record taken (R52, R260). -/
def Core.takePass (k : Core) (r : Popped) (f : Feed) (cycle : Nat) : Core :=
  let budget := field (r.word 3) 0 32
  let f' := { f with head := f.head + 1, notices := f.notices.filter fun n => n.seq != f.head + 1 }
  let k1 := { k with
    header := Vector.ofFn fun i => r.word i.val, passId := field (r.word 1) 32 32, budget := budget, budgetAt := cycle,
    current := r.isPass, budgetArmed := r.isPass && budget != 0, parkedOwners := [], feed := some f' }.reloadAll
  if r.isPass then
    { k1 with passMem := Vector.ofFn fun i => r.img.getD i.val 0, rangeTags := r.tags, rangeFile := r.sets }.pm 7 1
  else k1

def execPoppass (h : Hdr) (d : Reg) (s : State) : Out :=
  runA (.poppass h d) h false noBad (do
    let k ← getCore
    match k.feed with
    | none => raise 0x04 0 0 0
    | some f => do
      stallIf (k.unfinished.any (·.readsPass))
      let r ← fetchPass f
      if k.current then handOverAll 1 (k.handover.getD (k.blocks.map fun b => (b, false)))
      modState fun s =>
        let s := s.onGath (gathOf s.cur) fun g =>
          { g with written := g.written.filter fun w => !(w.core == s.cur && w.pass == field (r.word 1) 32 32 && r.isPass) }
        s.onCore s.cur fun k => k.takePass r f s.cycle
      wrA d (r.word 1)
      pure .next) s

/-! ## RBTLD (R261) -/

/-- The entry that an RBTLD reads. -/
def rbtEntry (o : RbtldOp) (x : Word) : Nat := (x.toNat + o.blk.toNat) % 64

/-- An entry above 32 offends at decode, as far as its register is there (R261, R365). -/
def rbtldBad (o : RbtldOp) (k : Core) : Word :=
  maskIf ((k.seeA [o.s1]).any fun x => decide (32 < rbtEntry o x)) 30 5 |||
    maskIf ((k.seeA [o.s1]).any fun x => decide (32 < rbtEntry o x)) 3 6

def execRbtld (h : Hdr) (o : RbtldOp) (s : State) : Out :=
  runA (.rbtld h o) h false (rbtldBad o) (do
    let k ← getCore
    let x ← rdA o.s1
    let e := rbtEntry o x
    wrA o.d (if e = 32 then vget k.header o.w.toNat else k.rbt e o.w.toNat)
    pure .next) s

/-! ## PASSDONE (R262, R361, R362, R399) -/

/-- The record of a missed deadline. -/
def missedRec (k : Core) (owner : Tag) (ft : Word) : Rec :=
  { pass := k.passId, owner := owner, unit := 0, cont := 3, block := 63, cls := 0x21, wv := false, core := 0, strm := 0,
    rword := 0, laddr := 0, d0 := vget k.header 2, d1 := ft, word := 0 }

/-- One block's completion: for a chunk, one more in DONE. -/
def blockDone (k : Core) (p b : Nat) : M Unit :=
  if k.isChunk then rangeDone p (k.rbtOwner b) (k.rbt b 4) (k.rbtTask b) (k.rbt b 7)
  else do
    if k.rbt b 7 != 0 then completeAt p (k.fileSet (k.rbtOwner b)) (k.rbtOwner b) (k.rbt b 7)
    modState fun s => s.endTask (k.rbtTask b)

/-- The blocks' completions in order: the owners reported late and the blocks done, before and after. -/
def sendDone (w : Word) (rword : BitVec 13) : List Nat → List Tag → List Nat → M (List Nat)
  | [], _, done => pure done
  | b :: bs, late, done => do
    let s ← getState
    let k := s.core s.cur
    let p := panelOf s.cur
    if k.rbtParked b then sendDone w rword bs late done
    else
      let owner := k.rbtOwner b
      let ft := s.ftOf p
      let isLate := decide ((k.rbt b 1).toNat < ft.toNat) && !late.contains owner
      if isLate then appendFault p (missedRec k owner ft)
      let late := if isLate then owner :: late else late
      match ← attempt (blockDone k p b) with
      | .ok _ => sendDone w rword bs late (done ++ [b])
      | .error f => do
        parkOwner s.cur 0 0 rword w owner f
        sendDone w rword bs late done

def execPassdone (h : Hdr) (s : State) : Out :=
  runA (.passdone h) h false noBad (do
    let k ← getCore
    if k.current then
      match k.handover with
      | some left => handOverAll 0 left
      | none => do
        let before := k.blocks.filter k.rbtParked
        let done ← sendDone (encodeWord (.passdone h)) (k.headWord .a) k.blocks [] []
        let k ← getCore
        let left := (k.blocks.filter fun b => k.rbtParked b && !done.contains b).map fun b => (b, !before.contains b)
        handOverAll 0 left
      modCore fun k => { k with current := false }
    pure .next) s

/-! ## YIELD (R28, R50) -/

/-- The held passes of a core are assigned anew. -/
def State.releaseCore (s : State) (c : CoreId) : State :=
  let gn := gathOf c
  (s.onGath gn fun g => { g with held := g.held.map fun p => if p.core = some c then { p with core := none } else p }).assignAll gn

def execYield (h : Hdr) (adv : Bool) (s : State) : Out :=
  runA (.yield h adv) h false noBad (do
    modCore fun k => { k with advert := adv }
    modState fun s => if adv then s.assignAll (gathOf s.cur) else s.releaseCore s.cur
    pure .next) s

end Sys2Proof.Machine
end

