-- ==== Sys2Proof/Machine/System.lean ====
section
/-! DEFINITION. The privileged words on page tables, keys and feed rings (spec 02 R29, 03 R49, 06 R124 to R131, 08 R155,
14 R268 to R270, 25 R388, R390). -/

namespace Sys2Proof.Machine

/-- The bits that name source register 2. -/
def s2Mask : Word := maskIf true 25 5

/-- A block of bytes written at a lining address; a page fault counts the bytes that stand before it (R355). -/
def storeBlock (p : Nat) (owner : Tag) (la : Nat) (bs : List Byte) : M Unit := do
  match ← attempt (memWrite p owner la bs 0 .whole) with
  | .ok _ => pure ()
  | .error f =>
    throw (.fault (if f.cls = 0x12 || f.cls = 0x13 then { f with d1 := w64 (f.laddr - la) } else f))

/-! ## LPTW (R124, R268) -/

/-- A lining address whose region is translated by the page table (R113). -/
def pagedAddr (v : Word) : Bool :=
  field v 56 8 == 0 && (regionOf v.toNat == 0 || regionOf v.toNat == 1 || regionOf v.toNat == 4)

/-- The entry for a lining address at a level, counted from 0: its physical address, once it and every directory on the way are
reached; none where a directory is missing. -/
def entryFrom (la : Nat) : List (Nat × Nat × Option Nat) → Nat → Nat → M (Option Nat)
  | [], _, _ => pure none
  | (lo, n, _) :: ls, left, table => do
    let p := table + 8 * (la / 2 ^ lo % 2 ^ n)
    ptOpen la p
    if left = 0 then pure (some p)
    else
      let e := (← getState).ptWord p
      if pteV e && pteSize e == 3 && !dirBad e then entryFrom la ls (left - 1) ((field e 8 37).toNat * 256) else pure none

/-- The level of a new entry, counted from 0: by its SIZE for a leaf, by the modifier for a directory entry; none for a leaf
with a level. -/
def lptwLevel (k : BitVec 3) (v : Word) : Option Nat :=
  let d := (field k 0 2).toNat
  match pteSize v with
  | 0 => if d = 0 then some 4 else none
  | 1 => if d = 0 then some 3 else none
  | 2 => if d = 0 then some 2 else none
  | _ => some d

/-- What is written: a leaf keeps the held A and D unless AD is 1 (R117, R124). -/
def lptwValue (k : BitVec 3) (v old : Word) : Word :=
  if bit k 2 || pteSize v = 3 then v else v ||| (old &&& maskIf true 54 2)

/-- The reading of the home slice's panel at a page-table entry. -/
def State.entryTime (s : State) (p : Nat) : Word := s.ftOf (homePanel (p / 64))

/-- UNCACHED, which the controllers set and clear together (R386). -/
def State.uncached (s : State) : Bool := s.mem.ctls.any (·.uncached)

/-- An LPTW or LDRAIN returns the time of its write, for which it waits while UNCACHED is 1 (R386). -/
def answerTime (d : BitVec 5) (t : Word) : M Flow := do
  if (← getState).uncached then do
    modCore fun k => { k with ptTime := some t }
    throw .waiting
  else do
    wrA d t
    pure .next

/-- The write of an LPTW or LDRAIN that waits with its answer is not made again (R386). -/
def onceWritten (d : BitVec 5) (write : M Word) : M Flow := do
  match (← getCore).ptTime with
  | some t => do
    if (← getState).uncached then throw .waiting
    modCore fun k => { k with ptTime := none }
    answerTime d t
  | none => do
    let t ← write
    answerTime d t

def execLptw (h : Hdr) (o : RR3K) (s : State) : Out :=
  runA (.lptw h o) h true noBad (onceWritten o.d do
    let va ← rdA o.s1
    let v ← rdA o.s2
    if !pagedAddr va then raise 0x04 0 s1Mask 0
    let la := va.toNat
    match lptwLevel o.k v with
    | none => raise 0x04 0 (maskIf true 0 2) 0
    | some lev => do
      let s ← getState
      match ← entryFrom la walkLevels lev ((vget s.mem.ctls (xlatCtl (la / 64))).root.toNat * 4096) with
      | none => raise 0x12 la 0 0
      | some p => do
        modState fun s => s.setPtWord (panelOf s.cur) p (lptwValue o.k v (s.ptWord p))
        pure ((← getState).entryTime p)) s

/-! ## LDRAIN and LCONF (R129, R130) -/

/-- The leaf of a page; a page without one is no page (class 0x12). -/
def leafOf (va : Word) : M Leaf := do
  if !pagedAddr va then raise 0x04 0 s1Mask 0
  walkOpen (xlatCtl (va.toNat / 64)) va.toNat
  match (← getState).walk (xlatCtl (va.toNat / 64)) va.toNat with
  | none => raise 0x12 va.toNat 0 0
  | some l => pure l

def execLdrain (h : Hdr) (o : RR2) (s : State) : Out :=
  runA (.ldrain h o) h true noBad (onceWritten o.d do
    let va ← rdA o.s1
    let l ← leafOf va
    modState fun s => s.setPtWord (panelOf s.cur) l.at0 (l.pte ||| maskIf true 62 1)
    pure ((← getState).entryTime l.at0)) s

/-- A line's data written to HBM, past the victim cache. -/
def State.settleLine (s : State) (pline slot : Nat) (d : BitVec 512) : State :=
  (s.setHbmLine pline slot d).onMem fun m => { m with victims := mapDel m.victims (victimKey pline slot) }

/-- A dirty line of a confirmed page is written through its PTE to its frame and stays clean; a line with an error is dropped with
its report, and a failed line is dropped (R130, R389, R390). -/
def confirmLine (l : Leaf) (line : Nat) : M Unit := do
  let s ← getState
  match s.line? line with
  | none => pure ()
  | some t =>
    if t.failed then modState fun s => s.dropLine line
    else if !t.dirty then pure ()
    else if t.err != 0 then do
      appendFault (homePanel line) (memRec t.owner 0x30 (line * 64) 3 (w64 (line * 64)))
      modState fun s => s.dropLine line
    else
      let b : WriteBack := { line := line, data := s.lineData line, key := t.key, owner := t.owner }
      backLine b (pure (some (l.xlat (line * 64)))) fun x => do
        let s ← getState
        stallIf (s.hbmBusy (physCtl x.phys))
        modState fun s => (s.settleLine (x.phys / 64) t.key.toNat b.data).onMem fun m =>
          { m with lines := mapPut m.lines line { t with dirty := false } }

/-- A victim-cache line of a confirmed page is written to its frame. -/
def confirmVictim (key : Nat) : M Unit := do
  let s ← getState
  match mapGet s.mem.victims key with
  | none => pure ()
  | some v =>
    if v.dirty && v.err == 0 then do
      stallIf (s.hbmBusy (physCtl (key / 256 * 64)))
      modState fun s => s.settleLine (key / 256) (key % 256) v.data

/-- The lines of a page that are homed, and those of its frame in the victim caches under its key. -/
def State.pageLines (s : State) (l : Leaf) (la : Nat) : List Nat :=
  (s.mem.lines.filter fun e => e.1 * 64 / 2 ^ pageBits l.size == la / 2 ^ pageBits l.size).map (·.1)

def State.pageVictims (s : State) (l : Leaf) : List Nat :=
  let frame := physOf (field l.pte 16 29).toNat l.size 0
  (s.mem.victims.filter fun e => e.1 % 256 == pteKey l.pte &&
    e.1 / 256 * 64 / 2 ^ pageBits l.size == frame / 2 ^ pageBits l.size).map (·.1)

/-- A write-back of the page is on its way. -/
def State.pageInFlight (s : State) (l : Leaf) (la : Nat) : Bool :=
  s.mem.writebacks.any fun b => b.line * 64 / 2 ^ pageBits l.size == la / 2 ^ pageBits l.size

/-- The wait of LCONF: t + L(k) + 16 ns. -/
def confirmTime (t : Word) (k : Nat) : Nat := t.toNat + (if k = 0 then 0 else leaseNs k) + 16

def execLconf (h : Hdr) (o : SS) (s : State) : Out :=
  runA (.lconf h o) h true noBad (do
    let va ← rdA o.s1
    let t ← rdA o.s2
    let l ← leafOf va
    if !pteDrain l.pte then raise 0x04 0 s1Mask 0
    let s ← getState
    stallIf (s.uncached || decide ((s.ftOf (panelOf s.cur)).toNat < confirmTime t (pteLease l.pte)) || s.pageInFlight l va.toNat)
    (s.pageLines l va.toNat).forM (confirmLine l)
    (s.pageVictims l).forM confirmVictim
    pure .next) s

/-! ## KEYSET and KEYKILL (R155, R269, R388) -/

def State.setKey (s : State) (n : Nat) (k : KeySlot) : State := s.onMem fun m => { m with keys := mapPut m.keys n k }

/-- KEYSET loads a slot that has never been loaded or that is retired. -/
def execKeyset (h : Hdr) (o : SS) (s : State) : Out :=
  runA (.keyset h o) h true noBad (do
    let x ← rdA o.s1
    let va ← rdA o.s2
    let n := (field x 0 8).toNat
    if field va 56 8 != 0 || regionOf va.toNat != 0 then raise 0x04 0 s2Mask 0
    let s ← getState
    if (s.keyOf n).loaded && !(s.keyOf n).retired then raise 0x04 0 s1Mask 0
    let b ← memRead (panelOf s.cur) 0 va.toNat 64 0
    modState fun s => s.setKey n { key := lineOf b, loaded := true, retired := false }
    pure .next) s

/-- No line that carries a slot stays in any slice, victim cache or constant cache, and no write-back of one. DESIGN CHOICE (log
141): a dirty line is discarded, as R269 and R388 say, where R149 says that it is written back when a KEYKILL acts on it. -/
def State.killKey (s : State) (n : BitVec 8) : State :=
  let dead := (s.mem.lines.filter fun e => e.2.key == n).map (·.1)
  (dead.foldl State.dropLine s).onMem fun m => { m with
    replicas := m.replicas.filter fun e => e.2.key != n
    const := m.const.filter fun e => e.2.key != n
    victims := m.victims.filter fun e => e.2.key != n
    writebacks := m.writebacks.filter fun b => b.key != n }

def execKeykill (h : Hdr) (s1 : Reg) (s : State) : Out :=
  runA (.keykill h s1) h true noBad (do
    let x ← rdA s1
    let n := field x 0 8
    if n = 0 then raise 0x04 0 s1Mask 0
    modState fun s => (s.killKey n).setKey n.toNat { s.keyOf n.toNat with retired := true }
    pure .next) s

/-! ## FMAP (R270) -/

/-- The number of the tail register at a lining address; none where there is none. -/
def tailIndex (la : Nat) : Option Nat :=
  if regionOf la = 3 && la % 8 = 0 then
    match regAt la with
    | some (.tail k) => some k
    | _ => none
  else none

/-- A reserved field of a feed configuration is set; `w i` is its word at +8i. -/
def feedReserved (w : Nat → Word) : Bool := field (w 0) 60 4 != 0 || field (w 2) 56 8 != 0 || field (w 3) 56 8 != 0 ||
  field (w 4) 56 7 != 0

/-- RING of a feed configuration. -/
def feedRing (w : Nat → Word) : Nat := (field (w 0) 0 56).toNat

/-- The limits of its fields; a ring that is unmapped has none. -/
def feedOk (w : Nat → Word) : Bool :=
  let ring := feedRing w
  let comp := (field (w 2) 0 56).toNat
  let pair := (field (w 4) 0 56).toNat
  ring == 0 ||
    (decide ((field (w 0) 56 4).toNat ≤ 12) && ring % 64 == 0 && regionOf ring == 0 && comp % 2048 == 0 &&
      regionOf comp == 0 && (tailIndex (field (w 3) 0 56).toNat).isSome &&
      (if bit (w 4) 63 then pair % 16 == 0 && regionOf pair == 0 else pair == 0))

/-- The feed ring of a configuration; the same ring keeps its notices. The Gatherer goes on after the last record written
(R49). -/
def feedOf (s : State) (old : Option Feed) (w : Nat → Word) : Option Feed :=
  if feedRing w = 0 then none
  else
    let k := (tailIndex (field (w 3) 0 56).toNat).getD 0
    let t := (mapGet s.tails k).getD 0
    let keep := match old with
      | some f => if f.ring = feedRing w && f.tail = k then f.notices else []
      | none => []
    some { logc := (field (w 0) 56 4).toNat, ring := feedRing w, head := w 1, comp := (field (w 2) 0 56).toNat,
           tail := k, shared := bit (w 4) 63, pair := (field (w 4) 0 56).toNat,
           lastSeq := if t.toNat < (w 1).toNat then w 1 else t, notices := keep }

/-- A core and its Gatherer install a feed ring: records written to another ring are no longer counted against it. -/
def State.installFeed (s : State) (c : CoreId) (f : Option Feed) : State :=
  let notes := match f with
    | some f => f.notices
    | none => []
  (s.onGath (gathOf c) fun g =>
    { g with written := g.written.filter fun w => !(w.core == c) || notes.any fun n => n.pass == w.pass }).onCore c
      fun k => { k with feed := f }

def execFmap (h : Hdr) (s1 : Reg) (s : State) : Out :=
  runA (.fmap h s1) h true noBad (do
    let va ← rdA s1
    if field va 56 8 != 0 || decide (3 < regionOf va.toNat) then raise 0x04 0 s1Mask 0
    if regionOf va.toNat = 2 then winFirst (← aTag) va.toNat 5 false s1Mask (decide (va.toNat % 8 = 0))
    if va.toNat % 8 ≠ 0 then raise 0x0A 0 va 8
    let ws ← (List.range 5).mapM fun i => do
      let b ← aLoad (va.toNat + 8 * i) 8 0
      pure (wordOf b)
    let w (i : Nat) : Word := ws.getD i 0
    if feedReserved w then raise 0x02 0 s1Mask 0
    if !feedOk w then raise 0x04 0 s1Mask 0
    modState fun s => s.installFeed s.cur (feedOf s (s.core s.cur).feed w)
    pure .next) s

end Sys2Proof.Machine
end

