-- ==== Sys2Proof/Machine/Contexts.lean ====
section
/-! DEFINITION. Saving and loading a context: CTXSV and CTXLD (spec 14 R271, 24 R378, 26 R401 to R405). -/

namespace Sys2Proof.Machine

/-! ## The image (R271) -/

/-- The bytes of an image. -/
def ctxBytes (spad : Bool) : Nat := if spad then 933888 else 147456

/-- The place of an image: in a region of memory, 4 KiB aligned; `away` says that an away entry is free for it. -/
def ctxPlace (va : Word) (spad away : Bool) : M Nat := do
  if field va 56 8 != 0 || decide (1 < regionOf va.toNat) || !away then raise 0x04 0 s1Mask 0
  if va.toNat % 4096 ≠ 0 then raise 0x0A 0 va (w64 (ctxBytes spad))
  pure va.toNat

/-- Words in order. -/
def words8 (ws : List Word) : List Byte := (ws.map (bytesOfW 8)).flatten

/-- Half words in order. -/
def words4 (ws : List (BitVec 32)) : List Byte := (ws.map fun w => bytesOfNat 4 w.toNat).flatten

/-- Bytes cut or filled up to a length. -/
def padTo (n : Nat) (bs : List Byte) : List Byte := (bs ++ List.replicate n 0).take n

/-- FETCH less the words that CTXLD fetches again: those buffered, and those from a word halted at perform on (R378). -/
def Core.savedFetch (k : Core) (t : Strm) : BitVec 32 :=
  let g := k.engine t
  let back := match g.halt with
    | some (.performed w) => g.issued - w.abs
    | _ => 0
  (k.ring t).fetch - BitVec.ofNat 32 (g.buf.length + back)

/-- The A stream as the handler leaves it: ended, or at EXC_RET (R401). -/
def Core.savedEnd (k : Core) : Bool := (k.ring .a).ended && field k.excRet 0 13 == (k.ring .a).endWord
def Core.savedA (k : Core) : BitVec 32 :=
  if k.savedEnd then (k.ring .a).fetch else BitVec.ofNat 32 ((k.ring .a).posOf (field k.excRet 0 13))

/-- SIZE and BASE of a ring. -/
def Ring.place (r : Ring) : Word := w64 (r.size.toNat * 2 ^ 16 + r.base.toNat)

/-- Ring registers of a stream, with its FETCH. -/
def ringWords (r : Ring) (fetch : BitVec 32) : List Word := [r.place, r.pub ++ fetch]

/-- The feed configuration of a core, H first. -/
def feedWords : Option Feed → List Word
  | none => [0, 0, 0, 0, 0]
  | some f =>
    [f.head, w64 (f.logc * 2 ^ 56 + f.ring), w64 f.comp, w64 (0x30000900000000 + 8 * f.tail),
     ofBool 64 f.shared <<< 63 ||| w64 f.pair]

/-- The LFSR of a unit as its next word finds it (R93). -/
def savedLfsr (seed q : BitVec 32) (reload : Bool) : BitVec 32 := if reload then lfsrSeed seed else q

/-- A flag word by virtual number; zero from NUM upwards (R401). -/
def Core.flagWord (k : Core) (v : Nat) : Word :=
  match flagIdx k.flagNum k.flagBase (BitVec.ofNat 6 v) with
  | some i => (vget k.flags i).word
  | none => 0

def Region.bytes (r : Region) : List Byte :=
  words8 [r.slack ++ 0#3 ++ r.first ++ 0#3 ++ r.count ++ 0#13 ++ r.strm, r.due, r.stepBy]

/-- Word 0 of an image. -/
def ctxWord0 (k : Core) (n : BitVec 16) (spad : Bool) : Word :=
  0#27 ++ ofBool 1 (k.ring .x).ended ++ ofBool 1 k.savedEnd ++ ofBool 1 (bit k.excRet 16) ++ ofBool 1 k.current ++
    ofBool 1 spad ++ n ++ 0#4 ++ k.ctx

/-- The image from +0x0000 to +0x3FFF. -/
def ctxHead (k : Core) (n : BitVec 16) (spad : Bool) (budget : BitVec 32) : List Byte :=
  let owner := tabulate 32 fun i =>
    (List.range 8).foldl (fun (b : Byte) j =>
      let n := 8 * i + j
      if (if n < 176 then vget k.owner n else decide (n < 180) && vget k.accMode (n - 176)) then b ||| (1#8 <<< j) else b) 0
  let rings := ringWords (k.ring .a) k.savedA ++ ringWords (k.ring .x) (k.ring .x).fetch ++
    ringWords (k.ring .m) (k.savedFetch .m) ++ ringWords (k.ring .v) (k.savedFetch .v) ++
    ringWords (k.ring .c) (k.savedFetch .c)
  let lfsrs := [savedLfsr k.srSeed k.xLfsr k.xReload, savedLfsr k.srSeed k.m.lfsr k.m.reload,
    savedLfsr k.srSeed k.v.lfsr k.v.reload, savedLfsr k.srSeed k.c.lfsr k.c.reload]
  let low :=
    words8 (ctxWord0 k n spad :: feedWords k.feed) ++
    words8 [k.stageCtr.setWidth 64, k.srSeed ++ 0#29 ++ k.round] ++
    words8 (k.a.toList ++ k.x.toList) ++
    words8 [k.predByte, 0] ++
    words8 rings ++
    words4 k.fmtSlot.toList ++
    owner ++
    padTo 768 (words4 k.bankFmt.toList) ++
    words8 (tabulate 64 k.flagWord) ++
    (k.bobbins.toList.map fun b => words8 [b.config, b.stateWord]).flatten ++
    words8 k.header.toList ++
    padTo 64 (k.rangeTags.map fun t => bytesOfNat 2 t.toNat).flatten ++
    words4 (lfsrs ++ [k.passId, budget])
  padTo 3072 low ++ padTo 1024 (k.regions.map Region.bytes).flatten ++ words8 k.passMem.toList ++
    padTo 10240 (k.rangeFile.map rangeSetBytes).flatten

/-- The accumulators' bytes. -/
def accBytes (k : Core) : List Byte := words4 (tabulate 32768 fun e => k.accAt (e / 32) (e % 32))

/-- The image of a core. -/
def ctxImage (k : Core) (n : BitVec 16) (spad : Bool) (budget : BitVec 32) : List Byte :=
  ctxHead k n spad budget ++ accBytes k ++ (if spad then bytesAt k.spad 0 786432 else [])

/-! ## CTXSV (R271, R401, R402) -/

/-- The lowest free away entry. -/
def Core.freeAway (k : Core) : Option Nat := (List.range 8).find? fun i => (vget k.away i).mode == 0

/-- No engine word is in progress. -/
def Core.enginesIdle (k : Core) : Bool := k.m.prog.isEmpty && k.v.prog.isEmpty && k.c.prog.isEmpty

/-- The X stream leaves its SAFE: the word meets its wait, completes and signals; a refused signal halts it at the word. -/
def passXSafe : M Unit := do
  let k ← getCore
  match (k.headOf .x).map decodeX with
  | some (some (.xSafe h n)) => do
    match k.passWait h.wait with
    | none => throw .stall
    | some k1 =>
      let w := encodeWord (.xSafe h n)
      match k1.issueSig h.sig with
      | .error old => modState fun s => s.xFault w { cls := 0x07, laddr := 0, d0 := old, d1 := 1 }
      | .ok k2 => do
        modCore fun _ => k2.advanceX .next
        modState fun s => (s.xSignal s.cur (k.issuedX w (k.headWord .x))).getD s
  | _ => pure ()

/-- A core whose context has been saved: no context runs, its streams stand idle, and its flags are answered for by the away
entry. -/
def Core.savedCore (k : Core) (i : Nat) (la : Nat) : Core :=
  let a : Away :=
    { mode := 1, num := k.flagNum, core := 0, owner := k.ctx, image := BitVec.ofNat 44 (la / 4096), held := [] }
  { k with
    away := vset k.away i a, loaded := false, rings := k.rings.map fun r => { r with started := false },
    m := { k.m with buf := [] }, v := { k.v with buf := [] }, c := { k.c with buf := [] } }

/-- The first uncorrectable error that CTXSV reads: in the accumulators, or in the scratchpad it saves (R389). -/
def Core.savedErr (k : Core) (spad : Bool) : Option (Word × Word) :=
  match k.accErr, (if spad then k.spadErr else []) with
  | e :: _, _ => some (2, w64 (e / 32))
  | [], w :: _ => some (1, w64 (8 * w / 4096 * 256 + 8 * w % 4096 / 64))
  | [], [] => none

/-- What is kept of the sections of the context that a core runs. -/
def Core.saved (k : Core) : Saved :=
  { owner := k.ctx, aRing := (k.ring .a).place, xRing := (k.ring .x).place, aCount := (k.ring .a).count,
    xCount := (k.ring .x).count, codeHash := k.codeHash, advert := k.advert }

def execCtxsv (h : Hdr) (o : CtxOp) (s : State) : Out :=
  runA (.ctxsv h o) h true noBad (do
    let va ← rdA o.s1
    let k ← getCore
    let la ← ctxPlace va o.spad k.freeAway.isSome
    match k.freeAway, k.safeAt with
    | none, _ => raise 0x04 0 s1Mask 0
    | some _, none => throw .stall
    | some i, some point => do
      stallIf (!k.enginesIdle)
      passXSafe
      let s ← getState
      let k ← getCore
      match k.savedErr o.spad with
      | some (store, row) => raise 0x30 0 store row
      | none => pure ()
      storeBlock (panelOf s.cur) 0 la (ctxImage k (point.getD 0) o.spad (s.budgetNow k))
      modState fun s => { s with saves := mapPut s.saves la k.saved }
      modCore fun k => k.savedCore i la
      modState fun s => s.syncWire s.cur
      pure .next) s

/-! ## CTXLD (R271, R405) -/

/-- An image as words, by offset. -/
def imgWord (ws : List Word) (off : Nat) : Word := ws.getD (off / 8) 0

/-- A half word at an offset. -/
def imgHalf (ws : List Word) (off : Nat) : BitVec 32 := field (imgWord ws off) (8 * (off % 8)) 32

/-- Words from an offset up to another are all zero. -/
def imgZero (ws : List Word) (lo hi : Nat) : Bool :=
  ((ws.drop (lo / 8)).take ((hi - lo) / 8)).all (· == 0)

/-- The feed configuration of an image, in the order of R270. -/
def imgFeed (ws : List Word) (i : Nat) : Word := if i = 0 then imgWord ws 0x10 else if i = 1 then imgWord ws 0x08 else imgWord ws (0x08 + 8 * i)

/-- A bit that the layout does not name is set. -/
def ctxReserved (ws : List Word) : Bool :=
  let off (a : Nat) (ok : Word) : Bool := imgWord ws a &&& ~~~ok != 0
  off 0 (bitsOf 0 12 ||| bitsOf 16 21) || feedReserved (imgFeed ws) || off 0x30 (bitsOf 0 32) ||
    off 0x38 (bitsOf 0 3 ||| bitsOf 32 32) || off 0x240 (bitsOf 0 8) || off 0x248 0 ||
    ((List.range 5).any fun t => off (0x250 + 16 * t) (bitsOf 16 4 ||| bitsOf 0 13)) || off 0x2F0 (bitsOf 0 52) ||
    off 0x2F8 0 ||
    ((List.range 16).any fun i => imgWord ws (0xA40 + 8 * (i / 2)) &&& 0xF000F000F000F000 != 0) ||
    ((List.range 32).any fun b => off (0x800 + 16 * b) (bitsOf 20 15 ||| bitsOf 0 19) ||
      off (0x808 + 16 * b) (bitsOf 24 7 ||| bitsOf 16 7 ||| bitsOf 8 6 ||| bitsOf 0 6)) ||
    off 0xA98 0 || !imgZero ws 0xAA0 0xC00 ||
    ((List.range 32).any fun i => off (0xC00 + 24 * i) (bitsOf 48 16 ||| bitsOf 32 13 ||| bitsOf 16 13 ||| bitsOf 0 3)) ||
    !imgZero ws 0xF00 0x1000 || !imgZero ws 0x3800 0x4000

/-- The ring of a stream after a load. The words of an A or X section are not in the image: `words` is what is kept of them. -/
def loadRing (ws : List Word) (t : Nat) (ended : Bool) (words : Option Nat) (free : Word) : Ring :=
  let w := imgWord ws (0x250 + 16 * t)
  let p := imgWord ws (0x258 + 16 * t)
  let size := field w 16 4
  let base := field w 0 13
  let has := decide (4 ≤ size.toNat)
  let count := if !has || 2 ≤ t then 0 else words.getD (1 + free.toNat % 2 ^ size.toNat)
  { base := base, size := size, fetch := field p 0 32, pub := field p 32 32, count := count, started := has,
    ended := ended, entry := has }

/-- The range file of an image. -/
def imgFile (ws : List Word) : List RangeSet :=
  tabulate 32 fun i => rangeSetOf (words8 ((ws.drop (0x1800 / 8 + 32 * i)).take 32))

/-- The slack regions of an image. -/
def loadRegions (ws : List Word) : List Region :=
  (List.range 32).filterMap fun i =>
    let w := imgWord ws (0xC00 + 24 * i)
    if field w 16 13 = 0 then none
    else some { slack := field w 48 16, first := field w 32 13, count := field w 16 13, strm := field w 0 3,
                due := imgWord ws (0xC08 + 24 * i), stepBy := imgWord ws (0xC10 + 24 * i) }

/-- Flags by virtual number, onto the physical flags of the FLAG_MAP in place (R61, R401). -/
def Core.loadFlags (k : Core) (ws : List Word) : Core :=
  (List.range 64).foldl (fun k v =>
    match flagIdx k.flagNum k.flagBase (BitVec.ofNat 6 v) with
    | some i => { k with flags := vset k.flags i (Flag.ofWord (imgWord ws (0x600 + 8 * v))) }
    | none => k) k

/-- An engine after a load: its shadow and live descriptors zero, its buffer empty, its LFSR from the image. -/
def loadEngine (q : BitVec 32) : Engine := { Engine.reset with lfsr := q }

/-- The accumulators of an image. -/
def loadAcc (bs : List Byte) : SMap (BitVec 32) :=
  ((wordsOf 16384 bs).zip (List.range 16384)).foldr (fun e m =>
    let lo : BitVec 32 := field e.1 0 32
    let hi : BitVec 32 := field e.1 32 32
    let m := if hi = 0 then m else (2 * e.2 + 1, hi) :: m
    if lo = 0 then m else (2 * e.2, lo) :: m) []

/-- A memory that holds given bytes from address 0. -/
def memOfBytes (bs : List Byte) : Memory :=
  (bs.zip (List.range bs.length)).foldr (fun e m => if e.1 = 0 then m else (e.2, e.1) :: m) []

/-- What a load takes beyond the image: the range set, the cycle, what was kept of the sections, free values. -/
structure LoadArgs where
  set : RangeSet
  cycle : Nat
  kept : Option Saved
  free : Nat → Word

/-- A core after CTXLD: the context of the image, at its saved positions, with the A stream out of the handler. The words
of the sections, CODE_HASH and the advertisement are those kept at the save, and free values where nothing is kept (log 39). -/
def Core.loadCtx (k : Core) (ws : List Word) (acc : List Byte) (spad : Option (List Byte)) (x : LoadArgs) : Core :=
  let w0 := imgWord ws 0
  let budget := imgHalf ws 0xA94
  let k1 : Core := { k with
    ctx := field w0 0 12, priv := false, wdone := bit w0 34, aSafe := none, safeAt := none, wireInHandler := false,
    stageCtr := imgHalf ws 0x30, round := field (imgWord ws 0x38) 0 3, srSeed := imgHalf ws 0x3C,
    a := Vector.ofFn fun i => if i.val = 0 || i.val = 31 then 0 else imgWord ws (0x40 + 8 * i.val),
    x := Vector.ofFn fun i => if i.val = 0 || i.val = 31 then 0 else imgWord ws (0x140 + 8 * i.val),
    p := Vector.ofFn fun i => bit (imgWord ws 0x240) i.val, ax := [], xa := [],
    fmtSlot := Vector.ofFn fun i => imgHalf ws (0x2A0 + 4 * i.val),
    owner := Vector.ofFn fun i => bit (imgWord ws (0x2E0 + 8 * (i.val / 64))) (i.val % 64),
    bankFmt := Vector.ofFn fun i => imgHalf ws (0x300 + 4 * i.val),
    bobbins := Vector.ofFn fun i =>
      ({ Bobbin.reset with config := imgWord ws (0x800 + 16 * i.val) &&& (bitsOf 20 15 ||| bitsOf 0 19) } : Bobbin).putState
        (imgWord ws (0x808 + 16 * i.val)),
    header := Vector.ofFn fun i => imgWord ws (0xA00 + 8 * i.val), current := bit w0 33,
    rangeTags := tabulate 32 fun i => field (imgWord ws (0xA40 + 8 * (i / 4))) (16 * (i % 4)) 12,
    rangeFile := imgFile ws,
    passId := imgHalf ws 0xA90, budget := budget, budgetAt := x.cycle,
    budgetArmed := bit w0 33 && budget != 0, regions := loadRegions ws,
    passMem := Vector.ofFn fun i => imgWord ws (0x1000 + 8 * i.val),
    rings := Vector.ofFn fun t => loadRing ws t.val
      (if t.val = 0 then bit w0 35 else if t.val = 1 then bit w0 36 else false)
      (x.kept.map fun v => if t.val = 0 then v.aCount else v.xCount) (x.free t.val),
    xLfsr := imgHalf ws 0xA80, xReload := false, xHalt := none, xProg := [], aMoves := [],
    m := loadEngine (imgHalf ws 0xA84), v := loadEngine (imgHalf ws 0xA88), c := loadEngine (imgHalf ws 0xA8C),
    acc := loadAcc acc, accMode := Vector.ofFn fun i => bit (imgWord ws 0x2F0) (48 + i.val),
    accErr := [], stages := Vector.replicate 2 none, metaQ := Vector.replicate 4 { mode := false, entries := [] },
    windows := Vector.replicate 4 none, sched := none, marks := Vector.replicate 4 none, monitor := none, finc := false,
    stalled := Vector.replicate 5 false, recv := [], handover := none, rangeSet := x.set, loaded := true,
    codeHash := (x.kept.map (·.codeHash)).getD (x.free 3), advert := (x.kept.map (·.advert)).getD (bit (x.free 2) 4) }
  let k2 := { k1.loadFlags ws with
    parkedOwners := ((k1.blocks.filter k1.rbtParked).map k1.rbtOwner).eraseDups }
  match spad with
  | some bs => { k2 with spad := memOfBytes bs, spadErr := [] }
  | none => k2

/-- What was kept for an image at `la`, if it is of that owner and those rings. -/
def State.keptFor (s : State) (la : Nat) (ws : List Word) : Option Saved :=
  (mapGet s.saves la).filter fun v =>
    v.owner == field (imgWord ws 0) 0 12 && v.aRing == imgWord ws 0x250 && v.xRing == imgWord ws 0x260

/-- The away entry of a core under HOLD for a tag. -/
def Core.holdFor (k : Core) (owner : Tag) : Option Nat :=
  (List.range 8).find? fun i => (vget k.away i).mode == 2 && (vget k.away i).owner == owner

/-- One addition that was held is decided; one that must wait goes on its way again. -/
def releaseHeld (c : CoreId) (owner : Tag) (h : Held) : M Unit := fun s =>
  let x : Remote := { held := h, target := c, owner := owner }
  match decideRemote x s with
  | .ok _ s' => .ok () s'
  | .error (.halt f) s' => .error (.halt f) s'
  | .error _ _ => .ok () { s with remotes := s.remotes ++ [x] }

/-- The entry under HOLD for the loaded tag is freed and its additions are applied in their order (R405). -/
def freeHold (c : CoreId) (owner : Tag) : M Unit := do
  let s ← getState
  let k := s.core c
  match k.holdFor owner with
  | none => pure ()
  | some i => do
    modState fun s => s.onCore c fun k => { k with away := vset k.away i Away.reset }
    (vget k.away i).held.forM (releaseHeld c owner)

def execCtxld (h : Hdr) (o : CtxOp) (s : State) : Out :=
  runA (.ctxld h o) h true noBad (do
    let va ← rdA o.s1
    let la ← ctxPlace va o.spad true
    let s ← getState
    let p := panelOf s.cur
    let b ← memRead p 0 la 147456 0
    let ws := wordsOf 2048 b
    let owner : Tag := field (imgWord ws 0) 0 12
    let got ← attempt (readRangeSet p owner)
    let setBad := match got with
      | .ok set => set.any RangeReg.bad
      | .error _ => false
    if ctxReserved ws || (imgFile ws).any (·.any RangeReg.bad) || setBad then raise 0x02 0 s1Mask 0
    if decide (5 ≤ (field (imgWord ws 0x38) 0 3).toNat) || !feedOk (imgFeed ws) then raise 0x04 0 s1Mask 0
    let sp ← (if o.spad then do
        let d ← memRead p 0 (la + 147456) 786432 0
        pure (some d)
      else pure none)
    let set ← (match got with
      | .ok set => pure set
      | .error f => throw (.fault f))
    let f0 ← freeWord
    let f1 ← freeWord
    let f2 ← freeWord
    let f3 ← freeWord
    let x : LoadArgs := { set := set, cycle := s.cycle, kept := s.keptFor la ws, free := fun i => [f0, f1, f2, f3].getD i 0 }
    modState fun s => s.orphan s.cur
    modCore fun k => k.loadCtx ws (b.drop 16384) sp x
    modState fun s => s.installFeed s.cur (feedOf s (s.core s.cur).feed (imgFeed ws))
    modState fun s => (s.dropWire s.cur).syncWire s.cur
    let s ← getState
    freeHold s.cur owner
    modState fun s => s.assignAll (gathOf s.cur)
    pure .stay) s

end Sys2Proof.Machine
end

