-- ==== Sys2Proof/Machine/Sha.lean ====
section
/-! DEFINITION. SHA-512 (FIPS 180-4), which gives CODE_HASH (spec 12 R218) and the measurements of the boot (spec 11
R194). -/

namespace Sys2Proof.Machine

/-- The first eighty primes. -/
def shaPrimes : List Nat :=
  [2, 3, 5, 7, 11, 13, 17, 19, 23, 29, 31, 37, 41, 43, 47, 53, 59, 61, 67, 71] ++
  [73, 79, 83, 89, 97, 101, 103, 107, 109, 113, 127, 131, 137, 139, 149, 151, 157, 163, 167, 173] ++
  [179, 181, 191, 193, 197, 199, 211, 223, 227, 229, 233, 239, 241, 251, 257, 263, 269, 271, 277, 281] ++
  [283, 293, 307, 311, 313, 317, 331, 337, 347, 349, 353, 359, 367, 373, 379, 383, 389, 397, 401, 409]

/-- The greatest r with r ^ k at most n, among numbers below 2 ^ bits added to `r`. -/
def rootFrom (k n : Nat) : Nat → Nat → Nat
  | 0, r => r
  | b + 1, r => rootFrom k n b (if (r + 2 ^ b) ^ k ≤ n then r + 2 ^ b else r)

/-- The first 64 bits of the fractional part of a k-th root. -/
def rootFraction (k p : Nat) : Word := w64 (rootFrom k (p * 2 ^ (64 * k)) 70 0)

/-- The round constants: cube roots of the primes. -/
def shaK : List Word := shaPrimes.map (rootFraction 3)

/-- The eight working words. -/
structure Sha where
  a : Word
  b : Word
  c : Word
  d : Word
  e : Word
  f : Word
  g : Word
  h : Word
  deriving DecidableEq, Repr, Inhabited

/-- The first hash value: square roots of the first eight primes. -/
def Sha.start : Sha :=
  let r (i : Nat) : Word := rootFraction 2 (shaPrimes.getD i 0)
  { a := r 0, b := r 1, c := r 2, d := r 3, e := r 4, f := r 5, g := r 6, h := r 7 }

def Sha.add (x y : Sha) : Sha :=
  { a := x.a + y.a, b := x.b + y.b, c := x.c + y.c, d := x.d + y.d, e := x.e + y.e, f := x.f + y.f, g := x.g + y.g,
    h := x.h + y.h }

def rotr (w : Word) (n : Nat) : Word := w.rotateRight n

/-- One round with its constant and its message word. -/
def Sha.round (x : Sha) (k w : Word) : Sha :=
  let s1 := rotr x.e 14 ^^^ rotr x.e 18 ^^^ rotr x.e 41
  let ch := (x.e &&& x.f) ^^^ (~~~x.e &&& x.g)
  let t1 := x.h + s1 + ch + k + w
  let s0 := rotr x.a 28 ^^^ rotr x.a 34 ^^^ rotr x.a 39
  let maj := (x.a &&& x.b) ^^^ (x.a &&& x.c) ^^^ (x.b &&& x.c)
  { a := t1 + (s0 + maj), b := x.a, c := x.b, d := x.c, e := x.d + t1, f := x.e, g := x.f, h := x.g }

/-- The message schedule, last word first, with `n` words more. -/
def shaSchedule : Nat → List Word → List Word
  | 0, r => r
  | n + 1, r =>
    let x := r.getD 14 0
    let y := r.getD 1 0
    let s0 := rotr x 1 ^^^ rotr x 8 ^^^ (x >>> 7)
    let s1 := rotr y 19 ^^^ rotr y 61 ^^^ (y >>> 6)
    shaSchedule n ((s1 + r.getD 6 0 + s0 + r.getD 15 0) :: r)

/-- A word of eight bytes, the first highest. -/
def beWord (bs : List Byte) : Word := wordOf bs.reverse

/-- One block of 128 bytes. -/
def Sha.block (x : Sha) (bs : List Byte) : Sha :=
  let m := tabulate 16 fun i => beWord (bs.drop (8 * i) |>.take 8)
  let w := (shaSchedule 64 m.reverse).reverse
  ((shaK.zip w).foldl (fun s e => s.round e.1 e.2) x).add x

def shaBlocks : Nat → Sha → List Byte → Sha
  | 0, x, _ => x
  | n + 1, x, bs => shaBlocks n (x.block (bs.take 128)) (bs.drop 128)

/-- The padded message. -/
def shaPad (bs : List Byte) : List Byte :=
  let z := (239 - bs.length % 128) % 128
  bs ++ [0x80] ++ List.replicate z 0 ++ (bytesOfNat 16 (8 * bs.length)).reverse

/-- The 64 bytes of a digest. -/
def sha512 (bs : List Byte) : List Byte :=
  let p := shaPad bs
  let x := shaBlocks (p.length / 128) Sha.start p
  ([x.a, x.b, x.c, x.d, x.e, x.f, x.g, x.h].map fun w => (bytesOfW 8 w).reverse).flatten

end Sys2Proof.Machine
end

