-- ==== Sys2Proof/Machine/Image.lean ====
section
/-! DEFINITION. The .bvx image: its layout, and the conditions under which the loader accepts one (spec 12 R218 to
R222). -/

namespace Sys2Proof.Machine

/-! ## Header and section table (R218, R219) -/

/-- The word at a byte offset of an image. -/
def bvxWord (img : List Byte) (off : Nat) : Word := wordOf (img.drop off |>.take 8)

/-- A section table entry. -/
structure Sect where
  w0 : Word
  off : Nat
  size : Nat
  addr : Word
  deriving DecidableEq, Repr, Inhabited

def Sect.count (e : Sect) : Nat := (field e.w0 32 32).toNat
def Sect.ringlog (e : Sect) : Nat := (field e.w0 16 4).toNat
def Sect.stream (e : Sect) : Nat := (field e.w0 8 3).toNat
def Sect.type (e : Sect) : Nat := (field e.w0 0 8).toNat
def Sect.hasEntry (e : Sect) : Bool := bit e.addr 63
def Sect.entry (e : Sect) : Nat := (field e.addr 0 13).toNat

/-- NSECT. -/
def bvxCount (img : List Byte) : Nat := (field (bvxWord img 16) 0 16).toNat

/-- The section table. -/
def bvxSects (img : List Byte) : List Sect :=
  tabulate (bvxCount img) fun i =>
    let w (j : Nat) : Word := bvxWord img (64 + 32 * i + 8 * j)
    { w0 := w 0, off := (w 1).toNat, size := (w 2).toNat, addr := w 3 }

/-- The contents of a section. -/
def bvxBytes (img : List Byte) (e : Sect) : List Byte := img.drop e.off |>.take e.size

/-- The items of every section of a type, `n` bytes each. -/
def bvxItems (img : List Byte) (type n : Nat) : List (List Byte) :=
  ((bvxSects img).filter (·.type == type)).flatMap fun e =>
    tabulate e.count fun i => (bvxBytes img e).drop (n * i) |>.take n

/-- The header. -/
def headerOk (img : List Byte) : Bool :=
  bvxWord img 0 == 0x0000000100585642 && field (bvxWord img 16) 16 48 == 0 && decide (1 ≤ bvxCount img) &&
    decide (bvxCount img ≤ 64) && bvxWord img 24 == w64 img.length && decide (img.length < 2 ^ 32) &&
    ([32, 40, 48, 56].all fun o => bvxWord img o == 0)

/-- Bytes of an item of a section whose COUNT gives its SIZE. -/
def itemBytes (type : Nat) : Option Nat :=
  match type with
  | 1 | 6 => some 8
  | 4 => some 16
  | 5 => some 32
  | 7 => some 24
  | _ => none

/-- Bank data lies in the data banks, or in their side stores at the offsets of R82 (log 40). -/
def bankPlace (addr : Word) (size : Nat) : Bool :=
  field addr 20 44 == 0 &&
    (decide (addr.toNat + size ≤ 720896) || (decide (0xE0000 ≤ addr.toNat) && decide (addr.toNat + size ≤ 0xE5800)))

/-- One entry: its reserved fields, its limits, its place in the file. DESIGN CHOICE (log 160): an entry word index that is not below
COUNT is refused. -/
def sectOk (img : List Byte) (e : Sect) : Bool :=
  field e.w0 20 12 == 0 && field e.w0 11 5 == 0 && decide (1 ≤ e.type) && decide (e.type ≤ 8) &&
    (if e.type = 1 then
      decide (4 ≤ e.ringlog) && decide (e.ringlog ≤ 13) && decide (e.count ≤ 2 ^ e.ringlog) && decide (e.stream ≤ 4) &&
        field e.addr 13 50 == 0 && (!e.hasEntry || decide (e.entry < e.count))
    else e.ringlog == 0 && e.stream == 0 &&
      (if e.type = 2 then true
       else if e.type = 3 then bankPlace e.addr e.size
       else e.addr == 0)) &&
    e.off % 64 == 0 && decide (64 + 32 * bvxCount img ≤ e.off) && decide (e.off + e.size ≤ img.length) &&
    (match itemBytes e.type with
     | some n => e.size == n * e.count
     | none => true)

/-- Sections do not overlap. -/
def apart : List Sect → Bool
  | [] => true
  | e :: es => (es.all fun f => decide (e.off + e.size ≤ f.off) || decide (f.off + f.size ≤ e.off)) && apart es

/-- The section table: the signature comes last, and no stream has two sections. -/
def tableOk (img : List Byte) : Bool :=
  let es := bvxSects img
  es.all (sectOk img) && apart es && (es.filter (·.type == 8)).length == 1 &&
    (match es.getLast? with
     | some g => g.type == 8 && g.size == 512 && es.all fun e => decide (e.off ≤ g.off)
     | none => false) &&
    ([0, 1, 2, 3, 4].all fun t => decide ((es.filter fun e => e.type == 1 && e.stream == t).length ≤ 1))

/-- The section of a stream. -/
def bvxStream (img : List Byte) (t : Nat) : Option Sect := (bvxSects img).find? fun e => e.type == 1 && e.stream == t

/-- The words of a stream's section. -/
def bvxCode (img : List Byte) (t : Nat) : List Word :=
  match bvxStream img t with
  | some e => wordsOf e.count (bvxBytes img e)
  | none => []

/-- CODE_HASH of the stream sections. -/
def bvxHash (img : List Byte) : Word :=
  wordOf ((sha512 ((List.range 5).flatMap fun t => words8 (bvxCode img t))).take 8)

/-- The signature under the key registered for a context. -/
def bvxSigned (ctx : Tag) (img : List Byte) : Bool :=
  match (bvxSects img).getLast? with
  | some g => Config.pssVerify (1 + ctx.toNat) (img.take g.off) (BitVec.ofNat 4096 (natOfBytes (bvxBytes img g)))
  | none => false

/-! ## Contents (R220) -/

/-- A sync entry. -/
def syncFlag (b : List Byte) : BitVec 6 := field (bvxWord b 0) 8 6
def syncOk (num : BitVec 7) (b : List Byte) : Bool :=
  let w := bvxWord b 0
  field w 14 2 == 0 && !bit w 7 && !bit w 3 && decide ((field w 4 3).toNat ≤ 4) && decide ((field w 0 3).toNat ≤ 4) &&
    bvxWord b 8 == 0 && decide ((field w 32 16).toNat ≤ (field w 48 16).toNat) && decide ((syncFlag b).toNat < num.toNat)

/-- The sync entries: no two share a token number or a flag. -/
def syncsOk (num : BitVec 7) (es : List (List Byte)) : Bool :=
  es.all (syncOk num) && decide (es.length ≤ 64) && decide ((es.map syncFlag).Nodup) &&
    decide ((es.map fun b => field (bvxWord b 0) 16 16).Nodup)

/-- A format preload. -/
def preloadOk (b : List Byte) : Bool :=
  let w := bvxWord b 0
  field w 8 24 == 0 && decide ((field w 0 8).toNat ≤ 175) && (Fmt.parse (field w 32 32)).isSome

/-- A region entry. -/
def regionOf24 (b : List Byte) : Region :=
  let w := bvxWord b 0
  { slack := field w 48 16, first := field w 32 13, count := field w 16 13, strm := field w 0 3, due := bvxWord b 8,
    stepBy := bvxWord b 16 }

def regionReserved (b : List Byte) : Bool :=
  let w := bvxWord b 0
  field w 45 3 != 0 || field w 29 3 != 0 || field w 3 13 != 0

/-- Two regions of one stream meet. -/
def regionsMeet (x y : Region) : Bool :=
  x.strm == y.strm && decide (x.first.toNat < y.first.toNat + y.count.toNat) &&
    decide (y.first.toNat < x.first.toNat + x.count.toNat)

def regionsApart : List Region → Bool
  | [] => true
  | x :: xs => !xs.any (regionsMeet x) && regionsApart xs

def regionsOk (img : List Byte) : Bool :=
  let bs := bvxItems img 7 24
  let rs := bs.map regionOf24
  !bs.any regionReserved && decide (rs.length ≤ 32) && regionsApart rs &&
    rs.all fun r => (bvxStream img r.strm.toNat).isSome && decide (r.first.toNat + r.count.toNat ≤ (bvxCode img r.strm.toNat).length)

/-! ## Control flow (R214, R221, R222) -/

/-- Where a word of a section goes on: the next word, an offset, and its safe-point number if it is a SAFE. A JR ends its
path. -/
structure PathStep where
  falls : Bool
  off : Option Int
  safe : Option (BitVec 16)
  deriving DecidableEq, Repr, Inhabited

def pathStep (t : Strm) (w : Word) : PathStep :=
  match decodeWord t w with
  | .word (.beq _ o) _ | .word (.bne _ o) _ | .word (.blt _ o) _ | .word (.bge _ o) _ =>
    { falls := true, off := some o.off.toInt, safe := none }
  | .word (.brp _ o) _ => { falls := true, off := some o.off.toInt, safe := none }
  | .word (.loop _ o) _ => { falls := true, off := some o.off.toInt, safe := none }
  | .word (.aJmp _ o) _ | .word (.xJmp _ o) _ => { falls := false, off := some o.imm.toInt, safe := none }
  | .word (.aJr _ _) _ | .word (.xJr _ _) _ => { falls := false, off := none, safe := none }
  | .word (.aSafe _ n) _ | .word (.xSafe _ n) _ => { falls := true, off := none, safe := some n }
  | _ => { falls := true, off := none, safe := none }

/-- The words that may follow word `i`; the length of the section stands for its end. -/
def nextOf (g : PathStep) (i : Nat) : List Nat :=
  (if g.falls then [i + 1] else []) ++ (match g.off with
    | some o => [(aimAt i o).toNat]
    | none => [])

/-- Every target lies in its section. -/
def targetsOk (gs : List PathStep) : Bool :=
  (gs.zip (List.range gs.length)).all fun e =>
    match e.1.off with
    | some o => inSection gs.length (aimAt e.2 o)
    | none => true

/-- The words reached in one step from words of `from0` that are no SAFE. -/
def stepOver (gs : List PathStep) (from0 : List Nat) : List Nat :=
  (from0.flatMap fun i =>
    match gs[i]? with
    | some g => if g.safe.isSome then [] else nextOf g i
    | none => []).eraseDups

/-- The words reached after exactly `n` steps. -/
def stepsOver (gs : List PathStep) : Nat → List Nat → List Nat
  | 0, s => s
  | n + 1, s => stepsOver gs n (stepOver gs s)

/-- Every cycle contains a SAFE: without them no path is as long as the section. -/
def cyclesOk (gs : List PathStep) : Bool := (stepsOver gs (gs.length + 1) (List.range gs.length)).isEmpty

/-- A set of words as word number 2,049 of a path and later holds none that `stop` names. -/
def pathsShort (gs : List PathStep) (stop : Nat → Bool) : Nat → List Nat → Bool
  | 0, _ => true
  | n + 1, s => !s.any stop && pathsShort gs stop n (stepOver gs s)

/-- Word `i` is a SAFE. -/
def safeAtWord (gs : List PathStep) (i : Nat) : Bool :=
  match gs[i]? with
  | some g => g.safe.isSome
  | none => false

/-- The words of a section that are SAFEs. -/
def safeWords (gs : List PathStep) : List Nat := (List.range gs.length).filter (safeAtWord gs)

/-- No path from the entry to a SAFE, or from a SAFE to the next or to the end, passes more than 2,048 words. -/
def depthOk (gs : List PathStep) (entry : Option Nat) : Bool :=
  let n := gs.length
  let fromEntry := match entry with
    | some e => pathsShort gs (safeAtWord gs) (n - 2048) (stepsOver gs 2048 [e])
    | none => true
  fromEntry && (safeWords gs).all fun i =>
    pathsShort gs (safeAtWord gs) (n - 2048) (stepsOver gs 2048 [i + 1]) &&
      pathsShort gs (· == n) (n - 2049) (stepsOver gs 2049 [i + 1])

/-- The words reached from some words without passing a SAFE. -/
def reachOver (gs : List PathStep) : Nat → List Nat → List Nat
  | 0, s => s
  | n + 1, s => reachOver gs n ((s ++ stepOver gs s).eraseDups)

/-- The numbers of the SAFEs that a path meets first. -/
def firstSafes (gs : List PathStep) (from0 : List Nat) : List (BitVec 16) :=
  (reachOver gs gs.length from0).filterMap fun i => (gs[i]?).bind (·.safe)

/-- The safe points that two sections may meet next agree; a section whose paths all end first meets none (R27). -/
def sameNumbers (xs ys : List (BitVec 16)) : Bool :=
  xs.isEmpty || ys.isEmpty || (xs.all ys.contains && ys.all xs.contains)

/-- The place of a safe point in a section. -/
def safePlace (gs : List PathStep) (n : BitVec 16) : Option Nat := gs.findIdx? fun g => g.safe == some n

/-- A section with only the SAFEs whose number stands in both: two SAFEs of one number form a safe point (R221). -/
def shared (gs os : List PathStep) : List PathStep :=
  gs.map fun g => { g with safe := g.safe.filter fun n => os.any fun o => o.safe == some n }

/-- Both sections meet the same safe points next: from the entry, and from each safe point. -/
def ordersOk (ga0 gx0 : List PathStep) (ea ex : Option Nat) : Bool :=
  let ga := shared ga0 gx0
  let gx := shared gx0 ga0
  let nums := ga.filterMap (·.safe)
  let after (gs : List PathStep) (n : BitVec 16) : List (BitVec 16) :=
    match safePlace gs n with
    | some i => firstSafes gs [i + 1]
    | none => []
  sameNumbers (firstSafes ga ea.toList) (firstSafes gx ex.toList) && nums.all fun n =>
    sameNumbers (after ga n) (after gx n)

/-- An entry of the safe-point map: reserved bits, empty queues, and the words it names. -/
def safeEntryOk (ga gx : List PathStep) (b : List Byte) : Bool :=
  let w0 := bvxWord b 0
  let w1 := bvxWord b 8
  let w2 := bvxWord b 16
  let w3 := bvxWord b 24
  let n : BitVec 16 := field w0 0 16
  let names (gs : List PathStep) (i : Nat) : Bool :=
    match gs[i]? with
    | some g => g.safe == some n
    | none => false
  field w0 18 46 == 0 && field w1 29 35 == 0 && field w1 13 3 == 0 && w2 &&& 0x8000000180000001 == 0 &&
    field w3 24 40 == 0 && !bit w3 0 && field w3 8 16 == 0 &&
    (!bit w0 16 || names ga (field w1 0 13).toNat) && (!bit w0 17 || names gx (field w1 16 13).toNat)

/-- A section's entry word. -/
def bvxEntry (img : List Byte) (t : Nat) : Option Nat :=
  match bvxStream img t with
  | some e => if e.hasEntry then some e.entry else none
  | none => none

/-- The conditions on the code of the A and X sections. -/
def flowOk (img : List Byte) : Bool :=
  let ga := (bvxCode img 0).map (pathStep .a)
  let gx := (bvxCode img 1).map (pathStep .x)
  let one (gs : List PathStep) (e : Option Nat) : Bool :=
    targetsOk gs && cyclesOk gs && depthOk gs e && decide ((gs.filterMap (·.safe)).Nodup)
  one ga (bvxEntry img 0) && one gx (bvxEntry img 1) && (bvxItems img 5 32).all (safeEntryOk ga gx) &&
    ((bvxStream img 0).isNone || (bvxStream img 1).isNone || ordersOk ga gx (bvxEntry img 0) (bvxEntry img 1))

/-- The ring sizes of the stream sections total at most 8,192 words. -/
def ringsOk (img : List Byte) : Bool :=
  decide ((((bvxSects img).filter (·.type == 1)).map fun e => 2 ^ e.ringlog).sum ≤ 8192)

/-- The conditions of R222 that need neither memory nor a key. -/
def imageOk (num : BitVec 7) (img : List Byte) : Bool :=
  headerOk img && tableOk img && bvxWord img 8 == bvxHash img && ringsOk img && syncsOk num (bvxItems img 4 16) &&
    (bvxItems img 6 8).all preloadOk && regionsOk img && flowOk img

end Sys2Proof.Machine
end

