-- ==== Sys2Proof/Machine/Loader.lean ====
section
/-! DEFINITION. Loading a program onto a core and starting its streams (spec 02 R27, R28, 04 R64, R79, R81, 12 R222,
R223). -/

namespace Sys2Proof.Machine

/-! ## Placement (R222, R223) -/

/-- The rings of an image at the bases given: multiples of their sizes, inside the ring banks, apart. -/
def basesOk (img : List Byte) (bases : List (BitVec 13)) : Bool :=
  let rs := (List.range 5).filterMap fun t => (bvxStream img t).map fun e => ((bases.getD t 0).toNat, 2 ^ e.ringlog)
  (rs.all fun r => r.1 % r.2 == 0 && decide (r.1 + r.2 ≤ 8192)) &&
    (List.range rs.length).all fun i => (List.range i).all fun j =>
      let x := rs.getD i (0, 0)
      let y := rs.getD j (0, 0)
      decide (x.1 + x.2 ≤ y.1) || decide (y.1 + y.2 ≤ x.1)

/-- A valid page with W covers a lining address. -/
def State.pageTakes (s : State) (la : Nat) : Bool :=
  let ctl := vget s.mem.ctls (xlatCtl (la / 64))
  if !ctl.en then pteW (Config.bootPage (la / 65536))
  else
    match s.walk (xlatCtl (la / 64)) la with
    | some l => pteW l.pte
    | none => false

/-- A data section written through the context's set: its pieces, each within one line. -/
def placeData (p : Nat) (ctx : Tag) (set : RangeSet) : Nat → Word → List Byte → M Unit
  | 0, _, _ => pure ()
  | fuel + 1, va, bs =>
    if bs.isEmpty then pure ()
    else do
      let k := min bs.length (64 - va.toNat % 64)
      match rangeTranslate set va k 2 with
      | .bad cls d0 => raise cls 0 d0 2
      | .ok la => do
        let s ← getState
        if 1 < regionOf la || !s.pageTakes la then raise 0x13 la va 0
        memWrite p ctx la (bs.take k) va .whole
        placeData p ctx set fuel (va + w64 k) (bs.drop k)

/-- Every data section is written. -/
def placeAll (p : Nat) (ctx : Tag) (set : RangeSet) (img : List Byte) : M Unit :=
  ((bvxSects img).filter (·.type == 2)).forM fun e =>
    placeData p ctx set (e.size / 64 + 2) e.addr (bvxBytes img e)

/-- The ring of a stream as the loader sets it. -/
def bvxRing (img : List Byte) (bases : List (BitVec 13)) (t : Nat) : Ring :=
  match bvxStream img t with
  | none => Ring.reset
  | some e =>
    { Ring.reset with
      base := bases.getD t 0, size := BitVec.ofNat 4 e.ringlog, count := e.count, entry := e.hasEntry,
      fetch := if e.hasEntry then BitVec.ofNat 32 e.entry else 0,
      pub := if e.hasEntry && decide (2 ≤ t) then BitVec.ofNat 32 e.count else 0 }

/-- A core's program-visible state reset; its FLAG_MAP, handler ring, feed ring and fault control registers are firmware's. -/
def Core.clear (k : Core) : Core :=
  { Core.reset with
    flagNum := k.flagNum, flagBase := k.flagBase, handler := k.handler, away := k.away, sigDrop := k.sigDrop,
    lsSched := k.lsSched, lsEn := k.lsEn, lsGroup := k.lsGroup, lsStart := k.lsStart, feed := k.feed, scnt := k.scnt,
    scntAt := k.scntAt, movedAt := k.movedAt, winClk := k.winClk, arbAt := k.arbAt, arbRank := k.arbRank }

/-- Bank data of the scratchpad, or of the side stores, whose offsets start at `base`. -/
def bvxBanks (img : List Byte) (base : Nat) (side : Bool) : Memory :=
  ((bvxSects img).filter fun e => e.type == 3 && decide (0xE0000 ≤ e.addr.toNat) == side).foldl
    (fun m e => setBytes m (e.addr.toNat - base) (bvxBytes img e)) []

/-- Bank data and stream words in the scratchpad. -/
def bvxSpad (img : List Byte) (bases : List (BitVec 13)) : Memory :=
  let banks := bvxBanks img 0 false
  (List.range 5).foldl (fun m t => setBytes m (720896 + 8 * (bases.getD t 0).toNat) (words8 (bvxCode img t))) banks

/-- The flags of the sync table on a core at reset. -/
def Core.syncFlags (k : Core) (es : List (List Byte)) : Core :=
  es.foldl (fun k b =>
    match flagIdx k.flagNum k.flagBase (syncFlag b) with
    | some i =>
      let w := bvxWord b 0
      { k with flags := vset k.flags i { vget k.flags i with ceil := field w 48 16, count := field w 32 16 } }
    | none => k) k

/-- A core with an image placed; no stream has started. -/
def Core.place (k : Core) (ctx : Tag) (set : RangeSet) (img : List Byte) (bases : List (BitVec 13)) : Core :=
  let k1 := { k.clear with
    ctx := ctx, rangeSet := set, loaded := true, advert := true, codeHash := bvxHash img,
    spad := bvxSpad img bases, side := bvxBanks img 0xE0000 true, rings := Vector.ofFn fun t => bvxRing img bases t.val,
    bankFmt := (bvxItems img 6 8).foldl
      (fun v b => vset v (field (bvxWord b 0) 0 8).toNat (field (bvxWord b 0) 32 32)) Core.reset.bankFmt,
    regions := (bvxItems img 7 24).map regionOf24 }
  k1.syncFlags (bvxItems img 4 16)

/-- The loader's acceptance of an image for a core. -/
def State.accepts (s : State) (c : CoreId) (img : List Byte) (bases : List (BitVec 13)) : Bool :=
  s.powered c && imageOk (s.core c).flagNum img && basesOk img bases

/-- The loader places an image under a context; an image that it refuses, as one of a range set with a reserved bit set (R6),
leaves everything as it was. -/
def loadImage (c : CoreId) (ctx : Tag) (img : List Byte) (bases : List (BitVec 13)) : M Unit := do
  let p := panelOf c
  let set ← useRangeSet p ctx
  placeAll p ctx set img
  modState fun s =>
    let s := ((s.orphan c).onCore c fun k => k.place ctx set img bases).syncWire c
    s.assignAll (gathOf c)

/-- The loader takes an image that it holds. -/
def takeImage (core : CoreId) (ctx : Tag) (image : List Byte) (bases : List (BitVec 13)) (s : State) : Out :=
  if s.accepts core image bases && bvxSigned ctx image then runUnit unitLoader (loadImage core ctx image bases) s else .next s

/-- The bytes of an image in a range of its context that grants X (R109). -/
def readImage (p : Nat) (ctx : Tag) (va : Word) (len : Nat) : M (List Byte) := do
  let set ← useRangeSet p ctx
  match rangeTranslate set va len 4 with
  | .bad cls d0 => raise cls 0 d0 4
  | .ok la => if regionOf la ≤ 1 then memRead p ctx la len va else raise 0x04 la 0 0

/-- An image is read where it has to be, checked and placed. -/
def execProgramLoad (core : CoreId) (ctx : Tag) (image : ImageSrc) (bases : List (BitVec 13)) (s : State) : Out :=
  match image with
  | .held bytes => takeImage core ctx bytes bases s
  | .placed va len =>
    match readImage (panelOf core) ctx va len s with
    | .ok bytes s' => takeImage core ctx bytes bases s'
    | .error (.halt f) _ => .fault f
    | .error (.drain h p) _ => .next (s.addDrainAt unitLoader h p)
    | .error _ _ => .next s

/-! ## Starting the streams (R79, R81, R223) -/

/-- SCNT as the streams start: 0 for a core of no group, else the cycles since S. -/
def State.startCount (s : State) (c : CoreId) (k : Core) : Int :=
  if k.lsEn then 4 * (((s.ftOf (panelOf c)).toNat : Int) - k.lsStart.toNat) else 0

/-- The streams of a loaded image that have an entry start. -/
def Core.startStreams (k : Core) : Core :=
  { k with rings := k.rings.map fun r => if r.entry then { r with started := true } else r }

def execStreamsStart (core : CoreId) (s : State) : Out :=
  let k := s.core core
  if !k.loaded || !s.powered core then .next s
  else
    let k' := { k.startStreams with scnt := s.startCount core k, scntAt := s.cycle, scntRun := false }
    .next ((s.setCore core k').syncWire core)

end Sys2Proof.Machine
end

