-- ==== Sys2Proof/Machine/BootOps.lean ====
section
/-! DEFINITION. Module reset and the boot (spec 11 R193 to R196, 26 R412). -/

namespace Sys2Proof.Machine

/-- A word of the configuration record. -/
def recWord (r : List Byte) (off : Nat) : Word := wordOf (r.drop off |>.take 8)

/-- A reserved byte or bit of the configuration record is set (R196). -/
def recReserved (r : List Byte) : Bool :=
  (r.drop 2272 |>.take 1824).any (· != 0) || recWord r 2264 &&& ~~~(bitsOf 0 3 ||| bitsOf 8 1) != 0 ||
    (List.range 1024).any fun c => (natOfBytes (r.drop (16 + 2 * c) |>.take 2)) / 2048 != 0

/-- The clock word holds the module's clocks. -/
def recClocks (r : List Byte) : Bool := recWord r 2256 == 0x0000258000000FA0

/-- The signed part of the record. -/
def recBody (r : List Byte) : List Byte := r.take 4096

/-- The first step of the boot that fails, by its code (R412); 0 where none does. A later stage is checked before it runs. -/
def bootCode (b : BootInput) : BitVec 4 :=
  if !b.keyOk then 7
  else if !Config.pssVerify 0 b.firstStage b.firstSig then 1
  else if !Config.pssVerify 0 (recBody b.config) b.configSig then 2
  else if recReserved b.config then 3
  else if (recWord b.config 8).toNat < b.rollback.toNat then 4
  else if !recClocks b.config then 8
  else if !b.hbmOk then 5
  else if !(b.stages.all fun g => Config.pssVerify 0 g.1 g.2) then 6
  else 0

/-- MREG := SHA-512(MREG ‖ SHA-512(I)) (R194). The first byte of a digest stands lowest. -/
def extendReg (m : BitVec 512) (image : List Byte) : BitVec 512 := lineOf (sha512 (lineBytes m ++ sha512 image))

/-- The stages that are verified and measured before the boot ends: those up to the first whose signature fails. -/
def measured (b : BootInput) : List (List Byte) :=
  (b.stages.takeWhile fun g => Config.pssVerify 0 g.1 g.2).map (·.1)

/-- The measurement registers, by how far the boot came. DESIGN CHOICE (log 158): the configuration record is measured over its first
4,096 bytes, without its signature. -/
def bootRegs (b : BootInput) (code : BitVec 4) : Vector (BitVec 512) 4 :=
  if code = 7 || code = 1 || code = 2 then Vector.replicate 4 0
  else
    let later := if code = 0 || code = 6 then (measured b).foldl extendReg 0 else 0
    Vector.ofFn fun i =>
      if i.val = 0 then extendReg 0 b.firstStage
      else if i.val = 1 then later
      else if i.val = 2 then extendReg 0 (recBody b.config)
      else 0

/-- Bytes placed in the private SRAM, as far as it reaches. -/
def putSram (m : Memory) (at0 : Nat) (bs : List Byte) : Memory := setBytes m at0 (bs.take (2 ^ 23 - at0))

/-- What the boot ROM leaves, however far it comes: the identity key pair, and in private SRAM the images it reads (R193). -/
def Boot.romSteps (x : Boot) (b : BootInput) : Boot :=
  if !b.keyOk then x
  else { x with identity := Config.identity
                sram := putSram (putSram x.sram Config.sramImage b.firstStage) Config.sramRecord b.config }

/-- The configuration record applied (R196). -/
def Boot.apply (x : Boot) (b : BootInput) : Boot :=
  let r := b.config
  { x with module := recWord r 0, ptpPort := field (recWord r 2264) 0 3, timeRoot := bit (recWord r 2264) 8,
           config := recBody r }

/-- A time root's clocks step to the time of the exchange that the boot makes, before EN is set (R188). -/
def State.stepTime (s : State) (t : Option Word) : State :=
  match t with
  | some t => if s.boot.timeRoot then { s with ft := t, ftRep := Vector.replicate 4 t } else s
  | none => s

/-- The module right after a boot that succeeds: the record applied, the translation and roll-up blocks enabled, every hart
running, and each link whose lanes failed DOWN. -/
def bootedState (s : State) (b : BootInput) : State :=
  let s := { s with boot := ((s.boot.romSteps b).apply b) }.stepTime b.ptpTime
  { s with
    boot := { s.boot with mreg := bootRegs b 0, stat := 0, booted := true, monitor := b.monitor }.startHarts
    mem := { s.mem with ctls := s.mem.ctls.map fun q => { q with en := true } }
    tree := { s.tree with engines := s.tree.engines.map fun e => { e with en := true } }
    links := Vector.ofFn fun i => { vget s.links i.val with down := !bit b.lanesOk i.val } }

/-- The module after a boot that fails: its code on STAT, hart 0 stopped, the others in reset, every link down; what the steps
before have done stands. -/
def failedState (s : State) (b : BootInput) (code : BitVec 4) : State :=
  let x := s.boot.romSteps b
  let x := if code = 5 || code = 6 then x.apply b else x
  { s with
    boot := { x with mreg := bootRegs b code, stat := code, harts := 0 }
    links := s.links.map fun l => { l with down := true } }

/-- Module reset: everything is as at reset, and the boot runs. Whose turn it is stands outside the module. -/
def execModuleReset (b : BootInput) (s : State) : Out :=
  let s0 := { State.reset with
    agenda := s.agenda, turnNo := s.turnNo, free := s.free, cur := s.cur }
  let code := bootCode b
  .next (if code = 0 then bootedState s0 b else failedState s0 b code)

end Sys2Proof.Machine
end

