-- ==== Sys2Proof/Machine/Execute.lean ====
section
/-! DEFINITION. The execute unit (spec 15). -/

namespace Sys2Proof.Machine

/-! ## Integer arithmetic (R276, R277) -/

def execXNop (h : Hdr) (s : State) : Out := runX (.xNop h) h noBad (pure .next) s

def execXLi (h : Hdr) (o : LIOp) (s : State) : Out :=
  runX (.xLi h o) h noBad (do wrX o.d (sext64 o.imm); pure .next) s

def execXLih (h : Hdr) (o : LIHOp) (s : State) : Out :=
  runX (.xLih h o) h noBad (do
    let v ← rdX o.d
    wrX o.d (o.imm ++ field v 0 32)
    pure .next) s

/-- A word of two sources and one result. -/
def xBin (i : Instr) (h : Hdr) (d s1 s2 : Reg) (f : Word → Word → Word) (s : State) : Out :=
  runX i h noBad (do
    let x ← rdX s1
    let y ← rdX s2
    wrX d (f x y)
    pure .next) s

/-- A word of one source and one result. -/
def xUn (i : Instr) (h : Hdr) (d s1 : Reg) (f : Word → Word) (s : State) : Out :=
  runX i h noBad (do
    let x ← rdX s1
    wrX d (f x)
    pure .next) s

def execXAdd (h : Hdr) (o : RR3) (s : State) : Out := xBin (.xAdd h o) h o.d o.s1 o.s2 (· + ·) s
def execXAddi (h : Hdr) (o : RIOp) (s : State) : Out := xUn (.xAddi h o) h o.d o.s1 (· + sext64 o.imm) s
def execXSub (h : Hdr) (o : RR3) (s : State) : Out := xBin (.xSub h o) h o.d o.s1 o.s2 (· - ·) s
def execXAnd (h : Hdr) (o : RR3) (s : State) : Out := xBin (.xAnd h o) h o.d o.s1 o.s2 (· &&& ·) s
def execXOr (h : Hdr) (o : RR3) (s : State) : Out := xBin (.xOr h o) h o.d o.s1 o.s2 (· ||| ·) s
def execXXor (h : Hdr) (o : RR3) (s : State) : Out := xBin (.xXor h o) h o.d o.s1 o.s2 (· ^^^ ·) s
def execMul (h : Hdr) (o : RR3) (s : State) : Out := xBin (.mul h o) h o.d o.s1 o.s2 (· * ·) s

/-- Bits [127:64] of the exact product (R277). -/
def mulHigh (k : BitVec 3) (x y : Word) : Word :=
  let xi : Int := if k = 1 || k = 2 then x.toInt else x.toNat
  let yi : Int := if k = 1 then y.toInt else y.toNat
  BitVec.ofInt 64 (xi * yi / 2 ^ 64)

def execMulh (h : Hdr) (o : RR3K) (s : State) : Out := xBin (.mulh h o) h o.d o.s1 o.s2 (mulHigh o.k) s

/-- The quotient (R277): all ones for a divisor of zero. -/
def divW (sgn : Bool) (x y : Word) : Word :=
  if y = 0 then allOnes
  else if sgn then BitVec.ofInt 64 (Int.tdiv x.toInt y.toInt) else w64 (x.toNat / y.toNat)

/-- The remainder (R277): xs1 for a divisor of zero. -/
def remW (sgn : Bool) (x y : Word) : Word :=
  if y = 0 then x
  else if sgn then BitVec.ofInt 64 (Int.tmod x.toInt y.toInt) else w64 (x.toNat % y.toNat)

def execDiv (h : Hdr) (o : RR3S) (s : State) : Out := xBin (.div h o) h o.d o.s1 o.s2 (divW o.sgn) s
def execRem (h : Hdr) (o : RR3S) (s : State) : Out := xBin (.rem h o) h o.d o.s1 o.s2 (remW o.sgn) s

/-- Bits [5:0] of a shift amount. -/
def shiftBy (y : Word) : Nat := (field y 0 6).toNat

def execShl (h : Hdr) (o : RR3) (s : State) : Out := xBin (.shl h o) h o.d o.s1 o.s2 (fun x y => x <<< shiftBy y) s
def execShr (h : Hdr) (o : RR3) (s : State) : Out := xBin (.shr h o) h o.d o.s1 o.s2 (fun x y => x >>> shiftBy y) s
def execSra (h : Hdr) (o : RR3) (s : State) : Out :=
  xBin (.sra h o) h o.d o.s1 o.s2 (fun x y => x.sshiftRight (shiftBy y)) s

/-- x < y, signed or not. -/
def ltW (sgn : Bool) (x y : Word) : Bool := if sgn then BitVec.slt x y else BitVec.ult x y

def execMin (h : Hdr) (o : RR3S) (s : State) : Out :=
  xBin (.min h o) h o.d o.s1 o.s2 (fun x y => if ltW o.sgn y x then y else x) s
def execMax (h : Hdr) (o : RR3S) (s : State) : Out :=
  xBin (.max h o) h o.d o.s1 o.s2 (fun x y => if ltW o.sgn x y then y else x) s

/-- The number of 1 bits. -/
def popcW (x : Word) : Word := w64 ((List.range 64).filter fun i => bit x i).length

/-- The number of leading zeros, 0 through 64. -/
def clzW (x : Word) : Word := w64 (if x = 0 then 64 else 63 - Nat.log2 x.toNat)

def execPopc (h : Hdr) (o : RR2) (s : State) : Out := xUn (.popc h o) h o.d o.s1 popcW s
def execClz (h : Hdr) (o : RR2) (s : State) : Out := xUn (.clz h o) h o.d o.s1 clzW s

/-! ## Predicates (R278) -/

/-- The condition of CMP. -/
def cmpCond (k : BitVec 3) (x y : Word) : Bool :=
  match k.toNat with
  | 0 => x == y
  | 1 => x != y
  | 2 => BitVec.slt x y
  | 3 => !BitVec.slt x y
  | 4 => BitVec.ult x y
  | _ => !BitVec.ult x y

def execCmp (h : Hdr) (o : CmpOp) (s : State) : Out :=
  runX (.cmp h o) h noBad (do
    let x ← rdX o.s1
    let y ← rdX o.s2
    wrP o.p (cmpCond o.k x y)
    pure .next) s

def execSel (h : Hdr) (o : RR3K) (s : State) : Out :=
  runX (.sel h o) h noBad (do
    let x ← rdX o.s1
    let y ← rdX o.s2
    let b ← rdP o.k
    wrX o.d (if b then x else y)
    pure .next) s

/-- The operation of PLOG. -/
def plogOp (op : BitVec 3) (a b : Bool) : Bool :=
  match op.toNat with
  | 0 => a && b
  | 1 => a || b
  | 2 => a != b
  | 3 => a && !b
  | _ => !a

def execPlog (h : Hdr) (o : PlogOp) (s : State) : Out :=
  runX (.plog h o) h noBad (do
    let a ← rdP o.s1
    let b ← rdP o.s2
    wrP o.p (plogOp o.op a b)
    pure .next) s

/-! ## FP32 arithmetic (R279, R280) -/

/-- The X unit loads its LFSR before the first word it issues after a reload (R93). -/
def xReload : M Unit :=
  modCore fun k => if k.xReload then { k with xLfsr := lfsrSeed k.srSeed, xReload := false } else k

/-- The mode of a rounding X word and L, with one step of the LFSR under SR (R93). -/
def xRound (rnd : BitVec 3) : M (Mode × Nat) := do
  xReload
  let k ← getCore
  let mode := modeOf rnd k.round
  if mode = .sr then modCore fun k => { k with xLfsr := lfsrStep k.xLfsr }
  pure (mode, lfsrL k.xLfsr)

/-- The FP32 value of a register: bits [31:0]. -/
def fpVal (x : Word) : Val := val32 (field x 0 32)

/-- An FP32 result in a register (R274). -/
def fpWord (c : BitVec 32) : Word := c.setWidth 64

/-- An FP32 word of two sources that rounds. -/
def fpBin (i : Instr) (h : Hdr) (o : RR3K) (f : Val → Val → Mode → Nat → BitVec 32) (s : State) : Out :=
  runX i h noBad (do
    let x ← rdX o.s1
    let y ← rdX o.s2
    let (mode, l) ← xRound o.k
    wrX o.d (fpWord (f (fpVal x) (fpVal y) mode l))
    pure .next) s

def execFadd (h : Hdr) (o : RR3K) (s : State) : Out :=
  fpBin (.fadd h o) h o (fun x y m l => round32 (x.add (m == .rdn) y) m l) s
def execFsub (h : Hdr) (o : RR3K) (s : State) : Out :=
  fpBin (.fsub h o) h o (fun x y m l => round32 (x.add (m == .rdn) y.neg) m l) s
def execFmul (h : Hdr) (o : RR3K) (s : State) : Out :=
  fpBin (.fmul h o) h o (fun x y m l => round32 (x.mul y) m l) s

/-- FFMA pops its destination first (R272). -/
def execFfma (h : Hdr) (o : RR3K) (s : State) : Out :=
  runX (.ffma h o) h noBad (do
    let z ← rdX o.d
    let x ← rdX o.s1
    let y ← rdX o.s2
    let (mode, l) ← xRound o.k
    wrX o.d (fpWord (round32 (((fpVal x).mul (fpVal y)).add (mode == .rdn) (fpVal z)) mode l))
    pure .next) s

def execFmin (h : Hdr) (o : RR3) (s : State) : Out :=
  xBin (.fmin h o) h o.d o.s1 o.s2 (fun x y => fpWord (rne32 ((fpVal x).minv (fpVal y)))) s
def execFmax (h : Hdr) (o : RR3) (s : State) : Out :=
  xBin (.fmax h o) h o.d o.s1 o.s2 (fun x y => fpWord (rne32 ((fpVal x).maxv (fpVal y)))) s
def execFdiv (h : Hdr) (o : RR3K) (s : State) : Out := fpBin (.fdiv h o) h o div32 s

def execFsqrt (h : Hdr) (o : RR2K) (s : State) : Out :=
  runX (.fsqrt h o) h noBad (do
    let x ← rdX o.s1
    let (mode, l) ← xRound o.k
    wrX o.d (fpWord (sqrt32 (fpVal x) mode l))
    pure .next) s

/-- x = y for values that are not NaN. -/
def Val.eqv (x y : Val) : Bool := !x.isNan && !y.isNan && !x.lt y && !y.lt x

/-- The condition of FCMP (R280). -/
def fcmpCond (k : BitVec 3) (x y : Val) : Bool :=
  match k.toNat with
  | 0 => x.eqv y
  | 1 => !x.eqv y
  | 2 => x.lt y
  | 3 => x.lt y || x.eqv y
  | 4 => x.isNan || y.isNan
  | _ => !(x.isNan || y.isNan)

def execFcmp (h : Hdr) (o : CmpOp) (s : State) : Out :=
  runX (.fcmp h o) h noBad (do
    let x ← rdX o.s1
    let y ← rdX o.s2
    wrP o.p (fcmpCond o.k (fpVal x) (fpVal y))
    pure .next) s

/-! ## Conversions (R281 to R283) -/

def execCvtf (h : Hdr) (o : CvtfOp) (s : State) : Out :=
  runX (.cvtf h o) h noBad (do
    let x ← rdX o.s1
    let (mode, l) ← xRound o.rnd
    wrX o.d (fpWord (round32 (Val.ofInt (if o.sg then x.toInt else x.toNat)) mode l))
    pure .next) s

/-- CVTI: the integer's width is 8, 16, 32 or 64. -/
def cvtiWord (sg : Bool) (wid : BitVec 2) (x : Val) (mode : Mode) (l : Nat) : Word :=
  let w := 8 * 2 ^ wid.toNat
  let c := roundTo (.int sg w) x mode false l
  if sg then BitVec.ofInt 64 (intOf true w c) else w64 c

def execCvti (h : Hdr) (o : CvtiOp) (s : State) : Out :=
  runX (.cvti h o) h noBad (do
    let x ← rdX o.s1
    let (mode, l) ← xRound o.rnd
    wrX o.d (cvtiWord o.sg o.wid (fpVal x) mode l)
    pure .next) s

/-- The format a CVTN takes from its slot: a class below 6 (R283). -/
def slotElem (k : Core) (fs : BitVec 4) : Option Elem :=
  match Fmt.parse (vget k.fmtSlot fs.toNat) with
  | some f => if f.blk = 0 && f.elem != .raw then some f.elem else none
  | none => none

def execCvtn (h : Hdr) (o : CvtnOp) (s : State) : Out :=
  runX (.cvtn h o) h (fun k => maskIf (slotElem k o.fs).isNone 5 4) (do
    let k ← getCore
    let x ← rdX o.s1
    let (mode, l) ← xRound o.rnd
    let el := (slotElem k o.fs).getD .raw
    wrX o.d (if o.dir then fpWord (round32 (el.decode (x.toNat % 2 ^ el.width)) mode l)
      else w64 (roundTo el (fpVal x) mode o.sat l))
    pure .next) s

/-! ## Control (R284 to R287) -/

/-- The word index of the X head in its section. -/
def Core.xIndex (k : Core) : Nat := (k.ring .x).fetch.toNat

/-- The bits of the offset field where the target lies outside the X section (R289). -/
def badTargetX (bits : Nat) (off : Int) (k : Core) : Word :=
  maskIf (!inSection (k.ring .x).count (aimAt k.xIndex off)) 0 bits

def execBrp (h : Hdr) (o : BrpOp) (s : State) : Out :=
  runX (.brp h o) h (badTargetX 30 o.off.toInt) (do
    let k ← getCore
    let b ← rdP o.p
    pure (if b != o.neg then .goto (aimAt k.xIndex o.off.toInt).toNat else .next)) s

def execXJmp (h : Hdr) (o : LIOp) (s : State) : Out :=
  runX (.xJmp h o) h (badTargetX 35 o.imm.toInt) (do
    let k ← getCore
    wrX o.d (w64 (k.xIndex + 2))
    pure (.goto (aimAt k.xIndex o.imm.toInt).toNat)) s

/-- X_JR to a target outside the section, or not directly after a SAFE word (R237), offends at decode, as far as its register is
there (R365). -/
def xJrBad (o : RR2) (k : Core) : Word :=
  maskIf ((k.seeX o.s1).any fun t => decide ((k.ring .x).count ≤ t.toNat) || !k.afterSafe .x 0x38 t.toNat) 30 5

def execXJr (h : Hdr) (o : RR2) (s : State) : Out :=
  runX (.xJr h o) h (xJrBad o) (do
    let k ← getCore
    let t ← rdX o.s1
    wrX o.d (w64 (k.xIndex + 2))
    pure (.goto t.toNat)) s

def execLoop (h : Hdr) (o : LoopOp) (s : State) : Out :=
  runX (.loop h o) h (badTargetX 30 o.off.toInt) (do
    let k ← getCore
    let x ← rdX o.s1
    if x = 0 then pure .next
    else
      wrX o.s1 (x - 1)
      pure (if x - 1 = 0 then .next else .goto (aimAt k.xIndex o.off.toInt).toNat)) s

/-- X_SAFE (R287): under a pending pre-emption the stream stops at the word, and stays there while the handler of the
pre-emption runs. -/
def execXSafe (h : Hdr) (n : BitVec 16) (s : State) : Out :=
  runX (.xSafe h n) h noBad (do
    let k ← getCore
    stallIf (k.preempt || k.safeAt.isSome)
    pure .next) s

def execXFtrd (h : Hdr) (d : Reg) (s : State) : Out :=
  runX (.xFtrd h d) h noBad (do wrX d (← readFt); pure .next) s

end Sys2Proof.Machine
end

