-- ==== Sys2Proof/Machine/Remote.lean ====
section
/-! DEFINITION. Accesses from outside the cores: packets of the seam links that read and write memory, the host's RMA
operations and sends (spec 10 R176, R177, R189, R190, 13 R231, 26 R409, R411). -/

namespace Sys2Proof.Machine

/-! ## Bytes at a lining address under an owner tag -/

/-- Bytes of the on-chip map or of device registers, one aligned word at a time: `f la n` reads `n` bytes within a word. -/
def byWords (f : Nat → Nat → M (List Byte)) : Nat → Nat → Nat → M (List Byte)
  | 0, _, _ => pure []
  | fuel + 1, la, n =>
    if n = 0 then pure []
    else do
      let k := min n (8 - la % 8)
      let b ← f la k
      let r ← byWords f fuel (la + k) (n - k)
      pure (b ++ r)

/-- Reading regions 0 to 3 as a unit of panel `p` under a tag. -/
def unitLoad (p : Nat) (by0 : WinBy) (tag : Tag) (la n : Nat) : M (List Byte) :=
  if regionOf la = 2 then
    byWords (fun a k => do
      let b ← winRead by0 0 a k
      seeWin p (winCore a)
      pure b) (n / 8 + 2) la n
  else if regionOf la = 3 then
    byWords (fun a k => do
      let w ← regLoad p tag (a / 8 * 8)
      pure ((bytesOfW 8 w).drop (a % 8) |>.take k)) (n / 8 + 2) la n
  else memRead p tag la n 0

/-- Storing bytes within one aligned word of regions 2 and 3, or anywhere in regions 0 and 1. A part of a region-3 word is
not written (R231). -/
def unitStore (p : Nat) (by0 : WinBy) (tag : Tag) (la : Nat) (bs : List Byte) : M Unit :=
  if regionOf la = 2 then do
    winWrite by0 0 la bs
    markWin p (winCore la)
  else if regionOf la = 3 then (if la % 8 = 0 && bs.length = 8 then regWrite p tag la (wordOf bs) else pure ())
  else memWrite p tag la bs 0 .whole

/-! ## Seam-link packets (R190, R409) -/

/-- OWNER's context may make the access; only gate words and reserved regions are out of reach (R114), and a range set that cannot be
read or has a reserved bit set allows nothing (R6). -/
def linkAllowed (l : Nat) (owner : Tag) (la n need : Nat) : M Bool := do
  match ← attempt (useRangeSet (linkPanel l) owner) with
  | .ok set => pure (decide (regionOf la ≤ 3) && (imageCheck set la n need).isNone)
  | .error _ => pure false

/-- A reply with the request's TAG. -/
def linkAnswer (l : Nat) (type : BitVec 4) (f : Flit) (bs : List Byte) : M Unit := do
  let s ← getState
  stallIf (!s.linkRoom l)
  modState fun s => s.sendFlit l (mkFlit type true (flOwner f) 0 (flSrc f) (flTag f) (flAddr f) 0 0 0 bs)

/-- An access of a packet: it waits within its step where it must; one that faults is reported to OWNER (R358). -/
def linkTry {α : Type} (l : Nat) (f : Flit) (act : M α) : M (Option α) := do
  match ← attempt act with
  | .ok a => pure (some a)
  | .error e => do
    appendFault (linkPanel l) { memRec (flOwner f) e.cls e.laddr e.d0 e.d1 with unit := 7 }
    pure none

/-- Lines of a read packet: one to three, from the line of ADDR on. -/
def execLinkRead (link : BitVec 4) (flit : Flit) (s : State) : Out :=
  if !flIs flit 1 false then .next s
  else
    receive link flit (do
      let l := link.toNat
      let n := 64 * ((field flit.a0 0 2).toNat + 1)
      let la := flAddr flit / 64 * 64
      if ← linkAllowed l (flOwner flit) la n 1 then
        let b ← linkTry l flit (unitLoad (linkPanel l) (.unit (flOwner flit)) (flOwner flit) la n)
        linkAnswer l 1 flit (b.getD [])
      else
        linkReject link (flOwner flit) flit.h0 false
        linkAnswer l 1 flit []) s

/-- Byte enables of a write packet, for the bytes that it holds. -/
def flEnable (f : Flit) (b : Nat) : Bool :=
  decide (b < flBytes f) &&
    (if b < 64 then bit f.a0 b else if b < 128 then bit f.a1 (b - 64) else bit f.a2 (b - 128))

/-- The enabled bytes of a packet in runs that stay within a word, each with its place. -/
def flRuns (f : Flit) (width : Nat) : List (Nat × List Byte) :=
  let la := flAddr f
  let body := flBody f
  let add (b : Nat) (rs : List (Nat × List Byte)) : List (Nat × List Byte) :=
    if flEnable f b then
      match rs with
      | (a, bs) :: rest => if a = la + b + 1 && a % width != 0 then (la + b, body.getD b 0 :: bs) :: rest else (la + b, [body.getD b 0]) :: rs
      | [] => [(la + b, [body.getD b 0])]
    else rs
  (List.range 192).foldr add []

/-- A write packet: each run of its enabled bytes within a line is a store of its own, with a change where its patch is enrolled
(DESIGN CHOICE, log 150). -/
def execLinkWrite (link : BitVec 4) (flit : Flit) (s : State) : Out :=
  if !flIs flit 2 (flRsp flit) then .next s
  else
    receive link flit (do
      let l := link.toNat
      let la := flAddr flit
      if ← linkAllowed l (flOwner flit) la (flBytes flit) 2 then
        let width := if regionOf la ≤ 1 then 64 else 8
        let _ ← linkTry l flit ((flRuns flit width).forM fun r =>
          unitStore (linkPanel l) (.unit (flOwner flit)) (flOwner flit) r.1 r.2)
        pure ()
      else linkReject link (flOwner flit) flit.h0) s

/-- One atomic of a packet (R189, R246, R247): the new value from the old value, the operand, the compare value and the limit
of an AADDB; the values of AMAX and AMIN are unsigned. -/
def linkAtomicNew (op n old x d lim : Nat) : Option Nat :=
  match op with
  | 0x20 => some ((old + x) % 256 ^ n)
  | 0x21 => if old + x ≤ lim then some (old + x) else none
  | 0x22 => some (max old x)
  | 0x23 => some (min old x)
  | 0x24 => some (old ||| x)
  | 0x25 => some x
  | 0x26 => if old = d then some x else none
  | _ =>
    let f := if n = 4 then fp32F else bf16F
    some (roundTo (.flt f) ((f.decode old).add false (f.decode x)) .rne false 0)

/-- The atomic packet's operation at its home: the old value. -/
def linkAtomicOp (p : Nat) (owner : Tag) (op n la : Nat) (x d : Word) : M Nat :=
  homeRmwBy p owner la n 0 fun old => do
    let lim ← (if op = 0x21 then homeRead p owner (la + 8) 8 0 else pure [])
    pure (linkAtomicNew op n old (x.toNat % 256 ^ n) (d.toNat % 256 ^ n) (natOfBytes lim))

def execLinkAtomic (link : BitVec 4) (flit : Flit) (s : State) : Out :=
  if !flIs flit 3 false then .next s
  else
    receive link flit (do
      let l := link.toNat
      let op := (field flit.a0 0 8).toNat
      let size := (field flit.a0 8 3).toNat
      let n := 2 ^ size
      let la := flAddr flit
      let span := if op = 0x21 then 16 else n
      let may ← linkAllowed l (flOwner flit) la n 3
      if may && linkAtomicOk op size && la % span == 0 && decide (regionOf la ≤ 1) then
        let old ← linkTry l flit (linkAtomicOp (linkPanel l) (flOwner flit) op n la flit.a1 flit.a2)
        linkAnswer l 3 flit ((old.map (bytesOfNat 8)).getD [])
      else
        linkReject link (flOwner flit) flit.h0 false
        linkAnswer l 3 flit []) s

/-! ## Host RMA and sends (R176, R411) -/

/-- The panel of an Ethernet port (R10). -/
def portPanel (port : BitVec 3) : Nat := port.toNat / 2

/-- The port answers. -/
def answerPort (r : Reply) : M Unit := modState fun s => s.onHost fun h => { h with replies := h.replies ++ [r] }

/-- One more rejected operation of a port. -/
def countReject (port : BitVec 3) : M Unit :=
  modState fun s => s.onHost fun h => { h with rejects := vset h.rejects port.toNat (vget h.rejects port.toNat + 1) }

/-- Codes 1 to 6: nothing of the operation is written; a record to tag 0. -/
def refuseUet (port : BitVec 3) (code la : Nat) : M Unit := do
  countReject port
  appendFault (portPanel port) { memRec 0 0x32 la (w64 (0x100 + port.toNat)) (w64 code) with unit := 7 }
  answerPort (.error port code)

/-- Codes 7 and 8: an access failed; a record of its class to the owner of the region. -/
def failUet (port : BitVec 3) (owner : Tag) (f : Flt) : M Unit := do
  let code := if f.cls = 0x30 then 8 else 7
  countReject port
  appendFault (portPanel port) { memRec owner f.cls f.laddr f.d0 f.d1 with unit := 7 }
  answerPort (.error port code)

/-- A write of `data` at `la` meets a region-3 field that is RO or reserved with a non-zero value, or a part of a word. A write at an
unassigned offset is discarded (R6). -/
def rmaBadField (la : Nat) (data : List Byte) : Bool :=
  regionOf la == 3 &&
    (la % 8 != 0 || data.length % 8 != 0 ||
      (List.range (data.length / 8)).any fun i =>
        let v := wordOf (data.drop (8 * i) |>.take 8)
        match regAt (la + 8 * i) with
        | none => false
        | some r => v &&& ~~~regWritable r != 0)

/-- The queue whose SQTAIL lies at an address. -/
def sqtailAt (la : Nat) : Option Nat :=
  if regionOf la = 3 && la % 8 = 0 then
    match regAt la with
    | some (.sqtail q) => some q
    | _ => none
  else none

/-- The queues whose SQTAIL a write names. -/
def rmaTails (la : Nat) (data : List Byte) : List Nat :=
  (List.range (data.length / 8)).filterMap fun i => sqtailAt (la + 8 * i)

/-- The write of one region-3 word: the acknowledgment of the packet goes with its last SQTAIL (R183). -/
def rmaPut (port : BitVec 3) (conn : Conn) (tag : Tag) (last : Option Nat) (la i : Nat) (v : Word) : M Unit :=
  match sqtailAt la with
  | some q => do
    let clk := (← getState).vc (portPanel port)
    tailWrite { queue := BitVec.ofNat 10 q, value := v, clock := clk, port := some (port, conn), ack := last = some i }
  | none => regWrite (portPanel port) tag la v

/-- The writes of a packet, in order; each patch it writes counts one change (R140). -/
def rmaStore (port : BitVec 3) (conn : Conn) (tag : Tag) (la : Nat) (data : List Byte) : M Unit :=
  if regionOf la = 3 then
    let n := data.length / 8
    let last := ((List.range n).filter fun i => (sqtailAt (la + 8 * i)).isSome).getLast?
    (List.range n).forM fun i => rmaPut port conn tag last (la + 8 * i) i (wordOf (data.drop (8 * i) |>.take 8))
  else
    let rec go : Nat → Nat → List Byte → Nat → List Nat → M Unit
      | 0, _, _, _, _ => pure ()
      | fuel + 1, a, bs, done, patches => do
        if !bs.isEmpty then
          let k := min bs.length (64 - a % 64)
          match ← attempt (memWrite (portPanel port) tag a (bs.take k) 0 (if patches.contains (patchOf a) then .part else .whole)) with
          | .ok _ => go fuel (a + k) (bs.drop k) (done + k) (patchOf a :: patches)
          | .error f => throw (.fault (if f.cls = 0x12 || f.cls = 0x13 then { f with d1 := w64 done } else f))
    go (data.length / 64 + 2) la data 0 []

/-- The address of an operation of `n` bytes in a region for the record of a refusal: 0 past the region's end (R411). -/
def HostRegion.named (r : HostRegion) (off : Nat) : Nat := if off < r.len then r.base + off else 0

/-- What a port does with the data of a packet for a region or receive: the checks of R411, then the writes, and the acknowledgment
once every one of them has been performed (R176); a held SQTAIL carries it on (R183). -/
def rmaPacket (port : BitVec 3) (conn : Conn) (r : HostRegion) (off : Nat) (data : List Byte) : M Unit := do
  let la := r.base + off
  if conn = .unreliable then refuseUet port 5 (r.named off)
  else if r.len < off + data.length then refuseUet port 2 (r.named off)
  else if rmaBadField la data then refuseUet port 3 (r.named off)
  else do
    let s ← getState
    if (rmaTails la data).any fun q => !(s.sq q).en then refuseUet port 6 (r.named off)
    else
    stallIf (s.host.rodWaits port conn)
    match ← attempt (rmaStore port conn r.owner la data) with
    | .error f => failUet port r.owner f
    | .ok _ => if (rmaTails la data).isEmpty then answerPort (.ack port)

/-- The packet of an RMA write (R176). -/
def rmaWrite (port : BitVec 3) (conn : Conn) (region : Nat) (off : Nat) (data : List Byte) : M Unit := do
  match mapGet (← getState).host.regions region with
  | none => refuseUet port (if conn = .unreliable then 5 else 1) 0
  | some r => rmaPacket port conn r off data

/-- The packet of a send: it takes the receive that firmware has posted. -/
def rmaSend (port : BitVec 3) (conn : Conn) (receive : Nat) (data : List Byte) : M Unit := do
  match mapGet (← getState).host.receives receive with
  | none => refuseUet port (if conn = .unreliable then 5 else 4) 0
  | some r => do
    rmaPacket port conn r 0 data
    if conn != .unreliable && decide (data.length ≤ r.len) then
      modState fun s => s.onHost fun h => { h with receives := mapDel h.receives receive }

/-- A packet that waits is performed. -/
def RodPacket.run (x : RodPacket) : M Unit :=
  if x.send then rmaSend x.port x.conn x.target x.data else rmaWrite x.port x.conn x.target x.off x.data

/-- An earlier packet of the same connection waits. -/
def HostIf.rodQueued (h : HostIf) (x : RodPacket) : Bool := h.rodQ.any fun y => y.port == x.port && y.conn == x.conn

/-- A packet arrives. One of a ROD connection whose writes stall, or that finds an earlier one waiting, waits in order (R177); any
other that stalls is not taken. -/
def takePacket (x : RodPacket) (s : State) : Out :=
  let rod := match x.conn with
    | .rod _ => true
    | _ => false
  let later (s : State) : State := s.onHost fun h => { h with rodQ := h.rodQ ++ [x] }
  if rod && s.host.rodQueued x then .next (later s)
  else
    match x.run s with
    | .ok _ t => .next (t.undrainAt (unitPort x.port.toNat))
    | .error (.halt f) _ => .fault f
    | .error (.drain h p) _ =>
      let s := s.addDrainAt (unitPort x.port.toNat) h p
      .next (if rod then later s else s)
    | .error _ _ => .next (if rod then later s else s)

/-- The packets that wait are performed in order, as far as their writes can be made. -/
def retryRod (s : State) : State :=
  s.host.rodQ.foldl (fun s x =>
    let later (s : State) : State := s.onHost fun h => { h with rodQ := h.rodQ ++ [x] }
    if s.host.rodQueued x then later s
    else
      match x.run s with
      | .ok _ t => t.undrainAt (unitPort x.port.toNat)
      | .error _ _ => later s) (s.onHost fun h => { h with rodQ := [] })

/-- An RMA write. A packet that fails the integrity check does nothing and has no answer. -/
def execUetRmaWrite (port : BitVec 3) (conn : Conn) (region : Nat) (off : Nat) (data : List Byte) (s : State) : Out :=
  if s.boot.stat != 0 || conn = .corrupt then .next s
  else takePacket { port := port, conn := conn, send := false, target := region, off := off, data := data } s

/-- An RMA read: its data, or none. -/
def execUetRmaRead (port : BitVec 3) (conn : Conn) (region : Nat) (off : Nat) (len : Nat) (s : State) : Out :=
  if s.boot.stat != 0 || conn = .corrupt then .next s
  else
    runUnit (unitPort port.toNat) (do
      match mapGet s.host.regions region with
      | none => refuseUet port (if conn = .unreliable then 5 else 1) 0
      | some r =>
        let la := r.base + off
        if conn = .unreliable then refuseUet port 5 (r.named off)
        else if r.len < off + len then refuseUet port 2 (r.named off)
        else
          match ← attempt (unitLoad (portPanel port) (.unit r.owner) r.owner la len) with
          | .error f => failUet port r.owner f
          | .ok b => answerPort (.data port b)) s

/-- A send takes the receive that firmware has posted. -/
def execUetSend (port : BitVec 3) (conn : Conn) (receive : Nat) (data : List Byte) (s : State) : Out :=
  if s.boot.stat != 0 || conn = .corrupt then .next s
  else takePacket { port := port, conn := conn, send := true, target := receive, off := 0, data := data } s

end Sys2Proof.Machine
end

