-- ==== Sys2Proof/Machine/RiscV.lean ====
section
/-! DEFINITION. The instructions of RV64GC with Zicsr and Zifencei, and their decoding (spec 10 R184; the encodings are those of the RISC-V
Unprivileged ISA 20191213 that it names: PRESUMED, log 162). -/

namespace Sys2Proof.Machine

/-- The operations of the integer unit. -/
inductive RvAlu where
  | add | sub | sll | slt | sltu | xor | srl | sra | or | and
  | mul | mulh | mulhsu | mulhu | div | divu | rem | remu
  deriving DecidableEq, Repr, Inhabited

/-- The read-modify-write operations. -/
inductive RvAmo where
  | swap | add | xor | and | or | min | max | minu | maxu
  deriving DecidableEq, Repr, Inhabited

/-- Floating-point operations on two operands. -/
inductive RvFp where
  | add | sub | mul | div
  deriving DecidableEq, Repr, Inhabited

/-- An instruction. `dbl` selects doublewords, or the D format; `w` the 32-bit form. -/
inductive RvOp where
  | lui (rd : BitVec 5) (imm : Word)
  | auipc (rd : BitVec 5) (imm : Word)
  | jal (rd : BitVec 5) (off : Word)
  | jalr (rd rs : BitVec 5) (off : Word)
  | branch (f : BitVec 3) (rs1 rs2 : BitVec 5) (off : Word)
  | load (f : BitVec 3) (rd rs : BitVec 5) (off : Word)
  | store (f : BitVec 2) (rs1 rs2 : BitVec 5) (off : Word)
  | aluImm (op : RvAlu) (w : Bool) (rd rs : BitVec 5) (imm : Word)
  | alu (op : RvAlu) (w : Bool) (rd rs1 rs2 : BitVec 5)
  | fence
  | fenceI
  | ecall
  | ebreak
  | sret
  | mret
  | wfi
  | sfence (rs1 rs2 : BitVec 5)
  | csr (f : BitVec 3) (rd rs : BitVec 5) (n : BitVec 12)
  | lr (dbl : Bool) (rd rs : BitVec 5)
  | sc (dbl : Bool) (rd rs1 rs2 : BitVec 5)
  | amo (op : RvAmo) (dbl : Bool) (rd rs1 rs2 : BitVec 5)
  | fload (dbl : Bool) (rd rs : BitVec 5) (off : Word)
  | fstore (dbl : Bool) (rs1 rs2 : BitVec 5) (off : Word)
  | fma (negProd negAdd dbl : Bool) (rd rs1 rs2 rs3 : BitVec 5) (rm : BitVec 3)
  | farith (op : RvFp) (dbl : Bool) (rd rs1 rs2 : BitVec 5) (rm : BitVec 3)
  | fsqrt (dbl : Bool) (rd rs : BitVec 5) (rm : BitVec 3)
  | fsgnj (f : BitVec 2) (dbl : Bool) (rd rs1 rs2 : BitVec 5)
  | fminmax (max dbl : Bool) (rd rs1 rs2 : BitVec 5)
  | fcmp (f : BitVec 2) (dbl : Bool) (rd rs1 rs2 : BitVec 5)
  | fclass (dbl : Bool) (rd rs : BitVec 5)
  /-- between the two formats; `dbl` is the format of the result -/
  | fcvtF (dbl : Bool) (rd rs : BitVec 5) (rm : BitVec 3)
  | fcvtToInt (kind : BitVec 2) (dbl : Bool) (rd rs : BitVec 5) (rm : BitVec 3)
  | fcvtOfInt (kind : BitVec 2) (dbl : Bool) (rd rs : BitVec 5) (rm : BitVec 3)
  | fmvToInt (dbl : Bool) (rd rs : BitVec 5)
  | fmvOfInt (dbl : Bool) (rd rs : BitVec 5)
  deriving DecidableEq, Repr, Inhabited

/-! ## Fields and immediates -/

abbrev rvRd (w : BitVec 32) : BitVec 5 := field w 7 5
abbrev rvRs1 (w : BitVec 32) : BitVec 5 := field w 15 5
abbrev rvRs2 (w : BitVec 32) : BitVec 5 := field w 20 5
abbrev rvF3 (w : BitVec 32) : BitVec 3 := field w 12 3
abbrev rvF7 (w : BitVec 32) : BitVec 7 := field w 25 7

/-- The immediates of the types I, S, B, U and J, sign extended. -/
def rvImmI (w : BitVec 32) : Word := sext64 (field w 20 12)
def rvImmS (w : BitVec 32) : Word := sext64 (field w 25 7 ++ field w 7 5)
def rvImmB (w : BitVec 32) : Word := sext64 (field w 31 1 ++ field w 7 1 ++ field w 25 6 ++ field w 8 4 ++ 0#1)
def rvImmU (w : BitVec 32) : Word := sext64 (field w 12 20 ++ 0#12)
def rvImmJ (w : BitVec 32) : Word := sext64 (field w 31 1 ++ field w 12 8 ++ field w 20 1 ++ field w 21 10 ++ 0#1)

/-! ## Decoding a word of 32 bits -/

/-- The operation of OP-IMM and OP-IMM-32, with its immediate. -/
def rvOpImm (w : BitVec 32) (half : Bool) : Option RvOp :=
  let shift (op : RvAlu) (n : BitVec 6) : Option RvOp := some (.aluImm op half (rvRd w) (rvRs1 w) (n.setWidth 64))
  let sh := field w 20 6
  let plain (op : RvAlu) : Option RvOp := if half then none else some (.aluImm op false (rvRd w) (rvRs1 w) (rvImmI w))
  let high : BitVec 6 := field w 26 6
  if half && bit w 25 && rvF3 w != 0 then none
  else
    match (rvF3 w).toNat with
    | 0 => some (.aluImm .add half (rvRd w) (rvRs1 w) (rvImmI w))
    | 1 => if high = 0 then shift .sll sh else none
    | 2 => plain .slt
    | 3 => plain .sltu
    | 4 => plain .xor
    | 5 => if high = 0 then shift .srl sh else if high = 0x10 then shift .sra sh else none
    | 6 => plain .or
    | _ => plain .and

/-- The operation of OP and OP-32. -/
def rvOpReg (w : BitVec 32) (half : Bool) : Option RvOp :=
  let alu (op : RvAlu) : Option RvOp := some (.alu op half (rvRd w) (rvRs1 w) (rvRs2 w))
  let full (op : RvAlu) : Option RvOp := if half then none else alu op
  match (rvF7 w).toNat, (rvF3 w).toNat with
  | 0, 0 => alu .add
  | 0, 1 => alu .sll
  | 0, 2 => full .slt
  | 0, 3 => full .sltu
  | 0, 4 => full .xor
  | 0, 5 => alu .srl
  | 0, 6 => full .or
  | 0, 7 => full .and
  | 0x20, 0 => alu .sub
  | 0x20, 5 => alu .sra
  | 1, 0 => alu .mul
  | 1, 1 => full .mulh
  | 1, 2 => full .mulhsu
  | 1, 3 => full .mulhu
  | 1, 4 => alu .div
  | 1, 5 => alu .divu
  | 1, 6 => alu .rem
  | 1, 7 => alu .remu
  | _, _ => none

/-- SYSTEM. -/
def rvSystem (w : BitVec 32) : Option RvOp :=
  if rvF3 w = 0 then
    if rvRd w ≠ 0 then none
    else if rvF7 w = 9 then some (.sfence (rvRs1 w) (rvRs2 w))
    else if rvRs1 w ≠ 0 then none
    else
      match (field w 20 12).toNat with
      | 0 => some .ecall
      | 1 => some .ebreak
      | 0x102 => some .sret
      | 0x302 => some .mret
      | 0x105 => some .wfi
      | _ => none
  else if rvF3 w = 4 then none
  else some (.csr (rvF3 w) (rvRd w) (rvRs1 w) (field w 20 12))

/-- The atomics; their aq and rl bits order nothing more than program order does here (DESIGN CHOICE, log 164). -/
def rvAtomic (w : BitVec 32) : Option RvOp :=
  let amo (op : RvAmo) : Option RvOp := some (.amo op (bit w 12) (rvRd w) (rvRs1 w) (rvRs2 w))
  if rvF3 w ≠ 2 ∧ rvF3 w ≠ 3 then none
  else
    match (field w 27 5).toNat with
    | 0 => amo .add
    | 1 => amo .swap
    | 2 => if rvRs2 w = 0 then some (.lr (bit w 12) (rvRd w) (rvRs1 w)) else none
    | 3 => some (.sc (bit w 12) (rvRd w) (rvRs1 w) (rvRs2 w))
    | 4 => amo .xor
    | 8 => amo .or
    | 12 => amo .and
    | 16 => amo .min
    | 20 => amo .max
    | 24 => amo .minu
    | 28 => amo .maxu
    | _ => none

/-- OP-FP, of the formats S and D. -/
def rvOpFp (w : BitVec 32) : Option RvOp :=
  let d := bit w 25
  let rd := rvRd w
  let a := rvRs1 w
  let b := rvRs2 w
  let rm := rvF3 w
  if bit w 26 then none
  else
    match (field w 27 5).toNat with
    | 0 => some (.farith .add d rd a b rm)
    | 1 => some (.farith .sub d rd a b rm)
    | 2 => some (.farith .mul d rd a b rm)
    | 3 => some (.farith .div d rd a b rm)
    | 0x0B => if b = 0 then some (.fsqrt d rd a rm) else none
    | 4 => if rm.toNat ≤ 2 then some (.fsgnj (field rm 0 2) d rd a b) else none
    | 5 => if rm.toNat ≤ 1 then some (.fminmax (bit rm 0) d rd a b) else none
    | 8 => if b = (if d then 0 else 1) then some (.fcvtF d rd a rm) else none
    | 0x14 => if rm.toNat ≤ 2 then some (.fcmp (field rm 0 2) d rd a b) else none
    | 0x18 => if b.toNat ≤ 3 then some (.fcvtToInt (field b 0 2) d rd a rm) else none
    | 0x1A => if b.toNat ≤ 3 then some (.fcvtOfInt (field b 0 2) d rd a rm) else none
    | 0x1C =>
      if b ≠ 0 then none
      else if rm = 0 then some (.fmvToInt d rd a)
      else if rm = 1 then some (.fclass d rd a)
      else none
    | 0x1E => if b = 0 ∧ rm = 0 then some (.fmvOfInt d rd a) else none
    | _ => none

/-- A fused multiply-add. -/
def rvFma (w : BitVec 32) (negProd negAdd : Bool) : Option RvOp :=
  if bit w 26 then none
  else some (.fma negProd negAdd (bit w 25) (rvRd w) (rvRs1 w) (rvRs2 w) (field w 27 5) (rvF3 w))

/-- An instruction of 32 bits; none for an illegal one. -/
def rvDecode (w : BitVec 32) : Option RvOp :=
  match (field w 0 7).toNat with
  | 0x37 => some (.lui (rvRd w) (rvImmU w))
  | 0x17 => some (.auipc (rvRd w) (rvImmU w))
  | 0x6F => some (.jal (rvRd w) (rvImmJ w))
  | 0x67 => if rvF3 w = 0 then some (.jalr (rvRd w) (rvRs1 w) (rvImmI w)) else none
  | 0x63 => if rvF3 w = 2 ∨ rvF3 w = 3 then none else some (.branch (rvF3 w) (rvRs1 w) (rvRs2 w) (rvImmB w))
  | 0x03 => if rvF3 w = 7 then none else some (.load (rvF3 w) (rvRd w) (rvRs1 w) (rvImmI w))
  | 0x23 => if bit w 14 then none else some (.store (field w 12 2) (rvRs1 w) (rvRs2 w) (rvImmS w))
  | 0x13 => rvOpImm w false
  | 0x1B => rvOpImm w true
  | 0x33 => rvOpReg w false
  | 0x3B => rvOpReg w true
  | 0x0F => if rvF3 w = 0 then some .fence else if rvF3 w = 1 then some .fenceI else none
  | 0x73 => rvSystem w
  | 0x2F => rvAtomic w
  | 0x07 => if rvF3 w = 2 ∨ rvF3 w = 3 then some (.fload (bit w 12) (rvRd w) (rvRs1 w) (rvImmI w)) else none
  | 0x27 => if rvF3 w = 2 ∨ rvF3 w = 3 then some (.fstore (bit w 12) (rvRs1 w) (rvRs2 w) (rvImmS w)) else none
  | 0x43 => rvFma w false false
  | 0x47 => rvFma w false true
  | 0x4B => rvFma w true false
  | 0x4F => rvFma w true true
  | 0x53 => rvOpFp w
  | _ => none

/-! ## Decoding a compressed instruction -/

/-- One of the eight registers that a three-bit field names. -/
def rvcReg (x : BitVec 3) : BitVec 5 := 1#2 ++ x

abbrev rvcA (w : BitVec 16) : BitVec 5 := rvcReg (field w 7 3)
abbrev rvcB (w : BitVec 16) : BitVec 5 := rvcReg (field w 2 3)
abbrev rvcRd (w : BitVec 16) : BitVec 5 := field w 7 5
abbrev rvcRs2 (w : BitVec 16) : BitVec 5 := field w 2 5

/-- The six-bit immediate, sign extended, and as a shift amount. -/
def rvcImm (w : BitVec 16) : Word := sext64 (field w 12 1 ++ field w 2 5)
def rvcShamt (w : BitVec 16) : Word := zext64 (field w 12 1 ++ field w 2 5)

/-- Offsets of loads and stores: words and doublewords, by register and by the stack pointer. -/
def rvcOffW (w : BitVec 16) : Word := zext64 (field w 5 1 ++ field w 10 3 ++ field w 6 1 ++ 0#2)
def rvcOffD (w : BitVec 16) : Word := zext64 (field w 5 2 ++ field w 10 3 ++ 0#3)
def rvcSpLoadW (w : BitVec 16) : Word := zext64 (field w 2 2 ++ field w 12 1 ++ field w 4 3 ++ 0#2)
def rvcSpLoadD (w : BitVec 16) : Word := zext64 (field w 2 3 ++ field w 12 1 ++ field w 5 2 ++ 0#3)
def rvcSpStoreW (w : BitVec 16) : Word := zext64 (field w 7 2 ++ field w 9 4 ++ 0#2)
def rvcSpStoreD (w : BitVec 16) : Word := zext64 (field w 7 3 ++ field w 10 3 ++ 0#3)

/-- Offsets of C.J and of the branches. -/
def rvcJump (w : BitVec 16) : Word :=
  sext64 (field w 12 1 ++ field w 8 1 ++ field w 9 2 ++ field w 6 1 ++ field w 7 1 ++ field w 2 1 ++ field w 11 1 ++ field w 3 3 ++ 0#1)
def rvcBranch (w : BitVec 16) : Word :=
  sext64 (field w 12 1 ++ field w 5 2 ++ field w 2 1 ++ field w 10 2 ++ field w 3 2 ++ 0#1)

/-- Quadrant 0. -/
def rvcQ0 (w : BitVec 16) : Option RvOp :=
  match (field w 13 3).toNat with
  | 0 =>
    let n := zext64 (field w 7 4 ++ field w 11 2 ++ field w 5 1 ++ field w 6 1 ++ 0#2)
    if n = 0 then none else some (.aluImm .add false (rvcB w) 2 n)
  | 1 => some (.fload true (rvcB w) (rvcA w) (rvcOffD w))
  | 2 => some (.load 2 (rvcB w) (rvcA w) (rvcOffW w))
  | 3 => some (.load 3 (rvcB w) (rvcA w) (rvcOffD w))
  | 5 => some (.fstore true (rvcA w) (rvcB w) (rvcOffD w))
  | 6 => some (.store 2 (rvcA w) (rvcB w) (rvcOffW w))
  | 7 => some (.store 3 (rvcA w) (rvcB w) (rvcOffD w))
  | _ => none

/-- The register operations of quadrant 1. -/
def rvcAlu (w : BitVec 16) : Option RvOp :=
  let a := rvcA w
  let b := rvcB w
  match (field w 10 2).toNat with
  | 0 => some (.aluImm .srl false a a (rvcShamt w))
  | 1 => some (.aluImm .sra false a a (rvcShamt w))
  | 2 => some (.aluImm .and false a a (rvcImm w))
  | _ =>
    match bit w 12, (field w 5 2).toNat with
    | false, 0 => some (.alu .sub false a a b)
    | false, 1 => some (.alu .xor false a a b)
    | false, 2 => some (.alu .or false a a b)
    | false, _ => some (.alu .and false a a b)
    | true, 0 => some (.alu .sub true a a b)
    | true, 1 => some (.alu .add true a a b)
    | true, _ => none

/-- Quadrant 1. -/
def rvcQ1 (w : BitVec 16) : Option RvOp :=
  let rd := rvcRd w
  match (field w 13 3).toNat with
  | 0 => some (.aluImm .add false rd rd (rvcImm w))
  | 1 => if rd = 0 then none else some (.aluImm .add true rd rd (rvcImm w))
  | 2 => some (.aluImm .add false rd 0 (rvcImm w))
  | 3 =>
    if rvcImm w = 0 then none
    else if rd = 2 then
      some (.aluImm .add false 2 2
        (sext64 (field w 12 1 ++ field w 3 2 ++ field w 5 1 ++ field w 2 1 ++ field w 6 1 ++ 0#4)))
    else some (.lui rd (rvcImm w <<< 12))
  | 4 => rvcAlu w
  | 5 => some (.jal 0 (rvcJump w))
  | 6 => some (.branch 0 (rvcA w) 0 (rvcBranch w))
  | _ => some (.branch 1 (rvcA w) 0 (rvcBranch w))

/-- Quadrant 2. -/
def rvcQ2 (w : BitVec 16) : Option RvOp :=
  let rd := rvcRd w
  let b := rvcRs2 w
  match (field w 13 3).toNat with
  | 0 => some (.aluImm .sll false rd rd (rvcShamt w))
  | 1 => some (.fload true rd 2 (rvcSpLoadD w))
  | 2 => if rd = 0 then none else some (.load 2 rd 2 (rvcSpLoadW w))
  | 3 => if rd = 0 then none else some (.load 3 rd 2 (rvcSpLoadD w))
  | 4 =>
    match bit w 12, decide (b = 0) with
    | false, true => if rd = 0 then none else some (.jalr 0 rd 0)
    | false, false => some (.alu .add false rd 0 b)
    | true, true => if rd = 0 then some .ebreak else some (.jalr 1 rd 0)
    | true, false => some (.alu .add false rd rd b)
  | 5 => some (.fstore true 2 b (rvcSpStoreD w))
  | 6 => some (.store 2 2 b (rvcSpStoreW w))
  | _ => some (.store 3 2 b (rvcSpStoreD w))

/-- An instruction of 16 bits. -/
def rvcDecode (w : BitVec 16) : Option RvOp :=
  match (field w 0 2).toNat with
  | 0 => rvcQ0 w
  | 1 => rvcQ1 w
  | 2 => rvcQ2 w
  | _ => none

end Sys2Proof.Machine
end

