-- ==== Sys2Proof/Machine/RvFloat.lean ====
section
/-! DEFINITION. The F and D arithmetic of the firmware complex's harts: IEEE 754 with flags, five rounding modes and NaN boxing (spec 10 R184;
as the RISC-V Unprivileged ISA 20191213 has it: PRESUMED, log 162). -/

namespace Sys2Proof.Machine

def fp64F : FloatFmt := { sign := true, eb := 11, mb := 52, bias := 1023, spec := 1 }

/-- The format that `dbl` selects. -/
def rvFmt (dbl : Bool) : FloatFmt := if dbl then fp64F else fp32F

/-- The flags of fcsr: NV, DZ, OF, UF, NX. -/
def flNV : BitVec 5 := 0x10
def flDZ : BitVec 5 := 0x08
def flOF : BitVec 5 := 0x04
def flUF : BitVec 5 := 0x02
def flNX : BitVec 5 := 0x01

/-- A result with its flags. -/
abbrev Flagged := Word × BitVec 5

/-- A rounding mode with the number that `roundUp` takes: to nearest with ties away from zero is the addition of a half. -/
def rvMode (rm : BitVec 3) : Option (Mode × Nat) :=
  match rm.toNat with
  | 0 => some (.rne, 0)
  | 1 => some (.rtz, 0)
  | 2 => some (.rdn, 0)
  | 3 => some (.rup, 0)
  | 4 => some (.sr, 2 ^ 15)
  | _ => none

/-! ## Values in registers -/

/-- What a register holds in a format: a single that is not NaN-boxed is the canonical NaN. -/
def rvUnbox (dbl : Bool) (w : Word) : Word :=
  if dbl then w else if field w 32 32 = BitVec.allOnes 32 then zext64 (field w 0 32) else 0x7FC00000

/-- A result as a register holds it. -/
def rvBox (dbl : Bool) (w : Word) : Word := if dbl then w else BitVec.allOnes 32 ++ field w 0 32

/-- The value of a code. -/
def rvVal (dbl : Bool) (c : Word) : Val := (rvFmt dbl).decode c.toNat

/-- A NaN that signals. -/
def rvSignals (dbl : Bool) (c : Word) : Bool := (rvVal dbl c).isNan && !bit c ((rvFmt dbl).mb - 1)

/-- The canonical NaN. -/
def rvNan (dbl : Bool) : Word := w64 (rvFmt dbl).nan

/-- NV where one of the operands signals. -/
def rvSigFlag (dbl : Bool) (cs : List Word) : BitVec 5 := if cs.any (rvSignals dbl) then flNV else 0

/-! ## Rounding -/

/-- A magnitude m * 2^e rounded into a format, with the flags OF, UF and NX. A number is tiny if it is so after rounding. -/
def rvRoundFin (f : FloatFmt) (neg : Bool) (m : Nat) (e : Int) (mode : Mode × Nat) : Flagged :=
  if m = 0 then (w64 (f.codeOf neg 0 0), 0)
  else
    let free : Int := flog2 m e - f.mb
    let q := max free (1 - f.bias - f.mb)
    let k := roundAt mode.1 neg m e q false mode.2
    let wide := roundAt mode.1 neg m e free false mode.2
    let inexact := !(leScaled k q m e && leScaled m e k q)
    let large := !leScaled k q f.maxfin.1 f.maxfin.2
    let tiny := !leScaled 1 (1 - f.bias) wide free
    let fl := if large then flOF ||| flNX
      else if inexact then (if tiny then flUF ||| flNX else flNX)
      else 0
    (w64 (f.round neg m e false mode.1 false mode.2), fl)

/-- A value rounded into a format. -/
def rvRound (dbl : Bool) (v : Val) (mode : Mode × Nat) : Flagged :=
  match v with
  | .nan => (rvNan dbl, 0)
  | .inf neg => (w64 ((rvFmt dbl).inf neg), 0)
  | .fin neg m e => rvRoundFin (rvFmt dbl) neg m e mode

/-! ## Arithmetic -/

/-- A result of an exact operation: a NaN that no operand was is invalid. -/
def rvResult (dbl : Bool) (cs : List Word) (v : Val) (mode : Mode × Nat) : Flagged :=
  let r := rvRound dbl v mode
  let fresh := v.isNan && !(cs.any fun c => (rvVal dbl c).isNan)
  (r.1, r.2 ||| rvSigFlag dbl cs ||| (if fresh then flNV else 0))

/-- Enough bits of a quotient for any format, its remainder in the last. -/
def rvQuot (a b : Val) : Val :=
  match a, b with
  | .nan, _ => .nan
  | _, .nan => .nan
  | .inf _, .inf _ => .nan
  | .inf s, b => .inf (s != b.isNeg)
  | .fin s _ _, .inf t => .fin (s != t) 0 0
  | .fin s m e, .fin t n d =>
    if n = 0 then (if m = 0 then .nan else .inf (s != t))
    else if m = 0 then .fin (s != t) 0 0
    else
      let x := m * 2 ^ (n.log2 + 64)
      .fin (s != t) (2 * (x / n) + (if x % n = 0 then 0 else 1)) (e - d - n.log2 - 65)

/-- Enough bits of a square root, its remainder in the last. -/
def rvRoot (a : Val) : Val :=
  match a with
  | .fin s m e =>
    if m = 0 then a
    else if s then .nan
    else
      let odd : Nat := (e % 2).toNat
      let x := m * 2 ^ odd * 2 ^ 128
      let r := isqrt x
      .fin false (2 * r + (if r * r = x then 0 else 1)) ((e - odd) / 2 - 65)
  | .inf true => .nan
  | a => a

/-- The four operations on two operands. A division of a finite number that is not zero by zero raises DZ. -/
def rvArith (op : RvFp) (dbl : Bool) (a b : Word) (mode : Mode × Nat) : Flagged :=
  let x := rvVal dbl a
  let y := rvVal dbl b
  let down := mode.1 == .rdn
  match op with
  | .add => rvResult dbl [a, b] (x.add down y) mode
  | .sub => rvResult dbl [a, b] (x.add down y.neg) mode
  | .mul => rvResult dbl [a, b] (x.mul y) mode
  | .div =>
    let r := rvResult dbl [a, b] (rvQuot x y) mode
    match x with
    | .fin _ m _ => if m != 0 && y.isZero then (r.1, r.2 ||| flDZ) else r
    | _ => r

def rvSqrt (dbl : Bool) (a : Word) (mode : Mode × Nat) : Flagged := rvResult dbl [a] (rvRoot (rvVal dbl a)) mode

/-- The fused operation: one rounding; zero times infinity is invalid whatever is added. -/
def rvMulAdd (negProd negAdd dbl : Bool) (a b c : Word) (mode : Mode × Nat) : Flagged :=
  let x := rvVal dbl a
  let y := rvVal dbl b
  let z := rvVal dbl c
  let p := if negProd then (x.mul y).neg else x.mul y
  let r := rvResult dbl [a, b, c] (p.add (mode.1 == .rdn) (if negAdd then z.neg else z)) mode
  if (x.mul y).isNan && !x.isNan && !y.isNan then (r.1, r.2 ||| flNV) else r

/-! ## Signs, order, classes -/

/-- A code with another sign. -/
def rvSign (dbl : Bool) (a : Word) (s : Bool) : Word :=
  if dbl then ofBool 1 s ++ field a 0 63 else zext64 (ofBool 1 s ++ field a 0 31)

/-- The sign bit of a code. -/
def rvNeg (dbl : Bool) (a : Word) : Bool := bit a (if dbl then 63 else 31)

/-- The sign injections. -/
def rvSgnj (f : BitVec 2) (dbl : Bool) (a b : Word) : Word :=
  rvSign dbl a (if f = 0 then rvNeg dbl b else if f = 1 then !rvNeg dbl b else rvNeg dbl a != rvNeg dbl b)

/-- The lesser or the greater: a NaN gives way to a number, and -0 is below +0. -/
def rvMinMax (max dbl : Bool) (a b : Word) : Flagged :=
  let x := rvVal dbl a
  let y := rvVal dbl b
  let below := x.lt y || (x.isZero && y.isZero && rvNeg dbl a && !rvNeg dbl b)
  let r := if x.isNan && y.isNan then rvNan dbl
    else if x.isNan then b
    else if y.isNan then a
    else if below != max then a else b
  (r, rvSigFlag dbl [a, b])

/-- FLE, FLT and FEQ: the first two take no NaN. -/
def rvCompare (f : BitVec 2) (dbl : Bool) (a b : Word) : Flagged :=
  let x := rvVal dbl a
  let y := rvVal dbl b
  if x.isNan || y.isNan then (0, if f = 2 then rvSigFlag dbl [a, b] else flNV)
  else
    let eq := !x.lt y && !y.lt x
    (ofBool 64 (if f = 2 then eq else if f = 1 then x.lt y else x.lt y || eq), 0)

/-- FCLASS. -/
def rvClass (dbl : Bool) (a : Word) : Word :=
  let f := rvFmt dbl
  let n := rvNeg dbl a
  let at0 (i : Nat) : Word := 1 <<< i
  match rvVal dbl a with
  | .nan => at0 (if rvSignals dbl a then 8 else 9)
  | .inf _ => at0 (if n then 0 else 7)
  | .fin _ m _ =>
    if m = 0 then at0 (if n then 3 else 4)
    else if m < 2 ^ f.mb then at0 (if n then 2 else 5)
    else at0 (if n then 1 else 6)

/-! ## Conversions -/

/-- The integer type of a conversion: signed or not, and its width. -/
def rvKind (kind : BitVec 2) : Bool × Nat := (!bit kind 0, if bit kind 1 then 64 else 32)

/-- An integer of `w` bits as an integer register holds it: 32 bits are sign extended. -/
def rvIntReg (w : Nat) (n : Int) : Word :=
  let c := BitVec.ofInt 64 n
  if w = 32 then sext64 (field c 0 32) else c

/-- A number to an integer: what lies outside the type gives its nearest end and NV; a NaN gives the greatest. -/
def rvToInt (kind : BitVec 2) (dbl : Bool) (a : Word) (mode : Mode × Nat) : Flagged :=
  let (sgn, w) := rvKind kind
  match rvVal dbl a with
  | .nan => (rvIntReg w (intMax sgn w), flNV)
  | .inf neg => (rvIntReg w (if neg then intMin sgn w else intMax sgn w), flNV)
  | .fin neg m e =>
    let n := roundInt neg m e mode.1 mode.2
    if n < intMin sgn w then (rvIntReg w (intMin sgn w), flNV)
    else if intMax sgn w < n then (rvIntReg w (intMax sgn w), flNV)
    else
      let exact := leScaled n.natAbs 0 m e && leScaled m e n.natAbs 0
      (rvIntReg w n, if exact then 0 else flNX)

/-- An integer to a number. -/
def rvOfInt (kind : BitVec 2) (dbl : Bool) (x : Word) (mode : Mode × Nat) : Flagged :=
  let (sgn, w) := rvKind kind
  rvRound dbl (.ofInt (intOf sgn w x.toNat)) mode

/-- A number of the other format. -/
def rvOther (dbl : Bool) (a : Word) (mode : Mode × Nat) : Flagged :=
  let r := rvRound dbl (rvVal (!dbl) a) mode
  (r.1, r.2 ||| rvSigFlag (!dbl) [a])

end Sys2Proof.Machine
end

