-- ==== Sys2Proof/Machine/Hart.lean ====
section
/-! DEFINITION. A hart of the firmware complex: its memory, its control registers, protection and translation, traps, and the execution of
one instruction (spec 10 R184, R185, 13 R231; what the two RISC-V volumes give is PRESUMED, log 162; what they leave to an implementation, DESIGN CHOICE, log 164). -/

namespace Sys2Proof.Machine

/-! ## Memory of its own (R184) -/

/-- The offset of an address of the complex's boot ROM and private SRAM. -/
def ownOff (addr : Nat) : Nat := addr % 2 ^ 52

/-- The place in the 8 MiB private SRAM of `n` bytes at an offset; none outside it. -/
def sramOff (off n : Nat) : Option Nat :=
  if Config.sramBase ≤ off && decide (off + n ≤ Config.sramBase + 2 ^ 23) then some (off - Config.sramBase) else none

/-- Bytes of the complex's own memory: its SRAM, and its boot ROM elsewhere. -/
def ownLoad (b : Boot) (off n : Nat) : List Byte :=
  match sramOff off n with
  | some o => bytesAt b.sram o n
  | none => tabulate n fun i => Config.bootRom (off + i)

/-- A reservation in the private SRAM ends with a store to its bytes. -/
def Hart.lose (off n : Nat) (h : Hart) : Hart :=
  match h.reserved with
  | some r =>
    if regionOf r.addr = 15 && decide (ownOff r.addr < off + n) && decide (off < ownOff r.addr + r.bytes) then { h with reserved := none }
    else h
  | none => h

/-- A store there; the boot ROM takes none. -/
def ownStore (b : Boot) (off : Nat) (bs : List Byte) : Boot :=
  match sramOff off bs.length with
  | some o => { b with sram := setBytes b.sram o bs, hart := b.hart.map (Hart.lose off bs.length) }
  | none => b

/-- What a hart reaches: gate words and reserved regions are out of reach, words of regions 2 and 3 are reached within themselves, and
a register only as a whole word (R231). -/
def hartReach (addr n : Nat) : Bool :=
  let r := regionOf addr
  r == 15 || (decide (r < 4) && (decide (r < 2) || addr % n == 0) && (r != 3 || n == 8))

/-- A load of a hart at a physical address; none where it takes the access-fault exception. -/
def hartRead (addr n : Nat) : M (Option (List Byte)) := do
  if !hartReach addr n then pure none
  else if regionOf addr = 15 then pure (some (ownLoad (← getState).boot (ownOff addr) n))
  else
    match ← attempt (unitLoad 0 .firmware 0 addr n) with
    | .ok b => pure (some b)
    | .error _ => pure none

/-- A store of a hart at a physical address; false where it takes the access-fault exception. -/
def hartWrite (addr n : Nat) (v : Word) : M Bool := do
  if !hartReach addr n then pure false
  else if regionOf addr = 15 then do
    modState fun s => { s with boot := ownStore s.boot (ownOff addr) (bytesOfW n v) }
    pure true
  else
    match ← attempt (unitStore 0 .firmware 0 addr (bytesOfW n v)) with
    | .ok _ => pure true
    | .error _ => pure false

/-- An indivisible read and write of a hart at a physical address: in lining memory at its home slice, and in private SRAM; none, with
the access-fault exception, elsewhere. -/
def hartRmw (addr n : Nat) (f : Nat → Nat) : M (Option Nat) := do
  let b := (← getState).boot
  if regionOf addr = 15 then
    if (sramOff (ownOff addr) n).isNone then pure none
    else
      let old := natOfBytes (ownLoad b (ownOff addr) n)
      modState fun s => { s with boot := ownStore s.boot (ownOff addr) (bytesOfNat n (f old)) }
      pure (some old)
  else if 2 ≤ regionOf addr then pure none
  else
    match ← attempt (homeRmw 0 0 addr n 0 fun old => some (f old)) with
    | .ok old => pure (some old)
    | .error _ => pure none

/-! ## Registers -/

/-- A register of the integer file; x0 reads 0. -/
def Hart.getX (h : Hart) (r : BitVec 5) : Word := if r = 0 then 0 else h.x[r.toNat]'r.isLt

/-- A register of the integer file written; x0 discards it. -/
def Hart.setX (h : Hart) (r : BitVec 5) (v : Word) : Hart := if r = 0 then h else { h with x := h.x.set r.toNat v r.isLt }

def Hart.getF (h : Hart) (r : BitVec 5) : Word := h.f[r.toNat]'r.isLt

/-- A field of a register written. -/
def rvPut (w : Word) (lo n : Nat) (v : Word) : Word :=
  (w &&& ~~~maskIf true lo n) ||| ((v <<< lo) &&& maskIf true lo n)

def rvPutBit (w : Word) (i : Nat) (b : Bool) : Word := rvPut w i 1 (ofBool 64 b)

/-- FS of mstatus (0 is off) and its dirty state. -/
def Hart.fpOff (h : Hart) : Bool := field h.mstatus 13 2 == 0
def Hart.dirty (h : Hart) : Hart := { h with mstatus := rvPut h.mstatus 13 2 3 }

/-- A register of the floating-point file written. -/
def Hart.setF (h : Hart) (dbl : Bool) (r : BitVec 5) (v : Word) : Hart :=
  { h with f := h.f.set r.toNat (rvBox dbl v) r.isLt }.dirty

/-- Flags raised. -/
def Hart.flag (h : Hart) (fl : BitVec 5) : Hart := { h with fflags := h.fflags ||| fl }.dirty

/-- The number of a mode, and the mode of a number; 2 is reserved. -/
def HartMode.num : HartMode → Nat
  | .u => 0
  | .s => 1
  | .m => 3

def modeOfBits (b : BitVec 2) : HartMode := if b = 0 then .u else if b = 1 then .s else .m

/-! ## Traps -/

/-- An exception: its cause and what goes to mtval or stval. -/
structure Trap where
  cause : Nat
  tval : Word
  deriving DecidableEq, Repr, Inhabited

/-- A part of an instruction, which may end in an exception. -/
abbrev HM (α : Type) := ExceptT Trap M α

def trap {α : Type} (cause : Nat) (tval : Word) : HM α := ExceptT.mk (pure (.error { cause := cause, tval := tval }))

/-- The illegal-instruction exception, with the instruction. -/
def illegalRv {α : Type} (raw : Word) : HM α := trap 2 raw

/-- The address of a handler: in vectored mode an interrupt has one of its own. -/
def rvVector (tvec : Word) (intr : Bool) (cause : Nat) : Word :=
  (tvec &&& ~~~3#64) + (if intr && bit tvec 0 then w64 (4 * cause) else 0)

/-- Taking a trap: in S-mode where it is delegated and comes from below M-mode, else in M-mode. -/
def Hart.take (h : Hart) (intr : Bool) (cause : Nat) (tval : Word) : Hart :=
  let code : Word := ofBool 1 intr ++ BitVec.ofNat 63 cause
  if h.mode != .m && bit (if intr then h.mideleg else h.medeleg) cause then
    let st := rvPutBit (rvPutBit (rvPutBit h.mstatus 8 (h.mode == .s)) 5 (bit h.mstatus 1)) 1 false
    { h with sepc := h.pc, scause := code, stval := tval, mstatus := st, mode := .s, pc := rvVector h.stvec intr cause }
  else
    let st := rvPutBit (rvPutBit (rvPut h.mstatus 11 2 (w64 h.mode.num)) 7 (bit h.mstatus 3)) 3 false
    { h with mepc := h.pc, mcause := code, mtval := tval, mstatus := st, mode := .m, pc := rvVector h.mtvec intr cause }

/-- MRET and SRET. -/
def Hart.mret (h : Hart) : Hart :=
  let dest := modeOfBits (field h.mstatus 11 2)
  let st := rvPut (rvPutBit (rvPutBit h.mstatus 3 (bit h.mstatus 7)) 7 true) 11 2 0
  { h with pc := h.mepc, mode := dest, mstatus := if dest == .m then st else rvPutBit st 17 false }

def Hart.sret (h : Hart) : Hart :=
  let st := rvPutBit (rvPutBit (rvPutBit h.mstatus 1 (bit h.mstatus 5)) 5 true) 8 false
  { h with pc := h.sepc, mode := if bit h.mstatus 8 then .s else .u, mstatus := rvPutBit st 17 false }

/-- The module raises the supervisor external interrupt (R185), at every hart (DEDUCED, log 163). -/
def HostIf.raised (h : HostIf) : Bool := h.irqLog || h.irqCold || h.irqFault

/-- mip as a hart sees it. -/
def Hart.pending (h : Hart) (seip : Bool) : Word := h.mip ||| ofBool 64 seip <<< 9

/-- The interrupt that a hart takes before its next instruction: those of M-mode first, and in the order MEI, MSI, MTI, SEI, SSI, STI. -/
def Hart.interrupt (h : Hart) (seip : Bool) : Option Nat :=
  let on := h.pending seip &&& h.mie
  let mOn := h.mode != .m || bit h.mstatus 3
  let sOn := h.mode == .u || (h.mode == .s && bit h.mstatus 1)
  let first (w : Word) : Option Nat := [11, 3, 7, 9, 1, 5].find? fun i => bit w i
  match (if mOn then first (on &&& ~~~h.mideleg) else none) with
  | some i => some i
  | none => if sOn then first (on &&& h.mideleg) else none

/-! ## Protection and translation -/

/-- The three kinds of access. -/
inductive RvAcc where
  | fetch | load | store
  deriving DecidableEq, Repr, Inhabited

/-- The causes of misalignment, access fault and page fault. -/
def RvAcc.misaligned : RvAcc → Nat
  | .fetch => 0
  | .load => 4
  | .store => 6
def RvAcc.access : RvAcc → Nat
  | .fetch => 1
  | .load => 5
  | .store => 7
def RvAcc.page : RvAcc → Nat
  | .fetch => 12
  | .load => 13
  | .store => 15

/-- The bytes that a PMP entry covers, from one address to before another. -/
def Hart.pmpSpan (h : Hart) (i : Nat) : Option (Nat × Nat) :=
  let a := (vget h.pmpaddr i).toNat
  match (field (vget h.pmpcfg i) 3 2).toNat with
  | 0 => none
  | 1 => some (if i = 0 then 0 else (vget h.pmpaddr (i - 1)).toNat * 4, a * 4)
  | 2 => some (a * 4, a * 4 + 4)
  | _ =>
    let size := (a ^^^ (a + 1)) + 1
    some (a / size * size * 4, (a / size * size + size) * 4)

/-- The access that a PMP entry allows. -/
def pmpAllows (cfg : BitVec 8) : RvAcc → Bool
  | .fetch => bit cfg 2
  | .load => bit cfg 0
  | .store => bit cfg 1

/-- Physical memory protection: the first entry that meets the access decides, and must cover all of it. -/
def Hart.pmpOk (h : Hart) (mode : HartMode) (acc : RvAcc) (addr n : Nat) : Bool :=
  match (List.range 16).findSome? fun i =>
      match h.pmpSpan i with
      | none => none
      | some (lo, hi) =>
        let cfg := vget h.pmpcfg i
        if decide (addr < hi) && decide (lo < addr + n) then
          some (decide (lo ≤ addr) && decide (addr + n ≤ hi) && ((mode == .m && !bit cfg 7) || pmpAllows cfg acc))
        else none with
  | some b => b
  | none => mode == .m

/-- A leaf of a page table allows an access. -/
def Hart.leafAllows (h : Hart) (acc : RvAcc) (mode : HartMode) (p : Word) : Bool :=
  let user := if bit p 4 then mode == .u || (mode == .s && acc != .fetch && bit h.mstatus 18) else mode == .s
  let kind := match acc with
    | .fetch => bit p 3
    | .load => bit p 1 || (bit h.mstatus 19 && bit p 3)
    | .store => bit p 2
  user && kind && bit p 6 && (acc != .store || bit p 7)

/-- The walk of a table of Sv48 at a level. DESIGN CHOICE (log 164): A and D are not set by the walk: an access that needs one takes the page-fault exception. -/
def hartWalk (h : Hart) (acc : RvAcc) (mode : HartMode) (va : Word) : Nat → Nat → HM Nat
  | 0, _ => trap acc.page va
  | level + 1, table => do
    let at0 := table + 8 * (va.toNat / 2 ^ (12 + 9 * level) % 512)
    if !h.pmpOk .s .load at0 8 then trap acc.access va
    else
      match ← (hartRead at0 8 : M _) with
      | none => trap acc.access va
      | some b =>
        let p := wordOf b
        let ppn := (field p 10 44).toNat
        if !bit p 0 || (!bit p 1 && bit p 2) || field p 54 10 != 0 then trap acc.page va
        else if !bit p 1 && !bit p 3 then
          if bit p 4 || bit p 6 || bit p 7 then trap acc.page va else hartWalk h acc mode va level (ppn * 4096)
        else if !h.leafAllows acc mode p || ppn % 2 ^ (9 * level) != 0 then trap acc.page va
        else pure (ppn * 4096 + va.toNat % 2 ^ (12 + 9 * level))

/-- The mode under which an access is made: MPRV lends loads and stores the mode of MPP. -/
def Hart.accMode (h : Hart) (acc : RvAcc) : HartMode :=
  if acc != .fetch && bit h.mstatus 17 then modeOfBits (field h.mstatus 11 2) else h.mode

/-- The physical address of `n` aligned bytes that the access may reach. -/
def hartAddr (h : Hart) (acc : RvAcc) (va : Word) (n : Nat) : HM Nat := do
  let mode := h.accMode acc
  let pa ← (if mode == .m || field h.satp 60 4 == 0 then (pure va.toNat : HM Nat)
    else if sext64 (field va 0 48) != va then trap acc.page va
    else hartWalk h acc mode va 4 ((field h.satp 0 44).toNat * 4096))
  if decide (2 ^ 56 ≤ pa) || !h.pmpOk mode acc pa n then trap acc.access va else pure pa

/-- A load of `n` bytes. DESIGN CHOICE (log 164): what is not aligned takes the misaligned exception. -/
def hartLd (h : Hart) (va : Word) (n : Nat) : HM Word := do
  if va.toNat % n != 0 then trap 4 va
  else
    match ← (hartRead (← hartAddr h .load va n) n : M _) with
    | some b => pure (wordOf b)
    | none => trap 5 va

/-- A store of `n` bytes. -/
def hartSt (h : Hart) (va : Word) (n : Nat) (v : Word) : HM Unit := do
  if va.toNat % n != 0 then trap 6 va
  else if ← (hartWrite (← hartAddr h .store va n) n v : M _) then pure ()
  else trap 7 va

/-- Sixteen bits of a program. -/
def hartHalf (h : Hart) (va : Word) : HM (BitVec 16) := do
  match ← (hartRead (← hartAddr h .fetch va 2) 2 : M _) with
  | some b => pure (BitVec.ofNat 16 (natOfBytes b))
  | none => trap 1 va

/-- The instruction at the pc: its bits, its length, and what it is. -/
def hartFetch (h : Hart) : HM (Word × Nat × Option RvOp) := do
  let lo ← hartHalf h h.pc
  if field lo 0 2 != 3 then pure (zext64 lo, 2, rvcDecode lo)
  else
    let hi ← hartHalf h (h.pc + 2)
    pure (zext64 (hi ++ lo), 4, rvDecode (hi ++ lo))

/-! ## Control and status registers -/

/-- What can be written of mstatus and of its view sstatus. -/
def mstatusMask : Word := 0x7E79AA
def sstatusMask : Word := 0xC6122

/-- mstatus as it reads: UXL and SXL are 2, and SD says that FS is dirty. -/
def Hart.statusWord (h : Hart) : Word :=
  h.mstatus ||| 0xA00000000 ||| (if field h.mstatus 13 2 == 3 then 1#64 <<< 63 else 0)

/-- A write of mstatus under a mask; MPP keeps its value where 2 is written. -/
def Hart.setStatus (h : Hart) (mask v : Word) : Hart :=
  let w := (h.mstatus &&& ~~~mask) ||| (v &&& mask)
  { h with mstatus := if field w 11 2 = 2 then rvPut w 11 2 (zext64 (field h.mstatus 11 2)) else w }

/-- The interrupts of S-mode. -/
def sInts : Word := 0x222

/-- MISA: RV64 with A, C, D, F, I, M, S and U. -/
def misaWord : Word := 0x800000000014112D

/-- A PMP configuration as it is stored: reserved bits are 0, and W without R is not stored. -/
def pmpLegal (v : BitVec 8) : BitVec 8 :=
  let v := v &&& 0x9F
  if bit v 1 && !bit v 0 then v &&& ~~~2#8 else v

/-- Eight PMP configurations, as a register holds them. -/
def Hart.pmpcfgWord (h : Hart) (base : Nat) : Word :=
  wordOf ((List.range 8).map fun i => vget h.pmpcfg (base + i))

/-- Eight PMP configurations written; a locked one stays. -/
def Hart.setPmpcfg (h : Hart) (base : Nat) (v : Word) : Hart :=
  { h with pmpcfg := Vector.ofFn fun i : Fin 16 =>
      let old := vget h.pmpcfg i.val
      if decide (i.val < base) || decide (base + 8 ≤ i.val) || bit old 7 then old
      else pmpLegal (field v (8 * (i.val - base)) 8) }

/-- A PMP address stays where its entry is locked, or the next is locked and begins there. -/
def Hart.setPmpaddr (h : Hart) (i : Nat) (v : Word) : Hart :=
  let next := vget h.pmpcfg (i + 1)
  if bit (vget h.pmpcfg i) 7 || (decide (i < 15) && bit next 7 && field next 3 2 == 1) then h
  else { h with pmpaddr := vset h.pmpaddr i (zext64 (field v 0 54)) }

/-- The value of a control register; none where there is none. `seip` is the module's interrupt. -/
def Hart.csr (h : Hart) (seip : Bool) (hartId n : Nat) : Option Word :=
  match n with
  | 0x001 => some (zext64 h.fflags)
  | 0x002 => some (zext64 h.frm)
  | 0x003 => some (zext64 (h.frm ++ h.fflags))
  | 0x100 => some (h.statusWord &&& (sstatusMask ||| 0x8000000200000000))
  | 0x104 => some (h.mie &&& h.mideleg)
  | 0x105 => some h.stvec
  | 0x106 => some (zext64 h.scounteren)
  | 0x10A => some (ofBool 64 h.senvcfg)
  | 0x140 => some h.sscratch
  | 0x141 => some h.sepc
  | 0x142 => some h.scause
  | 0x143 => some h.stval
  | 0x144 => some (h.pending seip &&& h.mideleg)
  | 0x180 => some h.satp
  | 0x300 => some h.statusWord
  | 0x301 => some misaWord
  | 0x302 => some h.medeleg
  | 0x303 => some h.mideleg
  | 0x304 => some h.mie
  | 0x305 => some h.mtvec
  | 0x306 => some (zext64 h.mcounteren)
  | 0x30A => some (ofBool 64 h.menvcfg)
  | 0x320 => some (zext64 h.mcountinhibit)
  | 0x340 => some h.mscratch
  | 0x341 => some h.mepc
  | 0x342 => some h.mcause
  | 0x343 => some h.mtval
  | 0x344 => some (h.pending seip)
  | 0x3A0 => some (h.pmpcfgWord 0)
  | 0x3A2 => some (h.pmpcfgWord 8)
  | 0xB00 => some h.mcycle
  | 0xB02 => some h.minstret
  | 0xC00 => some h.mcycle
  | 0xC02 => some h.minstret
  | 0xF11 => some Config.hartVendor
  | 0xF12 => some Config.hartArch
  | 0xF13 => some Config.hartImp
  | 0xF14 => some (w64 hartId)
  | 0xF15 => some Config.hartConfig
  | n =>
    if 0x3B0 ≤ n ∧ n < 0x3C0 then some (vget h.pmpaddr (n - 0x3B0))
    else if (0xB03 ≤ n ∧ n < 0xB20) ∨ (0x323 ≤ n ∧ n < 0x340) ∨ (0xC03 ≤ n ∧ n < 0xC20) then some 0
    else none

/-- A control register written, each under its own rule of legal values. -/
def Hart.setCsr (h : Hart) (n : Nat) (v : Word) : Hart :=
  match n with
  | 0x001 => { h with fflags := field v 0 5 }.dirty
  | 0x002 => { h with frm := field v 0 3 }.dirty
  | 0x003 => { h with fflags := field v 0 5, frm := field v 5 3 }.dirty
  | 0x100 => h.setStatus sstatusMask v
  | 0x104 => { h with mie := (h.mie &&& ~~~h.mideleg) ||| (v &&& h.mideleg) }
  | 0x105 => { h with stvec := v &&& ~~~2#64 }
  | 0x106 => { h with scounteren := field v 0 32 }
  | 0x10A => { h with senvcfg := bit v 0 }
  | 0x140 => { h with sscratch := v }
  | 0x141 => { h with sepc := v &&& ~~~1#64 }
  | 0x142 => { h with scause := v }
  | 0x143 => { h with stval := v }
  | 0x144 => if bit h.mideleg 1 then { h with mip := rvPutBit h.mip 1 (bit v 1) } else h
  | 0x180 => if field v 60 4 = 0 ∨ field v 60 4 = 9 then { h with satp := v } else h
  | 0x300 => h.setStatus mstatusMask v
  | 0x302 => { h with medeleg := v &&& 0xB3FF }
  | 0x303 => { h with mideleg := v &&& sInts }
  | 0x304 => { h with mie := v &&& 0xAAA }
  | 0x305 => { h with mtvec := v &&& ~~~2#64 }
  | 0x306 => { h with mcounteren := field v 0 32 }
  | 0x30A => { h with menvcfg := bit v 0 }
  | 0x320 => { h with mcountinhibit := field v 0 32 &&& 5 }
  | 0x340 => { h with mscratch := v }
  | 0x341 => { h with mepc := v &&& ~~~1#64 }
  | 0x342 => { h with mcause := v }
  | 0x343 => { h with mtval := v }
  | 0x344 => { h with mip := (h.mip &&& ~~~sInts) ||| (v &&& sInts) }
  | 0x3A0 => h.setPmpcfg 0 v
  | 0x3A2 => h.setPmpcfg 8 v
  | 0xB00 => { h with mcycle := v }
  | 0xB02 => { h with minstret := v }
  | n => if 0x3B0 ≤ n ∧ n < 0x3C0 then h.setPmpaddr (n - 0x3B0) v else h

/-- A counter of number `k` may be read. -/
def Hart.counterOk (h : Hart) (k : Nat) : Bool :=
  h.mode == .m || (bit h.mcounteren k && (h.mode == .s || bit h.scounteren k))

/-- A register may be read, or written, in the present mode. -/
def Hart.csrOk (h : Hart) (n : BitVec 12) (writes : Bool) : Bool :=
  decide ((field n 8 2).toNat ≤ h.mode.num) && !(writes && field n 10 2 == 3) &&
    !(n == 0x180 && h.mode == .s && bit h.mstatus 20) &&
    !(decide (1 ≤ n.toNat) && decide (n.toNat ≤ 3) && h.fpOff) &&
    !(field n 5 7 == 0x60 && !h.counterOk (n.toNat % 32))

/-- The Zicsr instructions. Software's own bit of SEIP is what CSRRS and CSRRC of mip read and write. -/
def hartCsr (i : Nat) (h : Hart) (raw : Word) (f : BitVec 3) (rd rs : BitVec 5) (n : BitVec 12) : HM Hart := do
  let src := if bit f 2 then zext64 rs else h.getX rs
  let swap := field f 0 2 == 1
  let writes := swap || rs != 0
  let seip := (← (getState : M State)).host.raised
  let old ← (if n = 0xC01 then do pure (some (← (freeWord : M Word))) else pure (h.csr seip i n.toNat) : HM (Option Word))
  match old with
  | none => illegalRv raw
  | some old =>
    if !h.csrOk n writes then illegalRv raw
    else
      let own := if n = 0x344 then h.mip else old
      let new := if swap then src else if field f 0 2 == 2 then own ||| src else own &&& ~~~src
      pure ((if writes then h.setCsr n.toNat new else h).setX rd old)

/-! ## The integer unit -/

/-- A result of `n` bits. -/
def rvAlu {n : Nat} (op : RvAlu) (a b : BitVec n) : BitVec n :=
  let sh := b.toNat % n
  match op with
  | .add => a + b
  | .sub => a - b
  | .sll => a <<< sh
  | .slt => ofBool n (a.slt b)
  | .sltu => ofBool n (a.ult b)
  | .xor => a ^^^ b
  | .srl => a >>> sh
  | .sra => a.sshiftRight sh
  | .or => a ||| b
  | .and => a &&& b
  | .mul => a * b
  | .mulh => BitVec.ofInt n (a.toInt * b.toInt / 2 ^ n)
  | .mulhsu => BitVec.ofInt n (a.toInt * b.toNat / 2 ^ n)
  | .mulhu => BitVec.ofNat n (a.toNat * b.toNat / 2 ^ n)
  | .div => if b = 0 then BitVec.allOnes n else a.sdiv b
  | .divu => if b = 0 then BitVec.allOnes n else a / b
  | .rem => if b = 0 then a else a.srem b
  | .remu => if b = 0 then a else a % b

/-- The same, of a word or of its lower half, sign extended. -/
def rvAluOf (op : RvAlu) (w : Bool) (a b : Word) : Word :=
  if w then sext64 (rvAlu op (field a 0 32) (field b 0 32)) else rvAlu op a b

/-- A branch is taken. -/
def rvTaken (f : BitVec 3) (a b : Word) : Bool :=
  let t := if bit f 2 then (if bit f 1 then a.ult b else a.slt b) else a == b
  t != bit f 0

/-- A value read by a load. -/
def rvExtend (f : BitVec 3) (w : Word) : Word :=
  match f.toNat with
  | 0 => sext64 (field w 0 8)
  | 1 => sext64 (field w 0 16)
  | 2 => sext64 (field w 0 32)
  | _ => w

/-- What an atomic writes. -/
def rvAmo {n : Nat} (op : RvAmo) (a b : BitVec n) : BitVec n :=
  match op with
  | .swap => b
  | .add => a + b
  | .xor => a ^^^ b
  | .and => a &&& b
  | .or => a ||| b
  | .min => if a.slt b then a else b
  | .max => if a.slt b then b else a
  | .minu => if a.ult b then a else b
  | .maxu => if a.ult b then b else a

/-! ## The atomics -/

/-- A size of four or eight bytes, and a value of that size as a register holds it. -/
def rvBytes (dbl : Bool) : Nat := if dbl then 8 else 4
def rvSized (dbl : Bool) (w : Word) : Word := if dbl then w else sext64 (field w 0 32)

/-- The stamp of the last write at an address. -/
def hartStamp (s : State) (addr : Nat) : VClock := if regionOf addr = 15 then VClock.zero else s.stampOf (addr / 64)

/-- Memory in which LR and SC act: lining memory and private SRAM. -/
def hartReserves (addr n : Nat) : Bool :=
  decide (regionOf addr < 2) || (regionOf addr == 15 && (sramOff (ownOff addr) n).isSome)

/-- LR. -/
def hartLr (h next : Hart) (dbl : Bool) (rd rs : BitVec 5) : HM Hart := do
  let va := h.getX rs
  let n := rvBytes dbl
  if va.toNat % n != 0 then trap 4 va
  else
    let pa ← hartAddr h .load va n
    if !hartReserves pa n then trap 5 va
    else
      match ← (hartRead pa n : M _) with
      | none => trap 5 va
      | some b =>
        let s ← (getState : M State)
        let r : Reserved := { addr := pa, bytes := n, stamp := hartStamp s pa }
        pure { next.setX rd (rvSized dbl (wordOf b)) with reserved := some r }

/-- SC: it writes while the reservation stands, and nothing has been written to its line. It ends the reservation. -/
def hartSc (h next : Hart) (dbl : Bool) (rd rs1 rs2 : BitVec 5) : HM Hart := do
  let va := h.getX rs1
  let n := rvBytes dbl
  if va.toNat % n != 0 then trap 6 va
  else
    let pa ← hartAddr h .store va n
    if !hartReserves pa n then trap 7 va
    else
      let s ← (getState : M State)
      let r : Reserved := { addr := pa, bytes := n, stamp := hartStamp s pa }
      let done := { next with reserved := none }
      if h.reserved = some r then
        if ← (hartWrite pa n (h.getX rs2) : M _) then pure (done.setX rd 0) else trap 7 va
      else pure (done.setX rd 1)

/-- The other atomics. -/
def hartAmo (h next : Hart) (op : RvAmo) (dbl : Bool) (rd rs1 rs2 : BitVec 5) : HM Hart := do
  let va := h.getX rs1
  let n := rvBytes dbl
  let b := h.getX rs2
  if va.toNat % n != 0 then trap 6 va
  else
    let f (old : Nat) : Nat :=
      if dbl then (rvAmo op (w64 old) b).toNat else (rvAmo op (BitVec.ofNat 32 old) (field b 0 32)).toNat
    match ← (hartRmw (← hartAddr h .store va n) n f : M _) with
    | some old => pure (next.setX rd (rvSized dbl (w64 old)))
    | none => trap 7 va

/-! ## One instruction -/

/-- A floating-point result, and an integer result of the floating-point unit. -/
def Hart.putF (h : Hart) (dbl : Bool) (rd : BitVec 5) (r : Flagged) : Hart := (h.setF dbl rd r.1).flag r.2
def Hart.putFX (h : Hart) (rd : BitVec 5) (r : Flagged) : Hart := (h.setX rd r.1).flag r.2

/-- The instructions of F and D that reach no memory: the hart after one, or none for a rounding mode that is reserved. -/
def Hart.fpOp (h next : Hart) (op : RvOp) : Option Hart :=
  let src (dbl : Bool) (r : BitVec 5) : Word := rvUnbox dbl (h.getF r)
  let withMode (rm : BitVec 3) (k : Mode × Nat → Hart) : Option Hart := (rvMode (if rm = 7 then h.frm else rm)).map k
  match op with
  | .fma np na d rd a b c rm => withMode rm fun m => next.putF d rd (rvMulAdd np na d (src d a) (src d b) (src d c) m)
  | .farith op d rd a b rm => withMode rm fun m => next.putF d rd (rvArith op d (src d a) (src d b) m)
  | .fsqrt d rd a rm => withMode rm fun m => next.putF d rd (rvSqrt d (src d a) m)
  | .fsgnj f d rd a b => some (next.setF d rd (rvSgnj f d (src d a) (src d b)))
  | .fminmax mx d rd a b => some (next.putF d rd (rvMinMax mx d (src d a) (src d b)))
  | .fcmp f d rd a b => some (next.putFX rd (rvCompare f d (src d a) (src d b)))
  | .fclass d rd a => some (next.setX rd (rvClass d (src d a)))
  | .fcvtF d rd a rm => withMode rm fun m => next.putF d rd (rvOther d (src (!d) a) m)
  | .fcvtToInt k d rd a rm => withMode rm fun m => next.putFX rd (rvToInt k d (src d a) m)
  | .fcvtOfInt k d rd a rm => withMode rm fun m => next.putF d rd (rvOfInt k d (h.getX a) m)
  | .fmvToInt d rd a => some (next.setX rd (rvSized d (h.getF a)))
  | .fmvOfInt d rd a => some (next.setF d rd (h.getX a))
  | _ => none

/-- The next state of hart `i` after an instruction of `len` bytes. -/
def hartOp (i : Nat) (h : Hart) (raw : Word) (len : Nat) (op : RvOp) : HM Hart :=
  let next := { h with pc := h.pc + w64 len }
  match op with
  | .lui rd imm => pure (next.setX rd imm)
  | .auipc rd imm => pure (next.setX rd (h.pc + imm))
  | .jal rd off => pure { next.setX rd next.pc with pc := h.pc + off }
  | .jalr rd rs off => pure { next.setX rd next.pc with pc := (h.getX rs + off) &&& ~~~1#64 }
  | .branch f a b off => pure (if rvTaken f (h.getX a) (h.getX b) then { h with pc := h.pc + off } else next)
  | .load f rd rs off => do pure (next.setX rd (rvExtend f (← hartLd h (h.getX rs + off) (2 ^ (field f 0 2).toNat))))
  | .store f a b off => do
    hartSt h (h.getX a + off) (2 ^ f.toNat) (h.getX b)
    pure next
  | .aluImm op w rd rs imm => pure (next.setX rd (rvAluOf op w (h.getX rs) imm))
  | .alu op w rd a b => pure (next.setX rd (rvAluOf op w (h.getX a) (h.getX b)))
  | .fence => pure next
  | .fenceI => pure next
  | .ecall => trap (8 + h.mode.num) 0
  | .ebreak => trap 3 h.pc
  | .sret => if h.mode == .u || (h.mode == .s && bit h.mstatus 22) then illegalRv raw else pure h.sret
  | .mret => if h.mode == .m then pure h.mret else illegalRv raw
  | .wfi => pure next
  | .sfence _ _ => if h.mode == .u || (h.mode == .s && bit h.mstatus 20) then illegalRv raw else pure next
  | .csr f rd rs n => hartCsr i next raw f rd rs n
  | .lr d rd rs => hartLr h next d rd rs
  | .sc d rd a b => hartSc h next d rd a b
  | .amo op d rd a b => hartAmo h next op d rd a b
  | .fload d rd rs off =>
    if h.fpOff then illegalRv raw
    else do pure (next.setF d rd (← hartLd h (h.getX rs + off) (rvBytes d)))
  | .fstore d a b off =>
    if h.fpOff then illegalRv raw
    else do
      hartSt h (h.getX a + off) (rvBytes d) (h.getF b)
      pure next
  | op =>
    if h.fpOff then illegalRv raw
    else match h.fpOp next op with
      | some h => pure h
      | none => illegalRv raw

/-- An instruction that retires counts, unless it has written the count itself. -/
def Hart.retire (h : Hart) (op : RvOp) : Hart :=
  let wrote := match op with
    | .csr f _ rs n => n == 0xB02 && (field f 0 2 == 1 || rs != 0)
    | _ => false
  if bit h.mcountinhibit 2 || wrote then h else { h with minstret := h.minstret + 1 }

/-- Fetching and executing one instruction: the hart after it. -/
def hartInstr (i : Nat) (h : Hart) : HM Hart := do
  let (raw, len, op) ← hartFetch h
  match op with
  | none => illegalRv raw
  | some op => do pure ((← hartOp i h raw len op).retire op)

def State.putHart (s : State) (i : Nat) (h : Hart) : State := { s with boot := { s.boot with hart := vset s.boot.hart i h } }

/-- The requests that raised the supervisor external interrupt have reached the scheduler; the log's stands while it has entries
(R185, R406; DEDUCED, log 163). -/
def HostIf.served (h : HostIf) : HostIf := { h with irqCold := false, irqFault := false }

/-- A step of a hart: an interrupt that it takes, or its next instruction, with the exception that this raises. The count of its
cycles moves on by an amount that is free. -/
def hartStep (i : Nat) : M Unit := do
  let s ← getState
  let h0 := vget s.boot.hart i
  match h0.interrupt s.host.raised with
  | some c => modState fun s =>
      { s.putHart i (h0.take true c 0) with host := if c = 9 then s.host.served else s.host }
  | none => do
    let h ← (if bit h0.mcountinhibit 0 then pure h0 else do pure { h0 with mcycle := ← freeWord })
    match ← (hartInstr i h).run with
    | .ok h => modState fun s => s.putHart i h
    | .error t => modState fun s => s.putHart i (h.take false t.cause t.tval)

end Sys2Proof.Machine
end

