-- ==== Sys2Proof/Machine/Firmware.lean ====
section
/-! DEFINITION. The firmware complex: what its harts do to the module (spec 02 R17, 10 R176, R184, 11 R194, R195, 12 R223). -/

namespace Sys2Proof.Machine

/-! ## Settings without a register (log 136) -/

/-- A range that firmware registers: in region 0 or region 3 (R176). -/
def hostRegion (what : Nat × Nat × Tag) : Option HostRegion :=
  let r := regionOf what.1
  if (r = 0 || r = 3) && regionOf (what.1 + what.2.1 - 1) == r then
    some { base := what.1, len := what.2.1, owner := what.2.2 }
  else none

/-- A table entry set, or taken back. -/
def putRegion (m : SMap HostRegion) (n : Nat) (what : Option (Nat × Nat × Tag)) : SMap HostRegion :=
  match what with
  | none => mapDel m n
  | some w => match hostRegion w with
    | some r => mapPut m n r
    | none => m

/-- No stream of a core has started. -/
def Core.waits (k : Core) : Bool := !k.rings.any (·.started)

/-- A CSR that firmware sets before the streams start; a value that CSRW refuses is not set. -/
def Core.preset (k : Core) (cycle n : Nat) (v : Word) : Core :=
  if k.waits && !(n == 0x20 && decide (5 ≤ (field v 0 3).toNat)) then k.setCsr cycle n v else k

/-- A feed ring that firmware maps before the streams start (R223, R340). -/
def presetFeed (c : CoreId) (addr : Nat) : M Unit := do
  let ws ← (List.range 5).mapM fun i => do pure (wordOf ((← hartRead (addr + 8 * i) 8).getD []))
  let w (i : Nat) : Word := ws.getD i 0
  let s ← getState
  if (s.core c).waits && !feedReserved w && feedOk w then
    modState fun s => s.installFeed c (feedOf s (s.core c).feed w)

/-- A plug-in measured into MREG3 (R194). -/
def Boot.measure (b : Boot) (image : List Byte) : Boot := { b with mreg := vset b.mreg 3 (extendReg (vget b.mreg 3) image) }

/-- A quote (R195): the nonce, the measurement registers, MODULE and the time, under the identity key. -/
def quoteBytes (b : Boot) (nonce : BitVec 512) (ft : Word) : List Byte :=
  let body := lineBytes nonce ++ (b.mreg.toList.map lineBytes).flatten ++ bytesOfW 8 b.module ++ bytesOfW 8 ft
  body ++ bytesOfNat 512 (Config.identitySign body).toNat

/-! ## A hart's step -/

/-- What hart `i` does: its next instruction; an access of its M-mode by itself; or a setting. -/
def hartAccess (i : Nat) (addr : Nat) (acc : HartAccess) : M Unit :=
  match acc with
  | .run => hartStep i
  | .load z => do
    let _ ← hartRead addr (2 ^ z.toNat)
    pure ()
  | .store z v => do
    let _ ← hartWrite addr (2 ^ z.toNat) v
    pure ()
  | .setContext tag budget dom =>
    modState fun s => { s with ctxs := mapPut s.ctxs tag.toNat { budget := budget, dom := dom } }
  | .setRegion n what => modState fun s => s.onHost fun h => { h with regions := putRegion h.regions n what }
  | .setReceive n what => modState fun s => s.onHost fun h => { h with receives := putRegion h.receives n what }
  | .setCsr c n v => modState fun s => s.onCore c fun k => k.preset s.cycle n.toNat v
  | .setFeed c a => presetFeed c a.toNat
  | .measure image => modState fun s => { s with boot := s.boot.measure image }
  | .quote nonce =>
    modState fun s => { s with boot := { s.boot with quotes := s.boot.quotes ++ [quoteBytes s.boot nonce (s.ftOf 0)] } }

/-- A step of a running hart (R184); a request of it that waits on a draining page is made again at its next step (R385). -/
def execFirmwareComplexAccess (hart : BitVec 2) (addr : BitVec 56) (acc : HartAccess) (s : State) : Out :=
  if !bit s.boot.harts hart.toNat then .next s else runUnit (unitHart hart.toNat) (hartAccess hart.toNat addr.toNat acc) s

end Sys2Proof.Machine
end

