-- ==== Sys2Proof/Machine/Idle.lean ====
section
/-! DEFINITION. When a cluster enters P1 and leaves it (spec 11 R197). -/

namespace Sys2Proof.Machine

/-! ## Stalls that let a cluster retain (R197) -/

/-- A POPPASS past its wait byte finds no record, or no room for what it hands over (R260, R362). -/
def State.popWaits (s : State) (c : CoreId) : Bool :=
  let k := s.core c
  match k.feed with
  | none => false
  | some f =>
    (match fetchPass f { s with cur := c } with
     | .error .waiting _ => true
     | _ => false) || (k.handover.isSome && decide ((vget s.gath k.passGath).free < 65))

/-- A word past its wait byte has a condition of its own that does not hold. -/
def State.aWaits (s : State) (c : CoreId) (i : Instr) : Bool :=
  let k := s.core c
  match i with
  | .fwait _ o => decide ((vget k.flags ((flagIdx k.flagNum k.flagBase o.vf).getD 0)).count.toNat < o.n.toNat)
  | .monw _ _ => k.monitor.any fun m => !m.woken && !(m.deadline.any fun d => decide (d ≤ (s.ftOf (panelOf c)).toNat))
  | .bfillw _ o => decide ((vget k.bobbins o.b.toNat).filled < o.n.toNat)
  | .bfreew _ o => decide ((vget k.bobbins o.b.toNat).free < o.n.toNat)
  | .poppass _ _ => s.popWaits c
  | _ => false

/-- The head word of an A stream is stalled without effect: at its wait byte, in JOIN, or past its wait byte. -/
def State.aIdle (s : State) (c : CoreId) : Bool :=
  let k := s.core c
  k.aMoves.isEmpty &&
  match k.headOf .a with
  | none => true
  | some w =>
    match decodeA w with
    | some i =>
      let waits := match i.hdr? with
        | some h => !k.wdone && (k.passWait h.2.wait).isNone
        | none => false
      let joins := match i with
        | .join _ t =>
          (match vget k.marks t.toNat with
           | some (m, v, c) => !(k.markReached .m m && k.markReached .v v && k.markReached .c c)
           | none => false)
        | _ => false
      waits || joins || (k.wdone && s.aWaits c i)
    | none => false

def Core.xIdle (k : Core) : Bool :=
  k.xProg.isEmpty && (k.xHalt.isSome ||
    (match k.headOf .x with
     | none => true
     | some w =>
       match decodeX w with
       | some i => (match i.hdr? with
         | some h => (k.passWait h.2.wait).isNone
         | none => false)
       | none => false))

/-- The KIND 2 stall of an engine's head word. -/
def Core.bobIdle (k : Core) (t : Strm) (i : Instr) : Bool :=
  (descFields i).any fun e =>
    k.bobStall t { at0 := e.1, num := e.2, src := e.1 != 36 } (vget (k.engine t).shadow e.2.toNat)

/-- A link word at the head whose block has not come. -/
def State.blockIdle (s : State) (c : CoreId) (i : Instr) : Bool :=
  match i with
  | .clrecv _ o => noBlock o.link o.block s c [vget (s.core c).c.shadow o.d.toNat]
  | .clred _ o => noBlock o.link o.block s c [vget (s.core c).c.shadow o.d0.toNat]
  | _ => false

/-- An engine has nothing to run, is halted, or its head word is stalled without effect. -/
def State.engIdle (s : State) (c : CoreId) (t : Strm) : Bool :=
  let k := s.core c
  let g := k.engine t
  g.prog.isEmpty &&
    (g.halt.isSome ||
      (match g.buf with
       | [] => (k.ring t).fetch == (k.ring t).pub || !(k.ring t).started
       | (_, w) :: _ =>
         match decodeWord t w with
         | .word i m =>
           m == 0 && ((match i.hdr? with
             | some h => (k.passWait h.2.wait).isNone
             | none => false) || k.bobIdle t i || s.blockIdle c i)
         | .illegal => false))

/-- Every stream of a core is stalled without effect. -/
def State.coreStalled (s : State) (c : CoreId) : Bool :=
  let k := s.core c
  s.aIdle c && k.xIdle && !k.finc && s.engIdle c .m && s.engIdle c .v && s.engIdle c .c

/-- Every stream of a core has been stalled without effect for IDLE µs. -/
def State.coreIdle (s : State) (c : CoreId) : Bool :=
  decide ((s.core c).movedAt + 4000 * s.power.idle.toNat ≤ s.cycle) && s.coreStalled c

/-! ## P1 -/

def execP1Entry (cluster : BitVec 3) (s : State) : Out :=
  let n := cluster.toNat
  if vget s.power.cluster n = 0 && s.power.idle != 0 && (s.coresOf n).all s.coreIdle then .next (s.setCluster n 1)
  else .next s

/-- A cluster in P1 of which some stream is no longer stalled, after a write that its MONW watches or at that MONW's time, runs
again; what R197's other causes do wakes it as they act. -/
def execP1Exit (cluster : BitVec 3) (s : State) : Out :=
  let n := cluster.toNat
  if (s.coresOf n).all s.coreStalled then .next s else .next (s.wakeCluster n)

end Sys2Proof.Machine
end

