-- ==== Sys2Proof/Machine/Dispatch.lean ====
section
/-! DEFINITION. The meaning of every instruction, one arm per constructor. -/

namespace Sys2Proof.Machine

def exec (i : Instr) (s : State) : Host.Outcome State Fault Refusal :=
  match i with
  | .aNop h => Sys2Proof.Machine.execANop h s
  | .aLi h o => Sys2Proof.Machine.execALi h o s
  | .aLih h o => Sys2Proof.Machine.execALih h o s
  | .aAdd h o => Sys2Proof.Machine.execAAdd h o s
  | .aAddi h o => Sys2Proof.Machine.execAAddi h o s
  | .aSub h o => Sys2Proof.Machine.execASub h o s
  | .aAnd h o => Sys2Proof.Machine.execAAnd h o s
  | .aOr h o => Sys2Proof.Machine.execAOr h o s
  | .aXor h o => Sys2Proof.Machine.execAXor h o s
  | .shli h o => Sys2Proof.Machine.execShli h o s
  | .shri h o => Sys2Proof.Machine.execShri h o s
  | .lea h o => Sys2Proof.Machine.execLea h o s
  | .lds h o => Sys2Proof.Machine.execLds h o s
  | .sts h o => Sys2Proof.Machine.execSts h o s
  | .ldm h o => Sys2Proof.Machine.execLdm h o s
  | .stm h o => Sys2Proof.Machine.execStm h o s
  | .ldc h o => Sys2Proof.Machine.execLdc h o s
  | .csync h => Sys2Proof.Machine.execCsync h s
  | .pfm h o => Sys2Proof.Machine.execPfm h o s
  | .beq h o => Sys2Proof.Machine.execBeq h o s
  | .bne h o => Sys2Proof.Machine.execBne h o s
  | .blt h o => Sys2Proof.Machine.execBlt h o s
  | .bge h o => Sys2Proof.Machine.execBge h o s
  | .aJmp h o => Sys2Proof.Machine.execAJmp h o s
  | .aJr h o => Sys2Proof.Machine.execAJr h o s
  | .aadd h o => Sys2Proof.Machine.execAadd h o s
  | .aaddb h o => Sys2Proof.Machine.execAaddb h o s
  | .amax h o => Sys2Proof.Machine.execAmax h o s
  | .amin h o => Sys2Proof.Machine.execAmin h o s
  | .aor h o => Sys2Proof.Machine.execAor h o s
  | .axchg h o => Sys2Proof.Machine.execAxchg h o s
  | .acas h o => Sys2Proof.Machine.execAcas h o s
  | .raddf h o => Sys2Proof.Machine.execRaddf h o s
  | .gset h o => Sys2Proof.Machine.execGset h o s
  | .gclr h o => Sys2Proof.Machine.execGclr h o s
  | .gld h o => Sys2Proof.Machine.execGld h o s
  | .finc h o => Sys2Proof.Machine.execFinc h o s
  | .fset h o => Sys2Proof.Machine.execFset h o s
  | .frd h o => Sys2Proof.Machine.execFrd h o s
  | .fwait h o => Sys2Proof.Machine.execFwait h o s
  | .bbind h o => Sys2Proof.Machine.execBbind h o s
  | .bfillw h o => Sys2Proof.Machine.execBfillw h o s
  | .bfreew h o => Sys2Proof.Machine.execBfreew h o s
  | .badv h b => Sys2Proof.Machine.execBadv h b s
  | .brel h b => Sys2Proof.Machine.execBrel h b s
  | .own h o => Sys2Proof.Machine.execOwn h o s
  | .ringset h o => Sys2Proof.Machine.execRingset h o s
  | .ringpub h o => Sys2Proof.Machine.execRingpub h o s
  | .ringrd h o => Sys2Proof.Machine.execRingrd h o s
  | .mark h o => Sys2Proof.Machine.execMark h o s
  | .join h t => Sys2Proof.Machine.execJoin h t s
  | .fence h scope => Sys2Proof.Machine.execFence h scope s
  | .monw h o => Sys2Proof.Machine.execMonw h o s
  | .enq h o => Sys2Proof.Machine.execEnq h o s
  | .poppass h d => Sys2Proof.Machine.execPoppass h d s
  | .rbtld h o => Sys2Proof.Machine.execRbtld h o s
  | .passdone h => Sys2Proof.Machine.execPassdone h s
  | .yield h adv => Sys2Proof.Machine.execYield h adv s
  | .aSafe h n => Sys2Proof.Machine.execASafe h n s
  | .stadv h n => Sys2Proof.Machine.execStadv h n s
  | .tnode h o => Sys2Proof.Machine.execTnode h o s
  | .tenrol h o => Sys2Proof.Machine.execTenrol h o s
  | .tunrol h o => Sys2Proof.Machine.execTunrol h o s
  | .trepar h o => Sys2Proof.Machine.execTrepar h o s
  | .tsettle h s1 => Sys2Proof.Machine.execTsettle h s1 s
  | .tread h o => Sys2Proof.Machine.execTread h o s
  | .tfree h s1 => Sys2Proof.Machine.execTfree h s1 s
  | .aFtrd h d => Sys2Proof.Machine.execAFtrd h d s
  | .tickrd h o => Sys2Proof.Machine.execTickrd h o s
  | .pmrd h o => Sys2Proof.Machine.execPmrd h o s
  | .sysc h n => Sys2Proof.Machine.execSysc h n s
  | .rfe h => Sys2Proof.Machine.execRfe h s
  | .csrr h o => Sys2Proof.Machine.execCsrr h o s
  | .csrw h o => Sys2Proof.Machine.execCsrw h o s
  | .lptw h o => Sys2Proof.Machine.execLptw h o s
  | .ldrain h o => Sys2Proof.Machine.execLdrain h o s
  | .lconf h o => Sys2Proof.Machine.execLconf h o s
  | .keyset h o => Sys2Proof.Machine.execKeyset h o s
  | .keykill h s1 => Sys2Proof.Machine.execKeykill h s1 s
  | .fmap h s1 => Sys2Proof.Machine.execFmap h s1 s
  | .ctxsv h o => Sys2Proof.Machine.execCtxsv h o s
  | .ctxld h o => Sys2Proof.Machine.execCtxld h o s
  | .xNop h => Sys2Proof.Machine.execXNop h s
  | .xLi h o => Sys2Proof.Machine.execXLi h o s
  | .xLih h o => Sys2Proof.Machine.execXLih h o s
  | .xAdd h o => Sys2Proof.Machine.execXAdd h o s
  | .xAddi h o => Sys2Proof.Machine.execXAddi h o s
  | .xSub h o => Sys2Proof.Machine.execXSub h o s
  | .xAnd h o => Sys2Proof.Machine.execXAnd h o s
  | .xOr h o => Sys2Proof.Machine.execXOr h o s
  | .xXor h o => Sys2Proof.Machine.execXXor h o s
  | .mul h o => Sys2Proof.Machine.execMul h o s
  | .mulh h o => Sys2Proof.Machine.execMulh h o s
  | .div h o => Sys2Proof.Machine.execDiv h o s
  | .rem h o => Sys2Proof.Machine.execRem h o s
  | .shl h o => Sys2Proof.Machine.execShl h o s
  | .shr h o => Sys2Proof.Machine.execShr h o s
  | .sra h o => Sys2Proof.Machine.execSra h o s
  | .min h o => Sys2Proof.Machine.execMin h o s
  | .max h o => Sys2Proof.Machine.execMax h o s
  | .popc h o => Sys2Proof.Machine.execPopc h o s
  | .clz h o => Sys2Proof.Machine.execClz h o s
  | .cmp h o => Sys2Proof.Machine.execCmp h o s
  | .sel h o => Sys2Proof.Machine.execSel h o s
  | .plog h o => Sys2Proof.Machine.execPlog h o s
  | .fadd h o => Sys2Proof.Machine.execFadd h o s
  | .fsub h o => Sys2Proof.Machine.execFsub h o s
  | .fmul h o => Sys2Proof.Machine.execFmul h o s
  | .ffma h o => Sys2Proof.Machine.execFfma h o s
  | .fmin h o => Sys2Proof.Machine.execFmin h o s
  | .fmax h o => Sys2Proof.Machine.execFmax h o s
  | .fdiv h o => Sys2Proof.Machine.execFdiv h o s
  | .fsqrt h o => Sys2Proof.Machine.execFsqrt h o s
  | .fcmp h o => Sys2Proof.Machine.execFcmp h o s
  | .cvtf h o => Sys2Proof.Machine.execCvtf h o s
  | .cvti h o => Sys2Proof.Machine.execCvti h o s
  | .cvtn h o => Sys2Proof.Machine.execCvtn h o s
  | .brp h o => Sys2Proof.Machine.execBrp h o s
  | .xJmp h o => Sys2Proof.Machine.execXJmp h o s
  | .xJr h o => Sys2Proof.Machine.execXJr h o s
  | .loop h o => Sys2Proof.Machine.execLoop h o s
  | .xSafe h n => Sys2Proof.Machine.execXSafe h n s
  | .xFtrd h d => Sys2Proof.Machine.execXFtrd h d s
  | .mNop h => Sys2Proof.Machine.execMNop h s
  | .mDset h o => Sys2Proof.Machine.execMDset h o s
  | .wload h o => Sys2Proof.Machine.execWload h o s
  | .mma h o => Sys2Proof.Machine.execMma h o s
  | .gmma h o => Sys2Proof.Machine.execGmma h o s
  | .smma h o => Sys2Proof.Machine.execSmma h o s
  | .mqbind h o => Sys2Proof.Machine.execMqbind h o s
  | .aclr h o => Sys2Proof.Machine.execAclr h o s
  | .ald h o => Sys2Proof.Machine.execAld h o s
  | .ast h o => Sys2Proof.Machine.execAst h o s
  | .ascl h o => Sys2Proof.Machine.execAscl h o s
  | .vNop h => Sys2Proof.Machine.execVNop h s
  | .vDset h o => Sys2Proof.Machine.execVDset h o s
  | .vadd h o => Sys2Proof.Machine.execVadd h o s
  | .vsub h o => Sys2Proof.Machine.execVsub h o s
  | .vmul h o => Sys2Proof.Machine.execVmul h o s
  | .vmax h o => Sys2Proof.Machine.execVmax h o s
  | .vmin h o => Sys2Proof.Machine.execVmin h o s
  | .vfma h o => Sys2Proof.Machine.execVfma h o s
  | .vexp h o => Sys2Proof.Machine.execVexp h o s
  | .vlog h o => Sys2Proof.Machine.execVlog h o s
  | .vrcp h o => Sys2Proof.Machine.execVrcp h o s
  | .vrsq h o => Sys2Proof.Machine.execVrsq h o s
  | .vtanh h o => Sys2Proof.Machine.execVtanh h o s
  | .vgelu h o => Sys2Proof.Machine.execVgelu h o s
  | .vsilu h o => Sys2Proof.Machine.execVsilu h o s
  | .vabs h o => Sys2Proof.Machine.execVabs h o s
  | .vcvt h o => Sys2Proof.Machine.execVcvt h o s
  | .vqmx h o => Sys2Proof.Machine.execVqmx h o s
  | .vdqmx h o => Sys2Proof.Machine.execVdqmx h o s
  | .vrsum h o => Sys2Proof.Machine.execVrsum h o s
  | .vrmax h o => Sys2Proof.Machine.execVrmax h o s
  | .vcsum h o => Sys2Proof.Machine.execVcsum h o s
  | .vbcast h o => Sys2Proof.Machine.execVbcast h o s
  | .vtrn h o => Sys2Proof.Machine.execVtrn h o s
  | .vepi h o => Sys2Proof.Machine.execVepi h o s
  | .vtagsel h o => Sys2Proof.Machine.execVtagsel h o s
  | .cNop h => Sys2Proof.Machine.execCNop h s
  | .cDset h o => Sys2Proof.Machine.execCDset h o s
  | .ccopy h o => Sys2Proof.Machine.execCcopy h o s
  | .cgath h o => Sys2Proof.Machine.execCgath h o s
  | .cscat h o => Sys2Proof.Machine.execCscat h o s
  | .cfill h o => Sys2Proof.Machine.execCfill h o s
  | .cmcast h o => Sys2Proof.Machine.execCmcast h o s
  | .cwbind h o => Sys2Proof.Machine.execCwbind h o s
  | .cwadv h o => Sys2Proof.Machine.execCwadv h o s
  | .csched h d1 => Sys2Proof.Machine.execCsched h d1 s
  | .cpfa h o => Sys2Proof.Machine.execCpfa h o s
  | .cmeta h o => Sys2Proof.Machine.execCmeta h o s
  | .clsend h o => Sys2Proof.Machine.execClsend h o s
  | .clrecv h o => Sys2Proof.Machine.execClrecv h o s
  | .clred h o => Sys2Proof.Machine.execClred h o s
  | .wordCompletion core strm k => Sys2Proof.Machine.execWordCompletion core strm k s
  | .engineFetch core strm => Sys2Proof.Machine.execEngineFetch core strm s
  | .schedEntryRelease core => Sys2Proof.Machine.execSchedEntryRelease core s
  | .clsendTransmit link => Sys2Proof.Machine.execClsendTransmit link s
  | .remoteAddition k => Sys2Proof.Machine.execRemoteAddition k s
  | .lateWordStall core strm => Sys2Proof.Machine.execLateWordStall core strm s
  | .budgetTrap core => Sys2Proof.Machine.execBudgetTrap core s
  | .preemptEntry core => Sys2Proof.Machine.execPreemptEntry core s
  | .programLoad core ctx image bases => Sys2Proof.Machine.execProgramLoad core ctx image bases s
  | .streamsStart core => Sys2Proof.Machine.execStreamsStart core s
  | .illegalWord strm word => Sys2Proof.Machine.execIllegalWord strm word s
  | .sqtailWrite q value => Sys2Proof.Machine.execSqtailWrite q value s
  | .sqpull q => Sys2Proof.Machine.execSqpull q s
  | .sqEnable q value => Sys2Proof.Machine.execSqEnable q value s
  | .taskDispatch task => Sys2Proof.Machine.execTaskDispatch task s
  | .rangeDispatch task => Sys2Proof.Machine.execRangeDispatch task s
  | .barrierFire task => Sys2Proof.Machine.execBarrierFire task s
  | .gathererCycle g => Sys2Proof.Machine.execGathererCycle g s
  | .binClosePatience g b => Sys2Proof.Machine.execBinClosePatience g b s
  | .binCloseDeadline g b => Sys2Proof.Machine.execBinCloseDeadline g b s
  | .feedWrite core => Sys2Proof.Machine.execFeedWrite core s
  | .tailRegisterWrite k value => Sys2Proof.Machine.execTailRegisterWrite k value s
  | .shapeClassWrite g sc high value => Sys2Proof.Machine.execShapeClassWrite g sc high value s
  | .gdepthWrite g value => Sys2Proof.Machine.execGdepthWrite g value s
  | .wlock e => Sys2Proof.Machine.execWlock e s
  | .wunlock e => Sys2Proof.Machine.execWunlock e s
  | .wscmdReservedOp op e => Sys2Proof.Machine.execWscmdReservedOp op e s
  | .widBinding => Sys2Proof.Machine.execWidBinding s
  | .swatchPeriodic => Sys2Proof.Machine.execSwatchPeriodic s
  | .swatchTriggered => Sys2Proof.Machine.execSwatchTriggered s
  | .patchChange k => Sys2Proof.Machine.execPatchChange k s
  | .deltaApply k => Sys2Proof.Machine.execDeltaApply k s
  | .ptcapWrite p value => Sys2Proof.Machine.execPtcapWrite p value s
  | .rerrClear p value => Sys2Proof.Machine.execRerrClear p value s
  | .l2Fill panel owner line => Sys2Proof.Machine.execL2Fill panel owner line s
  | .leaseReread ctl k => Sys2Proof.Machine.execLeaseReread ctl k s
  | .tcEntryExpiry ctl k => Sys2Proof.Machine.execTcEntryExpiry ctl k s
  | .l2Eviction panel line => Sys2Proof.Machine.execL2Eviction panel line s
  | .victimEviction ctl pline => Sys2Proof.Machine.execVictimEviction ctl pline s
  | .writebackArrival k => Sys2Proof.Machine.execWritebackArrival k s
  | .updateApply panel k => Sys2Proof.Machine.execUpdateApply panel k s
  | .monwWake core => Sys2Proof.Machine.execMonwWake core s
  | .monwTimeout core => Sys2Proof.Machine.execMonwTimeout core s
  | .refresh stack => Sys2Proof.Machine.execRefresh stack s
  | .refreshEnd stack => Sys2Proof.Machine.execRefreshEnd stack s
  | .scrubRead stack => Sys2Proof.Machine.execScrubRead stack s
  | .scrubWriteback stack => Sys2Proof.Machine.execScrubWriteback stack s
  | .skewCompare ctl => Sys2Proof.Machine.execSkewCompare ctl s
  | .ccinv p => Sys2Proof.Machine.execCcinv p s
  | .uetRmaWrite port conn region off data => Sys2Proof.Machine.execUetRmaWrite port conn region off data s
  | .uetRmaRead port conn region off len => Sys2Proof.Machine.execUetRmaRead port conn region off len s
  | .uetSend port conn receive data => Sys2Proof.Machine.execUetSend port conn receive data s
  | .logcommitWrite value => Sys2Proof.Machine.execLogcommitWrite value s
  | .fwbeat => Sys2Proof.Machine.execFwbeat s
  | .watchdogExpiry => Sys2Proof.Machine.execWatchdogExpiry s
  | .fallbackPull => Sys2Proof.Machine.execFallbackPull s
  | .fallbackStop => Sys2Proof.Machine.execFallbackStop s
  | .ptpMessage time => Sys2Proof.Machine.execPtpMessage time s
  | .ftCorrection panel => Sys2Proof.Machine.execFtCorrection panel s
  | .timeSyncSend link => Sys2Proof.Machine.execTimeSyncSend link s
  | .timeSyncReceive link flit => Sys2Proof.Machine.execTimeSyncReceive link flit s
  | .linkRead link flit => Sys2Proof.Machine.execLinkRead link flit s
  | .linkWrite link flit => Sys2Proof.Machine.execLinkWrite link flit s
  | .linkAtomic link flit => Sys2Proof.Machine.execLinkAtomic link flit s
  | .linkSignal link flit => Sys2Proof.Machine.execLinkSignal link flit s
  | .linkSchedBlock link flit => Sys2Proof.Machine.execLinkSchedBlock link flit s
  | .linkManagement link flit => Sys2Proof.Machine.execLinkManagement link flit s
  | .linkReply link flit => Sys2Proof.Machine.execLinkReply link flit s
  | .linkFlitCorrupt link => Sys2Proof.Machine.execLinkFlitCorrupt link s
  | .linkFlitReserved link flit => Sys2Proof.Machine.execLinkFlitReserved link flit s
  | .linkNak link flit => Sys2Proof.Machine.execLinkNak link flit s
  | .linkDown link => Sys2Proof.Machine.execLinkDown link s
  | .linkRetrain link ok ackseq => Sys2Proof.Machine.execLinkRetrain link ok ackseq s
  | .linkDiscard link => Sys2Proof.Machine.execLinkDiscard link s
  | .p1Entry cluster => Sys2Proof.Machine.execP1Entry cluster s
  | .p1Exit cluster => Sys2Proof.Machine.execP1Exit cluster s
  | .p2Enter cluster => Sys2Proof.Machine.execP2Enter cluster s
  | .p2Exit cluster => Sys2Proof.Machine.execP2Exit cluster s
  | .throttleUpdate watts => Sys2Proof.Machine.execThrottleUpdate watts s
  | .thermalLimit => Sys2Proof.Machine.execThermalLimit s
  | .plimitWrite value => Sys2Proof.Machine.execPlimitWrite value s
  | .pmSelectWrite p j value => Sys2Proof.Machine.execPmSelectWrite p j value s
  | .moduleReset b => Sys2Proof.Machine.execModuleReset b s
  | .fresRetry core strm => Sys2Proof.Machine.execFresRetry core strm s
  | .fresSkip core strm => Sys2Proof.Machine.execFresSkip core strm s
  | .pkresRelease g task => Sys2Proof.Machine.execPkresRelease g task s
  | .pkresAbandon g task => Sys2Proof.Machine.execPkresAbandon g task s
  | .preemptRequest core => Sys2Proof.Machine.execPreemptRequest core s
  | .budgadd core add => Sys2Proof.Machine.execBudgadd core add s
  | .fpark core => Sys2Proof.Machine.execFpark core s
  | .awayEntryWrite core e w0 w1 => Sys2Proof.Machine.execAwayEntryWrite core e w0 w1 s
  | .registerWrite addr value => Sys2Proof.Machine.execRegisterWrite addr value s
  | .firmwareComplexAccess hart addr acc => Sys2Proof.Machine.execFirmwareComplexAccess hart addr acc s
  | .idleFlit link flit => Sys2Proof.Machine.execIdleFlit link flit s
  | .thermalRelease => Sys2Proof.Machine.execThermalRelease s
  | .stackTemperatureCrossing stack hot => Sys2Proof.Machine.execStackTemperatureCrossing stack hot s

end Sys2Proof.Machine
end

