-- ==== Sys2Proof/Machine/Time.lean ====
section
/-! DEFINITION. What passes with time, and the order of a core's units within one cycle (spec 03 R36, 04 R62, R70, R79, R80, 11
R198, R201, 24 R377). -/

namespace Sys2Proof.Machine

/-! ## Counts of cycles (R201) -/

/-- The word at the head of a stream waits at its wait byte. -/
def Core.atWait (k : Core) (t : Strm) : Bool :=
  match (k.headOf t).map (decodeWord t) with
  | some (.word i _) =>
    (match i.hdr? with
     | some h => !(t == .a && k.wdone) && (k.passWait h.2.wait).isNone
     | none => false)
  | _ => false

/-- A core with a stream stalled at a wait. DESIGN CHOICE (log 159): only a stream held at its wait byte counts, and not while the
cluster is in P1. -/
def State.waitingCore (s : State) (c : Nat) (k : Core) : Bool :=
  !k.dead && s.powered (BitVec.ofNat 10 c) && [Strm.a, .x, .m, .v, .c].any k.atWait

/-- An engine has an operation word at its head, past its wait. -/
def Core.opAtHead (k : Core) (t : Strm) : Bool :=
  match (k.headOf t).map (decodeWord t) with
  | some (.word i _) => ((engineWord i).map (·.op)).getD false && !k.atWait t
  | _ => false

/-- Cycles, of the next `n`, in which an engine of a core is throttled (R198). -/
def State.throttledFor (s : State) (n : Nat) (k : Core) : Nat :=
  ([Strm.m, .v].map fun t =>
    if k.opAtHead t then ((List.range (min n 8)).filter fun j => k.throttled t s.power.level (s.cycle + j)).length else 0).sum

/-- Clusters of a panel in P1. -/
def State.retained (s : State) (p : Nat) : Nat := ([2 * p, 2 * p + 1].filter fun k => vget s.power.cluster k == 1).length

/-- The monitors count `n` cycles. -/
def State.countTime (s : State) (n : Nat) : State :=
  let held (p : Nat) : Nat :=
    ((s.cores.filter fun e => e.1 / 256 == p && !e.2.dead && s.powered (BitVec.ofNat 10 e.1)).map
      fun e => s.throttledFor n e.2).sum
  let s1 := { s with cores := s.cores.map fun e => (e.1, if s.waitingCore e.1 e.2 then e.2.pm 6 n else e.2) }
  (List.range 4).foldl (fun t p => (t.pmPanel p 0x107 (held p)).pmPanel p 0x108 (n * s.retained p)) s1

/-! ## The Gatherers' cycles (R36) -/

/-- A Gatherer's steps find nothing to act on. -/
def Gatherer.quiet (g : Gatherer) : Bool := g.bins.isEmpty && g.input.isEmpty && g.shapesNew.isEmpty

/-- `n` cycles of a quiet Gatherer: GCYC counts each once. -/
def Gatherer.idle (g : Gatherer) (n : Nat) : Gatherer :=
  if n = 0 then g else { g with gcyc := g.gcyc + w64 (n - (if g.ran then 1 else 0)), ran := false }

/-- `n` cycles in which no Gatherer acts; one whose cluster is off does not count (R197). -/
def State.quietTime (s : State) (n : Nat) : State :=
  let s := s.countTime n
  { s with gath := Vector.ofFn fun i =>
      if vget s.power.cluster i.val = 2 then vget s.gath i.val else (vget s.gath i.val).idle n }.advance n

/-- One cycle: each Gatherer that has not had its steps has them before it ends. -/
def oneCycle : M Unit := do
  (List.range 8).forM fun g => do
    if !(vget (← getState).gath g).ran then gathererSteps g
  modState fun s =>
    let t := s.countTime 1
    { t with gath := t.gath.map fun g : Gatherer => { g with ran := false } }.advance 1

/-- `n` cycles pass. -/
def cyclesPass : Nat → M Unit
  | 0 => pure ()
  | n + 1 => do
    let s ← getState
    if s.tg.ranges.isEmpty && s.gath.all Gatherer.quiet then modState fun s => s.quietTime (n + 1)
    else
      oneCycle
      cyclesPass n

/-! ## Late words (R80) -/

/-- By how many cycles SCNT has passed the point at which the first word of a core that has not issued is late. -/
def State.lateBy (s : State) (k : Core) : Option Nat :=
  let past := [Strm.a, .x, .m, .v, .c].filterMap fun t =>
    if s.streamLate k t then (k.firstDue t).map fun d => (s.scntNow k - d - 1).toNat else none
  if past.isEmpty then none else some (past.foldl max 0)

/-- After `n` cycles, each core with a late word raises the wire of its group: the SCNTs on it stood still from some point, at most
eight cycles after the word became late, if that lay within those cycles. -/
def State.raiseLate (s : State) (n : Nat) : State :=
  let lates := s.cores.filterMap fun e =>
    if e.2.late || e.2.dead || !s.powered (BitVec.ofNat 10 e.1) then none
    else (s.lateBy e.2).map fun o => (e.1, min n o - Config.wireDelay s.cycle % 9)
  if lates.isEmpty then s
  else
    { s with cores := s.cores.map fun e =>
        let mine := lates.filter fun l => sameWire l.1 e.1 (s.core (BitVec.ofNat 10 l.1)) e.2
        if mine.isEmpty then e
        else
          let back : Nat := if e.2.scntRun then (mine.map (·.2)).foldl max 0 else 0
          (e.1, { e.2 with late := e.2.late || lates.any fun l => l.1 == e.1
                           scnt := s.scntNow e.2 - back, scntAt := s.cycle, scntRun := false }) }

/-! ## Passing time -/

/-- Fault records whose write waits are appended as far as their writes can be made. -/
def retryWaiting : M Unit := do
  let ws := (← getState).waitRecs
  modState fun s => { s with waitRecs := [] }
  ws.forM fun w => appendAt w.ft w.queue w.panel w.body

/-- The links send what waits for a slot, from the slots of an earlier reading of their panels on (R192). -/
def State.flushLinks (s before : State) : State :=
  (List.range 16).foldl (fun s l =>
    let slots := s.slotNow l - before.slotNow l
    s.flush l (if slots = 0 then 0 else slots - 1)) s

/-- What happens in `n` cycles without any agent's turn. -/
def passTime (n : Nat) : M Unit := do
  retryWaiting
  modState retryRod
  let s ← getState
  cyclesPass n
  modState fun t => (t.flushLinks s).raiseLate n

/-! ## The order within a cycle (R62, R70, R377) -/

/-- The place of a turn in its core's cycle: 0 to 4 the completions of A, X, M, V and C, 5 a remote addition, 6 an FSET or FINC, and
from 7 on, by unit, a completion that faults and the unit's test, of which each unit has one. -/
structure Place where
  core : CoreId
  rank : Nat
  deriving DecidableEq, Repr, Inhabited

/-- A unit has one such turn in a cycle. -/
def Place.single (p : Place) : Bool := decide (6 ≤ p.rank) && p.rank % 2 == 0

/-- The rank of a stream's turn. -/
def Core.rankOf (k : Core) (t : Strm) : Nat :=
  match t, (k.headOf t).map decodeA with
  | .a, some (some (.fset _ _)) | .a, some (some (.finc _ _)) => 6
  | t, _ => 8 + 2 * t.code

/-- A step has made a fault record. -/
def State.reported (s t : State) : Bool := s.fqs != t.fqs || s.waitRecs != t.waitRecs

/-- An outcome with a fault record. -/
def State.faults (s : State) : Out → Bool
  | .next u => s.reported u
  | _ => false

/-- The place of a turn; none where it is no turn of a core's flag arbiter. -/
def State.turnPlace (s : State) : Actor → Option Place
  | .stream c t => some { core := c, rank := (s.core c).rankOf t }
  | .event (.wordCompletion c t k) =>
    some { core := c, rank := if s.faults (exec (.wordCompletion c t k) s) then 7 + 2 * t.code else t.code }
  | .event (.monwWake c) | .event (.monwTimeout c) => some { core := c, rank := 0 }
  | .event (.schedEntryRelease c) => some { core := c, rank := 16 }
  | .event (.remoteAddition k) => (s.remotes[k]?).map fun x => { core := x.target, rank := 5 }
  | .event _ => none

/-- The core's cycle has gone past a place. -/
def Core.past (k : Core) (cycle : Nat) (p : Place) : Bool :=
  k.arbAt == cycle && (if p.single then decide (p.rank ≤ k.arbRank) else decide (p.rank < k.arbRank))

/-- The cycles that pass before a turn: one at least where its place in this cycle is past. -/
def State.cyclesBefore (s : State) (t : Turn) : Nat :=
  match s.turnPlace t.actor with
  | some p => if t.cycles = 0 && (s.core p.core).past s.cycle p then 1 else t.cycles
  | none => t.cycles

/-- The core's cycle comes to a place. -/
def State.reach (s : State) (p : Option Place) : State :=
  match p with
  | some p => s.onCore p.core fun k => { k with arbAt := s.cycle, arbRank := p.rank }
  | none => s

/-- What a stream's turn does. -/
def streamTurn (c : CoreId) (t : Strm) (s : State) : Out :=
  match turnOf c t { s with cur := c } with
  | .run i => exec i { s with cur := c }
  | .out o => o

/-- The physical flag that the head word of a stream tests. -/
def Core.testedFlag (k : Core) (t : Strm) : Option Nat :=
  match (k.headOf t).map (decodeWord t) with
  | some (.word i _) =>
    (match i.hdr? with
     | some h => if t == .a && k.wdone then none else (waitFlag h.2.wait).bind (flagIdx k.flagNum k.flagBase)
     | none => none)
  | _ => none

/-- The first unit before stream `t` whose turn of this cycle is still to come and takes the flag `idx`, or faults where `t`'s turn
faults: it goes first. -/
def State.ahead (s : State) (c : CoreId) (t : Strm) (idx : Option Nat) (faults : Bool) : Option Strm :=
  let k := s.core c
  if idx.isNone && !faults then none
  else
    ([Strm.a, .x, .m, .v, .c].take t.code).find? fun u =>
      !k.past s.cycle { core := c, rank := k.rankOf u } &&
        (match streamTurn c u s with
         | .next x => idx.any (fun j => vget (x.core c).flags j != vget k.flags j) || (faults && s.reported x)
         | _ => false)

/-- The unit whose turn goes before a stream's. -/
def State.outranked (s : State) (c : CoreId) (t : Strm) : Option Strm :=
  s.ahead c t ((s.core c).testedFlag t) (s.faults (streamTurn c t s))

/-- The head word of a stream has presented its wait test and stalled, and stands there still after a turn: it presents the test in
every cycle until it passes (R62). -/
def State.noteStall (s : State) (c : CoreId) (t : Strm) : Out → Out
  | .next u =>
    let k := s.core c
    let q := u.core c
    let same := k.headPos t == q.headPos t && k.priv == q.priv && (q.haltOf t).isNone
    let waits := (k.atWait t && s.dueOk k t) || (vget k.stalled t.code && !(t == .a && q.wdone))
    .next (u.onCore c fun q => { q with stalled := vset q.stalled t.code (same && waits) })
  | o => o

/-- A stream takes its turn. -/
def takeStream (c : CoreId) (t : Strm) (s : State) : Out :=
  let s := s.reach (s.turnPlace (.stream c t))
  s.noteStall c t (streamTurn c t s)

/-- An agent acts, its time having come. A stream's turn, or a completion that faults, before which another unit's goes does
nothing. -/
def act (a : Actor) (s : State) : Out :=
  match a with
  | .event (.wordCompletion c t k) =>
    if (s.ahead c t none (s.faults (exec (.wordCompletion c t k) s))).isSome then .next s
    else exec (.wordCompletion c t k) (s.reach (s.turnPlace a))
  | .event e => if streamOnly e then .next s else exec e (s.reach (s.turnPlace a))
  | .stream c t => if (s.outranked c t).isSome then .next s else takeStream c t s

/-! ## Tests that stalled streams present (R62) -/

/-- A stalled stream's test passes now. -/
def State.presents (s : State) (c : CoreId) (t : Strm) : Bool :=
  let k := s.core c
  vget k.stalled t.code && !k.atWait t && s.dueOk k t &&
    (match turnOf c t { s with cur := c } with
     | .run i => i.hdr?.isSome
     | .out _ => false)

/-- The unit that goes first of all before stream `t`: at most four do. -/
def State.firstOf (s : State) (c : CoreId) : Nat → Strm → Strm
  | 0, t => t
  | fuel + 1, t => match s.outranked c t with
    | some u => s.firstOf c fuel u
    | none => t

/-- A test that is presented in this cycle and passes, whose turn is still to come, or the one that goes before it. -/
def State.dueTest (s : State) : Option (CoreId × Strm) :=
  s.cores.findSome? fun e =>
    let c : CoreId := BitVec.ofNat 10 e.1
    ([Strm.a, .x, .m, .v, .c].find? fun t =>
      s.presents c t && !e.2.past s.cycle { core := c, rank := e.2.rankOf t }).map fun t => (c, s.firstOf c 4 t)

/-- A test that is presented in the next cycle and passes. -/
def State.nextTest (s : State) : Bool :=
  s.cores.any fun e => [Strm.a, .x, .m, .v, .c].any (s.presents (BitVec.ofNat 10 e.1))

/-- Time passes, and something is done then. -/
def afterTime (n : Nat) (f : State → Out) (s : State) : Out :=
  match passTime n s with
  | .ok _ s1 => f s1
  | .error (.halt h) _ => .fault h
  | .error _ _ => .next s

/-- A turn is taken: time passes, and the agent acts. A test that a stalled stream presents before that and that passes comes first,
and the turn keeps the rest of its time. -/
def takeTurn (t : Turn) (s : State) : Out :=
  let n := s.cyclesBefore t
  let later (m : Nat) (s : State) : State := { s with agenda := { t with cycles := m } :: s.agenda }
  match n with
  | 0 => afterTime 0 (fun s => act t.actor { s with lineOps := t.lines }) s
  | m + 1 =>
    match s.dueTest with
    | some (c, u) => takeStream c u { later n s with lineOps := t.lines }
    | none =>
      if m ≠ 0 && s.nextTest then afterTime 1 (fun s => .next (later m s)) s
      else afterTime n (fun s => act t.actor { s with lineOps := t.lines }) s

end Sys2Proof.Machine
end

