-- ==== Sys2Proof/Machine/Step.lean ====
section
/-! DEFINITION. One step of the module: the next turn is taken, time passes, and the agent whose turn it is acts. -/

namespace Sys2Proof.Machine

/-- One step. -/
def step (s : State) : Host.Outcome State Fault Refusal := takeTurn s.nextTurn.1 s.nextTurn.2

/-- The state whose next step runs the table row's word: a stream word on core 0, on the stream that bits [66:64] give
(A where nbits does not reach them). -/
def State.withFetchWord (s : State) (nbits w : Nat) : State :=
  match Strm.ofCode (if nbits ≤ 64 then 0 else w / 2 ^ 64 % 8) with
  | some t => s.placeWord t (BitVec.ofNat 64 w)
  | none => s

end Sys2Proof.Machine
end

