-- ==== Sys2Proof/Safety.lean ====
section
/-! DEFINITION. The words in which claims about steps are said: the state a word's effect starts from once every check of
spec 24 has passed, the state in which a completed word leaves the machine, what two states have in common, and the
invariant of the memories. No meaning calls anything here. -/

namespace Sys2Proof.Machine

/-- A step that goes on. -/
def Goes (s : State) : Prop := ∃ s', step s = .next s'

/-- An action that ends with a value. -/
def Ends {α : Type} (m : M α) (s : State) : Prop := ∃ a s', m s = .ok a s'

/-! ## Issue -/

/-- The A head word passes the checks that hold for every A word (R59, R365 to R371): its operand fields and clauses are
legal, its due count has come, its wait is met and its issue-time signal accepted. The state its effect starts from;
none where one of these does not hold. A word whose wait was met before an exception (R266) tests nothing again. -/
def State.issueA (s : State) (i : Instr) (h : Hdr) : Option State :=
  let k := s.core s.cur
  if badOperands i ||| k.clauseBad h ≠ 0 then none
  else if !s.dueOk k .a || k.movesHold i then none
  else if k.wdone then some (s.setCore s.cur k)
  else
    match k.passWait h.wait with
    | none => none
    | some k1 =>
      match k1.issueSig h.sig with
      | .ok k2 => some (s.setCore s.cur k2)
      | .error _ => none

/-- A completed A word: `s` is the state before it, `t` the state its effect reached, `fl` where the stream goes on. A TREPAR may have
its perform point, and its signal, still to come (R224). -/
def State.endA (s : State) (i : Instr) (h : Hdr) (fl : Flow) (t : State) : State :=
  let k := s.core s.cur
  let u := (t.undrain s.cur .a).onCore s.cur fun q => q.advanceA k.priv fl
  (if s.lineOps.isSome && isTrepar i then u else u.aComplete h (encodeWord i) (k.headWord .a)).endLate s.cur

/-- The same of the X head word, which waits for an earlier word of its row too (R275). -/
def State.issueX (s : State) (i : Instr) (h : Hdr) : Option State :=
  let k := s.core s.cur
  if badOperands i ||| k.clauseBad h ≠ 0 then none
  else if !s.dueOk k .x || k.xRowBusy (encodeWord i) then none
  else
    match k.passWait h.wait with
    | none => none
    | some k1 =>
      match k1.issueSig h.sig with
      | .ok k2 => some (s.setCore s.cur k2)
      | .error _ => none

/-- An X word that has issued: completed, or with its results to come (R272, R275). -/
def State.endX (s : State) (i : Instr) (fl : Flow) (t : State) : State :=
  let k := s.core s.cur
  let u := t.onCore s.cur fun q => q.advanceX fl
  (u.xComplete (s.lineOps.isSome && !isXSafe i) (encodeWord i) (k.headWord .x)).endLate s.cur

/-- The descriptors an engine word latches: its engine's shadow descriptors (R72). -/
def State.latched (s : State) (e : EWord) : List Dsc :=
  e.ops.map fun o => vget ((s.core s.cur).engine e.strm).shadow o.num.toNat

/-- An engine word with the descriptors it latches, or a schedule entry (`entry`, R332), passes every check at decode and issue
(R57 to R72, R365 to R371): the word as it has issued and the state its effects start from; none where a check does not
pass. `bad` are the bits of its operand fields out of their limits. -/
def State.issueWord (s : State) (w bad : Word) (e : EWord) (ds : List Dsc) (entry : Option Nat) : Option (Issued × State) :=
  let c := s.cur
  let k := s.core c
  let w0 := k.issuedWord e.strm e w ds entry (ds.flatMap (s.namedBanks c) ++ e.more s c ds)
  if (decodeFault s c bad e ds).isSome || !(entry.isSome || s.dueOk k e.strm) || !k.opRoom e.strm e.op entry.isSome ||
    (e.op && k.throttled e.strm s.power.level s.cycle) then none
  else
    match k.passWait e.hdr.wait with
    | none => none
    | some k1 =>
      if (e.ops.zip ds).any (fun x => k.bobStall e.strm x.1 x.2) || e.stall s c ds || (issueFault s c e ds).isSome then none
      else
        match k1.issueSig e.hdr.sig with
        | .error _ => none
        | .ok k2 =>
          let k3 := ((k2.reloadLfsr e.strm).pmIssue e.strm e.op).noteIssue e.strm e.op s.cycle
          let k4 := match entry with
            | some n => { k3 with sched := k3.sched.map fun g => { g with next := n + 1, held := none } }
            | none => k3.takeHead e.strm e ds
          match e.prep w0 (s.setCore c k4) with
          | .ok w1 s1 => some (w1, s1)
          | .error _ _ => none

/-- The head word of an engine passes them. -/
def State.issueE (s : State) (i : Instr) (e : EWord) : Option (Issued × State) :=
  s.issueWord (encodeWord i) (badOperands i) e (s.latched e) none

/-- An engine word whose effects at issue are done stands among the words in progress of its engine. -/
def State.endE (s : State) (c : CoreId) (t : Strm) (w : Issued) : State :=
  ((s.undrain c t).onCore c fun k => k.addProg t w).endLate c

/-! ## Operands that cannot fault -/

/-- No check fails over a core's scratchpad or accumulators (R163). -/
def Core.clean (k : Core) : Bool := k.spadErr.isEmpty && k.accErr.isEmpty

/-- No check fails over any core's scratchpad or accumulators, and no engine word stands between two of its operations on lines. -/
def State.allClean (s : State) : Bool := (s.cores.all fun e => e.2.clean) && s.mem.opLog.isNone && s.mem.opLines.isNone

/-- A lining range of memory whose lines are homed in L2 without error, readable on panel `p` there or in a replica without error,
with the right to write them held for at least the next 64 ns, while no translation cache stands uncached, where `write` is set: an
access of it neither faults nor waits (R148, R149, R160, R380, R386, R390). -/
def State.resident (s : State) (p la n : Nat) (write : Bool) : Prop :=
  ∀ a, la ≤ a → a < la + n →
    regionOf a ≤ 1 ∧ ∃ t, mapGet s.mem.lines (a / 64) = some t ∧ t.failed = false ∧ t.err = 0 ∧
      (write = true ∨ p = homePanel (a / 64) ∨ ∃ r, mapGet s.mem.replicas (replicaKey p (a / 64)) = some r ∧ r.err = 0) ∧
      (write = true → t.w = true ∧ (s.ftOf (homePanel (a / 64))).toNat + 64 < t.exp.toNat ∧
        (vget s.mem.ctls (xlatCtl (a / 64))).uncached = false ∧ s.lockedAt a = false)

/-- Where row `j` of an operand in memory lies, for a row of `n` bytes that its context may access there: in a lining image of its
context (KIND 4), at an address that the owner of block `b` translates and grants, `first` being the row's place in the block
(KIND 5), in a tile of a locked WID that the context may read (KIND 6). -/
def State.lineAddr (s : State) (c : CoreId) (d : Dsc) (j b first n : Nat) (write : Bool) : Option Nat :=
  let k := s.core c
  let need := if write then 2 else 1
  match dKind d with
  | 4 =>
    let la := dAddr d + j * dStride d
    if (imageCheck k.rangeSet la n need).isNone then some la else none
  | 5 =>
    match rangeTranslate (k.fileSet (k.rbtOwner b)) (addr5 k d b first n) n need with
    | .ok la => some la
    | .bad _ _ => none
  | 6 =>
    match s.lockedWid (dWid d) with
    | some w =>
      if write = false ∧ (w.owner = 0 ∨ w.owner = k.ctx) then
        some (w.base.toNat * 65536 + dTile d * w.tbytes.toNat + j * n)
      else none
    | none => none
  | _ => none

/-- Row `j` of an operand in memory lies where its context may access it, in resident lines. -/
def State.rowThere (s : State) (c : CoreId) (d : Dsc) (j b first : Nat) (write : Bool) : Prop :=
  ∃ f la, Fmt.parse (vget (s.core c).fmtSlot (dFmt d)) = some f ∧
    s.lineAddr c d j b first (f.memBytes (dCols d)) write = some la ∧
    s.resident (panelOf c) la (f.memBytes (dCols d)) write

/-- Row `j` of an operand lies on chip, or in memory where it can be accessed without a fault or a wait. -/
def State.rowHere (s : State) (c : CoreId) (d : Dsc) (j b first : Nat) (write : Bool) : Prop :=
  inAcc d = true ∨ inSpad d = true ∨ s.rowThere c d j b first write

/-- A byte of lining memory as panel `p` sees it: in L2 at its home, elsewhere in the panel's replica. -/
def State.seenByte (s : State) (p a : Nat) : Byte :=
  if p = homePanel (a / 64) then byteAt s.mem.l2 a
  else
    match mapGet s.mem.replicas (replicaKey p (a / 64)) with
    | some r => r.data.extractLsb' (8 * (a % 64)) 8
    | none => 0

/-- The bytes and scales of element row `j` of an on-chip operand under a format. -/
def State.rowOf (s : State) (c : CoreId) (d : Dsc) (slot j : Nat) (f : Fmt) : Row :=
  let k := s.core (opCore c d)
  if inAcc d then
    { bytes := ((k.accRow (accPlace d j) (dCols d)).map fun v => bytesOfNat 4 v.toNat).flatten, scales := [] }
  else
    let p := placeOf (s.core c) d slot j
    { bytes := k.bankBytes p.1 p.2 (f.elem.rowBytes (dCols d)), scales := k.bankScales p.1 p.2 (f.scaleBytes (dCols d)) }

/-- The values of element row `j` of an on-chip operand. -/
def State.rowVals (s : State) (c : CoreId) (d : Dsc) (slot j : Nat) : List Val :=
  match Fmt.parse (s.rowEnc c d slot j) with
  | none => []
  | some f => (s.rowOf c d slot j f).values f (dCols d)

/-- Element row `j` of an on-chip destination holds a row. -/
def State.putRow (s : State) (c : CoreId) (d : Dsc) (slot j : Nat) (r : Row) : State :=
  s.onCore (opCore c d) fun k =>
    if inAcc d then
      k.setAccRow (accPlace d j) (tabulate (dCols d) fun i => BitVec.ofNat 32 (natOfBytes (r.bytes.drop (4 * i) |>.take 4)))
    else
      let q := placeOf (s.core c) d slot j
      k.putSpadRow q.1 q.2 r

/-- The bytes and scales of element row `j` of an operand under a format, on chip or in resident lines of memory. -/
def State.srcRow (s : State) (c : CoreId) (d : Dsc) (slot j b first : Nat) (f : Fmt) : Row :=
  if inAcc d || inSpad d then s.rowOf c d slot j f
  else
    let n := f.memBytes (dCols d)
    match s.lineAddr c d j b first n false with
    | some la => rowOfBytes f (dCols d) (tabulate n fun i => s.seenByte (panelOf c) (la + i))
    | none => default

/-- Element row `j` of a destination holds a row of `n` bytes, on chip or in memory. -/
def State.dstRow (s : State) (c : CoreId) (d : Dsc) (slot j b first n : Nat) (r : Row) : State :=
  if inAcc d || inSpad d then s.putRow c d slot j r
  else
    match s.lineAddr c d j b first n true with
    | some la => s.onMem fun m => { m with l2 := setBytes m.l2 la (r.scales ++ r.bytes) }
    | none => s

/-- Values converted into element row `j` of an on-chip destination (R90 to R97, R309), with the step of the engine's LFSR. The
format is not of class 8. -/
def State.putVals (s : State) (c : CoreId) (t : Strm) (d : Dsc) (slot j : Nat) (mode : Mode) (sat : Bool)
    (vs : List Val) : State :=
  match Fmt.parse (s.rowEnc c d slot j) with
  | none => s
  | some f =>
    let r := writeRow f mode (sat && !(dKind d == 3 && f.elem == .flt fp32F)) vs ((s.core c).engine t).lfsr
    (s.putRow c d slot j r.1).onCore c fun k => k.setEngine t { k.engine t with lfsr := r.2 }

/-! ## What states have in common -/

/-- `t` is `u` but for what a panel has come to see by reading a core's stores, the updates in flight that it has applied then, and
for the clocks that writes into cores leave there (R168, R170). -/
def State.sawMore (t u : State) : Prop :=
  t = { u with cores := t.cores, mem := { u.mem with clocks := t.mem.clocks, replicas := t.mem.replicas,
                                                     updates := t.mem.updates } } ∧
  ∀ c : CoreId, t.core c = { u.core c with winClk := (t.core c).winClk }

/-- A remote addition but for the clock that it carries. -/
def Remote.unclocked (r : Remote) : Remote := { r with held := { r.held with clock := VClock.zero } }

/-- `t` is `u` but for what writes of resident lines leave beside their bytes: their order, what panels have come to see, the changes
for the change tree, the monitors woken and the panel's monitor counts; remote additions in flight differ in their clocks alone
(R140, R167, R168, R201, R258). -/
def State.storedMore (t u : State) : Prop :=
  t = { u with cores := t.cores, remotes := t.remotes, tree := { u.tree with changes := t.tree.changes }
               power := { u.power with pmCnt := t.power.pmCnt }
               mem := { u.mem with clocks := t.mem.clocks, replicas := t.mem.replicas, updates := t.mem.updates,
                                   stamps := t.mem.stamps, lines := t.mem.lines } } ∧
  t.remotes.map Remote.unclocked = u.remotes.map Remote.unclocked ∧
  ∀ c : CoreId, t.core c = { u.core c with winClk := (t.core c).winClk, monitor := (t.core c).monitor }

/-- Every byte of memory reads the same: HBM, L2, the SRAM of the firmware complex, and each core's scratchpad and side
stores. -/
def State.sameBytes (s t : State) : Prop :=
  ∀ a : Nat,
    byteAt t.mem.hbm a = byteAt s.mem.hbm a ∧ byteAt t.mem.l2 a = byteAt s.mem.l2 a ∧
    byteAt t.boot.sram a = byteAt s.boot.sram a ∧
    ∀ c : CoreId, byteAt (t.core c).spad a = byteAt (s.core c).spad a ∧
      byteAt (t.core c).side a = byteAt (s.core c).side a

/-- `q` is `k` but for what every completed word may move: its wait and signal flags, its streams' places, and the
bookkeeping of due counts and lateness. -/
def Core.movedFrom (q k : Core) : Core :=
  { k with flags := q.flags, rings := q.rings, handlerPos := q.handlerPos, wdone := q.wdone, aSafe := q.aSafe,
           movedAt := q.movedAt, late := q.late, scnt := q.scnt, scntAt := q.scntAt, scntRun := q.scntRun }

/-- The ring registers of stream `u` are as before. -/
def Core.sameRing (q k : Core) (u : Strm) : Prop := q.ring u = k.ring u

/-- Flags that neither clause of a word names are as before. -/
def Core.sameFlags (q k : Core) (h : Hdr) : Prop :=
  ∀ j : Nat, (∀ v, waitFlag h.wait = some v ∨ sigFlag h.sig = some v → flagIdx k.flagNum k.flagBase v ≠ some j) →
    vget q.flags j = vget k.flags j

/-- The word's completion-time signal finds room under CEIL (R58, R371). -/
def Core.sigFits (k : Core) (h : Hdr) : Prop :=
  ∀ v n, k.completionSig h.sig = some (v, n) → ∃ k', k.addFlag v n = .ok k'

/-- Every other core is as before but for the schedule counters that its stall wire stops and starts (R79, R81). -/
def State.sameOthers (t s : State) (c : CoreId) : Prop :=
  ∀ d : CoreId, d ≠ c →
    t.core d = { s.core d with scnt := (t.core d).scnt, scntAt := (t.core d).scntAt, scntRun := (t.core d).scntRun }

/-- All of the machine but its cores and the list of requests that wait on a draining page (R385) is as before. -/
def State.sameRest (t s : State) (c : CoreId) (u : Strm) : Prop :=
  (t.mem = s.mem ∨ t.mem = (s.undrain c u).mem) ∧ t = { s with cores := t.cores, mem := t.mem }

/-! ## The invariant of the memories -/

/-- A core's memories and accumulators are in canonical form, and no result waits for its word to issue. -/
def Core.canonical (k : Core) : Bool :=
  Memory.wf k.spad && Memory.wf k.side && keysRise k.acc && (k.acc.all fun e => e.2 != 0) && k.xRes.isEmpty

/-- Every memory is in canonical form: addresses strictly rise and no entry holds what an unlisted address reads as. -/
def State.memoriesWf (s : State) : Bool :=
  Memory.wf s.mem.hbm && Memory.wf s.mem.l2 && Memory.wf s.boot.sram && (s.cores.all fun e => e.2.canonical)

/-- The memories are in canonical form, and no engine word stands between two of its operations on lines, as between steps
(R166). -/
def State.canonical (s : State) : Bool := s.memoriesWf && s.mem.opLog.isNone && s.mem.opLines.isNone

end Sys2Proof.Machine
end

