-- ==== Sys2Proof/Certificates/Slice0/Obligations.lean ====
section
/-! DEFINITION. The statements for the provers. Every statement about a word that completes starts from `issueA`, `issueX`
or `issueE`, which say that the word passed the checks of spec 24 that hold for every word; what a statement adds are the
conditions on its own operands. Reading register 31 pops a queue, so registers are read in the order of the word's fields
(R213) and each reading's state is named. -/

open Sys2Proof Sys2Proof.Machine

namespace Sys2Proof.Machine

/-! ## Shapes of statements about A words -/

/-- An A word of two sources writes `f` of them. -/
def TwoSourceA {ω : Type} (mk : Hdr → ω → Instr) (d s1 s2 : ω → Reg) (f : ω → Word → Word → Word) : Prop :=
  ∀ (s t1 t2 t3 t4 : State) (h : Hdr) (o : ω) (x y : Word),
    s.issueA (mk h o) h = some t1 → rdA (s1 o) t1 = .ok x t2 → rdA (s2 o) t2 = .ok y t3 →
    wrA (d o) (f o x y) t3 = .ok () t4 →
    exec (mk h o) s = .next (s.endA (mk h o) h .next t4)

/-- An A word of one source, an operand of another form. -/
def OneSourceA {ω : Type} (mk : Hdr → ω → Instr) (d s1 : ω → Reg) (f : ω → Word → Word) : Prop :=
  ∀ (s t1 t2 t3 : State) (h : Hdr) (o : ω) (x : Word),
    s.issueA (mk h o) h = some t1 → rdA (s1 o) t1 = .ok x t2 → wrA (d o) (f o x) t2 = .ok () t3 →
    exec (mk h o) s = .next (s.endA (mk h o) h .next t3)

/-- An A word that reads no register writes a value of the state it issued in. -/
def NoSourceA {ω : Type} (mk : Hdr → ω → Instr) (d : ω → Reg) (ok : State → ω → Prop) (f : ω → State → Word) : Prop :=
  ∀ (s t1 t2 : State) (h : Hdr) (o : ω),
    s.issueA (mk h o) h = some t1 → ok s o → wrA (d o) (f o t1) t1 = .ok () t2 →
    exec (mk h o) s = .next (s.endA (mk h o) h .next t2)

/-- A branch whose target lies in the section goes there when its condition holds, else to the next word. -/
def BranchA (mk : Hdr → BOp → Instr) (taken : Word → Word → Prop) [DecidableRel taken] : Prop :=
  ∀ (s s1 s2 s3 : State) (h : Hdr) (o : BOp) (x y : Word),
    s.issueA (mk h o) h = some s1 → rdA o.s1 s1 = .ok x s2 → rdA o.s2 s2 = .ok y s3 →
    let k := s.core s.cur
    let t : Int := k.aIndex + o.off.toInt
    0 ≤ t → t < k.aCount →
    exec (mk h o) s = .next (s.endA (mk h o) h (if taken x y then .goto t.toNat else .next) s3)

/-- An A word of no register operand changes the state it issued in by `f`. -/
def PlainA {ω : Type} (mk : Hdr → ω → Instr) (ok : State → ω → Prop) (f : Hdr → ω → State → State) : Prop :=
  ∀ (s s1 : State) (h : Hdr) (o : ω),
    s.issueA (mk h o) h = some s1 → ok s o → exec (mk h o) s = .next (s.endA (mk h o) h .next (f h o s1))

/-- No condition of its own. -/
def free {ω : Type} (_ : State) (_ : ω) : Prop := True

end Sys2Proof.Machine

/-! ## Registers -/

/-- R213, R77, R274: in every register field 0 reads zero and discards; 31 is the queue port: the A unit pops XA and pushes AX, the X
unit pops AX and pushes XA, each waiting on an empty or a full queue and A on an entry that is reserved and not yet filled; every other
register holds what was written; predicate 0 reads true and discards. An X register or predicate that an earlier word has
still to write is waited for, and the results of a word that completes later are kept with it (R272; which words do is the
model's choice, log 43). -/
def Obligations.RegisterFields : Prop :=
  (∀ (s : State) (r : Reg) (v : Word),
     let k := s.core s.cur
     (r = 0 → rdA r s = .ok 0 s ∧ wrA r v s = .ok () s) ∧
     (r = 31 →
       (rdA r s = match k.xa with
         | some w :: ws => .ok w (s.setCore s.cur { k with xa := ws })
         | _ => .error .stall s) ∧
       (wrA r v s = if k.ax.length < 32 then .ok () (s.setCore s.cur { k with ax := k.ax ++ [v] }) else .error .stall s)) ∧
     (r ≠ 0 → r ≠ 31 →
       rdA r s = .ok (vget k.a r.toNat) s ∧
       ∃ t, wrA r v s = .ok () t ∧ rdA r t = .ok v t ∧
         ∀ q : Reg, q ≠ r → q ≠ 31 → rdA q t = .ok (if q = 0 then 0 else vget k.a q.toNat) t)) ∧
  (∀ (s : State) (r : Reg) (v : Word) (p : Pred) (b : Bool),
     let k := s.core s.cur
     (r = 0 → rdX r s = .ok 0 s ∧ wrX r v s = .ok () s) ∧
     (r = 31 →
       (rdX r s = match k.ax with
         | [] => .error .stall s
         | w :: ws => .ok w (s.setCore s.cur { k with ax := ws })) ∧
       (wrX r v s = if k.xa.length < 32 then .ok () (s.setCore s.cur
           (if s.lineOps = none then { k with xa := k.xa ++ [some v] } else { k with xRes := k.xRes ++ [(.xa, v)] }))
         else .error .stall s)) ∧
     (r ≠ 0 → r ≠ 31 →
       rdX r s = (if k.xPending (.reg r) then .error .stall s else .ok (vget k.x r.toNat) s) ∧
       (s.lineOps ≠ none → wrX r v s = .ok () (s.setCore s.cur { k with xRes := k.xRes ++ [(.reg r, v)] })) ∧
       (s.lineOps = none → k.xPending (.reg r) = true → wrX r v s = .error .stall s) ∧
       (s.lineOps = none → k.xPending (.reg r) = false → ∃ t, wrX r v s = .ok () t ∧ rdX r t = .ok v t ∧
         ∀ q : Reg, q ≠ r → q ≠ 31 → (q = 0 ∨ k.xPending (.reg q) = false) →
           rdX q t = .ok (if q = 0 then 0 else vget k.x q.toNat) t)) ∧
     (p = 0 → rdP p s = .ok true s ∧ wrP p b s = .ok () s) ∧
     (p ≠ 0 →
       rdP p s = (if k.xPending (.pred p) then .error .stall s else .ok (vget k.p p.toNat) s) ∧
       (s.lineOps ≠ none →
         wrP p b s = .ok () (s.setCore s.cur { k with xRes := k.xRes ++ [(.pred p, if b then 1 else 0)] })) ∧
       (s.lineOps = none → k.xPending (.pred p) = true → wrP p b s = .error .stall s) ∧
       (s.lineOps = none → k.xPending (.pred p) = false → ∃ t, wrP p b s = .ok () t ∧ rdP p t = .ok b t ∧
         ∀ q : Pred, q ≠ p → q ≠ 0 → k.xPending (.pred q) = false → rdP q t = .ok (vget k.p q.toNat) t)) ∧
     (∀ w : Word, (field w 40 8 = 0x18 ∨ field w 40 8 = 0x28 ∨ field w 40 8 = 0x1A ∨ field w 40 8 = 0x30) →
       field w 38 2 ≠ 0 → ∃ i m, decodeWord .x w = .word i m ∧ m ≠ 0) ∧
     (∀ w : Word, field w 40 8 = 0x1A → field w 33 2 ≠ 0 ∨ field w 28 2 ≠ 0 →
       ∃ i m, decodeWord .x w = .word i m ∧ m ≠ 0))


/-! ## The access unit: arithmetic, reads and control -/

/-- R226: NOP, LI, LIH, ADD, ADDI, SUB, AND, OR, XOR, SHLI, SHRI and LEA of the access unit complete with their results. -/
def Obligations.AccessArithmetic : Prop :=
  PlainA (fun h (_ : Unit) => .aNop h) free (fun _ _ s => s) ∧
  NoSourceA .aLi LIOp.d free (fun o _ => sext64 o.imm) ∧
  OneSourceA .aLih LIHOp.d LIHOp.d (fun o x => o.imm ++ field x 0 32) ∧
  TwoSourceA .aAdd RR3.d RR3.s1 RR3.s2 (fun _ x y => x + y) ∧
  OneSourceA .aAddi RIOp.d RIOp.s1 (fun o x => x + sext64 o.imm) ∧
  TwoSourceA .aSub RR3.d RR3.s1 RR3.s2 (fun _ x y => x - y) ∧
  TwoSourceA .aAnd RR3.d RR3.s1 RR3.s2 (fun _ x y => x &&& y) ∧
  TwoSourceA .aOr RR3.d RR3.s1 RR3.s2 (fun _ x y => x ||| y) ∧
  TwoSourceA .aXor RR3.d RR3.s1 RR3.s2 (fun _ x y => x ^^^ y) ∧
  OneSourceA .shli ShiftOp.d ShiftOp.s1 (fun o x => x <<< o.n.toNat) ∧
  OneSourceA .shri ShiftOp.d ShiftOp.s1 (fun o x => x >>> o.n.toNat) ∧
  TwoSourceA .lea RR3K.d RR3K.s1 RR3K.s2 (fun o x y => x + (y <<< o.k.toNat))

/-- R235, R236, R237, R214: BEQ, BNE, BLT and BGE (signed) go to index i + offset where their condition holds, else to i + 1; A_JMP and
A_JR save i + 2 and go to i + offset, or to the register's index, which in a stream follows a SAFE word. That in the handler any of
its words is a target, after a SAFE or not, is the model's choice (log 46, DEDUCED). -/
def Obligations.AccessControl : Prop :=
  (BranchA .beq (fun x y => x = y) ∧
   BranchA .bne (fun x y => x ≠ y) ∧
   BranchA .blt (fun x y => x.toInt < y.toInt) ∧
   BranchA .bge (fun x y => y.toInt ≤ x.toInt)) ∧
  ((∀ (s s1 s2 : State) (h : Hdr) (o : LIOp),
     s.issueA (.aJmp h o) h = some s1 →
     let k := s.core s.cur
     let t : Int := k.aIndex + o.imm.toInt
     0 ≤ t → t < k.aCount → wrA o.d (w64 (k.aIndex + 2)) s1 = .ok () s2 →
     exec (.aJmp h o) s = .next (s.endA (.aJmp h o) h (.goto t.toNat) s2)) ∧
   (∀ (s s1 s2 s3 : State) (h : Hdr) (o : RR2) (t : Word),
     s.issueA (.aJr h o) h = some s1 → rdA o.s1 s1 = .ok t s2 →
     let k := s.core s.cur
     t.toNat < k.aCount → (k.priv ∨ k.afterSafe .a 0x4D t.toNat) → wrA o.d (w64 (k.aIndex + 2)) s2 = .ok () s3 →
     exec (.aJr h o) s = .next (s.endA (.aJr h o) h (.goto t.toNat) s3)))


/-- R243, R244, R245, R242, R252, R261, R267: FTRD, TICKRD, PMRD, RINGRD, FRD, RBTLD and CSRR give the destination the
reading. A core counter of source 1 counts the cycles since its selection. -/
def Obligations.AccessReads : Prop :=
  NoSourceA .aFtrd id free (fun _ s => s.ftOf (panelOf s.cur)) ∧
  NoSourceA .tickrd TickOp.d free (fun o s =>
    let d := if o.ctxd then (s.domOf (s.core s.cur).ctx).toNat else o.dom.toNat
    tickOf (s.ftOf (panelOf s.cur)) (vget s.tickOrigin d) (vget s.tickPeriod d)) ∧
  NoSourceA .pmrd PmOp.d free (fun o s =>
    let k := s.core s.cur
    let n := vget k.pmCnt o.n.toNat
    (if (vget k.pmSel o.n.toNat).toNat = 1 then n + BitVec.ofNat 48 (s.cycle - vget k.pmAt o.n.toNat) else n).setWidth 64) ∧
  NoSourceA .ringrd RingRdOp.d free (fun o s =>
    ringWordOf (vget (s.core s.cur).rings o.strm.toNat) (s.core s.cur).priv o.strm.toNat o.sel) ∧
  NoSourceA .frd FrdOp.d (fun s o => o.vf.toNat < (s.core s.cur).flagNum.toNat) (fun o s =>
    let k := s.core s.cur
    (vget k.flags ((o.vf.toNat + k.flagBase.toNat) % 64)).word) ∧
  (∀ (s s1 s2 s3 : State) (h : Hdr) (o : RbtldOp) (x : Word),
    s.issueA (.rbtld h o) h = some s1 → rdA o.s1 s1 = .ok x s2 →
    let e := (x.toNat + o.blk.toNat) % 64
    let k := s.core s.cur
    e ≤ 32 → wrA o.d (if e = 32 then vget k.header o.w.toNat else vget k.passMem (8 * e + o.w.toNat)) s2 = .ok () s3 →
    exec (.rbtld h o) s = .next (s.endA (.rbtld h o) h .next s3)) ∧
  NoSourceA .csrr CsrOp.r (fun s o => csrPriv o.n.toNat = true → (s.core s.cur).priv = true)
    (fun o s => s.csr s.cur o.n.toNat)

/-! ## The access unit: memory -/

/-- R227, R228, R170: LDS and STS at an aligned scratchpad address of a bank that the engines do not own; LDS reads no word over
which a check fails, and its panel comes after the writes that other units have made through the core's window. -/
def Obligations.ScratchpadAccess : Prop :=
  (∀ (s s1 s2 s3 s4 : State) (h : Hdr) (o : MOp) (b : Word),
    s.issueA (.lds h o) h = some s1 → rdA o.base s1 = .ok b s2 →
    let k := s.core s.cur
    let n := 2 ^ o.size.toNat
    let a := (b + sext64 o.off).toNat
    a + n ≤ 786432 → a % n = 0 → vget k.owner (a / 4096) = false → k.spadBad a n = false →
    seeWin (panelOf s.cur) s.cur s2 = .ok () s3 →
    wrA o.reg (extend n o.sx (bytesAt k.spad a n)) s3 = .ok () s4 →
    exec (.lds h o) s = .next (s.endA (.lds h o) h .next s4)) ∧
  (∀ (s s1 s2 s3 : State) (h : Hdr) (o : MOp) (v b : Word),
    s.issueA (.sts h o) h = some s1 → rdA o.reg s1 = .ok v s2 → rdA o.base s2 = .ok b s3 →
    let n := 2 ^ o.size.toNat
    let a := (b + sext64 o.off).toNat
    a + n ≤ 786432 → a % n = 0 → vget (s.core s.cur).owner (a / 4096) = false →
    exec (.sts h o) s = .next (s.endA (.sts h o) h .next (s3.onCore s.cur fun k =>
      { k.spadMend a n with spad := setBytes k.spad a (bytesOfW n v) })))

/-- R229 to R234: LDM, STM, LDC, CSYNC and PFM complete where their address is translated, its rights hold and the access at
it ends: the loaded bytes, extended, go to the register; the register's low bytes are stored; CSYNC empties the panel's
constant cache; PFM asks for its lines and stops for none of them. That LDC of a region above 1 acts as the plain load is the
model's choice (log 113, DEDUCED). -/
def Obligations.MemoryAccess : Prop :=
  (∀ (s s1 s2 s3 s4 s5 : State) (h : Hdr) (o : MOp) (b : Word) (la : Nat) (bs : List Byte),
    s.issueA (.ldm h o) h = some s1 → rdA o.base s1 = .ok b s2 → mPlace (b + sext64 o.off) o 1 s2 = .ok la s3 →
    aLoad la (2 ^ o.size.toNat) (b + sext64 o.off) s3 = .ok bs s4 →
    wrA o.reg (extend (2 ^ o.size.toNat) o.sx bs) s4 = .ok () s5 →
    exec (.ldm h o) s = .next (s.endA (.ldm h o) h .next s5)) ∧
  (∀ (s s1 s2 s3 s4 s5 : State) (h : Hdr) (o : MOp) (v b : Word) (la : Nat),
    s.issueA (.stm h o) h = some s1 → rdA o.reg s1 = .ok v s2 → rdA o.base s2 = .ok b s3 →
    mPlace (b + sext64 o.off) o 2 s3 = .ok la s4 →
    aStore la (bytesOfW (2 ^ o.size.toNat) v) (b + sext64 o.off) s4 = .ok () s5 →
    exec (.stm h o) s = .next (s.endA (.stm h o) h .next s5)) ∧
  (∀ (s s1 s2 s3 s4 s5 : State) (h : Hdr) (o : MOp) (b : Word) (la : Nat) (line : BitVec 512),
    s.issueA (.ldc h o) h = some s1 → rdA o.base s1 = .ok b s2 → mPlace (b + sext64 o.off) o 1 s2 = .ok la s3 →
    regionOf la ≤ 1 → constLine (panelOf s3.cur) (s3.core s3.cur).tag la (b + sext64 o.off) s3 = .ok line s4 →
    wrA o.reg (extend (2 ^ o.size.toNat) o.sx ((lineBytes line).drop (la % 64) |>.take (2 ^ o.size.toNat))) s4 =
      .ok () s5 →
    exec (.ldc h o) s = .next (s.endA (.ldc h o) h .next s5)) ∧
  (∀ (s s1 s2 s3 s4 s5 : State) (h : Hdr) (o : MOp) (b : Word) (la : Nat) (bs : List Byte),
    s.issueA (.ldc h o) h = some s1 → rdA o.base s1 = .ok b s2 → mPlace (b + sext64 o.off) o 1 s2 = .ok la s3 →
    1 < regionOf la → aLoad la (2 ^ o.size.toNat) (b + sext64 o.off) s3 = .ok bs s4 →
    wrA o.reg (extend (2 ^ o.size.toNat) o.sx bs) s4 = .ok () s5 →
    exec (.ldc h o) s = .next (s.endA (.ldc h o) h .next s5)) ∧
  PlainA (fun h (_ : Unit) => .csync h) free (fun _ _ s => s.onMem fun m => m.dropConst (panelOf s.cur)) ∧
  (∀ (s s1 s2 s3 : State) (h : Hdr) (o : PfmOp) (b : Word),
    s.issueA (.pfm h o) h = some s1 → rdA o.base s1 = .ok b s2 →
    (List.range (o.n1.toNat + 1)).forM
      (fun i => prefetch (((b + sext64 o.off) &&& ~~~(0x3F#64)) + w64 (64 * i))) s2 = .ok () s3 →
    exec (.pfm h o) s = .next (s.endA (.pfm h o) h .next s3))

/-! ## The access unit: atomics, gates and the monitor -/

namespace Sys2Proof.Machine

/-- An atomic of the form of AADD: at an aligned address of memory with both rights, one read and write at the home. -/
def AtomicA (mk : Hdr → ATOp → Instr) (readD : Bool) (f : ATOp → Nat → Nat → Nat → Nat → Option Nat) : Prop :=
  ∀ (s s1 s2 s3 s4 s5 s6 s7 : State) (h : Hdr) (o : ATOp) (d b x : Word) (la old : Nat),
    s.issueA (mk h o) h = some s1 → (if readD then rdA o.d s1 = .ok d s2 else d = 0 ∧ s2 = s1) →
    rdA o.base s2 = .ok b s3 → rdA o.s2 s3 = .ok x s4 →
    let n := 2 ^ o.size.toNat
    let va := b + sext64 o.off
    aPlace va n 3 n (addrMask 21) (fun r => decide (r ≤ 1)) s4 = .ok la s5 →
    homeRmw (panelOf s5.cur) (s5.core s5.cur).tag la n va
      (fun old => f o n old (x.toNat % 256 ^ n) (d.toNat % 256 ^ n)) s5 = .ok old s6 →
    wrA o.d (w64 old) s6 = .ok () s7 →
    exec (mk h o) s = .next (s.endA (mk h o) h .next s7)

end Sys2Proof.Machine

/-- R246, R247, R248: the atomics give the destination the old value and leave the new one at the home; AADDB leaves the index
and gives all ones where the sum would pass the limit; RADDF writes no register. -/
def Obligations.Atomics : Prop :=
  AtomicA .aadd false (fun _ n old v _ => some ((old + v) % 256 ^ n)) ∧
  AtomicA .amax false (fun o n old v _ => some (if atInt o.sg n old < atInt o.sg n v then v else old)) ∧
  AtomicA .amin false (fun o n old v _ => some (if atInt o.sg n v < atInt o.sg n old then v else old)) ∧
  AtomicA .aor false (fun _ _ old v _ => some (old ||| v)) ∧
  AtomicA .axchg false (fun _ _ _ v _ => some v) ∧
  AtomicA .acas true (fun _ _ old v d => if old = d then some v else none) ∧
  (∀ (s s1 s2 s3 s4 s5 s6 s7 s8 s9 : State) (h : Hdr) (o : ATOp) (b x : Word) (la : Nat) (bs lim : List Byte),
    s.issueA (.aaddb h o) h = some s1 → rdA o.base s1 = .ok b s2 → rdA o.s2 s2 = .ok x s3 →
    let va := b + sext64 o.off
    let p := panelOf s4.cur
    let t := (s4.core s4.cur).tag
    aPlace va 8 3 16 (addrMask 21) (fun r => decide (r ≤ 1)) s3 = .ok la s4 →
    needWrite t la 8 va s4 = .ok () s5 → homeRead p t la 8 va s5 = .ok bs s6 →
    homeRead p t (la + 8) 8 (va + 8) (s6.onMem fun m => m.catchUp p ((mapGet m.rmws la).getD VClock.zero)) = .ok lim s7 →
    let old := natOfBytes bs
    let fits := old + x.toNat ≤ natOfBytes lim
    wrA o.d (if fits then w64 old else allOnes) s7 = .ok () s8 →
    (if fits then memWrite p t la (bytesOfNat 8 (old + x.toNat)) va .whole s8 = .ok () s9
      else s9 = s8.onMem fun m =>
        { m with rmws := mapPut m.rmws la (vcMax ((mapGet m.rmws la).getD VClock.zero) (s8.vc p)) }) →
    exec (.aaddb h o) s = .next (s.endA (.aaddb h o) h .next s9)) ∧
  (∀ (s s1 s2 s3 s4 s5 : State) (h : Hdr) (o : ATOp) (b x : Word) (la old : Nat),
    s.issueA (.raddf h o) h = some s1 → rdA o.base s1 = .ok b s2 → rdA o.s2 s2 = .ok x s3 →
    let n := 2 ^ o.size.toNat
    let va := b + sext64 o.off
    let f := raddfFmt o.size
    aPlace va n 3 n (addrMask 21) (fun r => decide (r ≤ 1)) s3 = .ok la s4 →
    homeRmw (panelOf s4.cur) (s4.core s4.cur).tag la n va
      (fun old => some (roundTo (.flt f) ((f.decode old).add false (f.decode (x.toNat % 256 ^ n))) .rne false 0)) s4 =
        .ok old s5 →
    exec (.raddf h o) s = .next (s.endA (.raddf h o) h .next s5))

/-- R247: what the home does for an atomic at a place that may be written: the old value is what its bytes read before, and the new
value stands there after; where the operation writes nothing only its clock is kept for the atomics after it. A new value
inside a live entry of the node table leaves free bits there (R134). -/
def Obligations.AtomicAtHome : Prop :=
  ∀ (p : Nat) (owner : Tag) (la n : Nat) (va : Word) (f : Nat → Option Nat) (s t : State) (old : Nat),
    s.canonical = true → (n = 1 ∨ n = 2 ∨ n = 4 ∨ n = 8) → la % n = 0 → homeRmw p owner la n va f s = .ok old t →
    ∃ s0 s1 b, needWrite owner la n va s = .ok () s0 ∧ readLine (homePanel (la / 64)) owner la n va s0 = .ok b s1 ∧
      old = natOfBytes b ∧ b = bytesAt s1.mem.l2 la n ∧
      let s2 := (s1.onMem fun m => m.catchUp p (s1.stampOf (la / 64))).onMem fun m =>
        m.catchUp p ((mapGet m.rmws la).getD VClock.zero)
      (f old = none → t = s2.onMem fun m =>
        { m with rmws := mapPut m.rmws la (vcMax ((mapGet m.rmws la).getD VClock.zero) (s2.vc p)) }) ∧
      (∀ v, f old = some v → s1.nodesAt la n = [] → bytesAt t.mem.l2 la n = bytesOfNat n v)

/-- R249, R258: the address of a gate word goes through set(CTX). GSET stores the value and fills the gate, GCLR empties it, GLD gives value and tag; MONW whose word differs
gives 1 at once, and one whose word is equal sleeps with its line armed. -/
def Obligations.GatesAndMonitor : Prop :=
  (∀ (s s1 s2 s3 s4 s5 : State) (h : Hdr) (o : ATOp) (b x : Word) (la : Nat),
    s.issueA (.gset h o) h = some s1 → rdA o.base s1 = .ok b s2 → rdA o.s2 s2 = .ok x s3 →
    gatePlace (b + sext64 o.off) 2 s3 = .ok la s4 →
    gateFill (panelOf s4.cur) (s4.core s4.cur).tag la x (b + sext64 o.off) s4 = .ok () s5 →
    exec (.gset h o) s = .next (s.endA (.gset h o) h .next s5) ∧ s5.gateFull la = true) ∧
  (∀ (s s1 s2 s3 s4 : State) (h : Hdr) (o : ATOp) (b : Word) (la : Nat),
    s.issueA (.gclr h o) h = some s1 → rdA o.base s1 = .ok b s2 →
    gatePlace (b + sext64 o.off) 2 s2 = .ok la s3 →
    gateClear (panelOf s3.cur) (s3.core s3.cur).tag la (b + sext64 o.off) s3 = .ok () s4 →
    exec (.gclr h o) s = .next (s.endA (.gclr h o) h .next s4) ∧ s4.gateFull la = false) ∧
  (∀ (s s1 s2 s3 s4 s5 s6 : State) (h : Hdr) (o : ATOp) (b : Word) (la : Nat) (bs : List Byte),
    s.issueA (.gld h o) h = some s1 → rdA o.base s1 = .ok b s2 →
    gatePlace (b + sext64 o.off) 1 s2 = .ok la s3 →
    homeRead (panelOf s3.cur) (s3.core s3.cur).tag la 8 (b + sext64 o.off) s3 = .ok bs s4 →
    wrA o.d (wordOf bs) s4 = .ok () s5 → wrA o.s2 (if s4.gateFull la then 1 else 0) s5 = .ok () s6 →
    exec (.gld h o) s = .next (s.endA (.gld h o) h .next s6)) ∧
  (∀ (s s1 s2 s3 s4 s5 s6 : State) (h : Hdr) (o : ATOp) (d b x : Word) (la : Nat) (bs : List Byte),
    s.issueA (.monw h o) h = some s1 → (s.core s.cur).monitor = none → rdA o.d s1 = .ok d s2 → rdA o.base s2 = .ok b s3 →
    rdA o.s2 s3 = .ok x s4 →
    let n := 2 ^ o.size.toNat
    let va := b + sext64 o.off
    aPlace va n 3 n (addrMask 21) (fun r => decide (r ≤ 1)) s4 = .ok la s5 →
    homeRead (panelOf s5.cur) (s5.core s5.cur).tag la n va s5 = .ok bs s6 →
    (natOfBytes bs ≠ x.toNat % 256 ^ n → ∀ s7, wrA o.d 1 s6 = .ok () s7 →
      exec (.monw h o) s = .next (s.endA (.monw h o) h .next s7)) ∧
    (natOfBytes bs = x.toNat % 256 ^ n → ∃ t m, exec (.monw h o) s = .next t ∧ (t.core s.cur).monitor = some m ∧
      m.line = la / 64 ∧ m.woken = false ∧
      m.deadline = (if d = 0 then none else some ((s6.ftOf (panelOf s6.cur)).toNat + d.toNat))))

/-! ## The access unit: flags, bobbins, rings, markers -/

/-- R250 to R253: FINC of the core's own flag adds where the sum does not pass CEIL; FSET writes the field where COUNT stays at
or below CEIL; FRD gives the flag's word; FWAIT takes N from a flag that holds as much, or only looks at it. A remote FINC sends
its addition and waits for the answer. -/
def Obligations.FlagWords : Prop :=
  (∀ (s s1 : State) (h : Hdr) (o : FincOp),
    s.issueA (.finc h o) h = some s1 → o.rem = false →
    let k := s1.core s.cur
    let i := (o.vf.toNat + k.flagBase.toNat) % 64
    let f := vget k.flags i
    o.vf.toNat < k.flagNum.toNat → f.count.toNat + o.amount.toNat ≤ f.ceil.toNat →
    exec (.finc h o) s = .next (s.endA (.finc h o) h .next (s1.setCore s.cur
      { k with flags := vset k.flags i { f with count := f.count + o.amount } }))) ∧
  (∀ (s s1 s2 : State) (h : Hdr) (o : FincOp) (t : Word),
    s.issueA (.finc h o) h = some s1 → o.rem = true → (s.core s.cur).finc = false → rdA o.s1 s1 = .ok t s2 →
    o.vf.toNat < (s.core s.cur).flagNum.toNat →
    ∃ u x, exec (.finc h o) s = .next u ∧ u.remotes = s.remotes ++ [x] ∧ (u.core s.cur).finc = true ∧
      x.target = field t 0 10 ∧ x.held.v = o.vf ∧ x.held.amount = o.amount ∧ x.owner = (s.core s.cur).ctx ∧
      x.held.sender = s.cur) ∧
  (∀ (s s1 s2 : State) (h : Hdr) (o : FsetOp) (x : Word),
    s.issueA (.fset h o) h = some s1 → rdA o.s1 s1 = .ok x s2 →
    let k := s2.core s.cur
    let i := (o.vf.toNat + k.flagBase.toNat) % 64
    let f := (vget k.flags i).setField o.fld (field (x + o.imm.setWidth 64) 0 16)
    o.vf.toNat < k.flagNum.toNat → f.count.toNat ≤ f.ceil.toNat →
    exec (.fset h o) s = .next (s.endA (.fset h o) h .next (s2.setCore s.cur { k with flags := vset k.flags i f }))) ∧
  NoSourceA .frd FrdOp.d (fun s o => o.vf.toNat < (s.core s.cur).flagNum.toNat) (fun o s =>
    let k := s.core s.cur
    (vget k.flags ((o.vf.toNat + k.flagBase.toNat) % 64)).word) ∧
  (∀ (s s1 : State) (h : Hdr) (o : FwaitOp),
    s.issueA (.fwait h o) h = some s1 →
    let k := s1.core s.cur
    let i := (o.vf.toNat + k.flagBase.toNat) % 64
    let f := vget k.flags i
    o.vf.toNat < k.flagNum.toNat → o.n.toNat ≤ f.count.toNat →
    exec (.fwait h o) s = .next (s.endA (.fwait h o) h .next
      (if o.keep then s1 else s1.setCore s.cur { k with flags := vset k.flags i { f with count := f.count - o.n } })))

/-- R69, R70, R254: BBIND binds a bobbin that no engine word in progress names; BFILLW and BFREEW pass with enough FILLED or
FREE; BADV moves one slot from FREE to FILLED and WPTR on, BREL one back and RPTR on, each modulo COUNT. A BREL on the
bobbin of a window leaves free values in the scratchpad (R330). -/
def Obligations.BobbinWords : Prop :=
  (∀ (s s1 s2 : State) (h : Hdr) (o : BbindOp) (v : Word),
    s.issueA (.bbind h o) h = some s1 →
    (∀ w ∈ (s.core s.cur).unfinished, o.b ∉ w.bobbins) →
    rdA o.s1 s1 = .ok v s2 → bobbinCfgOk v = true →
    exec (.bbind h o) s = .next (s.endA (.bbind h o) h .next (s2.onCore s.cur fun k =>
      { k with bobbins := vset k.bobbins o.b.toNat
                 { config := v, free := (field v 29 6).toNat + 1, filled := 0, rptr := 0, wptr := 0 } }))) ∧
  (∀ (s s1 : State) (h : Hdr) (o : BwaitOp),
    s.issueA (.bfillw h o) h = some s1 → o.n.toNat ≤ (vget (s.core s.cur).bobbins o.b.toNat).filled →
    exec (.bfillw h o) s = .next (s.endA (.bfillw h o) h .next s1)) ∧
  (∀ (s s1 : State) (h : Hdr) (o : BwaitOp),
    s.issueA (.bfreew h o) h = some s1 → o.n.toNat ≤ (vget (s.core s.cur).bobbins o.b.toNat).free →
    exec (.bfreew h o) s = .next (s.endA (.bfreew h o) h .next s1)) ∧
  (∀ (s s1 : State) (h : Hdr) (b : BitVec 5),
    s.issueA (.badv h b) h = some s1 →
    let x := vget (s.core s.cur).bobbins b.toNat
    0 < x.free →
    exec (.badv h b) s = .next (s.endA (.badv h b) h .next (s1.onCore s.cur fun k =>
      { k with bobbins := vset k.bobbins b.toNat
                 { x with wptr := (x.wptr + 1) % (x.count + 1), free := x.free - 1, filled := x.filled + 1 } }))) ∧
  (∀ (s s1 : State) (h : Hdr) (b : BitVec 5),
    s.issueA (.brel h b) h = some s1 →
    let x := vget (s.core s.cur).bobbins b.toNat
    0 < x.filled →
    let bs := vset (s.core s.cur).bobbins b.toNat
      { x with rptr := (x.rptr + 1) % (x.count + 1), filled := x.filled - 1, free := x.free + 1 }
    let wound := (s.core s.cur).windows.toList.any fun v => (v.map fun v => dBob v.dst) == some b
    (wound = false → exec (.brel h b) s = .next (s.endA (.brel h b) h .next (s1.onCore s.cur fun k =>
      { k with bobbins := bs }))) ∧
    (wound = true → ∃ q f, exec (.brel h b) s = .next (s.endA (.brel h b) h .next ({ s1 with free := f }.setCore s.cur q)) ∧
      q = { s1.core s.cur with bobbins := bs, spad := q.spad, side := q.side, spadErr := q.spadErr }))

/-- R238, R240, R241, R255 to R257, R263: OWN, RINGSET, RINGPUB, MARK, JOIN, FENCE, STADV and SAFE. RINGPUB publishes at most
the ring's words beyond FETCH; JOIN passes once the marked words have completed; FENCE of scope 3 once the panel's writes are
everywhere. -/
def Obligations.StreamWords : Prop :=
  (∀ (s s1 : State) (h : Hdr) (o : OwnOp),
    s.issueA (.own h o) h = some s1 →
    (o.v = false → ∀ i, i ≤ o.n1.toNat → s1.bankNamed s.cur (o.first.toNat + i) = false) →
    ∃ q, exec (.own h o) s = .next (s.endA (.own h o) h .next (s1.setCore s.cur q)) ∧
      (∀ b, b < 176 → vget q.owner b =
        if o.first.toNat ≤ b ∧ b ≤ o.first.toNat + o.n1.toNat then o.v else vget (s1.core s.cur).owner b) ∧
      q = { s1.core s.cur with owner := q.owner }) ∧
  (∀ (s s1 : State) (h : Hdr) (o : RingSetOp),
    s.issueA (.ringset h o) h = some s1 → ringsetBad o (s.core s.cur) = 0 →
    let t := engStream o.strm
    let r := (s.core s.cur).ring t
    r.fetch = r.pub → ((s.core s.cur).engine t).buf = [] →
    exec (.ringset h o) s = .next (s.endA (.ringset h o) h .next (s1.onCore s.cur fun k =>
      k.setRing t { r with base := o.base, size := o.size, fetch := 0, pub := 0 }))) ∧
  (∀ (s s1 s2 : State) (h : Hdr) (o : RingPubOp) (u : BitVec 32),
    s.issueA (.ringpub h o) h = some s1 →
    (match o.val with
      | .imm v => u = v ∧ s2 = s1
      | .reg r => ∃ x, rdA r s1 = .ok x s2 ∧ u = field x 0 32) →
    let t := engStream o.strm
    let r := (s.core s.cur).ring t
    (u - r.fetch).toNat ≤ 2 ^ r.size.toNat →
    exec (.ringpub h o) s = .next (s.endA (.ringpub h o) h .next (s2.onCore s.cur fun k =>
      k.setRing t { r with pub := if 1 ≤ (u - r.pub).toNat ∧ (u - r.pub).toNat < 2 ^ 31 then u else r.pub
                           started := true }))) ∧
  (∀ (s s1 : State) (h : Hdr) (o : MarkOp),
    s.issueA (.mark h o) h = some s1 →
    let k := s.core s.cur
    exec (.mark h o) s = .next (s.endA (.mark h o) h .next (s1.onCore s.cur fun q =>
      { q with marks := vset q.marks o.token.toNat (some
          (if o.m then some (k.markPos .m) else none, if o.v then some (k.markPos .v) else none,
           if o.c then some (k.markPos .c) else none)) }))) ∧
  (∀ (s s1 : State) (h : Hdr) (t : BitVec 2),
    s.issueA (.join h t) h = some s1 →
    let k := s.core s.cur
    (∀ m v c, vget k.marks t.toNat = some (m, v, c) →
      k.markReached .m m = true ∧ k.markReached .v v = true ∧ k.markReached .c c = true) →
    exec (.join h t) s = .next (s.endA (.join h t) h .next (s1.onCore s.cur fun q =>
      { q with marks := vset q.marks t.toNat none }))) ∧
  PlainA .fence (fun s (scope : BitVec 2) => scope = 3 → s.mem.settledAt (panelOf s.cur) = true) (fun _ _ s => s) ∧
  PlainA .stadv free (fun _ n s => s.onCore s.cur fun k => { k with stageCtr := k.stageCtr + n.setWidth 32 }) ∧
  (∀ (s s1 : State) (h : Hdr) (n : BitVec 16),
    s.issueA (.aSafe h n) h = some s1 → ((s.core s.cur).preempt = false ∨ (s.core s.cur).priv = true) →
    exec (.aSafe h n) s = .next (s.endA (.aSafe h n) h .stay (s1.onCore s.cur fun k =>
      { k.advanceA k.priv .next with aSafe := some n, aSafeWord := encodeWord (.aSafe h n) })))

/-! ## The access unit: tasks and passes -/

/-- R259, R260, R262, R263: ENQ reads the record through the set of the core's context, submits it under that context and gives its
task number, or all ones where it is rejected (that the record may lie in regions 2 and 3, where each of its words is an access of
its own, is the model's choice: log 113, DEDUCED); POPPASS takes a record that is present and gives its word 1; PASSDONE with no current pass does nothing, and with one ends it once every
block has completed or been handed over; YIELD advertises the core or withdraws it. -/
def Obligations.PassWords : Prop :=
  (∀ (s s1 s2 s3 s4 s5 s6 : State) (h : Hdr) (o : RR2) (va : Word) (la : Nat) (b : List Byte) (id : Option (BitVec 32)),
    s.issueA (.enq h o) h = some s1 → rdA o.s1 s1 = .ok va s2 →
    let t := (s2.core s2.cur).ctx
    (∀ l, rangeTranslate (s2.core s2.cur).rangeSet va 0 0 = .ok l → regionOf l = 2 →
      winFirst t l 16 false s1Mask (va.toNat % 128 = 0) s2 = .ok () s2) →
    placeIn (s2.core s2.cur).rangeSet va 128 1 128 s1Mask (fun r => decide (r ≤ 3)) s2 = .ok la s3 →
    let p := panelOf s3.cur
    (regionOf la ≤ 1 → memRead p t la 128 va s3 = .ok b s4) →
    (1 < regionOf la → ∃ ws, (List.range 16).mapM (fun i => loadAs t (la + 8 * i) 8 va) s3 = .ok ws s4 ∧ b = ws.flatten) →
    submit t (gathOf s4.cur) b la allOnes 0 (s4.vc p) s4 = .ok id s5 →
    wrA o.d ((id.map (·.setWidth 64)).getD allOnes) s5 = .ok () s6 →
    exec (.enq h o) s = .next (s.endA (.enq h o) h .next s6)) ∧
  (∀ (s s1 s2 s3 s4 : State) (h : Hdr) (d : Reg) (f : Feed) (r : Popped),
    s.issueA (.poppass h d) h = some s1 →
    let k := s.core s.cur
    k.feed = some f → (∀ w ∈ k.unfinished, w.readsPass = false) → fetchPass f s1 = .ok r s2 →
    (if k.current then handOverAll 1 (k.handover.getD (k.blocks.map fun b => (b, false))) s2 = .ok () s3 else s3 = s2) →
    let u := (s3.onGath (gathOf s3.cur) fun g =>
      { g with written := g.written.filter fun w =>
          !(w.core == s3.cur && w.pass == field (r.word 1) 32 32 && r.isPass) }).onCore s3.cur fun k => k.takePass r f s3.cycle
    wrA d (r.word 1) u = .ok () s4 →
    exec (.poppass h d) s = .next (s.endA (.poppass h d) h .next s4)) ∧
  (∀ (s s1 : State) (h : Hdr),
    s.issueA (.passdone h) h = some s1 → (s.core s.cur).current = false →
    exec (.passdone h) s = .next (s.endA (.passdone h) h .next s1)) ∧
  (∀ (s s1 s2 : State) (h : Hdr) (done : List Nat),
    s.issueA (.passdone h) h = some s1 → (s.core s.cur).current = true → (s.core s.cur).handover = none →
    sendDone (encodeWord (.passdone h)) ((s.core s.cur).headWord .a) (s.core s.cur).blocks [] [] s1 = .ok done s2 →
    (∀ b ∈ (s2.core s2.cur).blocks, (s2.core s2.cur).rbtParked b = true → b ∈ done) →
    exec (.passdone h) s = .next (s.endA (.passdone h) h .next (s2.onCore s2.cur fun k =>
      { k with handover := none, current := false }))) ∧
  PlainA .yield free (fun _ adv s =>
    let t := s.onCore s.cur fun k => { k with advert := adv }
    if adv then t.assignAll (gathOf s.cur) else t.releaseCore s.cur)

/-! ## The access unit: the change tree -/

/-- R144, R145, R264: the tree words complete where their handles are valid, R136 grants them and R374 and R393 refuse nothing;
TNODE, TENROL and TREAD give their result, TSETTLE, TREPAR and TFREE pass once no change on the node is pending, reading its
ancestors one after another: a read that stalls stalls the word (R129). A TREPAR is performed as it issues, or later (log 68), where it
completes with its signal; until then no other structural word issues. -/
def Obligations.TreeWords : Prop :=
  (∀ (s s1 s2 s3 s4 s5 s6 s7 : State) (h : Hdr) (o : RR3) (a b w v : Word) (p : Nat),
    s.issueA (.tnode h o) h = some s1 → (s1.rollup 0).en = true → s1.moving = false → rdA o.s1 s1 = .ok a s2 → rdA o.s2 s2 = .ok b s3 →
    let t := (s3.core s3.cur).tag
    needNode a s3 = .ok p s4 → nodeWord p 1 s4 = .ok w s5 → mayRead t w = true → ndLeaf w = false →
    newNode p t b s5 = .ok v s6 → wrA o.d v s6 = .ok () s7 →
    exec (.tnode h o) s = .next (s.endA (.tnode h o) h .next s7)) ∧
  (∀ (s s1 s2 s3 s4 s5 s6 s7 : State) (h : Hdr) (o : Tree4) (hd va size : Word) (leaf la : Nat),
    s.issueA (.tenrol h o) h = some s1 → (s1.rollup 0).en = true → s1.moving = false → rdA o.s1 s1 = .ok hd s2 → rdA o.s2 s2 = .ok va s3 →
    rdA o.s3 s3 = .ok size s4 → treeRange hd va size true s4 = .ok (leaf, la) s5 →
    let ps := patchesOf la size.toNat
    (∀ x ∈ ps, mapGet s5.tree.patches x = none) →
    (if s5.patchRoom ps then enrol leaf ps s5 = .ok () s6 ∧ wrA o.d 0 s6 = .ok () s7 else wrA o.d allOnes s5 = .ok () s7) →
    exec (.tenrol h o) s = .next (s.endA (.tenrol h o) h .next s7)) ∧
  (∀ (s s1 s2 s3 s4 s5 s6 s7 : State) (h : Hdr) (o : Tree3) (hd va size : Word) (leaf la : Nat),
    s.issueA (.tunrol h o) h = some s1 → (s1.rollup 0).en = true → s1.moving = false → rdA o.s1 s1 = .ok hd s2 → rdA o.s2 s2 = .ok va s3 →
    rdA o.s3 s3 = .ok size s4 → treeRange hd va size false s4 = .ok (leaf, la) s5 →
    patchesAt leaf (patchesOf la size.toNat) s5 = .ok true s6 → unrol leaf (patchesOf la size.toNat) s6 = .ok () s7 →
    exec (.tunrol h o) s = .next (s.endA (.tunrol h o) h .next s7)) ∧
  (∀ (s s1 s2 s3 s4 s5 s6 s7 s8 s9 s10 s11 : State) (h : Hdr) (o : SS) (hm hp wm wo wp : Word) (m p : Nat) (above : List Nat),
    s.issueA (.trepar h o) h = some s1 → (s1.rollup 0).en = true → s1.moving = false → rdA o.s1 s1 = .ok hm s2 → rdA o.s2 s2 = .ok hp s3 →
    let t := (s3.core s3.cur).tag
    handleNode hm s3 = .ok (some m) s4 → handleNode hp s4 = .ok (some p) s5 → nodeWord m 1 s5 = .ok wm s6 →
    (if ndParent wm = noNode then wo = wm ∧ s7 = s6 else nodeWord (ndParent wm) 1 s6 = .ok wo s7) →
    mayOwn t wm = true → mayRead t wo = true → nodeWord p 1 s7 = .ok wp s8 → mayRead t wp = true → ndLeaf wp = false →
    m ≠ 0 → p ≠ m → pathOf p s8 = .ok above s9 → m ∉ above → settle m s9 = .ok () s10 → reparent m p s10 = .ok () s11 →
    let i := Instr.trepar h o
    let later := s10.onCore s10.cur fun k =>
      { k with aMoves := k.aMoves ++ [{ word := encodeWord i, rword := k.headWord .a, node := m, parent := p }] }
    exec i s = .next (s.endA i h .next (if s.lineOps.isSome then later else s11))) ∧
  (∀ (s s1 s2 s3 s4 s5 : State) (h : Hdr) (r : Reg) (hd w : Word) (n : Nat),
    s.issueA (.tsettle h r) h = some s1 → rdA r s1 = .ok hd s2 → (s2.rollup 0).en = true →
    handleNode hd s2 = .ok (some n) s3 → nodeWord n 1 s3 = .ok w s4 → mayRead (s2.core s2.cur).tag w = true →
    (∀ p, p < 4 → (s4.rollup p).err = false) → settle n s4 = .ok () s5 → (∀ p, p < 4 → (s5.rollup p).err = false) →
    exec (.tsettle h r) s = .next (s.endA (.tsettle h r) h .next s5)) ∧
  (∀ (s s1 s2 s3 s4 s5 s6 : State) (h : Hdr) (o : TreadOp) (v w c : Word) (n : Nat),
    s.issueA (.tread h o) h = some s1 → rdA o.s1 s1 = .ok v s2 → (s2.rollup 0).en = true → o.patch = false →
    needNode v s2 = .ok n s3 → nodeWord n 1 s3 = .ok w s4 → mayRead (s2.core s2.cur).tag w = true →
    (∀ p, p < 4 → (s4.rollup p).err = false) → nodeWord n 0 s4 = .ok c s5 →
    wrA o.d c (s5.onMem fun m => m.catchUp (panelOf s5.cur) (s5.stampOf (s2.nodeAddr n 0 / 64))) = .ok () s6 →
    exec (.tread h o) s = .next (s.endA (.tread h o) h .next s6)) ∧
  (∀ (s s1 s2 s3 s4 s5 s6 : State) (h : Hdr) (o : TreadOp) (v w c : Word) (la : Nat),
    s.issueA (.tread h o) h = some s1 → rdA o.s1 s1 = .ok v s2 → (s2.rollup 0).en = true → o.patch = true →
    ctxXlate v 1 1 s2 = .ok la s3 → (∀ p, p < 4 → (s5.rollup p).err = false) →
    (match mapGet s2.tree.patches (la / 65536) with
      | none => s5 = s3 ∧ wrA o.d allOnes s5 = .ok () s6
      | some r => (patchRecord (la / 65536) r s3 = .ok none s5 ∧ wrA o.d allOnes s5 = .ok () s6) ∨
          ∃ leaf, patchRecord (la / 65536) r s3 = .ok (some (leaf, c)) s4 ∧ nodeWord leaf 1 s4 = .ok w s5 ∧
            mayRead (s2.core s2.cur).tag w = true ∧
            wrA o.d c (s5.onMem fun m => m.catchUp (panelOf s5.cur) (s5.stampOf (s2.patchAt (la / 65536) r / 64))) = .ok () s6) →
    exec (.tread h o) s = .next (s.endA (.tread h o) h .next s6)) ∧
  (∀ (s s1 s2 s3 s4 s5 s6 s7 : State) (h : Hdr) (r : Reg) (hd w c : Word) (n : Nat),
    s.issueA (.tfree h r) h = some s1 → (s1.rollup 0).en = true → s1.moving = false → rdA r s1 = .ok hd s2 → needNode hd s2 = .ok n s3 →
    nodeWord n 1 s3 = .ok w s4 → nodeWord n 2 s4 = .ok c s5 → mayOwn (s2.core s2.cur).tag w = true → n ≠ 0 →
    ndChildren c = 0 → ndPatches c = 0 → ndWlk w = false → settle n s5 = .ok () s6 → freeNode n s6 = .ok () s7 →
    exec (.tfree h r) s = .next (s.endA (.tfree h r) h .next s7)) ∧
  (∀ (s t : State) (c : CoreId) (i : Nat) (x : Move),
    vget s.power.cluster (clusterOf c) ≠ 2 → (s.core c).aMoves[i]? = some x →
    reparent x.node x.parent { s with cur := c } = .ok () t →
    exec (.wordCompletion c .a i) s = .next (((t.undrain c .a).onCore c fun k =>
      { k with aMoves := k.aMoves.eraseIdx i }).aComplete (getHdr x.word) x.word x.rword)) ∧
  ((∀ s : State, pathOf noNode s = .ok [] s) ∧
   (∀ (s s1 s2 : State) (n : Nat) (w : Word) (up : List Nat),
    n < noNode → nodeWord n 1 s = .ok w s1 → chain (2 ^ 24 - 1) (ndParent w) s1 = .ok up s2 → pathOf n s = .ok (n :: up) s2) ∧
   (∀ (s s1 : State) (n : Nat), nodeWord n 1 s = .error .stall s1 → n < noNode → pathOf n s = .error .stall s1))

/-! ## The access unit: exceptions and privileged words -/

/-- R266: SYSC enters the handler at word 0 with cause 0x10000 + N, the word itself, address 0 and the place of the next word;
where it stands in the handler already, the place is a free value (log 29). RFE leaves the handler for EXC_RET. -/
def Obligations.SyscAndRfe : Prop :=
  (∀ (s s1 : State) (h : Hdr) (n : BitVec 16),
    s.issueA (.sysc h n) h = some s1 →
    ∃ t, exec (.sysc h n) s = .next (s.endA (.sysc h n) h .stay t) ∧
      let q := t.core s.cur
      let k := s.core s.cur
      q.priv = true ∧ q.handlerPos = 0 ∧ q.excCause = 0x10000 + n.setWidth 64 ∧ q.excWord = encodeWord (.sysc h n) ∧
      q.excAddr = 0 ∧ q.a = k.a ∧
      (k.priv = false → q.excRet = excRetWord false (if (q.ring .a).ended then (q.ring .a).endWord
        else (q.ring .a).wordIdx (q.ring .a).fetch.toNat) ∧
        (q.ring .a).fetch = BitVec.ofNat 32 ((k.ring .a).fetch.toNat + 1))) ∧
  (∀ (s s1 : State) (h : Hdr),
    s.issueA (.rfe h) h = some s1 → (s.core s.cur).priv = true →
    exec (.rfe h) s = .next (s.endA (.rfe h) h .stay ((s1.onCore s.cur Core.leaveHandler).dropWire s.cur))) ∧
  (∀ k : Core,
    k.leaveHandler.priv = false ∧ k.leaveHandler.wdone = bit k.excRet 16 ∧
    ((k.ring .a).ended = false →
      (k.leaveHandler.ring .a).fetch = BitVec.ofNat 32 ((k.ring .a).posOf (field k.excRet 0 13))))

/-- R83, R86, R267: CSRW writes the CSR's fields; a PRIV CSR in the handler, BANK_FMT of a bank that the engines do not own, ROUND
with one of its five modes. -/
def Obligations.CsrWrites : Prop :=
  ∀ (s s1 s2 : State) (h : Hdr) (o : CsrOp) (v : Word),
    s.issueA (.csrw h o) h = some s1 → (csrPriv o.n.toNat = true → (s.core s.cur).priv = true) → rdA o.r s1 = .ok v s2 →
    (o.n = 0x20 → (field v 0 3).toNat < 5) →
    (0x100 ≤ o.n.toNat → o.n.toNat < 0x1B0 → vget (s.core s.cur).owner (o.n.toNat - 0x100) = false) →
    exec (.csrw h o) s = .next (s.endA (.csrw h o) h .next (s2.onCore s.cur fun k => k.setCsr s.cycle o.n.toNat v))

/-- R124, R129, R130, R155, R268 to R271, R386: the privileged words complete in the handler where their operands are in the limits of
R374 and the memory they name can be reached: LPTW writes the entry and gives the time, LDRAIN sets the page's DRAIN bit, LCONF
waits for the leases to end, each while UNCACHED is 0 (one that waited for it to clear then gives the time of its write, R386), KEYSET loads a slot, KEYKILL retires one, FMAP installs a feed ring, CTXSV saves the context and
CTXLD goes on with the one it loads. -/
def Obligations.PrivilegedWords : Prop :=
  (∀ (s s1 s2 s3 s4 s5 : State) (h : Hdr) (o : RR3K) (va v : Word) (lev p : Nat),
    s.issueA (.lptw h o) h = some s1 → (s.core s.cur).priv = true → rdA o.s1 s1 = .ok va s2 → rdA o.s2 s2 = .ok v s3 →
    pagedAddr va = true → lptwLevel o.k v = some lev →
    entryFrom va.toNat walkLevels lev ((vget s3.mem.ctls (xlatCtl (va.toNat / 64))).root.toNat * 4096) s3 = .ok (some p) s4 →
    let u := s4.setPtWord (panelOf s4.cur) p (lptwValue o.k v (s4.ptWord p))
    (s1.core s1.cur).ptTime = none → u.uncached = false → wrA o.d (u.entryTime p) u = .ok () s5 →
    exec (.lptw h o) s = .next (s.endA (.lptw h o) h .next s5)) ∧
  (∀ (s s1 s2 : State) (h : Hdr) (o : RR3K) (t : Word),
    s.issueA (.lptw h o) h = some s1 → (s.core s.cur).priv = true → (s1.core s1.cur).ptTime = some t → s1.uncached = false →
    wrA o.d t (s1.onCore s1.cur fun k => { k with ptTime := none }) = .ok () s2 →
    exec (.lptw h o) s = .next (s.endA (.lptw h o) h .next s2)) ∧
  (∀ (s s1 s2 s3 s4 : State) (h : Hdr) (o : RR2) (va : Word) (l : Leaf),
    s.issueA (.ldrain h o) h = some s1 → (s.core s.cur).priv = true → rdA o.s1 s1 = .ok va s2 → pagedAddr va = true →
    walkOpen (xlatCtl (va.toNat / 64)) va.toNat s2 = .ok () s3 → s3.walk (xlatCtl (va.toNat / 64)) va.toNat = some l →
    let u := s3.setPtWord (panelOf s3.cur) l.at0 (l.pte ||| maskIf true 62 1)
    (s1.core s1.cur).ptTime = none → u.uncached = false → wrA o.d (u.entryTime l.at0) u = .ok () s4 →
    exec (.ldrain h o) s = .next (s.endA (.ldrain h o) h .next s4)) ∧
  (∀ (s s1 s2 : State) (h : Hdr) (o : RR2) (t : Word),
    s.issueA (.ldrain h o) h = some s1 → (s.core s.cur).priv = true → (s1.core s1.cur).ptTime = some t → s1.uncached = false →
    wrA o.d t (s1.onCore s1.cur fun k => { k with ptTime := none }) = .ok () s2 →
    exec (.ldrain h o) s = .next (s.endA (.ldrain h o) h .next s2)) ∧
  (∀ (s s1 s2 s3 s4 s5 s6 : State) (h : Hdr) (o : SS) (va t : Word) (l : Leaf),
    s.issueA (.lconf h o) h = some s1 → (s.core s.cur).priv = true → rdA o.s1 s1 = .ok va s2 → rdA o.s2 s2 = .ok t s3 →
    pagedAddr va = true → walkOpen (xlatCtl (va.toNat / 64)) va.toNat s3 = .ok () s4 →
    s4.walk (xlatCtl (va.toNat / 64)) va.toNat = some l → pteDrain l.pte = true →
    confirmTime t (pteLease l.pte) ≤ (s4.ftOf (panelOf s4.cur)).toNat → s4.uncached = false → s4.pageInFlight l va.toNat = false →
    (s4.pageLines l va.toNat).forM (confirmLine l) s4 = .ok () s5 → (s4.pageVictims l).forM confirmVictim s5 = .ok () s6 →
    exec (.lconf h o) s = .next (s.endA (.lconf h o) h .next s6)) ∧
  (∀ (s s1 s2 s3 s4 : State) (h : Hdr) (o : SS) (x va : Word) (b : List Byte),
    s.issueA (.keyset h o) h = some s1 → (s.core s.cur).priv = true → rdA o.s1 s1 = .ok x s2 → rdA o.s2 s2 = .ok va s3 →
    field va 56 8 = 0 → regionOf va.toNat = 0 →
    let n := (field x 0 8).toNat
    ((s3.keyOf n).loaded = false ∨ (s3.keyOf n).retired = true) →
    memRead (panelOf s3.cur) 0 va.toNat 64 0 s3 = .ok b s4 →
    exec (.keyset h o) s = .next (s.endA (.keyset h o) h .next
      (s4.setKey n { key := lineOf b, loaded := true, retired := false }))) ∧
  (∀ (s s1 s2 : State) (h : Hdr) (r : Reg) (x : Word),
    s.issueA (.keykill h r) h = some s1 → (s.core s.cur).priv = true → rdA r s1 = .ok x s2 →
    let n := field x 0 8
    n ≠ 0 →
    exec (.keykill h r) s = .next (s.endA (.keykill h r) h .next
      ((s2.killKey n).setKey n.toNat { s2.keyOf n.toNat with retired := true }))) ∧
  (∀ (s s1 s2 s3 : State) (h : Hdr) (r : Reg) (va : Word) (ws : List Word),
    s.issueA (.fmap h r) h = some s1 → (s.core s.cur).priv = true → rdA r s1 = .ok va s2 → field va 56 8 = 0 →
    regionOf va.toNat ≤ 3 → va.toNat % 8 = 0 →
    (regionOf va.toNat = 2 → winFirst (s2.core s2.cur).tag va.toNat 5 false s1Mask true s2 = .ok () s2) →
    ((List.range 5).mapM (fun i => do
      let b ← aLoad (va.toNat + 8 * i) 8 0
      pure (wordOf b)) : M (List Word)) s2 = .ok ws s3 →
    feedReserved (fun i => ws.getD i 0) = false → feedOk (fun i => ws.getD i 0) = true →
    exec (.fmap h r) s = .next (s.endA (.fmap h r) h .next
      (s3.installFeed s3.cur (feedOf s3 (s3.core s3.cur).feed fun i => ws.getD i 0)))) ∧
  (∀ (s s1 s2 s3 s4 : State) (h : Hdr) (o : CtxOp) (va : Word) (i : Nat) (point : Option (BitVec 16)),
    s.issueA (.ctxsv h o) h = some s1 → (s.core s.cur).priv = true → rdA o.s1 s1 = .ok va s2 → field va 56 8 = 0 →
    regionOf va.toNat ≤ 1 → va.toNat % 4096 = 0 →
    let k := s2.core s2.cur
    k.freeAway = some i → k.safeAt = some point → k.enginesIdle = true → passXSafe s2 = .ok () s3 →
    let q := s3.core s3.cur
    q.savedErr o.spad = none →
    storeBlock (panelOf s3.cur) 0 va.toNat (ctxImage q (point.getD 0) o.spad (s3.budgetNow q)) s3 = .ok () s4 →
    exec (.ctxsv h o) s = .next (s.endA (.ctxsv h o) h .next
      ((({ s4 with saves := mapPut s4.saves va.toNat q.saved } : State).onCore s4.cur fun k =>
        k.savedCore i va.toNat).syncWire s4.cur))) ∧
  (∀ (s s1 s2 s3 s4 s5 s6 s7 : State) (h : Hdr) (o : CtxOp) (va : Word) (b : List Byte) (sp : Option (List Byte))
      (set : RangeSet),
    s.issueA (.ctxld h o) h = some s1 → (s.core s.cur).priv = true → rdA o.s1 s1 = .ok va s2 → field va 56 8 = 0 →
    regionOf va.toNat ≤ 1 → va.toNat % 4096 = 0 → memRead (panelOf s2.cur) 0 va.toNat 147456 0 s2 = .ok b s3 →
    let ws := wordsOf 2048 b
    let owner : Tag := field (imgWord ws 0) 0 12
    readRangeSet (panelOf s2.cur) owner s3 = .ok set s4 →
    ctxReserved ws = false → (imgFile ws).any (·.any RangeReg.bad) = false → set.any RangeReg.bad = false →
    (field (imgWord ws 0x38) 0 3).toNat < 5 → feedOk (imgFeed ws) = true →
    (if o.spad then ∃ d, memRead (panelOf s2.cur) 0 (va.toNat + 147456) 786432 0 s4 = .ok d s5 ∧ sp = some d
      else sp = none ∧ s5 = s4) →
    let f (i : Nat) : Word := if i < 4 then Config.freeWord (s5.free + i) else 0
    let x : LoadArgs := { set := set, cycle := s2.cycle, kept := s2.keptFor va.toNat ws, free := f }
    let u1 := (State.orphan { s5 with free := s5.free + 4 } s5.cur).onCore s5.cur fun k => k.loadCtx ws (b.drop 16384) sp x
    let u2 := u1.installFeed u1.cur (feedOf u1 (u1.core u1.cur).feed (imgFeed ws))
    s6 = (u2.dropWire u2.cur).syncWire u2.cur → freeHold s6.cur owner s6 = .ok () s7 →
    exec (.ctxld h o) s = .next (s.endA (.ctxld h o) h .stay (s7.assignAll (gathOf s7.cur))))

/-! ## The execute unit -/

namespace Sys2Proof.Machine

/-- An X word of two sources writes `f` of them. -/
def TwoSourceX {ω : Type} (mk : Hdr → ω → Instr) (d s1 s2 : ω → Reg) (f : ω → Word → Word → Word) : Prop :=
  ∀ (s t1 t2 t3 t4 : State) (h : Hdr) (o : ω) (x y : Word),
    s.issueX (mk h o) h = some t1 → rdX (s1 o) t1 = .ok x t2 → rdX (s2 o) t2 = .ok y t3 →
    wrX (d o) (f o x y) t3 = .ok () t4 →
    exec (mk h o) s = .next (s.endX (mk h o) .next t4)

/-- On the X stream the words of opcode `op` are `mk` with the operands `get` reads from them, and each bit of `res` that is set is
reported as a reserved bit (R212, R367). -/
def DecodesX {ω : Type} (op : BitVec 8) (mk : Hdr → ω → Instr) (get : Word → ω) (res : Word) : Prop :=
  ∀ w : Word, field w 40 8 = op →
    ∃ m, decodeWord .x w = .word (mk { wait := getWait w, sig := getSig w } (get w)) m ∧ m &&& res = w &&& res

/-- d, s1 and s2 of format RR. -/
def rrFields (w : Word) : RR3 := { d := field w 35 5, s1 := field w 30 5, s2 := field w 25 5 }
/-- d and s1 of format RR. -/
def rrFields2 (w : Word) : RR2 := { d := field w 35 5, s1 := field w 30 5 }
/-- Format RR with a signedness in [0]. -/
def rrFieldsS (w : Word) : RR3S := { d := field w 35 5, s1 := field w 30 5, s2 := field w 25 5, sgn := bit w 0 }
/-- Format RR with k. -/
def rrFieldsK (w : Word) : RR3K := { d := field w 35 5, s1 := field w 30 5, s2 := field w 25 5, k := field w 0 3 }

/-- An X word of one source. -/
def OneSourceX {ω : Type} (mk : Hdr → ω → Instr) (d s1 : ω → Reg) (f : ω → Word → Word) : Prop :=
  ∀ (s t1 t2 t3 : State) (h : Hdr) (o : ω) (x : Word),
    s.issueX (mk h o) h = some t1 → rdX (s1 o) t1 = .ok x t2 → wrX (d o) (f o x) t2 = .ok () t3 →
    exec (mk h o) s = .next (s.endX (mk h o) .next t3)

/-- The state after a rounding X word has read its mode and L (R90, R93): the LFSR takes its seed if it waits for it, and
steps once under stochastic rounding. -/
def State.roundX (s : State) (rnd : BitVec 3) : State :=
  s.onCore s.cur fun k =>
    let k := if k.xReload then { k with xLfsr := lfsrSeed k.srSeed, xReload := false } else k
    if modeOf rnd k.round = .sr then { k with xLfsr := lfsrStep k.xLfsr } else k

/-- The mode of a rounding X word. -/
def State.modeX (s : State) (rnd : BitVec 3) : Mode := modeOf rnd (s.core s.cur).round

/-- L of a rounding X word: from the LFSR before its step. -/
def State.lX (s : State) : Nat :=
  let k := s.core s.cur
  lfsrL (if k.xReload then lfsrSeed k.srSeed else k.xLfsr)

/-- An FP32 word of two sources that rounds under RND. -/
def RoundedX (mk : Hdr → RR3K → Instr) (f : Val → Val → Mode → Nat → BitVec 32) : Prop :=
  ∀ (s s1 s2 s3 s4 : State) (h : Hdr) (o : RR3K) (x y : Word),
    s.issueX (mk h o) h = some s1 → rdX o.s1 s1 = .ok x s2 → rdX o.s2 s2 = .ok y s3 →
    wrX o.d ((f (fpVal x) (fpVal y) (s3.modeX o.k) s3.lX).setWidth 64) (s3.roundX o.k) = .ok () s4 →
    exec (mk h o) s = .next (s.endX (mk h o) .next s4)

/-- A rounding X word of one source. -/
def RoundedX1 {ω : Type} (mk : Hdr → ω → Instr) (d s1 : ω → Reg) (rnd : ω → BitVec 3) (ok : State → ω → Prop)
    (f : State → ω → Word → Mode → Nat → Word) : Prop :=
  ∀ (s t1 t2 t3 : State) (h : Hdr) (o : ω) (x : Word),
    s.issueX (mk h o) h = some t1 → ok s o → rdX (s1 o) t1 = .ok x t2 →
    wrX (d o) (f s o x (t2.modeX (rnd o)) t2.lX) (t2.roundX (rnd o)) = .ok () t3 →
    exec (mk h o) s = .next (s.endX (mk h o) .next t3)

/-- A comparison into a predicate. -/
def CompareX (mk : Hdr → CmpOp → Instr) (f : BitVec 3 → Word → Word → Bool) : Prop :=
  ∀ (s s1 s2 s3 s4 : State) (h : Hdr) (o : CmpOp) (x y : Word),
    s.issueX (mk h o) h = some s1 → rdX o.s1 s1 = .ok x s2 → rdX o.s2 s2 = .ok y s3 →
    wrP o.p (f o.k x y) s3 = .ok () s4 →
    exec (mk h o) s = .next (s.endX (mk h o) .next s4)

end Sys2Proof.Machine

/-- R276: NOP, LI, LIH, ADD, ADDI, SUB, AND, OR and XOR of the execute unit, and FTRD. -/
def Obligations.ExecuteArithmetic : Prop :=
  (∀ (s s1 : State) (h : Hdr), s.issueX (.xNop h) h = some s1 →
    exec (.xNop h) s = .next (s.endX (.xNop h) .next s1)) ∧
  (∀ (s s1 s2 : State) (h : Hdr) (o : LIOp), s.issueX (.xLi h o) h = some s1 → wrX o.d (sext64 o.imm) s1 = .ok () s2 →
    exec (.xLi h o) s = .next (s.endX (.xLi h o) .next s2)) ∧
  OneSourceX .xLih LIHOp.d LIHOp.d (fun o x => o.imm ++ field x 0 32) ∧
  TwoSourceX .xAdd RR3.d RR3.s1 RR3.s2 (fun _ x y => x + y) ∧
  OneSourceX .xAddi RIOp.d RIOp.s1 (fun o x => x + sext64 o.imm) ∧
  TwoSourceX .xSub RR3.d RR3.s1 RR3.s2 (fun _ x y => x - y) ∧
  TwoSourceX .xAnd RR3.d RR3.s1 RR3.s2 (fun _ x y => x &&& y) ∧
  TwoSourceX .xOr RR3.d RR3.s1 RR3.s2 (fun _ x y => x ||| y) ∧
  TwoSourceX .xXor RR3.d RR3.s1 RR3.s2 (fun _ x y => x ^^^ y) ∧
  (∀ (s s1 s2 : State) (h : Hdr) (d : Reg), s.issueX (.xFtrd h d) h = some s1 →
    wrX d (s.ftOf (panelOf s.cur)) s1 = .ok () s2 →
    exec (.xFtrd h d) s = .next (s.endX (.xFtrd h d) .next s2))

/-- R277: the products, quotients, remainders, shifts, extrema and bit counts, with their values at a divisor of zero and at the
most negative number over -1. -/
def Obligations.ExecuteMultiplyDivide : Prop :=
  TwoSourceX .mul RR3.d RR3.s1 RR3.s2 (fun _ x y => w64 (x.toNat * y.toNat)) ∧
  TwoSourceX .mulh RR3K.d RR3K.s1 RR3K.s2 (fun o x y => mulHigh o.k x y) ∧
  TwoSourceX .div RR3S.d RR3S.s1 RR3S.s2 (fun o x y => divW o.sgn x y) ∧
  TwoSourceX .rem RR3S.d RR3S.s1 RR3S.s2 (fun o x y => remW o.sgn x y) ∧
  TwoSourceX .shl RR3.d RR3.s1 RR3.s2 (fun _ x y => x <<< (y.toNat % 64)) ∧
  TwoSourceX .shr RR3.d RR3.s1 RR3.s2 (fun _ x y => x >>> (y.toNat % 64)) ∧
  TwoSourceX .sra RR3.d RR3.s1 RR3.s2 (fun _ x y => x.sshiftRight (y.toNat % 64)) ∧
  TwoSourceX .min RR3S.d RR3S.s1 RR3S.s2 (fun o x y =>
    if o.sgn then (if y.toInt < x.toInt then y else x) else (if y.toNat < x.toNat then y else x)) ∧
  TwoSourceX .max RR3S.d RR3S.s1 RR3S.s2 (fun o x y =>
    if o.sgn then (if x.toInt < y.toInt then y else x) else (if x.toNat < y.toNat then y else x)) ∧
  OneSourceX .popc RR2.d RR2.s1 (fun _ x => popcW x) ∧
  OneSourceX .clz RR2.d RR2.s1 (fun _ x => clzW x) ∧
  (∀ x : Word, divW true x 0 = allOnes ∧ divW false x 0 = allOnes ∧ remW true x 0 = x ∧ remW false x 0 = x) ∧
  divW true (1#64 <<< 63) allOnes = 1#64 <<< 63 ∧ remW true (1#64 <<< 63) allOnes = 0 ∧
  (∀ x y : Word, y ≠ 0 → divW false x y = w64 (x.toNat / y.toNat) ∧ remW false x y = w64 (x.toNat % y.toNat) ∧
    divW true x y = BitVec.ofInt 64 (x.toInt.tdiv y.toInt) ∧ remW true x y = BitVec.ofInt 64 (x.toInt.tmod y.toInt)) ∧
  (∀ x y : Word, mulHigh 0 x y = w64 (x.toNat * y.toNat / 2 ^ 64) ∧
    mulHigh 1 x y = BitVec.ofInt 64 (x.toInt * y.toInt / 2 ^ 64) ∧
    mulHigh 2 x y = BitVec.ofInt 64 (x.toInt * y.toNat / 2 ^ 64)) ∧
  (∀ x : Word, (popcW x).toNat = ((List.range 64).filter fun i => x.getLsbD i).length ∧
    (x = 0 → clzW x = 64) ∧ (x ≠ 0 → (clzW x).toNat < 64 ∧ x.toNat / 2 ^ (63 - (clzW x).toNat) = 1)) ∧
  DecodesX 0x06 .mul rrFields 0x1FFFFFF ∧ DecodesX 0x07 .mulh rrFieldsK 0x1FFFFF8 ∧
  DecodesX 0x08 .div rrFieldsS 0x1FFFFFE ∧ DecodesX 0x09 .rem rrFieldsS 0x1FFFFFE ∧
  DecodesX 0x0D .shl rrFields 0x1FFFFFF ∧ DecodesX 0x0E .shr rrFields 0x1FFFFFF ∧ DecodesX 0x0F .sra rrFields 0x1FFFFFF ∧
  DecodesX 0x10 .min rrFieldsS 0x1FFFFFE ∧ DecodesX 0x11 .max rrFieldsS 0x1FFFFFE ∧
  DecodesX 0x12 .popc rrFields2 0x3FFFFFFF ∧ DecodesX 0x13 .clz rrFields2 0x3FFFFFFF ∧
  (∀ (h : Hdr) (o : RR3K), 3 ≤ o.k.toNat → badOperands (.mulh h o) ≠ 0)

/-- R278: CMP, SEL and PLOG. -/
def Obligations.ExecutePredicates : Prop :=
  CompareX .cmp cmpCond ∧
  (∀ (s s1 s2 s3 s4 : State) (h : Hdr) (o : RR3K) (x y : Word),
    s.issueX (.sel h o) h = some s1 → rdX o.s1 s1 = .ok x s2 → rdX o.s2 s2 = .ok y s3 →
    (o.k = 0 ∨ (s.core s.cur).xPending (.pred o.k) = false) →
    wrX o.d (if o.k = 0 ∨ vget (s.core s.cur).p o.k.toNat = true then x else y) s3 = .ok () s4 →
    exec (.sel h o) s = .next (s.endX (.sel h o) .next s4)) ∧
  (∀ (s s1 s2 : State) (h : Hdr) (o : PlogOp) (a b : Bool),
    s.issueX (.plog h o) h = some s1 → rdP o.s1 s1 = .ok a s1 → rdP o.s2 s1 = .ok b s1 →
    wrP o.p (plogOp o.op a b) s1 = .ok () s2 →
    exec (.plog h o) s = .next (s.endX (.plog h o) .next s2)) ∧
  (∀ x y : Word, cmpCond 0 x y = (x == y) ∧ cmpCond 1 x y = !(x == y) ∧ cmpCond 2 x y = decide (x.toInt < y.toInt) ∧
    cmpCond 3 x y = decide (y.toInt ≤ x.toInt) ∧ cmpCond 4 x y = decide (x.toNat < y.toNat) ∧
    cmpCond 5 x y = decide (y.toNat ≤ x.toNat)) ∧
  (∀ a b : Bool, plogOp 0 a b = (a && b) ∧ plogOp 1 a b = (a || b) ∧ plogOp 2 a b = (a ^^ b) ∧ plogOp 3 a b = (a && !b) ∧
    plogOp 4 a b = !a) ∧
  DecodesX 0x18 .cmp (fun w => { p := field w 35 3, s1 := field w 30 5, s2 := field w 25 5, k := field w 0 3 }) 0xC001FFFFF8 ∧
  DecodesX 0x19 .sel rrFieldsK 0x1FFFFF8 ∧
  DecodesX 0x1A .plog (fun w => { p := field w 35 3, s1 := field w 30 3, op := field w 0 3,
                                  s2 := if field w 0 3 = 4 then 0 else field w 25 3 }) 0xC631FFFFF8 ∧
  (∀ w : Word, field w 40 8 = 0x1A → field w 0 3 = 4 → ∃ i m, decodeWord .x w = .word i m ∧ m &&& 0xE000000 = w &&& 0xE000000) ∧
  (∀ (h : Hdr) (o : CmpOp), 6 ≤ o.k.toNat → badOperands (.cmp h o) ≠ 0) ∧
  (∀ (h : Hdr) (o : PlogOp), 5 ≤ o.op.toNat → badOperands (.plog h o) ≠ 0)

/-- R279, R280: the FP32 words: one rounding of the exact result under RND, the product and sum of FFMA with one rounding,
minimum and maximum rounded to nearest even, and FCMP. -/
def Obligations.ExecuteFloat : Prop :=
  RoundedX .fadd (fun x y m l => round32 (x.add (m == .rdn) y) m l) ∧
  RoundedX .fsub (fun x y m l => round32 (x.add (m == .rdn) y.neg) m l) ∧
  RoundedX .fmul (fun x y m l => round32 (x.mul y) m l) ∧
  RoundedX .fdiv div32 ∧
  (∀ (s s1 s2 s3 s4 s5 : State) (h : Hdr) (o : RR3K) (z x y : Word),
    s.issueX (.ffma h o) h = some s1 → rdX o.d s1 = .ok z s2 → rdX o.s1 s2 = .ok x s3 → rdX o.s2 s3 = .ok y s4 →
    wrX o.d ((round32 (((fpVal x).mul (fpVal y)).add (s4.modeX o.k == .rdn) (fpVal z)) (s4.modeX o.k) s4.lX).setWidth 64)
      (s4.roundX o.k) = .ok () s5 →
    exec (.ffma h o) s = .next (s.endX (.ffma h o) .next s5)) ∧
  RoundedX1 .fsqrt RR2K.d RR2K.s1 RR2K.k free (fun _ _ x m l => (sqrt32 (fpVal x) m l).setWidth 64) ∧
  TwoSourceX .fmin RR3.d RR3.s1 RR3.s2 (fun _ x y => (rne32 ((fpVal x).minv (fpVal y))).setWidth 64) ∧
  TwoSourceX .fmax RR3.d RR3.s1 RR3.s2 (fun _ x y => (rne32 ((fpVal x).maxv (fpVal y))).setWidth 64) ∧
  CompareX .fcmp (fun k x y => fcmpCond k (fpVal x) (fpVal y))

/-- R281, R282, R283: CVTF, CVTI and CVTN; CVTN's format slot holds a class below 6. -/
def Obligations.ExecuteConversions : Prop :=
  RoundedX1 .cvtf CvtfOp.d CvtfOp.s1 CvtfOp.rnd free (fun _ o x m l =>
    (round32 (Val.ofInt (if o.sg then x.toInt else x.toNat)) m l).setWidth 64) ∧
  RoundedX1 .cvti CvtiOp.d CvtiOp.s1 CvtiOp.rnd free (fun _ o x m l => cvtiWord o.sg o.wid (fpVal x) m l) ∧
  RoundedX1 .cvtn CvtnOp.d CvtnOp.s1 CvtnOp.rnd (fun s o => (slotElem (s.core s.cur) o.fs).isSome = true)
    (fun s o x m l =>
      let el := (slotElem (s.core s.cur) o.fs).getD .raw
      if o.dir then (round32 (el.decode (x.toNat % 2 ^ el.width)) m l).setWidth 64
      else w64 (roundTo el (fpVal x) m o.sat l))

/-- R284 to R287: BRP, JMP, JR and LOOP go to a word of the section; LOOP counts its register down and leaves at zero; SAFE
passes unless a pre-emption is pending, and completes as it issues. -/
def Obligations.ExecuteControl : Prop :=
  (∀ (s s1 : State) (h : Hdr) (o : BrpOp),
    s.issueX (.brp h o) h = some s1 →
    let k := s.core s.cur
    let t : Int := (k.ring .x).fetch.toNat + o.off.toInt
    0 ≤ t → t < (k.ring .x).count → (o.p = 0 ∨ k.xPending (.pred o.p) = false) →
    let b : Bool := o.p = 0 || vget k.p o.p.toNat
    exec (.brp h o) s = .next (s.endX (.brp h o) (if b != o.neg then .goto t.toNat else .next) s1)) ∧
  (∀ (s s1 s2 : State) (h : Hdr) (o : LIOp),
    s.issueX (.xJmp h o) h = some s1 →
    let k := s.core s.cur
    let t : Int := (k.ring .x).fetch.toNat + o.imm.toInt
    0 ≤ t → t < (k.ring .x).count → wrX o.d (w64 ((k.ring .x).fetch.toNat + 2)) s1 = .ok () s2 →
    exec (.xJmp h o) s = .next (s.endX (.xJmp h o) (.goto t.toNat) s2)) ∧
  (∀ (s s1 s2 s3 : State) (h : Hdr) (o : RR2) (t : Word),
    s.issueX (.xJr h o) h = some s1 → rdX o.s1 s1 = .ok t s2 →
    let k := s.core s.cur
    t.toNat < (k.ring .x).count → k.afterSafe .x 0x38 t.toNat = true →
    wrX o.d (w64 ((k.ring .x).fetch.toNat + 2)) s2 = .ok () s3 →
    exec (.xJr h o) s = .next (s.endX (.xJr h o) (.goto t.toNat) s3)) ∧
  (∀ (s s1 s2 : State) (h : Hdr) (o : LoopOp),
    s.issueX (.loop h o) h = some s1 →
    let k := s.core s.cur
    let t : Int := (k.ring .x).fetch.toNat + o.off.toInt
    let x := vget k.x o.s1.toNat
    0 ≤ t → t < (k.ring .x).count → k.xPending (.reg o.s1) = false →
    (if x = 0 then s2 = s1 else wrX o.s1 (x - 1) s1 = .ok () s2) →
    exec (.loop h o) s = .next (s.endX (.loop h o) (if x = 0 ∨ x = 1 then .next else .goto t.toNat) s2)) ∧
  (∀ (s s1 : State) (h : Hdr) (n : BitVec 16),
    s.issueX (.xSafe h n) h = some s1 → (s.core s.cur).preempt = false → (s.core s.cur).safeAt = none →
    exec (.xSafe h n) s = .next (s.endX (.xSafe h n) .next s1))

/-! ## The engines -/

namespace Sys2Proof.Machine

/-- The head word of an engine completes its effects at issue: the step goes on with the word among the engine's words in
progress, from the state `t` that its effects reach. -/
def IssuesTo (i : Instr) (s : State) (u : Strm) (w : Issued) (t : State) : Prop := exec i s = .next (t.endE s.cur u w)

/-- What an engine word's effects leave as it was: everything but scratchpads and side stores, accumulators with their MODE
and shadow, the engine's LFSR, metadata queues, core counters, and the clocks of the writes that other cores have made into it. -/
def Core.engineFrame (q k : Core) : Prop :=
  q = { k with spad := q.spad, side := q.side, spadErr := q.spadErr, acc := q.acc, accErr := q.accErr,
               accMode := q.accMode, accShadow := q.accShadow, accShadowRows := q.accShadowRows, metaQ := q.metaQ,
               pmCnt := q.pmCnt, winClk := q.winClk, m := { k.m with lfsr := q.m.lfsr }, v := { k.v with lfsr := q.v.lfsr },
               c := { k.c with lfsr := q.c.lfsr } }

/-- The state outside the cores is as before, but for the free values used and the updates that the panel has come to see, and each
core keeps what `engineFrame` names. -/
def State.engineFrame (t s : State) : Prop :=
  t = { s with cores := t.cores, free := t.free
               mem := { s.mem with clocks := t.mem.clocks, replicas := t.mem.replicas, updates := t.mem.updates } } ∧
  ∀ c : CoreId, (t.core c).engineFrame (s.core c)

end Sys2Proof.Machine

/-- R217, R216, R72, R301, R330 to R332: NOP and DSET of the three engines, MQBIND, CWBIND, CWADV and CSCHED issue with their
effect: DSET writes one quarter of a shadow descriptor, MQBIND sets a queue's mode and empties it, CWBIND binds its window and
will fill N1 + 1 slots, CWADV retires as many slots of its window's bobbin and will fill them (on a window that is not bound it
only completes: log 30), both with the formats that stand at issue, CSCHED starts its schedule. -/
def Obligations.EnginePlainWords : Prop :=
  (∀ (s s1 : State) (h : Hdr) (w : Issued), s.issueE (.mNop h) (nopWord .m h) = some (w, s1) → IssuesTo (.mNop h) s .m w s1) ∧
  (∀ (s s1 : State) (h : Hdr) (w : Issued), s.issueE (.vNop h) (nopWord .v h) = some (w, s1) → IssuesTo (.vNop h) s .v w s1) ∧
  (∀ (s s1 : State) (h : Hdr) (w : Issued), s.issueE (.cNop h) (nopWord .c h) = some (w, s1) → IssuesTo (.cNop h) s .c w s1) ∧
  (∀ (s s1 : State) (h : Hdr) (o : DsetOp) (w : Issued) (t : Strm) (mk : Hdr → DsetOp → Instr),
    (t, mk) ∈ [(Strm.m, Instr.mDset), (.v, .vDset), (.c, .cDset)] → s.issueE (mk h o) (dsetWord t h o) = some (w, s1) →
    ∃ q, IssuesTo (mk h o) s t w (s1.setCore s.cur q) ∧
      (q.engine t).shadow = vset ((s1.core s.cur).engine t).shadow o.d.toNat
        (putQuarter (vget ((s1.core s.cur).engine t).shadow o.d.toNat) o.q o.value) ∧
      q = (s1.core s.cur).setEngine t { (s1.core s.cur).engine t with shadow := (q.engine t).shadow }) ∧
  (∀ (s s1 : State) (h : Hdr) (o : MqbindOp) (w : Issued), s.issueE (.mqbind h o) (mqbindWord h o) = some (w, s1) →
    IssuesTo (.mqbind h o) s .m w (s1.onCore s.cur fun k =>
      { k with metaQ := vset k.metaQ o.q.toNat { mode := o.mode, entries := [] } })) ∧
  (∀ (s s1 : State) (h : Hdr) (o : CwbindOp) (w : Issued), s.issueE (.cwbind h o) (cwbindWord h o) = some (w, s1) →
    let v : Window := { src := w.dsc 1, dst := w.dsc 0, rnd := o.rnd, sat := o.sat, next := field (w.dsc 1) 46 56 }
    IssuesTo (.cwbind h o) s .c
      { w with env := some (s1.envOf s.cur w.dscs),
               deferred := List.replicate (o.n1.toNat + 1) (.fill o.win (rndNow (s.core s.cur) o.rnd)) }
      (s1.onCore s.cur fun k => { k with windows := vset k.windows o.win.toNat (some v) })) ∧
  (∀ (s s1 : State) (h : Hdr) (o : CwadvOp) (w : Issued), s.issueE (.cwadv h o) (cwadvWord h o) = some (w, s1) →
    match vget (s.core s.cur).windows o.win.toNat with
    | none => IssuesTo (.cwadv h o) s .c w s1
    | some v =>
      let n := o.n1.toNat + 1
      let x := vget (s1.core s.cur).bobbins (dBob v.dst).toNat
      let y : Bobbin := { x with rptr := (x.rptr + n) % (x.count + 1), filled := x.filled - n, free := x.free + n }
      IssuesTo (.cwadv h o) s .c
        { w with bobbins := [dBob v.dst], env := some (s1.envOf s.cur w.dscs),
                 deferred := List.replicate n (.fill o.win (rndNow (s.core s.cur) v.rnd)) }
        (s1.onCore s.cur fun k => { k with bobbins := vset k.bobbins (dBob v.dst).toNat y })) ∧
  (∀ (s s1 : State) (h : Hdr) (d : Desc) (w : Issued), s.issueE (.csched h d) (cschedWord h d) = some (w, s1) →
    IssuesTo (.csched h d) s .c w (s1.onCore s.cur fun k =>
      { k with sched := some { abs := w.abs, rword := w.rword, base := k.stageCtr, table := w.dsc 0, next := 0, held := none } }))

/-- R298: WLOAD of readable rows leaves them, with their scales and format, to be set into its stage at completion. (A word whose
effects come after its issue is in the statement EngineEvents.) -/
def Obligations.WeightLoad : Prop :=
  ∀ (s s1 s2 : State) (h : Hdr) (o : WloadOp) (w : Issued) (rows : List (Row × BitVec 32)),
    s.issueE (.wload h o) (wloadWord h o) = some (w, s1) → s.lineOps ≠ some 0 →
    (List.range (dRows (w.dsc 0))).mapM (fun j => readRow s.cur (w.dsc 0) (w.slot 0) j 0 0) s1 = .ok rows s2 →
    IssuesTo (.wload h o) s .m
      { w with deferred := .setStage o.stg
                 { rows := rows.map (·.1.bytes), scales := rows.map (·.1.scales),
                   fmt := s1.opEnc s.cur (w.dsc 0) (w.slot 0), cols := dCols (w.dsc 0) } ::
                 bobEnds .m [src1 o.d1] w.dscs } s2

namespace Sys2Proof.Machine

/-- No row of an operand has a format of class 8, for which the spec states no value (log 64). -/
def State.noRaw (s : State) (w : Issued) : Prop :=
  ∀ n j f, n < w.dscs.length → j < dRows (w.dsc n) → Fmt.parse (s.rowEnc s.cur (w.dsc n) (w.slot n) j) = some f → f.elem ≠ .raw

/-- Row after row of d0 that is not parked, what `f` makes of the core from the state reached so far. -/
def State.rowsOfD0 (s : State) (w : Issued) (p : Pass) (f : State → Nat → Core → Core) : State :=
  (List.range (dRows (w.dsc 0))).foldl (fun u i => if (u.core s.cur).rowParked p i then u else u.onCore s.cur (f u i)) s

/-- Row after row, `vals` of the state reached so far is converted into d0 by engine `t`, but for the rows that `parked` names. -/
def State.convRows (s : State) (w : Issued) (t : Strm) (rows : Nat) (rnd : BitVec 3) (sat : Bool) (parked : State → Nat → Bool)
    (vals : State → Nat → List Val) : State :=
  let c := s.cur
  let mode := modeOf rnd (s.core c).round
  (List.range rows).foldl (fun u i =>
    if parked u i then u else u.putVals c t (w.dsc 0) (w.slot 0) i mode sat (vals u i)) s

/-- The values of the columns of B: of its stage, or of the rows of operand d2. -/
def State.colsOfB (s : State) (w : Issued) (b : BSrc) : List (List Val) :=
  match b with
  | .stage st => ((vget (s.core s.cur).stages st.toNat).map Stage.values).getD []
  | .desc _ => tabulate (dRows (w.dsc 2)) fun j => s.rowVals s.cur (w.dsc 2) (w.slot 2) j

/-- The accumulator row of row `i` of d0 takes the products of the pairs of each column. -/
def accProducts (w : Issued) (ints : Bool) (i : Nat) (pairs : Nat → List (Val × Val)) (k : Core) : Core :=
  let r := accPlace (w.dsc 0) i
  (k.setAccRow r (tabulate (dCols (w.dsc 0)) fun n => accUpdate ints (k.accAt r n) (pairs n))).pm 3 1

/-- A matrix word `i` with entry `e` that issues while nothing keeps its rows from being read ends in `f` of the state it issued in,
and as its completion in `ends`. -/
def MatrixResult {ω : Type} (mk : Hdr → ω → Instr) (e : Hdr → ω → EWord) (ends : ω → Issued → State → List Deferred)
    (f : ω → Issued → State → State) : Prop :=
  ∀ (s s1 : State) (h : Hdr) (o : ω) (w : Issued),
    s.issueE (mk h o) (e h o) = some (w, s1) → s.allClean = true → s.lineOps ≠ some 0 →
    ∃ t, IssuesTo (mk h o) s .m { w with deferred := ends o w s1 } t ∧ t.sawMore (f o w s1)

end Sys2Proof.Machine

/-- R294, R299, R300, R302 to R305: the matrix words MMA, GMMA, SMMA, ACLR, ALD, AST and ASCL complete their effects once they
issue while no check fails over the cores' stores, with their results row by row, parked rows left out. A word whose effects come
after its issue goes on as EngineEvents says.
R98 to R100, R294, R299, R300: MMA, GMMA and SMMA take the accumulator shadow and then add to each element of a row the rounded dot
product of the row of A with the column of B, of the adapter tile of the row's block, or of the elements of A that the popped
metadata entry picks. R303, R305: ALD loads the rounded or integer values of d1, ASCL multiplies each element by its row's scale. R304:
AST converts the accumulator rows into d0, where no row of d0 has a format of class 8, for which the spec states no value (log 64).
R302: ACLR sets the bank's MODE and clears the columns of every row that is not parked; every other element is as before. -/
def Obligations.MatrixWordsComplete : Prop :=
  MatrixResult .mma mmaWord (fun o w _ => bobEnds .m (mulOps o.d0 o.d1 o.b) w.dscs) (fun o w s1 =>
    let c := s1.cur
    let ints := onIntPath (s1.opEnc c (w.dsc 1) (w.slot 1)) (s1.encB c o.b (w.dsc 2))
    let bs := s1.colsOfB w o.b
    (s1.onCore c fun k => k.takeShadow (w.dsc 0) o.pass).rowsOfD0 w o.pass fun u i =>
      accProducts w ints i fun n => (u.rowVals c (w.dsc 1) (w.slot 1) i).zip (bs.getD n [])) ∧
  MatrixResult .gmma gmmaWord
    (fun o w s1 => bobEnds .m [dst0 o.d0, src1 o.d1] w.dscs ++
      (if dAuto (w.dsc 2) then [.release (dBob (w.dsc 2)) ((s1.core s1.cur).topBlock o.pass (dRows (w.dsc 0)) + 1)] else []))
    (fun o w s1 =>
    let c := s1.cur
    let d2 := w.dsc 2
    let ints := onIntPath (s1.opEnc c (w.dsc 1) (w.slot 1)) (s1.opEnc c d2 0)
    let x := vget (s1.core c).bobbins (dBob d2).toNat
    (s1.onCore c fun k => k.takeShadow (w.dsc 0) o.pass).rowsOfD0 w o.pass fun u i k =>
      let b := k.rowBlock o.pass i
      let tile := tabulate (dRows d2) fun j => u.rowVals c d2 ((w.slot 2 + b) % (x.count + 1)) j
      if k.rbt b 4 = 0 then k
      else accProducts w ints i (fun n => (u.rowVals c (w.dsc 1) (w.slot 1) i).zip (tile.getD n [])) k) ∧
  MatrixResult .smma smmaWord (fun o w _ => bobEnds .m (mulOps o.d0 o.d1 o.b) w.dscs) (fun o w s1 =>
    let c := s1.cur
    let q := vget (s1.core c).metaQ o.q.toNat
    let sc := dCols (w.dsc 1)
    let entry := natOfBytes (w.popped.getD [])
    let ints := onIntPath (s1.opEnc c (w.dsc 1) (w.slot 1)) (s1.encB c o.b (w.dsc 2))
    let bs := s1.colsOfB w o.b
    (s1.onCore c fun k => k.takeShadow (w.dsc 0) o.pass).rowsOfD0 w o.pass fun u i =>
      let a := (tabulate q.ratio fun r => u.rowVals c (w.dsc 1) (w.slot 1) (q.ratio * i + r)).flatten
      accProducts w ints i fun n =>
        ((bs.getD n []).zip (List.range sc)).map fun e => (a.getD (smmaPos q.mode entry sc n e.2) .nan, e.1)) ∧
  MatrixResult .ald aldWord (fun o w _ => bobEnds .m [dst0 o.d0, src1 o.d1] w.dscs) (fun o w s1 =>
    let mode := (s1.core s1.cur).modeOfBank (w.dsc 0)
    s1.rowsOfD0 w o.pass fun u i k => k.setAccRow (accPlace (w.dsc 0) i)
      ((u.rowVals s1.cur (w.dsc 1) (w.slot 1) i).map fun v => if mode then BitVec.ofInt 32 v.toInt else rne32 v)) ∧
  MatrixResult .ascl asclWord (fun o w _ => bobEnds .m [dst0 o.d0, src1 o.d1] w.dscs) (fun o w s1 =>
    s1.rowsOfD0 w o.pass fun u i k =>
      let f := (u.rowVals s1.cur (w.dsc 1) (w.slot 1) i).headD .nan
      k.setAccRow (accPlace (w.dsc 0) i)
        ((k.accRow (accPlace (w.dsc 0) i) (dCols (w.dsc 0))).map fun x => rne32 ((val32 x).mul f))) ∧
  (∀ (s s1 : State) (h : Hdr) (o : D2Conv) (w : Issued),
     s.issueE (.ast h o) (astWord h o) = some (w, s1) → s.allClean = true → s.lineOps ≠ some 0 → s1.noRaw w →
     ∃ t, IssuesTo (.ast h o) s .m { w with deferred := bobEnds .m [dst0 o.d0, src1 o.d1] w.dscs } t ∧
       t.sawMore (s1.convRows w .m (dRows (w.dsc 1)) o.rnd o.sat (fun u i => (u.core s.cur).rowParked o.pass i)
         fun u i => u.rowVals s.cur (w.dsc 1) 0 i)) ∧
  (∀ (s s1 : State) (i : Instr) (e : EWord) (w : Issued),
     (∃ h, (∃ o, i = .mma h o) ∨ (∃ o, i = .gmma h o) ∨ (∃ o, i = .smma h o) ∨ (∃ o, i = .aclr h o) ∨
       (∃ o, i = .ald h o) ∨ (∃ o, i = .ast h o) ∨ (∃ o, i = .ascl h o)) →
     engineWord i = some e → s.issueE i e = some (w, s1) → s.allClean = true → s.lineOps ≠ some 0 →
     ∃ w' t, IssuesTo i s .m w' t ∧ t.engineFrame s1 ∧ w'.word = encodeWord i ∧ w'.dscs = s.latched e) ∧
  (∀ (s s1 : State) (h : Hdr) (o : AclrOp) (w : Issued),
     s.canonical = true → s.issueE (.aclr h o) (aclrWord h o) = some (w, s1) → s.lineOps ≠ some 0 →
     let k := s1.core s.cur
     let d := w.dsc 0
     ∃ q : Core, IssuesTo (.aclr h o) s .m w (s1.setCore s.cur q) ∧
       q = { k with acc := q.acc, accErr := q.accErr, accMode := vset k.accMode (dAccBank d) o.mode } ∧
       ∀ r n : Nat, n < 32 → q.accAt r n =
         if (∃ j, j < dRows d ∧ accPlace d j = r ∧ k.rowParked o.pass j = false) ∧ n < dCols d then 0 else k.accAt r n)


/-- R310 to R319: every vector operation word completes its effects once it issues while no check fails over the cores'
stores; one whose effects come after its issue goes on as EngineEvents says. -/
def Obligations.VectorWordsComplete : Prop :=
  ∀ (s s1 : State) (i : Instr) (e : EWord) (w : Issued),
    (∃ h, (∃ o, i = .vadd h o) ∨ (∃ o, i = .vsub h o) ∨ (∃ o, i = .vmul h o) ∨ (∃ o, i = .vmax h o) ∨
      (∃ o, i = .vmin h o) ∨ (∃ o, i = .vfma h o) ∨ (∃ o, i = .vexp h o) ∨ (∃ o, i = .vlog h o) ∨
      (∃ o, i = .vrcp h o) ∨ (∃ o, i = .vrsq h o) ∨ (∃ o, i = .vtanh h o) ∨ (∃ o, i = .vgelu h o) ∨
      (∃ o, i = .vsilu h o) ∨ (∃ o, i = .vabs h o) ∨ (∃ o, i = .vcvt h o) ∨ (∃ o, i = .vqmx h o) ∨
      (∃ o, i = .vdqmx h o) ∨ (∃ o, i = .vrsum h o) ∨ (∃ o, i = .vrmax h o) ∨ (∃ o, i = .vcsum h o) ∨
      (∃ o, i = .vbcast h o) ∨ (∃ o, i = .vtrn h o) ∨ (∃ o, i = .vepi h o) ∨ (∃ o, i = .vtagsel h o)) →
    engineWord i = some e → s.issueE i e = some (w, s1) → s.allClean = true → s.lineOps ≠ some 0 →
    ∃ w' t, IssuesTo i s .v w' t ∧ t.engineFrame s1 ∧ w' = { w with deferred := bobEnds .v e.ops w.dscs }

namespace Sys2Proof.Machine

/-- Row after row, `vals` of the state reached so far is converted into d0, but for parked rows. -/
def State.eachRow (s : State) (w : Issued) (p : Pass) (rnd : BitVec 3) (sat : Bool) (vals : State → Nat → List Val) :
    State :=
  s.convRows w .v (dRows (w.dsc 0)) rnd sat (fun u i => (u.core s.cur).rowParked p i) vals

/-- The widened values of row `j` of operand `n` (R100). -/
def State.valsOf (s : State) (w : Issued) (n j : Nat) : List Val :=
  (s.rowVals s.cur (w.dsc n) (w.slot n) j).map Sys2Proof.Machine.widen

/-- An elementwise word of two sources, rounded once in FP32 and then converted; under BR the second source is one row, read
before any is written. -/
def ElementwiseV (mk : Hdr → VBinOp → Instr) (e : Hdr → VBinOp → EWord) (f : Val → Val → Val) : Prop :=
  ∀ (s s1 : State) (h : Hdr) (o : VBinOp) (w : Issued),
    s.issueE (mk h o) (e h o) = some (w, s1) → s.allClean = true → s.lineOps ≠ some 0 → s1.noRaw w →
    ∃ t, IssuesTo (mk h o) s .v { w with deferred := bobEnds .v [dst0 o.d0, src1 o.d1, src2 o.d2] w.dscs } t ∧
      t.sawMore (s1.eachRow w o.pass o.rnd o.sat fun u i =>
        ((u.valsOf w 1 i).zip (if o.br then s1.valsOf w 2 0 else u.valsOf w 2 i)).map fun x => once (f x.1 x.2))

/-- An elementwise word of one source. -/
def UnaryV (mk : Hdr → D2Conv → Instr) (e : Hdr → D2Conv → EWord) (f : Val → Val) : Prop :=
  ∀ (s s1 : State) (h : Hdr) (o : D2Conv) (w : Issued),
    s.issueE (mk h o) (e h o) = some (w, s1) → s.allClean = true → s.lineOps ≠ some 0 → s1.noRaw w →
    ∃ t, IssuesTo (mk h o) s .v { w with deferred := bobEnds .v [dst0 o.d0, src1 o.d1] w.dscs } t ∧
      t.sawMore (s1.eachRow w o.pass o.rnd o.sat fun u i => (u.valsOf w 1 i).map f)

/-- A vector word whose row `i` is written with `vals` of the state it issued in and of the state reached so far. -/
def RowsV {ω : Type} (mk : Hdr → ω → Instr) (e : Hdr → ω → EWord) (p : ω → Pass) (rnd : ω → BitVec 3) (sat : ω → Bool)
    (vals : ω → Issued → State → State → Nat → List Val) : Prop :=
  ∀ (s s1 : State) (h : Hdr) (o : ω) (w : Issued),
    s.issueE (mk h o) (e h o) = some (w, s1) → s.allClean = true → s.lineOps ≠ some 0 → s1.noRaw w →
    ∃ t, IssuesTo (mk h o) s .v { w with deferred := bobEnds .v (e h o).ops w.dscs } t ∧
      t.sawMore (s1.eachRow w (p o) (rnd o) (sat o) (vals o w s1))

/-- What VCVT, VQMX and VDQMX convert: row for row, or where COLS differ the elements in order, cut into rows of d0. -/
def movedVals (o : D2Conv) (w : Issued) (s1 u : State) (i : Nat) : List Val :=
  if o.pass.isSome ∨ dCols (w.dsc 0) = dCols (w.dsc 1) then u.valsOf w 1 i
  else
    (cutRows (dCols (w.dsc 0)) (dRows (w.dsc 0))
      (tabulate (dRows (w.dsc 1)) fun j => s1.valsOf w 1 j).flatten).getD i []

/-- The column sums of the rows of block `b` that are not parked, from -0 (R103). -/
def State.columnSums (s : State) (w : Issued) (p : Pass) (b : Nat) : List Val :=
  let k := s.core s.cur
  (List.range (dRows (w.dsc 1))).foldl (fun acc i =>
    if (p.isSome ∧ k.rowBlock p i ≠ b) ∨ k.rowParked p i = true then acc
    else (acc.zip (s.valsOf w 1 i)).map fun e => sumOp e.1 e.2) (List.replicate (dCols (w.dsc 1)) (.fin true 0 0))

end Sys2Proof.Machine

/-- R313, R101: the results of the elementwise vector words, row by row, where no operand row has a format of class 8, for which the
spec states no value (log 64). -/
def Obligations.ElementwiseResults : Prop :=
  ElementwiseV .vadd vaddWord (fun a b => a.add false b) ∧
  ElementwiseV .vsub vsubWord (fun a b => a.add false b.neg) ∧
  ElementwiseV .vmul vmulWord Val.mul ∧
  ElementwiseV .vmax vmaxWord Val.maxv ∧
  ElementwiseV .vmin vminWord Val.minv ∧
  UnaryV .vabs vabsWord Val.abs ∧
  UnaryV .vexp vexpWord (fun a => val32 (exp32 a)) ∧
  UnaryV .vlog vlogWord (fun a => val32 (log32 a)) ∧
  UnaryV .vrcp vrcpWord (fun a => val32 (div32 (.fin false 1 0) a .rne 0)) ∧
  UnaryV .vrsq vrsqWord (fun a => val32 (rsq32 a)) ∧
  UnaryV .vtanh vtanhWord (fun a => val32 (tanh32 a)) ∧
  UnaryV .vgelu vgeluWord (fun a => val32 (gelu32 a)) ∧
  UnaryV .vsilu vsiluWord (fun a => val32 (silu32 a))

/-- R103, R313 to R319: the results of VFMA, the conversions, the reductions, the layout words, the epilogue and the select by row tag,
row by row, where no operand row has a format of class 8, for which the spec states no value (log 64): VFMA rounds the product and sum
once; VCVT, VQMX and VDQMX convert the values; VRSUM and VRMAX reduce a row by R103's tree, VCSUM the columns of each block's rows that
are not parked; VBCAST repeats a row or a column, VTRN transposes; VEPI adds the bias and applies its function; VTAGSEL takes the row of
d1 that the block of the row names. -/
def Obligations.VectorRowResults : Prop :=
  RowsV .vfma vfmaWord (·.pass) (·.rnd) (·.sat) (fun o w s1 u i =>
    ((u.valsOf w 1 i).zip ((if o.br then s1.valsOf w 2 0 else u.valsOf w 2 i).zip
      (if o.bc then s1.valsOf w 3 0 else u.valsOf w 3 i))).map fun e => once ((e.1.mul e.2.1).add false e.2.2)) ∧
  RowsV .vcvt vcvtWord (·.pass) (·.rnd) (·.sat) movedVals ∧
  RowsV .vqmx vqmxWord (·.pass) (·.rnd) (·.sat) movedVals ∧
  RowsV .vdqmx vdqmxWord (·.pass) (·.rnd) (·.sat) movedVals ∧
  RowsV .vrsum vrsumWord (·.pass) (·.rnd) (·.sat) (fun _ w _ u i => [rowReduce sumOp (.fin true 0 0) (u.valsOf w 1 i)]) ∧
  RowsV .vrmax vrmaxWord (·.pass) (·.rnd) (·.sat) (fun _ w _ u i => [rowReduce maxOp (.inf true) (u.valsOf w 1 i)]) ∧
  (∀ (s s1 : State) (h : Hdr) (o : D2Conv) (w : Issued),
    s.issueE (.vcsum h o) (vcsumWord h o) = some (w, s1) → s.allClean = true → s.lineOps ≠ some 0 → s1.noRaw w →
    let b := (s1.core s.cur).blocksOf o.pass (dRows (w.dsc 1))
    ∃ t, IssuesTo (.vcsum h o) s .v { w with deferred := bobEnds .v [dst0 o.d0, src1 o.d1] w.dscs } t ∧
      t.sawMore (s1.convRows w .v b.2 o.rnd o.sat
        (fun u j => o.pass.isSome && (u.core s.cur).rbtParked (b.1 + j)) fun u j => u.columnSums w o.pass (b.1 + j))) ∧
  RowsV .vbcast vbcastWord (·.pass) (·.rnd) (·.sat) (fun o w s1 u i =>
    if o.col then List.replicate (dCols (w.dsc 0)) ((u.valsOf w 1 i).headD .nan) else s1.valsOf w 1 0) ∧
  RowsV .vtrn vtrnWord (fun _ => none) (·.rnd) (·.sat) (fun _ w s1 _ n =>
    (tabulate (dRows (w.dsc 1)) fun j => s1.valsOf w 1 j).map fun r => r.getD n .nan) ∧
  RowsV .vepi vepiWord (·.pass) (·.rnd) (·.sat) (fun o w s1 u i =>
    (if o.bias.isSome then ((u.valsOf w 1 i).zip (s1.valsOf w 2 0)).map fun e => once (e.1.add false e.2)
      else u.valsOf w 1 i).map (epiAct o.fn)) ∧
  RowsV .vtagsel vtagselWord (·.pass) (·.rnd) (·.sat) (fun o w s1 u i =>
    u.valsOf w 1 ((s1.core s1.cur).rowBlock o.pass i)) ∧
  (∀ v : Val, epiAct 1 v = (if v.isNan then .nan else if (Val.fin false 0 0).lt v then v else .fin false 0 0) ∧
    epiAct 2 v = val32 (gelu32 v) ∧ epiAct 3 v = val32 (silu32 v) ∧ epiAct 4 v = val32 (tanh32 v) ∧ epiAct 0 v = v)

namespace Sys2Proof.Machine

/-- Byte `a` of core `t`'s scratchpad lies in element row `j` of an operand. -/
def State.rowByte (s : State) (c : CoreId) (d : Dsc) (slot j : Nat) (t : CoreId) (a : Nat) : Prop :=
  inSpad d = true ∧ t = opCore c d ∧ ∃ f, Fmt.parse (s.rowEnc c d slot j) = some f ∧
    let q := placeOf (s.core c) d slot j
    q.1 * 4096 + q.2 * 64 ≤ a ∧ a < q.1 * 4096 + q.2 * 64 + f.elem.rowBytes (dCols d)

/-- Side-store byte `a` of core `t` holds a scale of element row `j`. -/
def State.rowScale (s : State) (c : CoreId) (d : Dsc) (slot j : Nat) (t : CoreId) (a : Nat) : Prop :=
  inSpad d = true ∧ t = opCore c d ∧ ∃ f, Fmt.parse (s.rowEnc c d slot j) = some f ∧
    let q := placeOf (s.core c) d slot j
    q.1 * 128 + 2 * q.2 ≤ a ∧ a < q.1 * 128 + 2 * q.2 + f.scaleBytes (dCols d)

/-- Column `n` of accumulator row `r` of core `t` lies in element row `j`. -/
def rowElem (c : CoreId) (d : Dsc) (j : Nat) (t : CoreId) (r n : Nat) : Prop :=
  inAcc d = true ∧ t = opCore c d ∧ r = accPlace d j ∧ n < dCols d

end Sys2Proof.Machine

namespace Sys2Proof.Machine

/-- What a vector word of stream `u` leaves of a core as it was: everything but scratchpad, side store and accumulators, flags, the
core's monitor counts, engine `u` but for its shadow descriptors and its halt, the bookkeeping of lateness, and the clocks of the
writes made into the core. -/
def Core.vectorFrame (q k : Core) (u : Strm) : Prop :=
  let g := q.engine u
  q = { k with spad := q.spad, side := q.side, acc := q.acc, flags := q.flags, pmCnt := q.pmCnt, m := q.m, v := q.v
               late := q.late, scnt := q.scnt, scntAt := q.scntAt, scntRun := q.scntRun, movedAt := q.movedAt
               winClk := q.winClk } ∧
  (∀ t, t ≠ u → q.engine t = k.engine t) ∧
  g = { k.engine u with buf := g.buf, live := g.live, lfsr := g.lfsr, reload := g.reload, issued := g.issued
                        recent := g.recent, prog := g.prog }

end Sys2Proof.Machine

/-- The frame of the vector words and AST (R310, R318, R304): where one issues and its effects complete, every byte of scratchpad
and side stores and every accumulator element outside the rows of d0 reads as before; flags that neither of its clauses names are as
before; the rest of its core is as `vectorFrame` says, of another core only the stores that d0 lies in, its schedule counter and
the clocks of writes into it may differ; and the rest of the machine is as before but for the updates that the panel has come to see. -/
def Obligations.VectorFrame : Prop :=
  ∀ (s s1 t : State) (i : Instr) (e : EWord) (w : Issued),
    ((e.strm = .v ∧ e.op = true) ∨ ∃ h o, i = .ast h o) → engineWord i = some e → s.issueE i e = some (w, s1) →
    s.canonical = true → s.allClean = true → s.lineOps ≠ some 0 → exec i s = .next t →
    (∀ c : CoreId, (∀ a, (∀ j, j < dRows (w.dsc 0) → ¬ s.rowByte s.cur (w.dsc 0) (w.slot 0) j c a) →
        byteAt (t.core c).spad a = byteAt (s.core c).spad a) ∧
      (∀ a, (∀ j, j < dRows (w.dsc 0) → ¬ s.rowScale s.cur (w.dsc 0) (w.slot 0) j c a) →
        byteAt (t.core c).side a = byteAt (s.core c).side a) ∧
      (∀ r n, n < 32 → (∀ j, j < dRows (w.dsc 0) → ¬ rowElem s.cur (w.dsc 0) j c r n) →
        (t.core c).accAt r n = (s.core c).accAt r n)) ∧
    (∀ c : CoreId, (t.core c).vectorFrame (s.core c) e.strm) ∧
    (t.core s.cur).sameFlags (s.core s.cur) e.hdr ∧
    (∀ c : CoreId, c ≠ s.cur →
      let q := t.core c
      q = { s.core c with spad := q.spad, side := q.side, acc := q.acc, scnt := q.scnt, scntAt := q.scntAt
                          scntRun := q.scntRun, winClk := q.winClk }) ∧
    t = { s with cores := t.cores, free := t.free
                 mem := { s.mem with clocks := t.mem.clocks, replicas := t.mem.replicas, updates := t.mem.updates
                                     ctls := (s.undrain s.cur e.strm).mem.ctls } } ∧
    ∃ (w' : Issued) (u : State), t = u.endE s.cur e.strm w' ∧ u.engineFrame s1

namespace Sys2Proof.Machine

/-- The state after an action. -/
def State.after {α : Type} (s : State) (act : M α) : State :=
  match act s with
  | .ok _ t => t
  | .error _ t => t

/-- The copy engine writes a row and has its LFSR at the state given; the bytes are counted (R93, R201). -/
def State.wroteRow (u : State) (c : CoreId) (y : RowAt) (b first n : Nat) (r : Row × BitVec 32) : State :=
  (u.dstRow c y.d y.slot y.row b first n r.1).onCore c fun k => (k.pm 5 n).setEngine .c { k.c with lfsr := r.2 }

/-- A row of `src` converted by R97 into a row of a destination. -/
def State.moveRow (u src : State) (c : CoreId) (mode : Mode) (sat : Bool) (x y : RowAt) (b first : Nat) : State :=
  let es := src.rowEnc c x.d x.slot x.row
  let ed := u.rowEnc c y.d y.slot y.row
  match Fmt.parse es, Fmt.parse ed with
  | some fs, some fd =>
    u.wroteRow c y b first (fd.memBytes (dCols y.d))
      (convertRow es ed fs fd (dCols x.d) (dCols y.d) mode sat (src.srcRow c x.d x.slot x.row b first fs) (u.core c).c.lfsr)
  | _, _ => u

/-- Row `i` of an operand that a copy moves, at a slot. -/
def rowAt (d : Dsc) (slot i : Nat) : RowAt := { d := d, slot := slot, row := i, own := false }

/-- The rows of two operands in memory lie on no common line. -/
def State.apart (s : State) (c : CoreId) (x y : RowAt) (b first b' first' : Nat) : Prop :=
  ∀ f g la lb, Fmt.parse (vget (s.core c).fmtSlot (dFmt x.d)) = some f → Fmt.parse (vget (s.core c).fmtSlot (dFmt y.d)) = some g →
    s.lineAddr c x.d x.row b first (f.memBytes (dCols x.d)) false = some la →
    s.lineAddr c y.d y.row b' first' (g.memBytes (dCols y.d)) true = some lb →
    (la + f.memBytes (dCols x.d) - 1) / 64 < lb / 64 ∨ (lb + g.memBytes (dCols y.d) - 1) / 64 < la / 64

/-- No row that a word writes to memory meets the node table of a tree that runs (R134). -/
def State.clearOfNodes (s : State) (c : CoreId) (y : RowAt) (b first : Nat) : Prop :=
  ∀ g lb, Fmt.parse (vget (s.core c).fmtSlot (dFmt y.d)) = some g →
    s.lineAddr c y.d y.row b first (g.memBytes (dCols y.d)) true = some lb →
    let e := vget s.tree.engines 0
    e.en = false ∨ lb + g.memBytes (dCols y.d) ≤ e.ntBase.toNat * 2 ^ 29 ∨ e.ntBase.toNat * 2 ^ 29 + 2 ^ 29 ≤ lb

/-- Row `i` of a copy under PT is moved: its block is not parked and has the adapter that an operand needs (R327, R361). -/
def Core.moves (k : Core) (p : Pass) (ds : List Dsc) (i : Nat) : Prop :=
  k.rowParked p i = false ∧ noAdapter k ds (k.rowBlock p i) = false

/-- The place of row `i` within its block. -/
def Core.firstAt (k : Core) (p : Pass) (i : Nat) : Nat := (p.getD 0).toNat + i - k.rbtStart (k.rowBlock p i)

/-- A copy word that issues while every row it moves can be read and written ends with d0 holding the rows of d1, converted one
after another. -/
def CopyResult (mk : Hdr → D2Conv → Instr) (e : Hdr → D2Conv → EWord) : Prop :=
  ∀ (s s1 s2 : State) (h : Hdr) (o : D2Conv) (w : Issued),
    s.issueE (mk h o) (e h o) = some (w, s1) → s.allClean = true → s.lineOps = none →
    declareMarks s.cur (w.dsc 0) s1 = .ok () s2 →
    let c := s.cur
    let k := s2.core c
    let x (i : Nat) := rowAt (w.dsc 1) (w.slot 1) i
    let y (i : Nat) := rowAt (w.dsc 0) (w.slot 0) i
    let b := k.rowBlock o.pass
    let n := k.firstAt o.pass
    (∀ i, i < dRows (w.dsc 0) → k.moves o.pass w.dscs i →
      s2.rowHere c (w.dsc 1) i (b i) (n i) false ∧ s2.rowHere c (w.dsc 0) i (b i) (n i) true ∧
      s2.clearOfNodes c (y i) (b i) (n i) ∧ ∀ j, j < dRows (w.dsc 0) → s2.apart c (x i) (y j) (b i) (n i) (b j) (n j)) →
    ∃ t, IssuesTo (mk h o) s .c { w with deferred := bobEnds .c [dst0 o.d0, src1 o.d1] w.dscs } t ∧
      t.storedMore ((List.range (dRows (w.dsc 0))).foldl (fun u i =>
        if k.rowParked o.pass i || noAdapter k w.dscs (b i) then u
        else u.moveRow u c (modeOf o.rnd k.round) o.sat (x i) (y i) (b i) (n i)) s2)

/-- A CMCAST's addition for the target it has done with. -/
def State.mcastSent (u : State) (o : CmcastOp) (w : Issued) (target : CoreId) : State :=
  match o.tflag with
  | none => u
  | some v => u.after (sendRemote target .c v 1 w.word w.rword w.pass w.ctx w.abs w.entry)

end Sys2Proof.Machine

/-- R97, R324, R327, R328, R329, R334: the results of CCOPY, CFILL, CMCAST and CMETA, whose operands lie on chip or in memory
that their context may access, in resident lines: CCOPY moves the rows of d1 to d0, each converted; CFILL writes its value to every
row; CMCAST in the loader role writes the rows that it has read to the operand of each target, in the storer role gathers the targets'
rows, and sends its addition, where it names one, once for each target, which it then waits for; CMETA leaves the bytes of its rows,
filled up with zeros to 1,024, to be pushed at completion. Where rows to read and rows to write lie in memory, they share no line, and no
written row meets the node table of a running tree (R134).
R334 to R336: CLSEND, CLRECV and CLRED whose operands lie on chip complete their effects once they issue. -/
def Obligations.CopyWords : Prop :=
  CopyResult .ccopy ccopyWord ∧
  (∀ (s s1 s2 : State) (h : Hdr) (o : CfillOp) (w : Issued),
    s.issueE (.cfill h o) (cfillWord h o) = some (w, s1) → s.allClean = true → s.lineOps = none →
    declareMarks s.cur (w.dsc 0) s1 = .ok () s2 →
    let c := s.cur
    let d := w.dsc 0
    (∀ i, i < dRows d → s2.rowHere c d i 0 0 true ∧ s2.clearOfNodes c (rowAt d (w.slot 0) i) 0 0) →
    ∃ t, IssuesTo (.cfill h o) s .c { w with deferred := bobEnds .c [dst0 o.d0] w.dscs } t ∧
      t.storedMore ((List.range (dRows d)).foldl (fun u i =>
        match Fmt.parse (u.rowEnc c d (w.slot 0) i) with
        | none => u
        | some f => u.wroteRow c (rowAt d (w.slot 0) i) 0 0 (f.memBytes (dCols d))
            (fillRow o.value f (dCols d) (modeOf o.rnd (s2.core c).round) o.sat (u.core c).c.lfsr)) s2)) ∧
  (∀ (s s1 s2 : State) (h : Hdr) (o : CmcastOp) (w : Issued),
    s.issueE (.cmcast h o) (cmcastWord h o) = some (w, s1) → s.allClean = true → s.lineOps = none →
    (if o.storer then declareMarks s.cur (w.dsc 0) s1 = .ok () s2 else s2 = s1) →
    let c := s.cur
    let d0 := w.dsc 0
    let d1 := w.dsc 1
    let mode := modeOf o.rnd (s2.core c).round
    let n := o.n1.toNat + 1
    (∀ i, i < dRows d1 → s2.rowHere c d1 i 0 0 false) →
    (∀ i, i < dRows d0 → s2.rowHere c d0 i 0 0 true ∧ s2.clearOfNodes c (rowAt d0 (w.slot 0) i) 0 0) →
    ∃ t, IssuesTo (.cmcast h o) s .c
        { w with deferred := bobEnds .c [dst0 o.d0, src1 o.d1] w.dscs
                 pending := w.pending + (if o.tflag.isSome then n else 0) } t ∧
      t.storedMore ((List.range n).foldl (fun u k =>
        if o.storer then
          let a := aimDsc d1 (mcastCore d1 k)
          ((List.range (dRows a)).foldl (fun u i =>
            u.moveRow u c mode o.sat (rowAt a 0 i) (rowAt d0 (w.slot 0) (k * dRows a + i)) 0 0) u).mcastSent o w (mcastCore d1 k)
        else
          let a := aimDsc d0 (mcastCore d0 k)
          ((List.range (dRows a)).foldl (fun u i =>
            u.moveRow s2 c mode o.sat (rowAt d1 (w.slot 1) i) (rowAt a 0 i) 0 0) u).mcastSent o w (mcastCore d0 k)) s2)) ∧
  (∀ (s s1 : State) (h : Hdr) (o : CmetaOp) (w : Issued) (f : Nat → Fmt),
    s.issueE (.cmeta h o) (cmetaWord h o) = some (w, s1) → s.allClean = true → s.lineOps = none →
    let c := s.cur
    let d := w.dsc 0
    (∀ i, i < dRows d → s1.rowHere c d i 0 0 false ∧ Fmt.parse (s1.rowEnc c d (w.slot 0) i) = some (f i)) →
    let bs := (tabulate (dRows d) fun i => (s1.srcRow c d (w.slot 0) i 0 0 (f i)).bytes).flatten
    ∃ t, IssuesTo (.cmeta h o) s .c
        { w with deferred := .pushMeta o.q (bs ++ List.replicate (1024 - bs.length) 0) :: bobEnds .c [src1 o.d1] w.dscs } t ∧
      t.storedMore (s1.onCore c fun k => k.pm 5 bs.length)) ∧
  (∀ (s s1 : State) (i : Instr) (e : EWord) (w : Issued),
    (∃ h, (∃ o, i = .clsend h o) ∨ (∃ o, i = .clrecv h o) ∨ (∃ o, i = .clred h o)) →
    engineWord i = some e → s.issueE i e = some (w, s1) → s.allClean = true → s.lineOps = none →
    (∀ d ∈ w.dscs, inAcc d = true ∨ inSpad d = true) →
    ∃ w' t, IssuesTo i s .c w' t ∧ w'.word = encodeWord i ∧ t.mem.hbm = s.mem.hbm ∧ t.mem.l2 = s.mem.l2)

/-- R327, R333, R361: the results of CGATH, CSCAT and CPFA where every row that is not parked and whose block has an adapter where
it needs one lies in memory that can be reached, and no check fails over the cores' stores: CGATH and CSCAT move the rows of d1 to d0
as CCOPY does, CPFA the adapter rows of each block into the bobbin slot of the block, BLOCKS + 1 slots of which it advances at
completion. -/
def Obligations.GatherScatterComplete : Prop :=
  CopyResult .cgath cgathWord ∧ CopyResult .cscat cscatWord ∧
  (∀ (s s1 : State) (h : Hdr) (o : CpfaOp) (w : Issued),
    s.issueE (.cpfa h o) (cpfaWord h o) = some (w, s1) → s.allClean = true → s.lineOps ≠ some 0 →
    let c := s.cur
    let k := s.core c
    let d0 := w.dsc 0
    let d1 := w.dsc 1
    (∀ b j, b ≤ k.hdrBlocks → j < dRows d1 → k.rbtParked b = false → k.rbt b 4 ≠ 0 → s.rowThere c d1 j b j false) →
    ∃ t, IssuesTo (.cpfa h o) s .c { w with deferred := [.advance (dBob d0) (k.hdrBlocks + 1)] } t ∧
      t.storedMore ((List.range (k.hdrBlocks + 1)).foldl (fun u b =>
        if k.rbtParked b = true ∨ k.rbt b 4 = 0 then u
        else (List.range (dRows d1)).foldl (fun u j =>
          u.moveRow u c (modeOf o.rnd k.round) o.sat (rowAt d1 0 j)
            (rowAt d0 ((w.slot 0 + b) % ((vget k.bobbins (dBob d0).toNat).count + 1)) j) b j) u) s1))

/-! ## Events of a core -/

/-- R58, R59, R65, R71, R163, R272: an engine word in progress completes: what its completion does is done, it leaves the engine, and
its signal is added where there is room; a word whose effects come after its issue is in progress with them to come, and goes on with
them as far as its step reaches (the model's choice how far: log 43); an X word in progress leaves its unit with its results and its
signal, in any order but that of the words that write one register, an XA entry being filled where it was reserved; an engine fetches
the next published word while its buffer holds fewer than sixteen, and keeps whether the check of its read failed.
R331, R332: a schedule entry whose stage has come is read once and issues like a word at the head of its stream; one with its
operands on chip completes its effects. -/
def Obligations.EngineEvents : Prop :=
  ((∀ (s s2 : State) (c : CoreId) (t : Strm) (i : Nat) (w : Issued),
     (t = .m ∨ t = .v ∨ t = .c) → vget s.power.cluster (clusterOf c) ≠ 2 → ((s.core c).engine t).prog[i]? = some w →
     (s.core c).mayComplete t i w = true → runDeferred fillSlot c w.deferred w { s with cur := c } = .ok ([], []) s2 →
     let u := (s2.undrain c t).onCore c fun k =>
       if t = .c ∧ w.opcode = 0x1A then { k.dropProg t i with sched := none } else k.dropProg t i
     ((u.core c).completionSig (getSig w.word) = none → exec (.wordCompletion c t i) s = .next (u.endLate c)) ∧
     (∀ v n k, (u.core c).completionSig (getSig w.word) = some (v, n) → (u.core c).addFlag v n = .ok k →
       exec (.wordCompletion c t i) s = .next ((u.setCore c k).endLate c))) ∧
   (∀ (s s1 : State) (i : Instr) (e : EWord) (w : Issued),
     engineWord i = some e → s.issueE i e = some (w, s1) → s.lineOps = some 0 → e.later s1 s.cur w.dscs ≠ .no →
     IssuesTo i s e.strm { w with todo := true, env := some (w.env.getD (s1.envOf s.cur w.dscs)) } s1) ∧
   (∀ (s s' : State) (c : CoreId) (t : Strm) (i : Nat) (w w' : Issued) (e : EWord),
     (t = .m ∨ t = .v ∨ t = .c) → vget s.power.cluster (clusterOf c) ≠ 2 → ((s.core c).engine t).prog[i]? = some w →
     w.todo = true → w.entryOf t = some e →
     let s0 := { s with cur := c }
     s0.opsNow e c w.dscs ≠ some 0 → runBody c t (Issued.bodyOf e c) w (s0.opsNow e c w.dscs) s0 = .ok w' s' →
     exec (.wordCompletion c t i) s = .next (((s'.undrain c t).onCore c fun k =>
       k.setEngine t { k.engine t with prog := listSet (k.engine t).prog i w' }).endLate c)) ∧
   (∀ (s : State) (c : CoreId) (i : Nat) (w : Issued),
     vget s.power.cluster (clusterOf c) ≠ 2 → (s.core c).xProg[i]? = some w →
     (∀ x ∈ (s.core c).xProg.take i, ∀ r ∈ x.res, r.1 ≠ .xa → ∀ e ∈ w.res, e.1 ≠ r.1) →
     let k1 := w.res.foldl (fun k r => k.landX i r) (s.core c)
     let k := { k1 with xProg := k1.xProg.eraseIdx i }
     (∀ v n q, k.completionSig (getSig w.word) = some (v, n) → k.addFlag v n = .ok q →
       exec (.wordCompletion c .x i) s = .next ({ s with cur := c }.setCore c q)) ∧
     (k.completionSig (getSig w.word) = none →
       exec (.wordCompletion c .x i) s = .next ({ s with cur := c }.setCore c k))) ∧
   (∀ (k : Core) (i : Nat) (v : Word),
     (∀ q, k.landX i (.reg q, v) = { k with x := vset k.x q.toNat v }) ∧
     (∀ q, k.landX i (.pred q, v) = { k with p := vset k.p q.toNat (v != 0) }) ∧
     (∀ pre post, k.xa = pre ++ none :: post →
       (pre.filter Option.isNone).length = ((k.xProg.take i).flatMap fun w => w.res.filter fun e => e.1 == .xa).length →
       k.landX i (.xa, v) = { k with xa := pre ++ some v :: post })) ∧
   (∀ (s : State) (c : CoreId) (t : Strm),
     (t = .m ∨ t = .v ∨ t = .c) →
     let k := s.core c
     let r := k.ring t
     let g := k.engine t
     let at0 := 720896 + 8 * (r.wordIdx r.fetch.toNat).toNat
     k.dead = false → vget s.power.cluster (clusterOf c) = 0 → r.started = true → r.fetch ≠ r.pub → g.buf.length < 16 →
     exec (.engineFetch c t) s = .next (s.setCore c ((k.setRing t { r with fetch := r.fetch + 1 }).setEngine t
       { g with buf := g.buf ++ [(r.fetch, wordOf (bytesAt k.spad at0 8))]
                bad := if k.spadBad at0 8 then r.fetch :: g.bad else g.bad.filter (· != r.fetch) })))) ∧
  (∀ (s s2 s3 : State) (c : CoreId) (g : Sched) (bs : List Byte) (i : Instr) (e : EWord) (w : Issued),
     let s1 := { s with cur := c }
     s1.mayIssue c .c = true → (s.core c).sched = some g → (s.core c).entryDue g = true → s.lineOps = none →
     let la := dAddr g.table + 128 * g.next
     (match g.held with
       | some b => bs = b ∧ s2 = s1
       | none => ∃ u, (do check4 c la 128 1; engRead c (s.core c).ctx la 128 0 : M (List Byte)) s1 = .ok bs u ∧
           s2 = (u.undrain c .c).onCore c fun k => { k with sched := k.sched.map fun g => { g with held := some bs } }) →
     let x := entryOf bs
     field x.word 56 8 = 0 → x.clean = true → decodeWord .c x.word = .word i 0 →
     ((∃ h o, i = .ccopy h o) ∨ (∃ h o, i = .cfill h o) ∨ (∃ h o, i = .cmeta h o)) → engineWord i = some e →
     let ds := e.ops.map fun o => x.dscs.getD ((36 - o.at0) / 4) 0
     s2.issueWord x.word (badOperands i) e ds (some g.next) = some (w, s3) → s2.allClean = true →
     (∀ d ∈ ds, inAcc d = true ∨ inSpad d = true) →
     ∃ (w' : Issued) (t : State), exec (.schedEntryRelease c) s = .next (t.endE c .c w') ∧ w'.word = x.word ∧ w'.entry = some g.next)


/-- R79, R80, R223, R359, R365, R368, R396, R400: a late word raises the stall wire; a word of no instruction halts its stream with
class 0x01; the budget trap and the pre-emption of a core whose streams have ended or stand at a SAFE enter the handler at
word 16 with their causes, a SAFE at the head completing first; a loaded core's streams start; the loader places an image that it
accepts, of firmware's or of a range that it can read for its context.
R62, R371, R404: a remote addition that reaches a core that runs the sender's tag, or a core of a cluster in P1, adds to the virtual
flag named where the sum does not pass CEIL, and answers its sender; for a context that is away the entry adds it to the saved image, holds it or sends
it on; where neither is there, or the flag is not live, it is dropped with a report.
The model's choices here, no words of the spec: that the signal of the SAFE at which a pre-emption enters is added at the entry (log 90,
DEDUCED), and what SCNT holds as the streams start (log 91, DEDUCED). -/
def Obligations.CoreEvents : Prop :=
  ((∀ (s : State) (c : CoreId) (t : Strm),
     s.streamLate (s.core c) t = true → (s.core c).late = false →
     exec (.lateWordStall c t) s = .next (({ s with cur := c }.onCore c fun k => { k with late := true }).syncWire c)) ∧
   (∀ (s : State) (w : Word),
     (∃ t, exec (.illegalWord .x w) s = .next t ∧ (t.core s.cur).xHalt = some .head) ∧
     (∀ u, u = .m ∨ u = .v ∨ u = .c →
       ∃ t, exec (.illegalWord u w) s = .next t ∧ ((t.core s.cur).engine u).halt = some .head) ∧
     ((s.core s.cur).priv = false → ∃ t, exec (.illegalWord .a w) s = .next t ∧
       let q := t.core s.cur
       q.priv = true ∧ q.handlerPos = 16 ∧ q.excCause = 0x01 ∧ q.excWord = w ∧ q.excAddr = 0)) ∧
   (∀ (s : State) (c : CoreId),
     let k := s.core c
     k.dead = false → vget s.power.cluster (clusterOf c) = 0 → s.budgetDue k = true →
     ∃ t, exec (.budgetTrap c) s = .next t ∧
       let q := t.core c
       q.priv = true ∧ q.handlerPos = 16 ∧ q.excCause = 0x20 ∧ q.excWord = (k.headOf .a).getD 0 ∧ q.excAddr = 0 ∧
       q.excRet = excRetWord k.wdone k.resumeWord ∧ q.budgetArmed = false ∧ q.current = k.current ∧ q.a = k.a) ∧
   ((∀ (s : State) (c : CoreId) (point : Option (BitVec 16)),
      let k := s.core c
      let s0 := { s with cur := c }
      k.safePoint = some point → k.preemptDue = true → vget s.power.cluster (clusterOf c) = 0 →
      ((k.ring .a).ended = true → exec (.preemptEntry c) s = .next (s0.onCore c fun k => k.enterPreempt point 0 false)) ∧
      (∀ w h n, (k.ring .a).ended = false → k.headOf .a = some w → decodeA w = some (.aSafe h n) →
        let s1 := (s0.onCore c fun k => k.advanceA false .next).aComplete h w (k.headWord .a)
        (s1.core c).priv = false →
        exec (.preemptEntry c) s = .next ((s1.onCore c fun k => k.enterPreempt point w false).endLate c)) ∧
      ((k.ring .a).ended = false → (∀ w h n, k.headOf .a = some w → decodeA w ≠ some (.aSafe h n)) →
        exec (.preemptEntry c) s = .next (s0.onCore c fun k => k.enterPreempt point k.aSafeWord true))) ∧
    (∀ (k : Core) (point : Option (BitVec 16)) (w : Word) (b : Bool),
      k.enterPreempt point w b =
        { k.enterHandler (match point with
            | some n => 0x20000 + n.setWidth 64
            | none => 0x30000) w 0 (excRetWord b k.resumeWord) 16 with
          preempt := false, monitor := none, safeAt := some point })) ∧
   (∀ (s : State) (c : CoreId),
     (s.core c).loaded = true → vget s.power.cluster (clusterOf c) = 0 →
     exec (.streamsStart c) s = .next ((s.onCore c fun k =>
       { k with rings := k.rings.map (fun r => if r.entry then { r with started := true } else r),
                scnt := if k.lsEn then 4 * (((s.ftOf (panelOf c)).toNat : Int) - k.lsStart.toNat) else 0,
                scntAt := s.cycle, scntRun := false }).syncWire c)) ∧
   (∀ (s t : State) (c : CoreId) (ctx : Tag) (image : List Byte) (bases : List (BitVec 13)),
     loadImage c ctx image bases s = .ok () t →
     exec (.programLoad c ctx (.held image) bases) s =
       .next (if s.accepts c image bases && bvxSigned ctx image then t else s)) ∧
   (∀ (s u t : State) (c : CoreId) (ctx : Tag) (va : Word) (len : Nat) (image : List Byte) (bases : List (BitVec 13)),
     readImage (panelOf c) ctx va len s = .ok image u → loadImage c ctx image bases u = .ok () t →
     exec (.programLoad c ctx (.placed va len) bases) s =
       .next (if u.accepts c image bases && bvxSigned ctx image then t else u))) ∧
  (∀ (s : State) (i : Nat) (x : Remote),
     s.remotes[i]? = some x →
     let k := s.core x.target
     let s1 := { s with remotes := listDrop s.remotes i }
     let here := (k.loaded = true ∧ k.ctx = x.owner ∧ vget s.power.cluster (clusterOf x.target) ≠ 2) ∨
       vget s.power.cluster (clusterOf x.target) = 1
     (here → x.held.v.toNat < k.flagNum.toNat →
       let j := (x.held.v.toNat + k.flagBase.toNat) % 64
       let f := vget k.flags j
       f.count.toNat + x.held.amount.toNat ≤ f.ceil.toNat →
       let s2 := (s1.wakeCluster (clusterOf x.target)).onMem fun m => m.catchUp (panelOf x.target) x.held.clock
       let s3 := s2.onCore x.target fun k =>
         { k with flags := vset k.flags j { f with count := f.count + x.held.amount } }
       exec (.remoteAddition i) s = .next (s3.answered x.held)) ∧
     (¬ here → ∀ n, k.awayFor x.owner = some n → x.held.v.toNat < (vget k.away n).num.toNat →
       let a := vget k.away n
       (∀ old s2, a.mode = 1 → imageAdd (panelOf x.target) a x.held s1 = .ok old s2 →
         ((Flag.ofWord old).add x.held.amount.toNat).isSome = true →
         exec (.remoteAddition i) s = .next (s2.answered x.held)) ∧
       (a.mode = 2 → exec (.remoteAddition i) s = .next (s1.onCore x.target fun k =>
         { k with away := vset k.away n { a with held := a.held ++ [x.held] } })) ∧
       (a.mode = 3 → exec (.remoteAddition i) s = .next
         { s1 with remotes := s1.remotes ++ [{ x with target := a.core }] })) ∧
     (∀ t, ¬ here → k.awayFor x.owner = none → remoteDrop x.held x.owner x.target false s1 = .ok () t →
       exec (.remoteAddition i) s = .next t) ∧
     (∀ t, here → k.flagNum.toNat ≤ x.held.v.toNat → remoteDrop x.held x.owner x.target true s1 = .ok () t →
       exec (.remoteAddition i) s = .next t))


/-- R52, R360, R396 to R404: what firmware's registers do to a core: FRES clears the halt and retries or skips, the wire falling
where nothing holds it; PEND asks for a pre-emption; BUDGADD raises the budget, at most to 2^32 - 1; FPARK parks every block
of the current pass; an away entry is written with its held additions kept under HOLD and sent on otherwise; any other
register of region 3 takes its write; a running hart's store reaches the private SRAM, and none the boot ROM; a word whose retry
stalls is in progress with its effects to come. R184, R185: a running hart takes the interrupt that is pending and enabled, or executes
its next instruction: an operation on integer registers writes its destination and moves the pc past it, and an exception that is not
delegated enters the handler of M-mode with the pc, the cause and the value saved.
The model's choices here, no words of the spec: that a hart's access to the SRAM and the boot ROM can be a turn of its own (log 12, DESIGN
CHOICE), what the RISC-V volumes that R184 names give (log 162, PRESUMED) and leave open (log 164, DESIGN CHOICE), when the module's interrupts cease (log 163, DEDUCED), that an away entry acts after each of its words (log 118, DEDUCED), and the turns by which firmware sets what has no register (log
136, DESIGN CHOICE). -/
def Obligations.FirmwareEvents : Prop :=
  (∀ (s t : State) (c : CoreId) (u : Strm) (h : Halt),
    (s.core c).haltOf u = some h → retryHalt c u h (s.onCore c fun k => k.setHalt u none) = .ok () t →
    exec (.fresRetry c u) s = .next (t.dropWire c)) ∧
  (∀ (s s' : State) (c : CoreId) (u : Strm) (w : Issued) (e : EWord),
    (u = .m ∨ u = .v ∨ u = .c) → (s.core c).haltOf u = some (.performed w) → w.todo = true → w.entryOf u = some e →
    let s1 := s.onCore c fun k => k.setHalt u none
    let w1 := { w with retry := some w.resume }
    runBody c e.strm (Issued.bodyOf e c) w1 none { s1 with cur := c } = .error .stall s' →
    exec (.fresRetry c u) s = .next ((s1.onCore c fun k => k.addProg e.strm w1).dropWire c)) ∧
  (∀ (s t : State) (c : CoreId) (u : Strm) (h : Halt),
    (s.core c).haltOf u = some h → skipHalt c u h (s.onCore c fun k => k.setHalt u none) = .ok () t →
    exec (.fresSkip c u) s = .next (t.dropWire c)) ∧
  (∀ (s : State) (c : CoreId), exec (.preemptRequest c) s = .next (s.onCore c fun k => { k with preempt := true })) ∧
  (∀ (s : State) (c : CoreId) (n : BitVec 32),
    ∃ q, exec (.budgadd c n) s = .next (s.setCore c q) ∧
      q.budget.toNat = min (2 ^ 32 - 1) ((s.budgetNow (s.core c)).toNat + n.toNat) ∧ q.budgetAt = s.cycle ∧
      q = { s.core c with budget := q.budget, budgetAt := q.budgetAt, budgetArmed := q.budgetArmed }) ∧
  (∀ (s : State) (c : CoreId), (s.core c).current = false → exec (.fpark c) s = .next s) ∧
  (∀ (s t : State) (c : CoreId),
    let k := s.core c
    let fresh := k.blocks.filter fun b => !k.rbtParked b
    let owners := (fresh.map k.rbtOwner).eraseDups
    let k1 := (fresh.foldl Core.park k).pm 8 ((fresh.map k.rbtCount).sum)
    let first (o : Tag) := BitVec.ofNat 6 ((fresh.find? fun b => k.rbtOwner b == o).getD 0)
    let note (o : Tag) : Rec := { pass := k.passId, owner := o, unit := 0, cont := 1, block := first o, cls := 0x20, wv := false, core := 0, strm := 0, rword := 0, laddr := 0, d0 := k.passBudget, d1 := 0, word := 0 }
    let q := { k1 with parkedOwners := owners ++ k.parkedOwners }
    k.current = true → (owners.forM fun o => appendFault (panelOf c) (note o) : M Unit) (s.setCore c q) = .ok () t →
    exec (.fpark c) s = .next t ∧ t.core c = { q with monitor := (t.core c).monitor }) ∧
  (∀ (s : State) (c : CoreId) (i : BitVec 3) (w0 w1 : Word),
    let old := vget (s.core c).away i.toNat
    let e : Away := { mode := field w0 62 2, num := field w0 32 7, core := field w0 16 10, owner := field w0 0 12, image := field w1 12 44, held := if field w0 62 2 = 2 then old.held else [] }
    let rs := s.remotes ++ (if field w0 62 2 = 2 then [] else old.held).map fun h => { held := h, target := c, owner := old.owner }
    exec (.awayEntryWrite c i w0 w1) s = .next
      { (s.onCore c fun k => { k with away := vset k.away i.toNat e }) with remotes := rs }) ∧
  (∀ (s t : State) (addr : BitVec 56) (v : Word),
    regionOf addr.toNat = 3 → addr.toNat % 8 = 0 → regWrite 0 0 addr.toNat v s = .ok () t →
    exec (.registerWrite addr v) s = .next t) ∧
  (∀ (s : State) (hart : BitVec 2) (addr : BitVec 56) (z : BitVec 2) (v : Word),
    bit s.boot.harts hart.toNat = true → regionOf addr.toNat = 15 →
    exec (.firmwareComplexAccess hart addr (.store z v)) s = .next
      ((match sramOff (addr.toNat % 2 ^ 52) (2 ^ z.toNat) with
        | some o => { s with boot := { s.boot with sram := setBytes s.boot.sram o (bytesOfW (2 ^ z.toNat) v)
                                                   hart := s.boot.hart.map (Hart.lose (addr.toNat % 2 ^ 52) (2 ^ z.toNat)) } }
        | none => s).undrainAt (unitHart hart.toNat))) ∧
  (∀ (s t : State) (hart : BitVec 2) (addr : BitVec 56) (acc : HartAccess),
    bit s.boot.harts hart.toNat = true → hartAccess hart.toNat addr.toNat acc s = .ok () t →
    exec (.firmwareComplexAccess hart addr acc) s = .next (t.undrainAt (unitHart hart.toNat))) ∧
  (∀ (s s1 : State) (hart : BitVec 2) (addr : BitVec 56) (h0 : Hart),
    vget s.boot.hart hart.toNat = h0 → bit s.boot.harts hart.toNat = true → h0.interrupt s.host.raised = none →
    let counts := bit h0.mcountinhibit 0 = false
    let h : Hart := { h0 with mcycle := if counts then Config.freeWord s.free else h0.mcycle }
    let s0 : State := { s with free := if counts then s.free + 1 else s.free }
    (∀ (raw : Word) (len : Nat) (op : RvAlu) (half : Bool) (rd a b : BitVec 5),
      (hartFetch h).run s0 = .ok (.ok (raw, len, some (.alu op half rd a b))) s1 →
      ∃ u q, exec (.firmwareComplexAccess hart addr .run) s = .next u ∧ vget u.boot.hart hart.toNat = q ∧
        q.pc = h0.pc + w64 len ∧ (rd ≠ 0 → q.getX rd = rvAluOf op half (h0.getX a) (h0.getX b)) ∧
        (∀ r, r ≠ rd → q.getX r = h0.getX r) ∧ q.getX 0 = 0 ∧ q.f = h0.f ∧ q.mode = h0.mode ∧ q.mstatus = h0.mstatus ∧
        q.minstret = (if bit h0.mcountinhibit 2 then h0.minstret else h0.minstret + 1)) ∧
    (∀ (t : Trap),
      (hartInstr hart.toNat h).run s0 = .ok (.error t) s1 → (h0.mode = .m ∨ bit h0.medeleg t.cause = false) →
      ∃ u q, exec (.firmwareComplexAccess hart addr .run) s = .next u ∧ vget u.boot.hart hart.toNat = q ∧
        q.mepc = h0.pc ∧ q.mcause = w64 (t.cause % 2 ^ 63) ∧ q.mtval = t.tval ∧ q.mode = .m ∧
        q.pc = h0.mtvec &&& ~~~3#64 ∧ q.x = h0.x ∧ q.f = h0.f ∧ bit q.mstatus 3 = false ∧ bit q.mstatus 7 = bit h0.mstatus 3)) ∧
  (∀ (s : State) (hart : BitVec 2) (addr : BitVec 56) (h0 : Hart) (c : Nat),
    vget s.boot.hart hart.toNat = h0 → bit s.boot.harts hart.toNat = true → h0.interrupt s.host.raised = some c →
    exec (.firmwareComplexAccess hart addr .run) s = .next
      ({ s with boot := { s.boot with hart := vset s.boot.hart hart.toNat (h0.take true c 0) }
                host := if c = 9 then { s.host with irqCold := false, irqFault := false } else s.host }.undrainAt (unitHart hart.toNat)))

/-! ## Events of the host queues, the task graph and the Gatherers -/

/-- R178, R180 to R187: the submission queues, the log, the watchdog and the fallback. A write to a mapped SQTAIL while the log has
room is logged and raises TAIL; SQPULL takes the record at HEAD; EN set from 0 clears TAIL and HEAD; COMMIT rises and releases
held writes; a beat restarts the watchdog, whose expiry starts the fallback and resets the harts.
The model's choices here, no words of the spec: that the count starts again at an expiry (log 155, DESIGN CHOICE), and what a hart's
registers hold after its reset (log 164, DESIGN CHOICE). -/
def Obligations.HostQueueEvents : Prop :=
  (∀ (s t : State) (q : BitVec 10) (v : Word),
    (s.sq q.toNat).en = true → s.host.logFull = false → logTail q v VClock.zero s = .ok () t →
    exec (.sqtailWrite q v) s = .next t ∧ (t.sq q.toNat).tail.toNat = max (s.sq q.toNat).tail.toNat v.toNat ∧
    t.host.logNext = s.host.logNext + 1) ∧
  (∀ (s t : State) (q : BitVec 10),
    (s.sq q.toNat).ready = true → pull q.toNat s = .ok () t →
    exec (.sqpull q) s = .next t ∧ (t.sq q.toNat).head = (s.sq q.toNat).head + 1) ∧
  (∀ (s : State) (q : BitVec 10) (v : Word),
    let x := s.sq q.toNat
    let zero := x.en = false ∧ bit v 63 = true
    exec (.sqEnable q v) s = .next (s.setSq q.toNat
      { x with en := bit v 63, gath := field v 60 3, logc := field v 56 4, ring := field v 7 49,
               tail := if zero then 0 else x.tail, head := if zero then 0 else x.head })) ∧
  (∀ (s : State) (v : Word),
    s.host.logCommit.toNat < v.toNat → s.host.heldTails = [] →
    exec (.logcommitWrite v) s = .next (s.onHost fun h =>
      { h with logCommit := v, irqLog := decide (v.toNat < h.logNext.toNat) })) ∧
  (∀ (s t : State) (v : Word), raiseCommit v s = .ok () t → exec (.logcommitWrite v) s = .next t) ∧
  (∀ (s : State), exec .fwbeat s = .next (s.onHost fun h => { h with wdStart := s.cycle })) ∧
  (∀ (s : State),
    s.host.wdStart + 4000 * s.host.wdLimit.toNat ≤ s.cycle →
    exec .watchdogExpiry s = .next
      { s with host := { s.host with fbActive := true, wdStart := s.cycle },
               boot := if s.boot.booted then { s.boot with harts := 0xF, hart := Vector.replicate 4 (Hart.reset s.boot.monitor) }
                 else s.boot }) ∧
  (∀ (s s1 t : State) (q : Nat),
    s.host.fbActive = true → s.fallbackQueue = some q → pull q s = .ok () s1 →
    (do let s ← getState
        raiseCommit (← servedFrom (s.host.logNext - s.host.logCommit).toNat s.host.logCommit) : M Unit)
      (s1.onHost fun h => { h with fbNext := (q + 1) % 1024 }) = .ok () t →
    exec .fallbackPull s = .next t) ∧
  (∀ (s : State), exec .fallbackStop s = .next (s.onHost fun h => { h with fbActive := false }))

/-- R22, R25, R31, R35, R362, R363: a tile task whose gates are met goes to its Gatherer; a range task's state block is written and
its chunks may be taken; a barrier fires and its record ends; a released task goes back to its Gatherer, an abandoned one
ends, and one whose completion meets a draining page stays listed. -/
def Obligations.TaskEvents : Prop :=
  (∀ (s : State) (id : BitVec 32) (t : Task),
    s.task? id.toNat = some t → t.ready = true → t.kind = .tile →
    exec (.taskDispatch id) s = .next (((s.onMem fun m => m.catchUp (t.gath / 2) t.clock).setStage id.toNat t
      .dispatched).onGath t.gath fun g => { g with input := g.input ++ [.tile id.toNat] })) ∧
  (∀ (s u : State) (id : BitVec 32) (t : Task) (r : Option Unit),
    s.task? id.toNat = some t → t.ready = true → t.kind = .range →
    unitTry (memWrite 0 t.owner (tkState t) (rangeBlock (tkChunks t)) 0 .whole)
      ((s.onMem fun m => m.catchUp 0 t.clock).setStage id.toNat t .dispatched) = .ok r u →
    exec (.rangeDispatch id) s = .next ({ u with
      tg := { u.tg with ranges := u.tg.ranges ++ [id.toNat] }
      gath := u.gath.map fun q : Gatherer => { q with input := q.input ++ [Arrival.range id.toNat false] } }.undrainAt unitGraph)) ∧
  (∀ (s s1 s2 : State) (id : BitVec 32) (t : Task) (b : Bool),
    s.task? id.toNat = some t → t.ready = true → t.kind = .barrier →
    ((List.range 4).forM (fun i => do
      if t.word (5 + i) != 0 then
        let _ ← unitTry (gateFill 0 t.owner (t.word (5 + i)).toNat 1 0)
        pure ()) : M Unit) (s.onMem fun m => m.catchUp 0 t.clock) = .ok () s1 →
    unitComplete t.owner (t.word 10) t.clock s1 = .ok b s2 →
    exec (.barrierFire id) s = .next ((s2.endTask id.toNat).undrainAt unitGraph)) ∧
  (∀ (s : State) (g : BitVec 3) (id : BitVec 32) (x : Parked) (rest : List Parked),
    takeParked id (vget s.gath g.toNat).parked = some (x, rest) → x.doneOnly = false →
    exec (.pkresRelease g id) s = .next ((s.onGath g.toNat fun q =>
      { q with parked := rest, input := q.input ++
        [if x.chunk then .chunk x.member x.hash else .again x.member x.hash x.wid x.shape] }).undrainAt (unitGath g.toNat))) ∧
  (∀ (s t : State) (g : BitVec 3) (id : BitVec 32) (x : Parked) (rest : List Parked),
    takeParked id (vget s.gath g.toNat).parked = some (x, rest) → x.doneOnly = true →
    completeParked g.toNat x (s.onGath g.toNat fun q => { q with parked := rest }) = .ok () t →
    exec (.pkresRelease g id) s = .next (t.undrainAt (unitGath g.toNat))) ∧
  (∀ (s u : State) (g : BitVec 3) (id : BitVec 32) (x : Parked) (rest : List Parked) (h p : Nat),
    takeParked id (vget s.gath g.toNat).parked = some (x, rest) → x.doneOnly = true →
    completeParked g.toNat x (s.onGath g.toNat fun q => { q with parked := rest }) = .error (.drain h p) u →
    exec (.pkresRelease g id) s = .next (s.addDrainAt (unitGath g.toNat) h p)) ∧
  (∀ (s : State) (g : BitVec 3) (id : BitVec 32) (x : Parked) (rest : List Parked),
    takeParked id (vget s.gath g.toNat).parked = some (x, rest) →
    exec (.pkresAbandon g id) s = .next
      (let u := s.onGath g.toNat fun q => { q with parked := rest }
       if x.chunk then u else u.endTask x.task))

/-- R28, R36 to R39, R43 to R45, R48, R49, R55, R231: in each cycle a Gatherer admits, closes and assigns, and counts itself, once; a
bin that closes by patience or deadline closes in that order; a feed write that finishes; the tail, SHAPE and GDEPTH registers, a
SHAPE write counting from the next evaluation; and the swatches.
The model's choices here, no words of the spec: that a SHAPE write comes after its Gatherer's steps of the cycle (log 143, DEDUCED),
and that a close by patience or deadline is the turn in which all the cycle's steps are made (log 67, DEDUCED). -/
def Obligations.GathererEvents : Prop :=
  (∀ (s s1 : State) (g : Nat) (now : List HeldPass),
    vget s.power.cluster g ≠ 2 → admitNow g s = .ok now s1 →
    let r := closeBins (vget s1.gath g).takeShapes (s1.ftOf (gathPanel g))
    ownSteps g s = .ok () (((s1.onGath g fun _ => r.1).postAll g (now ++ r.2)).onGath g fun q =>
      { q with gcyc := q.gcyc + 1, ran := true })) ∧
  (∀ (s : State) (g : Nat), vget s.power.cluster g = 2 → ownSteps g s = .ok () s) ∧
  (∀ (s s1 : State) (g : Nat),
    (s.steals g = false → gathererSteps g s = ownSteps g s) ∧
    (s.steals g = true →
      ((List.range 8).filter fun i => i ≠ g ∧ (vget s.gath i).ran = false ∧ s.steals i = false).forM ownSteps s = .ok () s1 →
      gathererSteps g s = ownSteps g s1)) ∧
  (∀ (s t : State) (g : BitVec 3),
    (vget s.gath g.toNat).ran = false → gathererSteps g.toNat s = .ok () t →
    exec (.gathererCycle g) s = .next t ∧
    (∀ b : BitVec 6, s.binDue g.toNat b.toNat 2 = true → exec (.binClosePatience g b) s = .next t) ∧
    (∀ b : BitVec 6, s.binDue g.toNat b.toNat 3 = true → exec (.binCloseDeadline g b) s = .next t)) ∧
  (∀ (s : State) (g : BitVec 3), (vget s.gath g.toNat).ran = true → exec (.gathererCycle g) s = .next s) ∧
  (∀ (s t : State) (c : CoreId), feedWrite c s = .ok () t → exec (.feedWrite c) s = .next t) ∧
  (∀ (s : State) (k : BitVec 12) (v : Word),
    ∃ t, exec (.tailRegisterWrite k v) s = .next t ∧
      ((mapGet t.tails k.toNat).getD 0).toNat = max ((mapGet s.tails k.toNat).getD 0).toNat v.toNat) ∧
  (∀ (s s1 : State) (g : BitVec 3) (c : BitVec 8) (v : Word),
    (if (vget s.gath g.toNat).ran then s1 = s else gathererSteps g.toNat s = .ok () s1) →
    let put (f : Shape → Shape) : State :=
      s1.onGath g.toNat fun q => { q with shapesNew := mapPut q.shapesNew c.toNat (f (q.shapeWritten c)) }
    exec (.shapeClassWrite g c true v) s = .next (put fun x => { x with high := v }) ∧
    ((field v 0 3).toNat < 6 →
      exec (.shapeClassWrite g c false v) s = .next (put fun x => { x with tgt := field v 0 3 }))) ∧
  (∀ (s : State) (g : BitVec 3) (v : Word),
    field v 0 13 ≠ 0 →
    exec (.gdepthWrite g v) s = .next (s.onGath g.toNat fun q =>
      { q with depth := if 4096 < (field v 0 13).toNat then 4096 else field v 0 13 })) ∧
  (∀ (s t : State), swatch s = .ok () t →
    (s.host.swPer + 400000 ≤ s.cycle → exec .swatchPeriodic s = .next (t.onHost fun h => { h with swPer := t.cycle })) ∧
    (s.host.swDue = true → s.host.swLast + 40000 ≤ s.cycle → exec .swatchTriggered s = .next t)) ∧
  (∀ (s s1 : State) (d : List Byte), unitRead 0 (256 * s.host.swDesc.toNat) 256 s = .ok d s1 →
    swatch s = .ok () (s1.onHost fun h =>
      { h with swOut := h.swOut ++ (swatchMessages s).map fun m => (s.host.swPort, d, m)
               sseq := h.sseq + 1, swLast := s1.cycle, swDue := false }))

/-! ## Events of the weight store and the change tree -/

/-- R146, R159 to R161: a lock whose checks pass waits for engine 0, which binds the node and gives the WID its count; an unlock
frees the binding and takes the WID's views from the Gatherers; a command of a reserved OP fails with code 6.
R137, R139 to R143, R393: a change raises its patch's count by one and starts a delta at the leaf, which each roll-up engine adds
to its node's count and forwards to the node's parent; PT_CAP holds at most 16; RERR is cleared by writing a one.
The model's choices here, no words of the spec: that a count notice reaches every Gatherer in the step that raises the count (log 142,
DESIGN CHOICE), and that the weight store's records are those of panel 0 (log 135, DESIGN CHOICE). -/
def Obligations.WeightAndTreeEvents : Prop :=
  ((∀ (s s1 s2 : State) (i : BitVec 12) (d : Nat),
     s.ws.busy = false → (s.wid i.toNat).locked = false → wsNode (s.wid i.toNat).node s = .ok (some d) s1 →
     wsBound d s1 = .ok false s2 → s2.widFree i.toNat = true → (s.wid i.toNat).extentOk = true →
     exec (.wlock i) s = .next ({ s2 with ws := { s2.ws with busy := true, pending := some i } }.undrainAt unitWeights)) ∧
   (∀ (s s1 s2 s2' s3 s4 : State) (i : BitVec 12) (n : Nat) (w c : Word),
     s.ws.pending = some i → (s.rollup 0).en = true → wsNode (s.wid i.toNat).node s = .ok (some n) s1 →
     nodeWord n 1 s1 = .ok w s2 → ndWlk w = false → settle n s2 = .ok () s2' →
     nodePut 0 n 1 (w ||| maskIf true 60 1) s2' = .ok () s3 → nodeWord n 0 s3 = .ok c s4 →
     ∃ t, exec .widBinding s = .next t ∧ t.ws.busy = false ∧ t.ws.pending = none ∧ t.ws.err = 0 ∧
       t.wid i.toNat = { s.wid i.toNat with regCount := c, locked := true } ∧ (∀ e ∈ t.mem.const, 4 ≤ e.1 / 2 ^ 50) ∧ t.host.swDue = true ∧
       ∀ g, g < 8 → (vget t.gath g).views.head? = some ((s.wid i.toNat).wid, c)) ∧
   (∀ (s s1 : State) (i : BitVec 12),
     s.ws.busy = false → (s.wid i.toNat).locked = true → wsNode (s.wid i.toNat).node s = .ok none s1 →
     ∃ t, exec (.wunlock i) s = .next t ∧ t.wid i.toNat = { s.wid i.toNat with locked := false } ∧ t.ws.err = 0 ∧
       t.host.swDue = true ∧ ∀ g, g < 8 → ∀ e ∈ (vget t.gath g).views, e.1 ≠ (s.wid i.toNat).wid) ∧
   (∀ (s s1 s2 s3 : State) (i : BitVec 12) (n : Nat) (w : Word),
     s.ws.busy = false → (s.wid i.toNat).locked = true → wsNode (s.wid i.toNat).node s = .ok (some n) s1 →
     nodeWord n 1 s1 = .ok w s2 → nodePut 0 n 1 (w &&& ~~~(maskIf true 60 1)) s2 = .ok () s3 →
     ∃ t, exec (.wunlock i) s = .next t ∧ t.wid i.toNat = { s.wid i.toNat with locked := false } ∧ t.mem = (s3.undrainAt unitWeights).mem) ∧
   (∀ (s t : State) (op : BitVec 2) (i : BitVec 12),
     s.ws.busy = false → op ≠ 1 → op ≠ 2 →
     appendTo 0 0 (memRec 0 0x04 0 (i.setWidth 64) 6)
       { s with ws := { s.ws with err := 6, busy := false, pending := none } } = .ok () t →
     exec (.wscmdReservedOp op i) s = .next t)) ∧
  ((∀ (s s1 s2 : State) (k x leaf : Nat) (r : Patch) (n : Word),
     s.tree.changes[k]? = some x → mapGet s.tree.patches x = some r → (s.rollup (patchPanel x)).en = true →
     patchRecord x r { s with tree := { s.tree with changes := listDrop s.tree.changes k } } = .ok (some (leaf, n)) s1 →
     patchPut x (s1.patchAt x r + 8) (bytesOfW 8 (n + 1)) s1 = .ok () s2 →
     exec (.patchChange k) s = .next ((s2.addDelta leaf).undrainAt (unitTree (patchPanel x)))) ∧
   (∀ (s s1 : State) (k x : Nat) (r : Patch),
     s.tree.changes[k]? = some x → mapGet s.tree.patches x = some r → (s.rollup (patchPanel x)).en = true →
     patchRecord x r { s with tree := { s.tree with changes := listDrop s.tree.changes k } } = .ok none s1 →
     exec (.patchChange k) s = .next (s1.undrainAt (unitTree (patchPanel x)))) ∧
   (∀ (s : State) (k x : Nat),
     s.tree.changes[k]? = some x → mapGet s.tree.patches x = none →
     exec (.patchChange k) s = .next { s with tree := { s.tree with changes := listDrop s.tree.changes k } }) ∧
   (∀ (s s1 s2 s3 : State) (k : Nat) (d : Delta) (c w : Word),
     s.tree.deltas[k]? = some d → (s.rollup (s.nodeEngine d.node.toNat)).en = true → s.deltaHeld d = false →
     let n := d.node.toNat
     nodeWord n 0 { s with tree := { s.tree with deltas := listDrop s.tree.deltas k } } = .ok c s1 →
     nodeWord n 1 s1 = .ok w s2 → nodePut (s2.nodeEngine n) n 0 (c + BitVec.ofNat 64 d.amount) s2 = .ok () s3 →
     let v := s3.pmPanel (s3.nodeEngine n) 0x106 1
     let u := if ndWlk w then v.noteCount n (c + BitVec.ofNat 64 d.amount) else v
     let up : Delta := { d with node := field w 0 24, engine := u.nodeEngine (ndParent w) }
     exec (.deltaApply k) s = .next
       ((if d.rise = true ∧ ndParent w ≠ noNode then { u with tree := { u.tree with deltas := u.tree.deltas ++ [up] } } else u).undrainAt
         (unitTree (s.nodeEngine n)))) ∧
   (∀ (s : State) (p : BitVec 2) (v : Word),
     ∃ t, exec (.ptcapWrite p v) s = .next t ∧
       (vget t.tree.engines p.toNat).ptLog.toNat = min 16 (field v 0 5).toNat ∧
       ∀ q, q < 4 → q ≠ p.toNat → vget t.tree.engines q = vget s.tree.engines q) ∧
   (∀ (s : State) (p : BitVec 2) (v : Word),
     ∃ t, exec (.rerrClear p v) s = .next t ∧
       (vget t.tree.engines p.toNat).err = ((s.rollup p.toNat).err && !(bit v 63)) ∧
       ∀ q, q < 4 → q ≠ p.toNat → vget t.tree.engines q = vget s.tree.engines q))


/-! ## Events of the memory side -/

/-- R119 to R122, R128, R129, R149, R154, R379, R382: a fill brings a missed line home; an entry is read again, and goes where its
page table entry no longer holds it or cannot be read, or once it is dead; a line that its slice may choose is evicted: to the
victim cache or into flight, or dropped where its victim cache holds an entry of that frame and key already, or the frame holds other
bytes; a write-back in flight lands, and a dirty victim line is written to HBM.
The model's choices here, no words of the spec: where a clean line that is evicted goes and when it is dropped (log 83, DEDUCED), and
which line a full victim cache gives up (log 84, DESIGN CHOICE). -/
def Obligations.LineEvents : Prop :=
  (∀ (s t : State) (p : BitVec 2) (o : Tag) (l : BitVec 50),
    regionOf (l.toNat * 64) ≤ 1 → p.toNat = homePanel l.toNat → needLine l.toNat 3 o 0 s = .ok () t →
    exec (.l2Fill p o l) s = .next t) ∧
  (∀ (s t : State) (p : BitVec 2) (o : Tag) (l : BitVec 50) (b : List Byte),
    regionOf (l.toNat * 64) ≤ 1 → p.toNat ≠ homePanel l.toNat → readLine p.toNat o (l.toNat * 64) 64 0 s = .ok b t →
    exec (.l2Fill p o l) s = .next t) ∧
  (∀ (s s1 : State) (c : BitVec 3) (k : Nat) (e : TcEntry),
    (vget s.mem.ctls c.toNat).tc[k]? = some e → e.bad = false → e.reread = true →
    ptOpen (e.page * 2 ^ pageBits e.size.toNat) e.pte (s.pmPanel (c.toNat / 2) 0x104 1) = .ok () s1 →
    let u := s1.markPte c.toNat e.pte 54
    let w := u.ptWord e.pte
    let stamp := u.ftOf (homePanel (e.pte / 64))
    let e1 := { e with frame := field w 16 29, key := field w 46 8, w := pteW w, d := pteD w, lease := field w 58 4, stamp := stamp, reread := false, bad := false }
    let keep := pteV w = true ∧ pteDrain w = false ∧ pteLease w ≠ 0 ∧ pteSize w = e.size.toNat ∧ field w 0 16 = 0
    exec (.leaseReread c k) s = .next (u.onCtl c.toNat fun q =>
      { q with tc := if keep then listSet q.tc k e1 else listDrop q.tc k })) ∧
  (∀ (s s1 : State) (f : Flt) (c : BitVec 3) (k : Nat) (e : TcEntry),
    (vget s.mem.ctls c.toNat).tc[k]? = some e → e.bad = false → e.reread = true →
    ptOpen (e.page * 2 ^ pageBits e.size.toNat) e.pte (s.pmPanel (c.toNat / 2) 0x104 1) = .error (.fault f) s1 →
    exec (.leaseReread c k) s = .next (s1.onCtl c.toNat fun q => { q with tc := listDrop q.tc k })) ∧
  (∀ (s : State) (c : BitVec 3) (k : Nat) (e : TcEntry),
    (vget s.mem.ctls c.toNat).tc[k]? = some e →
    exec (.tcEntryExpiry c k) s = .next
      (if e.live (s.ftOf (c.toNat / 2)) = true ∧ e.bad = false then s else s.onCtl c.toNat fun q => { q with tc := listDrop q.tc k })) ∧
  (∀ (s : State) (p : BitVec 2) (l : BitVec 50) (r : Replica),
    p.toNat ≠ homePanel l.toNat → mapGet s.mem.replicas (replicaKey p.toNat l.toNat) = some r → r.err = 0 →
    exec (.l2Eviction p (.line l)) s = .next
      (if s.mayChoose p.toNat (64 * p.toNat + sliceOfLine l.toNat % 64) (Config.l2Set false l.toNat) r.owner then
        s.onMem fun m => { m with replicas := mapDel m.replicas (replicaKey p.toNat l.toNat) }
      else s)) ∧
  (∀ (s : State) (p : BitVec 2) (l : BitVec 50) (x : Line),
    p.toNat = homePanel l.toNat → s.line? l.toNat = some x →
    let n := l.toNat
    (s.mayChoose p.toNat (sliceOfLine n) (Config.l2Set false n) x.owner = false → exec (.l2Eviction p (.line l)) s = .next s) ∧
    (s.mayChoose p.toNat (sliceOfLine n) (Config.l2Set false n) x.owner = true → x.failed = false → x.err = 0 →
      (x.dirty = true → s.draining n = false →
        let b : WriteBack := { line := n, data := s.lineData n, key := x.key, owner := x.owner }
        exec (.l2Eviction p (.line l)) s = .next ((s.onMem fun m => { m with writebacks := m.writebacks ++ [b] }).dropLine n)) ∧
      (x.dirty = true → s.draining n = true → exec (.l2Eviction p (.line l)) s = .next s) ∧
      (∀ u y, x.dirty = false → xlatBack n s = .ok (some y) u → y.phys < 2 ^ 39 →
        (mapGet u.mem.victims (victimKey (y.phys / 64) x.key.toNat) = none →
          u.hbmLine (y.phys / 64) x.key.toNat = u.lineData n → u.victimFull (y.phys / 64) x.key.toNat = false →
          exec (.l2Eviction p (.line l)) s = .next ((u.toVictim y.phys x.key x.owner false (u.lineData n)).dropLine n)) ∧
        (mapGet u.mem.victims (victimKey (y.phys / 64) x.key.toNat) ≠ none ∨
            u.hbmLine (y.phys / 64) x.key.toNat ≠ u.lineData n →
          exec (.l2Eviction p (.line l)) s = .next (u.dropLine n))))) ∧
  (∀ (s : State) (p : BitVec 2) (l : BitVec 50) (x : PtLine),
    p.toNat = homePanel l.toNat → mapGet s.mem.pt l.toNat = some x → x.failed = false → x.err = 0 →
    s.mayChoose p.toNat (sliceOfLine l.toNat) (Config.l2Set true l.toNat) 0 = true → s.victimFull l.toNat 0 = false →
    exec (.l2Eviction p (.table l)) s = .next (((if x.dirty = true then s.demand l.toNat else s).toVictim (l.toNat * 64) 0 0 x.dirty x.data).onMem fun m =>
      { m with pt := mapDel m.pt l.toNat })) ∧
  (∀ (s u v : State) (k : Nat) (b : WriteBack) (y : Xlat),
    s.mem.writebacks[k]? = some b →
    xlatBack b.line (s.onMem fun m => { m with writebacks := listDrop m.writebacks k }) = .ok (some y) u →
    (u.keyOf b.key.toNat).retired = false → y.phys < 2 ^ 39 → setDirty b.line y u = .ok () v →
    v.victimFull (y.phys / 64) b.key.toNat = false →
    exec (.writebackArrival k) s = .next ((v.demand (y.phys / 64)).toVictim y.phys b.key b.owner true b.data)) ∧
  (∀ (s u t : State) (k : Nat) (b : WriteBack),
    s.mem.writebacks[k]? = some b →
    xlatBack b.line (s.onMem fun m => { m with writebacks := listDrop m.writebacks k }) = .ok none u →
    appendFault (homePanel b.line) (memRec b.owner 0x12 (b.line * 64) 0 0)
      (u.onCtl (xlatCtl b.line) fun q => { q with disc := satInc q.disc }) = .ok () t →
    exec (.writebackArrival k) s = .next t) ∧
  (∀ (s : State) (c : BitVec 3) (l : BitVec 42) (k : Nat) (v : Victim),
    physCtl (l.toNat * 64) = c.toNat → s.hbmBusy c.toNat = false →
    (s.mem.victims.find? fun e => e.1 / 256 == l.toNat && e.2.err == 0) = some (k, v) →
    let u := if v.cor = true then s.onCtl c.toNat Ctl.corrected else s
    exec (.victimEviction c l) s = .next
      ((if v.dirty = true then u.setHbmLine l.toNat (k % 256) v.data else u).onMem fun m =>
        { m with victims := mapDel m.victims k }))

/-- R132, R152, R156, R157, R162, R168, R258, R386, R391, R392, R394: an update is applied once its clock conditions hold; a sleeping MONW
ends with 0 when woken and with 2 at its deadline; refreshes are paid and end; the scrubber reads, and writes back and counts what it
corrected; a skew of more than 16 ns empties every translation cache, and with it the expiries that lines hold (log 148); CCINV empties a constant cache. -/
def Obligations.MemorySideEvents : Prop :=
  (∀ (s : State) (p : BitVec 2) (k : Nat) (u : Update),
    s.mem.updates[k]? = some u → u.panel = p.toNat →
    vcAt (vget s.mem.clocks u.panel) u.src + 1 = vcAt u.stamp u.src →
    (∀ j, j < 4 → j ≠ u.src → vcAt u.stamp j ≤ vcAt (vget s.mem.clocks u.panel) j) →
    (∀ b ∈ s.mem.updates.take k, ¬ (b.panel = u.panel ∧ b.line = u.line)) →
    exec (.updateApply p k) s = .next (s.onMem fun m => { m with updates := listDrop m.updates k }.applyUpdate u)) ∧
  (∀ (s t : State) (c : CoreId) (m : Monitor),
    (s.core c).monitor = some m → m.woken = true →
    monwEnd c 0 (s.onMem fun q => q.catchUp (panelOf c) (s.stampOf m.line)) = .ok () t →
    exec (.monwWake c) s = .next t ∧ (t.core c).monitor = none) ∧
  (∀ (s t : State) (c : CoreId) (m : Monitor) (d : Nat),
    (s.core c).monitor = some m → m.woken = false → m.deadline = some d → d ≤ (s.ftOf (panelOf c)).toNat →
    monwEnd c 2 s = .ok () t →
    exec (.monwTimeout c) s = .next t ∧ (t.core c).monitor = none) ∧
  (∀ (s : State) (k : BitVec 3),
    let q := vget s.mem.ctls k.toNat
    q.refreshing = false → s.balNow q < 8 →
    exec (.refresh k) s = .next
      (s.onCtl k.toNat fun q => { s.balance q with bal := s.balNow q + 1, refreshing := true })) ∧
  (∀ (s : State) (k : BitVec 3),
    exec (.refreshEnd k) s = .next (s.onCtl k.toNat fun q => { q with refreshing := false })) ∧
  (∀ (s : State) (k : BitVec 3) (hot : Bool),
    exec (.stackTemperatureCrossing k hot) s = .next
      (s.onCtl k.toNat fun q => { s.balance q with hot := hot, dueAt := s.cycle })) ∧
  (∀ (s : State) (k : BitVec 3),
    let q := vget s.mem.ctls k.toNat
    let g := physOfStack k.toNat q.scrubPos.toNat / 64
    q.scrubEn = true → q.srate ≠ 0 → s.hbmBusy k.toNat = false → q.scrub = none → g ∉ s.mem.hbmUnc →
    exec (.scrubRead k) s = .next (s.onCtl k.toNat fun q =>
      if g ∈ s.mem.hbmCor then { q with scrubPos := q.scrubPos + 64, scrub := some (g, lineOf (bytesAt s.mem.hbm (g * 64) 64)) }
      else { q with scrubPos := q.scrubPos + 64 })) ∧
  (∀ (s : State) (k : BitVec 3) (g : Nat) (d : BitVec 512),
    (vget s.mem.ctls k.toNat).scrub = some (g, d) → s.hbmBusy k.toNat = false →
    exec (.scrubWriteback k) s = .next ((s.onMem fun m => { m with
      hbm := setBytes m.hbm (g * 64) (lineBytes d), hbmCor := m.hbmCor.filter (· ≠ g) }).onCtl k.toNat fun q =>
        { q with corr := satInc q.corr, scrub := none })) ∧
  (∀ (s : State) (k : BitVec 3),
    (s.ftOf (k.toNat / 2) - s.ft).toInt.natAbs ≤ 16 →
    ∃ t, exec (.skewCompare k) s = .next t ∧
      (vget t.mem.ctls k.toNat).skew = field (s.ftOf (k.toNat / 2) - s.ft) 0 16 ∧
      (vget t.mem.ctls k.toNat).good = (if (vget s.mem.ctls k.toNat).good = 3 then 3 else (vget s.mem.ctls k.toNat).good + 1)) ∧
  (∀ (s t : State) (k : BitVec 3),
    let d := s.ftOf (k.toNat / 2) - s.ft
    16 < d.toInt.natAbs →
    appendTo 0 (k.toNat / 2) (memRec 0 0x15 0 (k.setWidth 64) ((field d 0 16).setWidth 64))
      ((s.onCtl k.toNat fun q => { q with skew := field d 0 16 }).onMem fun m => { m with
        ctls := m.ctls.map fun q => { q with tc := [], uncached := true, good := 0 }
        lines := m.lines.map fun e => (e.1, { e.2 with exp := 0 }) }) = .ok () t →
    exec (.skewCompare k) s = .next t) ∧
  (∀ (s : State) (p : BitVec 2),
    exec (.ccinv p) s = .next (s.onMem fun m => { m with const := m.const.filter fun e => e.1 / 2 ^ 50 ≠ p.toNat }))

/-! ## Events of the host ports, of fabric time and of the links -/

/-- R176, R411: an RMA write that its region takes is performed and acknowledged, an RMA read answers with the bytes, and a send
takes the receive that firmware posted; an operation past its region's end answers code 2 and writes nothing.
The model's choices here, no words of the spec (log 103, DEDUCED): that a send uses up its receive, and that an operation past its
region's end is answered before the checks of codes 3 and 6 and without a wait for its place in the order of ROD. -/
def Obligations.PortOperations : Prop :=
  (∀ (s u : State) (p : BitVec 3) (c : Conn) (n off : Nat) (b : List Byte) (r : HostRegion),
    s.boot.stat = 0 → c ≠ .corrupt → c ≠ .unreliable → mapGet s.host.regions n = some r → off + b.length ≤ r.len →
    rmaBadField (r.base + off) b = false → (∀ q ∈ rmaTails (r.base + off) b, (s.sq q).en = true) →
    s.host.rodWaits p c = false → (∀ y ∈ s.host.rodQ, ¬ (y.port = p ∧ y.conn = c)) →
    attempt (rmaStore p c r.owner (r.base + off) b) s = .ok (.ok ()) u →
    exec (.uetRmaWrite p c n off b) s = .next ((if rmaTails (r.base + off) b = [] then
      u.onHost fun h => { h with replies := h.replies ++ [.ack p] } else u).undrainAt (unitPort p.toNat))) ∧
  (∀ (s : State) (p : BitVec 3) (g n off : Nat) (b : List Byte),
    let c := Conn.rod g
    let x : RodPacket := { port := p, conn := c, send := false, target := n, off := off, data := b }
    s.boot.stat = 0 → (∃ y ∈ s.host.rodQ, y.port = p ∧ y.conn = c) ∨ (∃ u, x.run s = .error .stall u) →
    exec (.uetRmaWrite p c n off b) s = .next (s.onHost fun h => { h with rodQ := h.rodQ ++ [x] })) ∧
  (∀ (s u : State) (p : BitVec 3) (c : Conn) (n off len : Nat) (b : List Byte) (r : HostRegion),
    s.boot.stat = 0 → c ≠ .corrupt → c ≠ .unreliable → mapGet s.host.regions n = some r → off + len ≤ r.len →
    attempt (unitLoad (portPanel p) (.unit r.owner) r.owner (r.base + off) len) s = .ok (.ok b) u →
    exec (.uetRmaRead p c n off len) s =
      .next ((u.onHost fun h => { h with replies := h.replies ++ [.data p b] }).undrainAt (unitPort p.toNat))) ∧
  (∀ (s u : State) (p : BitVec 3) (c : Conn) (n : Nat) (b : List Byte) (r : HostRegion),
    s.boot.stat = 0 → c ≠ .corrupt → c ≠ .unreliable → mapGet s.host.receives n = some r → b.length ≤ r.len →
    rmaBadField r.base b = false → (∀ q ∈ rmaTails r.base b, (s.sq q).en = true) →
    s.host.rodWaits p c = false → (∀ y ∈ s.host.rodQ, ¬ (y.port = p ∧ y.conn = c)) →
    attempt (rmaStore p c r.owner r.base b) s = .ok (.ok ()) u →
    exec (.uetSend p c n b) s = .next ((u.onHost fun h =>
      { h with receives := mapDel h.receives n
               replies := if rmaTails r.base b = [] then h.replies ++ [.ack p] else h.replies }).undrainAt (unitPort p.toNat))) ∧
  (∀ (s t : State) (p : BitVec 3) (c : Conn) (n off : Nat) (b : List Byte) (r : HostRegion),
    s.boot.stat = 0 → c ≠ .corrupt → c ≠ .unreliable → mapGet s.host.regions n = some r → r.len < off + b.length →
    (∀ y ∈ s.host.rodQ, ¬ (y.port = p ∧ y.conn = c)) →
    refuseUet p 2 (if off < r.len then r.base + off else 0) s = .ok () t →
    exec (.uetRmaWrite p c n off b) s = .next (t.undrainAt (unitPort p.toNat)) ∧
    exec (.uetRmaRead p c n off b.length) s = .next (t.undrainAt (unitPort p.toNat)))

/-- R188, R191: a PTP exchange on the configured port slews the root's master towards its partner's time, and steps it, with the
replicas, only in the boot, before EN is set in any translation block; a replica is corrected towards the master; time-sync
requests are sent, answered, and give the offset of the request that they answer.
The model's choices here, no words of the spec: the quarter of a nanosecond of a slew and the halving of a PTP round trip (log 108,
PRESUMED), and which end of a link is nearer the root (log 38, DESIGN CHOICE). -/
def Obligations.TimeEvents : Prop :=
  (∀ (s : State) (x : PtpTimes),
    exec (.ptpMessage x) s = .next
      (if s.boot.stat = 0 ∧ s.boot.timeRoot = true ∧ x.port = s.boot.ptpPort then
        s.slewMaster ((s.ftQ : Int) - 2 * ((x.t2 - x.t1) - (x.t4 - x.t3)).toInt).toNat
      else s)) ∧
  (∀ (s : State) (other : Nat),
    (s.slewMaster other).ftRep = s.ftRep ∧ ((s.slewMaster other).ft = s.ft ∨ (s.slewMaster other).ft = s.ft + 1) ∧
    (s.cycle < s.slewAt + 5000 → s.slewMaster other = s)) ∧
  (∀ s : State, s.skewOk s.ftQ = true →
    (∀ other, s.ft ≠ allOnes → (s.slewMaster other).skewOk (s.slewMaster other).ftQ = true) ∧
    (∀ p t, exec (.ftCorrection p) s = .next t → t.skewOk t.ftQ = true) ∧
    (∀ n, s.ftQ + n < 2 ^ 66 → (∀ p, p < 4 → s.repQ p + n < 2 ^ 66) → (s.advance n).skewOk (s.advance n).ftQ = true)) ∧
  (∀ (s : State) (b : BootInput) (w : Word),
    b.ptpTime = some w → bit (recWord b.config 2264) 8 = true →
    ∃ t, exec (.moduleReset b) s = .next t ∧
      (bootCode b = 0 → t.ft = w ∧ t.phase = 0 ∧ ∀ p, p < 4 → vget t.ftRep p = w)) ∧
  (∀ (s : State) (p : BitVec 2),
    ∃ t, exec (.ftCorrection p) s = .next t ∧ (t.ftOf p.toNat = s.ftOf p.toNat ∨ t.ftOf p.toNat = s.ftOf p.toNat + 1) ∧
      t.ft = s.ft ∧ ∀ q, q < 4 → q ≠ p.toNat → t.ftOf q = s.ftOf q) ∧
  (∀ (s : State) (l : BitVec 4),
    s.linkRoom l.toNat = true →
    exec (.timeSyncSend l) s = .next
      (s.sendFlit l.toNat (mkFlit 6 false 0 0 0 0 0 (s.ftOf (linkPanel l.toNat)) 0 0 []))) ∧
  (∀ (s s1 : State) (l : BitVec 4) (f : Flit),
    (s.link l.toNat).down = false → flGood f = true → flIs f 6 false = true → s1 = s.linkFeedback l.toNat f →
    s1.inOrder l.toNat f = true →
    let u := s1.onLink l.toNat fun k => { k with lastIn := flFseq f }
    let now := u.ftOf (linkPanel l.toNat)
    u.linkRoom l.toNat = true →
    exec (.timeSyncReceive l f) s = .next (u.sendFlit l.toNat (mkFlit 6 true 0 0 0 (flTag f) 0 f.a0 now now []))) ∧
  (∀ (s s1 : State) (l : BitVec 4) (f : Flit),
    (s.link l.toNat).down = false → flGood f = true → flIs f 6 true = true → s1 = s.linkFeedback l.toNat f →
    s1.inOrder l.toNat f = true →
    let off := ((f.a1 - f.a0) - (s1.ftOf (linkPanel l.toNat) - f.a2)).sshiftRight 1
    let u := s1.onLink l.toNat fun k => { k with lastIn := flFseq f, offset := off }
    exec (.timeSyncReceive l f) s = .next
      (if s1.boot.timeRoot = true ∨ Config.towardRoot l.toNat = false then u
       else u.slewMaster ((u.ftQ : Int) + 4 * off.toInt).toNat))

/-- R189, R190, R336, R404, R409: a packet in sequence with a good CRC that the device may perform is accepted, performed and answered: reads and
atomics reply with their data, writes go to memory, a signal becomes a remote addition at its target, a block's bytes reach
its core's buffer, a management flit writes its register and a reply is kept for its requester.
The model's choices here, no words of the spec: the depth of a receive buffer (log 95, DEDUCED), the file of registers that management
flits write (log 97, DESIGN CHOICE), what follows a dropped flit of a block (log 100, DEDUCED), the line at which a read starts (log 101,
DEDUCED) and the DST of a reply (log 102, PRESUMED). -/
def Obligations.LinkPackets : Prop :=
  (∀ (s s1 t : State) (l : BitVec 4) (f : Flit) (i : Instr) (act : M Unit),
    (s.link l.toNat).down = false → flGood f = true → s1 = s.linkFeedback l.toNat f → s1.inOrder l.toNat f = true →
    act (s1.onLink l.toNat fun k => { k with lastIn := flFseq f }) = .ok () t →
    ((i = .linkRead l f ∧ flIs f 1 false = true ∧ act = (do
        let n := 64 * ((field f.a0 0 2).toNat + 1)
        let la := flAddr f / 64 * 64
        if ← linkAllowed l.toNat (flOwner f) la n 1 then
          let b ← linkTry l.toNat f (unitLoad (linkPanel l.toNat) (.unit (flOwner f)) (flOwner f) la n)
          linkAnswer l.toNat 1 f (b.getD [])
        else
          linkReject l (flOwner f) f.h0 false
          linkAnswer l.toNat 1 f [])) ∨
     (i = .linkWrite l f ∧ flIs f 2 (flRsp f) = true ∧ act = (do
        if ← linkAllowed l.toNat (flOwner f) (flAddr f) (flBytes f) 2 then
          let _ ← linkTry l.toNat f ((flRuns f (if regionOf (flAddr f) ≤ 1 then 64 else 8)).forM fun r =>
            unitStore (linkPanel l.toNat) (.unit (flOwner f)) (flOwner f) r.1 r.2)
          pure ()
        else linkReject l (flOwner f) f.h0)) ∨
     (i = .linkAtomic l f ∧ flIs f 3 false = true ∧ act = (do
        let op := (field f.a0 0 8).toNat
        let size := (field f.a0 8 3).toNat
        let may ← linkAllowed l.toNat (flOwner f) (flAddr f) (2 ^ size) 3
        if may && linkAtomicOk op size && flAddr f % (if op = 0x21 then 16 else 2 ^ size) == 0 &&
            decide (regionOf (flAddr f) ≤ 1) then
          let old ← linkTry l.toNat f (linkAtomicOp (linkPanel l.toNat) (flOwner f) op (2 ^ size) (flAddr f) f.a1 f.a2)
          linkAnswer l.toNat 3 f ((old.map (bytesOfNat 8)).getD [])
        else
          linkReject l (flOwner f) f.h0 false
          linkAnswer l.toNat 3 f []))) →
    exec i s = .next t) ∧
  (∀ (s s1 : State) (l : BitVec 4) (f : Flit),
    (s.link l.toNat).down = false → flGood f = true → flIs f 4 (flRsp f) = true → s1 = s.linkFeedback l.toNat f →
    s1.inOrder l.toNat f = true →
    let u := s1.onLink l.toNat fun k => { k with lastIn := flFseq f }
    let h : Held := { sender := flSrc f, strm := .a, v := field f.a0 0 6, amount := field f.a0 16 16, clock := u.vc (linkPanel l.toNat), pass := 0, rword := 0, word := f.h0, abs := 0, entry := none, link := some l }
    exec (.linkSignal l f) s = .next
      { u with remotes := u.remotes ++ [{ held := h, target := flDst f, owner := flOwner f }] }) ∧
  (∀ (s s1 : State) (l : BitVec 4) (f : Flit) (now : List Block),
    (s.link l.toNat).down = false → flGood f = true → flIs f 5 (flRsp f) = true → s1 = s.linkFeedback l.toNat f →
    s1.inOrder l.toNat f = true →
    let c := flDst f
    let u := s1.onLink l.toNat fun k => { k with lastIn := flFseq f }
    (u.core c).loaded = true → (u.core c).ctx = flOwner f → vget u.power.cluster (clusterOf c) ≠ 2 →
    addPart (flOwner f) (field f.a0 32 32) (field f.a0 0 12) (192 * f.a1.toNat) ((flBody f).take (flBytes f))
      (closeParts f.a1.toNat ((u.core c).linkBlocks l.toNat)) = some now → now.length ≤ 64 →
    exec (.linkSchedBlock l f) s = .next
      ((u.onCore c fun k => { k with recv := mapPut k.recv l.toNat now }).wakeCluster (clusterOf c))) ∧
  (∀ (s s1 : State) (l : BitVec 4) (f : Flit),
    (s.link l.toNat).down = false → flGood f = true → flIs f 7 (flRsp f) = true → s1 = s.linkFeedback l.toNat f →
    s1.inOrder l.toNat f = true →
    exec (.linkManagement l f) s = .next (s1.onLink l.toNat fun k =>
      { k with lastIn := flFseq f, mgmt := mapPut k.mgmt f.a0.toNat f.a1 })) ∧
  (∀ (s s1 : State) (l : BitVec 4) (f : Flit),
    (s.link l.toNat).down = false → flGood f = true → (flIs f 1 true = true ∨ flIs f 3 true = true) → s1 = s.linkFeedback l.toNat f →
    s1.inOrder l.toNat f = true →
    exec (.linkReply l f) s = .next (s1.onLink l.toNat fun k =>
      { k with lastIn := flFseq f, replies := k.replies ++ [f] }))

/-- R190, R192, R409, R410: a corrupt flit is discarded with a NAK; one with a reserved bit is counted and reported; a NAK makes its
receiver send again; idle flits acknowledge; a flit that has waited 100 µs or had 16 resends takes its link down; a link that
retrains resends from the partner's ACKSEQ; DISCARD drops what it holds; CLSEND's flits go out from their slot
on, seven of the link's flits in a slot.
The model's choices here, no words of the spec: that idle flits take no place in the sequence (log 33, DEDUCED), what DISCARD reports
(log 98, DEDUCED), and the sequence and resend count after DISCARD and after a retrain (log 161, DESIGN CHOICE). -/
def Obligations.LinkControl : Prop :=
  (∀ (s : State) (l : BitVec 4),
    (s.link l.toNat).down = false → exec (.linkFlitCorrupt l) s = .next (s.sendIdle l.toNat true)) ∧
  (∀ (s : State) (l : BitVec 4) (f : Flit),
    (s.link l.toNat).down = false → flGood f = false →
    exec (.linkManagement l f) s = .next (if flIs f 7 (flRsp f) then s.sendIdle l.toNat true else s) ∧
    exec (.linkSignal l f) s = .next (if flIs f 4 (flRsp f) then s.sendIdle l.toNat true else s)) ∧
  (∀ (s s1 t : State) (l : BitVec 4) (f : Flit),
    (s.link l.toNat).down = false → flGood f = true → flReserved f = true → s1 = s.linkFeedback l.toNat f → s1.inOrder l.toNat f = true →
    linkReject l 0 f.h0 true (s1.onLink l.toNat fun k => { k with lastIn := flFseq f }) = .ok () t →
    exec (.linkFlitReserved l f) s = .next t) ∧
  (∀ (s : State) (l : BitVec 4) (f : Flit),
    (s.link l.toNat).down = false → flGood f = false →
    (flType f = 0 → exec (.idleFlit l f) s = .next (s.sendIdle l.toNat true)) ∧
    (flNak f = true → flReserved f = false → exec (.linkNak l f) s = .next (s.sendIdle l.toNat true))) ∧
  (∀ (s t : State) (l : BitVec 4) (f : Flit),
    (s.link l.toNat).down = false → flGood f = true → flType f = 0 → flReserved f = true →
    linkReject l 0 f.h0 true s = .ok () t → exec (.idleFlit l f) s = .next t) ∧
  (∀ (s : State) (l : BitVec 4) (f : Flit),
    (s.link l.toNat).down = false → flGood f = true → flNak f = true → flReserved f = false →
    exec (.linkNak l f) s = .next ((s.linkAck l.toNat (flAckseq f)).resend l.toNat)) ∧
  (∀ (s : State) (l : BitVec 4) (f : Flit),
    (s.link l.toNat).down = false → flGood f = true → flType f = 0 → flReserved f = false →
    exec (.idleFlit l f) s = .next (s.linkFeedback l.toNat f)) ∧
  (∀ (s t : State) (l : BitVec 4) (u : Sent),
    let k := s.link l.toNat
    k.down = false → u ∈ k.unacked → (16 ≤ u.resends ∨ u.at0 + 400000 ≤ s.cycle) →
    ((((0 : Tag) :: k.unacked.map fun u => flOwner u.flit).eraseDups).forM (fun o =>
      appendFault (linkPanel l.toNat) { memRec o 0x31 0 (l.setWidth 64) (k.lastAck.setWidth 64) with unit := 7 }) : M Unit)
      (s.onLink l.toNat fun k => { k with down := true, pend := [] }) = .ok () t →
    exec (.linkDown l) s = .next t) ∧
  (∀ (s : State) (l : BitVec 4) (a : BitVec 16),
    let s1 := (s.onLink l.toNat fun k => { k with down := false }).linkAck l.toNat a
    s.boot.stat = 0 → (s.link l.toNat).down = true → (s.link l.toNat).discard = false → (s1.link l.toNat).unacked ≠ [] →
    exec (.linkRetrain l true a) s = .next ((s1.onLink l.toNat fun k =>
      { k with unacked := k.unacked.map fun u => { u with resends := 0, at0 := s.cycle } }).emit l.toNat
        ((s1.link l.toNat).unacked.map (·.flit)))) ∧
  (∀ (s : State) (l : BitVec 4) (fs : List Flit),
    let k := s.link l.toNat
    let n := min (7 - s.slotLoad l.toNat) (k.pend ++ fs).length
    let q := (s.emit l.toNat fs).link l.toNat
    q.out = k.out ++ (k.pend ++ fs).take n ∧ q.pend = (k.pend ++ fs).drop n ∧ q.unacked = k.unacked) ∧
  (∀ (s : State) (l : BitVec 4),
    ∃ t, exec (.linkDiscard l) s = .next t ∧
      t.link l.toNat = { s.link l.toNat with discard := true, unacked := [], pend := [], sends := [], outgoing := [], fseq := (s.link l.toNat).lastAck + 1 }) ∧
  (∀ (s : State) (l : BitVec 4) (x : Outgoing) (xs : List Outgoing) (n : Nat),
    let k := s.link l.toNat
    k.outgoing = x :: xs → n = min (min (7 - s.slotLoad l.toNat) x.flits.length) (64 - k.unacked.length) → n ≠ 0 →
    k.down = false → k.pend = [] → 8 * x.slot ≤ (s.ftOf (linkPanel l.toNat)).toNat →
    let u := (x.flits.take n).foldl (fun s f =>
      (s.onLink l.toNat fun q => { q with sends := q.sends ++ [(q.fseq, x.core, x.abs)] }).sendFlit l.toNat f) s
    let y := { x with flits := x.flits.drop n }
    exec (.clsendTransmit l) s = .next (u.onLink l.toNat fun q =>
      { q with outgoing := if y.flits = [] then xs else y :: xs }))

/-! ## Events of power and of reset -/

/-- R193 to R201, R412: a cluster all of whose streams have been idle retains, and runs again once one of them is no longer stalled;
P2 loses the contents of its cores and its Gatherer but for the away entries, SIGDROP and SCNTV, and one that may not be entered wakes the cluster; the limiter's level is 7 while a die is
hot; LIMIT holds at most 3,000; a select write clears its count; module reset boots from the state of reset, and a key that
cannot be read stops it with code 7.
The model's choices here, no words of the spec: when a core counts as idle and when P1 is left (log 106, DEDUCED), what P2 leaves free
(log 107, DEDUCED), and what a module reset keeps of the model's own fields (log 125, DEDUCED). -/
def Obligations.PowerAndBoot : Prop :=
  (∀ (s : State) (c : BitVec 3),
    vget s.power.cluster c.toNat = 0 → s.power.idle ≠ 0 → (∀ d ∈ s.coresOf c.toNat, s.coreIdle d = true) →
    exec (.p1Entry c) s = .next (s.setCluster c.toNat 1)) ∧
  (∀ (s : State) (c : BitVec 3),
    vget s.power.cluster c.toNat = 1 →
    exec (.p1Exit c) s = .next
      (if (s.coresOf c.toNat).all s.coreStalled then s else s.setCluster c.toNat 0)) ∧
  (∀ (s : State) (c : BitVec 3),
    ((vget s.gath c.toNat).en = true ∨ ∃ d ∈ s.coresOf c.toNat, (s.core d).loaded = true) →
    exec (.p2Enter c) s = .next (if vget s.power.cluster c.toNat = 1 then s.setCluster c.toNat 0 else s)) ∧
  (∀ (s : State) (c : BitVec 3),
    (vget s.gath c.toNat).en = false → (∀ d ∈ s.coresOf c.toNat, (s.core d).loaded = false) →
    ∃ t, exec (.p2Enter c) s = .next t ∧ vget t.power.cluster c.toNat = 2 ∧
      (∀ d : CoreId, clusterOf d ≠ c.toNat → t.core d = s.core d) ∧
      (∀ d : CoreId, clusterOf d = c.toNat → (t.core d).away = (s.core d).away ∧ (t.core d).sigDrop = (s.core d).sigDrop ∧
        (t.core d).scnt = s.scntNow (s.core d) ∧ (t.core d).loaded = false) ∧
      (vget t.gath c.toNat).bins = [] ∧ (vget t.gath c.toNat).held = [] ∧ (vget t.gath c.toNat).input = [] ∧
      ∀ g, g < 8 → g ≠ c.toNat → vget t.gath g = vget s.gath g) ∧
  (∀ (s : State) (c : BitVec 3),
    exec (.p2Exit c) s = .next (if vget s.power.cluster c.toNat = 0 then s else s.setCluster c.toNat 0)) ∧
  (∀ (s : State) (w : BitVec 16),
    let n := if s.power.hot ≠ 0 then 7 else Config.throttleLevel s.power.level w s.power.limit
    exec (.throttleUpdate w) s = .next { s with power := { s.power with watts := w, level := n } }) ∧
  (∀ s : State, exec .thermalLimit s = .next { s with power := { s.power with hot := s.power.hot + 1, level := 7 } }) ∧
  (∀ s : State, exec .thermalRelease s = .next { s with power := { s.power with hot := s.power.hot - 1 } }) ∧
  (∀ (s : State) (v : Word),
    ∃ n : BitVec 16, exec (.plimitWrite v) s = .next { s with power := { s.power with limit := n } } ∧
      n.toNat = min 3000 (v.toNat % 2 ^ 16)) ∧
  (∀ (s : State) (p : BitVec 2) (j : BitVec 5) (v : Word),
    let key := 32 * p.toNat + j.toNat
    let w := { s.power with pmSel := mapPut s.power.pmSel key (field v 0 16), pmCnt := mapPut s.power.pmCnt key 0 }
    exec (.pmSelectWrite p j v) s = .next { s with power := w }) ∧
  (∀ (s : State) (b : BootInput),
    let s0 := { State.reset with agenda := s.agenda, turnNo := s.turnNo, free := s.free, cur := s.cur }
    exec (.moduleReset b) s = .next (if bootCode b = 0 then bootedState s0 b else failedState s0 b (bootCode b))) ∧
  (∀ (s : State) (b : BootInput),
    b.keyOk = false →
    ∃ t, exec (.moduleReset b) s = .next t ∧ t.boot.stat = 7 ∧ t.boot.harts = 0 ∧ (∀ i, i < 4 → vget t.boot.mreg i = 0) ∧
      ∀ l, l < 16 → (t.link l).down = true)

/-! ## Steps -/

namespace Sys2Proof.Machine

/-- The time before a turn passes at once: no test that a stalled stream presents comes in it (R62). -/
def State.mayPass (s : State) (u : Turn) : Prop :=
  s.cyclesBefore u = 0 ∨ (s.dueTest = none ∧ (s.cyclesBefore u = 1 ∨ s.nextTest = false))

end Sys2Proof.Machine

/-- R59, R62, R65, R163, R365, R368, R369: a step is the turn it takes, once its time has passed. A stream that may issue, that no unit
before it outranks, and that has a word at its head runs exactly the instruction the decoder reads from the word; an unassigned
opcode, a reserved bit and a word that failed the check of its fetch fault; an event acts in its own turn. Before time passes, a
stalled stream whose wait test passes by then takes its turn, and no more than one cycle passes where such a test passes in the next. -/
def Obligations.StepRunsTheWord : Prop :=
  (∀ (s s0 s1 : State) (u : Turn) (c : CoreId) (t : Strm) (w : Word),
    s.nextTurn = (u, s0) → u.actor = .stream c t → s0.mayPass u → passTime (s0.cyclesBefore u) s0 = .ok () s1 →
    let s2 := { s1 with lineOps := u.lines }
    s2.outranked c t = none →
    let s3 := s2.reach (s2.turnPlace u.actor)
    let s4 := { s3 with cur := c }
    let k := s4.core c
    k.dead = false → vget s4.power.cluster (c.toNat / 128) = 0 →
    (t = .a → s4.budgetDue k = false ∧ k.preemptDue = false) →
    (k.late = true ∨ s4.streamLate k t = false) →
    (k.stall = false ∨ (t = .a ∧ k.priv = true)) → k.haltedAt t = false →
    k.headOf t = some w →
    (k.headLost t = none → step s = s3.noteStall c t (match decodeWord t w with
      | .word i m => if m = 0 then exec i s4 else .next (s4.reservedFault t i w m)
      | .illegal => exec (.illegalWord t w) s4)) ∧
    (∀ off, k.headLost t = some off → step s = s3.noteStall c t (.next (s4.decodeStop t w
      { cls := 0x30, laddr := 0, d0 := 1, d1 := w64 (off / 4096 * 256 + off % 4096 / 64) })))) ∧
  (∀ (s : State) (c : CoreId) (t : Strm) (u : State),
    ∃ v, s.noteStall c t (.next u) = .next (u.onCore c fun k => { k with stalled := v })) ∧
  (∀ (s s0 s1 : State) (u : Turn) (e : Instr),
    s.nextTurn = (u, s0) → u.actor = .event e → s0.mayPass u → passTime (s0.cyclesBefore u) s0 = .ok () s1 →
    let s2 := { s1 with lineOps := u.lines }
    (∀ c t k, e = .wordCompletion c t k → s2.ahead c t none (s2.faults (exec e s2)) = none) →
    step s = if streamOnly e then .next s2 else exec e (s2.reach (s2.turnPlace u.actor))) ∧
  (∀ (s s0 : State) (u : Turn) (c : CoreId) (t : Strm),
    s.nextTurn = (u, s0) → s0.cyclesBefore u ≠ 0 → s0.dueTest = some (c, t) →
    step s = takeStream c t { s0 with agenda := { u with cycles := s0.cyclesBefore u } :: s0.agenda, lineOps := u.lines }) ∧
  (∀ (s s0 s1 : State) (u : Turn),
    s.nextTurn = (u, s0) → 2 ≤ s0.cyclesBefore u → s0.dueTest = none → s0.nextTest = true → passTime 1 s0 = .ok () s1 →
    step s = .next { s1 with agenda := { u with cycles := s0.cyclesBefore u - 1 } :: s1.agenda }) ∧
  (∀ (s : State) (u : Turn) (us : List Turn), s.agenda = u :: us → s.nextTurn = (u, { s with agenda := us }))

/-- R212, R215, R217 and the examples of spec 13 to 18: words written out from the encodings decode to their instructions. -/
def Obligations.SampleWords : Prop :=
  decodeWord .a 0x0000043100000001 = .word (.aAddi { wait := .none, sig := .none } { d := 6, s1 := 4, imm := 1 }) 0 ∧
  decodeWord .a 0x4900000000000000 = .word (.aNop { wait := .one 9, sig := .none }) 0 ∧
  decodeWord .a 0x0045000000000000 = .word (.aNop { wait := .none, sig := .one 5 }) 0 ∧
  decodeWord .a 0x0000600000000002 = .word (.sysc { wait := .none, sig := .none } 2) 0 ∧
  decodeWord .a 0x0000112158000008 =
    .word (.sts { wait := .none, sig := .none } { reg := 4, base := 5, size := 3, sx := false, off := 8 }) 0 ∧
  decodeWord .x 0x000006214C000000 = .word (.mul { wait := .none, sig := .none } { d := 4, s1 := 5, s2 := 6 }) 0 ∧
  decodeWord .x 0x000030103FFFFFFC =
    .word (.brp { wait := .none, sig := .none } { p := 2, neg := false, off := 0x3FFFFFFC }) 0 ∧
  decodeWord .m 0x0000012C101F8FD0 = .word (.mDset { wait := .none, sig := .none } { d := 2, q := 3, value := 0x101F8FD0 }) 0 ∧
  decodeWord .c 0x0000100100000000 =
    .word (.ccopy { wait := .none, sig := .none } { d0 := 0, d1 := 1, pass := none, sat := false, rnd := 0 }) 0 ∧
  decodeWord .a 0x0000700000000000 = .illegal

/-- R56 to R58, R212, R215: every well-formed stream word that is written from its instruction decodes on its stream to that
instruction, with no reserved bit set. -/
def Obligations.EncodeThenDecode : Prop :=
  ∀ (i : Instr) (t : Strm) (h : Hdr), i.hdr? = some (t, h) → i.WellFormed → decodeWord t (encodeWord i) = .word i 0

/-- The canonical form of every memory holds at reset. -/
def Obligations.ResetIsCanonical : Prop :=
  State.reset.canonical = true

/-- Every step keeps the canonical form of every memory: HBM, L2, the SRAM of the firmware complex, and every core's scratchpad,
side stores and accumulators. -/
def Obligations.StepKeepsCanonical : Prop :=
  ∀ s s' : State, s.canonical = true → step s = .next s' → s'.canonical = true

/-- R6, R37, R40, R60, R69, R83, R107, R115, R134, R178, R199, R360: what reset leaves, as the field maps give it: every flag 0
under the highest ceiling, NUM 64 and BASE 0, SR_SEED 1, every owner bit 0, PRIV 0, and the registers of the units. -/
def Obligations.ResetValues : Prop :=
  (∀ c : CoreId,
    let k := State.reset.core c
    (∀ i, i < 64 → vget k.flags i = { ceil := 0xFFFF, incr := 1, thresh := 1, count := 0 }) ∧ k.flagNum = 64 ∧
    k.flagBase = 0 ∧ k.ctx = 0 ∧ k.priv = false ∧ k.round = 0 ∧ k.srSeed = 1 ∧ k.excCause = 0 ∧ k.excWord = 0 ∧
    k.excAddr = 0 ∧ k.excRet = 0 ∧ (∀ i, i < 16 → vget k.fmtSlot i = 0) ∧ (∀ b, b < 176 → vget k.bankFmt b = 0) ∧
    (∀ b, b < 32 → (vget k.bobbins b).free = 0 ∧ (vget k.bobbins b).filled = 0) ∧ k.haltBits = List.replicate 5 false) ∧
  (∀ d, d < 8 → vget State.reset.tickOrigin d = 0 ∧ vget State.reset.tickPeriod d = 0) ∧
  (∀ c, c < 8 → (vget State.reset.mem.ctls c).root = 0 ∧ (vget State.reset.mem.ctls c).en = false) ∧
  State.reset.power.limit = 3000 ∧ State.reset.power.idle = 50 ∧ State.reset.power.level = 0 ∧
  (∀ g, g < 8 → vget State.reset.power.cluster g = 0)

/-! ## Wait and signal bytes -/

/-- R57: the wait byte: the four modes, the condition of each and what it takes from the count, tested and taken in the one step
that issues the word; a word whose condition does not hold does not issue. -/
def Obligations.WaitByte : Prop :=
  (∀ w : Word, getWait w =
    if field w 62 2 = 0 then .none else if field w 62 2 = 1 then .one (field w 56 6)
    else if field w 62 2 = 2 then .thresh (field w 56 6) else .probe (field w 56 6)) ∧
  (∀ (t : Strm) (w : Word), field w 62 2 = 0 → field w 56 6 ≠ 0 → ∀ i m, decodeWord t w = .word i m → m ≠ 0) ∧
  (∀ (k : Core) (v : BitVec 6),
    v.toNat < k.flagNum.toNat →
    let i := (v.toNat + k.flagBase.toNat) % 64
    let f := vget k.flags i
    k.passWait .none = some k ∧
    k.passWait (.one v) = (if 1 ≤ f.count.toNat then some { k with flags := vset k.flags i { f with count := f.count - 1 } } else none) ∧
    k.passWait (.thresh v) = (if f.thresh.toNat ≤ f.count.toNat then some { k with flags := vset k.flags i { f with count := f.count - f.thresh } } else none) ∧
    k.passWait (.probe v) = (if f.thresh.toNat ≤ f.count.toNat then some { k with flags := vset k.flags i f } else none)) ∧
  (∀ (s : State) (i : Instr) (h : Hdr),
    i.hdr? = some (.a, h) → (s.core s.cur).wdone = false → (s.core s.cur).passWait h.wait = none →
    (∃ f, exec i s = .next (s.aFault (encodeWord i) f)) ∨ exec i s = .next s) ∧
  (∀ (s : State) (i : Instr) (h : Hdr),
    i.hdr? = some (.x, h) → (s.core s.cur).passWait h.wait = none →
    (∃ f, exec i s = .next (s.xFault (encodeWord i) f)) ∨ exec i s = .next s) ∧
  (∀ (s : State) (i : Instr) (e : EWord),
    (s.core s.cur).passWait e.hdr.wait = none →
    (∃ w f, runE i e s = .next (s.headFault s.cur e.strm w f)) ∨ runE i e s = .next s) ∧
  (∀ (s s1 : State) (i : Instr) (h : Hdr),
    s.issueA i h = some s1 → (s.core s.cur).wdone = false →
    ∃ k1 k2, (s.core s.cur).passWait h.wait = some k1 ∧ k1.issueSig h.sig = .ok k2 ∧ s1 = s.setCore s.cur k2) ∧
  (∀ (s s1 : State) (i : Instr) (h : Hdr),
    s.issueX i h = some s1 →
    ∃ k1 k2, (s.core s.cur).passWait h.wait = some k1 ∧ k1.issueSig h.sig = .ok k2 ∧ s1 = s.setCore s.cur k2) ∧
  (∀ (s s1 : State) (i : Instr) (e : EWord) (w : Issued),
    engineWord i = some e → s.issueE i e = some (w, s1) →
    ∃ k1 k2, (s.core s.cur).passWait e.hdr.wait = some k1 ∧ k1.issueSig e.hdr.sig = .ok k2 ∧
      (s1.core s.cur).flags = k2.flags)

/-- R58, R371: the signal byte: one at completion, INCR at completion, or one at issue; the amount is added where the sum stays at
or below CEIL, and an A word whose completion-time addition is refused enters the handler with every other effect standing. -/
def Obligations.SignalByte : Prop :=
  (∀ w : Word, getSig w =
    if field w 54 2 = 0 then .none else if field w 54 2 = 1 then .one (field w 48 6)
    else if field w 54 2 = 2 then .incr (field w 48 6) else .issue (field w 48 6)) ∧
  (∀ (t : Strm) (w : Word), field w 54 2 = 0 → field w 48 6 ≠ 0 → ∀ i m, decodeWord t w = .word i m → m ≠ 0) ∧
  getWait 0x4300000000000000 = .one 3 ∧ getWait 0x8300000000000000 = .thresh 3 ∧ getWait 0xC300000000000000 = .probe 3 ∧
  getSig 0x0045000000000000 = .one 5 ∧ getSig 0x0085000000000000 = .incr 5 ∧ getSig 0x00C5000000000000 = .issue 5 ∧
  (∀ (k : Core) (v : BitVec 6) (n : Nat),
    v.toNat < k.flagNum.toNat →
    let i := (v.toNat + k.flagBase.toNat) % 64
    let f := vget k.flags i
    k.completionSig .none = none ∧ k.completionSig (.one v) = some (v, 1) ∧
    k.completionSig (.incr v) = some (v, f.incr.toNat) ∧ k.completionSig (.issue v) = none ∧
    k.issueSig (.issue v) = k.addFlag v 1 ∧ k.issueSig (.one v) = .ok k ∧ k.issueSig (.incr v) = .ok k ∧
    k.issueSig .none = .ok k ∧
    k.addFlag v n = if f.count.toNat + n ≤ f.ceil.toNat then
      .ok { k with flags := vset k.flags i { f with count := BitVec.ofNat 16 (f.count.toNat + n) } }
      else .error f.word) ∧
  (∀ (s : State) (h : Hdr) (w : Word) (r : BitVec 13),
    (s.core s.cur).completionSig h.sig = none → s.aComplete h w r = s) ∧
  (∀ (s : State) (w : Word) (r : BitVec 13),
    ((s.core s.cur).completionSig (getSig w) = none → s.xComplete false w r = s) ∧
    (∀ v n k, (s.core s.cur).completionSig (getSig w) = some (v, n) → (s.core s.cur).addFlag v n = .ok k →
      s.xComplete false w r = s.setCore s.cur k) ∧
    s.xComplete true w r = s.onCore s.cur fun k =>
      { k with xProg := k.xProg ++ [{ k.issuedX w r with res := k.xRes }], xRes := []
               xa := k.xa ++ List.replicate (k.xRes.filter fun e => e.1 == .xa).length none }) ∧
  (∀ (s : State) (h : Hdr) (w : Word) (r : BitVec 13) (v : BitVec 6) (n : Nat) (k : Core),
    (s.core s.cur).completionSig h.sig = some (v, n) → (s.core s.cur).addFlag v n = .ok k →
    s.aComplete h w r = s.setCore s.cur k) ∧
  (∀ (s s2 : State) (c : CoreId) (t : Strm) (i : Nat) (w : Issued),
    (t = .m ∨ t = .v ∨ t = .c) → vget s.power.cluster (clusterOf c) ≠ 2 → ((s.core c).engine t).prog[i]? = some w →
    (s.core c).mayComplete t i w = true → runDeferred fillSlot c w.deferred w { s with cur := c } = .ok ([], []) s2 →
    let k := s2.core c
    ∃ q, exec (.wordCompletion c t i) s = .next q ∧
      (k.completionSig (getSig w.word) = none → (q.core c).flags = k.flags) ∧
      (∀ v n k', k.completionSig (getSig w.word) = some (v, n) → k.addFlag v n = .ok k' → (q.core c).flags = k'.flags)) ∧
  (∀ (s : State) (c : CoreId) (i : Nat) (w : Issued) (v : BitVec 6) (n : Nat) (k' : Core),
    vget s.power.cluster (clusterOf c) ≠ 2 → (s.core c).xProg[i]? = some w →
    (∀ x ∈ (s.core c).xProg.take i, ∀ r ∈ x.res, r.1 ≠ .xa → ∀ e ∈ w.res, e.1 ≠ r.1) →
    (s.core c).completionSig (getSig w.word) = some (v, n) → (s.core c).addFlag v n = .ok k' →
    ∃ q, exec (.wordCompletion c .x i) s = .next q ∧ (q.core c).flags = k'.flags) ∧
  (∀ (s : State) (h : Hdr) (w : Word) (r : BitVec 13) (v : BitVec 6) (n : Nat) (old : Word),
    (s.core s.cur).completionSig h.sig = some (v, n) → (s.core s.cur).addFlag v n = .error old →
    (s.core s.cur).priv = false →
    let q := (s.aComplete h w r).core s.cur
    let k := s.core s.cur
    q.priv = true ∧ q.handlerPos = 16 ∧ q.excCause = 7 ∧ q.excWord = w ∧ q.excRet = excRetWord false k.resumeWord ∧
    q.flags = k.flags ∧ q.a = k.a ∧ q.rings = k.rings)

/-! ## Exceptions -/

/-- R359, R265, R266: a fault of an A word outside the handler saves the class, the word, the lining address and the word's own ring
index, with WDONE where the word has met its own wait byte; PRIV becomes 1 and the unit goes on at handler word 16; the
word has no effect on the registers, queues, flags or memory of its core.
R359, R360: a fault of an X word halts the stream at the word, and one of an engine's head word halts that engine; no
exception register is written. -/
def Obligations.FaultEntries : Prop :=
  (∀ (s : State) (w : Word) (f : Flt),
     let k := s.core s.cur
     let q := (s.aFault w f).core s.cur
     k.priv = false →
     q.priv = true ∧ q.handlerPos = 16 ∧ q.excCause = f.cls.setWidth 64 ∧ q.excWord = w ∧ q.excAddr = w64 f.laddr ∧
     q.excRet = excRetWord (k.wdone && field w 62 2 != 0) ((k.ring .a).wordIdx (k.ring .a).fetch.toNat) ∧
     q.stall = (k.stall || wireClass f.cls) ∧
     q.a = k.a ∧ q.x = k.x ∧ q.p = k.p ∧ q.ax = k.ax ∧ q.xa = k.xa ∧ q.flags = k.flags ∧ q.rings = k.rings ∧
     q.bobbins = k.bobbins ∧ q.spad = k.spad ∧ q.side = k.side ∧ q.acc = k.acc ∧ q.dead = k.dead) ∧
  ((∀ (s : State) (w : Word) (f : Flt),
     let k := s.core s.cur
     let q := (s.xFault w f).core s.cur
     q = { k with xHalt := some .head, monitor := q.monitor }) ∧
   (∀ (s : State) (t : Strm) (w : Issued) (f : Flt),
     (t = .m ∨ t = .v ∨ t = .c) →
     let k := s.core s.cur
     let q := (s.headFault s.cur t w f).core s.cur
     w.entry = none →
     (q.engine t).halt = some .head ∧ (q.engine t).buf = (k.engine t).buf ∧ (q.engine t).prog = (k.engine t).prog ∧
     q.excCause = k.excCause ∧ q.priv = k.priv ∧ q.flags = k.flags ∧ q.a = k.a ∧ q.stall = k.stall))

/-- R376: a fault of an A word while PRIV is 1 does not enter the handler again: the core raises the stall wire and no stream of
it issues any word; the exception registers keep the first fault's values; the record goes to the queue of tag 0 with the
running context as its owner. -/
def Obligations.FaultInHandler : Prop :=
  (∀ (s : State) (w : Word) (f : Flt),
    let k := s.core s.cur
    let t := s.aFault w f
    let q := t.core s.cur
    let r : Rec := { pass := if k.current then k.passId else 0, owner := k.ctx, unit := 0, cont := 0, block := 63, cls := f.cls, wv := true, core := s.cur, strm := 0, rword := k.headWord .a, laddr := f.laddr, d0 := f.d0, d1 := f.d1, word := w }
    k.priv = true →
    q.dead = true ∧ q.stall = true ∧ q.priv = true ∧ q.excCause = k.excCause ∧ q.excWord = k.excWord ∧
    q.excAddr = k.excAddr ∧ q.excRet = k.excRet ∧ q.haltBits = k.haltBits ∧
    (∀ u, appendTo 0 (panelOf s.cur) r s = .ok () u → t.fqs = u.fqs ∧ t.mem = u.mem)) ∧
  (∀ (s s0 s1 : State) (u : Turn) (c : CoreId) (t : Strm),
    s.nextTurn = (u, s0) → u.actor = .stream c t → s0.mayPass u → passTime (s0.cyclesBefore u) s0 = .ok () s1 →
    (s1.core c).dead = true →
    ∃ s2, step s = .next s2 ∧ s2 = { s1 with cores := s2.cores, lineOps := u.lines, cur := s2.cur } ∧
      ∀ d, s2.core d = { s1.core d with arbAt := (s2.core d).arbAt, arbRank := (s2.core d).arbRank, stalled := (s2.core d).stalled })

/-- R365 to R370, R374: the checks at decode and issue of A words: a privileged word outside the handler raises class 0x03; a
wait or signal byte or an operand out of its limits 0x04, named by its bits; a scratchpad address that is not aligned 0x0A
and a bank the engines own 0x06; the word does not issue. -/
def Obligations.AccessChecks : Prop :=
  (∀ (s : State) (i : Instr) (h : Hdr),
    i.hdr? = some (.a, h) → privOp (encodeWord i) = true → (s.core s.cur).priv = false →
    exec i s = .next (s.aFault (encodeWord i) { cls := 0x03, laddr := 0, d0 := 0, d1 := 0 })) ∧
  (∀ (s : State) (i : Instr) (h : Hdr),
    i.hdr? = some (.a, h) → (privOp (encodeWord i) = true → (s.core s.cur).priv = true) →
    let b := badOperands i ||| (s.core s.cur).clauseBad h
    b ≠ 0 →
    ∃ m, m &&& b = b ∧ exec i s = .next (s.aFault (encodeWord i) { cls := 0x04, laddr := 0, d0 := m, d1 := 0 })) ∧
  (∀ (s s1 s2 : State) (h : Hdr) (o : MOp) (b : Word),
    s.issueA (.lds h o) h = some s1 → rdA o.base s1 = .ok b s2 →
    let a := (b + sext64 o.off).toNat
    a + 2 ^ o.size.toNat ≤ 786432 → a % 2 ^ o.size.toNat ≠ 0 →
    ∃ t f, exec (.lds h o) s = .next (State.aFault t (encodeWord (.lds h o)) f) ∧ f.cls = 0x0A) ∧
  (∀ (s s1 s2 : State) (h : Hdr) (o : MOp) (b : Word),
    s.issueA (.lds h o) h = some s1 → rdA o.base s1 = .ok b s2 →
    let a := (b + sext64 o.off).toNat
    a + 2 ^ o.size.toNat ≤ 786432 → a % 2 ^ o.size.toNat = 0 → vget (s.core s.cur).owner (a / 4096) = true →
    ∃ t f, exec (.lds h o) s = .next (State.aFault t (encodeWord (.lds h o)) f) ∧ f.cls = 0x06) ∧
  (∀ (s s1 s2 s3 : State) (h : Hdr) (o : MOp) (v b : Word),
    s.issueA (.sts h o) h = some s1 → rdA o.reg s1 = .ok v s2 → rdA o.base s2 = .ok b s3 →
    let a := (b + sext64 o.off).toNat
    a + 2 ^ o.size.toNat ≤ 786432 →
    (a % 2 ^ o.size.toNat ≠ 0 →
      ∃ t f, exec (.sts h o) s = .next (State.aFault t (encodeWord (.sts h o)) f) ∧ f.cls = 0x0A) ∧
    (a % 2 ^ o.size.toNat = 0 → vget (s.core s.cur).owner (a / 4096) = true →
      ∃ t f, exec (.sts h o) s = .next (State.aFault t (encodeWord (.sts h o)) f) ∧ f.cls = 0x06)) ∧
  (∀ (s : State) (t : Strm) (w : Word),
    exec (.illegalWord t w) s = .next (s.decodeStop t w { cls := 0x01, laddr := 0, d0 := 0, d1 := 0 }))

/-! ## Frames -/

namespace Sys2Proof.Machine

/-- The A words that touch no more than registers and queues: the register they write, and those they read. -/
def accessRegWord : Instr → Option (Reg × List Reg)
  | .aNop _ => some (0, [])
  | .aLi _ o => some (o.d, [])
  | .aLih _ o => some (o.d, [o.d])
  | .aAdd _ o | .aSub _ o | .aAnd _ o | .aOr _ o | .aXor _ o => some (o.d, [o.s1, o.s2])
  | .aAddi _ o => some (o.d, [o.s1])
  | .shli _ o | .shri _ o => some (o.d, [o.s1])
  | .lea _ o => some (o.d, [o.s1, o.s2])
  | .beq _ o | .bne _ o | .blt _ o | .bge _ o => some (0, [o.s1, o.s2])
  | .aJmp _ o => some (o.d, [])
  | .aJr _ o => some (o.d, [o.s1])
  | .aFtrd _ d => some (d, [])
  | .tickrd _ o => some (o.d, [])
  | .ringrd _ o => some (o.d, [])
  | .frd _ o => some (o.d, [])
  | .rbtld _ o => some (o.d, [o.s1])
  | .csrr _ o => some (o.r, [])
  | _ => none

/-- The X words: the register and the predicate they write, the registers they read, and whether they round. -/
def executeRegWord : Instr → Option (Reg × Pred × List Reg × Bool)
  | .xNop _ => some (0, 0, [], false)
  | .xLi _ o => some (o.d, 0, [], false)
  | .xLih _ o => some (o.d, 0, [o.d], false)
  | .xAdd _ o | .xSub _ o | .xAnd _ o | .xOr _ o | .xXor _ o | .mul _ o | .shl _ o | .shr _ o | .sra _ o | .fmin _ o
  | .fmax _ o => some (o.d, 0, [o.s1, o.s2], false)
  | .xAddi _ o => some (o.d, 0, [o.s1], false)
  | .mulh _ o | .sel _ o => some (o.d, 0, [o.s1, o.s2], false)
  | .div _ o | .rem _ o | .min _ o | .max _ o => some (o.d, 0, [o.s1, o.s2], false)
  | .popc _ o | .clz _ o => some (o.d, 0, [o.s1], false)
  | .cmp _ o | .fcmp _ o => some (0, o.p, [o.s1, o.s2], false)
  | .plog _ o => some (0, o.p, [], false)
  | .fadd _ o | .fsub _ o | .fmul _ o | .fdiv _ o => some (o.d, 0, [o.s1, o.s2], true)
  | .ffma _ o => some (o.d, 0, [o.d, o.s1, o.s2], true)
  | .fsqrt _ o => some (o.d, 0, [o.s1], true)
  | .cvtf _ o => some (o.d, 0, [o.s1], true)
  | .cvti _ o => some (o.d, 0, [o.s1], true)
  | .cvtn _ o => some (o.d, 0, [o.s1], true)
  | .brp _ _ => some (0, 0, [], false)
  | .xJmp _ o => some (o.d, 0, [], false)
  | .xJr _ o => some (o.d, 0, [o.s1], false)
  | .loop _ o => some (o.s1, 0, [o.s1], false)
  | .xFtrd _ d => some (d, 0, [], false)
  | _ => none

end Sys2Proof.Machine

/-- R226, R235 to R237, R242 to R244, R252, R261, R267: what an A word of registers leaves as it was when it goes on without a
fault: every register but its destination, the queue whose port it does not name, every flag that neither clause names, every
other register, stream and core, and all of memory. -/
def Obligations.AccessRegisterFrame : Prop :=
  ∀ (s u : State) (i : Instr) (h : Hdr) (d : Reg) (src : List Reg),
    i.hdr? = some (.a, h) → accessRegWord i = some (d, src) → exec i s = .next u →
    let k := s.core s.cur
    let q := u.core s.cur
    k.dead = false → q.dead = false → q.priv = k.priv →
    (∀ r : Reg, r ≠ d → vget q.a r.toNat = vget k.a r.toNat) ∧ (d ≠ 31 → q.ax = k.ax) ∧ ((31 : Reg) ∉ src → q.xa = k.xa) ∧
    q = q.movedFrom { k with a := q.a, ax := q.ax, xa := q.xa } ∧ (∀ t : Strm, t ≠ .a → q.ring t = k.ring t) ∧
    q.sameFlags k h ∧ u.sameOthers s s.cur ∧ u.sameRest s s.cur .a ∧ u.sameBytes s

/-- R276 to R287: the same of an X word that goes on without a halt: every register and predicate but its destination, the queue it
does not name, the LFSR unless it rounds, every flag that neither clause names, every other stream and core, and memory. Where the
word completes later, its results to come are for its destinations alone (R272). No result is kept from before: `canonical`
(StepKeepsCanonical) says so of every state between steps. -/
def Obligations.ExecuteRegisterFrame : Prop :=
  ∀ (s u : State) (i : Instr) (h : Hdr) (d : Reg) (p : Pred) (src : List Reg) (rounds : Bool),
    i.hdr? = some (.x, h) → executeRegWord i = some (d, p, src, rounds) → exec i s = .next u →
    let k := s.core s.cur
    let q := u.core s.cur
    k.xHalt = none → q.xHalt = none → k.xRes = [] →
    (∀ r : Reg, r ≠ d → vget q.x r.toNat = vget k.x r.toNat) ∧ (∀ r : Pred, r ≠ p → vget q.p r.toNat = vget k.p r.toNat) ∧
    (d ≠ 31 → q.xa = k.xa) ∧ ((31 : Reg) ∉ src → q.ax = k.ax) ∧
    (rounds = false → q.xLfsr = k.xLfsr ∧ q.xReload = k.xReload) ∧
    q = q.movedFrom { k with x := q.x, p := q.p, ax := q.ax, xa := q.xa, xLfsr := q.xLfsr, xReload := q.xReload,
                             xProg := q.xProg } ∧
    (q.xProg = k.xProg ∨ ∃ res : List (XDest × Word),
      q.xProg = k.xProg ++ [{ k.issuedX (encodeWord i) (k.headWord .x) with res := res }] ∧
      ∀ e ∈ res, e.1 = .reg d ∨ e.1 = .pred p ∨ (e.1 = .xa ∧ d = 31)) ∧
    (∀ t : Strm, t ≠ .x → q.ring t = k.ring t) ∧ q.sameFlags k h ∧ u.sameOthers s s.cur ∧ u.sameRest s s.cur .x ∧
    u.sameBytes s

/-- R227, R229: what a store leaves as it was. STS writes the bytes of its own address in its core's scratchpad, mends the error
marks over them, and changes no other byte, register or core; STM to lines held with a write lease writes the bytes of the
lining address that its own meaning computes (`mPlace`) in L2, and no other byte of L2 as it stands once the address is translated, of
HBM or of any core's memories, but in the live entries of the node table that it meets, whose counts and links it leaves free (R134);
under PRIV = 0 translation reads no memory, and every core is otherwise as before. -/
def Obligations.StoreFrame : Prop :=
  (∀ (s s1 s2 s3 u : State) (h : Hdr) (o : MOp) (v b : Word),
    s.issueA (.sts h o) h = some s1 → rdA o.reg s1 = .ok v s2 → rdA o.base s2 = .ok b s3 →
    let n := 2 ^ o.size.toNat
    let a := (b + sext64 o.off).toNat
    let k := s.core s.cur
    let q := u.core s.cur
    s.canonical = true → a + n ≤ 786432 → a % n = 0 → vget k.owner (a / 4096) = false → exec (.sts h o) s = .next u →
    k.dead = false → q.dead = false → q.priv = k.priv →
    (∀ y, y < a ∨ a + n ≤ y → byteAt q.spad y = byteAt k.spad y) ∧ bytesAt q.spad a n = bytesOfW n v ∧
    q = q.movedFrom { k with xa := q.xa, spad := q.spad, spadErr := q.spadErr } ∧
    (o.reg ≠ 31 → o.base ≠ 31 → q.xa = k.xa) ∧
    q.sameFlags k h ∧ u.sameOthers s s.cur ∧ u.sameRest s s.cur .a) ∧
  (∀ (s s1 s2 s3 s4 : State) (h : Hdr) (o : MOp) (v b : Word) (la : Nat),
    s.issueA (.stm h o) h = some s1 → rdA o.reg s1 = .ok v s2 → rdA o.base s2 = .ok b s3 →
    mPlace (b + sext64 o.off) o 2 s3 = .ok la s4 → regionOf la ≤ 1 →
    let n := 2 ^ o.size.toNat
    s4.canonical = true → s4.resident (panelOf s.cur) la n true →
    ∃ u, exec (.stm h o) s = .next u ∧
      (∀ y, y < la ∨ la + n ≤ y →
        (∀ i ∈ s4.nodesAt la n, y < la / 64 * 64 + i ∨ la / 64 * 64 + i + 32 ≤ y) →
        byteAt u.mem.l2 y = byteAt s4.mem.l2 y) ∧
      (s4.nodesAt la n = [] → bytesAt u.mem.l2 la n = bytesOfW n v) ∧
      u.mem.hbm = s4.mem.hbm ∧ u.boot = s.boot ∧ ((s.core s.cur).priv = false → s4.mem = s.mem) ∧
      (∀ c : CoreId, c ≠ s.cur →
        let q := u.core c
        q = { s.core c with monitor := q.monitor, scnt := q.scnt, scntAt := q.scntAt, scntRun := q.scntRun }) ∧
      (let k := s.core s.cur
       let q := u.core s.cur
       k.dead = false → q.dead = false → q.priv = k.priv →
       q = q.movedFrom { k with xa := q.xa, monitor := q.monitor } ∧ (o.reg ≠ 31 → o.base ≠ 31 → q.xa = k.xa) ∧
       q.sameFlags k h))
end

