-- ==== Sys2Proof/Laws/State.lean ====
section
/-! SUPPORT. Reading a field of the state after an update of another: one lemma a field and update, and the laws of the sparse
tables behind the cores. -/

namespace Sys2Proof.Machine

/-! ## Tables -/

@[simp] theorem mapGet_mapPut_same {α : Type} (m : SMap α) (k : Nat) (v : α) : mapGet (mapPut m k v) k = some v := by
  induction m with
  | nil => simp [mapPut, mapGet]
  | cons e m ih =>
    obtain ⟨k', v'⟩ := e
    unfold mapPut
    split
    · simp [mapGet]
    · split
      · simp [mapGet]
      · rename_i h1 h2
        simp [mapGet, h1, h2, ih]

theorem mapGet_mapPut_other {α : Type} (m : SMap α) (k j : Nat) (v : α) (h : j ≠ k) :
    mapGet (mapPut m k v) j = mapGet m j := by
  induction m with
  | nil =>
    have h' : ¬ k = j := fun e => h e.symm
    simp [mapPut, mapGet, h']
  | cons e m ih =>
    obtain ⟨k', v'⟩ := e
    have h' : ¬ k = j := fun e => h e.symm
    unfold mapPut
    split
    · subst_vars
      simp [mapGet, h']
    · split
      · rename_i h1 h2
        simp only [mapGet, h', if_false]
        split
        · have : ¬ k' = j := by omega
          simp [this]
          omega
        · rfl
      · simp only [mapGet, ih]

/-! ## Cores -/

@[simp] theorem core_setCore_same (s : State) (c : CoreId) (k : Core) : (s.setCore c k).core c = k := by
  simp [State.core, State.setCore]

theorem core_setCore_other (s : State) (c d : CoreId) (k : Core) (h : d ≠ c) : (s.setCore c k).core d = s.core d := by
  have : d.toNat ≠ c.toNat := fun e => h (BitVec.eq_of_toNat_eq e)
  simp [State.core, State.setCore, mapGet_mapPut_other _ _ _ _ this]

@[simp] theorem core_onCore_same (s : State) (c : CoreId) (f : Core → Core) : (s.onCore c f).core c = f (s.core c) := by
  simp [State.onCore]

theorem core_onCore_other (s : State) (c d : CoreId) (f : Core → Core) (h : d ≠ c) :
    (s.onCore c f).core d = s.core d := core_setCore_other s c d _ h

@[simp] theorem core_onMem (s : State) (f : Mem → Mem) (c : CoreId) : (s.onMem f).core c = s.core c := rfl

/-! ## Vectors -/

theorem vget_vset_same {α : Type} [Inhabited α] {n : Nat} (v : Vector α n) (i : Nat) (x : α) (h : i < n) :
    vget (vset v i x) i = x := by
  simp [vget, vset, h]

theorem vget_vset_other {α : Type} [Inhabited α] {n : Nat} (v : Vector α n) (i j : Nat) (x : α) (h : j ≠ i) :
    vget (vset v i x) j = vget v j := by
  simp [vget, vset, Ne.symm h]

/-! ## Fields of the state -/

@[simp] theorem agenda_setCore (s : State) (c : CoreId) (k : Core) : (s.setCore c k).agenda = s.agenda := rfl
@[simp] theorem agenda_onCore (s : State) (c : CoreId) (f : Core → Core) : (s.onCore c f).agenda = s.agenda := rfl
@[simp] theorem agenda_onMem (s : State) (f : Mem → Mem) : (s.onMem f).agenda = s.agenda := rfl
@[simp] theorem agenda_onLink (s : State) (l : Nat) (f : Link → Link) : (s.onLink l f).agenda = s.agenda := rfl
@[simp] theorem agenda_onHost (s : State) (f : HostIf → HostIf) : (s.onHost f).agenda = s.agenda := rfl
@[simp] theorem agenda_setFq (s : State) (t : Nat) (q : FaultQ) : (s.setFq t q).agenda = s.agenda := rfl
@[simp] theorem turnNo_setCore (s : State) (c : CoreId) (k : Core) : (s.setCore c k).turnNo = s.turnNo := rfl
@[simp] theorem turnNo_onCore (s : State) (c : CoreId) (f : Core → Core) : (s.onCore c f).turnNo = s.turnNo := rfl
@[simp] theorem turnNo_onMem (s : State) (f : Mem → Mem) : (s.onMem f).turnNo = s.turnNo := rfl
@[simp] theorem turnNo_onLink (s : State) (l : Nat) (f : Link → Link) : (s.onLink l f).turnNo = s.turnNo := rfl
@[simp] theorem turnNo_onHost (s : State) (f : HostIf → HostIf) : (s.onHost f).turnNo = s.turnNo := rfl
@[simp] theorem turnNo_setFq (s : State) (t : Nat) (q : FaultQ) : (s.setFq t q).turnNo = s.turnNo := rfl
@[simp] theorem cur_setCore (s : State) (c : CoreId) (k : Core) : (s.setCore c k).cur = s.cur := rfl
@[simp] theorem cur_onCore (s : State) (c : CoreId) (f : Core → Core) : (s.onCore c f).cur = s.cur := rfl
@[simp] theorem cur_onMem (s : State) (f : Mem → Mem) : (s.onMem f).cur = s.cur := rfl
@[simp] theorem cur_onLink (s : State) (l : Nat) (f : Link → Link) : (s.onLink l f).cur = s.cur := rfl
@[simp] theorem cur_onHost (s : State) (f : HostIf → HostIf) : (s.onHost f).cur = s.cur := rfl
@[simp] theorem cur_setFq (s : State) (t : Nat) (q : FaultQ) : (s.setFq t q).cur = s.cur := rfl
@[simp] theorem free_setCore (s : State) (c : CoreId) (k : Core) : (s.setCore c k).free = s.free := rfl
@[simp] theorem free_onCore (s : State) (c : CoreId) (f : Core → Core) : (s.onCore c f).free = s.free := rfl
@[simp] theorem free_onMem (s : State) (f : Mem → Mem) : (s.onMem f).free = s.free := rfl
@[simp] theorem free_onLink (s : State) (l : Nat) (f : Link → Link) : (s.onLink l f).free = s.free := rfl
@[simp] theorem free_onHost (s : State) (f : HostIf → HostIf) : (s.onHost f).free = s.free := rfl
@[simp] theorem free_setFq (s : State) (t : Nat) (q : FaultQ) : (s.setFq t q).free = s.free := rfl
@[simp] theorem cycle_setCore (s : State) (c : CoreId) (k : Core) : (s.setCore c k).cycle = s.cycle := rfl
@[simp] theorem cycle_onCore (s : State) (c : CoreId) (f : Core → Core) : (s.onCore c f).cycle = s.cycle := rfl
@[simp] theorem cycle_onMem (s : State) (f : Mem → Mem) : (s.onMem f).cycle = s.cycle := rfl
@[simp] theorem cycle_onLink (s : State) (l : Nat) (f : Link → Link) : (s.onLink l f).cycle = s.cycle := rfl
@[simp] theorem cycle_onHost (s : State) (f : HostIf → HostIf) : (s.onHost f).cycle = s.cycle := rfl
@[simp] theorem cycle_setFq (s : State) (t : Nat) (q : FaultQ) : (s.setFq t q).cycle = s.cycle := rfl
@[simp] theorem saves_setCore (s : State) (c : CoreId) (k : Core) : (s.setCore c k).saves = s.saves := rfl
@[simp] theorem saves_onCore (s : State) (c : CoreId) (f : Core → Core) : (s.onCore c f).saves = s.saves := rfl
@[simp] theorem saves_onMem (s : State) (f : Mem → Mem) : (s.onMem f).saves = s.saves := rfl
@[simp] theorem saves_onLink (s : State) (l : Nat) (f : Link → Link) : (s.onLink l f).saves = s.saves := rfl
@[simp] theorem saves_onHost (s : State) (f : HostIf → HostIf) : (s.onHost f).saves = s.saves := rfl
@[simp] theorem saves_setFq (s : State) (t : Nat) (q : FaultQ) : (s.setFq t q).saves = s.saves := rfl
@[simp] theorem regClks_setCore (s : State) (c : CoreId) (k : Core) : (s.setCore c k).regClks = s.regClks := rfl
@[simp] theorem regClks_onCore (s : State) (c : CoreId) (f : Core → Core) : (s.onCore c f).regClks = s.regClks := rfl
@[simp] theorem regClks_onMem (s : State) (f : Mem → Mem) : (s.onMem f).regClks = s.regClks := rfl
@[simp] theorem regClks_onLink (s : State) (l : Nat) (f : Link → Link) : (s.onLink l f).regClks = s.regClks := rfl
@[simp] theorem regClks_onHost (s : State) (f : HostIf → HostIf) : (s.onHost f).regClks = s.regClks := rfl
@[simp] theorem regClks_setFq (s : State) (t : Nat) (q : FaultQ) : (s.setFq t q).regClks = s.regClks := rfl
@[simp] theorem lineOps_setCore (s : State) (c : CoreId) (k : Core) : (s.setCore c k).lineOps = s.lineOps := rfl
@[simp] theorem lineOps_onCore (s : State) (c : CoreId) (f : Core → Core) : (s.onCore c f).lineOps = s.lineOps := rfl
@[simp] theorem lineOps_onMem (s : State) (f : Mem → Mem) : (s.onMem f).lineOps = s.lineOps := rfl
@[simp] theorem lineOps_onLink (s : State) (l : Nat) (f : Link → Link) : (s.onLink l f).lineOps = s.lineOps := rfl
@[simp] theorem lineOps_onHost (s : State) (f : HostIf → HostIf) : (s.onHost f).lineOps = s.lineOps := rfl
@[simp] theorem lineOps_setFq (s : State) (t : Nat) (q : FaultQ) : (s.setFq t q).lineOps = s.lineOps := rfl
@[simp] theorem ft_setCore (s : State) (c : CoreId) (k : Core) : (s.setCore c k).ft = s.ft := rfl
@[simp] theorem ft_onCore (s : State) (c : CoreId) (f : Core → Core) : (s.onCore c f).ft = s.ft := rfl
@[simp] theorem ft_onMem (s : State) (f : Mem → Mem) : (s.onMem f).ft = s.ft := rfl
@[simp] theorem ft_onLink (s : State) (l : Nat) (f : Link → Link) : (s.onLink l f).ft = s.ft := rfl
@[simp] theorem ft_onHost (s : State) (f : HostIf → HostIf) : (s.onHost f).ft = s.ft := rfl
@[simp] theorem ft_setFq (s : State) (t : Nat) (q : FaultQ) : (s.setFq t q).ft = s.ft := rfl
@[simp] theorem ftRep_setCore (s : State) (c : CoreId) (k : Core) : (s.setCore c k).ftRep = s.ftRep := rfl
@[simp] theorem ftRep_onCore (s : State) (c : CoreId) (f : Core → Core) : (s.onCore c f).ftRep = s.ftRep := rfl
@[simp] theorem ftRep_onMem (s : State) (f : Mem → Mem) : (s.onMem f).ftRep = s.ftRep := rfl
@[simp] theorem ftRep_onLink (s : State) (l : Nat) (f : Link → Link) : (s.onLink l f).ftRep = s.ftRep := rfl
@[simp] theorem ftRep_onHost (s : State) (f : HostIf → HostIf) : (s.onHost f).ftRep = s.ftRep := rfl
@[simp] theorem ftRep_setFq (s : State) (t : Nat) (q : FaultQ) : (s.setFq t q).ftRep = s.ftRep := rfl
@[simp] theorem phase_setCore (s : State) (c : CoreId) (k : Core) : (s.setCore c k).phase = s.phase := rfl
@[simp] theorem phase_onCore (s : State) (c : CoreId) (f : Core → Core) : (s.onCore c f).phase = s.phase := rfl
@[simp] theorem phase_onMem (s : State) (f : Mem → Mem) : (s.onMem f).phase = s.phase := rfl
@[simp] theorem phase_onLink (s : State) (l : Nat) (f : Link → Link) : (s.onLink l f).phase = s.phase := rfl
@[simp] theorem phase_onHost (s : State) (f : HostIf → HostIf) : (s.onHost f).phase = s.phase := rfl
@[simp] theorem phase_setFq (s : State) (t : Nat) (q : FaultQ) : (s.setFq t q).phase = s.phase := rfl
@[simp] theorem repPhase_setCore (s : State) (c : CoreId) (k : Core) : (s.setCore c k).repPhase = s.repPhase := rfl
@[simp] theorem repPhase_onCore (s : State) (c : CoreId) (f : Core → Core) : (s.onCore c f).repPhase = s.repPhase := rfl
@[simp] theorem repPhase_onMem (s : State) (f : Mem → Mem) : (s.onMem f).repPhase = s.repPhase := rfl
@[simp] theorem repPhase_onLink (s : State) (l : Nat) (f : Link → Link) : (s.onLink l f).repPhase = s.repPhase := rfl
@[simp] theorem repPhase_onHost (s : State) (f : HostIf → HostIf) : (s.onHost f).repPhase = s.repPhase := rfl
@[simp] theorem repPhase_setFq (s : State) (t : Nat) (q : FaultQ) : (s.setFq t q).repPhase = s.repPhase := rfl
@[simp] theorem slewAt_setCore (s : State) (c : CoreId) (k : Core) : (s.setCore c k).slewAt = s.slewAt := rfl
@[simp] theorem slewAt_onCore (s : State) (c : CoreId) (f : Core → Core) : (s.onCore c f).slewAt = s.slewAt := rfl
@[simp] theorem slewAt_onMem (s : State) (f : Mem → Mem) : (s.onMem f).slewAt = s.slewAt := rfl
@[simp] theorem slewAt_onLink (s : State) (l : Nat) (f : Link → Link) : (s.onLink l f).slewAt = s.slewAt := rfl
@[simp] theorem slewAt_onHost (s : State) (f : HostIf → HostIf) : (s.onHost f).slewAt = s.slewAt := rfl
@[simp] theorem slewAt_setFq (s : State) (t : Nat) (q : FaultQ) : (s.setFq t q).slewAt = s.slewAt := rfl
@[simp] theorem repSlewAt_setCore (s : State) (c : CoreId) (k : Core) : (s.setCore c k).repSlewAt = s.repSlewAt := rfl
@[simp] theorem repSlewAt_onCore (s : State) (c : CoreId) (f : Core → Core) : (s.onCore c f).repSlewAt = s.repSlewAt := rfl
@[simp] theorem repSlewAt_onMem (s : State) (f : Mem → Mem) : (s.onMem f).repSlewAt = s.repSlewAt := rfl
@[simp] theorem repSlewAt_onLink (s : State) (l : Nat) (f : Link → Link) : (s.onLink l f).repSlewAt = s.repSlewAt := rfl
@[simp] theorem repSlewAt_onHost (s : State) (f : HostIf → HostIf) : (s.onHost f).repSlewAt = s.repSlewAt := rfl
@[simp] theorem repSlewAt_setFq (s : State) (t : Nat) (q : FaultQ) : (s.setFq t q).repSlewAt = s.repSlewAt := rfl
@[simp] theorem tickOrigin_setCore (s : State) (c : CoreId) (k : Core) : (s.setCore c k).tickOrigin = s.tickOrigin := rfl
@[simp] theorem tickOrigin_onCore (s : State) (c : CoreId) (f : Core → Core) : (s.onCore c f).tickOrigin = s.tickOrigin := rfl
@[simp] theorem tickOrigin_onMem (s : State) (f : Mem → Mem) : (s.onMem f).tickOrigin = s.tickOrigin := rfl
@[simp] theorem tickOrigin_onLink (s : State) (l : Nat) (f : Link → Link) : (s.onLink l f).tickOrigin = s.tickOrigin := rfl
@[simp] theorem tickOrigin_onHost (s : State) (f : HostIf → HostIf) : (s.onHost f).tickOrigin = s.tickOrigin := rfl
@[simp] theorem tickOrigin_setFq (s : State) (t : Nat) (q : FaultQ) : (s.setFq t q).tickOrigin = s.tickOrigin := rfl
@[simp] theorem tickPeriod_setCore (s : State) (c : CoreId) (k : Core) : (s.setCore c k).tickPeriod = s.tickPeriod := rfl
@[simp] theorem tickPeriod_onCore (s : State) (c : CoreId) (f : Core → Core) : (s.onCore c f).tickPeriod = s.tickPeriod := rfl
@[simp] theorem tickPeriod_onMem (s : State) (f : Mem → Mem) : (s.onMem f).tickPeriod = s.tickPeriod := rfl
@[simp] theorem tickPeriod_onLink (s : State) (l : Nat) (f : Link → Link) : (s.onLink l f).tickPeriod = s.tickPeriod := rfl
@[simp] theorem tickPeriod_onHost (s : State) (f : HostIf → HostIf) : (s.onHost f).tickPeriod = s.tickPeriod := rfl
@[simp] theorem tickPeriod_setFq (s : State) (t : Nat) (q : FaultQ) : (s.setFq t q).tickPeriod = s.tickPeriod := rfl
@[simp] theorem rsBase_setCore (s : State) (c : CoreId) (k : Core) : (s.setCore c k).rsBase = s.rsBase := rfl
@[simp] theorem rsBase_onCore (s : State) (c : CoreId) (f : Core → Core) : (s.onCore c f).rsBase = s.rsBase := rfl
@[simp] theorem rsBase_onMem (s : State) (f : Mem → Mem) : (s.onMem f).rsBase = s.rsBase := rfl
@[simp] theorem rsBase_onLink (s : State) (l : Nat) (f : Link → Link) : (s.onLink l f).rsBase = s.rsBase := rfl
@[simp] theorem rsBase_onHost (s : State) (f : HostIf → HostIf) : (s.onHost f).rsBase = s.rsBase := rfl
@[simp] theorem rsBase_setFq (s : State) (t : Nat) (q : FaultQ) : (s.setFq t q).rsBase = s.rsBase := rfl
@[simp] theorem tails_setCore (s : State) (c : CoreId) (k : Core) : (s.setCore c k).tails = s.tails := rfl
@[simp] theorem tails_onCore (s : State) (c : CoreId) (f : Core → Core) : (s.onCore c f).tails = s.tails := rfl
@[simp] theorem tails_onMem (s : State) (f : Mem → Mem) : (s.onMem f).tails = s.tails := rfl
@[simp] theorem tails_onLink (s : State) (l : Nat) (f : Link → Link) : (s.onLink l f).tails = s.tails := rfl
@[simp] theorem tails_onHost (s : State) (f : HostIf → HostIf) : (s.onHost f).tails = s.tails := rfl
@[simp] theorem tails_setFq (s : State) (t : Nat) (q : FaultQ) : (s.setFq t q).tails = s.tails := rfl
@[simp] theorem tailClks_setCore (s : State) (c : CoreId) (k : Core) : (s.setCore c k).tailClks = s.tailClks := rfl
@[simp] theorem tailClks_onCore (s : State) (c : CoreId) (f : Core → Core) : (s.onCore c f).tailClks = s.tailClks := rfl
@[simp] theorem tailClks_onMem (s : State) (f : Mem → Mem) : (s.onMem f).tailClks = s.tailClks := rfl
@[simp] theorem tailClks_onLink (s : State) (l : Nat) (f : Link → Link) : (s.onLink l f).tailClks = s.tailClks := rfl
@[simp] theorem tailClks_onHost (s : State) (f : HostIf → HostIf) : (s.onHost f).tailClks = s.tailClks := rfl
@[simp] theorem tailClks_setFq (s : State) (t : Nat) (q : FaultQ) : (s.setFq t q).tailClks = s.tailClks := rfl
@[simp] theorem fqs_setCore (s : State) (c : CoreId) (k : Core) : (s.setCore c k).fqs = s.fqs := rfl
@[simp] theorem fqs_onCore (s : State) (c : CoreId) (f : Core → Core) : (s.onCore c f).fqs = s.fqs := rfl
@[simp] theorem fqs_onMem (s : State) (f : Mem → Mem) : (s.onMem f).fqs = s.fqs := rfl
@[simp] theorem fqs_onLink (s : State) (l : Nat) (f : Link → Link) : (s.onLink l f).fqs = s.fqs := rfl
@[simp] theorem fqs_onHost (s : State) (f : HostIf → HostIf) : (s.onHost f).fqs = s.fqs := rfl
@[simp] theorem ctxs_setCore (s : State) (c : CoreId) (k : Core) : (s.setCore c k).ctxs = s.ctxs := rfl
@[simp] theorem ctxs_onCore (s : State) (c : CoreId) (f : Core → Core) : (s.onCore c f).ctxs = s.ctxs := rfl
@[simp] theorem ctxs_onMem (s : State) (f : Mem → Mem) : (s.onMem f).ctxs = s.ctxs := rfl
@[simp] theorem ctxs_onLink (s : State) (l : Nat) (f : Link → Link) : (s.onLink l f).ctxs = s.ctxs := rfl
@[simp] theorem ctxs_onHost (s : State) (f : HostIf → HostIf) : (s.onHost f).ctxs = s.ctxs := rfl
@[simp] theorem ctxs_setFq (s : State) (t : Nat) (q : FaultQ) : (s.setFq t q).ctxs = s.ctxs := rfl
@[simp] theorem ws_setCore (s : State) (c : CoreId) (k : Core) : (s.setCore c k).ws = s.ws := rfl
@[simp] theorem ws_onCore (s : State) (c : CoreId) (f : Core → Core) : (s.onCore c f).ws = s.ws := rfl
@[simp] theorem ws_onMem (s : State) (f : Mem → Mem) : (s.onMem f).ws = s.ws := rfl
@[simp] theorem ws_onLink (s : State) (l : Nat) (f : Link → Link) : (s.onLink l f).ws = s.ws := rfl
@[simp] theorem ws_onHost (s : State) (f : HostIf → HostIf) : (s.onHost f).ws = s.ws := rfl
@[simp] theorem ws_setFq (s : State) (t : Nat) (q : FaultQ) : (s.setFq t q).ws = s.ws := rfl
@[simp] theorem mem_setCore (s : State) (c : CoreId) (k : Core) : (s.setCore c k).mem = s.mem := rfl
@[simp] theorem mem_onCore (s : State) (c : CoreId) (f : Core → Core) : (s.onCore c f).mem = s.mem := rfl
@[simp] theorem mem_onLink (s : State) (l : Nat) (f : Link → Link) : (s.onLink l f).mem = s.mem := rfl
@[simp] theorem mem_onHost (s : State) (f : HostIf → HostIf) : (s.onHost f).mem = s.mem := rfl
@[simp] theorem mem_setFq (s : State) (t : Nat) (q : FaultQ) : (s.setFq t q).mem = s.mem := rfl
@[simp] theorem tree_setCore (s : State) (c : CoreId) (k : Core) : (s.setCore c k).tree = s.tree := rfl
@[simp] theorem tree_onCore (s : State) (c : CoreId) (f : Core → Core) : (s.onCore c f).tree = s.tree := rfl
@[simp] theorem tree_onMem (s : State) (f : Mem → Mem) : (s.onMem f).tree = s.tree := rfl
@[simp] theorem tree_onLink (s : State) (l : Nat) (f : Link → Link) : (s.onLink l f).tree = s.tree := rfl
@[simp] theorem tree_onHost (s : State) (f : HostIf → HostIf) : (s.onHost f).tree = s.tree := rfl
@[simp] theorem tree_setFq (s : State) (t : Nat) (q : FaultQ) : (s.setFq t q).tree = s.tree := rfl
@[simp] theorem tg_setCore (s : State) (c : CoreId) (k : Core) : (s.setCore c k).tg = s.tg := rfl
@[simp] theorem tg_onCore (s : State) (c : CoreId) (f : Core → Core) : (s.onCore c f).tg = s.tg := rfl
@[simp] theorem tg_onMem (s : State) (f : Mem → Mem) : (s.onMem f).tg = s.tg := rfl
@[simp] theorem tg_onLink (s : State) (l : Nat) (f : Link → Link) : (s.onLink l f).tg = s.tg := rfl
@[simp] theorem tg_onHost (s : State) (f : HostIf → HostIf) : (s.onHost f).tg = s.tg := rfl
@[simp] theorem tg_setFq (s : State) (t : Nat) (q : FaultQ) : (s.setFq t q).tg = s.tg := rfl
@[simp] theorem gath_setCore (s : State) (c : CoreId) (k : Core) : (s.setCore c k).gath = s.gath := rfl
@[simp] theorem gath_onCore (s : State) (c : CoreId) (f : Core → Core) : (s.onCore c f).gath = s.gath := rfl
@[simp] theorem gath_onMem (s : State) (f : Mem → Mem) : (s.onMem f).gath = s.gath := rfl
@[simp] theorem gath_onLink (s : State) (l : Nat) (f : Link → Link) : (s.onLink l f).gath = s.gath := rfl
@[simp] theorem gath_onHost (s : State) (f : HostIf → HostIf) : (s.onHost f).gath = s.gath := rfl
@[simp] theorem gath_setFq (s : State) (t : Nat) (q : FaultQ) : (s.setFq t q).gath = s.gath := rfl
@[simp] theorem host_setCore (s : State) (c : CoreId) (k : Core) : (s.setCore c k).host = s.host := rfl
@[simp] theorem host_onCore (s : State) (c : CoreId) (f : Core → Core) : (s.onCore c f).host = s.host := rfl
@[simp] theorem host_onMem (s : State) (f : Mem → Mem) : (s.onMem f).host = s.host := rfl
@[simp] theorem host_onLink (s : State) (l : Nat) (f : Link → Link) : (s.onLink l f).host = s.host := rfl
@[simp] theorem host_setFq (s : State) (t : Nat) (q : FaultQ) : (s.setFq t q).host = s.host := rfl
@[simp] theorem links_setCore (s : State) (c : CoreId) (k : Core) : (s.setCore c k).links = s.links := rfl
@[simp] theorem links_onCore (s : State) (c : CoreId) (f : Core → Core) : (s.onCore c f).links = s.links := rfl
@[simp] theorem links_onMem (s : State) (f : Mem → Mem) : (s.onMem f).links = s.links := rfl
@[simp] theorem links_onHost (s : State) (f : HostIf → HostIf) : (s.onHost f).links = s.links := rfl
@[simp] theorem links_setFq (s : State) (t : Nat) (q : FaultQ) : (s.setFq t q).links = s.links := rfl
@[simp] theorem remotes_setCore (s : State) (c : CoreId) (k : Core) : (s.setCore c k).remotes = s.remotes := rfl
@[simp] theorem remotes_onCore (s : State) (c : CoreId) (f : Core → Core) : (s.onCore c f).remotes = s.remotes := rfl
@[simp] theorem remotes_onMem (s : State) (f : Mem → Mem) : (s.onMem f).remotes = s.remotes := rfl
@[simp] theorem remotes_onLink (s : State) (l : Nat) (f : Link → Link) : (s.onLink l f).remotes = s.remotes := rfl
@[simp] theorem remotes_onHost (s : State) (f : HostIf → HostIf) : (s.onHost f).remotes = s.remotes := rfl
@[simp] theorem remotes_setFq (s : State) (t : Nat) (q : FaultQ) : (s.setFq t q).remotes = s.remotes := rfl
@[simp] theorem power_setCore (s : State) (c : CoreId) (k : Core) : (s.setCore c k).power = s.power := rfl
@[simp] theorem power_onCore (s : State) (c : CoreId) (f : Core → Core) : (s.onCore c f).power = s.power := rfl
@[simp] theorem power_onMem (s : State) (f : Mem → Mem) : (s.onMem f).power = s.power := rfl
@[simp] theorem power_onLink (s : State) (l : Nat) (f : Link → Link) : (s.onLink l f).power = s.power := rfl
@[simp] theorem power_onHost (s : State) (f : HostIf → HostIf) : (s.onHost f).power = s.power := rfl
@[simp] theorem power_setFq (s : State) (t : Nat) (q : FaultQ) : (s.setFq t q).power = s.power := rfl
@[simp] theorem boot_setCore (s : State) (c : CoreId) (k : Core) : (s.setCore c k).boot = s.boot := rfl
@[simp] theorem boot_onCore (s : State) (c : CoreId) (f : Core → Core) : (s.onCore c f).boot = s.boot := rfl
@[simp] theorem boot_onMem (s : State) (f : Mem → Mem) : (s.onMem f).boot = s.boot := rfl
@[simp] theorem boot_onLink (s : State) (l : Nat) (f : Link → Link) : (s.onLink l f).boot = s.boot := rfl
@[simp] theorem boot_onHost (s : State) (f : HostIf → HostIf) : (s.onHost f).boot = s.boot := rfl
@[simp] theorem boot_setFq (s : State) (t : Nat) (q : FaultQ) : (s.setFq t q).boot = s.boot := rfl
@[simp] theorem cores_onMem (s : State) (f : Mem → Mem) : (s.onMem f).cores = s.cores := rfl
@[simp] theorem cores_onLink (s : State) (l : Nat) (f : Link → Link) : (s.onLink l f).cores = s.cores := rfl
@[simp] theorem cores_onHost (s : State) (f : HostIf → HostIf) : (s.onHost f).cores = s.cores := rfl
@[simp] theorem cores_setFq (s : State) (t : Nat) (q : FaultQ) : (s.setFq t q).cores = s.cores := rfl
@[simp] theorem mem_onMem (s : State) (f : Mem → Mem) : (s.onMem f).mem = f s.mem := rfl
@[simp] theorem waitRecs_setCore (s : State) (c : CoreId) (k : Core) : (s.setCore c k).waitRecs = s.waitRecs := rfl
@[simp] theorem waitRecs_onCore (s : State) (c : CoreId) (f : Core → Core) : (s.onCore c f).waitRecs = s.waitRecs := rfl
@[simp] theorem waitRecs_onMem (s : State) (f : Mem → Mem) : (s.onMem f).waitRecs = s.waitRecs := rfl
@[simp] theorem waitRecs_onLink (s : State) (l : Nat) (f : Link → Link) : (s.onLink l f).waitRecs = s.waitRecs := rfl
@[simp] theorem waitRecs_onHost (s : State) (f : HostIf → HostIf) : (s.onHost f).waitRecs = s.waitRecs := rfl
@[simp] theorem waitRecs_setFq (s : State) (t : Nat) (q : FaultQ) : (s.setFq t q).waitRecs = s.waitRecs := rfl
@[simp] theorem agenda_onGath (s : State) (g : Nat) (f : Gatherer → Gatherer) : (s.onGath g f).agenda = s.agenda := rfl
@[simp] theorem turnNo_onGath (s : State) (g : Nat) (f : Gatherer → Gatherer) : (s.onGath g f).turnNo = s.turnNo := rfl
@[simp] theorem cur_onGath (s : State) (g : Nat) (f : Gatherer → Gatherer) : (s.onGath g f).cur = s.cur := rfl
@[simp] theorem free_onGath (s : State) (g : Nat) (f : Gatherer → Gatherer) : (s.onGath g f).free = s.free := rfl
@[simp] theorem cycle_onGath (s : State) (g : Nat) (f : Gatherer → Gatherer) : (s.onGath g f).cycle = s.cycle := rfl
@[simp] theorem saves_onGath (s : State) (g : Nat) (f : Gatherer → Gatherer) : (s.onGath g f).saves = s.saves := rfl
@[simp] theorem regClks_onGath (s : State) (g : Nat) (f : Gatherer → Gatherer) : (s.onGath g f).regClks = s.regClks := rfl
@[simp] theorem lineOps_onGath (s : State) (g : Nat) (f : Gatherer → Gatherer) : (s.onGath g f).lineOps = s.lineOps := rfl
@[simp] theorem ft_onGath (s : State) (g : Nat) (f : Gatherer → Gatherer) : (s.onGath g f).ft = s.ft := rfl
@[simp] theorem ftRep_onGath (s : State) (g : Nat) (f : Gatherer → Gatherer) : (s.onGath g f).ftRep = s.ftRep := rfl
@[simp] theorem phase_onGath (s : State) (g : Nat) (f : Gatherer → Gatherer) : (s.onGath g f).phase = s.phase := rfl
@[simp] theorem repPhase_onGath (s : State) (g : Nat) (f : Gatherer → Gatherer) : (s.onGath g f).repPhase = s.repPhase := rfl
@[simp] theorem slewAt_onGath (s : State) (g : Nat) (f : Gatherer → Gatherer) : (s.onGath g f).slewAt = s.slewAt := rfl
@[simp] theorem repSlewAt_onGath (s : State) (g : Nat) (f : Gatherer → Gatherer) : (s.onGath g f).repSlewAt = s.repSlewAt := rfl
@[simp] theorem tickOrigin_onGath (s : State) (g : Nat) (f : Gatherer → Gatherer) : (s.onGath g f).tickOrigin = s.tickOrigin := rfl
@[simp] theorem tickPeriod_onGath (s : State) (g : Nat) (f : Gatherer → Gatherer) : (s.onGath g f).tickPeriod = s.tickPeriod := rfl
@[simp] theorem rsBase_onGath (s : State) (g : Nat) (f : Gatherer → Gatherer) : (s.onGath g f).rsBase = s.rsBase := rfl
@[simp] theorem tails_onGath (s : State) (g : Nat) (f : Gatherer → Gatherer) : (s.onGath g f).tails = s.tails := rfl
@[simp] theorem tailClks_onGath (s : State) (g : Nat) (f : Gatherer → Gatherer) : (s.onGath g f).tailClks = s.tailClks := rfl
@[simp] theorem fqs_onGath (s : State) (g : Nat) (f : Gatherer → Gatherer) : (s.onGath g f).fqs = s.fqs := rfl
@[simp] theorem waitRecs_onGath (s : State) (g : Nat) (f : Gatherer → Gatherer) : (s.onGath g f).waitRecs = s.waitRecs := rfl
@[simp] theorem ctxs_onGath (s : State) (g : Nat) (f : Gatherer → Gatherer) : (s.onGath g f).ctxs = s.ctxs := rfl
@[simp] theorem ws_onGath (s : State) (g : Nat) (f : Gatherer → Gatherer) : (s.onGath g f).ws = s.ws := rfl
@[simp] theorem mem_onGath (s : State) (g : Nat) (f : Gatherer → Gatherer) : (s.onGath g f).mem = s.mem := rfl
@[simp] theorem tree_onGath (s : State) (g : Nat) (f : Gatherer → Gatherer) : (s.onGath g f).tree = s.tree := rfl
@[simp] theorem tg_onGath (s : State) (g : Nat) (f : Gatherer → Gatherer) : (s.onGath g f).tg = s.tg := rfl
@[simp] theorem host_onGath (s : State) (g : Nat) (f : Gatherer → Gatherer) : (s.onGath g f).host = s.host := rfl
@[simp] theorem links_onGath (s : State) (g : Nat) (f : Gatherer → Gatherer) : (s.onGath g f).links = s.links := rfl
@[simp] theorem remotes_onGath (s : State) (g : Nat) (f : Gatherer → Gatherer) : (s.onGath g f).remotes = s.remotes := rfl
@[simp] theorem power_onGath (s : State) (g : Nat) (f : Gatherer → Gatherer) : (s.onGath g f).power = s.power := rfl
@[simp] theorem boot_onGath (s : State) (g : Nat) (f : Gatherer → Gatherer) : (s.onGath g f).boot = s.boot := rfl
@[simp] theorem cores_onGath (s : State) (g : Nat) (f : Gatherer → Gatherer) : (s.onGath g f).cores = s.cores := rfl
@[simp] theorem agenda_onCtl (s : State) (h : Nat) (f : Ctl → Ctl) : (s.onCtl h f).agenda = s.agenda := rfl
@[simp] theorem turnNo_onCtl (s : State) (h : Nat) (f : Ctl → Ctl) : (s.onCtl h f).turnNo = s.turnNo := rfl
@[simp] theorem cur_onCtl (s : State) (h : Nat) (f : Ctl → Ctl) : (s.onCtl h f).cur = s.cur := rfl
@[simp] theorem free_onCtl (s : State) (h : Nat) (f : Ctl → Ctl) : (s.onCtl h f).free = s.free := rfl
@[simp] theorem cycle_onCtl (s : State) (h : Nat) (f : Ctl → Ctl) : (s.onCtl h f).cycle = s.cycle := rfl
@[simp] theorem saves_onCtl (s : State) (h : Nat) (f : Ctl → Ctl) : (s.onCtl h f).saves = s.saves := rfl
@[simp] theorem regClks_onCtl (s : State) (h : Nat) (f : Ctl → Ctl) : (s.onCtl h f).regClks = s.regClks := rfl
@[simp] theorem lineOps_onCtl (s : State) (h : Nat) (f : Ctl → Ctl) : (s.onCtl h f).lineOps = s.lineOps := rfl
@[simp] theorem ft_onCtl (s : State) (h : Nat) (f : Ctl → Ctl) : (s.onCtl h f).ft = s.ft := rfl
@[simp] theorem ftRep_onCtl (s : State) (h : Nat) (f : Ctl → Ctl) : (s.onCtl h f).ftRep = s.ftRep := rfl
@[simp] theorem phase_onCtl (s : State) (h : Nat) (f : Ctl → Ctl) : (s.onCtl h f).phase = s.phase := rfl
@[simp] theorem repPhase_onCtl (s : State) (h : Nat) (f : Ctl → Ctl) : (s.onCtl h f).repPhase = s.repPhase := rfl
@[simp] theorem slewAt_onCtl (s : State) (h : Nat) (f : Ctl → Ctl) : (s.onCtl h f).slewAt = s.slewAt := rfl
@[simp] theorem repSlewAt_onCtl (s : State) (h : Nat) (f : Ctl → Ctl) : (s.onCtl h f).repSlewAt = s.repSlewAt := rfl
@[simp] theorem tickOrigin_onCtl (s : State) (h : Nat) (f : Ctl → Ctl) : (s.onCtl h f).tickOrigin = s.tickOrigin := rfl
@[simp] theorem tickPeriod_onCtl (s : State) (h : Nat) (f : Ctl → Ctl) : (s.onCtl h f).tickPeriod = s.tickPeriod := rfl
@[simp] theorem rsBase_onCtl (s : State) (h : Nat) (f : Ctl → Ctl) : (s.onCtl h f).rsBase = s.rsBase := rfl
@[simp] theorem tails_onCtl (s : State) (h : Nat) (f : Ctl → Ctl) : (s.onCtl h f).tails = s.tails := rfl
@[simp] theorem tailClks_onCtl (s : State) (h : Nat) (f : Ctl → Ctl) : (s.onCtl h f).tailClks = s.tailClks := rfl
@[simp] theorem fqs_onCtl (s : State) (h : Nat) (f : Ctl → Ctl) : (s.onCtl h f).fqs = s.fqs := rfl
@[simp] theorem waitRecs_onCtl (s : State) (h : Nat) (f : Ctl → Ctl) : (s.onCtl h f).waitRecs = s.waitRecs := rfl
@[simp] theorem ctxs_onCtl (s : State) (h : Nat) (f : Ctl → Ctl) : (s.onCtl h f).ctxs = s.ctxs := rfl
@[simp] theorem ws_onCtl (s : State) (h : Nat) (f : Ctl → Ctl) : (s.onCtl h f).ws = s.ws := rfl
@[simp] theorem tree_onCtl (s : State) (h : Nat) (f : Ctl → Ctl) : (s.onCtl h f).tree = s.tree := rfl
@[simp] theorem tg_onCtl (s : State) (h : Nat) (f : Ctl → Ctl) : (s.onCtl h f).tg = s.tg := rfl
@[simp] theorem gath_onCtl (s : State) (h : Nat) (f : Ctl → Ctl) : (s.onCtl h f).gath = s.gath := rfl
@[simp] theorem host_onCtl (s : State) (h : Nat) (f : Ctl → Ctl) : (s.onCtl h f).host = s.host := rfl
@[simp] theorem links_onCtl (s : State) (h : Nat) (f : Ctl → Ctl) : (s.onCtl h f).links = s.links := rfl
@[simp] theorem remotes_onCtl (s : State) (h : Nat) (f : Ctl → Ctl) : (s.onCtl h f).remotes = s.remotes := rfl
@[simp] theorem power_onCtl (s : State) (h : Nat) (f : Ctl → Ctl) : (s.onCtl h f).power = s.power := rfl
@[simp] theorem boot_onCtl (s : State) (h : Nat) (f : Ctl → Ctl) : (s.onCtl h f).boot = s.boot := rfl
@[simp] theorem cores_onCtl (s : State) (h : Nat) (f : Ctl → Ctl) : (s.onCtl h f).cores = s.cores := rfl
@[simp] theorem host_onHost (s : State) (f : HostIf → HostIf) : (s.onHost f).host = f s.host := rfl

/-! ## Fields of a core -/

@[simp] theorem a_setRing (k : Core) (t : Strm) (r : Ring) : (k.setRing t r).a = k.a := rfl
@[simp] theorem a_setEngine (k : Core) (t : Strm) (g : Engine) : (k.setEngine t g).a = k.a := by cases t <;> rfl
@[simp] theorem x_setRing (k : Core) (t : Strm) (r : Ring) : (k.setRing t r).x = k.x := rfl
@[simp] theorem x_setEngine (k : Core) (t : Strm) (g : Engine) : (k.setEngine t g).x = k.x := by cases t <;> rfl
@[simp] theorem p_setRing (k : Core) (t : Strm) (r : Ring) : (k.setRing t r).p = k.p := rfl
@[simp] theorem p_setEngine (k : Core) (t : Strm) (g : Engine) : (k.setEngine t g).p = k.p := by cases t <;> rfl
@[simp] theorem ax_setRing (k : Core) (t : Strm) (r : Ring) : (k.setRing t r).ax = k.ax := rfl
@[simp] theorem ax_setEngine (k : Core) (t : Strm) (g : Engine) : (k.setEngine t g).ax = k.ax := by cases t <;> rfl
@[simp] theorem xa_setRing (k : Core) (t : Strm) (r : Ring) : (k.setRing t r).xa = k.xa := rfl
@[simp] theorem xa_setEngine (k : Core) (t : Strm) (g : Engine) : (k.setEngine t g).xa = k.xa := by cases t <;> rfl
@[simp] theorem flags_setRing (k : Core) (t : Strm) (r : Ring) : (k.setRing t r).flags = k.flags := rfl
@[simp] theorem flags_setEngine (k : Core) (t : Strm) (g : Engine) : (k.setEngine t g).flags = k.flags := by cases t <;> rfl
@[simp] theorem flagNum_setRing (k : Core) (t : Strm) (r : Ring) : (k.setRing t r).flagNum = k.flagNum := rfl
@[simp] theorem flagNum_setEngine (k : Core) (t : Strm) (g : Engine) : (k.setEngine t g).flagNum = k.flagNum := by cases t <;> rfl
@[simp] theorem flagBase_setRing (k : Core) (t : Strm) (r : Ring) : (k.setRing t r).flagBase = k.flagBase := rfl
@[simp] theorem flagBase_setEngine (k : Core) (t : Strm) (g : Engine) : (k.setEngine t g).flagBase = k.flagBase := by cases t <;> rfl
@[simp] theorem ctx_setRing (k : Core) (t : Strm) (r : Ring) : (k.setRing t r).ctx = k.ctx := rfl
@[simp] theorem ctx_setEngine (k : Core) (t : Strm) (g : Engine) : (k.setEngine t g).ctx = k.ctx := by cases t <;> rfl
@[simp] theorem priv_setRing (k : Core) (t : Strm) (r : Ring) : (k.setRing t r).priv = k.priv := rfl
@[simp] theorem priv_setEngine (k : Core) (t : Strm) (g : Engine) : (k.setEngine t g).priv = k.priv := by cases t <;> rfl
@[simp] theorem budget_setRing (k : Core) (t : Strm) (r : Ring) : (k.setRing t r).budget = k.budget := rfl
@[simp] theorem budget_setEngine (k : Core) (t : Strm) (g : Engine) : (k.setEngine t g).budget = k.budget := by cases t <;> rfl
@[simp] theorem budgetAt_setRing (k : Core) (t : Strm) (r : Ring) : (k.setRing t r).budgetAt = k.budgetAt := rfl
@[simp] theorem budgetAt_setEngine (k : Core) (t : Strm) (g : Engine) : (k.setEngine t g).budgetAt = k.budgetAt := by cases t <;> rfl
@[simp] theorem passId_setRing (k : Core) (t : Strm) (r : Ring) : (k.setRing t r).passId = k.passId := rfl
@[simp] theorem passId_setEngine (k : Core) (t : Strm) (g : Engine) : (k.setEngine t g).passId = k.passId := by cases t <;> rfl
@[simp] theorem fmtSlot_setRing (k : Core) (t : Strm) (r : Ring) : (k.setRing t r).fmtSlot = k.fmtSlot := rfl
@[simp] theorem fmtSlot_setEngine (k : Core) (t : Strm) (g : Engine) : (k.setEngine t g).fmtSlot = k.fmtSlot := by cases t <;> rfl
@[simp] theorem round_setRing (k : Core) (t : Strm) (r : Ring) : (k.setRing t r).round = k.round := rfl
@[simp] theorem round_setEngine (k : Core) (t : Strm) (g : Engine) : (k.setEngine t g).round = k.round := by cases t <;> rfl
@[simp] theorem srSeed_setRing (k : Core) (t : Strm) (r : Ring) : (k.setRing t r).srSeed = k.srSeed := rfl
@[simp] theorem srSeed_setEngine (k : Core) (t : Strm) (g : Engine) : (k.setEngine t g).srSeed = k.srSeed := by cases t <;> rfl
@[simp] theorem pmSel_setRing (k : Core) (t : Strm) (r : Ring) : (k.setRing t r).pmSel = k.pmSel := rfl
@[simp] theorem pmSel_setEngine (k : Core) (t : Strm) (g : Engine) : (k.setEngine t g).pmSel = k.pmSel := by cases t <;> rfl
@[simp] theorem pmCnt_setRing (k : Core) (t : Strm) (r : Ring) : (k.setRing t r).pmCnt = k.pmCnt := rfl
@[simp] theorem pmCnt_setEngine (k : Core) (t : Strm) (g : Engine) : (k.setEngine t g).pmCnt = k.pmCnt := by cases t <;> rfl
@[simp] theorem pmAt_setRing (k : Core) (t : Strm) (r : Ring) : (k.setRing t r).pmAt = k.pmAt := rfl
@[simp] theorem pmAt_setEngine (k : Core) (t : Strm) (g : Engine) : (k.setEngine t g).pmAt = k.pmAt := by cases t <;> rfl
@[simp] theorem excCause_setRing (k : Core) (t : Strm) (r : Ring) : (k.setRing t r).excCause = k.excCause := rfl
@[simp] theorem excCause_setEngine (k : Core) (t : Strm) (g : Engine) : (k.setEngine t g).excCause = k.excCause := by cases t <;> rfl
@[simp] theorem excWord_setRing (k : Core) (t : Strm) (r : Ring) : (k.setRing t r).excWord = k.excWord := rfl
@[simp] theorem excWord_setEngine (k : Core) (t : Strm) (g : Engine) : (k.setEngine t g).excWord = k.excWord := by cases t <;> rfl
@[simp] theorem excAddr_setRing (k : Core) (t : Strm) (r : Ring) : (k.setRing t r).excAddr = k.excAddr := rfl
@[simp] theorem excAddr_setEngine (k : Core) (t : Strm) (g : Engine) : (k.setEngine t g).excAddr = k.excAddr := by cases t <;> rfl
@[simp] theorem excRet_setRing (k : Core) (t : Strm) (r : Ring) : (k.setRing t r).excRet = k.excRet := rfl
@[simp] theorem excRet_setEngine (k : Core) (t : Strm) (g : Engine) : (k.setEngine t g).excRet = k.excRet := by cases t <;> rfl
@[simp] theorem bankFmt_setRing (k : Core) (t : Strm) (r : Ring) : (k.setRing t r).bankFmt = k.bankFmt := rfl
@[simp] theorem bankFmt_setEngine (k : Core) (t : Strm) (g : Engine) : (k.setEngine t g).bankFmt = k.bankFmt := by cases t <;> rfl
@[simp] theorem owner_setRing (k : Core) (t : Strm) (r : Ring) : (k.setRing t r).owner = k.owner := rfl
@[simp] theorem owner_setEngine (k : Core) (t : Strm) (g : Engine) : (k.setEngine t g).owner = k.owner := by cases t <;> rfl
@[simp] theorem spad_setRing (k : Core) (t : Strm) (r : Ring) : (k.setRing t r).spad = k.spad := rfl
@[simp] theorem spad_setEngine (k : Core) (t : Strm) (g : Engine) : (k.setEngine t g).spad = k.spad := by cases t <;> rfl
@[simp] theorem side_setRing (k : Core) (t : Strm) (r : Ring) : (k.setRing t r).side = k.side := rfl
@[simp] theorem side_setEngine (k : Core) (t : Strm) (g : Engine) : (k.setEngine t g).side = k.side := by cases t <;> rfl
@[simp] theorem rings_setEngine (k : Core) (t : Strm) (g : Engine) : (k.setEngine t g).rings = k.rings := by cases t <;> rfl
@[simp] theorem handler_setRing (k : Core) (t : Strm) (r : Ring) : (k.setRing t r).handler = k.handler := rfl
@[simp] theorem handler_setEngine (k : Core) (t : Strm) (g : Engine) : (k.setEngine t g).handler = k.handler := by cases t <;> rfl
@[simp] theorem handlerPos_setRing (k : Core) (t : Strm) (r : Ring) : (k.setRing t r).handlerPos = k.handlerPos := rfl
@[simp] theorem handlerPos_setEngine (k : Core) (t : Strm) (g : Engine) : (k.setEngine t g).handlerPos = k.handlerPos := by cases t <;> rfl
@[simp] theorem wdone_setRing (k : Core) (t : Strm) (r : Ring) : (k.setRing t r).wdone = k.wdone := rfl
@[simp] theorem wdone_setEngine (k : Core) (t : Strm) (g : Engine) : (k.setEngine t g).wdone = k.wdone := by cases t <;> rfl
@[simp] theorem xLfsr_setRing (k : Core) (t : Strm) (r : Ring) : (k.setRing t r).xLfsr = k.xLfsr := rfl
@[simp] theorem xLfsr_setEngine (k : Core) (t : Strm) (g : Engine) : (k.setEngine t g).xLfsr = k.xLfsr := by cases t <;> rfl
@[simp] theorem xReload_setRing (k : Core) (t : Strm) (r : Ring) : (k.setRing t r).xReload = k.xReload := rfl
@[simp] theorem xReload_setEngine (k : Core) (t : Strm) (g : Engine) : (k.setEngine t g).xReload = k.xReload := by cases t <;> rfl
@[simp] theorem xHalt_setRing (k : Core) (t : Strm) (r : Ring) : (k.setRing t r).xHalt = k.xHalt := rfl
@[simp] theorem xHalt_setEngine (k : Core) (t : Strm) (g : Engine) : (k.setEngine t g).xHalt = k.xHalt := by cases t <;> rfl
@[simp] theorem m_setRing (k : Core) (t : Strm) (r : Ring) : (k.setRing t r).m = k.m := rfl
@[simp] theorem v_setRing (k : Core) (t : Strm) (r : Ring) : (k.setRing t r).v = k.v := rfl
@[simp] theorem c_setRing (k : Core) (t : Strm) (r : Ring) : (k.setRing t r).c = k.c := rfl
@[simp] theorem acc_setRing (k : Core) (t : Strm) (r : Ring) : (k.setRing t r).acc = k.acc := rfl
@[simp] theorem acc_setEngine (k : Core) (t : Strm) (g : Engine) : (k.setEngine t g).acc = k.acc := by cases t <;> rfl
@[simp] theorem accMode_setRing (k : Core) (t : Strm) (r : Ring) : (k.setRing t r).accMode = k.accMode := rfl
@[simp] theorem accMode_setEngine (k : Core) (t : Strm) (g : Engine) : (k.setEngine t g).accMode = k.accMode := by cases t <;> rfl
@[simp] theorem accShadow_setRing (k : Core) (t : Strm) (r : Ring) : (k.setRing t r).accShadow = k.accShadow := rfl
@[simp] theorem accShadow_setEngine (k : Core) (t : Strm) (g : Engine) : (k.setEngine t g).accShadow = k.accShadow := by cases t <;> rfl
@[simp] theorem accShadowRows_setRing (k : Core) (t : Strm) (r : Ring) : (k.setRing t r).accShadowRows = k.accShadowRows := rfl
@[simp] theorem accShadowRows_setEngine (k : Core) (t : Strm) (g : Engine) : (k.setEngine t g).accShadowRows = k.accShadowRows := by cases t <;> rfl
@[simp] theorem stages_setRing (k : Core) (t : Strm) (r : Ring) : (k.setRing t r).stages = k.stages := rfl
@[simp] theorem stages_setEngine (k : Core) (t : Strm) (g : Engine) : (k.setEngine t g).stages = k.stages := by cases t <;> rfl
@[simp] theorem metaQ_setRing (k : Core) (t : Strm) (r : Ring) : (k.setRing t r).metaQ = k.metaQ := rfl
@[simp] theorem metaQ_setEngine (k : Core) (t : Strm) (g : Engine) : (k.setEngine t g).metaQ = k.metaQ := by cases t <;> rfl
@[simp] theorem bobbins_setRing (k : Core) (t : Strm) (r : Ring) : (k.setRing t r).bobbins = k.bobbins := rfl
@[simp] theorem bobbins_setEngine (k : Core) (t : Strm) (g : Engine) : (k.setEngine t g).bobbins = k.bobbins := by cases t <;> rfl
@[simp] theorem windows_setRing (k : Core) (t : Strm) (r : Ring) : (k.setRing t r).windows = k.windows := rfl
@[simp] theorem windows_setEngine (k : Core) (t : Strm) (g : Engine) : (k.setEngine t g).windows = k.windows := by cases t <;> rfl
@[simp] theorem sched_setRing (k : Core) (t : Strm) (r : Ring) : (k.setRing t r).sched = k.sched := rfl
@[simp] theorem sched_setEngine (k : Core) (t : Strm) (g : Engine) : (k.setEngine t g).sched = k.sched := by cases t <;> rfl
@[simp] theorem stageCtr_setRing (k : Core) (t : Strm) (r : Ring) : (k.setRing t r).stageCtr = k.stageCtr := rfl
@[simp] theorem stageCtr_setEngine (k : Core) (t : Strm) (g : Engine) : (k.setEngine t g).stageCtr = k.stageCtr := by cases t <;> rfl
@[simp] theorem marks_setRing (k : Core) (t : Strm) (r : Ring) : (k.setRing t r).marks = k.marks := rfl
@[simp] theorem marks_setEngine (k : Core) (t : Strm) (g : Engine) : (k.setEngine t g).marks = k.marks := by cases t <;> rfl
@[simp] theorem monitor_setRing (k : Core) (t : Strm) (r : Ring) : (k.setRing t r).monitor = k.monitor := rfl
@[simp] theorem monitor_setEngine (k : Core) (t : Strm) (g : Engine) : (k.setEngine t g).monitor = k.monitor := by cases t <;> rfl
@[simp] theorem finc_setRing (k : Core) (t : Strm) (r : Ring) : (k.setRing t r).finc = k.finc := rfl
@[simp] theorem finc_setEngine (k : Core) (t : Strm) (g : Engine) : (k.setEngine t g).finc = k.finc := by cases t <;> rfl
@[simp] theorem passMem_setRing (k : Core) (t : Strm) (r : Ring) : (k.setRing t r).passMem = k.passMem := rfl
@[simp] theorem passMem_setEngine (k : Core) (t : Strm) (g : Engine) : (k.setEngine t g).passMem = k.passMem := by cases t <;> rfl
@[simp] theorem rangeTags_setRing (k : Core) (t : Strm) (r : Ring) : (k.setRing t r).rangeTags = k.rangeTags := rfl
@[simp] theorem rangeTags_setEngine (k : Core) (t : Strm) (g : Engine) : (k.setEngine t g).rangeTags = k.rangeTags := by cases t <;> rfl
@[simp] theorem rangeFile_setRing (k : Core) (t : Strm) (r : Ring) : (k.setRing t r).rangeFile = k.rangeFile := rfl
@[simp] theorem rangeFile_setEngine (k : Core) (t : Strm) (g : Engine) : (k.setEngine t g).rangeFile = k.rangeFile := by cases t <;> rfl
@[simp] theorem header_setRing (k : Core) (t : Strm) (r : Ring) : (k.setRing t r).header = k.header := rfl
@[simp] theorem header_setEngine (k : Core) (t : Strm) (g : Engine) : (k.setEngine t g).header = k.header := by cases t <;> rfl
@[simp] theorem current_setRing (k : Core) (t : Strm) (r : Ring) : (k.setRing t r).current = k.current := rfl
@[simp] theorem current_setEngine (k : Core) (t : Strm) (g : Engine) : (k.setEngine t g).current = k.current := by cases t <;> rfl
@[simp] theorem budgetArmed_setRing (k : Core) (t : Strm) (r : Ring) : (k.setRing t r).budgetArmed = k.budgetArmed := rfl
@[simp] theorem budgetArmed_setEngine (k : Core) (t : Strm) (g : Engine) : (k.setEngine t g).budgetArmed = k.budgetArmed := by cases t <;> rfl
@[simp] theorem parkedOwners_setRing (k : Core) (t : Strm) (r : Ring) : (k.setRing t r).parkedOwners = k.parkedOwners := rfl
@[simp] theorem parkedOwners_setEngine (k : Core) (t : Strm) (g : Engine) : (k.setEngine t g).parkedOwners = k.parkedOwners := by cases t <;> rfl
@[simp] theorem rangeSet_setRing (k : Core) (t : Strm) (r : Ring) : (k.setRing t r).rangeSet = k.rangeSet := rfl
@[simp] theorem rangeSet_setEngine (k : Core) (t : Strm) (g : Engine) : (k.setEngine t g).rangeSet = k.rangeSet := by cases t <;> rfl
@[simp] theorem feed_setRing (k : Core) (t : Strm) (r : Ring) : (k.setRing t r).feed = k.feed := rfl
@[simp] theorem feed_setEngine (k : Core) (t : Strm) (g : Engine) : (k.setEngine t g).feed = k.feed := by cases t <;> rfl
@[simp] theorem codeHash_setRing (k : Core) (t : Strm) (r : Ring) : (k.setRing t r).codeHash = k.codeHash := rfl
@[simp] theorem codeHash_setEngine (k : Core) (t : Strm) (g : Engine) : (k.setEngine t g).codeHash = k.codeHash := by cases t <;> rfl
@[simp] theorem loaded_setRing (k : Core) (t : Strm) (r : Ring) : (k.setRing t r).loaded = k.loaded := rfl
@[simp] theorem loaded_setEngine (k : Core) (t : Strm) (g : Engine) : (k.setEngine t g).loaded = k.loaded := by cases t <;> rfl
@[simp] theorem advert_setRing (k : Core) (t : Strm) (r : Ring) : (k.setRing t r).advert = k.advert := rfl
@[simp] theorem advert_setEngine (k : Core) (t : Strm) (g : Engine) : (k.setEngine t g).advert = k.advert := by cases t <;> rfl
@[simp] theorem stall_setRing (k : Core) (t : Strm) (r : Ring) : (k.setRing t r).stall = k.stall := rfl
@[simp] theorem stall_setEngine (k : Core) (t : Strm) (g : Engine) : (k.setEngine t g).stall = k.stall := by cases t <;> rfl
@[simp] theorem late_setRing (k : Core) (t : Strm) (r : Ring) : (k.setRing t r).late = k.late := rfl
@[simp] theorem late_setEngine (k : Core) (t : Strm) (g : Engine) : (k.setEngine t g).late = k.late := by cases t <;> rfl
@[simp] theorem dead_setRing (k : Core) (t : Strm) (r : Ring) : (k.setRing t r).dead = k.dead := rfl
@[simp] theorem dead_setEngine (k : Core) (t : Strm) (g : Engine) : (k.setEngine t g).dead = k.dead := by cases t <;> rfl
@[simp] theorem wireInHandler_setRing (k : Core) (t : Strm) (r : Ring) : (k.setRing t r).wireInHandler = k.wireInHandler := rfl
@[simp] theorem wireInHandler_setEngine (k : Core) (t : Strm) (g : Engine) : (k.setEngine t g).wireInHandler = k.wireInHandler := by cases t <;> rfl
@[simp] theorem preempt_setRing (k : Core) (t : Strm) (r : Ring) : (k.setRing t r).preempt = k.preempt := rfl
@[simp] theorem preempt_setEngine (k : Core) (t : Strm) (g : Engine) : (k.setEngine t g).preempt = k.preempt := by cases t <;> rfl
@[simp] theorem sigDrop_setRing (k : Core) (t : Strm) (r : Ring) : (k.setRing t r).sigDrop = k.sigDrop := rfl
@[simp] theorem sigDrop_setEngine (k : Core) (t : Strm) (g : Engine) : (k.setEngine t g).sigDrop = k.sigDrop := by cases t <;> rfl
@[simp] theorem away_setRing (k : Core) (t : Strm) (r : Ring) : (k.setRing t r).away = k.away := rfl
@[simp] theorem away_setEngine (k : Core) (t : Strm) (g : Engine) : (k.setEngine t g).away = k.away := by cases t <;> rfl
@[simp] theorem regions_setRing (k : Core) (t : Strm) (r : Ring) : (k.setRing t r).regions = k.regions := rfl
@[simp] theorem regions_setEngine (k : Core) (t : Strm) (g : Engine) : (k.setEngine t g).regions = k.regions := by cases t <;> rfl
@[simp] theorem scnt_setRing (k : Core) (t : Strm) (r : Ring) : (k.setRing t r).scnt = k.scnt := rfl
@[simp] theorem scnt_setEngine (k : Core) (t : Strm) (g : Engine) : (k.setEngine t g).scnt = k.scnt := by cases t <;> rfl
@[simp] theorem scntAt_setRing (k : Core) (t : Strm) (r : Ring) : (k.setRing t r).scntAt = k.scntAt := rfl
@[simp] theorem scntAt_setEngine (k : Core) (t : Strm) (g : Engine) : (k.setEngine t g).scntAt = k.scntAt := by cases t <;> rfl
@[simp] theorem scntRun_setRing (k : Core) (t : Strm) (r : Ring) : (k.setRing t r).scntRun = k.scntRun := rfl
@[simp] theorem scntRun_setEngine (k : Core) (t : Strm) (g : Engine) : (k.setEngine t g).scntRun = k.scntRun := by cases t <;> rfl
@[simp] theorem lsSched_setRing (k : Core) (t : Strm) (r : Ring) : (k.setRing t r).lsSched = k.lsSched := rfl
@[simp] theorem lsSched_setEngine (k : Core) (t : Strm) (g : Engine) : (k.setEngine t g).lsSched = k.lsSched := by cases t <;> rfl
@[simp] theorem lsEn_setRing (k : Core) (t : Strm) (r : Ring) : (k.setRing t r).lsEn = k.lsEn := rfl
@[simp] theorem lsEn_setEngine (k : Core) (t : Strm) (g : Engine) : (k.setEngine t g).lsEn = k.lsEn := by cases t <;> rfl
@[simp] theorem lsGroup_setRing (k : Core) (t : Strm) (r : Ring) : (k.setRing t r).lsGroup = k.lsGroup := rfl
@[simp] theorem lsGroup_setEngine (k : Core) (t : Strm) (g : Engine) : (k.setEngine t g).lsGroup = k.lsGroup := by cases t <;> rfl
@[simp] theorem lsStart_setRing (k : Core) (t : Strm) (r : Ring) : (k.setRing t r).lsStart = k.lsStart := rfl
@[simp] theorem lsStart_setEngine (k : Core) (t : Strm) (g : Engine) : (k.setEngine t g).lsStart = k.lsStart := by cases t <;> rfl
@[simp] theorem aSafe_setRing (k : Core) (t : Strm) (r : Ring) : (k.setRing t r).aSafe = k.aSafe := rfl
@[simp] theorem aSafe_setEngine (k : Core) (t : Strm) (g : Engine) : (k.setEngine t g).aSafe = k.aSafe := by cases t <;> rfl
@[simp] theorem aSafeWord_setRing (k : Core) (t : Strm) (r : Ring) : (k.setRing t r).aSafeWord = k.aSafeWord := rfl
@[simp] theorem aSafeWord_setEngine (k : Core) (t : Strm) (g : Engine) : (k.setEngine t g).aSafeWord = k.aSafeWord := by cases t <;> rfl
@[simp] theorem safeAt_setRing (k : Core) (t : Strm) (r : Ring) : (k.setRing t r).safeAt = k.safeAt := rfl
@[simp] theorem safeAt_setEngine (k : Core) (t : Strm) (g : Engine) : (k.setEngine t g).safeAt = k.safeAt := by cases t <;> rfl
@[simp] theorem recv_setRing (k : Core) (t : Strm) (r : Ring) : (k.setRing t r).recv = k.recv := rfl
@[simp] theorem recv_setEngine (k : Core) (t : Strm) (g : Engine) : (k.setEngine t g).recv = k.recv := by cases t <;> rfl
@[simp] theorem spadErr_setRing (k : Core) (t : Strm) (r : Ring) : (k.setRing t r).spadErr = k.spadErr := rfl
@[simp] theorem spadErr_setEngine (k : Core) (t : Strm) (g : Engine) : (k.setEngine t g).spadErr = k.spadErr := by cases t <;> rfl
@[simp] theorem accErr_setRing (k : Core) (t : Strm) (r : Ring) : (k.setRing t r).accErr = k.accErr := rfl
@[simp] theorem accErr_setEngine (k : Core) (t : Strm) (g : Engine) : (k.setEngine t g).accErr = k.accErr := by cases t <;> rfl
@[simp] theorem handover_setRing (k : Core) (t : Strm) (r : Ring) : (k.setRing t r).handover = k.handover := rfl
@[simp] theorem handover_setEngine (k : Core) (t : Strm) (g : Engine) : (k.setEngine t g).handover = k.handover := by cases t <;> rfl
@[simp] theorem movedAt_setRing (k : Core) (t : Strm) (r : Ring) : (k.setRing t r).movedAt = k.movedAt := rfl
@[simp] theorem movedAt_setEngine (k : Core) (t : Strm) (g : Engine) : (k.setEngine t g).movedAt = k.movedAt := by cases t <;> rfl
@[simp] theorem xProg_setRing (k : Core) (t : Strm) (r : Ring) : (k.setRing t r).xProg = k.xProg := rfl
@[simp] theorem xProg_setEngine (k : Core) (t : Strm) (g : Engine) : (k.setEngine t g).xProg = k.xProg := by cases t <;> rfl
@[simp] theorem hints_setRing (k : Core) (t : Strm) (r : Ring) : (k.setRing t r).hints = k.hints := rfl
@[simp] theorem hints_setEngine (k : Core) (t : Strm) (g : Engine) : (k.setEngine t g).hints = k.hints := by cases t <;> rfl
@[simp] theorem ptTime_setRing (k : Core) (t : Strm) (r : Ring) : (k.setRing t r).ptTime = k.ptTime := rfl
@[simp] theorem ptTime_setEngine (k : Core) (t : Strm) (g : Engine) : (k.setEngine t g).ptTime = k.ptTime := by cases t <;> rfl
@[simp] theorem arbAt_setRing (k : Core) (t : Strm) (r : Ring) : (k.setRing t r).arbAt = k.arbAt := rfl
@[simp] theorem arbAt_setEngine (k : Core) (t : Strm) (g : Engine) : (k.setEngine t g).arbAt = k.arbAt := by cases t <;> rfl
@[simp] theorem winClk_setRing (k : Core) (t : Strm) (r : Ring) : (k.setRing t r).winClk = k.winClk := rfl
@[simp] theorem winClk_setEngine (k : Core) (t : Strm) (g : Engine) : (k.setEngine t g).winClk = k.winClk := by cases t <;> rfl
@[simp] theorem stalled_setRing (k : Core) (t : Strm) (r : Ring) : (k.setRing t r).stalled = k.stalled := rfl
@[simp] theorem stalled_setEngine (k : Core) (t : Strm) (g : Engine) : (k.setEngine t g).stalled = k.stalled := by cases t <;> rfl
@[simp] theorem xRes_setRing (k : Core) (t : Strm) (r : Ring) : (k.setRing t r).xRes = k.xRes := rfl
@[simp] theorem xRes_setEngine (k : Core) (t : Strm) (g : Engine) : (k.setEngine t g).xRes = k.xRes := by cases t <;> rfl
@[simp] theorem aMoves_setRing (k : Core) (t : Strm) (r : Ring) : (k.setRing t r).aMoves = k.aMoves := rfl
@[simp] theorem aMoves_setEngine (k : Core) (t : Strm) (g : Engine) : (k.setEngine t g).aMoves = k.aMoves := by cases t <;> rfl
@[simp] theorem arbRank_setRing (k : Core) (t : Strm) (r : Ring) : (k.setRing t r).arbRank = k.arbRank := rfl
@[simp] theorem arbRank_setEngine (k : Core) (t : Strm) (g : Engine) : (k.setEngine t g).arbRank = k.arbRank := by cases t <;> rfl

theorem ring_setRing_same (k : Core) (t : Strm) (r : Ring) : (k.setRing t r).ring t = r := by
  cases t <;> simp [Core.ring, Core.setRing, Strm.code, vget, vset]

theorem ring_setRing_other (k : Core) (t u : Strm) (r : Ring) (h : u ≠ t) : (k.setRing t r).ring u = k.ring u := by
  apply vget_vset_other
  cases t <;> cases u <;> simp_all [Strm.code]

end Sys2Proof.Machine
end

