-- ==== Sys2Proof/Laws/Memory.lean ====
section
/-! SUPPORT. The laws of the byte memories: every operation keeps the canonical form, a byte written reads back, and every other
byte reads as before. -/

namespace Sys2Proof.Machine

/-! ## The canonical form -/

/-- Keys rise from a first key on. -/
theorem keysRise_cons {α : Type} (k : Nat) (v : α) (m : SMap α) :
    keysRise ((k, v) :: m) = true ↔ (∀ e ∈ m, k < e.1) ∧ keysRise m = true := by
  induction m generalizing k v with
  | nil => simp [keysRise]
  | cons e m ih =>
    obtain ⟨k', v'⟩ := e
    simp only [keysRise, Bool.and_eq_true, decide_eq_true_eq, List.mem_cons, forall_eq_or_imp]
    constructor
    · rintro ⟨h1, h2⟩
      exact ⟨⟨h1, fun e he => Nat.lt_trans h1 (((ih k' v').1 h2).1 e he)⟩, h2⟩
    · rintro ⟨⟨h1, _⟩, h2⟩
      exact ⟨h1, h2⟩

theorem mem_mapPut {α : Type} (m : SMap α) (k : Nat) (v : α) (e : Nat × α) (h : e ∈ mapPut m k v) :
    e = (k, v) ∨ e ∈ m := by
  induction m with
  | nil => simp_all [mapPut]
  | cons x m ih =>
    obtain ⟨k', v'⟩ := x
    unfold mapPut at h
    split at h
    · simp at h; rcases h with h | h <;> simp [h]
    · split at h
      · simp at h; rcases h with h | h | h <;> simp [h]
      · simp at h
        rcases h with h | h
        · simp [h]
        · rcases ih h with h | h <;> simp [h]

theorem mem_mapDel {α : Type} (m : SMap α) (k : Nat) (e : Nat × α) (h : e ∈ mapDel m k) : e ∈ m := by
  induction m with
  | nil => simp_all [mapDel]
  | cons x m ih =>
    obtain ⟨k', v'⟩ := x
    unfold mapDel at h
    split at h
    · simp [h]
    · split at h
      · exact h
      · simp at h
        rcases h with h | h
        · simp [h]
        · simp [ih h]

theorem keysRise_mapPut {α : Type} (m : SMap α) (k : Nat) (v : α) (h : keysRise m = true) :
    keysRise (mapPut m k v) = true := by
  induction m with
  | nil => simp [mapPut, keysRise]
  | cons x m ih =>
    obtain ⟨k', v'⟩ := x
    obtain ⟨h1, h2⟩ := (keysRise_cons k' v' m).1 h
    unfold mapPut
    split
    · subst_vars
      exact (keysRise_cons _ _ _).2 ⟨h1, h2⟩
    · split
      · refine (keysRise_cons _ _ _).2 ⟨?_, h⟩
        intro e he
        simp at he
        rcases he with rfl | he
        · assumption
        · have := h1 e he; omega
      · refine (keysRise_cons _ _ _).2 ⟨?_, ih h2⟩
        intro e he
        rcases mem_mapPut m k v e he with rfl | he
        · simp; omega
        · exact h1 e he

theorem keysRise_mapDel {α : Type} (m : SMap α) (k : Nat) (h : keysRise m = true) : keysRise (mapDel m k) = true := by
  induction m with
  | nil => simp [mapDel, keysRise]
  | cons x m ih =>
    obtain ⟨k', v'⟩ := x
    obtain ⟨h1, h2⟩ := (keysRise_cons k' v' m).1 h
    unfold mapDel
    split
    · exact h2
    · split
      · exact h
      · exact (keysRise_cons _ _ _).2 ⟨fun e he => h1 e (mem_mapDel m k e he), ih h2⟩

/-- Writing a byte keeps the canonical form. -/
theorem wf_setByte (m : Memory) (a : Nat) (b : Byte) (h : Memory.wf m = true) : Memory.wf (setByte m a b) = true := by
  simp only [Memory.wf, Bool.and_eq_true, List.all_eq_true] at h ⊢
  unfold setByte
  split
  · exact ⟨keysRise_mapDel m a h.1, fun e he => h.2 e (mem_mapDel m a e he)⟩
  · refine ⟨keysRise_mapPut m a b h.1, fun e he => ?_⟩
    rcases mem_mapPut m a b e he with rfl | he
    · simpa using ‹¬ b = 0›
    · exact h.2 e he

/-- Writing bytes keeps the canonical form. -/
theorem wf_setBytes (m : Memory) (a : Nat) (bs : List Byte) (h : Memory.wf m = true) :
    Memory.wf (setBytes m a bs) = true := by
  induction bs generalizing m a with
  | nil => exact h
  | cons b bs ih => exact ih _ _ (wf_setByte m a b h)

theorem wf_empty : Memory.wf [] = true := rfl

theorem wf_reset : Memory.wf State.reset.mem.hbm = true ∧ Memory.wf State.reset.mem.l2 = true ∧
    Memory.wf State.reset.boot.sram = true ∧ Memory.wf Core.reset.spad = true ∧ Memory.wf Core.reset.side = true :=
  ⟨rfl, rfl, rfl, rfl, rfl⟩

/-! ## Reading after a write -/

theorem mapGet_mapDel_same {α : Type} (m : SMap α) (k : Nat) (h : keysRise m = true) : mapGet (mapDel m k) k = none := by
  induction m with
  | nil => simp [mapDel, mapGet]
  | cons x m ih =>
    obtain ⟨k', v'⟩ := x
    obtain ⟨h1, h2⟩ := (keysRise_cons k' v' m).1 h
    unfold mapDel
    split
    · subst_vars
      cases m with
      | nil => simp [mapGet]
      | cons y m =>
        obtain ⟨j, w⟩ := y
        have := h1 (j, w) (by simp)
        simp only at this
        simp [mapGet, this]
        omega
    · split <;> rename_i h3 h4
      · simp [mapGet, h3, h4]
      · simp [mapGet, h3, h4, ih h2]

theorem mapGet_lt {α : Type} (m : SMap α) (k : Nat) (h : ∀ e ∈ m, k < e.1) : mapGet m k = none := by
  cases m with
  | nil => rfl
  | cons x m =>
    obtain ⟨k', v'⟩ := x
    have := h (k', v') (by simp)
    simp only at this
    simp [mapGet, this]
    omega

theorem mapGet_mapDel_other {α : Type} (m : SMap α) (k j : Nat) (hj : j ≠ k) (h : keysRise m = true) :
    mapGet (mapDel m k) j = mapGet m j := by
  induction m with
  | nil => simp [mapDel]
  | cons x m ih =>
    obtain ⟨k', v'⟩ := x
    obtain ⟨h1, h2⟩ := (keysRise_cons k' v' m).1 h
    unfold mapDel
    split
    · subst_vars
      by_cases hlt : j < k'
      · rw [mapGet_lt m j (fun e he => Nat.lt_trans hlt (h1 e he))]
        have : ¬ k' = j := by omega
        simp [mapGet, this, hlt]
      · have : ¬ k' = j := fun e => hj e.symm
        simp [mapGet, this, hlt]
    · split
      · rfl
      · simp only [mapGet, ih h2]

/-- A byte written reads back. -/
theorem byteAt_setByte_same (m : Memory) (a : Nat) (b : Byte) (h : Memory.wf m = true) : byteAt (setByte m a b) a = b := by
  simp only [Memory.wf, Bool.and_eq_true] at h
  unfold setByte byteAt
  split
  · simp [mapGet_mapDel_same m a h.1, *]
  · simp

/-- Every other byte reads as before. -/
theorem byteAt_setByte_other (m : Memory) (a y : Nat) (b : Byte) (hy : y ≠ a) (h : Memory.wf m = true) :
    byteAt (setByte m a b) y = byteAt m y := by
  simp only [Memory.wf, Bool.and_eq_true] at h
  unfold setByte byteAt
  split
  · rw [mapGet_mapDel_other m a y hy h.1]
  · rw [mapGet_mapPut_other m a y b hy]

/-- Bytes outside those written read as before. -/
theorem byteAt_setBytes_other (m : Memory) (a y : Nat) (bs : List Byte) (hy : y < a ∨ a + bs.length ≤ y)
    (h : Memory.wf m = true) : byteAt (setBytes m a bs) y = byteAt m y := by
  induction bs generalizing m a with
  | nil => rfl
  | cons b bs ih =>
    simp only [List.length_cons] at hy
    rw [setBytes, ih _ _ (by omega) (wf_setByte m a b h), byteAt_setByte_other m a y b (by omega) h]

/-- Bytes written read back. -/
theorem bytesAt_setBytes (m : Memory) (a : Nat) (bs : List Byte) (h : Memory.wf m = true) :
    bytesAt (setBytes m a bs) a bs.length = bs := by
  induction bs generalizing m a with
  | nil => rfl
  | cons b bs ih =>
    have h' := wf_setByte m a b h
    have h1 : byteAt (setBytes (setByte m a b) (a + 1) bs) a = b := by
      rw [byteAt_setBytes_other _ _ _ _ (by omega) h', byteAt_setByte_same m a b h]
    simp only [setBytes, List.length_cons, bytesAt, h1, ih _ _ h']

end Sys2Proof.Machine
end

