-- ==== Sys2Proof/Laws/Frames.lean ====
section
/-! SUPPORT. Relations between the states before and after an action, and two that every access of memory and every fault record
keeps: what they leave as it was, and the canonical form of the memories. -/

namespace Sys2Proof.Machine

/-! ## Relations that an action keeps -/

/-- The state an action ends in, however it ends. -/
def endState {α : Type} : EStateM.Result Stop State α → State
  | .ok _ t => t
  | .error _ t => t

@[simp] theorem endState_ok {α : Type} (a : α) (t : State) : endState (.ok a t : EStateM.Result Stop State α) = t := rfl
@[simp] theorem endState_error {α : Type} (e : Stop) (t : State) :
    endState (.error e t : EStateM.Result Stop State α) = t := rfl

/-- However an action ends, the state it reaches stands in relation `R` to the one it started from. -/
def Keeps {α : Type} (R : State → State → Prop) (act : M α) : Prop := ∀ s, R s (endState (act s))

/-- A relation that holds of a state and itself and carries over steps. -/
structure Order (R : State → State → Prop) : Prop where
  refl : ∀ s, R s s
  trans : ∀ s t u, R s t → R t u → R s u

section
variable {α β : Type} {R : State → State → Prop}

theorem keeps_ok {act : M α} (h : Keeps R act) {s t : State} {a : α} (e : act s = .ok a t) : R s t := by
  have := h s
  rwa [e] at this

theorem keeps_error {act : M α} (h : Keeps R act) {s t : State} {x : Stop} (e : act s = .error x t) : R s t := by
  have := h s
  rwa [e] at this

theorem keeps_pure (hR : Order R) (a : α) : Keeps R (pure a : M α) := hR.refl
theorem keeps_throw (hR : Order R) (e : Stop) : Keeps R (throw e : M α) := hR.refl
theorem keeps_raise (hR : Order R) (c : BitVec 8) (n : Nat) (x y : Word) : Keeps R (raise c n x y : M α) := hR.refl
theorem keeps_getState (hR : Order R) : Keeps R getState := hR.refl
theorem keeps_getCore (hR : Order R) : Keeps R getCore := hR.refl
theorem keeps_modState (f : State → State) (h : ∀ s, R s (f s)) : Keeps R (modState f) := h
theorem keeps_modMem (f : Mem → Mem) (h : ∀ s : State, R s (s.onMem f)) : Keeps R (modMem f) := h
theorem keeps_modCore (f : Core → Core) (h : ∀ s : State, R s (s.onCore s.cur f)) : Keeps R (modCore f) := h

theorem keeps_stallIf (hR : Order R) (b : Bool) : Keeps R (stallIf b) := by
  intro s
  cases b <;> exact hR.refl s

theorem keeps_bind (hR : Order R) {x : M α} {f : α → M β} (hx : Keeps R x) (hf : ∀ a, Keeps R (f a)) :
    Keeps R (x >>= f) := by
  intro s
  have h1 := hx s
  simp only [bind, EStateM.bind]
  cases e : x s with
  | error _ t => simpa [e] using h1
  | ok a t =>
    rw [e] at h1
    exact hR.trans _ _ _ h1 (hf a t)

theorem keeps_attempt {act : M α} (h : Keeps R act) : Keeps R (attempt act) := by
  intro s
  have h1 := h s
  unfold attempt
  cases e : act s with
  | ok a t => simpa [e] using h1
  | error x t => cases x <;> simpa [e] using h1

theorem keeps_also (hR : Order R) {act : M Unit} (h : Keeps R act) (s : State) : R s (also act s) := by
  have h1 := h s
  unfold also
  cases e : act s with
  | ok a t => simpa [e] using h1
  | error x t => exact hR.refl s

theorem keeps_forM (hR : Order R) {γ : Type} {f : γ → M Unit} (h : ∀ x, Keeps R (f x)) : ∀ l : List γ, Keeps R (l.forM f)
  | [] => keeps_pure hR ()
  | x :: l => keeps_bind hR (h x) fun _ => keeps_forM hR h l

theorem keeps_ite {c : Prop} [Decidable c] {x y : M α} (hx : Keeps R x) (hy : Keeps R y) :
    Keeps R (if c then x else y) := by
  split
  · exact hx
  · exact hy

end

/-! ## The memory side -/

/-- A byte memory as it was, or with some bytes written. -/
def WrittenBytes (m n : Memory) : Prop := n = m ∨ ∃ a bs, n = setBytes m a bs

/-- A relation that every part of an access of memory keeps: the memory side with bytes written to L2 or to HBM, panel counters,
a change sent to the tree, free values used, and monitors woken. -/
structure MemOrder (R : State → State → Prop) : Prop extends Order R where
  mem : ∀ (s : State) (m : Mem), WrittenBytes s.mem.hbm m.hbm → WrittenBytes s.mem.l2 m.l2 → R s { s with mem := m }
  count : ∀ (s : State) (p src n : Nat), R s (s.pmPanel p src n)
  change : ∀ (s : State) (la : Nat), R s (s.change la)
  wake : ∀ (s : State) (line : Nat), R s (s.wake line)
  used : ∀ (s : State) (n : Nat), R s { s with free := n }

section
variable {α : Type} {R : State → State → Prop}

theorem MemOrder.onMem (hR : MemOrder R) (s : State) (f : Mem → Mem) (h1 : WrittenBytes s.mem.hbm (f s.mem).hbm)
    (h2 : WrittenBytes s.mem.l2 (f s.mem).l2) : R s (s.onMem f) := hR.mem s _ h1 h2

theorem MemOrder.onCtl (hR : MemOrder R) (s : State) (h : Nat) (f : Ctl → Ctl) : R s (s.onCtl h f) :=
  hR.onMem s _ (.inl rfl) (.inl rfl)

theorem MemOrder.demand (hR : MemOrder R) (s : State) (p : Nat) : R s (s.demand p) :=
  hR.mem s (s.demand p).mem (.inl rfl) (.inl rfl)

theorem MemOrder.setHbmLine (hR : MemOrder R) (s : State) (p slot : Nat) (d : BitVec 512) : R s (s.setHbmLine p slot d) :=
  hR.trans _ _ _ (hR.onMem s _ (.inr ⟨_, _, rfl⟩) (.inl rfl)) (hR.demand _ _)

theorem MemOrder.countIf (hR : MemOrder R) (s : State) (b : Bool) (h : Nat) (f : Ctl → Ctl) :
    R s (if b then s.onCtl h f else s) := by
  split
  · exact hR.onCtl s h f
  · exact hR.refl s

theorem MemOrder.mendHbm (hR : MemOrder R) (s : State) (p : Nat) : R s (s.mendHbm p) := by
  unfold State.mendHbm
  split
  · exact hR.onMem s _ (.inl rfl) (.inl rfl)
  · exact hR.refl s

/-- A line of the page table enters L2: errors and bytes counted, and the memory side without a byte of memory written. -/
theorem MemOrder.ptFill (hR : MemOrder R) (s : State) (p : Nat) : R s (s.ptFill p) := by
  unfold State.ptFill
  split
  · exact hR.refl s
  · simp only
    split
    · exact hR.trans _ _ _ (hR.trans _ _ _ (hR.countIf s _ _ Ctl.corrected) (hR.count _ _ _ _))
        (hR.onMem _ _ (.inl rfl) (.inl rfl))
    · exact hR.trans _ _ _ (hR.trans _ _ _ (hR.mendHbm s _) (hR.count _ _ _ _)) (hR.onMem _ _ (.inl rfl) (.inl rfl))

theorem catchUp_written (m : Mem) (p : Nat) (v : VClock) : (m.catchUp p v).hbm = m.hbm ∧ (m.catchUp p v).l2 = m.l2 := by
  unfold Mem.catchUp
  simp only
  generalize (splitNeeded p v m.updates).2.1 = us
  have : ∀ (us : List Update) (n : Mem), (us.foldl Mem.applyUpdate n).hbm = n.hbm ∧ (us.foldl Mem.applyUpdate n).l2 = n.l2 := by
    intro us
    induction us with
    | nil => intro n; exact ⟨rfl, rfl⟩
    | cons u us ih => intro n; exact ih (n.applyUpdate u)
  exact this us _

/-- Giving a write its place in the orders writes no byte. -/
theorem order_written (m : Mem) (q h key : Nat) : (m.order q h key).hbm = m.hbm ∧ (m.order q h key).l2 = m.l2 := by
  simp only [Mem.order, (catchUp_written _ _ _).1, (catchUp_written _ _ _).2, Mem.catchLine, and_self]

theorem MemOrder.setPtWord (hR : MemOrder R) (s : State) (q p : Nat) (w : Word) : R s (s.setPtWord q p w) :=
  hR.trans _ _ _ (hR.ptFill s _) (hR.mem _ (s.setPtWord q p w).mem (.inl (order_written _ _ _ _).1)
    (.inl (order_written _ _ _ _).2))

theorem MemOrder.markPte (hR : MemOrder R) (s : State) (h p n : Nat) : R s (s.markPte h p n) := by
  unfold State.markPte
  simp only
  split
  · exact hR.setPtWord _ _ _ _
  · exact hR.refl s

theorem MemOrder.dropBad (hR : MemOrder R) (s : State) (h la : Nat) : R s (s.dropBad h la) := by
  unfold State.dropBad
  split
  · exact hR.onCtl s _ _
  · exact hR.refl s

theorem keeps_ptOpen (hR : MemOrder R) (la p : Nat) : Keeps R (ptOpen la p) := by
  intro s
  unfold ptOpen
  simp only
  repeat' split
  all_goals first
    | exact hR.refl s
    | exact hR.onCtl s _ Ctl.lostOne
    | exact hR.ptFill s _

theorem keeps_walkOpen (hR : MemOrder R) (ctl la : Nat) : Keeps R (walkOpen ctl la) := fun s =>
  keeps_forM hR.toOrder (keeps_ptOpen hR la) _ s

theorem keeps_translate (hR : MemOrder R) (la : Nat) (va : Word) : Keeps R (translate la va) := by
  intro s
  unfold translate
  simp only
  split
  · exact hR.refl s
  · split
    · simp only [endState_ok]
      exact hR.trans _ _ _ (hR.dropBad s _ _) (hR.onCtl _ _ _)
    · have h := hR.trans _ _ _ (hR.trans _ _ _ (hR.dropBad s (xlatCtl (la / 64)) la) (hR.count _ (xlatCtl (la / 64) / 2) 0x103 1))
        (keeps_walkOpen hR (xlatCtl (la / 64)) la _)
      split <;> rename_i e <;> rw [e] at h
      · exact h
      · split
        · exact h
        · rename_i l _
          have h := hR.trans _ _ _ h (hR.markPte _ (xlatCtl (la / 64)) l.at0 54)
          split
          · exact h
          · simp only [endState_ok]
            split
            · exact h
            · exact hR.trans _ _ _ h (hR.onCtl _ _ _)

theorem keeps_fillHome (hR : MemOrder R) (line : Nat) (owner : Tag) (x : Xlat) (whole : Bool) :
    Keeps R (fillHome line owner x whole) := by
  intro s
  have install : ∀ (t : State) (d bad : Bool) (b : BitVec 512), R t (t.onMem fun m => { m with
      lines := mapPut m.lines line { dirty := d, w := x.w, exp := x.exp, key := BitVec.ofNat 8 x.key, owner := owner,
                                     failed := false, err := if bad then 3 else 0 }
      l2 := setBytes m.l2 (line * 64) (lineBytes b) }) :=
    fun t d bad b => hR.onMem t _ (.inl rfl) (.inr ⟨_, _, rfl⟩)
  unfold fillHome
  simp only
  split
  · exact hR.refl s
  split
  · exact hR.refl s
  split
  · exact hR.refl s
  split
  · exact hR.trans _ _ _ (hR.onMem s _ (.inl rfl) (.inl rfl)) (install _ _ _ _)
  split
  · exact hR.refl s
  split
  · split
    · exact hR.onCtl s _ _
    · exact hR.trans _ _ _ (hR.trans _ _ _ (hR.trans _ _ _ (hR.countIf s _ _ Ctl.corrected) (hR.count _ _ _ _))
        (hR.onMem _ _ (.inl rfl) (.inl rfl))) (install _ _ _ _)
  · split
    · exact hR.refl s
    · split
      · exact hR.onCtl s _ _
      · exact hR.trans _ _ _ (hR.trans _ _ _ (hR.mendHbm s _) (hR.count _ _ _ _)) (install _ _ _ _)

theorem keeps_needLine (hR : MemOrder R) (line : Nat) (part : BitVec 2) (owner : Tag) (va : Word) :
    Keeps R (needLine line part owner va) := by
  intro s
  unfold needLine
  split
  · split
    · exact hR.refl s
    · exact hR.count _ _ _ _
  · have h := hR.trans _ _ _ (hR.count s (homePanel line) 0x101 1) (keeps_translate hR (line * 64) va _)
    split
    · rename_i x t e
      rw [e] at h
      exact hR.trans _ _ _ h (keeps_fillHome hR line owner x false t)
    · rename_i x t e
      rw [e] at h
      exact h

theorem keeps_readLine (hR : MemOrder R) (p : Nat) (owner : Tag) (la n : Nat) (va : Word) :
    Keeps R (readLine p owner la n va) := by
  intro s
  unfold readLine
  simp only
  split
  · have h := keeps_needLine hR (la / 64) (halves la n) owner va s
    split <;> rename_i e <;> rw [e] at h <;> exact h
  · split
    · split
      · exact hR.refl s
      · exact hR.count _ _ _ _
    · split
      · exact hR.refl s
      · have h := keeps_needLine hR (la / 64) 3 owner va s
        split <;> rename_i e <;> rw [e] at h
        · exact h
        · exact h
        · refine hR.trans _ _ _ h ?_
          rename_i t
          split
          · exact hR.refl t
          exact hR.mem t _ (.inl (catchUp_written _ _ _).1) (.inl (catchUp_written _ _ _).2)

theorem MemOrder.sequence (hR : MemOrder R) (s : State) (q la : Nat) (bs : List Byte) : R s (s.sequence q la bs) := by
  refine hR.trans _ _ _ (hR.mem s _ ?_ ?_) (hR.wake _ _)
  · exact .inl (order_written _ _ _ _).1
  · exact .inr ⟨la, bs, congrArg (setBytes · la bs) (order_written _ _ _ _).2⟩

theorem MemOrder.widen (hR : MemOrder R) (s : State) (q la : Nat) (bs : List Byte) : R s (s.widen q la bs) :=
  hR.mem s (s.widen q la bs).mem (.inl rfl) (.inr ⟨la, bs, rfl⟩)

theorem MemOrder.commit (hR : MemOrder R) (s : State) (q la : Nat) (bs : List Byte) : R s (s.commit q la bs) := by
  unfold State.commit
  split
  · exact hR.sequence s q la bs
  · split
    · exact hR.widen s q la bs
    · exact hR.trans _ _ _ (hR.sequence s q la bs) (hR.onMem _ _ (.inl rfl) (.inl rfl))

theorem keeps_needWrite (hR : MemOrder R) (owner : Tag) (la n : Nat) (va : Word) : Keeps R (needWrite owner la n va) := by
  intro s
  have put : ∀ (t : State) (g : Line), R t (t.onMem fun m => { m with lines := mapPut m.lines (la / 64) g }) :=
    fun t g => hR.onMem t _ (.inl rfl) (.inl rfl)
  unfold needWrite
  simp only
  split
  · exact hR.refl s
  · split
    · split
      · exact hR.refl s
      · split
        · exact hR.refl s
        · have h := keeps_translate hR (la / 64 * 64) va s
          split <;> rename_i e <;> rw [e] at h
          · exact h
          · exact h
          · split
            · exact h
            · exact hR.trans _ _ _ h (put _ _)
    · have h := hR.trans _ _ _ (hR.count s (homePanel (la / 64)) 0x101 1) (keeps_translate hR (la / 64 * 64) va _)
      split <;> rename_i e <;> rw [e] at h
      · exact h
      · exact h
      · split
        · exact h
        · rename_i x u _
          have h := hR.trans _ _ _ h (keeps_fillHome hR (la / 64) owner x (decide (n = 64)) u)
          split
          · rename_i e
            rw [e] at h
            exact h
          · exact h

theorem MemOrder.cleanLine (hR : MemOrder R) (s : State) (line n : Nat) : R s (s.cleanLine line n) := by
  unfold State.cleanLine
  split
  · split
    · exact hR.onMem s _ (.inl rfl) (.inl rfl)
    · exact hR.refl s
  · exact hR.refl s

theorem keeps_writeLine (hR : MemOrder R) (p : Nat) (owner : Tag) (la : Nat) (bs : List Byte) (va : Word) (how : Store) :
    Keeps R (writeLine p owner la bs va how) := by
  intro s
  have h := keeps_needWrite hR owner la bs.length va s
  unfold writeLine
  split <;> rename_i e <;> rw [e] at h
  · exact h
  · rename_i t
    have h := hR.trans _ _ _ h (hR.cleanLine t (la / 64) bs.length)
    simp only
    split
    · rw [endState_ok]
      split
      · exact hR.trans _ _ _ h (hR.trans _ _ _ (hR.commit _ p la bs) (hR.change _ _))
      · exact hR.trans _ _ _ h (hR.commit _ p la bs)
    · rw [endState_ok]
      split
      · exact hR.trans _ _ _ h (hR.trans _ _ _ (hR.trans _ _ _ (hR.used _ _) (hR.commit _ _ _ _)) (hR.change _ _))
      · exact hR.trans _ _ _ h (hR.trans _ _ _ (hR.used _ _) (hR.commit _ _ _ _))

theorem keeps_readSpan (hR : Order R) {rd : Nat → Nat → M (List Byte)} (h : ∀ a k, Keeps R (rd a k)) :
    ∀ fuel la n, Keeps R (readSpan rd fuel la n)
  | 0, _, _ => keeps_pure hR _
  | fuel + 1, la, n => by
    unfold readSpan
    exact keeps_ite (keeps_pure hR _) (keeps_bind hR (h _ _) fun _ =>
      keeps_bind hR (keeps_readSpan hR h fuel _ _) fun _ => keeps_pure hR _)

theorem keeps_memRead (hR : MemOrder R) (p : Nat) (owner : Tag) (la n : Nat) (va : Word) : Keeps R (memRead p owner la n va) :=
  keeps_readSpan hR.toOrder (fun _ _ => keeps_readLine hR _ _ _ _ _) _ _ _

theorem keeps_writeSpan (hR : Order R) {wr : Nat → List Byte → M Unit} (h : ∀ a b, Keeps R (wr a b)) :
    ∀ fuel la bs, Keeps R (writeSpan wr fuel la bs)
  | 0, _, _ => keeps_pure hR _
  | fuel + 1, la, bs => by
    unfold writeSpan
    split
    · exact keeps_pure hR _
    · exact keeps_bind hR (h _ _) fun _ => keeps_writeSpan hR h fuel _ _

theorem keeps_memWrite (hR : MemOrder R) (p : Nat) (owner : Tag) (la : Nat) (bs : List Byte) (va : Word) (how : Store) :
    Keeps R (memWrite p owner la bs va how) :=
  keeps_writeSpan hR.toOrder (fun _ _ => keeps_writeLine hR _ _ _ _ _ _) _ _ _

/-- A line operation of an engine word is the access, one made before, or none. -/
theorem keeps_lineOp (hR : MemOrder R) {act : M (List Byte)} (h : Keeps R act) : Keeps R (lineOp act) := by
  intro s
  have h := h s
  unfold lineOp
  split
  · exact h
  · split
    · rw [endState_ok]
      exact hR.onMem s _ (.inl rfl) (.inl rfl)
    · split
      · exact hR.refl s
      · split <;> rename_i e <;> rw [e] at h
        · rw [endState_ok]
          exact hR.trans _ _ _ h (hR.onMem _ _ (.inl rfl) (.inl rfl))
        · exact h

theorem keeps_opRead (hR : MemOrder R) (p : Nat) (owner : Tag) (la n : Nat) (va : Word) : Keeps R (opRead p owner la n va) :=
  keeps_readSpan hR.toOrder (fun _ _ => keeps_lineOp hR (keeps_readLine hR _ _ _ _ _)) _ _ _

theorem keeps_opWrite (hR : MemOrder R) (p : Nat) (owner : Tag) (la : Nat) (bs : List Byte) (va : Word) :
    Keeps R (opWrite p owner la bs va) := by
  refine keeps_writeSpan hR.toOrder (fun a b => keeps_bind hR.toOrder (keeps_lineOp hR ?_) fun _ => keeps_pure hR.toOrder _) _ _ _
  refine keeps_bind hR.toOrder (keeps_getState hR.toOrder) fun t => keeps_bind hR.toOrder (keeps_writeLine hR _ _ _ _ _ _) fun _ =>
    keeps_bind hR.toOrder (keeps_modState _ fun s => ?_) fun _ => keeps_pure hR.toOrder _
  split
  · exact hR.refl s
  · exact hR.change s a

/-- A unit's access is the access, its fault caught. -/
theorem keeps_unitTry {act : M α} (h : Keeps R act) : Keeps R (unitTry act) := by
  intro s
  have h := h s
  unfold unitTry
  split <;> rename_i e <;> rw [e] at h <;> exact h

theorem keeps_unitRead (hR : MemOrder R) (p la n : Nat) : Keeps R (unitRead p la n) :=
  keeps_bind hR.toOrder (keeps_unitTry (keeps_memRead hR _ _ _ _ _)) fun _ => keeps_pure hR.toOrder _

theorem keeps_unitWrite (hR : MemOrder R) (p la : Nat) (bs : List Byte) : Keeps R (unitWrite p la bs) :=
  keeps_bind hR.toOrder (keeps_unitTry (keeps_memWrite hR _ _ _ _ _ _)) fun _ => keeps_pure hR.toOrder _

theorem keeps_unitWord (hR : MemOrder R) (p la : Nat) : Keeps R (unitWord p la) :=
  keeps_bind hR.toOrder (keeps_unitRead hR _ _ _) fun _ => keeps_pure hR.toOrder _

theorem MemOrder.undrainAt (hR : MemOrder R) (s : State) (key : Nat) : R s (s.undrainAt key) := by
  unfold State.undrainAt
  split
  · exact hR.onMem s _ (.inl rfl) (.inl rfl)
  · exact hR.refl s

theorem MemOrder.addDrainAt (hR : MemOrder R) (s : State) (key h p : Nat) : R s (s.addDrainAt key h p) :=
  hR.trans _ _ _ (hR.markPte s h p 54) (hR.onCtl _ _ _)

theorem keeps_catchUp (hR : MemOrder R) (p : Nat) (v : State → VClock) :
    Keeps R (modState fun s => s.onMem fun m => m.catchUp p (v s)) :=
  keeps_modState _ fun s => hR.onMem s _ (.inl (catchUp_written _ _ _).1) (.inl (catchUp_written _ _ _).2)

theorem keeps_homeRead (hR : MemOrder R) (p : Nat) (owner : Tag) (la n : Nat) (va : Word) :
    Keeps R (homeRead p owner la n va) :=
  keeps_bind hR.toOrder (keeps_readLine hR _ _ _ _ _) fun _ =>
    keeps_bind hR.toOrder (keeps_catchUp hR p fun s => s.stampOf (la / 64)) fun _ => keeps_pure hR.toOrder _

/-- An atomic at its home is an access of memory: a right to write, a read, and a write or a clock kept. -/
theorem keeps_homeRmwBy (hR : MemOrder R) (p : Nat) (owner : Tag) (la n : Nat) (va : Word) {f : Nat → M (Option Nat)}
    (hf : ∀ x, Keeps R (f x)) : Keeps R (homeRmwBy p owner la n va f) := by
  refine keeps_bind hR.toOrder (keeps_needWrite hR _ _ _ _) fun _ => keeps_bind hR.toOrder (keeps_homeRead hR _ _ _ _ _) fun b =>
    keeps_bind hR.toOrder (keeps_modMem _ fun s => hR.onMem s _ (.inl (catchUp_written _ _ _).1) (.inl (catchUp_written _ _ _).2))
      fun _ => keeps_bind hR.toOrder (hf _) fun r => ?_
  split
  · exact keeps_bind hR.toOrder (keeps_modState _ fun s => hR.onMem s _ (.inl rfl) (.inl rfl)) fun _ => keeps_pure hR.toOrder _
  · exact keeps_bind hR.toOrder (keeps_memWrite hR _ _ _ _ _ _) fun _ => keeps_pure hR.toOrder _

theorem keeps_homeRmw (hR : MemOrder R) (p : Nat) (owner : Tag) (la n : Nat) (va : Word) (f : Nat → Option Nat) :
    Keeps R (homeRmw p owner la n va f) :=
  keeps_homeRmwBy hR p owner la n va fun _ => keeps_pure hR.toOrder _

end

/-! ## Records -/

/-- A relation that the appending of a fault record keeps too: the registers of the fault queues, the interrupt, and the records
that wait. -/
structure RecOrder (R : State → State → Prop) : Prop extends MemOrder R where
  queue : ∀ (s : State) (t : Nat) (q : FaultQ), R s (s.setFq t q)
  raised : ∀ s : State, R s { s with host := { s.host with irqFault := true } }
  waits : ∀ (s : State) (l : List WaitRec), R s { s with waitRecs := l }

theorem keeps_appendNow {R : State → State → Prop} (hR : RecOrder R) (ft : Word) (t p : Nat) (r : Rec) :
    Keeps R (appendNow ft t p r) := by
  refine keeps_bind hR.toOrder (keeps_getState hR.toOrder) fun s => keeps_ite ?_ ?_
  · exact keeps_modState _ fun s => hR.queue _ _ _
  · refine keeps_bind hR.toOrder (keeps_unitWrite hR.toMemOrder _ _ _) fun _ => keeps_modState _ fun s => ?_
    exact hR.trans _ _ _ (hR.queue _ _ _) (hR.raised _)

/-- A record is appended, or waits with the state otherwise as it was. -/
theorem keeps_appendAt {R : State → State → Prop} (hR : RecOrder R) (ft : Word) (t p : Nat) (r : Rec) :
    Keeps R (appendAt ft t p r) := by
  intro s
  have h := keeps_appendNow hR ft t p r s
  unfold appendAt
  simp only
  split
  · exact hR.waits s _
  · split
    · rename_i e
      rw [e] at h
      exact hR.trans _ _ _ h (hR.toMemOrder.undrainAt _ _)
    · rename_i e
      rw [e] at h
      exact h
    · exact hR.trans _ _ _ (hR.waits s _) (hR.toMemOrder.addDrainAt _ _ _ _)
    · exact hR.waits s _

theorem keeps_appendTo {R : State → State → Prop} (hR : RecOrder R) (t p : Nat) (r : Rec) : Keeps R (appendTo t p r) :=
  keeps_bind hR.toOrder (keeps_getState hR.toOrder) fun _ => keeps_appendAt hR _ _ _ _

theorem RecOrder.retryRecs {R : State → State → Prop} (hR : RecOrder R) (s : State) : R s s.retryRecs :=
  hR.trans _ _ _ (hR.waits s []) (keeps_also hR.toOrder (keeps_forM hR.toOrder (fun _ => keeps_appendAt hR _ _ _ _) _) _)

theorem keeps_appendFault {R : State → State → Prop} (hR : RecOrder R) (p : Nat) (r : Rec) : Keeps R (appendFault p r) :=
  keeps_appendTo hR _ _ _

/-! ## What an access of memory leaves as it was -/

/-- All that an access of memory and a fault record may touch: the memory side, the panel counters, the tree's changes on their
way, the fault queues with their interrupt and the records that wait, the count of free values, and the sleeping monitors that a
write wakes. -/
def OnlyMemory (s t : State) : Prop :=
  t = { s with mem := t.mem, power := { s.power with pmCnt := t.power.pmCnt }, tree := { s.tree with changes := t.tree.changes },
               fqs := t.fqs, waitRecs := t.waitRecs, free := t.free, host := { s.host with irqFault := t.host.irqFault }, cores := t.cores } ∧
  ∀ c : CoreId, t.core c = { s.core c with monitor := (t.core c).monitor }

theorem mapGet_map {α β : Type} (m : SMap α) (f : Nat × α → Nat × β) (hk : ∀ e, (f e).1 = e.1) (k : Nat) :
    mapGet (m.map f) k = (mapGet m k).map fun v => (f (k, v)).2 := by
  induction m with
  | nil => rfl
  | cons e es ih =>
    obtain ⟨k', v⟩ := e
    have hf : f (k', v) = (k', (f (k', v)).2) := Prod.ext (hk (k', v)) rfl
    rw [List.map_cons, hf]
    simp only [mapGet]
    split
    · subst_vars
      rfl
    · split
      · rfl
      · exact ih

theorem onlyMemory_order : RecOrder OnlyMemory where
  refl s := ⟨rfl, fun _ => rfl⟩
  trans s t u h1 h2 := by
    obtain ⟨a1, b1⟩ := h1
    obtain ⟨a2, b2⟩ := h2
    refine ⟨?_, fun c => ?_⟩
    · rw [a2, a1]
    · rw [b2 c, b1 c]
  mem s m _ _ := ⟨rfl, fun _ => rfl⟩
  count s p src n := ⟨rfl, fun _ => rfl⟩
  change s la := by
    unfold State.change
    split <;> exact ⟨rfl, fun _ => rfl⟩
  wake s line := by
    refine ⟨rfl, fun c => ?_⟩
    unfold State.wake State.core
    simp only
    rw [mapGet_map]
    · cases mapGet s.cores c.toNat with
      | none => rfl
      | some k =>
        simp only [Option.map_some, Option.getD_some]
        split
        · split <;> rfl
        · rfl
    · intro e
      split
      · split <;> rfl
      · rfl
  used s n := ⟨rfl, fun _ => rfl⟩
  queue s t q := ⟨rfl, fun _ => rfl⟩
  raised s := ⟨rfl, fun _ => rfl⟩
  waits s l := ⟨rfl, fun _ => rfl⟩

/-! ## The canonical form -/

/-- Memories in canonical form stay so. -/
def StaysCanonical (s t : State) : Prop := s.memoriesWf = true → t.memoriesWf = true

theorem memoriesWf_mem (s : State) (m : Mem) (h : s.memoriesWf = true) (h1 : Memory.wf m.hbm = true) (h2 : Memory.wf m.l2 = true) :
    ({ s with mem := m } : State).memoriesWf = true := by
  unfold State.memoriesWf at *
  simp only [Bool.and_eq_true] at *
  exact ⟨⟨⟨h1, h2⟩, h.1.2⟩, h.2⟩

theorem wf_written {m n : Memory} (h : Memory.wf m = true) (hw : WrittenBytes m n) : Memory.wf n = true := by
  obtain rfl | ⟨a, bs, rfl⟩ := hw
  · exact h
  · exact wf_setBytes m a bs h

theorem staysCanonical_order : RecOrder StaysCanonical where
  refl _ h := h
  trans _ _ _ h1 h2 h := h2 (h1 h)
  mem s m h1 h2 h := by
    refine memoriesWf_mem s m h (wf_written ?_ h1) (wf_written ?_ h2)
    · unfold State.memoriesWf at h; simp_all
    · unfold State.memoriesWf at h; simp_all
  count _ _ _ _ h := h
  change s la h := by
    unfold State.change
    split <;> exact h
  wake s line h := by
    unfold State.memoriesWf State.wake at *
    simp only [Bool.and_eq_true, List.all_eq_true, List.mem_map] at *
    refine ⟨h.1, ?_⟩
    rintro e ⟨x, hx, rfl⟩
    have := h.2 x hx
    split
    · split <;> exact this
    · exact this
  used _ _ h := h
  queue _ _ _ h := h
  raised _ h := h
  waits _ _ h := h

end Sys2Proof.Machine
end

