-- ==== Sys2Proof/Laws/Harts.lean ====
section
/-! SUPPORT. The harts of the firmware complex: their registers after a write, and what one step of a hart does. -/

namespace Sys2Proof.Machine

@[simp] theorem Hart.getX_zero (h : Hart) : h.getX 0 = 0 := by simp [Hart.getX]
@[simp] theorem Hart.setX_zero (h : Hart) (v : Word) : h.setX 0 v = h := by simp [Hart.setX]

theorem Hart.getX_setX_same (h : Hart) (r : BitVec 5) (v : Word) (hr : r ≠ 0) : (h.setX r v).getX r = v := by
  have h0 : ¬r = 0#5 := hr
  simp [Hart.getX, Hart.setX, h0]

theorem Hart.getX_setX_other (h : Hart) (r q : BitVec 5) (v : Word) (hq : q ≠ r) : (h.setX r v).getX q = h.getX q := by
  have hn : r.toNat ≠ q.toNat := fun e => hq (BitVec.eq_of_toNat_eq e.symm)
  unfold Hart.setX
  split
  · rfl
  · simp [Hart.getX, hn]

@[simp] theorem Hart.setX_pc (h : Hart) (r : BitVec 5) (v : Word) : (h.setX r v).pc = h.pc := by
  unfold Hart.setX; split <;> rfl
@[simp] theorem Hart.setX_f (h : Hart) (r : BitVec 5) (v : Word) : (h.setX r v).f = h.f := by
  unfold Hart.setX; split <;> rfl
@[simp] theorem Hart.setX_mode (h : Hart) (r : BitVec 5) (v : Word) : (h.setX r v).mode = h.mode := by
  unfold Hart.setX; split <;> rfl
@[simp] theorem Hart.setX_mstatus (h : Hart) (r : BitVec 5) (v : Word) : (h.setX r v).mstatus = h.mstatus := by
  unfold Hart.setX; split <;> rfl
@[simp] theorem Hart.setX_minstret (h : Hart) (r : BitVec 5) (v : Word) : (h.setX r v).minstret = h.minstret := by
  unfold Hart.setX; split <;> rfl
@[simp] theorem Hart.setX_mcountinhibit (h : Hart) (r : BitVec 5) (v : Word) :
    (h.setX r v).mcountinhibit = h.mcountinhibit := by
  unfold Hart.setX; split <;> rfl

@[simp] theorem State.putHart_mem (s : State) (i : Nat) (h : Hart) : (s.putHart i h).mem = s.mem := rfl
@[simp] theorem State.putHart_cores (s : State) (i : Nat) (h : Hart) : (s.putHart i h).cores = s.cores := rfl
@[simp] theorem State.putHart_host (s : State) (i : Nat) (h : Hart) : (s.putHart i h).host = s.host := rfl
@[simp] theorem State.putHart_harts (s : State) (i : Nat) (h : Hart) : (s.putHart i h).boot.harts = s.boot.harts := rfl
theorem State.putHart_same (s : State) (i : Nat) (h : Hart) (hi : i < 4) : vget (s.putHart i h).boot.hart i = h := vget_vset_same _ _ _ hi
theorem State.putHart_other (s : State) (i j : Nat) (h : Hart) (hj : j ≠ i) :
    vget (s.putHart i h).boot.hart j = vget s.boot.hart j := vget_vset_other _ _ _ _ hj

/-- A hart with no interrupt to take, whose cycles do not count, is after its step as its instruction leaves it, or in the handler
of the exception that this raises. -/
theorem hartStep_instr (i : Nat) (s t : State) (r : Except Trap Hart)
    (hn : (vget s.boot.hart i).interrupt s.host.raised = none) (hc : bit (vget s.boot.hart i).mcountinhibit 0 = true)
    (hr : (hartInstr i (vget s.boot.hart i)).run s = .ok r t) :
    hartStep i s = .ok () (t.putHart i (match r with
      | .ok h => h
      | .error e => (vget s.boot.hart i).take false e.cause e.tval)) := by
  cases r <;>
    simp_all [hartStep, getState, modState, bind, EStateM.bind, pure, EStateM.pure]

/-- An operation on integer registers. -/
theorem hartOp_alu (i : Nat) (h : Hart) (raw : Word) (len : Nat) (op : RvAlu) (w : Bool) (rd a b : BitVec 5) (s : State) :
    (hartOp i h raw len (.alu op w rd a b)).run s =
      .ok (.ok ({ h with pc := h.pc + w64 len }.setX rd (rvAluOf op w (h.getX a) (h.getX b)))) s := rfl

end Sys2Proof.Machine
end

