-- ==== Sys2Proof/Laws/Run.lean ====
section
/-! SUPPORT. What the shared operations do, once: running an A, X or engine word whose checks pass, running an event, and reading
and writing registers. -/

namespace Sys2Proof.Machine

/-! ## Actions -/

theorem bind_ok {α β : Type} (x : M α) (f : α → M β) (s t : State) (a : α) (h : x s = .ok a t) :
    (x >>= f) s = f a t := by
  simp [bind, EStateM.bind, h]

@[simp] theorem pure_run {α : Type} (a : α) (s : State) : (pure a : M α) s = .ok a s := rfl
@[simp] theorem getState_run (s : State) : getState s = .ok s s := rfl
@[simp] theorem getCore_run (s : State) : getCore s = .ok (s.core s.cur) s := rfl
@[simp] theorem modState_run (f : State → State) (s : State) : modState f s = .ok () (f s) := rfl
@[simp] theorem modCore_run (f : Core → Core) (s : State) : modCore f s = .ok () (s.onCore s.cur f) := rfl
@[simp] theorem modMem_run (f : Mem → Mem) (s : State) : modMem f s = .ok () (s.onMem f) := rfl
@[simp] theorem aTag_run (s : State) : aTag s = .ok (s.core s.cur).tag s := rfl
@[simp] theorem stallIf_false (s : State) : stallIf false s = .ok () s := rfl

theorem attempt_ok {α : Type} (x : M α) (s t : State) (a : α) (h : x s = .ok a t) : attempt x s = .ok (.ok a) t := by
  simp [attempt, h]

/-! ## Words -/

/-- An A word whose checks pass and whose effect ends well completes. -/
theorem runA_ok (i : Instr) (h : Hdr) (priv : Bool) (bad : Core → Word) (body : M Flow) (s s1 t : State) (fl : Flow)
    (hi : s.issueA i h = some s1) (hp : priv = true → (s.core s.cur).priv = true) (hb : bad (s.core s.cur) = 0)
    (hr : body s1 = .ok fl t) : runA i h priv bad body s = .next (s.endA i h fl t) := by
  have hp' : (priv && !(s.core s.cur).priv) = false := by cases priv <;> simp_all
  by_cases hm : badOperands i ||| (s.core s.cur).clauseBad h = 0
  · have hm' : badOperands i ||| (s.core s.cur).clauseBad h ||| bad (s.core s.cur) = 0 := by rw [hm, hb]; rfl
    by_cases hd : (!s.dueOk (s.core s.cur) .a || (s.core s.cur).movesHold i) = false
    · by_cases hw : (s.core s.cur).wdone = true
      · simp only [State.issueA, hm, hd, hw, ne_eq, not_true, if_false, if_true, Bool.false_eq_true,
          Option.some.injEq] at hi
        simp only [runA, State.endA, hp', hm', hd, hw, hi, hr, ne_eq, not_true, if_false, if_true,
          Bool.false_eq_true]
      · cases hk : (s.core s.cur).passWait h.wait with
        | none => simp only [State.issueA, hd, hw, hk, Bool.false_eq_true, if_false, ite_self, reduceCtorEq] at hi
        | some k1 =>
          cases hs : k1.issueSig h.sig with
          | error o => simp only [State.issueA, hd, hw, hk, hs, Bool.false_eq_true, if_false, ite_self, reduceCtorEq] at hi
          | ok k2 =>
            simp only [State.issueA, hm, hd, hw, hk, hs, ne_eq, not_true, if_false, Bool.false_eq_true,
              Option.some.injEq] at hi
            simp only [runA, State.endA, hp', hm', hd, hw, hk, hs, hi, hr, ne_eq, not_true, if_false,
              Bool.false_eq_true]
    · simp only [State.issueA, Bool.not_eq_false _ ▸ hd, if_true, ite_self, reduceCtorEq] at hi
  · simp only [State.issueA, hm, ne_eq, not_false_eq_true, if_true] at hi
    exact absurd hi (by simp)

/-- An X word whose checks pass and whose effect ends well has issued. -/
theorem runX_ok (i : Instr) (h : Hdr) (bad : Core → Word) (body : M Flow) (s s1 t : State) (fl : Flow)
    (hi : s.issueX i h = some s1) (hb : bad (s.core s.cur) = 0) (hr : body s1 = .ok fl t) :
    runX i h bad body s = .next (s.endX i fl t) := by
  by_cases hm : badOperands i ||| (s.core s.cur).clauseBad h = 0
  · have hm' : badOperands i ||| (s.core s.cur).clauseBad h ||| bad (s.core s.cur) = 0 := by rw [hm, hb]; rfl
    simp only [State.issueX, hm, ne_eq, not_true, if_false] at hi
    simp only [runX, State.endX, hm', ne_eq, not_true, if_false]
    split at hi
    · cases hi
    · rename_i hd
      rw [if_neg hd]
      split at hi
      · cases hi
      · rename_i k1 hk
        try simp only [hk]
        split at hi
        · rename_i k2 hs
          cases hi
          simp only [hs, hr]
        · cases hi
  · simp only [State.issueX, hm, ne_eq, not_false_eq_true, if_true] at hi
    exact absurd hi (by simp)

/-- A word that has issued on an engine, or a schedule entry, goes on to its effects. -/
theorem tryWord_issued (w bad : Word) (e : EWord) (ds : List Dsc) (entry : Option Nat) (s s1 : State) (w1 : Issued)
    (hi : s.issueWord w bad e ds entry = some (w1, s1)) : tryWord w bad e ds entry s = perform e s.cur w1 s1 s := by
  unfold State.issueWord at hi
  unfold tryWord
  simp only at hi ⊢
  split at hi
  · cases hi
  · rename_i hg
    simp only [Bool.or_eq_true, not_or, Bool.not_eq_true] at hg
    obtain ⟨⟨⟨hf, hd⟩, ho⟩, ht⟩ := hg
    split at hi
    · cases hi
    · rename_i k1 hk
      split at hi
      · cases hi
      · rename_i hb
        simp only [Bool.or_eq_true, not_or, Bool.not_eq_true] at hb
        obtain ⟨hb, hi'⟩ := hb
        split at hi
        · cases hi
        · rename_i k2 hs
          rw [Option.isSome_eq_false_iff, Option.isNone_iff_eq_none] at hf hi'
          simp only [hf, hd, ho, ht, hk, hb, hi', hs, Bool.or_self, Bool.false_eq_true, if_false]
          revert hi
          generalize e.prep _ _ = r
          intro hi
          cases r with
          | ok w2 s2 => cases hi; rfl
          | error x s2 => cases hi

/-- A word that keeps neither formats nor an LFSR of its own performs its effects in the state as it stands. -/
theorem inWord_bare {α : Type} (c : CoreId) (t : Strm) (w : Issued) (act : M α) (s s' : State) (a : α) (he : w.env = none)
    (hw : w.own = none) (hr : act s = .ok a s') : inWord c t w act s = .ok (a, none) s' := by
  simp [inWord, he, hw, hr]

/-- A word that performs its effects whole. -/
theorem runBody_whole (c : CoreId) (t : Strm) (body : Issued → M Issued) (w w' : Issued) (s s' : State) (ho : w.ops = [])
    (he : w.env = none) (hw : w.own = none) (hr : body w s = .ok w' s') :
    runBody c t body w none s = .ok { w' with todo := false, ops := [], lines := [], own := none } s' := by
  simp [runBody, ho, inWord_bare c t w (body w) s s' w' he hw hr]

/-- An engine word whose effects at issue end well stands among the words in progress. -/
theorem runE_ok (i : Instr) (e : EWord) (s s1 t : State) (w w' : Issued) (hi : s.issueE i e = some (w, s1))
    (hn : s1.opsNow e s.cur w.dscs = none) (ho : w.ops = []) (he : w.env = none) (hw : w.own = none)
    (hr : e.body { w with todo := true } s1 = .ok w' t) :
    runE i e s = .next (t.endE s.cur e.strm { w' with todo := false, ops := [], lines := [], own := none }) := by
  have := tryWord_issued _ _ _ _ _ _ _ _ hi
  unfold runE
  unfold State.latched at this
  rw [this]
  have hb := runBody_whole s.cur e.strm e.body { w with todo := true } w' s1 t ho he hw hr
  simp only [perform, hn, Option.isSome_none, Bool.false_eq_true, if_false, reduceCtorEq, he] at hb ⊢
  rw [ho, hw] at hb
  simp [State.endE, ho, hw, hb]

/-- An engine word with all its effects to come stands among the words in progress. -/
theorem runE_later (i : Instr) (e : EWord) (s s1 : State) (w : Issued) (hi : s.issueE i e = some (w, s1))
    (hn : s1.opsNow e s.cur w.dscs = some 0) :
    runE i e s = .next (s1.endE s.cur e.strm
      { w with todo := true, env := some (w.env.getD (s1.envOf s.cur w.dscs)) }) := by
  have := tryWord_issued _ _ _ _ _ _ _ _ hi
  unfold runE
  unfold State.latched at this
  rw [this]
  simp [perform, hn, State.endE]

/-! ## Events -/

theorem runEvent_ok (act : M Unit) (s t : State) (h : act s = .ok () t) : runEvent act s = .next t := by
  simp [runEvent, h]

theorem also_ok (act : M Unit) (s t : State) (h : act s = .ok () t) : also act s = t := by
  simp [also, h]

/-! ## Registers -/

theorem vget_lt {α : Type} [Inhabited α] {n : Nat} (v : Vector α n) (i : Nat) (h : i < n) : vget v i = v[i] := by
  unfold vget
  rw [Vector.getElem?_eq_getElem h]
  rfl

theorem rdA_plain (s : State) (r : Reg) (h0 : r ≠ 0) (h31 : r ≠ 31) : rdA r s = .ok (vget (s.core s.cur).a r.toNat) s := by
  unfold rdA
  rw [if_neg h0, if_neg h31, vget_lt _ _ r.isLt]

theorem rdX_plain (s : State) (r : Reg) (h0 : r ≠ 0) (h31 : r ≠ 31) (hp : (s.core s.cur).xPending (.reg r) = false) :
    rdX r s = .ok (vget (s.core s.cur).x r.toNat) s := by
  unfold rdX
  simp only [if_neg h0, if_neg h31, hp, Bool.false_eq_true, if_false, vget_lt _ _ r.isLt]

theorem rdP_run (s : State) (p : Pred) (hp : p = 0 ∨ (s.core s.cur).xPending (.pred p) = false) : rdP p s = .ok (p == 0 || vget (s.core s.cur).p p.toNat) s := by
  have h : (p != 0 && (s.core s.cur).xPending (.pred p)) = false := by
    obtain rfl | h := hp
    · rfl
    · rw [h, Bool.and_false]
  simp only [rdP, h, Bool.false_eq_true, if_false]
  rw [vget_lt _ _ p.isLt]

end Sys2Proof.Machine
end

