-- ==== Sys2Proof/Laws/Lines.lean ====
section
/-! SUPPORT. Reads and writes of memory whose lines are held: they end well, a write keeps every line held, and a read leaves the
state as it was. And how long a saved context is. -/

namespace Sys2Proof.Machine

theorem mapGet_mapPut {α : Type} (m : SMap α) (k j : Nat) (v : α) :
    mapGet (mapPut m k v) j = if k = j then some v else mapGet m j := by
  induction m with
  | nil => by_cases h : k = j <;> simp [mapPut, mapGet, h]
  | cons e m ih =>
    obtain ⟨k', v'⟩ := e
    by_cases h1 : k' = k
    · subst h1
      by_cases h : k' = j <;> simp [mapPut, mapGet, h]
    · by_cases h2 : k < k'
      · simp only [mapPut, if_neg h1, if_pos h2]
        by_cases h : k = j
        · simp [mapGet, h]
        · simp only [mapGet, if_neg h]
          by_cases h3 : j < k
          · have h4 : k' ≠ j := by omega
            have h5 : j < k' := by omega
            simp [h3, h4, h5]
          · simp [h3]
      · simp only [mapPut, if_neg h1, if_neg h2, mapGet, ih]
        by_cases h : k = j
        · subst h
          simp [h1, h2]
        · simp [h]

theorem mapGet_range {α : Type} (x : α) (n : Nat) :
    ∀ a l : Nat, a ≤ l → l < a + n → mapGet ((List.range' a n).map fun i => (i, x)) l = some x := by
  induction n with
  | zero => intro a l h1 h2; omega
  | succ n ih =>
    intro a l h1 h2
    rw [List.range'_succ, List.map_cons]
    by_cases h : a = l
    · simp [mapGet, h]
    · have h3 : ¬ l < a := by omega
      simp only [mapGet, if_neg h, if_neg h3]
      exact ih (a + 1) l (by omega) (by omega)

/-- Updates applied leave the lines and the controllers as they were. -/
theorem catchUp_lines (m : Mem) (p : Nat) (v : VClock) : (m.catchUp p v).lines = m.lines ∧ (m.catchUp p v).ctls = m.ctls := by
  have h : ∀ (us : List Update) (m : Mem), (us.foldl Mem.applyUpdate m).lines = m.lines ∧
      (us.foldl Mem.applyUpdate m).ctls = m.ctls := by
    intro us
    induction us with
    | nil => intro m; exact ⟨rfl, rfl⟩
    | cons u us ih => intro m; rw [List.foldl_cons]; exact ih (m.applyUpdate u)
  unfold Mem.catchUp
  exact h _ _

/-- So does giving a write its place in the orders. -/
theorem order_lines (m : Mem) (q h key : Nat) : (m.order q h key).lines = m.lines ∧ (m.order q h key).ctls = m.ctls := by
  simp only [Mem.order, Mem.catchLine, (catchUp_lines _ _ _).1, (catchUp_lines _ _ _).2, and_self]

theorem pmPanel_none (s : State) (p src n : Nat) (h : s.power.pmSel = []) : s.pmPanel p src n = s := by
  have e : ∀ f : Nat × BitVec 16 → Bool, s.power.pmSel.filter f = [] := fun f => by rw [h]; rfl
  simp only [State.pmPanel, e, List.foldl_nil]

/-- A line that can be written where it lies: held without error, with W and a lease that lasts, while its controller caches. -/
def State.writable (s : State) (l : Nat) : Prop :=
  (∃ t, s.line? l = some t ∧ t.failed = false ∧ t.err = 0 ∧ t.w = true ∧ (s.ftOf (homePanel l)).toNat + 64 < t.exp.toNat) ∧
    (vget s.mem.ctls (xlatCtl l)).uncached = false

/-- What a write needs of the rest of the machine, and keeps. -/
def State.quiet (s : State) : Prop := s.ws.wids = [] ∧ s.power.pmSel = []

theorem sequence_lines (s : State) (q la : Nat) (bs : List Byte) :
    (s.sequence q la bs).mem.lines =
      mapPut s.mem.lines (la / 64) { (mapGet s.mem.lines (la / 64)).getD default with dirty := true } := by
  simp only [State.sequence, State.wake, Mem.tell, (order_lines _ _ _ _).1]

/-- A write at home leaves the lines as they were, or marks its own line dirty. -/
theorem commit_lines (s : State) (q la : Nat) (bs : List Byte) :
    (s.commit q la bs).mem.lines = s.mem.lines ∨ (s.commit q la bs).mem.lines =
      mapPut s.mem.lines (la / 64) { (mapGet s.mem.lines (la / 64)).getD default with dirty := true } := by
  unfold State.commit
  split
  · exact .inr (sequence_lines s q la bs)
  · split
    · exact .inl rfl
    · exact .inr (sequence_lines s q la bs)

/-- A write at home leaves time, the weight store, the panel counters and the controllers as they were. -/
theorem commit_rest (s : State) (q la : Nat) (bs : List Byte) :
    (∀ p, (s.commit q la bs).ftOf p = s.ftOf p) ∧ (s.commit q la bs).ws = s.ws ∧ (s.commit q la bs).power = s.power ∧
      (s.commit q la bs).mem.ctls = s.mem.ctls := by
  unfold State.commit
  split
  · exact ⟨fun _ => rfl, rfl, rfl, (order_lines _ _ _ _).2⟩
  · split
    · exact ⟨fun _ => rfl, rfl, rfl, rfl⟩
    · exact ⟨fun _ => rfl, rfl, rfl, (order_lines _ _ _ _).2⟩

theorem writable_commit (s : State) (q la : Nat) (bs : List Byte) (hw : s.writable (la / 64)) (l : Nat) (h : s.writable l) :
    (s.commit q la bs).writable l := by
  obtain ⟨⟨t, h1, h2, h3, h4, h5⟩, h6⟩ := h
  obtain ⟨⟨x, g1, g2, g3, g4, g5⟩, _⟩ := hw
  unfold State.writable State.line?
  rw [(commit_rest s q la bs).1, (commit_rest s q la bs).2.2.2]
  refine ⟨?_, h6⟩
  obtain e | e := commit_lines s q la bs
  · rw [e]
    exact ⟨t, h1, h2, h3, h4, h5⟩
  · rw [e, mapGet_mapPut]
    by_cases e : la / 64 = l
    · subst e
      refine ⟨_, by rw [if_pos rfl], ?_⟩
      unfold State.line? at g1
      rw [g1]
      exact ⟨g2, g3, g4, g5⟩
    · exact ⟨t, by rw [if_neg e]; exact h1, h2, h3, h4, h5⟩

theorem quiet_commit (s : State) (q la : Nat) (bs : List Byte) (h : s.quiet) : (s.commit q la bs).quiet := by
  obtain ⟨_, h1, h2, _⟩ := commit_rest s q la bs
  exact ⟨by rw [h1]; exact h.1, by rw [h2]; exact h.2⟩

/-- A change sent to the tree leaves the memory side as it was. -/
theorem change_keeps (s : State) (la : Nat) : (s.quiet → (s.change la).quiet) ∧ ∀ l, s.writable l → (s.change la).writable l := by
  unfold State.change
  split <;> exact ⟨id, fun _ => id⟩

theorem writeLine_ok (p : Nat) (owner : Tag) (la : Nat) (bs : List Byte) (va : Word) (how : Store) (s : State)
    (hw : s.writable (la / 64)) (hq : s.quiet) :
    ∃ t, writeLine p owner la bs va how s = .ok () t ∧ t.quiet ∧ ∀ l, s.writable l → t.writable l := by
  have hn : needWrite owner la bs.length va s = .ok () s := by
    obtain ⟨⟨t, h1, h2, h3, h4, h5⟩, h6⟩ := hw
    have hl : s.lockedAt la = false := by simp [State.lockedAt, hq.1]
    have h0 : (0 : BitVec 2) &&& halves la bs.length = 0 := BitVec.zero_and
    simp only [needWrite, hl, Bool.false_eq_true, if_false, h1, h2, h3, h4, h0, bne_self_eq_false, Bool.false_and, Bool.or_self,
      decide_eq_true h5, Bool.and_self, if_true, h6, Bool.not_false]
  have step : ∀ (u : State) (a : Nat) (d : List Byte), a / 64 = la / 64 → u.quiet → (∀ l, s.writable l → u.writable l) →
      ((u.commit p a d).change la).quiet ∧ ∀ l, s.writable l → ((u.commit p a d).change la).writable l := by
    intro u a d ha hu hk
    refine ⟨(change_keeps _ la).1 (quiet_commit u p a d hu), fun l hl => (change_keeps _ la).2 l ?_⟩
    exact writable_commit u p a d (by rw [ha]; exact hk _ hw) l (hk l hl)
  have hc : s.cleanLine (la / 64) bs.length = s := by
    obtain ⟨⟨t, h1, h2, h3, _⟩, _⟩ := hw
    simp [State.cleanLine, h1, h2, h3]
  unfold writeLine
  rw [hn]
  simp only [hc]
  have plain : ∀ (u : State) (a : Nat) (d : List Byte), a / 64 = la / 64 → u.quiet → (∀ l, s.writable l → u.writable l) →
      (u.commit p a d).quiet ∧ ∀ l, s.writable l → (u.commit p a d).writable l := fun u a d ha hu hk =>
    ⟨quiet_commit u p a d hu, fun l hl => writable_commit u p a d (by rw [ha]; exact hk _ hw) l (hk l hl)⟩
  split
  · refine ⟨_, rfl, ?_⟩
    split
    · exact step s la bs rfl hq fun _ => id
    · exact plain s la bs rfl hq fun _ => id
  · refine ⟨_, rfl, ?_⟩
    split
    · exact step _ _ _ (by omega) hq fun _ => id
    · exact plain _ _ _ (by omega) hq fun _ => id

theorem writeSpan_ok (p : Nat) (owner : Tag) (va : Word) (how : Store) (n fuel : Nat) :
    ∀ (la : Nat) (bs : List Byte) (s : State), la + bs.length ≤ 64 * n → (∀ l, l < n → s.writable l) → s.quiet →
      ∃ t, writeSpan (fun a b => writeLine p owner a b va how) fuel la bs s = .ok () t := by
  induction fuel with
  | zero => intro la bs s _ _ _; exact ⟨s, rfl⟩
  | succ fuel ih =>
    intro la bs s hlen hw hq
    cases bs with
    | nil => exact ⟨s, rfl⟩
    | cons b bs =>
      simp only [List.length_cons] at hlen
      obtain ⟨t, h1, h2, h3⟩ := writeLine_ok p owner la ((b :: bs).take (min (b :: bs).length (64 - la % 64))) va how s
        (hw _ (by omega)) hq
      have := ih (la + min (b :: bs).length (64 - la % 64)) ((b :: bs).drop (min (b :: bs).length (64 - la % 64))) t
        (by simp only [List.length_drop, List.length_cons]; omega) (fun l hl => h3 l (hw l hl)) h2
      obtain ⟨u, hu⟩ := this
      refine ⟨u, ?_⟩
      simp only [writeSpan]
      rw [bind_ok _ _ _ _ _ h1]
      exact hu

theorem memWrite_ok (p : Nat) (owner : Tag) (la : Nat) (bs : List Byte) (va : Word) (how : Store) (n : Nat) (s : State)
    (hlen : la + bs.length ≤ 64 * n) (hw : ∀ l, l < n → s.writable l) (hq : s.quiet) :
    ∃ t, memWrite p owner la bs va how s = .ok () t :=
  writeSpan_ok p owner va how n _ la bs s hlen hw hq

theorem readLine_ok (p : Nat) (owner : Tag) (la n : Nat) (va : Word) (s : State) (hw : s.writable (la / 64))
    (hp : p = homePanel (la / 64)) (hq : s.quiet) :
    readLine p owner la n va s = .ok (bytesOfNat n ((s.lineData (la / 64)).toNat / 2 ^ (8 * (la % 64)))) s := by
  obtain ⟨⟨t, h1, h2, h3, _, _⟩, _⟩ := hw
  have h0 : (0 : BitVec 2) &&& halves la n = 0 := BitVec.zero_and
  have hn : needLine (la / 64) (halves la n) owner va s = .ok () s := by
    simp only [needLine, h1, h2, h3, h0, bne_self_eq_false, Bool.or_self, Bool.false_eq_true, if_false,
      pmPanel_none s _ _ _ hq.2]
  simp only [readLine, if_pos hp, hn]

theorem bytesOfNat_zero (n : Nat) : bytesOfNat n 0 = List.replicate n 0 := by
  induction n with
  | zero => rfl
  | succ n ih => simp [bytesOfNat, ih, List.replicate_succ]

theorem bytesAt_empty (a n : Nat) : bytesAt [] a n = List.replicate n 0 := by
  induction n generalizing a with
  | zero => rfl
  | succ n ih => simp [bytesAt, byteAt, mapGet, ih, List.replicate_succ]

theorem natOfBytes_zeros (n : Nat) : natOfBytes (List.replicate n 0) = 0 := by
  induction n with
  | zero => rfl
  | succ n ih =>
    rw [List.replicate_succ]
    simp only [natOfBytes, ih]
    rfl

/-- A replica answers the reads of its panel. -/
theorem readLine_replica (p : Nat) (owner : Tag) (la n : Nat) (va : Word) (s : State) (r : Replica)
    (h : mapGet s.mem.replicas (replicaKey p (la / 64)) = some r) (he : r.err = 0)
    (hp : p ≠ homePanel (la / 64)) (hq : s.quiet) :
    readLine p owner la n va s = .ok (bytesOfNat n (r.data.toNat / 2 ^ (8 * (la % 64)))) s := by
  have h0 : (0 : BitVec 2) &&& halves la n = 0 := BitVec.zero_and
  simp only [readLine, if_neg hp, h, he, h0, bne_self_eq_false, Bool.false_eq_true, if_false, pmPanel_none s _ _ _ hq.2]

/-- Reading lines held at home, of an L2 that lists nothing, and empty replicas of the others. -/
theorem readSpan_zeros (p : Nat) (owner : Tag) (va : Word) (m : Nat) (s : State) (hw : ∀ l, l < m → s.writable l)
    (hr : ∀ l, l < m → ∃ r, mapGet s.mem.replicas (replicaKey p l) = some r ∧ r.err = 0 ∧ r.data = 0) (hq : s.quiet) (h0 : s.mem.l2 = [])
    (fuel : Nat) :
    ∀ la n : Nat, la + n ≤ 64 * m → la % 64 = 0 → n % 64 = 0 → n / 64 + 1 ≤ fuel →
      readSpan (fun a k => readLine p owner a k va) fuel la n s = .ok (List.replicate n 0) s := by
  induction fuel with
  | zero => intro la n _ _ _ h; omega
  | succ fuel ih =>
    intro la n hle ha hn hf
    unfold readSpan
    by_cases h : n = 0
    · subst h; simp
    · have hk : min n (64 - la % 64) = 64 := by omega
      have hb : readLine p owner la 64 va s = .ok (List.replicate 64 0) s := by
        by_cases hp : p = homePanel (la / 64)
        · have hd : s.lineData (la / 64) = 0 := by
            simp only [State.lineData, h0, bytesAt_empty, lineOf, natOfBytes_zeros]
            rfl
          rw [readLine_ok p owner la 64 va s (hw _ (by omega)) hp hq, hd]
          rw [BitVec.ofNat_eq_ofNat, BitVec.toNat_zero, Nat.zero_div, bytesOfNat_zero]
        · obtain ⟨r, h1, he, h2⟩ := hr (la / 64) (by omega)
          rw [readLine_replica p owner la 64 va s r h1 he hp hq, h2]
          rw [BitVec.ofNat_eq_ofNat, BitVec.toNat_zero, Nat.zero_div, bytesOfNat_zero]
      have hi := ih (la + 64) (n - 64) (by omega) (by omega) (by omega) (by omega)
      simp only [h, if_false, hk]
      rw [bind_ok _ _ _ _ _ hb, bind_ok _ _ _ _ _ hi]
      simp only [pure_run, ← List.replicate_add]
      congr 2
      omega

theorem memRead_zeros (p : Nat) (owner : Tag) (va : Word) (m la n : Nat) (s : State) (hw : ∀ l, l < m → s.writable l)
    (hr : ∀ l, l < m → ∃ r, mapGet s.mem.replicas (replicaKey p l) = some r ∧ r.err = 0 ∧ r.data = 0) (hq : s.quiet) (h0 : s.mem.l2 = []) (hle : la + n ≤ 64 * m) (ha : la % 64 = 0)
    (hn : n % 64 = 0) : memRead p owner la n va s = .ok (List.replicate n 0) s :=
  readSpan_zeros p owner va m s hw hr hq h0 _ la n hle ha hn (by omega)

theorem wordsOf_zeros (n m : Nat) : wordsOf n (List.replicate m 0) = List.replicate n 0 := by
  unfold wordsOf tabulate
  have e : ∀ i ∈ List.range n, wordOf ((List.replicate m (0 : Byte)).drop (8 * i) |>.take 8) = 0 := by
    intro i _
    rw [List.drop_replicate, List.take_replicate, wordOf, natOfBytes_zeros]
    rfl
  rw [List.map_congr_left e]
  simp

theorem storeBlock_ok (p : Nat) (owner : Tag) (la : Nat) (bs : List Byte) (s t : State)
    (h : memWrite p owner la bs 0 .whole s = .ok () t) : storeBlock p owner la bs s = .ok () t := by
  unfold storeBlock
  rw [bind_ok _ _ _ _ _ (attempt_ok _ _ _ _ h)]
  rfl

/-! ## Flits (R189) -/

/-- A flit leaves with a good CRC, and the CRC is taken over bytes that do not hold it. -/
theorem flRaw_h7 (f : Flit) (w : Word) (h : field w 32 32 = field f.h7 32 32) : flRaw { f with h7 := w } = flRaw f := by
  simp only [flRaw, h, flBody]

theorem flGood_crc (g : Flit) (h : g.h7 = 0) : flGood { g with h7 := (crc32 (flRaw g)).setWidth 64 } = true := by
  have low : ∀ c : BitVec 32, field (c.setWidth 64) 0 32 = c := fun c => by
    unfold field
    ext i hi
    simp [hi, Nat.lt_trans hi (by decide : 32 < 64), BitVec.getLsbD_eq_getElem]
  have high : ∀ c : BitVec 32, field (c.setWidth 64) 32 32 = field g.h7 32 32 := fun c => by
    rw [h]
    unfold field
    ext i hi
    simp
  unfold flGood
  simp only [flRaw_h7 g _ (high _), low, beq_self_eq_true]

theorem flGood_flSeal (f : Flit) (a b : BitVec 16) (n : Bool) (t : Word) : flGood (flSeal f a b n t) = true :=
  flGood_crc _ rfl

/-- Which fields of a flit are reserved does not depend on its CRC. -/
theorem flReserved_h7 (f : Flit) (w : Word) (h : field w 32 32 = field f.h7 32 32) :
    flReserved { f with h7 := w } = flReserved f := by
  simp only [flReserved, flType, flRsp, flBytes, h]
  rfl

theorem flReserved_flSeal (f : Flit) (a b : BitVec 16) (n : Bool) (t : Word) :
    flReserved (flSeal f a b n t) = flReserved { flSeal f a b n t with h7 := 0 } :=
  flReserved_h7 { flSeal f a b n t with h7 := 0 } _ (by unfold flSeal field; ext i hi; simp)

/-- A flit whose CRC field differs by a bit is not good. -/
theorem flGood_flip (f : Flit) (h : flGood f = true) : flGood { f with h7 := f.h7 ^^^ 1 } = false := by
  unfold flGood at *
  rw [flRaw_h7 _ _ (by unfold field; ext i hi; simp)]
  rw [beq_iff_eq] at h
  rw [h, beq_eq_false_iff_ne]
  intro e
  have := congrArg (fun v : BitVec 32 => v.getLsbD 0) e
  simp [field] at this

/-! ## The length of a saved context (R271) -/

theorem bytesOfNat_length (n v : Nat) : (bytesOfNat n v).length = n := by
  induction n generalizing v with
  | zero => rfl
  | succ n ih => simp [bytesOfNat, ih]

theorem flatten_length {α : Type} (f : α → List Byte) (n : Nat) (hf : ∀ a, (f a).length = n) (l : List α) :
    (l.map f).flatten.length = n * l.length := by
  induction l with
  | nil => simp
  | cons a l ih => simp [hf, ih, Nat.mul_add, Nat.add_comm]

theorem words8_length (ws : List Word) : (words8 ws).length = 8 * ws.length :=
  flatten_length (bytesOfW 8) 8 (fun w => bytesOfNat_length 8 w.toNat) ws

theorem words4_length (ws : List (BitVec 32)) : (words4 ws).length = 4 * ws.length :=
  flatten_length (fun w : BitVec 32 => bytesOfNat 4 w.toNat) 4 (fun w => bytesOfNat_length 4 w.toNat) ws

theorem padTo_length (n : Nat) (bs : List Byte) : (padTo n bs).length = n := by
  simp [padTo]

theorem ctxHead_length (k : Core) (n : BitVec 16) (spad : Bool) (budget : BitVec 32) :
    (ctxHead k n spad budget).length = 16384 := by
  simp [ctxHead, padTo_length, words8_length]

theorem accBytes_length (k : Core) : (accBytes k).length = 131072 := by
  simp [accBytes, words4_length, tabulate]

theorem ctxImage_length (k : Core) (n : BitVec 16) (budget : BitVec 32) : (ctxImage k n false budget).length = 147456 := by
  simp [ctxImage, ctxHead_length, accBytes_length]

end Sys2Proof.Machine
end

