-- ==== Sys2Proof/Laws/Turns.lean ====
section
/-! SUPPORT. What a turn does: time passes, and the agent acts or gives way. -/

namespace Sys2Proof.Machine

theorem step_takeTurn (s : State) : step s = takeTurn s.nextTurn.1 s.nextTurn.2 := rfl

theorem afterTime_ok (n : Nat) (f : State → Out) (s s1 : State) (h : passTime n s = .ok () s1) : afterTime n f s = f s1 := by
  unfold afterTime
  rw [h]

/-- Time that passes ends in what is done then, stops the machine, or waits and changes nothing. -/
theorem afterTime_cases (n : Nat) (f : State → Out) (s : State) :
    (∃ s1, passTime n s = .ok () s1 ∧ afterTime n f s = f s1) ∨ (∃ h, afterTime n f s = .fault h) ∨ afterTime n f s = .next s := by
  unfold afterTime
  cases h : passTime n s with
  | ok a s1 => exact .inl ⟨s1, rfl, rfl⟩
  | error e s1 => cases e <;> simp

/-- Nothing that a stalled stream presents comes before a turn: it needs no time, or no such test passes in this cycle or the
next. -/
def State.uncontested (s : State) (t : Turn) : Prop := s.cyclesBefore t = 0 ∨ (s.dueTest = none ∧ s.nextTest = false)

theorem takeTurn_uncontested (t : Turn) (s : State) (h : s.uncontested t) :
    takeTurn t s = afterTime (s.cyclesBefore t) (fun s => act t.actor { s with lineOps := t.lines }) s := by
  unfold takeTurn
  obtain h | ⟨h1, h2⟩ := h
  · rw [h]
  · cases s.cyclesBefore t <;> simp [h1, h2]

/-- The time of a turn has passed: its agent acts. -/
theorem takeTurn_ok (t : Turn) (s s1 : State) (hu : s.uncontested t) (h : passTime (s.cyclesBefore t) s = .ok () s1) :
    takeTurn t s = act t.actor { s1 with lineOps := t.lines } := by
  rw [takeTurn_uncontested t s hu, afterTime_ok _ _ _ _ h]

/-- All that a turn can do: its agent acts once its time has passed; a stalled stream whose test passes goes first, or one cycle
passes so that it can, and the turn is kept for later; the passing of time stops the machine; or it waits and nothing changes. -/
theorem takeTurn_cases (t : Turn) (s : State) :
    (∃ s1, passTime (s.cyclesBefore t) s = .ok () s1 ∧ takeTurn t s = act t.actor { s1 with lineOps := t.lines }) ∨
      (∃ c u, s.dueTest = some (c, u) ∧ s.cyclesBefore t ≠ 0 ∧
        takeTurn t s = takeStream c u { s with agenda := { t with cycles := s.cyclesBefore t } :: s.agenda, lineOps := t.lines }) ∨
      (∃ s1, passTime 1 s = .ok () s1 ∧
        takeTurn t s = .next { s1 with agenda := { t with cycles := s.cyclesBefore t - 1 } :: s1.agenda }) ∨
      (∃ f, takeTurn t s = .fault f) ∨ takeTurn t s = .next s := by
  have whole : ∀ n, (∃ s1, passTime n s = .ok () s1 ∧
      afterTime n (fun s => act t.actor { s with lineOps := t.lines }) s = act t.actor { s1 with lineOps := t.lines }) ∨
      (∃ f, afterTime n (fun s => act t.actor { s with lineOps := t.lines }) s = .fault f) ∨
      afterTime n (fun s => act t.actor { s with lineOps := t.lines }) s = .next s := fun n => afterTime_cases n _ s
  unfold takeTurn
  simp only
  cases hn : s.cyclesBefore t with
  | zero => obtain h | h | h := whole 0 <;> simp [h]
  | succ m =>
    simp only
    split
    · rename_i c u e
      exact .inr (.inl ⟨c, u, e, by omega, rfl⟩)
    · split
      · obtain ⟨s1, h1, h2⟩ | h | h := afterTime_cases 1
          (fun s => .next { s with agenda := { t with cycles := m } :: s.agenda }) s
        · exact .inr (.inr (.inl ⟨s1, h1, h2⟩))
        · exact .inr (.inr (.inr (.inl h)))
        · exact .inr (.inr (.inr (.inr h)))
      · obtain h | h | h := whole (m + 1) <;> simp [h]

/-- An event other than a completion, one that is no word of a stream, runs. -/
theorem act_event (e : Instr) (s : State) (hc : ∀ c t k, e ≠ .wordCompletion c t k) :
    act (.event e) s = if streamOnly e then .next s else exec e (s.reach (s.turnPlace (.event e))) := by
  unfold act
  split
  · rename_i c t k h
    exact absurd (Actor.event.inj h) (hc c t k)
  · rename_i h
    cases h
    rfl
  · rename_i h
    cases h

theorem act_stream (c : CoreId) (t : Strm) (s : State) (h : s.outranked c t = none) :
    act (.stream c t) s = takeStream c t s := by
  unfold act
  simp [h]

/-- A stream that another unit goes before does nothing in its turn. -/
theorem act_outranked (c : CoreId) (t u : Strm) (s : State) (h : s.outranked c t = some u) : act (.stream c t) s = .next s := by
  unfold act
  simp [h]

/-- The head of the agenda is the next turn. -/
theorem nextTurn_cons (s : State) (t : Turn) (ts : List Turn) (h : s.agenda = t :: ts) :
    s.nextTurn = (t, { s with agenda := ts }) := by
  unfold State.nextTurn
  rw [h]

/-- What the place of a turn changes: the flag arbiter's account of one core, and nothing else. -/
theorem reach_core (s : State) (p : Option Place) (c : CoreId) :
    (s.reach p).core c =
      { s.core c with arbAt := ((s.reach p).core c).arbAt, arbRank := ((s.reach p).core c).arbRank } := by
  cases p with
  | none => rfl
  | some p =>
    by_cases e : c = p.core
    · subst e
      simp [State.reach]
    · simp [State.reach, core_onCore_other _ _ _ _ e]

@[simp] theorem reach_mem (s : State) (p : Option Place) : (s.reach p).mem = s.mem := by cases p <;> rfl
@[simp] theorem reach_cycle (s : State) (p : Option Place) : (s.reach p).cycle = s.cycle := by cases p <;> rfl
@[simp] theorem reach_agenda (s : State) (p : Option Place) : (s.reach p).agenda = s.agenda := by cases p <;> rfl

end Sys2Proof.Machine
end

