-- ==== Sys2Proof/Tests/Slice0.lean ====
section
/-! SUPPORT. Tests: words written out bit by bit from the encodings of spec 12 to 18 and what they decode to, terms that the
well-formedness checks refuse, and, for every obligation with hypotheses, concrete states and operands that meet all the
hypotheses of each of its clauses (`…_met`). -/

open Sys2Proof Sys2Proof.Machine

set_option linter.unusedVariables false
set_option Elab.async false

namespace Sys2Proof.Tests

/-! ## Helpers -/

/-- An optional value is there and meets `p`. -/
def thenS {α : Type} (o : Option α) (p : α → Bool) : Bool :=
  match o with
  | some a => p a
  | none => false

/-- An action ends with a value that, with its state, meets `p`. -/
def thenM {α : Type} (r : EStateM.Result Stop State α) (p : α → State → Bool) : Bool :=
  match r with
  | .ok a t => p a t
  | .error _ _ => false

/-- It ends with a value. -/
def ends {α : Type} (r : EStateM.Result Stop State α) : Bool := thenM r fun _ _ => true

/-- No clause. -/
def h0 : Hdr := { wait := .none, sig := .none }

/-- A wait of one on flag 9 and a signal of INCR at completion on flag 5. -/
def h1 : Hdr := { wait := .one 9, sig := .incr 5 }

/-- Registers of the tests: register r holds r, but for addresses: 20 a gate word of region 4, 21 a word of region 2, 22 a
target of a context-aligned block, 24 the most negative word, 25 all ones, 23 bytes 16 to 23 of memory, 26 and 27 two FP32 numbers. -/
def regs : Vector Word 32 := Vector.ofFn fun i =>
  if i.val = 20 then 0x0040000000000000 else if i.val = 21 then 0x0020000000000000 else if i.val = 22 then 4096
  else if i.val = 24 then 1#64 <<< 63 else if i.val = 25 then allOnes else if i.val = 26 then 0x3FC00000
  else if i.val = 27 then 0x40000000 else if i.val = 23 then 0x1716151413121110 else BitVec.ofNat 64 i.val

/-- Flags of the tests: flag 9 holds 3 under a THRESH of 2, the others 0. -/
def flags : Vector Flag 64 := vset (Vector.replicate 64 Flag.reset) 9 { ceil := 8, incr := 1, thresh := 2, count := 3 }

/-- A core that runs a loaded program of context 3: A and X stand at word 0 of sections of eight words, a SAFE is the word
before index 5 of each, words wait in both queues, and its range set grants the first 2^52 addresses. -/
def k0 : Core :=
  let r : Ring := { Ring.reset with size := 3, count := 8, started := true }
  let k := { Core.reset with
    fmtSlot := vset (Vector.replicate 16 0) 15 0x10000000
    a := regs, x := regs, flags := flags, loaded := true, ctx := 3, xa := [some 7, some 8, some 9], ax := [7, 8, 9]
    rangeSet := [{ w0 := 0xF, w8 := 0xFFFFFFFFFFFFFFFF, w16 := 0, w24 := 0 }] }
  (k.setRing .a r).setRing .x { r with base := 8 }

/-- The machine of the tests: core 0 is `k0`. -/
def sA : State := State.reset.setCore 0 k0

/-- An A word of two sources passes every check on these operands. -/
def metA2 {ω : Type} (mk : Hdr → ω → Instr) (d s1 s2 : ω → Reg) (f : ω → Word → Word → Word) (h : Hdr) (o : ω) : Bool :=
  thenS (sA.issueA (mk h o) h) fun t1 => thenM (rdA (s1 o) t1) fun x t2 => thenM (rdA (s2 o) t2) fun y t3 =>
    thenM (wrA (d o) (f o x y) t3) fun _ _ => true

/-- One of one source. -/
def metA1 {ω : Type} (mk : Hdr → ω → Instr) (d s1 : ω → Reg) (f : ω → Word → Word) (h : Hdr) (o : ω) : Bool :=
  thenS (sA.issueA (mk h o) h) fun t1 => thenM (rdA (s1 o) t1) fun x t2 => thenM (wrA (d o) (f o x) t2) fun _ t3 =>
    true

/-- One of none, whose operands meet `ok`. -/
def metA0 {ω : Type} (mk : Hdr → ω → Instr) (d : ω → Reg) (ok : State → ω → Bool) (f : ω → State → Word) (h : Hdr) (o : ω)
    (s : State := sA) : Bool :=
  ok s o && thenS (s.issueA (mk h o) h) fun t1 => thenM (wrA (d o) (f o t1) t1) fun _ t2 =>
    true

/-- An A word that only issues, whose operands meet `ok`. -/
def metP {ω : Type} (mk : Hdr → ω → Instr) (ok : State → ω → Bool) (h : Hdr) (o : ω) (f : Hdr → ω → State → State) (s : State := sA) : Bool :=
  ok s o && thenS (s.issueA (mk h o) h) fun t => true

/-! ## Registers -/

/-- The ports on an empty and on a waiting queue, and a plain register. -/
theorem RegisterFields_met :
    (rdA 31 State.reset matches .error .stall _) = true ∧ ends (rdA 31 sA) = true ∧ ends (rdA 0 sA) = true ∧
      ends (wrA 31 5 sA) = true ∧ ends (wrA 30 5 sA) = true ∧ ends (wrX 1 5 sA) = true ∧ ends (wrP 7 true sA) = true ∧
      field (0x000018C000000000 : Word) 40 8 = 0x18 ∧ field (0x000018C000000000 : Word) 38 2 = 3 ∧
      field (0x00001A1870000000 : Word) 40 8 = 0x1A ∧ field (0x00001A1870000000 : Word) 28 2 = 3 := by decide +kernel

/-! ## The access unit -/

/-- Plain registers and clauses, register 0, and the queue ports. -/
theorem AccessArithmetic_met : ([
    metP (fun h (_ : Unit) => .aNop h) (fun _ _ => true) h1 () (fun _ _ s => s),
    metA0 .aLi LIOp.d (fun _ _ => true) (fun o _ => sext64 o.imm) h1 { d := 4, imm := 0x400000000 },
    metA1 .aLih LIHOp.d LIHOp.d (fun o x => o.imm ++ field x 0 32) h0 { d := 4, imm := 0xFFFFFFFF },
    metA2 .aAdd RR3.d RR3.s1 RR3.s2 (fun _ x y => x + y) h1 { d := 31, s1 := 31, s2 := 31 },
    metA1 .aAddi RIOp.d RIOp.s1 (fun o x => x + sext64 o.imm) h0 { d := 0, s1 := 25, imm := 0x20000000 },
    metA2 .aSub RR3.d RR3.s1 RR3.s2 (fun _ x y => x - y) h0 { d := 4, s1 := 4, s2 := 25 },
    metA2 .aAnd RR3.d RR3.s1 RR3.s2 (fun _ x y => x &&& y) h0 { d := 30, s1 := 5, s2 := 6 },
    metA2 .aOr RR3.d RR3.s1 RR3.s2 (fun _ x y => x ||| y) h0 { d := 1, s1 := 5, s2 := 0 },
    metA2 .aXor RR3.d RR3.s1 RR3.s2 (fun _ x y => x ^^^ y) h0 { d := 1, s1 := 31, s2 := 5 },
    metA1 .shli ShiftOp.d ShiftOp.s1 (fun o x => x <<< o.n.toNat) h0 { d := 1, s1 := 5, n := 63 },
    metA1 .shri ShiftOp.d ShiftOp.s1 (fun o x => x >>> o.n.toNat) h0 { d := 1, s1 := 24, n := 63 },
    metA2 .lea RR3K.d RR3K.s1 RR3K.s2 (fun o x y => x + (y <<< o.k.toNat)) h0 { d := 1, s1 := 5, s2 := 25, k := 7 }]
    ).all id = true := by decide +kernel

/-- A branch whose target lies in the section. -/
def metB (mk : Hdr → BOp → Instr) (taken : Word → Word → Bool) (o : BOp) : Bool :=
  thenS (sA.issueA (mk h1 o) h1) fun s1 => thenM (rdA o.s1 s1) fun x s2 => thenM (rdA o.s2 s2) fun y s3 =>
    let t : Int := k0.aIndex + o.off.toInt
    decide (0 ≤ t) && decide (t < k0.aCount)

/-- Taken and not taken, the first and the last index of a section, the word after a SAFE. -/
theorem AccessControl_met : ([
    metB .beq (fun x y => x == y) { s1 := 4, s2 := 4, off := 7 }, metB .beq (fun x y => x == y) { s1 := 31, s2 := 31, off := 7 },
    metB .bne (fun x y => x != y) { s1 := 4, s2 := 5, off := 0 }, metB .blt (fun x y => decide (x.toInt < y.toInt)) { s1 := 24, s2 := 5, off := 1 },
    metB .blt (fun x y => decide (x.toInt < y.toInt)) { s1 := 5, s2 := 25, off := 1 },
    metB .bge (fun x y => decide (y.toInt ≤ x.toInt)) { s1 := 5, s2 := 24, off := 1 },
    (let o : LIOp := { d := 4, imm := 7 }
     thenS (sA.issueA (.aJmp h1 o) h1) fun s1 =>
       decide ((k0.aIndex : Int) + 7 < k0.aCount) && thenM (wrA o.d (w64 (k0.aIndex + 2)) s1) fun _ s2 =>
         true),
    (let s := sA.onCore 0 fun k => { k with spad := setByte k.spad 720933 0x4D }
     let o : RR2 := { d := 31, s1 := 5 }
     thenS (s.issueA (.aJr h1 o) h1) fun s1 => thenM (rdA o.s1 s1) fun t s2 =>
       let k := s.core s.cur
       decide (t.toNat < k.aCount) && k.afterSafe .a 0x4D t.toNat && thenM (wrA o.d (w64 (k.aIndex + 2)) s2) fun _ s3 =>
         true)]).all id = true := by decide +kernel

/-- A core in its handler. -/
def sH : State := sA.onCore 0 fun k => { k with priv := true, current := true }

theorem AccessReads_met : ([
    metA0 .aFtrd id (fun _ _ => true) (fun _ s => s.ftOf (panelOf s.cur)) h1 4,
    metA0 .tickrd TickOp.d (fun _ _ => true) (fun o s =>
      let d := if o.ctxd then (s.domOf (s.core s.cur).ctx).toNat else o.dom.toNat
      tickOf (s.ftOf (panelOf s.cur)) (vget s.tickOrigin d) (vget s.tickPeriod d)) h0 { d := 4, ctxd := true, dom := 7 },
    ([1, 6].all fun src => metA0 .pmrd PmOp.d (fun _ _ => true) (fun o s =>
      let k := s.core s.cur
      let n := vget k.pmCnt o.n.toNat
      (if (vget k.pmSel o.n.toNat).toNat = 1 then n + BitVec.ofNat 48 (s.cycle - vget k.pmAt o.n.toNat) else n).setWidth 64)
      h1 { d := 4, n := 7 } { sA.onCore 0 fun k => { k with pmSel := vset k.pmSel 7 src } with cycle := 9 }),
    metA0 .ringrd RingRdOp.d (fun _ _ => true)
      (fun o s => ringWordOf (vget (s.core s.cur).rings o.strm.toNat) (s.core s.cur).priv o.strm.toNat o.sel) h0 { d := 4, strm := 4, sel := true },
    metA0 .frd FrdOp.d (fun s o => decide (o.vf.toNat < (s.core s.cur).flagNum.toNat)) (fun o s =>
      let k := s.core s.cur
      (vget k.flags ((o.vf.toNat + k.flagBase.toNat) % 64)).word) h0 { d := 4, vf := 63 },
    (let o : RbtldOp := { d := 4, s1 := 0, blk := 32, w := 7 }
     thenS (sA.issueA (.rbtld h1 o) h1) fun s1 => thenM (rdA o.s1 s1) fun x s2 =>
       let e := (x.toNat + o.blk.toNat) % 64
       let k := sA.core sA.cur
       decide (e ≤ 32) && thenM (wrA o.d (if e = 32 then vget k.header o.w.toNat else vget k.passMem (8 * e + o.w.toNat)) s2) fun _ s3 =>
         true),
    metA0 .csrr CsrOp.r (fun s o => !csrPriv o.n.toNat || (s.core s.cur).priv) (fun o s => s.csr s.cur o.n.toNat) h0 { r := 4, n := 0x20 },
    metA0 .csrr CsrOp.r (fun s o => !csrPriv o.n.toNat || (s.core s.cur).priv) (fun o s => s.csr s.cur o.n.toNat) h0 { r := 4, n := 0x30 } sH]
    ).all id = true := by decide +kernel

/-! ## The access unit: memory -/

/-- A line held with the right to write it. -/
def heldLine : Line := { dirty := false, w := true, exp := 0x10000, key := 0, owner := 3, failed := false, err := 0 }

/-- The machine with translation on and line 0 of memory and the first gate line held, bytes 0 to 31 of memory the numbers 0 to
31 and gate word 0 full. -/
def sM : State := sA.onMem fun m => { m with
  lines := [(0, heldLine), (281474976710656, heldLine)], ctls := m.ctls.map fun q => { q with en := true }
  l2 := setBytes [] 0 (tabulate 32 fun i => BitVec.ofNat 8 i), gates := [0x40000000000000] }

/-- An LDS or STS of the last bytes of the scratchpad, and of a bank next to one that the engines own. -/
theorem ScratchpadAccess_met : ([
    (let s := sA.onCore 0 fun k => k.setOwner 1 175 true
     let o : MOp := { reg := 31, base := 8, size := 2, sx := true, off := 4084 }
     thenS (s.issueA (.lds h1 o) h1) fun s1 => thenM (rdA o.base s1) fun b s2 =>
       let k := s.core s.cur
       let n := 2 ^ o.size.toNat
       let a := (b + sext64 o.off).toNat
       decide (a + n ≤ 786432) && decide (a % n = 0) && decide (vget k.owner (a / 4096) = false) && decide (k.spadBad a n = false) &&
         thenM (wrA o.reg (extend n o.sx (bytesAt k.spad a n)) s2) fun _ _ => true),
    (let s := sA.onCore 0 fun k => { k with a := vset k.a 8 786424 }
     let o : MOp := { reg := 31, base := 8, size := 3, sx := false, off := 0 }
     thenS (s.issueA (.sts h1 o) h1) fun s1 => thenM (rdA o.reg s1) fun v s2 => thenM (rdA o.base s2) fun b s3 =>
       let n := 2 ^ o.size.toNat
       let a := (b + sext64 o.off).toNat
       decide (a + n ≤ 786432) && decide (a % n = 0) && decide (vget (s.core s.cur).owner (a / 4096) = false))]).all id = true := by decide +kernel

/-- Operands of a load or store. -/
def oM (base : Reg) (off : BitVec 26) (size : BitVec 3) (sx : Bool) : MOp :=
  { reg := 4, base := base, size := size, sx := sx, off := off }

/-- A load of memory or of an on-chip window. -/
def metLdm (s : State) (h : Hdr) (o : MOp) : Bool :=
  thenS (s.issueA (.ldm h o) h) fun s1 => thenM (rdA o.base s1) fun b s2 => thenM (mPlace (b + sext64 o.off) o 1 s2) fun la s3 =>
    thenM (aLoad la (2 ^ o.size.toNat) (b + sext64 o.off) s3) fun bs s4 =>
      thenM (wrA o.reg (extend (2 ^ o.size.toNat) o.sx bs) s4) fun _ _ => true

/-- A store. -/
def metStm (s : State) (h : Hdr) (o : MOp) : Bool :=
  thenS (s.issueA (.stm h o) h) fun s1 => thenM (rdA o.reg s1) fun v s2 => thenM (rdA o.base s2) fun b s3 =>
    thenM (mPlace (b + sext64 o.off) o 2 s3) fun la s4 =>
      thenM (aStore la (bytesOfW (2 ^ o.size.toNat) v) (b + sext64 o.off) s4) fun _ s5 =>
        true

theorem MemoryAccess_met : ([
    metLdm sM h1 (oM 8 0 3 false), metLdm sM h0 (oM 21 0 2 true), metStm sM h1 (oM 8 16 3 false), metStm sM h0 (oM 21 0 0 false),
    (let o := oM 8 24 1 true
     thenS (sM.issueA (.ldc h1 o) h1) fun s1 => thenM (rdA o.base s1) fun b s2 => thenM (mPlace (b + sext64 o.off) o 1 s2) fun la s3 =>
       decide (regionOf la ≤ 1) && thenM (constLine (panelOf s3.cur) (s3.core s3.cur).tag la (b + sext64 o.off) s3) fun line s4 =>
         thenM (wrA o.reg (extend (2 ^ o.size.toNat) o.sx ((lineBytes line).drop (la % 64) |>.take (2 ^ o.size.toNat))) s4) fun _ s5 =>
           true),
    (let o := oM 21 8 3 false
     thenS (sM.issueA (.ldc h1 o) h1) fun s1 => thenM (rdA o.base s1) fun b s2 => thenM (mPlace (b + sext64 o.off) o 1 s2) fun la s3 =>
       decide (1 < regionOf la) && thenM (aLoad la (2 ^ o.size.toNat) (b + sext64 o.off) s3) fun bs s4 =>
         thenM (wrA o.reg (extend (2 ^ o.size.toNat) o.sx bs) s4) fun _ s5 =>
           true),
    metP (fun h (_ : Unit) => .csync h) (fun _ _ => true) h1 () (fun _ _ s => s.onMem fun m => m.dropConst (panelOf s.cur)) sM,
    (let o : PfmOp := { n1 := 31, base := 8, off := 0 }
     thenS (sM.issueA (.pfm h1 o) h1) fun s1 => thenM (rdA o.base s1) fun b s2 =>
       thenM ((List.range (o.n1.toNat + 1)).forM
         (fun i => prefetch (((b + sext64 o.off) &&& ~~~(0x3F#64)) + w64 (64 * i))) s2) fun _ s3 =>
           true)]).all id = true := by decide +kernel

/-- An atomic at an address of line 0. -/
def metAT (mk : Hdr → ATOp → Instr) (readD : Bool) (f : ATOp → Nat → Nat → Nat → Nat → Option Nat) (o : ATOp) : Bool :=
  thenS (sM.issueA (mk h1 o) h1) fun s1 => thenM (if readD then rdA o.d s1 else .ok 0 s1) fun d s2 =>
    thenM (rdA o.base s2) fun b s3 => thenM (rdA o.s2 s3) fun x s4 =>
    let n := 2 ^ o.size.toNat
    let va := b + sext64 o.off
    thenM (aPlace va n 3 n (addrMask 21) (fun r => decide (r ≤ 1)) s4) fun la s5 =>
    thenM (homeRmw (panelOf s5.cur) (s5.core s5.cur).tag la n va
      (fun old => f o n old (x.toNat % 256 ^ n) (d.toNat % 256 ^ n)) s5) fun old s6 =>
    thenM (wrA o.d (w64 old) s6) fun _ _ => true

theorem Atomics_met : ([
    metAT .aadd false (fun _ n old v _ => some ((old + v) % 256 ^ n)) { d := 31, base := 8, s2 := 31, size := 3, sg := false, off := 16 },
    metAT .amax false (fun o n old v _ => some (if atInt o.sg n old < atInt o.sg n v then v else old))
      { d := 4, base := 8, s2 := 25, size := 2, sg := true, off := 4 },
    metAT .amin false (fun o n old v _ => some (if atInt o.sg n v < atInt o.sg n old then v else old))
      { d := 4, base := 8, s2 := 25, size := 3, sg := true, off := 8 },
    metAT .aor false (fun _ _ old v _ => some (old ||| v)) { d := 0, base := 8, s2 := 25, size := 2, sg := false, off := 4 },
    metAT .axchg false (fun _ _ _ v _ => some v) { d := 8, base := 8, s2 := 8, size := 3, sg := false, off := 0 },
    metAT .acas true (fun _ _ old v d => if old = d then some v else none) { d := 4, base := 8, s2 := 25, size := 2, sg := false, off := 0x1FFFFC },
    metAT .acas true (fun _ _ old v d => if old = d then some v else none) { d := 31, base := 31, s2 := 31, size := 2, sg := false, off := 0 },
    (let o : ATOp := { d := 4, base := 8, s2 := 25, size := 3, sg := false, off := 8 }
     thenS (sM.issueA (.aaddb h1 o) h1) fun s1 => thenM (rdA o.base s1) fun b s2 => thenM (rdA o.s2 s2) fun x s3 =>
       let va := b + sext64 o.off
       thenM (aPlace va 8 3 16 (addrMask 21) (fun r => decide (r ≤ 1)) s3) fun la s4 =>
       thenM (homeRead (panelOf s4.cur) (s4.core s4.cur).tag (la + 8) 8 (va + 8) s4) fun lim s5 =>
       thenM (homeRmw (panelOf s4.cur) (s4.core s4.cur).tag la 8 va
         (fun old => if old + x.toNat ≤ natOfBytes lim then some (old + x.toNat) else none) s5) fun old s6 =>
       thenM (wrA o.d (if old + x.toNat ≤ natOfBytes lim then w64 old else allOnes) s6) fun _ s7 =>
         true),
    (let o : ATOp := { d := 0, base := 8, s2 := 26, size := 2, sg := false, off := 8 }
     thenS (sM.issueA (.raddf h1 o) h1) fun s1 => thenM (rdA o.base s1) fun b s2 => thenM (rdA o.s2 s2) fun x s3 =>
       let n := 2 ^ o.size.toNat
       let va := b + sext64 o.off
       let f := raddfFmt o.size
       thenM (aPlace va n 3 n (addrMask 21) (fun r => decide (r ≤ 1)) s3) fun la s4 =>
       thenM (homeRmw (panelOf s4.cur) (s4.core s4.cur).tag la n va
         (fun old => some (roundTo (.flt f) ((f.decode old).add false (f.decode (x.toNat % 256 ^ n))) .rne false 0)) s4) fun _ s5 =>
         true)]).all id = true := by decide +kernel

/-- At the last bytes of a line, outside the node table; an operation that writes and one that does not. -/
theorem AtomicAtHome_met :
    (sM.canonical && ends (homeRmw 0 3 56 8 56 (fun old => some (old + 1)) sM) && ends (homeRmw 1 3 63 1 63 (fun _ => none) sM) &&
      (sM.nodesAt 56 8).isEmpty) = true := by decide +kernel

theorem GatesAndMonitor_met : ([
    (let o : ATOp := { d := 0, base := 20, s2 := 31, size := 0, sg := false, off := 56 }
     thenS (sM.issueA (.gset h1 o) h1) fun s1 => thenM (rdA o.base s1) fun b s2 => thenM (rdA o.s2 s2) fun x s3 =>
       thenM (aPlace (b + sext64 o.off) 8 2 8 (addrMask 21) (· == 4) s3) fun la s4 =>
       thenM (gateFill (panelOf s4.cur) (s4.core s4.cur).tag la x (b + sext64 o.off) s4) fun _ s5 =>
         true),
    (let o : ATOp := { d := 0, base := 20, s2 := 0, size := 0, sg := false, off := 0 }
     thenS (sM.issueA (.gclr h1 o) h1) fun s1 => thenM (rdA o.base s1) fun b s2 =>
       thenM (aPlace (b + sext64 o.off) 8 2 8 (addrMask 21) (· == 4) s2) fun la s3 =>
       thenM (gateClear (panelOf s3.cur) (s3.core s3.cur).tag la (b + sext64 o.off) s3) fun _ s4 =>
         true),
    (let o : ATOp := { d := 4, base := 20, s2 := 5, size := 0, sg := false, off := 0 }
     thenS (sM.issueA (.gld h1 o) h1) fun s1 => thenM (rdA o.base s1) fun b s2 =>
       thenM (aPlace (b + sext64 o.off) 8 1 8 (addrMask 21) (· == 4) s2) fun la s3 =>
       thenM (homeRead (panelOf s3.cur) (s3.core s3.cur).tag la 8 (b + sext64 o.off) s3) fun bs s4 =>
       thenM (wrA o.d (wordOf bs) s4) fun _ s5 => thenM (wrA o.s2 (if s4.gateFull la then 1 else 0) s5) fun _ s6 =>
         true),
    (let met (o : ATOp) (eq : Bool) : Bool :=
       thenS (sM.issueA (.monw h1 o) h1) fun s1 => decide ((sM.core sM.cur).monitor = none) && thenM (rdA o.d s1) fun d s2 =>
         thenM (rdA o.base s2) fun b s3 => thenM (rdA o.s2 s3) fun x s4 =>
         let n := 2 ^ o.size.toNat
         let va := b + sext64 o.off
         thenM (aPlace va n 3 n (addrMask 21) (fun r => decide (r ≤ 1)) s4) fun la s5 =>
         thenM (homeRead (panelOf s5.cur) (s5.core s5.cur).tag la n va s5) fun bs s6 =>
           decide ((natOfBytes bs = x.toNat % 256 ^ n) ↔ eq = true) && (eq || thenM (wrA o.d 1 s6) fun _ s7 =>
             true)
     met { d := 4, base := 8, s2 := 4, size := 3, sg := false, off := 8 } false &&
       met { d := 4, base := 8, s2 := 23, size := 3, sg := false, off := 8 } true &&
       met { d := 0, base := 8, s2 := 23, size := 2, sg := false, off := 8 } true)]).all id = true := by decide +kernel

/-! ## The access unit: flags, bobbins, rings, markers -/

/-- Up to CEIL exactly, a remote flag, every field of FSET at its limit, and FWAIT with and without keep. -/
theorem FlagWords_met : ([
    (let o : FincOp := { vf := 9, rem := false, s1 := 0, amount := 6 }
     thenS (sA.issueA (.finc h1 o) h1) fun s1 =>
       let k := s1.core s1.cur
       let i := (o.vf.toNat + k.flagBase.toNat) % 64
       let f := vget k.flags i
       decide (o.vf.toNat < k.flagNum.toNat) && decide (f.count.toNat + o.amount.toNat ≤ f.ceil.toNat)),
    (let o : FincOp := { vf := 63, rem := true, s1 := 31, amount := 0xFFFF }
     thenS (sA.issueA (.finc h1 o) h1) fun s1 => decide ((sA.core sA.cur).finc = false) && thenM (rdA o.s1 s1) fun t _ =>
       decide (o.vf.toNat < (sA.core sA.cur).flagNum.toNat)),
    (let o : FsetOp := { vf := 9, fld := 0, s1 := 5, imm := 3 }
     thenS (sA.issueA (.fset h0 o) h0) fun s1 => thenM (rdA o.s1 s1) fun x s2 =>
       let k := s2.core s2.cur
       let i := (o.vf.toNat + k.flagBase.toNat) % 64
       let f := (vget k.flags i).setField o.fld (field (x + o.imm.setWidth 64) 0 16)
       decide (o.vf.toNat < k.flagNum.toNat) && decide (f.count.toNat ≤ f.ceil.toNat)),
    ([false, true].all fun keep =>
      let o : FwaitOp := { vf := 9, keep := keep, n := 2 }
      thenS (sA.issueA (.fwait h1 o) h1) fun s1 =>
        let k := s1.core s1.cur
        let i := (o.vf.toNat + k.flagBase.toNat) % 64
        let f := vget k.flags i
        decide (o.vf.toNat < k.flagNum.toNat) && decide (o.n.toNat ≤ f.count.toNat))]
    ).all id = true := by decide +kernel

/-- A descriptor of a KIND with its FMT, ROWS, COLS and the bits below. -/
def dscOf (kind fmt rows cols rest : Nat) : Dsc :=
  BitVec.ofNat 128 (kind * 2 ^ 124 + fmt * 2 ^ 120 + (rows - 1) * 2 ^ 111 + (cols - 1) * 2 ^ 102 + rest)

/-- A core whose bobbin 31 is bound with 64 slots, one of them filled, at its last slot. -/
def sB : State :=
  let b : Bobbin := { config := 0x7E0000000, free := 63, filled := 1, rptr := 62, wptr := 63 }
  sA.onCore 0 fun k => { k with bobbins := vset k.bobbins 31 b }

theorem BobbinWords_met : ([
    (let o : BbindOp := { b := 31, s1 := 4 }
     let s := sB.onCore 0 fun k => { k with a := vset k.a 4 0x7E00000AF }
     thenS (s.issueA (.bbind h1 o) h1) fun s1 =>
       ((s.core s.cur).m.prog ++ (s.core s.cur).v.prog ++ (s.core s.cur).c.prog).all (fun w => decide (o.b ∉ w.bobbins)) &&
         thenM (rdA o.s1 s1) fun v s2 => bobbinCfgOk v),
    metP .bfillw (fun s o => decide (o.n.toNat ≤ (vget (s.core s.cur).bobbins o.b.toNat).filled)) h1 { b := 31, n := 1 } (fun _ _ s => s) sB,
    metP .bfreew (fun s o => decide (o.n.toNat ≤ (vget (s.core s.cur).bobbins o.b.toNat).free)) h1 { b := 31, n := 63 } (fun _ _ s => s) sB,
    metP .badv (fun s b => decide (0 < (vget (s.core s.cur).bobbins b.toNat).free)) h1 31
      (fun _ b s => s.onCore s.cur fun k =>
      let x := vget k.bobbins b.toNat;
      { k with bobbins := vset k.bobbins b.toNat
                 { x with wptr := (x.wptr + 1) % (x.count + 1), free := x.free - 1, filled := x.filled + 1 } }) sB,
    ([false, true].all fun w =>
      let v : Window := { src := 0, dst := dscOf 2 1 2 4 (31 * 2 ^ 97), rnd := 0, sat := false, next := 0 }
      metP .brel (fun s b => decide (0 < (vget (s.core s.cur).bobbins b.toNat).filled) &&
          ((s.core s.cur).windows.toList.any fun x => (x.map fun x => dBob x.dst) == some b) == w) h1 31
        (fun _ _ s => s) (sB.onCore 0 fun k => { k with windows := vset k.windows 3 (if w then some v else none) }))]
    ).all id = true := by decide +kernel

/-- The machine with a marker of three words placed and the M ring filled up to its size. -/
def sR : State := sA.onCore 0 fun k => { k.setRing .m { Ring.reset with size := 4, base := 16, fetch := 0xFFFFFFFF, pub := 0xFFFFFFFF } with
  marks := vset k.marks 3 (some (some 0, some 0, none)) }

theorem StreamWords_met : ([
    ([true, false].all fun v =>
      let o : OwnOp := { first := 175, n1 := 0, v := v }
      thenS (sA.issueA (.own h1 o) h1) fun s1 =>
        (o.v || (List.range (o.n1.toNat + 1)).all fun i => !s1.bankNamed sA.cur (o.first.toNat + i))),
    (let o : RingSetOp := { strm := 4, size := 4, base := 32 }
     thenS (sR.issueA (.ringset h1 o) h1) fun s1 =>
       let t := engStream o.strm
       let r := (sR.core sR.cur).ring t
       decide (ringsetBad o (sR.core sR.cur) = 0) && decide (r.fetch = r.pub) && decide (((sR.core sR.cur).engine t).buf = [])),
    (let met (o : RingPubOp) (u : BitVec 32) (r : Option Reg) : Bool :=
       thenS (sR.issueA (.ringpub h1 o) h1) fun s1 =>
         thenM (match r with | none => .ok 0 s1 | some r => rdA r s1) fun x s2 =>
           let t := engStream o.strm
           let r' := (sR.core sR.cur).ring t
           decide (r = none ∨ u = field x 0 32) && decide ((u - r'.fetch).toNat ≤ 2 ^ r'.size.toNat)
     met { strm := 2, val := .imm 15 } 15 none && met { strm := 2, val := .reg 31 } 7 (some 31) && met { strm := 2, val := .imm 0xFFFFFFFF } 0xFFFFFFFF none),
    metP .mark (fun _ _ => true) h1 { token := 3, c := true, v := false, m := true } (fun h o s => s.onCore s.cur fun q =>
      let k := s.core s.cur;
      { q with marks := vset q.marks o.token.toNat (some
          (if o.m then some (k.markPos .m) else none, if o.v then some (k.markPos .v) else none,
           if o.c then some (k.markPos .c) else none)) }),
    ([2, 3].all fun t : BitVec 2 => metP .join (fun s t =>
      let k := s.core s.cur
      match vget k.marks t.toNat with
      | none => true
      | some (m, v, c) => k.markReached .m m && k.markReached .v v && k.markReached .c c) h1 t (fun _ t s => s.onCore s.cur fun q =>
        { q with marks := vset q.marks t.toNat none }) sR),
    metP .fence (fun s scope => decide (scope = 3 → s.mem.settledAt (panelOf s.cur) = true)) h1 3 (fun _ _ s => s),
    metP .stadv (fun _ _ => true) h1 255 (fun _ n s => s.onCore s.cur fun k => { k with stageCtr := k.stageCtr + n.setWidth 32 }),
    (let n : BitVec 16 := 0xFFFF
     thenS (sA.issueA (.aSafe h1 n) h1) fun s1 => decide ((sA.core sA.cur).preempt = false ∨ (sA.core sA.cur).priv = true))]).all id = true := by decide +kernel

/-! ## The access unit: tasks and passes -/

/-- Little-endian words laid over bytes. -/
def lay (m : Memory) (ws : List (Nat × Word)) : Memory := ws.foldl (fun m e => setBytes m e.1 (bytesOfW 8 e.2)) m

/-- The machine with lines 0 to 39 held, the record of patch 1 with a count of 5 at 1,024, feed ring 0 at address 128 with its first record (not a pass), and four nodes in the
table at 0: a root of context 3 with nodes 1 and 2 below it, of which node 1 is a leaf with patch 1, and node 3 free. -/
def sT : State :=
  let f : Feed := { logc := 0, ring := 128, head := 0, comp := 0, tail := 0, shared := false, pair := 0, lastSeq := 0, notices := [] }
  let s := sM.onMem fun m => { m with
    lines := (List.range 40).map fun i => (i, heldLine)
    l2 := lay [] [(8, 0x8000000003FFFFFF), (16, 2), (40, 0xC000000003000000), (48, 0x100000000), (72, 0x8000000003000000),
      (104, 0xFFFFFF), (128, 1), (136, 0x700000000), (1024, 1), (1032, 5)] }
  let e : RollUp := { RollUp.reset with en := true, ptLog := 4, freeNum := 1, freeHead := 3 }
  { s.onCore 0 fun k => { k with feed := some f, a := vset (vset k.a 16 0x10000) 17 0x20000 } with
    tails := [(0, 1)], tree := { s.tree with engines := Vector.replicate 4 e, patches := [(1, { leaf := 1, place := 0 })] } }

theorem PassWords_met : ([
    (let met (o : RR2) (r : Nat) : Bool :=
       thenS (sT.issueA (.enq h1 o) h1) fun s1 => thenM (rdA o.s1 s1) fun va s2 =>
         let t := (s2.core s2.cur).ctx
         thenM (placeIn (s2.core s2.cur).rangeSet va 128 1 128 s1Mask (fun r => decide (r ≤ 3)) s2) fun la s3 =>
         let p := panelOf s3.cur
         decide (regionOf la = r) &&
         thenM (if regionOf la ≤ 1 then memRead p t la 128 va s3
           else ((do
             let ws ← (List.range 16).mapM (fun i => loadAs t (la + 8 * i) 8 va)
             pure ws.flatten) : M (List Byte)) s3) fun b s4 =>
         thenM (submit t (gathOf s4.cur) b la allOnes 0 (s4.vc p) s4) fun id s5 =>
         thenM (wrA o.d ((id.map (·.setWidth 64)).getD allOnes) s5) fun _ s6 =>
           true
     met { d := 4, s1 := 0 } 0 && met { d := 31, s1 := 21 } 2),
    ([false, true].all fun current =>
      let s := sT.onCore 0 fun k => { k with current := current }
      thenS (s.issueA (.poppass h1 4) h1) fun s1 =>
        let k := s.core s.cur
        thenS k.feed fun f => k.unfinished.all (fun w => !w.readsPass) && thenM (fetchPass f s1) fun r s2 =>
          thenM (if k.current then handOverAll 1 (k.handover.getD (k.blocks.map fun b => (b, false))) s2 else .ok () s2) fun _ s3 =>
          let u := (s3.onGath (gathOf s3.cur) fun g =>
            { g with written := g.written.filter fun w =>
                !(w.core == s3.cur && w.pass == field (r.word 1) 32 32 && r.isPass) }).onCore s3.cur fun k => k.takePass r f s3.cycle
          thenM (wrA 4 (r.word 1) u) fun _ _ => true),
    metP (fun h (_ : Unit) => .passdone h) (fun s _ => decide ((s.core s.cur).current = false)) h1 () (fun _ _ s => s) sT,
    (let s := sT.onCore 0 fun k => { k with current := true }
     thenS (s.issueA (.passdone h1) h1) fun s1 => decide ((s.core s.cur).current = true) && decide ((s.core s.cur).handover = none) &&
       thenM (sendDone (encodeWord (.passdone h1)) ((s.core s.cur).headWord .a) (s.core s.cur).blocks [] [] s1) fun done s2 =>
         (s2.core s2.cur).blocks.all (fun b => !(s2.core s2.cur).rbtParked b || done.contains b)),
    ([false, true].all fun adv => metP .yield (fun _ _ => true) h1 adv (fun _ adv s =>
      let t := s.onCore s.cur fun k => { k with advert := adv }
      if adv then t.assignAll (gathOf s.cur) else t.releaseCore s.cur) sT)]).all id = true := by decide +kernel

/-! ## The access unit: the change tree -/

/-- A handle of a valid node of a word. -/
theorem TreeWords_met : ([
    (let o : RR3 := { d := 4, s1 := 0, s2 := 31 }
     thenS (sT.issueA (.tnode h1 o) h1) fun s1 => (s1.rollup 0).en && !s1.moving && thenM (rdA o.s1 s1) fun a s2 => thenM (rdA o.s2 s2) fun b s3 =>
       let t := (s3.core s3.cur).tag
       thenM (needNode a s3) fun p s4 => thenM (nodeWord p 1 s4) fun w s5 => mayRead t w && !ndLeaf w &&
         thenM (newNode p t b s5) fun v s6 => thenM (wrA o.d v s6) fun _ s7 =>
           true),
    (let met (o : Tree4) (room : Bool) (s : State) : Bool :=
       thenS (s.issueA (.tenrol h1 o) h1) fun s1 => (s1.rollup 0).en && !s1.moving && thenM (rdA o.s1 s1) fun hd s2 => thenM (rdA o.s2 s2) fun va s3 =>
         thenM (rdA o.s3 s3) fun size s4 => thenM (treeRange hd va size true s4) fun q s5 =>
         let ps := patchesOf q.2 size.toNat
         ps.all (fun x => (mapGet s5.tree.patches x).isNone) && decide (s5.patchRoom ps = room) &&
           (if s5.patchRoom ps then thenM (enrol q.1 ps s5) fun _ s6 => thenM (wrA o.d 0 s6) fun _ s7 =>
              true
            else thenM (wrA o.d allOnes s5) fun _ _ => true)
     let far := { sT with tree := { sT.tree with engines := sT.tree.engines.map fun e => { e with ptBase := 1 } } }
     met { d := 4, s1 := 1, s2 := 0, s3 := 16 } true far && met { d := 4, s1 := 2, s2 := 17, s3 := 16 } true far &&
       met { d := 4, s1 := 1, s2 := 0, s3 := 16 } false
         { sT with tree := { sT.tree with engines := sT.tree.engines.map fun e => { e with ptLog := 0 },
                                          patches := [(256 * 65536 + 65793, { leaf := 1, place := 0 })] } }),
    (let o : Tree3 := { s1 := 1, s2 := 16, s3 := 16 }
     let s := sT.onMem fun m => { m with lines := mapPut m.lines 16 { heldLine with w := false } }
     thenS (s.issueA (.tunrol h1 o) h1) fun s1 => (s1.rollup 0).en && !s1.moving && thenM (rdA o.s1 s1) fun hd s2 => thenM (rdA o.s2 s2) fun va s3 =>
       thenM (rdA o.s3 s3) fun size s4 => thenM (treeRange hd va size false s4) fun q s5 =>
         thenM (patchesAt q.1 (patchesOf q.2 size.toNat) s5) fun yes s6 => yes &&
         ends (unrol q.1 (patchesOf q.2 size.toNat) s6)),
    (let o : SS := { s1 := 1, s2 := 2 }
     thenS (sT.issueA (.trepar h1 o) h1) fun s1 => (s1.rollup 0).en && !s1.moving && thenM (rdA o.s1 s1) fun hm s2 => thenM (rdA o.s2 s2) fun hp s3 =>
       let t := (s3.core s3.cur).tag
       thenM (handleNode hm s3) fun m s4 => thenM (handleNode hp s4) fun p s5 => thenS m fun m => thenS p fun p =>
       thenM (nodeWord m 1 s5) fun wm s6 => thenM (if ndParent wm = noNode then .ok wm s6 else nodeWord (ndParent wm) 1 s6) fun wo s7 =>
         mayOwn t wm && mayRead t wo && thenM (nodeWord p 1 s7) fun wp s8 => mayRead t wp && !ndLeaf wp && decide (m ≠ 0) &&
           decide (p ≠ m) && thenM (pathOf p s8) fun above s9 => !above.contains m && thenM (settle m s9) fun _ s10 =>
             ends (reparent m p s10)),
    (thenS (sT.issueA (.tsettle h1 2) h1) fun s1 => thenM (rdA 2 s1) fun hd s2 => (s2.rollup 0).en && thenM (handleNode hd s2) fun n s3 =>
       thenS n fun n => thenM (nodeWord n 1 s3) fun w s4 => mayRead (s2.core s2.cur).tag w &&
         (List.range 4).all (fun p => !(s4.rollup p).err) && thenM (settle n s4) fun _ s5 => (List.range 4).all fun p => !(s5.rollup p).err),
    (let o : TreadOp := { d := 4, s1 := 1, patch := false }
     thenS (sT.issueA (.tread h1 o) h1) fun s1 => thenM (rdA o.s1 s1) fun v s2 => (s2.rollup 0).en && thenM (needNode v s2) fun n s3 =>
       thenM (nodeWord n 1 s3) fun w s4 => mayRead (s2.core s2.cur).tag w && (List.range 4).all (fun p => !(s4.rollup p).err) &&
         thenM (nodeWord n 0 s4) fun c s5 =>
         thenM (wrA o.d c (s5.onMem fun m => m.catchUp (panelOf s5.cur) (s5.stampOf (s2.nodeAddr n 0 / 64)))) fun _ s6 =>
           true),
    (let lost := { sT with tree := { sT.tree with patches := [(1, { leaf := 1, place := 16 })] } }
     [(sT, 16, true), (sT, 17, false), (lost, 16, false)].all fun e : State × Reg × Bool =>
      let o : TreadOp := { d := 4, s1 := e.2.1, patch := true }
      let clear (t : State) : Bool := (List.range 4).all fun p => !(t.rollup p).err
      thenS (e.1.issueA (.tread h1 o) h1) fun s1 => thenM (rdA o.s1 s1) fun v s2 => (s2.rollup 0).en && thenM (ctxXlate v 1 1 s2) fun la s3 =>
        match mapGet s2.tree.patches (la / 65536) with
        | none => e.2.1 == 17 && clear s3 && ends (wrA o.d allOnes s3)
        | some r => thenM (patchRecord (la / 65536) r s3) fun q s4 => q.isSome == e.2.2 &&
            (match q with
             | none => clear s4 && ends (wrA o.d allOnes s4)
             | some (leaf, c) => thenM (nodeWord leaf 1 s4) fun w s5 => mayRead (s2.core s2.cur).tag w && clear s5 &&
                 ends (wrA o.d c (s5.onMem fun m => m.catchUp (panelOf s5.cur) (s5.stampOf (s2.patchAt (la / 65536) r / 64)))))),
    (thenS (sT.issueA (.tfree h1 2) h1) fun s1 => (s1.rollup 0).en && !s1.moving && thenM (rdA 2 s1) fun hd s2 => thenM (needNode hd s2) fun n s3 =>
       thenM (nodeWord n 1 s3) fun w s4 => thenM (nodeWord n 2 s4) fun c s5 => mayOwn (s2.core s2.cur).tag w && decide (n ≠ 0) &&
         decide (ndChildren c = 0) && decide (ndPatches c = 0) && !ndWlk w && thenM (settle n s5) fun _ s6 => ends (freeNode n s6)),
    (let x : Move := { word := encodeWord (.trepar h1 { s1 := 1, s2 := 2 }), rword := 3, node := 1, parent := 2 }
     let s := sT.onCore 0 fun k => { k with aMoves := [x] }
     vget s.power.cluster (clusterOf 0) != (2 : BitVec 2) && s.moving && thenS (s.core 0).aMoves[0]? fun y =>
       decide (y = x) && ends (reparent y.node y.parent { s with cur := 0 })),
    (let busy := { sT.onMem (fun m => { m with lines := [], ctls := m.ctls.map fun q => { q with en := true, refreshing := true } }) with
                   ftRep := Vector.replicate 4 100 }
     thenM (nodeWord 1 1 sT) fun w s1 => thenM (chain (2 ^ 24 - 1) (ndParent w) s1) fun up _ => up == [0] &&
       (nodeWord 1 1 busy matches .error .stall _))]).all id = true := by decide +kernel

/-! ## The access unit: exceptions and privileged words -/

theorem SyscAndRfe_met : ([
    (thenS (sA.issueA (.sysc h1 0xFFFF) h1) fun s1 => true),
    (thenS (sH.issueA (.sysc h1 0) h1) fun s1 => true),
    (thenS (sH.issueA (.rfe h1) h1) fun s1 => (sH.core sH.cur).priv)]).all id = true := by
  decide +kernel

/-- A writable CSR, ROUND with its last mode, the last bank's format beside a bank the engines own, and EXC_RET in the handler. -/
theorem CsrWrites_met : ([
    (let met (s : State) (o : CsrOp) : Bool :=
       thenS (s.issueA (.csrw h1 o) h1) fun s1 => (!csrPriv o.n.toNat || (s.core s.cur).priv) && thenM (rdA o.r s1) fun v s2 =>
         (!(o.n == 0x20) || decide ((field v 0 3).toNat < 5)) &&
           (!(decide (0x100 ≤ o.n.toNat) && decide (o.n.toNat < 0x1B0)) || !vget (s.core s.cur).owner (o.n.toNat - 0x100))
     let sO := sA.onCore 0 fun k => k.setOwner 174 1 true
     met sO { r := 31, n := 0x21 } && met sO { r := 4, n := 0x20 } && met sO { r := 25, n := 0x1AF } && met sO { r := 25, n := 0x1BF } &&
       met sH { r := 25, n := 0x53 })]).all id = true := by decide +kernel

/-- The machine in the handler of core 0, its time at 100 ns, with a page table at 0 that maps the first gigabyte; `drain` marks
the page. -/
def sP (drain : Bool) : State :=
  let s := sT.onCore 0 fun k => { k with priv := true, a := vset (vset (vset k.a 18 0x0300000000000000) 19 64) 28 152 }
  { s.onMem fun m => { m with
      hbm := lay [] [(0, 0x8300000000001000), (0x1000, 0x8300000000002000),
        (0x2000, if drain then 0xC200200000000000 else 0x8200200000000000)] } with
    ftRep := Vector.replicate 4 100 }

/-- The same with a word that has waited for its answer. -/
def sOnce : State := (sP false).onCore 0 fun k => { k with ptTime := some 90, wdone := true }

theorem PrivilegedWords_met : ([
    (let s := sP false
     let o : RR3K := { d := 4, s1 := 0, s2 := 18, k := 2 }
     thenS (s.issueA (.lptw h1 o) h1) fun s1 => (s.core s.cur).priv && thenM (rdA o.s1 s1) fun va s2 => thenM (rdA o.s2 s2) fun v s3 =>
       pagedAddr va && thenS (lptwLevel o.k v) fun lev =>
       thenM (entryFrom va.toNat walkLevels lev ((vget s3.mem.ctls (xlatCtl (va.toNat / 64))).root.toNat * 4096) s3) fun p s4 =>
         thenS p fun p =>
         let u := s4.setPtWord (panelOf s4.cur) p (lptwValue o.k v (s4.ptWord p))
         (s1.core s1.cur).ptTime.isNone && !u.uncached && thenM (wrA o.d (u.entryTime p) u) fun _ _ => true),
    (let s := sOnce
     let o : RR3K := { d := 4, s1 := 0, s2 := 18, k := 2 }
     thenS (s.issueA (.lptw h1 o) h1) fun s1 => (s.core s.cur).priv && (s1.core s1.cur).ptTime == some 90 && !s1.uncached &&
       thenM (wrA o.d 90 (s1.onCore s1.cur fun k => { k with ptTime := none })) fun _ _ => true),
    (let s := sP false
     let o : RR2 := { d := 4, s1 := 0 }
     thenS (s.issueA (.ldrain h1 o) h1) fun s1 => (s.core s.cur).priv && thenM (rdA o.s1 s1) fun va s2 => pagedAddr va &&
       thenM (walkOpen (xlatCtl (va.toNat / 64)) va.toNat s2) fun _ s3 => thenS (s3.walk (xlatCtl (va.toNat / 64)) va.toNat) fun l =>
         let u := s3.setPtWord (panelOf s3.cur) l.at0 (l.pte ||| maskIf true 62 1)
         (s1.core s1.cur).ptTime.isNone && !u.uncached && thenM (wrA o.d (u.entryTime l.at0) u) fun _ _ => true),
    (let s := sOnce
     let o : RR2 := { d := 4, s1 := 0 }
     thenS (s.issueA (.ldrain h1 o) h1) fun s1 => (s.core s.cur).priv && (s1.core s1.cur).ptTime == some 90 && !s1.uncached &&
       thenM (wrA o.d 90 (s1.onCore s1.cur fun k => { k with ptTime := none })) fun _ _ => true),
    (let s := sP true
     let o : SS := { s1 := 0, s2 := 19 }
     thenS (s.issueA (.lconf h1 o) h1) fun s1 => (s.core s.cur).priv && thenM (rdA o.s1 s1) fun va s2 => thenM (rdA o.s2 s2) fun t s3 =>
       pagedAddr va && thenM (walkOpen (xlatCtl (va.toNat / 64)) va.toNat s3) fun _ s4 =>
       thenS (s4.walk (xlatCtl (va.toNat / 64)) va.toNat) fun l => pteDrain l.pte &&
         decide (confirmTime t (pteLease l.pte) ≤ (s4.ftOf (panelOf s4.cur)).toNat) && !s4.uncached && !s4.pageInFlight l va.toNat &&
         thenM ((s4.pageLines l va.toNat).forM (confirmLine l) s4) fun _ s5 => thenM ((s4.pageVictims l).forM confirmVictim s5) fun _ s6 =>
           true),
    (let s := sP false
     let o : SS := { s1 := 25, s2 := 19 }
     thenS (s.issueA (.keyset h1 o) h1) fun s1 => (s.core s.cur).priv && thenM (rdA o.s1 s1) fun x s2 => thenM (rdA o.s2 s2) fun va s3 =>
       decide (field va 56 8 = 0) && decide (regionOf va.toNat = 0) && 
       let n := (field x 0 8).toNat
       decide ((s3.keyOf n).loaded = false ∨ (s3.keyOf n).retired = true) &&
       thenM (memRead (panelOf s3.cur) 0 va.toNat 64 0 s3) fun b s4 =>
         true),
    (let s := sP false
     thenS (s.issueA (.keykill h1 25) h1) fun s1 => (s.core s.cur).priv && thenM (rdA 25 s1) fun x s2 =>
       let n := field x 0 8
       decide (n ≠ 0)),
    (let s := sP false
     thenS (s.issueA (.fmap h1 28) h1) fun s1 => (s.core s.cur).priv && thenM (rdA 28 s1) fun va s2 => decide (field va 56 8 = 0) &&
       decide (regionOf va.toNat ≤ 3) && decide (va.toNat % 8 = 0) &&
       thenM (((List.range 5).mapM (fun i => do
         let b ← aLoad (va.toNat + 8 * i) 8 0
         pure (wordOf b)) : M (List Word)) s2) fun ws s3 =>
           !feedReserved (fun i => ws.getD i 0) && feedOk (fun i => ws.getD i 0))]).all id = true := by decide +kernel

/-! ## The execute unit -/

/-- An X word of two sources passes every check on these operands. -/
def metX2 {ω : Type} (mk : Hdr → ω → Instr) (d s1 s2 : ω → Reg) (f : ω → Word → Word → Word) (h : Hdr) (o : ω) : Bool :=
  thenS (sA.issueX (mk h o) h) fun t1 => thenM (rdX (s1 o) t1) fun x t2 => thenM (rdX (s2 o) t2) fun y t3 =>
    thenM (wrX (d o) (f o x y) t3) fun _ _ => true

/-- One of one source. -/
def metX1 {ω : Type} (mk : Hdr → ω → Instr) (d s1 : ω → Reg) (f : ω → Word → Word) (h : Hdr) (o : ω) : Bool :=
  thenS (sA.issueX (mk h o) h) fun t1 => thenM (rdX (s1 o) t1) fun x t2 => thenM (wrX (d o) (f o x) t2) fun _ t3 =>
    true

/-- One of none. -/
def metX0 (i : Instr) (d : Reg) (v : Word) : Bool :=
  thenS (sA.issueX i h1) fun t1 => thenM (wrX d v t1) fun _ _ => true

theorem ExecuteArithmetic_met : ([
    (thenS (sA.issueX (.xNop h1) h1) fun s1 => true),
    (let o : LIOp := { d := 4, imm := 0x400000000 }
     metX0 (.xLi h1 o) o.d (sext64 o.imm)),
    metX1 .xLih LIHOp.d LIHOp.d (fun o x => o.imm ++ field x 0 32) h0 { d := 31, imm := 1 },
    metX2 .xAdd RR3.d RR3.s1 RR3.s2 (fun _ x y => x + y) h1 { d := 31, s1 := 31, s2 := 31 },
    metX1 .xAddi RIOp.d RIOp.s1 (fun o x => x + sext64 o.imm) h0 { d := 0, s1 := 25, imm := 1 },
    metX2 .xSub RR3.d RR3.s1 RR3.s2 (fun _ x y => x - y) h0 { d := 4, s1 := 4, s2 := 25 },
    metX2 .xAnd RR3.d RR3.s1 RR3.s2 (fun _ x y => x &&& y) h0 { d := 30, s1 := 5, s2 := 6 },
    metX2 .xOr RR3.d RR3.s1 RR3.s2 (fun _ x y => x ||| y) h0 { d := 1, s1 := 5, s2 := 0 },
    metX2 .xXor RR3.d RR3.s1 RR3.s2 (fun _ x y => x ^^^ y) h0 { d := 1, s1 := 31, s2 := 5 },
    metX0 (.xFtrd h1 4) 4 (sA.ftOf (panelOf sA.cur))]).all id = true := by decide +kernel

/-- Zero and the most negative number over -1 as divisor and dividend, shifts by 63, the extremes. -/
theorem ExecuteMultiplyDivide_met : ([
    metX2 .mul RR3.d RR3.s1 RR3.s2 (fun _ x y => w64 (x.toNat * y.toNat)) h1 { d := 4, s1 := 25, s2 := 31 },
    ([0, 1, 2].all fun k => metX2 .mulh RR3K.d RR3K.s1 RR3K.s2 (fun o x y => mulHigh o.k x y) h0 { d := 4, s1 := 25, s2 := 24, k := k }),
    ([false, true].all fun g => metX2 .div RR3S.d RR3S.s1 RR3S.s2 (fun o x y => divW o.sgn x y) h0 { d := 4, s1 := 24, s2 := 25, sgn := g } &&
      metX2 .rem RR3S.d RR3S.s1 RR3S.s2 (fun o x y => remW o.sgn x y) h0 { d := 4, s1 := 24, s2 := 0, sgn := g }),
    metX2 .shl RR3.d RR3.s1 RR3.s2 (fun _ x y => x <<< (y.toNat % 64)) h0 { d := 4, s1 := 5, s2 := 25 },
    metX2 .shr RR3.d RR3.s1 RR3.s2 (fun _ x y => x >>> (y.toNat % 64)) h0 { d := 4, s1 := 24, s2 := 25 },
    metX2 .sra RR3.d RR3.s1 RR3.s2 (fun _ x y => x.sshiftRight (y.toNat % 64)) h0 { d := 4, s1 := 24, s2 := 25 },
    ([false, true].all fun g => metX2 .min RR3S.d RR3S.s1 RR3S.s2 (fun o x y =>
        if o.sgn then (if y.toInt < x.toInt then y else x) else (if y.toNat < x.toNat then y else x)) h0 { d := 4, s1 := 24, s2 := 5, sgn := g } &&
      metX2 .max RR3S.d RR3S.s1 RR3S.s2 (fun o x y =>
        if o.sgn then (if x.toInt < y.toInt then y else x) else (if x.toNat < y.toNat then y else x)) h0 { d := 4, s1 := 24, s2 := 5, sgn := g }),
    metX1 .popc RR2.d RR2.s1 (fun _ x => popcW x) h0 { d := 4, s1 := 25 },
    metX1 .clz RR2.d RR2.s1 (fun _ x => clzW x) h0 { d := 4, s1 := 0 },
    ((5 : Word) != 0)]).all id = true := by decide +kernel

/-- A comparison. -/
def metC (mk : Hdr → CmpOp → Instr) (f : BitVec 3 → Word → Word → Bool) (o : CmpOp) : Bool :=
  thenS (sA.issueX (mk h1 o) h1) fun s1 => thenM (rdX o.s1 s1) fun x s2 => thenM (rdX o.s2 s2) fun y s3 =>
    thenM (wrP o.p (f o.k x y) s3) fun _ _ => true

theorem ExecutePredicates_met : ([
    metC .cmp cmpCond { p := 7, s1 := 24, s2 := 25, k := 5 }, metC .cmp cmpCond { p := 0, s1 := 31, s2 := 31, k := 0 },
    ([0, 7].all fun p =>
      let o : RR3K := { d := 4, s1 := 5, s2 := 6, k := p }
      thenS (sA.issueX (.sel h1 o) h1) fun s1 => thenM (rdX o.s1 s1) fun x s2 => thenM (rdX o.s2 s2) fun y s3 =>
        thenM (wrX o.d (if o.k = 0 ∨ vget (sA.core sA.cur).p o.k.toNat = true then x else y) s3) fun _ s4 =>
          true),
    (let o : PlogOp := { p := 7, s1 := 0, s2 := 1, op := 3 }
     thenS (sA.issueX (.plog h1 o) h1) fun s1 => thenM (rdP o.s1 s1) fun a _ => thenM (rdP o.s2 s1) fun b _ =>
       thenM (wrP o.p (plogOp o.op a b) s1) fun _ _ => true)]
    ).all id = true := by decide +kernel

/-- A rounding word of two sources. -/
def metR2 (mk : Hdr → RR3K → Instr) (f : Val → Val → Mode → Nat → BitVec 32) (o : RR3K) : Bool :=
  thenS (sA.issueX (mk h1 o) h1) fun s1 => thenM (rdX o.s1 s1) fun x s2 => thenM (rdX o.s2 s2) fun y s3 =>
    thenM (wrX o.d ((f (fpVal x) (fpVal y) (s3.modeX o.k) s3.lX).setWidth 64) (s3.roundX o.k)) fun _ s4 =>
      true

/-- A rounding word of one. -/
def metR1 {ω : Type} (mk : Hdr → ω → Instr) (d s1 : ω → Reg) (rnd : ω → BitVec 3) (ok : State → ω → Bool)
    (f : State → ω → Word → Mode → Nat → Word) (o : ω) : Bool :=
  ok sA o && thenS (sA.issueX (mk h1 o) h1) fun t1 => thenM (rdX (s1 o) t1) fun x t2 =>
    thenM (wrX (d o) (f sA o x (t2.modeX (rnd o)) t2.lX) (t2.roundX (rnd o))) fun _ t3 =>
      true

/-- Under each of the modes, stochastic rounding among them, with NaNs, a divisor of zero and a negative root. -/
theorem ExecuteFloat_met : ([
    metR2 .fadd (fun x y m l => round32 (x.add (m == .rdn) y) m l) { d := 4, s1 := 26, s2 := 27, k := 0 },
    metR2 .fsub (fun x y m l => round32 (x.add (m == .rdn) y.neg) m l) { d := 4, s1 := 26, s2 := 26, k := 3 },
    metR2 .fmul (fun x y m l => round32 (x.mul y) m l) { d := 31, s1 := 31, s2 := 27, k := 4 },
    metR2 .fdiv div32 { d := 4, s1 := 26, s2 := 0, k := 1 },
    (let o : RR3K := { d := 27, s1 := 26, s2 := 27, k := 7 }
     thenS (sA.issueX (.ffma h1 o) h1) fun s1 => thenM (rdX o.d s1) fun z s2 => thenM (rdX o.s1 s2) fun x s3 => thenM (rdX o.s2 s3) fun y s4 =>
       thenM (wrX o.d ((round32 (((fpVal x).mul (fpVal y)).add (s4.modeX o.k == .rdn) (fpVal z)) (s4.modeX o.k) s4.lX).setWidth 64)
         (s4.roundX o.k)) fun _ _ => true),
    metR1 .fsqrt RR2K.d RR2K.s1 RR2K.k (fun _ _ => true) (fun _ _ x m l => (sqrt32 (fpVal x) m l).setWidth 64) { d := 4, s1 := 27, k := 2 },
    metX2 .fmin RR3.d RR3.s1 RR3.s2 (fun _ x y => (rne32 ((fpVal x).minv (fpVal y))).setWidth 64) h0 { d := 4, s1 := 26, s2 := 25 },
    metX2 .fmax RR3.d RR3.s1 RR3.s2 (fun _ x y => (rne32 ((fpVal x).maxv (fpVal y))).setWidth 64) h0 { d := 4, s1 := 26, s2 := 27 },
    metC .fcmp (fun k x y => fcmpCond k (fpVal x) (fpVal y)) { p := 1, s1 := 26, s2 := 25, k := 1 }]).all id = true := by decide +kernel

theorem ExecuteConversions_met : ([
    metR1 .cvtf CvtfOp.d CvtfOp.s1 CvtfOp.rnd (fun _ _ => true) (fun _ o x m l =>
      (round32 (Val.ofInt (if o.sg then x.toInt else x.toNat)) m l).setWidth 64) { d := 4, s1 := 25, sg := false, rnd := 1 },
    metR1 .cvti CvtiOp.d CvtiOp.s1 CvtiOp.rnd (fun _ _ => true) (fun _ o x m l => cvtiWord o.sg o.wid (fpVal x) m l)
      { d := 4, s1 := 26, wid := 3, sg := true, rnd := 0 },
    ([false, true].all fun dir => metR1 .cvtn CvtnOp.d CvtnOp.s1 CvtnOp.rnd (fun s o => (slotElem (s.core s.cur) o.fs).isSome)
      (fun s o x m l =>
        let el := (slotElem (s.core s.cur) o.fs).getD .raw
        if o.dir then (round32 (el.decode (x.toNat % 2 ^ el.width)) m l).setWidth 64
        else w64 (roundTo el (fpVal x) m o.sat l)) { d := 4, s1 := 26, fs := 15, dir := dir, sat := true, rnd := 4 })]
    ).all id = true := by decide +kernel

/-- Both ends of a section; a taken and an untaken branch; a count of zero, of one and more. -/
theorem ExecuteControl_met : ([
    ([false, true].all fun neg =>
      let o : BrpOp := { p := 7, neg := neg, off := 7 }
      let k := sA.core sA.cur
      let t : Int := (k.ring .x).fetch.toNat + o.off.toInt
      let b : Bool := o.p = 0 || vget k.p o.p.toNat
      thenS (sA.issueX (.brp h1 o) h1) fun s1 => decide (0 ≤ t) && decide (t < (k.ring .x).count)),
    (let o : LIOp := { d := 31, imm := 0 }
     let k := sA.core sA.cur
     let t : Int := (k.ring .x).fetch.toNat + o.imm.toInt
     thenS (sA.issueX (.xJmp h1 o) h1) fun s1 => decide (0 ≤ t) && decide (t < (k.ring .x).count) &&
       thenM (wrX o.d (w64 ((k.ring .x).fetch.toNat + 2)) s1) fun _ s2 =>
         true),
    (let s := sA.onCore 0 fun k => { k with spad := setByte k.spad 720997 0x38 }
     let o : RR2 := { d := 4, s1 := 5 }
     let k := s.core s.cur
     thenS (s.issueX (.xJr h1 o) h1) fun s1 => thenM (rdX o.s1 s1) fun t s2 => decide (t.toNat < (k.ring .x).count) &&
       k.afterSafe .x 0x38 t.toNat && thenM (wrX o.d (w64 ((k.ring .x).fetch.toNat + 2)) s2) fun _ s3 =>
         true),
    ([1, 2, 3].all fun r =>
      let s := sA.onCore 0 fun k => { k with x := vset (vset k.x 3 0) 2 2 }
      let o : LoopOp := { s1 := r, off := 7 }
      let k := s.core s.cur
      let t : Int := (k.ring .x).fetch.toNat + o.off.toInt
      let x := vget k.x o.s1.toNat
      thenS (s.issueX (.loop h1 o) h1) fun s1 => decide (0 ≤ t) && decide (t < (k.ring .x).count)),
    (thenS (sA.issueX (.xSafe h1 9) h1) fun s1 => !(sA.core sA.cur).preempt && decide ((sA.core sA.cur).safeAt = none))]).all id = true := by decide +kernel

/-! ## The engines -/

/-- An operand in one scratchpad bank from its row 0, under the bank's format. -/
def spadD (rows cols bank : Nat) : Dsc := dscOf 1 0 rows cols (bank / 32 * 2 ^ 99 + bank % 32 * 2 ^ 94)

/-- Accumulator rows of bank 0. -/
def accD (rows cols first : Nat) : Dsc := dscOf 3 0 rows cols (first * 2 ^ 92)

/-- Memory from an address on. -/
def memD (fmt rows cols addr stride : Nat) : Dsc := dscOf 4 fmt rows cols (addr * 2 ^ 46 + stride * 2 ^ 26)

/-- A slot of bobbin `b`. -/
def bobD (rows cols b : Nat) : Dsc := dscOf 2 0 rows cols (b * 2 ^ 97)

/-- A core whose engines own every bank. Bank 8 holds FP32, bank 9 raw bytes, bank 10 MX INT8 of 16, every other bank BF16; format
slot 1 is BF16 and slot 2 raw bytes. Bobbin 1 has four slots of four rows in bank 32, two of them filled. A pass of two rows
of one block with an adapter is current. -/
def sE : State :=
  let f : Vector (BitVec 32) 176 := Vector.replicate 176 0x10000000
  let b : Bobbin := { config := 0x60300020, free := 2, filled := 2, rptr := 0, wptr := 2 }
  let q : MetaQ := { mode := false, entries := [List.replicate 8 0x44] }
  let g : Stage := { rows := List.replicate 4 (List.replicate 16 0), scales := List.replicate 4 [], fmt := 0x10000000, cols := 8 }
  sM.onCore 0 fun k => { k with
    owner := Vector.replicate 176 true, bankFmt := vset (vset (vset f 8 0x30000000) 9 0x80000000) 10 0x60000108
    fmtSlot := vset (vset k.fmtSlot 1 0x10000000) 2 0x80000000, bobbins := vset k.bobbins 1 b, metaQ := vset k.metaQ 3 q
    stages := vset k.stages 1 (some g), current := true, header := vset k.header 1 0x100000001
    passMem := vset (vset (vset k.passMem 0 0x2000003) 4 64) 2 64, rangeTags := [3], rangeFile := [k.rangeSet] }

/-- The first shadow descriptors of an engine. -/
def withD (t : Strm) (ds : List Dsc) (s : State) : State :=
  s.onCore 0 fun k => k.setEngine t { k.engine t with shadow := Vector.ofFn fun i => ds.getD i.val 0 }

/-- An engine word passes every check; its word in progress and state meet `p`. -/
def metE (i : Instr) (s : State) (p : EWord → Issued → State → Bool) : Bool :=
  thenS (engineWord i) fun e => thenS (s.issueE i e) fun x => p e x.1 x.2

/-- An engine word passes every check, no error mark stands anywhere, and its operands meet `p`. -/
def metD (t : Strm) (ds : List Dsc) (i : Instr) (p : Issued → Bool := fun _ => true) : Bool :=
  metE i (withD t ds sE) fun e w s1 => (withD t ds sE).allClean && (withD t ds sE).lineOps.isNone && p w

/-- `State.noRaw` as a value. -/
def noRawB (s : State) (w : Issued) : Bool :=
  (List.range w.dscs.length).all fun n => (List.range (dRows (w.dsc n))).all fun j =>
    match Fmt.parse (s.rowEnc s.cur (w.dsc n) (w.slot n) j) with
    | some f => decide (f.elem ≠ .raw)
    | none => true

/-- An engine word whose results the spec states passes every check. -/
def metR (t : Strm) (ds : List Dsc) (i : Instr) : Bool :=
  metE i (withD t ds sE) fun e w s1 => (withD t ds sE).allClean && (withD t ds sE).lineOps.isNone && noRawB s1 w

theorem EnginePlainWords_met : ([
    metE (.mNop h1) sE fun _ w s1 => true,
    metE (.vNop h1) sE fun _ w s1 => true,
    metE (.cNop h1) sE fun _ w s1 => true,
    ([(Strm.m, Instr.mDset), (.v, .vDset), (.c, .cDset)].all fun e =>
      let o : DsetOp := { d := 15, q := 3, value := 0xFFFFFFFF }
      thenS (sE.issueE (e.2 h1 o) (dsetWord e.1 h1 o)) fun x => true),
    (let o : MqbindOp := { q := 3, mode := true }
     metE (.mqbind h1 o) sE fun _ w s1 => true),
    (let o : CwbindOp := { d0 := 0, d1 := 1, win := 3, n1 := 63, sat := true, rnd := 7 }
     let s := withD .c [bobD 4 4 1, memD 1 4 4 0 8] sE
     metE (.cwbind h1 o) s fun _ w s1 => true),
    ([sE, sE.onCore 0 fun k => { k with windows := vset k.windows 3 (some { src := memD 1 4 4 0 8, dst := bobD 4 4 1, rnd := 0, sat := false, next := 0 }) }
      ].all fun s => metE (.cwadv h1 { win := 3, n1 := 1 }) s fun _ w s1 => true),
    (let s := withD .c [0, memD 2 1 128 0 128] sE
     metE (.csched h1 1) s fun _ w s1 => true)]
    ).all id = true := by decide +kernel

/-- From a bank, and from memory. -/
theorem WeightLoad_met : ([[spadD 4 8 32, memD 1 2 8 0 16].all fun d =>
    let s := withD .m [0, d] sE
    let o : WloadOp := { d1 := 1, stg := false }
    thenS (s.issueE (.wload h1 o) (wloadWord h1 o)) fun x =>
      thenM ((List.range (dRows (x.1.dsc 0))).mapM (fun j => readRow s.cur (x.1.dsc 0) (x.1.slot 0) j 0 0) x.2) fun rows s2 =>
        true]).all id = true := by decide +kernel

/-- B from a bank and from a stage, with and without a pass, and a metadata entry whose indexes rise. -/
theorem MatrixWordsComplete_met : ([
    metD .m [accD 2 4 0, spadD 2 8 0, spadD 4 8 32] (.mma h1 { d0 := 0, d1 := 1, b := .desc 2, pass := none }),
    metD .m [accD 2 4 254, spadD 2 8 0] (.mma h1 { d0 := 0, d1 := 1, b := .stage true, pass := some 0 }),
    metD .m [accD 2 4 0, spadD 2 8 0, bobD 4 8 1] (.gmma h1 { d0 := 0, d1 := 1, d2 := 2, pass := some 0 }),
    metD .m [accD 2 4 0, spadD 4 8 0, spadD 4 8 32] (.smma h1 { d0 := 0, d1 := 1, b := .desc 2, q := 3, pass := none }) fun w =>
      !smmaBad (vget (sE.core 0).metaQ 3).mode (natOfBytes (w.popped.getD [])) (dCols (w.dsc 1)) (dCols (w.dsc 0)),
    metD .m [accD 2 4 254] (.aclr h1 { d0 := 0, mode := true, pass := some 0 }) && sE.canonical,
    metD .m [accD 2 4 0, spadD 2 4 0] (.ald h1 { d0 := 0, d1 := 1, pass := none }),
    metR .m [spadD 2 4 0, accD 2 4 0] (.ast h1 { d0 := 0, d1 := 1, pass := none, sat := true, rnd := 4 }),
    metD .m [accD 2 4 0, spadD 2 1 8] (.ascl h1 { d0 := 0, d1 := 1, pass := some 0 })]).all id = true := by decide +kernel

theorem VectorWordsComplete_met : ([
    ([.vadd, .vsub, .vmul, .vmax, .vmin].all fun mk : Hdr → VBinOp → Instr =>
      metD .v [spadD 2 4 0, spadD 2 4 1, spadD 2 4 32] (mk h1 { d0 := 0, d1 := 1, d2 := 2, br := false, pass := some 0, sat := true, rnd := 4 })),
    metD .v [spadD 2 4 0, spadD 2 4 1, spadD 1 4 32, spadD 2 4 33]
      (.vfma h1 { d0 := 0, d1 := 1, d2 := 2, d3 := 3, br := true, bc := false, pass := none, sat := true, rnd := 4 }),
    ([.vexp, .vlog, .vrcp, .vrsq, .vtanh, .vgelu, .vsilu, .vabs, .vcvt].all fun mk : Hdr → D2Conv → Instr =>
      metD .v [spadD 2 4 0, spadD 2 4 1] (mk h1 { d0 := 0, d1 := 1, pass := none, sat := true, rnd := 0 })),
    metD .v [spadD 2 16 10, spadD 2 16 1] (.vqmx h1 { d0 := 0, d1 := 1, pass := none, sat := true, rnd := 0 }),
    metD .v [spadD 2 16 1, spadD 2 16 10] (.vdqmx h1 { d0 := 0, d1 := 1, pass := none, sat := true, rnd := 0 }),
    ([.vrsum, .vrmax].all fun mk : Hdr → D2Conv → Instr =>
      metD .v [spadD 2 1 0, spadD 2 4 1] (mk h1 { d0 := 0, d1 := 1, pass := none, sat := true, rnd := 0 })),
    metD .v [spadD 1 4 0, spadD 2 4 1] (.vcsum h1 { d0 := 0, d1 := 1, pass := some 0, sat := true, rnd := 0 }),
    metD .v [spadD 2 4 0, spadD 1 4 1] (.vbcast h1 { d0 := 0, d1 := 1, col := false, pass := none, sat := true, rnd := 0 }),
    metD .v [spadD 2 4 0, spadD 2 1 1] (.vbcast h1 { d0 := 0, d1 := 1, col := true, pass := none, sat := true, rnd := 0 }),
    metD .v [spadD 4 2 0, spadD 2 4 0] (.vtrn h1 { d0 := 0, d1 := 1, pass := none, sat := true, rnd := 0 }),
    metD .v [spadD 2 4 0, accD 2 4 0, spadD 1 4 1] (.vepi h1 { d0 := 0, d1 := 1, bias := some 2, fn := 4, pass := none, sat := true, rnd := 0 }),
    metD .v [spadD 2 4 0, spadD 1 4 1] (.vtagsel h1 { d0 := 0, d1 := 1, pass := some 0, sat := true, rnd := 0 })]).all id = true := by
  decide +kernel

/-- Two sources of the same shape, and one row under BR. -/
theorem ElementwiseResults_met : ([
    ([(Instr.vadd, vaddWord, fun a b => a.add false b), (.vsub, vsubWord, fun a b => a.add false b.neg), (.vmul, vmulWord, Val.mul),
       (.vmax, vmaxWord, Val.maxv), (.vmin, vminWord, Val.minv)].all
      fun e : (Hdr → VBinOp → Instr) × (Hdr → VBinOp → EWord) × (Val → Val → Val) => [false, true].all fun br =>
        let s := withD .v [spadD 2 4 0, spadD 2 4 1, spadD (if br then 1 else 2) 4 32] sE
        let o : VBinOp := { d0 := 0, d1 := 1, d2 := 2, br := br, pass := none, sat := false, rnd := 4 }
        thenS (s.issueE (e.1 h1 o) (e.2.1 h1 o)) fun x => s.allClean && noRawB x.2 x.1),
    ([(Instr.vabs, vabsWord, Val.abs), (.vexp, vexpWord, fun a => val32 (exp32 a)), (.vlog, vlogWord, fun a => val32 (log32 a)),
       (.vrcp, vrcpWord, fun a => val32 (div32 (.fin false 1 0) a .rne 0)), (.vrsq, vrsqWord, fun a => val32 (rsq32 a)),
       (.vtanh, vtanhWord, fun a => val32 (tanh32 a)), (.vgelu, vgeluWord, fun a => val32 (gelu32 a)),
       (.vsilu, vsiluWord, fun a => val32 (silu32 a))].all
      fun e : (Hdr → D2Conv → Instr) × (Hdr → D2Conv → EWord) × (Val → Val) =>
        let s := withD .v [spadD 2 4 0, spadD 2 4 1] sE
        let o : D2Conv := { d0 := 0, d1 := 1, pass := some 0, sat := true, rnd := 3 }
        thenS (s.issueE (e.1 h1 o) (e.2.1 h1 o)) fun x => s.allClean && noRawB x.2 x.1)]).all id = true := by
  decide +kernel

/-- The other vector words on operands of like and unlike COLS, with and without a broadcast or a bias, and with a pass. -/
theorem VectorRowResults_met : ([
    metR .v [spadD 2 4 0, spadD 2 4 1, spadD 1 4 32, spadD 2 4 33]
      (.vfma h1 { d0 := 0, d1 := 1, d2 := 2, d3 := 3, br := true, bc := false, pass := none, sat := true, rnd := 4 }),
    metR .v [spadD 4 2 0, spadD 2 4 1] (.vcvt h1 { d0 := 0, d1 := 1, pass := none, sat := true, rnd := 0 }),
    metR .v [spadD 2 16 10, spadD 2 16 1] (.vqmx h1 { d0 := 0, d1 := 1, pass := none, sat := true, rnd := 0 }),
    metR .v [spadD 2 16 1, spadD 2 16 10] (.vdqmx h1 { d0 := 0, d1 := 1, pass := none, sat := true, rnd := 0 }),
    ([.vrsum, .vrmax].all fun mk : Hdr → D2Conv → Instr =>
      metR .v [spadD 2 1 0, spadD 2 4 1] (mk h1 { d0 := 0, d1 := 1, pass := none, sat := true, rnd := 0 })),
    metR .v [spadD 1 4 0, spadD 2 4 1] (.vcsum h1 { d0 := 0, d1 := 1, pass := some 0, sat := true, rnd := 0 }),
    metR .v [spadD 2 4 0, spadD 2 1 1] (.vbcast h1 { d0 := 0, d1 := 1, col := true, pass := none, sat := true, rnd := 0 }),
    metR .v [spadD 4 2 0, spadD 2 4 0] (.vtrn h1 { d0 := 0, d1 := 1, pass := none, sat := true, rnd := 0 }),
    metR .v [spadD 2 4 0, accD 2 4 0, spadD 1 4 1] (.vepi h1 { d0 := 0, d1 := 1, bias := some 2, fn := 4, pass := none, sat := true, rnd := 0 }),
    metR .v [spadD 2 4 0, spadD 1 4 1] (.vtagsel h1 { d0 := 0, d1 := 1, pass := some 0, sat := true, rnd := 0 })]).all id = true := by
  decide +kernel

/-- A V word and AST that go on. -/
theorem VectorFrame_met :
    (let s := withD .v [spadD 2 4 0, spadD 2 4 1] sE
     let i : Instr := .vabs h1 { d0 := 0, d1 := 1, pass := none, sat := false, rnd := 0 }
     let u := withD .m [spadD 2 4 0, accD 2 4 0] sE
     let j : Instr := .ast h1 { d0 := 0, d1 := 1, pass := none, sat := false, rnd := 0 }
     let on (i : Instr) (s : State) : Bool :=
       s.canonical && s.allClean && metE i s fun e _ _ => decide (e.op = true) && (exec i s matches .next _)
     on i s && on j u) = true := by decide +kernel

/-- Every operand lies on chip. -/
def onChip (w : Issued) : Bool := w.dscs.all fun d => inAcc d || inSpad d

/-- `State.resident` as a value, on the byte addresses of a range. -/
def residentB (s : State) (p la n : Nat) (write : Bool) : Bool :=
  (List.range n).all fun j =>
    let a := la + j
    decide (regionOf a ≤ 1) && thenS (mapGet s.mem.lines (a / 64)) fun t => !t.failed && t.err == 0 &&
      (write || p == homePanel (a / 64) || thenS (mapGet s.mem.replicas (replicaKey p (a / 64))) fun r => r.err == 0) &&
      (!write || (t.w && decide ((s.ftOf (homePanel (a / 64))).toNat + 64 < t.exp.toNat) &&
        !(vget s.mem.ctls (xlatCtl (a / 64))).uncached && !s.lockedAt a))

/-- `State.rowThere` as a value. -/
def rowThereB (s : State) (c : CoreId) (d : Dsc) (j b first : Nat) (write : Bool) : Bool :=
  thenS (Fmt.parse (vget (s.core c).fmtSlot (dFmt d))) fun f =>
    let n := f.memBytes (dCols d)
    thenS (s.lineAddr c d j b first n write) fun la => residentB s (panelOf c) la n write

/-- `State.rowHere` as a value. -/
def rowHereB (s : State) (c : CoreId) (d : Dsc) (j b first : Nat) (write : Bool) : Bool :=
  inAcc d || inSpad d || rowThereB s c d j b first write

/-- `State.apart` as a value. -/
def apartB (s : State) (c : CoreId) (x y : RowAt) (b first b' first' : Nat) : Bool :=
  match Fmt.parse (vget (s.core c).fmtSlot (dFmt x.d)), Fmt.parse (vget (s.core c).fmtSlot (dFmt y.d)) with
  | some f, some g =>
    match s.lineAddr c x.d x.row b first (f.memBytes (dCols x.d)) false, s.lineAddr c y.d y.row b' first' (g.memBytes (dCols y.d)) true with
    | some la, some lb => decide ((la + f.memBytes (dCols x.d) - 1) / 64 < lb / 64 ∨ (lb + g.memBytes (dCols y.d) - 1) / 64 < la / 64)
    | _, _ => true
  | _, _ => true

/-- The hypotheses of `CopyResult` on a state. -/
def copyMet (i : Instr) (p : Pass) (s : State) : Bool :=
  s.allClean && s.lineOps.isNone && !(vget s.tree.engines 0).en && metE i s fun _ w s1 =>
    thenM (declareMarks s.cur (w.dsc 0) s1) fun _ s2 =>
      let c := s.cur
      let k := s2.core c
      let b := k.rowBlock p
      let n := k.firstAt p
      let rows := List.range (dRows (w.dsc 0))
      rows.any (fun i => !(k.rowParked p i || noAdapter k w.dscs (b i))) && rows.all fun i =>
        k.rowParked p i || noAdapter k w.dscs (b i) ||
          (rowHereB s2 c (w.dsc 1) i (b i) (n i) false && rowHereB s2 c (w.dsc 0) i (b i) (n i) true &&
            rows.all fun j => apartB s2 c (rowAt (w.dsc 1) (w.slot 1) i) (rowAt (w.dsc 0) (w.slot 0) j) (b i) (n i) (b j) (n j))

/-- The machine of the engine words with lines 0 to 7 of memory held, a WID of one tile at 0 locked, and the copy engine's descriptors. -/
def sCp (ds : List Dsc) : State :=
  let s := (withD .c ds sE).onMem fun m => { m with lines := (List.range 8).map fun i => (i, heldLine) }
  { s with ws := { s.ws with wids := [(0, { wid := 9, base := 0, tiles := 1, tbytes := 4096, node := 0, regCount := 0, locked := true, owner := 0 })] } }

/-- Rows on chip and in memory, as destination and as source, and CLSEND, CLRECV and CLRED on chip. -/
theorem CopyWords_met : ([
    ([none, some 0].all fun p : Pass => copyMet (.ccopy h1 { d0 := 0, d1 := 1, pass := p, sat := true, rnd := 4 }) p (sCp [spadD 2 4 0, spadD 2 4 1])),
    copyMet (.ccopy h1 { d0 := 0, d1 := 1, pass := none, sat := true, rnd := 4 }) none (sCp [memD 1 2 4 128 64, memD 1 2 4 0 8]),
    copyMet (.ccopy h1 { d0 := 0, d1 := 1, pass := none, sat := true, rnd := 4 }) none (sCp [spadD 2 4 0, dscOf 6 1 2 4 (9 * 2 ^ 38)]),
    ([accD 2 4 0, memD 1 2 4 128 64].all fun d =>
      let s := sCp [d]
      s.allClean && metE (.cfill h1 { d0 := 0, value := 0xFFFF, sat := true, rnd := 0 }) s fun _ w s1 =>
        thenM (declareMarks s.cur (w.dsc 0) s1) fun _ s2 => (List.range (dRows (w.dsc 0))).all fun i => rowHereB s2 s.cur (w.dsc 0) i 0 0 true),
    ([(false, dscOf 7 0 2 4 (4096 * 2 ^ 60), memD 1 2 4 0 8, some 63), (true, memD 1 2 4 128 64, dscOf 7 0 2 4 (4096 * 2 ^ 60), none)].all
      fun e : Bool × Dsc × Dsc × Option (BitVec 6) =>
      let s := sCp [e.2.1, e.2.2.1]
      s.allClean && metE (.cmcast h1 { d0 := 0, d1 := 1, storer := e.1, tflag := e.2.2.2, n1 := 0, sat := true, rnd := 0 }) s fun _ w s1 =>
        thenM (if e.1 then declareMarks s.cur (w.dsc 0) s1 else .ok () s1) fun _ s2 =>
          (List.range (dRows (w.dsc 1))).all (fun i => rowHereB s2 s.cur (w.dsc 1) i 0 0 false) &&
          (List.range (dRows (w.dsc 0))).all (fun i => rowHereB s2 s.cur (w.dsc 0) i 0 0 true)),
    ([spadD 16 64 9, memD 2 2 8 0 16].all fun d =>
      let s := sCp [0, d]
      s.allClean && metE (.cmeta h1 { d1 := 1, q := 3 }) s fun _ w s1 => (List.range (dRows (w.dsc 0))).all fun i =>
        rowHereB s1 s.cur (w.dsc 0) i 0 0 false && (Fmt.parse (s1.rowEnc s.cur (w.dsc 0) (w.slot 0) i)).isSome),
    metD .c [0, spadD 2 4 0] (.clsend h1 { d := 1, link := 15, block := 0xFFF }) onChip,
    (let b : Block := { owner := 3, sched := 0, num := 5, bytes := List.replicate 10 0, whole := true }
     let s (ds : List Dsc) := withD .c ds (sE.onCore 0 fun k => { k with recv := [(15, [b])] })
     let on (i : Instr) (ds : List Dsc) : Bool := metE i (s ds) fun _ w s1 => (s ds).allClean && onChip w
     on (.clrecv h1 { d := 0, link := 15, block := 5 }) [spadD 2 4 0] &&
       on (.clred h1 { d0 := 0, d1 := 1, link := 15, block := 5, sat := true, rnd := 0 }) [spadD 2 4 0, accD 4 2 0])]).all id = true := by
  decide +kernel

/-- Two rows of the one block of the pass, and two rows of its adapter. -/
theorem GatherScatterComplete_met : (
    let d5 (sel : Nat) : Dsc := dscOf 5 1 2 4 (sel * 2 ^ 97 + 16 * 2 ^ 77)
    let o : D2Conv := { d0 := 0, d1 := 1, pass := some 0, sat := true, rnd := 0 }
    let p := sCp [bobD 2 4 1, d5 2]
    [copyMet (.cgath h1 o) (some 0) (sCp [spadD 2 4 0, d5 0]), copyMet (.cscat h1 o) (some 0) (sCp [d5 2, spadD 2 4 0]),
     p.allClean && metE (.cpfa h1 { d0 := 0, d1 := 1, sat := true, rnd := 0 }) p fun _ w _ =>
       !(p.core 0).rbtParked 0 && (p.core 0).rbt 0 4 != 0 && (List.range ((p.core 0).hdrBlocks + 1)).all fun b =>
         (List.range (dRows (w.dsc 1))).all fun j => rowThereB p 0 (w.dsc 1) j b j false]).all id = true := by decide +kernel

/-! ## Events of a core -/

/-- The word in progress of a NOP with clauses, and the V engine that has it in progress. -/
def wNop : Issued :=
  { word := encodeWord (.vNop h1), abs := 0, rword := 5, pass := 0, ctx := 3, dscs := [], slots := [], banks := [], bobbins := [], readsPass := false, entry := none, popped := none, resume := 0, deferred := [], pending := 0, lfsr0 := 0, todo := false, retry := none, ops := [], lines := [], own := none, env := none, res := [] }

/-- The entry of a schedule: its word, then its descriptors from byte 16. -/
def entryBytes (w : Word) (ds : List Dsc) : Memory :=
  ds.zipIdx.foldl (fun m e => setBytes m (144 + 16 * e.2) (bytesOfNat 16 e.1.toNat)) (lay [] [(128, w)])

theorem EngineEvents_met : ([
    ([h1, h0].all fun h =>
      let w : Issued := { wNop with word := encodeWord (.vNop h), deferred := [.release 1 1] }
      let s := sE.onCore 0 fun k => k.setEngine .v { k.v with prog := [w] }
      thenS (((s.core 0).engine .v).prog)[0]? fun w => (s.core 0).mayComplete .v 0 w &&
        thenM (runDeferred fillSlot 0 w.deferred w { s with cur := 0 }) fun r s2 => r.1.isEmpty &&
          let u := (s2.undrain 0 .v).onCore 0 fun k => k.dropProg .v 0
          match (u.core 0).completionSig (getSig w.word) with
          | none => h == h0
          | some (v, n) => match (u.core 0).addFlag v n with
            | .ok k => h == h1
            | .error _ => false),
    (let s := sE.onCore 0 fun k => k.setRing .v { Ring.reset with base := 16, size := 3, started := true, fetch := 9, pub := 10 }
     let k := s.core 0
     let r := k.ring .v
     !k.dead && vget s.power.cluster (clusterOf 0) == 0 && r.started && r.fetch != r.pub && decide ((k.engine .v).buf.length < 16)),
    (let s := { withD .v [spadD 2 4 0, spadD 2 4 1] sE with lineOps := some 0 }
     metE (.vabs h1 { d0 := 0, d1 := 1, pass := none, sat := true, rnd := 0 }) s fun e w s1 => decide (e.later s1 s.cur w.dscs ≠ .no)),
    (let w : Issued := { wNop with word := encodeWord (.vabs h1 { d0 := 0, d1 := 1, pass := none, sat := true, rnd := 0 }), todo := true,
                                   dscs := [spadD 2 4 0, spadD 2 4 1], slots := [0, 0] }
     let y : Issued := { wNop with word := encodeWord (.ccopy h1 { d0 := 0, d1 := 1, pass := none, sat := true, rnd := 4 }), todo := true,
                                   dscs := [memD 1 2 32 128 64, memD 1 2 32 0 64], slots := [0, 0] }
     [(Strm.v, w, none), (.c, y, none), (.c, y, some 1)].all fun e : Strm × Issued × Option Nat =>
       let s := { (sCp []).onCore 0 fun k => k.setEngine e.1 { k.engine e.1 with prog := [e.2.1] } with lineOps := e.2.2, cur := 0 }
       vget s.power.cluster 0 != 2 && thenS (((s.core 0).engine e.1).prog[0]?) fun w => w.todo && thenS (w.entryOf e.1) fun g =>
         s.opsNow g 0 w.dscs != (some 0 : Option Nat) && thenM (runBody 0 e.1 (Issued.bodyOf g 0) w (s.opsNow g 0 w.dscs) s) fun w' _ =>
           w'.todo == e.2.2.isSome),
    ([h1, h0].all fun h =>
      let w : Issued := { wNop with word := encodeWord (.xNop h), res := [(.reg 4, 9), (.pred 3, 1), (.xa, 7)] }
      let s := sE.onCore 0 fun k => { k with xProg := [{ wNop with res := [(.reg 5, 1), (.xa, 2)] }, w], xa := [none, none] }
      thenS (s.core 0).xProg[1]? fun w =>
        let k1 := w.res.foldl (fun k r => k.landX 1 r) (s.core 0)
        let k := { k1 with xProg := k1.xProg.eraseIdx 1 }
        decide (vget s.power.cluster (clusterOf 0) ≠ 2) && (k.xa == [none, some (7 : Word)]) &&
        ((s.core 0).xProg.take 1).all (fun x => x.res.all fun r => r.1 == .xa || w.res.all fun e => e.1 != r.1) &&
        match k.completionSig (getSig w.word) with
        | none => h == h0
        | some (v, n) => match k.addFlag v n with
          | .ok _ => h == h1
          | .error _ => false),
    ([false, true].all fun kept =>
     let o : CfillOp := { d0 := 0, value := 0x3F80, sat := false, rnd := 0 }
     let i : Instr := .cfill h0 o
     let m := entryBytes (encodeWord i) [spadD 2 4 0]
     let held := if kept then some (bytesAt m 128 128) else none
     let s := (sE.onCore 0 fun k => { k with stageCtr := 1, sched := some { abs := 0, rword := 0, base := 0, table := memD 2 2 128 128 128, next := 0, held := held } }).onMem fun q =>
       { q with lines := [(0, heldLine), (2, heldLine), (3, heldLine)], l2 := m }
     s.mayIssue 0 .c && s.lineOps.isNone && thenS (s.core 0).sched fun g => (s.core 0).entryDue g &&
       let la := dAddr g.table + 128 * g.next
       thenM (match g.held with
         | some b => .ok b s
         | none => match (do check4 0 la 128 1; engRead 0 (s.core 0).ctx la 128 0 : M (List Byte)) s with
           | .ok bs u => .ok bs ((u.undrain 0 .c).onCore 0 fun k => { k with sched := k.sched.map fun g => { g with held := some bs } })
           | .error e u => .error e u) fun bs s2 =>
         let x := entryOf bs
         decide (field x.word 56 8 = 0) && x.clean && (match decodeWord .c x.word with
           | .word j 0 => decide (j = i)
           | _ => false) && thenS (engineWord i) fun e =>
         let ds := e.ops.map fun o => x.dscs.getD ((36 - o.at0) / 4) 0
         thenS (s2.issueWord x.word (badOperands i) e ds (some g.next)) fun _ => s2.allClean &&
           ds.all (fun d => inAcc d || inSpad d))
    ]).all id = true := by decide +kernel

/-- Core 0 with its X stream in a slack region whose first word was due at 5 with a slack of 2, the count at 100, the start not run. -/
def sL : State := sA.onCore 0 fun k => { k with
  regions := [{ slack := 2, first := 0, count := 8, strm := 1, due := 5, stepBy := 1 }], scnt := 100 }

/-- Lines 0 to 3 held, and a range set of tag 0 at 0 that grants everything. -/
def sI : State := sM.onMem fun m => { m with
  lines := [(0, heldLine), (1, heldLine), (2, heldLine), (3, heldLine)], l2 := lay [] [(0, 0xF), (8, 0x01FFFFFFFFFF0000)] }

/-- An addition of 5 to flag 9 on its way to a core for a tag, in the test machine with its page-table side. -/
def sRem (link : Option (BitVec 4)) (target : CoreId) (owner : Tag) : State :=
  let h : Held := { sender := 130, strm := .c, v := 9, amount := 5, clock := VClock.zero, pass := 0, rword := 0, word := 0, abs := 0, entry := none, link := link }
  { sT with remotes := [{ held := h, target := target, owner := owner }] }

theorem CoreEvents_met : ([
    sL.streamLate (sL.core 0) .x && !(sL.core 0).late,
    !(sA.core sA.cur).priv,
    (let s := sA.onCore 0 fun k => { k with current := true, budgetArmed := true, budget := 0 }
     let k := s.core 0
     !k.dead && decide (vget s.power.cluster (clusterOf 0) = 0) && s.budgetDue k),
    (let r : Ring := { Ring.reset with size := 3, count := 8, started := true, ended := true }
     let n : Ring := { Ring.reset with base := 8, size := 3, count := 8, started := true }
     let base := sA.onCore 0 fun k => { (k.setRing .a r) with ax := [], xa := [], preempt := true }
     [(base.onCore 0 fun k => k.setRing .x r, none),
      (base.onCore 0 fun k => { (k.setRing .x n) with spad := setBytes k.spad (720896 + 64) (bytesOfW 8 (encodeWord (.xSafe h0 7))) }, some 7)].all
       fun e : State × Option (BitVec 16) =>
       let k := e.1.core 0
       decide (k.safePoint = some e.2) && k.preemptDue && decide (vget e.1.power.cluster (clusterOf 0) = 0) && (k.ring .a).ended),
    (let w : Word := encodeWord (.aSafe h1 7)
     let s := sA.onCore 0 fun k => { k with spad := setBytes k.spad 720896 (bytesOfW 8 w), wdone := true, preempt := true, ax := [], xa := [],
                                            rings := (vset k.rings 1 Ring.reset) }
     let k := s.core 0
     decide (k.safePoint = some (some 7)) && k.preemptDue && !(k.ring .a).ended && decide (k.headOf .a = some w) &&
       decide (decodeA w = some (.aSafe h1 7)) &&
       !((((s.onCore 0 fun k => k.advanceA false .next).aComplete h1 w (k.headWord .a)).core 0).priv)),
    (let s := sA.onCore 0 fun k => { k with wdone := true, aSafe := some 7, preempt := true, ax := [], xa := [],
                                            rings := (vset k.rings 1 Ring.reset) }
     let k := s.core 0
     decide (k.safePoint = some (some 7)) && k.preemptDue && !(k.ring .a).ended &&
       match k.headOf .a with
       | some w => !(match decodeA w with | some (.aSafe _ _) => true | _ => false)
       | none => true),
    (let s := sA.onCore 0 fun k => k.setRing .m { Ring.reset with base := 16, size := 3, entry := true, pub := 8 }
     (s.core 0).loaded && decide (vget s.power.cluster (clusterOf 0) = 0)),
    thenM (loadImage 0 0 [] [] sI) fun _ _ => true,
    thenM (readImage 0 0 64 16 sI) fun b u => thenM (loadImage 0 0 b [] u) fun _ _ => true]).all id = true := by decide +kernel

/-- Remote additions at a core that runs the tag, and at one in P1 that runs another; for a context that is away, under each mode;
where no entry is; where the flag is not live. -/
theorem RemoteAdditions_met : ([
    ([(none, 3, 0), (some 15, 3, 1), (none, 4, 1)].all fun e : Option (BitVec 4) × Tag × BitVec 2 =>
      let s := sRem e.1 0 e.2.1
      let s := { s with power := { s.power with cluster := vset s.power.cluster 0 e.2.2 } }
      thenS s.remotes[0]? fun x : Remote =>
        let k := s.core x.target
        let f := vget k.flags ((x.held.v.toNat + k.flagBase.toNat) % 64)
        ((k.loaded && decide (k.ctx = x.owner) && vget s.power.cluster (clusterOf x.target) != (2 : BitVec 2)) ||
            vget s.power.cluster (clusterOf x.target) == (1 : BitVec 2)) &&
          decide (x.held.v.toNat < k.flagNum.toNat) && decide (f.count.toNat + x.held.amount.toNat ≤ f.ceil.toNat)),
    ([1, 2, 3].all fun mode =>
      let s := sRem none 1 3
      let s := (s.onCore 1 fun k => { k with away := vset k.away 7 { mode := mode, num := 10, core := 2, owner := 3, image := 0, held := [] } }).onMem fun m =>
        { m with l2 := lay m.l2 [(0x648, (vget flags 9).word)] }
      thenS s.remotes[0]? fun x : Remote =>
        let k := s.core x.target
        !k.loaded && vget s.power.cluster (clusterOf x.target) != (1 : BitVec 2) && thenS (k.awayFor x.owner) fun n => decide (x.held.v.toNat < (vget k.away n).num.toNat) &&
          decide ((vget k.away n).mode = mode) &&
          (mode != 1 || thenM (imageAdd (panelOf x.target) (vget k.away n) x.held { s with remotes := listDrop s.remotes 0 }) fun old _ =>
            ((Flag.ofWord old).add x.held.amount.toNat).isSome)),
    (let s := sRem none 1 3
     thenS s.remotes[0]? fun x : Remote => !(s.core x.target).loaded && vget s.power.cluster (clusterOf x.target) != (1 : BitVec 2) && ((s.core x.target).awayFor x.owner).isNone &&
       thenM (remoteDrop x.held x.owner x.target false { s with remotes := listDrop s.remotes 0 }) fun _ _ => true),
    (let s := (sRem none 0 3).onCore 0 fun k => { k with flagNum := 9 }
     thenS s.remotes[0]? fun x : Remote =>
       let k := s.core x.target
       k.loaded && decide (k.ctx = x.owner) && decide (vget s.power.cluster (clusterOf x.target) ≠ 2) &&
         decide (k.flagNum.toNat ≤ x.held.v.toNat) &&
         thenM (remoteDrop x.held x.owner x.target true { s with remotes := listDrop s.remotes 0 }) fun _ _ => true)]).all id = true := by
  decide +kernel

/-- Hart 1 runs at lining address 0, in a line that holds one instruction. -/
def sHart (w : Nat) : State :=
  let s := sM.onMem fun m => { m with l2 := setBytes [] 0 (bytesOfNat 4 w) }
  { s with boot := { s.boot with harts := 2 } }

/-- A core halted at its X head, one with a refused addition of an issued word, and one whose pass holds blocks of two owners. -/
theorem FirmwareEvents_met : ([
    (let a := sA.onCore 0 fun k => { k with xHalt := some .head, spad := setBytes k.spad (720896 + 64) (bytesOfW 8 (encodeWord (.xNop h0))) }
     let b := sA.onCore 0 fun k => k.setEngine .v { k.v with halt := some (.addition 5 1 wNop) }
     [(a, Strm.x), (b, Strm.v)].all fun e => thenS ((e.1.core 0).haltOf e.2) fun h =>
       (thenM (retryHalt 0 e.2 h (e.1.onCore 0 fun k => k.setHalt e.2 none)) fun _ _ => true) &&
       (thenM (skipHalt 0 e.2 h (e.1.onCore 0 fun k => k.setHalt e.2 none)) fun _ _ => true)),
    (let y : Issued := { wNop with word := encodeWord (.ccopy h1 { d0 := 0, d1 := 1, pass := none, sat := true, rnd := 4 }), todo := true,
                                   dscs := [memD 1 2 32 128 64, memD 1 2 32 0 64], slots := [0, 0] }
     let s := { ((sCp []).onMem fun m => { m with lines := [], ctls := m.ctls.map fun q => { q with refreshing := true } }).onCore 0
                  (fun k => k.setEngine .c { k.c with halt := some (.performed y) }) with cur := 0 }
     thenS ((s.core 0).haltOf .c) fun h => match h with
       | .performed w => w.todo && thenS (w.entryOf .c) fun e =>
           let s1 := s.onCore 0 fun k => k.setHalt .c none
           (runBody 0 e.strm (Issued.bodyOf e 0) { w with retry := some w.resume } none s1 matches .error .stall _)
       | _ => false),
    (let s := sM.onCore 0 fun k => { k with current := true, header := vset k.header 1 0x100010003,
                                            passMem := vset (vset k.passMem 0 0x2000003) 8 0x2020004 }
     let k := s.core 0
     let fresh := k.blocks.filter fun b => !k.rbtParked b
     let owners := (fresh.map k.rbtOwner).eraseDups
     let k1 := (fresh.foldl Core.park k).pm 8 ((fresh.map k.rbtCount).sum)
     let first (o : Tag) := BitVec.ofNat 6 ((fresh.find? fun b => k.rbtOwner b == o).getD 0)
     let note (o : Tag) : Rec := { pass := k.passId, owner := o, unit := 0, cont := 1, block := first o, cls := 0x20, wv := false, core := 0, strm := 0, rword := 0, laddr := 0, d0 := k.passBudget, d1 := 0, word := 0 }
     let q := { k1 with parkedOwners := owners ++ k.parkedOwners }
     decide (owners = [3, 4]) && thenM ((owners.forM fun o => appendFault (panelOf 0) (note o) : M Unit) (s.setCore 0 q)) fun _ t =>
       true),
    !(sA.core 0).current,
    thenM (regWrite 0 0 0x30000000000000 5 sM) fun _ _ => true,
    (let s := { sM with boot := { sM.boot with harts := 4 } }
     bit s.boot.harts 2 && decide (regionOf 0xF0000000000008 = 15) &&
       thenM (hartAccess 2 8 (.store 3 7) s) fun _ _ => true),
    (let s := sHart 0x00500093
     let h := vget s.boot.hart 1
     bit s.boot.harts 1 && (h.interrupt s.host.raised).isNone && !bit h.mcountinhibit 0),
    ([0x002081B3, 0x4020813B].all fun w => thenM ((hartFetch (vget (sHart w).boot.hart 1)).run (sHart w)) fun r _ => match r with
      | .ok (_, _, some (.alu _ _ rd _ _)) => rd != 0
      | _ => false),
    (thenM ((hartInstr 1 (vget (sHart 0x73).boot.hart 1)).run (sHart 0x73)) fun r _ => match r with
      | .error t => t.cause == 11
      | _ => false),
    (let s := { sHart 0 with host := { sM.host with irqFault := true } }
     let h := { vget s.boot.hart 1 with mie := 0x200, mstatus := 8 }
     h.interrupt s.host.raised == some 9)]).all id = true := by
  decide +kernel

/-! ## The harts (encodings and results of the RISC-V Unprivileged ISA 20191213 and of IEEE 754, worked out by hand) -/

theorem test_rv_decode :
    rvDecode 0x00500093 = some (.aluImm .add false 1 0 5) ∧ rvDecode 0x123452B7 = some (.lui 5 0x12345000) ∧
    rvDecode 0xFE208EE3 = some (.branch 0 1 2 (-4)) ∧ rvDecode 0x001000EF = some (.jal 1 2048) ∧
    rvDecode 0x0020B423 = some (.store 3 1 2 8) ∧ rvDecode 0x0063A2AF = some (.amo .add false 5 7 6) ∧
    rvDecode 0x02B57553 = some (.farith .add true 10 10 11 7) ∧ rvDecode 0x30200073 = some .mret ∧
    rvDecode 0xFFFFFFFF = none := by
  decide +kernel

theorem test_rv_compressed :
    rvcDecode 0x147D = some (.aluImm .add false 8 8 (-1)) ∧ rvcDecode 0x4505 = some (.aluImm .add false 10 0 1) ∧
    rvcDecode 0x852E = some (.alu .add false 10 0 11) ∧ rvcDecode 0xE406 = some (.store 3 2 1 8) ∧
    rvcDecode 0x0808 = some (.aluImm .add false 10 2 16) ∧ rvcDecode 0x8082 = some (.jalr 0 1 0) ∧
    rvcDecode 0x7139 = some (.aluImm .add false 2 2 (-64)) ∧ rvcDecode 0xC501 = some (.branch 0 10 0 8) ∧
    rvcDecode 0xA001 = some (.jal 0 0) ∧ rvcDecode 0 = none := by
  decide +kernel

theorem test_rv_float :
    rvArith .div true 0x3FF0000000000000 0x4008000000000000 (.rne, 0) = (0x3FD5555555555555, 1) ∧
    rvSqrt true 0x4000000000000000 (.rne, 0) = (0x3FF6A09E667F3BCD, 1) ∧
    rvArith .mul false 0x7F7FFFFF 0x40000000 (.rne, 0) = (0x7F800000, 5) ∧
    rvArith .div false 0x3F800000 0 (.rne, 0) = (0x7F800000, 8) ∧
    rvToInt 0 false 0x4F000000 (.rtz, 0) = (0x7FFFFFFF, 0x10) ∧ rvToInt 2 false 0xBFC00000 (.sr, 2 ^ 15) = (-2, 1) := by
  decide +kernel

/-- A leaf of the root table without D: a load goes through, a store takes the page fault. -/
theorem test_hart_translation :
    (let s := sHart 0x4F
     let h := { vget s.boot.hart 1 with mode := .s, satp := 9 <<< 60, pmpcfg := Vector.replicate 16 0x1F,
                                        pmpaddr := Vector.replicate 16 (2 ^ 54 - 1) }
     (match (hartAddr h .load 0x1234 4).run s with
       | .ok (.ok pa) _ => pa == 0x1234
       | _ => false) &&
     (match (hartAddr h .store 0x1234 4).run s with
       | .ok (.error t) _ => t.cause == 15 && t.tval == 0x1234
       | _ => false)) = true := by
  decide +kernel

/-! ## Events of the host queues, the task graph and the Gatherers -/

/-- Lines 0 to 15 held, submission queue 2 mapped to a ring at 256 with one record to take, the log's NEXT at 7 and COMMIT at 5. -/
def sQ : State :=
  let s := sT.onMem fun m => { m with lines := ((List.range 16).map fun i => (i, heldLine)) ++ [(281474976710656, heldLine)] }
  let q : SubQ := { en := true, gath := 7, logc := 2, ring := 2, owner := 3, tail := 5, head := 4, clock := VClock.zero }
  s.onHost fun h => { h with sqs := [(2, q)], logNext := 7, logCommit := 5 }

theorem HostQueueEvents_met : ([
    ([5, 9].all fun v : Word => (sQ.sq 2).en && !sQ.host.logFull && thenM (logTail 2 v VClock.zero sQ) fun _ t =>
      true),
    (sQ.sq 2).ready && thenM (pull 2 sQ) fun _ _ => true,
    true,
    decide (sQ.host.logCommit.toNat < 7) && sQ.host.heldTails.isEmpty,
    (let s := sQ.onHost fun h => { h with heldTails := [{ queue := 2, value := 9, port := some (1, .rod 4), ack := true, clock := VClock.zero }] }
     thenM (raiseCommit 6 s) fun _ _ => true),
    (let s := { sQ with cycle := 40000000 }
     decide (s.host.wdStart + 4000 * s.host.wdLimit.toNat ≤ s.cycle)),
    (let s := sQ.onHost fun h => { h with fbActive := true }
     s.host.fbActive && thenS s.fallbackQueue fun q => thenM (pull q s) fun _ s1 =>
       thenM ((do let s ← getState
                  raiseCommit (← servedFrom (s.host.logNext - s.host.logCommit).toNat s.host.logCommit) : M Unit)
         (s1.onHost fun h => { h with fbNext := (q + 1) % 1024 })) fun _ _ => true)]).all id = true := by
  decide +kernel

/-- A waiting record whose gates are met, of a kind, with the words given. -/
def taskOf (kind : Nat) (ws : List (Nat × Word)) : Task :=
  { words := (ws.foldl (fun v e => vset v e.1 e.2) (Vector.replicate 16 0)).set 2 (w64 (kind * 131072)), owner := 3, gath := 7
    gatesMet := [true, true, true, true], stage := .waiting, clock := vset VClock.zero 1 1, fixed := none }

/-- A member of a pass. -/
def memberOf0 : Member :=
  { task := 7, owner := 3, rows := 2, arrival := 1, deadline := 90, budget := 0, expiry := 5, act := 0, out := 0, adapter := 0, strides := 0, uarg := 0, cmpl := 0 }

/-- The machine with record 7 live, and with an entry of it in the parked list of Gatherer 7. -/
def sK (t : Task) (done chunk : Bool) : State :=
  let x : Parked := { task := 7, owner := 3, reason := 0, doneOnly := done, member := memberOf0, hash := 1, wid := 0, shape := 0, chunk := chunk }
  { sQ with tg := { sQ.tg with tasks := [(7, t)] } }.onGath 7 fun g => { g with en := true, parked := [{ x with task := 5 }, x] }

theorem TaskEvents_met : ([
    (let s := sK (taskOf 0 []) false false
     thenS (s.task? 7) fun t => t.ready && decide (t.kind = .tile)),
    (let s := sK (taskOf 1 [(5, 0x9000000000), (6, 3), (7, 64)]) false false
     thenS (s.task? 7) fun t => t.ready && decide (t.kind = .range) &&
       thenM (unitTry (memWrite 0 t.owner (tkState t) (rangeBlock (tkChunks t)) 0 .whole)
         ((s.onMem fun m => m.catchUp 0 t.clock).setStage 7 t .dispatched)) fun _ u =>
         true),
    (let s := sK (taskOf 2 [(5, 0x40000000000008), (8, 0x40000000000010)]) false false
     thenS (s.task? 7) fun t => t.ready && decide (t.kind = .barrier) &&
       thenM (((List.range 4).forM (fun i => do
          if t.word (5 + i) != 0 then
            let _ ← unitTry (gateFill 0 t.owner (t.word (5 + i)).toNat 1 0)
            pure ()) : M Unit) (s.onMem fun m => m.catchUp 0 t.clock)) fun _ s1 =>
       thenM (unitComplete t.owner (t.word 10) t.clock s1) fun _ _ => true),
    ([false, true].all fun chunk =>
      let s := sK (taskOf 0 []) false chunk
      thenS (takeParked 7 (vget s.gath 7).parked) fun e => !e.1.doneOnly),
    (let s := sK (taskOf 0 []) true false
     thenS (takeParked 7 (vget s.gath 7).parked) fun e => e.1.doneOnly &&
       thenM (completeParked 7 e.1 (s.onGath 7 fun q => { q with parked := e.2 })) fun _ _ => true),
    (let t := sK (taskOf 0 []) true false
     let s := { t.onMem (fun m => { m with
       lines := [(0, heldLine)], ctls := m.ctls.map fun q => { q with en := true }
       hbm := lay [] [(0, 0x8300000000001000), (0x1000, 0x8300000000002000), (0x2000, 0xC200200000000000)] }) with ftRep := Vector.replicate 4 100 }
     let s := s.onGath 7 fun g => { g with parked := g.parked.map fun x => { x with member := { memberOf0 with cmpl := 0x20000 } } }
     thenS (takeParked 7 (vget s.gath 7).parked) fun e => e.1.doneOnly &&
       (completeParked 7 e.1 (s.onGath 7 fun q => { q with parked := e.2 }) matches .error (.drain _ _) _))]
    ).all id = true := by decide +kernel

/-- Gatherer 7 of cluster 7 with a bin whose member has run out of patience, or comes near its deadline, and a record waiting for admission. -/
def sG (expiry : Nat) (deadline : Word) : State :=
  (sK (taskOf 0 []) false false).onGath 7 fun g => { g with
    input := [.tile 7], gcyc := 5, bins := [(63, { hash := 9, wid := 0, shape := 1, members := [{ memberOf0 with expiry := expiry, deadline := deadline }] })] }

/-- Core 0 with a pass assigned to it by Gatherer 0. -/
def sF : State :=
  let p : HeldPass := { id := 5, hash := 1, wid := 0, shape := 0, members := [memberOf0], deadline := 90, budget := 0, arrival := 1, cause := 0, est := 0, kext := 0, width := 0, core := some 0 }
  let f : Feed := { logc := 0, ring := 128, head := 0, comp := 2048, tail := 0, shared := false, pair := 0, lastSeq := 1, notices := [] }
  ({ sQ.onMem fun m => { m with lines := (List.range 64).map fun i => (i, heldLine) } with tails := [] }.onGath 0 fun g => { g with held := [p] }).onCore 0 fun k => { k with feed := some f }

theorem GathererEvents_met : ([
    ([sG 9 allOnes, sG 5 allOnes, sG 9 300].all fun s => !(vget s.gath 7).ran && thenM (admitNow 7 s) fun _ _ => true),
    (sG 5 allOnes).binDue 7 63 2 && (sG 9 300).binDue 7 63 3,
    (vget ((sG 5 allOnes).onGath 7 fun g => { g with ran := true }).gath 7).ran,
    thenM (feedWrite 0 sF) fun _ _ => true,
    ([sG 5 allOnes, (sG 5 allOnes).onGath 7 fun g => { g with ran := true }].all fun s =>
      thenM (if (vget s.gath 7).ran then .ok () s else gathererSteps 7 s) fun _ _ => true) && decide ((field (5 : Word) 0 3).toNat < 6),
    (let off := { sG 9 allOnes with power := { (sG 9 allOnes).power with cluster := vset (sG 9 allOnes).power.cluster 7 (2 : BitVec 2) } }
     vget (sG 9 allOnes).power.cluster 7 != (2 : BitVec 2) && vget off.power.cluster 7 == (2 : BitVec 2)),
    (let s := (sG 9 allOnes).onCore 0 fun k => { k with advert := true }
     let thief := { s.onGath 0 fun g => { g with en := true, input := [.range 7 true] } with tg := { s.tg with ranges := [7] } }
     !s.steals 0 && thief.steals 0 &&
       thenM (((List.range 8).filter fun i => i ≠ 0 ∧ (vget thief.gath i).ran = false ∧ thief.steals i = false).forM ownSteps thief) fun _ _ =>
         true),
    decide (field (0xFFFF : Word) 0 13 ≠ 0),
    (let s := { sQ with cycle := 400000 }
     decide (s.host.swPer + 400000 ≤ s.cycle)),
    (let s := { sQ.onHost fun h => { h with swDue := true } with cycle := 40000 }
     s.host.swDue && decide (s.host.swLast + 40000 ≤ s.cycle)),
    thenM (swatch sQ) fun _ _ => true,
    thenM (unitRead 0 (256 * sQ.host.swDesc.toNat) 256 sQ) fun _ _ => true]).all id = true := by decide +kernel

/-! ## Events of the weight store and the change tree -/

/-- WID table entry 7 on a node of the tree. -/
def sW (node : Word) (locked pending : Bool) : State :=
  { sT with ws := { sT.ws with
      wids := [(7, { Wid.reset with wid := 99, base := 68719476736, tiles := 1, tbytes := 64, node := node, locked := locked })],
      busy := pending, pending := if pending then some 7 else none } }

/-- The tree with a change of patch 1 on its way and a delta bound for node 1. -/
def sD (rise : Bool) : State := { sT with tree := { sT.tree with
  changes := [1, 2], deltas := [{ node := 1, amount := 1, engine := 0, rise := rise, move := 0, below := [] }] } }

theorem WeightAndTreeEvents_met : ([
    (let s := sW 2 false false
     !s.ws.busy && !(s.wid 7).locked && thenM (wsNode (s.wid 7).node s) fun d s1 => thenS d fun d => thenM (wsBound d s1) fun b s2 =>
       !b && s2.widFree 7 && (s.wid 7).extentOk),
    (let s := sW 2 false true
     decide (s.ws.pending = some 7) && (s.rollup 0).en && thenM (wsNode (s.wid 7).node s) fun n s1 => thenS n fun n => thenM (nodeWord n 1 s1) fun w s2 =>
       !ndWlk w && thenM (settle n s2) fun _ s2 => thenM (nodePut 0 n 1 (w ||| maskIf true 60 1) s2) fun _ s3 =>
         thenM (nodeWord n 0 s3) fun _ _ => true),
    (let s := sW 0x1234 true false
     !s.ws.busy && (s.wid 7).locked && thenM (wsNode (s.wid 7).node s) fun n _ => n.isNone),
    (let s := sW 2 true false
     !s.ws.busy && (s.wid 7).locked && thenM (wsNode (s.wid 7).node s) fun n s1 => thenS n fun n => thenM (nodeWord n 1 s1) fun w s2 =>
       thenM (nodePut 0 n 1 (w &&& ~~~(maskIf true 60 1)) s2) fun _ _ => true),
    (let s := sW 2 false false
     !s.ws.busy && thenM (appendTo 0 0 (memRec 0 0x04 0 ((7 : BitVec 12).setWidth 64) 6)
       { s with ws := { s.ws with err := 6, busy := false, pending := none } }) fun _ _ => true),
    (let s := sD true
     thenS s.tree.changes[0]? fun x => thenS (mapGet s.tree.patches x) fun r => (s.rollup (patchPanel x)).en &&
       thenM (patchRecord x r { s with tree := { s.tree with changes := listDrop s.tree.changes 0 } }) fun q s1 => thenS q fun q =>
         thenM (patchPut x (s1.patchAt x r + 8) (bytesOfW 8 (q.2 + 1)) s1) fun _ _ => true),
    (let s := { sD true with tree := { (sD true).tree with patches := [(1, { leaf := 1, place := 16 })] } }
     thenS s.tree.changes[0]? fun x => thenS (mapGet s.tree.patches x) fun r => (s.rollup (patchPanel x)).en &&
       thenM (patchRecord x r { s with tree := { s.tree with changes := listDrop s.tree.changes 0 } }) fun q _ => q.isNone),
    thenS (sD true).tree.changes[1]? fun x => (mapGet (sD true).tree.patches x).isNone,
    ([true, false].all fun rise =>
      let s := sD rise
      thenS s.tree.deltas[0]? fun d : Delta => (s.rollup (s.nodeEngine d.node.toNat)).en && !s.deltaHeld d &&
        thenM (nodeWord 1 0 { s with tree := { s.tree with deltas := listDrop s.tree.deltas 0 } }) fun c s1 => thenM (nodeWord 1 1 s1) fun w s2 =>
          thenM (nodePut (s2.nodeEngine 1) 1 0 (c + BitVec.ofNat 64 d.amount) s2) fun _ s3 => true)]
    ).all id = true := by decide +kernel

/-! ## Events of the memory side -/

/-- The machine with a page table, lines 0 to 2 held and line 1 dirty, whose owner is over its limit; `entry` is the last page table
entry. -/
def sV (entry : Word) : State :=
  let e : TcEntry := { page := 0, size := 2, frame := 0, key := 0, w := true, d := false, lease := 4, pte := 0x2000, stamp := 90, reread := true, bad := false }
  let s := (sP false).onMem fun m => { m with
    hbm := setBytes m.hbm 0x2000 (bytesOfW 8 entry)
    lines := [(0, heldLine), (1, { heldLine with dirty := true }), (2, heldLine)]
    replicas := [(replicaKey 3 1, { key := 0, owner := 3, err := 0, data := 7 })]
    limits := [(3, 0)] }
  s.onCtl 0 fun q => { q with tc := [e, { e with stamp := 0, lease := 1 }] }

/-- An entry with A and a lease, one with neither a lease nor W, one that drains. -/
def pteOk : Word := 0x9240200000000000
def pteBad : Word := 0x8240000000000000
def pteDrains : Word := 0xD240200000000000

theorem LineEvents_met : ([
    ends (needLine 0 3 3 0 (sV pteOk)),
    ends (readLine 3 3 64 64 0 (sV pteOk)),
    ([pteOk, pteBad].all fun w0 =>
      let s := sV w0
      thenS (vget s.mem.ctls 0).tc[0]? fun e : TcEntry => !e.bad && e.reread &&
        thenM (ptOpen (e.page * 2 ^ pageBits e.size.toNat) e.pte (s.pmPanel 0 0x104 1)) fun _ _ => true),
    (let s := (sV pteOk).onMem fun m => { m with pt := [(128, { dirty := true, failed := true, err := 0, data := 0 })] }
     thenS (vget s.mem.ctls 0).tc[0]? fun e : TcEntry => !e.bad && e.reread &&
        match ptOpen (e.page * 2 ^ pageBits e.size.toNat) e.pte (s.pmPanel 0 0x104 1) with
        | .error (.fault _) _ => true
        | _ => false),
    ([0, 1].all fun k =>
      let s := { sV pteOk with ftRep := Vector.replicate 4 3000 }
      thenS (vget s.mem.ctls 0).tc[k]? fun e : TcEntry => e.live (s.ftOf 0) == (k == 0)),
    (let s := (sV pteOk).onMem fun m => { m with limits := [(12291, 0)] }
     decide ((3 : Nat) ≠ homePanel 1) && thenS (mapGet s.mem.replicas (replicaKey 3 1)) fun r : Replica => r.err == 0 &&
       s.mayChoose 3 (64 * 3 + sliceOfLine 1 % 64) (Config.l2Set false 1) r.owner),
    ([pteOk, pteDrains].all fun w0 =>
      let s := sV w0
      thenS (s.line? 1) fun x : Line => !x.failed && x.err == 0 && x.dirty && s.draining 1 == (w0 == pteDrains) &&
        s.mayChoose 0 1 (Config.l2Set false 1) x.owner),
    ([false, true].all fun other =>
     let s := if other then sV pteOk else (sV pteOk).onMem fun m => { m with l2 := [] }
     thenS (s.line? 2) fun x : Line => !x.failed && x.err == 0 && !x.dirty && s.mayChoose 0 2 (Config.l2Set false 2) x.owner &&
       thenM (xlatBack 2 s) fun y u => thenS y fun y : Xlat => decide (y.phys < 2 ^ 39) &&
         (mapGet u.mem.victims (victimKey (y.phys / 64) x.key.toNat)).isNone &&
         (if u.hbmLine (y.phys / 64) x.key.toNat = u.lineData 2 then !u.victimFull (y.phys / 64) x.key.toNat else other)),
    (let s := (sV pteOk).onMem fun m => { m with pt := [(128, { dirty := true, failed := false, err := 0, data := 0 })], limits := [(8192, 0)] }
     thenS (mapGet s.mem.pt 128) fun x : PtLine => decide (homePanel 128 = 2) && !x.failed && x.err == 0 &&
       s.mayChoose 2 (sliceOfLine 128) (Config.l2Set true 128) 0 && s.victimFull 128 0 == false),
    (let b : WriteBack := { line := 2, data := 9, key := 0, owner := 3 }
     let s := (sV pteOk).onMem fun m => { m with writebacks := [b] }
     thenM (xlatBack b.line (s.onMem fun m => { m with writebacks := listDrop m.writebacks 0 })) fun y u => thenS y fun y : Xlat =>
       !(u.keyOf b.key.toNat).retired && decide (y.phys < 2 ^ 39) && thenM (setDirty b.line y u) fun _ v =>
         !v.victimFull (y.phys / 64) b.key.toNat),
    (let b : WriteBack := { line := 2, data := 9, key := 0, owner := 3 }
     let s := ((sV 0).onMem fun m => { m with writebacks := [b] }).onCtl 0 fun q => { q with tc := [] }
     thenM (xlatBack b.line (s.onMem fun m => { m with writebacks := listDrop m.writebacks 0 })) fun y u => y.isNone &&
       thenM (appendFault (homePanel b.line) (memRec b.owner 0x12 (b.line * 64) 0 0) (u.onCtl (xlatCtl b.line) fun q => { q with disc := satInc q.disc })) fun _ t =>
         true),
    ([false, true].all fun d =>
     let v : Victim := { key := 0, owner := 3, dirty := d, err := 0, cor := d, data := 5 }
     let s := (sV pteOk).onMem fun m => { m with victims := [(1024, v)] }
     decide (physCtl (4 * 64) = 1) && !s.hbmBusy 1 &&
       thenS (s.mem.victims.find? fun e => e.1 / 256 == 4 && e.2.err == 0) fun e => true)]).all id = true := by
  decide +kernel

/-- Line 1 of an owner within its limit beside a line of its set whose owner is over its own: the slice may not choose it. -/
theorem LimitedSet_met :
    let s := (sV pteOk).onMem fun m => { m with
      lines := [(1, heldLine)], pt := [], replicas := [(replicaKey 0 1, { key := 0, owner := 5, err := 0, data := 7 })], limits := [(5, 0)] }
    s.mayChoose 0 (sliceOfLine 1) (Config.l2Set false 1) 3 = false := by
  intro s
  have h3 : s.overLimit 0 3 = false := by decide +kernel
  have h5 : s.overLimit 0 5 = true := by decide +kernel
  have hs : s.setOwners (sliceOfLine 1) (Config.l2Set false 1) = [3, 5] := by
    show (([(1, heldLine)] : SMap Line).filter _).map _ ++ (([(replicaKey 0 1, _)] : SMap Replica).filter _).map _ ++ _ = _
    have h1 : sliceOfLine 1 = 1 := by decide +kernel
    have h2 : replicaKey 0 1 = 1 := by decide +kernel
    simp [h1, h2, s, State.onMem, heldLine]
  rw [State.mayChoose, hs]
  change (s.overLimit 0 3 || !(s.overLimit 0 3 || (s.overLimit 0 5 || false))) = false
  rw [h3, h5]
  rfl

/-- An update in flight behind one to another line; a MONW of address 8 at the head of A, armed; a corrected granule. -/
theorem MemorySideEvents_met : ([
    (let u : Update := { panel := 3, src := 1, stamp := vset VClock.zero 1 1, line := 5, data := 7 }
     let s := sM.onMem fun m => { m with updates := [{ u with line := 6 }, u] }
     thenS s.mem.updates[1]? fun u : Update => decide (u.panel = 3) && decide (vcAt (vget s.mem.clocks u.panel) u.src + 1 = vcAt u.stamp u.src) &&
       ((List.range 4).all fun j => j == u.src || decide (vcAt u.stamp j ≤ vcAt (vget s.mem.clocks u.panel) j)) &&
       ((s.mem.updates.take 1).all fun b => !(decide (b.panel = u.panel) && decide (b.line = u.line)))),
    ([true, false].all fun woken =>
      let o : ATOp := { d := 4, base := 8, s2 := 23, size := 3, sg := false, off := 8 }
      let s := sM.onCore 0 fun k => { k with
        spad := setBytes k.spad 720896 (bytesOfW 8 (encodeWord (.monw h1 o))), monitor := some { line := 0, deadline := some 0, woken := woken } }
      thenS (s.core 0).monitor fun m : Monitor => decide (m.woken = woken) && (if woken then
        thenM (monwEnd 0 0 (s.onMem fun q => q.catchUp (panelOf 0) (s.stampOf m.line))) fun _ t =>
          true
        else thenM (monwEnd 0 2 s) fun _ _ => true)),
    (let q := vget sM.mem.ctls 7
     !q.refreshing && decide (sM.balNow q < 8)),
    true,
    ([true, false].all fun cor =>
      let s := (sM.onCtl 1 fun q => { q with scrubEn := true, srate := 1 }).onMem fun m => { m with hbmCor := if cor then [4] else [] }
      let q := vget s.mem.ctls 1
      let g := physOfStack 1 q.scrubPos.toNat / 64
      q.scrubEn && decide (q.srate ≠ 0) && !s.hbmBusy 1 && q.scrub.isNone && !(s.mem.hbmUnc.contains g) && s.mem.hbmCor.contains g == cor),
    (let s := (sM.onCtl 1 fun q => { q with scrub := some (4, 7) }).onMem fun m => { m with hbmCor := [4, 5] }
     decide ((vget s.mem.ctls 1).scrub = some (4, 7)) && !s.hbmBusy 1),
    (let s := { sM with ftRep := Vector.replicate 4 16 }
     decide ((s.ftOf 3 - s.ft).toInt.natAbs ≤ 16)),
    (let s := { sQ with ftRep := Vector.replicate 4 (0 - 17) }
     let d := s.ftOf 3 - s.ft
     decide (16 < d.toInt.natAbs) && thenM (appendTo 0 3 (memRec 0 0x15 0 ((7 : BitVec 3).setWidth 64) ((field d 0 16).setWidth 64))
      ((s.onCtl 7 fun q => { q with skew := field d 0 16 }).onMem fun m => { m with
        ctls := m.ctls.map fun q => { q with tc := [], uncached := true, good := 0 }
        lines := m.lines.map fun e => (e.1, { e.2 with exp := 0 }) })) fun _ _ => true)]
    ).all id = true := by decide +kernel

/-! ## Events of the host ports and of fabric time -/

/-- Region 6 of a host: 64 bytes of memory at 16, region 7 the SQTAIL of queue 2, and a receive of the same bytes. -/
def sU : State :=
  let r : HostRegion := { base := 16, len := 64, owner := 3 }
  sQ.onHost fun h => { h with regions := [(6, r), (7, { r with base := 0x30000600002010, len := 8 })], receives := [(6, r)] }

theorem PortOperations_met : ([
    ([(6, 4, [1, 2, 3]), (6, 64, []), (7, 0, [9, 0, 0, 0, 0, 0, 0, 0])].all fun e : Nat × Nat × List Byte =>
      [Conn.rod 5, .rud 5].all fun c =>
      thenS (mapGet sU.host.regions e.1) fun r : HostRegion => decide (sU.boot.stat = 0) && decide (e.2.1 + e.2.2.length ≤ r.len) &&
        !(rmaBadField (r.base + e.2.1) e.2.2) && ((rmaTails (r.base + e.2.1) e.2.2).all fun q => (sU.sq q).en) &&
        !sU.host.rodWaits 7 c && !(sU.host.rodQ.any fun y => decide (y.port = 7 ∧ y.conn = c)) &&
          thenM (attempt (rmaStore 7 c r.owner (r.base + e.2.1) e.2.2) sU) fun x _ => x matches .ok ()),
    (let x : RodPacket := { port := 7, conn := .rod 5, send := false, target := 6, off := 4, data := [1, 2, 3] }
     (sU.onHost fun h => { h with rodQ := [x] }).host.rodQ.any (fun y => decide (y.port = 7 ∧ y.conn = x.conn)) &&
       match x.run (sU.onHost fun h => { h with heldTails := [{ queue := 2, value := 9, port := some (7, .rod 5), ack := true, clock := VClock.zero }] }) with
       | .error .stall _ => true
       | _ => false),
    thenS (mapGet sU.host.regions 6) fun r : HostRegion => decide (8 + 8 ≤ r.len) &&
      thenM (attempt (unitLoad (portPanel 7) (.unit r.owner) r.owner (r.base + 8) 8) sU) fun x _ => x matches .ok _,
    thenS (mapGet sU.host.receives 6) fun r : HostRegion => decide (3 ≤ r.len) &&
      !(rmaBadField r.base [1, 2, 3]) && ((rmaTails r.base [1, 2, 3]).all fun q => (sU.sq q).en) &&
      !sU.host.rodWaits 7 (.rud 5) && thenM (attempt (rmaStore 7 (.rud 5) r.owner r.base [1, 2, 3]) sU) fun x _ => x matches .ok (),
    ([60, 64].all fun off => thenS (mapGet sU.host.regions 6) fun r : HostRegion => decide (r.len < off + 5) &&
      thenM (refuseUet 7 2 (if off < r.len then r.base + off else 0) sU) fun _ _ => true)]
    ).all id = true := by decide +kernel

/-- A flit as it leaves with FSEQ 0 and ACKSEQ 0. -/
def sealed (f : Flit) : Flit := flSeal f 0 0 false 0

/-- Its CRC is good, and one with a bit of the CRC changed is not, and has the same reserved fields. -/
theorem flGood_met : (∀ f, flGood (sealed f) = true) ∧
    ∀ f, let g := { sealed f with h7 := (sealed f).h7 ^^^ 1 }
      flGood g = false ∧ flReserved g = flReserved (sealed f) :=
  ⟨fun f => flGood_flSeal f 0 0 false 0, fun f => ⟨flGood_flip _ (flGood_flSeal f 0 0 false 0),
    flReserved_h7 (sealed f) _ (by unfold field; ext i hi; simp)⟩⟩

/-- A sealed flit's reserved fields are seen without its CRC. -/
theorem flReserved_sealed (f : Flit) : flReserved (sealed f) = flReserved { sealed f with h7 := 0 } :=
  flReserved_flSeal f 0 0 false 0

theorem flIs_sealed (f : Flit) (type : Nat) (rsp : Bool) : flIs (sealed f) type rsp = flIs { sealed f with h7 := 0 } type rsp := by
  unfold flIs
  rw [flReserved_sealed]
  rfl

/-- The time root, its master a nanosecond ahead of the replicas. -/
def sR0 : State := { State.reset with boot := { State.reset.boot with timeRoot := true }, ft := 100, ftRep := Vector.replicate 4 99 }

/-- A boot with a PTP time whose record names the root; a request sent, and one and an answer received. -/
theorem TimeEvents_met : ([
    (let b : BootInput := { (default : BootInput) with ptpTime := some 5, config := List.replicate 2265 0 ++ 1 :: List.replicate 6 0 }
     decide (b.ptpTime = some 5) && bit (recWord b.config 2264) 8),
    sR0.skewOk sR0.ftQ && decide (sR0.ft ≠ allOnes) && decide (sR0.ftQ + 400 < 2 ^ 66) &&
      (List.range 4).all (fun p => decide (sR0.repQ p + 400 < 2 ^ 66)) && decide (sR0.cycle < sR0.slewAt + 5000),
    sR0.linkRoom 15,
    (let f := sealed (mkFlit 6 false 0 0 0 0 0 70 0 0 [])
     let s1 := sR0.linkFeedback 15 f
     !(sR0.link 15).down && flIs f 6 false && s1.inOrder 15 f &&
       (s1.onLink 15 fun k => { k with lastIn := flFseq f }).linkRoom 15),
    (let f := sealed (mkFlit 6 true 0 0 0 0 0 70 80 81 [])
     let s1 := sR0.linkFeedback 15 f
     !(sR0.link 15).down && flIs f 6 true && s1.inOrder 15 f)]
    ).all id = true := by
  simp only [flIs_sealed]
  decide +kernel

/-! ## Events of the links -/

/-- Owner 2's range set, at 512, grants everything. -/
def sN : State := sQ.onMem fun m => { m with l2 := lay m.l2 [(512, 0xF), (520, 0x01FFFFFFFFFF0000)] }

/-- A packet of owner 2 in sequence on link 0. That its CRC is good is `flGood_met`. -/
def metLink (f : Flit) (p : State → Bool) : Bool :=
  let s1 := sN.linkFeedback 0 f
  !(sN.link 0).down && s1.inOrder 0 f && p (s1.onLink 0 fun k => { k with lastIn := flFseq f })

/-- A write of bytes 1 and 3, a read of two lines, an atomic, a signal, the first part of a block, a management write, a reply. -/
theorem LinkPackets_met : ([
    (let f := sealed (mkFlit 1 false 2 5 0 77 64 1 0 0 [])
     metLink f fun u => flIs f 1 false && thenM ((do
        let n := 64 * ((field f.a0 0 2).toNat + 1)
        let la := flAddr f / 64 * 64
        if ← linkAllowed 0 (flOwner f) la n 1 then
          let b ← linkTry 0 f (unitLoad 0 (.unit (flOwner f)) (flOwner f) la n)
          linkAnswer 0 1 f (b.getD [])
        else
          linkReject 0 (flOwner f) f.h0 false
          linkAnswer 0 1 f [] : M Unit) u) fun _ _ => true),
    (let f := sealed (mkFlit 2 false 2 5 0 77 320 0xA 0 0 [9, 8, 7, 6])
     metLink f fun u => flIs f 2 (flRsp f) && thenM ((do
        if ← linkAllowed 0 (flOwner f) (flAddr f) (flBytes f) 2 then
          let _ ← linkTry 0 f ((flRuns f (if regionOf (flAddr f) ≤ 1 then 64 else 8)).forM fun r =>
            unitStore 0 (.unit (flOwner f)) (flOwner f) r.1 r.2)
          pure ()
        else linkReject 0 (flOwner f) f.h0 : M Unit) u) fun _ _ => true),
    (let f := sealed (mkFlit 3 false 2 5 0 77 320 0x320 7 0 [])
     metLink f fun u => flIs f 3 false && thenM ((do
        let op := (field f.a0 0 8).toNat
        let size := (field f.a0 8 3).toNat
        let may ← linkAllowed 0 (flOwner f) (flAddr f) (2 ^ size) 3
        if may && linkAtomicOk op size && flAddr f % (if op = 0x21 then 16 else 2 ^ size) == 0 &&
            decide (regionOf (flAddr f) ≤ 1) then
          let old ← linkTry 0 f (linkAtomicOp 0 (flOwner f) op (2 ^ size) (flAddr f) f.a1 f.a2)
          linkAnswer 0 3 f ((old.map (bytesOfNat 8)).getD [])
        else
          linkReject 0 (flOwner f) f.h0 false
          linkAnswer 0 3 f [] : M Unit) u) fun _ _ => true),
    (let f := sealed (mkFlit 4 false 3 130 0 0 0 (5 * 65536 + 63) 0 0 [])
     metLink f fun u => flIs f 4 (flRsp f)),
    ([(0, []), (1, [{ owner := 3, sched := 9, num := 4, bytes := List.replicate 192 1, whole := false }])].all fun e : Nat × List Block =>
      let f := sealed (mkFlit 5 false 3 5 0 0 0 (9 * 2 ^ 32 + 4) (w64 e.1) 0 (List.replicate 192 6))
      let s := sN.onCore 0 fun k => { k with recv := [(0, e.2)] }
      let s1 := s.linkFeedback 0 f
      let u := s1.onLink 0 fun k => { k with lastIn := flFseq f }
      !(s.link 0).down && s1.inOrder 0 f && flIs f 5 (flRsp f) && (u.core 0).loaded && decide ((u.core 0).ctx = flOwner f) && decide (vget u.power.cluster 0 ≠ 2) &&
        thenS (addPart (flOwner f) (field f.a0 32 32) (field f.a0 0 12) (192 * f.a1.toNat) ((flBody f).take (flBytes f)) (closeParts f.a1.toNat ((u.core 0).linkBlocks 0)))
          fun now => decide (now.length ≤ 64)),
    (let f := sealed (mkFlit 7 false 0 0 0 0 0 12 34 0 [])
     metLink f fun u => flIs f 7 (flRsp f)),
    ([1, 3].all fun type =>
      let f := sealed (mkFlit type true 2 0 5 77 64 0 0 0 [1])
      metLink f fun u => (flIs f 1 true || flIs f 3 true))]
    ).all id = true := by
  simp only [flIs_sealed]
  decide +kernel

/-- A flit sent and not acknowledged, resent 16 times or waiting 100 µs. -/
def sX (resends at0 : Nat) (down : Bool) : State :=
  { sN.onLink 3 fun k => { k with unacked := [{ flit := mkFlit 2 false 2 5 0 77 320 0 0 0 [], resends := resends, at0 := at0 }], fseq := 1, down := down } with cycle := 400000 }

theorem LinkControl_met : ([
    !(sN.link 0).down,
    (let f := sealed (mkFlit 7 false 0 0 0 0 0 12 34 1 [])
     metLink f fun u => flReserved f && thenM (linkReject 0 0 f.h0 true u) fun _ _ => true),
    (let f := sealed { mkFlit 0 false 0 0 0 0 0 0 0 0 [] with h0 := 0x100 }
     !(sN.link 0).down && decide (flType f = 0) && flReserved f && thenM (linkReject 0 0 f.h0 true sN) fun _ _ => true),
    (let f := sealed (mkFlit 0 false 0 0 0 0 0 0 0 0 [])
     let s := sX 0 0 false
     !(s.link 3).down && decide (flType f = 0) && !flReserved f),
    (let f := sealed { mkFlit 0 false 0 0 0 0 0 0 0 0 [] with h0 := 0x200 }
     let s := sX 0 0 false
     !(s.link 3).down && !flReserved f && flNak f),
    ([(16, 9), (0, 0)].all fun e : Nat × Nat =>
      let s := sX e.1 e.2 false
      let k := s.link 3
      !k.down && k.unacked.any (fun u => decide (16 ≤ u.resends ∨ u.at0 + 400000 ≤ s.cycle)) &&
        thenM (((((0 : Tag) :: k.unacked.map fun u => flOwner u.flit).eraseDups).forM (fun o =>
          appendFault 0 { memRec o 0x31 0 ((3 : BitVec 4).setWidth 64) (k.lastAck.setWidth 64) with unit := 7 }) : M Unit)
          (s.onLink 3 fun k => { k with down := true, pend := [] })) fun _ _ => true),
    (let s := sX 5 9 true
     let s1 := (s.onLink 3 fun k => { k with down := false }).linkAck 3 0xFFFF
     s.boot.stat == 0 && (s.link 3).down && !(s.link 3).discard && !(s1.link 3).unacked.isEmpty),
    true,
    ([1, 9].all fun len =>
      let x : Outgoing := { core := 0, abs := 4, slot := 2, flits := List.replicate len (mkFlit 5 false 3 0 0 0 0 0 0 0 [1]) }
      let s : State := { sN.onLink 3 fun k => { k with outgoing := [x] } with ftRep := Vector.replicate 4 16 }
      let k := s.link 3
      let n := min (min (7 - s.slotLoad 3) x.flits.length) (64 - k.unacked.length)
      decide (k.outgoing = [x]) && decide (n ≠ 0) && !k.down && k.pend.isEmpty && decide (8 * x.slot ≤ (s.ftOf 0).toNat))]).all id = true := by
  simp only [flReserved_sealed]
  decide +kernel

/-! ## Events of power and of reset -/

/-- A boot that finds no key. -/
def noKey : BootInput := { (default : BootInput) with keyOk := false }

theorem PowerAndBoot_met : ([
    (let s := { State.reset with cycle := 200000 }
     decide (vget s.power.cluster 7 = (0 : BitVec 2)) && decide (s.power.idle ≠ 0) && (s.coresOf 7).all (s.coreIdle ·)),
    (let s := sA.setCluster 7 1
     decide (vget s.power.cluster 7 = 1)),
    (vget (sA.onGath 7 fun g => { g with en := true }).gath 7).en && (sA.coresOf 0).any (fun d => (sA.core d).loaded),
    !(vget sA.gath 7).en && (sA.coresOf 7).all (fun d => !(sA.core d).loaded),
    !noKey.keyOk]).all id = true := by decide +kernel

/-! ## Steps -/

/-- The machine with one turn on its agenda. -/
def withTurn (n : Nat) (a : Actor) (s : State) : State := { s with agenda := [{ cycles := n, actor := a }] }

/-- The machine with a word at the head of A (or of X, at word 8). -/
def withHead (t : Strm) (w : Word) : State :=
  withTurn 5 (.stream 0 t) (sA.onCore 0 fun k => { k with spad := setBytes k.spad (if t = .x then 720960 else 720896) (bytesOfW 8 w) })

/-- A turn whose time may pass at once. -/
def met (s : State) (u : Turn) : Bool :=
  decide (s.cyclesBefore u = 0) || (s.dueTest.isNone && (decide (s.cyclesBefore u = 1) || !s.nextTest))

/-- A V word that is over. -/
def withDone (c : CoreId) : State :=
  withTurn 5 (.event (.wordCompletion c .v 0)) (sE.onCore c fun k => k.setEngine .v { k.v with prog := [{ wNop with word := encodeWord (.vNop h0) }] })

/-- A wait of A that stalled `n` cycles ago and passes by now. -/
def withStall (n : Nat) : State :=
  let s := withHead .a (encodeWord (.aNop h1))
  { s.onCore 0 fun k => { k with stalled := vset k.stalled 0 true, arbAt := s.cycle, arbRank := 16 } with cycle := s.cycle + n }

/-- A word, one with a reserved bit, and no word of any instruction; an event of its own, one that only a stream runs, and the end of a
word; a test that passes in this cycle, and one that passes in the next. -/
theorem StepRunsTheWord_met : ([
    (([(Strm.a, (0x0000043100000001 : Word)), (.a, 0x0000043100000001 ||| (1#64 <<< 30)), (.a, 0x0000700000000000), (.x, 0x000006214C000000)] : List (Strm × Word)).all fun e : Strm × Word =>
      let s := withHead e.1 e.2
      let r := s.nextTurn
      let u : Turn := { cycles := 5, actor := .stream 0 e.1 }
      decide (r.1 = u) && met r.2 u && thenM (passTime (r.2.cyclesBefore u) r.2) fun _ (s1 : State) =>
        let s2 : State := { s1 with lineOps := u.lines }
        (s2.outranked 0 e.1).isNone &&
        let s4 : State := { s2.reach (s2.turnPlace u.actor) with cur := 0 }
        let k : Core := s4.core 0
        !k.dead && decide (vget s4.power.cluster 0 = (0 : BitVec 2)) && (e.1 != .a || (!s4.budgetDue k && !k.preemptDue)) && !s4.streamLate k e.1 &&
          !k.stall && !k.haltedAt e.1 && decide (k.headOf e.1 = some e.2) && (k.headLost e.1).isNone &&
          ({ k with spadErr := [ringOff (k.headWord e.1) / 8] }.headLost e.1).isSome),
    ([Instr.fwbeat, .aNop h0].all fun i : Instr =>
      let r := (withTurn 3 (.event i) sA).nextTurn
      let u : Turn := { cycles := 3, actor := .event i }
      decide (r.1 = u) && met r.2 u && ends (passTime (r.2.cyclesBefore u) r.2)),
    (let s := withDone 0
     let r := s.nextTurn
     let u : Turn := { cycles := 5, actor := .event (.wordCompletion 0 .v 0) }
     decide (r.1 = u) && met r.2 u && thenM (passTime (r.2.cyclesBefore u) r.2) fun _ (s1 : State) =>
       let s2 : State := { s1 with lineOps := u.lines }
       (s2.ahead 0 .v none (s2.faults (exec (.wordCompletion 0 .v 0) s2))).isNone),
    (let r := (withStall 1).nextTurn
     decide (r.2.cyclesBefore r.1 ≠ 0) && decide (r.2.dueTest = some (0, Strm.a))),
    (let r := (withStall 0).nextTurn
     decide (2 ≤ r.2.cyclesBefore r.1) && r.2.dueTest.isNone && r.2.nextTest && ends (passTime 1 r.2)),
    !(withTurn 3 (.event .fwbeat) sA).agenda.isEmpty]
    ).all id = true := by decide +kernel

/-- A well-formed word with every field at its end, and a step from a canonical state. -/
theorem EncodeThenDecode_met :
    Instr.hdr? (.lds { wait := .probe 63, sig := .issue 63 } { reg := 31, base := 31, size := 3, sx := false, off := 0x3FFFFFF }) =
        some (.a, { wait := .probe 63, sig := .issue 63 }) ∧
      Instr.WellFormed (.lds { wait := .probe 63, sig := .issue 63 } { reg := 31, base := 31, size := 3, sx := false, off := 0x3FFFFFF }) := by
  decide +kernel

theorem StepKeepsCanonical_met :
    let s := withHead .a (encodeWord (.sts h1 (oM 8 16 3 false)))
    s.canonical = true ∧ (step s matches .next _) = true := by decide +kernel

/-! ## Wait and signal bytes, exceptions, checks -/

/-- A flag of the last number, waits that pass and that do not on each kind of stream. -/
theorem WaitByte_met : ([
    decide ((63 : BitVec 6).toNat < k0.flagNum.toNat),
    decide (field (0x0500043100000001 : Word) 62 2 = 0) && (match decodeWord .a 0x0500043100000001 with
      | .word _ m => decide (m ≠ 0)
      | .illegal => false),
    (let h : Hdr := { wait := .one 8, sig := .none }
     !(sA.core 0).wdone && ((sA.core 0).passWait h.wait).isNone && decide ((nopWord .m h).hdr = h)),
    (sA.issueA (.aNop h1) h1).isSome, (sA.issueX (.xNop h1) h1).isSome,
    (engineWord (.mNop h1)).isSome && (sA.issueE (.mNop h1) (nopWord .m h1)).isSome]
    ).all id = true := by decide +kernel

/-- A completion signal that would pass CEIL. -/
theorem SignalByte_met : ([
    decide ((63 : BitVec 6).toNat < k0.flagNum.toNat),
    decide (field (0x0005043100000001 : Word) 54 2 = 0) && (match decodeWord .a 0x0005043100000001 with
      | .word _ _ => true
      | .illegal => false),
    (let s := sA.onCore 0 fun k => { k with flags := vset k.flags 5 { ceil := 3, incr := 4, thresh := 1, count := 0 } }
     let k := s.core 0
     thenS (k.completionSig h1.sig) fun e => decide (k.addFlag e.1 e.2 = .error (vget k.flags 5).word) && !k.priv),
    ([h1, h0].all fun h =>
      let w : Issued := { wNop with word := encodeWord (.vNop h), deferred := [.release 1 1] }
      let s := sE.onCore 0 fun k => k.setEngine .v { k.v with prog := [w] }
      decide (vget s.power.cluster (clusterOf 0) ≠ 2) && (s.core 0).mayComplete .v 0 w &&
        thenM (runDeferred fillSlot 0 w.deferred w { s with cur := 0 }) fun r s2 => r.1.isEmpty &&
          match (s2.core 0).completionSig (getSig w.word) with
          | none => h == h0
          | some (v, n) => match (s2.core 0).addFlag v n with
            | .ok _ => h == h1
            | .error _ => false),
    ((sA.core 0).completionSig h0.sig).isNone,
    (let k := sA.core 0
     let w := k.issuedX (encodeWord (.xNop h1)) (k.headWord .x)
     let s := sA.onCore 0 fun k => { k with xProg := [{ w with res := [(.xa, 1)] }, { w with res := [(.reg 3, 1)] }] }
     decide (vget s.power.cluster (clusterOf 0) ≠ (2 : BitVec 2)) && thenS (s.core 0).xProg[1]? fun w =>
       ((s.core 0).xProg.take 1).all (fun x => x.res.all fun r => r.1 == .xa || w.res.all fun e => e.1 != r.1) &&
       thenS ((s.core 0).completionSig (getSig w.word)) fun e => match (s.core 0).addFlag e.1 e.2 with
         | .ok _ => true
         | .error _ => false),
    thenS ((sA.core 0).completionSig h1.sig) fun e => match (sA.core 0).addFlag e.1 e.2 with
      | .ok _ => true
      | .error _ => false]).all id = true := by decide +kernel

theorem FaultEntries_met : (sA.core sA.cur).priv = false ∧ wNop.entry = none := by decide +kernel

/-- A fault of the handler's own word, whose record goes to tag 0; a turn of the dead core. -/
theorem FaultInHandler_met : ([
    (let s := sQ.onCore 0 fun k => { k with priv := true }
     let k := s.core 0
     let r : Rec := { pass := 0, owner := k.ctx, unit := 0, cont := 0, block := 63, cls := 1, wv := true, core := 0, strm := 0, rword := k.headWord .a, laddr := 2, d0 := 3, d1 := 4, word := 5 }
     k.priv && thenM (appendTo 0 0 r s) fun _ _ => true),
    (let s := withTurn 2 (.stream 0 .a) (sA.onCore 0 fun k => { k with dead := true })
     let r := s.nextTurn
     let u : Turn := { cycles := 2, actor := .stream 0 .a }
     decide (r.1 = u) && met r.2 u && thenM (passTime (r.2.cyclesBefore u) r.2) fun _ s1 => (s1.core 0).dead)]
    ).all id = true := by decide +kernel

/-- A privileged word outside the handler, an operand out of its limits, an address that is not aligned, and a bank of the engines. -/
theorem AccessChecks_met : ([
    privOp (encodeWord (.rfe h1)) && !(sA.core sA.cur).priv,
    !privOp (encodeWord (.fwait h0 { vf := 63, keep := false, n := 0 })) && decide (badOperands (.fwait h0 { vf := 63, keep := false, n := 0 }) ||| (sA.core sA.cur).clauseBad h0 ≠ 0),
    ([(oM 8 1 1 false, false), (oM 8 4088 3 false, true)].all fun e =>
      let s := sA.onCore 0 fun k => k.setOwner 1 1 true
      thenS (s.issueA (.lds h1 e.1) h1) fun s1 => thenM (rdA e.1.base s1) fun b _ =>
        let a := (b + sext64 e.1.off).toNat
        decide (a + 2 ^ e.1.size.toNat ≤ 786432) && (if e.2 then decide (a % 2 ^ e.1.size.toNat = 0) && vget (s.core s.cur).owner (a / 4096) else decide (a % 2 ^ e.1.size.toNat ≠ 0))),
    ([(oM 8 1 1 false, false), (oM 8 4088 3 false, true)].all fun e =>
      let s := sA.onCore 0 fun k => k.setOwner 1 1 true
      thenS (s.issueA (.sts h1 e.1) h1) fun s1 => thenM (rdA e.1.reg s1) fun _ s2 => thenM (rdA e.1.base s2) fun b _ =>
        let a := (b + sext64 e.1.off).toNat
        decide (a + 2 ^ e.1.size.toNat ≤ 786432) && (if e.2 then decide (a % 2 ^ e.1.size.toNat = 0) && vget (s.core s.cur).owner (a / 4096) else decide (a % 2 ^ e.1.size.toNat ≠ 0)))]
    ).all id = true := by decide +kernel

/-! ## Frames -/

/-- It goes on without a fault. -/
def runsOn (i : Instr) (s : State) : Bool :=
  match exec i s with
  | .next u => !(s.core s.cur).dead && !(u.core s.cur).dead && (u.core s.cur).priv == (s.core s.cur).priv && (s.core s.cur).xHalt.isNone && (u.core s.cur).xHalt.isNone
  | _ => false

theorem AccessRegisterFrame_met : ([Instr.aAdd h1 { d := 4, s1 := 31, s2 := 6 }, .aNop h0].all fun i =>
    (i.hdr?.isSome && (accessRegWord i).isSome && runsOn i sA)) = true := by decide +kernel

theorem ExecuteRegisterFrame_met : ([Instr.mul h1 { d := 4, s1 := 31, s2 := 6 }, .cmp h0 { p := 7, s1 := 4, s2 := 5, k := 2 }].all fun i =>
    (i.hdr?.isSome && (executeRegWord i).isSome && (sA.core sA.cur).xRes.isEmpty && runsOn i sA)) = true := by decide +kernel

/-- A store of the last word of the scratchpad, and one of the last bytes of a line held with a write lease. -/
theorem StoreFrame_met : ([
    (let s := sA.onCore 0 fun k => { k with a := vset k.a 8 786424 }
     let o : MOp := { reg := 31, base := 8, size := 3, sx := false, off := 0 }
     thenS (s.issueA (.sts h1 o) h1) fun s1 => thenM (rdA o.reg s1) fun v s2 => thenM (rdA o.base s2) fun b _ =>
       let a := (b + sext64 o.off).toNat
       s.canonical && decide (a + 8 ≤ 786432) && decide (a % 8 = 0) && !vget (s.core 0).owner (a / 4096) && runsOn (.sts h1 o) s),
    ([sM, { sM with tree := { sM.tree with engines := sM.tree.engines.map fun e => { e with en := true } } }].all fun s =>
     thenS (s.issueA (.stm h1 (oM 0 56 3 false)) h1) fun s1 => thenM (rdA 4 s1) fun _ s2 => thenM (rdA 0 s2) fun b s3 =>
       thenM (mPlace (b + sext64 (56 : BitVec 26)) (oM 0 56 3 false) 2 s3) fun la s4 =>
         s4.canonical && decide (regionOf la ≤ 1) && (List.range 8).all (fun j => decide (regionOf (la + j) ≤ 1) &&
           thenS (mapGet s4.mem.lines ((la + j) / 64)) fun t : Line => !t.failed && t.err == 0 && t.w &&
             decide ((s4.ftOf (homePanel ((la + j) / 64))).toNat + 64 < t.exp.toNat) &&
             !(vget s4.mem.ctls (xlatCtl ((la + j) / 64))).uncached && !s4.lockedAt (la + j)))]).all id = true := by decide +kernel

/-! ## Saving and loading a context -/

/-- The machine in the handler of core 0 at a safe point where both streams have ended, with the lines of an image at 0 held. -/
def sC : State :=
  let r : Ring := { Ring.reset with size := 3, count := 8, started := true, ended := true }
  (sA.onCore 0 fun k => { k.setRing .x r with priv := true, safeAt := some none }).onMem fun m =>
    { m with lines := (List.range' 0 2304).map fun i => (i, heldLine), replicas := (List.range' 0 2304).map fun i => (i, { key := 0, owner := 3, err := 0, data := 0 }), ctls := m.ctls.map fun q => { q with en := true } }

/-- An image at 0, without the scratchpad. -/
def oC : CtxOp := { s1 := 0, spad := false }

/-- The state after CTXSV, or CTXLD, has issued. -/
def sSv : State := (sC.issueA (.ctxsv h1 oC) h1).getD sC
def sLd : State := (sC.issueA (.ctxld h1 oC) h1).getD sC

/-- A state whose memory is that of `sC` holds its lines. -/
theorem writable_sC (s : State) (h1 : s.mem.lines = sC.mem.lines) (h2 : s.ftRep = sC.ftRep) (h3 : s.mem.ctls = sC.mem.ctls)
    (l : Nat) (hl : l < 2304) : s.writable l := by
  refine ⟨⟨heldLine, ?_, rfl, rfl, rfl, ?_⟩, ?_⟩
  · show mapGet s.mem.lines l = some heldLine
    rw [h1]
    exact mapGet_range heldLine 2304 0 l (Nat.zero_le l) (by omega)
  · show (vget s.ftRep (homePanel l)).toNat + 64 < 0x10000
    rw [h2]
    have h : ∀ p, vget sC.ftRep p = 0 := by
      intro p
      show (Vector.replicate 4 (0 : Word))[p]?.getD default = 0
      by_cases hp : p < 4
      · simp [hp]
      · simp [hp]; rfl
    rw [h]
    decide
  · rw [h3]
    have h : ∀ c, (vget sC.mem.ctls c).uncached = false := by
      intro c
      by_cases hc : c < 8
      · have hall : (List.range 8).all (fun c => !(vget sC.mem.ctls c).uncached) = true := by decide +kernel
        simpa using List.all_eq_true.mp hall c (List.mem_range.mpr hc)
      · show (sC.mem.ctls[c]?.getD default).uncached = false
        simp [hc]
        rfl
    exact h _

/-- Panel 0 holds an empty replica of each. -/
theorem replica_sC (s : State) (h : s.mem.replicas = sC.mem.replicas) (l : Nat) (hl : l < 2304) :
    ∃ r, mapGet s.mem.replicas (replicaKey 0 l) = some r ∧ r.err = 0 ∧ r.data = 0 := by
  refine ⟨{ key := 0, owner := 3, err := 0, data := 0 }, ?_, rfl, rfl⟩
  rw [h, show replicaKey 0 l = l from by simp [replicaKey]]
  exact mapGet_range _ 2304 0 l (Nat.zero_le l) (by omega)

theorem issued_sC (i : Instr) (h : (sC.issueA i h1).isSome = true) : sC.issueA i h1 = some ((sC.issueA i h1).getD sC) := by
  cases e : sC.issueA i h1 with
  | none => simp [e] at h
  | some s => rfl

/-- The state after the X stream has left its SAFE; X stands at its end here. -/
def sSv2 : State :=
  match passXSafe sSv with
  | .ok _ s => s
  | .error _ s => s

theorem ctxsv_met : ∃ s1 s2 s3 s4 va i point,
    sC.issueA (.ctxsv h1 oC) h1 = some s1 ∧ (sC.core sC.cur).priv = true ∧ rdA oC.s1 s1 = .ok va s2 ∧ field va 56 8 = 0 ∧
    regionOf va.toNat ≤ 1 ∧ va.toNat % 4096 = 0 ∧ (s2.core s2.cur).freeAway = some i ∧ (s2.core s2.cur).safeAt = some point ∧
    (s2.core s2.cur).enginesIdle = true ∧ passXSafe s2 = .ok () s3 ∧ (s3.core s3.cur).savedErr oC.spad = none ∧
    storeBlock (panelOf s3.cur) 0 va.toNat
      (ctxImage (s3.core s3.cur) (point.getD 0) oC.spad (s3.budgetNow (s3.core s3.cur))) s3 = .ok () s4 := by
  have hx : passXSafe sSv = .ok () sSv2 := by
    have h : ends (passXSafe sSv) = true := by decide +kernel
    unfold sSv2
    cases e : passXSafe sSv with
    | ok a s => rfl
    | error a s => rw [e] at h; simp [ends, thenM] at h
  have hl : sSv2.mem.lines = sC.mem.lines := by decide +kernel
  have hf : sSv2.ftRep = sC.ftRep := by decide +kernel
  have hc : sSv2.mem.ctls = sC.mem.ctls := by decide +kernel
  have hq : sSv2.quiet := by constructor <;> decide +kernel
  obtain ⟨t, ht⟩ := memWrite_ok (panelOf sSv2.cur) 0 0
    (ctxImage (sSv2.core sSv2.cur) 0 false (sSv2.budgetNow (sSv2.core sSv2.cur))) 0 .whole 2304 sSv2
    (by rw [ctxImage_length]) (writable_sC sSv2 hl hf hc) hq
  refine ⟨sSv, sSv, sSv2, t, 0, 0, none, issued_sC _ (by decide +kernel), by decide +kernel, rfl, by decide, by decide, by decide,
    by decide +kernel, by decide +kernel, by decide +kernel, hx, by decide +kernel, ?_⟩
  exact storeBlock_ok _ _ _ _ _ _ ht

/-- What is left of CTXLD for an image of zeros. -/
def restLd (ws : List Word) (data : List Byte) (s3 : State) : Bool :=
  !ctxReserved ws && !((imgFile ws).any (·.any RangeReg.bad)) && decide ((field (imgWord ws 0x38) 0 3).toNat < 5) && feedOk (imgFeed ws) &&
    thenM (readRangeSet 0 (field (imgWord ws 0) 0 12) s3) fun set s5 => !(set.any RangeReg.bad) &&
      let f (i : Nat) : Word := if i < 4 then Config.freeWord (s5.free + i) else 0
      let x : LoadArgs := { set := set, cycle := s3.cycle, kept := s3.keptFor 0 ws, free := f }
      let u1 := (State.orphan { s5 with free := s5.free + 4 } s5.cur).onCore s5.cur fun k => k.loadCtx ws data none x
      let u2 := u1.installFeed u1.cur (feedOf u1 (u1.core u1.cur).feed (imgFeed ws))
      let s6 := (u2.dropWire u2.cur).syncWire u2.cur
      ends (freeHold s6.cur (field (imgWord ws 0) 0 12) s6)

theorem ctxld_met :
    ∃ s1 s2 s3 va b, sC.issueA (.ctxld h1 oC) h1 = some s1 ∧ (sC.core sC.cur).priv = true ∧ rdA oC.s1 s1 = .ok va s2 ∧
      field va 56 8 = 0 ∧ regionOf va.toNat ≤ 1 ∧ va.toNat % 4096 = 0 ∧ panelOf s2.cur = 0 ∧
      memRead 0 0 va.toNat 147456 0 s2 = .ok b s3 ∧ restLd (wordsOf 2048 b) (b.drop 16384) s3 = true := by
  have hl : sLd.mem.lines = sC.mem.lines := by decide +kernel
  have hr : sLd.mem.replicas = sC.mem.replicas := by decide +kernel
  have hf : sLd.ftRep = sC.ftRep := by decide +kernel
  have hc : sLd.mem.ctls = sC.mem.ctls := by decide +kernel
  refine ⟨sLd, sLd, sLd, 0, List.replicate 147456 0, issued_sC _ (by decide +kernel), by decide +kernel, rfl, by decide, by decide,
    by decide, by decide +kernel, memRead_zeros 0 0 0 2304 0 147456 sLd (writable_sC sLd hl hf hc) (replica_sC sLd hr)
      (by constructor <;> decide +kernel) (by decide +kernel) (by decide) rfl rfl, ?_⟩
  rw [wordsOf_zeros, List.drop_replicate]
  decide +kernel

/-! ## Words of the spec's encodings and what they decode to -/

/-- A word decodes on its stream to an instruction, with no reserved bit set. -/
def reads (t : Strm) (w : Word) (i : Instr) : Bool := decide (decodeWord t w = .word i 0)

/-- Spec 13: `li a4, 0x12345678`, `addi a6, a4, 1`, `lea`, `lds`, `sts`, `jr a30`. -/
theorem decode_access : ([
    reads .a 0x0000012012345678 (.aLi h0 { d := 4, imm := 0x12345678 }),
    reads .a 0x0000043100000001 (.aAddi h0 { d := 6, s1 := 4, imm := 1 }),
    reads .a 0x00000B394C000003 (.lea h0 { d := 7, s1 := 5, s2 := 6, k := 3 }),
    reads .a 0x0000102000032000 (.lds h0 { reg := 4, base := 0, size := 0, sx := false, off := 0x32000 }),
    reads .a 0x0000112158000008 (.sts h0 { reg := 4, base := 5, size := 3, sx := false, off := 8 }),
    reads .a 0x00001D0780000000 (.aJr h0 { d := 0, s1 := 30 })]).all id = true := by decide +kernel

/-- Spec 14: `ringpub m, a9`, `finc f6, 1, a8`, `fset f3, thresh, 4`, `frd a4, f3`, `fwait f3, 8`, `bbind b2, a9`, `passdone ?f9`. -/
theorem decode_sync : ([
    reads .a 0x00003E4400000009 (.ringpub h0 { strm := 2, val := .reg 9 }),
    reads .a 0x0000301A80000001 (.finc h0 { vf := 6, rem := true, s1 := 8, amount := 1 }),
    reads .a 0x0000310D00000004 (.fset h0 { vf := 3, fld := 1, s1 := 0, imm := 4 }),
    reads .a 0x0000322060000000 (.frd h0 { d := 4, vf := 3 }),
    reads .a 0x0000330C00000008 (.fwait h0 { vf := 3, keep := false, n := 8 }),
    reads .a 0x0000341240000000 (.bbind h0 { b := 2, s1 := 9 }),
    reads .a 0x49004A0000000000 (.passdone { wait := .one 9, sig := .none })]).all id = true := by decide +kernel

/-- Spec 14: `tenrol a4, a5, a6, a7`, `tread a5, a4`, `sysc 2`, `rfe`, `csrr a4, 0x009`, `lconf a5, a4`, `ctxsv a5, spad`. -/
theorem decode_system : ([
    reads .a 0x000051214C700000 (.tenrol h0 { d := 4, s1 := 5, s2 := 6, s3 := 7 }),
    reads .a 0x0000552900000000 (.tread h0 { d := 5, s1 := 4, patch := false }),
    reads .a 0x0000600000000002 (.sysc h0 2), reads .a 0x0000610000000000 (.rfe h0),
    reads .a 0x0000622000000009 (.csrr h0 { r := 4, n := 9 }),
    reads .a 0x0000660148000000 (.lconf h0 { s1 := 5, s2 := 4 }),
    reads .a 0x00006A0140000001 (.ctxsv h0 { s1 := 5, spad := true })]).all id = true := by decide +kernel

/-- Spec 15: `mul`, `div … signed`, `sel x6, x4, x5, p2`, `plog p3, p1, p2, and`, `fsqrt x4, x5, rup`, `cvtf x4, x5, signed`,
`brp p2, -4`, `loop x9, -6`. -/
theorem decode_execute : ([
    reads .x 0x000006214C000000 (.mul h0 { d := 4, s1 := 5, s2 := 6 }),
    reads .x 0x000008214C000001 (.div h0 { d := 4, s1 := 5, s2 := 6, sgn := true }),
    reads .x 0x000019310A000002 (.sel h0 { d := 6, s1 := 4, s2 := 5, k := 2 }),
    reads .x 0x00001A1844000000 (.plog h0 { p := 3, s1 := 1, s2 := 2, op := 0 }),
    reads .x 0x0000272140000002 (.fsqrt h0 { d := 4, s1 := 5, k := 2 }),
    reads .x 0x00002C2140000010 (.cvtf h0 { d := 4, s1 := 5, sg := true, rnd := 0 }),
    reads .x 0x000030103FFFFFFC (.brp h0 { p := 2, neg := false, off := 0x3FFFFFFC }),
    reads .x 0x000033483FFFFFFA (.loop h0 { s1 := 9, off := 0x3FFFFFFA })]).all id = true := by decide +kernel

/-- Words of each opcode that ExecuteMultiplyDivide and ExecutePredicates decode, and operands they call reserved. -/
theorem DecodesX_met :
    ([0x06, 0x07, 0x08, 0x09, 0x0D, 0x0E, 0x0F, 0x10, 0x11, 0x12, 0x13, 0x18, 0x19, 0x1A] : List (BitVec 8)).all (fun op =>
      decide (field ((op.setWidth 64 : Word) <<< 40 ||| 4) 40 8 = op)) = true ∧
    field (0x00001A1840000004 : Word) 0 3 = 4 ∧ 3 ≤ (7 : BitVec 3).toNat ∧ 6 ≤ (6 : BitVec 3).toNat ∧
    5 ≤ (5 : BitVec 3).toNat := by decide +kernel

/-- Spec 16: `dset d2, 3, 0x101F8FD0`, `wload w1, d4`, `mma d0, d1, w1, pass, 8 ?f5/t !f6`, `smma d0, d1, w0, 2, pass`, `ast d6, d0, sat, pass`. -/
theorem decode_matrix : ([
    reads .m 0x0000012C101F8FD0 (.mDset h0 { d := 2, q := 3, value := 0x101F8FD0 }),
    reads .m 0x0000100400000040 (.wload h0 { d1 := 4, stg := true }),
    reads .m 0x85461101000800E0 (.mma { wait := .thresh 5, sig := .one 6 } { d0 := 0, d1 := 1, b := .stage true, pass := some 8 }),
    reads .m 0x00001301000002A0 (.smma h0 { d0 := 0, d1 := 1, b := .stage false, q := 2, pass := some 0 }),
    reads .m 0x00001A6000000028 (.ast h0 { d0 := 6, d1 := 0, pass := some 0, sat := true, rnd := 0 })]).all id = true := by decide +kernel

/-- Spec 17: `vadd d4, d5, d6`, `vfma d4, d5, d6, d7, crow`, `vbcast d4, d5, col`, the VEPI of R317's example, `vtagsel d4, d5, pass`. -/
theorem decode_vector : ([
    reads .v 0x0000104560000000 (.vadd h0 { d0 := 4, d1 := 5, d2 := 6, br := false, pass := none, sat := false, rnd := 0 }),
    reads .v 0x0000154567000040 (.vfma h0 { d0 := 4, d1 := 5, d2 := 6, d3 := 7, br := false, bc := true, pass := none, sat := false, rnd := 0 }),
    reads .v 0x0000304500000100 (.vbcast h0 { d0 := 4, d1 := 5, col := true, pass := none, sat := false, rnd := 0 }),
    reads .v 0x0049326120001120 (.vepi { wait := .none, sig := .one 9 } { d0 := 6, d1 := 1, bias := some 2, fn := 1, pass := some 0, sat := false, rnd := 0 }),
    reads .v 0x0000334500000020 (.vtagsel h0 { d0 := 4, d1 := 5, pass := some 0, sat := false, rnd := 0 })]).all id = true := by decide +kernel

/-- Spec 18: `ccopy d4, d5, rtz, sat !f3`, `cfill d2, 0x3F80`. -/
theorem decode_copy : ([
    reads .c 0x0043104500000009 (.ccopy { wait := .none, sig := .one 3 } { d0 := 4, d1 := 5, pass := none, sat := true, rnd := 1 }),
    reads .c 0x00001120003F8000 (.cfill h0 { d0 := 2, value := 0x3F80, sat := false, rnd := 0 })]).all id = true := by decide +kernel

/-! ## Terms that the well-formedness checks refuse -/

/-- The term breaks a check. -/
def illFormed (i : Instr) : Bool := !decide i.WellFormed

theorem refuses_access : ([
    illFormed (.lds h0 { reg := 1, base := 1, size := 4, sx := false, off := 0 }),
    illFormed (.ldm h0 { reg := 1, base := 1, size := 3, sx := true, off := 0 }),
    illFormed (.sts h0 { reg := 1, base := 1, size := 1, sx := true, off := 0 }),
    illFormed (.aadd h0 { d := 1, base := 1, s2 := 1, size := 1, sg := false, off := 0 }),
    illFormed (.aor h0 { d := 1, base := 1, s2 := 1, size := 2, sg := true, off := 0 }),
    illFormed (.aaddb h0 { d := 1, base := 1, s2 := 1, size := 2, sg := false, off := 0 }),
    illFormed (.amax h0 { d := 1, base := 1, s2 := 1, size := 4, sg := true, off := 0 }),
    illFormed (.raddf h0 { d := 1, base := 1, s2 := 1, size := 2, sg := false, off := 0 }),
    illFormed (.gset h0 { d := 0, base := 1, s2 := 1, size := 1, sg := false, off := 0 }),
    illFormed (.gset h0 { d := 1, base := 1, s2 := 1, size := 0, sg := false, off := 0 }),
    illFormed (.gclr h0 { d := 0, base := 1, s2 := 1, size := 0, sg := false, off := 0 }),
    illFormed (.monw h0 { d := 1, base := 1, s2 := 1, size := 1, sg := false, off := 0 }),
    illFormed (.finc h0 { vf := 1, rem := true, s1 := 1, amount := 0 }), illFormed (.finc h0 { vf := 1, rem := false, s1 := 1, amount := 1 }),
    illFormed (.fwait h0 { vf := 1, keep := true, n := 0 }), illFormed (.bfillw h0 { b := 1, n := 65 }), illFormed (.bfreew h0 { b := 1, n := 0 }),
    illFormed (.own h0 { first := 175, n1 := 1, v := true }), illFormed (.ringset h0 { strm := 1, size := 4, base := 0 }),
    illFormed (.ringset h0 { strm := 2, size := 3, base := 0 }), illFormed (.ringset h0 { strm := 2, size := 4, base := 8 }),
    illFormed (.ringpub h0 { strm := 0, val := .imm 1 }), illFormed (.ringrd h0 { d := 1, strm := 5, sel := true }),
    illFormed (.mark h0 { token := 1, c := false, v := false, m := false }), illFormed (.stadv h0 0),
    illFormed (.csrr h0 { r := 1, n := 3 }), illFormed (.csrw h0 { r := 1, n := 0x1C0 }), illFormed .fwbeat]).all id = true := by decide +kernel

theorem refuses_engines : ([
    illFormed (.mulh h0 { d := 1, s1 := 1, s2 := 1, k := 3 }), illFormed (.cmp h0 { p := 1, s1 := 1, s2 := 1, k := 6 }),
    illFormed (.plog h0 { p := 1, s1 := 1, s2 := 1, op := 5 }), illFormed (.plog h0 { p := 1, s1 := 1, s2 := 1, op := 4 }),
    illFormed (.fadd h0 { d := 1, s1 := 1, s2 := 1, k := 5 }), illFormed (.fsqrt h0 { d := 1, s1 := 1, k := 6 }),
    illFormed (.cvtf h0 { d := 1, s1 := 1, sg := true, rnd := 5 }), illFormed (.cvti h0 { d := 1, s1 := 1, wid := 0, sg := true, rnd := 5 }),
    illFormed (.cvtn h0 { d := 1, s1 := 1, fs := 0, dir := true, sat := true, rnd := 6 }), illFormed (.loop h0 { s1 := 31, off := 0 }),
    illFormed (.gmma h0 { d0 := 0, d1 := 1, d2 := 2, pass := none }), illFormed (.ast h0 { d0 := 0, d1 := 1, pass := none, sat := true, rnd := 5 }),
    illFormed (.vadd h0 { d0 := 0, d1 := 1, d2 := 2, br := true, pass := none, sat := true, rnd := 5 }),
    illFormed (.vfma h0 { d0 := 0, d1 := 1, d2 := 2, d3 := 3, br := true, bc := true, pass := none, sat := true, rnd := 6 }),
    illFormed (.vexp h0 { d0 := 0, d1 := 1, pass := none, sat := true, rnd := 5 }),
    illFormed (.vbcast h0 { d0 := 0, d1 := 1, col := true, pass := none, sat := true, rnd := 5 }),
    illFormed (.vtrn h0 { d0 := 0, d1 := 1, pass := some 0, sat := true, rnd := 0 }),
    illFormed (.vepi h0 { d0 := 0, d1 := 1, bias := none, fn := 5, pass := none, sat := true, rnd := 0 }),
    illFormed (.vtagsel h0 { d0 := 0, d1 := 1, pass := none, sat := true, rnd := 0 }),
    illFormed (.ccopy h0 { d0 := 0, d1 := 1, pass := none, sat := true, rnd := 5 }),
    illFormed (.cgath h0 { d0 := 0, d1 := 1, pass := none, sat := true, rnd := 0 }),
    illFormed (.cfill h0 { d0 := 0, value := 0, sat := true, rnd := 5 }),
    illFormed (.cmcast h0 { d0 := 0, d1 := 1, storer := true, tflag := none, n1 := 128, sat := true, rnd := 0 }),
    illFormed (.cwbind h0 { d0 := 0, d1 := 1, win := 0, n1 := 64, sat := true, rnd := 0 }), illFormed (.cwadv h0 { win := 0, n1 := 64 }),
    illFormed (.cpfa h0 { d0 := 0, d1 := 1, sat := true, rnd := 5 }),
    illFormed (.clred h0 { d0 := 0, d1 := 1, link := 0, block := 0, sat := true, rnd := 5 })]).all id = true := by decide +kernel

end Sys2Proof.Tests
end

/-! What the events of the task graph and of the Gatherers do, one lemma a case, and the two statements put together from them
(spec 02 R22 to R31, 03 R33 to R55, 23 R362, R363). -/

namespace Sys2Proof.Machine

/-! ## The actions of units -/

theorem runUnit_ok (unit : Nat) (act : M Unit) (s t : State) (h : act s = .ok () t) :
    runUnit unit act s = .next (t.undrainAt unit) := by
  simp [runUnit, h]

/-- A unit whose action meets a draining page keeps its state and is counted as waiting there (R385). -/
theorem runUnit_drain (unit : Nat) (act : M Unit) (s u : State) (h p : Nat) (ha : act s = .error (.drain h p) u) :
    runUnit unit act s = .next (s.addDrainAt unit h p) := by
  simp [runUnit, ha]

/-! ## Two changes of one Gatherer -/

theorem onGath_onGath (s : State) (g : Nat) (f k : Gatherer → Gatherer) (hg : g < 8) :
    (s.onGath g f).onGath g k = s.onGath g fun q => k (f q) := by
  have h : vget (vset s.gath g (f (vget s.gath g))) g = f (vget s.gath g) := vget_vset_same _ _ _ hg
  simp only [State.onGath, h]
  simp [vset]

/-! ## Dispatch (R22, R25, R31, R35) -/

theorem exec_taskDispatch_tile (s : State) (id : BitVec 32) (t : Task) (ht : s.task? id.toNat = some t)
    (hr : t.ready = true) (hk : t.kind = .tile) :
    exec (.taskDispatch id) s = .next (((s.onMem fun m => m.catchUp (gathPanel t.gath) t.clock).setStage id.toNat t
      .dispatched).onGath t.gath fun g => { g with input := g.input ++ [.tile id.toNat] }) := by
  change execTaskDispatch id s = _
  simp [execTaskDispatch, ht, hr, hk]

theorem exec_rangeDispatch_range (s u : State) (id : BitVec 32) (t : Task) (r : Option Unit)
    (ht : s.task? id.toNat = some t) (hr : t.ready = true) (hk : t.kind = .range)
    (hw : unitTry (memWrite 0 t.owner (tkState t) (rangeBlock (tkChunks t)) 0 .whole)
      ((s.onMem fun m => m.catchUp 0 t.clock).setStage id.toNat t .dispatched) = .ok r u) :
    exec (.rangeDispatch id) s = .next ({ u with
      tg := { u.tg with ranges := u.tg.ranges ++ [id.toNat] }
      gath := u.gath.map fun q : Gatherer => { q with input := q.input ++ [Arrival.range id.toNat false] } }.undrainAt unitGraph) := by
  change execRangeDispatch id s = _
  simp only [execRangeDispatch, ht, hr, hk, beq_self_eq_true, Bool.and_self, if_true]
  apply runUnit_ok
  rw [bind_ok _ _ _ _ _ (modState_run _ s), bind_ok _ _ _ _ _ hw]
  rfl

theorem exec_barrierFire_barrier (s s1 s2 : State) (id : BitVec 32) (t : Task) (b : Bool)
    (ht : s.task? id.toNat = some t) (hr : t.ready = true) (hk : t.kind = .barrier)
    (hg : ((List.range 4).forM (fun i => do
      if t.word (5 + i) != 0 then
        let _ ← unitTry (gateFill 0 t.owner (t.word (5 + i)).toNat 1 0)
        pure ()) : M Unit) (s.onMem fun m => m.catchUp 0 t.clock) = .ok () s1)
    (hc : unitComplete t.owner (tkCmpl t) t.clock s1 = .ok b s2) :
    exec (.barrierFire id) s = .next ((s2.endTask id.toNat).undrainAt unitGraph) := by
  change execBarrierFire id s = _
  simp only [execBarrierFire, ht, hr, hk, beq_self_eq_true, Bool.and_self, if_true]
  apply runUnit_ok
  rw [bind_ok _ _ _ _ _ (modState_run _ s), bind_ok _ _ _ _ _ hg, bind_ok _ _ _ _ _ hc]
  rfl

/-! ## The parked list (R362, R363) -/

/-- A listed task that is not at its completion goes back into the input, as a chunk or as a tile task. -/
theorem releaseParked_again (s : State) (g : BitVec 3) (id : BitVec 32) (x : Parked) (rest : List Parked)
    (ht : takeParked id (vget s.gath g.toNat).parked = some (x, rest)) (hd : x.doneOnly = false) :
    releaseParked g id s = .ok () (s.onGath g.toNat fun q => { q with parked := rest, input := q.input ++
      [if x.chunk then .chunk x.member x.hash else .again x.member x.hash x.wid x.shape] }) := by
  unfold releaseParked
  rw [bind_ok _ _ _ _ _ (getState_run s)]
  simp only [ht, hd, Bool.false_eq_true, if_false]
  rw [bind_ok _ _ _ _ _ (modState_run _ s)]
  cases x.chunk <;> simp [onGath_onGath _ _ _ _ g.isLt]

/-- A task listed for its completion alone has it performed, out of the list. -/
theorem releaseParked_doneOnly (s : State) (g : BitVec 3) (id : BitVec 32) (x : Parked) (rest : List Parked)
    (ht : takeParked id (vget s.gath g.toNat).parked = some (x, rest)) (hd : x.doneOnly = true) :
    releaseParked g id s = completeParked g.toNat x (s.onGath g.toNat fun q => { q with parked := rest }) := by
  unfold releaseParked
  rw [bind_ok _ _ _ _ _ (getState_run s)]
  simp only [ht, hd, if_true]
  rw [bind_ok _ _ _ _ _ (modState_run _ s)]

theorem exec_pkresRelease (s : State) (g : BitVec 3) (id : BitVec 32) :
    exec (.pkresRelease g id) s = runUnit (unitGath g.toNat) (releaseParked g id) s := rfl

theorem exec_pkresAbandon_listed (s : State) (g : BitVec 3) (id : BitVec 32) (x : Parked) (rest : List Parked)
    (ht : takeParked id (vget s.gath g.toNat).parked = some (x, rest)) :
    exec (.pkresAbandon g id) s = .next
      (let u := s.onGath g.toNat fun q => { q with parked := rest }
       if x.chunk then u else u.endTask x.task) := by
  change execPkresAbandon g id s = _
  simp [execPkresAbandon, ht]

/-- Settles O37, clause by clause from what each event of the task graph and of the parked list does. -/
theorem taskEvents : Obligations.TaskEvents := by
  unfold Obligations.TaskEvents
  refine ⟨exec_taskDispatch_tile, exec_rangeDispatch_range, exec_barrierFire_barrier, ?again, ?done, ?drain,
    exec_pkresAbandon_listed⟩
  case again =>
    intro s g id x rest ht hd
    exact (exec_pkresRelease s g id).trans (runUnit_ok _ _ _ _ (releaseParked_again s g id x rest ht hd))
  case done =>
    intro s t g id x rest ht hd hc
    exact (exec_pkresRelease s g id).trans (runUnit_ok _ _ _ _ ((releaseParked_doneOnly s g id x rest ht hd).trans hc))
  case drain =>
    intro s u g id x rest h p ht hd hc
    exact (exec_pkresRelease s g id).trans (runUnit_drain _ _ _ _ h p ((releaseParked_doneOnly s g id x rest ht hd).trans hc))

/-! ## The steps of a Gatherer's cycle (R33, R36, R39, R44, R45) -/

/-- A Gatherer of a powered cluster admits, closes bins under the entries written before, posts, and counts its cycle. -/
theorem ownSteps_powered (s s1 : State) (g : Nat) (now : List HeldPass) (hp : vget s.power.cluster g ≠ 2)
    (ha : admitNow g s = .ok now s1) :
    let r := closeBins (vget s1.gath g).takeShapes (s1.ftOf (gathPanel g))
    ownSteps g s = .ok () (((s1.onGath g fun _ => r.1).postAll g (now ++ r.2)).onGath g fun q =>
      { q with gcyc := q.gcyc + 1, ran := true }) := by
  unfold ownSteps
  rw [bind_ok _ _ _ _ _ (getState_run s), if_pos (bne_iff_ne.2 hp), bind_ok _ _ _ _ _ ha,
    bind_ok _ _ _ _ _ (modState_run _ s1), modState_run]

/-- A Gatherer whose cluster is off has no steps (R197). -/
theorem ownSteps_off (s : State) (g : Nat) (hp : vget s.power.cluster g = 2) : ownSteps g s = .ok () s := by
  unfold ownSteps
  rw [bind_ok _ _ _ _ _ (getState_run s)]
  simp [hp]

theorem gathererSteps_alone (s : State) (g : Nat) (hs : s.steals g = false) : gathererSteps g s = ownSteps g s := by
  unfold gathererSteps
  rw [bind_ok _ _ _ _ _ (getState_run s)]
  simp [hs]

/-- A Gatherer that steals has its steps after those of the Gatherers that take (R33). -/
theorem gathererSteps_steal (s s1 : State) (g : Nat) (hs : s.steals g = true)
    (ho : ((List.range 8).filter fun i => i ≠ g ∧ (vget s.gath i).ran = false ∧ s.steals i = false).forM ownSteps s = .ok () s1) :
    gathererSteps g s = ownSteps g s1 := by
  have others : ((List.range 8).filter fun i => i != g && !(vget s.gath i).ran && !s.steals i) =
      (List.range 8).filter fun i => i ≠ g ∧ (vget s.gath i).ran = false ∧ s.steals i = false :=
    List.filter_congr fun i _ => by rw [Bool.eq_iff_iff]; simp [and_assoc]
  unfold gathererSteps
  rw [bind_ok _ _ _ _ _ (getState_run s), if_pos hs, others, bind_ok _ _ _ _ _ ho]

theorem exec_gathererCycle_due (s t : State) (g : BitVec 3) (hr : (vget s.gath g.toNat).ran = false)
    (h : gathererSteps g.toNat s = .ok () t) : exec (.gathererCycle g) s = .next t := by
  change execGathererCycle g s = _
  simp [execGathererCycle, hr, runEvent_ok _ _ _ h]

theorem exec_gathererCycle_ran (s : State) (g : BitVec 3) (hr : (vget s.gath g.toNat).ran = true) :
    exec (.gathererCycle g) s = .next s := by
  change execGathererCycle g s = _
  simp [execGathererCycle, hr]

theorem exec_binClosePatience_due (s t : State) (g : BitVec 3) (b : BitVec 6) (hd : s.binDue g.toNat b.toNat 2 = true)
    (h : gathererSteps g.toNat s = .ok () t) : exec (.binClosePatience g b) s = .next t := by
  change execBinClosePatience g b s = _
  rw [execBinClosePatience, if_pos hd, runEvent_ok _ _ _ h]

theorem exec_binCloseDeadline_due (s t : State) (g : BitVec 3) (b : BitVec 6) (hd : s.binDue g.toNat b.toNat 3 = true)
    (h : gathererSteps g.toNat s = .ok () t) : exec (.binCloseDeadline g b) s = .next t := by
  change execBinCloseDeadline g b s = _
  rw [execBinCloseDeadline, if_pos hd, runEvent_ok _ _ _ h]

/-! ## Tail registers (R29, R49, R231) -/

@[simp] theorem wakeCluster_tails (s : State) (k : Nat) : (s.wakeCluster k).tails = s.tails := by
  unfold State.wakeCluster
  split <;> rfl

/-- Waking the clusters of the cores whose feed has a tail register leaves the registers. -/
@[simp] theorem wakeTail_tails (s : State) (k : Nat) : (s.wakeTail k).tails = s.tails := by
  unfold State.wakeTail
  generalize s.cores.filter _ = cs
  induction cs generalizing s with
  | nil => rfl
  | cons e cs ih => rw [List.foldl_cons, ih, wakeCluster_tails]

/-- A tail register keeps the larger value. -/
theorem raiseTail_tail_toNat (s : State) (k : Nat) (v : Word) (c : VClock) :
    ((mapGet (s.raiseTail k v c).tails k).getD 0).toNat = max ((mapGet s.tails k).getD 0).toNat v.toNat := by
  by_cases h : ((mapGet s.tails k).getD 0).toNat < v.toNat
  · simp only [State.raiseTail, h, if_true, mapGet_mapPut_same, Option.getD_some]
    omega
  · simp only [State.raiseTail, h, if_false]
    omega

theorem exec_tailRegisterWrite (s : State) (k : BitVec 12) (v : Word) :
    exec (.tailRegisterWrite k v) s = .next ((s.raiseTail k.toNat v (s.vc 0)).wakeTail k.toNat) := rfl

/-! ## Feed writes (R49) -/

theorem exec_feedWrite (s : State) (c : CoreId) : exec (.feedWrite c) s = runEvent (feedWrite c) s := rfl

/-! ## SHAPE and GDEPTH (R37 to R39) -/

/-- An action that a Gatherer takes after its steps of the cycle, made first where they are still to come. -/
theorem afterSteps_run (act : M Unit) (s s1 : State) (g : Nat)
    (h : if (vget s.gath g).ran then s1 = s else gathererSteps g s = .ok () s1) :
    (if !(vget s.gath g).ran then (do gathererSteps g; act) else act) s = act s1 := by
  cases hr : (vget s.gath g).ran with
  | true =>
    simp only [hr, if_true] at h
    rw [h]
    rfl
  | false =>
    simp only [hr, Bool.false_eq_true, if_false] at h
    exact bind_ok _ _ _ _ _ h

/-- A write of a class's high word comes after the Gatherer's steps of the cycle, and waits for the next evaluation. -/
theorem exec_shapeClassWrite_high (s s1 : State) (g : BitVec 3) (c : BitVec 8) (v : Word)
    (h : if (vget s.gath g.toNat).ran then s1 = s else gathererSteps g.toNat s = .ok () s1) :
    exec (.shapeClassWrite g c true v) s = .next (s1.onGath g.toNat fun q =>
      { q with shapesNew := mapPut q.shapesNew c.toNat { q.shapeWritten c with high := v } }) := by
  change execShapeClassWrite g c true v s = _
  simp only [execShapeClassWrite, if_true]
  apply runEvent_ok
  rw [bind_ok _ _ _ _ _ (getState_run s), afterSteps_run _ _ _ _ h, modState_run]

/-- So does a write of a target that is not reserved. -/
theorem exec_shapeClassWrite_target (s s1 : State) (g : BitVec 3) (c : BitVec 8) (v : Word)
    (h : if (vget s.gath g.toNat).ran then s1 = s else gathererSteps g.toNat s = .ok () s1) (hv : (field v 0 3).toNat < 6) :
    exec (.shapeClassWrite g c false v) s = .next (s1.onGath g.toNat fun q =>
      { q with shapesNew := mapPut q.shapesNew c.toNat { q.shapeWritten c with tgt := field v 0 3 } }) := by
  change execShapeClassWrite g c false v s = _
  simp only [execShapeClassWrite, Bool.false_eq_true, if_false, if_neg (Nat.not_le.2 hv)]
  apply runEvent_ok
  rw [bind_ok _ _ _ _ _ (getState_run s), afterSteps_run _ _ _ _ h, modState_run]

theorem exec_gdepthWrite_nonzero (s : State) (g : BitVec 3) (v : Word) (hv : field v 0 13 ≠ 0) :
    exec (.gdepthWrite g v) s = .next (s.onGath g.toNat fun q =>
      { q with depth := if 4096 < (field v 0 13).toNat then 4096 else field v 0 13 }) := by
  change execGdepthWrite g v s = _
  simp only [execGdepthWrite, if_neg hv]

/-! ## Swatches (R55) -/

/-- A swatch sends its messages under the descriptor read, and counts itself once. -/
theorem swatch_ok (s s1 : State) (d : List Byte) (h : unitRead 0 (256 * s.host.swDesc.toNat) 256 s = .ok d s1) :
    swatch s = .ok () (s1.onHost fun h =>
      { h with swOut := h.swOut ++ (swatchMessages s).map fun m => (s.host.swPort, d, m)
               sseq := h.sseq + 1, swLast := s1.cycle, swDue := false }) := by
  unfold swatch
  rw [bind_ok _ _ _ _ _ (getState_run s), bind_ok _ _ _ _ _ h]
  rfl

theorem exec_swatchPeriodic_due (s t : State) (h : swatch s = .ok () t) (hd : s.host.swPer + 400000 ≤ s.cycle) :
    exec .swatchPeriodic s = .next (t.onHost fun h => { h with swPer := t.cycle }) := by
  change execSwatchPeriodic s = _
  rw [execSwatchPeriodic, if_pos hd]
  apply runEvent_ok
  rw [bind_ok _ _ _ _ _ h]
  rfl

theorem exec_swatchTriggered_due (s t : State) (h : swatch s = .ok () t) (hw : s.host.swDue = true)
    (hd : s.host.swLast + 40000 ≤ s.cycle) : exec .swatchTriggered s = .next t := by
  change execSwatchTriggered s = _
  simp [execSwatchTriggered, hw, hd, runEvent_ok _ _ _ h]

/-- Settles O38, clause by clause from what each step and each register write of a Gatherer does. -/
theorem gathererEvents : Obligations.GathererEvents := by
  unfold Obligations.GathererEvents
  refine ⟨ownSteps_powered, ownSteps_off, ?order, ?cycle, exec_gathererCycle_ran, ?feed, ?tail, ?shape,
    exec_gdepthWrite_nonzero, ?swatches, swatch_ok⟩
  case order =>
    intro s s1 g
    exact ⟨gathererSteps_alone s g, gathererSteps_steal s s1 g⟩
  case cycle =>
    intro s t g hr h
    exact ⟨exec_gathererCycle_due s t g hr h, fun b hb => exec_binClosePatience_due s t g b hb h,
      fun b hb => exec_binCloseDeadline_due s t g b hb h⟩
  case feed =>
    intro s t c h
    exact (exec_feedWrite s c).trans (runEvent_ok _ s t h)
  case tail =>
    intro s k v
    exact ⟨_, exec_tailRegisterWrite s k v, by rw [wakeTail_tails, raiseTail_tail_toNat]⟩
  case shape =>
    intro s s1 g c v h
    exact ⟨exec_shapeClassWrite_high s s1 g c v h, exec_shapeClassWrite_target s s1 g c v h⟩
  case swatches =>
    intro s t h
    exact ⟨exec_swatchPeriodic_due s t h, exec_swatchTriggered_due s t h⟩

end Sys2Proof.Machine

/-! What firmware does to a core by its registers, and what a step of one of its harts does, one lemma a case, and the statement put
together from them (spec 03 R52, 10 R184, R185, 23 R360, 26 R396 to R404). -/

namespace Sys2Proof.Machine

/-! ## FRES (R360, R384) -/

theorem onHalt_run (c : CoreId) (t : Strm) (h : Option Halt) (s : State) :
    onHalt c t h s = .ok () (s.onCore c fun k => k.setHalt t h) := rfl

/-- FRES acts on a halted stream with its HALT bit clear, and the wire falls after it where nothing holds it. -/
theorem resume_halted (s t : State) (c : CoreId) (u : Strm) (skip : Bool) (h : Halt) (hu : (s.core c).haltOf u = some h)
    (hr : (if skip then skipHalt c u h else retryHalt c u h) (s.onCore c fun k => k.setHalt u none) = .ok () t) :
    resume c u skip s = .ok () (t.dropWire c) := by
  unfold resume
  rw [bind_ok _ _ _ _ _ (getState_run s)]
  simp only [hu]
  rw [bind_ok _ _ _ _ _ (onHalt_run c u none s)]
  cases skip <;> exact bind_ok _ _ _ _ _ hr

theorem exec_fresRetry_halted (s t : State) (c : CoreId) (u : Strm) (h : Halt) (hu : (s.core c).haltOf u = some h)
    (hr : retryHalt c u h (s.onCore c fun k => k.setHalt u none) = .ok () t) :
    exec (.fresRetry c u) s = .next (t.dropWire c) := by
  change execFresRetry c u s = _
  exact runEvent_ok _ _ _ (resume_halted s t c u false h hu hr)

theorem exec_fresSkip_halted (s t : State) (c : CoreId) (u : Strm) (h : Halt) (hu : (s.core c).haltOf u = some h)
    (hr : skipHalt c u h (s.onCore c fun k => k.setHalt u none) = .ok () t) :
    exec (.fresSkip c u) s = .next (t.dropWire c) := by
  change execFresSkip c u s = _
  exact runEvent_ok _ _ _ (resume_halted s t c u true h hu hr)

/-- A retried word that stalls is in progress with its effects to come, in the state as the retry found it. -/
theorem again_stall (s s' : State) (c : CoreId) (w : Issued) (e : EWord)
    (hs : runBody c e.strm (Issued.bodyOf e c) { w with retry := some w.resume } none { s with cur := c } = .error .stall s') :
    again e c w s = .ok () (s.onCore c fun k => k.addProg e.strm { w with retry := some w.resume }) := by
  unfold again
  simp only [hs]
  rfl

theorem retryHalt_performed (c : CoreId) (u : Strm) (w : Issued) (e : EWord) (ht : w.todo = true) (he : w.entryOf u = some e) :
    retryHalt c u (.performed w) = again e c w := by
  simp only [retryHalt, ht, he, if_true]

/-! ## BUDGADD and FPARK (R52, R396, R398) -/

/-- A budget that is added to stays within its 32 bits. -/
theorem exec_budgadd_budget (s : State) (c : CoreId) (n : BitVec 32) :
    ∃ q, exec (.budgadd c n) s = .next (s.setCore c q) ∧
      q.budget.toNat = min (2 ^ 32 - 1) ((s.budgetNow (s.core c)).toNat + n.toNat) ∧ q.budgetAt = s.cycle ∧
      q = { s.core c with budget := q.budget, budgetAt := q.budgetAt, budgetArmed := q.budgetArmed } := by
  refine ⟨_, rfl, ?_, rfl, rfl⟩
  simp only [BitVec.toNat_ofNat]
  omega

theorem exec_fpark_idle (s : State) (c : CoreId) (hc : (s.core c).current = false) : exec (.fpark c) s = .next s := by
  change execFpark c s = _
  simp [execFpark, hc]

/-- Fault records appended change nothing of a core but its sleeping monitor. -/
theorem core_of_appendFaults (p : Nat) (note : Tag → Rec) (owners : List Tag) (s t : State) (c : CoreId)
    (h : (owners.forM fun o => appendFault p (note o) : M Unit) s = .ok () t) :
    t.core c = { s.core c with monitor := (t.core c).monitor } :=
  (keeps_ok (keeps_forM onlyMemory_order.toOrder (fun o => keeps_appendFault onlyMemory_order p (note o)) owners) h).2 c

/-! ## Registers and the complex's own memory (R184) -/

theorem exec_registerWrite_ok (s t : State) (addr : BitVec 56) (v : Word) (hr : regionOf addr.toNat = 3)
    (ha : addr.toNat % 8 = 0) (h : regWrite 0 0 addr.toNat v s = .ok () t) : exec (.registerWrite addr v) s = .next t := by
  change execRegisterWrite addr v s = _
  simp only [execRegisterWrite, hr, ha, decide_true, Bool.and_self, if_true]
  exact runEvent_ok _ _ _ h

theorem exec_firmwareComplexAccess_ok (s t : State) (hart : BitVec 2) (addr : BitVec 56) (acc : HartAccess)
    (hb : bit s.boot.harts hart.toNat = true) (h : hartAccess hart.toNat addr.toNat acc s = .ok () t) :
    exec (.firmwareComplexAccess hart addr acc) s = .next (t.undrainAt (unitHart hart.toNat)) := by
  change execFirmwareComplexAccess hart addr acc s = _
  simp only [execFirmwareComplexAccess, hb, Bool.not_true, Bool.false_eq_true, if_false]
  exact runUnit_ok _ _ _ _ h

/-- A hart's store to its complex's own memory is always made, though the boot ROM takes none. -/
theorem hartWrite_own (s : State) (addr n : Nat) (v : Word) (hr : regionOf addr = 15) :
    hartWrite addr n v s = .ok true { s with boot := ownStore s.boot (ownOff addr) (bytesOfW n v) } := by
  have reach : hartReach addr n = true := by simp [hartReach, hr]
  simp only [hartWrite, reach, hr, Bool.not_true, Bool.false_eq_true, if_false, if_true]
  rfl

theorem hartAccess_store_own (i : Nat) (s : State) (addr : Nat) (z : BitVec 2) (v : Word) (hr : regionOf addr = 15) :
    hartAccess i addr (.store z v) s =
      .ok () { s with boot := ownStore s.boot (ownOff addr) (bytesOfW (2 ^ z.toNat) v) } :=
  bind_ok _ _ _ _ _ (hartWrite_own s addr (2 ^ z.toNat) v hr)

@[simp] theorem bytesOfW_length (n : Nat) (w : Word) : (bytesOfW n w).length = n := bytesOfNat_length n w.toNat

/-- A store within the SRAM of the complex writes its bytes and ends the reservations on them. -/
theorem ownStore_sram (b : Boot) (off n o : Nat) (v : Word) (ho : sramOff off n = some o) :
    ownStore b off (bytesOfW n v) =
      { b with sram := setBytes b.sram o (bytesOfW n v), hart := b.hart.map (Hart.lose off n) } := by
  simp [ownStore, ho]

theorem ownStore_rom (b : Boot) (off n : Nat) (v : Word) (ho : sramOff off n = none) : ownStore b off (bytesOfW n v) = b := by
  simp [ownStore, ho]

/-! ## A step of a hart (R184, R185) -/

@[simp] theorem undrainAt_boot (s : State) (key : Nat) : (s.undrainAt key).boot = s.boot := by
  unfold State.undrainAt
  split <;> rfl

theorem hartStep_interrupt (i : Nat) (s : State) (c : Nat) (hi : (vget s.boot.hart i).interrupt s.host.raised = some c) :
    hartStep i s = .ok () { s.putHart i ((vget s.boot.hart i).take true c 0) with
      host := if c = 9 then s.host.served else s.host } := by
  unfold hartStep
  rw [bind_ok _ _ _ _ _ (getState_run s)]
  simp only [hi]
  rfl

/-- A hart whose cycle count has moved on by a free amount, unless the count is inhibited. -/
def Hart.counted (h : Hart) (free : Nat) : Hart :=
  { h with mcycle := if bit h.mcountinhibit 0 = false then Config.freeWord free else h.mcycle }

/-- The state after the cycle count of a hart has moved on: one free value is used, unless the count is inhibited. -/
def State.afterCount (s : State) (h : Hart) : State :=
  { s with free := if bit h.mcountinhibit 0 = false then s.free + 1 else s.free }

/-- A hart after its instruction: as this leaves it, or in the handler of the exception that it raises. -/
def Hart.afterInstr (h : Hart) : Except Trap Hart → Hart
  | .ok q => q
  | .error e => h.take false e.cause e.tval

/-- The first action of a step without an interrupt: the count of cycles. -/
theorem count_run (s : State) (h : Hart) :
    (if bit h.mcountinhibit 0 then pure h else do pure { h with mcycle := ← freeWord } : M Hart) s =
      .ok (h.counted s.free) (s.afterCount h) := by
  cases hc : bit h.mcountinhibit 0 <;> simp only [Hart.counted, State.afterCount, hc] <;> rfl

/-- A hart that has no interrupt to take executes its next instruction. -/
theorem hartStep_executes (i : Nat) (s s1 : State) (r : Except Trap Hart)
    (hn : (vget s.boot.hart i).interrupt s.host.raised = none)
    (hr : (hartInstr i ((vget s.boot.hart i).counted s.free)).run (s.afterCount (vget s.boot.hart i)) = .ok r s1) :
    hartStep i s = .ok () (s1.putHart i (((vget s.boot.hart i).counted s.free).afterInstr r)) := by
  unfold hartStep
  rw [bind_ok _ _ _ _ _ (getState_run s)]
  simp only [hn]
  rw [bind_ok _ _ _ _ _ (count_run s _), bind_ok _ _ _ _ _ hr]
  cases r <;> rfl

/-- The hart that a running hart's step leaves. -/
theorem exec_run_hart (s s1 : State) (hart : BitVec 2) (addr : BitVec 56) (r : Except Trap Hart)
    (hb : bit s.boot.harts hart.toNat = true) (hn : (vget s.boot.hart hart.toNat).interrupt s.host.raised = none)
    (hr : (hartInstr hart.toNat ((vget s.boot.hart hart.toNat).counted s.free)).run (s.afterCount (vget s.boot.hart hart.toNat)) =
      .ok r s1) :
    ∃ u, exec (.firmwareComplexAccess hart addr .run) s = .next u ∧
      vget u.boot.hart hart.toNat = ((vget s.boot.hart hart.toNat).counted s.free).afterInstr r := by
  refine ⟨_, exec_firmwareComplexAccess_ok s _ hart addr .run hb (hartStep_executes _ s s1 r hn hr), ?_⟩
  rw [undrainAt_boot, State.putHart_same _ _ _ hart.isLt]

/-! ### An operation on integer registers -/

/-- An instruction that writes no count of its own is counted when it retires, unless the count is inhibited. -/
theorem Hart.retire_alu (h : Hart) (op : RvAlu) (w : Bool) (rd a b : BitVec 5) :
    h.retire (.alu op w rd a b) = { h with minstret := if bit h.mcountinhibit 2 then h.minstret else h.minstret + 1 } := by
  cases hc : bit h.mcountinhibit 2 <;>
    simp only [Hart.retire, hc, Bool.or_self, Bool.or_false, Bool.false_eq_true, if_true, if_false]

/-- A hart after an operation on integer registers in an instruction of `len` bytes. -/
def Hart.afterAlu (h : Hart) (len : Nat) (op : RvAlu) (half : Bool) (rd a b : BitVec 5) : Hart :=
  ({ h with pc := h.pc + w64 len }.setX rd (rvAluOf op half (h.getX a) (h.getX b))).retire (.alu op half rd a b)

theorem hartInstr_alu (i : Nat) (h : Hart) (raw : Word) (len : Nat) (op : RvAlu) (half : Bool) (rd a b : BitVec 5)
    (s s1 : State) (hf : (hartFetch h).run s = .ok (.ok (raw, len, some (.alu op half rd a b))) s1) :
    (hartInstr i h).run s = .ok (.ok (h.afterAlu len op half rd a b)) s1 := by
  unfold hartInstr
  rw [ExceptT.run_bind, bind_ok _ _ _ _ _ hf]
  rfl

section
variable (h : Hart) (len : Nat) (op : RvAlu) (half : Bool) (rd a b : BitVec 5)

@[simp] theorem Hart.afterAlu_pc : (h.afterAlu len op half rd a b).pc = h.pc + w64 len := by
  simp [Hart.afterAlu, Hart.retire_alu]

@[simp] theorem Hart.afterAlu_f : (h.afterAlu len op half rd a b).f = h.f := by
  simp [Hart.afterAlu, Hart.retire_alu]

@[simp] theorem Hart.afterAlu_mode : (h.afterAlu len op half rd a b).mode = h.mode := by
  simp [Hart.afterAlu, Hart.retire_alu]

@[simp] theorem Hart.afterAlu_mstatus : (h.afterAlu len op half rd a b).mstatus = h.mstatus := by
  simp [Hart.afterAlu, Hart.retire_alu]

@[simp] theorem Hart.afterAlu_minstret : (h.afterAlu len op half rd a b).minstret =
    if bit h.mcountinhibit 2 then h.minstret else h.minstret + 1 := by
  simp [Hart.afterAlu, Hart.retire_alu]

/-- Its integer file is the one written: the count of retired instructions is no part of it. -/
theorem Hart.afterAlu_getX (r : BitVec 5) : (h.afterAlu len op half rd a b).getX r =
    (h.setX rd (rvAluOf op half (h.getX a) (h.getX b))).getX r := by
  rw [Hart.afterAlu, Hart.retire_alu]
  unfold Hart.setX
  split <;> rfl

theorem Hart.afterAlu_getX_dest (hd : rd ≠ 0) :
    (h.afterAlu len op half rd a b).getX rd = rvAluOf op half (h.getX a) (h.getX b) := by
  rw [Hart.afterAlu_getX, Hart.getX_setX_same _ _ _ hd]

theorem Hart.afterAlu_getX_other (r : BitVec 5) (hr : r ≠ rd) : (h.afterAlu len op half rd a b).getX r = h.getX r := by
  rw [Hart.afterAlu_getX, Hart.getX_setX_other _ _ _ _ hr]

end

/-! ### An exception -/

/-- The mask of one bit. -/
theorem maskIf_one (i : Nat) : maskIf true i 1 = BitVec.twoPow 64 i := by
  rw [BitVec.twoPow_eq]
  rfl

/-- A bit put reads back. -/
theorem bit_rvPutBit_same (w : Word) (i : Nat) (b : Bool) (hi : i < 64) : bit (rvPutBit w i b) i = b := by
  cases b <;> simp [rvPutBit, rvPut, maskIf_one, ofBool, hi]

/-- Putting a bit leaves the others. -/
theorem bit_rvPutBit_other (w : Word) (i j : Nat) (b : Bool) (hj : j ≠ i) : bit (rvPutBit w i b) j = bit w j := by
  simpa [rvPutBit, rvPut, maskIf_one, hj.symm] using BitVec.lt_of_getLsbD

/-- An exception's cause, as the 64-bit register holds it. -/
theorem exceptionCode (cause : Nat) : (ofBool 1 false ++ BitVec.ofNat 63 cause : Word) = w64 (cause % 2 ^ 63) := by
  apply BitVec.eq_of_toNat_eq
  rw [BitVec.toNat_append, BitVec.toNat_ofNat, BitVec.toNat_ofNat]
  simp only [ofBool, Bool.false_eq_true, if_false, BitVec.ofNat_eq_ofNat, BitVec.toNat_ofNat, Nat.zero_mod,
    Nat.zero_shiftLeft, Nat.zero_or]
  omega

/-- An exception that is not delegated enters the handler of M-mode. -/
theorem Hart.take_exception_m (h : Hart) (cause : Nat) (tval : Word) (hm : h.mode = .m ∨ bit h.medeleg cause = false) :
    h.take false cause tval = { h with
      mepc := h.pc, mcause := w64 (cause % 2 ^ 63), mtval := tval, mode := .m, pc := rvVector h.mtvec false cause,
      mstatus := rvPutBit (rvPutBit (rvPut h.mstatus 11 2 (w64 h.mode.num)) 7 (bit h.mstatus 3)) 3 false } := by
  have own : (h.mode != .m && bit h.medeleg cause) = false := by
    obtain hm | hm := hm <;> simp [hm]
  simp only [Hart.take, own, exceptionCode, Bool.false_eq_true, if_false]

/-- The handler of an exception is at the base of the vector. -/
theorem rvVector_exception (tvec : Word) (cause : Nat) : rvVector tvec false cause = tvec &&& ~~~3#64 := by
  simp [rvVector]

/-- Settles O35, clause by clause from what each register of firmware does and from the two outcomes of a hart's instruction. -/
theorem firmwareEvents : Obligations.FirmwareEvents := by
  unfold Obligations.FirmwareEvents
  refine ⟨exec_fresRetry_halted, ?stalled, exec_fresSkip_halted, fun _ _ => rfl, exec_budgadd_budget, exec_fpark_idle, ?parked,
    fun _ _ _ _ _ => rfl, exec_registerWrite_ok, ?store, ?access, ?executes, ?interrupted⟩
  case stalled =>
    intro s s' c u w e _ hu ht he s1 w1 hs
    exact exec_fresRetry_halted s _ c u (.performed w) hu
      ((congrFun (retryHalt_performed c u w e ht he) s1).trans (again_stall s1 s' c w e hs))
  case parked =>
    intro s t c k fresh owners k1 first note q hc h
    have frame := core_of_appendFaults (panelOf c) note owners _ t c h
    rw [core_setCore_same] at frame
    refine ⟨?_, frame⟩
    change execFpark c s = _
    simp only [execFpark, show (s.core c).current = true from hc, Bool.not_true, Bool.false_eq_true, if_false]
    exact runEvent_ok _ _ _ h
  case store =>
    intro s hart addr z v hb hr
    rw [exec_firmwareComplexAccess_ok s _ hart addr _ hb (hartAccess_store_own hart.toNat s addr.toNat z v hr)]
    cases ho : sramOff (addr.toNat % 2 ^ 52) (2 ^ z.toNat) with
    | some o => rw [ownOff, ownStore_sram _ _ _ _ _ ho]
    | none => rw [ownOff, ownStore_rom _ _ _ _ ho]
  case access =>
    intro s t hart addr acc hb h
    exact exec_firmwareComplexAccess_ok s t hart addr acc hb h
  case executes =>
    rintro s s1 hart addr _ rfl hb hn counts h s0
    refine ⟨fun raw len op half rd a b hf => ?_, fun t hr hm => ?_⟩
    · obtain ⟨u, hu, hq⟩ := exec_run_hart s s1 hart addr _ hb hn (hartInstr_alu hart.toNat h raw len op half rd a b s0 s1 hf)
      refine ⟨u, _, hu, hq, ?_⟩
      exact ⟨h.afterAlu_pc len op half rd a b, h.afterAlu_getX_dest len op half rd a b, h.afterAlu_getX_other len op half rd a b,
        Hart.getX_zero _, h.afterAlu_f len op half rd a b, h.afterAlu_mode len op half rd a b,
        h.afterAlu_mstatus len op half rd a b, h.afterAlu_minstret len op half rd a b⟩
    · obtain ⟨u, hu, hq⟩ := exec_run_hart s s1 hart addr _ hb hn hr
      refine ⟨u, _, hu, hq, ?_⟩
      rw [Hart.afterInstr, Hart.take_exception_m ((vget s.boot.hart hart.toNat).counted s.free) t.cause t.tval hm]
      refine ⟨rfl, rfl, rfl, rfl, rvVector_exception _ _, rfl, rfl, bit_rvPutBit_same _ 3 _ (by decide), ?_⟩
      rw [bit_rvPutBit_other _ 3 7 _ (by decide), bit_rvPutBit_same _ 7 _ (by decide)]
      rfl
  case interrupted =>
    rintro s hart addr _ c rfl hb hi
    exact exec_firmwareComplexAccess_ok s _ hart addr .run hb (hartStep_interrupt hart.toNat s c hi)

end Sys2Proof.Machine

/-! What the bobbin words and CSRW do, one lemma a case, and the statements put together from them (spec 04 R69, R70, R83, 14 R254,
R267); and the memories at reset. -/

namespace Sys2Proof.Machine

/-! ## Issue and register reads of the A unit -/

/-- What the issue of a word writes of its core: flags alone. -/
theorem passWait_flags {k k' : Core} {w : Wait} (h : k.passWait w = some k') : k' = { k with flags := k'.flags } := by
  unfold Core.passWait at h
  split at h
  · cases h; rfl
  · split at h
    · cases h
    · obtain ⟨f, -, rfl⟩ := Option.map_eq_some_iff.1 h
      rfl

theorem addFlag_flags {k k' : Core} {v : BitVec 6} {n : Nat} (h : k.addFlag v n = .ok k') :
    k' = { k with flags := k'.flags } := by
  unfold Core.addFlag at h
  split at h
  · cases h; rfl
  · split at h
    · cases h; rfl
    · cases h

theorem issueSig_flags {k k' : Core} {g : Sig} (h : k.issueSig g = .ok k') : k' = { k with flags := k'.flags } := by
  unfold Core.issueSig at h
  split at h
  · exact addFlag_flags h
  · cases h; rfl

/-- A word whose wait byte has not been met before takes it in the step that issues it. -/
theorem issueA_takes {s s1 : State} {i : Instr} {h : Hdr} (hi : s.issueA i h = some s1) (hw : (s.core s.cur).wdone = false) :
    ∃ k1 k2, (s.core s.cur).passWait h.wait = some k1 ∧ k1.issueSig h.sig = .ok k2 ∧ s1 = s.setCore s.cur k2 := by
  unfold State.issueA at hi
  simp only [hw, Bool.false_eq_true, if_false] at hi
  split at hi
  · cases hi
  split at hi
  · cases hi
  cases hk : (s.core s.cur).passWait h.wait with
  | none => simp [hk] at hi
  | some k1 =>
    cases hs : k1.issueSig h.sig with
    | error old => simp [hk, hs] at hi
    | ok k2 => exact ⟨k1, k2, rfl, hs, by simpa [hk, hs] using hi.symm⟩

/-- The issue of an A word changes nothing but its core's flags. -/
theorem issueA_core {s s1 : State} {i : Instr} {h : Hdr} (hi : s.issueA i h = some s1) :
    ∃ k, k = { s.core s.cur with flags := k.flags } ∧ s1 = s.setCore s.cur k := by
  cases hw : (s.core s.cur).wdone with
  | false =>
    obtain ⟨k1, k2, h1, h2, rfl⟩ := issueA_takes hi hw
    exact ⟨k2, (issueSig_flags h2).trans (by rw [passWait_flags h1]), rfl⟩
  | true =>
    unfold State.issueA at hi
    simp only [hw, if_true] at hi
    split at hi
    · cases hi
    split at hi
    · cases hi
    · exact ⟨_, rfl, (Option.some.inj hi).symm⟩

/-- What the decode stage sees of one register. -/
theorem seeA_single (k : Core) (r : Reg) :
    k.seeA [r] = if r = 31 then k.xa.head?.join else some (if r = 0 then 0 else k.a[r.toNat]'r.isLt) := by
  unfold Core.seeA Core.peekA
  split <;> rfl

/-- A register read answers what the decode stage sees of it. -/
theorem seeA_of_rdA {s t : State} {r : Reg} {v : Word} (h : rdA r s = .ok v t) : (s.core s.cur).seeA [r] = some v := by
  rw [seeA_single]
  unfold rdA at h
  simp only at h
  split at h
  · cases h
    subst_vars
    rfl
  · rename_i h0
    split at h
    · rename_i h31
      split at h
      · rename_i e
        cases h
        rw [if_pos h31, e]
        rfl
      · cases h
    · rename_i h31
      cases h
      rw [if_neg h31, if_neg h0]

theorem cur_of_rdA {s t : State} {r : Reg} {v : Word} (h : rdA r s = .ok v t) : t.cur = s.cur := by
  unfold rdA at h
  simp only at h
  repeat' split at h
  all_goals cases h
  all_goals rfl

/-! ## Bobbins (R69, R70, R254) -/

theorem setBob_run (b : BitVec 5) (x : Bobbin) (s : State) :
    setBob b x s = .ok () (s.onCore s.cur fun k => { k with bobbins := vset k.bobbins b.toNat x }) := rfl

/-- A configuration word that meets R69 offends nothing at decode. -/
theorem bbindBad_eq_zero {k : Core} {o : BbindOp} {v : Word} (h : k.seeA [o.s1] = some v) (hv : bobbinCfgOk v = true) :
    bbindBad o k = 0 := by
  simp [bbindBad, h, hv, maskIf]

/-- Reading a register of the A unit after a word's issue sees what its decode stage saw. -/
theorem seeA_issued {s s2 : State} {k : Core} {r : Reg} {v : Word} (hk : k = { s.core s.cur with flags := k.flags })
    (hr : rdA r (s.setCore s.cur k) = .ok v s2) : (s.core s.cur).seeA [r] = some v := by
  have seen := seeA_of_rdA hr
  rw [cur_setCore, core_setCore_same, seeA_single, hk] at seen
  rw [seeA_single]
  exact seen

theorem bbind_completes {s s1 s2 : State} {h : Hdr} {o : BbindOp} {v : Word} (hi : s.issueA (.bbind h o) h = some s1)
    (hn : ∀ w ∈ (s.core s.cur).unfinished, o.b ∉ w.bobbins) (hr : rdA o.s1 s1 = .ok v s2) (hv : bobbinCfgOk v = true) :
    exec (.bbind h o) s = .next (s.endA (.bbind h o) h .next (s2.onCore s.cur fun k =>
      { k with bobbins := vset k.bobbins o.b.toNat (Bobbin.bind v) })) := by
  obtain ⟨k, hk, rfl⟩ := issueA_core hi
  have hc : s2.cur = s.cur := (cur_of_rdA hr).trans rfl
  have idle : (k.unfinished.any fun w => w.bobbins.contains o.b) = false := by
    rw [show k.unfinished = (s.core s.cur).unfinished by rw [hk]; rfl]
    simpa using hn
  refine runA_ok _ _ false _ _ s _ _ _ hi nofun (bbindBad_eq_zero (seeA_issued hk hr) hv) ?_
  rw [bind_ok _ _ _ _ _ (getCore_run _), cur_setCore, core_setCore_same, idle, bind_ok _ _ _ _ _ (stallIf_false _),
    bind_ok _ _ _ _ _ hr, bind_ok _ _ _ _ _ (setBob_run _ _ _), hc]
  rfl

/-- A word that waits for slots passes once they are there. -/
theorem bfillw_completes {s s1 : State} {h : Hdr} {o : BwaitOp} (hi : s.issueA (.bfillw h o) h = some s1)
    (hn : o.n.toNat ≤ (vget (s.core s.cur).bobbins o.b.toNat).filled) :
    exec (.bfillw h o) s = .next (s.endA (.bfillw h o) h .next s1) := by
  obtain ⟨k, hk, rfl⟩ := issueA_core hi
  have there : ¬ (vget k.bobbins o.b.toNat).filled < o.n.toNat := by
    rw [hk]
    exact Nat.not_lt.2 hn
  refine runA_ok _ _ false noBad _ s _ _ _ hi nofun rfl ?_
  rw [bind_ok _ _ _ _ _ (getCore_run _), cur_setCore, core_setCore_same, if_neg there]
  rfl

theorem bfreew_completes {s s1 : State} {h : Hdr} {o : BwaitOp} (hi : s.issueA (.bfreew h o) h = some s1)
    (hn : o.n.toNat ≤ (vget (s.core s.cur).bobbins o.b.toNat).free) :
    exec (.bfreew h o) s = .next (s.endA (.bfreew h o) h .next s1) := by
  obtain ⟨k, hk, rfl⟩ := issueA_core hi
  have there : ¬ (vget k.bobbins o.b.toNat).free < o.n.toNat := by
    rw [hk]
    exact Nat.not_lt.2 hn
  refine runA_ok _ _ false noBad _ s _ _ _ hi nofun rfl ?_
  rw [bind_ok _ _ _ _ _ (getCore_run _), cur_setCore, core_setCore_same, if_neg there]
  rfl

/-- A slot moved from FREE to FILLED. -/
theorem badv_completes {s s1 : State} {h : Hdr} {b : BitVec 5} {y : Bobbin} (hi : s.issueA (.badv h b) h = some s1)
    (hy : (vget (s.core s.cur).bobbins b.toNat).adv = some y) :
    exec (.badv h b) s = .next (s.endA (.badv h b) h .next (s1.onCore s.cur fun k =>
      { k with bobbins := vset k.bobbins b.toNat y })) := by
  obtain ⟨k, hk, rfl⟩ := issueA_core hi
  have moved : (vget k.bobbins b.toNat).adv = some y := by
    rw [hk]
    exact hy
  refine runA_ok _ _ false noBad _ s _ _ _ hi nofun rfl ?_
  rw [bind_ok _ _ _ _ _ (getCore_run _), cur_setCore, core_setCore_same]
  simp only [moved]
  rfl

/-! ### Free values in a window's slots (R330) -/

theorem mapPut_mapPut {α : Type} (m : SMap α) (k : Nat) (v w : α) : mapPut (mapPut m k v) k w = mapPut m k w := by
  induction m with
  | nil => simp [mapPut]
  | cons e m ih =>
    obtain ⟨j, u⟩ := e
    by_cases h : j = k
    · simp [mapPut, h]
    · by_cases hlt : k < j
      · simp [mapPut, h, hlt]
      · simp [mapPut, h, hlt, ih]

/-- `t` is `s` but for the count of free values and for core `s.cur`, which is `k` but for its scratchpad and side stores. -/
def State.spoils (s : State) (k : Core) (t : State) : Prop :=
  ∃ q f, t = ({ s with free := f } : State).setCore s.cur q ∧ q = { k with spad := q.spad, side := q.side, spadErr := q.spadErr }

/-- An action that ends well and keeps a predicate, as the actions of a list do one after another. -/
theorem forM_ends {γ : Type} {P : State → Prop} {f : γ → M Unit} (h : ∀ x s, P s → ∃ t, f x s = .ok () t ∧ P t) :
    ∀ (l : List γ) (s : State), P s → ∃ t, l.forM f s = .ok () t ∧ P t
  | [], s, hs => ⟨s, rfl, hs⟩
  | x :: l, s, hs => by
    obtain ⟨t, h1, ht⟩ := h x s hs
    obtain ⟨u, h2, hu⟩ := forM_ends h l t ht
    exact ⟨u, (bind_ok _ _ _ _ _ h1).trans h2, hu⟩

/-- Free bytes change nothing but the count of free values. -/
theorem freeBytes_ends (n : Nat) (s : State) : ∃ bs f, freeBytes n s = .ok bs { s with free := f } := by
  unfold freeBytes
  generalize List.range n = l
  induction l generalizing s with
  | nil => exact ⟨[], s.free, rfl⟩
  | cons i l ih =>
    obtain ⟨bs, f, hf⟩ := ih { s with free := s.free + 1 }
    refine ⟨field (Config.freeWord s.free) 0 8 :: bs, f, ?_⟩
    rw [List.mapM_cons]
    exact bind_ok _ _ _ _ _ hf

theorem spoilBobbin_spoils (x : Bobbin) (s0 : State) (k0 : Core) (s : State) (h : s0.spoils k0 s) :
    ∃ t, spoilBobbin x s = .ok () t ∧ s0.spoils k0 t := by
  refine forM_ends (fun i s hs => ?_) _ s h
  obtain ⟨q, f, rfl, hq⟩ := hs
  obtain ⟨bs, f1, h1⟩ := freeBytes_ends 64 (({ s0 with free := f } : State).setCore s0.cur q)
  obtain ⟨sc, f2, h2⟩ := freeBytes_ends 2 (({ s0 with free := f1 } : State).setCore s0.cur q)
  refine ⟨_, ?_, q.putSpadRow (x.bank + i % (x.span + 1)) (x.row + i / (x.span + 1)) { bytes := bs, scales := sc }, f2, rfl, ?_⟩
  · rw [bind_ok _ _ _ _ _ h1]
    refine (bind_ok _ _ _ _ _ h2).trans ?_
    simp only [modCore_run, State.onCore, State.setCore, State.core, mapGet_mapPut_same, mapPut_mapPut, Option.getD_some]
  · rw [hq]
    rfl

/-- A bobbin names the destination of a bound window. -/
def Core.wound (k : Core) (b : BitVec 5) : Bool := k.windows.toList.any fun v => (v.map fun v => dBob v.dst) == some b

theorem brel_plain {s s1 : State} {h : Hdr} {b : BitVec 5} {y : Bobbin} (hi : s.issueA (.brel h b) h = some s1)
    (hy : (vget (s.core s.cur).bobbins b.toNat).rel = some y) (hw : (s.core s.cur).wound b = false) :
    exec (.brel h b) s = .next (s.endA (.brel h b) h .next (s1.onCore s.cur fun k =>
      { k with bobbins := vset k.bobbins b.toNat y })) := by
  obtain ⟨k, hk, rfl⟩ := issueA_core hi
  have moved : (vget k.bobbins b.toNat).rel = some y := by
    rw [hk]
    exact hy
  have free : k.wound b = false := by
    rw [hk]
    exact hw
  refine runA_ok _ _ false noBad _ s _ _ _ hi nofun rfl ?_
  rw [bind_ok _ _ _ _ _ (getCore_run _), cur_setCore, core_setCore_same]
  unfold Core.wound at free
  simp only [moved, free]
  rfl

theorem brel_wound {s s1 : State} {h : Hdr} {b : BitVec 5} {y : Bobbin} (hi : s.issueA (.brel h b) h = some s1)
    (hy : (vget (s.core s.cur).bobbins b.toNat).rel = some y) (hw : (s.core s.cur).wound b = true) :
    ∃ t, exec (.brel h b) s = .next (s.endA (.brel h b) h .next t) ∧
      s1.spoils { s1.core s.cur with bobbins := vset (s.core s.cur).bobbins b.toNat y } t := by
  obtain ⟨k, hk, rfl⟩ := issueA_core hi
  have moved : (vget k.bobbins b.toNat).rel = some y := by
    rw [hk]
    exact hy
  have bound : k.wound b = true := by
    rw [hk]
    exact hw
  obtain ⟨t, ht, hs⟩ := spoilBobbin_spoils (vget k.bobbins b.toNat) (s.setCore s.cur k)
    { k with bobbins := vset (s.core s.cur).bobbins b.toNat y }
    ((s.setCore s.cur k).onCore s.cur fun k => { k with bobbins := vset k.bobbins b.toNat y })
    ⟨{ k with bobbins := vset k.bobbins b.toNat y }, s.free, by rw [State.onCore, core_setCore_same]; rfl,
      by rw [show (s.core s.cur).bobbins = k.bobbins by rw [hk]]⟩
  refine ⟨t, runA_ok _ _ false noBad _ s _ _ _ hi nofun rfl ?_, by rw [core_setCore_same]; exact hs⟩
  rw [bind_ok _ _ _ _ _ (getCore_run _), cur_setCore, core_setCore_same]
  unfold Core.wound at bound
  simp only [moved, bound, if_true]
  rw [bind_ok _ _ _ _ _ (setBob_run _ _ _)]
  exact bind_ok _ _ _ _ _ ht

/-- Settles O11, word by word from what each does to the bobbin. -/
theorem bobbinWords : Obligations.BobbinWords := by
  unfold Obligations.BobbinWords
  refine ⟨fun s s1 s2 h o v hi hn hr hv => bbind_completes hi hn hr hv, fun s s1 h o hi hn => bfillw_completes hi hn,
    fun s s1 h o hi hn => bfreew_completes hi hn, ?badv, ?brel⟩
  case badv =>
    intro s s1 h b hi x hx
    have moved : x.adv = some { x with wptr := (x.wptr + 1) % (x.count + 1), free := x.free - 1, filled := x.filled + 1 } :=
      if_neg (Nat.ne_of_gt hx)
    exact badv_completes hi moved
  case brel =>
    intro s s1 h b hi x hx bs wound
    have moved : x.rel = some { x with rptr := (x.rptr + 1) % (x.count + 1), filled := x.filled - 1, free := x.free + 1 } :=
      if_neg (Nat.ne_of_gt hx)
    refine ⟨fun hw => ?_, fun hw => ?_⟩
    · rw [brel_plain hi moved hw]
      obtain ⟨k, hk, rfl⟩ := issueA_core hi
      rw [State.onCore, State.onCore, core_setCore_same, show k.bobbins = (s.core s.cur).bobbins by rw [hk]]
    · obtain ⟨t, ht, q, f, rfl, hq⟩ := brel_wound hi moved hw
      obtain ⟨k, hk, rfl⟩ := issueA_core hi
      exact ⟨q, f, ht, hq⟩

/-! ## CSRs (R83, R267) -/

/-- Settles O16: the value passes the two checks that CSRW makes after its decode, and is written. -/
theorem csrWrites : Obligations.CsrWrites := by
  unfold Obligations.CsrWrites
  intro s s1 s2 h o v hi hp hr hround hown
  obtain ⟨k, hk, rfl⟩ := issueA_core hi
  have hc : s2.cur = s.cur := (cur_of_rdA hr).trans rfl
  have mode : (decide (o.n.toNat = 0x20) && decide (5 ≤ (field v 0 3).toNat)) = false := by
    rw [Bool.and_eq_false_iff, decide_eq_false_iff_not, decide_eq_false_iff_not]
    by_cases hn : o.n = 0x20
    · exact .inr (Nat.not_le.2 (hround hn))
    · exact .inl fun e => hn (BitVec.eq_of_toNat_eq e)
  have unowned : (decide (0x100 ≤ o.n.toNat) && decide (o.n.toNat < 0x1B0) && vget k.owner (o.n.toNat - 0x100)) = false := by
    rw [show k.owner = (s.core s.cur).owner by rw [hk]]
    by_cases h1 : 0x100 ≤ o.n.toNat <;> by_cases h2 : o.n.toNat < 0x1B0
    · rw [hown h1 h2, Bool.and_false]
    all_goals simp [h1, h2]
  refine runA_ok _ _ (csrPriv o.n.toNat) noBad _ s _ _ _ hi hp rfl ?_
  rw [bind_ok _ _ _ _ _ (getState_run _), bind_ok _ _ _ _ _ (getCore_run _), cur_setCore, core_setCore_same]
  refine (bind_ok _ _ _ _ _ hr).trans ?_
  simp only [mode, unowned, Bool.false_eq_true, if_false]
  rw [← hc]
  rfl

/-! ## Memories at reset -/

/-- Settles O50: at reset every memory is empty. -/
theorem resetIsCanonical : Obligations.ResetIsCanonical := by
  unfold Obligations.ResetIsCanonical
  decide

end Sys2Proof.Machine

/-! The issue of an engine word, and the words of the engines whose effect is one change of their core (spec 12 R216, R217, 16 R301,
18 R330 to R332). -/

namespace Sys2Proof.Machine

/-! ## The issue of an engine word -/

/-- A word as it stands when it issues: none of its effects performed, nothing kept for later. -/
def Issued.fresh (w : Issued) : Prop := w.todo = false ∧ w.ops = [] ∧ w.lines = [] ∧ w.own = none ∧ w.env = none

theorem issuedWord_fresh (k : Core) (t : Strm) (e : EWord) (w : Word) (ds : List Dsc) (entry : Option Nat) (banks : List (Nat × Nat)) :
    (k.issuedWord t e w ds entry banks).fresh := by
  unfold Core.issuedWord
  exact ⟨rfl, rfl, rfl, rfl, rfl⟩

/-- What the issue of an engine word leaves of its core: its flags, its engines and its counters change. -/
def Core.issuesTo (k q : Core) : Prop := q = { k with flags := q.flags, m := q.m, v := q.v, c := q.c, pmCnt := q.pmCnt }

theorem issuesTo_setEngine {k q : Core} {t : Strm} {g : Engine} (h : k.issuesTo q) : k.issuesTo (q.setEngine t g) := by
  unfold Core.issuesTo at *
  cases t <;> (rw [h]; rfl)

theorem issuesTo_pm {k q : Core} {src n : Nat} (h : k.issuesTo q) : k.issuesTo (q.pm src n) := by
  unfold Core.issuesTo at *
  rw [h]
  rfl

theorem issuesTo_reloadLfsr {k q : Core} {t : Strm} (h : k.issuesTo q) : k.issuesTo (q.reloadLfsr t) := by
  unfold Core.reloadLfsr
  simp only
  split
  · exact issuesTo_setEngine h
  · exact h

theorem issuesTo_pmIssue {k q : Core} {t : Strm} {op : Bool} (h : k.issuesTo q) : k.issuesTo (q.pmIssue t op) := by
  unfold Core.pmIssue
  split
  · exact h
  · split
    · exact issuesTo_pm h
    · exact issuesTo_pm h
    · exact h

theorem issuesTo_noteIssue {k q : Core} {t : Strm} {op : Bool} {n : Nat} (h : k.issuesTo q) : k.issuesTo (q.noteIssue t op n) := by
  unfold Core.noteIssue
  simp only
  split
  · exact issuesTo_setEngine h
  · exact h

theorem issuesTo_flags {k k1 k2 : Core} {h : Hdr} (h1 : k.passWait h.wait = some k1) (h2 : k1.issueSig h.sig = .ok k2) :
    k.issuesTo k2 := by
  unfold Core.issuesTo
  rw [issueSig_flags h2, passWait_flags h1]

/-- An engine word that takes nothing more at issue: no stall holds it, its waits are met and its signal made in the step, and
the state its effects start from. -/
theorem issueE_cases {s s1 : State} {i : Instr} {e : EWord} {w : Issued} (hp : e.prep = pure) (hi : s.issueE i e = some (w, s1)) :
    e.stall s s.cur (s.latched e) = false ∧ w.fresh ∧ (∃ k, s1 = s.setCore s.cur k ∧ (s.core s.cur).issuesTo k) := by
  unfold State.issueE State.issueWord at hi
  simp only [hp] at hi
  split at hi
  · cases hi
  split at hi
  · cases hi
  · rename_i k1 hk
    split at hi
    · cases hi
    · rename_i hb
      simp only [Bool.or_eq_true, not_or, Bool.not_eq_true] at hb
      obtain ⟨⟨_, stall⟩, _⟩ := hb
      split at hi
      · cases hi
      · rename_i k2 hs
        rw [pure_run] at hi
        simp only [Option.some.injEq, Prod.mk.injEq] at hi
        obtain ⟨rfl, rfl⟩ := hi
        exact ⟨stall, issuedWord_fresh _ _ _ _ _ _ _, _, rfl, issuesTo_setEngine (issuesTo_noteIssue (issuesTo_pmIssue
          (issuesTo_reloadLfsr (issuesTo_flags hk hs))))⟩

/-- A word whose effects never come later performs them whole in the step that issues it. -/
theorem opsNow_no {s : State} {e : EWord} {c : CoreId} {ds : List Dsc} (h : e.later s c ds = .no) : s.opsNow e c ds = none := by
  unfold State.opsNow
  rw [h]
  cases s.lineOps with
  | none => rfl
  | some n => cases n <;> rfl

/-- A plain engine word, from what its effects make of itself and of the state. -/
theorem plain_issuesTo {s s1 t : State} {i : Instr} {e : EWord} {w w' : Issued} (hp : e.prep = pure)
    (hl : ∀ s c ds, e.later s c ds = .no) (hi : s.issueE i e = some (w, s1)) (hx : exec i s = runE i e s)
    (hr : e.body { w with todo := true } s1 = .ok { w' with todo := true } t)
    (hw : w'.todo = false ∧ w'.ops = [] ∧ w'.lines = [] ∧ w'.own = none) : IssuesTo i s e.strm w' t := by
  obtain ⟨_, ⟨_, ho, _, hn, he⟩, _⟩ := issueE_cases hp hi
  obtain ⟨td, op, li, ow⟩ := hw
  unfold IssuesTo
  rw [hx, runE_ok i e s s1 t w _ hi (opsNow_no (hl _ _ _)) ho he hn hr]
  congr 2
  rw [← td, ← op, ← li, ← ow]

theorem nop_issuesTo {s s1 : State} {i : Instr} {t : Strm} {h : Hdr} {w : Issued} (hx : exec i s = runE i (nopWord t h) s)
    (hi : s.issueE i (nopWord t h) = some (w, s1)) : IssuesTo i s t w s1 := by
  obtain ⟨_, ⟨td, op, li, ow, _⟩, _⟩ := issueE_cases rfl hi
  exact plain_issuesTo (e := nopWord t h) rfl (fun _ _ _ => rfl) hi hx rfl ⟨td, op, li, ow⟩

/-- A DSET changes one descriptor among its engine's shadow descriptors. -/
theorem dset_issuesTo {s s1 : State} {i : Instr} {t : Strm} {h : Hdr} {o : DsetOp} {w : Issued}
    (hx : exec i s = runE i (dsetWord t h o) s) (hi : s.issueE i (dsetWord t h o) = some (w, s1)) :
    let g := (s1.core s.cur).engine t
    IssuesTo i s t w (s1.setCore s.cur ((s1.core s.cur).setEngine t
      { g with shadow := vset g.shadow o.d.toNat (putQuarter (vget g.shadow o.d.toNat) o.q o.value) })) := by
  obtain ⟨_, ⟨td, op, li, ow, _⟩, k, rfl, _⟩ := issueE_cases rfl hi
  refine plain_issuesTo (e := dsetWord t h o) rfl (fun _ _ _ => rfl) hi hx ?_ ⟨td, op, li, ow⟩
  exact bind_ok _ _ _ _ _ (modCore_run _ _)

theorem engine_setEngine {k : Core} {t : Strm} {g : Engine} : (k.setEngine t g).engine t = g := by cases t <;> rfl

/-- One release of each of `n + 1` slots moves RPTR on by as many, modulo COUNT (R70). -/
theorem bobTimes_rel (n : Nat) (b : Bobbin) (h : n + 1 ≤ b.filled) :
    (bobTimes Bobbin.rel (n + 1) b).1 =
      { b with rptr := (b.rptr + (n + 1)) % (b.count + 1), filled := b.filled - (n + 1), free := b.free + (n + 1) } := by
  induction n generalizing b with
  | zero => simp [bobTimes, Bobbin.rel, Nat.ne_of_gt h]
  | succ n ih =>
    have hf : ¬ b.filled = 0 := by omega
    rw [bobTimes]
    simp only [Bobbin.rel, if_neg hf]
    have turn : ((b.rptr + 1) % (b.count + 1) + (n + 1)) % (b.count + 1) = (b.rptr + (n + 1 + 1)) % (b.count + 1) := by
      rw [Nat.mod_add_mod, Nat.add_assoc, Nat.add_comm 1]
    rw [ih _ (Nat.le_sub_of_add_le h), Bobbin.mk.injEq]
    exact ⟨rfl, Nat.add_right_comm b.free 1 (n + 1), by rw [Nat.sub_sub, Nat.add_comm 1], turn, rfl⟩

theorem cwbind_issuesTo {s s1 : State} {h : Hdr} {o : CwbindOp} {w : Issued}
    (hi : s.issueE (.cwbind h o) (cwbindWord h o) = some (w, s1)) :
    let v : Window := { src := w.dsc 1, dst := w.dsc 0, rnd := o.rnd, sat := o.sat, next := field (w.dsc 1) 46 56 }
    IssuesTo (.cwbind h o) s .c
      { w with env := some (s1.envOf s.cur w.dscs),
               deferred := List.replicate (o.n1.toNat + 1) (.fill o.win (rndNow (s.core s.cur) o.rnd)) }
      (s1.onCore s.cur fun k => { k with windows := vset k.windows o.win.toNat (some v) }) := by
  obtain ⟨_, ⟨td, op, li, ow, _⟩, k, rfl, hk⟩ := issueE_cases rfl hi
  refine plain_issuesTo (e := cwbindWord h o) rfl (fun _ _ _ => rfl) hi rfl ?_ ⟨td, op, li, ow⟩
  refine (bind_ok _ _ _ _ _ (getState_run _)).trans ((bind_ok _ _ _ _ _ (modCore_run _ _)).trans ?_)
  rw [cur_setCore, core_setCore_same, show rndNow (s.core s.cur) o.rnd = rndNow k o.rnd by rw [hk]; rfl]
  rfl

/-- CWADV on a window that is not bound only completes (log 30). -/
theorem cwadv_unbound {s s1 : State} {h : Hdr} {o : CwadvOp} {w : Issued} (hn : vget (s.core s.cur).windows o.win.toNat = none)
    (hi : s.issueE (.cwadv h o) (cwadvWord h o) = some (w, s1)) : IssuesTo (.cwadv h o) s .c w s1 := by
  obtain ⟨_, ⟨td, op, li, ow, _⟩, k, rfl, hk⟩ := issueE_cases rfl hi
  refine plain_issuesTo (e := cwadvWord h o) rfl (fun _ _ _ => rfl) hi rfl ?_ ⟨td, op, li, ow⟩
  refine (bind_ok _ _ _ _ _ (getState_run _)).trans ?_
  rw [cur_setCore, core_setCore_same, show k.windows = (s.core s.cur).windows by rw [hk], hn]
  rfl

theorem cwadv_bound {s s1 : State} {h : Hdr} {o : CwadvOp} {w : Issued} {v : Window}
    (hv : vget (s.core s.cur).windows o.win.toNat = some v) (hi : s.issueE (.cwadv h o) (cwadvWord h o) = some (w, s1)) :
    let n := o.n1.toNat + 1
    let x := vget (s1.core s.cur).bobbins (dBob v.dst).toNat
    IssuesTo (.cwadv h o) s .c
      { w with bobbins := [dBob v.dst], env := some (s1.envOf s.cur w.dscs),
               deferred := List.replicate n (.fill o.win (rndNow (s.core s.cur) v.rnd)) }
      (s1.onCore s.cur fun k => { k with
        bobbins := vset k.bobbins (dBob v.dst).toNat
          { x with rptr := (x.rptr + n) % (x.count + 1), filled := x.filled - n, free := x.free + n } }) := by
  obtain ⟨stall, ⟨td, op, li, ow, _⟩, k, rfl, hk⟩ := issueE_cases rfl hi
  have there : o.n1.toNat + 1 ≤ (vget k.bobbins (dBob v.dst).toNat).filled := by
    rw [show k.bobbins = (s.core s.cur).bobbins by rw [hk]]
    obtain ⟨_, short⟩ := Bool.or_eq_false_iff.1 stall
    simpa [Core.windowShort, Core.windowBob, hv] using short
  intro n x
  refine plain_issuesTo (e := cwadvWord h o) rfl (fun _ _ _ => rfl) hi rfl ?_ ⟨td, op, li, ow⟩
  refine (bind_ok _ _ _ _ _ (getState_run _)).trans ?_
  rw [cur_setCore, core_setCore_same, show vget k.windows o.win.toNat = some v by rw [hk]; exact hv]
  refine (bind_ok _ _ _ _ _ (modCore_run _ _)).trans ?_
  simp only [State.onCore, cur_setCore, core_setCore_same, x]
  rw [bobTimes_rel _ _ there, show rndNow (s.core s.cur) v.rnd = rndNow k v.rnd by rw [hk]; rfl]
  rfl

/-- Settles O24, word by word from what each leaves beside its issue. -/
theorem enginePlainWords : Obligations.EnginePlainWords := by
  unfold Obligations.EnginePlainWords
  refine ⟨fun _ _ _ _ hi => nop_issuesTo rfl hi, fun _ _ _ _ hi => nop_issuesTo rfl hi, fun _ _ _ _ hi => nop_issuesTo rfl hi,
    ?dset, ?mqbind, fun _ _ _ _ _ hi => cwbind_issuesTo hi, ?cwadv, ?csched⟩
  case dset =>
    intro s s1 h o w t mk hm hi
    have hx : exec (mk h o) s = runE (mk h o) (dsetWord t h o) s := by
      simp only [List.mem_cons, Prod.mk.injEq, List.not_mem_nil, or_false] at hm
      obtain ⟨rfl, rfl⟩ | ⟨rfl, rfl⟩ | ⟨rfl, rfl⟩ := hm <;> rfl
    refine ⟨_, dset_issuesTo hx hi, ?_, ?_⟩
    · rw [engine_setEngine]
    · rw [engine_setEngine]
  case mqbind =>
    intro s s1 h o w hi
    obtain ⟨_, ⟨td, op, li, ow, _⟩, k, rfl, _⟩ := issueE_cases rfl hi
    exact plain_issuesTo (e := mqbindWord h o) rfl (fun _ _ _ => rfl) hi rfl (bind_ok _ _ _ _ _ (modCore_run _ _)) ⟨td, op, li, ow⟩
  case cwadv =>
    intro s s1 h o w hi
    cases hv : vget (s.core s.cur).windows o.win.toNat with
    | none => exact cwadv_unbound hv hi
    | some v => exact cwadv_bound hv hi
  case csched =>
    intro s s1 h d w hi
    obtain ⟨_, ⟨td, op, li, ow, _⟩, k, rfl, _⟩ := issueE_cases rfl hi
    exact plain_issuesTo (e := cschedWord h d) rfl (fun _ _ _ => rfl) hi rfl (bind_ok _ _ _ _ _ (modCore_run _ _)) ⟨td, op, li, ow⟩

end Sys2Proof.Machine

/-! # O49: the encoder and the decoder agree

A word is its header, its opcode and its operand field joined. Reading a field of joined bit strings goes to the part that
holds it, so each operand form reads back what was put, and the opcode finds its own arm of its stream's map. -/

namespace Sys2Proof

/-! ## Fields of joined bit strings -/

@[simp] theorem field_append_low {v w : Nat} (x : BitVec v) (y : BitVec w) (lo n : Nat) (h : lo + n ≤ w) :
    field (no_index (x ++ y)) lo n = field y lo n :=
  BitVec.extractLsb'_append_eq_of_add_le h

@[simp] theorem field_append_high {v w : Nat} (x : BitVec v) (y : BitVec w) (lo n : Nat) (h : w ≤ lo) :
    field (no_index (x ++ y)) lo n = field x (lo - w) n :=
  BitVec.extractLsb'_append_eq_of_le h

@[simp] theorem bit_append_low {v w : Nat} (x : BitVec v) (y : BitVec w) (i : Nat) (h : i < w) :
    bit (no_index (x ++ y)) i = bit y i := by
  unfold bit
  rw [BitVec.getLsbD_append, if_pos h]

@[simp] theorem bit_append_high {v w : Nat} (x : BitVec v) (y : BitVec w) (i : Nat) (h : w ≤ i) :
    bit (no_index (x ++ y)) i = bit x (i - w) := by
  unfold bit
  rw [BitVec.getLsbD_append, if_neg (Nat.not_lt.2 h)]

@[simp] theorem bit_ofBool (b : Bool) : bit (ofBool 1 b) 0 = b := by cases b <;> rfl

/-- An option as the bit that says whether it is there and the field that holds it. -/
@[simp] theorem option_of_bit {α : Type} (p : Option α) (d : α) : (if p.isSome = true then some (p.getD d) else none) = p := by
  cases p <;> rfl

/-- The B operand of a matrix word from its fields. -/
@[simp] theorem bsrc_of_fields (b : BSrc) :
    (if bit (bsrcBits b) 1 = true then BSrc.stage (bit (bsrcBits b) 0) else BSrc.desc (bsrcDesc b)) = b := by
  cases b with
  | desc d => simp [bsrcBits, bsrcDesc, bit]
  | stage st => cases st <;> rfl

/-! ## Operand forms: what is read is what was put -/

section
variable (h : BitVec 16) (op : BitVec 8)

@[simp] theorem getLi_putLi (o : LIOp) : getLi (no_index (h ++ (op ++ putLi o))) = o := by
  simp [getLi, putLi]

@[simp] theorem getLih_putLih (o : LIHOp) : getLih (no_index (h ++ (op ++ putLih o))) = o := by
  simp [getLih, putLih]

@[simp] theorem getRr3_putRr3 (o : RR3) : getRr3 (no_index (h ++ (op ++ putRr3 o))) = o := by
  simp [getRr3, putRr3]

@[simp] theorem getRr2_putRr2 (o : RR2) : getRr2 (no_index (h ++ (op ++ putRr2 o))) = o := by
  simp [getRr2, putRr2]

@[simp] theorem getRr3k_putRr3k (o : RR3K) : getRr3k (no_index (h ++ (op ++ putRr3k o))) = o := by
  simp [getRr3k, putRr3k]

@[simp] theorem getRr2k_putRr2k (o : RR2K) : getRr2k (no_index (h ++ (op ++ putRr2k o))) = o := by
  simp [getRr2k, putRr2k]

@[simp] theorem getRr3s_putRr3s (o : RR3S) : getRr3s (no_index (h ++ (op ++ putRr3s o))) = o := by
  simp [-BitVec.getLsbD_eq_getElem, getRr3s, putRr3s]

@[simp] theorem getRi_putRi (o : RIOp) : getRi (no_index (h ++ (op ++ putRi o))) = o := by
  simp [getRi, putRi]

@[simp] theorem getSh_putSh (o : ShiftOp) : getSh (no_index (h ++ (op ++ putSh o))) = o := by
  simp [getSh, putSh]

@[simp] theorem getM_putM (o : MOp) : getM (no_index (h ++ (op ++ putM o))) = o := by
  simp [-BitVec.getLsbD_eq_getElem, getM, putM]

@[simp] theorem getPfm_putPfm (o : PfmOp) : getPfm (no_index (h ++ (op ++ putPfm o))) = o := by
  simp [getPfm, putPfm]

@[simp] theorem getB_putB (o : BOp) : getB (no_index (h ++ (op ++ putB o))) = o := by
  simp [getB, putB]

@[simp] theorem getAt_putAt (o : ATOp) : getAt (no_index (h ++ (op ++ putAt o))) = o := by
  simp [-BitVec.getLsbD_eq_getElem, getAt, putAt]

@[simp] theorem getFset_putFset (o : FsetOp) : getFset (no_index (h ++ (op ++ putFset o))) = o := by
  simp [getFset, putFset]

@[simp] theorem getFrd_putFrd (o : FrdOp) : getFrd (no_index (h ++ (op ++ putFrd o))) = o := by
  simp [getFrd, putFrd]

@[simp] theorem getFwait_putFwait (o : FwaitOp) : getFwait (no_index (h ++ (op ++ putFwait o))) = o := by
  simp [-BitVec.getLsbD_eq_getElem, getFwait, putFwait]

@[simp] theorem getBbind_putBbind (o : BbindOp) : getBbind (no_index (h ++ (op ++ putBbind o))) = o := by
  simp [getBbind, putBbind]

@[simp] theorem getBwait_putBwait (o : BwaitOp) : getBwait (no_index (h ++ (op ++ putBwait o))) = o := by
  simp [getBwait, putBwait]

@[simp] theorem getBob_putBob (o : BitVec 5) : getBob (no_index (h ++ (op ++ putBob o))) = o := by
  simp [getBob, putBob]

@[simp] theorem getOwn_putOwn (o : OwnOp) : getOwn (no_index (h ++ (op ++ putOwn o))) = o := by
  simp [-BitVec.getLsbD_eq_getElem, getOwn, putOwn]

@[simp] theorem getRingset_putRingset (o : RingSetOp) : getRingset (no_index (h ++ (op ++ putRingset o))) = o := by
  simp [getRingset, putRingset]

@[simp] theorem getRingrd_putRingrd (o : RingRdOp) : getRingrd (no_index (h ++ (op ++ putRingrd o))) = o := by
  simp [-BitVec.getLsbD_eq_getElem, getRingrd, putRingrd]

@[simp] theorem getMark_putMark (o : MarkOp) : getMark (no_index (h ++ (op ++ putMark o))) = o := by
  simp [-BitVec.getLsbD_eq_getElem, getMark, putMark]

@[simp] theorem getTop2_putTop2 (o : BitVec 2) : getTop2 (no_index (h ++ (op ++ putTop2 o))) = o := by
  simp [getTop2, putTop2]

@[simp] theorem getD_putD (o : Reg) : getD (no_index (h ++ (op ++ putD o))) = o := by
  simp [getD, putD]

@[simp] theorem getS1_putS1 (o : Reg) : getS1 (no_index (h ++ (op ++ putS1 o))) = o := by
  simp [getS1, putS1]

@[simp] theorem getRbtld_putRbtld (o : RbtldOp) : getRbtld (no_index (h ++ (op ++ putRbtld o))) = o := by
  simp [getRbtld, putRbtld]

@[simp] theorem getB0_putB0 (o : Bool) : getB0 (no_index (h ++ (op ++ putB0 o))) = o := by
  simp [-BitVec.getLsbD_eq_getElem, getB0, putB0]

@[simp] theorem getN16_putN16 (o : BitVec 16) : getN16 (no_index (h ++ (op ++ putN16 o))) = o := by
  simp [getN16, putN16]

@[simp] theorem getN8_putN8 (o : BitVec 8) : getN8 (no_index (h ++ (op ++ putN8 o))) = o := by
  simp [getN8, putN8]

@[simp] theorem getT4_putT4 (o : Tree4) : getT4 (no_index (h ++ (op ++ putT4 o))) = o := by
  simp [getT4, putT4]

@[simp] theorem getT3_putT3 (o : Tree3) : getT3 (no_index (h ++ (op ++ putT3 o))) = o := by
  simp [getT3, putT3]

@[simp] theorem getSs_putSs (o : SS) : getSs (no_index (h ++ (op ++ putSs o))) = o := by
  simp [getSs, putSs]

@[simp] theorem getTread_putTread (o : TreadOp) : getTread (no_index (h ++ (op ++ putTread o))) = o := by
  simp [-BitVec.getLsbD_eq_getElem, getTread, putTread]

@[simp] theorem getTick_putTick (o : TickOp) : getTick (no_index (h ++ (op ++ putTick o))) = o := by
  simp [-BitVec.getLsbD_eq_getElem, getTick, putTick]

@[simp] theorem getPm_putPm (o : PmOp) : getPm (no_index (h ++ (op ++ putPm o))) = o := by
  simp [getPm, putPm]

@[simp] theorem getCsrr_putCsrr (o : CsrOp) : getCsrr (no_index (h ++ (op ++ putCsrr o))) = o := by
  simp [getCsrr, putCsrr]

@[simp] theorem getCsrw_putCsrw (o : CsrOp) : getCsrw (no_index (h ++ (op ++ putCsrw o))) = o := by
  simp [getCsrw, putCsrw]

@[simp] theorem getCtx_putCtx (o : CtxOp) : getCtx (no_index (h ++ (op ++ putCtx o))) = o := by
  simp [-BitVec.getLsbD_eq_getElem, getCtx, putCtx]

@[simp] theorem getCmp_putCmp (o : CmpOp) : getCmp (no_index (h ++ (op ++ putCmp o))) = o := by
  simp [getCmp, putCmp]

@[simp] theorem getCvtf_putCvtf (o : CvtfOp) : getCvtf (no_index (h ++ (op ++ putCvtf o))) = o := by
  simp [-BitVec.getLsbD_eq_getElem, getCvtf, putCvtf]

@[simp] theorem getCvti_putCvti (o : CvtiOp) : getCvti (no_index (h ++ (op ++ putCvti o))) = o := by
  simp [-BitVec.getLsbD_eq_getElem, getCvti, putCvti]

@[simp] theorem getCvtn_putCvtn (o : CvtnOp) : getCvtn (no_index (h ++ (op ++ putCvtn o))) = o := by
  simp [-BitVec.getLsbD_eq_getElem, getCvtn, putCvtn]

@[simp] theorem getBrp_putBrp (o : BrpOp) : getBrp (no_index (h ++ (op ++ putBrp o))) = o := by
  simp [-BitVec.getLsbD_eq_getElem, getBrp, putBrp]

@[simp] theorem getLoop_putLoop (o : LoopOp) : getLoop (no_index (h ++ (op ++ putLoop o))) = o := by
  simp [getLoop, putLoop]

@[simp] theorem getDset_putDset (o : DsetOp) : getDset (no_index (h ++ (op ++ putDset o))) = o := by
  simp [getDset, putDset]

@[simp] theorem getWload_putWload (o : WloadOp) : getWload (no_index (h ++ (op ++ putWload o))) = o := by
  simp [-BitVec.getLsbD_eq_getElem, getWload, putWload]

@[simp] theorem getMma_putMma (o : MmaOp) : getMma (no_index (h ++ (op ++ putMma o))) = o := by
  simp [-BitVec.getLsbD_eq_getElem, getPass, prowBits, ptBit, getBsrc, getMma, putMma]

@[simp] theorem getGmma_putGmma (o : GmmaOp) : getGmma (no_index (h ++ (op ++ putGmma o))) = o := by
  simp [-BitVec.getLsbD_eq_getElem, getPass, prowBits, ptBit, getGmma, putGmma]

@[simp] theorem getSmma_putSmma (o : SmmaOp) : getSmma (no_index (h ++ (op ++ putSmma o))) = o := by
  simp [-BitVec.getLsbD_eq_getElem, getPass, prowBits, ptBit, getBsrc, getSmma, putSmma]

@[simp] theorem getMqbind_putMqbind (o : MqbindOp) : getMqbind (no_index (h ++ (op ++ putMqbind o))) = o := by
  simp [-BitVec.getLsbD_eq_getElem, getMqbind, putMqbind]

@[simp] theorem getAclr_putAclr (o : AclrOp) : getAclr (no_index (h ++ (op ++ putAclr o))) = o := by
  simp [-BitVec.getLsbD_eq_getElem, getPass, prowBits, ptBit, getAclr, putAclr]

@[simp] theorem getD2p_putD2p (o : D2Pass) : getD2p (no_index (h ++ (op ++ putD2p o))) = o := by
  simp [-BitVec.getLsbD_eq_getElem, getPass, prowBits, ptBit, getD2p, putD2p]

@[simp] theorem getD2c_putD2c (o : D2Conv) : getD2c (no_index (h ++ (op ++ putD2c o))) = o := by
  simp [-BitVec.getLsbD_eq_getElem, getPass, prowBits, ptBit, getD2c, putD2c]

@[simp] theorem getVbin_putVbin (o : VBinOp) : getVbin (no_index (h ++ (op ++ putVbin o))) = o := by
  simp [-BitVec.getLsbD_eq_getElem, getPass, prowBits, ptBit, getVbin, putVbin]

@[simp] theorem getVfma_putVfma (o : VFmaOp) : getVfma (no_index (h ++ (op ++ putVfma o))) = o := by
  simp [-BitVec.getLsbD_eq_getElem, getPass, prowBits, ptBit, getVfma, putVfma]

@[simp] theorem getVbcast_putVbcast (o : VBcastOp) : getVbcast (no_index (h ++ (op ++ putVbcast o))) = o := by
  simp [-BitVec.getLsbD_eq_getElem, getPass, prowBits, ptBit, getVbcast, putVbcast]

@[simp] theorem getVepi_putVepi (o : VEpiOp) : getVepi (no_index (h ++ (op ++ putVepi o))) = o := by
  simp [-BitVec.getLsbD_eq_getElem, getPass, prowBits, ptBit, getVepi, putVepi]

@[simp] theorem getCfill_putCfill (o : CfillOp) : getCfill (no_index (h ++ (op ++ putCfill o))) = o := by
  simp [-BitVec.getLsbD_eq_getElem, getCfill, putCfill]

@[simp] theorem getCmcast_putCmcast (o : CmcastOp) : getCmcast (no_index (h ++ (op ++ putCmcast o))) = o := by
  simp [-BitVec.getLsbD_eq_getElem, getCmcast, putCmcast]

@[simp] theorem getCwbind_putCwbind (o : CwbindOp) : getCwbind (no_index (h ++ (op ++ putCwbind o))) = o := by
  simp [-BitVec.getLsbD_eq_getElem, getCwbind, putCwbind]

@[simp] theorem getCwadv_putCwadv (o : CwadvOp) : getCwadv (no_index (h ++ (op ++ putCwadv o))) = o := by
  simp [getCwadv, putCwadv]

@[simp] theorem getD1_putD1 (o : Desc) : getD1 (no_index (h ++ (op ++ putD1 o))) = o := by
  simp [getD1, putD1]

@[simp] theorem getCpfa_putCpfa (o : CpfaOp) : getCpfa (no_index (h ++ (op ++ putCpfa o))) = o := by
  simp [-BitVec.getLsbD_eq_getElem, getCpfa, putCpfa]

@[simp] theorem getCmeta_putCmeta (o : CmetaOp) : getCmeta (no_index (h ++ (op ++ putCmeta o))) = o := by
  simp [getCmeta, putCmeta]

@[simp] theorem getClsend_putClsend (o : ClOp) : getClsend (no_index (h ++ (op ++ putClsend o))) = o := by
  simp [getClsend, putClsend]

@[simp] theorem getClrecv_putClrecv (o : ClOp) : getClrecv (no_index (h ++ (op ++ putClrecv o))) = o := by
  simp [getClrecv, putClrecv]

@[simp] theorem getClred_putClred (o : ClredOp) : getClred (no_index (h ++ (op ++ putClred o))) = o := by
  simp [-BitVec.getLsbD_eq_getElem, getClred, putClred]


@[simp] theorem getGset_putGset (o : ATOp) (hd : o.d = 0) : getGset (no_index (h ++ (op ++ putGset o))) = o := by
  rw [getGset, putGset, getAt_putAt, ← hd]

@[simp] theorem getGclr_putGclr (o : ATOp) (hd : o.d = 0) (hs : o.s2 = 0) : getGclr (no_index (h ++ (op ++ putGclr o))) = o := by
  obtain ⟨d, base, s2, size, sg, off⟩ := o
  obtain rfl : d = 0 := hd
  obtain rfl : s2 = 0 := hs
  rw [getGclr, putGclr, getAt_putAt]

@[simp] theorem getFinc_putFinc (o : FincOp) (hs : o.rem = true ∨ o.s1 = 0) : getFinc (no_index (h ++ (op ++ putFinc o))) = o := by
  obtain ⟨vf, rem, s1, amount⟩ := o
  cases rem <;> simp_all [-BitVec.getLsbD_eq_getElem, getFinc, putFinc]

@[simp] theorem getPlog_putPlog (o : PlogOp) (hs : o.op ≠ 4 ∨ o.s2 = 0) : getPlog (no_index (h ++ (op ++ putPlog o))) = o := by
  obtain ⟨p, s1, s2, k⟩ := o
  by_cases hk : k = 4 <;> simp_all [getPlog, putPlog]

@[simp] theorem getRingpub_putRingpub (o : RingPubOp) : getRingpub (no_index (h ++ (op ++ putRingpub o))) = o := by
  obtain ⟨t, val⟩ := o
  cases val <;> simp [-BitVec.getLsbD_eq_getElem, getRingpub, putRingpub]

/-- The opcode byte of a word that is built from its header, its opcode and its operands. -/
@[simp] theorem opcode_append (p : BitVec 40) : field (no_index (h ++ (op ++ p))) 40 8 = op := by
  simp

end

/-! ## The header -/

@[simp] theorem getWait_enc (wt : Wait) (g : BitVec 8) (b : BitVec 48) : getWait ((wt.enc ++ g) ++ b) = wt := by
  cases wt <;> simp [getWait, Wait.enc]

@[simp] theorem getSig_enc (g : BitVec 8) (sg : Sig) (b : BitVec 48) : getSig ((g ++ sg.enc) ++ b) = sg := by
  cases sg <;> simp [getSig, Sig.enc]

@[simp] theorem getHdr_enc (h : Hdr) (b : BitVec 48) : getHdr (h.enc ++ b) = h := by
  simp [getHdr, Hdr.enc]

/-- The word of a stream word is its header before its body. -/
theorem encodeWord_eq {i : Instr} {t : Strm} {h : Hdr} {b : BitVec 48} (hh : i.hdr? = some (t, h)) (hb : encodeBody i = some b) :
    encodeWord i = h.enc ++ b := by
  simp [encodeWord, encode, hh, hb]

/-! ## Each stream's map

The opcode selects the arm of the map, and the operand form of that arm reads back what the encoder's form has put. The four
words that reserve a field by the value of another need the canonical form. -/

theorem decodeA_encodeWord (i : Instr) (h : Hdr) (hh : i.hdr? = some (.a, h)) (hc : i.canonical = true) :
    decodeA (encodeWord i) = some i := by
  cases i
  case gset h o =>
    cases hh
    simp only [Instr.canonical, beq_iff_eq] at hc
    rw [encodeWord_eq rfl rfl, decodeA, opcode_append, getHdr_enc]
    exact congrArg some (congrArg _ (getGset_putGset _ _ _ hc))
  case gclr h o =>
    cases hh
    simp only [Instr.canonical, beq_iff_eq, Bool.and_eq_true] at hc
    rw [encodeWord_eq rfl rfl, decodeA, opcode_append, getHdr_enc]
    exact congrArg some (congrArg _ (getGclr_putGclr _ _ _ hc.1 hc.2))
  case finc h o =>
    cases hh
    simp only [Instr.canonical, beq_iff_eq, Bool.or_eq_true] at hc
    rw [encodeWord_eq rfl rfl, decodeA, opcode_append, getHdr_enc]
    exact congrArg some (congrArg _ (getFinc_putFinc _ _ _ hc))
  all_goals cases hh
  all_goals
    rw [encodeWord_eq rfl rfl, decodeA, opcode_append, getHdr_enc]
    refine congrArg some ?_
    simp

theorem decodeX_encodeWord (i : Instr) (h : Hdr) (hh : i.hdr? = some (.x, h)) (hc : i.canonical = true) :
    decodeX (encodeWord i) = some i := by
  cases i
  case plog h o =>
    cases hh
    simp only [Instr.canonical, bne_iff_ne, beq_iff_eq, Bool.or_eq_true] at hc
    rw [encodeWord_eq rfl rfl, decodeX, opcode_append, getHdr_enc]
    exact congrArg some (congrArg _ (getPlog_putPlog _ _ _ hc))
  all_goals cases hh
  all_goals
    rw [encodeWord_eq rfl rfl, decodeX, opcode_append, getHdr_enc]
    refine congrArg some ?_
    simp

theorem decodeM_encodeWord (i : Instr) (h : Hdr) (hh : i.hdr? = some (.m, h)) :
    decodeM (encodeWord i) = some i := by
  cases i
  all_goals cases hh
  all_goals
    rw [encodeWord_eq rfl rfl, decodeM, opcode_append, getHdr_enc]
    refine congrArg some ?_
    simp

theorem decodeV_encodeWord (i : Instr) (h : Hdr) (hh : i.hdr? = some (.v, h)) :
    decodeV (encodeWord i) = some i := by
  cases i
  all_goals cases hh
  all_goals
    rw [encodeWord_eq rfl rfl, decodeV, opcode_append, getHdr_enc]
    refine congrArg some ?_
    simp

theorem decodeC_encodeWord (i : Instr) (h : Hdr) (hh : i.hdr? = some (.c, h)) :
    decodeC (encodeWord i) = some i := by
  cases i
  all_goals cases hh
  all_goals
    rw [encodeWord_eq rfl rfl, decodeC, opcode_append, getHdr_enc]
    refine congrArg some ?_
    simp

theorem decodeLoose_encodeWord (i : Instr) (t : Strm) (h : Hdr) (hh : i.hdr? = some (t, h)) (hc : i.canonical = true) :
    decodeLoose t (encodeWord i) = some i := by
  cases t with
  | a => exact decodeA_encodeWord i h hh hc
  | x => exact decodeX_encodeWord i h hh hc
  | m => exact decodeM_encodeWord i h hh
  | v => exact decodeV_encodeWord i h hh
  | c => exact decodeC_encodeWord i h hh

/-- Settles O49: the loose decoder reads the instruction back, and the mask of reserved bits is the word against itself. -/
theorem encodeThenDecode : Obligations.EncodeThenDecode := by
  intro i t h hh hw
  obtain ⟨hc, -, -⟩ := hw
  simp only [decodeWord, decodeLoose_encodeWord i t h hh hc, BitVec.xor_self]
  rfl

end Sys2Proof

/-! The header of the word at a stream's head, and words that wait or issue (spec 04 R57): the wait test of each unit, and what the
issue of a word takes from the flags. -/

namespace Sys2Proof.Machine

/-! ## The header of a decoded word -/

theorem hdr_of_decodeA {w : Word} {i : Instr} (h : decodeA w = some i) : i.hdr? = some (.a, getHdr w) := by
  unfold decodeA at h
  dsimp only at h
  split at h
  all_goals cases h
  all_goals rfl

theorem hdr_of_decodeX {w : Word} {i : Instr} (h : decodeX w = some i) : i.hdr? = some (.x, getHdr w) := by
  unfold decodeX at h
  dsimp only at h
  split at h
  all_goals cases h
  all_goals rfl

theorem hdr_of_decodeM {w : Word} {i : Instr} (h : decodeM w = some i) : i.hdr? = some (.m, getHdr w) := by
  unfold decodeM at h
  dsimp only at h
  split at h
  all_goals cases h
  all_goals rfl

theorem hdr_of_decodeV {w : Word} {i : Instr} (h : decodeV w = some i) : i.hdr? = some (.v, getHdr w) := by
  unfold decodeV at h
  dsimp only at h
  split at h
  all_goals cases h
  all_goals rfl

theorem hdr_of_decodeC {w : Word} {i : Instr} (h : decodeC w = some i) : i.hdr? = some (.c, getHdr w) := by
  unfold decodeC at h
  dsimp only at h
  split at h
  all_goals cases h
  all_goals rfl

/-- The stream and the header of the instruction a word holds are the stream's and the word's. -/
theorem hdr_of_decodeLoose {t : Strm} {w : Word} {i : Instr} (h : decodeLoose t w = some i) : i.hdr? = some (t, getHdr w) := by
  cases t with
  | a => exact hdr_of_decodeA h
  | x => exact hdr_of_decodeX h
  | m => exact hdr_of_decodeM h
  | v => exact hdr_of_decodeV h
  | c => exact hdr_of_decodeC h

theorem decodeWord_word {t : Strm} {w m : Word} {i : Instr} (h : decodeWord t w = .word i m) :
    i.hdr? = some (t, getHdr w) ∧ m = w ^^^ encodeWord i := by
  unfold decodeWord at h
  split at h
  · cases h
  · rename_i e
    cases h
    exact ⟨hdr_of_decodeLoose e, rfl⟩

/-- The header of the word an instruction encodes to is its own; an instruction with no word encodes to zero. -/
theorem encodeWord_header {i : Instr} {t : Strm} {h : Hdr} (hh : i.hdr? = some (t, h)) :
    encodeWord i = 0 ∨ ∃ b : BitVec 48, encodeWord i = h.enc ++ b := by
  cases hb : encodeBody i with
  | none => exact .inl (by simp [encodeWord, encode, hh, hb])
  | some b => exact .inr ⟨b, encodeWord_eq hh hb⟩

/-- Bits of mode 0 of the wait byte that are not zero are reserved bits that are not zero. -/
theorem reserved_of_wait {t : Strm} {w m : Word} {i : Instr} (hm : field w 62 2 = 0) (hb : field w 56 6 ≠ 0)
    (hd : decodeWord t w = .word i m) : m ≠ 0 := by
  obtain ⟨hh, rfl⟩ := decodeWord_word hd
  intro e
  have same : w = encodeWord i := BitVec.xor_eq_zero_iff.1 e
  have none : (getHdr w).wait = .none := by simp [getHdr, getWait, hm]
  refine hb ?_
  obtain e0 | ⟨b, e0⟩ := encodeWord_header hh
  · rw [same, e0]
    rfl
  · rw [same, e0]
    simp [Hdr.enc, none, Wait.enc]

theorem reserved_of_sig {t : Strm} {w m : Word} {i : Instr} (hm : field w 54 2 = 0) (hb : field w 48 6 ≠ 0)
    (hd : decodeWord t w = .word i m) : m ≠ 0 := by
  obtain ⟨hh, rfl⟩ := decodeWord_word hd
  intro e
  have same : w = encodeWord i := BitVec.xor_eq_zero_iff.1 e
  have none : (getHdr w).sig = .none := by simp [getHdr, getSig, hm]
  refine hb ?_
  obtain e0 | ⟨b, e0⟩ := encodeWord_header hh
  · rw [same, e0]
    rfl
  · rw [same, e0]
    simp [Hdr.enc, none, Sig.enc]

/-! ## Words that wait (R57) -/

theorem bitVec2_cases : ∀ g : BitVec 2, g = 0 ∨ g = 1 ∨ g = 2 ∨ g = 3 := by decide

/-- A wait byte's mode and field. -/
theorem getWait_eq (w : Word) : getWait w =
    if field w 62 2 = 0 then .none else if field w 62 2 = 1 then .one (field w 56 6)
    else if field w 62 2 = 2 then .thresh (field w 56 6) else .probe (field w 56 6) := by
  unfold getWait
  obtain e | e | e | e := bitVec2_cases (field w 62 2) <;> (rw [e]; rfl)

theorem getSig_eq (w : Word) : getSig w =
    if field w 54 2 = 0 then .none else if field w 54 2 = 1 then .one (field w 48 6)
    else if field w 54 2 = 2 then .incr (field w 48 6) else .issue (field w 48 6) := by
  unfold getSig
  obtain e | e | e | e := bitVec2_cases (field w 54 2) <;> (rw [e]; rfl)

/-- The physical flag of a virtual flag below NUM. -/
theorem flagIdx_of_lt {num : BitVec 7} {base v : BitVec 6} (h : v.toNat < num.toNat) :
    flagIdx num base v = some ((v.toNat + base.toNat) % 64) := if_pos h

/-- An A word whose wait condition does not hold has no effect, or that of a fault. -/
theorem runA_waits {i : Instr} {h : Hdr} {priv : Bool} {bad : Core → Word} {body : M Flow} {s : State}
    (hw : (s.core s.cur).wdone = false) (hn : (s.core s.cur).passWait h.wait = none) :
    (∃ f, runA i h priv bad body s = .next (s.aFault (encodeWord i) f)) ∨ runA i h priv bad body s = .next s := by
  unfold runA
  simp only [hw, hn, Bool.false_eq_true, if_false]
  split
  · exact .inl ⟨_, rfl⟩
  split
  · exact .inl ⟨_, rfl⟩
  split
  · exact .inr rfl
  · exact .inr rfl

theorem runX_waits {i : Instr} {h : Hdr} {bad : Core → Word} {body : M Flow} {s : State}
    (hn : (s.core s.cur).passWait h.wait = none) :
    (∃ f, runX i h bad body s = .next (s.xFault (encodeWord i) f)) ∨ runX i h bad body s = .next s := by
  unfold runX
  simp only [hn]
  split
  · exact .inl ⟨_, rfl⟩
  split
  · exact .inr rfl
  · exact .inr rfl

theorem runE_waits {i : Instr} {e : EWord} {s : State} (hn : (s.core s.cur).passWait e.hdr.wait = none) :
    (∃ w f, runE i e s = .next (s.headFault s.cur e.strm w f)) ∨ runE i e s = .next s := by
  unfold runE tryWord
  simp only [hn]
  split
  · exact .inl ⟨_, _, rfl⟩
  split
  · exact .inr rfl
  split
  · exact .inr rfl
  · exact .inr rfl

/-- `out` is what the run of an A word answers, for some effect of its own. -/
def RunsAccess (i : Instr) (h : Hdr) (s : State) (out : Out) : Prop := ∃ priv bad body, out = runA i h priv bad body s

theorem runsAccess_runA {i : Instr} {h : Hdr} {priv : Bool} {bad : Core → Word} {body : M Flow} {s : State} :
    RunsAccess i h s (runA i h priv bad body s) := ⟨priv, bad, body, rfl⟩

/-- Every word of the Access stream runs as one. -/
theorem exec_access {i : Instr} {h : Hdr} (s : State) (hh : i.hdr? = some (.a, h)) : RunsAccess i h s (exec i s) := by
  cases i
  all_goals cases hh
  all_goals
    dsimp only [exec, execAAdd, execAAddi, execASub, execAAnd, execAOr, execAXor, execShli, execShri, execLea, aBin, aUn, execBeq,
      execBne, execBlt, execBge, aBranch, execAadd, execAmax, execAmin, execAor, execAxchg, execAcas, aAtomic]
    exact runsAccess_runA

/-- The same of an X word. -/
def RunsExecute (i : Instr) (h : Hdr) (s : State) (out : Out) : Prop := ∃ bad body, out = runX i h bad body s

theorem runsExecute_runX {i : Instr} {h : Hdr} {bad : Core → Word} {body : M Flow} {s : State} :
    RunsExecute i h s (runX i h bad body s) := ⟨bad, body, rfl⟩

theorem exec_execute {i : Instr} {h : Hdr} (s : State) (hh : i.hdr? = some (.x, h)) : RunsExecute i h s (exec i s) := by
  cases i
  all_goals cases hh
  all_goals
    dsimp only [exec]
    exact runsExecute_runX

/-! ## Words that issue -/

theorem issueX_takes {s s1 : State} {i : Instr} {h : Hdr} (hi : s.issueX i h = some s1) :
    ∃ k1 k2, (s.core s.cur).passWait h.wait = some k1 ∧ k1.issueSig h.sig = .ok k2 ∧ s1 = s.setCore s.cur k2 := by
  unfold State.issueX at hi
  simp only at hi
  split at hi
  · cases hi
  split at hi
  · cases hi
  cases hk : (s.core s.cur).passWait h.wait with
  | none => simp [hk] at hi
  | some k1 =>
    cases hs : k1.issueSig h.sig with
    | error old => simp [hk, hs] at hi
    | ok k2 => exact ⟨k1, k2, rfl, hs, by simpa [hk, hs] using hi.symm⟩

/-- What an engine word takes at its issue beside its descriptors leaves the flags: SMMA its metadata (R301), ACLR its bank's mode
(R302). -/
theorem prep_flags {i : Instr} {e : EWord} (he : engineWord i = some e) {w w1 : Issued} {s s1 : State}
    (hp : e.prep w s = .ok w1 s1) : (s1.core s.cur).flags = (s.core s.cur).flags := by
  cases i
  case smma h o =>
    cases he
    cases hp
    simp [State.onCore, Core.popMeta]
  case aclr h o =>
    cases he
    cases hp
    simp [State.onCore]
  all_goals cases he
  all_goals cases hp
  all_goals rfl

theorem flags_reloadLfsr {k : Core} {t : Strm} : (k.reloadLfsr t).flags = k.flags := by
  unfold Core.reloadLfsr
  simp only
  split
  · exact flags_setEngine _ _ _
  · rfl

theorem flags_pmIssue {k : Core} {t : Strm} {op : Bool} : (k.pmIssue t op).flags = k.flags := by
  unfold Core.pmIssue
  split
  · rfl
  · cases t <;> rfl

theorem flags_noteIssue {k : Core} {t : Strm} {op : Bool} {n : Nat} : (k.noteIssue t op n).flags = k.flags := by
  unfold Core.noteIssue
  simp only
  split
  · exact flags_setEngine _ _ _
  · rfl

theorem issueE_takes {s s1 : State} {i : Instr} {e : EWord} {w : Issued} (he : engineWord i = some e)
    (hi : s.issueE i e = some (w, s1)) :
    ∃ k1 k2, (s.core s.cur).passWait e.hdr.wait = some k1 ∧ k1.issueSig e.hdr.sig = .ok k2 ∧
      (s1.core s.cur).flags = k2.flags := by
  unfold State.issueE State.issueWord at hi
  simp only at hi
  split at hi
  · cases hi
  split at hi
  · cases hi
  · rename_i k1 hk
    split at hi
    · cases hi
    split at hi
    · cases hi
    · rename_i k2 hs
      split at hi
      · rename_i w1 s2 hp
        cases hi
        refine ⟨k1, k2, hk, hs, ?_⟩
        have kept := prep_flags he hp
        rw [cur_setCore, core_setCore_same] at kept
        rw [kept, Core.takeHead, flags_setEngine, flags_noteIssue, flags_pmIssue, flags_reloadLfsr]
      · cases hi

/-- Settles O53: the four modes from the wait test, then a word of each unit that waits, and one that issues. -/
theorem waitByte : Obligations.WaitByte := by
  unfold Obligations.WaitByte
  refine ⟨getWait_eq, fun t w hm hb i m => reserved_of_wait hm hb, ?modes, ?access, ?execute, fun s i e => runE_waits,
    fun s s1 i h => issueA_takes, fun s s1 i h => issueX_takes, fun s s1 i e w => issueE_takes⟩
  case modes =>
    intro k v hv
    have named : flagIdx k.flagNum k.flagBase v = some ((v.toNat + k.flagBase.toNat) % 64) := flagIdx_of_lt hv
    refine ⟨rfl, ?_, ?_, ?_⟩
    · simp only [Core.passWait, waitFlag, named, waitTest]
      split <;> rfl
    · simp only [Core.passWait, waitFlag, named, waitTest]
      split <;> rfl
    · simp only [Core.passWait, waitFlag, named, waitTest]
      split <;> rfl
  case access =>
    intro s i h hh hw hn
    obtain ⟨priv, bad, body, e⟩ := exec_access s hh
    rw [e]
    exact runA_waits hw hn
  case execute =>
    intro s i h hh hn
    obtain ⟨bad, body, e⟩ := exec_execute s hh
    rw [e]
    exact runX_waits hn

end Sys2Proof.Machine

/-! The signal of a word (spec 04 R58, 24 R371): at issue, at the completion of an A word, an X word and an engine word. -/

namespace Sys2Proof.Machine

/-! ## Signals (R58, R371) -/

/-- What decides a signal of a core: its flags and the file that names them. -/
def Core.flagsAs (k q : Core) : Prop := q.flags = k.flags ∧ q.flagNum = k.flagNum ∧ q.flagBase = k.flagBase

theorem completionSig_flagsAs {k q : Core} (h : k.flagsAs q) (g : Sig) : q.completionSig g = k.completionSig g := by
  obtain ⟨hf, hn, hb⟩ := h
  unfold Core.completionSig
  rw [hf, hn, hb]

theorem addFlag_flagsAs {k q k' : Core} (h : k.flagsAs q) {v : BitVec 6} {n : Nat} (ha : k.addFlag v n = .ok k') :
    ∃ q', q.addFlag v n = .ok q' ∧ q'.flags = k'.flags := by
  obtain ⟨hf, hn, hb⟩ := h
  unfold Core.addFlag at *
  rw [hf, hn, hb]
  split at ha
  · cases ha
    exact ⟨q, rfl, hf⟩
  · split at ha
    · cases ha
      exact ⟨_, rfl, rfl⟩
    · cases ha

theorem core_undrain (s : State) (c d : CoreId) (t : Strm) : (s.undrain d t).core c = s.core c := by
  unfold State.undrain State.undrainAt
  split <;> rfl

/-- The stall wire changes no more of a core than its stall count. -/
theorem core_syncWire (s : State) (c d : CoreId) :
    (s.syncWire c).core d = { s.core d with scnt := ((s.syncWire c).core d).scnt, scntAt := ((s.syncWire c).core d).scntAt,
                                            scntRun := ((s.syncWire c).core d).scntRun } := by
  unfold State.syncWire State.core
  simp only
  rw [mapGet_map]
  · cases mapGet s.cores d.toNat with
    | none => rfl
    | some k =>
      simp only [Option.map_some, Option.getD_some]
      split <;> rfl
  · intro e
    split <;> rfl

/-- The end of a step leaves the flags. -/
theorem flags_endLate (s : State) (c : CoreId) : ((s.endLate c).core c).flags = (s.core c).flags := by
  unfold State.endLate
  simp only
  split
  · rw [core_syncWire, core_onCore_same, core_onCore_same]
  · rw [core_onCore_same]

/-- A record leaves every core but its monitors. -/
theorem core_also_appendFault (p : Nat) (r : Rec) (s : State) (c : CoreId) :
    (also (appendFault p r) s).core c = { s.core c with monitor := ((also (appendFault p r) s).core c).monitor } :=
  (keeps_also onlyMemory_order.toOrder (keeps_appendFault onlyMemory_order p r) s).2 c

theorem aComplete_none {s : State} {h : Hdr} {w : Word} {r : BitVec 13} (hc : (s.core s.cur).completionSig h.sig = none) :
    s.aComplete h w r = s := by
  unfold State.aComplete
  simp only [hc]

theorem aComplete_ok {s : State} {h : Hdr} {w : Word} {r : BitVec 13} {v : BitVec 6} {n : Nat} {k : Core}
    (hc : (s.core s.cur).completionSig h.sig = some (v, n)) (ha : (s.core s.cur).addFlag v n = .ok k) :
    s.aComplete h w r = s.setCore s.cur k := by
  unfold State.aComplete
  simp only [hc, ha]

/-- A refused completion-time addition of an A word enters the handler, and leaves the registers, rings and flags. -/
theorem aComplete_refused {s : State} {h : Hdr} {w : Word} {r : BitVec 13} {v : BitVec 6} {n : Nat} {old : Word}
    (hc : (s.core s.cur).completionSig h.sig = some (v, n)) (ha : (s.core s.cur).addFlag v n = .error old)
    (hp : (s.core s.cur).priv = false) :
    ∃ m, (s.aComplete h w r).core s.cur =
      ({ s.core s.cur with monitor := m } : Core).enterHandler 0x07 w 0 (excRetWord false (s.core s.cur).resumeWord) 16 := by
  unfold State.aComplete
  simp only [hc, ha, hp, Bool.false_eq_true, if_false]
  rw [core_onCore_same, core_also_appendFault]
  exact ⟨_, rfl⟩

theorem xSignal_none {s : State} {c : CoreId} {w : Issued} (hc : (s.core c).completionSig (getSig w.word) = none) :
    s.xSignal c w = some s := by
  unfold State.xSignal
  simp only [hc]

theorem xSignal_ok {s : State} {c : CoreId} {w : Issued} {v : BitVec 6} {n : Nat} {k : Core}
    (hc : (s.core c).completionSig (getSig w.word) = some (v, n)) (ha : (s.core c).addFlag v n = .ok k) :
    s.xSignal c w = some (s.setCore c k) := by
  unfold State.xSignal
  simp only [hc, ha]

theorem engSignal_none {s : State} {c : CoreId} {t : Strm} {w : Issued} (hc : (s.core c).completionSig (getSig w.word) = none) :
    s.engSignal c t w = (s, true) := by
  unfold State.engSignal
  simp only [hc]

theorem engSignal_ok {s : State} {c : CoreId} {t : Strm} {w : Issued} {v : BitVec 6} {n : Nat} {k : Core}
    (hc : (s.core c).completionSig (getSig w.word) = some (v, n)) (ha : (s.core c).addFlag v n = .ok k) :
    s.engSignal c t w = (s.setCore c k, true) := by
  unfold State.engSignal
  simp only [hc, ha]

/-- The core after a word of an engine has left it with all it had to do. -/
def Core.finishProg (k : Core) (t : Strm) (i : Nat) (w : Issued) : Core :=
  if t = .c && w.opcode == 0x1A then { k.dropProg t i with sched := none } else k.dropProg t i

theorem finishProg_flagsAs (k : Core) (t : Strm) (i : Nat) (w : Issued) : k.flagsAs (k.finishProg t i w) := by
  unfold Core.finishProg Core.dropProg
  split
  · cases t <;> exact ⟨rfl, rfl, rfl⟩
  · cases t <;> exact ⟨rfl, rfl, rfl⟩

/-- The state in which an engine word that has done all of its completion makes its signal. -/
def State.finishWord (s : State) (c : CoreId) (t : Strm) (i : Nat) (w : Issued) : State :=
  (s.undrain c t).onCore c fun k => k.finishProg t i w

theorem core_finishWord (s : State) (c : CoreId) (t : Strm) (i : Nat) (w : Issued) :
    (s.finishWord c t i w).core c = (s.core c).finishProg t i w := by
  rw [State.finishWord, core_onCore_same, core_undrain]

/-- A step of an engine word all of whose effects are performed completes it. -/
theorem exec_completes {s : State} {c : CoreId} {t : Strm} {i : Nat} {w : Issued} (ht : t = .m ∨ t = .v ∨ t = .c)
    (hp : vget s.power.cluster (clusterOf c) ≠ 2) (hw : ((s.core c).engine t).prog[i]? = some w) (hd : w.todo = false) :
    exec (.wordCompletion c t i) s = completeWord fillSlot c t i { s with cur := c } := by
  have started : exec (.wordCompletion c t i) s = execWordCompletion c t i s := rfl
  have there : ((({ s with cur := c } : State).core c).engine t).prog[i]? = some w := hw
  rw [started]
  unfold execWordCompletion
  rw [if_neg hp]
  obtain rfl | rfl | rfl := ht
  · simp only [there, hd, Bool.false_eq_true, if_false]
  · simp only [there, hd, Bool.false_eq_true, if_false]
  · simp only [there, hd, Bool.false_eq_true, if_false]

theorem completeWord_done {s s2 : State} {c : CoreId} {t : Strm} {i : Nat} {w : Issued}
    (hw : ((s.core c).engine t).prog[i]? = some w) (hm : (s.core c).mayComplete t i w = true)
    (hr : runDeferred fillSlot c w.deferred w s = .ok ([], []) s2) :
    completeWord fillSlot c t i s =
      match (s2.finishWord c t i w).engSignal c t w with
      | (u, true) => .next (u.endLate c)
      | (u, false) => if ((s.core c).engine t).halt.isSome then .next s else .next u := by
  unfold completeWord
  simp only [hw, hm, hr, Bool.not_true, Bool.false_eq_true, if_false]
  rfl

theorem todo_of_mayComplete {k : Core} {t : Strm} {i : Nat} {w : Issued} (h : k.mayComplete t i w = true) : w.todo = false := by
  unfold Core.mayComplete at h
  simp only [Bool.and_eq_true] at h
  obtain ⟨⟨⟨h, -⟩, -⟩, -⟩ := h
  simpa using h

/-- A word that completes leaves the flags that its completion-time signal gives. -/
theorem completion_flags {s s2 : State} {c : CoreId} {t : Strm} {i : Nat} {w : Issued} (ht : t = .m ∨ t = .v ∨ t = .c)
    (hp : vget s.power.cluster (clusterOf c) ≠ 2) (hw : ((s.core c).engine t).prog[i]? = some w)
    (hm : (s.core c).mayComplete t i w = true) (hr : runDeferred fillSlot c w.deferred w { s with cur := c } = .ok ([], []) s2) :
    ∃ q, exec (.wordCompletion c t i) s = .next q ∧
      ((s2.core c).completionSig (getSig w.word) = none → (q.core c).flags = (s2.core c).flags) ∧
      (∀ v n k', (s2.core c).completionSig (getSig w.word) = some (v, n) → (s2.core c).addFlag v n = .ok k' →
        (q.core c).flags = k'.flags) := by
  have as := finishProg_flagsAs (s2.core c) t i w
  have sig : ((s2.finishWord c t i w).core c).completionSig (getSig w.word) = (s2.core c).completionSig (getSig w.word) := by
    rw [core_finishWord, completionSig_flagsAs as]
  rw [exec_completes ht hp hw (todo_of_mayComplete hm), completeWord_done (s := { s with cur := c }) hw hm hr]
  cases hc : (s2.core c).completionSig (getSig w.word) with
  | none =>
    rw [engSignal_none (sig.trans hc)]
    refine ⟨_, rfl, fun _ => ?_, fun _ _ _ e => nomatch e⟩
    rw [flags_endLate, core_finishWord]
    exact as.1
  | some x =>
    obtain ⟨v, n⟩ := x
    cases ha : (s2.core c).addFlag v n with
    | ok k' =>
      obtain ⟨q', hq, hf⟩ := addFlag_flagsAs as ha
      rw [engSignal_ok (sig.trans hc) (by rw [core_finishWord]; exact hq)]
      refine ⟨_, rfl, (by nofun), ?_⟩
      intro v' n' k'' e ha'
      cases e
      cases ha.symm.trans ha'
      rw [flags_endLate, core_setCore_same, hf]
    | error old =>
      have wont : ∀ v' n' k'', some (v, n) = some (v', n') → (s2.core c).addFlag v' n' = .ok k'' → False := by
        intro v' n' k'' e ha'
        cases e
        cases ha.symm.trans ha'
      split
      · exact ⟨_, rfl, (by nofun), fun v' n' k'' e ha' => (wont v' n' k'' e ha').elim⟩
      · split
        · exact ⟨_, rfl, (by nofun), fun v' n' k'' e ha' => (wont v' n' k'' e ha').elim⟩
        · exact ⟨_, rfl, (by nofun), fun v' n' k'' e ha' => (wont v' n' k'' e ha').elim⟩

/-! ## Completion of an X word -/

theorem landX_flagsAs (k : Core) (i : Nat) (r : XDest × Word) : k.flagsAs (k.landX i r) := by
  unfold Core.landX
  split
  · exact ⟨rfl, rfl, rfl⟩
  · exact ⟨rfl, rfl, rfl⟩
  · dsimp only
    split <;> exact ⟨rfl, rfl, rfl⟩

/-- The core after the results of an X word have landed and the word has left. -/
def Core.landed (k : Core) (i : Nat) (w : Issued) : Core :=
  let k1 := w.res.foldl (fun k r => k.landX i r) k
  { k1 with xProg := k1.xProg.eraseIdx i }

theorem landed_flagsAs (k : Core) (i : Nat) (w : Issued) : k.flagsAs (k.landed i w) := by
  have all : ∀ (l : List (XDest × Word)) (q : Core), k.flagsAs q → k.flagsAs (l.foldl (fun k r => k.landX i r) q) := by
    intro l
    induction l with
    | nil => exact fun _ h => h
    | cons r l ih =>
      intro q ⟨hf, hn, hb⟩
      obtain ⟨gf, gn, gb⟩ := landX_flagsAs q i r
      exact ih _ ⟨gf.trans hf, gn.trans hn, gb.trans hb⟩
  exact all w.res k ⟨rfl, rfl, rfl⟩

/-- An X word in progress, with no earlier word of its destinations, completes: its results land, then its signal is made. -/
theorem exec_completesX {s : State} {c : CoreId} {i : Nat} {w : Issued} (hp : vget s.power.cluster (clusterOf c) ≠ 2)
    (hw : (s.core c).xProg[i]? = some w)
    (hf : ∀ x ∈ (s.core c).xProg.take i, ∀ r ∈ x.res, r.1 ≠ .xa → ∀ e ∈ w.res, e.1 ≠ r.1) :
    exec (.wordCompletion c .x i) s =
      .next (((({ s with cur := c } : State).setCore c ((s.core c).landed i w)).xSignal c w).getD { s with cur := c }) := by
  have started : exec (.wordCompletion c .x i) s = execWordCompletion c .x i s := rfl
  have free : ((s.core c).xProg.take i).any (fun x => x.res.any fun r => r.1 != .xa && w.res.any fun e => e.1 == r.1) = false := by
    simp only [List.any_eq_false, Bool.and_eq_true, bne_iff_ne, List.any_eq_true, beq_iff_eq, not_and, not_exists]
    exact fun x hx r hr hxa e he => hf x hx r hr hxa e he
  have there : (({ s with cur := c } : State).core c) = s.core c := rfl
  rw [started]
  unfold execWordCompletion
  rw [if_neg hp]
  simp only [completeX, there, hw, free, Bool.false_eq_true, if_false]
  rfl

/-- Settles O54: the parts of the signal byte, then each unit's word that completes. -/
theorem signalByte : Obligations.SignalByte := by
  unfold Obligations.SignalByte
  refine ⟨getSig_eq, fun t w hm hb i m => reserved_of_sig hm hb, by decide, by decide, by decide, by decide, by decide, by decide,
    ?amounts, fun s h w r => aComplete_none, ?late, fun s h w r v n k => aComplete_ok, ?engine, ?execute, ?refused⟩
  case amounts =>
    intro k v n hv
    have named : flagIdx k.flagNum k.flagBase v = some ((v.toNat + k.flagBase.toNat) % 64) := flagIdx_of_lt hv
    intro i f
    refine ⟨rfl, ?_, ?_, ?_, rfl, rfl, rfl, rfl, ?_⟩
    · simp only [Core.completionSig, sigFlag, named, sigCompletion, Option.map_some]
    · simp only [Core.completionSig, sigFlag, named, sigCompletion, Option.map_some, f, i]
    · simp only [Core.completionSig, sigFlag, named, sigCompletion, Option.map_none]
    · simp only [Core.addFlag, named, Flag.add, f, i]
      split <;> simp_all
  case late =>
    intro s w r
    refine ⟨fun hc => ?_, fun v n k hc ha => ?_, ?_⟩
    · rw [State.xComplete]
      simp only [Bool.false_eq_true, if_false]
      rw [xSignal_none (w := (s.core s.cur).issuedX w r) hc]
      rfl
    · rw [State.xComplete]
      simp only [Bool.false_eq_true, if_false]
      rw [xSignal_ok (w := (s.core s.cur).issuedX w r) hc ha]
      rfl
    · rw [State.xComplete]
      simp only [if_true, List.map_const', State.onCore]
  case engine =>
    intro s s2 c t i w ht hp hw hm hr k
    exact completion_flags ht hp hw hm hr
  case execute =>
    intro s c i w v n k' hp hw hf hc ha
    have as := landed_flagsAs (s.core c) i w
    obtain ⟨q', hq, e⟩ := addFlag_flagsAs as ha
    rw [exec_completesX hp hw hf, xSignal_ok (w := w) (v := v) (n := n) (k := q')]
    · refine ⟨_, rfl, ?_⟩
      rw [Option.getD_some, core_setCore_same, e]
    · rw [core_setCore_same, completionSig_flagsAs as, hc]
    · rw [core_setCore_same, hq]
  case refused =>
    intro s h w r v n old hc ha hp
    obtain ⟨m, e⟩ := aComplete_refused (w := w) (r := r) hc ha hp
    intro q k
    have e : q = _ := e
    rw [e]
    exact ⟨rfl, rfl, rfl, rfl, rfl, rfl, rfl, rfl⟩

end Sys2Proof.Machine

/-! A step is the turn it takes (spec 04 R59, R62, R65): the time before it, then what its agent does. -/

namespace Sys2Proof.Machine

/-- A turn before which no test of a stalled stream comes is taken once its time has passed. -/
theorem takeTurn_mayPass {t : Turn} {s s1 : State} (hm : s.mayPass t) (h : passTime (s.cyclesBefore t) s = .ok () s1) :
    takeTurn t s = act t.actor { s1 with lineOps := t.lines } := by
  obtain hz | ⟨hd, ho | hn⟩ := hm
  · exact takeTurn_ok t s s1 (.inl hz) h
  · unfold takeTurn
    rw [ho] at h ⊢
    simp only [hd, ne_eq, not_true_eq_false, decide_false, Bool.false_and, Bool.false_eq_true, if_false]
    exact afterTime_ok _ _ _ _ h
  · exact takeTurn_ok t s s1 (.inr ⟨hd, hn⟩) h

/-- A stalled stream whose wait test passes by then takes its turn first. -/
theorem takeTurn_dueTest {t : Turn} {s : State} {c : CoreId} {u : Strm} (hn : s.cyclesBefore t ≠ 0) (hd : s.dueTest = some (c, u)) :
    takeTurn t s = takeStream c u { s with agenda := { t with cycles := s.cyclesBefore t } :: s.agenda, lineOps := t.lines } := by
  unfold takeTurn
  obtain ⟨m, hm⟩ := Nat.exists_eq_succ_of_ne_zero hn
  simp only [hm, hd]

/-- One cycle passes where a test passes in the next. -/
theorem takeTurn_nextTest {t : Turn} {s s1 : State} (hn : 2 ≤ s.cyclesBefore t) (hd : s.dueTest = none) (ht : s.nextTest = true)
    (h : passTime 1 s = .ok () s1) :
    takeTurn t s = .next { s1 with agenda := { t with cycles := s.cyclesBefore t - 1 } :: s1.agenda } := by
  unfold takeTurn
  obtain ⟨m, hm⟩ := Nat.exists_eq_add_of_le' hn
  simp only [hm, hd, ht, ne_eq, Nat.add_eq_zero_iff, Nat.one_ne_zero, and_false, not_false_eq_true, decide_true, Bool.and_self, if_true]
  exact afterTime_ok _ _ _ _ h

/-- A stream that may issue comes to the word at its head. -/
theorem turnOf_head {c : CoreId} {t : Strm} {s : State} {w : Word} (hdead : (s.core c).dead = false)
    (hpow : vget s.power.cluster (clusterOf c) = 0) (ha : t = .a → s.budgetDue (s.core c) = false ∧ (s.core c).preemptDue = false)
    (hlate : (s.core c).late = true ∨ s.streamLate (s.core c) t = false)
    (hstall : (s.core c).stall = false ∨ (t = .a ∧ (s.core c).priv = true)) (hhalt : (s.core c).haltedAt t = false)
    (hw : (s.core c).headOf t = some w) :
    turnOf c t s = match (s.core c).headLost t with
      | some off => .out (.next (s.decodeStop t w { cls := 0x30, laddr := 0, d0 := 1, d1 := w64 (off / 4096 * 256 + off % 4096 / 64) }))
      | none => match decodeWord t w with
        | .illegal => .run (.illegalWord t w)
        | .word i m => if m = 0 then .run i else .out (.next (s.reservedFault t i w m)) := by
  have late : (s.streamLate (s.core c) t && !(s.core c).late) = false := by
    obtain h | h := hlate <;> simp [h]
  have stall : ((s.core c).stall && !(t = .a && (s.core c).priv)) = false := by
    obtain h | ⟨h, hp⟩ := hstall
    · simp [h]
    · simp [h, hp]
  have budget : ¬ (t = .a && s.budgetDue (s.core c)) = true := by
    simp only [Bool.and_eq_true, decide_eq_true_eq, not_and]
    exact fun h => by rw [(ha h).1]; nofun
  have preempt : ¬ (t = .a && (s.core c).preemptDue) = true := by
    simp only [Bool.and_eq_true, decide_eq_true_eq, not_and]
    exact fun h => by rw [(ha h).2]; nofun
  unfold turnOf
  simp only [hdead, hpow, bne_self_eq_false, Bool.or_self, Bool.false_eq_true, if_false, budget, preempt, late, stall, hhalt,
    hw] <;> rfl

/-- A completion before which no other unit's turn goes runs. -/
theorem act_completion {c : CoreId} {t : Strm} {k : Nat} (s : State)
    (h : s.ahead c t none (s.faults (exec (.wordCompletion c t k) s)) = none) :
    act (.event (.wordCompletion c t k)) s =
      if streamOnly (.wordCompletion c t k) then .next s
      else exec (.wordCompletion c t k) (s.reach (s.turnPlace (.event (.wordCompletion c t k)))) := by
  have still : ¬ (s.ahead c t none (s.faults (exec (.wordCompletion c t k) s))).isSome = true := by simp [h]
  have event : streamOnly (.wordCompletion c t k) = false := rfl
  unfold act
  simp only [if_neg still, event, Bool.false_eq_true, if_false]

/-- Settles O47: a turn is taken through its time, and a stream's turn through the head of the stream. -/
theorem stepRunsTheWord : Obligations.StepRunsTheWord := by
  unfold Obligations.StepRunsTheWord
  refine ⟨?word, ?note, ?event, ?due, ?next, fun s u us h => nextTurn_cons s u us h⟩
  case word =>
    intro s s0 s1 u c t w hu hact hm hp s2 hrank s3 s4 k hdead hpow ha hlate hstall hhalt hw
    have turn : step s = s3.noteStall c t (streamTurn c t s3) := by
      rw [step_takeTurn, hu, takeTurn_mayPass hm hp, hact, act_stream c t _ hrank, takeStream, ← hact]
    have head := turnOf_head (s := s4) (t := t) hdead hpow ha hlate hstall hhalt hw
    rw [turn, streamTurn, head]
    refine ⟨fun hl => ?_, fun off hl => ?_⟩
    · rw [hl]
      cases decodeWord t w with
      | illegal => rfl
      | word i m =>
        by_cases clean : m = 0
        · simp only [if_pos clean]
          rfl
        · simp only [if_neg clean]
    · rw [hl]
  case note =>
    intro s c t u
    exact ⟨_, rfl⟩
  case event =>
    intro s s0 s1 u e hu hact hm hp s2 hc
    rw [step_takeTurn, hu, takeTurn_mayPass hm hp, hact]
    by_cases hcomp : ∃ c t k, e = .wordCompletion c t k
    · obtain ⟨c, t, k, rfl⟩ := hcomp
      have free := hc c t k rfl
      exact act_completion s2 free
    · exact act_event e s2 fun c t k he => hcomp ⟨c, t, k, he⟩
  case due =>
    intro s s0 u c t hu hn hd
    rw [step_takeTurn, hu]
    exact takeTurn_dueTest hn hd
  case next =>
    intro s s0 s1 u hu hn hd ht hp
    rw [step_takeTurn, hu]
    exact takeTurn_nextTest hn hd ht hp

end Sys2Proof.Machine

/-! The events of the engines (spec 04 R58, R59, R65, R71, 15 R272, 18 R331, R332): words in progress that complete or go on, the fetch of
a word, and the issue of a schedule entry. -/

namespace Sys2Proof.Machine

/-! ## Engine words -/

/-- Every word of an engine runs as the entry of its instruction says. -/
theorem exec_engine {i : Instr} {e : EWord} (he : engineWord i = some e) (s : State) : exec i s = runE i e s := by
  cases i
  all_goals cases he
  all_goals rfl

/-- What an engine word takes at its issue beside its descriptors leaves the number of line operations of the step. -/
theorem prep_lineOps {i : Instr} {e : EWord} (he : engineWord i = some e) {w w1 : Issued} {s s1 : State}
    (hp : e.prep w s = .ok w1 s1) : s1.lineOps = s.lineOps := by
  cases i
  all_goals cases he
  all_goals cases hp
  all_goals rfl

/-- The effects of a word start from a state of the same step. -/
theorem issueE_lineOps {s s1 : State} {i : Instr} {e : EWord} {w : Issued} (he : engineWord i = some e)
    (hi : s.issueE i e = some (w, s1)) : s1.lineOps = s.lineOps := by
  unfold State.issueE State.issueWord at hi
  simp only at hi
  split at hi
  · cases hi
  split at hi
  · cases hi
  · split at hi
    · cases hi
    split at hi
    · cases hi
    · split at hi
      · rename_i hp
        cases hi
        exact (prep_lineOps he hp).trans rfl
      · cases hi

/-- A word whose step makes no line operation and whose effects may come later stands in progress with all of them to come. -/
theorem opsNow_later {s : State} {e : EWord} {c : CoreId} {ds : List Dsc} (hl : s.lineOps = some 0) (h : e.later s c ds ≠ .no) :
    s.opsNow e c ds = some 0 := by
  unfold State.opsNow
  rw [hl]
  cases hd : e.later s c ds with
  | no => exact absurd hd h
  | whole => rfl
  | lines => rfl

theorem issuesTo_later {s s1 : State} {i : Instr} {e : EWord} {w : Issued} (he : engineWord i = some e)
    (hi : s.issueE i e = some (w, s1)) (hl : s.lineOps = some 0) (h : e.later s1 s.cur w.dscs ≠ .no) :
    IssuesTo i s e.strm { w with todo := true, env := some (w.env.getD (s1.envOf s.cur w.dscs)) } s1 := by
  unfold IssuesTo
  rw [exec_engine he]
  exact runE_later i e s s1 w hi (opsNow_later ((issueE_lineOps he hi).trans hl) h)

/-- The state in which a completed word signals, as the statements write it. -/
theorem finishWord_eq (s : State) (c : CoreId) (t : Strm) (i : Nat) (w : Issued) :
    s.finishWord c t i w = (s.undrain c t).onCore c fun k =>
      if t = .c ∧ w.opcode = 0x1A then { k.dropProg t i with sched := none } else k.dropProg t i := by
  unfold State.finishWord Core.finishProg
  simp only [Bool.and_eq_true, decide_eq_true_eq, beq_iff_eq]

/-- A step of an engine word with effects to come goes on with them. -/
theorem exec_goesOn {s : State} {c : CoreId} {t : Strm} {i : Nat} {w : Issued} {e : EWord} (ht : t = .m ∨ t = .v ∨ t = .c)
    (hp : vget s.power.cluster (clusterOf c) ≠ 2) (hw : ((s.core c).engine t).prog[i]? = some w) (hd : w.todo = true)
    (he : w.entryOf t = some e) :
    exec (.wordCompletion c t i) s = goOn e (Issued.bodyOf e c) c i { s with cur := c } := by
  have started : exec (.wordCompletion c t i) s = execWordCompletion c t i s := rfl
  have there : ((({ s with cur := c } : State).core c).engine t).prog[i]? = some w := hw
  rw [started]
  unfold execWordCompletion
  rw [if_neg hp]
  obtain rfl | rfl | rfl := ht
  · simp only [there, hd, if_true, he]
  · simp only [there, hd, if_true, he]
  · simp only [there, hd, if_true, he]

/-- The entry of a word of a stream is an entry of that stream. -/
theorem strm_of_entryOf {w : Issued} {t : Strm} {e : EWord} (he : w.entryOf t = some e) : e.strm = t := by
  unfold Issued.entryOf at he
  split at he
  · rename_i i m hd
    obtain ⟨hh, -⟩ := decodeWord_word hd
    cases i
    all_goals cases he
    all_goals cases hh
    all_goals rfl
  · cases he

theorem goOn_ok {e : EWord} {body : Issued → M Issued} {c : CoreId} {i : Nat} {s s' : State} {w w' : Issued}
    (hw : ((s.core c).engine e.strm).prog[i]? = some w) (hn : s.opsNow e c w.dscs ≠ some 0)
    (hr : runBody c e.strm body w (s.opsNow e c w.dscs) s = .ok w' s') :
    goOn e body c i s = .next (((s'.undrain c e.strm).onCore c fun k =>
      k.setEngine e.strm { k.engine e.strm with prog := listSet (k.engine e.strm).prog i w' }).endLate c) := by
  unfold goOn
  simp only [hw, if_neg hn, hr]

/-! ## X words -/

theorem setCore_setCore (s : State) (c : CoreId) (k q : Core) : (s.setCore c k).setCore c q = s.setCore c q := by
  unfold State.setCore
  simp only [mapPut_mapPut]

/-- As many places of a list hold open entries as it has open entries. -/
theorem open_places (l : List (Option Word)) (m : List (Option Word)) :
    ((List.range l.length).filter fun j => ((l ++ m).getD j (some 0)).isNone).length = (l.filter Option.isNone).length := by
  have read : (List.range l.length).map (fun j => (l ++ m).getD j (some 0)) = l := by
    refine List.ext_getElem (by simp) fun j h1 h2 => ?_
    simp only [List.getElem_map, List.getElem_range, List.getD_eq_getElem?_getD, List.getElem?_append_left h2,
      List.getElem?_eq_getElem h2, Option.getD_some]
  calc _ = (((List.range l.length).map (fun j => (l ++ m).getD j (some 0))).filter Option.isNone).length := by
        rw [List.filter_map, List.length_map]; rfl
    _ = _ := by rw [read]

/-- The place of the open entry of a queue that comes after `pre`, among its open entries. -/
theorem open_entry (pre post : List (Option Word)) :
    ((List.range (pre ++ none :: post).length).filter fun j => ((pre ++ none :: post).getD j (some 0)).isNone)[(pre.filter
      Option.isNone).length]? = some pre.length := by
  have here : ((pre ++ none :: post).getD pre.length (some 0)).isNone = true := by simp
  have split : List.range (pre ++ none :: post).length =
      List.range pre.length ++ pre.length :: (List.range post.length).map (pre.length + 1 + ·) := by
    rw [List.length_append, List.range_add, List.length_cons, List.range_succ_eq_map]
    simp [Nat.add_assoc, Nat.add_comm 1]
  rw [split, List.filter_append, List.filter_cons, if_pos here, List.getElem?_append_right (by rw [open_places]), open_places]
  simp
/-- The results of an X word, one destination at a time. -/
theorem landX_xa {k : Core} {i : Nat} {v : Word} {pre post : List (Option Word)} (hx : k.xa = pre ++ none :: post)
    (hn : (pre.filter Option.isNone).length = ((k.xProg.take i).flatMap fun w => w.res.filter fun e => e.1 == .xa).length) :
    k.landX i (.xa, v) = { k with xa := pre ++ some v :: post } := by
  have place := open_entry pre post
  rw [hn, List.length_flatMap, ← hx] at place
  unfold Core.landX
  simp only [place]
  rw [hx]
  simp

/-- An engine that has room takes its next published word. -/
theorem engineFetch_takes {s : State} {c : CoreId} {t : Strm} (ht : t = .m ∨ t = .v ∨ t = .c) (hd : (s.core c).dead = false)
    (hp : vget s.power.cluster (clusterOf c) = 0) (hs : ((s.core c).ring t).started = true)
    (hf : ((s.core c).ring t).fetch ≠ ((s.core c).ring t).pub) (hb : ((s.core c).engine t).buf.length < 16) :
    let k := s.core c
    let r := k.ring t
    let g := k.engine t
    let at0 := 720896 + 8 * (r.wordIdx r.fetch.toNat).toNat
    exec (.engineFetch c t) s = .next (s.setCore c ((k.setRing t { r with fetch := r.fetch + 1 }).setEngine t
      { g with buf := g.buf ++ [(r.fetch, wordOf (bytesAt k.spad at0 8))]
               bad := if k.spadBad at0 8 then r.fetch :: g.bad else g.bad.filter (· != r.fetch) })) := by
  have room : ((s.core c).dead || !s.powered c || !((s.core c).ring t).started ||
      ((s.core c).ring t).fetch == ((s.core c).ring t).pub || decide (16 ≤ ((s.core c).engine t).buf.length)) = false := by
    simp [hd, State.powered, hp, hs, hf, hb]
  have started : exec (.engineFetch c t) s = execEngineFetch c t s := rfl
  rw [started]
  unfold execEngineFetch
  obtain rfl | rfl | rfl := ht
  · simp only [room, Bool.false_eq_true, if_false]
    rfl
  · simp only [room, Bool.false_eq_true, if_false]
    rfl
  · simp only [room, Bool.false_eq_true, if_false]
    rfl

end Sys2Proof.Machine

/-! Rows of operands on chip (spec 04 R73, 18 R324, R325): where no check fails over them, they are read and written without a fault,
in the formats that stood as the word issued. -/

namespace Sys2Proof.Machine

/-! ## Actions that land -/

/-- From a state that meets `P` an action ends well, in a state that meets `P` and with a value that meets `Q`. -/
def Lands {α : Type} (P : State → Prop) (act : M α) (Q : α → Prop) : Prop := ∀ s, P s → ∃ a t, act s = .ok a t ∧ P t ∧ Q a

section
variable {α β : Type} {P : State → Prop}

theorem lands_pure {a : α} {Q : α → Prop} (h : Q a) : Lands P (pure a : M α) Q := fun s hs => ⟨a, s, rfl, hs, h⟩

theorem lands_getState : Lands P getState P := fun s hs => ⟨s, s, rfl, hs, hs⟩

theorem lands_modState {f : State → State} (h : ∀ s, P s → P (f s)) : Lands P (modState f) fun _ => True :=
  fun s hs => ⟨(), f s, rfl, h s hs, trivial⟩

theorem lands_bind {x : M α} {f : α → M β} {Q : α → Prop} {R : β → Prop} (hx : Lands P x Q) (hf : ∀ a, Q a → Lands P (f a) R) :
    Lands P (x >>= f) R := by
  intro s hs
  obtain ⟨a, t, e, ht, ha⟩ := hx s hs
  obtain ⟨b, u, e', hu, hb⟩ := hf a ha t ht
  exact ⟨b, u, (bind_ok _ _ _ _ _ e).trans e', hu, hb⟩

/-- A fault that does not come is not caught. -/
theorem lands_attempt {act : M α} {Q : α → Prop} (h : Lands P act Q) : Lands P (attempt act) fun r => ∃ a, r = .ok a ∧ Q a := by
  intro s hs
  obtain ⟨a, t, e, ht, ha⟩ := h s hs
  refine ⟨.ok a, t, ?_, ht, a, rfl, ha⟩
  unfold attempt
  rw [e]

theorem lands_any {act : M α} {Q : α → Prop} (h : Lands P act Q) : Lands P act fun _ => True := by
  intro s hs
  obtain ⟨a, t, e, ht, -⟩ := h s hs
  exact ⟨a, t, e, ht, trivial⟩

theorem lands_mapM {γ : Type} {f : γ → M β} (l : List γ) (h : ∀ x ∈ l, Lands P (f x) fun _ => True) :
    Lands P (l.mapM f) fun _ => True := by
  induction l with
  | nil => exact lands_pure trivial
  | cons x l ih =>
    rw [List.mapM_cons]
    exact lands_bind (h x List.mem_cons_self) fun _ _ =>
      lands_bind (ih fun y hy => h y (List.mem_cons_of_mem x hy)) fun _ _ => lands_pure trivial

/-- One step of `copyRows`. -/
def copyStep (f : Nat → Perf → M Perf) (p : Perf) (i : Nat) : M Perf := fun s =>
  match (do newRow; f i p : M Perf) s with
  | .error (.pause q) s' => .error (.pause (some { p with lines := (q.map (·.lines)).getD p.lines })) s'
  | r => r

theorem copyRows_eq (n : Nat) (f : Nat → Perf → M Perf) (p : Perf) : copyRows n f p = (List.range n).foldlM (copyStep f) p := rfl

theorem lands_copyStep {f : Nat → Perf → M Perf} {i : Nat} {p : Perf} (hn : Lands P newRow fun _ => True)
    (h : Lands P (f i p) fun _ => True) : Lands P (copyStep f p i) fun _ => True := by
  intro s hs
  obtain ⟨a, t, e, ht, -⟩ := lands_bind hn (fun _ _ => h) s hs
  refine ⟨a, t, ?_, ht, trivial⟩
  unfold copyStep
  rw [e]

/-- Rows moved one after another. -/
theorem lands_copyRows {n : Nat} {f : Nat → Perf → M Perf} (hn : Lands P newRow fun _ => True)
    (h : ∀ i < n, ∀ p, Lands P (f i p) fun _ => True) (p : Perf) : Lands P (copyRows n f p) fun _ => True := by
  rw [copyRows_eq]
  have each : ∀ i ∈ List.range n, ∀ p, Lands P (f i p) fun _ => True := fun i hi => h i (List.mem_range.1 hi)
  revert each
  generalize List.range n = l
  intro each
  induction l generalizing p with
  | nil => exact lands_pure trivial
  | cons i l ih =>
    rw [List.foldlM_cons]
    exact lands_bind (lands_copyStep hn (each i List.mem_cons_self p)) fun q _ =>
      ih q fun j hj => each j (List.mem_cons_of_mem i hj)

end

/-! ## What the rows of an operand on chip rest on -/

/-- A core with the formats and bobbins of another, and with no failing check where that has none. -/
structure Core.chipAs (k q : Core) : Prop where
  fmtSlot : q.fmtSlot = k.fmtSlot
  bankFmt : q.bankFmt = k.bankFmt
  accMode : q.accMode = k.accMode
  bobbins : q.bobbins = k.bobbins
  clean : k.clean = true → q.clean = true

theorem Core.chipAs.trans {k q r : Core} (h : k.chipAs q) (g : q.chipAs r) : k.chipAs r where
  fmtSlot := g.fmtSlot.trans h.fmtSlot
  bankFmt := g.bankFmt.trans h.bankFmt
  accMode := g.accMode.trans h.accMode
  bobbins := g.bobbins.trans h.bobbins
  clean e := g.clean (h.clean e)

/-- `t` is a state that an engine word on chip, issued in `s`, may come to. -/
structure State.onchip (s t : State) : Prop where
  cur : t.cur = s.cur
  clean : ∀ q, (t.core q).clean = true
  same : ∀ q, (s.core q).chipAs (t.core q)

theorem onchip_onMem {s t : State} (h : s.onchip t) (f : Mem → Mem) : s.onchip (t.onMem f) := ⟨h.cur, h.clean, h.same⟩

theorem onchip_onCore {s t : State} (h : s.onchip t) (c : CoreId) {f : Core → Core} (hf : ∀ k : Core, k.chipAs (f k)) :
    s.onchip (t.onCore c f) := by
  refine ⟨h.cur, fun q => ?_, fun q => ?_⟩
  · by_cases e : q = c
    · rw [e, core_onCore_same]
      exact (hf _).clean (h.clean c)
    · rw [core_onCore_other _ _ _ _ e]
      exact h.clean q
  · by_cases e : q = c
    · rw [e, core_onCore_same]
      exact (h.same c).trans (hf _)
    · rw [core_onCore_other _ _ _ _ e]
      exact h.same q

theorem chipAs_setEngine (k : Core) (t : Strm) (g : Engine) : k.chipAs (k.setEngine t g) := by
  cases t <;> exact ⟨rfl, rfl, rfl, rfl, id⟩

theorem chipAs_pm (k : Core) (src n : Nat) : k.chipAs (k.pm src n) := ⟨rfl, rfl, rfl, rfl, id⟩

theorem chipAs_putSpadRow (k : Core) (bank row : Nat) (r : Row) : k.chipAs (k.putSpadRow bank row r) := by
  refine ⟨rfl, rfl, rfl, rfl, fun h => ?_⟩
  simp only [Core.clean, Bool.and_eq_true, List.isEmpty_iff] at h ⊢
  obtain ⟨hs, ha⟩ := h
  exact ⟨by simp [Core.putSpadRow, Core.spadMend, hs], ha⟩

theorem chipAs_setAcc (k : Core) (row col : Nat) (v : BitVec 32) : k.chipAs (k.setAcc row col v) := by
  refine ⟨rfl, rfl, rfl, rfl, fun h => ?_⟩
  simp only [Core.clean, Bool.and_eq_true, List.isEmpty_iff] at h ⊢
  obtain ⟨hs, ha⟩ := h
  exact ⟨hs, by simp [Core.setAcc, ha]⟩

theorem chipAs_setAccRow (k : Core) (row : Nat) (vs : List (BitVec 32)) : k.chipAs (k.setAccRow row vs) := by
  unfold Core.setAccRow
  generalize vs.zip (List.range vs.length) = l
  induction l generalizing k with
  | nil => exact ⟨rfl, rfl, rfl, rfl, id⟩
  | cons e l ih => exact (chipAs_setAcc k row e.2 e.1).trans (ih _)

theorem placeOf_onchip {s t : State} (h : s.onchip t) (c : CoreId) (d : Dsc) (slot j : Nat) :
    placeOf (t.core c) d slot j = placeOf (s.core c) d slot j := by
  unfold placeOf
  rw [(h.same c).bobbins]

/-- A row's format stays as it was when the word issued. -/
theorem rowEnc_onchip {s t : State} (h : s.onchip t) (c : CoreId) (d : Dsc) (slot j : Nat) :
    t.rowEnc c d slot j = s.rowEnc c d slot j := by
  unfold State.rowEnc
  simp only [placeOf_onchip h, (h.same c).fmtSlot, (h.same _).bankFmt, (h.same _).accMode]

/-! ## Rows read and written -/

/-- An operand on chip. -/
def onChip (d : Dsc) : Prop := inAcc d = true ∨ inSpad d = true

theorem lands_seeWin {s : State} (p : Nat) (c : CoreId) : Lands s.onchip (seeWin p c) fun _ => True :=
  lands_modState fun _ h => onchip_onMem h _

theorem lands_newRow {s : State} : Lands s.onchip newRow fun _ => True := fun _ h => ⟨_, _, rfl, onchip_onMem h _, trivial⟩

theorem lands_markWin {s : State} (p : Nat) (c : CoreId) : Lands s.onchip (markWin p c) fun _ => True :=
  lands_modState fun _ h => onchip_onCore h c fun _ => ⟨rfl, rfl, rfl, rfl, id⟩

theorem lands_setLfsr {s : State} (c : CoreId) (t : Strm) (q : BitVec 32) : Lands s.onchip (setLfsr c t q) fun _ => True :=
  lands_modState fun _ h => onchip_onCore h c fun _ => chipAs_setEngine _ _ _

theorem lands_engLfsr {s : State} (c : CoreId) (t : Strm) : Lands s.onchip (engLfsr c t) fun _ => True :=
  lands_bind lands_getState fun _ _ => lands_pure trivial

theorem lands_engMode {s : State} (c : CoreId) (r : BitVec 3) : Lands s.onchip (engMode c r) fun _ => True :=
  lands_bind lands_getState fun _ _ => lands_pure trivial

theorem lands_parkedNow {s : State} (c : CoreId) (p : Pass) (i : Nat) : Lands s.onchip (parkedNow c p i) fun _ => True :=
  lands_bind lands_getState fun _ _ => lands_pure trivial

theorem lands_readAccRow {s : State} (c : CoreId) (row cols : Nat) : Lands s.onchip (readAccRow c row cols) fun _ => True := by
  intro t h
  have clean := h.clean c
  simp only [Core.clean, Bool.and_eq_true, List.isEmpty_iff] at clean
  have good : (t.core c).accBad row cols = false := by simp [Core.accBad, clean.2]
  refine ⟨(t.core c).accRow row cols, t, ?_, h, trivial⟩
  unfold readAccRow
  simp only [good, Bool.false_eq_true, if_false]

theorem lands_readSpadRow {s : State} (c : CoreId) (bank row : Nat) (f : Fmt) (cols : Nat) :
    Lands s.onchip (readSpadRow c bank row f cols) fun _ => True := by
  intro t h
  have clean := h.clean c
  simp only [Core.clean, Bool.and_eq_true, List.isEmpty_iff] at clean
  have good : (t.core c).spadBad (bank * 4096 + row * 64) (f.elem.rowBytes cols) = false := by simp [Core.spadBad, clean.1]
  refine ⟨{ bytes := (t.core c).bankBytes bank row (f.elem.rowBytes cols), scales := (t.core c).bankScales bank row (f.scaleBytes cols) }, t, ?_, h, trivial⟩
  unfold readSpadRow
  simp only [good, Bool.false_eq_true, if_false]

/-- A row of an operand on chip is read, in the format it had at issue. -/
theorem lands_readRow {s : State} {c : CoreId} {d : Dsc} {slot j : Nat} (b first : Nat) (hd : onChip d)
    (hf : (Fmt.parse (s.rowEnc c d slot j)).isSome = true) :
    Lands s.onchip (readRow c d slot j b first) fun r => r.2 = s.rowEnc c d slot j := by
  obtain ⟨f, hf⟩ := Option.isSome_iff_exists.1 hf
  refine lands_bind lands_getState fun t ht => ?_
  rw [rowEnc_onchip ht]
  refine lands_bind lands_getState fun u hu => ?_
  simp only [hf]
  by_cases ha : inAcc d = true
  · rw [if_pos ha]
    exact lands_bind (lands_readAccRow _ _ _) fun _ _ => lands_bind (lands_seeWin _ _) fun _ _ => lands_pure rfl
  · rw [if_neg ha, if_pos (hd.resolve_left ha)]
    exact lands_bind (lands_readSpadRow _ _ _ _ _) fun _ _ => lands_bind (lands_seeWin _ _) fun _ _ => lands_pure rfl

/-- A row of an operand on chip is written. -/
theorem lands_writeRowTo {s : State} {c : CoreId} {d : Dsc} (slot j b first : Nat) (f : Fmt) (r : Row) (p : Perf) (hd : onChip d) :
    Lands s.onchip (writeRowTo c d slot j b first f r p) fun _ => True := by
  have here : (inAcc d || inSpad d) = true := Bool.or_eq_true_iff.2 hd
  refine lands_bind lands_getState fun t _ => ?_
  simp only [here, if_true]
  have marked : ∀ x : M Perf, Lands s.onchip x (fun _ => True) →
      Lands s.onchip (markWin (panelOf c) (opCore c d) >>= fun _ => x) fun _ => True :=
    fun x hx => lands_bind (lands_markWin _ _) fun _ _ => hx
  split
  · exact lands_pure trivial
  by_cases ha : inAcc d = true
  · simp only [ha, if_true]
    have put := lands_bind (lands_modState fun _ h => onchip_onCore h (opCore c d) fun k => chipAs_setAccRow k (accPlace d j)
      (tabulate (dCols d) fun i => BitVec.ofNat 32 (natOfBytes (r.bytes.drop (4 * i) |>.take 4)))) fun _ _ =>
        lands_pure (P := s.onchip) (a := p.step (f.memBytes (dCols d))) (Q := fun _ => True) trivial
    split
    · exact put
    · exact marked _ put
  · simp only [ha, Bool.false_eq_true, if_false]
    have put := lands_bind (lands_modState fun _ h => onchip_onCore h (opCore c d) fun k => chipAs_putSpadRow k
      (placeOf (t.core c) d slot j).1 (placeOf (t.core c) d slot j).2 r) fun _ _ =>
        lands_pure (P := s.onchip) (a := p.step (f.memBytes (dCols d))) (Q := fun _ => True) trivial
    split
    · exact put
    · exact marked _ put

theorem lands_copyPut {s : State} {c : CoreId} (w : Issued) (y : RowAt) (b first : Nat) (f : Fmt) (r : Row) (p : Perf)
    (hd : onChip y.d) : Lands s.onchip (copyPut c w y b first f r p) fun _ => True := by
  refine lands_bind (lands_attempt (lands_writeRowTo _ _ _ _ _ _ _ hd)) fun x hx => ?_
  obtain ⟨q, rfl, -⟩ := hx
  exact lands_bind (lands_modState fun _ h => onchip_onCore h _ fun _ => chipAs_pm _ _ _) fun _ _ => lands_pure trivial

/-- A row is moved from an operand on chip to another. -/
theorem lands_copyRow {s : State} {c : CoreId} (w : Issued) (mode : Mode) (sat : Bool) {x y : RowAt} (b first : Nat) {parked : M Bool}
    (p : Perf) (hk : Lands s.onchip parked fun _ => True) (hx : onChip x.d) (hy : onChip y.d)
    (fx : (Fmt.parse (s.rowEnc c x.d x.slot x.row)).isSome = true) (fy : (Fmt.parse (s.rowEnc c y.d y.slot y.row)).isSome = true) :
    Lands s.onchip (copyRow c w mode sat x y b first parked p) fun _ => True := by
  obtain ⟨g, hg⟩ := Option.isSome_iff_exists.1 fx
  obtain ⟨f, hf⟩ := Option.isSome_iff_exists.1 fy
  refine lands_bind lands_getState fun t ht => ?_
  rw [rowEnc_onchip ht]
  simp only [hf]
  split
  · exact lands_pure trivial
  refine lands_bind (lands_attempt (lands_readRow b first hx fx)) fun r hr => ?_
  obtain ⟨⟨r, es⟩, rfl, he⟩ := hr
  refine lands_bind hk fun _ _ => ?_
  split
  · exact lands_pure trivial
  obtain rfl : es = _ := he
  simp only [hg]
  refine lands_bind (lands_engLfsr _ _) fun _ _ => ?_
  refine lands_bind (lands_copyPut _ _ _ _ _ _ _ hy) fun q _ => ?_
  split
  · exact lands_bind (lands_setLfsr _ _ _) fun _ _ => lands_pure trivial
  · exact lands_pure trivial

end Sys2Proof.Machine

/-! The issue of a schedule entry (spec 18 R331, R332): the checks of its issue give each row of an operand on chip a format, so that a copy, a
fill or a metadata read on chip performs all of its effects. -/

namespace Sys2Proof.Machine

/-! ## Masks that are zero -/

theorem foldl_or_eq_zero {α : Type} {f : α → Word} (l : List α) {m : Word} (h : l.foldl (fun m x => m ||| f x) m = 0) :
    m = 0 ∧ ∀ x ∈ l, f x = 0 := by
  induction l generalizing m with
  | nil => exact ⟨h, nofun⟩
  | cons x l ih =>
    obtain ⟨hm, hl⟩ := ih h
    obtain ⟨h0, hx⟩ := BitVec.or_eq_zero_iff.1 hm
    exact ⟨h0, List.forall_mem_cons.2 ⟨hx, hl⟩⟩

/-- The fields of the words that name a descriptor. -/
theorem false_of_opMask {at0 : Nat} (ha : at0 = 36 ∨ at0 = 32) {b : Bool} (h : opMask at0 b = 0) : b = false := by
  cases b with
  | false => rfl
  | true => obtain rfl | rfl := ha <;> exact absurd h (by decide)

/-! ## The checks of an issue -/

theorem decodeFault_none {s : State} {c : CoreId} {bad : Word} {e : EWord} {ds : List Dsc} (h : decodeFault s c bad e ds = none) :
    (∀ x ∈ e.ops.zip ds, opMask x.1.at0 (!s.dscOk c x.2) = 0) ∧ e.check false s c ds = 0 := by
  unfold decodeFault at h
  simp only at h
  split at h
  · cases h
  split at h
  · cases h
  · rename_i hm
    obtain ⟨hm, hc⟩ := BitVec.or_eq_zero_iff.1 (Decidable.not_not.1 hm)
    obtain ⟨-, hd⟩ := BitVec.or_eq_zero_iff.1 hm
    exact ⟨(foldl_or_eq_zero _ hd).2, hc⟩

theorem issueFault_none {s : State} {c : CoreId} {e : EWord} {ds : List Dsc} (h : issueFault s c e ds = none) :
    (∀ x ∈ e.ops.zip ds, opMask x.1.at0 (!s.bankFmtsOk c x.2) = 0) ∧ e.check true s c ds = 0 := by
  unfold issueFault at h
  simp only at h
  split at h
  · cases h
  · rename_i hm
    obtain ⟨hd, hc⟩ := BitVec.or_eq_zero_iff.1 (Decidable.not_not.1 hm)
    exact ⟨(foldl_or_eq_zero _ hd).2, hc⟩

theorem chipAs_of_issuesTo {k q : Core} (h : k.issuesTo q) : k.chipAs q := by
  unfold Core.issuesTo at h
  rw [h]
  exact ⟨rfl, rfl, rfl, rfl, id⟩

/-- A schedule entry that issues and takes nothing more at issue: its checks pass, and the state its effects start from. -/
theorem issueEntry_cases {s s1 : State} {x bad : Word} {e : EWord} {ds : List Dsc} {n : Nat} {w : Issued} (hp : e.prep = pure)
    (hi : s.issueWord x bad e ds (some n) = some (w, s1)) :
    decodeFault s s.cur bad e ds = none ∧ issueFault s s.cur e ds = none ∧ w.fresh ∧ w.dscs = ds ∧ w.word = x ∧ w.entry = some n ∧
      ∃ k, s1 = s.setCore s.cur k ∧ (s.core s.cur).chipAs k := by
  unfold State.issueWord at hi
  simp only [hp] at hi
  split at hi
  · cases hi
  · rename_i hg
    simp only [Bool.or_eq_true, not_or, Bool.not_eq_true, Option.isSome_eq_false_iff, Option.isNone_iff_eq_none] at hg
    obtain ⟨⟨⟨hd, _⟩, _⟩, _⟩ := hg
    split at hi
    · cases hi
    · rename_i k1 hk
      split at hi
      · cases hi
      · rename_i hb
        simp only [Bool.or_eq_true, not_or, Bool.not_eq_true, Option.isSome_eq_false_iff, Option.isNone_iff_eq_none] at hb
        obtain ⟨_, hf⟩ := hb
        split at hi
        · cases hi
        · rename_i k2 hs
          rw [pure_run] at hi
          simp only [Option.some.injEq, Prod.mk.injEq] at hi
          obtain ⟨rfl, rfl⟩ := hi
          refine ⟨hd, hf, issuedWord_fresh _ _ _ _ _ _ _, rfl, rfl, rfl, _, rfl, ?_⟩
          exact (chipAs_of_issuesTo (issuesTo_noteIssue (issuesTo_pmIssue (issuesTo_reloadLfsr (issuesTo_flags hk hs))))).trans
            ⟨rfl, rfl, rfl, rfl, id⟩

/-! ## Formats -/

/-- The kinds of an operand in scratchpad rows. -/
theorem kinds_of_inSpad {d : Dsc} (h : inSpad d = true) : dKind d = 1 ∨ dKind d = 2 ∨ (dKind d = 7 ∧ dWindow d = 0) := by
  simpa [inSpad, or_assoc] using h

/-- An operand in scratchpad rows that names a format slot names one that holds a format. -/
theorem slot_parses {s : State} {c : CoreId} {d : Dsc} (hs : inSpad d = true) (hk : s.dscOk c d = true) (hf : dFmt d ≠ 0) :
    (Fmt.parse (vget (s.core c).fmtSlot (dFmt d))).isSome = true := by
  have named : (dFmt d == 0) = false := beq_false_of_ne hf
  unfold State.dscOk at hk
  cases hp : Fmt.parse (vget (s.core c).fmtSlot (dFmt d)) with
  | some f => rfl
  | none =>
    simp only [hp, named, Bool.or_false, Bool.and_false] at hk
    obtain h | h | ⟨h, hw⟩ := kinds_of_inSpad hs
    · simp only [h, Bool.false_eq_true] at hk
    · simp only [h, Bool.false_eq_true] at hk
    · simp only [h, hw, Bool.and_false, Bool.false_eq_true] at hk

/-- An element row of an operand in scratchpad rows lies in one of the banks that the operand spans. -/
theorem placeOf_spans {k : Core} {d : Dsc} (hs : inSpad d = true) (slot j : Nat) (hj : j < dRows d) :
    (placeOf k d slot j).1 ∈ spanBanks k d := by
  unfold placeOf spanBanks
  obtain h | h | ⟨h, hw⟩ := kinds_of_inSpad hs
  · simp only [h, if_true, tabulate, List.mem_map, List.mem_range]
    exact ⟨j % dSpan d, Nat.mod_lt _ (Nat.succ_pos _), rfl⟩
  · simp only [h, OfNat.ofNat_ne_one, if_false, if_true, tabulate, List.mem_map, List.mem_range]
    exact ⟨_, Nat.mod_lt _ (Nat.succ_pos _), rfl⟩
  · simp only [h, hw, tabulate]
    exact List.mem_eraseDups.2 (List.mem_map.2 ⟨j, List.mem_range.2 hj, by simp only [placeOf, h]; rfl⟩)

/-- Every element row of an operand on chip has a format. -/
theorem rowEnc_parses {s : State} {c : CoreId} {d : Dsc} (hd : onChip d) (hk : s.dscOk c d = true) (hb : s.bankFmtsOk c d = true)
    (slot j : Nat) (hj : j < dRows d) : (Fmt.parse (s.rowEnc c d slot j)).isSome = true := by
  unfold State.rowEnc
  by_cases ha : inAcc d = true
  · simp only [ha, if_true]
    split <;> rfl
  have hs : inSpad d = true := hd.resolve_left ha
  simp only [ha, hs, Bool.true_and, Bool.false_eq_true, if_false]
  by_cases hf : dFmt d = 0
  · have spans := placeOf_spans (k := s.core c) hs slot j hj
    simp only [State.bankFmtsOk, hs, hf, beq_self_eq_true, Bool.and_self, if_true, Bool.and_eq_true, List.all_eq_true,
      List.mem_map] at hb
    have fits := hb.1 _ ⟨_, spans, rfl⟩
    simp only [hf, beq_self_eq_true, if_true]
    revert fits
    cases Fmt.parse (vget (s.core (opCore c d)).bankFmt (placeOf (s.core c) d slot j).1) with
    | none => exact nofun
    | some f => exact fun _ => rfl
  · rw [if_neg (by simpa using hf)]
    exact slot_parses hs hk hf

/-! ## The effects of a word on chip -/

/-- What a word's effects leave of it. -/
def Issued.sameWord (w w' : Issued) : Prop := w'.word = w.word ∧ w'.entry = w.entry

/-- An operand on chip declares no page. -/
theorem lands_declareMarks {s : State} (c : CoreId) {d : Dsc} (hd : onChip d) :
    Lands s.onchip (declareMarks c d) fun _ => True := by
  have kind : (dKind d = 4 && dDeclare d) = false := by
    have : dKind d ≠ 4 := by
      intro h
      obtain h' | h' := hd <;> simp [inAcc, inSpad, h] at h'
    simp [this]
  unfold declareMarks
  simp only [kind, Bool.false_eq_true, if_false]
  exact lands_pure trivial

theorem lands_copyBody {s : State} {o : D2Conv} {w : Issued} (h0 : onChip (w.dsc 0)) (h1 : onChip (w.dsc 1))
    (f0 : ∀ j < dRows (w.dsc 0), (Fmt.parse (s.rowEnc s.cur (w.dsc 0) (w.slot 0) j)).isSome = true)
    (f1 : ∀ j < dRows (w.dsc 0), (Fmt.parse (s.rowEnc s.cur (w.dsc 1) (w.slot 1) j)).isSome = true) :
    Lands s.onchip (copyBody o w) w.sameWord := by
  refine lands_bind lands_getState fun t ht => ?_
  dsimp only
  rw [ht.cur]
  refine lands_bind (lands_engMode _ _) fun mode _ => lands_bind (lands_declareMarks _ h0) fun _ _ => ?_
  refine lands_bind (Q := fun _ => True) (lands_copyRows lands_newRow (fun i hi p => ?_) _) fun _ _ => lands_pure ⟨rfl, rfl⟩
  refine lands_bind lands_getState fun u _ => ?_
  split
  · exact lands_pure trivial
  · exact lands_copyRow _ _ _ _ _ _ (lands_parkedNow _ _ _) h1 h0 (f1 i hi) (f0 i hi)

theorem lands_cfillBody {s : State} {h : Hdr} {o : CfillOp} {w : Issued} (h0 : onChip (w.dsc 0))
    (f0 : ∀ j < dRows (w.dsc 0), (Fmt.parse (s.rowEnc s.cur (w.dsc 0) (w.slot 0) j)).isSome = true) :
    Lands s.onchip ((cfillWord h o).body w) w.sameWord := by
  refine lands_bind lands_getState fun t ht => ?_
  dsimp only
  rw [ht.cur]
  refine lands_bind (lands_engMode _ _) fun mode _ => lands_bind (lands_declareMarks _ h0) fun _ _ => ?_
  refine lands_bind (Q := fun _ => True) (lands_copyRows lands_newRow (fun i hi p => ?_) _) fun _ _ => lands_pure ⟨rfl, rfl⟩
  refine lands_bind lands_getState fun u hu => ?_
  obtain ⟨f, hf⟩ := Option.isSome_iff_exists.1 (f0 i hi)
  rw [rowEnc_onchip hu]
  simp only [hf]
  split
  · exact lands_pure trivial
  · exact lands_bind (lands_engLfsr _ _) fun _ _ => lands_bind (lands_copyPut _ _ _ _ _ _ _ h0) fun _ _ =>
      lands_bind (lands_setLfsr _ _ _) fun _ _ => lands_pure trivial

theorem lands_cmetaBody {s : State} {h : Hdr} {o : CmetaOp} {w : Issued} (h0 : onChip (w.dsc 0))
    (f0 : ∀ j < dRows (w.dsc 0), (Fmt.parse (s.rowEnc s.cur (w.dsc 0) (w.slot 0) j)).isSome = true) :
    Lands s.onchip ((cmetaWord h o).body w) w.sameWord := by
  refine lands_bind lands_getState fun t ht => ?_
  dsimp only
  rw [ht.cur]
  refine lands_bind (lands_mapM _ fun j hj => lands_any (lands_readRow 0 0 h0 (f0 j (List.mem_range.1 hj)))) fun rows _ => ?_
  refine lands_bind (Q := fun _ => True) ?_ fun _ _ => lands_pure ⟨rfl, rfl⟩
  exact fun u hu => ⟨(), _, rfl, onchip_onCore hu _ fun _ => chipAs_pm _ _ _, trivial⟩

/-! ## The issue of an entry -/

/-- A core that a state lists, or one at reset, has no failing check. -/
theorem clean_of_allClean {s : State} (h : s.allClean = true) (q : CoreId) : (s.core q).clean = true := by
  have found : ∀ (m : SMap Core) (n : Nat), (m.all fun e => e.2.clean) = true → ((mapGet m n).getD Core.reset).clean = true := by
    intro m n hm
    induction m with
    | nil => rfl
    | cons e m ih =>
      obtain ⟨i, k⟩ := e
      simp only [List.all_cons, Bool.and_eq_true] at hm
      unfold mapGet
      split
      · exact hm.1
      · split
        · rfl
        · exact ih hm.2
  unfold State.allClean at h
  simp only [Bool.and_eq_true] at h
  obtain ⟨⟨cores, -⟩, -⟩ := h
  exact found _ _ cores

/-- The state a word's effects start from, on chip. -/
theorem onchip_setCore {s : State} (h : s.allClean = true) {k : Core} (hk : (s.core s.cur).chipAs k) : s.onchip (s.setCore s.cur k) := by
  have start : s.onchip s := ⟨rfl, clean_of_allClean h, fun _ => ⟨rfl, rfl, rfl, rfl, id⟩⟩
  refine ⟨rfl, fun q => ?_, fun q => ?_⟩
  · by_cases e : q = s.cur
    · rw [e, core_setCore_same]
      exact hk.clean (start.clean _)
    · rw [core_setCore_other _ _ _ _ e]
      exact start.clean q
  · by_cases e : q = s.cur
    · rw [e, core_setCore_same]
      exact hk
    · rw [core_setCore_other _ _ _ _ e]
      exact start.same q

/-- A word whose effects are performed whole and land stands among the words in progress. -/
theorem perform_lands {e : EWord} {c : CoreId} {w : Issued} {s back : State} {P : State → Prop} (hs : P s) (hl : s.lineOps = none)
    (hf : w.fresh) (hb : Lands P (e.body { w with todo := true }) ({ w with todo := true } : Issued).sameWord) :
    ∃ (w' : Issued) (t : State), perform e c w s back = .next (t.endE c e.strm w') ∧ w.sameWord w' := by
  obtain ⟨w', t, hr, -, hw⟩ := hb s hs
  obtain ⟨_, ho, _, hown, henv⟩ := hf
  have all : s.opsNow e c w.dscs = Option.none := by
    unfold State.opsNow
    rw [hl]
  have whole := runBody_whole c e.strm e.body { w with todo := true } w' s t ho henv hown hr
  refine ⟨{ w' with todo := false, ops := [], lines := [], own := none }, t, ?_, hw⟩
  unfold perform
  simp only [all, Option.isSome_none, Bool.false_eq_true, if_false, reduceCtorEq, henv] at whole ⊢
  rw [whole]
  rfl

/-- An entry that holds a word of its own, with no reserved bit set, issues like the word at the head of the stream. -/
theorem issueEntry_eq {s : State} {n : Nat} {x : Entry} {i : Instr} {e : EWord} (h0 : field x.word 56 8 = 0) (hc : x.clean = true)
    (hd : decodeWord .c x.word = .word i 0) (he : entryWord i = some e) :
    issueEntry n x s = tryWord x.word (badOperands i) e (e.ops.map fun o => x.dscs.getD ((36 - o.at0) / 4) 0) (some n) s := by
  have low : (field x.word 0 56 : BitVec 56).setWidth 64 = x.word := by
    have : x.word.toNat < 2 ^ 56 := by
      have h : x.word.toNat / 2 ^ 56 % 2 ^ 8 = 0 := by
        simpa [field, Nat.shiftRight_eq_div_pow] using congrArg BitVec.toNat h0
      have := x.word.isLt
      omega
    apply BitVec.eq_of_toNat_eq
    simp [field]
    omega
  have resv : ((0 : Word) ||| ((field x.word 56 8 : BitVec 8) ++ 0#56) == 0) = true := by rw [h0]; rfl
  unfold issueEntry
  simp only [low, hd, he, hc, resv, Bool.and_self, if_true]

/-- A read of memory for an engine leaves the current core, and the number of line operations of the step. -/
theorem keeps_windowRead {R : State → State → Prop} (hR : MemOrder R) (owner : Tag) (la n : Nat) : Keeps R (windowRead owner la n) := by
  refine keeps_bind hR.toOrder (keeps_getState hR.toOrder) fun s => ?_
  dsimp only
  split
  · exact keeps_raise hR.toOrder _ _ _ _
  split
  · exact keeps_raise hR.toOrder _ _ _ _
  split
  · exact keeps_bind hR.toOrder (fun s => hR.used s _) fun _ => keeps_pure hR.toOrder _
  split
  · exact keeps_raise hR.toOrder _ _ _ _
  · exact keeps_pure hR.toOrder _

theorem keeps_engRead {R : State → State → Prop} (hR : MemOrder R) (c : CoreId) (owner : Tag) (la n : Nat) (va : Word) :
    Keeps R (engRead c owner la n va) := by
  unfold engRead
  refine keeps_ite ?_ (keeps_opRead hR _ _ _ _ _)
  exact keeps_bind hR.toOrder (keeps_windowRead hR _ _ _) fun b =>
    keeps_bind hR.toOrder (keeps_catchUp hR _ fun s => vcMax (s.vc (panelOf (winCore la))) (s.core (winCore la)).winClk) fun _ => keeps_pure hR.toOrder _

theorem keeps_check4 {R : State → State → Prop} (hR : MemOrder R) (c : CoreId) (la n need : Nat) : Keeps R (check4 c la n need) := by
  refine keeps_bind hR.toOrder (keeps_getState hR.toOrder) fun s => ?_
  split
  · exact keeps_raise hR.toOrder _ _ _ _
  split
  · exact keeps_raise hR.toOrder _ _ _ _
  split
  · exact keeps_raise hR.toOrder _ _ _ _
  · exact keeps_pure hR.toOrder _

end Sys2Proof.Machine

/-! The statement about the events of the engines, put together. -/

namespace Sys2Proof.Machine

/-! ## A schedule entry on chip -/

/-- The operands of an entry that passes the checks keep to the limits and formats of R73 and R86. -/
theorem operands_ok {s : State} {c : CoreId} {bad : Word} {e : EWord} {ds : List Dsc} (hd : decodeFault s c bad e ds = none)
    (hf : issueFault s c e ds = none) {x : EOp × Dsc} (hx : x ∈ e.ops.zip ds) (ha : x.1.at0 = 36 ∨ x.1.at0 = 32) :
    s.dscOk c x.2 = true ∧ s.bankFmtsOk c x.2 = true := by
  have h1 := false_of_opMask ha ((decodeFault_none hd).1 x hx)
  have h2 := false_of_opMask ha ((issueFault_none hf).1 x hx)
  exact ⟨by simpa using h1, by simpa using h2⟩

/-- The operands of a copy have equally many rows. -/
theorem rows_of_copyCheck {srcs dsts : List Nat} {p : Pass} {decl issue : Bool} {s : State} {c : CoreId} {ds : List Dsc}
    (h : copyCheck srcs dsts p decl issue s c ds = 0) : dRows (ds.getD 0 0) = dRows (ds.getD 1 0) := by
  unfold copyCheck at h
  obtain ⟨h, -⟩ := BitVec.or_eq_zero_iff.1 h
  obtain ⟨h, -⟩ := BitVec.or_eq_zero_iff.1 h
  obtain ⟨h, -⟩ := BitVec.or_eq_zero_iff.1 h
  obtain ⟨h, -⟩ := BitVec.or_eq_zero_iff.1 h
  obtain ⟨-, rows⟩ := BitVec.or_eq_zero_iff.1 h
  simpa using false_of_opMask (.inr rfl) rows

/-- The effects of a copy, a fill or a metadata read whose operands lie on chip land, once its checks have passed. -/
theorem lands_entry {s : State} {i : Instr} {e : EWord} {bad : Word} {x : Entry} {w : Issued}
    (hi : (∃ h o, i = .ccopy h o) ∨ (∃ h o, i = .cfill h o) ∨ (∃ h o, i = .cmeta h o)) (he : engineWord i = some e)
    (hds : w.dscs = e.ops.map fun o => x.dscs.getD ((36 - o.at0) / 4) 0)
    (hd : decodeFault s s.cur bad e w.dscs = none) (hf : issueFault s s.cur e w.dscs = none) (hc : ∀ d ∈ w.dscs, onChip d) :
    Lands s.onchip (e.body w) w.sameWord := by
  have formats : ∀ y ∈ e.ops.zip w.dscs, (y.1.at0 = 36 ∨ y.1.at0 = 32) → onChip y.2 →
      ∀ slot j, j < dRows y.2 → (Fmt.parse (s.rowEnc s.cur y.2 slot j)).isSome = true := by
    intro y hy ha ho slot j hj
    obtain ⟨hk, hb⟩ := operands_ok hd hf hy ha
    exact rowEnc_parses ho hk hb slot j hj
  obtain ⟨h, o, rfl⟩ | ⟨h, o, rfl⟩ | ⟨h, o, rfl⟩ := hi
  · cases he
    have two : w.dscs = [w.dsc 0, w.dsc 1] := by unfold Issued.dsc; rw [hds]; rfl
    rw [two] at hc formats hd
    have c0 := hc (w.dsc 0) (.head _)
    have c1 := hc (w.dsc 1) (.tail _ (.head _))
    have rows : dRows (w.dsc 0) = dRows (w.dsc 1) := rows_of_copyCheck (decodeFault_none hd).2
    refine lands_copyBody c0 c1 (formats (dst0 o.d0, w.dsc 0) (.head _) (.inl rfl) c0 _) fun j hj => ?_
    exact formats (src1 o.d1, w.dsc 1) (.tail _ (.head _)) (.inr rfl) c1 _ j (rows ▸ hj)
  · cases he
    have one : w.dscs = [w.dsc 0] := by unfold Issued.dsc; rw [hds]; rfl
    rw [one] at hc formats
    have c0 := hc (w.dsc 0) (.head _)
    exact lands_cfillBody c0 (formats (dst0 o.d0, w.dsc 0) (.head _) (.inl rfl) c0 _)
  · cases he
    have one : w.dscs = [w.dsc 0] := by unfold Issued.dsc; rw [hds]; rfl
    rw [one] at hc formats
    have c0 := hc (w.dsc 0) (.head _)
    exact lands_cmetaBody c0 (formats (src1 o.d1, w.dsc 0) (.head _) (.inr rfl) c0 _)

/-- These words take nothing more at issue, and an entry may hold them. -/
theorem entryWord_of_copies {i : Instr} {e : EWord} (hi : (∃ h o, i = .ccopy h o) ∨ (∃ h o, i = .cfill h o) ∨ (∃ h o, i = .cmeta h o))
    (he : engineWord i = some e) : entryWord i = some e ∧ e.prep = pure ∧ e.strm = .c := by
  obtain ⟨h, o, rfl⟩ | ⟨h, o, rfl⟩ | ⟨h, o, rfl⟩ := hi
  all_goals cases he
  all_goals exact ⟨rfl, rfl, rfl⟩

/-- An entry that issues with its operands on chip stands among the words in progress, its effects performed. -/
theorem issueEntry_lands {s s1 : State} {n : Nat} {x : Entry} {i : Instr} {e : EWord} {w : Issued} (h0 : field x.word 56 8 = 0)
    (hc : x.clean = true) (hd : decodeWord .c x.word = .word i 0)
    (hi : (∃ h o, i = .ccopy h o) ∨ (∃ h o, i = .cfill h o) ∨ (∃ h o, i = .cmeta h o)) (he : engineWord i = some e)
    (hw : s.issueWord x.word (badOperands i) e (e.ops.map fun o => x.dscs.getD ((36 - o.at0) / 4) 0) (some n) = some (w, s1))
    (ha : s.allClean = true) (hl : s.lineOps = none)
    (ho : ∀ d ∈ e.ops.map fun o => x.dscs.getD ((36 - o.at0) / 4) 0, inAcc d = true ∨ inSpad d = true) :
    ∃ (w' : Issued) (t : State), issueEntry n x s = .next (t.endE s.cur .c w') ∧ w'.word = x.word ∧ w'.entry = some n := by
  obtain ⟨hentry, hprep, hstrm⟩ := entryWord_of_copies hi he
  obtain ⟨hdec, hiss, hfresh, hds, hword, hent, k, rfl, hk⟩ := issueEntry_cases hprep hw
  rw [issueEntry_eq h0 hc hd hentry, tryWord_issued _ _ _ _ _ _ _ _ hw]
  rw [← hds] at hdec hiss ho
  have body := lands_entry (s := s) (w := { w with todo := true }) (x := x) hi he hds hdec hiss ho
  obtain ⟨w', t, hp, hsame⟩ := perform_lands (back := s) (onchip_setCore ha hk) hl hfresh body
  refine ⟨w', t, ?_, hsame.1.trans hword, hsame.2.trans hent⟩
  rw [hp, hstrm]

/-- The reading of an entry keeps the core and the line operations of the step. -/
theorem release_reads {s u : State} {c : CoreId} {owner : Tag} {la : Nat} {bs : List Byte}
    (h : (do check4 c la 128 1; engRead c owner la 128 0 : M (List Byte)) s = .ok bs u) : u.cur = s.cur ∧ u.lineOps = s.lineOps := by
  obtain ⟨e, -⟩ := keeps_ok (keeps_bind onlyMemory_order.toOrder (keeps_check4 onlyMemory_order.toMemOrder c la 128 1) fun _ =>
    keeps_engRead onlyMemory_order.toMemOrder c owner la 128 0) h
  rw [e]
  exact ⟨rfl, rfl⟩

theorem cur_undrain (s : State) (c : CoreId) (t : Strm) : (s.undrain c t).cur = s.cur := by
  unfold State.undrain State.undrainAt
  split <;> rfl

theorem lineOps_undrain (s : State) (c : CoreId) (t : Strm) : (s.undrain c t).lineOps = s.lineOps := by
  unfold State.undrain State.undrainAt
  split <;> rfl

/-- A schedule entry whose stage has come is read once, and its word is issued. -/
theorem exec_release {s s2 : State} {c : CoreId} {g : Sched} {bs : List Byte}
    (hm : ({ s with cur := c } : State).mayIssue c .c = true) (hg : (s.core c).sched = some g) (hd : (s.core c).entryDue g = true)
    (hr : match g.held with
      | some b => bs = b ∧ s2 = { s with cur := c }
      | none => ∃ u, (do check4 c (dAddr g.table + 128 * g.next) 128 1
                         engRead c (s.core c).ctx (dAddr g.table + 128 * g.next) 128 0 : M (List Byte)) { s with cur := c } = .ok bs u ∧
          s2 = (u.undrain c .c).onCore c fun k => { k with sched := k.sched.map fun g => { g with held := some bs } }) :
    exec (.schedEntryRelease c) s = issueEntry g.next (entryOf bs) s2 ∧ s2.cur = c ∧ s2.lineOps = s.lineOps := by
  have due : (!(({ s with cur := c } : State).mayIssue c .c && (s.core c).entryDue g)) = false := by rw [hm, hd]; rfl
  have sched : (({ s with cur := c } : State).core c).sched = some g := hg
  have started : exec (.schedEntryRelease c) s = execSchedEntryRelease c s := rfl
  rw [started]
  unfold execSchedEntryRelease
  simp only [sched]
  rw [if_neg (by rw [Bool.not_eq_true]; exact due)]
  cases hh : g.held with
  | some b =>
    rw [hh] at hr
    obtain ⟨rfl, rfl⟩ := hr
    exact ⟨rfl, rfl, rfl⟩
  | none =>
    rw [hh] at hr
    obtain ⟨u, hu, rfl⟩ := hr
    obtain ⟨cur, ops⟩ := release_reads hu
    refine ⟨?_, ?_, ?_⟩
    · have read : (do check4 c (dAddr g.table + 128 * g.next) 128 1
                      engRead c (({ s with cur := c } : State).core c).ctx (dAddr g.table + 128 * g.next) 128 0 : M (List Byte))
          { s with cur := c } = .ok bs u := hu
      simp only [read]
    · exact (cur_undrain u c .c).trans cur
    · exact (lineOps_undrain u c .c).trans ops

theorem set_eq_vset {α : Type} {n : Nat} (v : Vector α n) (i : Nat) (x : α) (h : i < n) : v.set i x h = vset v i x := by
  unfold vset Vector.setIfInBounds Vector.set
  simp [Array.setIfInBounds, h]

/-- Settles O33: a word in progress, an X word's results, a fetch and a schedule entry, each from its own lemma. -/
theorem engineEvents : Obligations.EngineEvents := by
  unfold Obligations.EngineEvents
  refine ⟨⟨?complete, fun s s1 i e w he hi hl h => issuesTo_later he hi hl h, ?goesOn, ?execute, ?land,
    fun s c t ht hd hp hs hf hb => engineFetch_takes ht hd hp hs hf hb⟩, ?entry⟩
  case complete =>
    intro s s2 c t i w ht hp hw hm hr u
    have done : exec (.wordCompletion c t i) s = _ :=
      (exec_completes ht hp hw (todo_of_mayComplete hm)).trans (completeWord_done (s := { s with cur := c }) hw hm hr)
    rw [finishWord_eq] at done
    refine ⟨fun hc => ?_, fun v n k hc ha => ?_⟩
    · rw [done, engSignal_none hc]
    · rw [done, engSignal_ok hc ha]
  case goesOn =>
    intro s s' c t i w w' e ht hp hw hd he s0 hn hr
    obtain rfl := strm_of_entryOf he
    rw [exec_goesOn ht hp hw hd he]
    exact goOn_ok (s := s0) hw hn hr
  case execute =>
    intro s c i w hp hw hf k1 k
    have at0 : ((({ s with cur := c } : State).setCore c k).core c) = k := core_setCore_same _ _ _
    refine ⟨fun v n q hc ha => ?_, fun hc => ?_⟩
    · rw [exec_completesX hp hw hf, xSignal_ok (w := w) (v := v) (n := n) (k := q) (by rw [core_setCore_same]; exact hc)
        (by rw [core_setCore_same]; exact ha), Option.getD_some, setCore_setCore]
    · rw [exec_completesX hp hw hf, xSignal_none (w := w) (by rw [core_setCore_same]; exact hc)]
      rfl
  case land =>
    intro k i v
    refine ⟨fun q => ?_, fun q => ?_, fun pre post hx hn => landX_xa hx hn⟩
    · exact congrArg (fun y => { k with x := y }) (set_eq_vset k.x q.toNat v q.isLt)
    · exact congrArg (fun y => { k with p := y }) (set_eq_vset k.p q.toNat (v != 0) q.isLt)
  case entry =>
    intro s s2 s3 c g bs i e w s1 hm hg hd hl la hr x h0 hc hx hi he ds hw ha ho
    obtain ⟨released, cur, ops⟩ := exec_release hm hg hd hr
    obtain ⟨w', t, h1, h2, h3⟩ := issueEntry_lands h0 hc hx hi he hw ha (ops.trans hl) ho
    refine ⟨w', t, ?_, h2, h3⟩
    rw [released, h1, cur]

end Sys2Proof.Machine

/-! PROOFS. The canonical form as a relation between states that every step keeps: the relation itself, and what actions,
outcomes, the memory side and cores must do to keep it. -/

namespace Sys2Proof.Machine

-- One proof after another, as for the tests: so many short ones at a time take more threads than the check's memory holds.
set_option Elab.async false

/-! ## The relation -/

/-- Memories in canonical form stay so, and where no engine word stood between two of its line operations, none does. -/
def Canon (s t : State) : Prop :=
  s.memoriesWf = true → t.memoriesWf = true ∧ (s.mem.opLog = none → t.mem.opLog = none) ∧
    (s.mem.opLines = none → t.mem.opLines = none)

theorem Canon.refl (s : State) : Canon s s := fun h => ⟨h, id, id⟩

theorem Canon.trans {s t u : State} (h1 : Canon s t) (h2 : Canon t u) : Canon s u := fun h =>
  have ⟨wf, log, lines⟩ := h1 h
  have ⟨wf', log', lines'⟩ := h2 wf
  ⟨wf', log' ∘ log, lines' ∘ lines⟩

theorem canon_order : Order Canon where
  refl := Canon.refl
  trans _ _ _ := Canon.trans

/-- The relation may be shown under the canonical form that it assumes. -/
theorem canon_of {s t : State} (h : s.memoriesWf = true → Canon s t) : Canon s t := fun hs => h hs hs

theorem memoriesWf_iff (s : State) : s.memoriesWf = true ↔ Memory.wf s.mem.hbm = true ∧ Memory.wf s.mem.l2 = true ∧
    Memory.wf s.boot.sram = true ∧ ∀ e ∈ s.cores, e.2.canonical = true := by
  simp only [State.memoriesWf, Bool.and_eq_true, List.all_eq_true, and_assoc]

/-! ## The memory side -/

/-- An entry that is found is in the table. -/
theorem mem_of_mapGet {α : Type} {k : Nat} {v : α} {m : SMap α} (h : mapGet m k = some v) : ∃ e ∈ m, e.2 = v := by
  induction m with
  | nil => exact nomatch h
  | cons x m ih =>
    obtain ⟨k', v'⟩ := x
    unfold mapGet at h
    split at h
    · exact ⟨_, List.mem_cons_self, Option.some.inj h⟩
    · split at h
      · exact nomatch h
      · obtain ⟨e, he, hv⟩ := ih h
        exact ⟨e, List.mem_cons_of_mem _ he, hv⟩

/-- The bytes of HBM and L2 stay canonical, and no line operations begin to be recorded. -/
def MemOk (m n : Mem) : Prop :=
  (Memory.wf m.hbm = true → Memory.wf n.hbm = true) ∧ (Memory.wf m.l2 = true → Memory.wf n.l2 = true) ∧
    (m.opLog = none → n.opLog = none) ∧ (m.opLines = none → n.opLines = none)

theorem MemOk.trans {m n k : Mem} (h1 : MemOk m n) (h2 : MemOk n k) : MemOk m k :=
  have ⟨a, b, c, d⟩ := h1
  have ⟨a', b', c', d'⟩ := h2
  ⟨a' ∘ a, b' ∘ b, c' ∘ c, d' ∘ d⟩

theorem memOk_refl {m : Mem} : MemOk m m := ⟨id, id, id, id⟩

/-- The bytes and the two fields of the line operations are as they were. -/
theorem memOk_same {m n : Mem} (h1 : n.hbm = m.hbm := by rfl) (h2 : n.l2 = m.l2 := by rfl)
    (h3 : n.opLog = m.opLog := by rfl) (h4 : n.opLines = m.opLines := by rfl) : MemOk m n := by
  rw [MemOk, h1, h2, h3, h4]
  exact memOk_refl

/-- The same, of an update that is written out over a memory side that is not. -/
theorem memOk_upd {m n : Mem} (h1 : n.hbm = m.hbm := by with_reducible rfl) (h2 : n.l2 = m.l2 := by with_reducible rfl)
    (h3 : n.opLog = m.opLog := by with_reducible rfl) (h4 : n.opLines = m.opLines := by with_reducible rfl) : MemOk m n :=
  memOk_same h1 h2 h3 h4

theorem memOk_foldl {α : Type} {f : Mem → α → Mem} {l : List α} {m : Mem} (h : ∀ m a, MemOk m (f m a)) :
    MemOk m (l.foldl f m) := by
  induction l generalizing m with
  | nil => exact memOk_refl
  | cons a l ih => exact (h m a).trans ih

/-- Only the memory side changes, and keeps its form. -/
theorem canon_mem {s t : State} (hm : MemOk s.mem t.mem) (hb : t.boot.sram = s.boot.sram := by rfl)
    (hc : t.cores = s.cores := by rfl) : Canon s t := by
  intro h
  obtain ⟨m1, m2, m3, m4⟩ := hm
  rw [memoriesWf_iff] at h
  obtain ⟨h1, h2, h3, h4⟩ := h
  exact ⟨(memoriesWf_iff t).2 ⟨m1 h1, m2 h2, hb ▸ h3, hc ▸ h4⟩, m3, m4⟩

theorem canon_onMem {s : State} {f : Mem → Mem} (h : MemOk s.mem (f s.mem)) : Canon s (s.onMem f) := canon_mem h

/-- What records the line operations says nothing of the memories. -/
theorem memoriesWf_onMem {s : State} {f : Mem → Mem} (h : s.memoriesWf = true) (h1 : (f s.mem).hbm = s.mem.hbm := by rfl)
    (h2 : (f s.mem).l2 = s.mem.l2 := by rfl) : (s.onMem f).memoriesWf = true :=
  memoriesWf_mem s _ h (h1 ▸ ((memoriesWf_iff s).1 h).1) (h2 ▸ ((memoriesWf_iff s).1 h).2.1)

/-- The memory side, the SRAM and the cores are as they were. -/
theorem canon_same {s t : State} (hm : t.mem = s.mem := by rfl) (hb : t.boot.sram = s.boot.sram := by rfl)
    (hc : t.cores = s.cores := by rfl) : Canon s t := canon_mem (hm ▸ memOk_refl) hb hc

theorem canon_upd {s t : State} (hm : t.mem = s.mem := by with_reducible rfl)
    (hb : t.boot.sram = s.boot.sram := by with_reducible rfl) (hc : t.cores = s.cores := by with_reducible rfl) : Canon s t :=
  canon_same hm hb hc

/-- Only the firmware complex changes, and its SRAM keeps its form. -/
theorem canon_boot {s t : State} (hb : Memory.wf s.boot.sram = true → Memory.wf t.boot.sram = true)
    (hm : t.mem = s.mem := by rfl) (hc : t.cores = s.cores := by rfl) : Canon s t := by
  intro h
  rw [memoriesWf_iff] at h
  obtain ⟨h1, h2, h3, h4⟩ := h
  exact ⟨(memoriesWf_iff t).2 ⟨hm ▸ h1, hm ▸ h2, hb h3, hc ▸ h4⟩, hm ▸ id, hm ▸ id⟩

/-! ## Cores -/

theorem canonical_iff (k : Core) : k.canonical = true ↔ Memory.wf k.spad = true ∧ Memory.wf k.side = true ∧
    keysRise k.acc = true ∧ (∀ e ∈ k.acc, e.2 ≠ 0) ∧ k.xRes = [] := by
  simp only [Core.canonical, Bool.and_eq_true, List.all_eq_true, bne_iff_ne, List.isEmpty_iff, and_assoc]

/-- The memories, the accumulators and the waiting results of a core are as they were. -/
theorem core_same {k k' : Core} (h : k.canonical = true) (h1 : k'.spad = k.spad := by rfl) (h2 : k'.side = k.side := by rfl)
    (h3 : k'.acc = k.acc := by rfl) (h4 : k'.xRes = k.xRes := by rfl) : k'.canonical = true := by
  rw [Core.canonical, h1, h2, h3, h4]
  exact h

theorem core_upd {k k' : Core} (h : k.canonical = true) (h1 : k'.spad = k.spad := by with_reducible rfl)
    (h2 : k'.side = k.side := by with_reducible rfl) (h3 : k'.acc = k.acc := by with_reducible rfl)
    (h4 : k'.xRes = k.xRes := by with_reducible rfl) : k'.canonical = true := core_same h h1 h2 h3 h4

/-- Bytes of the scratchpad, or of the side stores, are written. -/
theorem core_spad {k k' : Core} (h : k.canonical = true) (h1 : Memory.wf k.spad = true → Memory.wf k'.spad = true)
    (h2 : k'.side = k.side := by rfl) (h3 : k'.acc = k.acc := by rfl) (h4 : k'.xRes = k.xRes := by rfl) :
    k'.canonical = true := by
  rw [canonical_iff] at h ⊢
  rw [h2, h3, h4]
  exact ⟨h1 h.1, h.2⟩

theorem core_side {k k' : Core} (h : k.canonical = true) (h2 : Memory.wf k.side = true → Memory.wf k'.side = true)
    (h1 : k'.spad = k.spad := by rfl) (h3 : k'.acc = k.acc := by rfl) (h4 : k'.xRes = k.xRes := by rfl) :
    k'.canonical = true := by
  rw [canonical_iff] at h ⊢
  rw [h1, h3, h4]
  exact ⟨h.1, h2 h.2.1, h.2.2⟩

theorem canonical_reset : Core.reset.canonical = true := rfl

theorem canonical_core {s : State} {c : CoreId} (h : s.memoriesWf = true) : (s.core c).canonical = true := by
  obtain ⟨_, _, _, hc⟩ := (memoriesWf_iff s).1 h
  unfold State.core
  cases e : mapGet s.cores c.toNat with
  | none => exact canonical_reset
  | some k =>
    obtain ⟨x, hx, rfl⟩ := mem_of_mapGet e
    exact hc x hx

theorem canonical_foldl {α : Type} {f : Core → α → Core} {l : List α} {k : Core}
    (h : ∀ k a, k.canonical = true → (f k a).canonical = true) (hk : k.canonical = true) :
    (l.foldl f k).canonical = true := by
  induction l generalizing k with
  | nil => exact hk
  | cons a l ih => exact ih (h k a hk)

/-- The cores change, and stay canonical. -/
theorem canon_cores {s t : State} (hc : (∀ e ∈ s.cores, e.2.canonical = true) → ∀ e ∈ t.cores, e.2.canonical = true)
    (hm : t.mem = s.mem := by rfl) (hb : t.boot.sram = s.boot.sram := by rfl) : Canon s t := by
  intro h
  rw [memoriesWf_iff] at h
  obtain ⟨h1, h2, h3, h4⟩ := h
  exact ⟨(memoriesWf_iff t).2 ⟨hm ▸ h1, hm ▸ h2, hb ▸ h3, hc h4⟩, hm ▸ id, hm ▸ id⟩

theorem canon_setCore {s : State} {c : CoreId} {k : Core} (hk : s.memoriesWf = true → k.canonical = true) :
    Canon s (s.setCore c k) := canon_of fun hs => canon_cores fun h e he => by
  obtain rfl | he := mem_mapPut _ _ _ _ he
  · exact hk hs
  · exact h e he

theorem canon_onCore {s : State} {c : CoreId} {f : Core → Core} (h : ∀ k, k.canonical = true → (f k).canonical = true) :
    Canon s (s.onCore c f) := canon_setCore fun hs => h _ (canonical_core hs)

theorem core_ite {c : Prop} [Decidable c] {k j : Core} (hk : k.canonical = true) (hj : j.canonical = true) :
    (if c then k else j).canonical = true := by
  split
  · exact hk
  · exact hj

theorem canon_ite {c : Prop} [Decidable c] {s t u : State} (ht : Canon s t) (hu : Canon s u) : Canon s (if c then t else u) := by
  split
  · exact ht
  · exact hu

theorem canon_foldl {α : Type} {f : State → α → State} {l : List α} {s : State} (h : ∀ s a, Canon s (f s a)) :
    Canon s (l.foldl f s) := by
  induction l generalizing s with
  | nil => exact .refl s
  | cons a l ih => exact (h s a).trans ih

/-! ## Actions -/

/-- An action keeps the canonical form, however it ends. -/
abbrev Kept {α : Type} (act : M α) : Prop := Keeps Canon act

section
variable {α β : Type}

theorem kept_pure {a : α} : Kept (pure a : M α) := keeps_pure canon_order a
theorem kept_throw {e : Stop} : Kept (throw e : M α) := keeps_throw canon_order e
theorem kept_raise {c : BitVec 8} {n : Nat} {x y : Word} : Kept (raise c n x y : M α) := keeps_raise canon_order c n x y
theorem kept_getState : Kept getState := keeps_getState canon_order
theorem kept_getCore : Kept getCore := keeps_getCore canon_order
theorem kept_stallIf {b : Bool} : Kept (stallIf b) := keeps_stallIf canon_order b

theorem kept_bind {x : M α} {f : α → M β} (hx : Kept x) (hf : ∀ a, Kept (f a)) : Kept (x >>= f) :=
  keeps_bind canon_order hx hf

/-- What reads the state may use that it is canonical. -/
theorem kept_bind_state {f : State → M β} (h : ∀ s, s.memoriesWf = true → Kept (f s)) : Kept (getState >>= f) :=
  fun s => canon_of fun hs => h s hs s

theorem kept_bind_core {f : Core → M β} (h : ∀ k, k.canonical = true → Kept (f k)) : Kept (getCore >>= f) :=
  fun s => canon_of fun hs => h (s.core s.cur) (canonical_core hs) s

theorem kept_ite {c : Prop} [Decidable c] {x y : M α} (hx : Kept x) (hy : Kept y) : Kept (if c then x else y) :=
  keeps_ite hx hy

/-- A check that ends the action before what follows. -/
theorem kept_check {c : Prop} [Decidable c] {x : M α} {y : M β} (hx : Kept x) (hy : Kept y) :
    Kept (if c then x >>= fun _ => y else y) := kept_ite (kept_bind hx fun _ => hy) hy

/-- Two ways to a result, and what follows either. -/
theorem kept_branch {c : Prop} [Decidable c] {x y : M α} {f : α → M β} (hx : Kept x) (hy : Kept y) (hf : ∀ a, Kept (f a)) :
    Kept (if c then x >>= f else y >>= f) := kept_ite (kept_bind hx hf) (kept_bind hy hf)

/-- A result of an action that stands at a state, or that a further action gives there. -/
theorem ends_ok {s t : State} {a : α} (h : Canon s t) : Canon s (endState (.ok a t : EStateM.Result Stop State α)) := h
theorem ends_error {s t : State} {e : Stop} (h : Canon s t) : Canon s (endState (.error e t : EStateM.Result Stop State α)) := h
theorem ends_act {act : M α} {s t : State} (h : Canon s t) (hact : Kept act) : Canon s (endState (act t)) := h.trans (hact t)

theorem kept_attempt {act : M α} (h : Kept act) : Kept (attempt act) := keeps_attempt h

theorem kept_unitTry {act : M α} (h : Kept act) : Kept (unitTry act) := keeps_unitTry h

theorem kept_modState {f : State → State} (h : ∀ s, Canon s (f s)) : Kept (modState f) := h

theorem kept_modMem {f : Mem → Mem} (h : ∀ m, MemOk m (f m)) : Kept (modMem f) := fun s => canon_onMem (h s.mem)

theorem kept_modCore {f : Core → Core} (h : ∀ k, k.canonical = true → (f k).canonical = true) : Kept (modCore f) :=
  fun _ => canon_onCore h

theorem kept_freeWord : Kept freeWord := fun _ => canon_same

theorem kept_forM {f : α → M Unit} {l : List α} (h : ∀ x, Kept (f x)) : Kept (l.forM f) := keeps_forM canon_order h l

theorem kept_mapM {f : α → M β} {l : List α} (h : ∀ x, Kept (f x)) : Kept (l.mapM f) := by
  rw [← List.mapM'_eq_mapM]
  induction l with
  | nil => exact kept_pure
  | cons x l ih => exact kept_bind (h x) fun _ => kept_bind ih fun _ => kept_pure

theorem kept_foldlM {f : β → α → M β} {l : List α} {b : β} (h : ∀ b a, Kept (f b a)) : Kept (l.foldlM f b) := by
  induction l generalizing b with
  | nil => exact kept_pure
  | cons a l ih => exact kept_bind (h b a) fun _ => ih

theorem canon_also {s : State} {act : M Unit} (h : Kept act) : Canon s (also act s) := keeps_also canon_order h s

theorem canon_ok {act : M α} {s t : State} {a : α} (e : act s = .ok a t) (h : Kept act) : Canon s t := keeps_ok h e

theorem canon_error {act : M α} {s t : State} {x : Stop} (e : act s = .error x t) (h : Kept act) : Canon s t := keeps_error h e

end

/-! ## Engine words -/

/-- What an engine word takes at issue, what stands of it where it faults there, and its effects keep the canonical form. -/
structure EWordOk (e : EWord) : Prop where
  spoil : ∀ s c ds k, k.canonical = true → (e.spoil s c ds k).canonical = true
  prep : ∀ w, Kept (e.prep w)
  body : ∀ w, Kept (e.body w)

theorem canonical_spoil {e : EWord} {s : State} {c : CoreId} {ds : List Dsc} {k : Core} (he : EWordOk e)
    (hk : k.canonical = true) : (e.spoil s c ds k).canonical = true := he.spoil s c ds k hk

theorem kept_prep {e : EWord} {w : Issued} (he : EWordOk e) : Kept (e.prep w) := he.prep w

theorem kept_body {e : EWord} {w : Issued} (he : EWordOk e) : Kept (e.body w) := he.body w

/-! ## Outcomes -/

/-- Where the machine goes on, it keeps the canonical form. -/
def OutOk (s : State) : Out → Prop
  | .next t => Canon s t
  | _ => True

theorem out_next {s t : State} (h : Canon s t) : OutOk s (.next t) := h

theorem canon_out {s t : State} {o : Out} (e : o = .next t) (h : OutOk s o) : Canon s t := by
  rw [e] at h
  exact h

theorem out_trans {s t : State} {o : Out} (h : Canon s t) (ho : OutOk t o) : OutOk s o := by
  cases o with
  | next u => exact h.trans ho
  | _ => trivial

theorem out_ite {c : Prop} [Decidable c] {s : State} {x y : Out} (hx : OutOk s x) (hy : OutOk s y) :
    OutOk s (if c then x else y) := by
  split
  · exact hx
  · exact hy

theorem out_runEvent {s : State} {act : M Unit} (h : Kept act) : OutOk s (runEvent act s) := by
  unfold runEvent
  split
  · rename_i e
    exact canon_ok e h
  · trivial
  · exact .refl s

end Sys2Proof.Machine

/-! PROOFS. The canonical form, the memory side and the shared operations. In this file and the ones after it stands one
lemma for each function of the model that a step reaches, in the model's order, each citing those of the functions it calls.
-/

namespace Sys2Proof.Machine

-- One proof after another, as for the tests: so many short ones at a time take more threads than the check's memory holds.
set_option Elab.async false

/-! ## Actions on the state -/

theorem kept_freeBytes {n : Nat} : Kept (freeBytes n) := kept_mapM fun _ => kept_bind kept_freeWord fun _ => kept_pure

theorem canon_pmPanel {s : State} {p src n : Nat} : Canon s (s.pmPanel p src n) := canon_same

theorem canonical_pm {k : Core} {src n : Nat} (hk : k.canonical = true) : (k.pm src n).canonical = true := core_same hk

/-! ## The memory side -/

theorem canon_demand {s : State} {pline : Nat} : Canon s (s.demand pline) := canon_onMem memOk_same

theorem canon_setHbmLine {s : State} {pline slot : Nat} {d : BitVec 512} : Canon s (s.setHbmLine pline slot d) :=
  (canon_onMem ⟨wf_setBytes _ _ _, id, id, id⟩).trans canon_demand

theorem canon_mendHbm {s : State} {pline : Nat} : Canon s (s.mendHbm pline) := by
  unfold State.mendHbm
  refine canon_ite ?_ (.refl _)
  exact canon_onMem memOk_same

theorem memOk_applyUpdate {m : Mem} {u : Update} : MemOk m (m.applyUpdate u) := memOk_same

theorem memOk_catchUp {m : Mem} {p : Nat} {need : VClock} : MemOk m (m.catchUp p need) := by
  unfold Mem.catchUp
  split
  · exact .trans memOk_same (memOk_foldl fun _ _ => memOk_applyUpdate)

theorem memOk_catchLine {m : Mem} {p line : Nat} : MemOk m (m.catchLine p line) := memOk_catchUp

theorem memOk_order {m : Mem} {q h key : Nat} : MemOk m (m.order q h key) := by
  unfold Mem.order
  exact .trans (memOk_catchLine.trans memOk_catchUp) memOk_upd

theorem memOk_tell {m : Mem} {q h key : Nat} {d : BitVec 512} : MemOk m (m.tell q h key d) := memOk_same

theorem canon_ptFill {s : State} {pline : Nat} : Canon s (s.ptFill pline) := by
  unfold State.ptFill
  split
  · exact .refl _
  split
  · exact .trans (.trans (canon_ite (canon_onMem memOk_same) (.refl _)) canon_pmPanel) (canon_onMem memOk_same)
  · exact .trans (canon_mendHbm.trans canon_pmPanel) (canon_onMem memOk_same)

theorem canon_setPtWord {s : State} {q p : Nat} {w : Word} : Canon s (s.setPtWord q p w) :=
  canon_ptFill.trans (canon_onMem (.trans (memOk_order.trans memOk_upd) memOk_tell))

theorem kept_ptOpen {la p : Nat} : Kept (ptOpen la p) := by
  unfold ptOpen
  intro s
  dsimp only
  split
  · split
    · exact ends_error (.refl _)
    · exact ends_ok (.refl _)
  split
  · exact ends_error (.refl _)
  split
  · exact ends_error (.refl _)
  split
  · exact ends_error (.refl _)
  split
  · split
    · exact ends_error (canon_onMem memOk_same)
    · exact ends_ok canon_ptFill
  split
  · exact ends_error (.refl _)
  split
  · exact ends_error (canon_onMem memOk_same)
  · exact ends_ok canon_ptFill

theorem kept_walkOpen {ctl la : Nat} : Kept (walkOpen ctl la) := by
  unfold walkOpen
  intro s
  exact ends_act (.refl _) (kept_forM fun _ => kept_ptOpen)

theorem canon_onCtl {s : State} {h : Nat} {f : Ctl → Ctl} : Canon s (s.onCtl h f) := canon_onMem memOk_same

theorem canon_dropBad {s : State} {h la : Nat} : Canon s (s.dropBad h la) := canon_ite canon_onCtl (.refl _)

theorem canon_markPte {s : State} {h p n : Nat} : Canon s (s.markPte h p n) := canon_ite canon_setPtWord (.refl _)

theorem kept_translate {la : Nat} {va : Word} : Kept (translate la va) := by
  unfold translate
  intro s
  dsimp only
  split
  · exact ends_ok (.refl _)
  split
  · exact ends_ok (canon_dropBad.trans canon_onCtl)
  split
  · rename_i e
    exact ends_error (.trans (canon_dropBad.trans canon_pmPanel) (canon_error e kept_walkOpen))
  rename_i e
  split
  · exact ends_error (.trans (canon_dropBad.trans canon_pmPanel) (canon_ok e kept_walkOpen))
  split
  · exact ends_error (.trans (.trans (canon_dropBad.trans canon_pmPanel) (canon_ok e kept_walkOpen)) canon_markPte)
  · exact ends_ok (canon_ite (.trans (.trans (canon_dropBad.trans canon_pmPanel) (canon_ok e kept_walkOpen)) canon_markPte)
        (.trans (.trans (.trans (canon_dropBad.trans canon_pmPanel) (canon_ok e kept_walkOpen)) canon_markPte) canon_onCtl))

theorem kept_fillHome {line : Nat} {owner : Tag} {x : Xlat} {whole : Bool} : Kept (fillHome line owner x whole) := by
  unfold fillHome
  intro s
  dsimp only
  split
  · exact ends_error (.refl _)
  split
  · exact ends_error (.refl _)
  split
  · exact ends_error (.refl _)
  split
  · exact ends_ok (.trans (canon_onMem memOk_same) (canon_onMem ⟨id, wf_setBytes _ _ _, id, id⟩))
  split
  · exact ends_error (.refl _)
  split
  · split
    · exact ends_error canon_onCtl
    · exact ends_ok (.trans (.trans ((canon_ite canon_onCtl (.refl _)).trans canon_pmPanel) (canon_onMem memOk_same))
          (canon_onMem ⟨id, wf_setBytes _ _ _, id, id⟩))
  split
  · exact ends_error (.refl _)
  split
  · exact ends_error canon_onCtl
  · exact ends_ok (.trans (canon_mendHbm.trans canon_pmPanel) (canon_onMem ⟨id, wf_setBytes _ _ _, id, id⟩))

theorem kept_needLine {line : Nat} {part : BitVec 2} {owner : Tag} {va : Word} : Kept (needLine line part owner va) := by
  unfold needLine
  intro s
  dsimp only
  split
  · split
    · exact ends_error (.refl _)
    · exact ends_ok canon_pmPanel
  split
  · rename_i e
    exact ends_act (canon_pmPanel.trans (canon_ok e kept_translate)) kept_fillHome
  rename_i e
  exact ends_error (canon_pmPanel.trans (canon_error e kept_translate))

theorem kept_readLine {p : Nat} {owner : Tag} {la n : Nat} {va : Word} : Kept (readLine p owner la n va) := by
  unfold readLine
  intro s
  dsimp only
  split
  · split
    · rename_i e
      exact ends_ok (canon_ok e kept_needLine)
    · rename_i e
      exact ends_error (canon_error e kept_needLine)
    rename_i e
    exact ends_error (canon_error e kept_needLine)
  split
  · split
    · exact ends_error (.refl _)
    · exact ends_ok canon_pmPanel
  split
  · exact ends_error (.refl _)
  split
  · rename_i e
    exact ends_error (canon_error e kept_needLine)
  · rename_i e
    exact ends_error (canon_error e kept_needLine)
  rename_i e
  split
  · exact ends_error (canon_ok e kept_needLine)
  · exact ends_ok ((canon_ok e kept_needLine).trans (canon_onMem (memOk_catchUp.trans memOk_upd)))

theorem canon_change {s : State} {la : Nat} : Canon s (s.change la) := canon_ite canon_same (.refl _)

theorem canon_wake {s : State} {line : Nat} : Canon s (s.wake line) := by
  refine canon_cores fun h e he => ?_
  obtain ⟨x, hx, rfl⟩ := List.mem_map.1 he
  split
  · split
    · exact core_same (h x hx)
    · exact h x hx
  · exact h x hx

theorem canon_sequence {s : State} {q la : Nat} {bs : List Byte} : Canon s (s.sequence q la bs) := by
  unfold State.sequence
  refine .trans (canon_mem ?_) canon_wake
  refine .trans ?_ memOk_tell
  exact .trans memOk_order ⟨id, wf_setBytes _ _ _, id, id⟩

theorem canon_widen {s : State} {q la : Nat} {bs : List Byte} : Canon s (s.widen q la bs) :=
  canon_onMem ⟨id, wf_setBytes _ _ _, id, id⟩

theorem canon_commit {s : State} {q la : Nat} {bs : List Byte} : Canon s (s.commit q la bs) := by
  unfold State.commit
  split
  · exact canon_sequence
  · rename_i h
    refine canon_ite canon_widen fun hs => ?_
    have ⟨wf, log, _⟩ := canon_sequence (q := q) (la := la) (bs := bs) hs
    exact ⟨memoriesWf_onMem wf, log, fun e => nomatch h.symm.trans e⟩

theorem kept_needWrite {owner : Tag} {la n : Nat} {va : Word} : Kept (needWrite owner la n va) := by
  unfold needWrite
  intro s
  dsimp only
  split
  · exact ends_error (.refl _)
  split
  · split
    · exact ends_error (.refl _)
    split
    · exact ends_ok (.refl _)
    split
    · rename_i e
      exact ends_error (canon_error e kept_translate)
    · rename_i e
      exact ends_error (canon_error e kept_translate)
    rename_i e
    split
    · exact ends_error (canon_ok e kept_translate)
    · exact ends_ok ((canon_ok e kept_translate).trans (canon_onMem memOk_same))
  split
  · rename_i e
    exact ends_error (canon_pmPanel.trans (canon_error e kept_translate))
  · rename_i e
    exact ends_error (canon_pmPanel.trans (canon_error e kept_translate))
  rename_i e
  split
  · exact ends_error (canon_pmPanel.trans (canon_ok e kept_translate))
  split
  · rename_i e'
    exact ends_error (.trans (canon_pmPanel.trans (canon_ok e kept_translate)) (canon_error e' kept_fillHome))
  · exact ends_act (canon_pmPanel.trans (canon_ok e kept_translate)) kept_fillHome

theorem canon_cleanLine {s : State} {line n : Nat} : Canon s (s.cleanLine line n) := by
  unfold State.cleanLine
  split
  · exact canon_ite (canon_onMem memOk_same) (.refl _)
  · exact .refl _

theorem kept_writeLine {p : Nat} {owner : Tag} {la : Nat} {bs : List Byte} {va : Word} {how : Store} : Kept (writeLine p owner
    la bs va how) := by
  unfold writeLine
  intro s
  dsimp only
  split
  · rename_i e
    exact ends_error (canon_error e kept_needWrite)
  rename_i e
  split
  · exact ends_ok (canon_ite (.trans (.trans ((canon_ok e kept_needWrite).trans canon_cleanLine) canon_commit) canon_change)
        (.trans ((canon_ok e kept_needWrite).trans canon_cleanLine) canon_commit))
  · exact ends_ok (canon_ite (.trans (.trans (.trans ((canon_ok e kept_needWrite).trans canon_cleanLine) canon_upd)
        canon_commit) canon_change) (.trans (.trans ((canon_ok e kept_needWrite).trans canon_cleanLine) canon_upd)
        canon_commit))

theorem kept_readSpan {rd : Nat → Nat → M (List Byte)} (hrd : ∀ a k, Kept (rd a k)) : ∀ {fuel la n : Nat},
    Kept (readSpan rd fuel la n)
  | 0, _, _ => kept_pure
  | _ + 1, _, _ => kept_ite kept_pure (kept_bind (hrd _ _) fun _ => kept_bind (kept_readSpan hrd) fun _ => kept_pure)

theorem kept_memRead {p : Nat} {owner : Tag} {la n : Nat} {va : Word} : Kept (memRead p owner la n va) :=
  kept_readSpan fun _ _ => kept_readLine

theorem kept_writeSpan {wr : Nat → List Byte → M Unit} (hwr : ∀ a b, Kept (wr a b)) :
    ∀ {fuel la : Nat} {bs : List Byte}, Kept (writeSpan wr fuel la bs)
  | 0, _, _ => kept_pure
  | _ + 1, _, [] => kept_pure
  | _ + 1, _, _ :: _ => kept_bind (hwr _ _) fun _ => kept_writeSpan hwr

theorem kept_memWrite {p : Nat} {owner : Tag} {la : Nat} {bs : List Byte} {va : Word} {how : Store} : Kept (memWrite p owner
    la bs va how) :=
  kept_writeSpan fun _ _ => kept_writeLine

/-- A line operation only records where operations are recorded. -/
theorem kept_lineOp {act : M (List Byte)} (hact : Kept act) : Kept (lineOp act) := by
  intro s
  unfold lineOp
  split
  · exact hact s
  · rename_i g hg
    have record : ∀ (t : State) (x : Option OpLog), Canon s t → Canon s (t.onMem fun m => { m with opLog := x }) := by
      intro t x h hs
      have ⟨wf, _, lines⟩ := h hs
      exact ⟨memoriesWf_onMem wf, (fun e => nomatch hg.symm.trans e), lines⟩
    split
    · exact ends_ok (record _ _ (.refl s))
    · split
      · exact ends_error (.refl s)
      · split
        · rename_i e
          exact ends_ok (record _ _ (canon_ok e hact))
        · rename_i e
          exact ends_error (canon_error e hact)

theorem kept_opRead {p : Nat} {owner : Tag} {la n : Nat} {va : Word} : Kept (opRead p owner la n va) :=
  kept_readSpan fun _ _ => kept_lineOp kept_readLine

theorem kept_opWrite {p : Nat} {owner : Tag} {la : Nat} {bs : List Byte} {va : Word} : Kept (opWrite p owner la bs va) := by
  unfold opWrite
  refine kept_writeSpan fun _ _ => kept_bind ?_ fun _ => kept_pure
  exact kept_lineOp (kept_bind_state fun _ _ => kept_bind kept_writeLine fun _ => kept_bind (kept_modState fun _ => canon_ite
      (.refl _) canon_change) fun _ => kept_pure)

theorem kept_newRow : Kept newRow := kept_modMem fun _ => ⟨id, id, fun h => by rw [h]; rfl, id⟩

theorem kept_unitRead {p la n : Nat} : Kept (unitRead p la n) := kept_bind (kept_unitTry kept_memRead) fun _ => kept_pure

theorem kept_unitWrite {p la : Nat} {bs : List Byte} : Kept (unitWrite p la bs) :=
  kept_bind (kept_unitTry kept_memWrite) fun _ => kept_pure

theorem kept_unitWord {p la : Nat} : Kept (unitWord p la) := kept_bind kept_unitRead fun _ => kept_pure

/-! ## The shared operations of the core -/

theorem kept_homeLine {p la : Nat} : Kept (homeLine p la) :=
  kept_bind kept_readLine fun _ => kept_bind (kept_modState fun _ => canon_onMem memOk_catchUp) fun _ => kept_pure

theorem kept_readRangeSet {p : Nat} {t : Tag} : Kept (readRangeSet p t) :=
  kept_bind_state fun _ _ => kept_bind (kept_mapM fun _ => kept_homeLine) fun _ => kept_pure

theorem kept_useRangeSet {p : Nat} {t : Tag} : Kept (useRangeSet p t) :=
  kept_bind kept_readRangeSet fun _ => kept_check kept_raise kept_pure

theorem kept_aSet : Kept aSet := kept_bind_state fun _ _ => kept_ite kept_useRangeSet kept_pure

theorem canon_undrainAt {s : State} {key : Nat} : Canon s (s.undrainAt key) := canon_ite (canon_onMem memOk_same) (.refl _)

theorem canon_addDrainAt {s : State} {key h p : Nat} : Canon s (s.addDrainAt key h p) := canon_markPte.trans canon_onCtl

theorem canon_setFq {s : State} {t : Nat} {q : FaultQ} : Canon s (s.setFq t q) := canon_same

theorem kept_appendNow {ft : Word} {t p : Nat} {r : Rec} : Kept (appendNow ft t p r) :=
  kept_bind_state fun _ _ => kept_ite (kept_modState fun _ => canon_setFq) (kept_bind kept_unitWrite fun _ => kept_modState
      fun _ => canon_setFq.trans canon_upd)

theorem kept_appendAt {ft : Word} {t p : Nat} {r : Rec} : Kept (appendAt ft t p r) := by
  unfold appendAt
  intro s
  dsimp only
  split
  · exact ends_ok canon_same
  split
  · rename_i e
    exact ends_ok ((canon_ok e kept_appendNow).trans canon_undrainAt)
  · rename_i e
    exact ends_error (canon_error e kept_appendNow)
  · exact ends_ok (.trans canon_same canon_addDrainAt)
  · exact ends_ok canon_same

theorem kept_appendTo {t p : Nat} {r : Rec} : Kept (appendTo t p r) := kept_bind_state fun _ _ => kept_appendAt

theorem kept_appendFault {p : Nat} {r : Rec} : Kept (appendFault p r) := kept_appendTo

theorem out_runUnit {unit : Nat} {act : M Unit} {s : State} (hact : Kept act) : OutOk s (runUnit unit act s) := by
  unfold runUnit
  split
  · rename_i e
    exact out_next ((canon_ok e hact).trans canon_undrainAt)
  · exact trivial
  · exact out_next canon_addDrainAt
  · exact out_next canon_undrainAt
  · exact out_next (.refl _)

theorem canon_syncWire {s : State} {c : CoreId} : Canon s (s.syncWire c) := by
  refine canon_cores fun h e he => ?_
  obtain ⟨x, hx, rfl⟩ := List.mem_map.1 he
  split
  · exact core_same (h x hx)
  · exact h x hx

theorem canon_raiseWire {s : State} {c : CoreId} : Canon s (s.raiseWire c) :=
  .trans (canon_onCore fun _ hk => core_same hk) canon_syncWire

theorem canon_dropWire {s : State} {c : CoreId} : Canon s (s.dropWire c) :=
  canon_ite (.trans (canon_onCore fun _ hk => core_same hk) canon_syncWire) (.refl _)

theorem canonical_setRing {k : Core} {t : Strm} {r : Ring} (hk : k.canonical = true) : (k.setRing t r).canonical = true :=
  core_same hk

theorem canonical_setEngine {k : Core} {t : Strm} {e : Engine} (hk : k.canonical = true) : (k.setEngine t e).canonical = true
    := by
  unfold Core.setEngine
  split
  · exact core_same hk
  · exact core_same hk
  · exact core_same hk

theorem canon_endLate {s : State} {c : CoreId} : Canon s (s.endLate c) :=
  canon_ite (.trans (.trans (canon_onCore fun _ hk => core_same hk) (canon_onCore fun _ hk => core_same hk)) canon_syncWire)
      (canon_onCore fun _ hk => core_same hk)

theorem canonical_enterHandler {k : Core} {cause word addr ret : Word} {at0 : Nat} (hk : k.canonical = true) : (k.enterHandler
    cause word addr ret at0).canonical = true :=
  core_same hk

theorem canonical_leaveHandler {k : Core} (hk : k.canonical = true) : (k.leaveHandler).canonical = true := by
  unfold Core.leaveHandler
  exact core_upd (canonical_setRing hk)

theorem canon_aFault {s : State} {w : Word} {f : Flt} : Canon s (s.aFault w f) :=
  canon_ite (.trans ((canon_also kept_appendTo).trans (canon_onCore fun _ hk => core_same hk)) canon_raiseWire) (canon_ite
      (.trans (.trans ((canon_also kept_appendFault).trans (canon_onCore fun _ hk => canonical_enterHandler hk)) (canon_onCore
      fun _ hk => core_same hk)) canon_raiseWire) ((canon_also kept_appendFault).trans (canon_onCore fun _ hk =>
      canonical_enterHandler hk)))

theorem canon_xFault {s : State} {w : Word} {f : Flt} : Canon s (s.xFault w f) :=
  (canon_also kept_appendFault).trans (canon_onCore fun _ hk => core_same hk)

theorem kept_rdA {r : Reg} : Kept (rdA r) := by
  unfold rdA
  intro s
  dsimp only
  split
  · exact ends_ok (.refl _)
  split
  · split
    · exact ends_ok (canon_setCore fun hk => core_same (canonical_core hk))
    · exact ends_error (.refl _)
  · exact ends_ok (.refl _)

theorem kept_wrA {r : Reg} {v : Word} : Kept (wrA r v) := by
  unfold wrA
  intro s
  dsimp only
  split
  · exact ends_ok (.refl _)
  split
  · split
    · exact ends_error (.refl _)
    · exact ends_ok (canon_setCore fun hk => core_same (canonical_core hk))
  · exact ends_ok (canon_setCore fun hk => core_same (canonical_core hk))

theorem canonical_passWait {k k' : Core} {w : Wait} (e : k.passWait w = some k') (hk : k.canonical = true) :
    k'.canonical = true := passWait_flags e ▸ core_same hk

theorem canonical_addFlag {k k' : Core} {v : BitVec 6} {n : Nat} (e : k.addFlag v n = .ok k') (hk : k.canonical = true) :
    k'.canonical = true := addFlag_flags e ▸ core_same hk

theorem canonical_issueSig {k k' : Core} {g : Sig} (e : k.issueSig g = .ok k') (hk : k.canonical = true) :
    k'.canonical = true := issueSig_flags e ▸ core_same hk

theorem canonical_advanceA {k : Core} {inHandler : Bool} {fl : Flow} (hk : k.canonical = true) : (k.advanceA inHandler
    fl).canonical = true := by
  unfold Core.advanceA
  dsimp only
  split
  · exact hk
  · exact core_ite (core_same hk) (core_upd (canonical_setRing hk))
  · exact core_ite (core_same hk) (core_upd (canonical_setRing hk))

theorem canon_aComplete {s : State} {h : Hdr} {w : Word} {rword : BitVec 13} : Canon s (s.aComplete h w rword) := by
  unfold State.aComplete
  dsimp only
  split
  · exact .refl _
  split
  · rename_i e
    exact canon_setCore fun hk => canonical_addFlag e (canonical_core hk)
  · exact canon_ite (.trans ((canon_also kept_appendTo).trans (canon_onCore fun _ hk => core_same hk)) canon_raiseWire)
        ((canon_also kept_appendFault).trans (canon_onCore fun _ hk => canonical_enterHandler hk))

theorem canon_undrain {s : State} {c : CoreId} {t : Strm} : Canon s (s.undrain c t) := canon_undrainAt

theorem canon_addDrain {s : State} {c : CoreId} {t : Strm} {h p : Nat} : Canon s (s.addDrain c t h p) := canon_addDrainAt

/-- The memory side of a canonical state with the cores of another. -/
theorem canon_afterFault {s t : State} (h : Canon s t) : Canon s (s.afterFault t) := by
  intro hs
  have ⟨wf, log, lines⟩ := h hs
  obtain ⟨h1, h2, _, _⟩ := (memoriesWf_iff t).1 wf
  obtain ⟨_, _, h3, h4⟩ := (memoriesWf_iff s).1 hs
  exact ⟨(memoriesWf_iff _).2 ⟨h1, h2, h3, h4⟩, log, lines⟩

/-- An A word keeps the canonical form where its effect does. -/
theorem out_runA {i : Instr} {h : Hdr} {priv : Bool} {bad : Core → Word} {body : M Flow} {s : State} (hbody : Kept body) :
    OutOk s (runA i h priv bad body s) := by
  unfold runA
  refine out_ite canon_aFault (out_ite canon_aFault (out_ite (Canon.refl s) ?_))
  split
  · exact Canon.refl s
  rename_i k1 h1
  have hk1 : s.memoriesWf = true → k1.canonical = true := fun hs => by
    split at h1
    · cases h1
      exact canonical_core hs
    · exact canonical_passWait h1 (canonical_core hs)
  split
  · split
    · exact out_ite canon_aFault canon_aFault
    · exact Canon.refl s
    · exact canon_aFault
  rename_i k2 h2
  have hk2 : s.memoriesWf = true → k2.canonical = true := fun hs => by
    split at h2
    · cases h2
      exact hk1 hs
    · exact canonical_issueSig h2 (hk1 hs)
  have run : Canon s (endState (body (s.setCore s.cur k2))) := (canon_setCore hk2).trans (hbody _)
  dsimp only
  generalize body (s.setCore s.cur k2) = r at run ⊢
  rcases r with ⟨fl, t⟩ | ⟨x, t⟩
  · have went : Canon s ((t.undrain s.cur .a).onCore s.cur fun q => q.advanceA (s.core s.cur).priv fl) :=
      (run.trans canon_undrain).trans (canon_onCore fun _ => canonical_advanceA)
    exact out_next (.trans (canon_ite went (went.trans canon_aComplete)) canon_endLate)
  · cases x with
    | stall => exact out_next (.refl s)
    | waiting => exact out_ite run (out_next (.trans (run.trans (canon_onCore fun _ hk => core_same hk)) canon_endLate))
    | pause p => exact out_next (.refl s)
    | drain d p => exact out_next canon_addDrain
    | fault f => exact out_next (((canon_afterFault run).trans canon_undrain).trans canon_aFault)
    | halt f => trivial

theorem canonical_advanceX {k : Core} {fl : Flow} (hk : k.canonical = true) : (k.advanceX fl).canonical = true := by
  unfold Core.advanceX
  split
  · exact hk
  · exact canonical_setRing hk
  · exact canonical_setRing hk

theorem canon_xSignal {s t : State} {c : CoreId} {w : Issued} (e : s.xSignal c w = some t) : Canon s t := by
  unfold State.xSignal at e
  dsimp only at e
  split at e
  · cases e
    exact .refl s
  split at e
  · rename_i h
    cases e
    exact canon_setCore fun hs => canonical_addFlag h (canonical_core hs)
  split at e
  · exact nomatch e
  · cases e
    exact (canon_also kept_appendFault).trans (canon_onCore fun _ hk => core_same hk)

end Sys2Proof.Machine

/-! PROOFS. The canonical form, what the engines share: windows, operands, the running of a word, a stream's turn. -/

namespace Sys2Proof.Machine

-- One proof after another, as for the tests: so many short ones at a time take more threads than the check's memory holds.
set_option Elab.async false

/-! ## The scratchpad and the window on the on-chip map -/

theorem canonical_spadMend {k : Core} {a n : Nat} (hk : k.canonical = true) : (k.spadMend a n).canonical = true :=
  core_same hk

theorem canonical_setAcc {k : Core} {row col : Nat} {v : BitVec 32} (hk : k.canonical = true) :
    (k.setAcc row col v).canonical = true := by
  obtain ⟨h1, h2, h3, h4, h5⟩ := (canonical_iff k).1 hk
  refine (canonical_iff _).2 ⟨h1, h2, ?_, fun e he => ?_, h5⟩
  · unfold Core.setAcc
    split
    · exact keysRise_mapDel _ _ h3
    · exact keysRise_mapPut _ _ _ h3
  · unfold Core.setAcc at he
    split at he
    · exact h4 e (mem_mapDel _ _ _ he)
    · obtain rfl | he := mem_mapPut _ _ _ _ he
      · assumption
      · exact h4 e he

theorem canonical_setAccRow {k : Core} {row : Nat} {vs : List (BitVec 32)} (hk : k.canonical = true) : (k.setAccRow row
    vs).canonical = true :=
  canonical_foldl (fun _ _ hk' => canonical_setAcc hk') hk

theorem kept_seeWin {p : Nat} {c : CoreId} : Kept (seeWin p c) := kept_modState fun _ => canon_onMem memOk_catchUp

theorem kept_markWin {p : Nat} {c : CoreId} : Kept (markWin p c) :=
  kept_modState fun _ => canon_onCore fun _ hk => core_same hk

theorem canonical_putWinWord {k : Core} {off : Nat} {v : Word} (hk : k.canonical = true) : (k.putWinWord off v).canonical =
    true := by
  unfold Core.putWinWord
  split
  · dsimp only
    exact canonical_setAcc (canonical_setAcc hk)
  · exact core_same hk
  · split
    · exact core_same hk
    · exact hk
  · dsimp only
    exact core_same hk
  · exact core_same hk
  · exact core_ite (core_same hk) (core_ite hk (core_ite (core_same hk) (core_same hk)))
  · exact core_same hk
  · exact hk

theorem canonical_putAccByte {k : Core} {e i : Nat} {b : Byte} (hk : k.canonical = true) : (k.putAccByte e i b).canonical =
    true :=
  canonical_setAcc hk

theorem canonical_putWinByte {k : Core} {off : Nat} {b : Byte} (hk : k.canonical = true) : (k.putWinByte off b).canonical =
    true := by
  unfold Core.putWinByte
  split
  · exact core_spad hk (wf_setByte _ _ _)
  · exact core_side hk (wf_setByte _ _ _)
  · exact canonical_putAccByte hk
  · exact canonical_putWinWord hk

theorem kept_windowRead {owner : Tag} {la n : Nat} : Kept (windowRead owner la n) := by
  unfold windowRead
  refine kept_bind_state fun _ _ => kept_ite kept_raise ?_
  split
  · exact kept_raise
  refine kept_ite (kept_bind kept_freeWord fun _ => kept_pure) ?_
  split
  · exact kept_raise
  · exact kept_pure

theorem kept_windowWrite {owner : Tag} {la : Nat} {bs : List Byte} : Kept (windowWrite owner la bs) := by
  unfold windowWrite
  refine kept_bind_state fun _ hk => kept_ite kept_raise ?_
  split
  · exact kept_raise
  · exact kept_ite kept_pure (kept_modState fun _ => canon_onCore fun _ hk' => canonical_foldl (fun _ _ hk2 =>
        canonical_putWinByte hk2) (core_ite (canonical_spadMend hk') hk'))

/-! ## The operands of the engines -/

theorem kept_readSpadRow {c : CoreId} {bank row : Nat} {f : Fmt} {cols : Nat} : Kept (readSpadRow c bank row f cols) := by
  unfold readSpadRow
  intro s
  dsimp only
  split
  · exact ends_error (.refl _)
  · exact ends_ok (.refl _)

theorem kept_readAccRow {c : CoreId} {row cols : Nat} : Kept (readAccRow c row cols) := by
  unfold readAccRow
  intro s
  dsimp only
  split
  · exact ends_error (.refl _)
  · exact ends_ok (.refl _)

theorem kept_translate5 {c : CoreId} {b : Nat} {va : Word} {n need : Nat} : Kept (translate5 c b va n need) := by
  unfold translate5
  refine kept_bind_state fun _ _ => ?_
  dsimp only
  split
  · exact kept_ite kept_raise (kept_ite kept_raise kept_pure)
  · exact kept_raise

theorem kept_check4 {c : CoreId} {la n need : Nat} : Kept (check4 c la n need) := by
  unfold check4
  refine kept_bind_state fun _ _ => kept_ite kept_raise ?_
  split
  · exact kept_raise
  · exact kept_ite kept_raise kept_pure

theorem kept_engRead {c : CoreId} {owner : Tag} {la n : Nat} {va : Word} : Kept (engRead c owner la n va) :=
  kept_ite (kept_bind kept_windowRead fun _ => kept_bind kept_seeWin fun _ => kept_pure) kept_opRead

theorem kept_addr6 {c : CoreId} {d : Dsc} {rowBytes j : Nat} : Kept (addr6 c d rowBytes j) := by
  unfold addr6
  refine kept_bind_state fun _ _ => ?_
  split
  · exact kept_raise
  exact kept_ite kept_raise kept_pure

theorem kept_readRowAs {enc : BitVec 32} {c : CoreId} {d : Dsc} {slot j b first : Nat} : Kept (readRowAs enc c d slot j b
    first) := by
  unfold readRowAs
  refine kept_bind_state fun _ _ => ?_
  split
  · exact kept_raise
  refine kept_ite (kept_bind kept_readAccRow fun _ => kept_bind kept_seeWin fun _ => kept_pure) (kept_ite (kept_bind
      kept_readSpadRow fun _ => kept_bind kept_seeWin fun _ => kept_pure) ?_)
  split
  · exact kept_bind kept_check4 fun _ => kept_bind kept_engRead fun _ => kept_pure
  · exact kept_bind kept_translate5 fun _ => kept_bind kept_engRead fun _ => kept_pure
  · exact kept_bind kept_addr6 fun _ => kept_bind kept_opRead fun _ => kept_pure

theorem kept_readRow {c : CoreId} {d : Dsc} {slot j b first : Nat} : Kept (readRow c d slot j b first) :=
  kept_bind_state fun _ _ => kept_readRowAs

theorem canonical_putSpadRow {k : Core} {bank row : Nat} {r : Row} (hk : k.canonical = true) :
    (k.putSpadRow bank row r).canonical = true := by
  obtain ⟨h1, h2, h3⟩ := (canonical_iff k).1 hk
  exact (canonical_iff _).2 ⟨wf_setBytes _ _ _ h1, wf_setBytes _ _ _ h2, h3⟩

theorem kept_needLines {owner : Tag} {va : Word} : ∀ {fuel la n : Nat}, Kept (needLines owner va fuel la n)
  | 0, _, _ => kept_pure
  | _ + 1, _, _ => kept_ite kept_pure (kept_bind kept_needWrite fun _ => kept_needLines)

/-- The lines of one write are kept only while it is made. -/
theorem canon_unlined {s t : State} {x : Option (List Nat)} (h : Canon (s.onMem fun m => { m with opLines := x }) t) :
    Canon s (t.onMem fun m => { m with opLines := none }) := fun hs =>
  have ⟨wf, log, _⟩ := h (memoriesWf_onMem hs)
  ⟨memoriesWf_onMem wf, log, fun _ => rfl⟩

theorem kept_oneOp {lines : List Nat} {act : M Unit} (hact : Kept act) : Kept (oneOp lines act) := by
  intro s
  have h := canon_unlined (hact (s.onMem fun m => { m with opLines := some lines }))
  unfold oneOp
  generalize act (s.onMem fun m => { m with opLines := some lines }) = r at h ⊢
  rcases r with ⟨_, t⟩ | ⟨x, t⟩
  · exact ends_ok h
  · cases x <;> exact ends_error h

theorem kept_writeGranule {c : CoreId} {owner : Tag} {la : Nat} {bs : List Byte} {va : Word} {p : Perf} : Kept (writeGranule c
    owner la bs va p) :=
  kept_ite kept_pure (kept_ite (kept_bind kept_windowWrite fun _ => kept_bind kept_markWin fun _ => kept_pure) (kept_bind
      kept_needLines fun _ => kept_bind (kept_oneOp kept_opWrite) fun _ => kept_pure))

theorem kept_writeMemRow {c : CoreId} {owner : Tag} {isVa : Bool} :
    ∀ {fuel : Nat} {va : Word} {la : Nat} {bs : List Byte} {p : Perf}, Kept (writeMemRow c owner va isVa fuel la bs p)
  | 0, _, _, _, _ => kept_pure
  | _ + 1, _, _, _, _ => kept_ite kept_pure (kept_bind (kept_attempt kept_writeGranule) fun r =>
      match r with
      | .error _ => kept_throw
      | .ok _ => kept_writeMemRow)

theorem kept_writeRowTo {c : CoreId} {d : Dsc} {slot j b first : Nat} {f : Fmt} {r : Row} {p : Perf} : Kept (writeRowTo c d
    slot j b first f r p) := by
  unfold writeRowTo
  refine kept_bind_state fun _ hk => kept_ite (kept_ite kept_pure (kept_ite (kept_branch (kept_modState fun _ => canon_onCore
      fun _ hk' => canonical_setAccRow hk') (kept_modState fun _ => canon_onCore fun _ hk' => canonical_putSpadRow hk') fun _
      => kept_pure) (kept_bind kept_markWin fun _ => kept_branch (kept_modState fun _ => canon_onCore fun _ hk' =>
      canonical_setAccRow hk') (kept_modState fun _ => canon_onCore fun _ hk' => canonical_putSpadRow hk') fun _ =>
      kept_pure))) ?_
  split
  · exact kept_ite kept_pure (kept_bind kept_check4 fun _ => kept_writeMemRow)
  · exact kept_ite kept_pure (kept_bind kept_translate5 fun _ => kept_writeMemRow)

theorem canonical_park {k : Core} {b : Nat} (hk : k.canonical = true) : (k.park b).canonical = true := core_same hk

theorem kept_parkOwner {c : CoreId} {unit strm : BitVec 3} {rword : BitVec 13} {word : Word} {owner : Tag} {f : Flt} : Kept
    (parkOwner c unit strm rword word owner f) :=
  kept_bind_state fun _ hk => kept_bind (kept_modState fun _ => canon_onCore fun _ hk' => core_upd (canonical_pm
      (canonical_foldl (fun _ _ hk2 => canonical_park hk2) hk'))) fun _ => kept_ite kept_pure kept_appendFault

/-! ## The running of an engine word -/

theorem canonical_haltEngine {k : Core} {t : Strm} {h : Halt} (hk : k.canonical = true) : (k.haltEngine t h).canonical = true
    :=
  canonical_setEngine hk

theorem canon_headFault {s : State} {c : CoreId} {t : Strm} {w : Issued} {f : Flt} : Canon s (s.headFault c t w f) :=
  (canon_also kept_appendFault).trans (canon_onCore fun _ hk => canonical_haltEngine hk)

theorem canon_performFault {s : State} {c : CoreId} {t : Strm} {w : Issued} {f : Flt} : Canon s (s.performFault c t w f) :=
  canon_ite (.trans ((canon_also kept_appendFault).trans (canon_onCore fun _ hk => canonical_haltEngine (core_ite
      (canonical_setEngine hk) hk))) canon_raiseWire) ((canon_also kept_appendFault).trans (canon_onCore fun _ hk =>
      canonical_haltEngine (core_ite (canonical_setEngine hk) hk)))

theorem canonical_reloadLfsr {k : Core} {t : Strm} (hk : k.canonical = true) : (k.reloadLfsr t).canonical = true :=
  core_ite (canonical_setEngine hk) hk

theorem canonical_takeHead {k : Core} {t : Strm} {e : EWord} {ds : List Dsc} (hk : k.canonical = true) : (k.takeHead t e
    ds).canonical = true :=
  canonical_setEngine hk

theorem canonical_addProg {k : Core} {t : Strm} {w : Issued} (hk : k.canonical = true) : (k.addProg t w).canonical = true :=
  canonical_setEngine hk

theorem canonical_pmIssue {k : Core} {t : Strm} {op : Bool} (hk : k.canonical = true) : (k.pmIssue t op).canonical = true :=
    by
  unfold Core.pmIssue
  refine core_ite hk ?_
  split
  · exact canonical_pm hk
  · exact canonical_pm hk
  · exact hk

theorem canonical_noteIssue {k : Core} {t : Strm} {op : Bool} {cycle : Nat} (hk : k.canonical = true) : (k.noteIssue t op
    cycle).canonical = true :=
  core_ite (canonical_setEngine hk) hk

theorem canon_withEnv {s : State} {c : CoreId} {e : Env} : Canon s (s.withEnv c e) :=
  .trans (canon_onCore fun _ hk => core_same hk) (canon_foldl fun _ _ => canon_onCore fun _ hk => core_same hk)

/-- An action between two changes of the state that keep its form. -/
theorem canon_around {α β : Type} {act : M α} {s u : State} {f : α → State → β} {g : State → State} (hact : Kept act)
    (hu : Canon s u) (hg : ∀ v, Canon v (g v)) :
    Canon s (endState (match act u with
      | .ok a v => (.ok (f a v) (g v) : EStateM.Result Stop State β)
      | .error e v => .error e (g v))) := by
  have h := hu.trans (hact u)
  generalize act u = r at h ⊢
  cases r with
  | ok a v => exact h.trans (hg v)
  | error e v => exact h.trans (hg v)

theorem kept_inWord {α : Type} {c : CoreId} {t : Strm} {w : Issued} {act : M α} (hact : Kept act) :
    Kept (inWord c t w act) := by
  intro s
  refine canon_around hact ?_ fun v => ?_
  · have env : Canon s (match w.env with
        | some e => s.withEnv c e
        | none => s) := by
      cases w.env with
      | none => exact .refl s
      | some e => exact canon_withEnv
    split
    · exact env.trans (canon_onCore fun _ => canonical_setEngine)
    · exact env
  · have env := canon_ite (c := w.env.isSome = true) (canon_withEnv (c := c) (e := s.envOf c w.dscs)) (.refl v)
    exact canon_ite (env.trans (canon_onCore fun _ => canonical_setEngine)) env

/-- The record of line operations is put back as it was. -/
theorem canon_unlogged {s t : State} {x : Option OpLog} (h : Canon (s.onMem fun m => { m with opLog := x }) t) :
    Canon s (t.onMem fun m => { m with opLog := s.mem.opLog }) := fun hs =>
  have ⟨wf, _, lines⟩ := h (memoriesWf_onMem hs)
  ⟨memoriesWf_onMem wf, id, lines⟩

theorem kept_runBody {c : CoreId} {t : Strm} {body : Issued → M Issued} {w : Issued} {n : Option Nat}
    (hbody : ∀ w, Kept (body w)) : Kept (runBody c t body w n) := by
  intro s
  unfold runBody
  by_cases hl : (n.isSome || !w.ops.isEmpty) = true
  · have h := canon_unlogged (kept_inWord (c := c) (t := t) (w := w) (hbody w)
      (s.onMem fun m => { m with opLog := some { replay := w.ops, made := w.ops, left := n } }))
    simp only [hl, if_true]
    generalize inWord c t w (body w) _ = r at h ⊢
    rcases r with ⟨_, u⟩ | ⟨x, u⟩
    · exact ends_ok h
    · cases x <;> exact h
  · have h := kept_inWord (c := c) (t := t) (w := w) (hbody w) s
    simp only [hl, Bool.false_eq_true, if_false]
    generalize inWord c t w (body w) s = r at h ⊢
    rcases r with ⟨_, u⟩ | ⟨x, u⟩
    · exact ends_ok h
    · cases x <;> exact h

/-- Running a word's effects, from a state that keeps the form of the one to go back to. -/
theorem out_perform {e : EWord} {c : CoreId} {w : Issued} {s back : State} (he : EWordOk e) (hs : Canon back s) :
    OutOk back (perform e c w s back) := by
  have place : ∀ {u : State} {w : Issued}, Canon back u →
      OutOk back (.next (((u.undrain c e.strm).onCore c fun k => k.addProg e.strm w).endLate c)) := fun h =>
    out_next (.trans ((h.trans canon_undrain).trans (canon_onCore fun _ => canonical_addProg)) canon_endLate)
  unfold perform
  refine out_ite (place hs) ?_
  split
  · rename_i h
    exact place (hs.trans (canon_ok h (kept_runBody he.body)))
  · rename_i h
    have h := hs.trans (canon_error h (kept_runBody he.body))
    exact out_next (.trans ((h.trans canon_undrain).trans canon_performFault) canon_endLate)
  · exact out_next canon_addDrain
  · trivial
  · exact out_next (.refl _)

/-- An engine word at its head, or a schedule entry, keeps the canonical form where its parts do. -/
theorem out_tryWord {w bad : Word} {e : EWord} {ds : List Dsc} {entry : Option Nat} {s : State} (he : EWordOk e) :
    OutOk s (tryWord w bad e ds entry s) := by
  unfold tryWord
  dsimp only
  split
  · exact out_next canon_headFault
  refine out_ite (Canon.refl s) (out_ite (Canon.refl s) ?_)
  split
  · exact Canon.refl s
  rename_i k1 h1
  refine out_ite (Canon.refl s) ?_
  split
  · exact out_next ((canon_onCore fun _ => canonical_spoil he).trans canon_headFault)
  split
  · exact out_next canon_headFault
  rename_i k2 h2
  have hk : s.memoriesWf = true → k2.canonical = true := fun hs =>
    canonical_issueSig h2 (canonical_passWait h1 (canonical_core hs))
  split
  · rename_i hp
    refine out_perform he (.trans (canon_setCore fun hs => ?_) (canon_ok hp (kept_prep he)))
    have h3 := canonical_noteIssue (t := e.strm) (op := e.op) (cycle := s.cycle)
      (canonical_pmIssue (t := e.strm) (op := e.op) (canonical_reloadLfsr (t := e.strm) (hk hs)))
    split
    · exact core_same h3
    · exact canonical_takeHead h3
  · exact Canon.refl s

theorem out_runE {i : Instr} {e : EWord} {s : State} (he : EWordOk e) : OutOk s (runE i e s) := out_tryWord he

theorem ewordOk_nopWord {t : Strm} {h : Hdr} : EWordOk (nopWord t h) := by
  unfold nopWord
  refine EWordOk.mk (fun _ _ _ _ hk => hk) (fun _ => ?_) fun _ => ?_
  · dsimp only
    exact kept_pure
  · dsimp only
    exact kept_pure

/-- A word that takes nothing at issue keeps the canonical form where its effects do. -/
theorem ewordOk_ofBody {e : EWord} (hbody : ∀ w, Kept (e.body w)) (hspoil : e.spoil = fun _ _ _ k => k := by rfl)
    (hprep : e.prep = pure := by rfl) : EWordOk e where
  spoil _ _ _ _ hk := by rw [hspoil]; exact hk
  prep _ := by rw [hprep]; exact kept_pure
  body := hbody

theorem ewordOk_dsetWord {t : Strm} {h : Hdr} {o : DsetOp} : EWordOk (dsetWord t h o) :=
  ewordOk_ofBody fun _ => kept_bind (kept_modCore fun _ hk => canonical_setEngine hk) fun _ => kept_pure

theorem kept_ownRow {α : Type} {c : CoreId} {t : Strm} {w : Issued} {p : Pass} {b : Nat} {act : M α} (hact : Kept act) : Kept
    (ownRow c t w p b act) := by
  unfold ownRow
  refine kept_bind (kept_attempt hact) fun _ => ?_
  split
  · exact kept_pure
  · exact kept_ite (kept_bind_state fun _ _ => kept_bind kept_parkOwner fun _ => kept_pure) kept_throw

theorem kept_engLfsr {c : CoreId} {t : Strm} : Kept (engLfsr c t) := kept_bind_state fun _ _ => kept_pure

theorem kept_setLfsr {c : CoreId} {t : Strm} {q : BitVec 32} : Kept (setLfsr c t q) :=
  kept_modState fun _ => canon_onCore fun _ hk => canonical_setEngine hk

theorem kept_engMode {c : CoreId} {rnd : BitVec 3} : Kept (engMode c rnd) := kept_bind_state fun _ _ => kept_pure

theorem kept_readVals {c : CoreId} {d : Dsc} {slot j b first : Nat} : Kept (readVals c d slot j b first) := by
  unfold readVals
  refine kept_bind kept_readRow fun _ => ?_
  split
  · split
    · exact kept_ite (kept_mapM fun _ => kept_bind kept_freeWord fun _ => kept_pure) kept_pure
    · exact kept_raise

theorem kept_writeVals {c : CoreId} {t : Strm} {d : Dsc} {slot j b first : Nat} {mode : Mode} {sat : Bool} {vs : List Val} {p
    : Perf} : Kept (writeVals c t d slot j b first mode sat vs p) := by
  unfold writeVals
  refine kept_bind_state fun _ _ => ?_
  split
  · exact kept_raise
  exact kept_ite kept_pure (kept_bind kept_engLfsr fun _ => kept_branch kept_freeBytes kept_pure fun _ => kept_bind
      kept_writeRowTo fun _ => kept_bind kept_setLfsr fun _ => kept_pure)

theorem kept_copyRows {n : Nat} {f : Nat → Perf → M Perf} {p : Perf} (hf : ∀ a a2, Kept (f a a2)) : Kept (copyRows n f p) :=
    by
  unfold copyRows
  refine kept_foldlM fun _ _ => ?_
  intro s
  dsimp only
  split
  · rename_i e
    exact ends_error (canon_error e (kept_bind kept_newRow fun _ => hf _ _))
  · exact ends_act (.refl _) (kept_bind kept_newRow fun _ => hf _ _)

theorem kept_atPlace {α : Type} {p : Perf} {act : M α} (hact : Kept act) : Kept (atPlace p act) := by
  unfold atPlace
  refine kept_bind (kept_attempt hact) fun _ => ?_
  split
  · exact kept_pure
  · exact kept_throw

theorem kept_oneRow {α : Type} {c : CoreId} {t : Strm} {w : Issued} {pass : Pass} {parked : M Bool} {b n : Nat} {read : M α}
    {write : α → Perf → M Perf} {p : Perf} (hparked : Kept parked) (hread : Kept read) (hwrite : ∀ a a2, Kept (write a a2)) :
    Kept (oneRow c t w pass parked b n read write p) := by
  unfold oneRow
  refine kept_ite kept_pure (kept_bind hparked fun _ => kept_ite kept_pure (kept_bind (kept_ownRow (kept_atPlace hread)) fun _
      => ?_))
  split
  · exact kept_pure
  refine kept_bind hparked fun _ => kept_ite kept_pure (kept_bind (kept_ownRow (kept_atPlace (hwrite _ _))) fun _ => ?_)
  split
  · exact kept_pure
  · exact kept_pure

theorem kept_forRows {n : Nat} {f : Nat → M Unit} (hf : ∀ a, Kept (f a)) : Kept (forRows n f) := kept_forM fun _ => hf _

theorem kept_parkedNow {c : CoreId} {p : Pass} {i : Nat} : Kept (parkedNow c p i) := kept_bind_state fun _ _ => kept_pure

theorem canonical_dropProg {k : Core} {t : Strm} {i : Nat} (hk : k.canonical = true) : (k.dropProg t i).canonical = true :=
  canonical_setEngine hk

theorem canonical_onProg {k : Core} {w : Issued} {f : Issued → Issued} (hk : k.canonical = true) : (k.onProg w f).canonical =
    true :=
  canonical_setEngine hk

theorem kept_runDeferred {fillSlot : BitVec 2 → BitVec 3 → Nat → Issued → M Unit} {c : CoreId}
    (hfill : ∀ a b n w, Kept (fillSlot a b n w)) : ∀ {ds : List Deferred} {w : Issued}, Kept (runDeferred fillSlot c ds w)
  | [], _ => kept_pure
  | d :: ds, w => by
    have rest : ∀ {w : Issued}, Kept (runDeferred fillSlot c ds w) := kept_runDeferred hfill
    refine kept_bind_state fun s _ => ?_
    cases d with
    | release b n =>
      exact kept_bind (kept_modState fun _ => canon_onCore fun _ hk => core_same hk) fun _ => kept_bind rest fun _ => kept_pure
    | advance b n =>
      exact kept_bind (kept_modState fun _ => canon_onCore fun _ hk => core_same hk) fun _ => kept_bind rest fun _ => kept_pure
    | setStage st g => exact kept_bind (kept_modState fun _ => canon_onCore fun _ hk => core_same hk) fun _ => rest
    | pushMeta q bytes => exact kept_bind (kept_modState fun _ => canon_onCore fun _ hk => core_same hk) fun _ => rest
    | linkLost =>
      exact kept_bind (kept_modState fun _ => canon_onCore fun _ => canonical_onProg) fun _ =>
        kept_bind kept_freeWord fun _ => kept_raise
    | fill win rnd =>
      dsimp only
      split
      · exact rest
      · refine kept_ite kept_pure (kept_bind (kept_attempt (kept_inWord (hfill _ _ _ _))) fun x => ?_)
        cases x with
        | error f => exact kept_bind (kept_modState fun _ => canon_onCore fun _ => canonical_onProg) fun _ => kept_throw
        | ok q => exact kept_bind (kept_modState fun _ => canon_onCore fun _ => canonical_onProg) fun _ => rest

theorem canon_engTrySignal {s t : State} {c : CoreId} {w : Issued} (e : s.engTrySignal c w = .ok t) : Canon s t := by
  unfold State.engTrySignal at e
  dsimp only at e
  split at e
  · cases e
    exact .refl s
  split at e
  · rename_i h
    cases e
    exact canon_setCore fun hs => canonical_addFlag h (canonical_core hs)
  · exact nomatch e

theorem canon_engSignal {s u : State} {c : CoreId} {t : Strm} {w : Issued} {b : Bool} (e : s.engSignal c t w = (u, b)) :
    Canon s u := by
  unfold State.engSignal at e
  dsimp only at e
  split at e
  · cases e
    exact .refl s
  split at e
  · rename_i h
    cases e
    exact canon_setCore fun hs => canonical_addFlag h (canonical_core hs)
  · cases e
    exact (canon_also kept_appendFault).trans (canon_onCore fun _ => canonical_haltEngine)

theorem out_completeWord {fillSlot : BitVec 2 → BitVec 3 → Nat → Issued → M Unit} {c : CoreId} {t : Strm} {i : Nat} {s :
    State} (hfillSlot : ∀ a a2 a3 a4, Kept (fillSlot a a2 a3 a4)) : OutOk s (completeWord fillSlot c t i s) := by
  unfold completeWord
  dsimp only
  split
  · exact out_next (.refl _)
  refine out_ite (out_next (.refl _)) ?_
  split
  · rename_i e
    split
    · rename_i e'
      exact out_next (.trans (.trans (.trans (.trans (canon_ok e (kept_runDeferred fun _ _ _ _ => hfillSlot _ _ _ _))
          canon_undrain) (canon_onCore fun _ hk => core_ite (core_upd (canonical_dropProg hk)) (canonical_dropProg hk)))
          (canon_engSignal e')) canon_endLate)
    rename_i e'
    exact out_ite (out_next (.refl _)) (out_next (.trans (.trans (.trans (canon_ok e (kept_runDeferred fun _ _ _ _ =>
        hfillSlot _ _ _ _)) canon_undrain) (canon_onCore fun _ hk => core_ite (core_upd (canonical_dropProg hk))
        (canonical_dropProg hk))) (canon_engSignal e')))
  · rename_i e
    refine out_ite (out_next (.refl _)) ?_
    split
    · rename_i e'
      exact out_next (.trans (.trans (.trans (canon_ok e (kept_runDeferred fun _ _ _ _ => hfillSlot _ _ _ _))
          (canon_engTrySignal e')) (canon_also kept_appendFault)) (canon_onCore fun _ hk => canonical_haltEngine
          (canonical_dropProg hk)))
    · exact out_next (.trans (.trans (canon_ok e (kept_runDeferred fun _ _ _ _ => hfillSlot _ _ _ _)) (canon_also
          kept_appendFault)) (canon_onCore fun _ hk => canonical_haltEngine (canonical_dropProg hk)))
  · rename_i e
    exact out_next (.trans (.trans (canon_ok e (kept_runDeferred fun _ _ _ _ => hfillSlot _ _ _ _)) canon_undrain)
        (canon_onCore fun _ hk => canonical_setEngine hk))
  · rename_i e
    exact out_ite (out_next (.refl _)) (out_next (.trans (.trans (.trans (canon_error e (kept_runDeferred fun _ _ _ _ =>
        hfillSlot _ _ _ _)) canon_undrain) (canon_onCore fun _ hk => canonical_dropProg hk)) canon_performFault))
  · exact out_next canon_addDrain
  · exact trivial
  · exact out_next (.refl _)

theorem out_goOn {e : EWord} {body : Issued → M Issued} {c : CoreId} {i : Nat} {s : State} (hbody : ∀ a, Kept (body a)) :
    OutOk s (goOn e body c i s) := by
  unfold goOn
  dsimp only
  split
  · exact out_next (.refl _)
  refine out_ite (out_next (.refl _)) ?_
  split
  · rename_i e'
    exact out_next (.trans (.trans (.trans (canon_ok e' (kept_runBody fun _ => hbody _)) canon_undrain) (canon_onCore fun _ hk
        => canonical_setEngine hk)) canon_endLate)
  · rename_i e'
    exact out_ite (out_next (.refl _)) (out_next (.trans (.trans (.trans (.trans (canon_error e' (kept_runBody fun _ => hbody
        _)) canon_undrain) (canon_onCore fun _ hk => canonical_dropProg hk)) canon_performFault) canon_endLate))
  · exact out_next canon_addDrain
  · exact trivial
  · exact out_next (.refl _)

/-! ## A stream's turn -/

theorem canon_decodeStop {s : State} {t : Strm} {w : Word} {f : Flt} : Canon s (s.decodeStop t w f) := by
  unfold State.decodeStop
  split
  · exact canon_aFault
  · exact canon_xFault
  · exact canon_headFault

theorem canon_reservedFault {s : State} {t : Strm} {i : Instr} {w mask : Word} : Canon s (s.reservedFault t i w mask) :=
  canon_ite canon_decodeStop canon_decodeStop

theorem canon_advance {s : State} {n : Nat} : Canon s (s.advance n) := canon_same

end Sys2Proof.Machine

/-! PROOFS. The canonical form, the access unit's plain words and the matrix engine. -/

namespace Sys2Proof.Machine

-- One proof after another, as for the tests: so many short ones at a time take more threads than the check's memory holds.
set_option Elab.async false

/-! ## Arithmetic, branches and readings of the access unit -/

theorem out_execANop {h : Hdr} {s : State} : OutOk s (execANop h s) := out_runA kept_pure

theorem out_execALi {h : Hdr} {o : LIOp} {s : State} : OutOk s (execALi h o s) :=
  out_runA (kept_bind kept_wrA fun _ => kept_pure)

theorem out_execALih {h : Hdr} {o : LIHOp} {s : State} : OutOk s (execALih h o s) :=
  out_runA (kept_bind kept_rdA fun _ => kept_bind kept_wrA fun _ => kept_pure)

theorem out_aBin {i : Instr} {h : Hdr} {d s1 s2 : Reg} {f : Word → Word → Word} {s : State} : OutOk s (aBin i h d s1 s2 f s)
    :=
  out_runA (kept_bind kept_rdA fun _ => kept_bind kept_rdA fun _ => kept_bind kept_wrA fun _ => kept_pure)

theorem out_aUn {i : Instr} {h : Hdr} {d s1 : Reg} {f : Word → Word} {s : State} : OutOk s (aUn i h d s1 f s) :=
  out_runA (kept_bind kept_rdA fun _ => kept_bind kept_wrA fun _ => kept_pure)

theorem out_execAAdd {h : Hdr} {o : RR3} {s : State} : OutOk s (execAAdd h o s) := out_aBin

theorem out_execAAddi {h : Hdr} {o : RIOp} {s : State} : OutOk s (execAAddi h o s) := out_aUn

theorem out_execASub {h : Hdr} {o : RR3} {s : State} : OutOk s (execASub h o s) := out_aBin

theorem out_execAAnd {h : Hdr} {o : RR3} {s : State} : OutOk s (execAAnd h o s) := out_aBin

theorem out_execAOr {h : Hdr} {o : RR3} {s : State} : OutOk s (execAOr h o s) := out_aBin

theorem out_execAXor {h : Hdr} {o : RR3} {s : State} : OutOk s (execAXor h o s) := out_aBin

theorem out_execShli {h : Hdr} {o : ShiftOp} {s : State} : OutOk s (execShli h o s) := out_aUn

theorem out_execShri {h : Hdr} {o : ShiftOp} {s : State} : OutOk s (execShri h o s) := out_aUn

theorem out_execLea {h : Hdr} {o : RR3K} {s : State} : OutOk s (execLea h o s) := out_aBin

theorem out_aBranch {i : Instr} {h : Hdr} {o : BOp} {taken : Word → Word → Bool} {s : State} : OutOk s (aBranch i h o taken s)
    :=
  out_runA (kept_bind_core fun _ _ => kept_bind kept_rdA fun _ => kept_bind kept_rdA fun _ => kept_pure)

theorem out_execBeq {h : Hdr} {o : BOp} {s : State} : OutOk s (execBeq h o s) := out_aBranch

theorem out_execBne {h : Hdr} {o : BOp} {s : State} : OutOk s (execBne h o s) := out_aBranch

theorem out_execBlt {h : Hdr} {o : BOp} {s : State} : OutOk s (execBlt h o s) := out_aBranch

theorem out_execBge {h : Hdr} {o : BOp} {s : State} : OutOk s (execBge h o s) := out_aBranch

theorem out_execAJmp {h : Hdr} {o : LIOp} {s : State} : OutOk s (execAJmp h o s) :=
  out_runA (kept_bind_core fun _ _ => kept_bind kept_wrA fun _ => kept_pure)

theorem out_execAJr {h : Hdr} {o : RR2} {s : State} : OutOk s (execAJr h o s) :=
  out_runA (kept_bind_core fun _ _ => kept_bind kept_rdA fun _ => kept_bind kept_wrA fun _ => kept_pure)

theorem kept_readFt : Kept readFt := kept_bind_state fun _ _ => kept_pure

theorem out_execAFtrd {h : Hdr} {d : Reg} {s : State} : OutOk s (execAFtrd h d s) :=
  out_runA (kept_bind kept_readFt fun _ => kept_bind kept_wrA fun _ => kept_pure)

theorem out_execTickrd {h : Hdr} {o : TickOp} {s : State} : OutOk s (execTickrd h o s) :=
  out_runA (kept_bind_state fun _ _ => kept_bind kept_readFt fun _ => kept_bind kept_wrA fun _ => kept_pure)

theorem kept_pmRead {n : Nat} : Kept (pmRead n) := by
  unfold pmRead
  refine kept_bind_state fun _ _ => ?_
  dsimp only
  split
  · exact kept_pure
  · exact kept_pure

theorem out_execPmrd {h : Hdr} {o : PmOp} {s : State} : OutOk s (execPmrd h o s) :=
  out_runA (kept_bind kept_pmRead fun _ => kept_bind kept_wrA fun _ => kept_pure)

/-! ## Owner bits, rings, flags, bobbins and exceptions -/

theorem canonical_setOwner {k : Core} {b0 n : Nat} {v : Bool} (hk : k.canonical = true) : (k.setOwner b0 n v).canonical = true
    :=
  core_same hk

theorem out_execOwn {h : Hdr} {o : OwnOp} {s : State} : OutOk s (execOwn h o s) :=
  out_runA (kept_bind_state fun _ _ => kept_bind kept_stallIf fun _ => kept_bind (kept_modCore fun _ hk =>
      canonical_setOwner hk) fun _ => kept_pure)

theorem out_execRingset {h : Hdr} {o : RingSetOp} {s : State} : OutOk s (execRingset h o s) :=
  out_runA (kept_bind_core fun _ _ => kept_bind kept_stallIf fun _ => kept_bind (kept_modCore fun _ hk => canonical_setRing
      hk) fun _ => kept_pure)

theorem out_execRingpub {h : Hdr} {o : RingPubOp} {s : State} : OutOk s (execRingpub h o s) := by
  unfold execRingpub
  refine out_runA (kept_bind ?_ fun _ => ?_)
  · split
    · exact kept_pure
    · exact kept_bind kept_rdA fun _ => kept_pure
  · exact kept_bind_core fun _ hk => kept_bind (kept_modCore fun _ hk' => canonical_setRing hk') fun _ => kept_pure

theorem out_execRingrd {h : Hdr} {o : RingRdOp} {s : State} : OutOk s (execRingrd h o s) :=
  out_runA (kept_bind_core fun _ _ => kept_bind kept_wrA fun _ => kept_pure)

theorem kept_sendRemote {target : CoreId} {t : Strm} {v : BitVec 6} {n : BitVec 16} {w : Word} {rword : BitVec 13} {pass :
    BitVec 32} {owner : Tag} {abs : Nat} {entry : Option Nat} : Kept (sendRemote target t v n w rword pass owner abs entry) :=
  kept_modState fun _ => canon_same

theorem out_execFinc {h : Hdr} {o : FincOp} {s : State} : OutOk s (execFinc h o s) := by
  unfold execFinc
  refine out_runA (kept_bind_core fun _ hk => kept_ite (kept_bind kept_stallIf fun _ => kept_bind kept_rdA fun _ => kept_bind
      kept_sendRemote fun _ => kept_bind (kept_modCore fun _ hk' => core_same hk') fun _ => kept_throw) ?_)
  split
  · rename_i e
    exact kept_bind (kept_modCore fun _ _ => canonical_addFlag e hk) fun _ => kept_pure
  · exact kept_raise

theorem out_execFset {h : Hdr} {o : FsetOp} {s : State} : OutOk s (execFset h o s) :=
  out_runA (kept_bind kept_rdA fun _ => kept_bind_core fun _ hk => kept_check kept_raise (kept_bind (kept_modCore fun _ hk' =>
      core_same hk') fun _ => kept_pure))

theorem out_execFrd {h : Hdr} {o : FrdOp} {s : State} : OutOk s (execFrd h o s) :=
  out_runA (kept_bind_core fun _ _ => kept_bind kept_wrA fun _ => kept_pure)

theorem out_execFwait {h : Hdr} {o : FwaitOp} {s : State} : OutOk s (execFwait h o s) :=
  out_runA (kept_bind_core fun _ hk => kept_check kept_throw (kept_check (kept_modCore fun _ hk' => core_same hk') kept_pure))

theorem kept_setBob {b : BitVec 5} {x : Bobbin} : Kept (setBob b x) := kept_modCore fun _ hk => core_same hk

theorem out_execBbind {h : Hdr} {o : BbindOp} {s : State} : OutOk s (execBbind h o s) :=
  out_runA (kept_bind_core fun _ _ => kept_bind kept_stallIf fun _ => kept_bind kept_rdA fun _ => kept_bind kept_setBob fun _
      => kept_pure)

theorem out_execBfillw {h : Hdr} {o : BwaitOp} {s : State} : OutOk s (execBfillw h o s) :=
  out_runA (kept_bind_core fun _ _ => kept_check kept_throw kept_pure)

theorem out_execBfreew {h : Hdr} {o : BwaitOp} {s : State} : OutOk s (execBfreew h o s) :=
  out_runA (kept_bind_core fun _ _ => kept_check kept_throw kept_pure)

theorem out_execBadv {h : Hdr} {b : BitVec 5} {s : State} : OutOk s (execBadv h b s) := by
  unfold execBadv
  refine out_runA ?_
  refine kept_bind_core fun _ _ => ?_
  dsimp only
  split
  · exact kept_bind kept_setBob fun _ => kept_pure
  · exact kept_bind kept_raise fun _ => kept_pure

theorem kept_spoilBobbin {x : Bobbin} : Kept (spoilBobbin x) :=
  kept_forM fun _ => kept_bind kept_freeBytes fun _ => kept_bind kept_freeBytes fun _ => kept_modCore fun _ hk =>
      canonical_putSpadRow hk

theorem out_execBrel {h : Hdr} {b : BitVec 5} {s : State} : OutOk s (execBrel h b s) := by
  unfold execBrel
  refine out_runA ?_
  refine kept_bind_core fun _ _ => ?_
  dsimp only
  split
  · exact kept_bind kept_setBob fun _ => kept_check kept_spoilBobbin kept_pure
  · exact kept_bind kept_raise fun _ => kept_pure

theorem out_execMark {h : Hdr} {o : MarkOp} {s : State} : OutOk s (execMark h o s) := by
  unfold execMark
  refine out_runA (kept_bind ?_ fun _ => kept_pure)
  exact kept_modCore fun _ hk => core_same hk

theorem out_execJoin {h : Hdr} {t : BitVec 2} {s : State} : OutOk s (execJoin h t s) := by
  unfold execJoin
  refine out_runA (kept_bind_core fun _ hk => ?_)
  split
  · exact kept_bind (kept_modCore fun _ hk' => core_same hk') fun _ => kept_pure
  · exact kept_bind kept_stallIf fun _ => kept_bind (kept_modCore fun _ hk' => core_same hk') fun _ => kept_pure

theorem out_execFence {h : Hdr} {scope : BitVec 2} {s : State} : OutOk s (execFence h scope s) :=
  out_runA (kept_bind_state fun _ _ => kept_bind kept_stallIf fun _ => kept_pure)

theorem out_execASafe {h : Hdr} {n : BitVec 16} {s : State} : OutOk s (execASafe h n s) :=
  out_runA (kept_bind_core fun _ hk => kept_check kept_throw (kept_bind (kept_modCore fun _ hk' => core_upd
      (canonical_advanceA hk')) fun _ => kept_pure))

theorem out_execStadv {h : Hdr} {n : BitVec 8} {s : State} : OutOk s (execStadv h n s) :=
  out_runA (kept_bind (kept_modCore fun _ hk => core_same hk) fun _ => kept_pure)

theorem out_execSysc {h : Hdr} {n : BitVec 16} {s : State} : OutOk s (execSysc h n s) := by
  unfold execSysc
  refine out_runA (kept_bind_core fun _ hk => kept_bind (kept_ite kept_freeWord kept_pure) fun _ => kept_bind ?_ fun _ =>
      kept_pure)
  exact kept_modCore fun _ hk' => canonical_enterHandler (core_ite hk' (canonical_setRing hk'))

theorem out_execRfe {h : Hdr} {s : State} : OutOk s (execRfe h s) :=
  out_runA (kept_bind (kept_modCore fun _ hk => canonical_leaveHandler hk) fun _ => kept_bind (kept_modState fun _ =>
      canon_dropWire) fun _ => kept_pure)

theorem canonical_setCsr {k : Core} {cycle n : Nat} {v : Word} (hk : k.canonical = true) : (k.setCsr cycle n v).canonical =
    true :=
  core_ite (core_same hk) (core_ite (core_same hk) (core_ite (core_same hk) (core_ite (core_same hk) (core_ite (core_same hk)
      (core_ite (core_same hk) (core_ite (core_same hk) (core_ite (core_same hk) (core_ite (core_same hk) (core_ite (core_same
      hk) hk)))))))))

theorem out_execCsrr {h : Hdr} {o : CsrOp} {s : State} : OutOk s (execCsrr h o s) :=
  out_runA (kept_bind_state fun _ _ => kept_bind kept_wrA fun _ => kept_pure)

theorem out_execCsrw {h : Hdr} {o : CsrOp} {s : State} : OutOk s (execCsrw h o s) :=
  out_runA (kept_bind_state fun _ _ => kept_bind_core fun _ _ => kept_bind kept_rdA fun _ => kept_check kept_raise
      (kept_check kept_raise (kept_bind (kept_modCore fun _ hk => canonical_setCsr hk) fun _ => kept_pure)))

/-! ## The matrix engine -/

theorem kept_wloadBody {stg : Bool} {ends : List Deferred} {w : Issued} : Kept (wloadBody stg ends w) :=
  kept_bind_state fun _ _ => kept_bind (kept_mapM fun _ => kept_readRow) fun _ => kept_pure

theorem ewordOk_wloadWord {h : Hdr} {o : WloadOp} : EWordOk (wloadWord h o) := ewordOk_ofBody fun _ => kept_wloadBody

theorem canonical_takeShadow {k : Core} {d : Dsc} {p : Pass} (hk : k.canonical = true) : (k.takeShadow d p).canonical = true
    :=
  core_same hk

theorem canonical_restoreShadow {k : Core} {d : Dsc} {p : Pass} (hk : k.canonical = true) : (k.restoreShadow d p).canonical =
    true := by
  unfold Core.restoreShadow
  refine canonical_foldl (fun _ _ hk' => ?_) hk
  exact core_ite (canonical_setAccRow hk') hk'

theorem kept_shadowed {α : Type} {c : CoreId} {d : Dsc} {p : Pass} {act : M α} (hact : Kept act) : Kept (shadowed c d p act)
    := by
  unfold shadowed
  refine kept_bind (kept_modState fun _ => canon_onCore fun _ hk => canonical_takeShadow hk) fun _ => kept_bind (kept_attempt
      hact) fun _ => ?_
  split
  · exact kept_pure
  · exact kept_bind (kept_modState fun _ => canon_onCore fun _ hk => canonical_restoreShadow hk) fun _ => kept_throw

theorem kept_readB {c : CoreId} {b : BSrc} {w : Issued} : Kept (readB c b w) := by
  unfold readB
  refine kept_bind_state fun _ _ => ?_
  split
  · exact kept_pure
  exact kept_mapM fun _ => kept_readVals

theorem kept_multiplyRow {c : CoreId} {w : Issued} {p : Pass} {ints : Bool} {i : Nat} {pairs : Nat → List (Val × Val)} : Kept
    (multiplyRow c w p ints i pairs) := by
  unfold multiplyRow
  refine kept_bind_state fun _ hk => kept_bind (kept_ownRow kept_readAccRow) fun _ => ?_
  split
  · exact kept_pure
  · exact kept_bind kept_parkedNow fun _ => kept_ite kept_pure (kept_modState fun _ => canon_onCore fun _ hk' => canonical_pm
        (canonical_setAccRow hk'))

theorem kept_mmaBody {o : MmaOp} {w : Issued} : Kept (mmaBody o w) := by
  unfold mmaBody
  refine kept_bind_state fun _ _ => kept_bind ?_ fun _ => kept_pure
  refine kept_shadowed (kept_bind kept_readB fun _ => kept_forRows fun _ => kept_bind kept_parkedNow fun _ => kept_ite
      kept_pure (kept_bind_state fun _ _ => kept_bind (kept_ownRow kept_readVals) fun _ => ?_))
  split
  · exact kept_pure
  · exact kept_multiplyRow

theorem ewordOk_mmaWord {h : Hdr} {o : MmaOp} : EWordOk (mmaWord h o) := ewordOk_ofBody fun _ => kept_mmaBody

theorem kept_adapterTile {c : CoreId} {w : Issued} {b : Nat} : Kept (adapterTile c w b) :=
  kept_bind_state fun _ _ => kept_mapM fun _ => kept_readVals

theorem kept_gmmaBody {o : GmmaOp} {w : Issued} : Kept (gmmaBody o w) := by
  unfold gmmaBody
  refine kept_bind_state fun _ _ => kept_bind ?_ fun _ => kept_pure
  refine kept_shadowed (kept_forRows fun _ => kept_bind_state fun _ _ => kept_ite kept_pure (kept_bind (kept_ownRow
      kept_adapterTile) fun _ => ?_))
  split
  · exact kept_pure
  refine kept_bind (kept_ownRow kept_readVals) fun _ => ?_
  split
  · exact kept_pure
  · exact kept_multiplyRow

theorem ewordOk_gmmaWord {h : Hdr} {o : GmmaOp} : EWordOk (gmmaWord h o) := ewordOk_ofBody fun _ => kept_gmmaBody

theorem kept_smmaBody {o : SmmaOp} {w : Issued} : Kept (smmaBody o w) := by
  unfold smmaBody
  refine kept_bind_state fun _ _ => kept_bind ?_ fun _ => kept_pure
  refine kept_shadowed (kept_bind kept_readB fun _ => kept_forRows fun _ => kept_bind kept_parkedNow fun _ => kept_ite
      kept_pure (kept_bind_state fun _ _ => kept_bind (kept_ownRow (kept_mapM fun _ => kept_readVals)) fun _ => ?_))
  split
  · exact kept_pure
  · exact kept_multiplyRow

theorem canonical_popMeta {k : Core} {q : BitVec 2} (hk : k.canonical = true) : (k.popMeta q).canonical = true := core_same hk

theorem ewordOk_smmaWord {h : Hdr} {o : SmmaOp} : EWordOk (smmaWord h o) := by
  unfold smmaWord
  refine EWordOk.mk (fun _ _ _ _ hk => ?_) (fun _ => ?_) fun _ => ?_
  · dsimp only
    exact core_ite (canonical_popMeta hk) hk
  · dsimp only
    exact kept_bind_core fun _ hk => kept_bind (kept_modCore fun _ hk' => canonical_popMeta hk') fun _ => kept_pure
  · dsimp only
    exact kept_smmaBody

theorem ewordOk_mqbindWord {h : Hdr} {o : MqbindOp} : EWordOk (mqbindWord h o) :=
  ewordOk_ofBody fun _ => kept_bind (kept_modCore fun _ hk => core_same hk) fun _ => kept_pure

theorem ewordOk_aclrWord {h : Hdr} {o : AclrOp} : EWordOk (aclrWord h o) := by
  unfold aclrWord
  refine EWordOk.mk (fun _ _ _ _ hk => ?_) (fun _ => ?_) fun _ => ?_
  · dsimp only
    exact canonical_spoil ewordOk_nopWord hk
  · dsimp only
    exact kept_bind (kept_modCore fun _ hk => core_same hk) fun _ => kept_pure
  · dsimp only
    exact kept_bind_state fun _ hk => kept_bind (kept_forRows fun _ => kept_bind kept_parkedNow fun _ => kept_ite kept_pure
        (kept_modCore fun _ hk' => canonical_setAccRow hk')) fun _ => kept_pure

theorem kept_putAcc {α : Type} {r : Nat} {f : α → BitVec 32} {vs : List α} {p : Perf} : Kept (putAcc r f vs p) :=
  kept_bind (kept_modCore fun _ hk => canonical_setAccRow hk) fun _ => kept_pure

theorem ewordOk_aldWord {h : Hdr} {o : D2Pass} : EWordOk (aldWord h o) :=
  ewordOk_ofBody fun _ => kept_bind_state fun _ _ => kept_bind (kept_copyRows fun _ _ => kept_bind_state fun _ _ =>
      kept_oneRow kept_parkedNow kept_readVals fun _ _ => kept_putAcc) fun _ => kept_pure

theorem ewordOk_astWord {h : Hdr} {o : D2Conv} : EWordOk (astWord h o) :=
  ewordOk_ofBody fun _ => kept_bind_state fun _ _ => kept_bind kept_engMode fun _ => kept_bind (kept_copyRows fun _ _ =>
      kept_bind_state fun _ _ => kept_oneRow kept_parkedNow kept_readVals fun _ _ => kept_writeVals) fun _ => kept_pure

theorem ewordOk_asclWord {h : Hdr} {o : D2Pass} : EWordOk (asclWord h o) :=
  ewordOk_ofBody fun _ => kept_bind_state fun _ _ => kept_bind (kept_copyRows fun _ _ => kept_bind_state fun _ _ =>
      kept_oneRow kept_parkedNow (kept_bind kept_readVals fun _ => kept_bind kept_readAccRow fun _ => kept_pure) fun _ _ =>
      kept_putAcc) fun _ => kept_pure

theorem out_execMNop {h : Hdr} {s : State} : OutOk s (execMNop h s) := out_runE ewordOk_nopWord

theorem out_execMDset {h : Hdr} {o : DsetOp} {s : State} : OutOk s (execMDset h o s) := out_runE ewordOk_dsetWord

theorem out_execWload {h : Hdr} {o : WloadOp} {s : State} : OutOk s (execWload h o s) := out_runE ewordOk_wloadWord

theorem out_execMma {h : Hdr} {o : MmaOp} {s : State} : OutOk s (execMma h o s) := out_runE ewordOk_mmaWord

theorem out_execGmma {h : Hdr} {o : GmmaOp} {s : State} : OutOk s (execGmma h o s) := out_runE ewordOk_gmmaWord

theorem out_execSmma {h : Hdr} {o : SmmaOp} {s : State} : OutOk s (execSmma h o s) := out_runE ewordOk_smmaWord

theorem out_execMqbind {h : Hdr} {o : MqbindOp} {s : State} : OutOk s (execMqbind h o s) := out_runE ewordOk_mqbindWord

theorem out_execAclr {h : Hdr} {o : AclrOp} {s : State} : OutOk s (execAclr h o s) := out_runE ewordOk_aclrWord

theorem out_execAld {h : Hdr} {o : D2Pass} {s : State} : OutOk s (execAld h o s) := out_runE ewordOk_aldWord

theorem out_execAst {h : Hdr} {o : D2Conv} {s : State} : OutOk s (execAst h o s) := out_runE ewordOk_astWord

theorem out_execAscl {h : Hdr} {o : D2Pass} {s : State} : OutOk s (execAscl h o s) := out_runE ewordOk_asclWord

end Sys2Proof.Machine

/-! PROOFS. The canonical form, the copy engine, the events of the memory side, the change tree, the weight store and the
task graph. -/

namespace Sys2Proof.Machine

-- One proof after another, as for the tests: so many short ones at a time take more threads than the check's memory holds.
set_option Elab.async false

/-! ## The copy engine -/

theorem kept_copyFault {c : CoreId} {w : Issued} {own : Bool} {b : Nat} {f : Flt} : Kept (copyFault c w own b f) :=
  kept_ite (kept_bind_state fun _ _ => kept_parkOwner) kept_throw

theorem kept_copyPut {c : CoreId} {w : Issued} {y : RowAt} {b first : Nat} {f : Fmt} {r : Row} {p : Perf} : Kept (copyPut c w
    y b first f r p) := by
  unfold copyPut
  refine kept_bind (kept_attempt kept_writeRowTo) fun _ => ?_
  split
  · exact kept_bind (kept_modState fun _ => canon_onCore fun _ hk => canonical_pm hk) fun _ => kept_pure
  · exact kept_bind kept_copyFault fun _ => kept_pure

theorem kept_copyRow {c : CoreId} {w : Issued} {mode : Mode} {sat : Bool} {x y : RowAt} {b first : Nat} {parked : M Bool} {p :
    Perf} (hparked : Kept parked) : Kept (copyRow c w mode sat x y b first parked p) := by
  unfold copyRow
  refine kept_bind_state fun _ _ => ?_
  dsimp only
  split
  · exact kept_raise
  refine kept_ite kept_pure ?_
  refine kept_bind (kept_attempt kept_readRow) fun _ => ?_
  split
  · exact kept_bind kept_copyFault fun _ => kept_pure
  refine kept_bind hparked fun _ => kept_ite kept_pure ?_
  split
  · exact kept_raise
  · exact kept_bind kept_engLfsr fun _ => kept_bind kept_copyPut fun _ => kept_check kept_setLfsr kept_pure

theorem canon_markDirty {s : State} {page : Nat} : Canon s (s.markDirty page) := by
  unfold State.markDirty
  refine canon_ite (.refl _) ?_
  split
  · exact .refl _
  · exact canon_setPtWord.trans (canon_onMem memOk_same)

theorem kept_declareMarks {c : CoreId} {d : Dsc} : Kept (declareMarks c d) := by
  unfold declareMarks
  refine kept_ite ?_ kept_pure
  refine kept_bind_state fun _ _ => ?_
  split
  · exact kept_forM fun _ => kept_bind (kept_attempt kept_walkOpen) fun _ => kept_modState fun _ => canon_markDirty
  · exact kept_pure

theorem kept_copyBody {o : D2Conv} {w : Issued} : Kept (copyBody o w) :=
  kept_bind_state fun _ _ => kept_bind kept_engMode fun _ => kept_bind kept_declareMarks fun _ => kept_bind (kept_copyRows fun
      _ _ => kept_bind_state fun _ _ => kept_ite kept_pure (kept_copyRow kept_parkedNow)) fun _ => kept_pure

theorem ewordOk_copyWord {h : Hdr} {o : D2Conv} {srcs dsts : List Nat} : EWordOk (copyWord h o srcs dsts) :=
  ewordOk_ofBody fun _ => kept_copyBody

theorem ewordOk_ccopyWord {h : Hdr} {o : D2Conv} : EWordOk (ccopyWord h o) := ewordOk_copyWord

theorem ewordOk_cgathWord {h : Hdr} {o : D2Conv} : EWordOk (cgathWord h o) := ewordOk_copyWord

theorem ewordOk_cscatWord {h : Hdr} {o : D2Conv} : EWordOk (cscatWord h o) := ewordOk_copyWord

theorem ewordOk_cfillWord {h : Hdr} {o : CfillOp} : EWordOk (cfillWord h o) := by
  unfold cfillWord
  refine ewordOk_ofBody fun _ => kept_bind_state fun _ _ => kept_bind kept_engMode fun _ => kept_bind kept_declareMarks fun _
      => kept_bind ?_ fun _ => kept_pure
  refine kept_copyRows fun _ _ => kept_bind_state fun _ _ => ?_
  split
  · exact kept_raise
  · exact kept_ite kept_pure (kept_bind kept_engLfsr fun _ => kept_bind kept_copyPut fun _ => kept_bind kept_setLfsr fun _ =>
        kept_pure)

theorem kept_mcastSignal {o : CmcastOp} {w : Issued} {target : CoreId} {p : Perf} : Kept (mcastSignal o w target p) := by
  unfold mcastSignal
  split
  · exact kept_pure
  · exact kept_bind kept_sendRemote fun _ => kept_pure

theorem kept_mcastLoad {o : CmcastOp} {c : CoreId} {w : Issued} {mode : Mode} : Kept (mcastLoad o c w mode) := by
  unfold mcastLoad
  dsimp only
  refine kept_bind (kept_mapM fun _ => kept_readRow) fun _ => kept_copyRows fun _ _ => kept_bind ?_ fun _ => kept_mcastSignal
  refine kept_copyRows fun _ _ => kept_bind_state fun _ _ => ?_
  split
  · exact kept_bind kept_engLfsr fun _ => kept_bind kept_copyPut fun _ => kept_bind kept_setLfsr fun _ => kept_pure
  · exact kept_raise

theorem kept_mcastStore {o : CmcastOp} {c : CoreId} {w : Issued} {mode : Mode} : Kept (mcastStore o c w mode) :=
  kept_bind kept_declareMarks fun _ => kept_copyRows fun _ _ => kept_bind (kept_copyRows fun _ _ => kept_copyRow kept_pure)
      fun _ => kept_ite kept_pure kept_mcastSignal

theorem ewordOk_cmcastWord {h : Hdr} {o : CmcastOp} : EWordOk (cmcastWord h o) :=
  ewordOk_ofBody fun _ => kept_bind_state fun _ _ => kept_bind kept_engMode fun _ => kept_branch kept_mcastStore
      kept_mcastLoad fun _ => kept_pure

theorem ewordOk_cwbindWord {h : Hdr} {o : CwbindOp} : EWordOk (cwbindWord h o) :=
  ewordOk_ofBody fun _ => kept_bind_state fun _ hk => kept_bind (kept_modCore fun _ hk' => core_same hk') fun _ => kept_pure

theorem ewordOk_cwadvWord {h : Hdr} {o : CwadvOp} : EWordOk (cwadvWord h o) := by
  unfold cwadvWord
  dsimp only
  refine ewordOk_ofBody fun _ => ?_
  dsimp only
  refine kept_bind_state fun _ hk => ?_
  split
  · exact kept_pure
  · exact kept_bind (kept_modCore fun _ hk' => core_same hk') fun _ => kept_pure

theorem kept_fillSlot {win : BitVec 2} {rnd : BitVec 3} {left : Nat} {w : Issued} : Kept (fillSlot win rnd left w) := by
  unfold fillSlot
  refine kept_bind_state fun _ hk => ?_
  dsimp only
  split
  · exact kept_pure
  · exact kept_bind (kept_copyRows fun _ _ => kept_copyRow kept_pure) fun _ => kept_modState fun _ => canon_onCore fun _ hk'
        => core_same hk'

theorem ewordOk_cpfaWord {h : Hdr} {o : CpfaOp} : EWordOk (cpfaWord h o) :=
  ewordOk_ofBody fun _ => kept_bind_state fun _ _ => kept_bind kept_engMode fun _ => kept_bind (kept_copyRows fun _ _ =>
      kept_bind_state fun _ _ => kept_copyRows fun _ _ => kept_bind_state fun _ _ => kept_ite kept_pure (kept_copyRow
      (kept_bind_state fun _ _ => kept_pure))) fun _ => kept_pure

theorem ewordOk_cmetaWord {h : Hdr} {o : CmetaOp} : EWordOk (cmetaWord h o) :=
  ewordOk_ofBody fun _ => kept_bind_state fun _ hk => kept_bind (kept_mapM fun _ => kept_readRow) fun _ => kept_bind
      (kept_modCore fun _ hk' => canonical_pm hk') fun _ => kept_pure

theorem ewordOk_cschedWord {h : Hdr} {d1 : Desc} : EWordOk (cschedWord h d1) :=
  ewordOk_ofBody fun _ => kept_bind (kept_modCore fun _ hk => core_same hk) fun _ => kept_pure

/-- The words that a schedule entry may hold keep the canonical form. -/
theorem ewordOk_entryWord {i : Instr} {e : EWord} (h : entryWord i = some e) : EWordOk e := by
  unfold entryWord at h
  split at h
  · cases h; exact ewordOk_ccopyWord
  · cases h; exact ewordOk_cfillWord
  · cases h; exact ewordOk_cgathWord
  · cases h; exact ewordOk_cscatWord
  · cases h; exact ewordOk_cmcastWord
  · cases h; exact ewordOk_cpfaWord
  · cases h; exact ewordOk_cmetaWord
  · exact nomatch h

theorem out_issueEntry {e : Nat} {x : Entry} {s : State} : OutOk s (issueEntry e x s) := by
  unfold issueEntry
  split
  · exact out_ite (out_next canon_headFault) (out_next canon_headFault)
  split
  · exact out_ite (out_next canon_headFault) (out_next canon_headFault)
  rename_i e'
  exact out_ite (out_tryWord (ewordOk_entryWord e')) (out_next canon_headFault)

theorem out_execSchedEntryRelease {core : CoreId} {s : State} : OutOk s (execSchedEntryRelease core s) := by
  unfold execSchedEntryRelease
  dsimp only
  split
  · exact out_next canon_same
  refine out_ite (out_next canon_same) ?_
  split
  · exact out_trans canon_same out_issueEntry
  split
  · rename_i e
    exact out_trans (.trans (.trans (.trans canon_same (canon_ok e (kept_bind kept_check4 fun _ => kept_engRead)))
        canon_undrain) (canon_onCore fun _ hk => core_same hk)) out_issueEntry
  · rename_i e
    split
    · exact out_next canon_same
    · exact out_next (.trans (.trans (.trans canon_same (canon_afterFault (canon_error e (kept_bind kept_check4 fun _ =>
          kept_engRead)))) (canon_onCore fun _ hk => canonical_dropProg hk)) canon_performFault)
  · exact out_next (.trans canon_same canon_addDrain)
  · exact trivial
  · exact out_next canon_same

theorem out_execCNop {h : Hdr} {s : State} : OutOk s (execCNop h s) := out_runE ewordOk_nopWord

theorem out_execCDset {h : Hdr} {o : DsetOp} {s : State} : OutOk s (execCDset h o s) := out_runE ewordOk_dsetWord

theorem out_execCcopy {h : Hdr} {o : D2Conv} {s : State} : OutOk s (execCcopy h o s) := out_runE ewordOk_ccopyWord

theorem out_execCgath {h : Hdr} {o : D2Conv} {s : State} : OutOk s (execCgath h o s) := out_runE ewordOk_cgathWord

theorem out_execCscat {h : Hdr} {o : D2Conv} {s : State} : OutOk s (execCscat h o s) := out_runE ewordOk_cscatWord

theorem out_execCfill {h : Hdr} {o : CfillOp} {s : State} : OutOk s (execCfill h o s) := out_runE ewordOk_cfillWord

theorem out_execCmcast {h : Hdr} {o : CmcastOp} {s : State} : OutOk s (execCmcast h o s) := out_runE ewordOk_cmcastWord

theorem out_execCwbind {h : Hdr} {o : CwbindOp} {s : State} : OutOk s (execCwbind h o s) := out_runE ewordOk_cwbindWord

theorem out_execCwadv {h : Hdr} {o : CwadvOp} {s : State} : OutOk s (execCwadv h o s) := out_runE ewordOk_cwadvWord

theorem out_execCsched {h : Hdr} {d1 : Desc} {s : State} : OutOk s (execCsched h d1 s) := out_runE ewordOk_cschedWord

theorem out_execCpfa {h : Hdr} {o : CpfaOp} {s : State} : OutOk s (execCpfa h o s) := out_runE ewordOk_cpfaWord

theorem out_execCmeta {h : Hdr} {o : CmetaOp} {s : State} : OutOk s (execCmeta h o s) := out_runE ewordOk_cmetaWord

/-! ## Seam-link flits and the link words -/

theorem canon_onLink {s : State} {l : Nat} {f : Link → Link} : Canon s (s.onLink l f) := canon_same

theorem canon_sendFlit {s : State} {l : Nat} {f : Flit} : Canon s (s.sendFlit l f) := canon_onLink

theorem canon_emit {s : State} {l : Nat} {fs : List Flit} : Canon s (s.emit l fs) := canon_onLink

theorem canon_flush {s : State} {l slots : Nat} : Canon s (s.flush l slots) :=
  canon_ite (.refl _) (canon_onLink.trans canon_emit)

theorem canon_sendIdle {s : State} {l : Nat} {nak : Bool} : Canon s (s.sendIdle l nak) := canon_emit

theorem canonical_answer {k : Core} {at0 : Nat} {entry : Option Nat} (hk : k.canonical = true) : (k.answer at0
    entry).canonical = true :=
  core_same hk

theorem canon_linkAck {s : State} {l : Nat} {ack : BitVec 16} : Canon s (s.linkAck l ack) :=
  canon_ite (.refl _) (canon_onLink.trans (canon_foldl fun _ _ => canon_onCore fun _ hk => canonical_answer hk))

theorem canon_resend {s : State} {l : Nat} : Canon s (s.resend l) := canon_onLink.trans canon_emit

theorem ewordOk_clsendWord {h : Hdr} {o : ClOp} : EWordOk (clsendWord h o) :=
  ewordOk_ofBody fun _ => kept_bind_state fun _ _ => kept_bind (kept_mapM fun _ => kept_readRow) fun _ => kept_bind
      (kept_modState fun _ => canon_onLink) fun _ => kept_pure

theorem out_execClsendTransmit {link : BitVec 4} {s : State} : OutOk s (execClsendTransmit link s) := by
  unfold execClsendTransmit
  dsimp only
  split
  · exact out_next (.refl _)
  · exact out_ite (out_next (.refl _)) (out_next (.trans (canon_foldl fun _ _ => canon_onLink.trans canon_sendFlit)
        canon_onLink))

theorem kept_takeBlock {c : CoreId} {l : BitVec 4} {num : BitVec 12} : Kept (takeBlock c l num) := by
  unfold takeBlock
  refine kept_bind_state fun _ hk => ?_
  split
  · exact kept_throw
  · exact kept_bind (kept_modState fun _ => canon_onCore fun _ hk' => core_same hk') fun _ => kept_pure

theorem kept_blockRow {bs : List Byte} {at0 n : Nat} : Kept (blockRow bs at0 n) :=
  kept_bind (kept_mapM fun _ => kept_bind kept_freeWord fun _ => kept_pure) fun _ => kept_pure

theorem kept_blockRows {c : CoreId} {d : Dsc} {slot : Nat} {bs : List Byte} : Kept (blockRows c d slot bs) := by
  unfold blockRows
  refine kept_bind_state fun _ _ => kept_bind ?_ fun _ => kept_pure
  refine kept_foldlM fun _ _ => ?_
  split
  · exact kept_raise
  · exact kept_bind kept_blockRow fun _ => kept_pure

theorem ewordOk_clrecvWord {h : Hdr} {o : ClOp} : EWordOk (clrecvWord h o) := by
  unfold clrecvWord
  refine ewordOk_ofBody fun _ => kept_bind_state fun _ _ => kept_bind kept_takeBlock fun _ => kept_bind kept_blockRows fun _
      => kept_bind ?_ fun _ => kept_pure
  refine kept_copyRows fun _ _ => ?_
  split
  · exact kept_pure
  · exact kept_bind kept_copyPut fun _ => kept_pure

theorem ewordOk_clredWord {h : Hdr} {o : ClredOp} : EWordOk (clredWord h o) := by
  unfold clredWord
  refine ewordOk_ofBody fun _ => kept_bind_state fun _ _ => kept_bind kept_engMode fun _ => kept_bind (kept_mapM fun _ =>
      kept_readVals) fun _ => kept_bind kept_takeBlock fun _ => kept_bind kept_blockRows fun _ => kept_bind ?_ fun _ =>
      kept_pure
  refine kept_copyRows fun _ _ => ?_
  split
  · exact kept_pure
  · exact kept_bind kept_engLfsr fun _ => kept_bind kept_copyPut fun _ => kept_bind kept_setLfsr fun _ => kept_pure

theorem out_execClsend {h : Hdr} {o : ClOp} {s : State} : OutOk s (execClsend h o s) := out_runE ewordOk_clsendWord

theorem out_execClrecv {h : Hdr} {o : ClOp} {s : State} : OutOk s (execClrecv h o s) := out_runE ewordOk_clrecvWord

theorem out_execClred {h : Hdr} {o : ClredOp} {s : State} : OutOk s (execClred h o s) := out_runE ewordOk_clredWord

/-! ## The events of the memory side -/

theorem out_execL2Fill {panel : BitVec 2} {owner : Tag} {line : BitVec 50} {s : State} : OutOk s (execL2Fill panel owner line
    s) :=
  out_ite (out_runEvent (kept_ite kept_needLine (kept_bind kept_readLine fun _ => kept_pure))) (out_next (.refl _))

theorem kept_xlatBack {line : Nat} : Kept (xlatBack line) := by
  unfold xlatBack
  refine kept_bind_state fun _ _ => kept_bind (kept_modState fun _ => canon_dropBad) fun _ => kept_ite (kept_bind
      kept_translate fun _ => kept_pure) ?_
  split
  · exact kept_bind (kept_modState fun _ => canon_onCtl) fun _ => kept_pure
  refine kept_bind (kept_modState fun _ => canon_pmPanel) fun _ => kept_bind kept_walkOpen fun _ => kept_bind_state fun _ _ =>
      ?_
  split
  · exact kept_pure
  · exact kept_bind (kept_modState fun _ => canon_markPte) fun _ => kept_pure

theorem canon_dropLine {s : State} {line : Nat} : Canon s (s.dropLine line) := by
  unfold State.dropLine
  refine canon_onMem ?_
  generalize List.replicate 64 (0 : Byte) = bs
  exact ⟨id, wf_setBytes _ _ _, id, id⟩

theorem canon_toVictim {s : State} {phys : Nat} {key : BitVec 8} {owner : Tag} {dirty : Bool} {d : BitVec 512} : Canon s
    (s.toVictim phys key owner dirty d) :=
  canon_onMem memOk_same

theorem kept_keepClean {line : Nat} {t : Line} : Kept (keepClean line t) := by
  unfold keepClean
  refine kept_bind (kept_attempt kept_xlatBack) fun _ => ?_
  split
  · exact kept_bind_state fun _ _ => kept_check kept_throw (kept_ite (kept_bind kept_stallIf fun _ => kept_bind (kept_modState
        fun _ => canon_toVictim) fun _ => kept_modState fun _ => canon_dropLine) (kept_modState fun _ => canon_dropLine))
  · exact kept_modState fun _ => canon_dropLine

theorem kept_evictLine {l : Nat} {t : Line} : Kept (evictLine l t) :=
  kept_bind_state fun _ _ => kept_ite kept_pure (kept_ite (kept_bind kept_appendFault fun _ => kept_modState fun _ =>
      canon_ite (canon_onMem memOk_same) canon_dropLine) (kept_ite kept_keepClean (kept_ite kept_pure (kept_modState fun _ =>
      .trans (canon_onMem memOk_same) canon_dropLine))))

theorem kept_evictPt {l : Nat} {t : PtLine} : Kept (evictPt l t) :=
  kept_bind_state fun _ _ => kept_ite kept_pure (kept_ite (kept_bind kept_appendFault fun _ => kept_modState fun _ =>
      canon_ite (canon_onMem memOk_same) (canon_onMem memOk_same)) (kept_bind kept_stallIf fun _ => kept_modState fun _ =>
      .trans ((canon_ite canon_demand (.refl _)).trans canon_toVictim) (canon_onMem memOk_same)))

theorem kept_evictReplica {p l : Nat} {r : Replica} : Kept (evictReplica p l r) :=
  kept_check kept_appendFault (kept_modMem fun _ => memOk_same)

theorem out_execL2Eviction {panel : BitVec 2} {line : L2Name} {s : State} : OutOk s (execL2Eviction panel line s) := by
  unfold execL2Eviction
  dsimp only
  split
  · split
    · exact out_ite (out_runEvent kept_evictPt) (out_next (.refl _))
    · exact out_next (.refl _)
  refine out_ite ?_ ?_
  · split
    · exact out_ite (out_runEvent kept_evictReplica) (out_next (.refl _))
    · exact out_next (.refl _)
  · split
    · exact out_ite (out_runEvent kept_evictLine) (out_next (.refl _))
    · exact out_next (.refl _)

theorem kept_setDirty {line : Nat} {x : Xlat} : Kept (setDirty line x) := by
  unfold setDirty
  split
  · exact kept_pure
  refine kept_ite ?_ kept_pure
  exact kept_bind kept_ptOpen fun _ => kept_bind_state fun _ _ => kept_bind (kept_ite (kept_bind kept_walkOpen fun _ =>
      kept_bind_state fun _ _ => kept_pure) kept_pure) fun _ => kept_modState fun _ => canon_markPte.trans canon_onCtl

theorem kept_backLine {b : WriteBack} {look : M (Option Xlat)} {land : Xlat → M Unit} (hlook : Kept look) (hland : ∀ a, Kept
    (land a)) : Kept (backLine b look land) := by
  unfold backLine
  refine kept_bind (kept_attempt hlook) fun _ => ?_
  split
  · exact kept_appendFault
  · exact kept_bind (kept_modState fun _ => canon_onCtl) fun _ => kept_appendFault
  refine kept_bind_state fun _ _ => kept_ite kept_appendFault (kept_ite kept_throw (kept_bind (kept_attempt kept_setDirty) fun
      _ => ?_))
  split
  · exact kept_appendFault
  · exact hland _

theorem out_execWritebackArrival {k : Nat} {s : State} : OutOk s (execWritebackArrival k s) := by
  unfold execWritebackArrival
  split
  · exact out_next (.refl _)
  · exact out_runEvent (kept_bind (kept_modMem fun _ => memOk_same) fun _ => kept_backLine kept_xlatBack fun _ =>
        kept_bind_state fun _ _ => kept_bind kept_stallIf fun _ => kept_modState fun _ => canon_demand.trans canon_toVictim)

theorem out_execVictimEviction {ctl : BitVec 3} {pline : BitVec 42} {s : State} : OutOk s (execVictimEviction ctl pline s) :=
    by
  unfold execVictimEviction
  refine out_ite (out_next (.refl _)) ?_
  split
  · exact out_next (.refl _)
  · exact out_next (.trans (canon_ite ((canon_ite canon_onCtl (.refl _)).trans canon_setHbmLine) (canon_ite canon_onCtl (.refl
        _))) (canon_onMem memOk_same))

theorem out_execLeaseReread {ctl : BitVec 3} {k : Nat} {s : State} : OutOk s (execLeaseReread ctl k s) := by
  unfold execLeaseReread
  dsimp only
  split
  · exact out_next (.refl _)
  refine out_ite (out_next canon_onCtl) ?_
  refine out_ite (out_next (.refl _)) ?_
  refine out_runEvent ?_
  refine kept_bind (kept_modState fun _ => canon_pmPanel) fun _ => kept_bind (kept_attempt kept_ptOpen) fun _ => ?_
  split
  · exact kept_modState fun _ => canon_onCtl
  · exact kept_bind (kept_modState fun _ => canon_markPte) fun _ => kept_modState fun _ => canon_onCtl

theorem out_execTcEntryExpiry {ctl : BitVec 3} {k : Nat} {s : State} : OutOk s (execTcEntryExpiry ctl k s) := by
  unfold execTcEntryExpiry
  dsimp only
  split
  · exact out_next (.refl _)
  · exact out_ite (out_next (.refl _)) (out_next canon_onCtl)

theorem out_execUpdateApply {panel : BitVec 2} {k : Nat} {s : State} : OutOk s (execUpdateApply panel k s) := by
  unfold execUpdateApply
  split
  · exact out_next (.refl _)
  · exact out_ite (out_next (canon_onMem (.trans memOk_same memOk_applyUpdate))) (out_next (.refl _))

theorem out_execRefresh {stack : BitVec 3} {s : State} : OutOk s (execRefresh stack s) :=
  out_ite (out_next (.refl _)) (out_next canon_onCtl)

theorem out_execRefreshEnd {stack : BitVec 3} {s : State} : OutOk s (execRefreshEnd stack s) := out_next canon_onCtl

theorem out_execStackTemperatureCrossing {stack : BitVec 3} {hot : Bool} {s : State} : OutOk s (execStackTemperatureCrossing
    stack hot s) :=
  out_next canon_onCtl

theorem out_execScrubRead {stack : BitVec 3} {s : State} : OutOk s (execScrubRead stack s) :=
  out_ite (out_next (.refl _)) (out_ite (out_trans canon_onCtl (out_runEvent (kept_bind (kept_modState fun _ => canon_onCtl)
      fun _ => kept_appendFault))) (out_ite (out_next (canon_onCtl.trans canon_onCtl)) (out_next canon_onCtl)))

theorem out_execScrubWriteback {stack : BitVec 3} {s : State} : OutOk s (execScrubWriteback stack s) := by
  unfold execScrubWriteback
  split
  · exact out_next (.refl _)
  · exact out_ite (out_next (.refl _)) (out_next ((canon_onMem ⟨wf_setBytes _ _ _, id, id, id⟩).trans canon_onCtl))

theorem out_execSkewCompare {ctl : BitVec 3} {s : State} : OutOk s (execSkewCompare ctl s) :=
  out_ite (out_trans (canon_onCtl.trans (canon_onMem memOk_same)) (out_runEvent kept_appendTo)) (out_ite (out_next (.trans
      (canon_onCtl.trans canon_onCtl) (canon_onMem memOk_same))) (out_next (canon_onCtl.trans canon_onCtl)))

theorem memOk_dropConst {m : Mem} {p : Nat} : MemOk m (m.dropConst p) := memOk_same

theorem out_execCcinv {p : BitVec 2} {s : State} : OutOk s (execCcinv p s) := out_next (canon_onMem memOk_dropConst)

/-! ## The change tree -/

theorem kept_xlateBy {set : RangeSet} {va : Word} {n need : Nat} : Kept (xlateBy set va n need) := by
  unfold xlateBy
  split
  · exact kept_pure
  · exact kept_raise

theorem kept_ctxXlate {va : Word} {n need : Nat} : Kept (ctxXlate va n need) := kept_bind_core fun _ _ => kept_xlateBy

theorem kept_aTag : Kept aTag := kept_bind_core fun _ _ => kept_pure

theorem canon_onRollup {s : State} {p : Nat} {f : RollUp → RollUp} : Canon s (s.onRollup p f) := canon_same

theorem kept_treeLost {n p : Nat} {f : Flt} : Kept (treeLost n p f) :=
  kept_bind (kept_modState fun _ => canon_onRollup) fun _ => kept_appendTo

theorem kept_nodeWord {n i : Nat} : Kept (nodeWord n i) := by
  unfold nodeWord
  refine kept_bind_state fun _ _ => kept_bind (kept_unitTry (kept_attempt kept_memRead)) fun _ => ?_
  split
  · exact kept_pure
  · exact kept_ite (kept_bind kept_treeLost fun _ => kept_throw) kept_pure
  · exact kept_pure

theorem kept_nodePut {p n i : Nat} {w : Word} : Kept (nodePut p n i w) :=
  kept_bind_state fun _ _ => kept_bind (kept_unitTry kept_memWrite) fun _ => kept_pure

theorem kept_treeSee {la : Nat} : Kept (treeSee la) := kept_modState fun _ => canon_onMem memOk_catchUp

theorem kept_handleNode {h : Word} : Kept (handleNode h) :=
  kept_ite kept_pure (kept_bind kept_nodeWord fun _ => kept_bind kept_nodeWord fun _ => kept_pure)

theorem kept_needNode {h : Word} : Kept (needNode h) := by
  unfold needNode
  refine kept_bind kept_handleNode fun _ => ?_
  split
  · exact kept_pure
  · exact kept_raise

theorem kept_nodeCount {n : Nat} {patches children : Int} : Kept (nodeCount n patches children) :=
  kept_bind kept_nodeWord fun _ => kept_nodePut

theorem canon_putDelta {s : State} {n : Nat} {rise : Bool} {move : Nat} {below : List (BitVec 24)} : Canon s (s.putDelta n
    rise move below) :=
  canon_same

theorem canon_addDelta {s : State} {n : Nat} : Canon s (s.addDelta n) := canon_putDelta

theorem kept_chain : ∀ {fuel n : Nat}, Kept (chain fuel n)
  | 0, _ => kept_pure
  | _ + 1, _ => kept_ite kept_pure (kept_bind kept_nodeWord fun _ => kept_bind kept_chain fun _ => kept_pure)

theorem kept_pathOf {n : Nat} : Kept (pathOf n) := kept_chain

theorem kept_anyM {α : Type} {f : α → M Bool} (hf : ∀ a, Kept (f a)) : ∀ {l : List α}, Kept (anyM f l)
  | [] => kept_pure
  | _ :: _ => kept_bind (hf _) fun _ => kept_ite kept_pure (kept_anyM hf)

theorem kept_patchLost {x : Nat} {f : Flt} : Kept (patchLost x f) := kept_treeLost

theorem kept_patchPut {x la : Nat} {bs : List Byte} : Kept (patchPut x la bs) := by
  unfold patchPut
  refine kept_bind (kept_unitTry (kept_attempt kept_memWrite)) fun _ => ?_
  split
  · exact kept_ite kept_patchLost kept_pure
  · exact kept_pure

theorem kept_patchRecord {x : Nat} {r : Patch} : Kept (patchRecord x r) := by
  unfold patchRecord
  refine kept_bind_state fun _ _ => kept_ite kept_pure (kept_bind (kept_unitTry (kept_attempt kept_memRead)) fun _ => ?_)
  split
  · exact kept_ite kept_pure kept_pure
  · exact kept_check kept_patchLost kept_pure
  · exact kept_pure

theorem kept_unsettled {n : Nat} : Kept (unsettled n) := by
  unfold unsettled
  refine kept_bind_state fun _ _ => kept_bind (kept_anyM fun _ => kept_ite (kept_bind kept_pathOf fun _ => kept_pure)
      kept_pure) fun _ => kept_ite kept_pure (kept_anyM fun _ => ?_)
  split
  · exact kept_pure
  refine kept_bind kept_patchRecord fun _ => ?_
  split
  · exact kept_bind kept_pathOf fun _ => kept_pure
  · exact kept_pure

theorem kept_settle {n : Nat} : Kept (settle n) := kept_bind kept_unsettled fun _ => kept_stallIf

theorem out_execPatchChange {k : Nat} {s : State} : OutOk s (execPatchChange k s) := by
  unfold execPatchChange
  split
  · exact out_next (.refl _)
  split
  · exact out_next canon_same
  refine out_ite (out_next canon_same) ?_
  split
  · rename_i e
    refine out_next (.trans ?_ canon_undrainAt)
    refine .trans canon_same (canon_ok e ?_)
    refine kept_bind kept_patchRecord fun _ => ?_
    split
    · exact kept_pure
    · exact kept_bind_state fun _ _ => kept_bind kept_patchPut fun _ => kept_modState fun _ => canon_addDelta
  · exact trivial
  · exact out_next canon_addDrainAt
  · exact out_next (.refl _)

theorem canon_noteCount {s : State} {n : Nat} {c : Word} : Canon s (s.noteCount n c) := canon_ite (.refl _) canon_same

theorem kept_applyDelta {d : Delta} : Kept (applyDelta d) :=
  kept_bind kept_nodeWord fun _ => kept_bind kept_nodeWord fun _ => kept_bind_state fun _ _ => kept_bind kept_nodePut fun _ =>
      kept_bind (kept_modState fun _ => canon_pmPanel) fun _ => kept_check (kept_modState fun _ => canon_noteCount) (kept_ite
      (kept_modState fun _ => canon_same) kept_pure)

theorem out_execDeltaApply {k : Nat} {s : State} : OutOk s (execDeltaApply k s) := by
  unfold execDeltaApply
  split
  · exact out_next (.refl _)
  · exact out_ite (out_next (.refl _)) (out_runUnit (kept_bind (kept_modState fun _ => canon_same) fun _ => kept_bind
        (kept_attempt kept_applyDelta) fun _ => kept_pure))

theorem out_execPtcapWrite {p : BitVec 2} {value : Word} {s : State} : OutOk s (execPtcapWrite p value s) :=
  out_next canon_onRollup

theorem out_execRerrClear {p : BitVec 2} {value : Word} {s : State} : OutOk s (execRerrClear p value s) :=
  out_next canon_onRollup

theorem kept_treeOn : Kept treeOn := kept_bind_state fun _ _ => kept_stallIf

theorem kept_treeErr : Kept treeErr :=
  kept_bind_state fun _ _ => kept_ite (kept_bind kept_freeWord fun _ => kept_bind kept_freeWord fun _ => kept_raise) kept_pure

theorem kept_newNode {p : Nat} {t : Tag} {b : Word} : Kept (newNode p t b) :=
  kept_bind_state fun _ _ => kept_ite kept_pure (kept_bind kept_nodeWord fun _ => kept_bind kept_nodeWord fun _ => kept_bind
      (kept_modState fun _ => canon_onRollup) fun _ => kept_bind kept_nodePut fun _ => kept_bind kept_nodePut fun _ =>
      kept_bind kept_nodePut fun _ => kept_bind kept_nodeCount fun _ => kept_bind (kept_modState fun _ => canon_addDelta) fun
      _ => kept_pure)

theorem out_execTnode {h : Hdr} {o : RR3} {s : State} : OutOk s (execTnode h o s) :=
  out_runA (kept_bind kept_treeOn fun _ => kept_bind kept_rdA fun _ => kept_bind kept_rdA fun _ => kept_bind kept_aTag fun _
      => kept_bind kept_needNode fun _ => kept_bind kept_nodeWord fun _ => kept_check kept_raise (kept_check kept_raise
      (kept_bind kept_newNode fun _ => kept_bind kept_wrA fun _ => kept_pure)))

theorem kept_treeRange {hd va size : Word} {kids : Bool} : Kept (treeRange hd va size kids) := by
  unfold treeRange
  refine kept_bind kept_aTag fun _ => kept_bind kept_handleNode fun _ => ?_
  dsimp only
  split
  · refine kept_bind kept_nodeWord fun _ => kept_check kept_raise ?_
    refine kept_bind kept_nodeWord fun _ => kept_check kept_raise ?_
    refine kept_check kept_raise ?_
    refine kept_check kept_raise ?_
    refine kept_bind kept_ctxXlate fun _ => kept_check kept_raise ?_
    split
    · exact kept_pure
    · exact kept_raise
  refine kept_check kept_raise ?_
  refine kept_check kept_raise ?_
  refine kept_bind kept_ctxXlate fun _ => kept_check kept_raise ?_
  split
  · exact kept_pure
  · exact kept_raise

theorem kept_enrol {leaf : Nat} {ps : List Nat} : Kept (enrol leaf ps) := by
  unfold enrol
  refine kept_bind ?_ fun _ => kept_bind kept_nodeCount fun _ => kept_bind kept_nodeWord fun _ => kept_bind kept_nodePut fun _
      => kept_modState fun _ => canon_addDelta
  exact kept_forM fun _ => kept_bind_state fun _ _ => kept_bind kept_freeWord fun _ => kept_bind (kept_modState fun _ =>
      canon_same) fun _ => kept_bind_state fun _ _ => kept_patchPut

theorem kept_unrol {leaf : Nat} {ps : List Nat} : Kept (unrol leaf ps) := by
  unfold unrol
  refine kept_bind ?_ fun _ => ?_
  · refine kept_forM fun _ => kept_bind_state fun _ _ => ?_
    split
    · exact kept_bind_state fun _ _ => kept_bind kept_freeBytes fun _ => kept_bind kept_patchPut fun _ => kept_modState fun _
          => canon_same
    · exact kept_modState fun _ => canon_same
  · exact kept_bind kept_nodeCount fun _ => kept_bind kept_nodeWord fun _ => kept_bind kept_nodeWord fun _ => kept_check
        kept_nodePut (kept_modState fun _ => canon_addDelta)

theorem kept_patchesAt {leaf : Nat} {ps : List Nat} : Kept (patchesAt leaf ps) := by
  unfold patchesAt
  refine kept_bind ?_ fun _ => kept_pure
  refine kept_anyM fun _ => kept_bind_state fun _ _ => ?_
  split
  · exact kept_bind kept_patchRecord fun _ => kept_pure
  · exact kept_pure

theorem canon_moveDeltas {s : State} {old new : List Nat} : Canon s (s.moveDeltas old new) :=
  .trans canon_same (canon_foldl fun _ _ => canon_putDelta)

theorem kept_reparent {m p : Nat} : Kept (reparent m p) :=
  kept_bind kept_nodeWord fun _ => kept_bind kept_pathOf fun _ => kept_bind kept_pathOf fun _ => kept_bind kept_nodePut fun _
      => kept_bind kept_nodeCount fun _ => kept_bind kept_nodeCount fun _ => kept_modState fun _ => canon_moveDeltas

theorem kept_freeNode {n : Nat} : Kept (freeNode n) :=
  kept_bind kept_nodeWord fun _ => kept_bind kept_nodeWord fun _ => kept_bind kept_nodeWord fun _ => kept_ite (kept_bind
      kept_nodePut fun _ => kept_bind kept_nodeCount fun _ => kept_modState fun _ => canon_addDelta) (kept_bind_state fun _ _
      => kept_bind kept_nodePut fun _ => kept_bind kept_nodePut fun _ => kept_bind (kept_modState fun _ => canon_onRollup) fun
      _ => kept_bind kept_nodeCount fun _ => kept_modState fun _ => canon_addDelta)

theorem out_execTenrol {h : Hdr} {o : Tree4} {s : State} : OutOk s (execTenrol h o s) := by
  unfold execTenrol
  refine out_runA (kept_bind kept_treeOn fun _ => kept_bind kept_rdA fun _ => kept_bind kept_rdA fun _ => kept_bind kept_rdA
      fun _ => kept_bind kept_treeRange fun _ => ?_)
  split
  · exact kept_bind_state fun _ _ => kept_check kept_raise (kept_ite (kept_bind kept_wrA fun _ => kept_pure) (kept_bind
        kept_enrol fun _ => kept_bind kept_wrA fun _ => kept_pure))

theorem out_execTunrol {h : Hdr} {o : Tree3} {s : State} : OutOk s (execTunrol h o s) := by
  unfold execTunrol
  refine out_runA (kept_bind kept_treeOn fun _ => kept_bind kept_rdA fun _ => kept_bind kept_rdA fun _ => kept_bind kept_rdA
      fun _ => kept_bind kept_treeRange fun _ => ?_)
  split
  · dsimp only
    exact kept_bind kept_patchesAt fun _ => kept_ite (kept_bind kept_treeErr fun _ => kept_bind kept_raise fun _ => kept_bind
        kept_unrol fun _ => kept_pure) (kept_bind kept_unrol fun _ => kept_pure)

theorem kept_moveNow {later : Bool} {i : Instr} {m p : Nat} : Kept (moveNow later i m p) := by
  unfold moveNow
  intro s
  dsimp only
  split
  · exact ends_act (.refl _) kept_reparent
  split
  · exact ends_ok (canon_onCore fun _ hk => core_same hk)
  rename_i e
  exact ends_error (canon_error e kept_reparent)

theorem out_execTrepar {h : Hdr} {o : SS} {s : State} : OutOk s (execTrepar h o s) := by
  unfold execTrepar
  refine out_runA (kept_bind kept_treeOn fun _ => kept_bind kept_rdA fun _ => kept_bind kept_rdA fun _ => kept_bind kept_aTag
      fun _ => kept_bind kept_handleNode fun _ => kept_bind kept_handleNode fun _ => kept_bind ?_ fun _ => ?_)
  · split
    · exact kept_bind kept_nodeWord fun _ => kept_branch kept_pure kept_nodeWord fun _ => kept_pure
    · exact kept_pure
  · refine kept_bind ?_ fun _ => ?_
    · split
      · exact kept_bind kept_nodeWord fun _ => kept_pure
      · exact kept_pure
    · dsimp only
      refine kept_check kept_raise (kept_check kept_raise (kept_check kept_raise ?_))
      split
      · exact kept_bind kept_pathOf fun _ => kept_check kept_raise (kept_bind kept_settle fun _ => kept_bind kept_moveNow fun
            _ => kept_pure)
      · exact kept_raise
      · exact kept_raise

theorem out_execTsettle {h : Hdr} {s1 : Reg} {s : State} : OutOk s (execTsettle h s1 s) := by
  unfold execTsettle
  refine out_runA (kept_bind kept_rdA fun _ => kept_bind_state fun _ _ => kept_ite ?_ ?_)
  · refine kept_bind kept_treeErr fun _ => kept_bind kept_throw fun _ => kept_bind kept_aTag fun _ => kept_bind
        kept_handleNode fun _ => ?_
    split
    · exact kept_raise
    · exact kept_bind kept_nodeWord fun _ => kept_check kept_raise (kept_bind kept_treeErr fun _ => kept_bind kept_settle fun
          _ => kept_bind kept_treeErr fun _ => kept_pure)
  · refine kept_bind kept_aTag fun _ => kept_bind kept_handleNode fun _ => ?_
    split
    · exact kept_raise
    · exact kept_bind kept_nodeWord fun _ => kept_check kept_raise (kept_bind kept_treeErr fun _ => kept_bind kept_settle fun
          _ => kept_bind kept_treeErr fun _ => kept_pure)

theorem out_execTread {h : Hdr} {o : TreadOp} {s : State} : OutOk s (execTread h o s) := by
  unfold execTread
  refine out_runA (kept_bind kept_rdA fun _ => kept_bind_state fun _ _ => kept_ite ?_ ?_)
  · refine kept_bind kept_treeErr fun _ => kept_bind kept_throw fun _ => kept_bind kept_aTag fun _ => kept_ite ?_ (kept_bind
        kept_needNode fun _ => kept_bind kept_nodeWord fun _ => kept_check kept_raise (kept_bind kept_treeErr fun _ =>
        kept_bind kept_nodeWord fun _ => kept_bind kept_treeSee fun _ => kept_bind kept_wrA fun _ => kept_pure))
    refine kept_bind kept_ctxXlate fun _ => ?_
    split
    · exact kept_bind kept_treeErr fun _ => kept_bind kept_wrA fun _ => kept_pure
    refine kept_bind kept_patchRecord fun _ => ?_
    split
    · exact kept_bind kept_treeErr fun _ => kept_bind kept_wrA fun _ => kept_pure
    · exact kept_bind kept_nodeWord fun _ => kept_check kept_raise (kept_bind kept_treeErr fun _ => kept_bind kept_treeSee fun
          _ => kept_bind kept_wrA fun _ => kept_pure)
  · refine kept_bind kept_aTag fun _ => kept_ite ?_ (kept_bind kept_needNode fun _ => kept_bind kept_nodeWord fun _ =>
        kept_check kept_raise (kept_bind kept_treeErr fun _ => kept_bind kept_nodeWord fun _ => kept_bind kept_treeSee fun _
        => kept_bind kept_wrA fun _ => kept_pure))
    refine kept_bind kept_ctxXlate fun _ => ?_
    split
    · exact kept_bind kept_treeErr fun _ => kept_bind kept_wrA fun _ => kept_pure
    refine kept_bind kept_patchRecord fun _ => ?_
    split
    · exact kept_bind kept_treeErr fun _ => kept_bind kept_wrA fun _ => kept_pure
    · exact kept_bind kept_nodeWord fun _ => kept_check kept_raise (kept_bind kept_treeErr fun _ => kept_bind kept_treeSee fun
          _ => kept_bind kept_wrA fun _ => kept_pure)

theorem out_execTfree {h : Hdr} {s1 : Reg} {s : State} : OutOk s (execTfree h s1 s) :=
  out_runA (kept_bind kept_treeOn fun _ => kept_bind kept_rdA fun _ => kept_bind kept_aTag fun _ => kept_bind kept_needNode
      fun _ => kept_bind kept_nodeWord fun _ => kept_bind kept_nodeWord fun _ => kept_check kept_raise (kept_check kept_raise
      (kept_bind kept_settle fun _ => kept_bind kept_freeNode fun _ => kept_pure)))

/-! ## Operations at a home slice -/

theorem kept_homeRead {p : Nat} {owner : Tag} {la n : Nat} {va : Word} : Kept (homeRead p owner la n va) :=
  kept_bind kept_readLine fun _ => kept_bind (kept_modState fun _ => canon_onMem memOk_catchUp) fun _ => kept_pure

theorem kept_homeRmwBy {p : Nat} {owner : Tag} {la n : Nat} {va : Word} {f : Nat → M (Option Nat)} (hf : ∀ a, Kept (f a)) :
    Kept (homeRmwBy p owner la n va f) := by
  unfold homeRmwBy
  refine kept_bind kept_needWrite fun _ => kept_bind kept_homeRead fun _ => kept_bind (kept_modMem fun _ => memOk_catchUp) fun
      _ => kept_bind (hf _) fun _ => ?_
  split
  · exact kept_bind (kept_modState fun _ => canon_onMem memOk_same) fun _ => kept_pure
  · exact kept_bind kept_memWrite fun _ => kept_pure

theorem kept_homeRmw {p : Nat} {owner : Tag} {la n : Nat} {va : Word} {f : Nat → Option Nat} : Kept (homeRmw p owner la n va
    f) :=
  kept_homeRmwBy fun _ => kept_pure

theorem kept_gateFill {p : Nat} {owner : Tag} {la : Nat} {v va : Word} : Kept (gateFill p owner la v va) :=
  kept_bind kept_memWrite fun _ => kept_modState fun _ => canon_mem memOk_same

theorem kept_gateClear {p : Nat} {owner : Tag} {la : Nat} {va : Word} : Kept (gateClear p owner la va) :=
  kept_bind kept_homeRead fun _ => kept_bind kept_memWrite fun _ => kept_modMem fun _ => memOk_same

theorem kept_completeAt {p : Nat} {set : RangeSet} {owner : Tag} {va : Word} : Kept (completeAt p set owner va) := by
  unfold completeAt
  split
  · exact kept_raise
  · exact kept_ite kept_gateFill (kept_ite (kept_bind kept_homeRmw fun _ => kept_pure) kept_raise)

theorem kept_unitComplete {owner : Tag} {va : Word} {clock : VClock} : Kept (unitComplete owner va clock) := by
  unfold unitComplete
  refine kept_bind (kept_modMem fun _ => memOk_catchUp) fun _ => kept_ite kept_pure (kept_bind (kept_attempt (kept_bind
      kept_useRangeSet fun _ => kept_completeAt)) fun _ => ?_)
  split
  · exact kept_pure
  · exact kept_bind kept_appendFault fun _ => kept_pure

/-! ## The commands of the weight store -/

theorem canon_setWid {s : State} {i : Nat} {w : Wid} : Canon s (s.setWid i w) := canon_same

theorem kept_wsFail {i : Nat} {e : BitVec 3} : Kept (wsFail i e) :=
  kept_bind (kept_modState fun _ => canon_same) fun _ => kept_appendTo

theorem kept_wsNode {h : Word} : Kept (wsNode h) := by
  unfold wsNode
  refine kept_bind (kept_attempt kept_handleNode) fun _ => ?_
  split
  · exact kept_pure
  · exact kept_pure

theorem kept_wsBound {n : Nat} : Kept (wsBound n) := by
  unfold wsBound
  refine kept_bind (kept_attempt kept_nodeWord) fun _ => ?_
  split
  · exact kept_pure
  · exact kept_pure

theorem kept_wlockCmd {i : BitVec 12} : Kept (wlockCmd i) := by
  unfold wlockCmd
  refine kept_bind_state fun _ _ => kept_ite kept_pure (kept_ite kept_wsFail (kept_bind kept_wsNode fun _ => ?_))
  split
  · exact kept_wsFail
  · exact kept_bind kept_wsBound fun _ => kept_ite kept_wsFail (kept_bind_state fun _ _ => kept_ite kept_wsFail (kept_ite
        kept_wsFail (kept_modState fun _ => canon_same)))

theorem out_execWlock {i : BitVec 12} {s : State} : OutOk s (execWlock i s) := out_runUnit kept_wlockCmd

theorem memOk_dropConsts {m : Mem} : MemOk m (m.dropConsts) := memOk_foldl fun _ _ => memOk_dropConst

theorem out_execWidBinding {s : State} : OutOk s (execWidBinding s) := by
  unfold execWidBinding
  split
  · exact out_next (.refl _)
  refine out_ite (out_next (.refl _)) (out_runUnit (kept_bind kept_wsNode fun _ => ?_))
  split
  · exact kept_wsFail
  · exact kept_bind kept_nodeWord fun _ => kept_ite kept_wsFail (kept_bind kept_settle fun _ => kept_bind kept_nodePut fun _
        => kept_bind kept_nodeWord fun _ => kept_modState fun _ => .trans (canon_setWid.trans (canon_onMem memOk_dropConsts))
        canon_upd)

theorem kept_wunlockCmd {i : BitVec 12} : Kept (wunlockCmd i) := by
  unfold wunlockCmd
  refine kept_bind_state fun _ _ => kept_ite kept_pure (kept_ite kept_wsFail (kept_bind kept_wsNode fun _ => ?_))
  split
  · refine kept_bind (kept_attempt kept_nodeWord) fun _ => ?_
    split
    · exact kept_bind kept_nodePut fun _ => kept_modState fun _ => canon_setWid.trans canon_upd
    · exact kept_modState fun _ => canon_setWid.trans canon_upd
  · exact kept_modState fun _ => canon_setWid.trans canon_upd

theorem out_execWunlock {i : BitVec 12} {s : State} : OutOk s (execWunlock i s) := out_runUnit kept_wunlockCmd

theorem out_execWscmdReservedOp {op : BitVec 2} {i : BitVec 12} {s : State} : OutOk s (execWscmdReservedOp op i s) :=
  out_ite (out_next (.refl _)) (out_runEvent kept_wsFail)

theorem kept_wscmd {v : Word} : Kept (wscmd v) := by
  unfold wscmd
  split
  · exact kept_wlockCmd
  · exact kept_wunlockCmd
  · exact kept_bind_state fun _ _ => kept_ite kept_wsFail kept_pure

/-! ## The task graph -/

theorem kept_submit {owner : Tag} {gath : Nat} {bytes : List Byte} {laddr : Nat} {d0 d1 : Word} {clock : VClock} : Kept
    (submit owner gath bytes laddr d0 d1 clock) := by
  unfold submit
  refine kept_bind (kept_attempt kept_useRangeSet) fun _ => ?_
  split
  · exact kept_bind kept_appendFault fun _ => kept_pure
  exact kept_bind_state fun _ _ => kept_ite (kept_bind (kept_modState fun _ => canon_same) fun _ => kept_pure) (kept_bind
      kept_appendFault fun _ => kept_pure)

theorem canon_setStage {s : State} {id : Nat} {t : Task} {g : Stage2} : Canon s (s.setStage id t g) := canon_same

theorem canon_endTask {s : State} {id : Nat} : Canon s (s.endTask id) := canon_same

theorem canon_onGath {s : State} {g : Nat} {f : Gatherer → Gatherer} : Canon s (s.onGath g f) := canon_same

theorem out_execTaskDispatch {task : BitVec 32} {s : State} : OutOk s (execTaskDispatch task s) := by
  unfold execTaskDispatch
  split
  · exact out_next (.refl _)
  refine out_ite ?_ (out_next (.refl _))
  exact out_next (.trans ((canon_onMem memOk_catchUp).trans canon_setStage) canon_onGath)

theorem out_execRangeDispatch {task : BitVec 32} {s : State} : OutOk s (execRangeDispatch task s) := by
  unfold execRangeDispatch
  split
  · exact out_next (.refl _)
  · exact out_ite (out_runUnit (kept_bind (kept_modState fun _ => (canon_onMem memOk_catchUp).trans canon_setStage) fun _ =>
        kept_bind (kept_unitTry kept_memWrite) fun _ => kept_modState fun _ => canon_same)) (out_next (.refl _))

theorem out_execBarrierFire {task : BitVec 32} {s : State} : OutOk s (execBarrierFire task s) := by
  unfold execBarrierFire
  split
  · exact out_next (.refl _)
  refine out_ite ?_ (out_next (.refl _))
  refine out_runUnit (kept_bind (kept_modState fun _ => canon_onMem memOk_catchUp) fun _ => kept_bind ?_ fun _ => kept_bind
      kept_unitComplete fun _ => kept_modState fun _ => canon_endTask)
  exact kept_forM fun _ => kept_check (kept_unitTry kept_gateFill) kept_pure

theorem kept_rangeTake {g : Nat} {t : Task} : Kept (rangeTake g t) := kept_bind (kept_unitTry kept_homeRmw) fun _ => kept_pure

theorem kept_rangeSteal {g : Nat} {t : Task} : Kept (rangeSteal g t) := by
  unfold rangeSteal
  refine kept_bind (kept_mapM fun _ => kept_bind (kept_unitTry kept_homeRead) fun _ => kept_pure) fun _ => ?_
  split
  · exact kept_pure
  · exact kept_bind (kept_unitTry kept_homeRmw) fun _ => kept_check (kept_unitTry kept_memWrite) kept_pure

theorem kept_rangeDone {p : Nat} {owner : Tag} {state : Word} {task : Nat} {cmpl : Word} : Kept (rangeDone p owner state task
    cmpl) :=
  kept_bind kept_homeRmw fun _ => kept_bind kept_homeRead fun _ => kept_ite (kept_bind_state fun _ _ => kept_bind
      kept_unitComplete fun _ => kept_modState fun _ => canon_endTask) kept_pure

theorem kept_completeParked {g : Nat} {x : Parked} : Kept (completeParked g x) := by
  unfold completeParked
  refine kept_ite ?_ (kept_bind_state fun _ _ => kept_bind kept_unitComplete fun _ => kept_ite (kept_modState fun _ =>
      canon_endTask) (kept_modState fun _ => canon_onGath))
  refine kept_bind (kept_attempt kept_rangeDone) fun _ => ?_
  split
  · exact kept_pure
  · exact kept_bind kept_appendFault fun _ => kept_modState fun _ => canon_onGath

theorem kept_releaseParked {g : BitVec 3} {task : BitVec 32} : Kept (releaseParked g task) := by
  unfold releaseParked
  refine kept_bind_state fun _ _ => ?_
  split
  · exact kept_pure
  · exact kept_bind (kept_modState fun _ => canon_onGath) fun _ => kept_ite kept_completeParked (kept_ite (kept_modState fun _
        => canon_onGath) (kept_modState fun _ => canon_onGath))

theorem out_execPkresRelease {g : BitVec 3} {task : BitVec 32} {s : State} : OutOk s (execPkresRelease g task s) :=
  out_runUnit kept_releaseParked

theorem out_execPkresAbandon {g : BitVec 3} {task : BitVec 32} {s : State} : OutOk s (execPkresAbandon g task s) := by
  unfold execPkresAbandon
  dsimp only
  split
  · exact out_next (.refl _)
  · exact out_next (canon_ite canon_onGath (canon_onGath.trans canon_endTask))

end Sys2Proof.Machine

/-! PROOFS. The canonical form, the Gatherers, the events of a core, atomics, the links, the host's queues and power. -/

namespace Sys2Proof.Machine

-- One proof after another, as for the tests: so many short ones at a time take more threads than the check's memory holds.
set_option Elab.async false

/-! ## The Gatherers -/

theorem canon_assignAt {s : State} {gn i : Nat} {posted : Bool} : Canon s (s.assignAt gn i posted) := by
  unfold State.assignAt
  dsimp only
  split
  · exact .refl _
  refine canon_ite (.refl _) ?_
  split
  · exact canon_onGath
  · exact canon_ite canon_same (.refl _)

theorem canon_assignAll {s : State} {gn : Nat} : Canon s (s.assignAll gn) := canon_foldl fun _ _ => canon_assignAt

theorem canon_post {s : State} {gn : Nat} {p : HeldPass} : Canon s (s.post gn p) := canon_onGath.trans canon_assignAt

theorem canon_postAll {s : State} {gn : Nat} {ps : List HeldPass} : Canon s (s.postAll gn ps) :=
  canon_foldl fun _ _ => canon_post

theorem kept_admitItem {gn : Nat} {before after : List Arrival} {a : Arrival} : Kept (admitItem gn before after a) := by
  unfold admitItem
  refine kept_bind_state fun _ _ => ?_
  split
  · split
    · exact kept_pure
    · exact kept_bind (kept_modState fun _ => canon_same) fun _ => kept_bind (kept_modState fun _ => canon_onGath) fun _ =>
          kept_pure
  · exact kept_bind (kept_modState fun _ => canon_onGath) fun _ => kept_pure
  · exact kept_pure
  split
  · exact kept_pure
  refine kept_ite (kept_bind kept_rangeSteal fun _ => kept_pure) (kept_bind kept_rangeTake fun _ => ?_)
  split
  · exact kept_bind_state fun _ _ => kept_pure
  · exact kept_pure

theorem kept_admission {gn : Nat} : Kept (admission gn) := by
  unfold admission
  refine kept_bind_state fun _ _ => ?_
  dsimp only
  split
  · exact kept_pure
  split
  · exact kept_pure
  · exact kept_bind kept_admitItem fun _ => kept_bind (kept_modState fun _ => canon_onGath) fun _ => kept_pure

theorem kept_admitNow {gn : Nat} : Kept (admitNow gn) := by
  unfold admitNow
  intro s
  dsimp only
  split
  · rename_i e
    exact ends_ok ((canon_ok e kept_admission).trans canon_undrainAt)
  · rename_i e
    exact ends_error (canon_error e kept_admission)
  · exact ends_ok canon_addDrainAt
  · exact ends_ok (.refl _)

theorem kept_ownSteps {gn : Nat} : Kept (ownSteps gn) := by
  unfold ownSteps
  refine kept_bind_state fun _ _ => kept_ite ?_ kept_pure
  refine kept_bind kept_admitNow fun _ => kept_bind ?_ fun _ => kept_modState fun _ => canon_onGath
  refine kept_modState fun _ => ?_
  split
  · exact canon_onGath.trans canon_postAll

theorem kept_gathererSteps {gn : Nat} : Kept (gathererSteps gn) :=
  kept_bind_state fun _ _ => kept_check (kept_forM fun _ => kept_ownSteps) kept_ownSteps

theorem out_execGathererCycle {g : BitVec 3} {s : State} : OutOk s (execGathererCycle g s) :=
  out_ite (out_next (.refl _)) (out_runEvent kept_gathererSteps)

theorem out_execBinClosePatience {g : BitVec 3} {b : BitVec 6} {s : State} : OutOk s (execBinClosePatience g b s) :=
  out_ite (out_runEvent kept_gathererSteps) (out_next (.refl _))

theorem out_execBinCloseDeadline {g : BitVec 3} {b : BitVec 6} {s : State} : OutOk s (execBinCloseDeadline g b s) :=
  out_ite (out_runEvent kept_gathererSteps) (out_next (.refl _))

theorem kept_reserveSeq {p : Nat} {f : Feed} : Kept (reserveSeq p f) := by
  unfold reserveSeq
  refine kept_ite kept_pure (kept_bind kept_unitWord fun _ => kept_bind (kept_unitTry kept_homeRmw) fun _ => ?_)
  split
  · exact kept_pure
  · exact kept_pure

theorem canon_raiseTail {s : State} {k : Nat} {v : Word} {clock : VClock} : Canon s (s.raiseTail k v clock) :=
  canon_ite canon_same (.refl _)

theorem canon_wakeCluster {s : State} {k : Nat} : Canon s (s.wakeCluster k) := canon_ite canon_same (.refl _)

theorem canonical_hint {k : Core} {pass : BitVec 32} {rbt : Word} (hk : k.canonical = true) : (k.hint pass rbt).canonical =
    true :=
  core_same hk

theorem canon_wakeTail {s : State} {k : Nat} : Canon s (s.wakeTail k) := canon_foldl fun _ _ => canon_wakeCluster

theorem out_execTailRegisterWrite {k : BitVec 12} {value : Word} {s : State} : OutOk s (execTailRegisterWrite k value s) :=
  out_next (canon_raiseTail.trans canon_wakeTail)

theorem kept_feedPut {p la : Nat} {bs : List Byte} : Kept (feedPut p la bs) := by
  unfold feedPut
  refine kept_bind (kept_attempt kept_memWrite) fun _ => ?_
  split
  · exact kept_pure
  · exact kept_throw

theorem kept_feedWrite {c : CoreId} : Kept (feedWrite c) := by
  unfold feedWrite
  refine kept_bind_state fun _ hk => ?_
  dsimp only
  split
  · refine kept_check kept_throw ?_
    refine kept_bind kept_reserveSeq fun _ => ?_
    split
    · exact kept_pure
    · exact kept_bind kept_feedPut fun _ => kept_bind kept_feedPut fun _ => kept_bind kept_feedPut fun _ => kept_modState fun
          _ => .trans (.trans (canon_onGath.trans (canon_onCore fun _ hk' => core_upd (canonical_hint hk'))) canon_raiseTail)
          canon_wakeTail
  · exact kept_throw

theorem out_execFeedWrite {core : CoreId} {s : State} : OutOk s (execFeedWrite core s) := out_runEvent kept_feedWrite

theorem out_execShapeClassWrite {g : BitVec 3} {c : BitVec 8} {high : Bool} {value : Word} {s : State} : OutOk s
    (execShapeClassWrite g c high value s) :=
  out_ite (out_runEvent (kept_bind_state fun _ _ => kept_check kept_gathererSteps (kept_modState fun _ => canon_onGath)))
      (out_ite (out_runEvent kept_appendTo) (out_runEvent (kept_bind_state fun _ _ => kept_check kept_gathererSteps
      (kept_modState fun _ => canon_onGath))))

theorem out_execGdepthWrite {g : BitVec 3} {value : Word} {s : State} : OutOk s (execGdepthWrite g value s) :=
  out_ite (out_next (.refl _)) (out_next canon_onGath)

theorem kept_swatch : Kept swatch :=
  kept_bind_state fun _ _ => kept_bind kept_unitRead fun _ => kept_modState fun _ => canon_same

theorem out_execSwatchPeriodic {s : State} : OutOk s (execSwatchPeriodic s) :=
  out_ite (out_runEvent (kept_bind kept_swatch fun _ => kept_modState fun _ => canon_same)) (out_next (.refl _))

theorem out_execSwatchTriggered {s : State} : OutOk s (execSwatchTriggered s) :=
  out_ite (out_runEvent kept_swatch) (out_next (.refl _))

/-! ## The events of a core -/

theorem out_execEngineFetch {core : CoreId} {strm : Strm} {s : State} : OutOk s (execEngineFetch core strm s) := by
  unfold execEngineFetch
  split
  · exact out_next (.refl _)
  · exact out_next (.refl _)
  exact out_ite (out_next (.refl _)) (out_next (canon_setCore fun hk => canonical_setEngine (canonical_setRing (canonical_core
      hk))))

theorem out_execLateWordStall {core : CoreId} {strm : Strm} {s : State} : OutOk s (execLateWordStall core strm s) :=
  out_ite (out_next (.trans (.trans canon_same (canon_onCore fun _ hk => core_same hk)) canon_syncWire)) (out_next canon_same)

theorem out_execIllegalWord {strm : Strm} {word : Word} {s : State} : OutOk s (execIllegalWord strm word s) :=
  out_next canon_decodeStop

theorem out_execBudgetTrap {core : CoreId} {s : State} : OutOk s (execBudgetTrap core s) := by
  unfold execBudgetTrap
  refine out_ite (out_next canon_same) (out_next (.trans ?_ (canon_onCore fun _ hk => core_upd (canonical_enterHandler hk))))
  exact .trans canon_same (canon_also kept_appendFault)

theorem canonical_enterPreempt {k : Core} {point : Option (BitVec 16)} {word : Word} {wdone : Bool} (hk : k.canonical = true)
    : (k.enterPreempt point word wdone).canonical = true := by
  unfold Core.enterPreempt
  exact core_upd (canonical_enterHandler hk)

theorem out_execPreemptEntry {core : CoreId} {s : State} : OutOk s (execPreemptEntry core s) := by
  unfold execPreemptEntry
  dsimp only
  split
  · exact out_next canon_same
  refine out_ite (out_next canon_same) ?_
  refine out_ite (out_next (.trans canon_same (canon_onCore fun _ hk => canonical_enterPreempt hk))) ?_
  split
  · exact out_ite (out_next (.trans (.trans canon_same (canon_onCore fun _ hk => canonical_advanceA hk)) canon_aComplete))
        (out_next (.trans (.trans (.trans (.trans canon_same (canon_onCore fun _ hk => canonical_advanceA hk))
        canon_aComplete) (canon_onCore fun _ hk => canonical_enterPreempt hk)) canon_endLate))
  · exact out_next (.trans canon_same (canon_onCore fun _ hk => canonical_enterPreempt hk))

theorem canon_orphan {s : State} {c : CoreId} : Canon s (s.orphan c) := by
  refine canon_cores fun h e he => ?_
  obtain ⟨x, hx, rfl⟩ := List.mem_map.1 he
  exact core_same (h x hx)

theorem canon_answered {s : State} {h : Held} : Canon s (s.answered h) := by
  unfold State.answered
  refine canon_ite (.refl _) ?_
  split
  · dsimp only
    refine .trans ?_ canon_upd
    refine .trans ?_ canon_endLate
    refine .trans ?_ canon_aComplete
    refine .trans ?_ (canon_onCore fun _ hk => core_upd (canonical_advanceA hk))
    exact canon_same
  · exact canon_onCore fun _ hk => canonical_answer hk

theorem kept_linkReject {l : BitVec 4} {owner : Tag} {h0 : Word} {dropped : optParam Bool true} : Kept (linkReject l owner h0
    dropped) :=
  kept_check (kept_modState fun _ => canon_onLink) kept_appendFault

theorem kept_remoteDrop {h : Held} {owner : Tag} {target : CoreId} {noFlag : Bool} : Kept (remoteDrop h owner target noFlag)
    := by
  unfold remoteDrop
  refine kept_bind (kept_modState fun _ => canon_onCore fun _ hk => core_same hk) fun _ => ?_
  split
  · exact kept_linkReject
  exact kept_bind kept_appendFault fun _ => kept_modState fun _ => canon_answered

theorem canon_refuseFinc {s : State} {h : Held} {owner : Tag} {old : Word} : Canon s (s.refuseFinc h owner old) :=
  canon_ite (.trans ((canon_also kept_appendTo).trans (canon_onCore fun _ hk => core_same hk)) canon_raiseWire) ((canon_also
      kept_appendFault).trans (canon_onCore fun _ hk => core_upd (canonical_enterHandler hk)))

theorem canon_refuseCmcast {s : State} {h : Held} {owner : Tag} {target : CoreId} {old : Word} {i : Nat} {w : Issued} : Canon
    s (s.refuseCmcast h owner target old i w) :=
  (canon_also kept_appendFault).trans (canon_onCore fun _ hk => canonical_haltEngine (canonical_dropProg hk))

theorem kept_remoteRefuse {h : Held} {owner : Tag} {target : CoreId} {old : Word} : Kept (remoteRefuse h owner target old) :=
    by
  unfold remoteRefuse
  split
  · exact kept_linkReject
  refine kept_ite kept_appendFault ?_
  split
  · exact kept_modState fun _ => canon_refuseFinc
  refine kept_bind_state fun _ _ => kept_bind kept_stallIf fun _ => ?_
  split
  · exact kept_appendFault
  · exact kept_modState fun _ => canon_refuseCmcast

theorem kept_imageAdd {p : Nat} {a : Away} {h : Held} : Kept (imageAdd p a h) := by
  unfold imageAdd
  refine kept_bind (kept_modMem fun _ => memOk_catchUp) fun _ => kept_bind (kept_unitTry kept_homeRmw) fun _ => ?_
  split
  · exact kept_pure
  · exact kept_throw

theorem kept_decideRemote {x : Remote} : Kept (decideRemote x) := by
  unfold decideRemote
  refine kept_bind_state fun _ hk => kept_ite ?_ ?_
  · refine kept_ite kept_remoteDrop (kept_bind (kept_modState fun _ => canon_wakeCluster.trans (canon_onMem memOk_catchUp))
        fun _ => ?_)
    split
    · rename_i e
      exact kept_bind (kept_modState fun _ => canon_setCore fun _ => canonical_addFlag e (canonical_core hk)) fun _ =>
          kept_modState fun _ => canon_answered
    · exact kept_remoteRefuse
  · split
    · exact kept_remoteDrop
    · exact kept_ite kept_remoteDrop (kept_ite (kept_bind kept_imageAdd fun _ => kept_ite (kept_modState fun _ =>
          canon_answered) kept_remoteRefuse) (kept_ite (kept_modState fun _ => canon_onCore fun _ hk' => core_same hk')
          (kept_modState fun _ => canon_same)))

theorem out_execRemoteAddition {k : Nat} {s : State} : OutOk s (execRemoteAddition k s) := by
  unfold execRemoteAddition
  split
  · exact out_next (.refl _)
  · exact out_runEvent (kept_bind (kept_modState fun _ => canon_same) fun _ => kept_decideRemote)

theorem out_execPreemptRequest {core : CoreId} {s : State} : OutOk s (execPreemptRequest core s) :=
  out_next (canon_onCore fun _ hk => core_same hk)

theorem out_execBudgadd {core : CoreId} {add : BitVec 32} {s : State} : OutOk s (execBudgadd core add s) :=
  out_next (canon_setCore fun hk => core_same (canonical_core hk))

theorem out_execFpark {core : CoreId} {s : State} : OutOk s (execFpark core s) :=
  out_ite (out_next (.refl _)) (out_trans (canon_setCore fun hk => core_upd (canonical_pm (canonical_foldl (fun _ _ hk' =>
      canonical_park hk') (canonical_core hk)))) (out_runEvent (kept_forM fun _ => kept_appendFault)))

theorem out_execAwayEntryWrite {core : CoreId} {i : BitVec 3} {w0 w1 : Word} {s : State} : OutOk s (execAwayEntryWrite core i
    w0 w1 s) := by
  unfold execAwayEntryWrite
  refine out_next (.trans ?_ canon_upd)
  exact canon_setCore fun hk => core_same (canonical_core hk)

/-! ## Atomics, gate words and the monitored wait -/

theorem kept_placeIn {set : RangeSet} {va : Word} {n need align : Nat} {mask : Word} {okRegion : Nat → Bool} : Kept (placeIn
    set va n need align mask okRegion) := by
  unfold placeIn
  dsimp only
  split
  · refine kept_check kept_raise ?_
    refine kept_check kept_raise ?_
    split
    · exact kept_pure
    · exact kept_raise
  refine kept_check kept_raise ?_
  split
  · exact kept_pure
  · exact kept_raise

theorem kept_aPlace {va : Word} {n need align : Nat} {mask : Word} {okRegion : Nat → Bool} : Kept (aPlace va n need align mask
    okRegion) :=
  kept_bind kept_aSet fun _ => kept_placeIn

theorem kept_gatePlace {va : Word} {need : Nat} : Kept (gatePlace va need) := kept_bind_core fun _ _ => kept_placeIn

theorem kept_aPanel : Kept aPanel := kept_bind_state fun _ _ => kept_pure

theorem kept_atAddr {o : ATOp} : Kept (atAddr o) := kept_bind kept_rdA fun _ => kept_pure

theorem out_aAtomic {i : Instr} {h : Hdr} {o : ATOp} {readD : Bool} {f : Nat → Nat → Nat → Nat → Option Nat} {s : State} :
    OutOk s (aAtomic i h o readD f s) :=
  out_runA (kept_bind (kept_ite kept_rdA kept_pure) fun _ => kept_bind kept_atAddr fun _ => kept_bind kept_rdA fun _ =>
      kept_bind kept_aPlace fun _ => kept_bind kept_aPanel fun _ => kept_bind kept_aTag fun _ => kept_bind kept_homeRmw fun _
      => kept_bind kept_wrA fun _ => kept_pure)

theorem out_execAadd {h : Hdr} {o : ATOp} {s : State} : OutOk s (execAadd h o s) := out_aAtomic

theorem out_execAaddb {h : Hdr} {o : ATOp} {s : State} : OutOk s (execAaddb h o s) := by
  unfold execAaddb
  refine out_runA (kept_bind kept_atAddr fun _ => kept_bind kept_rdA fun _ => kept_bind kept_aPlace fun _ => kept_bind
      kept_aPanel fun _ => kept_bind kept_aTag fun _ => kept_bind ?_ fun _ => kept_pure)
  exact kept_homeRmwBy fun _ => kept_bind kept_homeRead fun _ => kept_bind kept_wrA fun _ => kept_pure

theorem out_execAmax {h : Hdr} {o : ATOp} {s : State} : OutOk s (execAmax h o s) := out_aAtomic

theorem out_execAmin {h : Hdr} {o : ATOp} {s : State} : OutOk s (execAmin h o s) := out_aAtomic

theorem out_execAor {h : Hdr} {o : ATOp} {s : State} : OutOk s (execAor h o s) := out_aAtomic

theorem out_execAxchg {h : Hdr} {o : ATOp} {s : State} : OutOk s (execAxchg h o s) := out_aAtomic

theorem out_execAcas {h : Hdr} {o : ATOp} {s : State} : OutOk s (execAcas h o s) := out_aAtomic

theorem out_execRaddf {h : Hdr} {o : ATOp} {s : State} : OutOk s (execRaddf h o s) :=
  out_runA (kept_bind kept_atAddr fun _ => kept_bind kept_rdA fun _ => kept_bind kept_aPlace fun _ => kept_bind kept_aPanel
      fun _ => kept_bind kept_aTag fun _ => kept_bind kept_homeRmw fun _ => kept_pure)

theorem out_execGset {h : Hdr} {o : ATOp} {s : State} : OutOk s (execGset h o s) :=
  out_runA (kept_bind kept_atAddr fun _ => kept_bind kept_rdA fun _ => kept_bind kept_gatePlace fun _ => kept_bind kept_aPanel
      fun _ => kept_bind kept_aTag fun _ => kept_bind kept_gateFill fun _ => kept_pure)

theorem out_execGclr {h : Hdr} {o : ATOp} {s : State} : OutOk s (execGclr h o s) :=
  out_runA (kept_bind kept_atAddr fun _ => kept_bind kept_gatePlace fun _ => kept_bind kept_aPanel fun _ => kept_bind
      kept_aTag fun _ => kept_bind kept_gateClear fun _ => kept_pure)

theorem out_execGld {h : Hdr} {o : ATOp} {s : State} : OutOk s (execGld h o s) :=
  out_runA (kept_bind kept_atAddr fun _ => kept_bind kept_gatePlace fun _ => kept_bind kept_aPanel fun _ => kept_bind
      kept_aTag fun _ => kept_bind kept_homeRead fun _ => kept_bind_state fun _ _ => kept_bind kept_wrA fun _ => kept_bind
      kept_wrA fun _ => kept_pure)

theorem kept_monwArgs {o : ATOp} : Kept (monwArgs o) :=
  kept_bind kept_rdA fun _ => kept_bind kept_atAddr fun _ => kept_bind kept_rdA fun _ => kept_pure

theorem out_execMonw {h : Hdr} {o : ATOp} {s : State} : OutOk s (execMonw h o s) := by
  unfold execMonw
  refine out_runA (kept_bind_core fun _ hk => kept_bind kept_stallIf fun _ => kept_bind kept_monwArgs fun _ => ?_)
  split
  · dsimp only
    exact kept_bind kept_aPlace fun _ => kept_bind kept_aPanel fun _ => kept_bind kept_aTag fun _ => kept_bind kept_homeRead
        fun _ => kept_ite (kept_bind kept_wrA fun _ => kept_pure) (kept_bind_state fun _ _ => kept_bind (kept_modCore fun _
        hk2 => core_same hk2) fun _ => kept_throw)

theorem kept_monwEnd {c : CoreId} {result : Word} : Kept (monwEnd c result) := by
  unfold monwEnd
  refine kept_bind (kept_modState fun _ => canon_same) fun _ => kept_bind_core fun _ hk => ?_
  dsimp only
  split
  · exact kept_bind kept_monwArgs fun _ => kept_bind kept_wrA fun _ => kept_modState fun _ => .trans (.trans (.trans
        (canon_onCore fun _ hk' => core_upd (canonical_advanceA hk')) canon_wakeCluster) canon_aComplete) canon_endLate
  · exact kept_throw

theorem out_execMonwWake {core : CoreId} {s : State} : OutOk s (execMonwWake core s) := by
  unfold execMonwWake
  split
  · exact out_ite (out_runEvent (kept_bind (kept_modState fun _ => canon_onMem memOk_catchUp) fun _ => kept_monwEnd))
        (out_next (.refl _))
  · exact out_next (.refl _)

theorem out_execMonwTimeout {core : CoreId} {s : State} : OutOk s (execMonwTimeout core s) := by
  unfold execMonwTimeout
  split
  · exact out_ite (out_runEvent kept_monwEnd) (out_next (.refl _))
  · exact out_next (.refl _)

/-! ## Fabric time and the seam links -/

theorem canon_slewMaster {s : State} {other : Nat} : Canon s (s.slewMaster other) := canon_ite canon_same (.refl _)

theorem out_execPtpMessage {time : PtpTimes} {s : State} : OutOk s (execPtpMessage time s) :=
  out_ite (out_next (.refl _)) (out_next canon_slewMaster)

theorem out_execFtCorrection {panel : BitVec 2} {s : State} : OutOk s (execFtCorrection panel s) :=
  out_ite (out_next canon_same) (out_next (.refl _))

theorem canon_linkFeedback {s : State} {l : Nat} {f : Flit} : Canon s (s.linkFeedback l f) :=
  canon_ite (canon_linkAck.trans canon_resend) canon_linkAck

theorem out_receive {l : BitVec 4} {f : Flit} {handle : M Unit} {s : State} (hhandle : Kept handle) : OutOk s (receive l f
    handle s) := by
  unfold receive
  refine out_ite (out_next (.refl _)) (out_ite (out_next canon_sendIdle) (out_ite ?_ (out_ite (out_next
      (canon_linkFeedback.trans canon_sendIdle)) (out_next canon_linkFeedback))))
  split
  · rename_i e
    exact out_next (.trans (canon_linkFeedback.trans canon_onLink) (canon_ok e hhandle))
  · exact trivial
  · exact out_next (.refl _)

theorem out_execLinkFlitCorrupt {link : BitVec 4} {s : State} : OutOk s (execLinkFlitCorrupt link s) :=
  out_ite (out_next (.refl _)) (out_next canon_sendIdle)

theorem out_execLinkFlitReserved {link : BitVec 4} {flit : Flit} {s : State} : OutOk s (execLinkFlitReserved link flit s) :=
  out_ite (out_receive kept_linkReject) (out_next (.refl _))

theorem out_execIdleFlit {link : BitVec 4} {flit : Flit} {s : State} : OutOk s (execIdleFlit link flit s) :=
  out_ite (out_next (.refl _)) (out_ite (out_next canon_sendIdle) (out_ite (out_runEvent kept_linkReject) (out_next
      canon_linkFeedback)))

theorem out_execLinkNak {link : BitVec 4} {flit : Flit} {s : State} : OutOk s (execLinkNak link flit s) :=
  out_ite (out_next (.refl _)) (out_ite (out_next canon_sendIdle) (out_next (canon_linkAck.trans canon_resend)))

theorem out_execLinkSignal {link : BitVec 4} {flit : Flit} {s : State} : OutOk s (execLinkSignal link flit s) :=
  out_ite (out_next (.refl _)) (out_receive (kept_modState fun _ => canon_same))

theorem out_execLinkSchedBlock {link : BitVec 4} {flit : Flit} {s : State} : OutOk s (execLinkSchedBlock link flit s) := by
  unfold execLinkSchedBlock
  refine out_ite (out_next (.refl _)) ?_
  refine out_receive ?_
  refine kept_bind_state fun _ hk => ?_
  dsimp only
  refine kept_ite kept_linkReject ?_
  split
  · exact kept_linkReject
  · exact kept_bind kept_stallIf fun _ => kept_modState fun _ => .trans (canon_onCore fun _ hk' => core_same hk')
        canon_wakeCluster

theorem out_execLinkManagement {link : BitVec 4} {flit : Flit} {s : State} : OutOk s (execLinkManagement link flit s) :=
  out_ite (out_next (.refl _)) (out_receive (kept_modState fun _ => canon_onLink))

theorem out_execLinkReply {link : BitVec 4} {flit : Flit} {s : State} : OutOk s (execLinkReply link flit s) :=
  out_ite (out_next (.refl _)) (out_receive (kept_modState fun _ => canon_onLink))

theorem out_execTimeSyncSend {link : BitVec 4} {s : State} : OutOk s (execTimeSyncSend link s) :=
  out_ite (out_next (.refl _)) (out_next canon_sendFlit)

theorem out_execTimeSyncReceive {link : BitVec 4} {flit : Flit} {s : State} : OutOk s (execTimeSyncReceive link flit s) :=
  out_ite (out_receive (kept_bind_state fun _ _ => kept_bind kept_stallIf fun _ => kept_modState fun _ => canon_sendFlit))
      (out_ite (out_receive (kept_modState fun _ => canon_ite canon_onLink (canon_onLink.trans canon_slewMaster))) (out_next
      (.refl _)))

theorem out_execLinkDown {link : BitVec 4} {s : State} : OutOk s (execLinkDown link s) :=
  out_ite (out_next (.refl _)) (out_runEvent (kept_bind (kept_modState fun _ => canon_onLink) fun _ => kept_forM fun _ =>
      kept_appendFault))

theorem out_execLinkRetrain {link : BitVec 4} {ok : Bool} {ackseq : BitVec 16} {s : State} : OutOk s (execLinkRetrain link ok
    ackseq s) :=
  out_ite (out_next (.refl _)) (out_next (.trans (.trans (canon_onLink.trans canon_linkAck) canon_onLink) canon_emit))

theorem canonical_loseLink {k : Core} {lost : List Nat} (hk : k.canonical = true) : (k.loseLink lost).canonical = true :=
  core_same hk

theorem out_execLinkDiscard {link : BitVec 4} {s : State} : OutOk s (execLinkDiscard link s) :=
  out_next (canon_onLink.trans (canon_foldl fun _ _ => canon_onCore fun _ hk => canonical_loseLink hk))

/-! ## Submission queues, the log and the watchdog -/

theorem canon_setSq {s : State} {q : Nat} {x : SubQ} : Canon s (s.setSq q x) := canon_same

theorem canon_onHost {s : State} {f : HostIf → HostIf} : Canon s (s.onHost f) := canon_same

theorem out_execSqEnable {q : BitVec 10} {value : Word} {s : State} : OutOk s (execSqEnable q value s) := out_next canon_setSq

theorem kept_logTail {q : BitVec 10} {v : Word} {clk : VClock} : Kept (logTail q v clk) :=
  kept_bind_state fun _ _ => kept_bind kept_unitWrite fun _ => kept_modState fun _ => canon_onHost.trans canon_setSq

theorem canon_ackPort {s : State} {port : Option (BitVec 3)} : Canon s (s.ackPort port) := by
  unfold State.ackPort
  split
  · exact canon_onHost
  · exact .refl _

theorem kept_tailWrite {x : HeldTail} : Kept (tailWrite x) :=
  kept_bind_state fun _ _ => kept_ite (kept_modState fun _ => canon_ackPort) (kept_ite (kept_modState fun _ => canon_onHost)
      (kept_bind kept_logTail fun _ => kept_modState fun _ => canon_ackPort))

theorem out_execSqtailWrite {q : BitVec 10} {value : Word} {s : State} : OutOk s (execSqtailWrite q value s) :=
  out_runEvent kept_tailWrite

theorem kept_releaseTails : ∀ {l : List HeldTail}, Kept (releaseTails l)
  | [] => kept_pure
  | _ :: _ => kept_bind_state fun _ _ => kept_ite (kept_modState fun _ => canon_onHost)
      (kept_bind kept_tailWrite fun _ => kept_releaseTails)

theorem kept_raiseCommit {v : Word} : Kept (raiseCommit v) := by
  unfold raiseCommit
  refine kept_bind_state fun _ _ => kept_ite ?_ kept_pure
  exact kept_bind (kept_modState fun _ => canon_onHost) fun _ => kept_releaseTails

theorem out_execLogcommitWrite {value : Word} {s : State} : OutOk s (execLogcommitWrite value s) :=
  out_runEvent kept_raiseCommit

theorem kept_pull {q : Nat} : Kept (pull q) :=
  kept_bind_state fun _ _ => kept_ite (kept_bind (kept_modState fun _ => canon_onMem memOk_catchUp) fun _ => kept_bind
      kept_unitRead fun _ => kept_bind_state fun _ _ => kept_bind kept_submit fun _ => kept_modState fun _ => canon_setSq)
      kept_pure

theorem out_execSqpull {q : BitVec 10} {s : State} : OutOk s (execSqpull q s) := out_runEvent kept_pull

theorem out_execFwbeat {s : State} : OutOk s (execFwbeat s) := out_next canon_onHost

theorem out_execWatchdogExpiry {s : State} : OutOk s (execWatchdogExpiry s) := by
  refine out_ite (out_next (canon_boot fun h => ?_)) (out_next (.refl s))
  dsimp only
  split <;> exact h

theorem kept_servedFrom : ∀ {fuel : Nat} {c : Word}, Kept (servedFrom fuel c)
  | 0, _ => kept_pure
  | _ + 1, _ => kept_bind_state fun _ _ => kept_ite kept_pure
      (kept_bind kept_unitRead fun _ => kept_ite kept_servedFrom kept_pure)

theorem out_execFallbackPull {s : State} : OutOk s (execFallbackPull s) := by
  unfold execFallbackPull
  refine out_ite (out_next (.refl _)) ?_
  split
  · exact out_next (.refl _)
  · exact out_runEvent (kept_bind kept_pull fun _ => kept_bind (kept_modState fun _ => canon_onHost) fun _ => kept_bind_state
        fun _ _ => kept_bind kept_servedFrom fun _ => kept_raiseCommit)

theorem out_execFallbackStop {s : State} : OutOk s (execFallbackStop s) := out_next canon_onHost

/-! ## Power states and the limiters -/

theorem canon_setCluster {s : State} {cl : Nat} {st : BitVec 2} : Canon s (s.setCluster cl st) := canon_same

theorem wf_freeMem (f n : Nat) : Memory.wf (freeMem f n) = true := wf_setBytes _ _ _ wf_empty

theorem keysRise_iff {α : Type} {m : SMap α} : keysRise m = true ↔ m.Pairwise fun a b => a.1 < b.1 := by
  induction m with
  | nil => simp [keysRise]
  | cons e m ih =>
    obtain ⟨k, v⟩ := e
    rw [keysRise_cons, List.pairwise_cons, ih]

/-- A table of the first numbers has rising keys, whichever of its entries are kept. -/
theorem keysRise_tabulate {α : Type} (n : Nat) (f : Nat → α) (p : Nat × α → Bool) :
    keysRise ((tabulate n fun i => (i, f i)).filter p) = true :=
  keysRise_iff.2 (.filter p (List.pairwise_map.2 List.pairwise_lt_range))

theorem ne_zero_filter (l : SMap (BitVec 32)) : ∀ e ∈ l.filter fun e => e.2 != 0, e.2 ≠ 0 := fun _ he =>
  bne_iff_ne.1 (List.of_mem_filter (p := fun e : Nat × BitVec 32 => e.2 != 0) he)

/-- A core whose power is off holds free values, none of them listed as what an unlisted address reads. -/
theorem canonical_powerOff {k : Core} {cycle f : Nat} {scnt : Int} : (k.powerOff cycle scnt f).canonical = true := by
  unfold Core.powerOff
  rw [canonical_iff]
  dsimp only
  refine ⟨?_, ?_, ?_, ?_, ?_⟩
  · exact wf_freeMem _ _
  · exact wf_freeMem _ _
  · exact keysRise_tabulate _ _ _
  · exact ne_zero_filter _
  · rfl

theorem out_execP2Enter {cluster : BitVec 3} {s : State} : OutOk s (execP2Enter cluster s) := by
  unfold execP2Enter
  dsimp only
  exact out_ite (out_next canon_wakeCluster) (out_next (.trans (.trans (canon_setCluster.trans (canon_foldl fun _ _ =>
      canon_setCore fun _ => canonical_powerOff)) canon_onGath) canon_upd))

theorem out_execP2Exit {cluster : BitVec 3} {s : State} : OutOk s (execP2Exit cluster s) :=
  out_ite (out_next (.refl _)) (out_next canon_setCluster)

theorem out_execThrottleUpdate {watts : BitVec 16} {s : State} : OutOk s (execThrottleUpdate watts s) := out_next canon_same

theorem out_execThermalLimit {s : State} : OutOk s (execThermalLimit s) := out_next canon_same

theorem out_execThermalRelease {s : State} : OutOk s (execThermalRelease s) := out_next canon_same

theorem out_execPlimitWrite {value : Word} {s : State} : OutOk s (execPlimitWrite value s) := out_next canon_same

theorem out_execPmSelectWrite {p : BitVec 2} {j : BitVec 5} {value : Word} {s : State} : OutOk s (execPmSelectWrite p j value
    s) :=
  out_next canon_same

end Sys2Proof.Machine

/-! PROOFS. The canonical form, the vector engine, resumed and completing words, the device registers, loads and stores,
passes. -/

namespace Sys2Proof.Machine

-- One proof after another, as for the tests: so many short ones at a time take more threads than the check's memory holds.
set_option Elab.async false

/-! ## The vector engine -/

theorem ewordOk_vWord {h : Hdr} {ops : List EOp} {p : Pass} {check : Bool → State → CoreId → List Dsc → Word} {body : Issued →
    M Unit} (hbody : ∀ a, Kept (body a)) : EWordOk (vWord h ops p check body) :=
  ewordOk_ofBody fun _ => kept_bind (hbody _) fun _ => kept_pure

theorem kept_vRows {w : Issued} {p : Pass} {rnd : BitVec 3} {sat : Bool} {rows : Nat} {own : Nat → Nat → M (List Val)} (hown :
    ∀ a a2, Kept (own a a2)) : Kept (vRows w p rnd sat rows own) :=
  kept_bind_state fun _ _ => kept_bind kept_engMode fun _ => kept_bind (kept_copyRows fun _ _ => kept_bind_state fun _ _ =>
      kept_oneRow kept_parkedNow (hown _ _) fun _ _ => kept_writeVals) fun _ => kept_pure

theorem kept_vRead {w : Issued} {n j : Nat} : Kept (vRead w n j) :=
  kept_bind_state fun _ _ => kept_bind kept_readVals fun _ => kept_pure

theorem ewordOk_vBinWord {h : Hdr} {o : VBinOp} {f : VBin} : EWordOk (vBinWord h o f) :=
  ewordOk_vWord fun _ => kept_branch kept_vRead kept_pure fun _ => kept_vRows fun _ _ => kept_bind kept_vRead fun _ =>
      kept_branch kept_pure kept_vRead fun _ => kept_pure

theorem ewordOk_vaddWord {h : Hdr} {o : VBinOp} : EWordOk (vaddWord h o) := ewordOk_vBinWord

theorem out_execVadd {h : Hdr} {o : VBinOp} {s : State} : OutOk s (execVadd h o s) := out_runE ewordOk_vaddWord

theorem ewordOk_vsubWord {h : Hdr} {o : VBinOp} : EWordOk (vsubWord h o) := ewordOk_vBinWord

theorem out_execVsub {h : Hdr} {o : VBinOp} {s : State} : OutOk s (execVsub h o s) := out_runE ewordOk_vsubWord

theorem ewordOk_vmulWord {h : Hdr} {o : VBinOp} : EWordOk (vmulWord h o) := ewordOk_vBinWord

theorem out_execVmul {h : Hdr} {o : VBinOp} {s : State} : OutOk s (execVmul h o s) := out_runE ewordOk_vmulWord

theorem ewordOk_vmaxWord {h : Hdr} {o : VBinOp} : EWordOk (vmaxWord h o) := ewordOk_vBinWord

theorem out_execVmax {h : Hdr} {o : VBinOp} {s : State} : OutOk s (execVmax h o s) := out_runE ewordOk_vmaxWord

theorem ewordOk_vminWord {h : Hdr} {o : VBinOp} : EWordOk (vminWord h o) := ewordOk_vBinWord

theorem out_execVmin {h : Hdr} {o : VBinOp} {s : State} : OutOk s (execVmin h o s) := out_runE ewordOk_vminWord

theorem ewordOk_vfmaWord {h : Hdr} {o : VFmaOp} : EWordOk (vfmaWord h o) :=
  ewordOk_vWord fun _ => kept_branch kept_vRead kept_pure fun _ => kept_branch kept_vRead kept_pure fun _ => kept_vRows fun _
      _ => kept_bind kept_vRead fun _ => kept_branch kept_pure kept_vRead fun _ => kept_branch kept_pure kept_vRead fun _ =>
      kept_pure

theorem out_execVfma {h : Hdr} {o : VFmaOp} {s : State} : OutOk s (execVfma h o s) := out_runE ewordOk_vfmaWord

theorem ewordOk_vUnWord {h : Hdr} {o : D2Conv} {f : Val → Val} : EWordOk (vUnWord h o f) :=
  ewordOk_vWord fun _ => kept_vRows fun _ _ => kept_bind kept_vRead fun _ => kept_pure

theorem ewordOk_vexpWord {h : Hdr} {o : D2Conv} : EWordOk (vexpWord h o) := ewordOk_vUnWord

theorem out_execVexp {h : Hdr} {o : D2Conv} {s : State} : OutOk s (execVexp h o s) := out_runE ewordOk_vexpWord

theorem ewordOk_vlogWord {h : Hdr} {o : D2Conv} : EWordOk (vlogWord h o) := ewordOk_vUnWord

theorem out_execVlog {h : Hdr} {o : D2Conv} {s : State} : OutOk s (execVlog h o s) := out_runE ewordOk_vlogWord

theorem ewordOk_vrcpWord {h : Hdr} {o : D2Conv} : EWordOk (vrcpWord h o) := ewordOk_vUnWord

theorem out_execVrcp {h : Hdr} {o : D2Conv} {s : State} : OutOk s (execVrcp h o s) := out_runE ewordOk_vrcpWord

theorem ewordOk_vrsqWord {h : Hdr} {o : D2Conv} : EWordOk (vrsqWord h o) := ewordOk_vUnWord

theorem out_execVrsq {h : Hdr} {o : D2Conv} {s : State} : OutOk s (execVrsq h o s) := out_runE ewordOk_vrsqWord

theorem ewordOk_vtanhWord {h : Hdr} {o : D2Conv} : EWordOk (vtanhWord h o) := ewordOk_vUnWord

theorem out_execVtanh {h : Hdr} {o : D2Conv} {s : State} : OutOk s (execVtanh h o s) := out_runE ewordOk_vtanhWord

theorem ewordOk_vgeluWord {h : Hdr} {o : D2Conv} : EWordOk (vgeluWord h o) := ewordOk_vUnWord

theorem out_execVgelu {h : Hdr} {o : D2Conv} {s : State} : OutOk s (execVgelu h o s) := out_runE ewordOk_vgeluWord

theorem ewordOk_vsiluWord {h : Hdr} {o : D2Conv} : EWordOk (vsiluWord h o) := ewordOk_vUnWord

theorem out_execVsilu {h : Hdr} {o : D2Conv} {s : State} : OutOk s (execVsilu h o s) := out_runE ewordOk_vsiluWord

theorem ewordOk_vabsWord {h : Hdr} {o : D2Conv} : EWordOk (vabsWord h o) := ewordOk_vUnWord

theorem out_execVabs {h : Hdr} {o : D2Conv} {s : State} : OutOk s (execVabs h o s) := out_runE ewordOk_vabsWord

theorem ewordOk_vConvWord {h : Hdr} {o : D2Conv} {srcOk dstOk : Fmt → Bool} : EWordOk (vConvWord h o srcOk dstOk) :=
  ewordOk_vWord fun _ => kept_ite (kept_vRows fun _ _ => kept_vRead) (kept_bind_state fun _ _ => kept_bind (kept_mapM fun _ =>
      kept_ite kept_pure kept_vRead) fun _ => kept_vRows fun _ _ => kept_pure)

theorem ewordOk_vcvtWord {h : Hdr} {o : D2Conv} : EWordOk (vcvtWord h o) := ewordOk_vConvWord

theorem out_execVcvt {h : Hdr} {o : D2Conv} {s : State} : OutOk s (execVcvt h o s) := out_runE ewordOk_vcvtWord

theorem ewordOk_vqmxWord {h : Hdr} {o : D2Conv} : EWordOk (vqmxWord h o) := ewordOk_vConvWord

theorem out_execVqmx {h : Hdr} {o : D2Conv} {s : State} : OutOk s (execVqmx h o s) := out_runE ewordOk_vqmxWord

theorem ewordOk_vdqmxWord {h : Hdr} {o : D2Conv} : EWordOk (vdqmxWord h o) := ewordOk_vConvWord

theorem out_execVdqmx {h : Hdr} {o : D2Conv} {s : State} : OutOk s (execVdqmx h o s) := out_runE ewordOk_vdqmxWord

theorem ewordOk_vReduceWord {h : Hdr} {o : D2Conv} {op : Val → Val → Val} {id : Val} : EWordOk (vReduceWord h o op id) :=
  ewordOk_vWord fun _ => kept_vRows fun _ _ => kept_bind kept_vRead fun _ => kept_pure

theorem ewordOk_vrsumWord {h : Hdr} {o : D2Conv} : EWordOk (vrsumWord h o) := ewordOk_vReduceWord

theorem out_execVrsum {h : Hdr} {o : D2Conv} {s : State} : OutOk s (execVrsum h o s) := out_runE ewordOk_vrsumWord

theorem ewordOk_vrmaxWord {h : Hdr} {o : D2Conv} : EWordOk (vrmaxWord h o) := ewordOk_vReduceWord

theorem out_execVrmax {h : Hdr} {o : D2Conv} {s : State} : OutOk s (execVrmax h o s) := out_runE ewordOk_vrmaxWord

theorem kept_colSums {w : Issued} {p : Pass} {b : Nat} : Kept (colSums w p b) :=
  kept_bind_state fun _ _ => kept_foldlM fun _ _ => kept_bind_state fun _ _ => kept_ite kept_pure (kept_bind kept_vRead fun _
      => kept_pure)

theorem ewordOk_vcsumWord {h : Hdr} {o : D2Conv} : EWordOk (vcsumWord h o) :=
  ewordOk_vWord fun _ => kept_bind_state fun _ _ => kept_bind kept_engMode fun _ => kept_bind (kept_copyRows fun _ _ =>
      kept_bind_state fun _ _ => kept_oneRow (kept_bind_state fun _ _ => kept_pure) kept_colSums fun _ _ => kept_writeVals)
      fun _ => kept_pure

theorem out_execVcsum {h : Hdr} {o : D2Conv} {s : State} : OutOk s (execVcsum h o s) := out_runE ewordOk_vcsumWord

theorem ewordOk_vbcastWord {h : Hdr} {o : VBcastOp} : EWordOk (vbcastWord h o) :=
  ewordOk_vWord fun _ => kept_branch kept_pure kept_vRead fun _ => kept_vRows fun _ _ => kept_ite (kept_bind kept_vRead fun _
      => kept_pure) kept_pure

theorem out_execVbcast {h : Hdr} {o : VBcastOp} {s : State} : OutOk s (execVbcast h o s) := out_runE ewordOk_vbcastWord

theorem ewordOk_vtrnWord {h : Hdr} {o : D2Conv} : EWordOk (vtrnWord h o) :=
  ewordOk_vWord fun _ => kept_bind (kept_mapM fun _ => kept_vRead) fun _ => kept_vRows fun _ _ => kept_pure

theorem out_execVtrn {h : Hdr} {o : D2Conv} {s : State} : OutOk s (execVtrn h o s) := out_runE ewordOk_vtrnWord

theorem ewordOk_vepiWord {h : Hdr} {o : VEpiOp} : EWordOk (vepiWord h o) :=
  ewordOk_vWord fun _ => kept_branch kept_vRead kept_pure fun _ => kept_vRows fun _ _ => kept_bind kept_vRead fun _ =>
      kept_pure

theorem out_execVepi {h : Hdr} {o : VEpiOp} {s : State} : OutOk s (execVepi h o s) := out_runE ewordOk_vepiWord

theorem ewordOk_vtagselWord {h : Hdr} {o : D2Conv} : EWordOk (vtagselWord h o) :=
  ewordOk_vWord fun _ => kept_bind_state fun _ _ => kept_bind kept_engMode fun _ => kept_bind (kept_copyRows fun _ _ =>
      kept_bind_state fun _ _ => kept_ite kept_pure (kept_bind kept_parkedNow fun _ => kept_ite kept_pure (kept_bind
      (kept_atPlace kept_vRead) fun _ => kept_oneRow kept_parkedNow kept_pure fun _ _ => kept_writeVals))) fun _ => kept_pure

theorem out_execVtagsel {h : Hdr} {o : D2Conv} {s : State} : OutOk s (execVtagsel h o s) := out_runE ewordOk_vtagselWord

theorem out_execVNop {h : Hdr} {s : State} : OutOk s (execVNop h s) := out_runE ewordOk_nopWord

theorem ewordOk_vDsetWord {h : Hdr} {o : DsetOp} : EWordOk (vDsetWord h o) := ewordOk_dsetWord

theorem out_execVDset {h : Hdr} {o : DsetOp} {s : State} : OutOk s (execVDset h o s) := out_runE ewordOk_vDsetWord

/-! ## Halted streams and words in progress -/

/-- Every engine word keeps the canonical form. -/
theorem ewordOk_engineWord {i : Instr} {e : EWord} (h : engineWord i = some e) : EWordOk e := by
  unfold engineWord at h
  split at h
  · cases h; exact ewordOk_nopWord
  · cases h; exact ewordOk_dsetWord
  · cases h; exact ewordOk_wloadWord
  · cases h; exact ewordOk_mmaWord
  · cases h; exact ewordOk_gmmaWord
  · cases h; exact ewordOk_smmaWord
  · cases h; exact ewordOk_mqbindWord
  · cases h; exact ewordOk_aclrWord
  · cases h; exact ewordOk_aldWord
  · cases h; exact ewordOk_astWord
  · cases h; exact ewordOk_asclWord
  · cases h; exact ewordOk_nopWord
  · cases h; exact ewordOk_dsetWord
  · cases h; exact ewordOk_vaddWord
  · cases h; exact ewordOk_vsubWord
  · cases h; exact ewordOk_vmulWord
  · cases h; exact ewordOk_vmaxWord
  · cases h; exact ewordOk_vminWord
  · cases h; exact ewordOk_vfmaWord
  · cases h; exact ewordOk_vexpWord
  · cases h; exact ewordOk_vlogWord
  · cases h; exact ewordOk_vrcpWord
  · cases h; exact ewordOk_vrsqWord
  · cases h; exact ewordOk_vtanhWord
  · cases h; exact ewordOk_vgeluWord
  · cases h; exact ewordOk_vsiluWord
  · cases h; exact ewordOk_vabsWord
  · cases h; exact ewordOk_vcvtWord
  · cases h; exact ewordOk_vqmxWord
  · cases h; exact ewordOk_vdqmxWord
  · cases h; exact ewordOk_vrsumWord
  · cases h; exact ewordOk_vrmaxWord
  · cases h; exact ewordOk_vcsumWord
  · cases h; exact ewordOk_vbcastWord
  · cases h; exact ewordOk_vtrnWord
  · cases h; exact ewordOk_vepiWord
  · cases h; exact ewordOk_vtagselWord
  · cases h; exact ewordOk_nopWord
  · cases h; exact ewordOk_dsetWord
  · cases h; exact ewordOk_ccopyWord
  · cases h; exact ewordOk_cgathWord
  · cases h; exact ewordOk_cscatWord
  · cases h; exact ewordOk_cfillWord
  · cases h; exact ewordOk_cmcastWord
  · cases h; exact ewordOk_cwbindWord
  · cases h; exact ewordOk_cwadvWord
  · cases h; exact ewordOk_cschedWord
  · cases h; exact ewordOk_cpfaWord
  · cases h; exact ewordOk_cmetaWord
  · cases h; exact ewordOk_clsendWord
  · cases h; exact ewordOk_clrecvWord
  · cases h; exact ewordOk_clredWord
  · exact nomatch h

theorem ewordOk_entryOf {w : Issued} {t : Strm} {e : EWord} (h : w.entryOf t = some e) : EWordOk e := by
  unfold Issued.entryOf at h
  split at h
  · exact ewordOk_engineWord h
  · exact nomatch h

theorem canonical_setHalt {k : Core} {t : Strm} {h : Option Halt} (hk : k.canonical = true) : (k.setHalt t h).canonical = true
    := by
  unfold Core.setHalt
  split
  · exact hk
  · exact core_same hk
  · exact canonical_setEngine hk

theorem kept_onHalt {c : CoreId} {t : Strm} {h : Option Halt} : Kept (onHalt c t h) :=
  kept_modState fun _ => canon_onCore fun _ hk => canonical_setHalt hk

theorem kept_tryAddition {c : CoreId} {t : Strm} {v : BitVec 6} {n : BitVec 16} {w : Issued} : Kept (tryAddition c t v n w) :=
    by
  unfold tryAddition
  refine kept_bind_state fun _ hk => ?_
  split
  · rename_i e
    exact kept_modState fun _ => canon_setCore fun _ => canonical_addFlag e (canonical_core hk)
  · exact kept_bind kept_appendFault fun _ => kept_onHalt

theorem kept_skipSignal {c : CoreId} {t : Strm} {w : Issued} : Kept (skipSignal c t w) := by
  unfold skipSignal
  refine kept_bind_state fun _ _ => ?_
  dsimp only
  split
  · exact kept_tryAddition
  · exact kept_tryAddition
  · exact kept_pure

theorem canonical_passHead {k : Core} {t : Strm} (hk : k.canonical = true) : (k.passHead t).canonical = true := by
  unfold Core.passHead
  split
  · exact hk
  · exact canonical_advanceX hk
  exact canonical_setEngine hk

theorem canonical_passEntry {k : Core} (hk : k.canonical = true) : (k.passEntry).canonical = true := core_same hk

theorem kept_freeRow {c : CoreId} {d : Dsc} {slot j : Nat} : Kept (freeRow c d slot j) := by
  unfold freeRow
  refine kept_bind_state fun _ _ => ?_
  split
  · exact kept_pure
  · exact kept_bind kept_freeBytes fun _ => kept_bind kept_freeBytes fun _ => kept_ite (kept_bind (kept_unitTry kept_memWrite)
        fun _ => kept_pure) (kept_bind kept_writeRowTo fun _ => kept_pure)

theorem kept_freeOverlap {e : EWord} {c : CoreId} {w : Issued} {off : Nat} : Kept (freeOverlap e c w off) :=
  kept_bind_state fun _ _ => kept_forM fun _ => kept_forM fun _ => kept_ite kept_pure (kept_ite kept_freeRow kept_pure)

theorem kept_bodyOf {e : EWord} {c : CoreId} {w : Issued} (he : EWordOk e) : Kept (Issued.bodyOf e c w) := by
  unfold Issued.bodyOf
  refine kept_bind (kept_body he) fun _ => ?_
  split
  · exact kept_check kept_freeOverlap kept_pure
  · exact kept_pure

theorem kept_again {e : EWord} {c : CoreId} {w : Issued} (he : EWordOk e) : Kept (again e c w) := by
  unfold again
  intro s
  dsimp only
  split
  · rename_i e'
    refine ends_ok ?_
    refine .trans ?_ canon_upd
    exact .trans (.trans (.trans (.trans canon_same (canon_ok e' (kept_runBody fun _ => kept_bodyOf he))) canon_undrain)
        canon_endLate) (canon_onCore fun _ hk => canonical_addProg hk)
  · rename_i e'
    refine ends_ok ?_
    refine .trans ?_ canon_upd
    exact .trans (.trans (.trans (.trans canon_same (canon_error e' (kept_runBody fun _ => kept_bodyOf he))) canon_undrain)
        canon_performFault) canon_endLate
  · rename_i e'
    exact ends_error (.trans canon_same (canon_error e' (kept_runBody fun _ => kept_bodyOf he)))
  · exact ends_ok (.trans (canon_addDrain.trans (canon_onCore fun _ hk => canonical_addProg hk)) canon_upd)
  · exact ends_ok (.trans (canon_onCore fun _ hk => canonical_addProg hk) canon_upd)

theorem kept_tryChanges {c : CoreId} {t : Strm} {d : List Deferred} {signal : Bool} {w : Issued} :
    Kept (tryChanges c t d signal w) := by
  refine kept_bind (kept_runDeferred fun _ _ _ _ => kept_pure) fun r => ?_
  split
  · refine kept_bind_state fun _ _ => ?_
    split
    · exact kept_tryAddition
    · exact kept_pure
  · intro s
    have stop : ∀ (f : Flt) (h : Option Halt), Kept (do appendFault (panelOf c) (engRec c t w 0 f); onHalt c t h) :=
      fun _ _ => kept_bind kept_appendFault fun _ => kept_onHalt
    have signalled : ∀ u, (if signal then s.engTrySignal c w else Except.ok s) = .ok u → Canon s u := by
      intro u e
      split at e
      · exact canon_engTrySignal e
      · cases e
        exact .refl s
    simp only [bind, EStateM.bind, getState]
    generalize (if signal then s.engTrySignal c w else Except.ok s) = x at signalled ⊢
    cases x with
    | ok u => exact (signalled u rfl).trans (stop _ _ u)
    | error e => exact stop _ _ s

theorem kept_retryHalt {c : CoreId} {t : Strm} {x1 : Halt} : Kept (retryHalt c t x1) := by
  unfold retryHalt
  split
  · exact kept_pure
  · exact kept_pure
  · refine kept_ite ?_ (kept_modState fun _ => canon_onCore fun _ hk => canonical_addProg hk)
    split
    · rename_i e
      exact kept_again (ewordOk_entryOf e)
    · exact kept_pure
  · exact kept_tryAddition
  · exact kept_modState fun _ => .trans (canon_onCore fun _ hk => canonical_addProg hk) canon_upd
  · exact kept_tryChanges

theorem kept_skipHalt {c : CoreId} {t : Strm} {x1 : Halt} : Kept (skipHalt c t x1) := by
  unfold skipHalt
  split
  · exact kept_bind_state fun _ hk => kept_bind (kept_modState fun _ => canon_onCore fun _ hk' => canonical_passHead hk') fun
        _ => kept_skipSignal
  · exact kept_bind_state fun _ hk => kept_bind (kept_modState fun _ => canon_onCore fun _ hk' => canonical_passEntry hk') fun
        _ => kept_skipSignal
  · exact kept_bind (kept_modState fun _ => canon_onCore fun _ hk => core_ite (core_same hk) hk) fun _ => kept_ite
        kept_skipSignal kept_pure
  · exact kept_pure
  · exact kept_modState fun _ => canon_onCore fun _ hk => canonical_addProg hk
  · exact kept_tryChanges

theorem kept_resume {c : CoreId} {t : Strm} {skip : Bool} : Kept (resume c t skip) := by
  unfold resume
  refine kept_bind_state fun _ _ => ?_
  split
  · exact kept_pure
  exact kept_bind kept_onHalt fun _ => kept_branch kept_skipHalt kept_retryHalt fun _ => kept_modState fun _ => canon_dropWire

theorem out_execFresRetry {core : CoreId} {strm : Strm} {s : State} : OutOk s (execFresRetry core strm s) :=
  out_runEvent kept_resume

theorem out_execFresSkip {core : CoreId} {strm : Strm} {s : State} : OutOk s (execFresSkip core strm s) :=
  out_runEvent kept_resume

theorem canonical_landX {k : Core} {i : Nat} {r : XDest × Word} (hk : k.canonical = true) : (k.landX i r).canonical = true :=
    by
  unfold Core.landX
  split
  · exact core_same hk
  · exact core_same hk
  dsimp only
  split
  · exact core_same hk
  · exact hk

theorem canon_getD {s u : State} {x : Option State} (hx : ∀ t, x = some t → Canon s t) (hu : Canon s u) :
    Canon s (x.getD u) := by
  cases x with
  | none => exact hu
  | some t => exact hx t rfl

theorem out_completeX {core : CoreId} {i : Nat} {s : State} : OutOk s (completeX core i s) := by
  unfold completeX
  dsimp only
  split
  · exact Canon.refl s
  · refine out_ite (Canon.refl s) (out_next (canon_getD (fun _ h => ?_) (.refl s)))
    refine .trans (canon_setCore fun hs => ?_) (canon_xSignal h)
    exact core_upd (canonical_foldl (fun _ _ => canonical_landX) (canonical_core hs))

/-- A match on an entry that is found, without looking into what follows. -/
theorem out_found {α : Type} {s : State} {f : α → Out} {x : α} (h : OutOk s (f x)) :
    OutOk s (match (some x : Option α) with
      | none => .next s
      | some a => f a) := h

theorem out_completeA {core : CoreId} {i : Nat} {s : State} : OutOk s (completeA core i s) := by
  have ends : ∀ {t : State} {w : Word} {r : BitVec 13}, Canon s t → Canon s (((t.undrain core .a).onCore core fun k =>
      { k with aMoves := k.aMoves.eraseIdx i }).aComplete (getHdr w) w r) := fun ht =>
    .trans ((ht.trans canon_undrain).trans (canon_onCore fun _ hk => core_same hk)) canon_aComplete
  unfold completeA
  cases (s.core core).aMoves[i]? with
  | none => exact Canon.refl s
  | some x =>
    refine out_found ?_
    have h : Canon s (endState (reparent x.node x.parent s)) := kept_reparent s
    generalize reparent x.node x.parent s = r at h ⊢
    rcases r with ⟨_, t⟩ | ⟨e, t⟩
    · exact out_next (ends (t := t) h)
    · cases e with
      | halt f => trivial
      | drain h p => exact out_next canon_addDrain
      | fault f => exact out_next (ends (.refl s))
      | stall => exact out_next (.refl s)
      | waiting => exact out_next (.refl s)
      | pause p => exact out_next (.refl s)

theorem out_execWordCompletion {core : CoreId} {strm : Strm} {k : Nat} {s : State} :
    OutOk s (execWordCompletion core strm k s) := by
  refine out_ite (Canon.refl s) (out_trans (t := { s with cur := core }) canon_same ?_)
  have engine : ∀ {t : Strm} {u : State}, OutOk u (match ((u.core core).engine t).prog[k]? with
      | none => .next u
      | some w =>
        match (if w.todo then w.entryOf t else none) with
        | some e => goOn e (Issued.bodyOf e core) core k u
        | none => completeWord fillSlot core t k u) := by
    intro t u
    split
    · exact Canon.refl u
    split
    · rename_i e he
      split at he
      · exact out_goOn fun _ => kept_bodyOf (ewordOk_entryOf he)
      · exact nomatch he
    · exact out_completeWord fun _ _ _ _ => kept_fillSlot
  cases strm with
  | a => exact out_completeA
  | x => exact out_completeX
  | m => exact engine
  | v => exact engine
  | c => exact engine

/-! ## The device registers -/

theorem kept_regRead {tag : Tag} {la : Nat} : Kept (regRead tag la) := by
  unfold regRead
  split
  · exact kept_pure
  exact kept_bind_state fun _ _ => kept_ite (kept_bind kept_freeWord fun _ => kept_pure) kept_pure

theorem kept_viaOut {f : State → Out} (hf : ∀ s, OutOk s (f s)) : Kept (viaOut f) := by
  unfold viaOut
  intro s
  dsimp only
  split
  · rename_i e
    exact ends_ok (canon_out e (hf _))
  · exact ends_error (.refl _)
  · exact ends_ok (.refl _)

theorem kept_onG {g : Nat} {f : Gatherer → Gatherer} : Kept (onG g f) := kept_modState fun _ => canon_onGath

theorem kept_onC {h : Nat} {f : Ctl → Ctl} : Kept (onC h f) := kept_modState fun _ => canon_onCtl

theorem kept_onR {p : Nat} {f : RollUp → RollUp} : Kept (onR p f) := kept_modState fun _ => canon_onRollup

theorem kept_onH {f : HostIf → HostIf} : Kept (onH f) := kept_modState fun _ => canon_onHost

theorem kept_onP {f : Power → Power} : Kept (onP f) := kept_modState fun _ => canon_same

theorem kept_onQ {t : Nat} {f : FaultQ → FaultQ} : Kept (onQ t f) := kept_modState fun _ => canon_setFq

theorem kept_onK {c : Nat} {f : Core → Core} (hf : ∀ k, k.canonical = true → (f k).canonical = true) : Kept (onK c f) :=
  kept_modState fun _ => canon_onCore fun _ hk => hf _ hk

theorem kept_fresWrite {c : Nat} {v : Word} : Kept (fresWrite c v) := by
  unfold fresWrite
  split
  · exact kept_resume
  · exact kept_resume
  · exact kept_pure

theorem kept_after {p q : Nat} : Kept (after p q) := kept_bind_state fun _ _ => kept_modMem fun _ => memOk_catchUp

theorem kept_regPut {p : Nat} {r : RegId} {v : Word} : Kept (regPut p r v) := by
  unfold regPut
  split
  · exact kept_onG
  · exact kept_onG
  · exact kept_viaOut fun _ => out_execGdepthWrite
  · exact kept_viaOut fun _ => out_execShapeClassWrite
  · exact kept_viaOut fun _ => out_execShapeClassWrite
  · refine kept_bind kept_after fun _ => kept_bind kept_after fun _ => ?_
    split
    · exact kept_releaseParked
    · exact kept_viaOut fun _ => out_execPkresAbandon
    · exact kept_pure
  · exact kept_modState fun _ => canon_same
  · exact kept_modState fun _ => canon_same
  · exact kept_onC
  · exact kept_onC
  · exact kept_onR
  · exact kept_onR
  · exact kept_onR
  · exact kept_viaOut fun _ => out_execPtcapWrite
  · exact kept_onR
  · exact kept_viaOut fun _ => out_execRerrClear
  · exact kept_ite (kept_viaOut fun _ => out_execCcinv) kept_pure
  · exact kept_modMem fun _ => memOk_same
  · exact kept_wscmd
  · exact kept_modState fun _ => canon_setWid
  · exact kept_viaOut fun _ => out_execSqEnable
  · exact kept_modState fun _ => canon_setSq
  · exact kept_bind_state fun _ _ => kept_tailWrite
  · exact kept_ite kept_pull kept_pure
  · exact kept_onH
  · exact kept_raiseCommit
  · exact kept_onH
  · exact kept_viaOut fun _ => out_execFwbeat
  · exact kept_onH
  · exact kept_onH
  · exact kept_viaOut fun _ => out_execPlimitWrite
  · exact kept_onP
  · split
    · exact kept_viaOut fun _ => out_execP2Exit
    · exact kept_viaOut fun _ => out_execP2Enter
    · exact kept_modState fun _ => canon_wakeCluster
  · exact kept_viaOut fun _ => out_execPmSelectWrite
  · exact kept_modState fun _ => canon_raiseTail.trans canon_wakeTail
  · exact kept_onQ
  · exact kept_onQ
  · exact kept_onQ
  · exact kept_bind kept_after fun _ => kept_fresWrite
  · exact kept_onK fun _ hk => core_same hk
  · exact kept_modState fun _ => canon_onCore fun _ hk => core_same hk
  · exact kept_viaOut fun _ => out_execBudgadd
  · exact kept_ite (kept_viaOut fun _ => out_execFpark) kept_pure
  · exact kept_bind_state fun _ _ => kept_viaOut fun _ => out_execAwayEntryWrite
  · exact kept_bind_state fun _ _ => kept_viaOut fun _ => out_execAwayEntryWrite
  · exact kept_bind (kept_onK fun _ hk => core_same hk) fun _ => kept_modState fun _ => canon_syncWire
  · exact kept_onK fun _ hk => core_same hk
  · exact kept_ite (kept_viaOut fun _ => out_execLinkDiscard) (kept_modState fun _ => canon_onLink)
  · exact kept_modState fun _ => canon_same
  all_goals exact kept_pure

theorem kept_regWrite {p : Nat} {tag : Tag} {la : Nat} {v : Word} : Kept (regWrite p tag la v) := by
  unfold regWrite
  split
  · exact kept_pure
  refine kept_ite kept_pure (kept_bind kept_regPut fun _ => ?_)
  split
  · exact kept_pure
  · exact kept_modState fun _ => canon_same

theorem out_execRegisterWrite {addr : BitVec 56} {value : Word} {s : State} : OutOk s (execRegisterWrite addr value s) :=
  out_ite (out_runEvent kept_regWrite) (out_next (.refl _))

/-! ## Loads, stores and prefetch of the access unit -/

theorem kept_winRead {by0 : WinBy} {mask : Word} {la n : Nat} : Kept (winRead by0 mask la n) := by
  unfold winRead
  refine kept_bind_state fun _ _ => ?_
  dsimp only
  split
  · exact kept_raise
  refine kept_ite (kept_bind kept_freeWord fun _ => kept_pure) ?_
  split
  · exact kept_raise
  split
  · exact kept_pure
  · exact kept_pure
  · exact kept_pure

theorem kept_winWrite {by0 : WinBy} {mask : Word} {la : Nat} {bs : List Byte} : Kept (winWrite by0 mask la bs) := by
  unfold winWrite
  refine kept_bind_state fun _ hk => ?_
  dsimp only
  split
  · exact kept_raise
  refine kept_ite kept_pure ?_
  refine kept_modState fun _ => canon_onCore fun _ hk' => ?_
  split
  · exact core_spad hk' (wf_setBytes _ _ _)
  · exact core_side hk' (wf_setBytes _ _ _)
  · exact canonical_putWinWord hk'

theorem kept_mAddr {o : MOp} : Kept (mAddr o) := kept_bind kept_rdA fun _ => kept_pure

theorem kept_ldsPlace {sa : Word} {n : Nat} : Kept (ldsPlace sa n) :=
  kept_bind_core fun _ _ => kept_check kept_raise (kept_check kept_raise (kept_check kept_raise kept_pure))

theorem out_execLds {h : Hdr} {o : MOp} {s : State} : OutOk s (execLds h o s) := by
  unfold execLds
  refine out_runA (kept_bind kept_mAddr fun _ => kept_bind kept_ldsPlace fun _ => kept_bind_core fun _ _ => ?_)
  split
  · exact kept_raise
  · exact kept_bind kept_aPanel fun _ => kept_bind_state fun _ _ => kept_bind kept_seeWin fun _ => kept_bind kept_wrA fun _ =>
        kept_pure

theorem out_execSts {h : Hdr} {o : MOp} {s : State} : OutOk s (execSts h o s) :=
  out_runA (kept_bind kept_rdA fun _ => kept_bind kept_mAddr fun _ => kept_bind kept_ldsPlace fun _ => kept_bind (kept_modCore
      fun _ hk => core_spad hk (wf_setBytes _ _ _)) fun _ => kept_pure)

theorem kept_winFirst {t : Tag} {la k : Nat} {write : Bool} {mask : Word} {aligned : Bool} : Kept (winFirst t la k write mask
    aligned) := by
  unfold winFirst
  refine kept_bind_state fun _ _ => ?_
  dsimp only
  split
  · exact kept_raise
  refine kept_ite ?_ kept_pure
  split
  · exact kept_raise
  · exact kept_pure

theorem kept_mPlace {va : Word} {o : MOp} {need : Nat} : Kept (mPlace va o need) := by
  unfold mPlace
  refine kept_bind kept_aSet fun _ => ?_
  split
  · exact kept_check kept_raise (kept_ite (kept_bind kept_aTag fun _ => kept_bind kept_winFirst fun _ => kept_aPlace)
        kept_aPlace)
  · exact kept_aPlace

theorem kept_seeTail {p k : Nat} : Kept (seeTail p k) := kept_modState fun _ => canon_onMem memOk_catchUp

theorem kept_regLoad {p : Nat} {tag : Tag} {la : Nat} : Kept (regLoad p tag la) := by
  unfold regLoad
  split
  · exact kept_bind kept_seeTail fun _ => kept_regRead
  · exact kept_bind (kept_modState fun _ => canon_onMem memOk_catchUp) fun _ => kept_regRead
  · exact kept_bind (kept_modState fun _ => canon_onMem memOk_catchUp) fun _ => kept_regRead
  · exact kept_bind (kept_modState fun _ => canon_onMem memOk_catchUp) fun _ => kept_regRead

theorem kept_loadAs {t : Tag} {la n : Nat} {va : Word} : Kept (loadAs t la n va) :=
  kept_bind kept_aPanel fun _ => kept_ite (kept_bind kept_winRead fun _ => kept_bind kept_seeWin fun _ => kept_pure) (kept_ite
      (kept_bind kept_regLoad fun _ => kept_pure) kept_memRead)

theorem kept_aLoad {la n : Nat} {va : Word} : Kept (aLoad la n va) := kept_bind kept_aTag fun _ => kept_loadAs

theorem kept_aStore {la : Nat} {bs : List Byte} {va : Word} : Kept (aStore la bs va) :=
  kept_bind kept_aPanel fun _ => kept_bind kept_aTag fun _ => kept_ite (kept_bind kept_winWrite fun _ => kept_markWin)
      (kept_ite kept_regWrite kept_memWrite)

theorem out_execLdm {h : Hdr} {o : MOp} {s : State} : OutOk s (execLdm h o s) :=
  out_runA (kept_bind kept_mAddr fun _ => kept_bind kept_mPlace fun _ => kept_bind kept_aLoad fun _ => kept_bind kept_wrA fun
      _ => kept_pure)

theorem out_execStm {h : Hdr} {o : MOp} {s : State} : OutOk s (execStm h o s) :=
  out_runA (kept_bind kept_rdA fun _ => kept_bind kept_mAddr fun _ => kept_bind kept_mPlace fun _ => kept_bind kept_aStore fun
      _ => kept_pure)

theorem kept_constRoom {p : Nat} : Kept (constRoom p) := by
  unfold constRoom
  refine kept_bind_state fun _ _ => kept_ite ?_ kept_pure
  refine kept_bind kept_freeWord fun _ => ?_
  split
  · exact kept_modMem fun _ => memOk_same
  · exact kept_pure

theorem kept_constLine {p : Nat} {owner : Tag} {la : Nat} {va : Word} : Kept (constLine p owner la va) := by
  unfold constLine
  refine kept_bind_state fun _ _ => kept_bind kept_freeWord fun _ => ?_
  split
  · exact kept_pure
  refine kept_bind (kept_attempt kept_readLine) fun _ => ?_
  split
  · exact kept_throw
  · exact kept_bind_state fun _ _ => kept_bind kept_constRoom fun _ => kept_bind (kept_modMem fun _ => memOk_same) fun _ =>
        kept_pure

theorem out_execLdc {h : Hdr} {o : MOp} {s : State} : OutOk s (execLdc h o s) :=
  out_runA (kept_bind kept_mAddr fun _ => kept_bind kept_mPlace fun _ => kept_bind (kept_ite (kept_bind kept_aPanel fun _ =>
      kept_bind kept_aTag fun _ => kept_bind kept_constLine fun _ => kept_pure) kept_aLoad) fun _ => kept_bind kept_wrA fun _
      => kept_pure)

theorem out_execCsync {h : Hdr} {s : State} : OutOk s (execCsync h s) :=
  out_runA (kept_bind kept_aPanel fun _ => kept_bind (kept_modMem fun _ => memOk_dropConst) fun _ => kept_pure)

theorem kept_prefetch {va : Word} : Kept (prefetch va) := by
  unfold prefetch
  intro s
  dsimp only
  split
  · rename_i e
    refine ends_ok ?_
    refine canon_ok e ?_
    refine kept_bind kept_aSet fun _ => ?_
    split
    · exact kept_pure
    · exact kept_ite (kept_bind kept_aPanel fun _ => kept_bind kept_aTag fun _ => kept_bind kept_readLine fun _ => kept_pure)
          kept_pure
  · rename_i e
    refine ends_ok ?_
    refine canon_error e ?_
    refine kept_bind kept_aSet fun _ => ?_
    split
    · exact kept_pure
    · exact kept_ite (kept_bind kept_aPanel fun _ => kept_bind kept_aTag fun _ => kept_bind kept_readLine fun _ => kept_pure)
          kept_pure
  · exact ends_ok (.refl _)

theorem out_execPfm {h : Hdr} {o : PfmOp} {s : State} : OutOk s (execPfm h o s) :=
  out_runA (kept_bind kept_rdA fun _ => kept_bind (kept_forM fun _ => kept_prefetch) fun _ => kept_pure)

/-! ## Task and pass words -/

theorem out_execEnq {h : Hdr} {o : RR2} {s : State} : OutOk s (execEnq h o s) := by
  unfold execEnq
  refine out_runA (kept_bind kept_rdA fun _ => kept_bind_core fun _ _ => ?_)
  split
  · refine kept_check kept_winFirst (kept_bind kept_placeIn fun _ => kept_bind kept_aPanel fun _ => kept_bind (kept_ite
        kept_memRead (kept_bind (kept_mapM fun _ => kept_loadAs) fun _ => kept_pure)) fun _ => kept_bind_state fun _ _ =>
        kept_bind kept_submit fun _ => ?_)
    split
    · exact kept_bind kept_wrA fun _ => kept_pure
    · exact kept_bind kept_wrA fun _ => kept_pure
  refine kept_bind kept_placeIn fun _ => kept_bind kept_aPanel fun _ => kept_bind (kept_ite kept_memRead (kept_bind (kept_mapM
      fun _ => kept_loadAs) fun _ => kept_pure)) fun _ => kept_bind_state fun _ _ => kept_bind kept_submit fun _ => ?_
  split
  · exact kept_bind kept_wrA fun _ => kept_pure
  · exact kept_bind kept_wrA fun _ => kept_pure

theorem kept_handOver {reason : BitVec 3} : ∀ {l : List (Nat × Bool)}, Kept (handOver reason l)
  | [] => kept_pure
  | _ :: _ => kept_bind_state fun _ _ => by
    dsimp only
    split
    · exact kept_handOver
    · exact kept_ite kept_pure (kept_bind (kept_modState fun _ => (canon_onMem memOk_catchUp).trans canon_onGath)
        fun _ => kept_handOver)

theorem kept_handOverAll {reason : BitVec 3} {bs : List (Nat × Bool)} : Kept (handOverAll reason bs) :=
  kept_bind kept_handOver fun _ => kept_ite (kept_modCore fun _ hk => core_same hk) (kept_bind (kept_modCore fun _ hk =>
      core_same hk) fun _ => kept_throw)

theorem kept_fetchPass {f : Feed} : Kept (fetchPass f) :=
  kept_bind_state fun _ _ => kept_check kept_throw (kept_bind kept_seeTail fun _ => kept_bind kept_memRead fun _ => kept_check
      kept_throw (kept_check kept_raise (kept_ite kept_pure (kept_check kept_raise (kept_bind kept_memRead fun _ => kept_check
      kept_raise (kept_bind (kept_mapM fun _ => kept_readRangeSet) fun _ => kept_check kept_raise kept_pure))))))

theorem canonical_reloadAll {k : Core} (hk : k.canonical = true) : (k.reloadAll).canonical = true := core_same hk

theorem canonical_takePass {k : Core} {r : Popped} {f : Feed} {cycle : Nat} (hk : k.canonical = true) :
    (k.takePass r f cycle).canonical = true := core_ite (core_same hk) (core_same hk)

theorem out_execPoppass {h : Hdr} {d : Reg} {s : State} : OutOk s (execPoppass h d s) := by
  unfold execPoppass
  refine out_runA (kept_bind_core fun _ hk => ?_)
  split
  · exact kept_raise
  exact kept_bind kept_stallIf fun _ => kept_bind kept_fetchPass fun _ => kept_check kept_handOverAll (kept_bind
      (kept_modState fun _ => canon_onGath.trans (canon_onCore fun _ hk' => canonical_takePass hk')) fun _ => kept_bind
      kept_wrA fun _ => kept_pure)

theorem out_execRbtld {h : Hdr} {o : RbtldOp} {s : State} : OutOk s (execRbtld h o s) :=
  out_runA (kept_bind_core fun _ _ => kept_bind kept_rdA fun _ => kept_bind kept_wrA fun _ => kept_pure)

theorem kept_blockDone {k : Core} {p b : Nat} : Kept (blockDone k p b) :=
  kept_ite kept_rangeDone (kept_check kept_completeAt (kept_modState fun _ => canon_endTask))

theorem kept_sendDone {w : Word} {rword : BitVec 13} : ∀ {l : List Nat} {late : List Tag} {done : List Nat},
    Kept (sendDone w rword l late done)
  | [], _, _ => kept_pure
  | b :: bs, late, done => by
    refine kept_bind_state fun s _ => kept_ite kept_sendDone ?_
    have rest : ∀ late', Kept (do
        match ← attempt (blockDone (s.core s.cur) (panelOf s.cur) b) with
        | .ok _ => sendDone w rword bs late' (done ++ [b])
        | .error f => do
          parkOwner s.cur 0 0 rword w ((s.core s.cur).rbtOwner b) f
          sendDone w rword bs late' done : M (List Nat)) := fun _ => kept_bind (kept_attempt kept_blockDone) fun r =>
      match r with
      | .ok _ => kept_sendDone
      | .error _ => kept_bind kept_parkOwner fun _ => kept_sendDone
    exact kept_ite (kept_bind kept_appendFault fun _ => rest _) (rest _)

theorem out_execPassdone {h : Hdr} {s : State} : OutOk s (execPassdone h s) := by
  unfold execPassdone
  refine out_runA (kept_bind_core fun _ hk => kept_ite ?_ kept_pure)
  split
  · exact kept_bind kept_handOverAll fun _ => kept_bind (kept_modCore fun _ hk' => core_same hk') fun _ => kept_pure
  · exact kept_bind kept_sendDone fun _ => kept_bind_core fun _ _ => kept_bind kept_handOverAll fun _ => kept_bind
        (kept_modCore fun _ hk2 => core_same hk2) fun _ => kept_pure

theorem canon_releaseCore {s : State} {c : CoreId} : Canon s (s.releaseCore c) := canon_onGath.trans canon_assignAll

theorem out_execYield {h : Hdr} {adv : Bool} {s : State} : OutOk s (execYield h adv s) :=
  out_runA (kept_bind (kept_modCore fun _ hk => core_same hk) fun _ => kept_bind (kept_modState fun _ => canon_ite
      canon_assignAll canon_releaseCore) fun _ => kept_pure)

end Sys2Proof.Machine

/-! PROOFS. The canonical form, the privileged words, contexts, the loader and the boot. A context's image and a program's
image bring memories of their own, which are canonical as they are built. -/

namespace Sys2Proof.Machine

-- One proof after another, as for the tests: so many short ones at a time take more threads than the check's memory holds.
set_option Elab.async false

/-! ## The privileged words on page tables, keys and feed rings -/

theorem kept_storeBlock {p : Nat} {owner : Tag} {la : Nat} {bs : List Byte} : Kept (storeBlock p owner la bs) := by
  unfold storeBlock
  refine kept_bind (kept_attempt kept_memWrite) fun _ => ?_
  split
  · exact kept_pure
  · exact kept_throw

theorem kept_entryFrom {la : Nat} : ∀ {levels : List (Nat × Nat × Option Nat)} {left table : Nat},
    Kept (entryFrom la levels left table)
  | [], _, _ => kept_pure
  | _ :: _, _, _ => kept_bind kept_ptOpen fun _ => kept_ite kept_pure
      (kept_bind_state fun _ _ => kept_ite kept_entryFrom kept_pure)

theorem kept_answerTime {d : BitVec 5} {t : Word} : Kept (answerTime d t) :=
  kept_bind_state fun _ hk => kept_ite (kept_bind (kept_modCore fun _ hk' => core_same hk') fun _ => kept_throw) (kept_bind
      kept_wrA fun _ => kept_pure)

theorem kept_onceWritten {d : BitVec 5} {write : M Word} (hwrite : Kept write) : Kept (onceWritten d write) := by
  unfold onceWritten
  refine kept_bind_core fun _ hk => ?_
  split
  · exact kept_bind_state fun _ _ => kept_check kept_throw (kept_bind (kept_modCore fun _ hk2 => core_same hk2) fun _ =>
        kept_answerTime)
  · exact kept_bind hwrite fun _ => kept_answerTime

theorem out_execLptw {h : Hdr} {o : RR3K} {s : State} : OutOk s (execLptw h o s) := by
  unfold execLptw
  refine out_runA (kept_onceWritten (kept_bind kept_rdA fun _ => kept_bind kept_rdA fun _ => kept_check kept_raise ?_))
  split
  · exact kept_raise
  refine kept_bind_state fun _ _ => kept_bind kept_entryFrom fun _ => ?_
  split
  · exact kept_raise
  · exact kept_bind (kept_modState fun _ => canon_setPtWord) fun _ => kept_bind_state fun _ _ => kept_pure

theorem kept_leafOf {va : Word} : Kept (leafOf va) := by
  unfold leafOf
  refine kept_check kept_raise (kept_bind kept_walkOpen fun _ => kept_bind_state fun _ _ => ?_)
  split
  · exact kept_raise
  · exact kept_pure

theorem out_execLdrain {h : Hdr} {o : RR2} {s : State} : OutOk s (execLdrain h o s) :=
  out_runA (kept_onceWritten (kept_bind kept_rdA fun _ => kept_bind kept_leafOf fun _ => kept_bind (kept_modState fun _ =>
      canon_setPtWord) fun _ => kept_bind_state fun _ _ => kept_pure))

theorem canon_settleLine {s : State} {pline slot : Nat} {d : BitVec 512} : Canon s (s.settleLine pline slot d) :=
  canon_setHbmLine.trans (canon_onMem memOk_same)

theorem kept_confirmLine {l : Leaf} {line : Nat} : Kept (confirmLine l line) := by
  unfold confirmLine
  refine kept_bind_state fun _ _ => ?_
  split
  · exact kept_pure
  exact kept_ite (kept_modState fun _ => canon_dropLine) (kept_ite kept_pure (kept_ite (kept_bind kept_appendFault fun _ =>
      kept_modState fun _ => canon_dropLine) (kept_backLine kept_pure fun _ => kept_bind_state fun _ _ => kept_bind
      kept_stallIf fun _ => kept_modState fun _ => canon_settleLine.trans (canon_onMem memOk_same))))

theorem kept_confirmVictim {key : Nat} : Kept (confirmVictim key) := by
  unfold confirmVictim
  refine kept_bind_state fun _ _ => ?_
  split
  · exact kept_pure
  · exact kept_ite (kept_bind kept_stallIf fun _ => kept_modState fun _ => canon_settleLine) kept_pure

theorem out_execLconf {h : Hdr} {o : SS} {s : State} : OutOk s (execLconf h o s) :=
  out_runA (kept_bind kept_rdA fun _ => kept_bind kept_rdA fun _ => kept_bind kept_leafOf fun _ => kept_check kept_raise
      (kept_bind_state fun _ _ => kept_bind kept_stallIf fun _ => kept_bind (kept_forM fun _ => kept_confirmLine) fun _ =>
      kept_bind (kept_forM fun _ => kept_confirmVictim) fun _ => kept_pure))

theorem canon_setKey {s : State} {n : Nat} {k : KeySlot} : Canon s (s.setKey n k) := canon_onMem memOk_same

theorem out_execKeyset {h : Hdr} {o : SS} {s : State} : OutOk s (execKeyset h o s) :=
  out_runA (kept_bind kept_rdA fun _ => kept_bind kept_rdA fun _ => kept_check kept_raise (kept_bind_state fun _ _ =>
      kept_check kept_raise (kept_bind kept_memRead fun _ => kept_bind (kept_modState fun _ => canon_setKey) fun _ =>
      kept_pure)))

theorem canon_killKey {s : State} {n : BitVec 8} : Canon s (s.killKey n) :=
  .trans (canon_foldl fun _ _ => canon_dropLine) (canon_onMem memOk_same)

theorem out_execKeykill {h : Hdr} {s1 : Reg} {s : State} : OutOk s (execKeykill h s1 s) :=
  out_runA (kept_bind kept_rdA fun _ => kept_check kept_raise (kept_bind (kept_modState fun _ => canon_killKey.trans
      canon_setKey) fun _ => kept_pure))

theorem canon_installFeed {s : State} {c : CoreId} {f : Option Feed} : Canon s (s.installFeed c f) :=
  canon_onGath.trans (canon_onCore fun _ hk => core_same hk)

theorem out_execFmap {h : Hdr} {s1 : Reg} {s : State} : OutOk s (execFmap h s1 s) :=
  out_runA (kept_bind kept_rdA fun _ => kept_check kept_raise (kept_ite (kept_bind kept_aTag fun _ => kept_bind kept_winFirst
      fun _ => kept_check kept_raise (kept_bind (kept_mapM fun _ => kept_bind kept_aLoad fun _ => kept_pure) fun _ =>
      kept_check kept_raise (kept_check kept_raise (kept_bind (kept_modState fun _ => canon_installFeed) fun _ =>
      kept_pure)))) (kept_check kept_raise (kept_bind (kept_mapM fun _ => kept_bind kept_aLoad fun _ => kept_pure) fun _ =>
      kept_check kept_raise (kept_check kept_raise (kept_bind (kept_modState fun _ => canon_installFeed) fun _ =>
      kept_pure))))))

/-! ## Saving and loading a context -/

theorem kept_ctxPlace {va : Word} {spad away : Bool} : Kept (ctxPlace va spad away) :=
  kept_check kept_raise (kept_check kept_raise kept_pure)

theorem canon_xSignal_getD {s : State} {c : CoreId} {w : Issued} : Canon s ((s.xSignal c w).getD s) := by
  cases e : s.xSignal c w with
  | none => exact .refl s
  | some t => exact canon_xSignal e

theorem kept_passXSafe : Kept passXSafe := by
  unfold passXSafe
  refine kept_bind_core fun k hk => ?_
  split
  · split
    · exact kept_throw
    · rename_i hwait
      dsimp only
      split
      · exact kept_modState fun _ => canon_xFault
      · rename_i hsig
        exact kept_bind (kept_modCore fun _ _ => canonical_advanceX (canonical_issueSig hsig (canonical_passWait hwait hk)))
          fun _ => kept_modState fun _ => canon_xSignal_getD
  · exact kept_pure

theorem canonical_savedCore {k : Core} {i la : Nat} (hk : k.canonical = true) : (k.savedCore i la).canonical = true :=
  core_same hk

theorem out_execCtxsv {h : Hdr} {o : CtxOp} {s : State} : OutOk s (execCtxsv h o s) := by
  unfold execCtxsv
  refine out_runA (kept_bind kept_rdA fun _ => kept_bind_core fun _ hk => kept_bind kept_ctxPlace fun _ => ?_)
  split
  · exact kept_raise
  · exact kept_throw
  refine kept_bind kept_stallIf fun _ => kept_bind kept_passXSafe fun _ => kept_bind_state fun _ _ => kept_bind_core fun _ _
      => ?_
  split
  · exact kept_bind kept_raise fun _ => kept_bind kept_storeBlock fun _ => kept_bind (kept_modState fun _ => canon_same) fun _
        => kept_bind (kept_modCore fun _ hk3 => canonical_savedCore hk3) fun _ => kept_bind (kept_modState fun _ =>
        canon_syncWire) fun _ => kept_pure
  · exact kept_bind kept_storeBlock fun _ => kept_bind (kept_modState fun _ => canon_same) fun _ => kept_bind (kept_modCore
        fun _ hk3 => canonical_savedCore hk3) fun _ => kept_bind (kept_modState fun _ => canon_syncWire) fun _ => kept_pure

theorem canonical_loadFlags {k : Core} {ws : List Word} (hk : k.canonical = true) : (k.loadFlags ws).canonical = true := by
  unfold Core.loadFlags
  refine canonical_foldl (fun _ _ hk' => ?_) hk
  split
  · exact core_same hk'
  · exact hk'

/-- A memory that is built from the last entry of a list to its first, the list with its places. -/
theorem foldr_zip_range' {α β : Type} {P : Nat → β → Prop} {f : α × Nat → β → β} {b : β} (base : ∀ n, P n b)
    (step : ∀ x i m, P (i + 1) m → P i (f (x, i) m)) (l : List α) (n k : Nat) :
    P n ((l.zip (List.range' n k)).foldr f b) := by
  induction l generalizing n k with
  | nil => exact base n
  | cons x l ih =>
    cases k with
    | zero => exact base n
    | succ k => exact step x n _ (ih (n + 1) k)

/-- Rising keys from `n` on, and no entry that an unlisted key would read as. -/
def RisesFrom {w : Nat} (n : Nat) (m : SMap (BitVec w)) : Prop :=
  m.Pairwise (fun a b => a.1 < b.1) ∧ ∀ e ∈ m, n ≤ e.1 ∧ e.2 ≠ 0

theorem risesFrom_nil {w : Nat} (n : Nat) : RisesFrom n ([] : SMap (BitVec w)) := ⟨.nil, fun _ h => nomatch h⟩

theorem risesFrom_mono {w : Nat} {n k : Nat} {m : SMap (BitVec w)} (h : RisesFrom n m) (hk : k ≤ n) : RisesFrom k m :=
  ⟨h.1, fun e he => ⟨hk.trans (h.2 e he).1, (h.2 e he).2⟩⟩

/-- An entry before the others, left out where an unlisted key reads as it. -/
theorem risesFrom_put {w n : Nat} {m : SMap (BitVec w)} {v : BitVec w} (h : RisesFrom (n + 1) m) :
    RisesFrom n (if v = 0 then m else (n, v) :: m) := by
  split
  · exact risesFrom_mono h n.le_succ
  · rename_i hv
    refine ⟨List.pairwise_cons.2 ⟨fun e he => (h.2 e he).1, h.1⟩, fun e he => ?_⟩
    obtain rfl | he := List.mem_cons.1 he
    · exact ⟨le_rfl, hv⟩
    · exact (risesFrom_mono h n.le_succ).2 e he

theorem wf_memOfBytes (bs : List Byte) : Memory.wf (memOfBytes bs) = true := by
  have h : RisesFrom 0 (memOfBytes bs) := by
    unfold memOfBytes
    rw [List.range_eq_range']
    exact foldr_zip_range' (P := RisesFrom) risesFrom_nil (fun _ _ _ h => risesFrom_put h) _ _ _
  rw [Memory.wf, Bool.and_eq_true, List.all_eq_true]
  exact ⟨keysRise_iff.2 h.1, fun e he => bne_iff_ne.2 (h.2 e he).2⟩

theorem loadAcc_rises (bs : List Byte) : RisesFrom 0 (loadAcc bs) := by
  unfold loadAcc
  rw [List.range_eq_range']
  exact foldr_zip_range' (P := fun n (m : SMap (BitVec 32)) => RisesFrom (2 * n) m) (fun _ => risesFrom_nil _)
    (fun _ _ _ h => risesFrom_put (risesFrom_put h)) _ 0 _

/-- The accumulators of a core become those of an image. -/
theorem core_loadAcc {k k' : Core} {bs : List Byte} (h : k.canonical = true) (hacc : k'.acc = loadAcc bs := by with_reducible rfl)
    (h1 : k'.spad = k.spad := by with_reducible rfl) (h2 : k'.side = k.side := by with_reducible rfl)
    (h3 : k'.xRes = k.xRes := by with_reducible rfl) :
    k'.canonical = true := by
  obtain ⟨wf, side, _, _, res⟩ := (canonical_iff k).1 h
  rw [canonical_iff, hacc, h1, h2, h3]
  exact ⟨wf, side, keysRise_iff.2 (loadAcc_rises bs).1, fun e he => ((loadAcc_rises bs).2 e he).2, res⟩

theorem canonical_loadedSpad {k : Core} {bs : List Byte} (hk : k.canonical = true) :
    ({ k with spad := memOfBytes bs, spadErr := [] } : Core).canonical = true := core_spad hk fun _ => wf_memOfBytes bs

theorem canonical_loadCtx {k : Core} {ws : List Word} {acc : List Byte} {spad : Option (List Byte)} {x : LoadArgs}
    (hk : k.canonical = true) : (k.loadCtx ws acc spad x).canonical = true := by
  unfold Core.loadCtx
  extract_lets w0 budget bobbin k1 k2
  have h1 : k1.canonical = true := core_loadAcc hk
  clear_value k1
  have h2 : k2.canonical = true := by
    have flags := canonical_loadFlags (ws := ws) h1
    unfold k2
    generalize k1.loadFlags ws = k3 at flags
    exact core_upd flags
  clear_value k2
  split
  · exact canonical_loadedSpad h2
  · exact h2

theorem kept_releaseHeld {c : CoreId} {owner : Tag} {h : Held} : Kept (releaseHeld c owner h) := by
  unfold releaseHeld
  intro s
  dsimp only
  split
  · rename_i e
    exact ends_ok (canon_ok e kept_decideRemote)
  · rename_i e
    exact ends_error (canon_error e kept_decideRemote)
  · exact ends_ok canon_same

theorem kept_freeHold {c : CoreId} {owner : Tag} : Kept (freeHold c owner) := by
  unfold freeHold
  refine kept_bind_state fun _ hk => ?_
  dsimp only
  split
  · exact kept_pure
  · exact kept_bind (kept_modState fun _ => canon_onCore fun _ hk' => core_same hk') fun _ => kept_forM fun _ =>
        kept_releaseHeld

theorem out_execCtxld {h : Hdr} {o : CtxOp} {s : State} : OutOk s (execCtxld h o s) := by
  unfold execCtxld
  refine out_runA (kept_bind kept_rdA fun _ => kept_bind kept_ctxPlace fun _ => kept_bind_state fun _ hk => kept_bind
      kept_memRead fun _ => kept_bind (kept_attempt kept_readRangeSet) fun _ => kept_check kept_raise (kept_check kept_raise
      (kept_bind (kept_ite (kept_bind kept_memRead fun _ => kept_pure) kept_pure) fun _ => kept_bind ?_ fun _ => kept_bind
      kept_freeWord fun _ => kept_bind kept_freeWord fun _ => kept_bind kept_freeWord fun _ => kept_bind kept_freeWord fun _
      => kept_bind (kept_modState fun _ => canon_orphan) fun _ => kept_bind (kept_modCore fun _ hk' => canonical_loadCtx hk')
      fun _ => kept_bind (kept_modState fun _ => canon_installFeed) fun _ => kept_bind (kept_modState fun _ =>
      canon_dropWire.trans canon_syncWire) fun _ => kept_bind_state fun _ _ => kept_bind kept_freeHold fun _ => kept_bind
      (kept_modState fun _ => canon_assignAll) fun _ => kept_pure)))
  split
  · exact kept_pure
  · exact kept_throw

/-! ## Loading a program -/

theorem kept_placeData {p : Nat} {ctx : Tag} {set : RangeSet} : ∀ {fuel : Nat} {va : Word} {bs : List Byte},
    Kept (placeData p ctx set fuel va bs)
  | 0, _, _ => kept_pure
  | _ + 1, _, _ => by
    unfold placeData
    refine kept_ite kept_pure ?_
    dsimp only
    split
    · exact kept_raise
    · exact kept_bind_state fun _ _ => kept_ite (kept_bind kept_raise fun _ => kept_bind kept_memWrite fun _ => kept_placeData)
        (kept_bind kept_memWrite fun _ => kept_placeData)

theorem kept_placeAll {p : Nat} {ctx : Tag} {set : RangeSet} {img : List Byte} : Kept (placeAll p ctx set img) :=
  kept_forM fun _ => kept_placeData

theorem canonical_clear {k : Core} : (k.clear).canonical = true := by
  unfold Core.clear
  exact core_upd canonical_reset

theorem canonical_syncFlags {k : Core} {es : List (List Byte)} (hk : k.canonical = true) : (k.syncFlags es).canonical = true
    := by
  unfold Core.syncFlags
  refine canonical_foldl (fun _ _ hk' => ?_) hk
  split
  · dsimp only
    exact core_same hk'
  · exact hk'

theorem wf_foldl_setBytes {α : Type} {g : α → Nat} {h : α → List Byte} {l : List α} {m : Memory}
    (hm : Memory.wf m = true) : Memory.wf (l.foldl (fun m e => setBytes m (g e) (h e)) m) = true := by
  induction l generalizing m with
  | nil => exact hm
  | cons e l ih => exact ih (wf_setBytes _ _ _ hm)

theorem wf_bvxBanks (img : List Byte) (base : Nat) (side : Bool) : Memory.wf (bvxBanks img base side) = true :=
  wf_foldl_setBytes wf_empty

theorem wf_bvxSpad (img : List Byte) (bases : List (BitVec 13)) : Memory.wf (bvxSpad img bases) = true :=
  wf_foldl_setBytes (wf_bvxBanks _ _ _)

/-- An image is placed on a core that is cleared: what its memories held before does not matter. -/
theorem canonical_place {k : Core} {ctx : Tag} {set : RangeSet} {img : List Byte} {bases : List (BitVec 13)} :
    (k.place ctx set img bases).canonical = true := by
  unfold Core.place
  refine canonical_syncFlags ((canonical_iff _).2 ⟨wf_bvxSpad img bases, wf_bvxBanks img _ true, ?_, ?_, ?_⟩)
  · rfl
  · exact fun _ h => nomatch h
  · rfl

theorem kept_loadImage {c : CoreId} {ctx : Tag} {img : List Byte} {bases : List (BitVec 13)} : Kept (loadImage c ctx img
    bases) :=
  kept_bind kept_useRangeSet fun _ => kept_bind kept_placeAll fun _ => kept_modState fun _ => .trans (.trans
      (canon_orphan.trans (canon_onCore fun _ _ => canonical_place)) canon_syncWire) canon_assignAll

theorem out_takeImage {core : CoreId} {ctx : Tag} {image : List Byte} {bases : List (BitVec 13)} {s : State} : OutOk s
    (takeImage core ctx image bases s) :=
  out_ite (out_runUnit kept_loadImage) (out_next (.refl _))

theorem kept_readImage {p : Nat} {ctx : Tag} {va : Word} {len : Nat} : Kept (readImage p ctx va len) := by
  unfold readImage
  refine kept_bind kept_useRangeSet fun _ => ?_
  split
  · exact kept_raise
  · exact kept_ite kept_memRead kept_raise

theorem out_execProgramLoad {core : CoreId} {ctx : Tag} {image : ImageSrc} {bases : List (BitVec 13)} {s : State} : OutOk s
    (execProgramLoad core ctx image bases s) := by
  unfold execProgramLoad
  split
  · exact out_takeImage
  split
  · rename_i e
    exact out_trans (canon_ok e kept_readImage) out_takeImage
  · exact trivial
  · exact out_next canon_addDrainAt
  · exact out_next (.refl _)

theorem canonical_startStreams {k : Core} (hk : k.canonical = true) : (k.startStreams).canonical = true := core_same hk

theorem out_execStreamsStart {core : CoreId} {s : State} : OutOk s (execStreamsStart core s) :=
  out_ite (out_next (.refl _)) (out_next (.trans (canon_setCore fun hk => core_upd (canonical_startStreams (canonical_core
      hk))) canon_syncWire))

/-! ## Module reset and the boot -/

theorem wf_romSteps {x : Boot} {b : BootInput} (h : Memory.wf x.sram = true) : Memory.wf (x.romSteps b).sram = true := by
  unfold Boot.romSteps
  split
  · exact h
  · exact wf_setBytes _ _ _ (wf_setBytes _ _ _ h)

theorem canon_stepTime {s : State} {t : Option Word} : Canon s (s.stepTime t) := by
  unfold State.stepTime
  split
  · exact canon_ite canon_same (.refl _)
  · exact .refl _

theorem canon_bootedState {s : State} {b : BootInput} : Canon s (bootedState s b) := by
  have rom : Canon s { s with boot := (s.boot.romSteps b).apply b } := canon_boot wf_romSteps
  exact rom.trans (canon_stepTime.trans (canon_mem memOk_same))

theorem canon_failedState {s : State} {b : BootInput} {code : BitVec 4} : Canon s (failedState s b code) :=
  canon_boot fun h => by
    unfold failedState
    dsimp only
    split <;> exact wf_romSteps h

/-- A state that comes from the one at reset is canonical whatever went before. -/
theorem canon_of_reset {s t : State} (h : Canon State.reset t) : Canon s t := fun _ =>
  have ⟨wf, log, lines⟩ := h rfl
  ⟨wf, fun _ => log rfl, fun _ => lines rfl⟩

theorem out_execModuleReset {b : BootInput} {s : State} : OutOk s (execModuleReset b s) := by
  refine out_next (canon_of_reset ?_)
  split
  · exact .trans canon_same canon_bootedState
  · exact .trans canon_same canon_failedState

end Sys2Proof.Machine

/-! PROOFS. The canonical form, the execute unit: a word whose results come later leaves them on its core between its body
and its completion, so that its body keeps a relation of its own. -/

namespace Sys2Proof.Machine

-- One proof after another, as for the tests: so many short ones at a time take more threads than the check's memory holds.
set_option Elab.async false

/-! ## The body of an X word -/

/-- A core with the memories of another, and with its results to come unless words complete later. -/
structure SameStore (later : Option Nat) (k k' : Core) : Prop where
  spad : k'.spad = k.spad
  side : k'.side = k.side
  acc : k'.acc = k.acc
  xRes : later = none → k'.xRes = k.xRes

/-- What the body of an X word does: at most the running core changes, and has its memories. -/
def XKeep (s t : State) : Prop := t = s ∨ ∃ k, t = s.setCore s.cur k ∧ SameStore s.lineOps (s.core s.cur) k

theorem sameStore_upd {l : Option Nat} {k k' : Core} (h1 : k'.spad = k.spad := by rfl) (h2 : k'.side = k.side := by rfl)
    (h3 : k'.acc = k.acc := by rfl) (h4 : k'.xRes = k.xRes := by rfl) : SameStore l k k' := ⟨h1, h2, h3, fun _ => h4⟩

theorem sameStore_trans {l : Option Nat} {k k' j : Core} (h : SameStore l k k') (h' : SameStore l k' j) : SameStore l k j where
  spad := h'.spad.trans h.spad
  side := h'.side.trans h.side
  acc := h'.acc.trans h.acc
  xRes hl := (h'.xRes hl).trans (h.xRes hl)

theorem xKeep_order : Order XKeep where
  refl _ := .inl rfl
  trans s t u h h' := by
    obtain rfl | ⟨k, rfl, hk⟩ := h
    · exact h'
    obtain rfl | ⟨j, rfl, hj⟩ := h'
    · exact .inr ⟨k, rfl, hk⟩
    · rw [cur_setCore, core_setCore_same] at hj
      exact .inr ⟨j, setCore_setCore s s.cur k j, sameStore_trans hk hj⟩

theorem xKeep_setCore {s : State} {k : Core} (h : SameStore s.lineOps (s.core s.cur) k) : XKeep s (s.setCore s.cur k) :=
  .inr ⟨k, rfl, h⟩

abbrev XKept {α : Type} (act : M α) : Prop := Keeps XKeep act

section
variable {α β : Type}

theorem xKept_pure {a : α} : XKept (pure a : M α) := keeps_pure xKeep_order a
theorem xKept_getState : XKept getState := keeps_getState xKeep_order
theorem xKept_getCore : XKept getCore := keeps_getCore xKeep_order
theorem xKept_stallIf {b : Bool} : XKept (stallIf b) := keeps_stallIf xKeep_order b

theorem xKept_modCore {f : Core → Core} (h : ∀ l k, SameStore l k (f k)) : XKept (modCore f) := fun _ => xKeep_setCore (h _ _)

theorem xKept_bind {x : M α} {f : α → M β} (hx : XKept x) (hf : ∀ a, XKept (f a)) : XKept (x >>= f) :=
  keeps_bind xKeep_order hx hf

theorem xKept_ite {c : Prop} [Decidable c] {x y : M α} (hx : XKept x) (hy : XKept y) : XKept (if c then x else y) :=
  keeps_ite hx hy

end

/-! ## Registers, predicates and rounding -/

theorem xKept_rdX {r : Reg} : XKept (rdX r) := by
  intro s
  unfold rdX
  dsimp only
  split
  · exact xKeep_order.refl s
  split
  · split
    · exact xKeep_order.refl s
    · exact xKeep_setCore sameStore_upd
  split <;> exact xKeep_order.refl s

theorem xKept_rdP {p : Pred} : XKept (rdP p) := by
  intro s
  unfold rdP
  dsimp only
  split <;> exact xKeep_order.refl s

/-- A result is written now, or kept for later where words complete later. -/
theorem xKept_keepX {d : XDest} {v : Word} {now : Core → Core} (h : ∀ l k, SameStore l k (now k)) : XKept (keepX d v now) := by
  intro s
  unfold keepX
  dsimp only
  split
  · rename_i hl
    exact xKeep_setCore ⟨rfl, rfl, rfl, fun hn => by rw [hn] at hl; exact nomatch hl⟩
  split
  · exact xKeep_order.refl s
  · exact xKeep_setCore (h _ _)

theorem xKept_wrX {r : Reg} {v : Word} : XKept (wrX r v) := by
  intro s
  unfold wrX
  dsimp only
  split
  · exact xKeep_order.refl s
  split
  · split
    · exact xKeep_order.refl s
    · exact xKept_keepX (fun _ _ => sameStore_upd) s
  · exact xKept_keepX (fun _ _ => sameStore_upd) s

theorem xKept_wrP {p : Pred} {b : Bool} : XKept (wrP p b) := by
  intro s
  unfold wrP
  split
  · exact xKeep_order.refl s
  · exact xKept_keepX (fun _ _ => sameStore_upd) s

theorem xKept_xRound {rnd : BitVec 3} : XKept (xRound rnd) :=
  have reload : XKept xReload := xKept_modCore fun _ k => by split <;> exact sameStore_upd
  have step : XKept (modCore fun k => { k with xLfsr := lfsrStep k.xLfsr }) :=
    xKept_modCore fun _ _ => sameStore_upd
  xKept_bind reload fun _ => xKept_bind xKept_getCore fun _ => xKept_ite (xKept_bind step fun _ => xKept_pure)
    (xKept_bind xKept_pure fun _ => xKept_pure)

theorem xKept_readFt : XKept readFt := xKept_bind xKept_getState fun _ => xKept_pure

/-! ## The completion of an X word -/

theorem XKeep.cur {s t : State} (h : XKeep s t) : t.cur = s.cur := by
  obtain rfl | ⟨_, rfl, _⟩ := h <;> rfl

/-- After the body, a canonical core in the running core's place. -/
theorem XKeep.canon_setCore {s t : State} (h : XKeep s t) {k : Core} (hk : s.memoriesWf = true → k.canonical = true) :
    Canon s (t.setCore t.cur k) := by
  obtain rfl | ⟨j, rfl, _⟩ := h
  · exact Machine.canon_setCore hk
  · exact (setCore_setCore s s.cur j k).symm ▸ Machine.canon_setCore hk

/-- The running core after the body is canonical but for the results to come, which have left it. -/
theorem XKeep.canonical {s t : State} (h : XKeep s t) (hs : s.memoriesWf = true) {k : Core}
    (h1 : k.spad = (t.core t.cur).spad) (h2 : k.side = (t.core t.cur).side) (h3 : k.acc = (t.core t.cur).acc)
    (h4 : k.xRes = []) : k.canonical = true := by
  have hc := canonical_core (c := s.cur) hs
  have hr : k.xRes = (s.core s.cur).xRes := h4.trans ((canonical_iff _).1 hc).2.2.2.2.symm
  obtain rfl | ⟨j, rfl, hj⟩ := h
  · exact core_same hc h1 h2 h3 hr
  · rw [cur_setCore, core_setCore_same] at h1 h2 h3
    exact core_same hc (h1.trans hj.spad) (h2.trans hj.side) (h3.trans hj.acc) hr

/-- Where no words complete later, the body keeps the canonical form. -/
theorem XKeep.canon {s t : State} (h : XKeep s t) (hl : s.lineOps = none) : Canon s t := by
  obtain rfl | ⟨j, rfl, hj⟩ := h
  · exact .refl _
  · exact Machine.canon_setCore fun hs => core_same (canonical_core hs) hj.spad hj.side hj.acc (hj.xRes hl)

theorem sameStore_advanceX {l : Option Nat} {k : Core} {fl : Flow} : SameStore l k (k.advanceX fl) := by
  unfold Core.advanceX
  split <;> exact sameStore_upd

/-- The word completes later: its results leave the core with it. -/
theorem XKeep.canon_later {s t : State} (h : XKeep s t) {c : CoreId} (hc : t.cur = c) {fl : Flow} {w : Word}
    {rword : BitVec 13} : Canon s ((t.onCore c fun q => q.advanceX fl).xComplete true w rword) := by
  subst hc
  have adv : SameStore none (t.core t.cur) ((t.core t.cur).advanceX fl) := sameStore_advanceX
  unfold State.xComplete State.onCore
  rw [if_pos rfl, cur_setCore, core_setCore_same, setCore_setCore]
  exact h.canon_setCore fun hs => h.canonical hs adv.spad adv.side adv.acc rfl

/-- The word completes as it issues. -/
theorem canon_xComplete_now {s : State} {w : Word} {rword : BitVec 13} : Canon s (s.xComplete false w rword) := canon_xSignal_getD

/-- An X word: SAFE completes as it issues, whatever completes later. -/
theorem out_runX_of {i : Instr} {h : Hdr} {bad : Core → Word} {body : M Flow} {s : State} (hbody : XKept body)
    (hi : isXSafe i = true → Kept body) : OutOk s (runX i h bad body s) := by
  unfold runX
  dsimp only
  refine out_ite (out_next canon_xFault) (out_ite (out_next (.refl s)) ?_)
  split
  · exact out_next (.refl s)
  rename_i k1 hwait
  have hk1 : s.memoriesWf = true → k1.canonical = true := fun hs => canonical_passWait hwait (canonical_core hs)
  split
  · split
    · exact out_ite (out_next canon_xFault) (out_next canon_xFault)
    · exact out_next (.refl s)
    · exact out_next canon_xFault
  rename_i k2 hsig
  have h1 : Canon s (s.setCore s.cur k2) := canon_setCore fun hs => canonical_issueSig hsig (hk1 hs)
  split
  · rename_i fl s2 hb
    have hx : XKeep (s.setCore s.cur k2) s2 := keeps_ok hbody hb
    refine out_next (h1.trans (.trans ?_ canon_endLate))
    cases hlate : s.lineOps.isSome && !isXSafe i with
    | true => exact hx.canon_later hx.cur
    | false =>
      refine .trans (.trans ?_ (canon_onCore fun _ hk => canonical_advanceX hk)) canon_xComplete_now
      cases hsafe : isXSafe i with
      | true => exact canon_ok hb (hi hsafe)
      | false =>
        rw [hsafe, Bool.not_false, Bool.and_true, Option.isSome_eq_false_iff, Option.isNone_iff_eq_none] at hlate
        exact hx.canon hlate
  · exact out_next canon_xFault
  · trivial
  · exact out_next (.refl s)

theorem out_runX {i : Instr} {h : Hdr} {bad : Core → Word} {body : M Flow} {s : State} (hi : isXSafe i = false)
    (hbody : XKept body) : OutOk s (runX i h bad body s) :=
  out_runX_of hbody fun hsafe => nomatch hi.symm.trans hsafe

/-! ## The words -/

theorem xKept_wrX_next {r : Reg} {v : Word} {fl : Flow} : XKept (wrX r v >>= fun _ => pure fl) :=
  xKept_bind xKept_wrX fun _ => xKept_pure

theorem xKept_wrP_next {p : Pred} {b : Bool} {fl : Flow} : XKept (wrP p b >>= fun _ => pure fl) :=
  xKept_bind xKept_wrP fun _ => xKept_pure

theorem out_execXNop {h : Hdr} {s : State} : OutOk s (execXNop h s) := out_runX rfl xKept_pure

theorem out_execXLi {h : Hdr} {o : LIOp} {s : State} : OutOk s (execXLi h o s) := out_runX rfl xKept_wrX_next

theorem out_execXLih {h : Hdr} {o : LIHOp} {s : State} : OutOk s (execXLih h o s) :=
  out_runX rfl (xKept_bind xKept_rdX fun _ => xKept_wrX_next)

theorem out_xBin {i : Instr} {h : Hdr} {d s1 s2 : Reg} {f : Word → Word → Word} {s : State} (hi : isXSafe i = false) :
    OutOk s (xBin i h d s1 s2 f s) :=
  out_runX hi (xKept_bind xKept_rdX fun _ => xKept_bind xKept_rdX fun _ => xKept_wrX_next)

theorem out_xUn {i : Instr} {h : Hdr} {d s1 : Reg} {f : Word → Word} {s : State} (hi : isXSafe i = false) :
    OutOk s (xUn i h d s1 f s) :=
  out_runX hi (xKept_bind xKept_rdX fun _ => xKept_wrX_next)

theorem out_fpBin {i : Instr} {h : Hdr} {o : RR3K} {f : Val → Val → Mode → Nat → BitVec 32} {s : State}
    (hi : isXSafe i = false) : OutOk s (fpBin i h o f s) :=
  out_runX hi (xKept_bind xKept_rdX fun _ => xKept_bind xKept_rdX fun _ => xKept_bind xKept_xRound fun _ => xKept_wrX_next)

theorem out_execXAdd {h : Hdr} {o : RR3} {s : State} : OutOk s (execXAdd h o s) := out_xBin rfl

theorem out_execXAddi {h : Hdr} {o : RIOp} {s : State} : OutOk s (execXAddi h o s) := out_xUn rfl

theorem out_execXSub {h : Hdr} {o : RR3} {s : State} : OutOk s (execXSub h o s) := out_xBin rfl

theorem out_execXAnd {h : Hdr} {o : RR3} {s : State} : OutOk s (execXAnd h o s) := out_xBin rfl

theorem out_execXOr {h : Hdr} {o : RR3} {s : State} : OutOk s (execXOr h o s) := out_xBin rfl

theorem out_execXXor {h : Hdr} {o : RR3} {s : State} : OutOk s (execXXor h o s) := out_xBin rfl

theorem out_execMul {h : Hdr} {o : RR3} {s : State} : OutOk s (execMul h o s) := out_xBin rfl

theorem out_execMulh {h : Hdr} {o : RR3K} {s : State} : OutOk s (execMulh h o s) := out_xBin rfl

theorem out_execDiv {h : Hdr} {o : RR3S} {s : State} : OutOk s (execDiv h o s) := out_xBin rfl

theorem out_execRem {h : Hdr} {o : RR3S} {s : State} : OutOk s (execRem h o s) := out_xBin rfl

theorem out_execShl {h : Hdr} {o : RR3} {s : State} : OutOk s (execShl h o s) := out_xBin rfl

theorem out_execShr {h : Hdr} {o : RR3} {s : State} : OutOk s (execShr h o s) := out_xBin rfl

theorem out_execSra {h : Hdr} {o : RR3} {s : State} : OutOk s (execSra h o s) := out_xBin rfl

theorem out_execMin {h : Hdr} {o : RR3S} {s : State} : OutOk s (execMin h o s) := out_xBin rfl

theorem out_execMax {h : Hdr} {o : RR3S} {s : State} : OutOk s (execMax h o s) := out_xBin rfl

theorem out_execPopc {h : Hdr} {o : RR2} {s : State} : OutOk s (execPopc h o s) := out_xUn rfl

theorem out_execClz {h : Hdr} {o : RR2} {s : State} : OutOk s (execClz h o s) := out_xUn rfl

theorem out_execFadd {h : Hdr} {o : RR3K} {s : State} : OutOk s (execFadd h o s) := out_fpBin rfl

theorem out_execFsub {h : Hdr} {o : RR3K} {s : State} : OutOk s (execFsub h o s) := out_fpBin rfl

theorem out_execFmul {h : Hdr} {o : RR3K} {s : State} : OutOk s (execFmul h o s) := out_fpBin rfl

theorem out_execFmin {h : Hdr} {o : RR3} {s : State} : OutOk s (execFmin h o s) := out_xBin rfl

theorem out_execFmax {h : Hdr} {o : RR3} {s : State} : OutOk s (execFmax h o s) := out_xBin rfl

theorem out_execFdiv {h : Hdr} {o : RR3K} {s : State} : OutOk s (execFdiv h o s) := out_fpBin rfl

theorem out_execCmp {h : Hdr} {o : CmpOp} {s : State} : OutOk s (execCmp h o s) :=
  out_runX rfl (xKept_bind xKept_rdX fun _ => xKept_bind xKept_rdX fun _ => xKept_wrP_next)

theorem out_execSel {h : Hdr} {o : RR3K} {s : State} : OutOk s (execSel h o s) :=
  out_runX rfl (xKept_bind xKept_rdX fun _ => xKept_bind xKept_rdX fun _ => xKept_bind xKept_rdP fun _ => xKept_wrX_next)

theorem out_execPlog {h : Hdr} {o : PlogOp} {s : State} : OutOk s (execPlog h o s) :=
  out_runX rfl (xKept_bind xKept_rdP fun _ => xKept_bind xKept_rdP fun _ => xKept_wrP_next)

theorem out_execFfma {h : Hdr} {o : RR3K} {s : State} : OutOk s (execFfma h o s) :=
  out_runX rfl (xKept_bind xKept_rdX fun _ => xKept_bind xKept_rdX fun _ => xKept_bind xKept_rdX fun _ =>
    xKept_bind xKept_xRound fun _ => xKept_wrX_next)

/-- The words of one source that round. -/
theorem xKept_rounded {r d : Reg} {rnd : BitVec 3} {f : Word → Mode × Nat → Word} {fl : Flow} :
    XKept (rdX r >>= fun x => xRound rnd >>= fun m => wrX d (f x m) >>= fun _ => pure fl) :=
  xKept_bind xKept_rdX fun _ => xKept_bind xKept_xRound fun _ => xKept_wrX_next

theorem out_execFsqrt {h : Hdr} {o : RR2K} {s : State} : OutOk s (execFsqrt h o s) := out_runX rfl xKept_rounded

theorem out_execFcmp {h : Hdr} {o : CmpOp} {s : State} : OutOk s (execFcmp h o s) :=
  out_runX rfl (xKept_bind xKept_rdX fun _ => xKept_bind xKept_rdX fun _ => xKept_wrP_next)

theorem out_execCvtf {h : Hdr} {o : CvtfOp} {s : State} : OutOk s (execCvtf h o s) := out_runX rfl xKept_rounded

theorem out_execCvti {h : Hdr} {o : CvtiOp} {s : State} : OutOk s (execCvti h o s) := out_runX rfl xKept_rounded

theorem out_execCvtn {h : Hdr} {o : CvtnOp} {s : State} : OutOk s (execCvtn h o s) :=
  out_runX rfl (xKept_bind xKept_getCore fun _ => xKept_rounded)

theorem out_execBrp {h : Hdr} {o : BrpOp} {s : State} : OutOk s (execBrp h o s) :=
  out_runX rfl (xKept_bind xKept_getCore fun _ => xKept_bind xKept_rdP fun _ => xKept_pure)

theorem out_execXJmp {h : Hdr} {o : LIOp} {s : State} : OutOk s (execXJmp h o s) :=
  out_runX rfl (xKept_bind xKept_getCore fun _ => xKept_wrX_next)

theorem out_execXJr {h : Hdr} {o : RR2} {s : State} : OutOk s (execXJr h o s) :=
  out_runX rfl (xKept_bind xKept_getCore fun _ => xKept_bind xKept_rdX fun _ => xKept_wrX_next)

theorem out_execLoop {h : Hdr} {o : LoopOp} {s : State} : OutOk s (execLoop h o s) :=
  out_runX rfl (xKept_bind xKept_getCore fun _ => xKept_bind xKept_rdX fun _ => xKept_ite xKept_pure xKept_wrX_next)

theorem out_execXSafe {h : Hdr} {n : BitVec 16} {s : State} : OutOk s (execXSafe h n s) :=
  out_runX_of (xKept_bind xKept_getCore fun _ => xKept_bind xKept_stallIf fun _ => xKept_pure)
    fun _ => kept_bind kept_getCore fun _ => kept_bind kept_stallIf fun _ => kept_pure

theorem out_execXFtrd {h : Hdr} {d : Reg} {s : State} : OutOk s (execXFtrd h d s) :=
  out_runX rfl (xKept_bind xKept_readFt fun _ => xKept_wrX_next)

end Sys2Proof.Machine

/-! PROOFS. The canonical form, accesses from outside the cores and the firmware complex. -/

namespace Sys2Proof.Machine

-- One proof after another, as for the tests: so many short ones at a time take more threads than the check's memory holds.
set_option Elab.async false

/-! ## Accesses from outside the cores -/

theorem kept_byWords {f : Nat → Nat → M (List Byte)} (hf : ∀ a n, Kept (f a n)) : ∀ {fuel la n : Nat},
    Kept (byWords f fuel la n)
  | 0, _, _ => kept_pure
  | _ + 1, _, _ => kept_ite kept_pure (kept_bind (hf _ _) fun _ => kept_bind (kept_byWords hf) fun _ => kept_pure)

theorem kept_unitLoad {p : Nat} {by0 : WinBy} {tag : Tag} {la n : Nat} : Kept (unitLoad p by0 tag la n) :=
  kept_ite (kept_byWords fun _ _ => kept_bind kept_winRead fun _ => kept_bind kept_seeWin fun _ => kept_pure) (kept_ite
      (kept_byWords fun _ _ => kept_bind kept_regLoad fun _ => kept_pure) kept_memRead)

theorem kept_unitStore {p : Nat} {by0 : WinBy} {tag : Tag} {la : Nat} {bs : List Byte} : Kept (unitStore p by0 tag la bs) :=
  kept_ite (kept_bind kept_winWrite fun _ => kept_markWin) (kept_ite (kept_ite kept_regWrite kept_pure) kept_memWrite)

theorem kept_linkAllowed {l : Nat} {owner : Tag} {la n need : Nat} : Kept (linkAllowed l owner la n need) := by
  unfold linkAllowed
  refine kept_bind (kept_attempt kept_useRangeSet) fun _ => ?_
  split
  · exact kept_pure
  · exact kept_pure

theorem kept_linkAnswer {l : Nat} {type : BitVec 4} {f : Flit} {bs : List Byte} : Kept (linkAnswer l type f bs) :=
  kept_bind_state fun _ _ => kept_bind kept_stallIf fun _ => kept_modState fun _ => canon_sendFlit

theorem kept_linkTry {α : Type} {l : Nat} {f : Flit} {act : M α} (hact : Kept act) : Kept (linkTry l f act) := by
  unfold linkTry
  refine kept_bind (kept_attempt hact) fun _ => ?_
  split
  · exact kept_pure
  · exact kept_bind kept_appendFault fun _ => kept_pure

theorem out_execLinkRead {link : BitVec 4} {flit : Flit} {s : State} : OutOk s (execLinkRead link flit s) :=
  out_ite (out_next (.refl _)) (out_receive (kept_bind kept_linkAllowed fun _ => kept_ite (kept_bind (kept_linkTry
      kept_unitLoad) fun _ => kept_linkAnswer) (kept_bind kept_linkReject fun _ => kept_linkAnswer)))

theorem out_execLinkWrite {link : BitVec 4} {flit : Flit} {s : State} : OutOk s (execLinkWrite link flit s) :=
  out_ite (out_next (.refl _)) (out_receive (kept_bind kept_linkAllowed fun _ => kept_ite (kept_bind (kept_linkTry (kept_forM
      fun _ => kept_unitStore)) fun _ => kept_pure) kept_linkReject))

theorem kept_linkAtomicOp {p : Nat} {owner : Tag} {op n la : Nat} {x d : Word} : Kept (linkAtomicOp p owner op n la x d) :=
  kept_homeRmwBy fun _ => kept_bind (kept_ite kept_homeRead kept_pure) fun _ => kept_pure

theorem out_execLinkAtomic {link : BitVec 4} {flit : Flit} {s : State} : OutOk s (execLinkAtomic link flit s) :=
  out_ite (out_next (.refl _)) (out_receive (kept_bind kept_linkAllowed fun _ => kept_ite (kept_bind (kept_linkTry
      kept_linkAtomicOp) fun _ => kept_linkAnswer) (kept_bind kept_linkReject fun _ => kept_linkAnswer)))

theorem kept_answerPort {r : Reply} : Kept (answerPort r) := kept_modState fun _ => canon_onHost

theorem kept_countReject {port : BitVec 3} : Kept (countReject port) := kept_modState fun _ => canon_onHost

theorem kept_refuseUet {port : BitVec 3} {code la : Nat} : Kept (refuseUet port code la) :=
  kept_bind kept_countReject fun _ => kept_bind kept_appendFault fun _ => kept_answerPort

theorem kept_failUet {port : BitVec 3} {owner : Tag} {f : Flt} : Kept (failUet port owner f) :=
  kept_bind kept_countReject fun _ => kept_bind kept_appendFault fun _ => kept_answerPort

theorem kept_rmaPut {port : BitVec 3} {conn : Conn} {tag : Tag} {last : Option Nat} {la i : Nat} {v : Word} : Kept (rmaPut
    port conn tag last la i v) := by
  unfold rmaPut
  split
  · exact kept_bind_state fun _ _ => kept_tailWrite
  · exact kept_regWrite

theorem kept_rmaStore_go {port : BitVec 3} {tag : Tag} : ∀ {fuel a : Nat} {bs : List Byte} {done : Nat} {patches : List Nat},
    Kept (rmaStore.go port tag fuel a bs done patches)
  | 0, _, _, _, _ => kept_pure
  | _ + 1, _, _, _, _ => by
    unfold rmaStore.go
    refine kept_ite ?_ kept_pure
    refine kept_bind (kept_attempt kept_memWrite) fun r => ?_
    cases r with
    | ok _ => exact kept_rmaStore_go
    | error f => exact kept_throw

theorem kept_rmaStore {port : BitVec 3} {conn : Conn} {tag : Tag} {la : Nat} {data : List Byte} : Kept (rmaStore port conn tag
    la data) := by
  unfold rmaStore
  refine kept_ite ?_ kept_rmaStore_go
  exact kept_forM fun _ => kept_rmaPut

theorem kept_rmaPacket {port : BitVec 3} {conn : Conn} {r : HostRegion} {off : Nat} {data : List Byte} : Kept (rmaPacket port
    conn r off data) := by
  unfold rmaPacket
  refine kept_ite kept_refuseUet (kept_ite kept_refuseUet (kept_ite kept_refuseUet (kept_bind_state fun _ _ => kept_ite
      kept_refuseUet (kept_bind kept_stallIf fun _ => kept_bind (kept_attempt kept_rmaStore) fun _ => ?_))))
  split
  · exact kept_failUet
  · exact kept_ite kept_answerPort kept_pure

theorem kept_rmaWrite {port : BitVec 3} {conn : Conn} {region off : Nat} {data : List Byte} : Kept (rmaWrite port conn region
    off data) := by
  unfold rmaWrite
  refine kept_bind_state fun _ _ => ?_
  split
  · exact kept_refuseUet
  · exact kept_rmaPacket

theorem kept_rmaSend {port : BitVec 3} {conn : Conn} {receive : Nat} {data : List Byte} : Kept (rmaSend port conn receive
    data) := by
  unfold rmaSend
  refine kept_bind_state fun _ _ => ?_
  split
  · exact kept_refuseUet
  · exact kept_bind kept_rmaPacket fun _ => kept_ite (kept_modState fun _ => canon_onHost) kept_pure

theorem kept_run {x : RodPacket} : Kept x.run := kept_ite kept_rmaSend kept_rmaWrite

theorem out_takePacket {x : RodPacket} {s : State} : OutOk s (takePacket x s) := by
  unfold takePacket
  refine out_ite (out_next canon_onHost) ?_
  split
  · rename_i e
    exact out_next ((canon_ok e kept_run).trans canon_undrainAt)
  · exact trivial
  · exact out_next (canon_ite (canon_addDrainAt.trans canon_onHost) canon_addDrainAt)
  · exact out_next (canon_ite canon_onHost (.refl _))

theorem canon_retryRod {s : State} : Canon s (retryRod s) := by
  unfold retryRod
  refine canon_onHost.trans (canon_foldl fun _ _ => canon_ite canon_onHost ?_)
  split
  · rename_i e
    exact (canon_ok e kept_run).trans canon_undrainAt
  · exact canon_onHost

theorem out_execUetRmaWrite {port : BitVec 3} {conn : Conn} {region off : Nat} {data : List Byte} {s : State} : OutOk s
    (execUetRmaWrite port conn region off data s) :=
  out_ite (out_next (.refl _)) out_takePacket

theorem out_execUetRmaRead {port : BitVec 3} {conn : Conn} {region off len : Nat} {s : State} : OutOk s (execUetRmaRead port
    conn region off len s) := by
  unfold execUetRmaRead
  refine out_ite (out_next (.refl _)) (out_runUnit ?_)
  split
  · exact kept_refuseUet
  refine kept_ite kept_refuseUet (kept_ite kept_refuseUet (kept_bind (kept_attempt kept_unitLoad) fun _ => ?_))
  split
  · exact kept_failUet
  · exact kept_answerPort

theorem out_execUetSend {port : BitVec 3} {conn : Conn} {receive : Nat} {data : List Byte} {s : State} : OutOk s (execUetSend
    port conn receive data s) :=
  out_ite (out_next (.refl _)) out_takePacket

/-! ## A hart of the firmware complex -/

theorem wf_ownStore {b : Boot} {off : Nat} {bs : List Byte} (h : Memory.wf b.sram = true) :
    Memory.wf (ownStore b off bs).sram = true := by
  unfold ownStore
  split
  · exact wf_setBytes _ _ _ h
  · exact h

theorem kept_ownStore {off : Nat} {bs : List Byte} : Kept (modState fun s => { s with boot := ownStore s.boot off bs }) :=
  kept_modState fun _ => canon_boot wf_ownStore

theorem kept_hartRead {addr n : Nat} : Kept (hartRead addr n) := by
  unfold hartRead
  refine kept_ite kept_pure (kept_ite (kept_bind_state fun _ _ => kept_pure) (kept_bind (kept_attempt kept_unitLoad) fun _ =>
      ?_))
  split
  · exact kept_pure
  · exact kept_pure

theorem kept_hartWrite {addr n : Nat} {v : Word} : Kept (hartWrite addr n v) := by
  refine kept_ite kept_pure (kept_ite (kept_bind kept_ownStore fun _ => kept_pure)
    (kept_bind (kept_attempt kept_unitStore) fun r => ?_))
  cases r <;> exact kept_pure

theorem kept_hartRmw {addr n : Nat} {f : Nat → Nat} : Kept (hartRmw addr n f) := by
  refine kept_bind_state fun s _ => kept_ite (kept_ite kept_pure (kept_bind kept_ownStore fun _ => kept_pure))
    (kept_ite kept_pure (kept_bind (kept_attempt kept_homeRmw) fun r => ?_))
  cases r <;> exact kept_pure

theorem canon_putHart {s : State} {i : Nat} {h : Hart} : Canon s (s.putHart i h) := canon_boot fun hk => hk

/-! ### Parts of a hart's instruction -/

/-- A part of an instruction keeps the canonical form, whether it ends in an exception or not. -/
abbrev HKept {α : Type} (act : HM α) : Prop := Kept act.run

section
variable {α β : Type}

theorem hKept_pure {a : α} : HKept (pure a : HM α) := kept_pure

theorem hKept_trap {c : Nat} {v : Word} : HKept (trap c v : HM α) := kept_pure

theorem hKept_illegalRv {raw : Word} : HKept (illegalRv raw : HM α) := kept_pure

theorem hKept_bind {x : HM α} {f : α → HM β} (hx : HKept x) (hf : ∀ a, HKept (f a)) : HKept (x >>= f) :=
  kept_bind hx fun r => match r with
    | .ok a => hf a
    | .error _ => kept_pure

/-- An action of the machine as a part of an instruction. -/
theorem hKept_lift {act : M α} (h : Kept act) : HKept (liftM act : HM α) := by
  change Kept (Except.ok <$> act : M (Except Trap α))
  rw [map_eq_pure_bind]
  exact kept_bind h fun _ => kept_pure

theorem hKept_ite {c : Prop} [Decidable c] {x y : HM α} (hx : HKept x) (hy : HKept y) : HKept (if c then x else y) := by
  split
  · exact hx
  · exact hy

end

theorem hKept_hartWalk {h : Hart} {acc : RvAcc} {mode : HartMode} {va : Word} : ∀ {level table : Nat},
    HKept (hartWalk h acc mode va level table)
  | 0, _ => hKept_trap
  | _ + 1, _ => by
    unfold hartWalk
    refine hKept_ite hKept_trap (hKept_bind (hKept_lift kept_hartRead) fun b => ?_)
    cases b with
    | none => exact hKept_trap
    | some b => exact hKept_ite hKept_trap (hKept_ite (hKept_ite hKept_trap (hKept_hartWalk)) (hKept_ite hKept_trap hKept_pure))

theorem hKept_hartAddr {h : Hart} {acc : RvAcc} {va : Word} {n : Nat} : HKept (hartAddr h acc va n) :=
  hKept_bind (hKept_ite hKept_pure (hKept_ite hKept_trap (hKept_hartWalk))) fun _ => hKept_ite hKept_trap hKept_pure

theorem hKept_hartLd {h : Hart} {va : Word} {n : Nat} : HKept (hartLd h va n) := by
  refine hKept_ite hKept_trap (hKept_bind (hKept_hartAddr) fun _ => hKept_bind (hKept_lift kept_hartRead) fun b => ?_)
  cases b with
  | none => exact hKept_trap
  | some b => exact hKept_pure

theorem hKept_hartSt {h : Hart} {va : Word} {n : Nat} {v : Word} : HKept (hartSt h va n v) :=
  hKept_ite hKept_trap (hKept_bind (hKept_hartAddr) fun _ => hKept_bind (hKept_lift kept_hartWrite) fun _ =>
    hKept_ite hKept_pure hKept_trap)

theorem hKept_hartHalf {h : Hart} {va : Word} : HKept (hartHalf h va) := by
  refine hKept_bind (hKept_hartAddr) fun _ => hKept_bind (hKept_lift kept_hartRead) fun b => ?_
  cases b with
  | none => exact hKept_trap
  | some b => exact hKept_pure

theorem hKept_hartFetch {h : Hart} : HKept (hartFetch h) :=
  hKept_bind (hKept_hartHalf) fun _ => hKept_ite hKept_pure (hKept_bind (hKept_hartHalf) fun _ => hKept_pure)

theorem hKept_hartCsr {i : Nat} {h : Hart} {raw : Word} {f : BitVec 3} {rd rs : BitVec 5} {n : BitVec 12} :
    HKept (hartCsr i h raw f rd rs n) := by
  refine hKept_bind (hKept_lift kept_getState) fun _ => hKept_bind
    (hKept_ite (hKept_bind (hKept_lift kept_freeWord) fun _ => hKept_pure) hKept_pure) fun old => ?_
  cases old with
  | none => exact hKept_illegalRv
  | some old => exact hKept_ite hKept_illegalRv hKept_pure

theorem hKept_hartLr {h next : Hart} {dbl : Bool} {rd rs : BitVec 5} : HKept (hartLr h next dbl rd rs) := by
  refine hKept_ite hKept_trap (hKept_bind (hKept_hartAddr) fun _ => hKept_ite hKept_trap
    (hKept_bind (hKept_lift kept_hartRead) fun b => ?_))
  cases b with
  | none => exact hKept_trap
  | some b => exact hKept_bind (hKept_lift kept_getState) fun _ => hKept_pure

theorem hKept_hartSc {h next : Hart} {dbl : Bool} {rd rs1 rs2 : BitVec 5} : HKept (hartSc h next dbl rd rs1 rs2) :=
  hKept_ite hKept_trap (hKept_bind (hKept_hartAddr) fun _ => hKept_ite hKept_trap
    (hKept_bind (hKept_lift kept_getState) fun _ => hKept_ite
      (hKept_bind (hKept_lift kept_hartWrite) fun _ => hKept_ite hKept_pure hKept_trap) hKept_pure))

theorem hKept_hartAmo {h next : Hart} {op : RvAmo} {dbl : Bool} {rd rs1 rs2 : BitVec 5} :
    HKept (hartAmo h next op dbl rd rs1 rs2) := by
  refine hKept_ite hKept_trap (hKept_bind (hKept_hartAddr) fun _ => hKept_bind (hKept_lift kept_hartRmw) fun b => ?_)
  cases b with
  | none => exact hKept_trap
  | some b => exact hKept_pure

theorem hKept_hartOp {i : Nat} {h : Hart} {raw : Word} {len : Nat} {op : RvOp} : HKept (hartOp i h raw len op) := by
  cases op with
  | load => exact hKept_bind hKept_hartLd fun _ => hKept_pure
  | fload => exact hKept_ite hKept_illegalRv (hKept_bind hKept_hartLd fun _ => hKept_pure)
  | store => exact hKept_bind hKept_hartSt fun _ => hKept_pure
  | fstore => exact hKept_ite hKept_illegalRv (hKept_bind hKept_hartSt fun _ => hKept_pure)
  | csr => exact hKept_hartCsr
  | lr => exact hKept_hartLr
  | sc => exact hKept_hartSc
  | amo => exact hKept_hartAmo
  | ecall | ebreak => exact hKept_trap
  | sret | sfence => exact hKept_ite hKept_illegalRv hKept_pure
  | mret => exact hKept_ite hKept_pure hKept_illegalRv
  | fma | farith | fsqrt | fsgnj | fminmax | fcmp | fclass | fcvtF | fcvtToInt | fcvtOfInt | fmvToInt | fmvOfInt =>
    unfold hartOp
    refine hKept_ite hKept_illegalRv ?_
    generalize h.fpOp _ _ = next
    cases next with
    | none => exact hKept_illegalRv
    | some _ => exact hKept_pure
  | lui | auipc | jal | jalr | branch | aluImm | alu | fence | fenceI | wfi => exact hKept_pure

theorem hKept_hartInstr {i : Nat} {h : Hart} : HKept (hartInstr i h) := by
  refine hKept_bind hKept_hartFetch fun r => ?_
  obtain ⟨raw, len, op⟩ := r
  cases op with
  | none => exact hKept_illegalRv
  | some op => exact hKept_bind hKept_hartOp fun _ => hKept_pure

theorem kept_hartStep {i : Nat} : Kept (hartStep i) := by
  unfold hartStep
  refine kept_bind_state fun s _ => ?_
  dsimp only
  split
  · exact kept_modState fun _ => canon_same
  · refine kept_bind (kept_ite kept_pure (kept_bind kept_freeWord fun _ => kept_pure)) fun h =>
      kept_bind hKept_hartInstr fun r => ?_
    cases r <;> exact kept_modState fun _ => canon_putHart

/-! ## What the harts do to the module -/

theorem canonical_preset {k : Core} {cycle n : Nat} {v : Word} (hk : k.canonical = true) : (k.preset cycle n v).canonical =
    true :=
  core_ite (canonical_setCsr hk) hk

theorem kept_presetFeed {c : CoreId} {addr : Nat} : Kept (presetFeed c addr) :=
  kept_bind (kept_mapM fun _ => kept_bind kept_hartRead fun _ => kept_pure) fun _ => kept_bind_state fun _ _ => kept_ite
      (kept_modState fun _ => canon_installFeed) kept_pure

theorem kept_hartAccess {i addr : Nat} {acc : HartAccess} : Kept (hartAccess i addr acc) := by
  cases acc with
  | run => exact kept_hartStep
  | load => exact kept_bind kept_hartRead fun _ => kept_pure
  | store => exact kept_bind kept_hartWrite fun _ => kept_pure
  | setContext | measure | quote => exact kept_modState fun _ => canon_same
  | setRegion | setReceive => exact kept_modState fun _ => canon_onHost
  | setCsr => exact kept_modState fun _ => canon_onCore fun _ hk => canonical_preset hk
  | setFeed => exact kept_presetFeed

theorem out_execFirmwareComplexAccess {hart : BitVec 2} {addr : BitVec 56} {acc : HartAccess} {s : State} : OutOk s
    (execFirmwareComplexAccess hart addr acc s) :=
  out_ite (out_next (.refl _)) (out_runUnit kept_hartAccess)

/-! ## P1 -/

theorem out_execP1Entry {cluster : BitVec 3} {s : State} : OutOk s (execP1Entry cluster s) :=
  out_ite (out_next canon_setCluster) (out_next (.refl _))

theorem out_execP1Exit {cluster : BitVec 3} {s : State} : OutOk s (execP1Exit cluster s) :=
  out_ite (out_next (.refl _)) (out_next canon_wakeCluster)

end Sys2Proof.Machine

/-! PROOFS. The canonical form, one step: the dispatch of an instruction, the passing of time, the order of the turns. -/

namespace Sys2Proof.Machine

-- One proof after another, as for the tests: so many short ones at a time take more threads than the check's memory holds.
set_option Elab.async false

/-! ## The meaning of every instruction -/

/-- Every instruction and every event keeps the canonical form. -/
theorem out_exec {i : Instr} {s : State} : OutOk s (exec i s) := by
  cases i with
  | aNop => exact out_execANop
  | aLi => exact out_execALi
  | aLih => exact out_execALih
  | aAdd => exact out_execAAdd
  | aAddi => exact out_execAAddi
  | aSub => exact out_execASub
  | aAnd => exact out_execAAnd
  | aOr => exact out_execAOr
  | aXor => exact out_execAXor
  | shli => exact out_execShli
  | shri => exact out_execShri
  | lea => exact out_execLea
  | lds => exact out_execLds
  | sts => exact out_execSts
  | ldm => exact out_execLdm
  | stm => exact out_execStm
  | ldc => exact out_execLdc
  | csync => exact out_execCsync
  | pfm => exact out_execPfm
  | beq => exact out_execBeq
  | bne => exact out_execBne
  | blt => exact out_execBlt
  | bge => exact out_execBge
  | aJmp => exact out_execAJmp
  | aJr => exact out_execAJr
  | aadd => exact out_execAadd
  | aaddb => exact out_execAaddb
  | amax => exact out_execAmax
  | amin => exact out_execAmin
  | aor => exact out_execAor
  | axchg => exact out_execAxchg
  | acas => exact out_execAcas
  | raddf => exact out_execRaddf
  | gset => exact out_execGset
  | gclr => exact out_execGclr
  | gld => exact out_execGld
  | finc => exact out_execFinc
  | fset => exact out_execFset
  | frd => exact out_execFrd
  | fwait => exact out_execFwait
  | bbind => exact out_execBbind
  | bfillw => exact out_execBfillw
  | bfreew => exact out_execBfreew
  | badv => exact out_execBadv
  | brel => exact out_execBrel
  | own => exact out_execOwn
  | ringset => exact out_execRingset
  | ringpub => exact out_execRingpub
  | ringrd => exact out_execRingrd
  | mark => exact out_execMark
  | join => exact out_execJoin
  | fence => exact out_execFence
  | monw => exact out_execMonw
  | enq => exact out_execEnq
  | poppass => exact out_execPoppass
  | rbtld => exact out_execRbtld
  | passdone => exact out_execPassdone
  | yield => exact out_execYield
  | aSafe => exact out_execASafe
  | stadv => exact out_execStadv
  | tnode => exact out_execTnode
  | tenrol => exact out_execTenrol
  | tunrol => exact out_execTunrol
  | trepar => exact out_execTrepar
  | tsettle => exact out_execTsettle
  | tread => exact out_execTread
  | tfree => exact out_execTfree
  | aFtrd => exact out_execAFtrd
  | tickrd => exact out_execTickrd
  | pmrd => exact out_execPmrd
  | sysc => exact out_execSysc
  | rfe => exact out_execRfe
  | csrr => exact out_execCsrr
  | csrw => exact out_execCsrw
  | lptw => exact out_execLptw
  | ldrain => exact out_execLdrain
  | lconf => exact out_execLconf
  | keyset => exact out_execKeyset
  | keykill => exact out_execKeykill
  | fmap => exact out_execFmap
  | ctxsv => exact out_execCtxsv
  | ctxld => exact out_execCtxld
  | xNop => exact out_execXNop
  | xLi => exact out_execXLi
  | xLih => exact out_execXLih
  | xAdd => exact out_execXAdd
  | xAddi => exact out_execXAddi
  | xSub => exact out_execXSub
  | xAnd => exact out_execXAnd
  | xOr => exact out_execXOr
  | xXor => exact out_execXXor
  | mul => exact out_execMul
  | mulh => exact out_execMulh
  | div => exact out_execDiv
  | rem => exact out_execRem
  | shl => exact out_execShl
  | shr => exact out_execShr
  | sra => exact out_execSra
  | min => exact out_execMin
  | max => exact out_execMax
  | popc => exact out_execPopc
  | clz => exact out_execClz
  | cmp => exact out_execCmp
  | sel => exact out_execSel
  | plog => exact out_execPlog
  | fadd => exact out_execFadd
  | fsub => exact out_execFsub
  | fmul => exact out_execFmul
  | ffma => exact out_execFfma
  | fmin => exact out_execFmin
  | fmax => exact out_execFmax
  | fdiv => exact out_execFdiv
  | fsqrt => exact out_execFsqrt
  | fcmp => exact out_execFcmp
  | cvtf => exact out_execCvtf
  | cvti => exact out_execCvti
  | cvtn => exact out_execCvtn
  | brp => exact out_execBrp
  | xJmp => exact out_execXJmp
  | xJr => exact out_execXJr
  | loop => exact out_execLoop
  | xSafe => exact out_execXSafe
  | xFtrd => exact out_execXFtrd
  | mNop => exact out_execMNop
  | mDset => exact out_execMDset
  | wload => exact out_execWload
  | mma => exact out_execMma
  | gmma => exact out_execGmma
  | smma => exact out_execSmma
  | mqbind => exact out_execMqbind
  | aclr => exact out_execAclr
  | ald => exact out_execAld
  | ast => exact out_execAst
  | ascl => exact out_execAscl
  | vNop => exact out_execVNop
  | vDset => exact out_execVDset
  | vadd => exact out_execVadd
  | vsub => exact out_execVsub
  | vmul => exact out_execVmul
  | vmax => exact out_execVmax
  | vmin => exact out_execVmin
  | vfma => exact out_execVfma
  | vexp => exact out_execVexp
  | vlog => exact out_execVlog
  | vrcp => exact out_execVrcp
  | vrsq => exact out_execVrsq
  | vtanh => exact out_execVtanh
  | vgelu => exact out_execVgelu
  | vsilu => exact out_execVsilu
  | vabs => exact out_execVabs
  | vcvt => exact out_execVcvt
  | vqmx => exact out_execVqmx
  | vdqmx => exact out_execVdqmx
  | vrsum => exact out_execVrsum
  | vrmax => exact out_execVrmax
  | vcsum => exact out_execVcsum
  | vbcast => exact out_execVbcast
  | vtrn => exact out_execVtrn
  | vepi => exact out_execVepi
  | vtagsel => exact out_execVtagsel
  | cNop => exact out_execCNop
  | cDset => exact out_execCDset
  | ccopy => exact out_execCcopy
  | cgath => exact out_execCgath
  | cscat => exact out_execCscat
  | cfill => exact out_execCfill
  | cmcast => exact out_execCmcast
  | cwbind => exact out_execCwbind
  | cwadv => exact out_execCwadv
  | csched => exact out_execCsched
  | cpfa => exact out_execCpfa
  | cmeta => exact out_execCmeta
  | clsend => exact out_execClsend
  | clrecv => exact out_execClrecv
  | clred => exact out_execClred
  | wordCompletion => exact out_execWordCompletion
  | engineFetch => exact out_execEngineFetch
  | schedEntryRelease => exact out_execSchedEntryRelease
  | clsendTransmit => exact out_execClsendTransmit
  | remoteAddition => exact out_execRemoteAddition
  | lateWordStall => exact out_execLateWordStall
  | budgetTrap => exact out_execBudgetTrap
  | preemptEntry => exact out_execPreemptEntry
  | programLoad => exact out_execProgramLoad
  | streamsStart => exact out_execStreamsStart
  | illegalWord => exact out_execIllegalWord
  | sqtailWrite => exact out_execSqtailWrite
  | sqpull => exact out_execSqpull
  | sqEnable => exact out_execSqEnable
  | taskDispatch => exact out_execTaskDispatch
  | rangeDispatch => exact out_execRangeDispatch
  | barrierFire => exact out_execBarrierFire
  | gathererCycle => exact out_execGathererCycle
  | binClosePatience => exact out_execBinClosePatience
  | binCloseDeadline => exact out_execBinCloseDeadline
  | feedWrite => exact out_execFeedWrite
  | tailRegisterWrite => exact out_execTailRegisterWrite
  | shapeClassWrite => exact out_execShapeClassWrite
  | gdepthWrite => exact out_execGdepthWrite
  | wlock => exact out_execWlock
  | wunlock => exact out_execWunlock
  | wscmdReservedOp => exact out_execWscmdReservedOp
  | widBinding => exact out_execWidBinding
  | swatchPeriodic => exact out_execSwatchPeriodic
  | swatchTriggered => exact out_execSwatchTriggered
  | patchChange => exact out_execPatchChange
  | deltaApply => exact out_execDeltaApply
  | ptcapWrite => exact out_execPtcapWrite
  | rerrClear => exact out_execRerrClear
  | l2Fill => exact out_execL2Fill
  | leaseReread => exact out_execLeaseReread
  | tcEntryExpiry => exact out_execTcEntryExpiry
  | l2Eviction => exact out_execL2Eviction
  | victimEviction => exact out_execVictimEviction
  | writebackArrival => exact out_execWritebackArrival
  | updateApply => exact out_execUpdateApply
  | monwWake => exact out_execMonwWake
  | monwTimeout => exact out_execMonwTimeout
  | refresh => exact out_execRefresh
  | refreshEnd => exact out_execRefreshEnd
  | scrubRead => exact out_execScrubRead
  | scrubWriteback => exact out_execScrubWriteback
  | skewCompare => exact out_execSkewCompare
  | ccinv => exact out_execCcinv
  | uetRmaWrite => exact out_execUetRmaWrite
  | uetRmaRead => exact out_execUetRmaRead
  | uetSend => exact out_execUetSend
  | logcommitWrite => exact out_execLogcommitWrite
  | fwbeat => exact out_execFwbeat
  | watchdogExpiry => exact out_execWatchdogExpiry
  | fallbackPull => exact out_execFallbackPull
  | fallbackStop => exact out_execFallbackStop
  | ptpMessage => exact out_execPtpMessage
  | ftCorrection => exact out_execFtCorrection
  | timeSyncSend => exact out_execTimeSyncSend
  | timeSyncReceive => exact out_execTimeSyncReceive
  | linkRead => exact out_execLinkRead
  | linkWrite => exact out_execLinkWrite
  | linkAtomic => exact out_execLinkAtomic
  | linkSignal => exact out_execLinkSignal
  | linkSchedBlock => exact out_execLinkSchedBlock
  | linkManagement => exact out_execLinkManagement
  | linkReply => exact out_execLinkReply
  | linkFlitCorrupt => exact out_execLinkFlitCorrupt
  | linkFlitReserved => exact out_execLinkFlitReserved
  | linkNak => exact out_execLinkNak
  | linkDown => exact out_execLinkDown
  | linkRetrain => exact out_execLinkRetrain
  | linkDiscard => exact out_execLinkDiscard
  | p1Entry => exact out_execP1Entry
  | p1Exit => exact out_execP1Exit
  | p2Enter => exact out_execP2Enter
  | p2Exit => exact out_execP2Exit
  | throttleUpdate => exact out_execThrottleUpdate
  | thermalLimit => exact out_execThermalLimit
  | plimitWrite => exact out_execPlimitWrite
  | pmSelectWrite => exact out_execPmSelectWrite
  | moduleReset => exact out_execModuleReset
  | fresRetry => exact out_execFresRetry
  | fresSkip => exact out_execFresSkip
  | pkresRelease => exact out_execPkresRelease
  | pkresAbandon => exact out_execPkresAbandon
  | preemptRequest => exact out_execPreemptRequest
  | budgadd => exact out_execBudgadd
  | fpark => exact out_execFpark
  | awayEntryWrite => exact out_execAwayEntryWrite
  | registerWrite => exact out_execRegisterWrite
  | firmwareComplexAccess => exact out_execFirmwareComplexAccess
  | idleFlit => exact out_execIdleFlit
  | thermalRelease => exact out_execThermalRelease
  | stackTemperatureCrossing => exact out_execStackTemperatureCrossing

/-! ## Time and the order of the units -/

/-- Every core becomes one that is canonical where it was. -/
theorem canon_mapCores {s : State} {f : Nat × Core → Core} (h : ∀ e, e.2.canonical = true → (f e).canonical = true) :
    Canon s { s with cores := s.cores.map fun e => (e.1, f e) } := canon_cores fun hs e he => by
  obtain ⟨e0, he0, rfl⟩ := List.mem_map.1 he
  exact h e0 (hs e0 he0)

theorem canon_countTime {s : State} {n : Nat} : Canon s (s.countTime n) :=
  .trans (canon_mapCores fun _ hk => core_ite (canonical_pm hk) hk) (canon_foldl fun _ _ => canon_pmPanel.trans canon_pmPanel)

theorem canon_quietTime {s : State} {n : Nat} : Canon s (s.quietTime n) :=
  .trans (canon_countTime.trans canon_upd) canon_advance

theorem kept_oneCycle : Kept oneCycle :=
  kept_bind (kept_forM fun _ => kept_bind_state fun _ _ => kept_ite kept_gathererSteps kept_pure) fun _ => kept_modState fun _
      => .trans (canon_countTime.trans canon_upd) canon_advance

theorem kept_cyclesPass : ∀ {n : Nat}, Kept (cyclesPass n)
  | 0 => kept_pure
  | _ + 1 => kept_bind_state fun _ _ => kept_ite (kept_modState fun _ => canon_quietTime)
      (kept_bind kept_oneCycle fun _ => kept_cyclesPass)

theorem canon_raiseLate {s : State} {n : Nat} : Canon s (s.raiseLate n) := by
  unfold State.raiseLate
  refine canon_ite (.refl s) (canon_cores fun hs e he => ?_)
  obtain ⟨e0, he0, rfl⟩ := List.mem_map.1 he
  dsimp only
  split
  · exact hs e0 he0
  · exact core_same (hs e0 he0)

theorem kept_retryWaiting : Kept retryWaiting :=
  kept_bind_state fun _ _ => kept_bind (kept_modState fun _ => canon_same) fun _ => kept_forM fun _ => kept_appendAt

theorem canon_flushLinks {s before : State} : Canon s (s.flushLinks before) := canon_foldl fun _ _ => canon_flush

theorem kept_passTime {n : Nat} : Kept (passTime n) :=
  kept_bind kept_retryWaiting fun _ => kept_bind (kept_modState fun _ => canon_retryRod) fun _ => kept_bind_state fun _ _ =>
      kept_bind kept_cyclesPass fun _ => kept_modState fun _ => canon_flushLinks.trans canon_raiseLate

theorem canon_reach {s : State} {p : Option Place} : Canon s (s.reach p) := by
  unfold State.reach
  split
  · exact canon_onCore fun _ hk => core_same hk
  · exact .refl _

/-- What a stream's turn comes to keeps the canonical form. -/
def Decision.Ok (s : State) : Decision → Prop
  | .run _ => True
  | .out o => OutOk s o

theorem ok_ite {c : Prop} [Decidable c] {s : State} {x y : Decision} (hx : x.Ok s) (hy : y.Ok s) :
    (if c then x else y).Ok s := by
  split
  · exact hx
  · exact hy

theorem turnOf_ok {c : CoreId} {t : Strm} {s : State} : (turnOf c t s).Ok s := by
  have stay : (Decision.out (.next s)).Ok s := out_next (.refl s)
  unfold turnOf
  refine ok_ite stay (ok_ite trivial (ok_ite trivial (ok_ite trivial (ok_ite stay ?_))))
  split
  · exact stay
  split
  · exact out_next canon_decodeStop
  split
  · trivial
  · exact ok_ite trivial (out_next canon_reservedFault)

theorem out_streamTurn {c : CoreId} {t : Strm} {s : State} : OutOk s (streamTurn c t s) := by
  refine out_trans (t := { s with cur := c }) canon_same ?_
  have h : (turnOf c t { s with cur := c }).Ok { s with cur := c } := turnOf_ok
  unfold streamTurn
  generalize turnOf c t { s with cur := c } = decision at h ⊢
  cases decision with
  | run i => exact out_exec
  | out o => exact h

theorem out_noteStall {s b : State} {c : CoreId} {t : Strm} {o : Out} (h : OutOk s o) : OutOk s (b.noteStall c t o) := by
  cases o with
  | next u => exact out_next (Canon.trans h (canon_onCore fun _ hk => core_same hk))
  | _ => trivial

theorem out_takeStream {c : CoreId} {t : Strm} {s : State} : OutOk s (takeStream c t s) :=
  out_trans canon_reach (out_noteStall out_streamTurn)

theorem out_act {a : Actor} {s : State} : OutOk s (act a s) := by
  unfold act
  split
  · exact out_ite (out_next (.refl _)) (out_trans canon_reach out_exec)
  · exact out_ite (out_next (.refl _)) (out_trans canon_reach out_exec)
  · exact out_ite (out_next (.refl _)) out_takeStream

theorem out_afterTime {n : Nat} {f : State → Out} {s : State} (h : ∀ t, OutOk t (f t)) : OutOk s (afterTime n f s) := by
  unfold afterTime
  split
  · rename_i e
    exact out_trans (canon_ok e kept_passTime) (h _)
  · trivial
  · exact out_next (.refl s)

theorem out_act_lines {t : Turn} {s : State} : OutOk s (act t.actor { s with lineOps := t.lines }) :=
  out_trans canon_same out_act

theorem out_takeTurn {t : Turn} {s : State} : OutOk s (takeTurn t s) := by
  unfold takeTurn
  dsimp only
  split
  · exact out_afterTime fun _ => out_act_lines
  split
  · exact out_trans canon_same out_takeStream
  · exact out_ite (out_afterTime fun _ => out_next canon_same) (out_afterTime fun _ => out_act_lines)

/-! ## One step -/

theorem canon_nextTurn {s : State} : Canon s s.nextTurn.2 := by
  unfold State.nextTurn
  split <;> exact canon_same

/-- One step keeps the canonical form. -/
theorem out_step {s : State} : OutOk s (step s) := out_trans canon_nextTurn out_takeTurn

/-- Settles O51: the next turn, the time before it and the agent's act keep the canonical form. -/
theorem stepKeepsCanonical : Obligations.StepKeepsCanonical := by
  unfold Obligations.StepKeepsCanonical
  intro s t hs e
  rw [State.canonical, Bool.and_eq_true, Bool.and_eq_true, Option.isNone_iff_eq_none, Option.isNone_iff_eq_none] at hs ⊢
  obtain ⟨⟨wf, log⟩, lines⟩ := hs
  have ⟨wf', log', lines'⟩ := canon_out e out_step wf
  exact ⟨⟨wf', log' log⟩, lines' lines⟩

end Sys2Proof.Machine

/-! Actions of an engine word on chip as one function of the state: what a panel comes to see while the word runs, and the clocks of the
writes into cores, are left open, and everything else is determined (spec 08 R168, R170). -/

namespace Sys2Proof.Machine

/-! ## States alike but for what a panel has come to see -/

theorem sawMore_refl (u : State) : u.sawMore u := ⟨rfl, fun _ => rfl⟩

theorem sawMore_trans {t u v : State} (h : t.sawMore u) (g : u.sawMore v) : t.sawMore v := by
  obtain ⟨et, ct⟩ := h
  obtain ⟨eu, cu⟩ := g
  refine ⟨et.trans (congrArg (fun x : State => { x with
    cores := t.cores, mem := { x.mem with clocks := t.mem.clocks, replicas := t.mem.replicas, updates := t.mem.updates } }) eu), fun c => ?_⟩
  exact (ct c).trans (congrArg (fun k : Core => { k with winClk := (t.core c).winClk }) (cu c))

theorem cur_sawMore {t u : State} (h : t.sawMore u) : t.cur = u.cur := by
  rw [h.1]

theorem opLog_sawMore {t u : State} (h : t.sawMore u) : t.mem.opLog = u.mem.opLog := by
  rw [h.1]

theorem rowEnc_sawMore {t u : State} (h : t.sawMore u) (c : CoreId) (d : Dsc) (slot j : Nat) : t.rowEnc c d slot j = u.rowEnc c d slot j := by
  unfold State.rowEnc
  rw [h.2 c, h.2 (opCore c d)]
  rfl

theorem rowParked_sawMore {t u : State} (h : t.sawMore u) (c : CoreId) (p : Pass) (i : Nat) :
    (t.core c).rowParked p i = (u.core c).rowParked p i := by
  rw [h.2 c]
  rfl

theorem rowBlock_sawMore {t u : State} (h : t.sawMore u) (c : CoreId) (p : Pass) (i : Nat) :
    (t.core c).rowBlock p i = (u.core c).rowBlock p i := by
  rw [h.2 c]
  rfl

theorem rbtParked_sawMore {t u : State} (h : t.sawMore u) (c : CoreId) (b : Nat) : (t.core c).rbtParked b = (u.core c).rbtParked b := by
  rw [h.2 c]
  rfl

theorem blocksOf_sawMore {t u : State} (h : t.sawMore u) (c : CoreId) (p : Pass) (n : Nat) :
    (t.core c).blocksOf p n = (u.core c).blocksOf p n := by
  rw [h.2 c]
  rfl

/-- A change of a core that does not rest on the clock of the writes into it. -/
def Unclocked (f : Core → Core) : Prop := ∀ (k : Core) (x : VClock), f { k with winClk := x } = { f k with winClk := x }

theorem unclocked_comp {f g : Core → Core} (hf : Unclocked f) (hg : Unclocked g) : Unclocked fun k => g (f k) := fun k x => by
  show g (f { k with winClk := x }) = { g (f k) with winClk := x }
  rw [hf, hg]

theorem unclocked_setAccRow (r : Nat) (vs : List (BitVec 32)) : Unclocked fun k => k.setAccRow r vs := by
  intro k x
  unfold Core.setAccRow
  generalize vs.zip (List.range vs.length) = l
  induction l generalizing k with
  | nil => rfl
  | cons e l ih => exact ih (k.setAcc r e.2 e.1)

theorem unclocked_putSpadRow (bank row : Nat) (r : Row) : Unclocked fun k => k.putSpadRow bank row r := fun _ _ => rfl

theorem unclocked_pm (src n : Nat) : Unclocked fun k => k.pm src n := fun _ _ => rfl

theorem unclocked_setLfsr (t : Strm) (q : BitVec 32) : Unclocked fun k => k.setEngine t { k.engine t with lfsr := q } := fun k x => by
  cases t <;> rfl

theorem unclocked_takeShadow (d : Dsc) (p : Pass) : Unclocked fun k => k.takeShadow d p := fun _ _ => rfl

theorem sawMore_onCore {t u : State} (h : t.sawMore u) (c : CoreId) {f : Core → Core} (hf : Unclocked f) :
    (t.onCore c f).sawMore (u.onCore c f) := by
  obtain ⟨e, hc⟩ := h
  refine ⟨congrArg (fun x : State => { x with cores := (t.onCore c f).cores }) e, fun d => ?_⟩
  by_cases hd : d = c
  · rw [hd, core_onCore_same, core_onCore_same, hc c, hf]
  · rw [core_onCore_other _ _ _ _ hd, core_onCore_other _ _ _ _ hd]
    exact hc d

/-- Updates applied change what a panel sees, and nothing else. -/
theorem catchUp_sees (m : Mem) (p : Nat) (v : VClock) : m.catchUp p v = { m with
    clocks := (m.catchUp p v).clocks, replicas := (m.catchUp p v).replicas, updates := (m.catchUp p v).updates } := by
  have all : ∀ (us : List Update) (m : Mem), us.foldl Mem.applyUpdate m = { m with
      clocks := (us.foldl Mem.applyUpdate m).clocks, replicas := (us.foldl Mem.applyUpdate m).replicas
      updates := (us.foldl Mem.applyUpdate m).updates } := by
    intro us
    induction us with
    | nil => exact fun m => rfl
    | cons u us ih => exact fun m => ih (m.applyUpdate u)
  exact all _ { m with updates := (splitNeeded p v m.updates).1 }

theorem sawMore_catchUp (s : State) (p : Nat) (v : VClock) : (s.onMem fun m => m.catchUp p v).sawMore s :=
  ⟨congrArg (fun m : Mem => { s with mem := m }) (catchUp_sees s.mem p v), fun _ => rfl⟩

theorem sawMore_winClk (s : State) (c : CoreId) (f : Core → VClock) : (s.onCore c fun k => { k with winClk := f k }).sawMore s := by
  refine ⟨rfl, fun d => ?_⟩
  by_cases hd : d = c
  · rw [hd, core_onCore_same]
  · rw [core_onCore_other _ _ _ _ hd]

/-! ## Actions that end in one state -/

/-- From every state that is `u` but for what a panel has come to see, an action ends well, in a state that is `v` but for that, with a
value that meets `Q`. -/
def Sees {α : Type} (u : State) (act : M α) (v : State) (Q : α → Prop) : Prop :=
  ∀ s : State, s.sawMore u → ∃ a t, act s = .ok a t ∧ t.sawMore v ∧ Q a

section
variable {α β : Type} {u v w : State}

theorem sees_pure {a : α} {Q : α → Prop} (h : Q a) : Sees u (pure a : M α) u Q := fun s hs => ⟨a, s, rfl, hs, h⟩

theorem sees_bind {x : M α} {f : α → M β} {Q : α → Prop} {R : β → Prop} (hx : Sees u x v Q) (hf : ∀ a, Q a → Sees v (f a) w R) :
    Sees u (x >>= f) w R := by
  intro s hs
  obtain ⟨a, t, e, ht, ha⟩ := hx s hs
  obtain ⟨b, t', e', ht', hb⟩ := hf a ha t ht
  exact ⟨b, t', (bind_ok _ _ _ _ _ e).trans e', ht', hb⟩

/-- A choice of what to do first. -/
theorem sees_choice {b : Bool} {x y : M α} {f : α → M β} {Q : α → Prop} {R : β → Prop} (hx : b = true → Sees u x v Q)
    (hy : b = false → Sees u y v Q) (hf : ∀ a, Q a → Sees v (f a) w R) : Sees u (if b = true then x >>= f else y >>= f) w R := by
  cases b with
  | true => exact sees_bind (hx rfl) hf
  | false => exact sees_bind (hy rfl) hf

/-- An action that starts with the state as it is. -/
theorem sees_state {f : State → M β} {R : β → Prop} (h : ∀ s : State, s.sawMore u → Sees u (f s) v R) :
    Sees u (getState >>= f) v R := fun s hs => h s hs s hs

theorem sees_modState {f : State → State} (h : ∀ s : State, s.sawMore u → (f s).sawMore v) : Sees u (modState f) v fun _ => True :=
  fun s hs => ⟨(), f s, rfl, h s hs, trivial⟩

theorem sees_onCore (c : CoreId) {f : Core → Core} (hf : Unclocked f) :
    Sees u (modState fun s => s.onCore c f) (u.onCore c f) fun _ => True := sees_modState fun _ h => sawMore_onCore h c hf

theorem sees_weaken {x : M α} {Q R : α → Prop} (h : Sees u x v Q) (hq : ∀ a, Q a → R a) : Sees u x v R := by
  intro s hs
  obtain ⟨a, t, e, ht, ha⟩ := h s hs
  exact ⟨a, t, e, ht, hq a ha⟩

/-- A fault that does not come is not caught. -/
theorem sees_attempt {act : M α} {Q : α → Prop} (h : Sees u act v Q) : Sees u (attempt act) v fun r => ∃ a, r = .ok a ∧ Q a := by
  intro s hs
  obtain ⟨a, t, e, ht, ha⟩ := h s hs
  exact ⟨.ok a, t, attempt_ok _ _ _ _ e, ht, a, rfl, ha⟩

theorem sees_atPlace {act : M α} {Q : α → Prop} (p : Perf) (h : Sees u act v Q) : Sees u (atPlace p act) v Q :=
  sees_bind (sees_attempt h) fun _ ⟨_, e, ha⟩ => by
    rw [e]
    exact sees_pure ha

theorem sees_ownRow {act : M α} {Q : α → Prop} (c : CoreId) (t : Strm) (x : Issued) (p : Pass) (b : Nat) (h : Sees u act v Q) :
    Sees u (ownRow c t x p b act) v fun r => ∃ a, r = some a ∧ Q a :=
  sees_bind (sees_attempt h) fun _ ⟨a, e, ha⟩ => by
    rw [e]
    exact sees_pure ⟨a, rfl, ha⟩

/-- The values that a list of actions gives, none of which changes the state. -/
theorem sees_mapM {γ : Type} {f : γ → M β} {g : γ → β} (l : List γ) (h : ∀ x ∈ l, Sees u (f x) u (· = g x)) :
    Sees u (l.mapM f) u (· = l.map g) := by
  induction l with
  | nil => exact sees_pure rfl
  | cons x l ih =>
    rw [List.mapM_cons]
    refine sees_bind (h x List.mem_cons_self) fun a ha => sees_bind (ih fun y hy => h y (List.mem_cons_of_mem x hy)) fun as has => ?_
    exact sees_pure (by rw [ha, has, List.map_cons])

/-- A value made from a list by actions none of which changes the state. -/
theorem sees_foldl {γ : Type} {f : β → γ → M β} {g : β → γ → β} (l : List γ) (h : ∀ x ∈ l, ∀ b, Sees u (f b x) u (· = g b x)) (b : β) :
    Sees u (l.foldlM f b) u (· = l.foldl g b) := by
  induction l generalizing b with
  | nil => exact sees_pure rfl
  | cons x l ih =>
    rw [List.foldlM_cons]
    refine sees_bind (h x List.mem_cons_self b) fun b' hb => ?_
    rw [hb]
    exact ih (fun y hy => h y (List.mem_cons_of_mem x hy)) _

/-- One action after another, each from what the one before it has made of a state and of a value. -/
theorem sees_foldlM {γ : Type} {I : State → Prop} {f : β → γ → M β} {P : State → β → Prop} {step : State → γ → State} (l : List γ)
    (hI : ∀ u x, I u → I (step u x)) (h : ∀ x ∈ l, ∀ u b, I u → P u b → Sees u (f b x) (step u x) (P (step u x))) {u : State} {b : β}
    (hu : I u) (hb : P u b) : Sees u (l.foldlM f b) (l.foldl step u) (P (l.foldl step u)) := by
  induction l generalizing u b with
  | nil => exact sees_pure hb
  | cons x l ih =>
    rw [List.foldlM_cons]
    refine sees_bind (h x List.mem_cons_self u b hu hb) fun b' hb' => ?_
    exact ih (fun y hy => h y (List.mem_cons_of_mem x hy)) (hI u x hu) hb'

end

end Sys2Proof.Machine

/-! Rows of operands on chip: what is read of them, and what is written to them (spec 04 R73, 17 R309, R310, 18 R324). -/

namespace Sys2Proof.Machine

/-- `u` is a state that a word on chip, issued in `s`, may come to, between no two of its operations on lines. -/
structure State.atWork (s u : State) : Prop where
  chip : s.onchip u
  log : u.mem.opLog = none

theorem atWork_onCore {s u : State} (h : s.atWork u) (c : CoreId) {f : Core → Core} (hf : ∀ k : Core, k.chipAs (f k)) :
    s.atWork (u.onCore c f) := ⟨onchip_onCore h.chip c hf, h.log⟩

/-- An operand on chip whose rows all have values: none is of class 8. -/
structure State.readable (s : State) (d : Dsc) (slot : Nat) : Prop where
  chip : onChip d
  rows : ∀ j < dRows d, ∃ f, Fmt.parse (s.rowEnc s.cur d slot j) = some f ∧ f.elem ≠ .raw

/-! ## Formats -/

/-- Every element takes at least one bit. -/
theorem width_pos {e : BitVec 32} {f : Fmt} (h : Fmt.parse e = some f) : 0 < f.elem.width := by
  have narrow_pos : (narrow e).ok = true → 0 < (Elem.flt (narrow e)).width := by
    intro ok
    simp only [FloatFmt.ok, Bool.and_eq_true, decide_eq_true_eq] at ok
    simp only [Elem.width]
    omega
  have int_pos : ∀ w : Nat, w ∈ [2, 4, 8, 16, 32] → 0 < w := by decide
  unfold Fmt.parse at h
  simp only at h
  split at h
  all_goals simp only [reduceCtorEq, Option.ite_none_right_eq_some, Bool.and_eq_true, Option.some.injEq] at h
  · obtain ⟨⟨ok, -⟩, rfl⟩ := h
    exact narrow_pos ok
  · obtain ⟨-, rfl⟩ := h
    decide
  · obtain ⟨-, rfl⟩ := h
    decide
  · obtain ⟨-, rfl⟩ := h
    decide
  · obtain ⟨⟨-, hw⟩, rfl⟩ := h
    exact int_pos _ (List.contains_iff_mem.1 hw)
  · obtain ⟨⟨-, hw⟩, rfl⟩ := h
    exact int_pos _ (List.contains_iff_mem.1 hw)
  · split at h
    · obtain ⟨-, h⟩ := Option.ite_none_right_eq_some.1 h
      cases h
      exact (by decide : 0 < 8)
    · cases h
  · split at h
    · obtain ⟨⟨ok, -⟩, h⟩ := Option.ite_none_right_eq_some.1 h
      cases h
      exact narrow_pos ok
    · cases h
  · obtain ⟨-, rfl⟩ := h
    decide

/-- A row of a format is no fewer than one byte. -/
theorem memBytes_pos {e : BitVec 32} {f : Fmt} (h : Fmt.parse e = some f) {n : Nat} (hn : 0 < n) : 0 < f.memBytes n := by
  have := Nat.mul_pos hn (width_pos h)
  unfold Fmt.memBytes Elem.rowBytes
  omega

/-! ## Reading -/

section
variable {s u : State}

theorem sees_seeWin (p : Nat) (c : CoreId) : Sees u (seeWin p c) u fun _ => True :=
  sees_modState fun s h => sawMore_trans (sawMore_catchUp s _ _) h

theorem sees_markWin (p : Nat) (c : CoreId) : Sees u (markWin p c) u fun _ => True :=
  sees_modState fun s h => sawMore_trans (sawMore_winClk s c _) h

theorem sees_engLfsr (c : CoreId) (t : Strm) : Sees u (engLfsr c t) u (· = ((u.core c).engine t).lfsr) :=
  sees_state fun s h => sees_pure (by rw [h.2 c]; cases t <;> rfl)

theorem sees_engMode (c : CoreId) (r : BitVec 3) : Sees u (engMode c r) u (· = modeOf r (u.core c).round) :=
  sees_state fun s h => sees_pure (by rw [h.2 c])

theorem sees_parkedNow (c : CoreId) (p : Pass) (i : Nat) : Sees u (parkedNow c p i) u (· = (u.core c).rowParked p i) :=
  sees_state fun _ h => sees_pure (rowParked_sawMore h c p i)

theorem sees_readAccRow (hu : s.atWork u) (c : CoreId) (row cols : Nat) :
    Sees u (readAccRow c row cols) u (· = (u.core c).accRow row cols) := by
  intro t h
  have clean := hu.chip.clean c
  simp only [Core.clean, Bool.and_eq_true, List.isEmpty_iff] at clean
  have good : (t.core c).accBad row cols = false := by rw [h.2 c]; simp [Core.accBad, clean.2]
  refine ⟨(t.core c).accRow row cols, t, ?_, h, by rw [h.2 c]; rfl⟩
  unfold readAccRow
  simp only [good, Bool.false_eq_true, if_false]

theorem sees_readSpadRow (hu : s.atWork u) (c : CoreId) (bank row : Nat) (f : Fmt) (cols : Nat) :
    Sees u (readSpadRow c bank row f cols) u
      (· = { bytes := (u.core c).bankBytes bank row (f.elem.rowBytes cols), scales := (u.core c).bankScales bank row (f.scaleBytes cols) }) := by
  intro t h
  have clean := hu.chip.clean c
  simp only [Core.clean, Bool.and_eq_true, List.isEmpty_iff] at clean
  have good : (t.core c).spadBad (bank * 4096 + row * 64) (f.elem.rowBytes cols) = false := by
    rw [h.2 c]; simp [Core.spadBad, clean.1]
  refine ⟨_, t, ?_, h, rfl⟩
  unfold readSpadRow
  simp only [good, Bool.false_eq_true, if_false]
  rw [h.2 c]
  rfl

/-- A row of an operand on chip is read as it stands, in the format that it had when the word issued. -/
theorem sees_readRow (hu : s.atWork u) {c : CoreId} {d : Dsc} {slot j : Nat} {f : Fmt} (b first : Nat) (hd : onChip d)
    (hf : Fmt.parse (s.rowEnc c d slot j) = some f) :
    Sees u (readRow c d slot j b first) u (· = (u.rowOf c d slot j f, s.rowEnc c d slot j)) := by
  refine sees_state fun t ht => ?_
  rw [rowEnc_sawMore ht, rowEnc_onchip hu.chip]
  refine sees_state fun t ht => ?_
  simp only [hf]
  by_cases ha : inAcc d = true
  · rw [if_pos ha]
    refine sees_bind (sees_readAccRow hu _ _ _) fun vs hv => sees_bind (sees_seeWin _ _) fun _ _ => sees_pure ?_
    rw [hv]
    simp only [State.rowOf, ha, if_true]
  · rw [if_neg ha, if_pos (hd.resolve_left ha)]
    refine sees_bind (sees_readSpadRow hu _ _ _ _ _) fun r hr => sees_bind (sees_seeWin _ _) fun _ _ => sees_pure ?_
    rw [hr, ht.2 c]
    simp only [State.rowOf, ha, Bool.false_eq_true, if_false]
    rfl

/-- The values of a row are read as they stand. -/
theorem sees_readVals (hu : s.atWork u) {d : Dsc} {slot j : Nat} (b first : Nat) (hd : s.readable d slot) (hj : j < dRows d) :
    Sees u (readVals s.cur d slot j b first) u (· = u.rowVals s.cur d slot j) := by
  obtain ⟨f, hf, hr⟩ := hd.rows j hj
  refine sees_bind (sees_readRow hu b first hd.chip hf) fun r hr' => ?_
  rw [hr']
  simp only [hf, if_neg hr]
  refine sees_pure ?_
  unfold State.rowVals
  rw [rowEnc_onchip hu.chip]
  simp only [hf]

/-! ## Writing -/

/-- The effects of a word from its start leave no row out as written before. -/
theorem skipRow_start {n : Nat} {p : Perf} (hp : p.resume = 0) : skipRow n p = false := by
  unfold skipRow
  rw [hp]
  cases n <;> simp

theorem sees_writeRowTo {c : CoreId} {d : Dsc} (slot j b first : Nat) {f : Fmt} (r : Row) {p : Perf} (hd : onChip d)
    (hn : 0 < f.memBytes (dCols d)) (hp : p.resume = 0) :
    Sees u (writeRowTo c d slot j b first f r p) (u.putRow c d slot j r) (·.resume = 0) := by
  have here : (inAcc d || inSpad d) = true := Bool.or_eq_true_iff.2 hd
  have due : ¬ decide (p.pos + f.memBytes (dCols d) ≤ p.resume) = true := by rw [hp]; simp; omega
  refine sees_state fun t ht => ?_
  simp only [here, if_true, if_neg due]
  have marked : ∀ x : M Perf, Sees u x (u.putRow c d slot j r) (·.resume = 0) →
      Sees u (markWin (panelOf c) (opCore c d) >>= fun _ => x) (u.putRow c d slot j r) (·.resume = 0) :=
    fun x hx => sees_bind (sees_markWin _ _) fun _ _ => hx
  have written : ∀ g : Core → Core, Unclocked g → u.putRow c d slot j r = u.onCore (opCore c d) g →
      Sees u ((modState fun s => s.onCore (opCore c d) g) >>= fun _ => pure (p.step (f.memBytes (dCols d)))) (u.putRow c d slot j r)
        (·.resume = 0) := by
    intro g hg e
    rw [e]
    exact sees_bind (sees_onCore _ hg) fun _ _ => sees_pure hp
  by_cases ha : inAcc d = true
  · have put := written _ (unclocked_setAccRow (accPlace d j) _) (by unfold State.putRow; simp only [ha, if_true]; rfl)
    simp only [ha, if_true]
    split
    · exact put
    · exact marked _ put
  · have put := written _ (unclocked_putSpadRow (placeOf (t.core c) d slot j).1 (placeOf (t.core c) d slot j).2 r)
      (by unfold State.putRow; rw [ht.2 c]; simp only [ha, Bool.false_eq_true, if_false]; rfl)
    simp only [ha, Bool.false_eq_true, if_false]
    split
    · exact put
    · exact marked _ put

theorem sees_writeVals (hu : s.atWork u) {t : Strm} {d : Dsc} {slot j : Nat} (b first : Nat) (mode : Mode) (sat : Bool) (vs : List Val)
    {p : Perf} (hd : s.readable d slot) (hj : j < dRows d) (hp : p.resume = 0) :
    Sees u (writeVals s.cur t d slot j b first mode sat vs p) (u.putVals s.cur t d slot j mode sat vs) (·.resume = 0) := by
  obtain ⟨f, hf, hr⟩ := hd.rows j hj
  refine sees_state fun q hq => ?_
  unfold State.putVals
  rw [rowEnc_sawMore hq, rowEnc_onchip hu.chip]
  simp only [hf, skipRow_start hp, Bool.false_eq_true, if_false, if_neg hr]
  refine sees_bind (sees_engLfsr _ _) fun l hl => ?_
  rw [hl]
  refine sees_bind (sees_pure rfl) fun bs hbs => ?_
  subst hbs
  refine sees_bind (sees_writeRowTo _ _ _ _ _ hd.chip (memBytes_pos hf (Nat.succ_pos _)) hp) fun q hq => ?_
  exact sees_bind (sees_onCore _ (unclocked_setLfsr _ _)) fun _ _ => sees_pure hq

theorem atWork_putRow (h : s.atWork u) (c : CoreId) (d : Dsc) (slot j : Nat) (r : Row) : s.atWork (u.putRow c d slot j r) := by
  unfold State.putRow
  refine atWork_onCore h _ fun k => ?_
  split
  · exact chipAs_setAccRow _ _ _
  · exact chipAs_putSpadRow _ _ _ _

theorem atWork_putVals (h : s.atWork u) (c : CoreId) (t : Strm) (d : Dsc) (slot j : Nat) (mode : Mode) (sat : Bool) (vs : List Val) :
    s.atWork (u.putVals c t d slot j mode sat vs) := by
  unfold State.putVals
  split
  · exact h
  · exact atWork_onCore (atWork_putRow h _ _ _ _ _) _ fun _ => chipAs_setEngine _ _ _

/-! ## Row after row -/

theorem sees_newRow (h : u.mem.opLog = none) : Sees u newRow u fun _ => True :=
  sees_modState (f := fun s => s.onMem fun m => { m with opLog := m.opLog.map fun g => { g with made := g.replay } }) fun t ht => by
    have none : t.mem.opLog.map (fun g => { g with made := g.replay }) = t.mem.opLog := by rw [opLog_sawMore ht, h]; rfl
    show ({ t with mem := { t.mem with opLog := t.mem.opLog.map _ } } : State).sawMore u
    rw [none]
    exact ht

/-- Rows one after another, from what the rows before have left. -/
theorem sees_copyRows {n : Nat} {f : Nat → Perf → M Perf} {step : State → Nat → State} (hI : ∀ u i, s.atWork u → s.atWork (step u i))
    (h : ∀ i < n, ∀ u p, s.atWork u → p.resume = 0 → Sees u (f i p) (step u i) (·.resume = 0)) {p : Perf} (hu : s.atWork u)
    (hp : p.resume = 0) : Sees u (copyRows n f p) ((List.range n).foldl step u) (·.resume = 0) := by
  rw [copyRows_eq]
  refine sees_foldlM (I := s.atWork) (P := fun _ (p : Perf) => p.resume = 0) (List.range n) hI (fun i hi u p hu hp => ?_) hu hp
  intro t ht
  obtain ⟨a, t', e, ht', ha⟩ := sees_bind (sees_newRow hu.log) (fun _ _ => h i (List.mem_range.1 hi) u p hu hp) t ht
  refine ⟨a, t', ?_, ht', ha⟩
  unfold copyStep
  rw [e]

theorem sees_forRows {n : Nat} {f : Nat → M Unit} {step : State → Nat → State} (hI : ∀ u i, s.atWork u → s.atWork (step u i))
    (h : ∀ i < n, ∀ u, s.atWork u → Sees u (f i) (step u i) fun _ => True) (hu : s.atWork u) :
    Sees u (forRows n f) ((List.range n).foldl step u) fun _ => True := by
  have each : ∀ i ∈ List.range n, ∀ u, s.atWork u → Sees u (f i) (step u i) fun _ => True := fun i hi => h i (List.mem_range.1 hi)
  unfold forRows
  revert each
  generalize List.range n = l
  intro each
  induction l generalizing u with
  | nil => exact sees_pure trivial
  | cons i l ih =>
    exact sees_bind (each i List.mem_cons_self u hu) fun _ _ => ih (hI u i hu) fun j hj => each j (List.mem_cons_of_mem i hj)

/-- One row of an M or V word: left out where it is parked, else read and written. -/
theorem sees_oneRow {α : Type} {v : State} {c : CoreId} {t : Strm} {w : Issued} {pass : Pass} {parked : M Bool} {k : Bool} {b n : Nat}
    {read : M α} {write : α → Perf → M Perf} {p : Perf} {Q : α → Prop} (hp : p.resume = 0) (hk : Sees u parked u (· = k))
    (hr : Sees u read u Q) (hw : ∀ a, Q a → Sees u (write a p) v (·.resume = 0)) :
    Sees u (oneRow c t w pass parked b n read write p) (if k then u else v) (·.resume = 0) := by
  unfold oneRow
  rw [skipRow_start hp, if_neg Bool.false_ne_true]
  refine sees_bind hk fun _ e => ?_
  cases k with
  | true =>
    rw [e, if_pos rfl, if_pos rfl]
    exact sees_pure hp
  | false =>
    rw [e, if_neg Bool.false_ne_true, if_neg Bool.false_ne_true]
    refine sees_bind (sees_ownRow _ _ _ _ _ (sees_atPlace p hr)) fun r ⟨a, hra, ha⟩ => ?_
    rw [hra]
    refine sees_bind hk fun _ e => ?_
    rw [e, if_neg Bool.false_ne_true]
    refine sees_bind (sees_ownRow _ _ _ _ _ (sees_atPlace p (hw a ha))) fun r ⟨q, hrq, hq⟩ => ?_
    rw [hrq]
    exact sees_pure hq

end

end Sys2Proof.Machine

/-! What holds of an engine word that has issued (spec 24 R365 to R371): its operands keep to their limits and formats, its checks have
passed, and it stands at the start of its effects. -/

namespace Sys2Proof.Machine

/-- A word that has issued in `s`, at the start of its effects. -/
structure Started (s : State) (i : Instr) (e : EWord) (w : Issued) : Prop where
  fresh : w.fresh
  resume : w.resume = 0
  word : w.word = encodeWord i
  dscs : w.dscs = s.latched e
  limits : ∀ x ∈ e.ops.zip w.dscs, opMask x.1.at0 (!s.dscOk s.cur x.2) = 0
  banks : ∀ x ∈ e.ops.zip w.dscs, opMask x.1.at0 (!s.bankFmtsOk s.cur x.2) = 0
  check : ∀ issue, e.check issue s s.cur w.dscs = 0

/-- An engine word that issues has passed its checks; what is left is what it takes at issue. -/
theorem started_of_issueE {s s1 : State} {i : Instr} {e : EWord} {w : Issued} (hi : s.issueE i e = some (w, s1)) :
    ∃ w0 k, e.prep w0 (s.setCore s.cur k) = .ok w s1 ∧ Started s i e w0 ∧ (s.core s.cur).issuesTo k := by
  unfold State.issueE State.issueWord at hi
  simp only at hi
  split at hi
  · cases hi
  · rename_i hg
    simp only [Bool.or_eq_true, not_or, Bool.not_eq_true, Option.isSome_eq_false_iff, Option.isNone_iff_eq_none] at hg
    obtain ⟨⟨⟨decode, _⟩, _⟩, _⟩ := hg
    split at hi
    · cases hi
    · rename_i k1 hk
      split at hi
      · cases hi
      · rename_i hb
        simp only [Bool.or_eq_true, not_or, Bool.not_eq_true, Option.isSome_eq_false_iff, Option.isNone_iff_eq_none] at hb
        obtain ⟨_, issue⟩ := hb
        split at hi
        · cases hi
        · rename_i k2 hs
          split at hi
          · rename_i w1 u hp
            simp only [Option.some.injEq, Prod.mk.injEq] at hi
            obtain ⟨rfl, rfl⟩ := hi
            obtain ⟨limits, decodes⟩ := decodeFault_none decode
            obtain ⟨banks, issues⟩ := issueFault_none issue
            refine ⟨_, _, hp, ⟨issuedWord_fresh _ _ _ _ _ _ _, rfl, rfl, rfl, limits, banks, ?_⟩, ?_⟩
            · intro b
              cases b
              · exact decodes
              · exact issues
            · exact issuesTo_setEngine (issuesTo_noteIssue (issuesTo_pmIssue (issuesTo_reloadLfsr (issuesTo_flags hk hs))))
          · cases hi

/-- A word that takes nothing more at issue starts in the state that its issue leaves. -/
theorem started_plain {s s1 : State} {i : Instr} {e : EWord} {w : Issued} (hp : e.prep = pure) (hi : s.issueE i e = some (w, s1)) :
    Started s i e w ∧ ∃ k, s1 = s.setCore s.cur k ∧ (s.core s.cur).issuesTo k := by
  obtain ⟨w0, k, h, hs, hk⟩ := started_of_issueE hi
  rw [hp, pure_run] at h
  cases h
  exact ⟨hs, k, rfl, hk⟩

theorem opLog_of_allClean {s : State} (h : s.allClean = true) : s.mem.opLog = none := by
  unfold State.allClean at h
  simp only [Bool.and_eq_true, Option.isNone_iff_eq_none] at h
  exact h.1.2

/-- The effects of a word on chip start with no check failing. -/
theorem atWork_setCore {s : State} (h : s.allClean = true) {k : Core} (hk : (s.core s.cur).chipAs k) : s.atWork (s.setCore s.cur k) :=
  ⟨onchip_setCore h hk, (opLog_of_allClean h : s.mem.opLog = none)⟩

/-- A word whose effects are performed whole stands in progress with them performed. -/
theorem issuesTo_run {s s1 t : State} {i : Instr} {e : EWord} {w w' : Issued} (he : engineWord i = some e)
    (hi : s.issueE i e = some (w, s1)) (hl : s.lineOps ≠ some 0) (hw : ∀ s c ds, e.later s c ds = .whole) (hf : w.fresh) (hf' : w'.fresh)
    (hr : e.body { w with todo := true } s1 = .ok { w' with todo := true } t) : IssuesTo i s e.strm w' t := by
  obtain ⟨_, ho, _, hown, henv⟩ := hf
  obtain ⟨todo', ho', hl', hown', _⟩ := hf'
  have now : s1.opsNow e s.cur w.dscs = none := by
    unfold State.opsNow
    rw [hw, issueE_lineOps he hi]
    cases h : s.lineOps with
    | none => rfl
    | some n =>
      cases n with
      | zero => exact absurd h hl
      | succ n => rfl
  unfold IssuesTo
  rw [exec_engine he, runE_ok i e s s1 t w _ hi now ho henv hown hr]
  congr 2
  rw [← todo', ← ho', ← hl', ← hown']

/-- The same of a word whose effects end in one state. -/
theorem issuesTo_sees {s s1 v : State} {i : Instr} {e : EWord} {w w' : Issued} (he : engineWord i = some e)
    (hi : s.issueE i e = some (w, s1)) (hl : s.lineOps ≠ some 0) (hw : ∀ s c ds, e.later s c ds = .whole) (hf : w.fresh) (hf' : w'.fresh)
    (hb : Sees s1 (e.body { w with todo := true }) v (· = { w' with todo := true })) : ∃ t, IssuesTo i s e.strm w' t ∧ t.sawMore v := by
  obtain ⟨x, t, hr, ht, rfl⟩ := hb s1 (sawMore_refl s1)
  exact ⟨t, issuesTo_run he hi hl hw hf hf' hr, ht⟩

/-! ## Operands -/

/-- The fields of a word that name a descriptor (R215). -/
def descField (n : Nat) : Prop := n = 36 ∨ n = 32 ∨ n = 28 ∨ n = 24

theorem false_of_descField {n : Nat} (hn : descField n) {b : Bool} (h : opMask n b = 0) : b = false := by
  cases b with
  | false => rfl
  | true => obtain rfl | rfl | rfl | rfl := hn <;> exact absurd h (by decide)

section
variable {s : State} {i : Instr} {e : EWord} {w : Issued}

theorem length_dscs (h : Started s i e w) : w.dscs.length = e.ops.length := by
  rw [h.dscs, State.latched, List.length_map]

/-- Operand `n` of a word with its field. -/
theorem operand_mem (h : Started s i e w) {n : Nat} (hn : n < e.ops.length) : (e.ops[n], w.dsc n) ∈ e.ops.zip w.dscs := by
  have hd : n < w.dscs.length := by rw [length_dscs h]; exact hn
  have at0 : (e.ops.zip w.dscs)[n]'(by rw [List.length_zip, length_dscs h, Nat.min_self]; exact hn) = (e.ops[n], w.dsc n) := by
    rw [List.getElem_zip, Issued.dsc, List.getD_eq_getElem _ _ hd]
  exact at0 ▸ List.getElem_mem _

/-- Every operand keeps to its limits, and the formats of its banks are valid. -/
theorem operand_ok (h : Started s i e w) {n : Nat} (hn : n < e.ops.length) (hf : descField e.ops[n].at0) :
    s.dscOk s.cur (w.dsc n) = true ∧ s.bankFmtsOk s.cur (w.dsc n) = true := by
  have limits := false_of_descField hf (h.limits _ (operand_mem h hn))
  have banks := false_of_descField hf (h.banks _ (operand_mem h hn))
  exact ⟨by simpa using limits, by simpa using banks⟩

end

/-- The kinds of R309 lie on chip. -/
theorem onChip_of_kind {s : State} {c : CoreId} {d : Dsc} (hk : s.dscOk c d = true) (h : kindIn d [1, 2, 3, 7] = true) : onChip d := by
  have kinds : dKind d = 1 ∨ dKind d = 2 ∨ dKind d = 3 ∨ dKind d = 7 := by simpa [kindIn] using h
  obtain h | h | h | h := kinds
  · exact .inr (by simp [inSpad, h])
  · exact .inr (by simp [inSpad, h])
  · exact .inl (by simp [inAcc, h])
  · unfold State.dscOk at hk
    simp only [h, Bool.and_eq_true] at hk
    obtain ⟨_, window⟩ := hk
    split at window
    · exact .inr (by simp_all [inSpad])
    · exact .inl (by simp_all [inAcc])
    · cases window

end Sys2Proof.Machine

/-! Vector words: what holds at their start, their rows one after another, and the elementwise words (spec 17 R309 to R313). -/

namespace Sys2Proof.Machine

/-- What holds of a vector word at the start of its effects. -/
structure VStart (s s1 : State) (ops : List EOp) (check : Bool → State → CoreId → List Dsc → Word) (w : Issued) : Prop where
  work : s.atWork s1
  resume : w.resume = 0
  readable : ∀ n < ops.length, s.readable (w.dsc n) (w.slot n)
  check : ∀ issue, check issue s s.cur w.dscs = 0
  core : (s.core s.cur).issuesTo (s1.core s.cur)

theorem vOperand_zero {issue : Bool} {s : State} {c : CoreId} {ats : List Nat} {ds : List Dsc} (h : vOperands issue s c ats ds = 0)
    {x : Nat × Dsc} (hx : x ∈ ats.zip ds) : vOperand issue s c x.1 x.2 = 0 := (foldl_or_eq_zero _ h).2 x hx

/-- An operand on chip has readable rows where no row of the word is of class 8. -/
theorem readable_of_noRaw {s s1 : State} {w : Issued} {n : Nat} (work : s.atWork s1) (hr : s1.noRaw w) (hn : n < w.dscs.length)
    (chip : onChip (w.dsc n)) (limits : s.dscOk s.cur (w.dsc n) = true) (banks : s.bankFmtsOk s.cur (w.dsc n) = true) :
    s.readable (w.dsc n) (w.slot n) := by
  refine ⟨chip, fun j hj => ?_⟩
  obtain ⟨f, hf⟩ := Option.isSome_iff_exists.1 (rowEnc_parses chip limits banks (w.slot n) j hj)
  refine ⟨f, hf, hr n j f hn hj ?_⟩
  rw [work.chip.cur, rowEnc_onchip work.chip]
  exact hf

/-- A vector word whose rows all have values starts with readable operands. -/
theorem vStart {s s1 : State} {i : Instr} {h : Hdr} {ops : List EOp} {p : Pass} {check : Bool → State → CoreId → List Dsc → Word}
    {body : Issued → M Unit} {w : Issued} (ho : ∀ o ∈ ops, descField o.at0)
    (hi : s.issueE i (vWord h ops p check body) = some (w, s1)) (ha : s.allClean = true) (hr : s1.noRaw w) :
    Started s i (vWord h ops p check body) w ∧ VStart s s1 ops check w := by
  obtain ⟨hs, k, rfl, hk⟩ := started_plain (e := vWord h ops p check body) rfl hi
  have work : s.atWork (s.setCore s.cur k) := atWork_setCore ha (chipAs_of_issuesTo hk)
  refine ⟨hs, work, hs.resume, fun n hn => ?_, fun issue => (BitVec.or_eq_zero_iff.1 (hs.check issue)).2, ?_⟩
  · have field : descField ops[n].at0 := ho _ (List.getElem_mem hn)
    obtain ⟨limits, banks⟩ := operand_ok hs hn field
    have named : (ops[n].at0, w.dsc n) ∈ (ops.map (·.at0)).zip w.dscs := by
      rw [List.zip_map_left]
      exact List.mem_map.2 ⟨_, operand_mem hs hn, rfl⟩
    have kind := (BitVec.or_eq_zero_iff.1 (vOperand_zero (BitVec.or_eq_zero_iff.1 (hs.check false)).1 named)).1
    have chip : onChip (w.dsc n) := onChip_of_kind limits (by simpa using false_of_descField field kind)
    exact readable_of_noRaw work hr (lt_of_lt_of_eq hn (length_dscs hs).symm) chip limits banks
  · rw [core_setCore_same]
    exact hk

/-- Operand `n` of the word, with its rows' values. -/
theorem VStart.operand {s s1 : State} {ops : List EOp} {check : Bool → State → CoreId → List Dsc → Word} {w : Issued}
    (h : VStart s s1 ops check w) (n : Nat) (hn : n < ops.length := by simp) : s.readable (w.dsc n) (w.slot n) := h.readable n hn

/-- A vector word whose effects end in one state stands in progress with them performed. -/
theorem vector_result {s s1 : State} {v : Issued → State} {i : Instr} {h : Hdr} {ops : List EOp} {p : Pass}
    {check : Bool → State → CoreId → List Dsc → Word} {body : Issued → M Unit} {w : Issued}
    (he : engineWord i = some (vWord h ops p check body)) (ho : ∀ o ∈ ops, descField o.at0)
    (hi : s.issueE i (vWord h ops p check body) = some (w, s1)) (ha : s.allClean = true) (hl : s.lineOps ≠ some 0) (hr : s1.noRaw w)
    (hv : v { w with todo := true } = v w) (hb : ∀ x, VStart s s1 ops check x → Sees s1 (body x) (v x) fun _ => True) :
    ∃ t, IssuesTo i s .v { w with deferred := bobEnds .v ops w.dscs } t ∧ t.sawMore (v w) := by
  obtain ⟨hs, start⟩ := vStart ho hi ha hr
  refine issuesTo_sees (e := vWord h ops p check body) (w' := { w with deferred := bobEnds .v ops w.dscs }) he hi hl (fun _ _ _ => rfl)
    hs.fresh hs.fresh ?_
  rw [← hv]
  exact sees_bind (hb { w with todo := true } ⟨start.work, start.resume, start.readable, start.check, start.core⟩) fun _ _ => sees_pure rfl

/-- The same of a word that writes d0 row after row. -/
theorem rowsV_of {ω : Type} {mk : Hdr → ω → Instr} {e : Hdr → ω → EWord} {p : ω → Pass} {rnd : ω → BitVec 3} {sat : ω → Bool}
    {vals : ω → Issued → State → State → Nat → List Val} {ops : ω → List EOp} {q : ω → Pass}
    {check : ω → Bool → State → CoreId → List Dsc → Word} {body : ω → Issued → M Unit}
    (he : ∀ h o, engineWord (mk h o) = some (e h o)) (hw : ∀ h o, e h o = vWord h (ops o) (q o) (check o) (body o))
    (ho : ∀ o, ∀ x ∈ ops o, descField x.at0) (hv : ∀ o w s1, vals o { w with todo := true } s1 = vals o w s1)
    (hb : ∀ s s1 o x, VStart s s1 (ops o) (check o) x →
      Sees s1 (body o x) (s1.eachRow x (p o) (rnd o) (sat o) (vals o x s1)) fun _ => True) : RowsV mk e p rnd sat vals := by
  intro s s1 h o w hi ha hl hr
  rw [hw] at hi ⊢
  refine vector_result (v := fun w => s1.eachRow w (p o) (rnd o) (sat o) (vals o w s1)) ((he h o).trans (congrArg some (hw h o)))
    (ho o) hi ha hl hr ?_ fun x start => hb s s1 o x start
  show s1.eachRow { w with todo := true } _ _ _ _ = _
  rw [hv]
  rfl

section
variable {s u : State} {w : Issued}

theorem sees_vRead (hu : s.atWork u) {n j : Nat} (hd : s.readable (w.dsc n) (w.slot n)) (hj : j < dRows (w.dsc n)) :
    Sees u (vRead w n j) u (· = u.valsOf w n j) := by
  refine sees_state fun t ht => ?_
  simp only
  rw [cur_sawMore ht, hu.chip.cur]
  refine sees_bind (sees_readVals hu 0 0 hd hj) fun vs hv => sees_pure ?_
  rw [hv]
  unfold State.valsOf
  rw [hu.chip.cur]

/-- Rows of d0 written from their own values, but for those parked. -/
theorem sees_vRows (hu : s.atWork u) (hw : w.resume = 0) (hd : s.readable (w.dsc 0) (w.slot 0)) {p : Pass} {rnd : BitVec 3} {sat : Bool}
    {own : Nat → Nat → M (List Val)} {vals : State → Nat → List Val}
    (h : ∀ i < dRows (w.dsc 0), ∀ u b, s.atWork u → Sees u (own i b) u (· = vals u i)) :
    Sees u (vRows w p rnd sat (dRows (w.dsc 0)) own) (u.eachRow w p rnd sat vals) fun _ => True := by
  refine sees_state fun t ht => ?_
  unfold State.eachRow State.convRows
  simp only
  rw [cur_sawMore ht, hu.chip.cur]
  refine sees_bind (sees_engMode _ _) fun mode hm => ?_
  rw [hm]
  refine sees_bind (sees_copyRows (s := s) (fun u i hu => ?_) (fun i hi u q hu hq => ?_) hu hw) fun _ _ => sees_pure trivial
  · split
    · exact hu
    · exact atWork_putVals hu _ _ _ _ _ _ _ _
  · refine sees_state fun t ht => sees_oneRow hq (sees_parkedNow _ _ _) (h i hi u _ hu) fun vs hv => ?_
    rw [hv]
    exact sees_writeVals hu _ _ _ _ _ hd hi hq

end
/-! ## Shapes -/

theorem rows_of_shapeBad {n : Nat} (hn : descField n) {d e : Dsc} (h : shapeBad n d e = 0) : dRows e = dRows d ∧ dCols e = dCols d := by
  have := false_of_descField hn h
  simp only [Bool.or_eq_false_iff, bne_eq_false_iff_eq] at this
  exact ⟨this.1.symm, this.2.symm⟩

theorem rows_of_sideShape {n : Nat} (hn : descField n) {one : Bool} {d e : Dsc} (h : sideShape n one d e = 0) :
    dRows e = if one then 1 else dRows d := by
  have := false_of_descField hn h
  cases one <;> simpa using (Bool.or_eq_false_iff.1 this).1

/-- The fields of two, three and four operands. -/
theorem fields_two (a b : Desc) : ∀ o ∈ [dst0 a, src1 b], descField o.at0 := by simp [dst0, src1, descField]

theorem fields_three (a b c : Desc) : ∀ o ∈ [dst0 a, src1 b, src2 c], descField o.at0 := by simp [dst0, src1, src2, descField]

theorem fields_four (a b c d : Desc) : ∀ o ∈ [dst0 a, src1 b, src2 c, src3 d], descField o.at0 := by
  simp [dst0, src1, src2, src3, descField]

/-! ## Operands that may be one row (R313) -/

section
variable {β : Type} {s u v : State} {w : Issued} {R : β → Prop}

/-- The one row of an operand under BR or BC, read before any row is written. -/
theorem sees_oneSide (hu : s.atWork u) {one : Bool} {n r : Nat} {f : List Val → M β} (hd : s.readable (w.dsc n) (w.slot n))
    (hn : dRows (w.dsc n) = if one then 1 else r) (hf : ∀ a, (one = true → a = u.valsOf w n 0) → Sees u (f a) v R) :
    Sees u (if one = true then vRead w n 0 >>= f else pure [] >>= f) v R := by
  refine sees_choice (v := u) (fun h => ?_) (fun h => sees_pure fun h' => ?_) hf
  · rw [h, if_pos rfl] at hn
    exact sees_weaken (sees_vRead hu hd (by rw [hn]; exact Nat.one_pos)) fun _ e _ => e
  · rw [h] at h'
    exact absurd h' Bool.false_ne_true

/-- That row, or row `j` of the operand. -/
theorem sees_side (hu : s.atWork u) {one : Bool} {n r j : Nat} {a first : List Val} {f : List Val → M β}
    (hd : s.readable (w.dsc n) (w.slot n)) (hn : dRows (w.dsc n) = if one then 1 else r) (hj : j < r) (ha : one = true → a = first)
    (hf : Sees u (f (if one then first else u.valsOf w n j)) v R) :
    Sees u (if one = true then pure a >>= f else vRead w n j >>= f) v R := by
  refine sees_choice (v := u) (Q := (· = if one then first else u.valsOf w n j)) (fun h => ?_) (fun h => ?_) fun b hb => hb ▸ hf
  · exact sees_pure (by rw [ha h, if_pos h])
  · rw [h] at hn ⊢
    exact sees_vRead hu hd (by rw [hn]; exact hj)

end

/-! ## Elementwise words (R313) -/

theorem elementwise_vBin {mk : Hdr → VBinOp → Instr} {f : Val → Val → Val}
    (he : ∀ h o, engineWord (mk h o) = some (vBinWord h o fun a b => once (f a b))) :
    ElementwiseV mk (fun h o => vBinWord h o fun a b => once (f a b)) f := by
  refine rowsV_of he (fun _ _ => rfl) (fun _ => fields_three _ _ _) (fun _ _ _ => rfl) fun s s1 o x start => ?_
  obtain ⟨shapes, -⟩ := BitVec.or_eq_zero_iff.1 (start.check false)
  obtain ⟨shape1, shape2⟩ := BitVec.or_eq_zero_iff.1 shapes
  have rows1 := (rows_of_shapeBad (.inr (.inl rfl)) shape1).1
  have rows2 := rows_of_sideShape (.inr (.inr (.inl rfl))) shape2
  refine sees_oneSide start.work (start.operand 2) rows2 fun one hone => ?_
  refine sees_vRows start.work start.resume (start.operand 0) fun i hi u b hu => ?_
  refine sees_bind (sees_vRead hu (start.operand 1) (lt_of_lt_of_eq hi rows1.symm)) fun a ha => ?_
  rw [ha]
  exact sees_side hu (start.operand 2) rows2 hi hone (sees_pure rfl)

theorem elementwise_vUn {mk : Hdr → D2Conv → Instr} {f : Val → Val} (he : ∀ h o, engineWord (mk h o) = some (vUnWord h o f)) :
    UnaryV mk (fun h o => vUnWord h o f) f := by
  refine rowsV_of he (fun _ _ => rfl) (fun _ => fields_two _ _) (fun _ _ _ => rfl) fun s s1 o x start => ?_
  have rows1 := (rows_of_shapeBad (.inr (.inl rfl)) (BitVec.or_eq_zero_iff.1 (start.check false)).1).1
  refine sees_vRows start.work start.resume (start.operand 0) fun i hi u b hu => ?_
  refine sees_bind (sees_vRead hu (start.operand 1) (lt_of_lt_of_eq hi rows1.symm)) fun a ha => sees_pure ?_
  rw [ha]

/-- Settles O28: every elementwise word writes rows made from its sources' rows, from one lemma for two sources and one for one. -/
theorem elementwiseResults : Obligations.ElementwiseResults := by
  unfold Obligations.ElementwiseResults
  exact ⟨elementwise_vBin fun _ _ => rfl, elementwise_vBin fun _ _ => rfl, elementwise_vBin fun _ _ => rfl,
    elementwise_vBin fun _ _ => rfl, elementwise_vBin fun _ _ => rfl, elementwise_vUn fun _ _ => rfl, elementwise_vUn fun _ _ => rfl,
    elementwise_vUn fun _ _ => rfl, elementwise_vUn fun _ _ => rfl, elementwise_vUn fun _ _ => rfl, elementwise_vUn fun _ _ => rfl,
    elementwise_vUn fun _ _ => rfl, elementwise_vUn fun _ _ => rfl⟩

end Sys2Proof.Machine

/-! The vector words that are no elementwise words (spec 17 R313 to R319): each from what it reads of its rows. -/

namespace Sys2Proof.Machine

/-! ## VFMA (R313) -/

theorem rows_vfma : RowsV .vfma vfmaWord (·.pass) (·.rnd) (·.sat) (fun o w s1 u i =>
    ((u.valsOf w 1 i).zip ((if o.br then s1.valsOf w 2 0 else u.valsOf w 2 i).zip
      (if o.bc then s1.valsOf w 3 0 else u.valsOf w 3 i))).map fun e => once ((e.1.mul e.2.1).add false e.2.2)) := by
  refine rowsV_of (fun _ _ => rfl) (fun _ _ => rfl) (fun _ => fields_four _ _ _ _) (fun _ _ _ => rfl) fun s s1 o x start => ?_
  obtain ⟨shapes, -⟩ := BitVec.or_eq_zero_iff.1 (start.check false)
  obtain ⟨shapes, shape3⟩ := BitVec.or_eq_zero_iff.1 shapes
  obtain ⟨shape1, shape2⟩ := BitVec.or_eq_zero_iff.1 shapes
  have rows1 := (rows_of_shapeBad (.inr (.inl rfl)) shape1).1
  have rows2 := rows_of_sideShape (.inr (.inr (.inl rfl))) shape2
  have rows3 := rows_of_sideShape (.inr (.inr (.inr rfl))) shape3
  refine sees_oneSide start.work (start.operand 2) rows2 fun one hone => sees_oneSide start.work (start.operand 3) rows3 fun two htwo => ?_
  refine sees_vRows start.work start.resume (start.operand 0) fun i hi u b hu => ?_
  refine sees_bind (sees_vRead hu (start.operand 1) (lt_of_lt_of_eq hi rows1.symm)) fun a ha => ?_
  rw [ha]
  exact sees_side hu (start.operand 2) rows2 hi hone (sees_side hu (start.operand 3) rows3 hi htwo (sees_pure rfl))

/-! ## Conversions (R314) -/

/-- A word at its start has no row of its destination written. -/
theorem rowsBefore_start {s : State} {c : CoreId} {d : Dsc} {slot : Nat} (h : ∀ j < dRows d, 0 < s.rowBytes c d slot j) :
    s.rowsBefore c d slot 0 = 0 := by
  have none : ∀ (l : List Nat) (n : Nat), (∀ j ∈ l, 0 < s.rowBytes c d slot j) →
      (l.foldl (fun (x : Nat × Nat) i =>
        let at1 := x.2 + s.rowBytes c d slot i
        (if at1 ≤ 0 then i + 1 else x.1, at1)) (0, n)).1 = 0 := by
    intro l
    induction l with
    | nil => exact fun _ _ => rfl
    | cons j l ih =>
      intro n hl
      have first := hl j List.mem_cons_self
      rw [List.foldl_cons]
      simp only
      rw [if_neg (by omega)]
      exact ih _ fun i hi => hl i (List.mem_cons_of_mem j hi)
  exact none _ 0 fun j hj => h j (List.mem_range.1 hj)

theorem rowBytes_pos {s u t : State} (hu : s.atWork u) (ht : t.sawMore u) {d : Dsc} {slot j : Nat} (hd : s.readable d slot) (hj : j < dRows d) :
    0 < t.rowBytes s.cur d slot j := by
  obtain ⟨f, hf, -⟩ := hd.rows j hj
  unfold State.rowBytes
  rw [rowEnc_sawMore ht, rowEnc_onchip hu.chip]
  simp only [hf]
  exact memBytes_pos hf (Nat.succ_pos _)

theorem rows_vConv {mk : Hdr → D2Conv → Instr} {srcOk dstOk : Fmt → Bool}
    (he : ∀ h o, engineWord (mk h o) = some (vConvWord h o srcOk dstOk)) :
    RowsV mk (fun h o => vConvWord h o srcOk dstOk) (·.pass) (·.rnd) (·.sat) movedVals := by
  refine rowsV_of he (fun _ _ => rfl) (fun _ => fields_two _ _) (fun _ _ _ => rfl) fun s s1 o x start => ?_
  obtain ⟨checks, -⟩ := BitVec.or_eq_zero_iff.1 (start.check false)
  obtain ⟨checks, -⟩ := BitVec.or_eq_zero_iff.1 checks
  obtain ⟨checks, -⟩ := BitVec.or_eq_zero_iff.1 checks
  obtain ⟨size, shape⟩ := BitVec.or_eq_zero_iff.1 checks
  by_cases whole : o.pass.isSome = true ∨ dCols (x.dsc 0) = dCols (x.dsc 1)
  · have rows1 : dRows (x.dsc 1) = dRows (x.dsc 0) := by
      obtain pass | cols := whole
      · rw [if_pos pass] at shape
        exact (rows_of_shapeBad (.inr (.inl rfl)) shape).1
      · have equal : dRows (x.dsc 0) * dCols (x.dsc 0) = dRows (x.dsc 1) * dCols (x.dsc 1) :=
          bne_eq_false_iff_eq.1 (false_of_descField (.inr (.inl rfl)) size)
        rw [cols] at equal
        exact (Nat.eq_of_mul_eq_mul_right (Nat.succ_pos _) equal).symm
    have vals : movedVals o x s1 = fun u i => u.valsOf x 1 i := by
      funext u i
      unfold movedVals
      rw [if_pos whole]
    have now : (o.pass.isSome || decide (dCols (x.dsc 0) = dCols (x.dsc 1))) = true := by simpa using whole
    simp only [now, if_true, vals]
    exact sees_vRows start.work start.resume (start.operand 0) fun i hi u b hu =>
      sees_vRead hu (start.operand 1) (lt_of_lt_of_eq hi rows1.symm)
  · have vals : movedVals o x s1 = fun _ i => (cutRows (dCols (x.dsc 0)) (dRows (x.dsc 0))
        (tabulate (dRows (x.dsc 1)) fun j => s1.valsOf x 1 j).flatten).getD i [] := by
      funext u i
      unfold movedVals
      rw [if_neg whole]
    have later : ¬ (o.pass.isSome || decide (dCols (x.dsc 0) = dCols (x.dsc 1))) = true := by simpa using whole
    simp only [if_neg later, vals]
    refine sees_state fun t ht => ?_
    have none : t.rowsBefore t.cur (x.dsc 0) (x.slot 0) x.resume = 0 := by
      rw [start.resume, cur_sawMore ht, start.work.chip.cur]
      exact rowsBefore_start fun j hj => rowBytes_pos start.work ht (start.operand 0) hj
    simp only [none, Nat.zero_mul, Nat.zero_div, Nat.not_lt_zero, if_false]
    refine sees_bind (sees_mapM (g := fun j => s1.valsOf x 1 j) _ fun j hj =>
      sees_vRead start.work (start.operand 1) (List.mem_range.1 hj)) fun rows hrows => ?_
    rw [hrows]
    exact sees_vRows start.work start.resume (start.operand 0) fun i hi u b hu => sees_pure rfl

/-! ## Reductions (R315) -/

theorem rows_vReduce {mk : Hdr → D2Conv → Instr} {op : Val → Val → Val} {id : Val}
    (he : ∀ h o, engineWord (mk h o) = some (vReduceWord h o op id)) :
    RowsV mk (fun h o => vReduceWord h o op id) (·.pass) (·.rnd) (·.sat) (fun _ w _ u i => [rowReduce op id (u.valsOf w 1 i)]) := by
  refine rowsV_of he (fun _ _ => rfl) (fun _ => fields_two _ _) (fun _ _ _ => rfl) fun s s1 o x start => ?_
  obtain ⟨shapes, -⟩ := BitVec.or_eq_zero_iff.1 (start.check false)
  have rows1 := false_of_descField (.inr (.inl rfl)) (BitVec.or_eq_zero_iff.1 shapes).2
  refine sees_vRows start.work start.resume (start.operand 0) fun i hi u b hu => ?_
  refine sees_bind (sees_vRead hu (start.operand 1) (lt_of_lt_of_eq hi (bne_eq_false_iff_eq.1 rows1).symm)) fun a ha => sees_pure ?_
  rw [ha]

/-! ## Layout (R316) -/

theorem rows_vbcast : RowsV .vbcast vbcastWord (·.pass) (·.rnd) (·.sat) (fun o w s1 u i =>
    if o.col then List.replicate (dCols (w.dsc 0)) ((u.valsOf w 1 i).headD .nan) else s1.valsOf w 1 0) := by
  refine rowsV_of (fun _ _ => rfl) (fun _ _ => rfl) (fun _ => fields_two _ _) (fun _ _ _ => rfl) fun s s1 o x start => ?_
  have shape := false_of_descField (.inr (.inl rfl)) (BitVec.or_eq_zero_iff.1 (start.check false)).1
  refine sees_choice (v := s1) (Q := fun one => o.col = false → one = s1.valsOf x 1 0) (fun hc => sees_pure fun h => ?_) (fun hc => ?_)
    fun one hone => ?_
  · rw [hc] at h
    cases h
  · have row : dRows (x.dsc 1) = 1 := by
      rw [hc, if_neg Bool.false_ne_true] at shape
      exact bne_eq_false_iff_eq.1 (Bool.or_eq_false_iff.1 shape).1
    exact sees_weaken (sees_vRead start.work (start.operand 1) (by rw [row]; exact Nat.one_pos)) fun _ h _ => h
  refine sees_vRows start.work start.resume (start.operand 0) fun i hi u b hu => ?_
  cases hc : o.col with
  | false =>
    rw [if_neg Bool.false_ne_true, if_neg Bool.false_ne_true]
    exact sees_pure (hone hc)
  | true =>
    have rows : dRows (x.dsc 1) = dRows (x.dsc 0) := by
      rw [hc, if_pos rfl] at shape
      exact bne_eq_false_iff_eq.1 (Bool.or_eq_false_iff.1 shape).1
    rw [if_pos rfl, if_pos rfl]
    refine sees_bind (sees_vRead hu (start.operand 1) (lt_of_lt_of_eq hi rows.symm)) fun a ha => sees_pure ?_
    rw [ha]

theorem rows_vtrn : RowsV .vtrn vtrnWord (fun _ => none) (·.rnd) (·.sat) (fun _ w s1 _ n =>
    (tabulate (dRows (w.dsc 1)) fun j => s1.valsOf w 1 j).map fun r => r.getD n .nan) := by
  refine rowsV_of (fun _ _ => rfl) (fun _ _ => rfl) (fun _ => fields_two _ _) (fun _ _ _ => rfl) fun s s1 o x start => ?_
  refine sees_bind (sees_mapM (g := fun j => s1.valsOf x 1 j) _ fun j hj =>
    sees_vRead start.work (start.operand 1) (List.mem_range.1 hj)) fun rows hrows => ?_
  refine sees_vRows start.work start.resume (start.operand 0) fun i hi u b hu => sees_pure ?_
  rw [hrows]
  rfl

/-! ## The epilogue (R317) -/

theorem rows_vepi : RowsV .vepi vepiWord (·.pass) (·.rnd) (·.sat) (fun o w s1 u i =>
    (if o.bias.isSome then ((u.valsOf w 1 i).zip (s1.valsOf w 2 0)).map fun e => once (e.1.add false e.2)
      else u.valsOf w 1 i).map (epiAct o.fn)) := by
  refine rowsV_of (fun _ _ => rfl) (fun _ _ => rfl) (fun o => ?_) (fun _ _ _ => rfl) fun s s1 o x start => ?_
  · unfold vepiOps
    cases o.bias with
    | none => exact fields_two _ _
    | some d => exact fields_three _ _ _
  obtain ⟨checks, -⟩ := BitVec.or_eq_zero_iff.1 (start.check false)
  obtain ⟨checks, bias⟩ := BitVec.or_eq_zero_iff.1 checks
  have rows1 := (rows_of_shapeBad (.inr (.inl rfl)) (BitVec.or_eq_zero_iff.1 checks).2).1
  refine sees_choice (v := s1) (Q := fun a => o.bias.isSome = true → a = s1.valsOf x 2 0) (fun hb => ?_) (fun hb => sees_pure fun h => ?_)
    fun a ha => ?_
  · have row : dRows (x.dsc 2) = 1 := by
      have := false_of_descField (.inr (.inr (.inl rfl))) bias
      rw [hb, Bool.true_and] at this
      exact bne_eq_false_iff_eq.1 (Bool.or_eq_false_iff.1 this).1
    have third : 2 < (vepiOps o).length := by
      obtain ⟨d, hd⟩ := Option.isSome_iff_exists.1 hb
      simp [vepiOps, hd]
    exact sees_weaken (sees_vRead start.work (start.operand 2 third) (by rw [row]; exact Nat.one_pos)) fun _ h _ => h
  · rw [hb] at h
    cases h
  have two : 1 < (vepiOps o).length := by simp [vepiOps]
  refine sees_vRows start.work start.resume (start.operand 0 (Nat.lt_of_succ_lt two)) fun i hi u b hu => ?_
  refine sees_bind (sees_vRead hu (start.operand 1 two) (lt_of_lt_of_eq hi rows1.symm)) fun y hy => sees_pure ?_
  rw [hy]
  split
  · rename_i hb
    rw [ha hb]
  · rfl

/-! ## VCSUM (R103, R315) -/

theorem sees_colSums {s u : State} {w : Issued} (hu : s.atWork u) (hd : s.readable (w.dsc 1) (w.slot 1)) (p : Pass) (b : Nat) :
    Sees u (colSums w p b) u (· = u.columnSums w p b) := by
  refine sees_state fun t ht => ?_
  unfold State.columnSums
  simp only
  rw [cur_sawMore ht, hu.chip.cur]
  refine sees_foldl _ (fun i hi acc => sees_state fun t ht => ?_) _
  rw [rowBlock_sawMore ht, rowParked_sawMore ht]
  by_cases out : (p.isSome = true ∧ (u.core s.cur).rowBlock p i ≠ b) ∨ (u.core s.cur).rowParked p i = true
  · rw [if_pos (by simpa using out), if_pos out]
    exact sees_pure rfl
  · rw [if_neg (by simpa using out), if_neg out]
    refine sees_bind (sees_vRead hu hd (List.mem_range.1 hi)) fun a ha => sees_pure ?_
    rw [ha]

theorem rows_vcsum {s s1 : State} {h : Hdr} {o : D2Conv} {w : Issued} (hi : s.issueE (.vcsum h o) (vcsumWord h o) = some (w, s1))
    (ha : s.allClean = true) (hl : s.lineOps ≠ some 0) (hr : s1.noRaw w) :
    let b := (s1.core s.cur).blocksOf o.pass (dRows (w.dsc 1))
    ∃ t, IssuesTo (.vcsum h o) s .v { w with deferred := bobEnds .v [dst0 o.d0, src1 o.d1] w.dscs } t ∧
      t.sawMore (s1.convRows w .v b.2 o.rnd o.sat
        (fun u j => o.pass.isSome && (u.core s.cur).rbtParked (b.1 + j)) fun u j => u.columnSums w o.pass (b.1 + j)) := by
  refine vector_result (v := fun w =>
    let b := (s1.core s.cur).blocksOf o.pass (dRows (w.dsc 1))
    s1.convRows w .v b.2 o.rnd o.sat (fun u j => o.pass.isSome && (u.core s.cur).rbtParked (b.1 + j))
      fun u j => u.columnSums w o.pass (b.1 + j)) rfl (fields_two _ _) hi ha hl hr rfl fun x start => ?_
  have rows : dRows (x.dsc 0) = ((s1.core s.cur).blocksOf o.pass (dRows (x.dsc 1))).2 := by
    have shape := false_of_descField (.inl rfl) (BitVec.or_eq_zero_iff.1 (start.check false)).1
    rw [start.core]
    exact bne_eq_false_iff_eq.1 (Bool.or_eq_false_iff.1 shape).1
  refine sees_state fun t ht => ?_
  unfold State.convRows
  simp only
  rw [cur_sawMore ht, start.work.chip.cur, blocksOf_sawMore ht]
  refine sees_bind (sees_engMode _ _) fun mode hm => ?_
  rw [hm]
  refine sees_bind (sees_copyRows (s := s) (fun u i hu => ?_) (fun j hj u q hu hq => ?_) start.work start.resume)
    fun _ _ => sees_pure trivial
  · split
    · exact hu
    · exact atWork_putVals hu _ _ _ _ _ _ _ _
  · refine sees_state fun t ht => sees_oneRow hq (sees_state fun t ht => sees_pure ?_) (sees_colSums hu (start.operand 1) _ _)
      fun vs hv => ?_
    · rw [rbtParked_sawMore ht]
    · rw [hv]
      exact sees_writeVals hu _ _ _ _ _ (start.operand 0) (lt_of_lt_of_eq hj rows.symm) hq

/-! ## VTAGSEL (R319) -/

theorem blockOf_le (k : Core) (r : Nat) : k.blockOf r ≤ k.hdrBlocks := by
  unfold Core.blockOf
  cases h : List.find? _ (List.range (min (k.hdrBlocks + 1) 32)) with
  | none => exact Nat.zero_le _
  | some b =>
    have := List.mem_range.1 (List.mem_of_find?_eq_some h)
    rw [Option.getD_some]
    omega

theorem rowBlock_le (k : Core) (p : Pass) (i : Nat) : k.rowBlock p i ≤ k.hdrBlocks := by
  cases p with
  | none => exact Nat.zero_le _
  | some r => exact blockOf_le k _

theorem rows_vtagsel : RowsV .vtagsel vtagselWord (·.pass) (·.rnd) (·.sat) (fun o w s1 u i =>
    u.valsOf w 1 ((s1.core s1.cur).rowBlock o.pass i)) := by
  refine rowsV_of (fun _ _ => rfl) (fun _ _ => rfl) (fun _ => fields_two _ _) (fun _ _ _ => rfl) fun s s1 o x start => ?_
  have rows : (s1.core s.cur).hdrBlocks < dRows (x.dsc 1) := by
    have shape := false_of_descField (.inr (.inl rfl)) (BitVec.or_eq_zero_iff.1 (start.check false)).1
    have := of_decide_eq_false (Bool.or_eq_false_iff.1 shape).1
    rw [start.core]
    exact Nat.lt_of_not_le fun h => this (Nat.lt_succ_of_le h)
  refine sees_state fun t ht => ?_
  unfold State.eachRow State.convRows
  simp only
  rw [cur_sawMore ht, start.work.chip.cur]
  refine sees_bind (sees_engMode _ _) fun mode hm => ?_
  rw [hm]
  refine sees_bind (sees_copyRows (s := s) (fun u i hu => ?_) (fun i hi u q hu hq => ?_) start.work start.resume)
    fun _ _ => sees_pure trivial
  · split
    · exact hu
    · exact atWork_putVals hu _ _ _ _ _ _ _ _
  · refine sees_state fun t' ht' => ?_
    simp only [skipRow_start hq, Bool.false_eq_true, if_false]
    refine sees_bind (sees_parkedNow _ _ _) fun k hk => ?_
    cases k with
    | true =>
      rw [if_pos rfl, if_pos hk.symm]
      exact sees_pure hq
    | false =>
      rw [if_neg Bool.false_ne_true, rowBlock_sawMore ht]
      refine sees_bind (sees_atPlace q (sees_vRead hu (start.operand 1) (Nat.lt_of_le_of_lt (rowBlock_le _ _ _) rows))) fun ys hys => ?_
      refine sees_oneRow (Q := (· = u.valsOf x 1 ((s1.core s.cur).rowBlock o.pass i))) hq (sees_parkedNow _ _ _) (sees_pure hys)
        fun vs hv => ?_
      rw [hv]
      exact sees_writeVals hu _ _ _ _ _ (start.operand 0) hi hq

/-- Settles O29: each word from the lemma of its body. -/
theorem vectorRowResults : Obligations.VectorRowResults := by
  unfold Obligations.VectorRowResults
  exact ⟨rows_vfma, rows_vConv fun _ _ => rfl, rows_vConv fun _ _ => rfl, rows_vConv fun _ _ => rfl, rows_vReduce fun _ _ => rfl,
    rows_vReduce fun _ _ => rfl, fun _ _ _ _ _ hi ha hl hr => rows_vcsum hi ha hl hr, rows_vbcast, rows_vtrn, rows_vepi, rows_vtagsel,
    fun _ => ⟨rfl, rfl, rfl, rfl, rfl⟩⟩

end Sys2Proof.Machine

/-! Copies between two places of memory (spec 18 R327): what a copy's result rests on, and a copy that falls short of it. -/

namespace Sys2Proof.Machine

/-! ## The hypotheses of a copy's result as values -/

/-- An optional value that is there and meets `p`. -/
def someAnd {α : Type} (o : Option α) (p : α → Bool) : Bool := o.elim false p

theorem someAnd_eq_true {α : Type} {o : Option α} {p : α → Bool} : someAnd o p = true ↔ ∃ a, o = some a ∧ p a = true := by
  cases o <;> simp [someAnd]

/-- An action that ends with a value, its state meeting `p`. -/
def thenAnd {α : Type} (r : EStateM.Result Stop State α) (p : α → State → Bool) : Bool :=
  match r with
  | .ok a t => p a t
  | .error _ _ => false

theorem thenAnd_eq_true {α : Type} {r : EStateM.Result Stop State α} {p : α → State → Bool} :
    thenAnd r p = true ↔ ∃ a t, r = .ok a t ∧ p a t = true := by
  cases r <;> simp [thenAnd]

/-- `State.resident` byte by byte. -/
def State.isResident (s : State) (p la n : Nat) (write : Bool) : Bool :=
  (List.range n).all fun j =>
    let a := la + j
    decide (regionOf a ≤ 1) && someAnd (mapGet s.mem.lines (a / 64)) fun t => decide (t.failed = false) && decide (t.err = 0) &&
      (write || decide (p = homePanel (a / 64)) || someAnd (mapGet s.mem.replicas (replicaKey p (a / 64))) fun r => decide (r.err = 0)) &&
      (!write || (t.w && decide ((s.ftOf (homePanel (a / 64))).toNat + 64 < t.exp.toNat) &&
        decide ((vget s.mem.ctls (xlatCtl (a / 64))).uncached = false) && decide (s.lockedAt a = false)))

theorem resident_of_isResident {s : State} {p la n : Nat} {write : Bool} (h : s.isResident p la n write = true) :
    s.resident p la n write := by
  intro a hl hn
  have at0 := List.all_eq_true.1 h (a - la) (List.mem_range.2 (by omega))
  rw [Nat.add_sub_cancel' hl] at at0
  simp only [Bool.and_eq_true, someAnd_eq_true, decide_eq_true_eq] at at0
  obtain ⟨region, t, line, ⟨⟨good, err⟩, seen⟩, held⟩ := at0
  refine ⟨region, t, line, good, err, ?_, fun hw => ?_⟩
  · simpa only [Bool.or_eq_true, decide_eq_true_eq, someAnd_eq_true, or_assoc] using seen
  · simpa only [hw, Bool.not_true, Bool.false_or, Bool.and_eq_true, decide_eq_true_eq, and_assoc] using held

/-- `State.rowThere` as a value. -/
def State.isThere (s : State) (c : CoreId) (d : Dsc) (j b first : Nat) (write : Bool) : Bool :=
  someAnd (Fmt.parse (vget (s.core c).fmtSlot (dFmt d))) fun f =>
    someAnd (s.lineAddr c d j b first (f.memBytes (dCols d)) write) fun la => s.isResident (panelOf c) la (f.memBytes (dCols d)) write

theorem rowHere_of_isThere {s : State} {c : CoreId} {d : Dsc} {j b first : Nat} {write : Bool} (h : s.isThere c d j b first write = true) :
    s.rowHere c d j b first write := by
  obtain ⟨f, hf, h⟩ := someAnd_eq_true.1 h
  obtain ⟨la, hla, h⟩ := someAnd_eq_true.1 h
  exact .inr (.inr ⟨f, la, hf, hla, resident_of_isResident h⟩)

/-- `State.apart` of two rows in memory as a value. -/
def State.isApart (s : State) (c : CoreId) (x y : RowAt) (b first b' first' : Nat) : Bool :=
  someAnd (Fmt.parse (vget (s.core c).fmtSlot (dFmt x.d))) fun f => someAnd (Fmt.parse (vget (s.core c).fmtSlot (dFmt y.d))) fun g =>
    someAnd (s.lineAddr c x.d x.row b first (f.memBytes (dCols x.d)) false) fun la =>
      someAnd (s.lineAddr c y.d y.row b' first' (g.memBytes (dCols y.d)) true) fun lb =>
        decide ((la + f.memBytes (dCols x.d) - 1) / 64 < lb / 64 ∨ (lb + g.memBytes (dCols y.d) - 1) / 64 < la / 64)

theorem apart_of_isApart {s : State} {c : CoreId} {x y : RowAt} {b first b' first' : Nat} (h : s.isApart c x y b first b' first' = true) :
    s.apart c x y b first b' first' := by
  obtain ⟨f, hf, h⟩ := someAnd_eq_true.1 h
  obtain ⟨g, hg, h⟩ := someAnd_eq_true.1 h
  obtain ⟨la, hla, h⟩ := someAnd_eq_true.1 h
  obtain ⟨lb, hlb, h⟩ := someAnd_eq_true.1 h
  intro f' g' la' lb' hf' hg' hla' hlb'
  cases hf.symm.trans hf'
  cases hg.symm.trans hg'
  cases hla.symm.trans hla'
  cases hlb.symm.trans hlb'
  exact of_decide_eq_true h

/-- The rows of d1, converted one after another into those of d0: what `CopyResult` says a copy under no PT leaves. -/
def State.copied (s : State) (c : CoreId) (o : D2Conv) (w : Issued) : State :=
  let k := s.core c
  (List.range (dRows (w.dsc 0))).foldl (fun u i =>
    if k.rowParked o.pass i || noAdapter k w.dscs (k.rowBlock o.pass i) then u
    else u.moveRow u c (modeOf o.rnd k.round) o.sat (rowAt (w.dsc 1) (w.slot 1) i) (rowAt (w.dsc 0) (w.slot 0) i)
      (k.rowBlock o.pass i) (k.firstAt o.pass i)) s

/-- A copy between two places of memory issues, and each row that it moves can be read and written, apart from every other. -/
def State.copies (s : State) (i : Instr) (e : EWord) (o : D2Conv) (p : Issued → State → Bool) : Bool :=
  s.allClean && decide (s.lineOps = none) && someAnd (s.issueE i e) fun x =>
    thenAnd (declareMarks s.cur (x.1.dsc 0) x.2) fun _ t =>
      let k := t.core s.cur
      let b := k.rowBlock o.pass
      let n := k.firstAt o.pass
      let rows := List.range (dRows (x.1.dsc 0))
      !(vget t.tree.engines 0).en && p x.1 t && rows.all fun i =>
        t.isThere s.cur (x.1.dsc 1) i (b i) (n i) false && t.isThere s.cur (x.1.dsc 0) i (b i) (n i) true &&
          rows.all fun j => t.isApart s.cur (rowAt (x.1.dsc 1) (x.1.slot 1) i) (rowAt (x.1.dsc 0) (x.1.slot 0) j) (b i) (n i) (b j) (n j)

/-- What a copy's result says of such a copy. -/
theorem stored_of_copies {mk : Hdr → D2Conv → Instr} {e : Hdr → D2Conv → EWord} (hr : CopyResult mk e) {s : State} {h : Hdr} {o : D2Conv}
    {p : Issued → State → Bool} (hs : s.copies (mk h o) (e h o) o p = true) :
    ∃ w u w' t, p w u = true ∧ IssuesTo (mk h o) s .c w' t ∧ t.storedMore (u.copied s.cur o w) := by
  simp only [State.copies, Bool.and_eq_true, decide_eq_true_eq] at hs
  obtain ⟨⟨clean, ops⟩, hs⟩ := hs
  obtain ⟨⟨w, s1⟩, hi, hs⟩ := someAnd_eq_true.1 hs
  obtain ⟨_, u, hd, hs⟩ := thenAnd_eq_true.1 hs
  simp only [Bool.and_eq_true, Bool.not_eq_true'] at hs
  obtain ⟨⟨tree, hp⟩, rows⟩ := hs
  obtain ⟨t, ht, stored⟩ := hr s s1 u h o w hi clean ops hd fun i hi _ => by
    have row := List.all_eq_true.1 rows i (List.mem_range.2 hi)
    simp only [Bool.and_eq_true] at row
    obtain ⟨⟨source, target⟩, apart⟩ := row
    exact ⟨rowHere_of_isThere source, rowHere_of_isThere target, fun _ _ _ _ => .inl tree,
      fun j hj => apart_of_isApart (List.all_eq_true.1 apart j (List.mem_range.2 hj))⟩
  exact ⟨w, u, _, t, hp, ht, stored⟩

/-! ## L2 at the end of a word -/

theorem l2_endE (s : State) (c : CoreId) (t : Strm) (w : Issued) : (s.endE c t w).mem.l2 = s.mem.l2 := by
  have undrain : (s.undrain c t).mem.l2 = s.mem.l2 := by
    unfold State.undrain State.undrainAt
    split <;> rfl
  unfold State.endE State.endLate
  simp only
  split
  · exact undrain
  · exact undrain

/-! ## A source in a replica that a write before it brings up to date

Panel 1 has written a byte of line 129 and then one of line 192, and panel 0 has applied neither update. A core of panel 0 copies two
rows from lines 128 and 129 to lines 192 and 193. Its write of row 0 to line 192 takes its place after panel 1's write there, for which
panel 0 applies both updates (R168). So it then reads row 1 with panel 1's byte, where the replica that stood when the word issued
gives 0. -/

/-- Panel 1 writes 1 to the first byte of a line. -/
def Mem.wroteFirst (m : Mem) (line : Nat) : Mem :=
  let m := m.order 1 (homePanel line) line
  { m with l2 := setBytes m.l2 (64 * line) [1] }.tell 1 (homePanel line) line 1

/-- Two rows of four BF16 elements in memory, one line each. -/
def lineRows (line : Nat) : Dsc :=
  BitVec.ofNat 128 (4 * 2 ^ 124 + 1 * 2 ^ 120 + 1 * 2 ^ 111 + 3 * 2 ^ 102 + 64 * line * 2 ^ 46 + 64 * 2 ^ 26)

/-- The state in which the copy issues. -/
def staleSource : State :=
  let s := State.reset.onCore 0 fun k => { k with
    fmtSlot := vset k.fmtSlot 1 0x10000000, rangeSet := [{ w0 := 0xF, w8 := 0xFFFFFFFFFFFFFFFF, w16 := 0, w24 := 0 }]
    c := { k.c with shadow := vset (vset k.c.shadow 0 (lineRows 192)) 1 (lineRows 128) } }
  s.onMem fun m => Mem.wroteFirst (Mem.wroteFirst { m with
    lines := [128, 129, 192, 193].map (·, { dirty := false, w := true, exp := 0x10000, key := 0, owner := 3, failed := false, err := 0 })
    replicas := [128, 129].map (replicaKey 0 ·, { key := 0, owner := 3, err := 0, data := 0 }) } 129) 192

/-- The copy. -/
def staleCopy : D2Conv := { d0 := 0, d1 := 1, pass := none, sat := true, rnd := 0 }

def staleHdr : Hdr := { wait := .none, sig := .none }

theorem staleSource_copies : staleSource.copies (.ccopy staleHdr staleCopy) (ccopyWord staleHdr staleCopy) staleCopy (fun w u =>
    byteAt (u.copied staleSource.cur staleCopy w).mem.l2 12352 == 0) = true := by decide +kernel

theorem staleSource_exec : (match exec (.ccopy staleHdr staleCopy) staleSource with
    | .next t => byteAt t.mem.l2 12352 == 1
    | _ => false) = true := by decide +kernel

/-- Refutes O31: of the copy from `staleSource`, the first byte of the second row is 1, where the statement has the 0 that the replica held
when the word issued. -/
theorem not_copyWords : ¬ Obligations.CopyWords := by
  unfold Obligations.CopyWords
  intro ⟨copy, _⟩
  obtain ⟨w, u, w', t, stale, ht, stored⟩ := stored_of_copies copy staleSource_copies
  have fresh := staleSource_exec
  rw [ht] at fresh
  have same : t.mem.l2 = (u.copied staleSource.cur staleCopy w).mem.l2 := by rw [stored.1]
  simp only [l2_endE, same, beq_iff_eq] at fresh stale
  rw [stale] at fresh
  exact absurd fresh (by decide)

end Sys2Proof.Machine

/-! Matrix words: what holds at their start, the formats of their operands, and the rows of the accumulators that they write
(spec 16 R291 to R294). -/

namespace Sys2Proof.Machine

/-! ## Formats of operands (R86, R291) -/

/-- The banks of an operand of KIND 1 or 2 all have one format. -/
theorem bankFmt_uniform {s : State} {d : Dsc} (hs : inSpad d = true) (hf : dFmt d = 0) (hk : dKind d ≠ 7)
    (hb : s.bankFmtsOk s.cur d = true) {x y : Nat} (hx : x ∈ spanBanks (s.core s.cur) d) (hy : y ∈ spanBanks (s.core s.cur) d) :
    vget (s.core (opCore s.cur d)).bankFmt x = vget (s.core (opCore s.cur d)).bankFmt y := by
  simp only [State.bankFmtsOk, hs, hf, beq_self_eq_true, Bool.and_self, if_true, Bool.and_eq_true, Bool.or_eq_true,
    beq_eq_false_iff_ne.2 hk, Bool.false_eq_true, false_or, List.all_eq_true, List.mem_map, beq_iff_eq] at hb
  exact (hb.2 _ ⟨x, hx, rfl⟩).trans (hb.2 _ ⟨y, hy, rfl⟩).symm

/-- The format of a scratchpad row of any slot is among those that the checks at issue know. -/
theorem rowEnc_mem_encsOf {s : State} {d : Dsc} (ha : inAcc d = false) (hs : inSpad d = true) (hb : s.bankFmtsOk s.cur d = true)
    (slot : Nat) {j : Nat} (hj : j < dRows d) : s.rowEnc s.cur d slot j ∈ s.encsOf true s.cur d := by
  unfold State.encsOf
  by_cases hf : dFmt d = 0
  · have named : (inAcc d || (inSpad d && dFmt d == 0)) = true := by simp [hs, hf]
    rw [if_pos named, if_neg (by decide)]
    have enc : ∀ slot j, s.rowEnc s.cur d slot j =
        vget (s.core (opCore s.cur d)).bankFmt (placeOf (s.core s.cur) d slot j).1 := fun slot j => by
      simp only [State.rowEnc, ha, hs, hf, beq_self_eq_true, Bool.and_self, Bool.false_eq_true, if_false, if_true]
    by_cases hk : dKind d = 7
    · rw [if_pos hk]
      refine List.mem_eraseDups.2 (List.mem_map.2 ⟨j, List.mem_range.2 hj, ?_⟩)
      rw [enc, enc]
      simp only [placeOf, hk, OfNat.ofNat_ne_one, Nat.reduceEqDiff, if_false]
    · rw [if_neg hk, List.mem_singleton, State.opEnc, enc, enc]
      exact bankFmt_uniform hs hf hk hb (placeOf_spans hs slot j hj) (placeOf_spans hs 0 0 (Nat.succ_pos _))
  · have other : ¬ (inAcc d || (inSpad d && dFmt d == 0)) = true := by simp [ha, hf]
    rw [if_neg other]
    simp [State.rowEnc, ha, hf]

/-- Accumulator rows have values. -/
theorem readable_of_inAcc {s : State} {d : Dsc} (h : inAcc d = true) (slot : Nat) : s.readable d slot := by
  refine ⟨.inl h, fun j _ => ?_⟩
  unfold State.rowEnc
  simp only [h, if_true]
  split
  · exact ⟨⟨.int true 32, 0⟩, by decide, nofun⟩
  · exact ⟨⟨.flt fp32F, 0⟩, by decide, nofun⟩

/-- The rows of an operand whose formats the checks know to be of no class 8 have values, in whatever slot. -/
theorem readable_of_fmtAll {s : State} {d : Dsc} {p : Fmt → Bool} (chip : onChip d) (hb : s.bankFmtsOk s.cur d = true)
    (hf : s.fmtAll true s.cur d p = true) (hp : ∀ f, p f = true → f.elem ≠ .raw) (slot : Nat) : s.readable d slot := by
  by_cases ha : inAcc d = true
  · exact readable_of_inAcc ha slot
  · refine ⟨chip, fun j hj => ?_⟩
    have known := List.all_eq_true.1 hf _ (rowEnc_mem_encsOf (by simpa using ha) (chip.resolve_left ha) hb slot hj)
    revert known
    cases h : Fmt.parse (s.rowEnc s.cur d slot j) with
    | none => exact nofun
    | some f => exact fun known => ⟨f, rfl, hp f known⟩

/-- An operand that has passed a check of its kind is of one of the kinds named. -/
theorem kindIn_of_kindBad {n : Nat} (hn : descField n) {d : Dsc} {ks : List Nat} (h : kindBad n d ks = 0) : kindIn d ks = true :=
  (Bool.not_eq_false' _).mp (false_of_descField hn h)

/-- Where every kind named is one of R309, the operand lies on chip. -/
theorem onChip_of_kindBad {s : State} {n : Nat} (hn : descField n) {d : Dsc} {ks : List Nat} (hd : s.dscOk s.cur d = true)
    (kind : kindBad n d ks = 0) (hks : ∀ k ∈ ks, k ∈ [1, 2, 3, 7]) : onChip d :=
  onChip_of_kind hd (List.contains_iff_mem.2 (hks _ (List.contains_iff_mem.1 (kindIn_of_kindBad hn kind))))

/-- An operand of some kinds on chip has rows with values, where its formats have passed a check that leaves class 8 out. -/
theorem readable_checked {s : State} {n : Nat} (hn : descField n) {d : Dsc} {ks : List Nat} {p : Fmt → Bool}
    (hd : s.dscOk s.cur d = true ∧ s.bankFmtsOk s.cur d = true) (kind : kindBad n d ks = 0) (hks : ∀ k ∈ ks, k ∈ [1, 2, 3, 7])
    (fmts : (!s.fmtAll true s.cur d p) = false) (hp : ∀ f, p f = true → f.elem ≠ .raw) (slot : Nat) : s.readable d slot :=
  readable_of_fmtAll (onChip_of_kindBad hn hd.1 kind hks) hd.2 ((Bool.not_eq_false' _).mp fmts) hp slot

/-- The formats that a multiplied operand takes have values. -/
theorem elem_of_matFmt {f : Fmt} (h : matFmt f = true) : f.elem ≠ .raw := by
  intro e
  simp [matFmt, e] at h

/-! ## The start of a matrix word -/

/-- What holds of a matrix word at the start of its effects. -/
structure MStart (s s1 : State) (i : Instr) (e : EWord) (w : Issued) : Prop where
  work : s.atWork s1
  resume : w.resume = 0
  word : w.word = encodeWord i
  dscs : w.dscs = s.latched e
  operand : ∀ n < e.ops.length, s.dscOk s.cur (w.dsc n) = true ∧ s.bankFmtsOk s.cur (w.dsc n) = true
  check : ∀ issue, e.check issue s s.cur w.dscs = 0
  ratio : ∀ q, (vget (s1.core s.cur).metaQ q).ratio = (vget (s.core s.cur).metaQ q).ratio

theorem mStart_of_started {s s1 : State} {i : Instr} {e : EWord} {w : Issued} (hs : Started s i e w) (work : s.atWork s1)
    (ho : ∀ o ∈ e.ops, descField o.at0) (hq : ∀ q, (vget (s1.core s.cur).metaQ q).ratio = (vget (s.core s.cur).metaQ q).ratio) :
    MStart s s1 i e w :=
  ⟨work, hs.resume, hs.word, hs.dscs, fun _ hn => operand_ok hs hn (ho _ (List.getElem_mem hn)), hs.check, hq⟩

/-- What a matrix word takes at issue leaves it at the start of its effects. -/
def MatrixStarts {ω : Type} (mk : Hdr → ω → Instr) (e : Hdr → ω → EWord) : Prop :=
  ∀ (s s1 : State) (h : Hdr) (o : ω) (w : Issued), s.issueE (mk h o) (e h o) = some (w, s1) → s.allClean = true →
    w.fresh ∧ MStart s s1 (mk h o) (e h o) w

section
variable {ω : Type} {mk : Hdr → ω → Instr} {e : Hdr → ω → EWord} {ends : ω → Issued → State → List Deferred}
  {f : ω → Issued → State → State}

theorem matrixStarts_plain (hp : ∀ h o, (e h o).prep = pure) (ho : ∀ h o, ∀ x ∈ (e h o).ops, descField x.at0) : MatrixStarts mk e := by
  intro s s1 h o w hi ha
  obtain ⟨hs, k, rfl, hk⟩ := started_plain (e := e h o) (hp h o) hi
  refine ⟨hs.fresh, mStart_of_started hs (atWork_setCore ha (chipAs_of_issuesTo hk)) (ho h o) fun q => ?_⟩
  rw [core_setCore_same, hk]

/-- A matrix word whose effects end in one state. -/
theorem matrixResult_of (he : ∀ h o, engineWord (mk h o) = some (e h o)) (hm : ∀ h o, (e h o).strm = .m)
    (hl : ∀ h o, (e h o).later = wholeLater) (hs : MatrixStarts mk e)
    (hf : ∀ o w s1, ends o { w with todo := true } s1 = ends o w s1 ∧ f o { w with todo := true } s1 = f o w s1)
    (hb : ∀ s s1 h o w, MStart s s1 (mk h o) (e h o) w →
      Sees s1 ((e h o).body w) (f o w s1) (· = { w with deferred := ends o w s1 })) : MatrixResult mk e ends f := by
  intro s s1 h o w hi ha hn
  obtain ⟨fresh, start⟩ := hs s s1 h o w hi ha
  obtain ⟨sameEnds, same⟩ := hf o w s1
  rw [← hm h o, ← same]
  refine issuesTo_sees (e := e h o) (w' := { w with deferred := ends o w s1 }) (he h o) hi hn (fun _ _ _ => by rw [hl]; rfl) fresh fresh ?_
  have body := hb s s1 h o { w with todo := true } ⟨start.work, start.resume, start.word, start.dscs, start.operand, start.check, start.ratio⟩
  rw [sameEnds] at body
  exact body

end

/-! ## Rows of the accumulators -/

section
variable {s u v : State}

/-- A row that is parked is left as it is. -/
theorem sees_unlessParked {c : CoreId} {p : Pass} {i : Nat} {act : M Unit}
    (h : (u.core c).rowParked p i = false → Sees u act v fun _ => True) :
    Sees u (parkedNow c p i >>= fun k => if k = true then pure () else act)
      (if (u.core c).rowParked p i then u else v) fun _ => True := by
  refine sees_bind (sees_parkedNow c p i) fun k hk => ?_
  rw [← hk]
  cases k with
  | true => exact sees_pure trivial
  | false => exact h hk.symm

theorem sawMore_onCore_self {t : State} (h : t.sawMore u) {c : CoreId} {g : Core → Core} (hg : g (u.core c) = u.core c) :
    t.sawMore (u.onCore c g) := by
  obtain ⟨e, hc⟩ := h
  refine ⟨e, fun d => ?_⟩
  by_cases hd : d = c
  · rw [hd, core_onCore_same, hg]
    exact hc c
  · rw [core_onCore_other _ _ _ _ hd]
    exact hc d

theorem chipAs_accProducts (w : Issued) (ints : Bool) (i : Nat) (pairs : Nat → List (Val × Val)) (k : Core) :
    k.chipAs (accProducts w ints i pairs k) := (chipAs_setAccRow _ _ _).trans (chipAs_pm _ _ _)

/-- A row of d0 that is not parked takes the products of its columns (R294). -/
theorem sees_multiplyRow (hu : s.atWork u) (w : Issued) {p : Pass} (ints : Bool) {i : Nat} (pairs : Nat → List (Val × Val))
    (live : (u.core s.cur).rowParked p i = false) :
    Sees u (multiplyRow s.cur w p ints i pairs) (u.onCore s.cur (accProducts w ints i pairs)) fun _ => True := by
  refine sees_state fun t ht => sees_bind (sees_ownRow _ _ _ _ _ (sees_readAccRow hu _ _ _)) fun r hr => ?_
  obtain ⟨old, rfl, hold⟩ := hr
  refine sees_bind (sees_parkedNow _ _ _) fun k hk => ?_
  rw [hk, live, if_neg Bool.false_ne_true]
  have row : (tabulate (dCols (w.dsc 0)) fun n => accUpdate ints (old.getD n 0) (pairs n)) =
      tabulate (dCols (w.dsc 0)) fun n => accUpdate ints ((u.core s.cur).accAt (accPlace (w.dsc 0) i) n) (pairs n) := by
    refine List.map_congr_left fun n hn => ?_
    rw [hold]
    simp [Core.accRow, tabulate, List.getD, List.mem_range.1 hn]
  rw [row]
  exact sees_onCore _ (unclocked_comp (f := fun k => k.setAccRow _ _) (g := fun k => k.pm 3 1) (unclocked_setAccRow _ _) (unclocked_pm 3 1))

/-- Rows of d0 one after another, but for those parked. -/
theorem sees_rowsOfD0 {w : Issued} {p : Pass} {act : Nat → M Unit} {f : State → Nat → Core → Core} (hu : s.atWork u)
    (hf : ∀ u i (k : Core), k.chipAs (f u i k))
    (h : ∀ i < dRows (w.dsc 0), ∀ u, s.atWork u →
      Sees u (act i) (if (u.core s.cur).rowParked p i then u else u.onCore s.cur (f u i)) fun _ => True) :
    Sees u (forRows (dRows (w.dsc 0)) act) (u.rowsOfD0 w p f) fun _ => True := by
  unfold State.rowsOfD0
  rw [hu.chip.cur]
  refine sees_forRows (s := s) (fun u i hu => ?_) h hu
  split
  · exact hu
  · exact atWork_onCore hu _ (hf u i)

/-! ## The shadow and B (R294) -/

theorem chipAs_takeShadow (d : Dsc) (p : Pass) (k : Core) : k.chipAs (k.takeShadow d p) := ⟨rfl, rfl, rfl, rfl, id⟩

/-- Effects with no fault never need the shadow. -/
theorem sees_shadowed {c : CoreId} {d : Dsc} {p : Pass} {act : M Unit}
    (h : Sees (u.onCore c fun k => k.takeShadow d p) act v fun _ => True) : Sees u (shadowed c d p act) v fun _ => True :=
  sees_bind (sees_onCore c (unclocked_takeShadow d p)) fun _ _ => sees_bind (sees_attempt h) fun _ ⟨_, e, _⟩ => by
    rw [e]
    exact sees_pure trivial

/-- The shadow is no part of what a row reads. -/
theorem rowVals_takeShadow (u : State) (c : CoreId) (e : Dsc) (p : Pass) (d : Dsc) (slot j : Nat) :
    (u.onCore c fun k => k.takeShadow e p).rowVals c d slot j = u.rowVals c d slot j := by
  have core : ∀ x : CoreId, ∃ rows sh,
      (u.onCore c fun k => k.takeShadow e p).core x = { u.core x with accShadowRows := rows, accShadow := sh } := fun x => by
    by_cases hx : x = c
    · rw [hx, core_onCore_same]
      exact ⟨_, _, rfl⟩
    · rw [core_onCore_other _ _ _ _ hx]
      exact ⟨_, _, rfl⟩
  obtain ⟨_, _, own⟩ := core c
  obtain ⟨_, _, store⟩ := core (opCore c d)
  unfold State.rowVals State.rowEnc State.rowOf
  simp only [own, store]
  rfl

theorem colsOfB_takeShadow (u : State) (e : Dsc) (p : Pass) (w : Issued) (b : BSrc) :
    (u.onCore u.cur fun k => k.takeShadow e p).colsOfB w b = u.colsOfB w b := by
  unfold State.colsOfB
  cases b with
  | stage st =>
    show (Option.map Stage.values (vget ((u.onCore u.cur _).core u.cur).stages st.toNat)).getD [] = _
    rw [core_onCore_same]
    rfl
  | desc d => exact List.map_congr_left fun j _ => rowVals_takeShadow u u.cur e p (w.dsc 2) (w.slot 2) j

theorem sees_readB (hu : s.atWork u) {w : Issued} {b : BSrc} (hd : ∀ d, b = .desc d → s.readable (w.dsc 2) (w.slot 2)) :
    Sees u (readB s.cur b w) u (· = u.colsOfB w b) := by
  refine sees_state fun t ht => ?_
  unfold State.colsOfB
  rw [hu.chip.cur]
  cases b with
  | stage st => exact sees_pure (by rw [ht.2 s.cur])
  | desc d => exact sees_mapM _ fun j hj => sees_readVals hu 0 0 (hd d rfl) (List.mem_range.1 hj)

theorem encB_sawMore {t : State} (h : t.sawMore u) (c : CoreId) (b : BSrc) (d : Dsc) : t.encB c b d = u.encB c b d := by
  cases b with
  | stage st =>
    unfold State.encB
    rw [h.2 c]
  | desc x => exact rowEnc_sawMore h c d 0 0

end

/-! ## The operands of the multiplying words (R291, R294) -/

theorem fields_mulOps (a b : Desc) (x : BSrc) : ∀ o ∈ mulOps a b x, descField o.at0 := by
  cases x with
  | stage st => exact fields_two a b
  | desc d => exact fields_three a b d

/-- What the checks of a multiplying word give of A and of B where it is an operand. -/
theorem mulCheck_operands {p : Pass} {b : BSrc} {ratio : State → CoreId → Nat} {s : State} {c : CoreId} {ds : List Dsc}
    (h : mulCheck p b ratio true s c ds = 0) :
    kindBad 32 (ds.getD 1 0) [1, 2] = 0 ∧ opMask 32 (dRows (ds.getD 1 0) != ratio s c * dRows (ds.getD 0 0) ||
      !s.fmtAll true c (ds.getD 1 0) fun f => matFmt f && decide (dCols (ds.getD 1 0) ≤ kStep f.elem.width)) = 0 ∧
    ∀ d, b = .desc d → kindBad 28 (ds.getD 2 0) [1, 2] = 0 ∧
      opMask 28 (dRows (ds.getD 2 0) != dCols (ds.getD 0 0) || dCols (ds.getD 2 0) != dCols (ds.getD 1 0) ||
        !s.fmtAll true c (ds.getD 2 0) fun f => matFmt f && decide (dCols (ds.getD 1 0) ≤ kStep f.elem.width)) = 0 := by
  cases b with
  | desc d =>
    obtain ⟨h, shapeB⟩ := BitVec.or_eq_zero_iff.1 h
    obtain ⟨h, -⟩ := BitVec.or_eq_zero_iff.1 h
    obtain ⟨h, kindB⟩ := BitVec.or_eq_zero_iff.1 h
    obtain ⟨h, -⟩ := BitVec.or_eq_zero_iff.1 h
    obtain ⟨h, shapeA⟩ := BitVec.or_eq_zero_iff.1 h
    exact ⟨(BitVec.or_eq_zero_iff.1 h).2, shapeA, fun _ _ => ⟨kindB, shapeB⟩⟩
  | stage st =>
    obtain ⟨h, -⟩ := BitVec.or_eq_zero_iff.1 h
    obtain ⟨h, -⟩ := BitVec.or_eq_zero_iff.1 h
    obtain ⟨h, -⟩ := BitVec.or_eq_zero_iff.1 h
    obtain ⟨h, shapeA⟩ := BitVec.or_eq_zero_iff.1 h
    exact ⟨(BitVec.or_eq_zero_iff.1 h).2, shapeA, nofun⟩

section
variable {s s1 : State} {i : Instr} {e : EWord} {w : Issued} {p : Pass} {b : BSrc} {ratio : State → CoreId → Nat}

/-- A has a number of rows for each row of d0, all with values. -/
theorem MStart.readable_a (start : MStart s s1 i e w) (ho : 1 < e.ops.length) (h : mulCheck p b ratio true s s.cur w.dscs = 0) :
    dRows (w.dsc 1) = ratio s s.cur * dRows (w.dsc 0) ∧ s.readable (w.dsc 1) (w.slot 1) := by
  obtain ⟨kind, shape, -⟩ := mulCheck_operands h
  obtain ⟨rows, fmts⟩ := Bool.or_eq_false_iff.1 (false_of_descField (.inr (.inl rfl)) shape)
  exact ⟨bne_eq_false_iff_eq.1 rows, readable_checked (.inr (.inl rfl)) (start.operand 1 ho) kind (by decide) fmts
    (fun f hf => elem_of_matFmt (Bool.and_eq_true_iff.1 hf).1) _⟩

/-- B, where it is an operand, has rows with values in every slot. -/
theorem MStart.readable_b (start : MStart s s1 i e w) (h : mulCheck p b ratio true s s.cur w.dscs = 0)
    (d : Desc) (hb : b = .desc d) (ho : 2 < e.ops.length) (slot : Nat) : s.readable (w.dsc 2) slot := by
  obtain ⟨kind, shape⟩ := (mulCheck_operands h).2.2 d hb
  obtain ⟨-, fmts⟩ := Bool.or_eq_false_iff.1 (false_of_descField (.inr (.inr (.inl rfl))) shape)
  exact readable_checked (.inr (.inr (.inl rfl))) (start.operand 2 ho) kind (by decide) fmts
    (fun f hf => elem_of_matFmt (Bool.and_eq_true_iff.1 hf).1) slot

end

end Sys2Proof.Machine

/-! The multiplying words MMA, GMMA and SMMA (spec 16 R294, R299, R300). -/

namespace Sys2Proof.Machine

/-! ## MMA (R294) -/

theorem matrixStarts_mma : MatrixStarts .mma mmaWord := matrixStarts_plain (fun _ _ => rfl) fun _ _ => fields_mulOps _ _ _

/-- B is an operand only of a word that names it. -/
theorem length_mulOps_desc {a b d : Desc} {x : BSrc} (h : x = .desc d) : 2 < (mulOps a b x).length := by simp [mulOps, h]

theorem length_mulOps (a b : Desc) (x : BSrc) : 1 < (mulOps a b x).length := by simp [mulOps]

theorem result_mma : MatrixResult .mma mmaWord (fun o w _ => bobEnds .m (mulOps o.d0 o.d1 o.b) w.dscs) (fun o w s1 =>
    let c := s1.cur
    let ints := onIntPath (s1.opEnc c (w.dsc 1) (w.slot 1)) (s1.encB c o.b (w.dsc 2))
    let bs := s1.colsOfB w o.b
    (s1.onCore c fun k => k.takeShadow (w.dsc 0) o.pass).rowsOfD0 w o.pass fun u i =>
      accProducts w ints i fun n => (u.rowVals c (w.dsc 1) (w.slot 1) i).zip (bs.getD n [])) := by
  refine matrixResult_of (fun _ _ => rfl) (fun _ _ => rfl) (fun _ _ => rfl) matrixStarts_mma (fun _ _ _ => ⟨rfl, rfl⟩)
    fun s s1 h o w start => ?_
  have check : mulCheck o.pass o.b (fun _ _ => 1) true s s.cur w.dscs = 0 := start.check true
  obtain ⟨rows1, readA⟩ := start.readable_a (length_mulOps o.d0 o.d1 o.b) check
  rw [Nat.one_mul] at rows1
  have shadowed := atWork_onCore start.work s.cur (chipAs_takeShadow (w.dsc 0) o.pass)
  refine sees_state fun t ht => ?_
  simp only
  rw [cur_sawMore ht, start.work.chip.cur, State.opEnc, rowEnc_sawMore ht, encB_sawMore ht]
  refine sees_bind (sees_shadowed ?_) fun _ _ => sees_pure rfl
  refine sees_bind (sees_readB shadowed fun d hd => start.readable_b check d hd (length_mulOps_desc hd) _) fun bs hbs => ?_
  have cols := colsOfB_takeShadow s1 (w.dsc 0) o.pass w o.b
  rw [start.work.chip.cur] at cols
  rw [hbs, cols]
  refine sees_rowsOfD0 shadowed (fun u i => chipAs_accProducts _ _ _ _) fun i hi u hu => sees_unlessParked fun live => ?_
  refine sees_state fun t ht => ?_
  refine sees_bind (sees_ownRow _ _ _ _ _ (sees_readVals hu 0 0 readA (lt_of_lt_of_eq hi rows1.symm))) fun r ⟨a, hr, ha⟩ => ?_
  rw [hr, ha]
  exact sees_multiplyRow hu w _ _ live

/-! ## GMMA (R299) -/

theorem topBlock_sawMore {t u : State} (h : t.sawMore u) (c : CoreId) (p : Pass) (n : Nat) :
    (t.core c).topBlock p n = (u.core c).topBlock p n := by
  rw [h.2 c]
  rfl

theorem rbt_sawMore {t u : State} (h : t.sawMore u) (c : CoreId) (b n : Nat) : (t.core c).rbt b n = (u.core c).rbt b n := by
  rw [h.2 c]
  rfl

/-- The columns of a block's adapter tile are read as they stand. -/
theorem sees_adapterTile {s u : State} {w : Issued} (hu : s.atWork u) (hd : ∀ slot, s.readable (w.dsc 2) slot) (b : Nat) :
    Sees u (adapterTile s.cur w b) u (· = tabulate (dRows (w.dsc 2)) fun j => u.rowVals s.cur (w.dsc 2)
      ((w.slot 2 + b) % ((vget (s.core s.cur).bobbins (dBob (w.dsc 2)).toNat).count + 1)) j) := by
  refine sees_state fun t ht => ?_
  have same : (t.core s.cur).bobbins = (s.core s.cur).bobbins := by
    rw [ht.2 s.cur]
    exact (hu.chip.same s.cur).bobbins
  rw [same]
  exact sees_mapM _ fun j hj => sees_readVals hu 0 0 (hd _) (List.mem_range.1 hj)

theorem matrixStarts_gmma : MatrixStarts .gmma gmmaWord := matrixStarts_plain (fun _ _ => rfl) fun _ _ => fields_three _ _ _

theorem result_gmma : MatrixResult .gmma gmmaWord
    (fun o w s1 => bobEnds .m [dst0 o.d0, src1 o.d1] w.dscs ++
      (if dAuto (w.dsc 2) then [.release (dBob (w.dsc 2)) ((s1.core s1.cur).topBlock o.pass (dRows (w.dsc 0)) + 1)] else []))
    (fun o w s1 =>
    let c := s1.cur
    let d2 := w.dsc 2
    let ints := onIntPath (s1.opEnc c (w.dsc 1) (w.slot 1)) (s1.opEnc c d2 0)
    let x := vget (s1.core c).bobbins (dBob d2).toNat
    (s1.onCore c fun k => k.takeShadow (w.dsc 0) o.pass).rowsOfD0 w o.pass fun u i k =>
      let b := k.rowBlock o.pass i
      let tile := tabulate (dRows d2) fun j => u.rowVals c d2 ((w.slot 2 + b) % (x.count + 1)) j
      if k.rbt b 4 = 0 then k
      else accProducts w ints i (fun n => (u.rowVals c (w.dsc 1) (w.slot 1) i).zip (tile.getD n [])) k) := by
  refine matrixResult_of (fun _ _ => rfl) (fun _ _ => rfl) (fun _ _ => rfl) matrixStarts_gmma (fun _ _ _ => ⟨rfl, rfl⟩)
    fun s s1 h o w start => ?_
  have check : mulCheck o.pass (.desc o.d2) (fun _ _ => 1) true s s.cur w.dscs = 0 := (BitVec.or_eq_zero_iff.1 (start.check true)).1
  obtain ⟨rows1, readA⟩ := start.readable_a (by simp : 1 < [dst0 o.d0, src1 o.d1, src2 o.d2].length) check
  rw [Nat.one_mul] at rows1
  have readB := start.readable_b check o.d2 rfl (by simp : 2 < [dst0 o.d0, src1 o.d1, src2 o.d2].length)
  refine sees_state fun t ht => ?_
  simp only
  rw [cur_sawMore ht, start.work.chip.cur, State.opEnc, rowEnc_sawMore ht, State.opEnc, rowEnc_sawMore ht, topBlock_sawMore ht,
    (start.work.chip.same s.cur).bobbins]
  refine sees_bind (sees_shadowed ?_) fun _ _ => sees_pure rfl
  refine sees_rowsOfD0 (atWork_onCore start.work s.cur (chipAs_takeShadow (w.dsc 0) o.pass)) (fun u i k => ?_) fun i hi u hu => ?_
  · split
    · exact ⟨rfl, rfl, rfl, rfl, id⟩
    · exact chipAs_accProducts _ _ _ _ k
  refine sees_state fun t ht => ?_
  rw [rowBlock_sawMore ht, rowParked_sawMore ht, rbt_sawMore ht]
  cases live : (u.core s.cur).rowParked o.pass i with
  | true => exact sees_pure trivial
  | false =>
    by_cases none : (u.core s.cur).rbt ((u.core s.cur).rowBlock o.pass i) 4 = 0
    · rw [if_pos (by simp [none]), if_neg Bool.false_ne_true]
      exact fun t ht => ⟨(), t, rfl, sawMore_onCore_self ht (if_pos none), trivial⟩
    · rw [if_neg (by simpa using none), if_neg Bool.false_ne_true]
      refine sees_bind (sees_ownRow _ _ _ _ _ (sees_adapterTile hu readB _)) fun r ⟨bs, hr, hbs⟩ => ?_
      rw [hr, hbs]
      refine sees_bind (sees_ownRow _ _ _ _ _ (sees_readVals hu 0 0 readA (lt_of_lt_of_eq hi rows1.symm))) fun r ⟨a, hr, ha⟩ => ?_
      rw [hr, ha]
      unfold State.onCore
      simp only [if_neg none]
      exact sees_multiplyRow hu w _ _ live

/-! ## SMMA (R300) -/

/-- The oldest entry of a queue leaves its mode. -/
theorem ratio_popMeta (k : Core) (q : BitVec 2) (n : Nat) : (vget (k.popMeta q).metaQ n).ratio = (vget k.metaQ n).ratio := by
  unfold Core.popMeta
  by_cases h : n = q.toNat
  · rw [h, vget_vset_same _ _ _ q.isLt]
    rfl
  · rw [vget_vset_other _ _ _ _ h]

theorem matrixStarts_smma : MatrixStarts .smma smmaWord := by
  intro s s1 h o w hi ha
  obtain ⟨w0, k, hp, hs, hk⟩ := started_of_issueE (e := smmaWord h o) hi
  cases hp
  have work := atWork_setCore ha (chipAs_of_issuesTo hk)
  have start : MStart s ((s.setCore s.cur k).onCore s.cur fun k => k.popMeta o.q) (.smma h o) (smmaWord h o) w0 :=
    mStart_of_started hs (atWork_onCore work _ fun _ => ⟨rfl, rfl, rfl, rfl, id⟩) (fields_mulOps _ _ _) fun q => by
      rw [core_onCore_same, ratio_popMeta, core_setCore_same, hk]
  exact ⟨hs.fresh, start.work, start.resume, start.word, start.dscs, start.operand, start.check, start.ratio⟩

theorem result_smma : MatrixResult .smma smmaWord (fun o w _ => bobEnds .m (mulOps o.d0 o.d1 o.b) w.dscs) (fun o w s1 =>
    let c := s1.cur
    let q := vget (s1.core c).metaQ o.q.toNat
    let sc := dCols (w.dsc 1)
    let entry := natOfBytes (w.popped.getD [])
    let ints := onIntPath (s1.opEnc c (w.dsc 1) (w.slot 1)) (s1.encB c o.b (w.dsc 2))
    let bs := s1.colsOfB w o.b
    (s1.onCore c fun k => k.takeShadow (w.dsc 0) o.pass).rowsOfD0 w o.pass fun u i =>
      let a := (tabulate q.ratio fun r => u.rowVals c (w.dsc 1) (w.slot 1) (q.ratio * i + r)).flatten
      accProducts w ints i fun n =>
        ((bs.getD n []).zip (List.range sc)).map fun e => (a.getD (smmaPos q.mode entry sc n e.2) .nan, e.1)) := by
  refine matrixResult_of (fun _ _ => rfl) (fun _ _ => rfl) (fun _ _ => rfl) matrixStarts_smma (fun _ _ _ => ⟨rfl, rfl⟩)
    fun s s1 h o w start => ?_
  have checks : mulCheck o.pass o.b (fun s c => (vget (s.core c).metaQ o.q.toNat).ratio) true s s.cur w.dscs = 0 :=
    (BitVec.or_eq_zero_iff.1 (BitVec.or_eq_zero_iff.1 (start.check true)).1).1
  obtain ⟨rows1, readA⟩ := start.readable_a (length_mulOps o.d0 o.d1 o.b) checks
  rw [← start.ratio] at rows1
  have shadowed := atWork_onCore start.work s.cur (chipAs_takeShadow (w.dsc 0) o.pass)
  refine sees_state fun t ht => ?_
  have metaQ : (t.core s.cur).metaQ = (s1.core s.cur).metaQ := by rw [ht.2 s.cur]
  simp only
  rw [cur_sawMore ht, start.work.chip.cur, State.opEnc, rowEnc_sawMore ht, encB_sawMore ht, metaQ]
  refine sees_bind (sees_shadowed ?_) fun _ _ => sees_pure rfl
  refine sees_bind (sees_readB shadowed fun d hd => start.readable_b checks d hd (length_mulOps_desc hd) _) fun bs hbs => ?_
  have cols := colsOfB_takeShadow s1 (w.dsc 0) o.pass w o.b
  rw [start.work.chip.cur] at cols
  rw [hbs, cols]
  refine sees_rowsOfD0 shadowed (fun u i => chipAs_accProducts _ _ _ _) fun i hi u hu => sees_unlessParked fun live => ?_
  refine sees_state fun t ht => ?_
  have group : ∀ r < (vget (s1.core s.cur).metaQ o.q.toNat).ratio,
      (vget (s1.core s.cur).metaQ o.q.toNat).ratio * i + r < dRows (w.dsc 1) := fun r hr => by
    rw [rows1]
    calc _ < _ * i + _ := Nat.add_lt_add_left hr _
      _ = _ * (i + 1) := (Nat.mul_succ _ _).symm
      _ ≤ _ := Nat.mul_le_mul_left _ hi
  refine sees_bind (sees_ownRow _ _ _ _ _ (sees_mapM _ fun r hr =>
    sees_readVals hu 0 0 readA (group r (List.mem_range.1 hr)))) fun r ⟨subs, hr, hsubs⟩ => ?_
  rw [hr, hsubs]
  exact sees_multiplyRow hu w _ _ live

end Sys2Proof.Machine

/-! Accumulator rows loaded, scaled and stored: ALD, ASCL and AST (spec 16 R303 to R305). -/

namespace Sys2Proof.Machine

/-! ## Rows of the accumulators written from values (R303, R305) -/

/-- What `rowsOfD0` leaves rests on the running core alone. -/
theorem rowsOfD0_congr {u : State} {w : Issued} {p : Pass} {f g : State → Nat → Core → Core}
    (h : ∀ v i, f v i (v.core u.cur) = g v i (v.core u.cur)) : u.rowsOfD0 w p f = u.rowsOfD0 w p g := by
  unfold State.rowsOfD0
  congr 1
  funext v i
  unfold State.onCore
  rw [h]

theorem sees_putAcc {α : Type} {s u : State} (hu : s.atWork u) (r : Nat) (f : α → BitVec 32) (vs : List α) {p : Perf}
    (hp : p.resume = 0) : Sees u (putAcc r f vs p) (u.onCore s.cur fun k => k.setAccRow r (vs.map f)) (·.resume = 0) := by
  intro t ht
  refine ⟨_, _, rfl, ?_, hp⟩
  rw [cur_sawMore ht, hu.chip.cur]
  exact sawMore_onCore ht s.cur (unclocked_setAccRow _ _)

/-- Rows of d0 one after another, each from the values read for it. -/
theorem sees_accRows {α : Type} {s u : State} {w : Issued} {p : Pass} {b : State → Nat → Nat} {n : Nat} {read : Nat → M (List α)}
    {g : α → BitVec 32} {vals : State → Nat → List α} (hu : s.atWork u) (hw : w.resume = 0)
    (hr : ∀ i < dRows (w.dsc 0), ∀ u, s.atWork u → Sees u (read i) u (· = vals u i)) :
    Sees u (copyRows (dRows (w.dsc 0)) (fun i q => getState >>= fun t =>
        oneRow s.cur .m w p (parkedNow s.cur p i) (b t i) n (read i) (putAcc (accPlace (w.dsc 0) i) g) q) w.start)
      (u.rowsOfD0 w p fun u i k => k.setAccRow (accPlace (w.dsc 0) i) ((vals u i).map g)) fun _ => True := by
  unfold State.rowsOfD0
  rw [hu.chip.cur]
  refine sees_weaken (sees_copyRows (s := s) (fun u i hu => ?_) (fun i hi u q hu hq => ?_) hu hw) fun _ _ => trivial
  · split
    · exact hu
    · exact atWork_onCore hu _ fun _ => chipAs_setAccRow _ _ _
  · refine sees_state fun t ht => sees_oneRow hq (sees_parkedNow _ _ _) (hr i hi u hu) fun vs hv => ?_
    rw [hv]
    exact sees_putAcc hu _ _ _ hq

/-! ## ALD (R303) -/

theorem matrixStarts_ald : MatrixStarts .ald aldWord := matrixStarts_plain (fun _ _ => rfl) fun _ _ => fields_two _ _

/-- The formats that ALD takes have values. -/
theorem elem_of_aldFmt {mode : Bool} {f : Fmt} (h : aldFmt mode f = true) : f.elem ≠ .raw := by
  intro e
  simp [aldFmt, e] at h

theorem result_ald : MatrixResult .ald aldWord (fun o w _ => bobEnds .m [dst0 o.d0, src1 o.d1] w.dscs) (fun o w s1 =>
    let mode := (s1.core s1.cur).modeOfBank (w.dsc 0)
    s1.rowsOfD0 w o.pass fun u i k => k.setAccRow (accPlace (w.dsc 0) i)
      ((u.rowVals s1.cur (w.dsc 1) (w.slot 1) i).map fun v => if mode then BitVec.ofInt 32 v.toInt else rne32 v)) := by
  refine matrixResult_of (fun _ _ => rfl) (fun _ _ => rfl) (fun _ _ => rfl) matrixStarts_ald (fun _ _ _ => ⟨rfl, rfl⟩)
    fun s s1 h o w start => ?_
  obtain ⟨checks, fmts⟩ := BitVec.or_eq_zero_iff.1 (start.check true)
  obtain ⟨checks, -⟩ := BitVec.or_eq_zero_iff.1 checks
  obtain ⟨checks, shape⟩ := BitVec.or_eq_zero_iff.1 checks
  have rows := (rows_of_shapeBad (.inr (.inl rfl)) shape).1
  have source : s.readable (w.dsc 1) (w.slot 1) := readable_checked (.inr (.inl rfl))
    (start.operand 1 (by simp [aldWord])) (BitVec.or_eq_zero_iff.1 checks).2 (by decide) (false_of_descField (.inr (.inl rfl)) fmts)
    (fun f hf => elem_of_aldFmt (by simpa using hf)) _
  refine sees_state fun t ht => ?_
  have mode : (t.core s.cur).modeOfBank (w.dsc 0) = (s1.core s.cur).modeOfBank (w.dsc 0) := by
    rw [ht.2 s.cur]
    rfl
  simp only
  rw [cur_sawMore ht, start.work.chip.cur, mode]
  exact sees_bind (sees_accRows start.work start.resume fun i hi u hu =>
    sees_readVals hu _ _ source (lt_of_lt_of_eq hi rows.symm)) fun _ _ => sees_pure rfl

/-! ## ASCL (R305) -/

theorem matrixStarts_ascl : MatrixStarts .ascl asclWord := matrixStarts_plain (fun _ _ => rfl) fun _ _ => fields_two _ _

theorem result_ascl : MatrixResult .ascl asclWord (fun o w _ => bobEnds .m [dst0 o.d0, src1 o.d1] w.dscs) (fun o w s1 =>
    s1.rowsOfD0 w o.pass fun u i k =>
      let f := (u.rowVals s1.cur (w.dsc 1) (w.slot 1) i).headD .nan
      k.setAccRow (accPlace (w.dsc 0) i)
        ((k.accRow (accPlace (w.dsc 0) i) (dCols (w.dsc 0))).map fun x => rne32 ((val32 x).mul f))) := by
  refine matrixResult_of (fun _ _ => rfl) (fun _ _ => rfl) (fun _ _ => rfl) matrixStarts_ascl (fun _ _ _ => ⟨rfl, rfl⟩)
    fun s s1 h o w start => ?_
  obtain ⟨checks, -⟩ := BitVec.or_eq_zero_iff.1 (start.check true)
  obtain ⟨checks, fmts⟩ := BitVec.or_eq_zero_iff.1 checks
  obtain ⟨checks, -⟩ := BitVec.or_eq_zero_iff.1 checks
  obtain ⟨checks, shape⟩ := BitVec.or_eq_zero_iff.1 checks
  have rows := bne_eq_false_iff_eq.1 (Bool.or_eq_false_iff.1 (false_of_descField (.inr (.inl rfl)) shape)).1
  have source : s.readable (w.dsc 1) (w.slot 1) := readable_checked (.inr (.inl rfl))
    (start.operand 1 (by simp [asclWord])) (BitVec.or_eq_zero_iff.1 checks).2 (by decide) (false_of_descField (.inr (.inl rfl)) fmts)
    (fun f hf e => by simp [e] at hf) _
  have scaled := rowsOfD0_congr (u := s1) (w := w) (p := o.pass)
    (f := fun u i k => k.setAccRow (accPlace (w.dsc 0) i) ((k.accRow (accPlace (w.dsc 0) i) (dCols (w.dsc 0))).map fun x =>
      rne32 ((val32 x).mul ((u.rowVals s1.cur (w.dsc 1) (w.slot 1) i).headD .nan))))
    (g := fun u i k => k.setAccRow (accPlace (w.dsc 0) i)
      ((((u.core s.cur).accRow (accPlace (w.dsc 0) i) (dCols (w.dsc 0))).map fun x =>
        ((u.rowVals s.cur (w.dsc 1) (w.slot 1) i).headD .nan, x)).map fun x => rne32 ((val32 x.2).mul x.1)))
    fun v i => by
      rw [start.work.chip.cur, List.map_map]
      rfl
  simp only
  rw [scaled]
  refine sees_state fun t ht => ?_
  rw [cur_sawMore ht, start.work.chip.cur]
  refine sees_bind (sees_accRows start.work start.resume fun i hi u hu => ?_) fun _ _ => sees_pure rfl
  refine sees_bind (sees_readVals hu 0 0 source (lt_of_lt_of_eq hi rows.symm)) fun f hf => ?_
  refine sees_bind (sees_readAccRow hu _ _ _) fun x hx => sees_pure ?_
  rw [hf, hx]

/-! ## AST (R304), also where a row of d0 is of class 8: the bytes written to it are free values (log 64) -/

/-- The free bytes that come next. -/
def State.nextFree (u : State) (n : Nat) : List Byte := (List.range n).map fun i => field (Config.freeWord (u.free + i)) 0 8

/-- `putVals`, and free bytes in a row of class 8. -/
def State.storeVals (u : State) (c : CoreId) (t : Strm) (d : Dsc) (slot j : Nat) (mode : Mode) (sat : Bool) (vs : List Val) : State :=
  match Fmt.parse (u.rowEnc c d slot j) with
  | none => u
  | some f =>
    let r := writeRow f mode (sat && !(dKind d == 3 && f.elem == .flt fp32F)) vs ((u.core c).engine t).lfsr
    let n := f.elem.rowBytes (dCols d)
    let free := if f.elem = .raw then n else 0
    (({ u with free := u.free + free }.putRow c d slot j { r.1 with bytes := if f.elem = Elem.raw then u.nextFree n else r.1.bytes }).onCore c
      fun k => k.setEngine t { k.engine t with lfsr := r.2 })

theorem sawMore_free {t u : State} (h : t.sawMore u) (n : Nat) : ({ t with free := n } : State).sawMore { u with free := n } :=
  ⟨congrArg (fun x : State => { x with free := n }) h.1, h.2⟩

theorem atWork_free {s u : State} (h : s.atWork u) (n : Nat) : s.atWork { u with free := n } :=
  ⟨⟨h.chip.cur, h.chip.clean, h.chip.same⟩, h.log⟩

/-- As many free words as a list is long, one for each byte. -/
theorem freeBytes_run (n m : Nat) (l : List Nat) (hl : l = List.range' m l.length) (t : State) (ht : t.free = n + m) :
    (l.mapM fun _ => (do let w ← freeWord; pure (field w 0 8) : M Byte)) t =
      .ok (l.map fun i => field (Config.freeWord (n + i)) 0 8) { t with free := n + m + l.length } := by
  induction l generalizing m t with
  | nil =>
    rw [List.length_nil, Nat.add_zero, ← ht]
    rfl
  | cons x l ih =>
    simp only [List.length_cons, List.range'_succ, List.cons.injEq] at hl
    obtain ⟨rfl, hl⟩ := hl
    rw [List.mapM_cons, bind_ok _ _ t { t with free := t.free + 1 } (field (Config.freeWord t.free) 0 8) rfl,
      bind_ok _ _ _ _ _ (ih (x + 1) hl { t with free := t.free + 1 } (by rw [ht]; rfl)), ht]
    simp only [pure_run, List.map_cons, List.length_cons]
    congr 2
    omega

/-- Free bytes are those that come next. -/
theorem sees_freeBytes (u : State) (n : Nat) : Sees u (freeBytes n) { u with free := u.free + n } (· = u.nextFree n) := by
  intro t ht
  have free : t.free = u.free := by rw [ht.1]
  refine ⟨_, _, freeBytes_run u.free 0 (List.range n) (by rw [List.length_range, List.range_eq_range']) t free, ?_, rfl⟩
  rw [List.length_range]
  exact sawMore_free ht _

theorem sees_storeVals {s u : State} (hu : s.atWork u) {t : Strm} {d : Dsc} {slot j : Nat} (b first : Nat) (mode : Mode) (sat : Bool)
    (vs : List Val) {p : Perf} (hd : onChip d) (hf : (Fmt.parse (s.rowEnc s.cur d slot j)).isSome = true) (hp : p.resume = 0) :
    Sees u (writeVals s.cur t d slot j b first mode sat vs p) (u.storeVals s.cur t d slot j mode sat vs) (·.resume = 0) := by
  obtain ⟨f, hf⟩ := Option.isSome_iff_exists.1 hf
  refine sees_state fun q hq => ?_
  unfold State.storeVals
  rw [rowEnc_sawMore hq, rowEnc_onchip hu.chip]
  simp only [hf, skipRow_start hp, Bool.false_eq_true, if_false]
  refine sees_bind (sees_engLfsr _ _) fun l hl => ?_
  rw [hl]
  have written : ∀ (n : Nat) (r : Row) (x : BitVec 32), Sees { u with free := n }
      (writeRowTo s.cur d slot j b first f r p >>= fun q => (setLfsr s.cur t x >>= fun _ => pure q))
      (({ u with free := n }.putRow s.cur d slot j r).onCore s.cur fun k => k.setEngine t { k.engine t with lfsr := x }) (·.resume = 0) :=
    fun n r x => sees_bind (sees_writeRowTo _ _ _ _ _ hd (memBytes_pos hf (Nat.succ_pos _)) hp) fun q hq =>
      sees_bind (sees_onCore _ (unclocked_setLfsr _ _)) fun _ _ => sees_pure hq
  by_cases raw : f.elem = .raw
  · rw [if_pos raw, if_pos raw, if_pos raw]
    refine sees_bind (sees_freeBytes u _) fun bs hbs => ?_
    rw [hbs]
    exact written _ _ _
  · rw [if_neg raw, if_neg raw, if_neg raw]
    exact sees_bind (sees_pure rfl) fun bs hbs => hbs ▸ written u.free _ _

theorem atWork_storeVals {s u : State} (h : s.atWork u) (c : CoreId) (t : Strm) (d : Dsc) (slot j : Nat) (mode : Mode) (sat : Bool)
    (vs : List Val) : s.atWork (u.storeVals c t d slot j mode sat vs) := by
  unfold State.storeVals
  split
  · exact h
  · exact atWork_onCore (atWork_putRow (atWork_free h _) _ _ _ _ _) _ fun _ => chipAs_setEngine _ _ _

theorem matrixStarts_ast : MatrixStarts .ast astWord := matrixStarts_plain (fun _ _ => rfl) fun _ _ => fields_two _ _

/-- The rows of d1 one after another, but for those parked, each put into d0 by `put`. -/
def State.storedRows (u : State) (c : CoreId) (w : Issued) (p : Pass) (put : State → Nat → List Val → State) : State :=
  (List.range (dRows (w.dsc 1))).foldl (fun u i => if (u.core c).rowParked p i then u else put u i (u.rowVals c (w.dsc 1) 0 i)) u

section
variable {s s1 : State} {h : Hdr} {o : D2Conv} {w : Issued}

/-- What the checks of AST give of its operands. -/
theorem operands_ast (start : MStart s s1 (.ast h o) (astWord h o) w) :
    onChip (w.dsc 0) ∧ dRows (w.dsc 0) = dRows (w.dsc 1) ∧ inAcc (w.dsc 1) = true := by
  obtain ⟨checks, -⟩ := BitVec.or_eq_zero_iff.1 (start.check true)
  obtain ⟨checks, -⟩ := BitVec.or_eq_zero_iff.1 checks
  obtain ⟨checks, shape⟩ := BitVec.or_eq_zero_iff.1 checks
  obtain ⟨kind0, kind1⟩ := BitVec.or_eq_zero_iff.1 checks
  have acc : dKind (w.dsc 1) = 3 := List.mem_singleton.1 (List.contains_iff_mem.1 (kindIn_of_kindBad (.inr (.inl rfl)) kind1))
  exact ⟨onChip_of_kindBad (.inl rfl) (start.operand 0 (by simp [astWord])).1 kind0 (by decide),
    (rows_of_shapeBad (.inl rfl) shape).1, by simp [inAcc, acc]⟩

theorem sees_ast (start : MStart s s1 (.ast h o) (astWord h o) w) {put : State → Nat → List Val → State}
    (hp : ∀ u i vs, s.atWork u → s.atWork (put u i vs))
    (hw : ∀ i < dRows (w.dsc 0), ∀ u q vs, s.atWork u → q.resume = 0 → Sees u (writeVals s.cur .m (w.dsc 0) (w.slot 0) i 0 0
      (modeOf o.rnd (s1.core s.cur).round) o.sat vs q) (put u i vs) (·.resume = 0)) :
    Sees s1 ((astWord h o).body w) (s1.storedRows s.cur w o.pass put)
      (· = { w with deferred := bobEnds .m [dst0 o.d0, src1 o.d1] w.dscs }) := by
  obtain ⟨-, rows, acc⟩ := operands_ast start
  refine sees_state fun t ht => ?_
  simp only
  rw [cur_sawMore ht, start.work.chip.cur]
  refine sees_bind (sees_engMode _ _) fun mode hm => ?_
  rw [hm]
  refine sees_bind (sees_copyRows (s := s) (fun u i hu => ?_) (fun i hi u q hu hq => ?_) start.work start.resume) fun _ _ => sees_pure rfl
  · split
    · exact hu
    · exact hp _ _ _ hu
  · refine sees_state fun t ht => sees_oneRow hq (sees_parkedNow _ _ _) (sees_readVals hu 0 0 (readable_of_inAcc acc 0) hi) fun vs hv => ?_
    rw [hv]
    exact hw i (lt_of_lt_of_eq hi rows.symm) u q _ hu hq

/-- AST where every row of d0 has values. -/
theorem result_ast (hi : s.issueE (.ast h o) (astWord h o) = some (w, s1)) (ha : s.allClean = true) (hl : s.lineOps ≠ some 0)
    (hr : s1.noRaw w) : ∃ t, IssuesTo (.ast h o) s .m { w with deferred := bobEnds .m [dst0 o.d0, src1 o.d1] w.dscs } t ∧
      t.sawMore (s1.convRows w .m (dRows (w.dsc 1)) o.rnd o.sat (fun u i => (u.core s.cur).rowParked o.pass i)
        fun u i => u.rowVals s.cur (w.dsc 1) 0 i) := by
  obtain ⟨fresh, start⟩ := matrixStarts_ast s s1 h o w hi ha
  obtain ⟨chip, -, -⟩ := operands_ast start
  have dscs : w.dscs.length = 2 := by rw [start.dscs, State.latched, List.length_map]; rfl
  obtain ⟨limits, banks⟩ := start.operand 0 (by simp [astWord])
  have target : s.readable (w.dsc 0) (w.slot 0) := readable_of_noRaw start.work hr (by omega) chip limits banks
  refine issuesTo_sees (e := astWord h o) (w' := { w with deferred := bobEnds .m [dst0 o.d0, src1 o.d1] w.dscs }) rfl hi hl
    (fun _ _ _ => rfl) fresh fresh ?_
  unfold State.convRows
  rw [start.work.chip.cur]
  exact sees_ast (w := { w with todo := true })
    ⟨start.work, start.resume, start.word, start.dscs, start.operand, start.check, start.ratio⟩
    (fun u i vs hu => atWork_putVals hu _ _ _ _ _ _ _ _) fun i hi u q vs hu hq => sees_writeVals hu 0 0 _ _ vs target hi hq

end

end Sys2Proof.Machine

/-! What the effects of matrix words leave as it was, the clearing of accumulators by ACLR (spec 16 R302), and the statement of the
matrix words. -/

namespace Sys2Proof.Machine

/-! ## The frame of a core -/

theorem coreFrame_refl (k : Core) : k.engineFrame k := rfl

theorem coreFrame_trans {j k q : Core} (h : q.engineFrame k) (g : k.engineFrame j) : q.engineFrame j := by
  unfold Core.engineFrame at *
  exact h.trans (congrArg (fun x : Core => { x with
    spad := q.spad, side := q.side, spadErr := q.spadErr, acc := q.acc, accErr := q.accErr, accMode := q.accMode
    accShadow := q.accShadow, accShadowRows := q.accShadowRows, metaQ := q.metaQ, pmCnt := q.pmCnt, winClk := q.winClk
    m := { x.m with lfsr := q.m.lfsr }, v := { x.v with lfsr := q.v.lfsr }, c := { x.c with lfsr := q.c.lfsr } }) g)

/-- Accumulator rows are written where they lie, and the errors there end. -/
theorem setAccRow_eq (k : Core) (r : Nat) (vs : List (BitVec 32)) :
    k.setAccRow r vs = { k with acc := (k.setAccRow r vs).acc, accErr := (k.setAccRow r vs).accErr } := by
  unfold Core.setAccRow
  generalize vs.zip (List.range vs.length) = l
  induction l generalizing k with
  | nil => rfl
  | cons e l ih => exact ih (k.setAcc r e.2 e.1)

theorem coreFrame_setAccRow (k : Core) (r : Nat) (vs : List (BitVec 32)) : (k.setAccRow r vs).engineFrame k := by
  rw [setAccRow_eq]
  rfl

theorem coreFrame_putSpadRow (k : Core) (bank row : Nat) (r : Row) : (k.putSpadRow bank row r).engineFrame k := rfl

theorem coreFrame_pm (k : Core) (src n : Nat) : (k.pm src n).engineFrame k := rfl

theorem coreFrame_takeShadow (k : Core) (d : Dsc) (p : Pass) : (k.takeShadow d p).engineFrame k := rfl

theorem coreFrame_setLfsr (k : Core) (t : Strm) (x : BitVec 32) : (k.setEngine t { k.engine t with lfsr := x }).engineFrame k := by
  cases t <;> rfl

theorem coreFrame_accProducts (w : Issued) (ints : Bool) (i : Nat) (pairs : Nat → List (Val × Val)) (k : Core) :
    (accProducts w ints i pairs k).engineFrame k := coreFrame_trans (coreFrame_pm _ _ _) (coreFrame_setAccRow _ _ _)

/-! ## The frame of the machine -/

section
variable {s t u : State}

theorem engineFrame_refl (s : State) : s.engineFrame s := ⟨rfl, fun _ => coreFrame_refl _⟩

theorem engineFrame_onCore (h : u.engineFrame s) (c : CoreId) {f : Core → Core} (hf : ∀ k : Core, (f k).engineFrame k) :
    (u.onCore c f).engineFrame s := by
  obtain ⟨e, hc⟩ := h
  refine ⟨congrArg (fun x : State => { x with cores := (u.onCore c f).cores }) e, fun d => ?_⟩
  by_cases hd : d = c
  · rw [hd, core_onCore_same]
    exact coreFrame_trans (hf _) (hc c)
  · rw [core_onCore_other _ _ _ _ hd]
    exact hc d

theorem engineFrame_free (h : u.engineFrame s) (n : Nat) : ({ u with free := n } : State).engineFrame s :=
  ⟨congrArg (fun x : State => { x with free := n }) h.1, h.2⟩

theorem engineFrame_sawMore (h : t.sawMore u) (g : u.engineFrame s) : t.engineFrame s := by
  obtain ⟨et, ct⟩ := h
  obtain ⟨eu, cu⟩ := g
  have free : t.free = u.free := by rw [et]
  refine ⟨free ▸ et.trans (congrArg (fun x : State => { x with
    cores := t.cores, mem := { x.mem with clocks := t.mem.clocks, replicas := t.mem.replicas, updates := t.mem.updates } }) eu), fun c => ?_⟩
  exact coreFrame_trans (by rw [ct c]; rfl) (cu c)

/-- What every step of a fold keeps, the fold keeps. -/
theorem engineFrame_foldl {step : State → Nat → State} (hs : ∀ u i, u.engineFrame s → (step u i).engineFrame s) (l : List Nat)
    (h : u.engineFrame s) : (l.foldl step u).engineFrame s := by
  induction l generalizing u with
  | nil => exact h
  | cons i l ih => exact ih (hs u i h)

theorem engineFrame_rowsOfD0 (h : u.engineFrame s) (w : Issued) (p : Pass) {f : State → Nat → Core → Core}
    (hf : ∀ u i (k : Core), (f u i k).engineFrame k) : (u.rowsOfD0 w p f).engineFrame s := by
  refine engineFrame_foldl (fun v i hv => ?_) _ h
  split
  · exact hv
  · exact engineFrame_onCore hv _ (hf v i)

theorem engineFrame_storeVals (h : u.engineFrame s) (c : CoreId) (q : Strm) (d : Dsc) (slot j : Nat) (mode : Mode) (sat : Bool)
    (vs : List Val) : (u.storeVals c q d slot j mode sat vs).engineFrame s := by
  unfold State.storeVals State.putRow
  split
  · exact h
  · refine engineFrame_onCore (engineFrame_onCore (engineFrame_free h _) _ fun k => ?_) _ fun k => coreFrame_setLfsr k q _
    split
    · exact coreFrame_setAccRow _ _ _
    · exact coreFrame_putSpadRow _ _ _ _

end

/-- A matrix word completes its effects once it issues, and leaves what `engineFrame` names as it was. -/
def MatrixFrame {ω : Type} (mk : Hdr → ω → Instr) (e : Hdr → ω → EWord) : Prop :=
  ∀ (s s1 : State) (h : Hdr) (o : ω) (w : Issued), s.issueE (mk h o) (e h o) = some (w, s1) → s.allClean = true → s.lineOps ≠ some 0 →
    ∃ w' t, IssuesTo (mk h o) s .m w' t ∧ t.engineFrame s1 ∧ w'.word = encodeWord (mk h o) ∧ w'.dscs = s.latched (e h o)

/-- Its results say so where they leave it so themselves. -/
theorem frame_of_result {ω : Type} {mk : Hdr → ω → Instr} {e : Hdr → ω → EWord} {ends : ω → Issued → State → List Deferred}
    {f : ω → Issued → State → State} (hs : MatrixStarts mk e) (hr : MatrixResult mk e ends f)
    (hf : ∀ o w s1, (f o w s1).engineFrame s1) : MatrixFrame mk e := by
  intro s s1 h o w hi ha hl
  obtain ⟨-, start⟩ := hs s s1 h o w hi ha
  obtain ⟨t, ht, seen⟩ := hr s s1 h o w hi ha hl
  exact ⟨_, t, ht, engineFrame_sawMore seen (hf o w s1), start.word, start.dscs⟩

/-- The same of AST, whatever the formats of d0. -/
theorem frame_ast : MatrixFrame .ast astWord := by
  intro s s1 h o w hi ha hl
  obtain ⟨fresh, start⟩ := matrixStarts_ast s s1 h o w hi ha
  obtain ⟨chip, -, -⟩ := operands_ast start
  obtain ⟨limits, banks⟩ := start.operand 0 (by simp [astWord])
  have body := sees_ast (w := { w with todo := true })
    ⟨start.work, start.resume, start.word, start.dscs, start.operand, start.check, start.ratio⟩
    (put := fun u i vs => u.storeVals s.cur .m (w.dsc 0) (w.slot 0) i (modeOf o.rnd (s1.core s.cur).round) o.sat vs)
    (fun u i vs hu => atWork_storeVals hu _ _ _ _ _ _ _ _)
    fun i hi u q vs hu hq => sees_storeVals hu 0 0 _ _ vs chip (rowEnc_parses chip limits banks _ _ hi) hq
  obtain ⟨t, ht, seen⟩ := issuesTo_sees (e := astWord h o) (w' := { w with deferred := bobEnds .m [dst0 o.d0, src1 o.d1] w.dscs })
    rfl hi hl (fun _ _ _ => rfl) fresh fresh body
  refine ⟨_, t, ht, engineFrame_sawMore seen (engineFrame_foldl (fun u i hu => ?_) _ (engineFrame_refl s1)), start.word, start.dscs⟩
  split
  · exact hu
  · exact engineFrame_storeVals hu _ _ _ _ _ _ _ _

/-! ## ACLR (R302) -/

/-- Zeros in the columns of every row that is not parked. -/
def Core.clearRows (k : Core) (d : Dsc) (p : Pass) : Core :=
  (List.range (dRows d)).foldl (fun k i => if k.rowParked p i then k else k.setAccRow (accPlace d i) (List.replicate (dCols d) 0)) k

theorem forRows_clear (s : State) (k : Core) (d : Dsc) (p : Pass) :
    forRows (dRows d) (fun i => parkedNow s.cur p i >>= fun b =>
        if b = true then pure () else modCore fun k => k.setAccRow (accPlace d i) (List.replicate (dCols d) 0)) (s.setCore s.cur k) =
      .ok () (s.setCore s.cur (k.clearRows d p)) := by
  unfold forRows Core.clearRows
  generalize List.range (dRows d) = l
  induction l generalizing k with
  | nil => rfl
  | cons i l ih =>
    have parked : parkedNow s.cur p i (s.setCore s.cur k) = .ok (k.rowParked p i) (s.setCore s.cur k) := by
      show EStateM.Result.ok (((s.setCore s.cur k).core s.cur).rowParked p i) _ = _
      rw [core_setCore_same]
    rw [List.foldl_cons]
    refine (bind_ok _ _ _ (s.setCore s.cur (if k.rowParked p i then k else k.setAccRow (accPlace d i) (List.replicate (dCols d) 0)))
      () ?_).trans (ih _)
    refine (bind_ok _ _ _ _ _ parked).trans ?_
    split
    · rfl
    · show EStateM.Result.ok () ((s.setCore s.cur k).onCore s.cur _) = _
      unfold State.onCore
      rw [core_setCore_same, setCore_setCore]

theorem accAt_setAcc {k : Core} (hk : keysRise k.acc = true) (r c : Nat) (v : BitVec 32) (x y : Nat) :
    (k.setAcc r c v).accAt x y = if x * 32 + y = r * 32 + c then v else k.accAt x y := by
  unfold Core.accAt Core.setAcc
  by_cases h : x * 32 + y = r * 32 + c
  · rw [if_pos h, h]
    split
    · next zero => rw [mapGet_mapDel_same _ _ hk, zero]; rfl
    · rw [mapGet_mapPut_same]; rfl
  · rw [if_neg h]
    split
    · rw [mapGet_mapDel_other _ _ _ h hk]
    · rw [mapGet_mapPut_other _ _ _ _ h]

theorem keysRise_setAcc {k : Core} (hk : keysRise k.acc = true) (r c : Nat) (v : BitVec 32) : keysRise (k.setAcc r c v).acc = true := by
  unfold Core.setAcc
  split
  · exact keysRise_mapDel _ _ hk
  · exact keysRise_mapPut _ _ _ hk

/-- Zeros in some columns of an accumulator row. -/
theorem accAt_setAcc_zeros {r x y : Nat} (l : List (BitVec 32 × Nat)) {k : Core} (hk : keysRise k.acc = true) (hl : ∀ e ∈ l, e.1 = 0) :
    keysRise (l.foldl (fun k e => k.setAcc r e.2 e.1) k).acc = true ∧
      (l.foldl (fun k e => k.setAcc r e.2 e.1) k).accAt x y = if ∃ e ∈ l, x * 32 + y = r * 32 + e.2 then 0 else k.accAt x y := by
  induction l generalizing k with
  | nil => exact ⟨hk, by simp⟩
  | cons e l ih =>
    obtain ⟨rise, at0⟩ := ih (k := k.setAcc r e.2 e.1) (keysRise_setAcc hk _ _ _) fun e he => hl e (List.mem_cons_of_mem _ he)
    refine ⟨rise, ?_⟩
    rw [List.foldl_cons, at0, accAt_setAcc hk, hl e List.mem_cons_self]
    by_cases h1 : x * 32 + y = r * 32 + e.2 <;> by_cases h2 : ∃ e ∈ l, x * 32 + y = r * 32 + e.2 <;> simp [h1, h2]

/-- A row of zeros in the first columns of an accumulator row. -/
theorem accAt_setAccRow_zero {k : Core} (hk : keysRise k.acc = true) (r : Nat) {cols : Nat} (hc : cols ≤ 32) {x y : Nat} (hy : y < 32) :
    keysRise (k.setAccRow r (List.replicate cols 0)).acc = true ∧
      (k.setAccRow r (List.replicate cols 0)).accAt x y = if r = x ∧ y < cols then 0 else k.accAt x y := by
  have zeros : ∀ e ∈ (List.replicate cols (0 : BitVec 32)).zip (List.range (List.replicate cols (0 : BitVec 32)).length), e.1 = 0 :=
    fun e he => List.eq_of_mem_replicate (List.of_mem_zip he).1
  obtain ⟨rise, at0⟩ := accAt_setAcc_zeros _ hk zeros
  refine ⟨rise, at0.trans (if_congr ?_ rfl rfl)⟩
  constructor
  · rintro ⟨e, he, same⟩
    have := (List.of_mem_zip he).2
    rw [List.length_replicate, List.mem_range] at this
    omega
  · rintro ⟨rfl, hy⟩
    refine ⟨(0, y), ?_, rfl⟩
    rw [List.length_replicate, List.mem_iff_getElem]
    exact ⟨y, by simpa using hy, by simp⟩

/-- Clearing rows zeroes their columns, and leaves every other element. -/
theorem accAt_clearRows {k : Core} (hk : keysRise k.acc = true) {d : Dsc} (hc : dCols d ≤ 32) (p : Pass) {x y : Nat} (hy : y < 32) :
    (k.clearRows d p).accAt x y =
      if (∃ j, j < dRows d ∧ accPlace d j = x ∧ k.rowParked p j = false) ∧ y < dCols d then 0 else k.accAt x y := by
  have each : ∀ (l : List Nat) (k : Core), keysRise k.acc = true →
      (l.foldl (fun k i => if k.rowParked p i then k else k.setAccRow (accPlace d i) (List.replicate (dCols d) 0)) k).accAt x y =
        if (∃ j ∈ l, accPlace d j = x ∧ k.rowParked p j = false) ∧ y < dCols d then 0 else k.accAt x y := by
    intro l
    induction l with
    | nil => exact fun k _ => by simp
    | cons i l ih =>
      intro k hk
      rw [List.foldl_cons]
      cases parked : k.rowParked p i with
      | true =>
        rw [if_pos rfl, ih k hk]
        simp [parked]
      | false =>
        obtain ⟨rise, at0⟩ := accAt_setAccRow_zero hk (accPlace d i) hc (x := x) hy
        have same : ∀ j, (k.setAccRow (accPlace d i) (List.replicate (dCols d) 0)).rowParked p j = k.rowParked p j := fun j => by
          rw [setAccRow_eq]
          rfl
        rw [if_neg Bool.false_ne_true, ih _ rise, at0]
        simp only [same]
        by_cases h1 : accPlace d i = x <;> by_cases h2 : y < dCols d <;> simp [h1, h2, parked]
  rw [Core.clearRows, each _ k hk]
  simp only [List.mem_range]

theorem clearRows_eq (k : Core) (d : Dsc) (p : Pass) :
    k.clearRows d p = { k with acc := (k.clearRows d p).acc, accErr := (k.clearRows d p).accErr } := by
  unfold Core.clearRows
  generalize List.range (dRows d) = l
  induction l generalizing k with
  | nil => rfl
  | cons i l ih =>
    rw [List.foldl_cons]
    split
    · exact ih k
    · rw [ih, setAccRow_eq]

section
variable {s s1 : State} {h : Hdr} {o : AclrOp} {w : Issued}

/-- ACLR sets the MODE of its bank as it issues. -/
theorem started_aclr (hi : s.issueE (.aclr h o) (aclrWord h o) = some (w, s1)) : Started s (.aclr h o) (aclrWord h o) w ∧
    ∃ k, (s.core s.cur).issuesTo k ∧ s1 = s.setCore s.cur { k with accMode := vset k.accMode (dAccBank (w.dsc 0)) o.mode } := by
  obtain ⟨w0, k, hp, hs, hk⟩ := started_of_issueE (e := aclrWord h o) hi
  cases hp
  refine ⟨hs, k, hk, ?_⟩
  show (s.setCore s.cur k).onCore s.cur _ = _
  unfold State.onCore
  rw [setCore_setCore, core_setCore_same]

/-- Then it clears its rows. -/
theorem issuesTo_aclr (hi : s.issueE (.aclr h o) (aclrWord h o) = some (w, s1)) (hl : s.lineOps ≠ some 0) :
    IssuesTo (.aclr h o) s .m w (s1.onCore s.cur fun k => k.clearRows (w.dsc 0) o.pass) := by
  obtain ⟨hs, k, -, start⟩ := started_aclr hi
  refine issuesTo_run (e := aclrWord h o) rfl hi hl (fun _ _ _ => rfl) hs.fresh hs.fresh ?_
  rw [start]
  refine (bind_ok _ _ _ _ _ (forRows_clear s _ (w.dsc 0) o.pass)).trans ?_
  unfold State.onCore
  rw [setCore_setCore, core_setCore_same]
  rfl

/-- The operand of ACLR has no more columns than a row of the accumulators. -/
theorem cols_aclr (hs : Started s (.aclr h o) (aclrWord h o) w) : dCols (w.dsc 0) ≤ 32 := by
  have kind := kindIn_of_kindBad (.inl rfl) (BitVec.or_eq_zero_iff.1 (hs.check true)).1
  have acc : dKind (w.dsc 0) = 3 := List.mem_singleton.1 (List.contains_iff_mem.1 kind)
  have limits := (operand_ok hs (n := 0) Nat.one_pos (.inl rfl)).1
  unfold State.dscOk at limits
  simp only [acc, Bool.and_eq_true, decide_eq_true_eq] at limits
  exact limits.1.2

/-- The accumulators of a core in canonical form keep it as a word issues. -/
theorem keysRise_aclr (hc : s.canonical = true) (hi : s.issueE (.aclr h o) (aclrWord h o) = some (w, s1)) :
    keysRise (s1.core s.cur).acc = true := by
  obtain ⟨-, k, hk, start⟩ := started_aclr hi
  unfold State.canonical at hc
  simp only [Bool.and_eq_true] at hc
  obtain ⟨⟨memories, -⟩, -⟩ := hc
  obtain ⟨-, -, rise, -⟩ := (canonical_iff _).1 (canonical_core (c := s.cur) memories)
  rw [start, core_setCore_same]
  show keysRise k.acc = true
  rw [hk]
  exact rise

/-- A vector entry written twice with one value. -/
theorem vset_vset {α : Type} {n : Nat} (v : Vector α n) (i : Nat) (x : α) : vset (vset v i x) i x = vset v i x := by
  unfold vset
  simp

theorem result_aclr (hc : s.canonical = true) (hi : s.issueE (.aclr h o) (aclrWord h o) = some (w, s1)) (hl : s.lineOps ≠ some 0) :
    let k := s1.core s.cur
    let d := w.dsc 0
    ∃ q : Core, IssuesTo (.aclr h o) s .m w (s1.setCore s.cur q) ∧
      q = { k with acc := q.acc, accErr := q.accErr, accMode := vset k.accMode (dAccBank d) o.mode } ∧
      ∀ r n : Nat, n < 32 → q.accAt r n =
        if (∃ j, j < dRows d ∧ accPlace d j = r ∧ k.rowParked o.pass j = false) ∧ n < dCols d then 0 else k.accAt r n := by
  obtain ⟨hs, k, -, start⟩ := started_aclr hi
  have mode : (s1.core s.cur).accMode = vset (s1.core s.cur).accMode (dAccBank (w.dsc 0)) o.mode := by
    rw [start, core_setCore_same, vset_vset]
  refine ⟨(s1.core s.cur).clearRows (w.dsc 0) o.pass, issuesTo_aclr hi hl, ?_, fun r n hn =>
    accAt_clearRows (keysRise_aclr hc hi) (cols_aclr hs) o.pass hn⟩
  rw [← mode]
  exact clearRows_eq _ _ _

end

theorem frame_aclr : MatrixFrame .aclr aclrWord := by
  intro s s1 h o w hi _ hl
  obtain ⟨hs, -⟩ := started_aclr hi
  refine ⟨w, _, issuesTo_aclr hi hl, engineFrame_onCore (engineFrame_refl s1) _ fun k => ?_, hs.word, hs.dscs⟩
  rw [clearRows_eq]
  rfl

/-! ## The matrix words -/

theorem engineFrame_products (s1 : State) (w : Issued) (p : Pass) {f : State → Nat → Core → Core}
    (hf : ∀ u i (k : Core), (f u i k).engineFrame k) :
    ((s1.onCore s1.cur fun k => k.takeShadow (w.dsc 0) p).rowsOfD0 w p f).engineFrame s1 :=
  engineFrame_rowsOfD0 (engineFrame_onCore (engineFrame_refl s1) _ fun _ => coreFrame_takeShadow _ _ _) w p hf

theorem frame_mma : MatrixFrame .mma mmaWord :=
  frame_of_result matrixStarts_mma result_mma fun o w s1 => engineFrame_products s1 w o.pass fun _ _ _ => coreFrame_accProducts _ _ _ _ _

theorem frame_gmma : MatrixFrame .gmma gmmaWord := by
  refine frame_of_result matrixStarts_gmma result_gmma fun o w s1 => engineFrame_products s1 w o.pass fun _ _ k => ?_
  simp only
  split
  · exact coreFrame_refl k
  · exact coreFrame_accProducts _ _ _ _ k

theorem frame_smma : MatrixFrame .smma smmaWord :=
  frame_of_result matrixStarts_smma result_smma fun o w s1 => engineFrame_products s1 w o.pass fun _ _ _ => coreFrame_accProducts _ _ _ _ _

theorem frame_ald : MatrixFrame .ald aldWord :=
  frame_of_result matrixStarts_ald result_ald fun _ w s1 => engineFrame_rowsOfD0 (engineFrame_refl s1) w _ fun _ _ _ =>
    coreFrame_setAccRow _ _ _

theorem frame_ascl : MatrixFrame .ascl asclWord :=
  frame_of_result matrixStarts_ascl result_ascl fun _ w s1 => engineFrame_rowsOfD0 (engineFrame_refl s1) w _ fun _ _ _ =>
    coreFrame_setAccRow _ _ _

/-- Settles O26: the results word by word, and what each word leaves as it was. -/
theorem matrixWordsComplete : Obligations.MatrixWordsComplete := by
  unfold Obligations.MatrixWordsComplete
  refine ⟨result_mma, result_gmma, result_smma, result_ald, result_ascl, fun _ _ _ _ _ => result_ast, ?_,
    fun _ _ _ _ _ => result_aclr⟩
  rintro s s1 i e w ⟨h, ⟨o, rfl⟩ | ⟨o, rfl⟩ | ⟨o, rfl⟩ | ⟨o, rfl⟩ | ⟨o, rfl⟩ | ⟨o, rfl⟩ | ⟨o, rfl⟩⟩ he hi ha hl
  · obtain rfl : mmaWord h o = e := Option.some.inj he
    exact frame_mma s s1 h o w hi ha hl
  · obtain rfl : gmmaWord h o = e := Option.some.inj he
    exact frame_gmma s s1 h o w hi ha hl
  · obtain rfl : smmaWord h o = e := Option.some.inj he
    exact frame_smma s s1 h o w hi ha hl
  · obtain rfl : aclrWord h o = e := Option.some.inj he
    exact frame_aclr s s1 h o w hi ha hl
  · obtain rfl : aldWord h o = e := Option.some.inj he
    exact frame_ald s s1 h o w hi ha hl
  · obtain rfl : astWord h o = e := Option.some.inj he
    exact frame_ast s s1 h o w hi ha hl
  · obtain rfl : asclWord h o = e := Option.some.inj he
    exact frame_ascl s s1 h o w hi ha hl

end Sys2Proof.Machine

/-! The body of a word or an event, part by part: what it goes on from, and what it goes on past. -/

namespace Sys2Proof.Machine

section
variable {α β : Type} {s t : State}

/-- A body goes on from a part that has ended well. -/
theorem then_ok {x : M α} {f : α → M β} {a : α} {r : EStateM.Result Stop State β} (h : x s = .ok a t) (rest : f a t = r) :
    (x >>= f) s = r := (bind_ok _ _ _ _ _ h).trans rest

/-- It stops where a part stops. -/
theorem bind_error {x : M α} {f : α → M β} {e : Stop} (h : x s = .error e t) : (x >>= f) s = .error e t := by
  simp only [bind, EStateM.bind, h]

/-- A body goes on past a check that does not fail. -/
theorem pass_check {c : Prop} [Decidable c] {bad x : M α} {r : EStateM.Result Stop State α} (h : ¬ c) (rest : x s = r) :
    (if c then bad else x) s = r := by
  rw [if_neg h]
  exact rest

/-- A body goes on past a part that some cases add and that leaves the state as it was. -/
theorem pass_part {c : Prop} [Decidable c] {x y : M α} {r : EStateM.Result Stop State α} (h : c → x s = y s) (rest : y s = r) :
    (if c then x else y) s = r := by
  split
  · exact (h ‹c›).trans rest
  · exact rest

/-- A fault that an action raises is caught, with the state that it reached. -/
theorem attempt_fault {x : M α} {f : Flt} (h : x s = .error (.fault f) t) : attempt x s = .ok (.error f) t := by
  simp [attempt, h]

end

/-- A check that asks for a test is not failed where the test passes. -/
theorem not_failed {b : Bool} (h : b = true) : ¬ (!b) = true := by
  rw [h]
  exact Bool.false_ne_true

end Sys2Proof.Machine

/-! The tree words (spec 07 R136, R144, R145, 14 R264): each runs its body part by part, and the statement put together from them. -/

namespace Sys2Proof.Machine

/-! ## What the tree words share -/

theorem treeOn_ok {s : State} (he : (s.rollup 0).en = true) (hm : s.moving = false) : treeOn s = .ok () s := by
  unfold treeOn
  rw [bind_ok _ _ _ _ _ (getState_run s), he, hm]
  rfl

/-- No lost entry waits for its repair. -/
theorem treeErr_ok {s : State} (h : ∀ p, p < 4 → (s.rollup p).err = false) : treeErr s = .ok () s := by
  have none : ¬ ((List.range 4).any fun p => (s.rollup p).err) = true := by
    rw [List.any_eq_true]
    rintro ⟨p, hp, herr⟩
    exact Bool.false_ne_true ((h p (List.mem_range.1 hp)).symm.trans herr)
  unfold treeErr
  exact then_ok (getState_run s) (pass_check none rfl)

/-! ## The words -/

theorem tnode_completes (s s1 s2 s3 s4 s5 s6 s7 : State) (h : Hdr) (o : RR3) (a b w v : Word) (p : Nat)
    (hi : s.issueA (.tnode h o) h = some s1) (on : (s1.rollup 0).en = true) (still : s1.moving = false)
    (ha : rdA o.s1 s1 = .ok a s2) (hb : rdA o.s2 s2 = .ok b s3) :
    let t := (s3.core s3.cur).tag
    needNode a s3 = .ok p s4 → nodeWord p 1 s4 = .ok w s5 → mayRead t w = true → ndLeaf w = false →
    newNode p t b s5 = .ok v s6 → wrA o.d v s6 = .ok () s7 →
    exec (.tnode h o) s = .next (s.endA (.tnode h o) h .next s7) := by
  intro t hn hw may inner hv hd
  refine runA_ok _ _ false noBad _ s _ _ _ hi nofun rfl ?_
  exact then_ok (treeOn_ok on still) <| then_ok ha <| then_ok hb <| then_ok (aTag_run s3) <| then_ok hn <| then_ok hw <|
    pass_check (not_failed may) <| pass_check (Bool.eq_false_iff.1 inner) <| then_ok hv <| then_ok hd rfl

theorem tenrol_completes (s s1 s2 s3 s4 s5 s6 s7 : State) (h : Hdr) (o : Tree4) (hd va size : Word) (leaf la : Nat)
    (hi : s.issueA (.tenrol h o) h = some s1) (on : (s1.rollup 0).en = true) (still : s1.moving = false)
    (h1 : rdA o.s1 s1 = .ok hd s2) (h2 : rdA o.s2 s2 = .ok va s3) (h3 : rdA o.s3 s3 = .ok size s4)
    (hr : treeRange hd va size true s4 = .ok (leaf, la) s5) :
    let ps := patchesOf la size.toNat
    (∀ x ∈ ps, mapGet s5.tree.patches x = none) →
    (if s5.patchRoom ps then enrol leaf ps s5 = .ok () s6 ∧ wrA o.d 0 s6 = .ok () s7 else wrA o.d allOnes s5 = .ok () s7) →
    exec (.tenrol h o) s = .next (s.endA (.tenrol h o) h .next s7) := by
  intro ps new put
  have fresh : ¬ (ps.any fun x => (mapGet s5.tree.patches x).isSome) = true := by
    rw [List.any_eq_true]
    rintro ⟨x, hx, held⟩
    rw [new x hx] at held
    cases held
  refine runA_ok _ _ false noBad _ s _ _ _ hi nofun rfl ?_
  refine then_ok (treeOn_ok on still) <| then_ok h1 <| then_ok h2 <| then_ok h3 <| then_ok hr <| then_ok (getState_run s5) <|
    pass_check fresh ?_
  by_cases room : s5.patchRoom ps = true
  · rw [if_pos room] at put
    exact pass_check (not_failed room) <| then_ok put.1 <| then_ok put.2 rfl
  · rw [if_neg room] at put
    dsimp only
    rw [if_pos (by simpa using room)]
    exact then_ok put rfl

theorem tunrol_completes (s s1 s2 s3 s4 s5 s6 s7 : State) (h : Hdr) (o : Tree3) (hd va size : Word) (leaf la : Nat)
    (hi : s.issueA (.tunrol h o) h = some s1) (on : (s1.rollup 0).en = true) (still : s1.moving = false)
    (h1 : rdA o.s1 s1 = .ok hd s2) (h2 : rdA o.s2 s2 = .ok va s3) (h3 : rdA o.s3 s3 = .ok size s4)
    (hr : treeRange hd va size false s4 = .ok (leaf, la) s5) (hp : patchesAt leaf (patchesOf la size.toNat) s5 = .ok true s6)
    (hu : unrol leaf (patchesOf la size.toNat) s6 = .ok () s7) :
    exec (.tunrol h o) s = .next (s.endA (.tunrol h o) h .next s7) := by
  refine runA_ok _ _ false noBad _ s _ _ _ hi nofun rfl ?_
  exact then_ok (treeOn_ok on still) <| then_ok h1 <| then_ok h2 <| then_ok h3 <| then_ok hr <| then_ok hp <|
    pass_check (not_failed rfl) <| then_ok hu rfl

/-- A move whose perform point is now moves the node; one whose perform point is to come is put among the core's moves (log 68). -/
theorem moveNow_ok {later : Bool} {i : Instr} {m p : Nat} {s t : State} (h : reparent m p s = .ok () t) :
    moveNow later i m p s = .ok () (if later then s.onCore s.cur fun k =>
      { k with aMoves := k.aMoves ++ [{ word := encodeWord i, rword := k.headWord .a, node := m, parent := p }] } else t) := by
  unfold moveNow
  rw [h]
  cases later <;> rfl

/-- A body that reads the word of a node's parent, or keeps the node's own where it has none, goes on with it. -/
theorem then_parentWord {β : Type} {wm wo : Word} {s6 s7 : State} {f : Word → M β} {r : EStateM.Result Stop State β}
    (h : if ndParent wm = noNode then wo = wm ∧ s7 = s6 else nodeWord (ndParent wm) 1 s6 = .ok wo s7) (rest : f wo s7 = r) :
    (if ndParent wm = noNode then pure wm >>= f else nodeWord (ndParent wm) 1 >>= f) s6 = r := by
  by_cases top : ndParent wm = noNode
  · rw [if_pos top] at h ⊢
    obtain ⟨rfl, rfl⟩ := h
    exact then_ok (pure_run _ _) rest
  · rw [if_neg top] at h ⊢
    exact then_ok h rest

theorem trepar_completes (s s1 s2 s3 s4 s5 s6 s7 s8 s9 s10 s11 : State) (h : Hdr) (o : SS) (hm hp wm wo wp : Word) (m p : Nat)
    (above : List Nat) (hi : s.issueA (.trepar h o) h = some s1) (on : (s1.rollup 0).en = true) (still : s1.moving = false)
    (h1 : rdA o.s1 s1 = .ok hm s2) (h2 : rdA o.s2 s2 = .ok hp s3) :
    let t := (s3.core s3.cur).tag
    handleNode hm s3 = .ok (some m) s4 → handleNode hp s4 = .ok (some p) s5 → nodeWord m 1 s5 = .ok wm s6 →
    (if ndParent wm = noNode then wo = wm ∧ s7 = s6 else nodeWord (ndParent wm) 1 s6 = .ok wo s7) →
    mayOwn t wm = true → mayRead t wo = true → nodeWord p 1 s7 = .ok wp s8 → mayRead t wp = true → ndLeaf wp = false →
    m ≠ 0 → p ≠ m → pathOf p s8 = .ok above s9 → m ∉ above → settle m s9 = .ok () s10 → reparent m p s10 = .ok () s11 →
    let i := Instr.trepar h o
    let later := s10.onCore s10.cur fun k =>
      { k with aMoves := k.aMoves ++ [{ word := encodeWord i, rword := k.headWord .a, node := m, parent := p }] }
    exec i s = .next (s.endA i h .next (if s.lineOps.isSome then later else s11)) := by
  intro t hnm hnp hwm hwo own read hwp under inner root other path apart hset hmove i later
  have granted : ((mayOwn t wm && mayRead t wo) && mayRead t wp) = true := by rw [own, read, under]; rfl
  have placed : ¬ (ndLeaf wp || ((some p).isSome && some p == some m)) = true := by
    rw [inner]
    simpa using other
  have acyclic : ¬ above.contains m = true := fun held => apart (List.contains_iff_mem.1 held)
  refine runA_ok _ _ false noBad _ s _ _ _ hi nofun rfl ?_
  exact then_ok (treeOn_ok on still) <| then_ok h1 <| then_ok h2 <| then_ok (aTag_run s3) <| then_ok hnm <| then_ok hnp <|
    then_ok (then_ok hwm <| then_parentWord hwo rfl) <| then_ok (then_ok hwp rfl) <|
    pass_check (not_failed granted) <| pass_check (fun e => root (Option.some.inj e)) <| pass_check placed <|
    then_ok path <| pass_check acyclic <| then_ok hset <| then_ok (moveNow_ok hmove) rfl

theorem tsettle_completes (s s1 s2 s3 s4 s5 : State) (h : Hdr) (r : Reg) (hd w : Word) (n : Nat)
    (hi : s.issueA (.tsettle h r) h = some s1) (h1 : rdA r s1 = .ok hd s2) (on : (s2.rollup 0).en = true)
    (hn : handleNode hd s2 = .ok (some n) s3) (hw : nodeWord n 1 s3 = .ok w s4) (may : mayRead (s2.core s2.cur).tag w = true)
    (before : ∀ p, p < 4 → (s4.rollup p).err = false) (hset : settle n s4 = .ok () s5)
    (after : ∀ p, p < 4 → (s5.rollup p).err = false) :
    exec (.tsettle h r) s = .next (s.endA (.tsettle h r) h .next s5) := by
  refine runA_ok _ _ false noBad _ s _ _ _ hi nofun rfl ?_
  exact then_ok h1 <| then_ok (getState_run s2) <| pass_check (not_failed on) <| then_ok (aTag_run s2) <| then_ok hn <|
    then_ok hw <| pass_check (not_failed may) <| then_ok (treeErr_ok before) <| then_ok hset <|
    then_ok (treeErr_ok after) rfl

theorem tread_node (s s1 s2 s3 s4 s5 s6 : State) (h : Hdr) (o : TreadOp) (v w c : Word) (n : Nat)
    (hi : s.issueA (.tread h o) h = some s1) (h1 : rdA o.s1 s1 = .ok v s2) (on : (s2.rollup 0).en = true) (ho : o.patch = false)
    (hn : needNode v s2 = .ok n s3) (hw : nodeWord n 1 s3 = .ok w s4) (may : mayRead (s2.core s2.cur).tag w = true)
    (sound : ∀ p, p < 4 → (s4.rollup p).err = false) (hc : nodeWord n 0 s4 = .ok c s5)
    (hd : wrA o.d c (s5.onMem fun m => m.catchUp (panelOf s5.cur) (s5.stampOf (s2.nodeAddr n 0 / 64))) = .ok () s6) :
    exec (.tread h o) s = .next (s.endA (.tread h o) h .next s6) := by
  refine runA_ok _ _ false noBad _ s _ _ _ hi nofun rfl ?_
  refine then_ok h1 <| then_ok (getState_run s2) <| pass_check (not_failed on) <| then_ok (aTag_run s2) ?_
  rw [if_neg (Bool.eq_false_iff.1 ho)]
  exact then_ok hn <| then_ok hw <| pass_check (not_failed may) <| then_ok (treeErr_ok sound) <| then_ok hc <|
    then_ok (modState_run _ s5) <| then_ok hd rfl

theorem tread_patch (s s1 s2 s3 s4 s5 s6 : State) (h : Hdr) (o : TreadOp) (v w c : Word) (la : Nat)
    (hi : s.issueA (.tread h o) h = some s1) (h1 : rdA o.s1 s1 = .ok v s2) (on : (s2.rollup 0).en = true) (ho : o.patch = true)
    (hx : ctxXlate v 1 1 s2 = .ok la s3) (sound : ∀ p, p < 4 → (s5.rollup p).err = false)
    (found : match mapGet s2.tree.patches (la / 65536) with
      | none => s5 = s3 ∧ wrA o.d allOnes s5 = .ok () s6
      | some r => (patchRecord (la / 65536) r s3 = .ok none s5 ∧ wrA o.d allOnes s5 = .ok () s6) ∨
          ∃ leaf, patchRecord (la / 65536) r s3 = .ok (some (leaf, c)) s4 ∧ nodeWord leaf 1 s4 = .ok w s5 ∧
            mayRead (s2.core s2.cur).tag w = true ∧
            wrA o.d c (s5.onMem fun m => m.catchUp (panelOf s5.cur) (s5.stampOf (s2.patchAt (la / 65536) r / 64))) = .ok () s6) :
    exec (.tread h o) s = .next (s.endA (.tread h o) h .next s6) := by
  refine runA_ok _ _ false noBad _ s _ _ _ hi nofun rfl ?_
  refine then_ok h1 <| then_ok (getState_run s2) <| pass_check (not_failed on) <| then_ok (aTag_run s2) ?_
  rw [if_pos ho]
  refine then_ok hx ?_
  unfold patchOf
  cases hp : mapGet s2.tree.patches (la / 65536) with
  | none =>
    rw [hp] at found
    obtain ⟨rfl, hd⟩ := found
    exact then_ok (treeErr_ok sound) <| then_ok hd rfl
  | some r =>
    rw [hp] at found
    obtain ⟨hr, hd⟩ | ⟨leaf, hr, hw, may, hd⟩ := found
    · exact then_ok hr <| then_ok (treeErr_ok sound) <| then_ok hd rfl
    · exact then_ok hr <| then_ok hw <| pass_check (not_failed may) <| then_ok (treeErr_ok sound) <|
        then_ok (modState_run _ s5) <| then_ok hd rfl

theorem tfree_completes (s s1 s2 s3 s4 s5 s6 s7 : State) (h : Hdr) (r : Reg) (hd w c : Word) (n : Nat)
    (hi : s.issueA (.tfree h r) h = some s1) (on : (s1.rollup 0).en = true) (still : s1.moving = false)
    (h1 : rdA r s1 = .ok hd s2) (hn : needNode hd s2 = .ok n s3) (hw : nodeWord n 1 s3 = .ok w s4) (hc : nodeWord n 2 s4 = .ok c s5)
    (own : mayOwn (s2.core s2.cur).tag w = true) (root : n ≠ 0) (childless : ndChildren c = 0) (bare : ndPatches c = 0)
    (unlocked : ndWlk w = false) (hset : settle n s5 = .ok () s6) (hf : freeNode n s6 = .ok () s7) :
    exec (.tfree h r) s = .next (s.endA (.tfree h r) h .next s7) := by
  have spare : ¬ (decide (n = 0) || ndChildren c != 0 || ndPatches c != 0 || ndWlk w) = true := by
    rw [childless, bare, unlocked]
    simpa using root
  refine runA_ok _ _ false noBad _ s _ _ _ hi nofun rfl ?_
  exact then_ok (treeOn_ok on still) <| then_ok h1 <| then_ok (aTag_run s2) <| then_ok hn <| then_ok hw <| then_ok hc <|
    pass_check (not_failed own) <| pass_check spare <| then_ok hset <| then_ok hf rfl

/-- A match on an entry that is found gives what follows, which need not be looked into. -/
theorem next_found {α : Type} {s : State} {f : α → Out} {x : α} {r : Out} (h : f x = r) :
    (match (some x : Option α) with
      | none => .next s
      | some a => f a) = r := h

/-- A move whose perform point had been to come is performed, and its word completes with its signal. -/
theorem completeA_performs {s t : State} {c : CoreId} {i : Nat} {x : Move} (hx : (s.core c).aMoves[i]? = some x)
    (hm : reparent x.node x.parent s = .ok () t) :
    completeA c i s = .next (((t.undrain c .a).onCore c fun k =>
      { k with aMoves := k.aMoves.eraseIdx i }).aComplete (getHdr x.word) x.word x.rword) := by
  unfold completeA
  rw [hx]
  refine next_found (s := s) ?_
  generalize reparent x.node x.parent s = r at hm ⊢
  subst hm
  rfl

theorem exec_wordCompletion_a {s : State} {c : CoreId} {i : Nat} (hp : vget s.power.cluster (clusterOf c) ≠ 2) :
    exec (.wordCompletion c .a i) s = completeA c i { s with cur := c } := by
  have started : exec (.wordCompletion c .a i) s = execWordCompletion c .a i s := rfl
  rw [started]
  unfold execWordCompletion
  rw [if_neg hp]

theorem trepar_performed (s t : State) (c : CoreId) (i : Nat) (x : Move) (hp : vget s.power.cluster (clusterOf c) ≠ 2)
    (hx : (s.core c).aMoves[i]? = some x) (hm : reparent x.node x.parent { s with cur := c } = .ok () t) :
    exec (.wordCompletion c .a i) s = .next (((t.undrain c .a).onCore c fun k =>
      { k with aMoves := k.aMoves.eraseIdx i }).aComplete (getHdr x.word) x.word x.rword) := by
  have there : (({ s with cur := c } : State).core c).aMoves[i]? = some x := hx
  rw [exec_wordCompletion_a hp, completeA_performs there hm]

/-! ## Paths to the root (R129, R143) -/

/-- The path of a node begins with a node in the table, which it reads, and goes on from its parent. -/
theorem pathOf_eq (n : Nat) :
    pathOf n = if n = noNode then pure [] else
      nodeWord n 1 >>= fun w => chain (2 ^ 24 - 1) (ndParent w) >>= fun up => pure (n :: up) := by
  unfold pathOf
  rw [← Nat.sub_add_cancel (Nat.one_le_two_pow (n := 24)), chain, Nat.sub_add_cancel (Nat.one_le_two_pow (n := 24))]

theorem pathOf_noNode (s : State) : pathOf noNode s = .ok [] s := by
  rw [pathOf_eq, if_pos rfl]
  rfl

theorem pathOf_up (s s1 s2 : State) (n : Nat) (w : Word) (up : List Nat) (hn : n < noNode) (hw : nodeWord n 1 s = .ok w s1)
    (hu : chain (2 ^ 24 - 1) (ndParent w) s1 = .ok up s2) : pathOf n s = .ok (n :: up) s2 := by
  rw [pathOf_eq, if_neg (Nat.ne_of_lt hn)]
  exact then_ok hw <| then_ok hu rfl

/-- A read of an ancestor that stalls stalls the reader. -/
theorem pathOf_stalls (s s1 : State) (n : Nat) (hw : nodeWord n 1 s = .error .stall s1) (hn : n < noNode) :
    pathOf n s = .error .stall s1 := by
  rw [pathOf_eq, if_neg (Nat.ne_of_lt hn)]
  exact bind_error hw

/-- Settles O14, word by word from what each body does, with the move that is performed later and the paths of nodes. -/
theorem treeWords : Obligations.TreeWords := by
  unfold Obligations.TreeWords
  exact ⟨tnode_completes, tenrol_completes, tunrol_completes, trepar_completes, tsettle_completes, tread_node, tread_patch,
    tfree_completes, trepar_performed, pathOf_noNode, pathOf_up, pathOf_stalls⟩

end Sys2Proof.Machine

/-! The privileged words on page tables, keys, feed rings and contexts (spec 06 R124 to R130, 08 R155, 14 R268 to R271, 24 R374, 25
R386), in the handler; and the statement put together from them. -/

namespace Sys2Proof.Machine

/-! ## LPTW, LDRAIN and LCONF (R124, R129, R130, R386) -/

/-- A write that is made now, with its answer given while UNCACHED is 0. -/
theorem onceWritten_first {d : BitVec 5} {write : M Word} {s u t : State} {v : Word} (hn : (s.core s.cur).ptTime = none)
    (hw : write s = .ok v u) (cached : u.uncached = false) (hd : wrA d v u = .ok () t) : onceWritten d write s = .ok .next t := by
  unfold onceWritten
  refine then_ok (getCore_run s) ?_
  rw [hn]
  exact then_ok hw <| then_ok (getState_run u) <| pass_check (Bool.eq_false_iff.1 cached) <| then_ok hd rfl

/-- A write that was made before, whose answer has waited for UNCACHED to clear. -/
theorem onceWritten_again {d : BitVec 5} {write : M Word} {s t : State} {v : Word} (hv : (s.core s.cur).ptTime = some v)
    (cached : s.uncached = false) (hd : wrA d v (s.onCore s.cur fun k => { k with ptTime := none }) = .ok () t) :
    onceWritten d write s = .ok .next t := by
  unfold onceWritten
  refine then_ok (getCore_run s) ?_
  rw [hv]
  exact then_ok (getState_run s) <| pass_check (Bool.eq_false_iff.1 cached) <| then_ok (modCore_run _ s) <|
    then_ok (getState_run _) <| pass_check (Bool.eq_false_iff.1 cached) <| then_ok hd rfl

theorem lptw_writes (s s1 s2 s3 s4 s5 : State) (h : Hdr) (o : RR3K) (va v : Word) (lev p : Nat)
    (hi : s.issueA (.lptw h o) h = some s1) (priv : (s.core s.cur).priv = true) (h1 : rdA o.s1 s1 = .ok va s2)
    (h2 : rdA o.s2 s2 = .ok v s3) (paged : pagedAddr va = true) (hl : lptwLevel o.k v = some lev)
    (hp : entryFrom va.toNat walkLevels lev ((vget s3.mem.ctls (xlatCtl (va.toNat / 64))).root.toNat * 4096) s3 = .ok (some p) s4) :
    let u := s4.setPtWord (panelOf s4.cur) p (lptwValue o.k v (s4.ptWord p))
    (s1.core s1.cur).ptTime = none → u.uncached = false → wrA o.d (u.entryTime p) u = .ok () s5 →
    exec (.lptw h o) s = .next (s.endA (.lptw h o) h .next s5) := by
  intro u fresh cached hd
  refine runA_ok _ _ true noBad _ s _ _ _ hi (fun _ => priv) rfl (onceWritten_first fresh ?_ cached hd)
  refine then_ok h1 <| then_ok h2 <| pass_check (not_failed paged) ?_
  dsimp only
  rw [hl]
  exact then_ok (getState_run s3) <| then_ok hp <| then_ok (modState_run _ s4) rfl

theorem lptw_answers (s s1 s2 : State) (h : Hdr) (o : RR3K) (t : Word) (hi : s.issueA (.lptw h o) h = some s1)
    (priv : (s.core s.cur).priv = true) (ht : (s1.core s1.cur).ptTime = some t) (cached : s1.uncached = false)
    (hd : wrA o.d t (s1.onCore s1.cur fun k => { k with ptTime := none }) = .ok () s2) :
    exec (.lptw h o) s = .next (s.endA (.lptw h o) h .next s2) :=
  runA_ok _ _ true noBad _ s _ _ _ hi (fun _ => priv) rfl (onceWritten_again ht cached hd)

/-- The leaf of a page that has one. -/
theorem leafOf_ok {va : Word} {s t : State} {l : Leaf} (paged : pagedAddr va = true)
    (ho : walkOpen (xlatCtl (va.toNat / 64)) va.toNat s = .ok () t) (hl : t.walk (xlatCtl (va.toNat / 64)) va.toNat = some l) :
    leafOf va s = .ok l t := by
  unfold leafOf
  refine pass_check (not_failed paged) <| then_ok ho <| then_ok (getState_run t) ?_
  rw [hl]
  rfl

theorem ldrain_writes (s s1 s2 s3 s4 : State) (h : Hdr) (o : RR2) (va : Word) (l : Leaf)
    (hi : s.issueA (.ldrain h o) h = some s1) (priv : (s.core s.cur).priv = true) (h1 : rdA o.s1 s1 = .ok va s2)
    (paged : pagedAddr va = true) (ho : walkOpen (xlatCtl (va.toNat / 64)) va.toNat s2 = .ok () s3)
    (hl : s3.walk (xlatCtl (va.toNat / 64)) va.toNat = some l) :
    let u := s3.setPtWord (panelOf s3.cur) l.at0 (l.pte ||| maskIf true 62 1)
    (s1.core s1.cur).ptTime = none → u.uncached = false → wrA o.d (u.entryTime l.at0) u = .ok () s4 →
    exec (.ldrain h o) s = .next (s.endA (.ldrain h o) h .next s4) := by
  intro u fresh cached hd
  refine runA_ok _ _ true noBad _ s _ _ _ hi (fun _ => priv) rfl (onceWritten_first fresh ?_ cached hd)
  exact then_ok h1 <| then_ok (leafOf_ok paged ho hl) <| then_ok (modState_run _ s3) rfl

theorem ldrain_answers (s s1 s2 : State) (h : Hdr) (o : RR2) (t : Word) (hi : s.issueA (.ldrain h o) h = some s1)
    (priv : (s.core s.cur).priv = true) (ht : (s1.core s1.cur).ptTime = some t) (cached : s1.uncached = false)
    (hd : wrA o.d t (s1.onCore s1.cur fun k => { k with ptTime := none }) = .ok () s2) :
    exec (.ldrain h o) s = .next (s.endA (.ldrain h o) h .next s2) :=
  runA_ok _ _ true noBad _ s _ _ _ hi (fun _ => priv) rfl (onceWritten_again ht cached hd)

theorem lconf_completes (s s1 s2 s3 s4 s5 s6 : State) (h : Hdr) (o : SS) (va t : Word) (l : Leaf)
    (hi : s.issueA (.lconf h o) h = some s1) (priv : (s.core s.cur).priv = true) (h1 : rdA o.s1 s1 = .ok va s2)
    (h2 : rdA o.s2 s2 = .ok t s3) (paged : pagedAddr va = true)
    (ho : walkOpen (xlatCtl (va.toNat / 64)) va.toNat s3 = .ok () s4) (hl : s4.walk (xlatCtl (va.toNat / 64)) va.toNat = some l)
    (drains : pteDrain l.pte = true) (past : confirmTime t (pteLease l.pte) ≤ (s4.ftOf (panelOf s4.cur)).toNat)
    (cached : s4.uncached = false) (landed : s4.pageInFlight l va.toNat = false)
    (hlines : (s4.pageLines l va.toNat).forM (confirmLine l) s4 = .ok () s5)
    (hvictims : (s4.pageVictims l).forM confirmVictim s5 = .ok () s6) :
    exec (.lconf h o) s = .next (s.endA (.lconf h o) h .next s6) := by
  have ready : stallIf (s4.uncached || decide ((s4.ftOf (panelOf s4.cur)).toNat < confirmTime t (pteLease l.pte)) ||
      s4.pageInFlight l va.toNat) s4 = .ok () s4 := by
    rw [cached, landed, decide_eq_false (Nat.not_lt.2 past)]
    rfl
  refine runA_ok _ _ true noBad _ s _ _ _ hi (fun _ => priv) rfl ?_
  exact then_ok h1 <| then_ok h2 <| then_ok (leafOf_ok paged ho hl) <| pass_check (not_failed drains) <|
    then_ok (getState_run s4) <| then_ok ready <| then_ok hlines <| then_ok hvictims rfl

/-! ## KEYSET and KEYKILL (R155, R269) -/

theorem keyset_completes (s s1 s2 s3 s4 : State) (h : Hdr) (o : SS) (x va : Word) (b : List Byte)
    (hi : s.issueA (.keyset h o) h = some s1) (priv : (s.core s.cur).priv = true) (h1 : rdA o.s1 s1 = .ok x s2)
    (h2 : rdA o.s2 s2 = .ok va s3) (plain : field va 56 8 = 0) (region : regionOf va.toNat = 0) :
    let n := (field x 0 8).toNat
    ((s3.keyOf n).loaded = false ∨ (s3.keyOf n).retired = true) →
    memRead (panelOf s3.cur) 0 va.toNat 64 0 s3 = .ok b s4 →
    exec (.keyset h o) s = .next (s.endA (.keyset h o) h .next
      (s4.setKey n { key := lineOf b, loaded := true, retired := false })) := by
  intro n open0 hb
  have placed : ¬ (field va 56 8 != 0 || regionOf va.toNat != 0) = true := by
    rw [plain, region]
    exact Bool.false_ne_true
  have loads : ¬ ((s3.keyOf n).loaded && !(s3.keyOf n).retired) = true := by
    obtain h | h := open0 <;> simp [h]
  refine runA_ok _ _ true noBad _ s _ _ _ hi (fun _ => priv) rfl ?_
  exact then_ok h1 <| then_ok h2 <| pass_check placed <| then_ok (getState_run s3) <| pass_check loads <| then_ok hb <|
    then_ok (modState_run _ s4) rfl

theorem keykill_completes (s s1 s2 : State) (h : Hdr) (r : Reg) (x : Word) (hi : s.issueA (.keykill h r) h = some s1)
    (priv : (s.core s.cur).priv = true) (h1 : rdA r s1 = .ok x s2) :
    let n := field x 0 8
    n ≠ 0 →
    exec (.keykill h r) s = .next (s.endA (.keykill h r) h .next
      ((s2.killKey n).setKey n.toNat { s2.keyOf n.toNat with retired := true })) := by
  intro n own
  refine runA_ok _ _ true noBad _ s _ _ _ hi (fun _ => priv) rfl ?_
  exact then_ok h1 <| pass_check own <| then_ok (modState_run _ s2) rfl

/-! ## FMAP (R270) -/

theorem fmap_completes (s s1 s2 s3 : State) (h : Hdr) (r : Reg) (va : Word) (ws : List Word)
    (hi : s.issueA (.fmap h r) h = some s1) (priv : (s.core s.cur).priv = true) (h1 : rdA r s1 = .ok va s2)
    (plain : field va 56 8 = 0) (region : regionOf va.toNat ≤ 3) (aligned : va.toNat % 8 = 0)
    (window : regionOf va.toNat = 2 → winFirst (s2.core s2.cur).tag va.toNat 5 false s1Mask true s2 = .ok () s2)
    (hw : ((List.range 5).mapM (fun i => do
      let b ← aLoad (va.toNat + 8 * i) 8 0
      pure (wordOf b)) : M (List Word)) s2 = .ok ws s3)
    (named : feedReserved (fun i => ws.getD i 0) = false) (legal : feedOk (fun i => ws.getD i 0) = true) :
    exec (.fmap h r) s = .next (s.endA (.fmap h r) h .next
      (s3.installFeed s3.cur (feedOf s3 (s3.core s3.cur).feed fun i => ws.getD i 0))) := by
  have placed : ¬ (field va 56 8 != 0 || decide (3 < regionOf va.toNat)) = true := by
    rw [plain, decide_eq_false (Nat.not_lt.2 region)]
    exact Bool.false_ne_true
  have inWindow : regionOf va.toNat = 2 →
      winFirst (s2.core s2.cur).tag va.toNat 5 false s1Mask (decide (va.toNat % 8 = 0)) s2 = .ok () s2 := by
    rw [decide_eq_true aligned]
    exact window
  refine runA_ok _ _ true noBad _ s _ _ _ hi (fun _ => priv) rfl ?_
  exact then_ok h1 <| pass_check placed <| pass_part (fun two => then_ok (aTag_run s2) <| then_ok (inWindow two) rfl) <|
    pass_check (not_not.2 aligned) <| then_ok hw <| pass_check (Bool.eq_false_iff.1 named) <|
    pass_check (not_failed legal) <| then_ok (modState_run _ s3) rfl

/-! ## CTXSV and CTXLD (R271) -/

/-- The place of an image, in a region of memory and aligned, with an away entry free for it. -/
theorem ctxPlace_ok {va : Word} {spad away : Bool} {s : State} (plain : field va 56 8 = 0) (region : regionOf va.toNat ≤ 1)
    (aligned : va.toNat % 4096 = 0) (free0 : away = true) : ctxPlace va spad away s = .ok va.toNat s := by
  have placed : ¬ (field va 56 8 != 0 || decide (1 < regionOf va.toNat) || !away) = true := by
    rw [plain, decide_eq_false (Nat.not_lt.2 region), free0]
    exact Bool.false_ne_true
  unfold ctxPlace
  exact pass_check placed <| pass_check (not_not.2 aligned) rfl

theorem ctxsv_completes (s s1 s2 s3 s4 : State) (h : Hdr) (o : CtxOp) (va : Word) (i : Nat) (point : Option (BitVec 16))
    (hi : s.issueA (.ctxsv h o) h = some s1) (priv : (s.core s.cur).priv = true) (h1 : rdA o.s1 s1 = .ok va s2)
    (plain : field va 56 8 = 0) (region : regionOf va.toNat ≤ 1) (aligned : va.toNat % 4096 = 0) :
    let k := s2.core s2.cur
    k.freeAway = some i → k.safeAt = some point → k.enginesIdle = true → passXSafe s2 = .ok () s3 →
    let q := s3.core s3.cur
    q.savedErr o.spad = none →
    storeBlock (panelOf s3.cur) 0 va.toNat (ctxImage q (point.getD 0) o.spad (s3.budgetNow q)) s3 = .ok () s4 →
    exec (.ctxsv h o) s = .next (s.endA (.ctxsv h o) h .next
      ((({ s4 with saves := mapPut s4.saves va.toNat q.saved } : State).onCore s4.cur fun k =>
        k.savedCore i va.toNat).syncWire s4.cur)) := by
  intro k away safe idle hx q sound hb
  refine runA_ok _ _ true noBad _ s _ _ _ hi (fun _ => priv) rfl ?_
  refine then_ok h1 <| then_ok (getCore_run s2) <| then_ok (ctxPlace_ok plain region aligned (by rw [away]; rfl)) ?_
  rw [show (s2.core s2.cur).freeAway = some i from away, show (s2.core s2.cur).safeAt = some point from safe]
  dsimp only
  rw [idle]
  refine then_ok (stallIf_false s2) <| then_ok hx <| then_ok (getState_run s3) <| then_ok (getCore_run s3) ?_
  rw [show (s3.core s3.cur).savedErr o.spad = none from sound]
  exact then_ok hb <| then_ok (modState_run _ s4) <| then_ok (modCore_run _ _) <| then_ok (modState_run _ _) rfl

/-- Four free values, one after another. -/
theorem then_fourFree {β : Type} {f : Word → Word → Word → Word → M β} {s : State} {r : EStateM.Result Stop State β}
    (rest : f (Config.freeWord s.free) (Config.freeWord (s.free + 1)) (Config.freeWord (s.free + 2)) (Config.freeWord (s.free + 3))
      { s with free := s.free + 4 } = r) :
    (freeWord >>= fun f0 => freeWord >>= fun f1 => freeWord >>= fun f2 => freeWord >>= fun f3 => f f0 f1 f2 f3) s = r := rest

/-- The list of four values by their places. -/
theorem getD_four (g : Nat → Word) (n : Nat) :
    (fun i => [g n, g (n + 1), g (n + 2), g (n + 3)].getD i 0) = fun i => if i < 4 then g (n + i) else 0 := by
  funext i
  match i with
  | 0 | 1 | 2 | 3 => rfl
  | i + 4 => rw [if_neg (by omega)]; rfl

/-- The scratchpad of an image is read where the word names it. -/
theorem readSpad_ok {spad : Bool} {read : M (List Byte)} {s t : State} {sp : Option (List Byte)}
    (h : if spad then ∃ d, read s = .ok d t ∧ sp = some d else sp = none ∧ t = s) :
    (if spad = true then read >>= fun d => pure (some d) else pure none : M (Option (List Byte))) s = .ok sp t := by
  cases spad with
  | true =>
    obtain ⟨d, hd, rfl⟩ := h
    exact then_ok hd rfl
  | false =>
    obtain ⟨rfl, rfl⟩ := h
    rfl

theorem ctxld_completes (s s1 s2 s3 s4 s5 s6 s7 : State) (h : Hdr) (o : CtxOp) (va : Word) (b : List Byte)
    (sp : Option (List Byte)) (set : RangeSet) (hi : s.issueA (.ctxld h o) h = some s1) (priv : (s.core s.cur).priv = true)
    (h1 : rdA o.s1 s1 = .ok va s2) (plain : field va 56 8 = 0) (region : regionOf va.toNat ≤ 1) (aligned : va.toNat % 4096 = 0)
    (hb : memRead (panelOf s2.cur) 0 va.toNat 147456 0 s2 = .ok b s3) :
    let ws := wordsOf 2048 b
    let owner : Tag := field (imgWord ws 0) 0 12
    readRangeSet (panelOf s2.cur) owner s3 = .ok set s4 →
    ctxReserved ws = false → (imgFile ws).any (·.any RangeReg.bad) = false → set.any RangeReg.bad = false →
    (field (imgWord ws 0x38) 0 3).toNat < 5 → feedOk (imgFeed ws) = true →
    (if o.spad then ∃ d, memRead (panelOf s2.cur) 0 (va.toNat + 147456) 786432 0 s4 = .ok d s5 ∧ sp = some d
      else sp = none ∧ s5 = s4) →
    let f (i : Nat) : Word := if i < 4 then Config.freeWord (s5.free + i) else 0
    let x : LoadArgs := { set := set, cycle := s2.cycle, kept := s2.keptFor va.toNat ws, free := f }
    let u1 := (State.orphan { s5 with free := s5.free + 4 } s5.cur).onCore s5.cur fun k => k.loadCtx ws (b.drop 16384) sp x
    let u2 := u1.installFeed u1.cur (feedOf u1 (u1.core u1.cur).feed (imgFeed ws))
    s6 = (u2.dropWire u2.cur).syncWire u2.cur → freeHold s6.cur owner s6 = .ok () s7 →
    exec (.ctxld h o) s = .next (s.endA (.ctxld h o) h .stay (s7.assignAll (gathOf s7.cur))) := by
  intro ws owner hset named files registers mode ring hsp f x u1 u2 h6 hold
  have sound : ¬ (ctxReserved ws || (imgFile ws).any (·.any RangeReg.bad) || set.any RangeReg.bad) = true := by
    rw [named, files, registers]
    exact Bool.false_ne_true
  have legal : ¬ (decide (5 ≤ (field (imgWord ws 0x38) 0 3).toNat) || !feedOk (imgFeed ws)) = true := by
    rw [ring, decide_eq_false (Nat.not_le.2 mode)]
    exact Bool.false_ne_true
  refine runA_ok _ _ true noBad _ s _ _ _ hi (fun _ => priv) rfl ?_
  refine then_ok h1 <| then_ok (ctxPlace_ok plain region aligned rfl) <| then_ok (getState_run s2) <| then_ok hb <|
    then_ok (attempt_ok _ _ _ _ hset) <| pass_check sound <| pass_check legal <| then_ok (readSpad_ok hsp) <|
    then_ok (pure_run set s5) <| then_fourFree ?_
  subst h6
  rw [getD_four Config.freeWord s5.free]
  exact then_ok (modState_run _ _) <| then_ok (modCore_run _ _) <| then_ok (modState_run _ _) <| then_ok (modState_run _ _) <|
    then_ok (getState_run _) <| then_ok hold <| then_ok (modState_run _ s7) rfl

/-- Settles O17, word by word from what each body does in the handler. -/
theorem privilegedWords : Obligations.PrivilegedWords := by
  unfold Obligations.PrivilegedWords
  exact ⟨lptw_writes, lptw_answers, ldrain_writes, ldrain_answers, lconf_completes, keyset_completes, keykill_completes,
    fmap_completes, ctxsv_completes, ctxld_completes⟩

end Sys2Proof.Machine

/-! What the events of lines do: fills, re-reads, expiries, evictions and write-backs (spec 06 R119 to R129, 08 R149, R154, 25 R379,
R382), one lemma a case; and the statement put together from them. -/

namespace Sys2Proof.Machine

/-! ## Fills (R119, R379) -/

/-- A line of regions 0 and 1 is one that a fill brings. -/
theorem fillable_of_le {r : Nat} (h : r ≤ 1) : (decide (r = 0) || decide (r = 1) || decide (r = 4)) = true := by
  obtain rfl | rfl := Nat.le_one_iff_eq_zero_or_eq_one.1 h <;> rfl

theorem exec_l2Fill_home (s t : State) (p : BitVec 2) (o : Tag) (l : BitVec 50) (hr : regionOf (l.toNat * 64) ≤ 1)
    (hp : p.toNat = homePanel l.toNat) (h : needLine l.toNat 3 o 0 s = .ok () t) : exec (.l2Fill p o l) s = .next t := by
  change execL2Fill p o l s = _
  unfold execL2Fill
  dsimp only
  rw [if_pos (fillable_of_le hr)]
  apply runEvent_ok
  rw [if_pos hp]
  exact h

theorem exec_l2Fill_replica (s t : State) (p : BitVec 2) (o : Tag) (l : BitVec 50) (b : List Byte)
    (hr : regionOf (l.toNat * 64) ≤ 1) (hp : p.toNat ≠ homePanel l.toNat)
    (h : readLine p.toNat o (l.toNat * 64) 64 0 s = .ok b t) : exec (.l2Fill p o l) s = .next t := by
  change execL2Fill p o l s = _
  unfold execL2Fill
  dsimp only
  rw [if_pos (fillable_of_le hr)]
  apply runEvent_ok
  rw [if_neg hp]
  exact then_ok h rfl

/-! ## Entries of the translation caches (R119 to R121, R129) -/

/-- The re-read of an entry whose page table entry can be read: it is kept as the entry now stands, or goes. -/
theorem exec_leaseReread_read (s s1 : State) (c : BitVec 3) (k : Nat) (e : TcEntry) :
    (vget s.mem.ctls c.toNat).tc[k]? = some e → e.bad = false → e.reread = true →
    ptOpen (e.page * 2 ^ pageBits e.size.toNat) e.pte (s.pmPanel (c.toNat / 2) 0x104 1) = .ok () s1 →
    let u := s1.markPte c.toNat e.pte 54
    let w := u.ptWord e.pte
    let stamp := u.ftOf (homePanel (e.pte / 64))
    let e1 := { e with frame := field w 16 29, key := field w 46 8, w := pteW w, d := pteD w, lease := field w 58 4, stamp := stamp, reread := false, bad := false }
    let keep := pteV w = true ∧ pteDrain w = false ∧ pteLease w ≠ 0 ∧ pteSize w = e.size.toNat ∧ field w 0 16 = 0
    exec (.leaseReread c k) s = .next (u.onCtl c.toNat fun q =>
      { q with tc := if keep then listSet q.tc k e1 else listDrop q.tc k }) := by
  intro he hb hr hopen u w stamp e1 keep
  have kept : (pteV w && !pteDrain w && pteLease w != 0 && pteSize w == e.size.toNat && field w 0 16 == 0) = true ↔ keep := by
    simp only [Bool.and_eq_true, Bool.not_eq_true', bne_iff_ne, beq_iff_eq, and_assoc, keep]
  change execLeaseReread c k s = _
  simp only [execLeaseReread, he, hb, hr, Bool.not_true, Bool.false_eq_true, if_false]
  apply runEvent_ok
  refine then_ok (modState_run _ s) <| then_ok (attempt_ok _ _ _ _ hopen) <| then_ok (modState_run _ s1) ?_
  rw [modState_run]
  dsimp only [u, w, e1, stamp] at kept ⊢
  simp only [kept]

theorem exec_leaseReread_unread (s s1 : State) (f : Flt) (c : BitVec 3) (k : Nat) (e : TcEntry)
    (he : (vget s.mem.ctls c.toNat).tc[k]? = some e) (hb : e.bad = false) (hr : e.reread = true)
    (hopen : ptOpen (e.page * 2 ^ pageBits e.size.toNat) e.pte (s.pmPanel (c.toNat / 2) 0x104 1) = .error (.fault f) s1) :
    exec (.leaseReread c k) s = .next (s1.onCtl c.toNat fun q => { q with tc := listDrop q.tc k }) := by
  change execLeaseReread c k s = _
  simp only [execLeaseReread, he, hb, hr, Bool.not_true, Bool.false_eq_true, if_false]
  apply runEvent_ok
  exact then_ok (modState_run _ s) <| then_ok (attempt_fault hopen) rfl

/-- A live entry without a parity error stays, another goes. -/
theorem exec_tcEntryExpiry (s : State) (c : BitVec 3) (k : Nat) (e : TcEntry) (he : (vget s.mem.ctls c.toNat).tc[k]? = some e) :
    exec (.tcEntryExpiry c k) s = .next
      (if e.live (s.ftOf (c.toNat / 2)) = true ∧ e.bad = false then s
       else s.onCtl c.toNat fun q => { q with tc := listDrop q.tc k }) := by
  change execTcEntryExpiry c k s = _
  simp only [execTcEntryExpiry, he, Bool.and_eq_true, Bool.not_eq_true']
  split <;> rfl

/-! ## Evictions (R149, R154) -/

theorem exec_l2Eviction_replica (s : State) (p : BitVec 2) (l : BitVec 50) (r : Replica) (hp : p.toNat ≠ homePanel l.toNat)
    (hr : mapGet s.mem.replicas (replicaKey p.toNat l.toNat) = some r) (he : r.err = 0) :
    exec (.l2Eviction p (.line l)) s = .next
      (if s.mayChoose p.toNat (64 * p.toNat + sliceOfLine l.toNat % 64) (Config.l2Set false l.toNat) r.owner then
        s.onMem fun m => { m with replicas := mapDel m.replicas (replicaKey p.toNat l.toNat) }
      else s) := by
  have dropped : evictReplica p.toNat l.toNat r s =
      .ok () (s.onMem fun m => { m with replicas := mapDel m.replicas (replicaKey p.toNat l.toNat) }) := by
    unfold evictReplica
    rw [he]
    rfl
  change execL2Eviction p (.line l) s = _
  unfold execL2Eviction
  dsimp only
  rw [if_pos hp]
  simp only [hr, runEvent_ok _ _ _ dropped]
  split <;> rfl

/-- A homed line that its slice may choose is evicted, another stays. -/
theorem exec_l2Eviction_homed (s : State) (p : BitVec 2) (l : BitVec 50) (x : Line) (hp : p.toNat = homePanel l.toNat)
    (hx : s.line? l.toNat = some x) :
    exec (.l2Eviction p (.line l)) s =
      if s.mayChoose p.toNat (sliceOfLine l.toNat) (Config.l2Set false l.toNat) x.owner then runEvent (evictLine l.toNat x) s
      else .next s := by
  change execL2Eviction p (.line l) s = _
  unfold execL2Eviction
  dsimp only
  rw [if_neg (not_not.2 hp)]
  simp only [hx]

theorem evictLine_dirty {n : Nat} {x : Line} {s : State} (hf : x.failed = false) (he : x.err = 0) (hd : x.dirty = true)
    (hw : s.draining n = false) :
    evictLine n x s = .ok () ((s.onMem fun m => { m with writebacks := m.writebacks ++
      [{ line := n, data := s.lineData n, key := x.key, owner := x.owner }] }).dropLine n) := by
  unfold evictLine
  rw [bind_ok _ _ _ _ _ (getState_run s)]
  simp only [hf, he, hd, hw, bne_self_eq_false, Bool.not_true, Bool.false_eq_true, if_false]
  rfl

/-- A dirty line of a draining page stays (R129). -/
theorem evictLine_draining {n : Nat} {x : Line} {s : State} (hf : x.failed = false) (he : x.err = 0) (hd : x.dirty = true)
    (hw : s.draining n = true) : evictLine n x s = .ok () s := by
  unfold evictLine
  rw [bind_ok _ _ _ _ _ (getState_run s)]
  simp only [hf, he, hd, hw, bne_self_eq_false, Bool.not_true, Bool.false_eq_true, if_false, if_true]
  rfl

theorem evictLine_clean {n : Nat} {x : Line} {s : State} (hf : x.failed = false) (he : x.err = 0) (hd : x.dirty = false) :
    evictLine n x s = keepClean n x s := by
  unfold evictLine
  rw [bind_ok _ _ _ _ _ (getState_run s)]
  simp only [hf, he, hd, bne_self_eq_false, Bool.not_false, Bool.false_eq_true, if_false, if_true]

/-- A clean line whose frame holds its bytes goes to the victim cache that has room for it. -/
theorem keepClean_victim {n : Nat} {x : Line} {y : Xlat} {s u : State} (hx : xlatBack n s = .ok (some y) u) (hp : y.phys < 2 ^ 39)
    (hn : mapGet u.mem.victims (victimKey (y.phys / 64) x.key.toNat) = none)
    (hb : u.hbmLine (y.phys / 64) x.key.toNat = u.lineData n) (hv : u.victimFull (y.phys / 64) x.key.toNat = false) :
    keepClean n x s = .ok () ((u.toVictim y.phys x.key x.owner false (u.lineData n)).dropLine n) := by
  unfold keepClean
  refine then_ok (attempt_ok _ _ _ _ hx) <| then_ok (getState_run u) <| pass_check (Nat.not_le.2 hp) ?_
  dsimp only
  simp only [hn, hb, hv, Option.isNone_none, beq_self_eq_true, Bool.and_self, if_true]
  rfl

/-- It is only dropped where another line of the frame is there, or the frame holds other bytes. -/
theorem keepClean_dropped {n : Nat} {x : Line} {y : Xlat} {s u : State} (hx : xlatBack n s = .ok (some y) u) (hp : y.phys < 2 ^ 39)
    (h : mapGet u.mem.victims (victimKey (y.phys / 64) x.key.toNat) ≠ none ∨ u.hbmLine (y.phys / 64) x.key.toNat ≠ u.lineData n) :
    keepClean n x s = .ok () (u.dropLine n) := by
  have drops : ((mapGet u.mem.victims (victimKey (y.phys / 64) x.key.toNat)).isNone &&
      u.hbmLine (y.phys / 64) x.key.toNat == u.lineData n) = false := by
    rw [Bool.and_eq_false_iff, beq_eq_false_iff_ne, ← Bool.not_eq_true, Option.isNone_iff_eq_none]
    exact h
  unfold keepClean
  refine then_ok (attempt_ok _ _ _ _ hx) <| then_ok (getState_run u) <| pass_check (Nat.not_le.2 hp) ?_
  dsimp only
  simp only [drops, Bool.false_eq_true, if_false]
  rfl

theorem exec_l2Eviction_table (s : State) (p : BitVec 2) (l : BitVec 50) (x : PtLine) (hp : p.toNat = homePanel l.toNat)
    (hx : mapGet s.mem.pt l.toNat = some x) (hf : x.failed = false) (he : x.err = 0)
    (hc : s.mayChoose p.toNat (sliceOfLine l.toNat) (Config.l2Set true l.toNat) 0 = true) (hv : s.victimFull l.toNat 0 = false) :
    exec (.l2Eviction p (.table l)) s = .next (((if x.dirty = true then s.demand l.toNat else s).toVictim (l.toNat * 64) 0 0 x.dirty x.data).onMem
      fun m => { m with pt := mapDel m.pt l.toNat }) := by
  change execL2Eviction p (.table l) s = _
  unfold execL2Eviction
  simp only [hx, hc, ← hp, decide_true, Bool.and_self, if_true]
  apply runEvent_ok
  unfold evictPt
  rw [bind_ok _ _ _ _ _ (getState_run s)]
  simp only [hf, he, hv, bne_self_eq_false, Bool.false_eq_true, if_false]
  rfl

/-! ## Write-backs (R128, R154, R382) -/

/-- A write-back lands where its page table entry gives it a frame, with a slot that is not retired, and takes D. -/
theorem backLine_lands {b : WriteBack} {look : M (Option Xlat)} {land : Xlat → M Unit} {s u v : State} {y : Xlat}
    (hl : look s = .ok (some y) u) (hk : (u.keyOf b.key.toNat).retired = false) (hp : y.phys < 2 ^ 39)
    (hd : setDirty b.line y u = .ok () v) : backLine b look land s = land y v := by
  unfold backLine
  exact then_ok (attempt_ok _ _ _ _ hl) <| then_ok (getState_run u) <| pass_check (Bool.eq_false_iff.1 hk) <|
    pass_check (Nat.not_le.2 hp) <| then_ok (attempt_ok _ _ _ _ hd) rfl

/-- One without a page table entry is discarded: counted, with a record to its owner. -/
theorem backLine_discarded {b : WriteBack} {look : M (Option Xlat)} {land : Xlat → M Unit} {s u : State}
    (hl : look s = .ok none u) :
    backLine b look land s = appendFault (homePanel b.line) (memRec b.owner 0x12 (b.line * 64) 0 0)
      (u.onCtl (xlatCtl b.line) fun q => { q with disc := satInc q.disc }) := by
  unfold backLine
  exact then_ok (attempt_ok _ _ _ _ hl) <| then_ok (modState_run _ u) rfl

/-- A write-back in flight that reaches its controller has left the flight. -/
theorem exec_writebackArrival {s t : State} {k : Nat} {b : WriteBack} (hb : s.mem.writebacks[k]? = some b)
    (h : backLine b (xlatBack b.line) (fun x => do
        let s ← getState
        stallIf (s.victimFull (x.phys / 64) b.key.toNat)
        modState fun s => (s.demand (x.phys / 64)).toVictim x.phys b.key b.owner true b.data)
      (s.onMem fun m => { m with writebacks := listDrop m.writebacks k }) = .ok () t) :
    exec (.writebackArrival k) s = .next t := by
  change execWritebackArrival k s = _
  simp only [execWritebackArrival, hb]
  apply runEvent_ok
  exact then_ok (modMem_run _ s) h

theorem exec_writebackArrival_lands (s u v : State) (k : Nat) (b : WriteBack) (y : Xlat) (hb : s.mem.writebacks[k]? = some b)
    (hl : xlatBack b.line (s.onMem fun m => { m with writebacks := listDrop m.writebacks k }) = .ok (some y) u)
    (hk : (u.keyOf b.key.toNat).retired = false) (hp : y.phys < 2 ^ 39) (hd : setDirty b.line y u = .ok () v)
    (hv : v.victimFull (y.phys / 64) b.key.toNat = false) :
    exec (.writebackArrival k) s = .next ((v.demand (y.phys / 64)).toVictim y.phys b.key b.owner true b.data) := by
  refine exec_writebackArrival hb ((backLine_lands hl hk hp hd).trans ?_)
  refine then_ok (getState_run v) ?_
  rw [hv]
  exact then_ok (stallIf_false v) rfl

theorem exec_writebackArrival_discarded (s u t : State) (k : Nat) (b : WriteBack) (hb : s.mem.writebacks[k]? = some b)
    (hl : xlatBack b.line (s.onMem fun m => { m with writebacks := listDrop m.writebacks k }) = .ok none u)
    (hr : appendFault (homePanel b.line) (memRec b.owner 0x12 (b.line * 64) 0 0)
      (u.onCtl (xlatCtl b.line) fun q => { q with disc := satInc q.disc }) = .ok () t) :
    exec (.writebackArrival k) s = .next t :=
  exec_writebackArrival hb ((backLine_discarded hl).trans hr)

/-- A line of a victim cache is written to HBM where it is dirty, and leaves. -/
theorem exec_victimEviction (s : State) (c : BitVec 3) (l : BitVec 42) (k : Nat) (v : Victim)
    (hc : physCtl (l.toNat * 64) = c.toNat) (hb : s.hbmBusy c.toNat = false)
    (hv : (s.mem.victims.find? fun e => e.1 / 256 == l.toNat && e.2.err == 0) = some (k, v)) :
    let u := if v.cor = true then s.onCtl c.toNat Ctl.corrected else s
    exec (.victimEviction c l) s = .next
      ((if v.dirty = true then u.setHbmLine l.toNat (k % 256) v.data else u).onMem fun m =>
        { m with victims := mapDel m.victims k }) := by
  change execVictimEviction c l s = _
  simp only [execVictimEviction, hc, hb, hv, ne_eq, not_true, decide_false, Bool.or_self, Bool.false_eq_true, if_false]

/-- Settles O40, clause by clause from what each event of a line does. -/
theorem lineEvents : Obligations.LineEvents := by
  unfold Obligations.LineEvents
  refine ⟨exec_l2Fill_home, exec_l2Fill_replica, exec_leaseReread_read, exec_leaseReread_unread, exec_tcEntryExpiry,
    exec_l2Eviction_replica, ?homed, exec_l2Eviction_table, exec_writebackArrival_lands, exec_writebackArrival_discarded,
    exec_victimEviction⟩
  case homed =>
    intro s p l x hp hx n
    have evicts : ∀ {t}, s.mayChoose p.toNat (sliceOfLine n) (Config.l2Set false n) x.owner = true → evictLine n x s = .ok () t →
        exec (.l2Eviction p (.line l)) s = .next t := fun hc ht => by
      rw [exec_l2Eviction_homed s p l x hp hx, if_pos hc, runEvent_ok _ _ _ ht]
    refine ⟨fun hc => ?stays, fun hc hf he => ⟨fun hd hw => evicts hc (evictLine_dirty hf he hd hw), fun hd hw =>
      evicts hc (evictLine_draining hf he hd hw), fun u y hd hy hphys => ⟨fun hn hb hv => ?kept, fun h => ?dropped⟩⟩⟩
    case stays => rw [exec_l2Eviction_homed s p l x hp hx, if_neg (Bool.eq_false_iff.1 hc)]
    case kept => exact evicts hc ((evictLine_clean hf he hd).trans (keepClean_victim hy hphys hn hb hv))
    case dropped => exact evicts hc ((evictLine_clean hf he hd).trans (keepClean_dropped hy hphys h))

end Sys2Proof.Machine

/-! What the events of the memory side that concern one unit do: updates, sleeping monitors, refreshes, the scrubber, clock comparisons
and the constant path (spec 06 R132, 08 R152 to R162, 09 R168, 14 R258, 25 R386 to R394); and the statement put together from them. -/

namespace Sys2Proof.Machine

/-! ## Updates (R168) -/

/-- The conditions of an update, as `Mem.mayApply` tests them. -/
theorem mayApply_of {m : Mem} {before : List Update} {u : Update}
    (next : vcAt (vget m.clocks u.panel) u.src + 1 = vcAt u.stamp u.src)
    (seen : ∀ j, j < 4 → j ≠ u.src → vcAt u.stamp j ≤ vcAt (vget m.clocks u.panel) j)
    (first : ∀ b ∈ before, ¬ (b.panel = u.panel ∧ b.line = u.line)) : m.mayApply before u = true := by
  unfold Mem.mayApply
  simp only [Bool.and_eq_true, beq_iff_eq, List.all_eq_true, List.mem_range, Bool.or_eq_true, decide_eq_true_eq, Bool.not_eq_true',
    List.any_eq_false]
  exact ⟨⟨next, fun j hj => or_iff_not_imp_left.2 (seen j hj)⟩, first⟩

theorem exec_updateApply_next (s : State) (p : BitVec 2) (k : Nat) (u : Update) (hu : s.mem.updates[k]? = some u)
    (hp : u.panel = p.toNat) (hm : s.mem.mayApply (s.mem.updates.take k) u = true) :
    exec (.updateApply p k) s = .next (s.onMem fun m => { m with updates := listDrop m.updates k }.applyUpdate u) := by
  change execUpdateApply p k s = _
  simp only [execUpdateApply, hu, hp, hm, decide_true, Bool.and_self, if_true]

/-! ## Sleeping monitors (R258) -/

/-- Where an action ends with a value, the state it reaches meets `P`. -/
def EndsIn {α : Type} (P : State → Prop) (act : M α) : Prop := ∀ s a t, act s = .ok a t → P t

theorem endsIn_throw {α : Type} {P : State → Prop} {e : Stop} : EndsIn P (throw e : M α) := by
  intro s a t h
  change EStateM.Result.error e s = _ at h
  cases h

theorem endsIn_modState {P : State → Prop} {f : State → State} (h : ∀ s, P (f s)) : EndsIn P (modState f) := by
  intro s a t e
  rw [modState_run] at e
  exact (EStateM.Result.ok.inj e).2 ▸ h s

/-- The last of two actions decides. -/
theorem endsIn_bind {α β : Type} {P : State → Prop} {x : M α} {f : α → M β} (h : ∀ a, EndsIn P (f a)) : EndsIn P (x >>= f) := by
  intro s b t e
  cases hx : x s with
  | ok a u => exact h a u b t ((bind_ok _ _ _ _ _ hx).symm.trans e)
  | error r u => cases (bind_error hx).symm.trans e

/-- No monitor comes to a core that has none. -/
def NoNewMonitor (s t : State) : Prop := ∀ c : CoreId, (s.core c).monitor = none → (t.core c).monitor = none

/-- What appends a fault record arms no monitor: a write wakes those that are armed. -/
theorem noNewMonitor_order : RecOrder NoNewMonitor where
  refl _ _ h := h
  trans _ _ _ h1 h2 c h := h2 c (h1 c h)
  mem _ _ _ _ _ h := h
  count _ _ _ _ _ h := h
  change s la c h := by
    unfold State.change
    split <;> exact h
  wake s line c h := by
    unfold State.core at h
    unfold State.wake State.core
    simp only
    rw [mapGet_map]
    · cases hk : mapGet s.cores c.toNat with
      | none => rfl
      | some k =>
        rw [hk] at h
        simp only [Option.getD_some] at h
        simp only [Option.map_some, Option.getD_some, h]
    · intro e
      split
      · split <;> rfl
      · rfl
  used _ _ _ h := h
  queue _ _ _ _ h := h
  raised _ _ h := h
  waits _ _ _ h := h

theorem noNewMonitor_setCore {s : State} {c : CoreId} {k : Core} (h : (s.core c).monitor = none → k.monitor = none) :
    NoNewMonitor s (s.setCore c k) := by
  intro d hd
  by_cases e : d = c
  · subst e
    rw [core_setCore_same]
    exact h hd
  · rw [core_setCore_other _ _ _ _ e]
    exact hd

theorem NoNewMonitor.onCore {s t : State} (h : NoNewMonitor s t) {c : CoreId} {f : Core → Core}
    (hf : ∀ k : Core, k.monitor = none → (f k).monitor = none) : NoNewMonitor s (t.onCore c f) :=
  noNewMonitor_order.trans _ _ _ h (noNewMonitor_setCore fun ht => hf _ ht)

theorem NoNewMonitor.syncWire {s t : State} (h : NoNewMonitor s t) {c : CoreId} : NoNewMonitor s (t.syncWire c) := by
  intro d hd
  rw [core_syncWire]
  exact h d hd

theorem monitor_enterHandler {k : Core} {cause word addr ret : Word} {at0 : Nat} (h : k.monitor = none) :
    (k.enterHandler cause word addr ret at0).monitor = none := h

/-- A record that a step makes after its own effect arms no monitor. -/
theorem noNewMonitor_record {s : State} {act : M Unit} (h : Keeps NoNewMonitor act) : NoNewMonitor s (also act s) :=
  keeps_also noNewMonitor_order.toOrder h s

/-- The completion-time signal of an A word, refused or not, arms no monitor. -/
theorem noNewMonitor_aComplete {s : State} {h : Hdr} {w : Word} {r : BitVec 13} : NoNewMonitor s (s.aComplete h w r) := by
  unfold State.aComplete
  dsimp only
  split
  · exact noNewMonitor_order.refl s
  split
  · rename_i ha
    exact noNewMonitor_setCore fun hs => by rw [addFlag_flags ha]; exact hs
  · split
    · unfold State.raiseWire
      refine NoNewMonitor.syncWire ?_
      refine NoNewMonitor.onCore ?_ fun _ hk => hk
      refine NoNewMonitor.onCore ?_ fun _ hk => hk
      exact noNewMonitor_record (keeps_appendTo noNewMonitor_order _ _ _)
    · refine NoNewMonitor.onCore ?_ fun _ hk => monitor_enterHandler hk
      exact noNewMonitor_record (keeps_appendFault noNewMonitor_order _ _)

theorem noNewMonitor_endLate {s : State} {c : CoreId} : NoNewMonitor s (s.endLate c) := by
  have moved : NoNewMonitor s (s.onCore c fun k => { k with movedAt := s.cycle }) :=
    .onCore (noNewMonitor_order.refl s) fun _ hk => hk
  unfold State.endLate
  dsimp only
  split
  · refine NoNewMonitor.syncWire ?_
    refine NoNewMonitor.onCore moved ?_
    exact fun _ hk => hk
  · exact moved

theorem noNewMonitor_wakeCluster {s : State} {n : Nat} : NoNewMonitor s (s.wakeCluster n) := by
  unfold State.wakeCluster
  split <;> exact fun _ h => h

/-- A MONW that has ended sleeps no longer. -/
theorem endsIn_monwEnd {c : CoreId} {r : Word} : EndsIn (fun t => (t.core c).monitor = none) (monwEnd c r) := by
  unfold monwEnd
  refine endsIn_bind fun _ => endsIn_bind fun k => ?_
  dsimp only
  split
  · refine endsIn_bind fun _ => endsIn_bind fun _ => endsIn_modState fun s => ?_
    refine noNewMonitor_endLate c (noNewMonitor_aComplete c (noNewMonitor_wakeCluster c ?_))
    rw [core_onCore_same]
  · exact endsIn_throw

theorem exec_monwWake_woken (s t : State) (c : CoreId) (m : Monitor) (hm : (s.core c).monitor = some m) (hw : m.woken = true)
    (h : monwEnd c 0 (s.onMem fun q => q.catchUp (panelOf c) (s.stampOf m.line)) = .ok () t) : exec (.monwWake c) s = .next t := by
  change execMonwWake c s = _
  simp only [execMonwWake, hm, hw, if_true]
  exact runEvent_ok _ _ _ (then_ok (modState_run _ s) h)

theorem exec_monwTimeout_due (s t : State) (c : CoreId) (m : Monitor) (d : Nat) (hm : (s.core c).monitor = some m)
    (hw : m.woken = false) (hd : m.deadline = some d) (past : d ≤ (s.ftOf (panelOf c)).toNat) (h : monwEnd c 2 s = .ok () t) :
    exec (.monwTimeout c) s = .next t := by
  have out : s.timedOut (panelOf c) m = true := by
    simp only [State.timedOut, hd]
    exact decide_eq_true past
  change execMonwTimeout c s = _
  simp only [execMonwTimeout, hm, hw, out, Bool.not_false, Bool.and_self, if_true]
  exact runEvent_ok _ _ _ h

/-! ## Refresh (R156, R392) -/

theorem exec_refresh_starts (s : State) (k : BitVec 3) (hr : (vget s.mem.ctls k.toNat).refreshing = false)
    (hb : s.balNow (vget s.mem.ctls k.toNat) < 8) :
    exec (.refresh k) s = .next
      (s.onCtl k.toNat fun q => { s.balance q with bal := s.balNow q + 1, refreshing := true }) := by
  change execRefresh k s = _
  simp only [execRefresh, hr, decide_eq_false (Int.not_le.2 hb), Bool.or_self, Bool.false_eq_true, if_false]

/-! ## Scrubbing (R152, R157) -/

theorem onCtl_onCtl (s : State) (h : Nat) (f g : Ctl → Ctl) (hh : h < 8) :
    (s.onCtl h f).onCtl h g = s.onCtl h fun q => g (f q) := by
  have same : vget (vset s.mem.ctls h (f (vget s.mem.ctls h))) h = f (vget s.mem.ctls h) := vget_vset_same _ _ _ hh
  simp only [State.onCtl, State.onMem, same]
  simp [vset]

theorem hbmUnc_onCtl (s : State) (h : Nat) (f : Ctl → Ctl) : (s.onCtl h f).mem.hbmUnc = s.mem.hbmUnc := rfl
theorem hbmCor_onCtl (s : State) (h : Nat) (f : Ctl → Ctl) : (s.onCtl h f).mem.hbmCor = s.mem.hbmCor := rfl

/-- A granule without an uncorrectable error is read; one that a correction mends is kept to be written back. -/
theorem exec_scrubRead_next (s : State) (k : BitVec 3) :
    let q := vget s.mem.ctls k.toNat
    let g := physOfStack k.toNat q.scrubPos.toNat / 64
    q.scrubEn = true → q.srate ≠ 0 → s.hbmBusy k.toNat = false → q.scrub = none → g ∉ s.mem.hbmUnc →
    exec (.scrubRead k) s = .next (s.onCtl k.toNat fun q =>
      if g ∈ s.mem.hbmCor then { q with scrubPos := q.scrubPos + 64, scrub := some (g, lineOf (bytesAt s.mem.hbm (g * 64) 64)) }
      else { q with scrubPos := q.scrubPos + 64 }) := by
  intro q g en rate idle none unc
  have go : (!q.scrubEn || q.srate == 0 || s.hbmBusy k.toNat || q.scrub.isSome) = false := by
    rw [en, beq_false_of_ne rate, idle, none]
    rfl
  have clean : ¬ s.mem.hbmUnc.contains g = true := fun h => unc (List.contains_iff_mem.1 h)
  change execScrubRead k s = _
  unfold execScrubRead
  dsimp only
  rw [if_neg (Bool.eq_false_iff.1 go), hbmUnc_onCtl, if_neg clean, hbmCor_onCtl]
  by_cases hc : g ∈ s.mem.hbmCor
  · rw [if_pos (List.contains_iff_mem.2 hc), onCtl_onCtl _ _ _ _ k.isLt]
    simp only [hc, if_true]
    rfl
  · rw [if_neg fun h => hc (List.contains_iff_mem.1 h)]
    simp only [hc, if_false]

theorem exec_scrubWriteback_next (s : State) (k : BitVec 3) (g : Nat) (d : BitVec 512)
    (hs : (vget s.mem.ctls k.toNat).scrub = some (g, d)) (hb : s.hbmBusy k.toNat = false) :
    exec (.scrubWriteback k) s = .next ((s.onMem fun m => { m with
      hbm := setBytes m.hbm (g * 64) (lineBytes d), hbmCor := m.hbmCor.filter (· ≠ g) }).onCtl k.toNat fun q =>
        { q with corr := satInc q.corr, scrub := none }) := by
  change execScrubWriteback k s = _
  simp only [execScrubWriteback, hs, hb, Bool.false_eq_true, if_false, bne, Bool.beq_eq_decide_eq, decide_not]

/-! ## Clock skew (R132, R386) -/

theorem vget_map {α β : Type} [Inhabited α] [Inhabited β] {n : Nat} (v : Vector α n) (f : α → β) (i : Nat) (h : i < n) :
    vget (v.map f) i = f (vget v i) := by
  rw [vget_lt _ _ h, vget_lt _ _ h, Vector.getElem_map]

theorem ctl_onCtl (s : State) (h : Nat) (f : Ctl → Ctl) (hh : h < 8) : vget (s.onCtl h f).mem.ctls h = f (vget s.mem.ctls h) :=
  vget_vset_same _ _ _ hh

/-- A controller near enough keeps the skew, and counts one more good comparison, up to three; whether or not every controller has
three then, which ends UNCACHED. -/
theorem exec_skewCompare_near (s : State) (k : BitVec 3) (h : (s.ftOf (k.toNat / 2) - s.ft).toInt.natAbs ≤ 16) :
    ∃ t, exec (.skewCompare k) s = .next t ∧
      (vget t.mem.ctls k.toNat).skew = field (s.ftOf (k.toNat / 2) - s.ft) 0 16 ∧
      (vget t.mem.ctls k.toNat).good = (if (vget s.mem.ctls k.toNat).good = 3 then 3 else (vget s.mem.ctls k.toNat).good + 1) := by
  change ∃ t, execSkewCompare k s = .next t ∧ _
  unfold execSkewCompare
  dsimp only
  rw [if_neg (by simpa using h), onCtl_onCtl _ _ _ _ k.isLt]
  have here := ctl_onCtl s k.toNat (fun q => { q with skew := field (s.ftOf (k.toNat / 2) - s.ft) 0 16,
                                                      good := if q.good = 3 then 3 else q.good + 1 }) k.isLt
  split
  · refine ⟨_, rfl, ?_⟩
    rw [mem_onMem, vget_map _ _ _ k.isLt]
    dsimp only
    rw [here]
    exact ⟨rfl, rfl⟩
  · refine ⟨_, rfl, ?_⟩
    rw [here]
    exact ⟨rfl, rfl⟩

theorem exec_skewCompare_far (s t : State) (k : BitVec 3) :
    let d := s.ftOf (k.toNat / 2) - s.ft
    16 < d.toInt.natAbs →
    appendTo 0 (k.toNat / 2) (memRec 0 0x15 0 (k.setWidth 64) ((field d 0 16).setWidth 64))
      ((s.onCtl k.toNat fun q => { q with skew := field d 0 16 }).onMem fun m => { m with
        ctls := m.ctls.map fun q => { q with tc := [], uncached := true, good := 0 }
        lines := m.lines.map fun e => (e.1, { e.2 with exp := 0 }) }) = .ok () t →
    exec (.skewCompare k) s = .next t := by
  intro d far h
  have number : w64 k.toNat = k.setWidth 64 := BitVec.ofNat_toNat 64 k
  change execSkewCompare k s = _
  unfold execSkewCompare
  dsimp only
  rw [if_pos (decide_eq_true far), number]
  exact runEvent_ok _ _ _ h

/-! ## The constant path (R162, R394) -/

theorem exec_ccinv (s : State) (p : BitVec 2) :
    exec (.ccinv p) s = .next (s.onMem fun m => { m with const := m.const.filter fun e => e.1 / 2 ^ 50 ≠ p.toNat }) := by
  change execCcinv p s = _
  simp only [execCcinv, Mem.dropConst, bne, Bool.beq_eq_decide_eq, decide_not]

/-- Settles O41, clause by clause from what each event does. -/
theorem memorySideEvents : Obligations.MemorySideEvents := by
  unfold Obligations.MemorySideEvents
  refine ⟨?update, ?wake, ?timeout, exec_refresh_starts, fun _ _ => rfl, fun _ _ _ => rfl, exec_scrubRead_next,
    exec_scrubWriteback_next, exec_skewCompare_near, exec_skewCompare_far, exec_ccinv⟩
  case update =>
    intro s p k u hu hp next seen first
    exact exec_updateApply_next s p k u hu hp (mayApply_of next seen first)
  case wake =>
    intro s t c m hm hw h
    exact ⟨exec_monwWake_woken s t c m hm hw h, endsIn_monwEnd _ _ _ h⟩
  case timeout =>
    intro s t c m d hm hw hd past h
    exact ⟨exec_monwTimeout_due s t c m d hm hw hd past h, endsIn_monwEnd _ _ _ h⟩

end Sys2Proof.Machine

/-! The commands of the weight store and the events of the change tree, one lemma a case, and the statement put together from them
(spec 07 R137 to R146, 08 R159 to R161, 25 R393). -/

namespace Sys2Proof.Machine

/-- A unit that no longer waits on a draining page is taken off the controllers' lists, and off nothing else (R385). -/
theorem undrainAt_ctls (s : State) (key : Nat) : ∃ q, s.undrainAt key = s.onMem fun m => { m with ctls := q } := by
  unfold State.undrainAt
  split
  · exact ⟨_, rfl⟩
  · exact ⟨s.mem.ctls, rfl⟩

/-! ## The weight store's commands (R146, R159 to R161) -/

/-- A lock whose checks pass waits for its binding. -/
theorem exec_wlock_waits (s s1 s2 : State) (i : BitVec 12) (d : Nat) (idle : s.ws.busy = false)
    (unlocked : (s.wid i.toNat).locked = false) (hn : wsNode (s.wid i.toNat).node s = .ok (some d) s1)
    (hb : wsBound d s1 = .ok false s2) (hf : s2.widFree i.toNat = true) (he : (s.wid i.toNat).extentOk = true) :
    exec (.wlock i) s = .next ({ s2 with ws := { s2.ws with busy := true, pending := some i } }.undrainAt unitWeights) := by
  change runUnit unitWeights (wlockCmd i) s = _
  refine runUnit_ok _ _ _ _ ?_
  unfold wlockCmd
  exact then_ok (getState_run s) <| pass_check (Bool.eq_false_iff.1 idle) <| pass_check (Bool.eq_false_iff.1 unlocked) <|
    then_ok hn <| then_ok hb <| pass_check Bool.false_ne_true <| then_ok (getState_run s2) <| pass_check (not_failed hf) <|
    pass_check (not_failed he) rfl

/-- The four panels' constant caches are emptied. -/
theorem dropConsts_const (m : Mem) : ∀ e ∈ m.dropConsts.const, 4 ≤ e.1 / 2 ^ 50 := by
  intro e he
  simp [Mem.dropConsts, Mem.dropConst, List.range_succ, List.mem_filter] at he
  omega

/-- The state in which a lock is complete: the entry is locked with its node's count `c`, and every Gatherer has its view. -/
def State.bound (s : State) (i : BitVec 12) (w : Wid) (c : Word) : State :=
  let s := s.setWid i.toNat { w with regCount := c, locked := true }
  { (s.onMem Mem.dropConsts) with
    gath := s.gath.map fun g => { g with views := setView g.views w.wid c }
    ws := { s.ws with err := 0, busy := false, pending := none }
    host := { s.host with swDue := true } }

theorem wid_setWid_same (s : State) (i : Nat) (w : Wid) : (s.setWid i w).wid i = w := by
  simp [State.setWid, State.wid]

theorem views_bound (s : State) (i : BitVec 12) (w : Wid) (c : Word) (g : Nat) (hg : g < 8) :
    (vget (s.bound i w c).gath g).views.head? = some (w.wid, c) :=
  congrArg (fun q : Gatherer => q.views.head?) (vget_map s.gath _ g hg)

/-- Engine 0 binds the node of the waiting lock, and the lock completes. -/
theorem exec_widBinding_binds (s s1 s2 s2' s3 s4 : State) (i : BitVec 12) (n : Nat) (w c : Word) (hp : s.ws.pending = some i)
    (on : (s.rollup 0).en = true) (hn : wsNode (s.wid i.toNat).node s = .ok (some n) s1) (hw : nodeWord n 1 s1 = .ok w s2)
    (unbound : ndWlk w = false) (hs : settle n s2 = .ok () s2') (hput : nodePut 0 n 1 (w ||| maskIf true 60 1) s2' = .ok () s3)
    (hc : nodeWord n 0 s3 = .ok c s4) :
    exec .widBinding s = .next ((s4.bound i (s.wid i.toNat) c).undrainAt unitWeights) := by
  change execWidBinding s = _
  unfold execWidBinding
  simp only [hp, on, Bool.not_true, Bool.false_eq_true, if_false]
  exact runUnit_ok _ _ _ _ <| then_ok hn <| then_ok hw <| pass_check (Bool.eq_false_iff.1 unbound) <| then_ok hs <| then_ok hput <|
    then_ok hc rfl

theorem widBinding_binds (s s1 s2 s2' s3 s4 : State) (i : BitVec 12) (n : Nat) (w c : Word) (hp : s.ws.pending = some i)
    (on : (s.rollup 0).en = true) (hn : wsNode (s.wid i.toNat).node s = .ok (some n) s1) (hw : nodeWord n 1 s1 = .ok w s2)
    (unbound : ndWlk w = false) (hs : settle n s2 = .ok () s2') (hput : nodePut 0 n 1 (w ||| maskIf true 60 1) s2' = .ok () s3)
    (hc : nodeWord n 0 s3 = .ok c s4) :
    ∃ t, exec .widBinding s = .next t ∧ t.ws.busy = false ∧ t.ws.pending = none ∧ t.ws.err = 0 ∧
      t.wid i.toNat = { s.wid i.toNat with regCount := c, locked := true } ∧ (∀ e ∈ t.mem.const, 4 ≤ e.1 / 2 ^ 50) ∧
      t.host.swDue = true ∧ ∀ g, g < 8 → (vget t.gath g).views.head? = some ((s.wid i.toNat).wid, c) := by
  refine ⟨_, exec_widBinding_binds s s1 s2 s2' s3 s4 i n w c hp on hn hw unbound hs hput hc, ?_⟩
  obtain ⟨q, hq⟩ := undrainAt_ctls (s4.bound i (s.wid i.toNat) c) unitWeights
  rw [hq]
  exact ⟨rfl, rfl, rfl, wid_setWid_same _ _ _, dropConsts_const s4.mem, rfl, views_bound _ _ _ _⟩

/-- The state in which an unlock is complete: the entry is free, and no Gatherer has its view. -/
def State.unbound (s : State) (i : Nat) (w : Wid) : State :=
  let s := s.setWid i { w with locked := false }
  { s with gath := s.gath.map fun g => { g with views := g.views.filter fun e => e.1 != w.wid }
           ws := { s.ws with err := 0, busy := false, pending := none }
           host := { s.host with swDue := true } }

theorem wid_unbound (s : State) (i : Nat) (w : Wid) : (s.unbound i w).wid i = { w with locked := false } :=
  wid_setWid_same s i _

theorem views_unbound (s : State) (i : Nat) (w : Wid) (g : Nat) (hg : g < 8) :
    ∀ e ∈ (vget (s.unbound i w).gath g).views, e.1 ≠ w.wid := by
  have kept : (vget (s.unbound i w).gath g).views = (vget s.gath g).views.filter fun e => e.1 != w.wid :=
    congrArg Gatherer.views (vget_map s.gath _ g hg)
  intro e he
  rw [kept] at he
  exact bne_iff_ne.1 (List.mem_filter.1 he).2

/-- An unlock of an entry whose node is gone. -/
theorem exec_wunlock_nodeless (s s1 : State) (i : BitVec 12) (idle : s.ws.busy = false) (locked : (s.wid i.toNat).locked = true)
    (hn : wsNode (s.wid i.toNat).node s = .ok none s1) :
    exec (.wunlock i) s = .next ((s1.unbound i.toNat (s.wid i.toNat)).undrainAt unitWeights) := by
  change runUnit unitWeights (wunlockCmd i) s = _
  refine runUnit_ok _ _ _ _ ?_
  unfold wunlockCmd
  exact then_ok (getState_run s) <| pass_check (Bool.eq_false_iff.1 idle) <| pass_check (not_failed locked) <| then_ok hn rfl

/-- An unlock frees the binding of its node. -/
theorem exec_wunlock_frees (s s1 s2 s3 : State) (i : BitVec 12) (n : Nat) (w : Word) (idle : s.ws.busy = false)
    (locked : (s.wid i.toNat).locked = true) (hn : wsNode (s.wid i.toNat).node s = .ok (some n) s1)
    (hw : nodeWord n 1 s1 = .ok w s2) (hput : nodePut 0 n 1 (w &&& ~~~(maskIf true 60 1)) s2 = .ok () s3) :
    exec (.wunlock i) s = .next ((s3.unbound i.toNat (s.wid i.toNat)).undrainAt unitWeights) := by
  change runUnit unitWeights (wunlockCmd i) s = _
  refine runUnit_ok _ _ _ _ ?_
  unfold wunlockCmd
  exact then_ok (getState_run s) <| pass_check (Bool.eq_false_iff.1 idle) <| pass_check (not_failed locked) <| then_ok hn <|
    then_ok (attempt_ok _ _ _ _ hw) <| then_ok hput rfl

/-- What an unlock does to memory is what the writing of its node does. -/
theorem mem_undrainAt_unbound (s : State) (i : Nat) (w : Wid) (key : Nat) :
    ((s.unbound i w).undrainAt key).mem = (s.undrainAt key).mem := by
  unfold State.undrainAt
  change (if s.mem.ctls.any _ then _ else _ : State).mem = _
  split <;> rfl

/-- A command of a reserved OP fails with code 6. -/
theorem exec_wscmdReservedOp_fails (s t : State) (op : BitVec 2) (i : BitVec 12) (idle : s.ws.busy = false) (h1 : op ≠ 1)
    (h2 : op ≠ 2)
    (h : appendTo 0 0 (memRec 0 0x04 0 (i.setWidth 64) 6)
      { s with ws := { s.ws with err := 6, busy := false, pending := none } } = .ok () t) :
    exec (.wscmdReservedOp op i) s = .next t := by
  have number : w64 i.toNat = i.setWidth 64 := BitVec.ofNat_toNat 64 i
  change execWscmdReservedOp op i s = _
  unfold execWscmdReservedOp
  simp only [idle, h1, h2, decide_false, Bool.or_self, Bool.false_eq_true, if_false]
  refine runEvent_ok _ _ _ ?_
  unfold wsFail
  rw [number]
  exact then_ok (modState_run _ _) h

/-! ## Changes and deltas (R137, R139 to R143) -/

section
variable {s : State} {k x : Nat}

/-- A change of a patch that is not enrolled is gone. -/
theorem exec_patchChange_unenrolled (hx : s.tree.changes[k]? = some x) (hr : mapGet s.tree.patches x = none) :
    exec (.patchChange k) s = .next { s with tree := { s.tree with changes := listDrop s.tree.changes k } } := by
  change execPatchChange k s = _
  unfold execPatchChange
  simp only [hx, hr]

variable {s1 : State} {r : Patch} (hx : s.tree.changes[k]? = some x) (hr : mapGet s.tree.patches x = some r)
  (on : (s.rollup (patchPanel x)).en = true)
include hx hr on

/-- A change raises the count in its patch's record and starts a delta at the leaf. -/
theorem exec_patchChange_rises {s2 : State} {leaf : Nat} {n : Word}
    (hq : patchRecord x r { s with tree := { s.tree with changes := listDrop s.tree.changes k } } = .ok (some (leaf, n)) s1)
    (hput : patchPut x (s1.patchAt x r + 8) (bytesOfW 8 (n + 1)) s1 = .ok () s2) :
    exec (.patchChange k) s = .next ((s2.addDelta leaf).undrainAt (unitTree (patchPanel x))) := by
  change execPatchChange k s = _
  unfold execPatchChange
  simp only [hx, hr, on, Bool.not_true, Bool.false_eq_true, if_false]
  rw [then_ok hq <| then_ok (getState_run s1) <| then_ok hput <| modState_run _ s2]

/-- A change whose record does not stand in the table, or is lost, changes no count. -/
theorem exec_patchChange_unrecorded
    (hq : patchRecord x r { s with tree := { s.tree with changes := listDrop s.tree.changes k } } = .ok none s1) :
    exec (.patchChange k) s = .next (s1.undrainAt (unitTree (patchPanel x))) := by
  change execPatchChange k s = _
  unfold execPatchChange
  simp only [hx, hr, on, Bool.not_true, Bool.false_eq_true, if_false]
  rw [then_ok hq (pure_run () s1)]

end

/-- The state in which a roll-up engine has written a node's new count `c` to its entry, and forwarded the delta where it rises past
the node, whose second word is `w`. -/
def State.deltaDone (s : State) (d : Delta) (c w : Word) : State :=
  let v := s.pmPanel (s.nodeEngine d.node.toNat) 0x106 1
  let u := if ndWlk w then v.noteCount d.node.toNat c else v
  let up : Delta := { d with node := field w 0 24, engine := u.nodeEngine (ndParent w) }
  if d.rise = true ∧ ndParent w ≠ noNode then { u with tree := { u.tree with deltas := u.tree.deltas ++ [up] } } else u

/-- A body goes on from a change of the state that some cases make. -/
theorem change_if {α : Type} {c : Prop} [Decidable c] {f : State → State} {x : M α} {s : State} {r : EStateM.Result Stop State α}
    (rest : x (if c then f s else s) = r) : (if c then modState f >>= fun _ => x else x) s = r := by
  rw [← rest]
  split <;> rfl

theorem applyDelta_ok {s s1 s2 s3 : State} {d : Delta} {c w : Word} (hc : nodeWord d.node.toNat 0 s = .ok c s1)
    (hw : nodeWord d.node.toNat 1 s1 = .ok w s2)
    (hput : nodePut (s2.nodeEngine d.node.toNat) d.node.toNat 0 (c + BitVec.ofNat 64 d.amount) s2 = .ok () s3) :
    applyDelta d s = .ok () (s3.deltaDone d (c + BitVec.ofNat 64 d.amount) w) := by
  unfold applyDelta
  refine then_ok hc <| then_ok hw <| then_ok (getState_run s2) <| then_ok hput <| then_ok (modState_run _ s3) <|
    change_if (change_if ?_)
  unfold State.deltaDone
  simp only [Bool.and_eq_true, bne_iff_ne]

/-- A delta that no other holds back is applied to its node and forwarded. -/
theorem exec_deltaApply_rolls (s s1 s2 s3 : State) (k : Nat) (d : Delta) (c w : Word) (hd : s.tree.deltas[k]? = some d)
    (on : (s.rollup (s.nodeEngine d.node.toNat)).en = true) (hf : s.deltaHeld d = false)
    (hc : nodeWord d.node.toNat 0 { s with tree := { s.tree with deltas := listDrop s.tree.deltas k } } = .ok c s1)
    (hw : nodeWord d.node.toNat 1 s1 = .ok w s2)
    (hput : nodePut (s2.nodeEngine d.node.toNat) d.node.toNat 0 (c + BitVec.ofNat 64 d.amount) s2 = .ok () s3) :
    exec (.deltaApply k) s =
      .next ((s3.deltaDone d (c + BitVec.ofNat 64 d.amount) w).undrainAt (unitTree (s.nodeEngine d.node.toNat))) := by
  change execDeltaApply k s = _
  unfold execDeltaApply
  simp only [hd, on, hf, Bool.not_true, Bool.or_self, Bool.false_eq_true, if_false]
  exact runUnit_ok _ _ _ _ <| then_ok (modState_run _ s) <| then_ok (attempt_ok _ _ _ _ (applyDelta_ok hc hw hput)) rfl

/-! ## Registers of the roll-up engines (R137, R393) -/

theorem rollup_onRollup_same (s : State) (p : BitVec 2) (f : RollUp → RollUp) :
    (s.onRollup p.toNat f).rollup p.toNat = f (s.rollup p.toNat) := vget_vset_same _ _ _ p.isLt

theorem rollup_onRollup_other (s : State) (p q : Nat) (f : RollUp → RollUp) (h : q ≠ p) :
    (s.onRollup p f).rollup q = s.rollup q := vget_vset_other _ _ _ _ h

/-- PT_CAP holds at most 16. -/
theorem ptcap_capped (v : BitVec 5) : (if 16 < v.toNat then 16 else v).toNat = min 16 v.toNat := by
  split
  · simp only [BitVec.reduceToNat]
    omega
  · omega

theorem exec_ptcapWrite_capped (s : State) (p : BitVec 2) (v : Word) :
    ∃ t, exec (.ptcapWrite p v) s = .next t ∧ (vget t.tree.engines p.toNat).ptLog.toNat = min 16 (field v 0 5).toNat ∧
      ∀ q, q < 4 → q ≠ p.toNat → vget t.tree.engines q = vget s.tree.engines q := by
  refine ⟨_, rfl, ?_, fun q _ hq => rollup_onRollup_other s _ q _ hq⟩
  rw [← ptcap_capped]
  exact congrArg (·.ptLog.toNat) (rollup_onRollup_same s p _)

theorem exec_rerrClear_one (s : State) (p : BitVec 2) (v : Word) :
    ∃ t, exec (.rerrClear p v) s = .next t ∧ (vget t.tree.engines p.toNat).err = ((s.rollup p.toNat).err && !(bit v 63)) ∧
      ∀ q, q < 4 → q ≠ p.toNat → vget t.tree.engines q = vget s.tree.engines q :=
  ⟨_, rfl, congrArg (·.err) (rollup_onRollup_same s p _), fun q _ hq => rollup_onRollup_other s _ q _ hq⟩

/-- Settles O39, clause by clause from what each command, change, delta and register write does. -/
theorem weightAndTreeEvents : Obligations.WeightAndTreeEvents := by
  unfold Obligations.WeightAndTreeEvents
  refine ⟨⟨exec_wlock_waits, widBinding_binds, ?gone, ?freed, exec_wscmdReservedOp_fails⟩,
    fun s s1 s2 k x leaf r n hx hr on => exec_patchChange_rises hx hr on,
    fun s s1 k x r hx hr on => exec_patchChange_unrecorded hx hr on, fun s k x => exec_patchChange_unenrolled,
    exec_deltaApply_rolls, exec_ptcapWrite_capped, exec_rerrClear_one⟩
  case gone =>
    intro s s1 i idle locked hn
    refine ⟨_, exec_wunlock_nodeless s s1 i idle locked hn, ?_⟩
    obtain ⟨q, hq⟩ := undrainAt_ctls (s1.unbound i.toNat (s.wid i.toNat)) unitWeights
    rw [hq]
    exact ⟨wid_unbound _ _ _, rfl, rfl, views_unbound _ _ _⟩
  case freed =>
    intro s s1 s2 s3 i n w idle locked hn hw hput
    refine ⟨_, exec_wunlock_frees s s1 s2 s3 i n w idle locked hn hw hput, ?_, mem_undrainAt_unbound _ _ _ _⟩
    obtain ⟨q, hq⟩ := undrainAt_ctls (s3.unbound i.toNat (s.wid i.toNat)) unitWeights
    rw [hq]
    exact wid_unbound _ _ _

end Sys2Proof.Machine

/-! What an atomic does at its home: the line it may write, the bytes it reads there, and the bytes it leaves (spec 07 R134,
14 R247). -/

namespace Sys2Proof.Machine

/-! ## Bytes of a line -/

theorem natOfBytes_div (bs : List Byte) (k : Nat) : natOfBytes bs / 256 ^ k = natOfBytes (bs.drop k) := by
  induction k generalizing bs with
  | zero => simp
  | succ k ih =>
    cases bs with
    | nil => simp [natOfBytes]
    | cons b bs =>
      have low : (b.toNat + 256 * natOfBytes bs) / 256 = natOfBytes bs := by
        have := b.isLt
        omega
      rw [natOfBytes, Nat.pow_succ', ← Nat.div_div_eq_div_mul, low, ih, List.drop_succ_cons]

theorem natOfBytes_lt (bs : List Byte) : natOfBytes bs < 256 ^ bs.length := by
  induction bs with
  | nil => exact Nat.one_pos
  | cons b bs ih =>
    have := b.isLt
    rw [natOfBytes, List.length_cons, Nat.pow_succ']
    omega

/-- The low bytes of a number made of bytes are its first bytes. -/
theorem bytesOfNat_natOfBytes (n : Nat) (bs : List Byte) (h : n ≤ bs.length) : bytesOfNat n (natOfBytes bs) = bs.take n := by
  induction n generalizing bs with
  | zero => rfl
  | succ n ih =>
    cases bs with
    | nil => cases h
    | cons b bs =>
      have rest : (b.toNat + 256 * natOfBytes bs) / 256 = natOfBytes bs := by
        have := b.isLt
        omega
      have first : BitVec.ofNat 8 (b.toNat + 256 * natOfBytes bs) = b := by
        apply BitVec.eq_of_toNat_eq
        have := b.isLt
        rw [BitVec.toNat_ofNat]
        omega
      rw [natOfBytes, bytesOfNat, rest, first, ih bs (Nat.le_of_succ_le_succ h), List.take_succ_cons]

theorem bytesAt_length (m : Memory) (a n : Nat) : (bytesAt m a n).length = n := by
  induction n generalizing a with
  | zero => rfl
  | succ n ih => rw [bytesAt, List.length_cons, ih]

theorem bytesAt_drop (m : Memory) (a n k : Nat) : (bytesAt m a (k + n)).drop k = bytesAt m (a + k) n := by
  induction k generalizing a with
  | zero => rw [Nat.zero_add]; rfl
  | succ k ih => rw [Nat.succ_add, bytesAt, List.drop_succ_cons, ih, Nat.add_assoc, Nat.add_comm 1 k]

theorem bytesAt_take (m : Memory) (a n k : Nat) : (bytesAt m a (n + k)).take n = bytesAt m a n := by
  induction n generalizing a with
  | zero => rfl
  | succ n ih => rw [Nat.succ_add, bytesAt, List.take_succ_cons, ih, bytesAt]

theorem bytesAt_slice (m : Memory) (a n k j : Nat) (h : k + j ≤ n) : ((bytesAt m a n).drop k).take j = bytesAt m (a + k) j := by
  obtain ⟨r, rfl⟩ := Nat.exists_eq_add_of_le h
  rw [Nat.add_assoc, bytesAt_drop, bytesAt_take]

/-- The value of 64 bytes is their number. -/
theorem toNat_lineOf {bs : List Byte} (h : bs.length = 64) : (lineOf bs).toNat = natOfBytes bs := by
  rw [lineOf, BitVec.toNat_ofNat]
  apply Nat.mod_eq_of_lt
  calc natOfBytes bs < 256 ^ bs.length := natOfBytes_lt bs
    _ = 2 ^ (8 * bs.length) := (Nat.pow_mul 2 8 bs.length).symm
    _ = 2 ^ 512 := congrArg (2 ^ ·) (by omega)

/-- Bytes cut from the value of a homed line are those of L2. -/
theorem bytesOfNat_lineData (s : State) (la n : Nat) (h : la % 64 + n ≤ 64) :
    bytesOfNat n ((s.lineData (la / 64)).toNat / 2 ^ (8 * (la % 64))) = bytesAt s.mem.l2 la n := by
  have len := bytesAt_length s.mem.l2 (la / 64 * 64) 64
  have place : la / 64 * 64 + la % 64 = la := Nat.div_add_mod' la 64
  calc bytesOfNat n ((s.lineData (la / 64)).toNat / 2 ^ (8 * (la % 64)))
      = bytesOfNat n (natOfBytes (bytesAt s.mem.l2 (la / 64 * 64) 64) / 256 ^ (la % 64)) := by
        rw [State.lineData, toNat_lineOf len, Nat.pow_mul]
    _ = ((bytesAt s.mem.l2 (la / 64 * 64) 64).drop (la % 64)).take n := by
        rw [natOfBytes_div, bytesOfNat_natOfBytes _ _ (by rw [List.length_drop, len]; omega)]
    _ = bytesAt s.mem.l2 la n := by rw [bytesAt_slice _ _ _ _ _ h, place]

/-! ## Parts of an action that has ended well -/

theorem bind_eq_ok {α β : Type} {x : M α} {f : α → M β} {s t : State} {b : β} (h : (x >>= f) s = .ok b t) :
    ∃ a u, x s = .ok a u ∧ f a u = .ok b t := by
  cases hx : x s with
  | ok a u => exact ⟨a, u, rfl, (bind_ok _ _ _ _ _ hx).symm.trans h⟩
  | error e u => cases (bind_error hx).symm.trans h

/-! ## The line of an access -/

/-- A line that has been filled is held. -/
theorem fillHome_held {line : Nat} {owner : Tag} {x : Xlat} {whole : Bool} {s t : State}
    (h : fillHome line owner x whole s = .ok () t) : (t.line? line).isSome = true := by
  have installed : ∀ (u : State) (g : Line) (m : Memory),
      ((u.onMem fun m' => { m' with lines := mapPut m'.lines line g, l2 := m }).line? line).isSome = true := fun u g m => by
    rw [State.line?, mem_onMem, mapGet_mapPut_same]
    rfl
  unfold fillHome at h
  dsimp only at h
  repeat' split at h
  all_goals cases h
  all_goals exact installed _ _ _

theorem needLine_held {line : Nat} {part : BitVec 2} {owner : Tag} {va : Word} {s t : State}
    (h : needLine line part owner va s = .ok () t) : (t.line? line).isSome = true := by
  unfold needLine at h
  split at h
  · rename_i g held
    split at h
    · cases h
    · cases h
      exact Option.isSome_of_eq_some held
  · split at h
    · exact fillHome_held h
    · cases h

/-- What is read at a line's home are bytes of L2, and the line is held then. -/
theorem readLine_home {owner : Tag} {la n : Nat} {va : Word} {s t : State} {b : List Byte} (hn : la % 64 + n ≤ 64)
    (h : readLine (homePanel (la / 64)) owner la n va s = .ok b t) :
    b = bytesAt t.mem.l2 la n ∧ (t.line? (la / 64)).isSome = true := by
  unfold readLine at h
  dsimp only at h
  rw [if_pos rfl] at h
  split at h
  · rename_i line
    cases h
    exact ⟨bytesOfNat_lineData _ _ _ hn, needLine_held line⟩
  · cases h
  · cases h

/-! ## Translation leaves L2 -/

/-- L2 and the change tree are as they were. -/
def SameL2 (s t : State) : Prop := t.mem.l2 = s.mem.l2 ∧ t.tree = s.tree

theorem sameL2_order : Order SameL2 where
  refl _ := ⟨rfl, rfl⟩
  trans _ _ _ h g := ⟨g.1.trans h.1, g.2.trans h.2⟩

theorem sameL2_ptFill (s : State) (p : Nat) : SameL2 s (s.ptFill p) := by
  unfold State.ptFill
  split
  · exact sameL2_order.refl s
  · dsimp only
    split
    · split <;> exact ⟨rfl, rfl⟩
    · unfold State.mendHbm
      split <;> exact ⟨rfl, rfl⟩

theorem sameL2_markPte (s : State) (h p n : Nat) : SameL2 s (s.markPte h p n) := by
  unfold State.markPte
  dsimp only
  split
  · obtain ⟨l2, tree⟩ := sameL2_ptFill s (p / 64)
    exact ⟨(order_written _ _ _ _).2.trans l2, tree⟩
  · exact sameL2_order.refl s

theorem sameL2_dropBad (s : State) (h la : Nat) : SameL2 s (s.dropBad h la) := by
  unfold State.dropBad
  split <;> exact ⟨rfl, rfl⟩

theorem keepsL2_ptOpen (la p : Nat) : Keeps SameL2 (ptOpen la p) := by
  intro s
  unfold ptOpen
  dsimp only
  split
  · split <;> exact sameL2_order.refl s
  split
  · exact sameL2_order.refl s
  split
  · exact sameL2_order.refl s
  split
  · exact sameL2_order.refl s
  split
  · split
    · exact ⟨rfl, rfl⟩
    · exact sameL2_ptFill s _
  split
  · exact sameL2_order.refl s
  split
  · exact ⟨rfl, rfl⟩
  · exact sameL2_ptFill s _

theorem keepsL2_walkOpen (ctl la : Nat) : Keeps SameL2 (walkOpen ctl la) := fun s =>
  keeps_forM sameL2_order (keepsL2_ptOpen la) _ s

/-- A translation reads and marks the page table, and writes no line of L2. -/
theorem keepsL2_translate (la : Nat) (va : Word) : Keeps SameL2 (translate la va) := by
  intro s
  unfold translate
  dsimp only
  split
  · exact sameL2_order.refl s
  have dropped := sameL2_dropBad s (xlatCtl (la / 64)) la
  split
  · exact dropped
  have opened := sameL2_order.trans _ _ _ dropped
    (keepsL2_walkOpen (xlatCtl (la / 64)) la (State.pmPanel _ (xlatCtl (la / 64) / 2) 0x103 1))
  split
  · rename_i e
    rwa [e] at opened
  rename_i e
  rw [e] at opened
  split
  · exact opened
  rename_i l _
  have marked := sameL2_order.trans _ _ _ opened (sameL2_markPte _ (xlatCtl (la / 64)) l.at0 54)
  split
  · exact marked
  · dsimp only [endState_ok]
    split <;> exact marked

/-- To make a held line writable leaves L2. -/
theorem needWrite_sameL2 {owner : Tag} {la n : Nat} {va : Word} {s t : State} (held : (s.line? (la / 64)).isSome = true)
    (h : needWrite owner la n va s = .ok () t) : SameL2 s t := by
  obtain ⟨g, line⟩ := Option.isSome_iff_exists.1 held
  have moved := keepsL2_translate (la / 64 * 64) va s
  unfold needWrite at h
  simp only [line] at h
  split at h
  · cases h
  split at h
  · cases h
  split at h
  · cases h
    exact sameL2_order.refl s
  split at h
  · cases h
  · cases h
  · rename_i e
    rw [e] at moved
    split at h
    · cases h
    · cases h
      exact moved

/-! ## A write within one line -/

theorem writeSpan_nil (wr : Nat → List Byte → M Unit) (fuel la : Nat) : writeSpan wr fuel la [] = pure () := by
  cases fuel <;> rfl

theorem writeSpan_cons (wr : Nat → List Byte → M Unit) (fuel la : Nat) (b : Byte) (bs : List Byte) :
    writeSpan wr (fuel + 1) la (b :: bs) =
      (wr la ((b :: bs).take (min (b :: bs).length (64 - la % 64))) >>= fun _ =>
        writeSpan wr fuel (la + min (b :: bs).length (64 - la % 64)) ((b :: bs).drop (min (b :: bs).length (64 - la % 64)))) := rfl

/-- Bytes within one line are written in one operation. -/
theorem memWrite_line {p : Nat} {owner : Tag} {la : Nat} {bs : List Byte} {va : Word} {how : Store} {s t : State}
    (hb : bs ≠ []) (hl : la % 64 + bs.length ≤ 64) (h : memWrite p owner la bs va how s = .ok () t) :
    writeLine p owner la bs va how s = .ok () t := by
  have fits : min bs.length (64 - la % 64) = bs.length := by omega
  obtain ⟨b, bs, rfl⟩ := List.exists_cons_of_ne_nil hb
  unfold memWrite at h
  rw [writeSpan_cons, fits, List.take_length, List.drop_length] at h
  obtain ⟨_, u, hw, rest⟩ := bind_eq_ok h
  rw [writeSpan_nil] at rest
  cases rest
  exact hw

theorem l2_sequence (s : State) (q la : Nat) (bs : List Byte) : (s.sequence q la bs).mem.l2 = setBytes s.mem.l2 la bs :=
  congrArg (setBytes · la bs) (order_written _ _ _ _).2

theorem mem_change (s : State) (la : Nat) : (s.change la).mem = s.mem := by
  unfold State.change
  split <;> rfl

theorem sameL2_cleanLine (s : State) (line n : Nat) : SameL2 s (s.cleanLine line n) := by
  unfold State.cleanLine
  split
  · split <;> exact ⟨rfl, rfl⟩
  · exact ⟨rfl, rfl⟩

/-- The live entries that a store meets are told by L2 and the tree alone. -/
theorem nodesAt_sameL2 {s t : State} (h : SameL2 s t) (la n : Nat) : t.nodesAt la n = s.nodesAt la n := by
  obtain ⟨l2, tree⟩ := h
  unfold State.nodesAt State.lineData
  rw [l2, tree]

/-- A store to a held line that meets no live entry of the node table leaves its bytes in L2. -/
theorem writeLine_stores {p : Nat} {owner : Tag} {la : Nat} {bs : List Byte} {va : Word} {s t : State}
    (canon : s.memoriesWf = true) (whole : s.mem.opLines = none) (held : (s.line? (la / 64)).isSome = true)
    (clear : s.nodesAt la bs.length = []) (h : writeLine p owner la bs va .whole s = .ok () t) :
    bytesAt t.mem.l2 la bs.length = bs := by
  unfold writeLine at h
  split at h
  · cases h
  rename_i u e
  have same := sameL2_order.trans _ _ _ (needWrite_sameL2 held e) (sameL2_cleanLine u (la / 64) bs.length)
  obtain ⟨wf, -, lines⟩ := ((canon_ok e kept_needWrite).trans (canon_cleanLine (line := la / 64) (n := bs.length))) canon
  obtain ⟨-, l2, -⟩ := (memoriesWf_iff _).1 wf
  dsimp only at h
  rw [if_neg (by decide), nodesAt_sameL2 same, clear] at h
  cases h
  rw [if_pos rfl, mem_change, State.commit, lines whole, l2_sequence]
  exact bytesAt_setBytes _ _ _ l2

/-! ## The atomic -/

/-- What a panel has come to see when an atomic has read its place, and every atomic there before it that wrote nothing (R169, R170). -/
def State.atomicSees (s : State) (p la : Nat) : State :=
  (s.onMem fun m => m.catchUp p (s.stampOf (la / 64))).onMem fun m => m.catchUp p ((mapGet m.rmws la).getD VClock.zero)

theorem sameL2_atomicSees (s : State) (p la : Nat) : SameL2 s (s.atomicSees p la) :=
  ⟨(catchUp_written _ _ _).2.trans (catchUp_written _ _ _).2, rfl⟩

theorem line_atomicSees (s : State) (p la line : Nat) : (s.atomicSees p la).line? line = s.line? line :=
  congrArg (mapGet · line) ((catchUp_lines _ _ _).1.trans (catchUp_lines _ _ _).1)

theorem canon_atomicSees (s : State) (p la : Nat) : Canon s (s.atomicSees p la) :=
  (canon_onMem memOk_catchUp).trans (canon_onMem memOk_catchUp)

/-- An atomic that ends well has made its line writable and read its place there; then it keeps its clock, or writes. -/
theorem homeRmw_ok {p : Nat} {owner : Tag} {la n : Nat} {va : Word} {f : Nat → Option Nat} {s t : State} {old : Nat}
    (h : homeRmw p owner la n va f s = .ok old t) :
    ∃ s0 s1 b, needWrite owner la n va s = .ok () s0 ∧ readLine (homePanel (la / 64)) owner la n va s0 = .ok b s1 ∧
      old = natOfBytes b ∧
      (f old = none → t = (s1.atomicSees p la).onMem fun m =>
        { m with rmws := mapPut m.rmws la (vcMax ((mapGet m.rmws la).getD VClock.zero) ((s1.atomicSees p la).vc p)) }) ∧
      (∀ v, f old = some v → memWrite p owner la (bytesOfNat n v) va .whole (s1.atomicSees p la) = .ok () t) := by
  obtain ⟨_, s0, hw, h⟩ := bind_eq_ok h
  obtain ⟨b, _, hr, h⟩ := bind_eq_ok h
  obtain ⟨_, s1, hb, hr⟩ := bind_eq_ok hr
  cases hr
  obtain ⟨_, s2, hs, h⟩ := bind_eq_ok h
  have sees : s2 = s1.atomicSees p la := by cases hs; rfl
  subst sees
  obtain ⟨_, s2, hf, h⟩ := bind_eq_ok h
  cases hf
  refine ⟨s0, s1, b, hw, hb, ?_⟩
  cases hf : f (natOfBytes b) with
  | none =>
    rw [hf] at h
    cases h
    exact ⟨rfl, fun _ => rfl, fun v hv => nomatch hf.symm.trans hv⟩
  | some v =>
    rw [hf] at h
    obtain ⟨_, u, hm, h⟩ := bind_eq_ok h
    cases h
    refine ⟨rfl, fun hn => ?_, fun v' hv => ?_⟩
    · cases hf.symm.trans hn
    · cases hf.symm.trans hv
      exact hm

/-- The bytes of an aligned operand lie in one line. -/
theorem aligned_in_line {la n : Nat} (hn : n = 1 ∨ n = 2 ∨ n = 4 ∨ n = 8) (ha : la % n = 0) : la % 64 + n ≤ 64 := by
  obtain rfl | rfl | rfl | rfl := hn
  all_goals omega

/-- Settles O8: the old value is read from L2, and the store of the new one goes to the line that is held since. -/
theorem atomicAtHome : Obligations.AtomicAtHome := by
  unfold Obligations.AtomicAtHome
  intro p owner la n va f s t old canon hn ha h
  obtain ⟨s0, s1, b, hw, hb, hold, hnone, hsome⟩ := homeRmw_ok h
  have inLine := aligned_in_line hn ha
  obtain ⟨bytes, held⟩ := readLine_home inLine hb
  refine ⟨s0, s1, b, hw, hb, hold, bytes, hnone, fun v hv clear => ?_⟩
  have length : (bytesOfNat n v).length = n := bytesOfNat_length n v
  have some : bytesOfNat n v ≠ [] := by
    rw [← List.length_pos_iff, length]
    omega
  have store := memWrite_line some (by rw [length]; exact inLine) (hsome v hv)
  have same := sameL2_atomicSees s1 p la
  simp only [State.canonical, Bool.and_eq_true, Option.isNone_iff_eq_none] at canon
  obtain ⟨⟨canon, -⟩, lines⟩ := canon
  obtain ⟨wf, -, whole⟩ := (((canon_ok hw kept_needWrite).trans (canon_ok hb kept_readLine)).trans (canon_atomicSees s1 p la)) canon
  have stored := writeLine_stores wf (whole lines) (by rw [line_atomicSees]; exact held)
    (by rw [length, nodesAt_sameL2 same, clear]) store
  rwa [length] at stored

end Sys2Proof.Machine

/-! A store whose completion-time signal is refused (spec 13 R229, 24 R371): the record of the refusal goes to its fault queue, in
memory, beside the store's own bytes. -/

namespace Sys2Proof.Machine

/-! Core 0 stores the eight bytes at 0. The word's signal adds one to flag 5, whose CEIL is 0, so that the addition is refused and its record
is appended to fault queue 0, which begins at byte 128. Lines 0 and 2 are held with the right to write them. -/

/-- The state in which the store issues. -/
def refusedStore : State :=
  let s := State.reset.onCore 0 fun k => { k with
    flags := vset k.flags 5 { Flag.reset with ceil := 0 }, rangeSet := [{ w0 := 0xF, w8 := 0xFFFFFFFFFFFFFFFF, w16 := 0, w24 := 0 }] }
  (s.setFq 0 { FaultQ.reset with base := 2 }).onMem fun m => { m with
    lines := [0, 2].map (·, { dirty := false, w := true, exp := 0x10000, key := 0, owner := 0, failed := false, err := 0 }) }

def refusedHdr : Hdr := { wait := .none, sig := .one 5 }

/-- The eight bytes of register 0 at the address in register 0. -/
def storeAtZero : MOp := { reg := 0, base := 0, size := 3, sx := false, off := 0 }

/-- The store meets all that the statement asks for, and the byte at 128 is 0 until then. -/
theorem refusedStore_places : someAnd (refusedStore.issueA (.stm refusedHdr storeAtZero) refusedHdr) (fun s1 =>
    thenAnd (rdA storeAtZero.reg s1) fun _ s2 => thenAnd (rdA storeAtZero.base s2) fun b s3 =>
      thenAnd (mPlace (b + sext64 storeAtZero.off) storeAtZero 2 s3) fun la s4 =>
        decide (la = 0) && s4.canonical && s4.isResident (panelOf refusedStore.cur) 0 8 true && (s4.nodesAt 0 8).isEmpty &&
          byteAt s4.mem.l2 128 == 0) = true := by decide +kernel

/-- The record's class stands at 128 after the store. -/
theorem refusedStore_exec : (match exec (.stm refusedHdr storeAtZero) refusedStore with
    | .next u => byteAt u.mem.l2 128 == 7
    | _ => false) = true := by decide +kernel

/-- Refutes O60: the store of `refusedStore` writes bytes 0 to 7, and its refused signal leaves a fault record at byte 128 of L2, which
the statement has unchanged. -/
theorem not_storeFrame : ¬ Obligations.StoreFrame := by
  unfold Obligations.StoreFrame
  rintro ⟨-, store⟩
  obtain ⟨s1, issued, met⟩ := someAnd_eq_true.1 refusedStore_places
  obtain ⟨v, s2, hv, met⟩ := thenAnd_eq_true.1 met
  obtain ⟨b, s3, hb, met⟩ := thenAnd_eq_true.1 met
  obtain ⟨la, s4, place, met⟩ := thenAnd_eq_true.1 met
  simp only [Bool.and_eq_true, decide_eq_true_eq, List.isEmpty_iff, beq_iff_eq] at met
  obtain ⟨⟨⟨⟨rfl, canon⟩, resident⟩, clear⟩, before⟩ := met
  obtain ⟨u, run, frame, -⟩ := store _ s1 s2 s3 s4 refusedHdr storeAtZero v b 0 issued hv hb place (by decide) canon
    (resident_of_isResident resident)
  have same : byteAt u.mem.l2 128 = byteAt s4.mem.l2 128 := frame 128 (.inr (by decide)) fun i hi => by
    change i ∈ s4.nodesAt 0 8 at hi
    rw [clear] at hi
    cases hi
  have after := refusedStore_exec
  rw [run] at after
  simp only [same, before] at after
  exact absurd after (by decide)

end Sys2Proof.Machine

/-! LDS and STS (spec 09 R170, 13 R227, R228): what the register reads of a word show to its decode stage and leave of the core, and how the
two words run on from them. -/

namespace Sys2Proof.Machine

/-! ## Register reads one after another -/

/-- The decode stage looks at the registers and at XA alone. -/
theorem peekA_alike (rs : List Reg) {k q : Core} (ha : q.a = k.a) (hx : q.xa = k.xa) : q.peekA rs = k.peekA rs := by
  induction rs generalizing k q with
  | nil => rfl
  | cons r rs ih =>
    unfold Core.peekA
    split
    · exact congrArg₂ List.cons (by rw [hx]) (ih ha (congrArg List.tail hx))
    · rw [ha, ih ha hx]

theorem seeA_alike (rs : List Reg) {k q : Core} (ha : q.a = k.a) (hx : q.xa = k.xa) : q.seeA rs = k.seeA rs := by
  unfold Core.seeA
  rw [peekA_alike rs ha hx]

/-- A register read pops XA or leaves the state as it was. -/
theorem rdA_leaves {s t : State} {r : Reg} {v : Word} (h : rdA r s = .ok v t) :
    t = if r = 31 then s.setCore s.cur { s.core s.cur with xa := (s.core s.cur).xa.tail } else s := by
  unfold rdA at h
  simp only at h
  split at h
  · cases h
    subst_vars
    rfl
  · split at h
    · rename_i h31
      split at h
      · rename_i e
        cases h
        rw [if_pos h31, e]
        rfl
      · cases h
    · rename_i h31
      cases h
      rw [if_neg h31]

/-- A register read changes nothing of its core but XA. -/
theorem core_of_rdA {s t : State} {r : Reg} {v : Word} (h : rdA r s = .ok v t) :
    t.core s.cur = { s.core s.cur with xa := (t.core s.cur).xa } := by
  rw [rdA_leaves h]
  split
  · rw [core_setCore_same]
  · rfl

/-- What an A word's issue and its first register read leave of the core: all but flags and XA. -/
theorem core_issued_rdA {s t : State} {k : Core} {r : Reg} {v : Word} (hk : k = { s.core s.cur with flags := k.flags })
    (h : rdA r (s.setCore s.cur k) = .ok v t) :
    t.core s.cur = { s.core s.cur with flags := k.flags, xa := (t.core s.cur).xa } := by
  have left := core_of_rdA h
  rw [cur_setCore, core_setCore_same, hk] at left
  exact left

theorem peekA_ne_nil (k : Core) (r : Reg) (rs : List Reg) : k.peekA (r :: rs) ≠ [] := by
  unfold Core.peekA
  split
  all_goals exact List.cons_ne_nil _ _

/-- What the decode stage sees past a register is what it sees once that register has been read. -/
theorem seeA_past_rdA {s t : State} {r : Reg} {v : Word} (h : rdA r s = .ok v t) (q : Reg) (rs : List Reg) :
    (s.core s.cur).seeA (r :: q :: rs) = (t.core t.cur).seeA (q :: rs) := by
  rw [cur_of_rdA h, rdA_leaves h]
  unfold Core.seeA
  rw [Core.peekA]
  split
  · rw [core_setCore_same, List.getLast?_cons_of_ne_nil (peekA_ne_nil _ _ _)]
  · rw [List.getLast?_cons_of_ne_nil (peekA_ne_nil _ _ _)]

/-! ## The place in the scratchpad -/

/-- A scratchpad address that is in range, aligned and in a bank of the core is the place. -/
theorem ldsPlace_ok {s : State} {sa : Word} {n : Nat} (inside : sa.toNat + n ≤ 786432) (aligned : sa.toNat % n = 0)
    (own : vget (s.core s.cur).owner (sa.toNat / 4096) = false) : ldsPlace sa n s = .ok sa.toNat s := by
  unfold ldsPlace
  refine then_ok (getCore_run s) ?_
  exact pass_check (Nat.not_lt.2 inside) <| pass_check (not_not.2 aligned) <| pass_check (Bool.eq_false_iff.1 own) rfl

theorem ldsBad_eq_zero {k : Core} {o : MOp} {rs : List Reg} {b : Word} (seen : k.seeA rs = some b)
    (inside : (b + sext64 o.off).toNat + 2 ^ o.size.toNat ≤ 786432) : ldsBad o rs k = 0 := by
  unfold ldsBad
  rw [seen]
  exact if_neg (Nat.not_lt.2 inside)

theorem aPanel_run (s : State) : aPanel s = .ok (panelOf s.cur) s := rfl

theorem mAddr_ok {s t : State} {o : MOp} {b : Word} (h : rdA o.base s = .ok b t) : mAddr o s = .ok (b + sext64 o.off) t :=
  then_ok h rfl

/-- Scratchpad bytes over which no check fails raise no error. -/
theorem winErr_spad {k : Core} {a n : Nat} (inside : a < 786432) (sound : k.spadBad a n = false) : k.winErr a n = none := by
  have part : winPart a = some (.spad (a / 4096)) := if_pos inside
  unfold Core.winErr
  rw [part]
  exact if_neg (Bool.eq_false_iff.1 sound)

/-! ## The words -/

theorem lds_completes (s s1 s2 s3 s4 : State) (h : Hdr) (o : MOp) (b : Word) (hi : s.issueA (.lds h o) h = some s1)
    (hb : rdA o.base s1 = .ok b s2) :
    let k := s.core s.cur
    let n := 2 ^ o.size.toNat
    let a := (b + sext64 o.off).toNat
    a + n ≤ 786432 → a % n = 0 → vget k.owner (a / 4096) = false → k.spadBad a n = false →
    seeWin (panelOf s.cur) s.cur s2 = .ok () s3 → wrA o.reg (extend n o.sx (bytesAt k.spad a n)) s3 = .ok () s4 →
    exec (.lds h o) s = .next (s.endA (.lds h o) h .next s4) := by
  intro k n a inside aligned own sound hsee hd
  obtain ⟨q, hq, rfl⟩ := issueA_core hi
  have before : a < 786432 := Nat.lt_of_lt_of_le (Nat.lt_add_of_pos_right (Nat.two_pow_pos _)) inside
  have cur : s2.cur = s.cur := (cur_of_rdA hb).trans (cur_setCore ..)
  have core : s2.core s2.cur = { k with flags := q.flags, xa := (s2.core s.cur).xa } := by
    rw [cur]
    exact core_issued_rdA hq hb
  have own2 : vget (s2.core s2.cur).owner (a / 4096) = false := by rw [core]; exact own
  have spad2 : (s2.core s2.cur).spad = k.spad := by rw [core]
  have sound2 : (s2.core s2.cur).spadBad a n = false := by rw [core]; exact sound
  refine runA_ok _ _ false _ _ s _ _ _ hi nofun (ldsBad_eq_zero (seeA_issued hq hb) inside) ?_
  refine then_ok (mAddr_ok hb) <| then_ok (ldsPlace_ok inside aligned own2) <| then_ok (getCore_run s2) ?_
  rw [show sizeBytes o.size = n from rfl, winErr_spad before sound2, spad2]
  refine then_ok (aPanel_run s2) <| then_ok (getState_run s2) ?_
  rw [cur]
  exact then_ok hsee <| then_ok hd rfl

theorem sts_completes (s s1 s2 s3 : State) (h : Hdr) (o : MOp) (v b : Word) (hi : s.issueA (.sts h o) h = some s1)
    (hv : rdA o.reg s1 = .ok v s2) (hb : rdA o.base s2 = .ok b s3) :
    let n := 2 ^ o.size.toNat
    let a := (b + sext64 o.off).toNat
    a + n ≤ 786432 → a % n = 0 → vget (s.core s.cur).owner (a / 4096) = false →
    exec (.sts h o) s = .next (s.endA (.sts h o) h .next (s3.onCore s.cur fun k =>
      { k.spadMend a n with spad := setBytes k.spad a (bytesOfW n v) })) := by
  intro n a inside aligned own
  obtain ⟨q, hq, rfl⟩ := issueA_core hi
  have cur2 : s2.cur = s.cur := (cur_of_rdA hv).trans (cur_setCore ..)
  have cur : s3.cur = s.cur := (cur_of_rdA hb).trans cur2
  have owner : (s3.core s3.cur).owner = (s.core s.cur).owner := by
    have second := core_of_rdA hb
    rw [cur2, core_issued_rdA hq hv] at second
    rw [cur, second]
  have seen : (s.core s.cur).seeA [o.reg, o.base] = some b := by
    have issued := (seeA_past_rdA hv o.base []).trans (seeA_of_rdA hb)
    rw [cur_setCore, core_setCore_same] at issued
    exact (seeA_alike _ (by rw [hq]) (by rw [hq])).symm.trans issued
  have own3 : vget (s3.core s3.cur).owner (a / 4096) = false := by rw [owner]; exact own
  refine runA_ok _ _ false _ _ s _ _ _ hi nofun (ldsBad_eq_zero seen inside) ?_
  refine then_ok hv <| then_ok (mAddr_ok hb) <| then_ok (ldsPlace_ok inside aligned own3) <| then_ok (modCore_run _ s3) ?_
  rw [cur]
  rfl

/-- Settles O5: the load reads the bytes that stood there at its issue, and the store puts its own in their place. -/
theorem scratchpadAccess : Obligations.ScratchpadAccess := by
  unfold Obligations.ScratchpadAccess
  exact ⟨lds_completes, sts_completes⟩

end Sys2Proof.Machine

/-! What the submission queues, the log, the watchdog and the fallback scheduler do, one lemma a case, and the statement put together from
them (spec 10 R178 to R187, 26 R406, R407). -/

namespace Sys2Proof.Machine

/-! ## SQTAIL and the log (R180, R181, R183) -/

theorem sq_setSq_same (s : State) (q : Nat) (x : SubQ) : (s.setSq q x).sq q = x := by
  simp [State.sq, State.setSq]

/-- A logged write leaves the larger value in TAIL, and the log one entry longer. -/
theorem logTail_leaves {s t : State} {q : BitVec 10} {v : Word} {clk : VClock} (h : logTail q v clk s = .ok () t) :
    (t.sq q.toNat).tail.toNat = max (s.sq q.toNat).tail.toNat v.toNat ∧ t.host.logNext = s.host.logNext + 1 := by
  unfold logTail at h
  rw [bind_ok _ _ _ _ _ (getState_run s)] at h
  obtain ⟨_, u, _, logged⟩ := bind_eq_ok h
  cases logged
  refine ⟨?_, rfl⟩
  rw [sq_setSq_same]
  by_cases raised : (s.sq q.toNat).tail.toNat < v.toNat <;> simp [raised] <;> omega

/-- A write to the SQTAIL of a mapped queue is logged where the log has room. -/
theorem tailWrite_logs {s t : State} {x : HeldTail} (mapped : (s.sq x.queue.toNat).en = true) (room : s.host.logFull = false)
    (h : logTail x.queue x.value x.clock s = .ok () t) : tailWrite x s = .ok () (t.ackPort x.toAck) := by
  unfold tailWrite
  exact then_ok (getState_run s) <| pass_check (not_failed mapped) <| pass_check (Bool.eq_false_iff.1 room) <| then_ok h rfl

theorem exec_sqtailWrite_logs (s t : State) (q : BitVec 10) (v : Word) (mapped : (s.sq q.toNat).en = true)
    (room : s.host.logFull = false) (h : logTail q v VClock.zero s = .ok () t) : exec (.sqtailWrite q v) s = .next t :=
  runEvent_ok _ s t (tailWrite_logs (x := plainTail q v VClock.zero) mapped room h)

/-! ## SQPULL and SQCFG (R178, R180) -/

/-- A pull takes one record: HEAD rises by one. -/
theorem head_of_pull {s t : State} {q : Nat} (ready : (s.sq q).ready = true) (h : pull q s = .ok () t) :
    (t.sq q).head = (s.sq q).head + 1 := by
  unfold pull at h
  rw [bind_ok _ _ _ _ _ (getState_run s), if_pos ready] at h
  obtain ⟨_, s1, _, h⟩ := bind_eq_ok h
  obtain ⟨_, s2, _, h⟩ := bind_eq_ok h
  rw [bind_ok _ _ _ _ _ (getState_run s2)] at h
  obtain ⟨_, s3, _, taken⟩ := bind_eq_ok h
  cases taken
  rw [sq_setSq_same]

theorem exec_sqpull (q : BitVec 10) (s : State) : exec (.sqpull q) s = runEvent (pull q.toNat) s := rfl

/-- SQCFG gives a queue its fields, and clears TAIL and HEAD where it sets EN from 0. -/
theorem configure_eq (x : SubQ) (v : Word) :
    let zero := x.en = false ∧ bit v 63 = true
    x.configure v = { x with en := bit v 63, gath := field v 60 3, logc := field v 56 4, ring := field v 7 49,
                             tail := if zero then 0 else x.tail, head := if zero then 0 else x.head } := by
  intro zero
  have cleared : (!x.en && bit v 63) = decide zero := by simp [zero]
  unfold SubQ.configure
  by_cases h : zero <;> simp only [cleared, h, decide_true, decide_false, Bool.false_eq_true, if_true, if_false]

theorem exec_sqEnable (q : BitVec 10) (v : Word) (s : State) :
    exec (.sqEnable q v) s = .next (s.setSq q.toNat ((s.sq q.toNat).configure v)) := rfl

/-! ## COMMIT (R181, R183, R185) -/

theorem exec_logcommitWrite (v : Word) (s : State) : exec (.logcommitWrite v) s = runEvent (raiseCommit v) s := rfl

/-- COMMIT rises, and the log's interrupt is raised where entries are left past it. -/
theorem raiseCommit_none_held {s : State} {v : Word} (rises : s.host.logCommit.toNat < v.toNat) (none : s.host.heldTails = []) :
    raiseCommit v s = .ok () (s.onHost fun h => { h with logCommit := v, irqLog := decide (v.toNat < h.logNext.toNat) }) := by
  unfold raiseCommit
  refine then_ok (getState_run s) ?_
  rw [if_pos rises, none]
  refine then_ok (modState_run _ s) ?_
  simp only [releaseTails, pure_run, State.onHost, HostIf.logIrq, none]

/-! ## Watchdog and fallback (R186, R187) -/

theorem exec_watchdogExpiry_due (s : State) (due : s.host.wdStart + 4000 * s.host.wdLimit.toNat ≤ s.cycle) :
    exec .watchdogExpiry s = .next
      { s with host := { s.host with fbActive := true, wdStart := s.cycle },
               boot := if s.boot.booted then s.boot.startHarts else s.boot } :=
  if_pos due

/-- The fallback takes a record of the next queue of its round robin, and raises COMMIT past what is served then. -/
theorem exec_fallbackPull_active (s s1 t : State) (q : Nat) (active : s.host.fbActive = true) (next : s.fallbackQueue = some q)
    (taken : pull q s = .ok () s1)
    (served : (do let s ← getState
                  raiseCommit (← servedFrom (s.host.logNext - s.host.logCommit).toNat s.host.logCommit) : M Unit)
      (s1.onHost fun h => { h with fbNext := (q + 1) % 1024 }) = .ok () t) : exec .fallbackPull s = .next t := by
  change execFallbackPull s = _
  unfold execFallbackPull
  simp only [active, next, Bool.not_true, Bool.false_eq_true, if_false]
  exact runEvent_ok _ s t <| then_ok taken <| then_ok (modState_run _ s1) served

/-- Settles O36, clause by clause from what each event of the queues, the log and the fallback does. -/
theorem hostQueueEvents : Obligations.HostQueueEvents := by
  unfold Obligations.HostQueueEvents
  refine ⟨?tail, ?pull, ?enable, ?commit, ?release, fun _ => rfl, exec_watchdogExpiry_due, exec_fallbackPull_active, fun _ => rfl⟩
  case tail =>
    intro s t q v mapped room h
    exact ⟨exec_sqtailWrite_logs s t q v mapped room h, logTail_leaves h⟩
  case pull =>
    intro s t q ready h
    exact ⟨(exec_sqpull q s).trans (runEvent_ok _ s t h), head_of_pull ready h⟩
  case enable =>
    intro s q v x zero
    rw [exec_sqEnable, configure_eq]
  case commit =>
    intro s v rises none
    exact (exec_logcommitWrite v s).trans (runEvent_ok _ _ _ (raiseCommit_none_held rises none))
  case release =>
    intro s t v h
    exact (exec_logcommitWrite v s).trans (runEvent_ok _ s t h)

end Sys2Proof.Machine

/-! A flit in sequence on a link that is up (spec 10 R190). -/

namespace Sys2Proof.Machine

theorem onLink_onLink (s : State) (l : Nat) (f g : Link → Link) (hl : l < 16) :
    (s.onLink l f).onLink l g = s.onLink l fun k => g (f k) := by
  simp only [State.onLink, vget_vset_same _ _ _ hl]
  simp [vset]

section
variable {s t : State} {l : BitVec 4} {f : Flit} {handle : M Unit}

/-- A flit with a good CRC in sequence is accepted and handled, after its acknowledgment has acted. -/
theorem receive_inOrder (up : (s.link l.toNat).down = false) (good : flGood f = true)
    (next : (s.linkFeedback l.toNat f).inOrder l.toNat f = true)
    (h : handle ((s.linkFeedback l.toNat f).onLink l.toNat fun k => { k with lastIn := flFseq f }) = .ok () t) :
    receive l f handle s = .next t := by
  simp only [receive, up, good, next, h, Bool.not_true, Bool.false_eq_true, if_true, if_false]

end

end Sys2Proof.Machine

/-! What steers fabric time, one lemma a case, and the statement put together from them (spec 10 R188, R191): slews of the master,
corrections of a replica, passing time, the boot's step, and time-sync packets. Each of the first three keeps the replicas, in quarters of
a nanosecond, within the skew bound of the master. -/

namespace Sys2Proof.Machine

/-! ## A clock as a count of quarters of a nanosecond (R15) -/

/-- A reading and its phase give back the count that they were made of. -/
theorem quarters_of_count {q : Nat} (h : q < 2 ^ 66) : 4 * (w64 (q / 4)).toNat + (BitVec.ofNat 2 q).toNat = q := by
  simp only [BitVec.toNat_ofNat]
  omega

/-- The count of a clock that runs `n` quarters on, before its reading ends. -/
theorem quarters_advance (t : Word) (f : BitVec 2) (n : Nat) (h : 4 * t.toNat + f.toNat + n < 2 ^ 66) :
    4 * (t + w64 ((f.toNat + n) / 4)).toNat + (BitVec.ofNat 2 ((f.toNat + n) % 4)).toNat = 4 * t.toNat + f.toNat + n := by
  simp only [BitVec.toNat_add, BitVec.toNat_ofNat]
  omega

/-- A reading within a nanosecond of a count of quarters is the clock's own or the next. -/
theorem reading_of_slewed (t : Word) (f : BitVec 2) (other : Nat) :
    w64 (slewed (4 * t.toNat + f.toNat) other / 4) = t ∨ w64 (slewed (4 * t.toNat + f.toNat) other / 4) = t + 1 := by
  have phase := f.isLt
  have same : w64 ((4 * t.toNat + f.toNat) / 4) = t := by
    rw [show (4 * t.toNat + f.toNat) / 4 = t.toNat by omega]
    exact BitVec.ofNat_toNat 64 t
  unfold slewed
  split
  · by_cases full : f.toNat = 3
    · right
      rw [show (4 * t.toNat + f.toNat + 1) / 4 = t.toNat + 1 by omega]
      apply BitVec.eq_of_toNat_eq
      simp
    · left
      rw [show (4 * t.toNat + f.toNat + 1) / 4 = (4 * t.toNat + f.toNat) / 4 by omega]
      exact same
  · split
    · next back =>
      simp only [Bool.and_eq_true, decide_eq_true_eq, bne_iff_ne] at back
      left
      rw [show (4 * t.toNat + f.toNat - 1) / 4 = (4 * t.toNat + f.toNat) / 4 by omega]
      exact same
    · exact .inl same

/-- A clock that is slewed towards a reading stands between where it was and that reading. -/
theorem slewed_between (q other : Nat) : min q other ≤ slewed q other ∧ slewed q other ≤ max q other := by
  unfold slewed
  split
  · omega
  · split
    · next back =>
      simp only [Bool.and_eq_true, decide_eq_true_eq] at back
      omega
    · omega

theorem slewed_le_succ (q other : Nat) : slewed q other ≤ q + 1 := by
  unfold slewed
  split
  · omega
  · split <;> omega

theorem ftQ_lt (s : State) : s.ftQ < 2 ^ 66 := by
  have reading := s.ft.isLt
  have phase := s.phase.isLt
  unfold State.ftQ
  omega

theorem repQ_lt (s : State) (p : Nat) : s.repQ p < 2 ^ 66 := by
  have reading := (vget s.ftRep p).isLt
  have phase := (vget s.repPhase p).isLt
  unfold State.repQ
  omega

/-- The skew bound, replica by replica. -/
theorem skewOk_iff (s : State) (q : Nat) : s.skewOk q = true ↔ ∀ p, p < 4 → q ≤ s.repQ p + 64 ∧ s.repQ p ≤ q + 64 := by
  simp [State.skewOk]

/-! ## The master (R188) -/

/-- A slew of the master puts its count one quarter on or back within the skew bound, or leaves it. -/
theorem slewMaster_cases (s : State) (other : Nat) :
    s.slewMaster other = s ∨
    (s.slewAt + 5000 ≤ s.cycle ∧ s.skewOk (slewed s.ftQ other) = true ∧ s.slewMaster other =
      { s with ft := w64 (slewed s.ftQ other / 4), phase := BitVec.ofNat 2 (slewed s.ftQ other), slewAt := s.cycle }) := by
  unfold State.slewMaster
  dsimp only
  split
  · next may =>
    simp only [Bool.and_eq_true, decide_eq_true_eq] at may
    exact .inr ⟨may.1.1, may.2, rfl⟩
  · exact .inl rfl

theorem slewMaster_ftRep (s : State) (other : Nat) : (s.slewMaster other).ftRep = s.ftRep := by
  obtain h | ⟨-, -, h⟩ := slewMaster_cases s other <;> rw [h]

theorem slewMaster_ft (s : State) (other : Nat) : (s.slewMaster other).ft = s.ft ∨ (s.slewMaster other).ft = s.ft + 1 := by
  obtain h | ⟨-, -, h⟩ := slewMaster_cases s other
  · exact .inl (congrArg State.ft h)
  · rw [h]
    exact reading_of_slewed s.ft s.phase other

theorem slewMaster_early (s : State) (other : Nat) (early : s.cycle < s.slewAt + 5000) : s.slewMaster other = s := by
  obtain h | ⟨due, -, -⟩ := slewMaster_cases s other
  · exact h
  · omega

/-- A slew of the master keeps it within the skew bound. -/
theorem slewMaster_keeps_skew (s : State) (other : Nat) (ok : s.skewOk s.ftQ = true) (room : s.ft ≠ allOnes) :
    (s.slewMaster other).skewOk (s.slewMaster other).ftQ = true := by
  obtain h | ⟨-, within, h⟩ := slewMaster_cases s other
  · rw [h]
    exact ok
  · have below : s.ft.toNat < 2 ^ 64 - 1 := by
      have reading := s.ft.isLt
      have : s.ft.toNat ≠ 2 ^ 64 - 1 := fun e => room (BitVec.eq_of_toNat_eq e)
      omega
    have count : slewed s.ftQ other < 2 ^ 66 := by
      have step := slewed_le_succ s.ftQ other
      have phase := s.phase.isLt
      have : s.ftQ = 4 * s.ft.toNat + s.phase.toNat := rfl
      omega
    rw [h]
    exact (congrArg (State.skewOk _) (quarters_of_count count)).trans within

theorem exec_ptpMessage (s : State) (x : PtpTimes) :
    exec (.ptpMessage x) s = .next
      (if s.boot.stat = 0 ∧ s.boot.timeRoot = true ∧ x.port = s.boot.ptpPort then
        s.slewMaster ((s.ftQ : Int) - 2 * ptpOffset x.t1 x.t2 x.t3 x.t4).toNat
      else s) := by
  have refused : (s.boot.stat != 0 || !s.boot.timeRoot || x.port != s.boot.ptpPort) = true ↔
      ¬ (s.boot.stat = 0 ∧ s.boot.timeRoot = true ∧ x.port = s.boot.ptpPort) := by
    simp only [Bool.or_eq_true, bne_iff_ne, Bool.not_eq_true', not_and_or, ne_eq, Bool.not_eq_true, or_assoc]
  change execPtpMessage x s = _
  unfold execPtpMessage
  by_cases taken : s.boot.stat = 0 ∧ s.boot.timeRoot = true ∧ x.port = s.boot.ptpPort
  · rw [if_pos taken, if_neg fun no => refused.1 no taken]
  · rw [if_neg taken, if_pos (refused.2 taken)]

/-! ## A replica (R188) -/

/-- The state after a correction that moves the replica of panel `p`. -/
def State.corrected (s : State) (p : Nat) : State :=
  { s with ftRep := vset s.ftRep p (w64 (slewed (s.repQ p) s.ftQ / 4))
           repPhase := vset s.repPhase p (BitVec.ofNat 2 (slewed (s.repQ p) s.ftQ))
           repSlewAt := vset s.repSlewAt p s.cycle }

/-- A correction moves its replica by a quarter of a nanosecond, or leaves it. -/
theorem exec_ftCorrection_cases (s : State) (p : BitVec 2) :
    exec (.ftCorrection p) s = .next s ∨ exec (.ftCorrection p) s = .next (s.corrected p.toNat) := by
  change execFtCorrection p s = _ ∨ execFtCorrection p s = _
  unfold execFtCorrection
  dsimp only
  split
  · exact .inr rfl
  · exact .inl rfl

theorem ftOf_corrected (s : State) (p : Nat) (hp : p < 4) :
    (s.corrected p).ftOf p = s.ftOf p ∨ (s.corrected p).ftOf p = s.ftOf p + 1 := by
  have moved : (s.corrected p).ftOf p = w64 (slewed (s.repQ p) s.ftQ / 4) := vget_vset_same _ _ _ hp
  rw [moved]
  exact reading_of_slewed _ (vget s.repPhase p) s.ftQ

theorem repQ_corrected (s : State) (p : Nat) (hp : p < 4) : (s.corrected p).repQ p = slewed (s.repQ p) s.ftQ := by
  obtain ⟨-, high⟩ := slewed_between (s.repQ p) s.ftQ
  have master := ftQ_lt s
  have replica := repQ_lt s p
  unfold State.repQ State.corrected
  rw [vget_vset_same _ _ _ hp, vget_vset_same _ _ _ hp]
  exact quarters_of_count (by omega)

theorem repQ_corrected_other (s : State) (p q : Nat) (other : q ≠ p) : (s.corrected p).repQ q = s.repQ q := by
  unfold State.repQ State.corrected
  rw [vget_vset_other _ _ _ _ other, vget_vset_other _ _ _ _ other]

/-- A correction leaves the master and the other replicas, and the one corrected reads as before or a nanosecond more. -/
theorem exec_ftCorrection_readings (s : State) (p : BitVec 2) :
    ∃ t, exec (.ftCorrection p) s = .next t ∧ (t.ftOf p.toNat = s.ftOf p.toNat ∨ t.ftOf p.toNat = s.ftOf p.toNat + 1) ∧
      t.ft = s.ft ∧ ∀ q, q < 4 → q ≠ p.toNat → t.ftOf q = s.ftOf q := by
  obtain h | h := exec_ftCorrection_cases s p
  · exact ⟨s, h, .inl rfl, rfl, fun _ _ _ => rfl⟩
  · exact ⟨_, h, ftOf_corrected s _ p.isLt, rfl, fun q _ other => vget_vset_other _ _ _ _ other⟩

/-- A correction brings a replica no further from the master, and so keeps the skew bound. -/
theorem ftCorrection_keeps_skew (s t : State) (p : BitVec 2) (ok : s.skewOk s.ftQ = true)
    (h : exec (.ftCorrection p) s = .next t) : t.skewOk t.ftQ = true := by
  obtain same | moved := exec_ftCorrection_cases s p
  · cases same.symm.trans h
    exact ok
  · cases moved.symm.trans h
    change (s.corrected p.toNat).skewOk s.ftQ = true
    rw [skewOk_iff] at ok ⊢
    intro q hq
    have was := ok q hq
    by_cases own : q = p.toNat
    · subst own
      rw [repQ_corrected s _ p.isLt]
      have between := slewed_between (s.repQ p.toNat) s.ftQ
      omega
    · rw [repQ_corrected_other s _ q own]
      exact was

/-! ## Passing time (R15) -/

theorem vget_ofFn {α : Type} [Inhabited α] {n : Nat} (f : Fin n → α) (i : Nat) (h : i < n) : vget (Vector.ofFn f) i = f ⟨i, h⟩ := by
  rw [vget_lt _ _ h, Vector.getElem_ofFn]

theorem advance_ftQ (s : State) (n : Nat) (h : s.ftQ + n < 2 ^ 66) : (s.advance n).ftQ = s.ftQ + n :=
  quarters_advance s.ft s.phase n h

theorem advance_repQ (s : State) (n p : Nat) (hp : p < 4) (h : s.repQ p + n < 2 ^ 66) : (s.advance n).repQ p = s.repQ p + n := by
  simp only [State.repQ, State.advance, vget_ofFn _ _ hp]
  exact quarters_advance _ _ n h

/-- The clocks run on together. -/
theorem advance_keeps_skew (s : State) (n : Nat) (ok : s.skewOk s.ftQ = true) (master : s.ftQ + n < 2 ^ 66)
    (replicas : ∀ p, p < 4 → s.repQ p + n < 2 ^ 66) : (s.advance n).skewOk (s.advance n).ftQ = true := by
  rw [skewOk_iff] at ok ⊢
  intro p hp
  rw [advance_ftQ s n master, advance_repQ s n p hp (replicas p hp)]
  have was := ok p hp
  omega

/-! ## The boot's step (R188, R193) -/

/-- A boot of the time root that succeeds steps the master and the replicas to the time of its exchange. -/
theorem bootedState_steps (s : State) (b : BootInput) (w : Word) (time : b.ptpTime = some w)
    (root : bit (recWord b.config 2264) 8 = true) :
    (bootedState s b).ft = w ∧ (bootedState s b).phase = s.phase ∧ (bootedState s b).ftRep = Vector.replicate 4 w := by
  have isRoot : ((s.boot.romSteps b).apply b).timeRoot = true := root
  simp [bootedState, State.stepTime, time, isRoot]

theorem exec_moduleReset_steps (s : State) (b : BootInput) (w : Word) (time : b.ptpTime = some w)
    (root : bit (recWord b.config 2264) 8 = true) :
    ∃ t, exec (.moduleReset b) s = .next t ∧
      (bootCode b = 0 → t.ft = w ∧ t.phase = 0 ∧ ∀ p, p < 4 → vget t.ftRep p = w) := by
  refine ⟨_, rfl, fun passes => ?_⟩
  rw [if_pos passes]
  obtain ⟨master, phase, replicas⟩ := bootedState_steps _ b w time root
  refine ⟨master, phase, fun p hp => ?_⟩
  rw [replicas, vget_lt _ _ hp, Vector.getElem_replicate]

/-! ## Time-sync (R191) -/

theorem exec_timeSyncSend_room (s : State) (l : BitVec 4) (room : s.linkRoom l.toNat = true) :
    exec (.timeSyncSend l) s = .next
      (s.sendFlit l.toNat (mkFlit 6 false 0 0 0 0 0 (s.ftOf (linkPanel l.toNat)) 0 0 [])) := by
  change execTimeSyncSend l s = _
  simp only [execTimeSyncSend, room, Bool.not_true, Bool.false_eq_true, if_false]

/-- A reply is no request. -/
theorem flIs_rsp {f : Flit} {type : Nat} (h : flIs f type true = true) : flIs f type false = false := by
  unfold flIs at h ⊢
  simp only [Bool.and_eq_true, beq_iff_eq] at h
  simp [h.1.2]

section
variable (s : State) (l : BitVec 4) (f : Flit) (up : (s.link l.toNat).down = false) (good : flGood f = true)
  (next : (s.linkFeedback l.toNat f).inOrder l.toNat f = true)
include up good next

/-- A request in sequence is answered with the time at which it came. -/
theorem exec_timeSyncReceive_request (is : flIs f 6 false = true) :
    let u := (s.linkFeedback l.toNat f).onLink l.toNat fun k => { k with lastIn := flFseq f }
    let now := u.ftOf (linkPanel l.toNat)
    u.linkRoom l.toNat = true →
    exec (.timeSyncReceive l f) s = .next (u.sendFlit l.toNat (mkFlit 6 true 0 0 0 (flTag f) 0 f.a0 now now [])) := by
  intro u now room
  change execTimeSyncReceive l f s = _
  rw [execTimeSyncReceive, if_pos is]
  refine receive_inOrder up good next ?_
  refine then_ok (getState_run u) ?_
  rw [room]
  exact then_ok (stallIf_false u) (modState_run _ u)

/-- A reply in sequence gives the offset, and a master that does not follow IEEE 1588 slews by it towards the partner nearer the root. -/
theorem exec_timeSyncReceive_reply (is : flIs f 6 true = true) :
    let off := syncOffset f.a0 f.a1 f.a2 ((s.linkFeedback l.toNat f).ftOf (linkPanel l.toNat))
    let u := (s.linkFeedback l.toNat f).onLink l.toNat fun k => { k with lastIn := flFseq f, offset := off }
    exec (.timeSyncReceive l f) s = .next
      (if (s.linkFeedback l.toNat f).boot.timeRoot = true ∨ Config.towardRoot l.toNat = false then u
       else u.slewMaster ((u.ftQ : Int) + 4 * off.toInt).toNat) := by
  intro off u
  change execTimeSyncReceive l f s = _
  rw [execTimeSyncReceive, if_neg (by rw [flIs_rsp is]; exact Bool.false_ne_true), if_pos is]
  refine receive_inOrder up good next ?_
  rw [modState_run]
  simp only [onLink_onLink _ _ _ _ l.isLt, Bool.or_eq_true, Bool.not_eq_true']
  rfl

end

/-- Settles O43, clause by clause from what each event of fabric time does. -/
theorem timeEvents : Obligations.TimeEvents := by
  unfold Obligations.TimeEvents
  refine ⟨exec_ptpMessage, ?master, ?skew, exec_moduleReset_steps, exec_ftCorrection_readings, exec_timeSyncSend_room, ?request, ?reply⟩
  case master =>
    intro s other
    exact ⟨slewMaster_ftRep s other, slewMaster_ft s other, slewMaster_early s other⟩
  case skew =>
    intro s ok
    exact ⟨fun other => slewMaster_keeps_skew s other ok, fun p t => ftCorrection_keeps_skew s t p ok,
      fun n => advance_keeps_skew s n ok⟩
  case request =>
    intro s _ l f up good is same next
    subst same
    exact exec_timeSyncReceive_request s l f up good next is
  case reply =>
    intro s _ l f up good is same next
    subst same
    exact exec_timeSyncReceive_reply s l f up good next is

end Sys2Proof.Machine

/-! The packets of a link, one lemma a type, and the statement put together from them (spec 10 R189, R190, 18 R336, 26 R404, R409). -/

namespace Sys2Proof.Machine

/-- The event of a type of packet handles a flit of that type. -/
theorem typed_packet {is : Bool} {x y : Out} (typed : is = true) : (if !is then x else y) = y := if_neg (not_failed typed)

section
variable {s : State} {l : BitVec 4} {f : Flit} (up : (s.link l.toNat).down = false) (good : flGood f = true)
  (next : (s.linkFeedback l.toNat f).inOrder l.toNat f = true)
include up good next

/-- A signal becomes a remote addition at its target. -/
theorem exec_linkSignal_inOrder (is : flIs f 4 (flRsp f) = true) :
    let u := (s.linkFeedback l.toNat f).onLink l.toNat fun k => { k with lastIn := flFseq f }
    let h : Held := { sender := flSrc f, strm := .a, v := field f.a0 0 6, amount := field f.a0 16 16, clock := u.vc (linkPanel l.toNat),
                      pass := 0, rword := 0, word := f.h0, abs := 0, entry := none, link := some l }
    exec (.linkSignal l f) s = .next { u with remotes := u.remotes ++ [{ held := h, target := flDst f, owner := flOwner f }] } :=
  (typed_packet is).trans (receive_inOrder up good next (modState_run _ _))

/-- The bytes of a block reach the buffer of its core, where the core runs a context of the packet's owner. -/
theorem exec_linkSchedBlock_inOrder (is : flIs f 5 (flRsp f) = true) (now : List Block) :
    let c := flDst f
    let u := (s.linkFeedback l.toNat f).onLink l.toNat fun k => { k with lastIn := flFseq f }
    (u.core c).loaded = true → (u.core c).ctx = flOwner f → vget u.power.cluster (clusterOf c) ≠ 2 →
    addPart (flOwner f) (field f.a0 32 32) (field f.a0 0 12) (192 * f.a1.toNat) ((flBody f).take (flBytes f))
      (closeParts f.a1.toNat ((u.core c).linkBlocks l.toNat)) = some now → now.length ≤ 64 →
    exec (.linkSchedBlock l f) s = .next
      ((u.onCore c fun k => { k with recv := mapPut k.recv l.toNat now }).wakeCluster (clusterOf c)) := by
  intro c u loaded owned powered placed room
  have taken : ((u.core c).loaded && (u.core c).ctx == flOwner f && vget u.power.cluster (clusterOf c) != 2) = true := by
    simp only [Bool.and_eq_true, beq_iff_eq, bne_iff_ne]
    exact ⟨⟨loaded, owned⟩, powered⟩
  refine (typed_packet is).trans (receive_inOrder up good next ?_)
  refine then_ok (getState_run u) <| pass_check (not_failed taken) ?_
  simp only [c, placed]
  rw [decide_eq_false (Nat.not_lt.2 room)]
  exact then_ok (stallIf_false u) (modState_run _ u)

/-- A management flit writes the register of its number. -/
theorem exec_linkManagement_inOrder (is : flIs f 7 (flRsp f) = true) :
    exec (.linkManagement l f) s = .next ((s.linkFeedback l.toNat f).onLink l.toNat fun k =>
      { k with lastIn := flFseq f, mgmt := mapPut k.mgmt f.a0.toNat f.a1 }) := by
  refine (typed_packet is).trans (receive_inOrder up good next ?_)
  rw [modState_run, onLink_onLink _ _ _ _ l.isLt]

/-- A reply is kept for its requester. -/
theorem exec_linkReply_inOrder (is : flIs f 1 true = true ∨ flIs f 3 true = true) :
    exec (.linkReply l f) s = .next ((s.linkFeedback l.toNat f).onLink l.toNat fun k =>
      { k with lastIn := flFseq f, replies := k.replies ++ [f] }) := by
  refine (typed_packet (Bool.or_eq_true_iff.2 is)).trans (receive_inOrder up good next ?_)
  rw [modState_run, onLink_onLink _ _ _ _ l.isLt]

end

/-- Settles O44, type by type from what each packet in sequence does. -/
theorem linkPackets : Obligations.LinkPackets := by
  unfold Obligations.LinkPackets
  refine ⟨?access, ?signal, ?block, ?management, ?reply⟩
  case access =>
    rintro s _ t l f i act up good rfl next h (⟨rfl, is, rfl⟩ | ⟨rfl, is, rfl⟩ | ⟨rfl, is, rfl⟩) <;>
      exact (typed_packet is).trans (receive_inOrder up good next h)
  case signal =>
    rintro s _ l f up good is rfl next
    exact exec_linkSignal_inOrder up good next is
  case block =>
    rintro s _ l f now up good is rfl next
    exact exec_linkSchedBlock_inOrder up good next is now
  case management =>
    rintro s _ l f up good is rfl next
    exact exec_linkManagement_inOrder up good next is
  case reply =>
    rintro s _ l f up good is rfl next
    exact exec_linkReply_inOrder up good next is

end Sys2Proof.Machine

/-! An idle flit with a reserved bit is no flit of a reserved type (spec 10 R190, 26 R409): the event of the latter passes it by, even where
the field of its place in the sequence, which idle flits do not take (log 33), holds the next number. -/

namespace Sys2Proof.Machine

theorem exec_linkFlitReserved_idle (s : State) (l : BitVec 4) (f : Flit) (idle : flType f = 0) :
    exec (.linkFlitReserved l f) s = .next s := by
  change execLinkFlitReserved l f s = _
  simp [execLinkFlitReserved, idle]

/-- A record for a queue that has no place is counted as lost (R357). -/
theorem appendFault_lost {s : State} (p : Nat) (r : Rec) (owner : r.owner = 0) (waits : s.waitRecs = []) (unset : (s.fq 0).base = 0) :
    ∃ q, appendFault p r s = .ok () ((s.setFq 0 q).undrainAt (unitQueue 0)) := by
  have full : (s.fq 0).full = true := by simp [FaultQ.full, unset]
  have lost : appendNow (s.ftOf p) 0 p r s = .ok () (s.setFq 0 { s.fq 0 with lost := satInc (s.fq 0).lost }) := by
    unfold appendNow
    exact then_ok (getState_run s) (by rw [if_pos full, modState_run])
  refine ⟨{ s.fq 0 with lost := satInc (s.fq 0).lost }, ?_⟩
  unfold appendFault appendTo
  refine then_ok (getState_run s) ?_
  simp [owner, appendAt, waits, lost]

/-- A flit that is dropped is accepted all the same: its link keeps the place that the flit has taken in the sequence. -/
theorem linkReject_keeps_place {s : State} (l : BitVec 4) (h0 : Word) (waits : s.waitRecs = []) (unset : (s.fq 0).base = 0) :
    ∃ t, linkReject l 0 h0 true s = .ok () t ∧ (t.link l.toNat).lastIn = (s.link l.toNat).lastIn := by
  let u := s.onLink l.toNat fun q => { q with rej := satInc q.rej }
  obtain ⟨q, recorded⟩ := appendFault_lost (s := u) (linkPanel l.toNat) { memRec 0 0x32 0 (l.setWidth 64) h0 with unit := 7 } rfl waits unset
  refine ⟨_, then_ok (modState_run _ s) recorded, ?_⟩
  obtain ⟨c, undrained⟩ := undrainAt_ctls (u.setFq 0 q) (unitQueue 0)
  rw [undrained]
  have counted : u.link l.toNat = { s.link l.toNat with rej := satInc (s.link l.toNat).rej } := vget_vset_same s.links _ _ l.isLt
  exact (congrArg Link.lastIn counted :)

/-- An idle flit whose reserved bit 8 is set and whose field for the place in the sequence is 0, next to the 0xFFFF of reset. -/
def reservedIdle : Flit := flSeal { mkFlit 0 false 0 0 0 0 0 0 0 0 [] with h0 := 0x100 } 0 0xFFFF false 0

theorem flReserved_reservedIdle : flReserved reservedIdle = true :=
  (flReserved_flSeal _ _ _ _ _).trans (by decide +kernel)

/-- At reset it acknowledges nothing, and link 0 would accept it next. -/
theorem linkFeedback_reservedIdle : State.reset.linkFeedback 0 reservedIdle = State.reset := by
  have ack : flAckseq reservedIdle = 0xFFFF := by decide +kernel
  have nak : flNak reservedIdle = false := by decide +kernel
  have last : (State.reset.link 0).lastAck = 0xFFFF := by decide +kernel
  simp [State.linkFeedback, State.linkAck, ack, nak, last]

/-- Refutes O45: its clause on flits with a reserved bit leaves out that the flit is no idle one. At reset the event leaves the module as it
was on such an idle flit, and the clause says that the flit is accepted. -/
theorem not_linkControl : ¬ Obligations.LinkControl := by
  unfold Obligations.LinkControl
  rintro ⟨-, -, reserved, -⟩
  have up : (State.reset.link 0).down = false := by decide +kernel
  have next : State.reset.inOrder 0 reservedIdle = true := by decide +kernel
  have idle : flType reservedIdle = 0 := by decide +kernel
  let s := State.reset.onLink 0 fun k => { k with lastIn := flFseq reservedIdle }
  obtain ⟨t, rejected, place⟩ := linkReject_keeps_place (s := s) 0 reservedIdle.h0 rfl (by decide +kernel)
  have accepted : exec (.linkFlitReserved 0 reservedIdle) State.reset = .next t :=
    reserved State.reset State.reset t 0 reservedIdle up (flGood_flSeal _ _ _ _ _) flReserved_reservedIdle
      linkFeedback_reservedIdle.symm next rejected
  cases (exec_linkFlitReserved_idle State.reset 0 reservedIdle idle).symm.trans accepted
  exact absurd place (by decide +kernel)

end Sys2Proof.Machine

/-! The packets of the host ports, one lemma a case, and the statement put together from them (spec 10 R176, R177, 26 R411). -/

namespace Sys2Proof.Machine

theorem answerPort_run (r : Reply) (s : State) :
    answerPort r s = .ok () (s.onHost fun h => { h with replies := h.replies ++ [r] }) := rfl

/-! ## What a packet does with its data (R176, R411) -/

section
variable {s u : State} {p : BitVec 3} {c : Conn} {r : HostRegion} {off : Nat} {b : List Byte}

/-- A packet that its region takes is performed, and acknowledged where no SQTAIL write carries the acknowledgment on (R183). -/
theorem rmaPacket_performs (reliable : c ≠ .unreliable) (inside : off + b.length ≤ r.len) (fields : rmaBadField (r.base + off) b = false)
    (mapped : ∀ q ∈ rmaTails (r.base + off) b, (s.sq q).en = true) (free : s.host.rodWaits p c = false)
    (stored : attempt (rmaStore p c r.owner (r.base + off) b) s = .ok (.ok ()) u) :
    rmaPacket p c r off b s = .ok () (if rmaTails (r.base + off) b = [] then
      u.onHost fun h => { h with replies := h.replies ++ [.ack p] } else u) := by
  have tails : ((rmaTails (r.base + off) b).any fun q => !(s.sq q).en) = false := by
    simp only [List.any_eq_false, Bool.not_eq_true', Bool.not_eq_false]
    exact mapped
  unfold rmaPacket
  refine pass_check reliable <| pass_check (Nat.not_lt.2 inside) <| pass_check (Bool.eq_false_iff.1 fields) <|
    then_ok (getState_run s) <| pass_check (Bool.eq_false_iff.1 tails) ?_
  rw [free]
  refine then_ok (stallIf_false s) <| then_ok stored ?_
  cases rmaTails (r.base + off) b with
  | nil => exact answerPort_run _ u
  | cons q qs => rfl

/-- A packet that goes past its region's end is refused with code 2. -/
theorem rmaPacket_past_end (reliable : c ≠ .unreliable) (past : r.len < off + b.length) (refused : refuseUet p 2 (r.named off) s = .ok () u) :
    rmaPacket p c r off b s = .ok () u := by
  unfold rmaPacket
  refine pass_check reliable ?_
  rw [if_pos past]
  exact refused

end

theorem rmaWrite_region {s : State} {n : Nat} {r : HostRegion} (region : mapGet s.host.regions n = some r) (p : BitVec 3) (c : Conn)
    (off : Nat) (b : List Byte) : rmaWrite p c n off b s = rmaPacket p c r off b s := by
  unfold rmaWrite
  refine then_ok (getState_run s) ?_
  rw [region]

/-- A send that its receive takes uses the receive up. -/
theorem rmaSend_receive {s u : State} {p : BitVec 3} {c : Conn} {n : Nat} {r : HostRegion} {b : List Byte}
    (posted : mapGet s.host.receives n = some r) (reliable : c ≠ .unreliable) (inside : b.length ≤ r.len)
    (performed : rmaPacket p c r 0 b s = .ok () u) :
    rmaSend p c n b s = .ok () (u.onHost fun h => { h with receives := mapDel h.receives n }) := by
  unfold rmaSend
  refine then_ok (getState_run s) ?_
  rw [posted]
  refine then_ok performed ?_
  rw [if_pos (by simp [reliable, inside])]
  exact modState_run _ u

/-! ## The order of a connection (R177) -/

theorem rodQueued_eq_false {s : State} {x : RodPacket} (first : ∀ y ∈ s.host.rodQ, ¬ (y.port = x.port ∧ y.conn = x.conn)) :
    s.host.rodQueued x = false := by
  simpa [HostIf.rodQueued] using first

theorem rodQueued_eq_true {s : State} {x : RodPacket} (behind : ∃ y ∈ s.host.rodQ, y.port = x.port ∧ y.conn = x.conn) :
    s.host.rodQueued x = true := by
  simpa [HostIf.rodQueued] using behind

/-- A packet that finds none before it of its connection is performed. -/
theorem takePacket_runs {x : RodPacket} {s t : State} (first : ∀ y ∈ s.host.rodQ, ¬ (y.port = x.port ∧ y.conn = x.conn))
    (run : x.run s = .ok () t) : takePacket x s = .next (t.undrainAt (unitPort x.port.toNat)) := by
  simp only [takePacket, rodQueued_eq_false first, run, Bool.and_false, Bool.false_eq_true, if_false]

/-- A packet of a ROD connection waits behind an earlier one, and where its writes stall. -/
theorem takePacket_waits {x : RodPacket} {s : State} {g : Nat} (rod : x.conn = .rod g)
    (waits : (∃ y ∈ s.host.rodQ, y.port = x.port ∧ y.conn = x.conn) ∨ ∃ u, x.run s = .error .stall u) :
    takePacket x s = .next (s.onHost fun h => { h with rodQ := h.rodQ ++ [x] }) := by
  simp only [takePacket, rod, Bool.true_and]
  by_cases queued : s.host.rodQueued x = true
  · rw [if_pos queued]
  · obtain behind | ⟨u, stalls⟩ := waits
    · exact absurd (rodQueued_eq_true behind) queued
    · rw [if_neg queued, stalls]
      rfl

/-! ## The events of a port -/

/-- A boot that succeeded lets a packet in whose integrity check passes. -/
theorem port_takes {s : State} {c : Conn} {x y : Out} (ready : s.boot.stat = 0) (intact : c ≠ .corrupt) :
    (if s.boot.stat != 0 || c = .corrupt then x else y) = y := by
  simp [ready, intact]

section
variable {s t u : State} {p : BitVec 3} {c : Conn} {n off : Nat} {b : List Byte} {r : HostRegion}

theorem exec_uetRmaWrite_runs (ready : s.boot.stat = 0) (intact : c ≠ .corrupt) (region : mapGet s.host.regions n = some r)
    (first : ∀ y ∈ s.host.rodQ, ¬ (y.port = p ∧ y.conn = c)) (run : rmaPacket p c r off b s = .ok () t) :
    exec (.uetRmaWrite p c n off b) s = .next (t.undrainAt (unitPort p.toNat)) :=
  (port_takes ready intact).trans <|
    takePacket_runs (x := { port := p, conn := c, send := false, target := n, off := off, data := b }) first
      ((rmaWrite_region region p c off b).trans run)

theorem exec_uetRmaWrite_waits (s : State) (p : BitVec 3) (g n off : Nat) (b : List Byte) :
    let c := Conn.rod g
    let x : RodPacket := { port := p, conn := c, send := false, target := n, off := off, data := b }
    s.boot.stat = 0 → (∃ y ∈ s.host.rodQ, y.port = p ∧ y.conn = c) ∨ (∃ u, x.run s = .error .stall u) →
    exec (.uetRmaWrite p c n off b) s = .next (s.onHost fun h => { h with rodQ := h.rodQ ++ [x] }) :=
  fun ready waits => (port_takes (c := .rod g) ready nofun).trans (takePacket_waits (g := g) rfl waits)

/-- A read that lies in its region is answered with the bytes. -/
theorem exec_uetRmaRead_answers {len : Nat} (ready : s.boot.stat = 0) (intact : c ≠ .corrupt) (reliable : c ≠ .unreliable)
    (region : mapGet s.host.regions n = some r) (inside : off + len ≤ r.len)
    (read : attempt (unitLoad (portPanel p) (.unit r.owner) r.owner (r.base + off) len) s = .ok (.ok b) u) :
    exec (.uetRmaRead p c n off len) s =
      .next ((u.onHost fun h => { h with replies := h.replies ++ [.data p b] }).undrainAt (unitPort p.toNat)) := by
  refine (port_takes ready intact).trans (runUnit_ok _ _ _ _ ?_)
  rw [region]
  exact pass_check reliable <| pass_check (Nat.not_lt.2 inside) <| then_ok read (answerPort_run _ u)

/-- A read past its region's end is refused with code 2. -/
theorem exec_uetRmaRead_past_end {len : Nat} (ready : s.boot.stat = 0) (intact : c ≠ .corrupt) (reliable : c ≠ .unreliable)
    (region : mapGet s.host.regions n = some r) (past : r.len < off + len) (refused : refuseUet p 2 (r.named off) s = .ok () t) :
    exec (.uetRmaRead p c n off len) s = .next (t.undrainAt (unitPort p.toNat)) := by
  refine (port_takes ready intact).trans (runUnit_ok _ _ _ _ ?_)
  rw [region]
  refine pass_check reliable ?_
  rw [if_pos past, refused]

/-- A send that its receive takes is performed, and uses the receive up. -/
theorem exec_uetSend_runs (ready : s.boot.stat = 0) (intact : c ≠ .corrupt) (reliable : c ≠ .unreliable)
    (posted : mapGet s.host.receives n = some r) (inside : b.length ≤ r.len)
    (first : ∀ y ∈ s.host.rodQ, ¬ (y.port = p ∧ y.conn = c)) (run : rmaPacket p c r 0 b s = .ok () u) :
    exec (.uetSend p c n b) s =
      .next ((u.onHost fun h => { h with receives := mapDel h.receives n }).undrainAt (unitPort p.toNat)) :=
  (port_takes ready intact).trans <|
    takePacket_runs (x := { port := p, conn := c, send := true, target := n, off := 0, data := b }) first
      (rmaSend_receive posted reliable inside run)

end

/-- Settles O42, clause by clause from what a packet of a port does with its region or its receive. -/
theorem portOperations : Obligations.PortOperations := by
  unfold Obligations.PortOperations
  refine ⟨?write, exec_uetRmaWrite_waits, ?read, ?send, ?past⟩
  case write =>
    intro s u p c n off b r ready intact reliable region inside fields mapped free first stored
    exact exec_uetRmaWrite_runs ready intact region first (rmaPacket_performs reliable inside fields mapped free stored)
  case read =>
    intro s u p c n off len b r ready intact reliable region inside read
    exact exec_uetRmaRead_answers ready intact reliable region inside read
  case send =>
    intro s u p c n b r ready intact reliable posted inside fields mapped free first stored
    have start : 0 + b.length ≤ r.len := (Nat.zero_add _).le.trans inside
    rw [exec_uetSend_runs ready intact reliable posted inside first
      (rmaPacket_performs (off := 0) reliable start fields mapped free stored)]
    by_cases acked : rmaTails r.base b = [] <;> simp [acked, State.onHost]
  case past =>
    intro s t p c n off b r ready intact reliable region past first refused
    exact ⟨exec_uetRmaWrite_runs ready intact region first (rmaPacket_past_end reliable past refused),
      exec_uetRmaRead_past_end ready intact reliable region past refused⟩

end Sys2Proof.Machine

/-! The events of power and the reset of the module, one lemma a case, and the statement put together from them (spec 11 R193 to
R201, 26 R412). -/

namespace Sys2Proof.Machine

/-! ## P1 (R197) -/

/-- A cluster that runs and whose cores have all been idle retains. -/
theorem exec_p1Entry_idle (s : State) (c : BitVec 3) (runs : vget s.power.cluster c.toNat = 0) (timed : s.power.idle ≠ 0)
    (idle : ∀ d ∈ s.coresOf c.toNat, s.coreIdle d = true) : exec (.p1Entry c) s = .next (s.setCluster c.toNat 1) := by
  have enters : (vget s.power.cluster c.toNat = 0 && s.power.idle != 0 && (s.coresOf c.toNat).all s.coreIdle) = true := by
    simpa [runs] using ⟨timed, idle⟩
  change execP1Entry c s = _
  exact if_pos enters

/-- A cluster that retains goes back to run when it is woken. -/
theorem wakeCluster_retaining {s : State} {n : Nat} (retains : vget s.power.cluster n = 1) : s.wakeCluster n = s.setCluster n 0 :=
  if_pos retains

/-- A cluster that retains wakes unless all its cores stay stalled. -/
theorem exec_p1Exit_retaining (s : State) (c : BitVec 3) (retains : vget s.power.cluster c.toNat = 1) :
    exec (.p1Exit c) s = .next (if (s.coresOf c.toNat).all s.coreStalled then s else s.setCluster c.toNat 0) := by
  change execP1Exit c s = _
  rw [execP1Exit, wakeCluster_retaining retains]
  exact (apply_ite Host.Outcome.next _ _ _).symm

/-! ## P2 (R197) -/

/-! ### What is lost -/

section
variable (k : Core) (cycle : Nat) (scnt : Int) (f : Nat)

@[simp] theorem away_powerOff : (k.powerOff cycle scnt f).away = k.away := by rw [Core.powerOff]

@[simp] theorem sigDrop_powerOff : (k.powerOff cycle scnt f).sigDrop = k.sigDrop := by rw [Core.powerOff]

@[simp] theorem scnt_powerOff : (k.powerOff cycle scnt f).scnt = scnt := rfl

@[simp] theorem loaded_powerOff : (k.powerOff cycle scnt f).loaded = false := rfl

end

/-- Core number `i` of cluster `n` loses its contents. -/
def State.powerOffCore (n : Nat) (s : State) (i : Nat) : State :=
  let c : CoreId := BitVec.ofNat 10 (128 * n + i)
  s.setCore c ((s.core c).powerOff s.cycle (s.scntNow (s.core c)) (s.free + i * coreWords))

/-- The first `m` cores of cluster `n` have lost their contents. -/
@[irreducible] def State.powerOffCores (s : State) (n m : Nat) : State := (List.range m).foldl (State.powerOffCore n) s

/-- The cluster is off: its cores and its Gatherer have lost their contents. -/
def State.powerOffCluster (s : State) (n : Nat) : State :=
  let t := (s.setCluster n 2).powerOffCores n 128
  { t.onGath n fun _ => Gatherer.powerOff (t.free + 128 * coreWords) with free := t.free + 129 * coreWords }

@[simp] theorem powerOffCores_zero (s : State) (n : Nat) : s.powerOffCores n 0 = s := by simp [State.powerOffCores]

@[simp] theorem powerOffCores_succ (s : State) (n m : Nat) : s.powerOffCores n (m + 1) = (s.powerOffCores n m).powerOffCore n m := by
  simp [State.powerOffCores, List.range_succ]

/-- Power off changes nothing but the cores. -/
theorem powerOffCores_eq (s : State) (n m : Nat) : s.powerOffCores n m = { s with cores := (s.powerOffCores n m).cores } := by
  induction m with
  | zero => rw [powerOffCores_zero]
  | succ m ih =>
    rw [powerOffCores_succ]
    generalize s.powerOffCores n m = t at ih
    rw [ih]
    rfl

theorem core_powerOffCore_other {s : State} {n i : Nat} (hn : n < 8) (hi : i < 128) (d : CoreId) (other : d.toNat ≠ 128 * n + i) :
    (s.powerOffCore n i).core d = s.core d := by
  refine core_setCore_other _ _ _ _ fun same => other ?_
  rw [same, BitVec.toNat_ofNat]
  omega

/-- A core that is not among the first `m` of the cluster stays as it is. -/
theorem core_powerOffCores_other {s : State} {n m : Nat} (hn : n < 8) (hm : m ≤ 128) (d : CoreId)
    (other : ∀ i, i < m → d.toNat ≠ 128 * n + i) : (s.powerOffCores n m).core d = s.core d := by
  induction m with
  | zero => rw [powerOffCores_zero]
  | succ m ih =>
    rw [powerOffCores_succ, core_powerOffCore_other hn hm d (other m m.lt_succ_self)]
    exact ih (by omega) fun i hi => other i (by omega)

/-- A core among the first `m` of the cluster has lost its contents. -/
theorem core_powerOffCores_own {s : State} {n m i : Nat} (hn : n < 8) (hm : m ≤ 128) (hi : i < m) (d : CoreId)
    (own : d.toNat = 128 * n + i) :
    (s.powerOffCores n m).core d = (s.core d).powerOff s.cycle (s.scntNow (s.core d)) (s.free + i * coreWords) := by
  induction m with
  | zero => omega
  | succ m ih =>
    rw [powerOffCores_succ]
    by_cases last : i = m
    · subst last
      have place : BitVec.ofNat 10 (128 * n + i) = d := by rw [← own, BitVec.ofNat_toNat, BitVec.setWidth_eq]
      have before : (s.powerOffCores n i).core d = s.core d := core_powerOffCores_other hn (by omega) d fun j hj => by omega
      rw [State.powerOffCore, place, core_setCore_same, before, powerOffCores_eq]
      rfl
    · rw [core_powerOffCore_other hn hm d (by omega)]
      exact ih (by omega) (by omega)

/-- Neither a Gatherer nor the count of free values is part of a core. -/
theorem core_onGath_free (s : State) (g : Nat) (f : Gatherer → Gatherer) (m : Nat) (d : CoreId) :
    ({ s.onGath g f with free := m } : State).core d = s.core d := rfl

theorem core_powerOffCluster (s : State) (n : Nat) (d : CoreId) :
    (s.powerOffCluster n).core d = ((s.setCluster n 2).powerOffCores n 128).core d := by
  rw [State.powerOffCluster, core_onGath_free]

theorem gath_powerOffCluster (s : State) (n : Nat) :
    (s.powerOffCluster n).gath = vset s.gath n (Gatherer.powerOff (s.free + 128 * coreWords)) := by
  rw [State.powerOffCluster, powerOffCores_eq]
  rfl

section
variable (s : State) {n : Nat} (hn : n < 8)
include hn

theorem cluster_powerOffCluster : vget (s.powerOffCluster n).power.cluster n = 2 := by
  rw [State.powerOffCluster, powerOffCores_eq]
  exact vget_vset_same _ _ _ hn

theorem core_powerOffCluster_other (d : CoreId) (other : clusterOf d ≠ n) : (s.powerOffCluster n).core d = s.core d := by
  have apart : ∀ i, i < 128 → d.toNat ≠ 128 * n + i := fun i hi same => other (by rw [clusterOf, same]; omega)
  rw [core_powerOffCluster, core_powerOffCores_other hn le_rfl d apart]
  rfl

theorem core_powerOffCluster_own (d : CoreId) (own : clusterOf d = n) :
    (s.powerOffCluster n).core d =
      (s.core d).powerOff s.cycle (s.scntNow (s.core d)) (s.free + d.toNat % 128 * coreWords) := by
  have place : d.toNat = 128 * n + d.toNat % 128 := by rw [← own, clusterOf]; omega
  rw [core_powerOffCluster, core_powerOffCores_own hn le_rfl (Nat.mod_lt _ (by decide)) d place]
  rfl

end

/-! ### The write of STATE -/

/-- P2 may not be entered while the Gatherer is enabled or a core holds an image. -/
theorem exec_p2Enter_refused (s : State) (c : BitVec 3)
    (used : (vget s.gath c.toNat).en = true ∨ ∃ d ∈ s.coresOf c.toNat, (s.core d).loaded = true) :
    exec (.p2Enter c) s = .next (if vget s.power.cluster c.toNat = 1 then s.setCluster c.toNat 0 else s) := by
  have kept : ((vget s.gath c.toNat).en || (s.coresOf c.toNat).any fun d => (s.core d).loaded) = true := by simpa using used
  change execP2Enter c s = _
  exact if_pos kept

theorem exec_p2Enter_unused (s : State) (c : BitVec 3) (disabled : (vget s.gath c.toNat).en = false)
    (empty : ∀ d ∈ s.coresOf c.toNat, (s.core d).loaded = false) :
    exec (.p2Enter c) s = .next (s.powerOffCluster c.toNat) := by
  have unused : ¬ ((vget s.gath c.toNat).en || (s.coresOf c.toNat).any fun d => (s.core d).loaded) = true := by
    simpa [disabled] using empty
  change execP2Enter c s = _
  rw [State.powerOffCluster, State.powerOffCores]
  exact if_neg unused

theorem exec_p2Exit_cases (s : State) (c : BitVec 3) :
    exec (.p2Exit c) s = .next (if vget s.power.cluster c.toNat = 0 then s else s.setCluster c.toNat 0) :=
  (apply_ite Host.Outcome.next _ _ _).symm

/-! ## Limits (R198 to R200) -/

/-- LIMIT takes the low 16 bits of what is written, and at most 3,000. -/
theorem exec_plimitWrite_limit (s : State) (v : Word) :
    ∃ n : BitVec 16, exec (.plimitWrite v) s = .next { s with power := { s.power with limit := n } } ∧
      n.toNat = min 3000 (v.toNat % 2 ^ 16) := by
  refine ⟨_, rfl, ?_⟩
  have low : (field v 0 16).toNat = v.toNat % 2 ^ 16 := by simp [field]
  rw [← low]
  split
  · next above => exact (Nat.min_eq_left above.le).symm
  · next within => exact (Nat.min_eq_right (Nat.not_lt.1 within)).symm

/-! ## Module reset (R193, R194, R412) -/

theorem bootCode_noKey {b : BootInput} (unread : b.keyOk = false) : bootCode b = 7 := by simp [bootCode, unread]

/-- A boot that fails leaves every link down. -/
theorem link_failedState (s : State) (b : BootInput) (code : BitVec 4) (l : Nat) (h : l < 16) :
    ((failedState s b code).link l).down = true := by
  change (vget (s.links.map fun k : Link => { k with down := true }) l).down = true
  rw [vget_map _ _ _ h]

/-- A boot whose key cannot be read has measured nothing. -/
theorem bootRegs_noKey (b : BootInput) (i : Nat) (h : i < 4) : vget (bootRegs b 7) i = 0 := by
  change vget (Vector.replicate 4 0) i = 0
  rw [vget_lt _ _ h, Vector.getElem_replicate]

theorem exec_moduleReset_noKey (s : State) (b : BootInput) (unread : b.keyOk = false) :
    ∃ t, exec (.moduleReset b) s = .next t ∧ t.boot.stat = 7 ∧ t.boot.harts = 0 ∧ (∀ i, i < 4 → vget t.boot.mreg i = 0) ∧
      ∀ l, l < 16 → (t.link l).down = true := by
  refine ⟨_, rfl, ?_⟩
  rw [bootCode_noKey unread, if_neg (by decide)]
  exact ⟨rfl, rfl, bootRegs_noKey b, link_failedState _ b 7⟩

/-- Settles O46, event by event. -/
theorem powerAndBoot : Obligations.PowerAndBoot := by
  unfold Obligations.PowerAndBoot
  refine ⟨exec_p1Entry_idle, exec_p1Exit_retaining, exec_p2Enter_refused, ?off, exec_p2Exit_cases, fun _ _ => rfl, fun _ => rfl,
    fun _ => rfl, exec_plimitWrite_limit, fun _ _ _ _ => rfl, fun _ _ => rfl, exec_moduleReset_noKey⟩
  case off =>
    intro s c disabled empty
    refine ⟨_, exec_p2Enter_unused s c disabled empty, cluster_powerOffCluster s c.isLt,
      core_powerOffCluster_other s c.isLt, ?cores, ?gatherer⟩
    case cores =>
      intro d own
      rw [core_powerOffCluster_own s c.isLt d own]
      exact ⟨away_powerOff .., sigDrop_powerOff .., scnt_powerOff .., loaded_powerOff ..⟩
    case gatherer =>
      rw [gath_powerOffCluster, vget_vset_same _ _ _ c.isLt]
      exact ⟨rfl, rfl, rfl, fun g _ other => vget_vset_other _ _ _ _ other⟩

end Sys2Proof.Machine

/-! Register fields, queue ports and predicates (spec 04 R77, 12 R213, 15 R272, R274): what a read answers and a write leaves, one lemma
a kind of register; and the bits above a predicate field. -/

namespace Sys2Proof.Machine

/-! ## Registers of the A unit -/

theorem rdA_zero (s : State) : rdA 0 s = .ok 0 s := rfl

theorem wrA_zero (v : Word) (s : State) : wrA 0 v s = .ok () s := rfl

theorem wrA_queue (v : Word) (s : State) : wrA 31 v s =
    if (s.core s.cur).ax.length < 32 then .ok () (s.setCore s.cur { s.core s.cur with ax := (s.core s.cur).ax ++ [v] })
    else .error .stall s := by
  change (if 32 ≤ (s.core s.cur).ax.length then _ else _) = _
  rw [← ite_not]
  simp only [Nat.not_le]

/-- A register that is no queue port reads as zero or as it stands. -/
theorem rdA_kept (s : State) (q : Reg) (h31 : q ≠ 31) :
    rdA q s = .ok (if q = 0 then 0 else vget (s.core s.cur).a q.toNat) s := by
  split
  · next h0 => rw [h0, rdA_zero]
  · next h0 => exact rdA_plain s q h0 h31

theorem wrA_plain (s : State) (r : Reg) (v : Word) (h0 : r ≠ 0) (h31 : r ≠ 31) :
    wrA r v s = .ok () (s.setCore s.cur { s.core s.cur with a := vset (s.core s.cur).a r.toNat v }) := by
  unfold wrA
  simp only [if_neg h0, if_neg h31, set_eq_vset]

/-- A register that has been written reads as what was written, and every other one as before. -/
theorem wrA_then_rdA (s : State) (r : Reg) (v : Word) (h0 : r ≠ 0) (h31 : r ≠ 31) :
    ∃ t, wrA r v s = .ok () t ∧ rdA r t = .ok v t ∧
      ∀ q : Reg, q ≠ r → q ≠ 31 → rdA q t = .ok (if q = 0 then 0 else vget (s.core s.cur).a q.toNat) t := by
  refine ⟨_, wrA_plain s r v h0 h31, ?_, fun q other h => ?_⟩
  · rw [rdA_plain _ r h0 h31, cur_setCore, core_setCore_same, vget_vset_same _ _ _ r.isLt]
  · rw [rdA_kept _ q h, cur_setCore, core_setCore_same, vget_vset_other _ _ _ _ (mt BitVec.eq_of_toNat_eq other)]

/-! ## Results of the X unit (R272, R275) -/

theorem keepX_later {s : State} {d : XDest} {v : Word} {now : Core → Core} (later : s.lineOps ≠ none) :
    keepX d v now s = .ok () (s.setCore s.cur { s.core s.cur with xRes := (s.core s.cur).xRes ++ [(d, v)] }) :=
  if_pos (Option.isSome_iff_ne_none.2 later)

theorem keepX_waits {s : State} {d : XDest} {v : Word} {now : Core → Core} (here : s.lineOps = none) (reg : d ≠ .xa)
    (pending : (s.core s.cur).xPending d = true) : keepX d v now s = .error .stall s := by
  simp [keepX, here, reg, pending]

theorem keepX_now {s : State} {d : XDest} {v : Word} {now : Core → Core} (here : s.lineOps = none)
    (settled : d = .xa ∨ (s.core s.cur).xPending d = false) :
    keepX d v now s = .ok () (s.setCore s.cur (now (s.core s.cur))) := by
  obtain rfl | settled := settled
  · simp [keepX, here]
  · simp [keepX, here, settled]

/-! ## Registers of the X unit -/

theorem rdX_zero (s : State) : rdX 0 s = .ok 0 s := rfl

theorem wrX_zero (v : Word) (s : State) : wrX 0 v s = .ok () s := rfl

theorem wrX_queue (v : Word) (s : State) : wrX 31 v s =
    if (s.core s.cur).xa.length < 32 then .ok () (s.setCore s.cur
      (if s.lineOps = none then { s.core s.cur with xa := (s.core s.cur).xa ++ [some v] }
       else { s.core s.cur with xRes := (s.core s.cur).xRes ++ [(.xa, v)] }))
    else .error .stall s := by
  change (if 32 ≤ (s.core s.cur).xa.length then _ else _) = _
  rw [← ite_not]
  simp only [Nat.not_le]
  by_cases here : s.lineOps = none
  · rw [keepX_now here (.inl rfl), if_pos here]
  · rw [keepX_later here, if_neg here]

theorem rdX_reg (s : State) (r : Reg) (h0 : r ≠ 0) (h31 : r ≠ 31) : rdX r s =
    if (s.core s.cur).xPending (.reg r) then .error .stall s else .ok (vget (s.core s.cur).x r.toNat) s := by
  unfold rdX
  simp only [if_neg h0, if_neg h31, vget_lt _ _ r.isLt]

/-- A register that is no queue port and that no earlier word has still to write reads as zero or as it stands. -/
theorem rdX_kept (s : State) (q : Reg) (h31 : q ≠ 31) (settled : q = 0 ∨ (s.core s.cur).xPending (.reg q) = false) :
    rdX q s = .ok (if q = 0 then 0 else vget (s.core s.cur).x q.toNat) s := by
  split
  · next h0 => rw [h0, rdX_zero]
  · next h0 => exact rdX_plain s q h0 h31 (settled.resolve_left h0)

theorem wrX_reg (s : State) (r : Reg) (v : Word) (h0 : r ≠ 0) (h31 : r ≠ 31) :
    wrX r v s = keepX (.reg r) v (fun k => { k with x := vset k.x r.toNat v }) s := by
  unfold wrX
  simp only [if_neg h0, if_neg h31, set_eq_vset]

theorem wrX_then_rdX (s : State) (r : Reg) (v : Word) (h0 : r ≠ 0) (h31 : r ≠ 31) (here : s.lineOps = none)
    (settled : (s.core s.cur).xPending (.reg r) = false) :
    ∃ t, wrX r v s = .ok () t ∧ rdX r t = .ok v t ∧
      ∀ q : Reg, q ≠ r → q ≠ 31 → (q = 0 ∨ (s.core s.cur).xPending (.reg q) = false) →
        rdX q t = .ok (if q = 0 then 0 else vget (s.core s.cur).x q.toNat) t := by
  refine ⟨_, (wrX_reg s r v h0 h31).trans (keepX_now here (.inr settled)), ?_, fun q other h unwritten => ?_⟩
  · rw [rdX_plain _ r h0 h31 (by rw [cur_setCore, core_setCore_same]; exact settled), cur_setCore, core_setCore_same,
      vget_vset_same _ _ _ r.isLt]
  · rw [rdX_kept _ q h (by rw [cur_setCore, core_setCore_same]; exact unwritten), cur_setCore, core_setCore_same,
      vget_vset_other _ _ _ _ (mt BitVec.eq_of_toNat_eq other)]

/-! ## Predicates -/

theorem rdP_zero (s : State) : rdP 0 s = .ok true s := rfl

theorem wrP_zero (b : Bool) (s : State) : wrP 0 b s = .ok () s := rfl

theorem rdP_plain (s : State) (p : Pred) (h0 : p ≠ 0) (settled : (s.core s.cur).xPending (.pred p) = false) :
    rdP p s = .ok (vget (s.core s.cur).p p.toNat) s := by
  rw [rdP_run s p (.inr settled), beq_false_of_ne h0, Bool.false_or]

theorem rdP_pred (s : State) (p : Pred) (h0 : p ≠ 0) : rdP p s =
    if (s.core s.cur).xPending (.pred p) then .error .stall s else .ok (vget (s.core s.cur).p p.toNat) s := by
  cases pending : (s.core s.cur).xPending (.pred p) with
  | false => exact rdP_plain s p h0 pending
  | true => exact if_pos (by rw [pending, Bool.and_true, bne_iff_ne]; exact h0)

theorem wrP_pred (s : State) (p : Pred) (b : Bool) (h0 : p ≠ 0) :
    wrP p b s = keepX (.pred p) (if b then 1 else 0) (fun k => { k with p := vset k.p p.toNat b }) s := by
  unfold wrP
  simp only [if_neg h0, set_eq_vset]

theorem wrP_then_rdP (s : State) (p : Pred) (b : Bool) (h0 : p ≠ 0) (here : s.lineOps = none)
    (settled : (s.core s.cur).xPending (.pred p) = false) :
    ∃ t, wrP p b s = .ok () t ∧ rdP p t = .ok b t ∧
      ∀ q : Pred, q ≠ p → q ≠ 0 → (s.core s.cur).xPending (.pred q) = false →
        rdP q t = .ok (vget (s.core s.cur).p q.toNat) t := by
  refine ⟨_, (wrP_pred s p b h0).trans (keepX_now here (.inr settled)), ?_, fun q other h unwritten => ?_⟩
  · rw [rdP_plain _ p h0 (by rw [cur_setCore, core_setCore_same]; exact settled), cur_setCore, core_setCore_same,
      vget_vset_same _ _ _ p.isLt]
  · rw [rdP_plain _ q h (by rw [cur_setCore, core_setCore_same]; exact unwritten), cur_setCore, core_setCore_same,
      vget_vset_other _ _ _ _ (mt BitVec.eq_of_toNat_eq other)]

/-! ## The bits above a predicate field (R213) -/

/-- A field in which a word differs from what its instruction is written as holds reserved bits. -/
theorem reserved_of_field {w : Word} {i : Instr} (lo n : Nat) (hd : decodeX w = some i) (own : field (encodeWord i) lo n = 0)
    (nonzero : field w lo n ≠ 0) : ∃ i m, decodeWord .x w = .word i m ∧ m ≠ 0 := by
  refine ⟨i, w ^^^ encodeWord i, by rw [decodeWord, show decodeLoose .x w = some i from hd], fun same => nonzero ?_⟩
  rw [BitVec.xor_eq_zero_iff.1 same, own]

/-- An operand field of a word that is put together from its header, its opcode and its operands. -/
theorem field_encodeWord {i : Instr} {t : Strm} {h : Hdr} {op : BitVec 8} {p : BitVec 40} {lo n : Nat} (hh : i.hdr? = some (t, h))
    (hb : encodeBody i = some (op ++ p)) (inside : lo + n ≤ 40) : field (encodeWord i) lo n = field p lo n := by
  rw [encodeWord_eq hh hb, field_append_low _ _ _ _ (Nat.le_trans inside (by decide)), field_append_low _ _ _ _ inside]

/-- CMP, FCMP, PLOG and BRP write zero above the predicate in their d field. -/
theorem decodeX_predicate {w : Word}
    (op : field w 40 8 = 0x18 ∨ field w 40 8 = 0x28 ∨ field w 40 8 = 0x1A ∨ field w 40 8 = 0x30) :
    ∃ i, decodeX w = some i ∧ field (encodeWord i) 38 2 = 0 := by
  have cmp (o : CmpOp) : field (putCmp o) 38 2 = 0 := by simp [putCmp]
  have plog (o : PlogOp) : field (putPlog o) 38 2 = 0 := by simp [putPlog]
  have brp (o : BrpOp) : field (putBrp o) 38 2 = 0 := by simp [putBrp]
  unfold decodeX
  obtain op | op | op | op := op <;> rw [op]
  · exact ⟨.cmp (getHdr w) (getCmp w), rfl, (field_encodeWord rfl rfl (by decide)).trans (cmp _)⟩
  · exact ⟨.fcmp (getHdr w) (getCmp w), rfl, (field_encodeWord rfl rfl (by decide)).trans (cmp _)⟩
  · exact ⟨.plog (getHdr w) (getPlog w), rfl, (field_encodeWord rfl rfl (by decide)).trans (plog _)⟩
  · exact ⟨.brp (getHdr w) (getBrp w), rfl, (field_encodeWord rfl rfl (by decide)).trans (brp _)⟩

/-- PLOG writes zero above its two source predicates. -/
theorem decodeX_plog_sources {w : Word} (op : field w 40 8 = 0x1A) :
    ∃ i, decodeX w = some i ∧ field (encodeWord i) 33 2 = 0 ∧ field (encodeWord i) 28 2 = 0 := by
  have first (o : PlogOp) : field (putPlog o) 33 2 = 0 := by simp [putPlog]
  have second (o : PlogOp) : field (putPlog o) 28 2 = 0 := by simp [putPlog]
  unfold decodeX
  rw [op]
  exact ⟨.plog (getHdr w) (getPlog w), rfl, (field_encodeWord rfl rfl (by decide)).trans (first _),
    (field_encodeWord rfl rfl (by decide)).trans (second _)⟩

/-- Settles O1: the registers of the A unit, those of the X unit, the predicates, and the bits above a predicate field. -/
theorem registerFields : Obligations.RegisterFields := by
  unfold Obligations.RegisterFields
  refine ⟨fun s r v => ⟨?aZero, ?aQueue, ?aPlain⟩, fun s r v p b => ⟨?xZero, ?xQueue, ?xPlain, ?pZero, ?pPlain, ?above, ?plog⟩⟩
  case aZero =>
    rintro rfl
    exact ⟨rdA_zero s, wrA_zero v s⟩
  case aQueue =>
    rintro rfl
    exact ⟨rfl, wrA_queue v s⟩
  case aPlain =>
    intro h0 h31
    exact ⟨rdA_plain s r h0 h31, wrA_then_rdA s r v h0 h31⟩
  case xZero =>
    rintro rfl
    exact ⟨rdX_zero s, wrX_zero v s⟩
  case xQueue =>
    rintro rfl
    exact ⟨rfl, wrX_queue v s⟩
  case xPlain =>
    intro h0 h31
    have write := wrX_reg s r v h0 h31
    exact ⟨rdX_reg s r h0 h31, fun later => write.trans (keepX_later later),
      fun here pending => write.trans (keepX_waits here nofun pending), wrX_then_rdX s r v h0 h31⟩
  case pZero =>
    rintro rfl
    exact ⟨rdP_zero s, wrP_zero b s⟩
  case pPlain =>
    intro h0
    have write := wrP_pred s p b h0
    exact ⟨rdP_pred s p h0, fun later => write.trans (keepX_later later),
      fun here pending => write.trans (keepX_waits here nofun pending), wrP_then_rdP s p b h0⟩
  case above =>
    intro w op nonzero
    obtain ⟨i, hd, own⟩ := decodeX_predicate op
    exact reserved_of_field 38 2 hd own nonzero
  case plog =>
    intro w op nonzero
    obtain ⟨i, hd, first, second⟩ := decodeX_plog_sources op
    obtain nonzero | nonzero := nonzero
    · exact reserved_of_field 33 2 hd first nonzero
    · exact reserved_of_field 28 2 hd second nonzero

end Sys2Proof.Machine

/-! The branches and jumps of the A unit (spec 12 R214, 13 R235 to R237): a target inside the section offends nothing at decode, and the word
goes on there or at the next one. -/

namespace Sys2Proof.Machine

/-! ## Targets -/

theorem inSection_of_bounds {n : Nat} {t : Int} (low : 0 ≤ t) (high : t < n) : inSection n t = true := by
  simp [inSection, low, high]

/-- A target inside the section offends nothing at decode. -/
theorem badTargetA_eq_zero {k : Core} {bits : Nat} {off : Int} (low : 0 ≤ (k.aIndex : Int) + off)
    (high : (k.aIndex : Int) + off < k.aCount) : badTargetA bits off k = 0 := by
  have inside : inSection k.aCount (aimAt k.aIndex off) = true := inSection_of_bounds low high
  rw [badTargetA, inside]
  rfl

/-- A register target of the section that follows a SAFE word, or any of the handler's words, offends nothing at decode. -/
theorem jrBad_eq_zero {k : Core} {o : RR2} {t : Word} (seen : k.seeA [o.s1] = some t) (inside : t.toNat < k.aCount)
    (safe : k.priv = true ∨ k.afterSafe .a 0x4D t.toNat = true) : jrBad o k = 0 := by
  have target : (k.priv || k.afterSafe .a 0x4D t.toNat) = true := Bool.or_eq_true_iff.2 safe
  rw [jrBad, seen, Option.any_some, target, decide_eq_false (Nat.not_le.2 inside)]
  rfl

/-- The issue of a word leaves its index in the section. -/
theorem aIndex_flags {k q : Core} (h : q = { k with flags := q.flags }) : q.aIndex = k.aIndex := by
  rw [h]
  rfl

/-! ## Branches (R235) -/

theorem aBranch_completes {s s1 s2 s3 : State} {i : Instr} {h : Hdr} {o : BOp} {taken : Word → Word → Bool} {x y : Word}
    (hi : s.issueA i h = some s1) (hx : rdA o.s1 s1 = .ok x s2) (hy : rdA o.s2 s2 = .ok y s3)
    (low : 0 ≤ ((s.core s.cur).aIndex : Int) + o.off.toInt)
    (high : ((s.core s.cur).aIndex : Int) + o.off.toInt < (s.core s.cur).aCount) :
    aBranch i h o taken s = .next (s.endA i h
      (if taken x y then .goto (((s.core s.cur).aIndex : Int) + o.off.toInt).toNat else .next) s3) := by
  obtain ⟨k, hk, rfl⟩ := issueA_core hi
  refine runA_ok _ _ false _ _ s _ _ _ hi nofun (badTargetA_eq_zero low high) ?_
  refine then_ok (getCore_run _) <| then_ok hx <| then_ok hy ?_
  rw [cur_setCore, core_setCore_same, aIndex_flags hk]
  rfl

/-- A branch whose test is that of its condition goes where the condition says. -/
theorem branchA_of_test {mk : Hdr → BOp → Instr} {test : Word → Word → Bool} {taken : Word → Word → Prop} [DecidableRel taken]
    (runs : ∀ h o s, exec (mk h o) s = aBranch (mk h o) h o test s) (agrees : ∀ x y, test x y = true ↔ taken x y) :
    BranchA mk taken := by
  intro s s1 s2 s3 h o x y hi hx hy k t low high
  rw [runs, aBranch_completes hi hx hy low high]
  simp only [agrees]
  rfl

theorem not_slt_iff (x y : Word) : (!BitVec.slt x y) = true ↔ y.toInt ≤ x.toInt := by
  rw [Bool.not_eq_true', ← Bool.not_eq_true, BitVec.slt_iff_toInt_lt, Int.not_lt]

/-! ## Jumps (R236, R237) -/

theorem aJmp_completes (s s1 s2 : State) (h : Hdr) (o : LIOp) (hi : s.issueA (.aJmp h o) h = some s1) :
    let k := s.core s.cur
    let t : Int := k.aIndex + o.imm.toInt
    0 ≤ t → t < k.aCount → wrA o.d (w64 (k.aIndex + 2)) s1 = .ok () s2 →
    exec (.aJmp h o) s = .next (s.endA (.aJmp h o) h (.goto t.toNat) s2) := by
  intro k t low high hd
  obtain ⟨q, hq, rfl⟩ := issueA_core hi
  refine runA_ok _ _ false _ _ s _ _ _ hi nofun (badTargetA_eq_zero low high) ?_
  refine then_ok (getCore_run _) ?_
  rw [cur_setCore, core_setCore_same, aIndex_flags hq]
  exact then_ok hd rfl

theorem aJr_completes (s s1 s2 s3 : State) (h : Hdr) (o : RR2) (t : Word) (hi : s.issueA (.aJr h o) h = some s1)
    (ht : rdA o.s1 s1 = .ok t s2) :
    let k := s.core s.cur
    t.toNat < k.aCount → (k.priv ∨ k.afterSafe .a 0x4D t.toNat) → wrA o.d (w64 (k.aIndex + 2)) s2 = .ok () s3 →
    exec (.aJr h o) s = .next (s.endA (.aJr h o) h (.goto t.toNat) s3) := by
  intro k inside safe hd
  obtain ⟨q, hq, rfl⟩ := issueA_core hi
  refine runA_ok _ _ false _ _ s _ _ _ hi nofun (jrBad_eq_zero (seeA_issued hq ht) inside safe) ?_
  refine then_ok (getCore_run _) <| then_ok ht ?_
  rw [cur_setCore, core_setCore_same, aIndex_flags hq]
  exact then_ok hd rfl

/-- Settles O3: the four branches from their tests, and the two jumps. -/
theorem accessControl : Obligations.AccessControl := by
  unfold Obligations.AccessControl
  refine ⟨⟨?beq, ?bne, ?blt, ?bge⟩, aJmp_completes, aJr_completes⟩
  case beq => exact branchA_of_test (fun _ _ _ => rfl) fun _ _ => beq_iff_eq
  case bne => exact branchA_of_test (fun _ _ _ => rfl) fun _ _ => bne_iff_ne
  case blt => exact branchA_of_test (fun _ _ _ => rfl) fun _ _ => BitVec.slt_iff_toInt_lt
  case bge => exact branchA_of_test (fun _ _ _ => rfl) not_slt_iff

end Sys2Proof.Machine

/-! Words written out from the encodings (spec 12 R212, R215, R217). -/

namespace Sys2Proof.Machine

/-- The word that a well-formed instruction is written as decodes to it. -/
theorem decodeWord_of_encodes {i : Instr} {t : Strm} {h : Hdr} {w : Word} (hh : i.hdr? = some (t, h)) (legal : i.WellFormed)
    (e : encodeWord i = w) : decodeWord t w = .word i 0 :=
  e ▸ encodeThenDecode i t h hh legal

/-- Settles O48: each word is what its instruction is written as, and the last one's opcode is not assigned. -/
theorem sampleWords : Obligations.SampleWords := by
  unfold Obligations.SampleWords
  refine ⟨?addi, ?waits, ?signals, ?sysc, ?sts, ?mul, ?brp, ?dset, ?ccopy, ?unassigned⟩
  case unassigned => rfl
  all_goals exact decodeWord_of_encodes rfl (by decide) rfl

end Sys2Proof.Machine

/-! The arithmetic and the readings of the A unit (spec 13 R226, R242 to R245, 14 R252, R261, R267): the words of one form complete by one lemma
of that form. -/

namespace Sys2Proof.Machine

/-! ## Forms of A words -/

section
variable {ω : Type} {mk : Hdr → ω → Instr}

theorem twoSourceA_of_aBin {d s1 s2 : ω → Reg} {f : ω → Word → Word → Word}
    (runs : ∀ h o s, exec (mk h o) s = aBin (mk h o) h (d o) (s1 o) (s2 o) (f o) s) : TwoSourceA mk d s1 s2 f := by
  intro s t1 t2 t3 t4 h o x y hi hx hy hd
  exact (runs h o s).trans (runA_ok _ _ false noBad _ s _ _ _ hi nofun rfl (then_ok hx <| then_ok hy <| then_ok hd rfl))

theorem oneSourceA_of_aUn {d s1 : ω → Reg} {f : ω → Word → Word}
    (runs : ∀ h o s, exec (mk h o) s = aUn (mk h o) h (d o) (s1 o) (f o) s) : OneSourceA mk d s1 f := by
  intro s t1 t2 t3 h o x hi hx hd
  exact (runs h o s).trans (runA_ok _ _ false noBad _ s _ _ _ hi nofun rfl (then_ok hx <| then_ok hd rfl))

/-- A word whose body, from the state it issued in, comes to the write of one value writes that value. -/
theorem noSourceA_of_body {d : ω → Reg} {ok : State → ω → Prop} {f : ω → State → Word} {priv : ω → Bool} {bad : ω → Core → Word}
    {body : ω → M Flow} (runs : ∀ h o s, exec (mk h o) s = runA (mk h o) h (priv o) (bad o) (body o) s)
    (allowed : ∀ s o, ok s o → priv o = true → (s.core s.cur).priv = true) (fits : ∀ s o, ok s o → bad o (s.core s.cur) = 0)
    (writes : ∀ s o k, ok s o → k = { s.core s.cur with flags := k.flags } →
      body o (s.setCore s.cur k) = (wrA (d o) (f o (s.setCore s.cur k)) >>= fun _ => pure .next) (s.setCore s.cur k)) :
    NoSourceA mk d ok f := by
  intro s t1 t2 h o hi hok hd
  obtain ⟨k, hk, rfl⟩ := issueA_core hi
  exact (runs h o s).trans
    (runA_ok _ _ (priv o) _ _ s _ _ _ hi (allowed s o hok) (fits s o hok) ((writes s o k hok hk).trans (then_ok hd rfl)))

/-- A word without operands to check whose body ends well in `f` of the state it issued in completes with it. -/
theorem plainA_of_body {ok : State → ω → Prop} {f : Hdr → ω → State → State} {body : ω → M Flow}
    (runs : ∀ h o s, exec (mk h o) s = runA (mk h o) h false noBad (body o) s)
    (ends : ∀ s h o k, ok s o → k = { s.core s.cur with flags := k.flags } →
      body o (s.setCore s.cur k) = .ok .next (f h o (s.setCore s.cur k))) : PlainA mk ok f := by
  intro s s1 h o hi hok
  obtain ⟨k, hk, rfl⟩ := issueA_core hi
  exact (runs h o s).trans (runA_ok _ _ false noBad _ s _ _ _ hi nofun rfl (ends s h o k hok hk))

end

/-! ## Arithmetic (R226) -/

/-- Settles O2: each word by the lemma of its form. -/
theorem accessArithmetic : Obligations.AccessArithmetic := by
  unfold Obligations.AccessArithmetic
  refine ⟨?nop, ?li, ?lih, ?add, ?addi, ?sub, ?and, ?or, ?xor, ?shli, ?shri, ?lea⟩
  case nop => exact plainA_of_body (body := fun _ => pure .next) (fun _ _ _ => rfl) fun _ _ _ _ _ _ => rfl
  case li =>
    exact noSourceA_of_body (priv := fun _ => false) (bad := fun _ => noBad)
      (body := fun o => wrA o.d (sext64 o.imm) >>= fun _ => pure .next) (fun _ _ _ => rfl) (fun _ _ _ => nofun) (fun _ _ _ => rfl)
      fun _ _ _ _ _ => rfl
  case lih => exact oneSourceA_of_aUn fun _ _ _ => rfl
  case addi => exact oneSourceA_of_aUn fun _ _ _ => rfl
  case shli => exact oneSourceA_of_aUn fun _ _ _ => rfl
  case shri => exact oneSourceA_of_aUn fun _ _ _ => rfl
  all_goals exact twoSourceA_of_aBin fun _ _ _ => rfl

/-! ## Readings (R242 to R245, R252, R261, R267) -/

theorem readFt_run (s : State) : readFt s = .ok (s.ftOf (panelOf s.cur)) s := rfl

/-- A core counter of source 1 counts the cycles since its selection (R245). -/
theorem pmRead_run (n : Nat) (s : State) :
    pmRead n s = .ok (if (vget (s.core s.cur).pmSel n).toNat = 1
      then vget (s.core s.cur).pmCnt n + BitVec.ofNat 48 (s.cycle - vget (s.core s.cur).pmAt n)
      else vget (s.core s.cur).pmCnt n) s := by
  unfold pmRead
  rw [bind_ok _ _ _ _ _ (getState_run s)]
  generalize (vget (s.core s.cur).pmSel n).toNat = source
  match source with
  | 0 | 1 => rfl
  | m + 2 =>
    rw [if_neg (by omega)]
    rfl

theorem badVf_eq_zero {k : Core} {v : BitVec 6} (at0 : Nat) (below : v.toNat < k.flagNum.toNat) : badVf v at0 k = 0 := by
  rw [badVf, flagIdx_of_lt below]
  rfl

/-- An entry up to 32 offends nothing at decode. -/
theorem rbtldBad_eq_zero {k : Core} {o : RbtldOp} {x : Word} (seen : k.seeA [o.s1] = some x) (inside : rbtEntry o x ≤ 32) :
    rbtldBad o k = 0 := by
  rw [rbtldBad, seen, Option.any_some, decide_eq_false (Nat.not_lt.2 inside)]
  rfl

theorem rbtld_completes (s s1 s2 s3 : State) (h : Hdr) (o : RbtldOp) (x : Word) (hi : s.issueA (.rbtld h o) h = some s1)
    (hx : rdA o.s1 s1 = .ok x s2) :
    let e := (x.toNat + o.blk.toNat) % 64
    let k := s.core s.cur
    e ≤ 32 → wrA o.d (if e = 32 then vget k.header o.w.toNat else vget k.passMem (8 * e + o.w.toNat)) s2 = .ok () s3 →
    exec (.rbtld h o) s = .next (s.endA (.rbtld h o) h .next s3) := by
  intro e k inside hd
  obtain ⟨q, hq, rfl⟩ := issueA_core hi
  refine runA_ok _ _ false _ _ s _ _ _ hi nofun (rbtldBad_eq_zero (seeA_issued hq hx) inside) ?_
  refine then_ok (getCore_run _) <| then_ok hx ?_
  rw [cur_setCore, core_setCore_same, hq]
  exact then_ok hd rfl

/-- Settles O4: each word comes to the write of its reading, RBTLD past the check of its entry. -/
theorem accessReads : Obligations.AccessReads := by
  unfold Obligations.AccessReads
  refine ⟨?ftrd, ?tickrd, ?pmrd, ?ringrd, ?frd, rbtld_completes, ?csrr⟩
  case pmrd =>
    refine noSourceA_of_body (priv := fun _ => false) (bad := fun _ => noBad) (fun _ _ _ => rfl) (fun _ _ _ => nofun)
      (fun _ _ _ => rfl) fun s o k _ _ => ?_
    exact then_ok (pmRead_run _ _) rfl
  case frd =>
    refine noSourceA_of_body (priv := fun _ => false) (bad := fun o => badVf o.vf 29) (fun _ _ _ => rfl) (fun _ _ _ => nofun)
      (fun _ _ below => badVf_eq_zero 29 below) fun s o k below hk => ?_
    have named : flagIdx k.flagNum k.flagBase o.vf = some ((o.vf.toNat + k.flagBase.toNat) % 64) :=
      flagIdx_of_lt (by rw [hk]; exact below)
    refine then_ok (getCore_run _) ?_
    simp only [cur_setCore, core_setCore_same, named, Option.getD_some]
  case csrr =>
    exact noSourceA_of_body (priv := fun o => csrPriv o.n.toNat) (bad := fun _ => noBad) (fun _ _ _ => rfl) (fun _ _ hok => hok)
      (fun _ _ _ => rfl) fun _ _ _ _ _ => rfl
  all_goals
    exact noSourceA_of_body (priv := fun _ => false) (bad := fun _ => noBad) (fun _ _ _ => rfl) (fun _ _ _ => nofun)
      (fun _ _ _ => rfl) fun _ _ _ _ _ => rfl

end Sys2Proof.Machine

/-! The memory words of the A unit (spec 13 R229 to R234): each goes on from its address, the place that its rights grant and the access there. -/

namespace Sys2Proof.Machine

/-- LDC in regions 0 and 1 loads from the line of the panel's constant cache (R232). -/
theorem ldc_cached (s s1 s2 s3 s4 s5 : State) (h : Hdr) (o : MOp) (b : Word) (la : Nat) (line : BitVec 512)
    (hi : s.issueA (.ldc h o) h = some s1) (hb : rdA o.base s1 = .ok b s2) (hp : mPlace (b + sext64 o.off) o 1 s2 = .ok la s3)
    (region : regionOf la ≤ 1) (hc : constLine (panelOf s3.cur) (s3.core s3.cur).tag la (b + sext64 o.off) s3 = .ok line s4)
    (hd : wrA o.reg (extend (2 ^ o.size.toNat) o.sx ((lineBytes line).drop (la % 64) |>.take (2 ^ o.size.toNat))) s4 = .ok () s5) :
    exec (.ldc h o) s = .next (s.endA (.ldc h o) h .next s5) := by
  refine runA_ok _ _ false noBad _ s _ _ _ hi nofun rfl ?_
  refine then_ok (mAddr_ok hb) <| then_ok hp ?_
  rw [if_pos region]
  exact then_ok (then_ok (aPanel_run s3) <| then_ok (aTag_run s3) <| then_ok hc rfl) <| then_ok hd rfl

/-- LDC above region 1 is the plain load (log 113). -/
theorem ldc_plain (s s1 s2 s3 s4 s5 : State) (h : Hdr) (o : MOp) (b : Word) (la : Nat) (bs : List Byte)
    (hi : s.issueA (.ldc h o) h = some s1) (hb : rdA o.base s1 = .ok b s2) (hp : mPlace (b + sext64 o.off) o 1 s2 = .ok la s3)
    (region : 1 < regionOf la) (hl : aLoad la (2 ^ o.size.toNat) (b + sext64 o.off) s3 = .ok bs s4)
    (hd : wrA o.reg (extend (2 ^ o.size.toNat) o.sx bs) s4 = .ok () s5) :
    exec (.ldc h o) s = .next (s.endA (.ldc h o) h .next s5) := by
  refine runA_ok _ _ false noBad _ s _ _ _ hi nofun rfl ?_
  refine then_ok (mAddr_ok hb) <| then_ok hp ?_
  rw [if_neg (Nat.not_le.2 region)]
  exact then_ok hl <| then_ok hd rfl

/-- Settles O6: each word's body, part by part. -/
theorem memoryAccess : Obligations.MemoryAccess := by
  unfold Obligations.MemoryAccess
  refine ⟨?ldm, ?stm, ldc_cached, ldc_plain, ?csync, ?pfm⟩
  case ldm =>
    intro s s1 s2 s3 s4 s5 h o b la bs hi hb hp hl hd
    exact runA_ok _ _ false noBad _ s _ _ _ hi nofun rfl
      (then_ok (mAddr_ok hb) <| then_ok hp <| then_ok hl <| then_ok hd rfl)
  case stm =>
    intro s s1 s2 s3 s4 s5 h o v b la hi hv hb hp hs
    exact runA_ok _ _ false noBad _ s _ _ _ hi nofun rfl
      (then_ok hv <| then_ok (mAddr_ok hb) <| then_ok hp <| then_ok hs rfl)
  case csync =>
    intro s s1 h _ hi _
    change execCsync h s = _
    refine runA_ok _ _ false noBad _ s _ _ _ hi nofun rfl ?_
    exact then_ok (aPanel_run s1) <| then_ok (modMem_run _ s1) rfl
  case pfm =>
    intro s s1 s2 s3 h o b hi hb hf
    exact runA_ok _ _ false noBad _ s _ _ _ hi nofun rfl (then_ok hb <| then_ok hf rfl)

end Sys2Proof.Machine

/-! The stream words of the A unit (spec 13 R238, R240, R241, 14 R255 to R257, R263): owner bits, rings, markers, fences and safe points. -/

namespace Sys2Proof.Machine

/-! ## Owner bits (R68, R238) -/

theorem setOwner_zero (k : Core) (b0 : Nat) (v : Bool) : k.setOwner b0 0 v = k := rfl

theorem setOwner_succ (k : Core) (b0 n : Nat) (v : Bool) :
    k.setOwner b0 (n + 1) v = { k with owner := vset (k.setOwner b0 n v).owner (b0 + n) v } := by
  simp only [Core.setOwner, List.range_succ, List.foldl_append, List.foldl_cons, List.foldl_nil]

/-- The owner bits of a run of banks are what was set, and every other one is as before. -/
theorem owner_setOwner (k : Core) (b0 n : Nat) (v : Bool) (b : Nat) (hb : b < 176) :
    vget (k.setOwner b0 n v).owner b = if b0 ≤ b ∧ b < b0 + n then v else vget k.owner b := by
  induction n with
  | zero => rw [setOwner_zero, if_neg (by omega)]
  | succ n ih =>
    rw [setOwner_succ]
    dsimp only
    by_cases last : b = b0 + n
    · rw [← last, vget_vset_same _ _ _ hb, if_pos (by omega)]
    · rw [vget_vset_other _ _ _ _ last, ih]
      exact if_congr (by omega) rfl rfl

theorem own_completes {s s1 : State} {h : Hdr} {o : OwnOp} (hi : s.issueA (.own h o) h = some s1)
    (idle : o.v = false → ∀ i, i ≤ o.n1.toNat → s1.bankNamed s.cur (o.first.toNat + i) = false) :
    exec (.own h o) s = .next (s.endA (.own h o) h .next
      (s1.onCore s.cur fun k => k.setOwner o.first.toNat (o.n1.toNat + 1) o.v)) := by
  obtain ⟨k, hk, rfl⟩ := issueA_core hi
  have free : (!o.v && (List.range (o.n1.toNat + 1)).any fun i => (s.setCore s.cur k).bankNamed s.cur (o.first.toNat + i)) = false := by
    cases hv : o.v with
    | true => rfl
    | false =>
      rw [Bool.not_false, Bool.true_and, List.any_eq_false]
      intro i hr
      exact Bool.eq_false_iff.1 (idle hv i (Nat.lt_succ_iff.1 (List.mem_range.1 hr)))
  refine runA_ok _ _ false noBad _ s _ _ _ hi nofun rfl ?_
  refine then_ok (getState_run _) ?_
  rw [cur_setCore, free]
  exact then_ok (stallIf_false _) <| then_ok (modCore_run _ _) rfl

/-! ## Engine rings (R240, R241) -/

theorem ringset_completes (s s1 : State) (h : Hdr) (o : RingSetOp) (hi : s.issueA (.ringset h o) h = some s1)
    (apart : ringsetBad o (s.core s.cur) = 0) :
    let t := engStream o.strm
    let r := (s.core s.cur).ring t
    r.fetch = r.pub → ((s.core s.cur).engine t).buf = [] →
    exec (.ringset h o) s = .next (s.endA (.ringset h o) h .next (s1.onCore s.cur fun k =>
      k.setRing t { r with base := o.base, size := o.size, fetch := 0, pub := 0 })) := by
  intro t r drained empty
  obtain ⟨k, hk, rfl⟩ := issueA_core hi
  have ring : k.ring (engStream o.strm) = r := by rw [hk]; rfl
  have buf : (k.engine (engStream o.strm)).buf = [] := by
    rw [show k.engine (engStream o.strm) = (s.core s.cur).engine t by rw [hk]; rfl, empty]
  refine runA_ok _ _ false _ _ s _ _ _ hi nofun apart ?_
  refine then_ok (getCore_run _) ?_
  rw [cur_setCore, core_setCore_same, ring, buf, drained, bne_self_eq_false]
  exact then_ok (stallIf_false _) <| then_ok (modCore_run _ _) rfl

/-- The value that a RINGPUB publishes: its immediate, or the low half of its register. -/
def publishedValue (o : RingPubOp) : M (BitVec 32) :=
  match o.val with
  | .imm u => pure u
  | .reg r => do
    let v ← rdA r
    pure (field v 0 32)

theorem execRingpub_eq (h : Hdr) (o : RingPubOp) (s : State) :
    execRingpub h o s = runA (.ringpub h o) h false (ringpubBad o) (do
      let u ← publishedValue o
      let k ← getCore
      let r := k.ring (engStream o.strm)
      modCore fun k => k.setRing (engStream o.strm) { r with pub := raisePub r.pub u, started := true }
      pure .next) s := rfl

/-- Reading the value leaves the rings, and the decode stage has seen it where it fits the ring. -/
theorem ringpub_reads {s t : State} {o : RingPubOp} {u : BitVec 32} (hu : publishedValue o s = .ok u t) :
    t.cur = s.cur ∧ (t.core s.cur).rings = (s.core s.cur).rings ∧
      ((u - ((s.core s.cur).ring (engStream o.strm)).fetch).toNat ≤ 2 ^ ((s.core s.cur).ring (engStream o.strm)).size.toNat →
        ringpubBad o (s.core s.cur) = 0) := by
  unfold publishedValue at hu
  unfold ringpubBad
  cases hv : o.val with
  | imm v =>
    rw [hv] at hu
    cases hu
    refine ⟨rfl, rfl, fun room => ?_⟩
    dsimp only
    rw [decide_eq_false (Nat.not_lt.2 room)]
    rfl
  | reg r =>
    rw [hv] at hu
    obtain ⟨x, t1, hx, last⟩ := bind_eq_ok hu
    cases last
    refine ⟨cur_of_rdA hx, by rw [core_of_rdA hx], fun room => ?_⟩
    dsimp only
    rw [seeA_of_rdA hx, Option.any_some, decide_eq_false (Nat.not_lt.2 room)]
    rfl

theorem ringpubBad_flags {k q : Core} (o : RingPubOp) (h : q = { k with flags := q.flags }) : ringpubBad o k = ringpubBad o q := by
  have seen (rs : List Reg) : q.seeA rs = k.seeA rs := seeA_alike rs (by rw [h]) (by rw [h])
  have ring : q.ring (engStream o.strm) = k.ring (engStream o.strm) := by rw [h]; rfl
  unfold ringpubBad
  simp only [seen, ring]

theorem raisePub_eq (pub u : BitVec 32) :
    raisePub pub u = if 1 ≤ (u - pub).toNat ∧ (u - pub).toNat < 2 ^ 31 then u else pub := by
  simp only [raisePub, Bool.and_eq_true, decide_eq_true_eq]

theorem ringpub_completes {s s1 s2 : State} {h : Hdr} {o : RingPubOp} {u : BitVec 32} (hi : s.issueA (.ringpub h o) h = some s1)
    (hu : publishedValue o s1 = .ok u s2) :
    let t := engStream o.strm
    let r := (s.core s.cur).ring t
    (u - r.fetch).toNat ≤ 2 ^ r.size.toNat →
    exec (.ringpub h o) s = .next (s.endA (.ringpub h o) h .next (s2.onCore s.cur fun k =>
      k.setRing t { r with pub := if 1 ≤ (u - r.pub).toNat ∧ (u - r.pub).toNat < 2 ^ 31 then u else r.pub
                           started := true })) := by
  intro t r room
  obtain ⟨k, hk, rfl⟩ := issueA_core hi
  obtain ⟨cur, rings, legal⟩ := ringpub_reads hu
  rw [cur_setCore] at cur
  rw [cur_setCore, core_setCore_same] at rings legal
  have first : k.ring t = r := by rw [hk]; rfl
  have ring : (s2.core s.cur).ring t = r := (congrArg (vget · t.code) rings).trans first
  rw [first] at legal
  refine (execRingpub_eq h o s).trans (runA_ok _ _ false _ _ s _ _ _ hi nofun ((ringpubBad_flags o hk).trans (legal room)) ?_)
  refine then_ok hu <| then_ok (getCore_run _) <| then_ok (modCore_run _ _) ?_
  rw [cur, ring, raisePub_eq]
  rfl

/-! ## Markers and fences (R255 to R257) -/

theorem mark_completes (s s1 : State) (h : Hdr) (o : MarkOp) (hi : s.issueA (.mark h o) h = some s1) :
    let k := s.core s.cur
    exec (.mark h o) s = .next (s.endA (.mark h o) h .next (s1.onCore s.cur fun q =>
      { q with marks := vset q.marks o.token.toNat (some
          (if o.m then some (k.markPos .m) else none, if o.v then some (k.markPos .v) else none,
           if o.c then some (k.markPos .c) else none)) })) := by
  intro k
  obtain ⟨q, hq, rfl⟩ := issueA_core hi
  have same (t : Strm) : q.markPos t = k.markPos t := by rw [hq]; rfl
  change execMark h o s = _
  refine runA_ok _ _ false noBad _ s _ _ _ hi nofun rfl ?_
  refine then_ok (modCore_run _ _) ?_
  simp only [State.onCore, cur_setCore, core_setCore_same, same]
  rfl

theorem join_completes (s s1 : State) (h : Hdr) (t : BitVec 2) (hi : s.issueA (.join h t) h = some s1) :
    let k := s.core s.cur
    (∀ m v c, vget k.marks t.toNat = some (m, v, c) →
      k.markReached .m m = true ∧ k.markReached .v v = true ∧ k.markReached .c c = true) →
    exec (.join h t) s = .next (s.endA (.join h t) h .next (s1.onCore s.cur fun q =>
      { q with marks := vset q.marks t.toNat none })) := by
  intro k reached
  obtain ⟨q, hq, rfl⟩ := issueA_core hi
  have marks : q.marks = k.marks := by rw [hq]
  have same (t : Strm) (p : Option Nat) : q.markReached t p = k.markReached t p := by rw [hq]; rfl
  refine runA_ok _ _ false noBad _ s _ _ _ hi nofun rfl ?_
  refine then_ok (getCore_run _) ?_
  rw [cur_setCore, core_setCore_same, marks]
  cases hm : vget k.marks t.toNat with
  | none => exact then_ok (modCore_run _ _) rfl
  | some p =>
    obtain ⟨m, v, c⟩ := p
    obtain ⟨rm, rv, rc⟩ := reached m v c hm
    dsimp only
    rw [same, same, same, rm, rv, rc]
    exact then_ok (stallIf_false _) <| then_ok (modCore_run _ _) rfl

/-! ## Safe points (R263) -/

theorem aSafe_completes (s s1 : State) (h : Hdr) (n : BitVec 16) (hi : s.issueA (.aSafe h n) h = some s1)
    (on : (s.core s.cur).preempt = false ∨ (s.core s.cur).priv = true) :
    exec (.aSafe h n) s = .next (s.endA (.aSafe h n) h .stay (s1.onCore s.cur fun k =>
      { k.advanceA k.priv .next with aSafe := some n, aSafeWord := encodeWord (.aSafe h n) })) := by
  obtain ⟨k, hk, rfl⟩ := issueA_core hi
  have goes : ¬ (k.preempt && !k.priv) = true := by
    rw [show k.preempt = (s.core s.cur).preempt by rw [hk], show k.priv = (s.core s.cur).priv by rw [hk]]
    obtain e | e := on <;> simp [e]
  refine runA_ok _ _ false noBad _ s _ _ _ hi nofun rfl ?_
  refine then_ok (getCore_run _) ?_
  rw [cur_setCore, core_setCore_same]
  refine pass_check goes <| then_ok (modCore_run _ _) ?_
  simp only [State.onCore, cur_setCore, core_setCore_same]
  rfl

/-- Settles O12, word by word. -/
theorem streamWords : Obligations.StreamWords := by
  unfold Obligations.StreamWords
  refine ⟨?own, ringset_completes, ?ringpub, mark_completes, join_completes,
    ?fence, ?stadv, aSafe_completes⟩
  case own =>
    intro s s1 h o hi idle
    refine ⟨_, own_completes hi idle, fun b hb => ?_, rfl⟩
    rw [owner_setOwner _ _ _ _ _ hb]
    exact if_congr (by omega) rfl rfl
  case ringpub =>
    intro s s1 s2 h o u hi value
    refine ringpub_completes hi ?_
    unfold publishedValue
    cases hv : o.val with
    | imm v =>
      rw [hv] at value
      obtain ⟨rfl, rfl⟩ := value
      rfl
    | reg r =>
      rw [hv] at value
      obtain ⟨x, hx, rfl⟩ := value
      exact then_ok hx rfl
  case fence =>
    refine plainA_of_body (fun _ _ _ => rfl) fun s h scope k settled hk => ?_
    have passes : (scope == 3 && !s.mem.settledAt (panelOf s.cur)) = false := by
      cases hs : scope == 3 with
      | false => rfl
      | true =>
        rw [settled (eq_of_beq hs)]
        rfl
    refine then_ok (getState_run _) ?_
    rw [mem_setCore, cur_setCore, passes]
    exact then_ok (stallIf_false _) rfl
  case stadv =>
    intro s s1 h n hi _
    obtain ⟨k, _, rfl⟩ := issueA_core hi
    change execStadv h n s = _
    refine runA_ok _ _ false noBad _ s _ _ _ hi nofun rfl ?_
    exact then_ok (modCore_run _ _) rfl

end Sys2Proof.Machine

/-! What an A word of registers leaves as it was (spec 13 R226, R235 to R237, R242 to R244, 14 R252, R261, R267): the frame of the word is
kept by its issue, by each register that its body reads or writes, by the move to the next word, by the signal and by the end of the step, and
carries over from one to the next. -/

namespace Sys2Proof.Machine

/-! ## The frame -/

/-- What a word of destination `d` and sources `src` leaves of its core. -/
structure Core.RegFrame (d : Reg) (src : List Reg) (h : Hdr) (k q : Core) : Prop where
  regs : ∀ r : Reg, r ≠ d → vget q.a r.toNat = vget k.a r.toNat
  ax : d ≠ 31 → q.ax = k.ax
  xa : (31 : Reg) ∉ src → q.xa = k.xa
  rest : q = q.movedFrom { k with a := q.a, ax := q.ax, xa := q.xa }
  rings : ∀ t : Strm, t ≠ .a → q.ring t = k.ring t
  flags : q.sameFlags k h

/-- What it leaves of the machine: all but its own core, and the schedule counters of the others. -/
structure State.RegFrame (d : Reg) (src : List Reg) (h : Hdr) (s t : State) : Prop where
  rest : t = { s with cores := t.cores }
  others : t.sameOthers s s.cur
  core : (s.core s.cur).RegFrame d src h (t.core s.cur)

section
variable {d : Reg} {src : List Reg} {h : Hdr}

namespace Core.RegFrame

theorem refl (k : Core) : k.RegFrame d src h k :=
  ⟨fun _ _ => rfl, fun _ => rfl, fun _ => rfl, rfl, fun _ _ => rfl, fun _ _ => rfl⟩

theorem trans {k q u : Core} (h1 : k.RegFrame d src h q) (h2 : q.RegFrame d src h u) : k.RegFrame d src h u where
  regs r other := (h2.regs r other).trans (h1.regs r other)
  ax other := (h2.ax other).trans (h1.ax other)
  xa other := (h2.xa other).trans (h1.xa other)
  rest := h2.rest.trans (by rw [h1.rest]; rfl)
  rings t other := (h2.rings t other).trans (h1.rings t other)
  flags j unnamed := by
    have num : q.flagNum = k.flagNum := by rw [h1.rest]; rfl
    have base : q.flagBase = k.flagBase := by rw [h1.rest]; rfl
    refine (h2.flags j fun v named => ?_).trans (h1.flags j unnamed)
    rw [num, base]
    exact unnamed v named

theorem priv {k q : Core} (f : k.RegFrame d src h q) : q.priv = k.priv := by rw [f.rest]; rfl

/-- A change of named flags alone. -/
theorem of_flags {k q : Core} (alone : q = { k with flags := q.flags }) (same : q.sameFlags k h) : k.RegFrame d src h q where
  regs _ _ := by rw [alone]
  ax _ := by rw [alone]
  xa _ := by rw [alone]
  rest := by rw [alone]; rfl
  rings _ _ := by rw [alone]; rfl
  flags := same

/-- A change of what every completed word may move, but for flags and for the rings of other streams. -/
theorem of_moved {k q : Core} (moved : q = q.movedFrom k) (rings : ∀ t : Strm, t ≠ .a → q.ring t = k.ring t)
    (flags : q.flags = k.flags) : k.RegFrame d src h q where
  regs _ _ := by rw [moved]; rfl
  ax _ := by rw [moved]; rfl
  xa _ := by rw [moved]; rfl
  rest := moved.trans (by rw [moved]; rfl)
  rings := rings
  flags _ _ := by rw [flags]

end Core.RegFrame

namespace State.RegFrame

theorem refl (s : State) : s.RegFrame d src h s := ⟨rfl, fun _ _ => rfl, .refl _⟩

theorem cur {s t : State} (f : s.RegFrame d src h t) : t.cur = s.cur := by rw [f.rest]

theorem trans {s t u : State} (h1 : s.RegFrame d src h t) (h2 : t.RegFrame d src h u) : s.RegFrame d src h u where
  rest := h2.rest.trans (by rw [h1.rest])
  others c other := by rw [h2.others c (by rw [h1.cur]; exact other), h1.others c other]
  core := h1.core.trans (h1.cur ▸ h2.core)

theorem of_setCore {s : State} {q : Core} (f : (s.core s.cur).RegFrame d src h q) : s.RegFrame d src h (s.setCore s.cur q) where
  rest := rfl
  others c other := by rw [core_setCore_other _ _ _ _ other]
  core := by rw [core_setCore_same]; exact f

theorem of_syncWire (s : State) : s.RegFrame d src h (s.syncWire s.cur) where
  rest := rfl
  others c _ := core_syncWire s s.cur c
  core := by
    rw [core_syncWire]
    exact .of_moved rfl (fun _ _ => rfl) rfl

end State.RegFrame

/-! ## Registers and queues -/

theorem regFrame_rdA {s t : State} {r : Reg} {v : Word} (named : r ∈ src) (hr : rdA r s = .ok v t) : s.RegFrame d src h t := by
  rw [rdA_leaves hr]
  split
  · next port =>
    subst port
    exact .of_setCore ⟨fun _ _ => rfl, fun _ => rfl, fun unnamed => absurd named unnamed, rfl, fun _ _ => rfl, fun _ _ => rfl⟩
  · exact .refl s

theorem regFrame_wrA {s t : State} {v : Word} (hw : wrA d v s = .ok () t) : s.RegFrame d src h t := by
  by_cases zero : d = 0
  · subst zero
    cases hw
    exact .refl s
  by_cases port : d = 31
  · subst port
    rw [wrA_queue] at hw
    split at hw
    · cases hw
      exact .of_setCore ⟨fun _ _ => rfl, fun other => absurd rfl other, fun _ => rfl, rfl, fun _ _ => rfl, fun _ _ => rfl⟩
    · cases hw
  · rw [wrA_plain s d v zero port] at hw
    cases hw
    refine .of_setCore ⟨fun r other => ?_, fun _ => rfl, fun _ => rfl, rfl, fun _ _ => rfl, fun _ _ => rfl⟩
    exact vget_vset_other _ _ _ _ (mt BitVec.eq_of_toNat_eq other)

/-! ## Bodies -/

/-- An action that ends within the frame, or stalls. -/
def Within {α : Type} (d : Reg) (src : List Reg) (h : Hdr) (act : M α) : Prop :=
  ∀ s : State, (∃ a t, act s = .ok a t ∧ s.RegFrame d src h t) ∨ ∃ t, act s = .error .stall t

section
variable {α : Type}

theorem Within.ok {act : M α} (within : Within d src h act) {s t : State} {a : α} (ends : act s = .ok a t) : s.RegFrame d src h t := by
  obtain ⟨b, u, e, kept⟩ | ⟨u, e⟩ := within s
  · cases ends.symm.trans e
    exact kept
  · cases ends.symm.trans e

theorem within_pure (a : α) : Within d src h (pure a) := fun s => .inl ⟨a, s, rfl, .refl s⟩

theorem within_getCore {f : Core → M α} (rest : ∀ k, Within d src h (f k)) : Within d src h (getCore >>= f) :=
  fun s => rest (s.core s.cur) s

theorem within_getState {f : State → M α} (rest : ∀ k, Within d src h (f k)) : Within d src h (getState >>= f) :=
  fun s => rest s s

theorem within_readFt {f : Word → M α} (rest : ∀ k, Within d src h (f k)) : Within d src h (readFt >>= f) :=
  fun s => rest (s.ftOf (panelOf s.cur)) s

theorem within_bind {β : Type} {x : M α} {f : α → M β} (first : Within d src h x) (rest : ∀ a, Within d src h (f a)) :
    Within d src h (x >>= f) := by
  intro s
  obtain ⟨a, t, hx, h1⟩ | ⟨t, hx⟩ := first s
  · rw [bind_ok _ _ _ _ _ hx]
    obtain ⟨b, u, hf, h2⟩ | stalled := rest a t
    · exact .inl ⟨b, u, hf, h1.trans h2⟩
    · exact .inr stalled
  · exact .inr ⟨t, bind_error hx⟩

theorem rdA_ok_or_stall (r : Reg) (s : State) : (∃ v t, rdA r s = .ok v t) ∨ rdA r s = .error .stall s := by
  unfold rdA
  dsimp only
  split
  · exact .inl ⟨_, _, rfl⟩
  split
  · split
    · exact .inl ⟨_, _, rfl⟩
    · exact .inr rfl
  · exact .inl ⟨_, _, rfl⟩

theorem wrA_ok_or_stall (r : Reg) (v : Word) (s : State) : (∃ t, wrA r v s = .ok () t) ∨ wrA r v s = .error .stall s := by
  unfold wrA
  dsimp only
  split
  · exact .inl ⟨_, rfl⟩
  split
  · split
    · exact .inr rfl
    · exact .inl ⟨_, rfl⟩
  · exact .inl ⟨_, rfl⟩

theorem within_rdA {r : Reg} {f : Word → M α} (named : r ∈ src) (rest : ∀ v, Within d src h (f v)) :
    Within d src h (rdA r >>= f) := by
  refine within_bind (fun s => ?_) rest
  obtain ⟨v, t, hr⟩ | stalled := rdA_ok_or_stall r s
  · exact .inl ⟨v, t, hr, regFrame_rdA named hr⟩
  · exact .inr ⟨s, stalled⟩

theorem within_wrA {v : Word} {a : α} : Within d src h (wrA d v >>= fun _ => pure a) := by
  refine within_bind (fun s => ?_) fun _ => within_pure a
  obtain ⟨t, hw⟩ | stalled := wrA_ok_or_stall d v s
  · exact .inl ⟨(), t, hw, regFrame_wrA hw⟩
  · exact .inr ⟨s, stalled⟩

end

/-- `out` is what the run of an A word answers whose body ends within the frame, or stalls. -/
def RunsWithin (i : Instr) (d : Reg) (src : List Reg) (h : Hdr) (s : State) (out : Out) : Prop :=
  ∃ priv bad body, Within d src h body ∧ out = runA i h priv bad body s

theorem runsWithin_runA {i : Instr} {priv : Bool} {bad : Core → Word} {body : M Flow} {s : State} (hb : Within d src h body) :
    RunsWithin i d src h s (runA i h priv bad body s) := ⟨priv, bad, body, hb, rfl⟩

theorem within_aBin {i : Instr} {r1 r2 : Reg} {f : Word → Word → Word} {s : State} :
    RunsWithin i d [r1, r2] h s (aBin i h d r1 r2 f s) :=
  runsWithin_runA <| within_rdA (.head _) fun _ => within_rdA (.tail _ (.head _)) fun _ => within_wrA

theorem within_aUn {i : Instr} {r1 : Reg} {f : Word → Word} {s : State} : RunsWithin i d [r1] h s (aUn i h d r1 f s) :=
  runsWithin_runA <| within_rdA (.head _) fun _ => within_wrA

theorem within_aBranch {i : Instr} {o : BOp} {taken : Word → Word → Bool} {s : State} :
    RunsWithin i d [o.s1, o.s2] h s (aBranch i h o taken s) :=
  runsWithin_runA <| within_getCore fun _ => within_rdA (.head _) fun _ => within_rdA (.tail _ (.head _)) fun _ => within_pure _

/-- Every A word of registers runs so, with the registers that it names. -/
theorem exec_accessRegWord {i : Instr} (s : State) (hh : i.hdr? = some (.a, h)) (hw : accessRegWord i = some (d, src)) :
    RunsWithin i d src h s (exec i s) := by
  cases i
  case aNop =>
    cases hh
    cases hw
    dsimp only [exec]
    exact runsWithin_runA (within_pure _)
  case aLi =>
    cases hh
    cases hw
    dsimp only [exec]
    exact runsWithin_runA within_wrA
  case aLih =>
    cases hh
    cases hw
    dsimp only [exec]
    exact runsWithin_runA <| within_rdA (.head _) fun _ => within_wrA
  case aAdd | aSub | aAnd | aOr | aXor | lea =>
    cases hh
    cases hw
    exact within_aBin
  case aAddi | shli | shri =>
    cases hh
    cases hw
    exact within_aUn
  case beq | bne | blt | bge =>
    cases hh
    cases hw
    exact within_aBranch
  case aJmp =>
    cases hh
    cases hw
    dsimp only [exec]
    exact runsWithin_runA <| within_getCore fun _ => within_wrA
  case aJr =>
    cases hh
    cases hw
    dsimp only [exec]
    exact runsWithin_runA <| within_getCore fun _ => within_rdA (.head _) fun _ => within_wrA
  case aFtrd =>
    cases hh
    cases hw
    dsimp only [exec]
    exact runsWithin_runA <| within_readFt fun _ => within_wrA
  case tickrd =>
    cases hh
    cases hw
    dsimp only [exec]
    exact runsWithin_runA <| within_getState fun _ => within_readFt fun _ => within_wrA
  case ringrd | frd =>
    cases hh
    cases hw
    dsimp only [exec]
    exact runsWithin_runA <| within_getCore fun _ => within_wrA
  case rbtld =>
    cases hh
    cases hw
    dsimp only [exec]
    exact runsWithin_runA <| within_getCore fun _ => within_rdA (.head _) fun _ => within_wrA
  case csrr =>
    cases hh
    cases hw
    dsimp only [exec]
    exact runsWithin_runA <| within_getState fun _ => within_wrA
  all_goals cases hw

/-! ## Wait, signal and the move to the next word -/

theorem passWait_sameFlags {k q : Core} (hp : k.passWait h.wait = some q) : q.sameFlags k h := by
  intro j unnamed
  unfold Core.passWait at hp
  split at hp
  · cases hp
    rfl
  next v named =>
  split at hp
  · cases hp
  next i index =>
  obtain ⟨f, -, rfl⟩ := Option.map_eq_some_iff.1 hp
  exact vget_vset_other _ _ _ _ fun e => unnamed v (.inl named) (e ▸ index)

theorem addFlag_sameFlags {k q : Core} {v : BitVec 6} {n : Nat} (named : sigFlag h.sig = some v) (ha : k.addFlag v n = .ok q) :
    q.sameFlags k h := by
  intro j unnamed
  unfold Core.addFlag at ha
  split at ha
  · cases ha
    rfl
  next i index =>
  split at ha
  · cases ha
    exact vget_vset_other _ _ _ _ fun e => unnamed v (.inr named) (e ▸ index)
  · cases ha

theorem issueSig_sameFlags {k q : Core} (hs : k.issueSig h.sig = .ok q) : q.sameFlags k h := by
  unfold Core.issueSig at hs
  split at hs
  · next named _ => exact addFlag_sameFlags named hs
  · cases hs
    exact fun _ _ => rfl

theorem sigFlag_of_completionSig {k : Core} {g : Sig} {v : BitVec 6} {n : Nat} (hc : k.completionSig g = some (v, n)) :
    sigFlag g = some v := by
  unfold Core.completionSig at hc
  split at hc
  · cases hc
  next w named =>
  split at hc
  · cases hc
  obtain ⟨_, -, e⟩ := Option.map_eq_some_iff.1 hc
  cases e
  exact named

/-- The issue of an A word keeps its frame: it takes its wait and gives its issue-time signal. -/
theorem regFrame_issueA {s t : State} {i : Instr} (hi : s.issueA i h = some t) : s.RegFrame d src h t := by
  cases met : (s.core s.cur).wdone with
  | false =>
    obtain ⟨k1, k2, hw, hs, rfl⟩ := issueA_takes hi met
    exact .of_setCore ((Core.RegFrame.of_flags (passWait_flags hw) (passWait_sameFlags hw)).trans
      (.of_flags (issueSig_flags hs) (issueSig_sameFlags hs)))
  | true =>
    unfold State.issueA at hi
    dsimp only at hi
    rw [met] at hi
    split at hi
    · cases hi
    split at hi
    · cases hi
    cases hi
    exact .of_setCore (.refl _)

theorem regFrame_advanceA (k : Core) (inHandler : Bool) (fl : Flow) : k.RegFrame d src h (k.advanceA inHandler fl) := by
  have handler (pos : Nat) : k.RegFrame d src h { k with handlerPos := pos % 256, wdone := false } :=
    .of_moved rfl (fun _ _ => rfl) rfl
  have inStream (r : Ring) : k.RegFrame d src h { k.setRing .a r with wdone := false, aSafe := none } := by
    refine .of_moved rfl (fun t other => ?_) rfl
    refine vget_vset_other _ _ _ _ ?_
    cases t with
    | a => exact absurd rfl other
    | _ => exact Nat.succ_ne_zero _
  cases inHandler with
  | true =>
    cases fl with
    | stay => exact .refl k
    | next => exact handler _
    | goto pos => exact handler pos
  | false =>
    cases fl with
    | stay => exact .refl k
    | next => exact inStream _
    | goto pos => exact inStream _

theorem regFrame_endLate (s : State) : s.RegFrame d src h (s.endLate s.cur) := by
  have moved : s.RegFrame d src h (s.onCore s.cur fun k => { k with movedAt := s.cycle }) :=
    .of_setCore (.of_moved rfl (fun _ _ => rfl) rfl)
  unfold State.endLate
  dsimp only
  split
  · refine moved.trans (.trans (t := (s.onCore s.cur fun k => { k with movedAt := s.cycle }).onCore s.cur fun k =>
      { k with late := false }) ?_ ?_)
    · exact .of_setCore (.of_moved rfl (fun _ _ => rfl) rfl)
    · exact .of_syncWire _
  · exact moved

end

/-! ## What a fault leaves to be seen (R265, R376) -/

/-- The core goes on as it did: it has not stopped, nor entered the handler. -/
def Core.goesOnAs (k q : Core) : Prop := q.dead = false ∧ q.priv = k.priv

/-- A fault of an A word enters the handler, or in the handler stops the core. -/
theorem aFault_shows (s : State) (w : Word) (f : Flt) : ¬ (s.core s.cur).goesOnAs ((s.aFault w f).core s.cur) := by
  rintro ⟨alive, same⟩
  unfold State.aFault State.raiseWire at alive same
  dsimp only at alive same
  cases hp : (s.core s.cur).priv with
  | true =>
    rw [hp, if_pos rfl, core_syncWire] at alive
    simp only [core_onCore_same] at alive
    cases alive
  | false =>
    rw [hp, if_neg Bool.false_ne_true] at same
    split at same
    · rw [core_syncWire] at same
      simp only [core_onCore_same] at same
      cases same
    · rw [core_onCore_same] at same
      cases same

/-- The completion-time signal of an A word whose core goes on found room. -/
theorem aComplete_goesOn {s : State} {h : Hdr} {w : Word} {r : BitVec 13}
    (on : (s.core s.cur).goesOnAs ((s.aComplete h w r).core s.cur)) :
    s.aComplete h w r = s ∨ ∃ v n k, (s.core s.cur).completionSig h.sig = some (v, n) ∧ (s.core s.cur).addFlag v n = .ok k ∧
      s.aComplete h w r = s.setCore s.cur k := by
  cases hc : (s.core s.cur).completionSig h.sig with
  | none => exact .inl (aComplete_none hc)
  | some x =>
    obtain ⟨v, n⟩ := x
    cases ha : (s.core s.cur).addFlag v n with
    | ok k => exact .inr ⟨v, n, k, rfl, ha, aComplete_ok hc ha⟩
    | error old =>
      obtain ⟨alive, same⟩ := on
      cases hp : (s.core s.cur).priv with
      | false =>
        obtain ⟨m, entered⟩ := aComplete_refused (w := w) (r := r) hc ha hp
        rw [entered, hp] at same
        cases same
      | true =>
        unfold State.aComplete State.raiseWire at alive
        simp only [hc, ha, hp, if_true] at alive
        rw [core_syncWire] at alive
        simp only [core_onCore_same] at alive
        cases alive

theorem issueA_of_parts {s : State} {i : Instr} {h : Hdr} {k1 k2 : Core} (legal : badOperands i ||| (s.core s.cur).clauseBad h = 0)
    (ready : ¬ (!s.dueOk (s.core s.cur) .a || (s.core s.cur).movesHold i) = true)
    (waited : (if (s.core s.cur).wdone then some (s.core s.cur) else (s.core s.cur).passWait h.wait) = some k1)
    (signalled : (if (s.core s.cur).wdone then .ok k1 else k1.issueSig h.sig) = .ok k2) :
    s.issueA i h = some (s.setCore s.cur k2) := by
  unfold State.issueA
  dsimp only
  rw [if_neg (not_not.2 legal), if_neg ready]
  cases met : (s.core s.cur).wdone with
  | true =>
    rw [met, if_pos rfl] at waited signalled
    cases waited
    cases signalled
    rfl
  | false =>
    rw [met, if_neg Bool.false_ne_true] at waited signalled
    rw [waited]
    dsimp only
    rw [signalled]
    rfl

/-- The run of an A word whose body ends or stalls, and whose core goes on: nothing has happened, or the word has issued, run and
completed. -/
theorem runA_goesOn {i : Instr} {d : Reg} {src : List Reg} {h : Hdr} {priv : Bool} {bad : Core → Word} {body : M Flow} {s u : State}
    (hb : Within d src h body) (run : runA i h priv bad body s = .next u) (on : (s.core s.cur).goesOnAs (u.core s.cur)) :
    u = s ∨ ∃ s1 fl t, s.issueA i h = some s1 ∧ body s1 = .ok fl t ∧ u = s.endA i h fl t := by
  have fault (w : Word) (f : Flt) {P : Prop} (e : (Host.Outcome.next (s.aFault w f) : Out) = .next u) : P := by
    cases e
    exact absurd on (aFault_shows s w f)
  unfold runA at run
  dsimp only at run
  split at run
  · exact fault _ _ run
  split at run
  · exact fault _ _ run
  next legal =>
  split at run
  · cases run
    exact .inl rfl
  next ready =>
  split at run
  · cases run
    exact .inl rfl
  next k1 waited =>
  split at run
  · obtain ⟨fl, t, ends, _⟩ | ⟨t, stalls⟩ := hb (s.setCore s.cur k1)
    · rw [ends] at run
      exact fault _ _ run
    · rw [stalls] at run
      cases run
      exact .inl rfl
  next k2 signalled =>
  have issued : s.issueA i h = some (s.setCore s.cur k2) :=
    issueA_of_parts (BitVec.or_eq_zero_iff.1 (not_not.1 legal)).1 ready waited signalled
  obtain ⟨fl, t, ends, _⟩ | ⟨t, stalls⟩ := hb (s.setCore s.cur k2)
  · rw [ends] at run
    cases run
    exact .inr ⟨_, fl, t, issued, ends, rfl⟩
  · rw [stalls] at run
    cases run
    exact .inl rfl

/-! ## The frame of the whole word -/

section
variable {d : Reg} {src : List Reg} {h : Hdr}

theorem regFrame_aComplete {s : State} {w : Word} {r : BitVec 13} (on : (s.core s.cur).goesOnAs ((s.aComplete h w r).core s.cur)) :
    s.RegFrame d src h (s.aComplete h w r) := by
  obtain none | ⟨v, n, k, hc, ha, e⟩ := aComplete_goesOn on
  · rw [none]
    exact .refl s
  · rw [e]
    exact .of_setCore (.of_flags (addFlag_flags ha) (addFlag_sameFlags (sigFlag_of_completionSig hc) ha))

theorem core_endLate (s : State) (c : CoreId) :
    ((s.endLate c).core c).dead = (s.core c).dead ∧ ((s.endLate c).core c).priv = (s.core c).priv := by
  unfold State.endLate
  dsimp only
  split
  · rw [core_syncWire, core_onCore_same, core_onCore_same]
    exact ⟨rfl, rfl⟩
  · rw [core_onCore_same]
    exact ⟨rfl, rfl⟩

/-- The signal and the end of the step. -/
theorem regFrame_signalled {s : State} {w : Word} {r : BitVec 13}
    (on : (s.core s.cur).goesOnAs (((s.aComplete h w r).endLate s.cur).core s.cur)) :
    s.RegFrame d src h ((s.aComplete h w r).endLate s.cur) := by
  obtain ⟨alive, same⟩ := on
  rw [(core_endLate _ _).1] at alive
  rw [(core_endLate _ _).2] at same
  have signalled : s.RegFrame d src h (s.aComplete h w r) := regFrame_aComplete ⟨alive, same⟩
  have last : (s.aComplete h w r).RegFrame d src h _ := regFrame_endLate _
  rw [signalled.cur] at last
  exact signalled.trans last

/-- What follows a body: the move, the signal and the end of the step. -/
theorem regFrame_endA {s t : State} {i : Instr} {fl : Flow} (cur : t.cur = s.cur)
    (on : ((t.undrain s.cur .a).core s.cur).goesOnAs ((s.endA i h fl t).core s.cur)) :
    (t.undrain s.cur .a).RegFrame d src h (s.endA i h fl t) := by
  have here : (t.undrain s.cur .a).cur = s.cur := (cur_undrain ..).trans cur
  unfold State.endA at on ⊢
  dsimp only at on ⊢
  generalize t.undrain s.cur .a = u at here on ⊢
  rw [← here] at on ⊢
  have moved : u.RegFrame d src h (u.onCore u.cur fun q => q.advanceA (s.core u.cur).priv fl) := .of_setCore (regFrame_advanceA _ _ _)
  by_cases later : (s.lineOps.isSome && isTrepar i) = true
  · rw [if_pos later]
    exact moved.trans (regFrame_endLate _)
  · rw [if_neg later] at on ⊢
    exact moved.trans (regFrame_signalled ⟨on.1, on.2.trans moved.core.priv.symm⟩)

/-- The requests that wait on a draining page are on the memory side alone (R385). -/
theorem undrain_mem (s : State) (c : CoreId) (t : Strm) : s.undrain c t = { s with mem := (s.undrain c t).mem } := by
  obtain ⟨q, e⟩ := undrainAt_ctls s (c.toNat * 8 + t.code)
  rw [State.undrain, e]
  rfl

theorem mem_undrain_congr {s t : State} (e : t.mem = s.mem) (c : CoreId) (u : Strm) : (t.undrain c u).mem = (s.undrain c u).mem := by
  unfold State.undrain State.undrainAt
  rw [e]
  split
  · rw [mem_onMem, mem_onMem, e]
  · exact e

/-- A word that keeps its frame up to its body's end, and from there on but for the requests that no longer wait, keeps it. -/
theorem regFrame_past_undrain {s t u : State} (body : s.RegFrame d src h t) (past : (t.undrain s.cur .a).RegFrame d src h u) :
    (s.core s.cur).RegFrame d src h (u.core s.cur) ∧ u.sameOthers s s.cur ∧ u.sameRest s s.cur .a := by
  have cur : (t.undrain s.cur .a).cur = s.cur := (cur_undrain ..).trans body.cur
  refine ⟨?core, ?others, ?rest⟩
  case core =>
    have own := past.core
    rw [cur, core_undrain] at own
    exact body.core.trans own
  case others =>
    intro c other
    rw [past.others c (by rw [cur]; exact other), core_undrain, body.others c other]
  case rest =>
    have mem : t.mem = s.mem := by rw [body.rest]
    refine ⟨.inr ?_, ?_⟩
    · rw [past.rest]
      exact mem_undrain_congr mem s.cur .a
    · rw [past.rest, undrain_mem, body.rest]

/-- No byte of memory is among what the frame moves. -/
theorem sameBytes_of_frame {s u : State} (core : (s.core s.cur).RegFrame d src h (u.core s.cur)) (others : u.sameOthers s s.cur)
    (rest : u.sameRest s s.cur .a) : u.sameBytes s := by
  obtain ⟨mem, all⟩ := rest
  have banks : u.mem.hbm = s.mem.hbm ∧ u.mem.l2 = s.mem.l2 := by
    obtain e | e := mem
    · rw [e]
      exact ⟨rfl, rfl⟩
    · obtain ⟨q, undrained⟩ := undrainAt_ctls s (s.cur.toNat * 8 + Strm.a.code)
      rw [e, State.undrain, undrained]
      exact ⟨rfl, rfl⟩
  have boot : u.boot = s.boot := by rw [all]
  have stores (c : CoreId) : (u.core c).spad = (s.core c).spad ∧ (u.core c).side = (s.core c).side := by
    by_cases own : c = s.cur
    · rw [own, core.rest]
      exact ⟨rfl, rfl⟩
    · rw [others c own]
      exact ⟨rfl, rfl⟩
  intro a
  refine ⟨by rw [banks.1], by rw [banks.2], by rw [boot], fun c => ?_⟩
  rw [(stores c).1, (stores c).2]
  exact ⟨rfl, rfl⟩

end

/-- Settles O58: nothing has happened, or the issue, the body and what follows it have each kept the frame. -/
theorem accessRegisterFrame : Obligations.AccessRegisterFrame := by
  unfold Obligations.AccessRegisterFrame
  intro s u i h d src hh hw run k q _ alive same
  have frame : k.RegFrame d src h q ∧ u.sameOthers s s.cur ∧ u.sameRest s s.cur .a := by
    obtain ⟨priv, bad, body, within, e⟩ := exec_accessRegWord s hh hw
    obtain rfl | ⟨s1, fl, t, issued, ends, rfl⟩ := runA_goesOn within (e.symm.trans run) ⟨alive, same⟩
    · exact ⟨.refl _, fun _ _ => rfl, .inl rfl, rfl⟩
    · have ran : s.RegFrame d src h t := (regFrame_issueA issued).trans (within.ok ends)
      refine regFrame_past_undrain ran (regFrame_endA ran.cur ⟨alive, ?_⟩)
      rw [core_undrain, ran.core.priv]
      exact same
  obtain ⟨core, others, rest⟩ := frame
  exact ⟨core.regs, core.ax, core.xa, core.rest, core.rings, core.flags, others, rest, sameBytes_of_frame core others rest⟩

end Sys2Proof.Machine

/-! The atomics, gate words and the monitored wait of the A unit (spec 14 R246 to R249, R258): each body goes on from its address, the place
that its rights grant and the access at the home. -/

namespace Sys2Proof.Machine

/-- A body takes the branch of a test that holds. -/
theorem take_branch {α : Type} {c : Prop} [Decidable c] {x y : M α} {s : State} {r : EStateM.Result Stop State α} (h : c)
    (rest : x s = r) : (if c then x else y) s = r := by
  rw [if_pos h]
  exact rest

theorem atAddr_ok {s t : State} {o : ATOp} {b : Word} (h : rdA o.base s = .ok b t) : atAddr o s = .ok (b + sext64 o.off) t :=
  then_ok h rfl

/-! ## Atomics (R246 to R248) -/

/-- A word whose meaning is one atomic at the home completes with the old value. -/
theorem atomicA_of_aAtomic {mk : Hdr → ATOp → Instr} {readD : Bool} {f : ATOp → Nat → Nat → Nat → Nat → Option Nat}
    (runs : ∀ h o s, exec (mk h o) s = aAtomic (mk h o) h o readD (f o) s) : AtomicA mk readD f := by
  intro s s1 s2 s3 s4 s5 s6 s7 h o d b x la old hi hd hb hx n va hp hr hw
  have source : (if readD then rdA o.d else pure 0) s1 = .ok d s2 := by
    cases readD with
    | true => exact hd
    | false =>
      obtain ⟨rfl, rfl⟩ := hd
      rfl
  refine (runs h o s).trans (runA_ok _ _ false noBad _ s _ _ _ hi nofun rfl ?_)
  exact then_ok source <| then_ok (atAddr_ok hb) <| then_ok hx <| then_ok hp <| then_ok (aPanel_run s5) <|
    then_ok (aTag_run s5) <| then_ok hr <| then_ok hw rfl

/-- AADDB reads the index, then the limit, and writes the sum where it does not pass the limit. -/
theorem aaddb_completes (s s1 s2 s3 s4 s5 s6 s7 s8 s9 : State) (h : Hdr) (o : ATOp) (b x : Word) (la : Nat) (bs lim : List Byte)
    (hi : s.issueA (.aaddb h o) h = some s1) (hb : rdA o.base s1 = .ok b s2) (hx : rdA o.s2 s2 = .ok x s3) :
    let va := b + sext64 o.off
    let p := panelOf s4.cur
    let t := (s4.core s4.cur).tag
    aPlace va 8 3 16 (addrMask 21) (fun r => decide (r ≤ 1)) s3 = .ok la s4 →
    needWrite t la 8 va s4 = .ok () s5 → homeRead p t la 8 va s5 = .ok bs s6 →
    homeRead p t (la + 8) 8 (va + 8) (s6.onMem fun m => m.catchUp p ((mapGet m.rmws la).getD VClock.zero)) = .ok lim s7 →
    let old := natOfBytes bs
    let fits := old + x.toNat ≤ natOfBytes lim
    wrA o.d (if fits then w64 old else allOnes) s7 = .ok () s8 →
    (if fits then memWrite p t la (bytesOfNat 8 (old + x.toNat)) va .whole s8 = .ok () s9
      else s9 = s8.onMem fun m =>
        { m with rmws := mapPut m.rmws la (vcMax ((mapGet m.rmws la).getD VClock.zero) (s8.vc p)) }) →
    exec (.aaddb h o) s = .next (s.endA (.aaddb h o) h .next s9) := by
  intro va p t hp hn hr hl old fits hw hs
  refine runA_ok _ _ false noBad _ s _ _ _ hi nofun rfl ?_
  refine then_ok (atAddr_ok hb) <| then_ok hx <| then_ok hp <| then_ok (aPanel_run s4) <| then_ok (aTag_run s4) ?_
  refine then_ok (a := old) (t := s9) ?_ rfl
  refine then_ok hn <| then_ok hr <| then_ok (modMem_run _ _) ?_
  by_cases room : fits
  · rw [if_pos room] at hw hs
    refine then_ok (a := some (old + x.toNat)) (t := s8) (then_ok hl ?_) (then_ok hs rfl)
    rw [decide_eq_true room]
    exact then_ok hw rfl
  · rw [if_neg room] at hw hs
    subst hs
    refine then_ok (a := none) (t := s8) (then_ok hl ?_) (then_ok (modState_run _ _) rfl)
    rw [decide_eq_false room]
    exact then_ok hw rfl

/-- Settles O7: the atomics of AADD's form by one lemma, AADDB and RADDF each from its own body. -/
theorem atomics : Obligations.Atomics := by
  unfold Obligations.Atomics
  refine ⟨?_, ?_, ?_, ?_, ?_, ?_, aaddb_completes, ?raddf⟩
  case raddf =>
    intro s s1 s2 s3 s4 s5 h o b x la old hi hb hx n va f hp hr
    refine runA_ok _ _ false noBad _ s _ _ _ hi nofun rfl ?_
    exact then_ok (atAddr_ok hb) <| then_ok hx <| then_ok hp <| then_ok (aPanel_run s4) <| then_ok (aTag_run s4) <| then_ok hr rfl
  all_goals exact atomicA_of_aAtomic fun _ _ _ => rfl

/-! ## Gate words (R249) -/

theorem contains_addNew (xs : List Nat) (x : Nat) : (addNew xs x).contains x = true := by
  unfold addNew
  split
  · next there => exact there
  · simp

theorem gateFull_of_gateFill {p : Nat} {owner : Tag} {la : Nat} {v va : Word} {s t : State}
    (h : gateFill p owner la v va s = .ok () t) : t.gateFull la = true := by
  unfold gateFill at h
  cases e : memWrite p owner la (bytesOfW 8 v) va .inner s with
  | error x u => cases (bind_error e).symm.trans h
  | ok a u =>
    cases (bind_ok _ _ _ _ _ e).symm.trans h
    exact contains_addNew _ la

theorem gateFull_of_gateClear {p : Nat} {owner : Tag} {la : Nat} {va : Word} {s t : State}
    (h : gateClear p owner la va s = .ok () t) : t.gateFull la = false := by
  unfold gateClear at h
  cases e : homeRead p owner la 8 va s with
  | error x u => cases (bind_error e).symm.trans h
  | ok b u =>
    rw [bind_ok _ _ _ _ _ e] at h
    cases e2 : memWrite p owner la b va .inner u with
    | error x v => cases (bind_error e2).symm.trans h
    | ok a v =>
      cases (bind_ok _ _ _ _ _ e2).symm.trans h
      simp [State.gateFull, State.onMem]

/-! ## The monitored wait (R258) -/

theorem monwArgs_ok {s1 s2 s3 s4 : State} {o : ATOp} {d b x : Word} (hd : rdA o.d s1 = .ok d s2) (hb : rdA o.base s2 = .ok b s3)
    (hx : rdA o.s2 s3 = .ok x s4) : monwArgs o s1 = .ok (d, b + sext64 o.off, x) s4 :=
  then_ok hd <| then_ok (atAddr_ok hb) <| then_ok hx rfl

section
variable {R : State → State → Prop}

theorem keeps_mapM (hR : Order R) {α β : Type} {f : α → M β} {l : List α} (h : ∀ x, Keeps R (f x)) : Keeps R (l.mapM f) := by
  rw [← List.mapM'_eq_mapM]
  induction l with
  | nil => exact keeps_pure hR _
  | cons x l ih => exact keeps_bind hR (h x) fun _ => keeps_bind hR ih fun _ => keeps_pure hR _

theorem keeps_useRangeSet (hR : MemOrder R) (p : Nat) (t : Tag) : Keeps R (useRangeSet p t) := by
  have line (la : Nat) : Keeps R (homeLine p la) :=
    keeps_bind hR.toOrder (keeps_readLine hR _ _ _ _ _) fun _ =>
      keeps_bind hR.toOrder (keeps_catchUp hR p fun s => s.stampOf (la / 64)) fun _ => keeps_pure hR.toOrder _
  have set : Keeps R (readRangeSet p t) :=
    keeps_bind hR.toOrder (keeps_getState hR.toOrder) fun _ =>
      keeps_bind hR.toOrder (keeps_mapM hR.toOrder fun _ => line _) fun _ => keeps_pure hR.toOrder _
  refine keeps_bind hR.toOrder set fun _ => keeps_ite ?_ (keeps_pure hR.toOrder _)
  exact keeps_bind hR.toOrder (keeps_raise hR.toOrder _ _ _ _) fun _ => keeps_pure hR.toOrder _

theorem keeps_placeIn (hR : Order R) (set : RangeSet) (va : Word) (n need align : Nat) (mask : Word) (okRegion : Nat → Bool) :
    Keeps R (placeIn set va n need align mask okRegion) := by
  have granted : Keeps R (match rangeTranslate set va n need with
      | .ok la => pure la
      | .bad cls d0 => raise cls 0 d0 (w64 need) : M Nat) := by
    split
    · exact keeps_pure hR _
    · exact keeps_raise hR _ _ _ _
  have aligned : Keeps R (do
      if va.toNat % align ≠ 0 then raise 0x0A 0 va (w64 align)
      match rangeTranslate set va n need with
      | .ok la => pure la
      | .bad cls d0 => raise cls 0 d0 (w64 need) : M Nat) :=
    keeps_ite (keeps_bind hR (keeps_raise hR _ _ _ _) fun _ => granted) granted
  unfold placeIn
  dsimp only
  split
  · exact keeps_ite (keeps_bind hR (keeps_raise hR _ _ _ _) fun _ => aligned) aligned
  · exact aligned

/-- The place of an access is found by reads of memory alone. -/
theorem keeps_aPlace (hR : MemOrder R) (va : Word) (n need align : Nat) (mask : Word) (okRegion : Nat → Bool) :
    Keeps R (aPlace va n need align mask okRegion) := by
  refine keeps_bind hR.toOrder ?_ fun _ => keeps_placeIn hR.toOrder _ _ _ _ _ _ _
  exact keeps_bind hR.toOrder (keeps_getState hR.toOrder) fun _ =>
    keeps_ite (keeps_useRangeSet hR _ _) (keeps_pure hR.toOrder _)

end

theorem OnlyMemory.cur {s t : State} (h : OnlyMemory s t) : t.cur = s.cur := by rw [h.1]

/-- The end of a step moves no more of a core than its bookkeeping of lateness. -/
theorem core_endLate_moved (s : State) (c d : CoreId) : (s.endLate c).core d =
    { s.core d with movedAt := ((s.endLate c).core d).movedAt, late := ((s.endLate c).core d).late
                    scnt := ((s.endLate c).core d).scnt, scntAt := ((s.endLate c).core d).scntAt
                    scntRun := ((s.endLate c).core d).scntRun } := by
  have own (t : State) (f : Core → Core) (same : ∀ k, f k = { k with movedAt := (f k).movedAt, late := (f k).late }) :
      (t.onCore c f).core d = { t.core d with movedAt := ((t.onCore c f).core d).movedAt, late := ((t.onCore c f).core d).late } := by
    by_cases e : d = c
    · rw [e, core_onCore_same]
      exact same _
    · rw [core_onCore_other _ _ _ _ e]
  unfold State.endLate
  dsimp only
  split
  · rw [core_syncWire, own _ _ fun _ => rfl, own _ _ fun _ => rfl]
  · rw [own _ _ fun _ => rfl]

/-- What an A word that has issued answers, by how its body ends. -/
def State.afterBodyA (s : State) (i : Instr) (h : Hdr) : EStateM.Result Stop State Flow → Out
  | .ok fl t => .next (s.endA i h fl t)
  | .error .stall _ | .error (.pause _) _ => .next s
  | .error .waiting t =>
    if (s.core s.cur).wdone then .next t else .next ((t.onCore s.cur fun q => { q with wdone := true }).endLate s.cur)
  | .error (.drain d p) _ => .next (s.addDrain s.cur .a d p)
  | .error (.fault f) t => .next (((s.afterFault t).undrain s.cur .a).aFault (encodeWord i) f)
  | .error (.halt f) _ => .fault f

/-- The checks that an A word has passed to issue. -/
theorem issueA_parts {s s1 : State} {i : Instr} {h : Hdr} (hi : s.issueA i h = some s1) :
    badOperands i ||| (s.core s.cur).clauseBad h = 0 ∧ (!s.dueOk (s.core s.cur) .a || (s.core s.cur).movesHold i) = false ∧
      ∃ k1 k2, (if (s.core s.cur).wdone then some (s.core s.cur) else (s.core s.cur).passWait h.wait) = some k1 ∧
        (if (s.core s.cur).wdone then .ok k1 else k1.issueSig h.sig) = .ok k2 ∧ s1 = s.setCore s.cur k2 := by
  unfold State.issueA at hi
  dsimp only at hi
  split at hi
  · cases hi
  next legal =>
  split at hi
  · cases hi
  next ready =>
  refine ⟨not_not.1 legal, Bool.not_eq_true _ ▸ ready, ?_⟩
  split at hi
  · next met =>
    cases hi
    exact ⟨_, _, by rw [if_pos met], by rw [if_pos met], rfl⟩
  · next unmet =>
    split at hi
    · cases hi
    next k1 waited =>
    split at hi
    · next k2 signalled =>
      cases hi
      exact ⟨k1, k2, (if_neg unmet).trans waited, (if_neg unmet).trans signalled, rfl⟩
    · cases hi

/-- An A word that issues answers as its body ends. -/
theorem runA_issued {i : Instr} {h : Hdr} {priv : Bool} {bad : Core → Word} {body : M Flow} {s s1 : State}
    (hi : s.issueA i h = some s1) (hp : priv = true → (s.core s.cur).priv = true) (hb : bad (s.core s.cur) = 0) :
    runA i h priv bad body s = s.afterBodyA i h (body s1) := by
  obtain ⟨legal, ready, k1, k2, waited, signalled, rfl⟩ := issueA_parts hi
  have allowed : ¬ (priv && !(s.core s.cur).priv) = true := by
    cases priv with
    | false => exact Bool.false_ne_true
    | true => rw [hp rfl]; exact Bool.false_ne_true
  unfold runA
  dsimp only
  rw [if_neg allowed, legal, hb, show (0 : Word) ||| 0 = 0 from rfl, if_neg (not_not.2 rfl), ready, if_neg Bool.false_ne_true, waited]
  dsimp only
  rw [signalled]
  dsimp only
  generalize body (s.setCore s.cur k2) = r
  cases r with
  | ok fl t => rfl
  | error e t => cases e <;> rfl

/-- A word that stalls past its wait byte leaves its core as its body does, but for the wait that it has met. -/
theorem afterBodyA_waiting (s : State) (i : Instr) (h : Hdr) (t : State) :
    ∃ u, s.afterBodyA i h (.error .waiting t) = .next u ∧ u.remotes = t.remotes ∧
      (u.core s.cur).monitor = (t.core s.cur).monitor ∧ (u.core s.cur).finc = (t.core s.cur).finc := by
  unfold State.afterBodyA
  dsimp only
  split
  · exact ⟨t, rfl, rfl, rfl, rfl⟩
  · refine ⟨_, rfl, ?_, ?_, ?_⟩
    · unfold State.endLate
      dsimp only
      split <;> rfl
    · rw [core_endLate_moved, core_onCore_same]
    · rw [core_endLate_moved, core_onCore_same]

/-- MONW on a word that differs gives 1 at once; on one that is equal it sleeps with its line armed. -/
theorem monw_completes (s s1 s2 s3 s4 s5 s6 : State) (h : Hdr) (o : ATOp) (d b x : Word) (la : Nat) (bs : List Byte)
    (hi : s.issueA (.monw h o) h = some s1) (idle : (s.core s.cur).monitor = none) (hd : rdA o.d s1 = .ok d s2)
    (hb : rdA o.base s2 = .ok b s3) (hx : rdA o.s2 s3 = .ok x s4) :
    let n := 2 ^ o.size.toNat
    let va := b + sext64 o.off
    aPlace va n 3 n (addrMask 21) (fun r => decide (r ≤ 1)) s4 = .ok la s5 →
    homeRead (panelOf s5.cur) (s5.core s5.cur).tag la n va s5 = .ok bs s6 →
    (natOfBytes bs ≠ x.toNat % 256 ^ n → ∀ s7, wrA o.d 1 s6 = .ok () s7 →
      exec (.monw h o) s = .next (s.endA (.monw h o) h .next s7)) ∧
    (natOfBytes bs = x.toNat % 256 ^ n → ∃ t m, exec (.monw h o) s = .next t ∧ (t.core s.cur).monitor = some m ∧
      m.line = la / 64 ∧ m.woken = false ∧
      m.deadline = (if d = 0 then none else some ((s6.ftOf (panelOf s6.cur)).toNat + d.toNat))) := by
  intro n va hp hr
  obtain ⟨k, hk, rfl⟩ := issueA_core hi
  have asleep : ((s.setCore s.cur k).core (s.setCore s.cur k).cur).monitor.isSome = false := by
    rw [cur_setCore, core_setCore_same, hk, idle]
    rfl
  have begun {r : EStateM.Result Stop State Flow} {rest : M Flow} (e : rest (s.setCore s.cur k) = r) :
      (stallIf ((s.setCore s.cur k).core (s.setCore s.cur k).cur).monitor.isSome >>= fun _ => rest) (s.setCore s.cur k) = r := by
    rw [asleep]
    exact e
  have cur : s6.cur = s.cur := by
    have read := (keeps_ok (keeps_homeRead onlyMemory_order.toMemOrder _ _ _ _ _) hr).cur
    have place := (keeps_ok (keeps_aPlace onlyMemory_order.toMemOrder _ _ _ _ _ _) hp).cur
    rw [read, place, cur_of_rdA hx, cur_of_rdA hb, cur_of_rdA hd, cur_setCore]
  refine ⟨fun differs s7 hw => ?_, fun equal => ?_⟩
  · refine runA_ok _ _ false noBad _ s _ _ _ hi nofun rfl ?_
    refine then_ok (getCore_run _) <| begun <| then_ok (monwArgs_ok hd hb hx) <| then_ok hp <| then_ok (aPanel_run s5) <|
      then_ok (aTag_run s5) <| then_ok hr <| take_branch differs <| then_ok hw rfl
  · let m : Monitor := { line := la / 64, woken := false
                         deadline := if d = 0 then none else some ((s6.ftOf (panelOf s6.cur)).toNat + d.toNat) }
    have sleeps : exec (.monw h o) s = s.afterBodyA (.monw h o) h (.error .waiting (s6.onCore s6.cur fun q =>
        { q with monitor := some m, xa := ((s.setCore s.cur k).core (s.setCore s.cur k).cur).xa })) := by
      refine (runA_issued (priv := false) (bad := noBad) hi (by nofun) rfl).trans (congrArg _ ?_)
      exact then_ok (getCore_run _) <| begun <| then_ok (monwArgs_ok hd hb hx) <| then_ok hp <| then_ok (aPanel_run s5) <|
        then_ok (aTag_run s5) <| then_ok hr <| pass_check (not_not.2 equal) rfl
    obtain ⟨u, run, -, monitor, -⟩ := afterBodyA_waiting s (.monw h o) h (s6.onCore s6.cur fun q =>
        { q with monitor := some m, xa := ((s.setCore s.cur k).core (s.setCore s.cur k).cur).xa })
    refine ⟨u, m, sleeps.trans run, ?_, rfl, rfl, rfl⟩
    rw [monitor, cur, core_onCore_same]

/-- Settles O9: the gate words from their accesses, and MONW by whether its word is equal. -/
theorem gatesAndMonitor : Obligations.GatesAndMonitor := by
  unfold Obligations.GatesAndMonitor
  refine ⟨?gset, ?gclr, ?gld, monw_completes⟩
  case gset =>
    intro s s1 s2 s3 s4 s5 h o b x la hi hb hx hp hf
    refine ⟨runA_ok _ _ false noBad _ s _ _ _ hi nofun rfl ?_, gateFull_of_gateFill hf⟩
    exact then_ok (atAddr_ok hb) <| then_ok hx <| then_ok hp <| then_ok (aPanel_run s4) <| then_ok (aTag_run s4) <| then_ok hf rfl
  case gclr =>
    intro s s1 s2 s3 s4 h o b la hi hb hp hc
    refine ⟨runA_ok _ _ false noBad _ s _ _ _ hi nofun rfl ?_, gateFull_of_gateClear hc⟩
    exact then_ok (atAddr_ok hb) <| then_ok hp <| then_ok (aPanel_run s3) <| then_ok (aTag_run s3) <| then_ok hc rfl
  case gld =>
    intro s s1 s2 s3 s4 s5 s6 h o b la bs hi hb hp hr hd ht
    refine runA_ok _ _ false noBad _ s _ _ _ hi nofun rfl ?_
    exact then_ok (atAddr_ok hb) <| then_ok hp <| then_ok (aPanel_run s3) <| then_ok (aTag_run s3) <| then_ok hr <|
      then_ok (getState_run s4) <| then_ok hd <| then_ok ht rfl

end Sys2Proof.Machine

/-! The flags of the A unit (spec 14 R250 to R253): the words on the core's own flags, and the addition sent to another core. -/

namespace Sys2Proof.Machine

/-! ## Flags (R250 to R253) -/

/-- An addition that CEIL has room for is made. -/
theorem addFlag_fits {k : Core} {v : BitVec 6} {n : BitVec 16} {i : Nat} (named : flagIdx k.flagNum k.flagBase v = some i)
    (fits : (vget k.flags i).count.toNat + n.toNat ≤ (vget k.flags i).ceil.toNat) :
    k.addFlag v n.toNat =
      .ok { k with flags := vset k.flags i { vget k.flags i with count := (vget k.flags i).count + n } } := by
  have sum : BitVec.ofNat 16 ((vget k.flags i).count.toNat + n.toNat) = (vget k.flags i).count + n := by
    apply BitVec.eq_of_toNat_eq
    rw [BitVec.toNat_ofNat, BitVec.toNat_add]
  unfold Core.addFlag
  simp only [named, Flag.add, if_pos fits, sum]

theorem finc_own (s s1 : State) (h : Hdr) (o : FincOp) (hi : s.issueA (.finc h o) h = some s1) (own : o.rem = false) :
    let k := s1.core s.cur
    let i := (o.vf.toNat + k.flagBase.toNat) % 64
    let f := vget k.flags i
    o.vf.toNat < k.flagNum.toNat → f.count.toNat + o.amount.toNat ≤ f.ceil.toNat →
    exec (.finc h o) s = .next (s.endA (.finc h o) h .next (s1.setCore s.cur
      { k with flags := vset k.flags i { f with count := f.count + o.amount } })) := by
  intro k i f below fits
  obtain ⟨q, hq, rfl⟩ := issueA_core hi
  have same : k = q := core_setCore_same ..
  have num : (s.core s.cur).flagNum = k.flagNum := by
    rw [same, hq]
  have added := addFlag_fits (flagIdx_of_lt below) fits
  refine runA_ok _ _ false _ _ s _ _ _ hi nofun (badVf_eq_zero 34 (by rw [num]; exact below)) ?_
  refine then_ok (getCore_run _) <| pass_check (by rw [own]; exact Bool.false_ne_true) ?_
  rw [cur_setCore, show (s.setCore s.cur q).core s.cur = k from rfl, added]
  rfl

/-- A remote FINC sends its addition and waits, past its wait byte, for the answer. -/
theorem finc_remote (s s1 s2 : State) (h : Hdr) (o : FincOp) (t : Word) (hi : s.issueA (.finc h o) h = some s1) (rem : o.rem = true)
    (idle : (s.core s.cur).finc = false) (ht : rdA o.s1 s1 = .ok t s2) (below : o.vf.toNat < (s.core s.cur).flagNum.toNat) :
    ∃ u x, exec (.finc h o) s = .next u ∧ u.remotes = s.remotes ++ [x] ∧ (u.core s.cur).finc = true ∧
      x.target = field t 0 10 ∧ x.held.v = o.vf ∧ x.held.amount = o.amount ∧ x.owner = (s.core s.cur).ctx ∧
      x.held.sender = s.cur := by
  obtain ⟨k, hk, rfl⟩ := issueA_core hi
  have cur : s2.cur = s.cur := (cur_of_rdA ht).trans (cur_setCore ..)
  have ctx : k.ctx = (s.core s.cur).ctx := by rw [hk]
  let x : Remote :=
    { held := { sender := s2.cur, strm := .a, v := o.vf, amount := o.amount, clock := s2.vc (panelOf s2.cur), pass := k.passNow,
                rword := k.headWord .a, word := encodeWord (.finc h o), abs := 0, entry := none, link := none },
      target := field t 0 10, owner := k.ctx }
  let sent : State := ({ s2 with remotes := s2.remotes ++ [x] } : State).onCore s2.cur fun k => { k with finc := true }
  have remotes : s2.remotes = s.remotes := by
    rw [rdA_leaves ht]
    split <;> rfl
  have waits : exec (.finc h o) s = s.afterBodyA (.finc h o) h (.error .waiting sent) := by
    refine (runA_issued (priv := false) hi (by nofun) (badVf_eq_zero 34 below)).trans (congrArg _ ?_)
    refine then_ok (getCore_run _) <| take_branch rem ?_
    rw [cur_setCore, core_setCore_same, show k.finc = false by rw [hk, idle]]
    exact then_ok (stallIf_false _) <| then_ok ht rfl
  obtain ⟨u, run, ur, -, uf⟩ := afterBodyA_waiting s (.finc h o) h sent
  refine ⟨u, x, waits.trans run, ?_, ?_, rfl, rfl, rfl, ctx, cur⟩
  · rw [ur]
    exact congrArg (· ++ [x]) remotes
  · rw [uf, ← cur, core_onCore_same]

theorem fset_completes (s s1 s2 : State) (h : Hdr) (o : FsetOp) (x : Word) (hi : s.issueA (.fset h o) h = some s1)
    (hx : rdA o.s1 s1 = .ok x s2) :
    let k := s2.core s.cur
    let i := (o.vf.toNat + k.flagBase.toNat) % 64
    let f := (vget k.flags i).setField o.fld (field (x + o.imm.setWidth 64) 0 16)
    o.vf.toNat < k.flagNum.toNat → f.count.toNat ≤ f.ceil.toNat →
    exec (.fset h o) s = .next (s.endA (.fset h o) h .next (s2.setCore s.cur { k with flags := vset k.flags i f })) := by
  intro k i f below fits
  obtain ⟨q, hq, rfl⟩ := issueA_core hi
  have cur : s2.cur = s.cur := (cur_of_rdA hx).trans (cur_setCore ..)
  have num : (s.core s.cur).flagNum = k.flagNum := by
    have left : k = _ := core_issued_rdA hq hx
    rw [left]
  refine runA_ok _ _ false _ _ s _ _ _ hi nofun (badVf_eq_zero 34 (by rw [num]; exact below)) ?_
  refine then_ok hx <| then_ok (getCore_run _) ?_
  rw [cur]
  simp only [show s2.core s.cur = k from rfl, flagIdx_of_lt below, Option.getD_some]
  refine pass_check (Nat.not_lt.2 fits) <| then_ok (modCore_run _ _) ?_
  rw [cur]
  rfl

theorem fwait_completes (s s1 : State) (h : Hdr) (o : FwaitOp) (hi : s.issueA (.fwait h o) h = some s1) :
    let k := s1.core s.cur
    let i := (o.vf.toNat + k.flagBase.toNat) % 64
    let f := vget k.flags i
    o.vf.toNat < k.flagNum.toNat → o.n.toNat ≤ f.count.toNat →
    exec (.fwait h o) s = .next (s.endA (.fwait h o) h .next
      (if o.keep then s1 else s1.setCore s.cur { k with flags := vset k.flags i { f with count := f.count - o.n } })) := by
  intro k i f below enough
  obtain ⟨q, hq, rfl⟩ := issueA_core hi
  have same : k = q := core_setCore_same ..
  have num : (s.core s.cur).flagNum = k.flagNum := by
    rw [same, hq]
  refine runA_ok _ _ false _ _ s _ _ _ hi nofun (badVf_eq_zero 34 (by rw [num]; exact below)) ?_
  refine then_ok (getCore_run _) ?_
  simp only [cur_setCore, show (s.setCore s.cur q).core s.cur = k from rfl, flagIdx_of_lt below, Option.getD_some]
  refine pass_check (Nat.not_lt.2 enough) ?_
  cases o.keep with
  | true => rfl
  | false => exact then_ok (modCore_run _ _) rfl

/-- Settles O10: the words one by one, FRD as a word that writes one reading. -/
theorem flagWords : Obligations.FlagWords := by
  unfold Obligations.FlagWords
  obtain ⟨-, -, -, -, frd, -⟩ := accessReads
  exact ⟨finc_own, finc_remote, fset_completes, frd, fwait_completes⟩

end Sys2Proof.Machine

/-! ENQ, POPPASS, PASSDONE and YIELD (spec 14 R259, R260, R262, R263): each body goes on from part to part. -/

namespace Sys2Proof.Machine

/-! ## ENQ (R259) -/

theorem enq_completes (s s1 s2 s3 s4 s5 s6 : State) (h : Hdr) (o : RR2) (va : Word) (la : Nat) (b : List Byte)
    (id : Option (BitVec 32)) (hi : s.issueA (.enq h o) h = some s1) (hv : rdA o.s1 s1 = .ok va s2) :
    let t := (s2.core s2.cur).ctx
    (∀ l, rangeTranslate (s2.core s2.cur).rangeSet va 0 0 = .ok l → regionOf l = 2 →
      winFirst t l 16 false s1Mask (va.toNat % 128 = 0) s2 = .ok () s2) →
    placeIn (s2.core s2.cur).rangeSet va 128 1 128 s1Mask (fun r => decide (r ≤ 3)) s2 = .ok la s3 →
    let p := panelOf s3.cur
    (regionOf la ≤ 1 → memRead p t la 128 va s3 = .ok b s4) →
    (1 < regionOf la → ∃ ws, (List.range 16).mapM (fun i => loadAs t (la + 8 * i) 8 va) s3 = .ok ws s4 ∧ b = ws.flatten) →
    submit t (gathOf s4.cur) b la allOnes 0 (s4.vc p) s4 = .ok id s5 →
    wrA o.d ((id.map (·.setWidth 64)).getD allOnes) s5 = .ok () s6 →
    exec (.enq h o) s = .next (s.endA (.enq h o) h .next s6) := by
  intro t first place p low high hs hw
  have record : (if regionOf la ≤ 1 then memRead p t la 128 va
      else do
        let ws ← (List.range 16).mapM fun i => loadAs t (la + 8 * i) 8 va
        pure ws.flatten : M (List Byte)) s3 = .ok b s4 := by
    by_cases region : regionOf la ≤ 1
    · exact take_branch region (low region)
    · obtain ⟨ws, read, rfl⟩ := high (Nat.not_le.1 region)
      exact pass_check region (then_ok read rfl)
  have rest : (do
      let la ← placeIn (s2.core s2.cur).rangeSet va 128 1 128 s1Mask (fun r => decide (r ≤ 3))
      let p ← aPanel
      let b ← (if regionOf la ≤ 1 then memRead p t la 128 va
        else do
          let ws ← (List.range 16).mapM fun i => loadAs t (la + 8 * i) 8 va
          pure ws.flatten)
      let st ← getState
      match ← submit t (gathOf st.cur) b la allOnes 0 (st.vc p) with
      | some id => wrA o.d (id.setWidth 64)
      | none => wrA o.d allOnes
      pure Flow.next : M Flow) s2 = .ok .next s6 := by
    refine then_ok place <| then_ok (aPanel_run s3) <| then_ok record <| then_ok (getState_run s4) <| then_ok hs ?_
    cases id with
    | none => exact then_ok hw rfl
    | some n => exact then_ok hw rfl
  refine runA_ok _ _ false noBad _ s _ _ _ hi nofun rfl ?_
  refine then_ok hv <| then_ok (getCore_run s2) ?_
  generalize tr : rangeTranslate (s2.core s2.cur).rangeSet va 0 0 = r
  cases r with
  | bad cls d0 => exact rest
  | ok l =>
    by_cases region : regionOf l = 2
    · exact take_branch region <| then_ok (first l tr region) rest
    · exact pass_check region rest

/-! ## POPPASS (R260) -/

theorem poppass_completes (s s1 s2 s3 s4 : State) (h : Hdr) (d : Reg) (f : Feed) (r : Popped)
    (hi : s.issueA (.poppass h d) h = some s1) :
    let k := s.core s.cur
    k.feed = some f → (∀ w ∈ k.unfinished, w.readsPass = false) → fetchPass f s1 = .ok r s2 →
    (if k.current then handOverAll 1 (k.handover.getD (k.blocks.map fun b => (b, false))) s2 = .ok () s3 else s3 = s2) →
    let u := (s3.onGath (gathOf s3.cur) fun g =>
      { g with written := g.written.filter fun w =>
          !(w.core == s3.cur && w.pass == field (r.word 1) 32 32 && r.isPass) }).onCore s3.cur fun k => k.takePass r f s3.cycle
    wrA d (r.word 1) u = .ok () s4 →
    exec (.poppass h d) s = .next (s.endA (.poppass h d) h .next s4) := by
  intro k feed unread fetched left u hw
  obtain ⟨q, hq, rfl⟩ := issueA_core hi
  have reads : q.unfinished.any (·.readsPass) = false := by
    rw [show q.unfinished = k.unfinished by rw [hq]; rfl, List.any_eq_false]
    exact fun w hw => Bool.eq_false_iff.1 (unread w hw)
  have rest : (do
      modState fun s =>
        let s := s.onGath (gathOf s.cur) fun g =>
          { g with written := g.written.filter fun w => !(w.core == s.cur && w.pass == field (r.word 1) 32 32 && r.isPass) }
        s.onCore s.cur fun k => k.takePass r f s.cycle
      wrA d (r.word 1)
      pure Flow.next : M Flow) s3 = .ok .next s4 := then_ok (modState_run _ _) <| then_ok hw rfl
  refine runA_ok _ _ false noBad _ s _ _ _ hi nofun rfl ?_
  refine then_ok (getCore_run _) ?_
  rw [cur_setCore, core_setCore_same, show q.feed = some f by rw [hq]; exact feed]
  dsimp only
  rw [reads]
  refine then_ok (stallIf_false _) <| then_ok fetched ?_
  have now : q.current = k.current := by rw [hq]
  have handed : q.handover = k.handover := by rw [hq]
  have blocks : q.blocks = k.blocks := by rw [hq]; rfl
  rw [now, handed, blocks]
  cases current : k.current with
  | true =>
    rw [current] at left
    exact take_branch rfl <| then_ok left rest
  | false =>
    rw [current] at left
    subst left
    exact pass_check Bool.false_ne_true rest

/-! ## PASSDONE (R262) -/

theorem handOverAll_nil (reason : BitVec 3) (s : State) :
    handOverAll reason [] s = .ok () (s.onCore s.cur fun k => { k with handover := none }) := rfl

/-- PASSDONE ends its pass once every block has completed or been handed over. -/
theorem passdone_current {s s1 s2 : State} {h : Hdr} {done : List Nat} (hi : s.issueA (.passdone h) h = some s1)
    (current : (s.core s.cur).current = true) (fresh : (s.core s.cur).handover = none)
    (sent : sendDone (encodeWord (.passdone h)) ((s.core s.cur).headWord .a) (s.core s.cur).blocks [] [] s1 = .ok done s2)
    (all : ∀ b ∈ (s2.core s2.cur).blocks, (s2.core s2.cur).rbtParked b = true → b ∈ done) :
    exec (.passdone h) s = .next (s.endA (.passdone h) h .next (s2.onCore s2.cur fun k =>
      { k with handover := none, current := false })) := by
  obtain ⟨q, hq, rfl⟩ := issueA_core hi
  have none_left : ((s2.core s2.cur).blocks.filter fun b => (s2.core s2.cur).rbtParked b && !done.contains b) = [] := by
    rw [List.filter_eq_nil_iff]
    intro b hb left
    simp only [Bool.and_eq_true, Bool.not_eq_true', List.contains_eq_mem, decide_eq_false_iff_not] at left
    exact left.2 (all b hb left.1)
  have ends : ((s2.onCore s2.cur fun k => { k with handover := none }).onCore s2.cur fun k => { k with current := false }) =
      s2.onCore s2.cur fun k => { k with handover := none, current := false } := by
    simp only [State.onCore, State.setCore, State.core, mapGet_mapPut_same, mapPut_mapPut, Option.getD_some]
  have word : q.headWord .a = (s.core s.cur).headWord .a := by rw [hq]; rfl
  have blocks : q.blocks = (s.core s.cur).blocks := by rw [hq]; rfl
  refine runA_ok _ _ false noBad _ s _ _ _ hi nofun rfl ?_
  refine then_ok (getCore_run _) ?_
  rw [cur_setCore, core_setCore_same]
  refine take_branch (by rw [hq]; exact current) ?_
  rw [show q.handover = none by rw [hq]; exact fresh]
  dsimp only
  rw [word, blocks]
  refine then_ok sent <| then_ok (getCore_run s2) ?_
  rw [none_left]
  refine then_ok (handOverAll_nil 0 s2) <| then_ok (modCore_run _ _) ?_
  rw [cur_onCore, ends]
  rfl

/-- Settles O13: the words one by one. -/
theorem passWords : Obligations.PassWords := by
  unfold Obligations.PassWords
  refine ⟨enq_completes, poppass_completes, ?idle, fun _ _ _ _ _ => passdone_current, ?yield⟩
  case idle =>
    intro s s1 h hi idle
    obtain ⟨q, hq, rfl⟩ := issueA_core hi
    refine runA_ok _ _ false noBad _ s _ _ _ hi nofun rfl ?_
    refine then_ok (getCore_run _) ?_
    rw [cur_setCore, core_setCore_same]
    refine pass_check ?_ rfl
    rw [hq]
    exact Bool.eq_false_iff.1 idle
  case yield =>
    intro s s1 h adv hi _
    change execYield h adv s = _
    refine runA_ok _ _ false noBad _ s _ _ _ hi nofun rfl ?_
    exact then_ok (modCore_run _ _) <| then_ok (modState_run _ _) rfl

end Sys2Proof.Machine

/-! SYSC and RFE (spec 14 R266): the handler is entered at word 0, and left for EXC_RET. -/

namespace Sys2Proof.Machine

/-- A change of a core is what it makes of that core. -/
theorem onCore_congr {s : State} {c : CoreId} {f g : Core → Core} (h : f (s.core c) = g (s.core c)) : s.onCore c f = s.onCore c g := by
  unfold State.onCore
  rw [h]

/-- The core that SYSC leaves, `ret` being the word to return to. -/
def Core.called (k : Core) (n : BitVec 16) (w : Word) (ret : BitVec 13) : Core :=
  k.enterHandler (0x10000 + n.setWidth 64) w 0 (excRetWord false ret) 0

/-- The core past its A head word. -/
def Core.pastHead (k : Core) : Core := k.setRing .a ((k.ring .a).moveTo ((k.ring .a).fetch.toNat + 1))

/-- What SYSC makes of its core: `free` is the place to return to within the handler. -/
def Core.sysc (k : Core) (n : BitVec 16) (w free : Word) : Core :=
  let k' := if k.priv then k else k.pastHead
  k'.called n w (if k.priv then field free 0 13 else k'.resumeWord)

theorem sysc_of_stream {k : Core} (out : k.priv = false) (n : BitVec 16) (w free : Word) :
    k.sysc n w free = k.pastHead.called n w k.pastHead.resumeWord := by
  simp only [Core.sysc, out, Bool.false_eq_true, if_false]

theorem sysc_of_handler {k : Core} (inside : k.priv = true) (n : BitVec 16) (w free : Word) :
    k.sysc n w free = k.called n w (field free 0 13) := by
  simp only [Core.sysc, inside, if_true]

/-- Outside the handler SYSC keeps the place of the next word. -/
theorem sysc_in_stream {s : State} {k : Core} {h : Hdr} {n : BitVec 16} (hi : s.issueA (.sysc h n) h = some (s.setCore s.cur k))
    (out : k.priv = false) :
    exec (.sysc h n) s = .next (s.endA (.sysc h n) h .stay ((s.setCore s.cur k).onCore s.cur fun k =>
      k.pastHead.called n (encodeWord (.sysc h n)) k.pastHead.resumeWord)) := by
  refine runA_ok _ _ false noBad _ s _ _ _ hi nofun rfl ?_
  refine then_ok (getCore_run _) ?_
  rw [cur_setCore, core_setCore_same, out]
  refine then_ok (pure_run _ _) <| then_ok (modCore_run _ _) (congrArg (EStateM.Result.ok Flow.stay) ?_)
  exact onCore_congr (sysc_of_stream (by rw [cur_setCore, core_setCore_same, out]) n _ 0)

/-- In the handler the place is a free value. -/
theorem sysc_in_handler {s : State} {k : Core} {h : Hdr} {n : BitVec 16} (hi : s.issueA (.sysc h n) h = some (s.setCore s.cur k))
    (inside : k.priv = true) :
    exec (.sysc h n) s = .next (s.endA (.sysc h n) h .stay (({ s.setCore s.cur k with free := s.free + 1 } : State).onCore s.cur
      fun k => k.called n (encodeWord (.sysc h n)) (field (Config.freeWord s.free) 0 13))) := by
  refine runA_ok _ _ false noBad _ s _ _ _ hi nofun rfl ?_
  refine then_ok (getCore_run _) ?_
  rw [cur_setCore, core_setCore_same, inside]
  have drawn : (if true = true then freeWord else pure 0 : M Word) (s.setCore s.cur k) =
      .ok (Config.freeWord s.free) { s.setCore s.cur k with free := s.free + 1 } := rfl
  have priv : (({ s.setCore s.cur k with free := s.free + 1 } : State).core s.cur).priv = true := by
    rw [← inside]
    exact congrArg Core.priv (core_setCore_same s s.cur k)
  refine then_ok drawn <| then_ok (modCore_run _ _) (congrArg (EStateM.Result.ok Flow.stay) ?_)
  exact onCore_congr (sysc_of_handler priv n _ _)

theorem sysc_completes (s s1 : State) (h : Hdr) (n : BitVec 16) (hi : s.issueA (.sysc h n) h = some s1) :
    ∃ t, exec (.sysc h n) s = .next (s.endA (.sysc h n) h .stay t) ∧
      let q := t.core s.cur
      let k := s.core s.cur
      q.priv = true ∧ q.handlerPos = 0 ∧ q.excCause = 0x10000 + n.setWidth 64 ∧ q.excWord = encodeWord (.sysc h n) ∧
      q.excAddr = 0 ∧ q.a = k.a ∧
      (k.priv = false → q.excRet = excRetWord false (if (q.ring .a).ended then (q.ring .a).endWord
        else (q.ring .a).wordIdx (q.ring .a).fetch.toNat) ∧
        (q.ring .a).fetch = BitVec.ofNat 32 ((k.ring .a).fetch.toNat + 1)) := by
  obtain ⟨k, hk, rfl⟩ := issueA_core hi
  have priv : k.priv = (s.core s.cur).priv := by rw [hk]
  have a : k.a = (s.core s.cur).a := by rw [hk]
  have ring : k.ring .a = (s.core s.cur).ring .a := by rw [hk]; rfl
  cases out : k.priv with
  | false =>
    refine ⟨_, sysc_in_stream hi out, ?_⟩
    rw [core_onCore_same, core_setCore_same]
    refine ⟨rfl, rfl, rfl, rfl, rfl, a, fun _ => ?_⟩
    have moved : (k.pastHead.called n (encodeWord (.sysc h n)) k.pastHead.resumeWord).ring .a = k.pastHead.ring .a := rfl
    have head : k.pastHead.headWord .a = (k.pastHead.ring .a).wordIdx (k.pastHead.ring .a).fetch.toNat := by
      have stays : k.pastHead.priv = false := out
      simp only [Core.headWord, Core.headPos, stays, Bool.and_false, Bool.false_eq_true, if_false]
    refine ⟨?_, ?_⟩
    · rw [moved, ← head]
      rfl
    · rw [moved, Core.pastHead, ring_setRing_same, ring]
      rfl
  | true =>
    refine ⟨_, sysc_in_handler hi out, ?_⟩
    have here : (({ s.setCore s.cur k with free := s.free + 1 } : State).core s.cur) = k := core_setCore_same ..
    rw [core_onCore_same, here]
    refine ⟨rfl, rfl, rfl, rfl, rfl, a, fun outside => ?_⟩
    rw [priv, outside] at out
    cases out

theorem rfe_completes (s s1 : State) (h : Hdr) (hi : s.issueA (.rfe h) h = some s1) (inside : (s.core s.cur).priv = true) :
    exec (.rfe h) s = .next (s.endA (.rfe h) h .stay ((s1.onCore s.cur Core.leaveHandler).dropWire s.cur)) := by
  obtain ⟨k, hk, rfl⟩ := issueA_core hi
  change execRfe h s = _
  refine runA_ok _ _ true noBad _ s _ _ _ hi (fun _ => inside) rfl ?_
  exact then_ok (modCore_run _ _) <| then_ok (modState_run _ _) rfl

/-- A stream that has not ended goes on at EXC_RET. -/
theorem leaveHandler_fetch {k : Core} (on : (k.ring .a).ended = false) :
    (k.leaveHandler.ring .a).fetch = BitVec.ofNat 32 ((k.ring .a).posOf (field k.excRet 0 13)) := by
  have moved : k.leaveHandler.ring .a =
      (k.setRing .a ((k.ring .a).moveTo ((k.ring .a).posOf (field k.excRet 0 13)))).ring .a := by
    unfold Core.leaveHandler
    simp only [on, Bool.false_and, Bool.false_eq_true, if_false]
    rfl
  rw [moved, ring_setRing_same]
  rfl

/-- Settles O15: the call in the stream and in the handler, the return, and the place it goes on at. -/
theorem syscAndRfe : Obligations.SyscAndRfe := by
  unfold Obligations.SyscAndRfe
  exact ⟨sysc_completes, rfe_completes, fun _ => ⟨rfl, rfl, leaveHandler_fetch⟩⟩

end Sys2Proof.Machine

/-! The words of the execute unit (spec 15 R276 to R287): the words of one form complete by one lemma of that form; and their encodings. -/

namespace Sys2Proof.Machine

/-! ## Forms of X words -/

/-- The issue of an X word changes nothing but its core's flags. -/
theorem issueX_core {s s1 : State} {i : Instr} {h : Hdr} (hi : s.issueX i h = some s1) :
    ∃ k, k = { s.core s.cur with flags := k.flags } ∧ s1 = s.setCore s.cur k := by
  obtain ⟨k1, k2, h1, h2, rfl⟩ := issueX_takes hi
  exact ⟨k2, (issueSig_flags h2).trans (by rw [passWait_flags h1]), rfl⟩

section
variable {ω : Type} {mk : Hdr → ω → Instr}

theorem twoSourceX_of_xBin {d s1 s2 : ω → Reg} {f g : ω → Word → Word → Word}
    (runs : ∀ h o s, exec (mk h o) s = xBin (mk h o) h (d o) (s1 o) (s2 o) (g o) s) (same : ∀ o x y, g o x y = f o x y) :
    TwoSourceX mk d s1 s2 f := by
  intro s t1 t2 t3 t4 h o x y hi hx hy hd
  refine (runs h o s).trans (runX_ok _ _ noBad _ s _ _ _ hi rfl ?_)
  rw [← same] at hd
  exact then_ok hx <| then_ok hy <| then_ok hd rfl

theorem oneSourceX_of_xUn {d s1 : ω → Reg} {f : ω → Word → Word}
    (runs : ∀ h o s, exec (mk h o) s = xUn (mk h o) h (d o) (s1 o) (f o) s) : OneSourceX mk d s1 f := by
  intro s t1 t2 t3 h o x hi hx hd
  exact (runs h o s).trans (runX_ok _ _ noBad _ s _ _ _ hi rfl (then_ok hx <| then_ok hd rfl))

end

/-! ## Arithmetic (R276) -/

/-- Settles O18: each word by the lemma of its form. -/
theorem executeArithmetic : Obligations.ExecuteArithmetic := by
  unfold Obligations.ExecuteArithmetic
  refine ⟨?nop, ?li, ?lih, ?add, ?addi, ?sub, ?and, ?or, ?xor, ?ftrd⟩
  case nop => exact fun s s1 h hi => runX_ok _ _ noBad _ s _ _ _ hi rfl rfl
  case li => exact fun s s1 s2 h o hi hd => runX_ok _ _ noBad _ s _ _ _ hi rfl (then_ok hd rfl)
  case lih => exact oneSourceX_of_xUn fun _ _ _ => rfl
  case addi => exact oneSourceX_of_xUn fun _ _ _ => rfl
  case ftrd =>
    intro s s1 s2 h d hi hd
    obtain ⟨k, -, rfl⟩ := issueX_core hi
    change execXFtrd h d s = _
    refine runX_ok _ _ noBad _ s _ _ _ hi rfl ?_
    exact then_ok (readFt_run _) <| then_ok hd rfl
  all_goals exact twoSourceX_of_xBin (fun _ _ _ => rfl) fun _ _ _ => rfl

/-! ## Reserved fields of X words (R212, R367) -/

/-- A field that holds zero has no bit of a mask over it. -/
theorem and_mask_of_field {w : Word} {lo n : Nat} (inside : lo + n ≤ 64) (zero : field w lo n = 0) : w &&& maskIf true lo n = 0 := by
  have mask : maskIf true lo n = (allOnes >>> (64 - n)) <<< lo := rfl
  rw [mask]
  apply BitVec.eq_of_getLsbD_eq
  intro i hi
  rw [BitVec.getLsbD_and, BitVec.getLsbD_shiftLeft, BitVec.getLsbD_ushiftRight, BitVec.getLsbD_allOnes, BitVec.ofNat_eq_ofNat,
    BitVec.getLsbD_zero, Bool.and_eq_false_iff]
  by_cases within : lo ≤ i ∧ i < lo + n
  · left
    have bit : (field w lo n).getLsbD (i - lo) = false := by rw [zero, BitVec.ofNat_eq_ofNat, BitVec.getLsbD_zero]
    rw [BitVec.getLsbD_extractLsb', decide_eq_true (by omega), Bool.true_and, Nat.add_sub_cancel' within.1] at bit
    exact bit
  · right
    simp only [Bool.and_eq_false_iff, Bool.not_eq_false', decide_eq_false_iff_not, decide_eq_true_eq]
    omega

theorem and_or_eq_zero {w a b : Word} (ha : w &&& a = 0) (hb : w &&& b = 0) : w &&& (a ||| b) = 0 := by
  rw [BitVec.and_or_distrib_left, ha, hb]
  rfl

/-- Where the written word has no bit of a mask, the difference has those of the word. -/
theorem xor_and_of_zero {w v m : Word} (h : v &&& m = 0) : (w ^^^ v) &&& m = w &&& m := by
  apply BitVec.eq_of_getLsbD_eq
  intro i hi
  have bit : (v &&& m).getLsbD i = false := by rw [h, BitVec.ofNat_eq_ofNat, BitVec.getLsbD_zero]
  rw [BitVec.getLsbD_and] at bit
  rw [BitVec.getLsbD_and, BitVec.getLsbD_and, BitVec.getLsbD_xor, Bool.and_xor_distrib_right, bit, Bool.xor_false]

section
variable {ω : Type} {op : BitVec 8} {mk : Hdr → ω → Instr} {get : Word → ω} {put : ω → BitVec 40}

/-- A word of the X stream is what its fields read, and its reserved bits are those that the written word has not. -/
theorem decodesX_of_put {res : Word} (reads : ∀ w, field w 40 8 = op → decodeX w = some (mk (getHdr w) (get w)))
    (free : ∀ h o w, get w = o → encodeWord (mk h o) &&& res = 0) : DecodesX op mk get res := by
  intro w hw
  have loose : decodeLoose .x w = some (mk (getHdr w) (get w)) := reads w hw
  refine ⟨w ^^^ encodeWord (mk (getHdr w) (get w)), ?_, xor_and_of_zero (free _ _ w rfl)⟩
  rw [decodeWord, loose]
  rfl

/-- A reserved field of a written word holds zero. -/
theorem encodeWord_and_mask {h : Hdr} {o : ω} {lo n : Nat} (hh : (mk h o).hdr? = some (.x, h))
    (hb : encodeBody (mk h o) = some (op ++ put o)) (inside : lo + n ≤ 40) (zero : field (put o) lo n = 0) :
    encodeWord (mk h o) &&& maskIf true lo n = 0 :=
  and_mask_of_field (Nat.le_trans inside (by decide)) ((field_encodeWord hh hb inside).trans zero)

end

end Sys2Proof.Machine

/-! Products, quotients, shifts, extrema and bit counts of the execute unit (spec 15 R277). -/

namespace Sys2Proof.Machine

/-! ## Values -/

theorem mul_eq_w64 (x y : Word) : x * y = w64 (x.toNat * y.toNat) :=
  BitVec.eq_of_toNat_eq ((BitVec.toNat_mul x y).trans (BitVec.toNat_ofNat _ _).symm)

theorem shiftBy_eq (y : Word) : shiftBy y = y.toNat % 64 := by
  rw [shiftBy, field, BitVec.extractLsb'_toNat, Nat.shiftRight_zero]

theorem choose_ltW {sgn : Bool} {x y : Word} {α : Type} (p q : α) : (if ltW sgn x y then p else q) =
    if sgn then (if x.toInt < y.toInt then p else q) else if x.toNat < y.toNat then p else q := by
  cases sgn with
  | true => simp [ltW, BitVec.slt_iff_toInt_lt]
  | false => simp [ltW, BitVec.ult]

theorem divW_zero (sgn : Bool) (x : Word) : divW sgn x 0 = allOnes := if_pos rfl

theorem remW_zero (sgn : Bool) (x : Word) : remW sgn x 0 = x := if_pos rfl

theorem divW_nonzero (sgn : Bool) (x : Word) {y : Word} (h : y ≠ 0) :
    divW sgn x y = if sgn then BitVec.ofInt 64 (x.toInt.tdiv y.toInt) else w64 (x.toNat / y.toNat) := if_neg h

theorem remW_nonzero (sgn : Bool) (x : Word) {y : Word} (h : y ≠ 0) :
    remW sgn x y = if sgn then BitVec.ofInt 64 (x.toInt.tmod y.toInt) else w64 (x.toNat % y.toNat) := if_neg h

/-- The high half of an unsigned product: the quotient of naturals. -/
theorem mulHigh_unsigned (x y : Word) : mulHigh 0 x y = w64 (x.toNat * y.toNat / 2 ^ 64) :=
  BitVec.ofInt_natCast 64 (x.toNat * y.toNat / 2 ^ 64)

theorem popcW_toNat (x : Word) : (popcW x).toNat = ((List.range 64).filter fun i => x.getLsbD i).length := by
  have few : ((List.range 64).filter fun i => x.getLsbD i).length ≤ 64 := List.length_filter_le _ _
  exact (BitVec.toNat_ofNat _ _).trans (Nat.mod_eq_of_lt (Nat.lt_of_le_of_lt few (by decide)))

/-- A nonzero word shows its leading one in bit 63 less its leading zeros. -/
theorem clzW_leading_one {x : Word} (h : x ≠ 0) : (clzW x).toNat < 64 ∧ x.toNat / 2 ^ (63 - (clzW x).toNat) = 1 := by
  have nonzero : x.toNat ≠ 0 := fun zero => h (BitVec.eq_of_toNat_eq zero)
  have short : Nat.log2 x.toNat < 64 := (Nat.log2_lt nonzero).2 x.isLt
  have zeros : (clzW x).toNat = 63 - Nat.log2 x.toNat := by
    rw [clzW, if_neg h]
    exact (BitVec.toNat_ofNat _ _).trans (Nat.mod_eq_of_lt (by omega))
  have low : 2 ^ Nat.log2 x.toNat ≤ x.toNat := Nat.log2_self_le nonzero
  have high : x.toNat < 2 ^ (Nat.log2 x.toNat + 1) := Nat.lt_log2_self
  rw [zeros, Nat.sub_sub_self (by omega)]
  refine ⟨by omega, Nat.div_eq_of_lt_le (by omega) ?_⟩
  rw [Nat.pow_succ] at high
  omega

/-! ## Encodings -/

section
variable {op : BitVec 8}

theorem decodesX_rr3 {mk : Hdr → RR3 → Instr} (reads : ∀ w, field w 40 8 = op → decodeX w = some (mk (getHdr w) (rrFields w)))
    (hh : ∀ h o, (mk h o).hdr? = some (.x, h)) (hb : ∀ h o, encodeBody (mk h o) = some (op ++ putRr3 o)) :
    DecodesX op mk rrFields 0x1FFFFFF :=
  decodesX_of_put reads fun h o _ _ => encodeWord_and_mask (lo := 0) (n := 25) (hh h o) (hb h o) (by decide) (by simp [putRr3])

theorem decodesX_rr3s {mk : Hdr → RR3S → Instr} (reads : ∀ w, field w 40 8 = op → decodeX w = some (mk (getHdr w) (rrFieldsS w)))
    (hh : ∀ h o, (mk h o).hdr? = some (.x, h)) (hb : ∀ h o, encodeBody (mk h o) = some (op ++ putRr3s o)) :
    DecodesX op mk rrFieldsS 0x1FFFFFE :=
  decodesX_of_put reads fun h o _ _ => encodeWord_and_mask (lo := 1) (n := 24) (hh h o) (hb h o) (by decide) (by simp [putRr3s])

theorem decodesX_rr3k {mk : Hdr → RR3K → Instr} (reads : ∀ w, field w 40 8 = op → decodeX w = some (mk (getHdr w) (rrFieldsK w)))
    (hh : ∀ h o, (mk h o).hdr? = some (.x, h)) (hb : ∀ h o, encodeBody (mk h o) = some (op ++ putRr3k o)) :
    DecodesX op mk rrFieldsK 0x1FFFFF8 :=
  decodesX_of_put reads fun h o _ _ => encodeWord_and_mask (lo := 3) (n := 22) (hh h o) (hb h o) (by decide) (by simp [putRr3k])

theorem decodesX_rr2 {mk : Hdr → RR2 → Instr} (reads : ∀ w, field w 40 8 = op → decodeX w = some (mk (getHdr w) (rrFields2 w)))
    (hh : ∀ h o, (mk h o).hdr? = some (.x, h)) (hb : ∀ h o, encodeBody (mk h o) = some (op ++ putRr2 o)) :
    DecodesX op mk rrFields2 0x3FFFFFFF :=
  decodesX_of_put reads fun h o _ _ => encodeWord_and_mask (lo := 0) (n := 30) (hh h o) (hb h o) (by decide) (by simp [putRr2])

end

theorem maskIf_low3 : maskIf true 0 3 ≠ 0 := by decide

/-- Settles O19: the words by their form, the values of their operations, and the encodings by their formats. -/
theorem executeMultiplyDivide : Obligations.ExecuteMultiplyDivide := by
  unfold Obligations.ExecuteMultiplyDivide
  refine ⟨?mul, ?mulh, ?div, ?rem, ?shl, ?shr, ?sra, ?min, ?max, ?popc, ?clz, ?zero, rfl, rfl, ?quotients, ?high, ?bits,
    ?mulE, ?mulhE, ?divE, ?remE, ?shlE, ?shrE, ?sraE, ?minE, ?maxE, ?popcE, ?clzE, ?reserved⟩
  case mul => exact twoSourceX_of_xBin (fun _ _ _ => rfl) fun _ => mul_eq_w64
  case mulh | div | rem => exact twoSourceX_of_xBin (fun _ _ _ => rfl) fun _ _ _ => rfl
  case shl | shr | sra => exact twoSourceX_of_xBin (fun _ _ _ => rfl) fun _ _ y => by rw [shiftBy_eq]
  case min | max => exact twoSourceX_of_xBin (fun _ _ _ => rfl) fun _ _ _ => choose_ltW _ _
  case popc | clz => exact oneSourceX_of_xUn fun _ _ _ => rfl
  case zero => exact fun x => ⟨divW_zero _ x, divW_zero _ x, remW_zero _ x, remW_zero _ x⟩
  case quotients => exact fun x y h => ⟨divW_nonzero _ x h, remW_nonzero _ x h, divW_nonzero _ x h, remW_nonzero _ x h⟩
  case high => exact fun x y => ⟨mulHigh_unsigned x y, rfl, rfl⟩
  case bits => exact fun x => ⟨popcW_toNat x, fun h => by rw [h]; rfl, clzW_leading_one⟩
  case reserved =>
    intro h o large
    change maskIf (decide (3 ≤ o.k.toNat)) 0 3 ≠ 0
    rw [decide_eq_true large]
    exact maskIf_low3
  case mulhE => exact decodesX_rr3k (fun w h => by rw [decodeX, h]; rfl) (fun _ _ => rfl) fun _ _ => rfl
  case divE | remE | minE | maxE => exact decodesX_rr3s (fun w h => by rw [decodeX, h]; rfl) (fun _ _ => rfl) fun _ _ => rfl
  case popcE | clzE => exact decodesX_rr2 (fun w h => by rw [decodeX, h]; rfl) (fun _ _ => rfl) fun _ _ => rfl
  all_goals exact decodesX_rr3 (fun w h => by rw [decodeX, h]; rfl) (fun _ _ => rfl) fun _ _ => rfl

end Sys2Proof.Machine

/-! Predicates, FP32 words and conversions of the execute unit (spec 15 R278 to R283). -/

namespace Sys2Proof.Machine

/-! ## Reading a source, and rounding -/

/-- Reading an X register changes nothing but AX. -/
theorem rdX_leaves {s t : State} {r : Reg} {x : Word} (h : rdX r s = .ok x t) :
    t.cur = s.cur ∧ t.core s.cur = { s.core s.cur with ax := (t.core s.cur).ax } := by
  unfold rdX at h
  simp only at h
  split at h
  · cases h; exact ⟨rfl, rfl⟩
  split at h
  · split at h
    · cases h
    · cases h
      rw [cur_setCore, core_setCore_same]
      exact ⟨rfl, rfl⟩
  split at h
  · cases h
  · cases h; exact ⟨rfl, rfl⟩

theorem onCore_onCore (s : State) (c : CoreId) (f g : Core → Core) : (s.onCore c f).onCore c g = s.onCore c fun k => g (f k) := by
  unfold State.onCore
  rw [core_setCore_same, State.setCore, State.setCore, State.setCore, mapPut_mapPut]

/-- The rounding of an X word: its mode, L, and the step of the LFSR (R90, R93). -/
theorem xRound_run (rnd : BitVec 3) (s : State) : xRound rnd s = .ok (s.modeX rnd, s.lX) (s.roundX rnd) := by
  refine then_ok (modCore_run _ s) <| then_ok (getCore_run _) ?_
  rw [cur_onCore, core_onCore_same]
  have mode : modeOf rnd (if (s.core s.cur).xReload then
      { s.core s.cur with xLfsr := lfsrSeed (s.core s.cur).srSeed, xReload := false } else s.core s.cur).round = s.modeX rnd := by
    split <;> rfl
  have low : lfsrL (if (s.core s.cur).xReload then
      { s.core s.cur with xLfsr := lfsrSeed (s.core s.cur).srSeed, xReload := false } else s.core s.cur).xLfsr = s.lX := by
    unfold State.lX
    dsimp only
    split <;> rfl
  simp only [mode, low]
  by_cases sr : s.modeX rnd = .sr
  · refine take_branch sr <| then_ok (modCore_run _ _) ?_
    rw [cur_onCore, onCore_onCore]
    refine congrArg (EStateM.Result.ok _) (onCore_congr ?_)
    split <;> exact (if_pos sr).symm
  · refine pass_check sr ?_
    refine congrArg (EStateM.Result.ok _) (onCore_congr ?_)
    split <;> exact (if_neg sr).symm

/-! ## Forms -/

theorem compareX_of_runX {mk : Hdr → CmpOp → Instr} {f : BitVec 3 → Word → Word → Bool}
    (runs : ∀ h o s, exec (mk h o) s = runX (mk h o) h noBad (do
      let x ← rdX o.s1
      let y ← rdX o.s2
      wrP o.p (f o.k x y)
      pure .next) s) : CompareX mk f := by
  intro s s1 s2 s3 s4 h o x y hi hx hy hd
  exact (runs h o s).trans (runX_ok _ _ noBad _ s _ _ _ hi rfl (then_ok hx <| then_ok hy <| then_ok hd rfl))

theorem roundedX_of_fpBin {mk : Hdr → RR3K → Instr} {f : Val → Val → Mode → Nat → BitVec 32}
    (runs : ∀ h o s, exec (mk h o) s = fpBin (mk h o) h o f s) : RoundedX mk f := by
  intro s s1 s2 s3 s4 h o x y hi hx hy hd
  refine (runs h o s).trans (runX_ok _ _ noBad _ s _ _ _ hi rfl ?_)
  exact then_ok hx <| then_ok hy <| then_ok (xRound_run _ _) <| then_ok hd rfl

theorem roundedX1_of_runX {ω : Type} {mk : Hdr → ω → Instr} {d s1 : ω → Reg} {rnd : ω → BitVec 3} {f : ω → Word → Mode → Nat → Word}
    (runs : ∀ h o s, exec (mk h o) s = runX (mk h o) h noBad (do
      let x ← rdX (s1 o)
      let (mode, l) ← xRound (rnd o)
      wrX (d o) (f o x mode l)
      pure .next) s) : RoundedX1 mk d s1 rnd free fun _ => f := by
  intro s t1 t2 t3 h o x hi _ hx hd
  refine (runs h o s).trans (runX_ok _ _ noBad _ s _ _ _ hi rfl ?_)
  exact then_ok hx <| then_ok (xRound_run _ _) <| then_ok hd rfl

/-! ## Predicates (R278) -/

/-- SEL reads its predicate as it stood before the word. -/
theorem sel_completes (s s1 s2 s3 s4 : State) (h : Hdr) (o : RR3K) (x y : Word) (hi : s.issueX (.sel h o) h = some s1)
    (hx : rdX o.s1 s1 = .ok x s2) (hy : rdX o.s2 s2 = .ok y s3) (settled : o.k = 0 ∨ (s.core s.cur).xPending (.pred o.k) = false)
    (hd : wrX o.d (if o.k = 0 ∨ vget (s.core s.cur).p o.k.toNat = true then x else y) s3 = .ok () s4) :
    exec (.sel h o) s = .next (s.endX (.sel h o) .next s4) := by
  obtain ⟨k, hk, rfl⟩ := issueX_core hi
  obtain ⟨cur2, core2⟩ := rdX_leaves hx
  obtain ⟨cur3, core3⟩ := rdX_leaves hy
  rw [cur_setCore, core_setCore_same] at core2
  rw [cur_setCore] at cur2
  rw [cur2] at core3
  have pred : (s3.core s3.cur).p = (s.core s.cur).p := by rw [cur3, cur2, core3, core2, hk]
  have prog : (s3.core s3.cur).xProg = (s.core s.cur).xProg := by rw [cur3, cur2, core3, core2, hk]
  have hp := rdP_run s3 o.k (settled.imp_right fun p => by rw [← p, Core.xPending, Core.xPending, prog])
  refine runX_ok _ _ noBad _ s _ _ _ hi rfl ?_
  refine then_ok hx <| then_ok hy <| then_ok hp ?_
  rw [pred]
  simp only [Bool.or_eq_true, beq_iff_eq]
  exact then_ok hd rfl

theorem cmpCond_values (x y : Word) : cmpCond 0 x y = (x == y) ∧ cmpCond 1 x y = !(x == y) ∧
    cmpCond 2 x y = decide (x.toInt < y.toInt) ∧ cmpCond 3 x y = decide (y.toInt ≤ x.toInt) ∧
    cmpCond 4 x y = decide (x.toNat < y.toNat) ∧ cmpCond 5 x y = decide (y.toNat ≤ x.toNat) := by
  refine ⟨rfl, rfl, rfl, ?ge, rfl, ?geu⟩
  case ge => exact Bool.eq_iff_iff.2 ((not_slt_iff x y).trans decide_eq_true_iff.symm)
  case geu =>
    change (!decide (x.toNat < y.toNat)) = _
    rw [← decide_not]
    simp only [Nat.not_lt]

theorem plogOp_values (a b : Bool) : plogOp 0 a b = (a && b) ∧ plogOp 1 a b = (a || b) ∧ plogOp 2 a b = (a ^^ b) ∧
    plogOp 3 a b = (a && !b) ∧ plogOp 4 a b = !a := ⟨rfl, rfl, rfl, rfl, rfl⟩

theorem encodeWord_cmp_reserved (h : Hdr) (o : CmpOp) : encodeWord (.cmp h o) &&& 0xC001FFFFF8 = 0 := by
  have top : encodeWord (.cmp h o) &&& maskIf true 38 2 = 0 := encodeWord_and_mask rfl rfl (by decide) (by simp [putCmp])
  have low : encodeWord (.cmp h o) &&& maskIf true 3 22 = 0 := encodeWord_and_mask rfl rfl (by decide) (by simp [putCmp])
  exact and_or_eq_zero top low

theorem encodeWord_plog_reserved (h : Hdr) (o : PlogOp) : encodeWord (.plog h o) &&& 0xC631FFFFF8 = 0 := by
  have top : encodeWord (.plog h o) &&& maskIf true 38 2 = 0 := encodeWord_and_mask rfl rfl (by decide) (by simp [putPlog])
  have first : encodeWord (.plog h o) &&& maskIf true 33 2 = 0 := encodeWord_and_mask rfl rfl (by decide) (by simp [putPlog])
  have second : encodeWord (.plog h o) &&& maskIf true 28 2 = 0 := encodeWord_and_mask rfl rfl (by decide) (by simp [putPlog])
  have low : encodeWord (.plog h o) &&& maskIf true 3 22 = 0 := encodeWord_and_mask rfl rfl (by decide) (by simp [putPlog])
  exact and_or_eq_zero (and_or_eq_zero (and_or_eq_zero top first) second) low

/-- The complement's second source is a reserved field. -/
theorem encodeWord_not_reserved (h : Hdr) (o : PlogOp) (op : o.op = 4) : encodeWord (.plog h o) &&& 0xE000000 = 0 :=
  encodeWord_and_mask (lo := 25) (n := 3) rfl rfl (by decide) (by simp [putPlog, op])

/-- Settles O20: the three words, their values, and their encodings. -/
theorem executePredicates : Obligations.ExecutePredicates := by
  unfold Obligations.ExecutePredicates
  refine ⟨?cmp, sel_completes, ?plog, cmpCond_values, plogOp_values, ?cmpE, ?selE, ?plogE, ?notE, ?cmpBad, ?plogBad⟩
  case cmp => exact compareX_of_runX fun _ _ _ => rfl
  case plog =>
    intro s s1 s2 h o a b hi ha hb hd
    exact runX_ok _ _ noBad _ s _ _ _ hi rfl (then_ok ha <| then_ok hb <| then_ok hd rfl)
  case cmpE => exact decodesX_of_put (fun w h => by rw [decodeX, h]; rfl) fun h o _ _ => encodeWord_cmp_reserved h o
  case selE => exact decodesX_rr3k (fun w h => by rw [decodeX, h]; rfl) (fun _ _ => rfl) fun _ _ => rfl
  case plogE => exact decodesX_of_put (fun w h => by rw [decodeX, h]; rfl) fun h o _ _ => encodeWord_plog_reserved h o
  case notE =>
    intro w h op
    have line : decodeLoose .x w = some (.plog (getHdr w) (getPlog w)) := by
      change decodeX w = _
      rw [decodeX, h]
      rfl
    exact ⟨_, _, by rw [decodeWord, line], xor_and_of_zero (encodeWord_not_reserved _ _ op)⟩
  case cmpBad =>
    intro h o large
    change maskIf (decide (6 ≤ o.k.toNat)) 0 3 ≠ 0
    rw [decide_eq_true large]
    exact maskIf_low3
  case plogBad =>
    intro h o large
    change maskIf (decide (5 ≤ o.op.toNat)) 0 3 ≠ 0
    rw [decide_eq_true large]
    exact maskIf_low3

/-! ## FP32 words and conversions (R279 to R283) -/

/-- Settles O21: each word by the lemma of its form; FFMA reads three sources and rounds once. -/
theorem executeFloat : Obligations.ExecuteFloat := by
  unfold Obligations.ExecuteFloat
  refine ⟨?fadd, ?fsub, ?fmul, ?fdiv, ?ffma, ?fsqrt, ?fmin, ?fmax, ?fcmp⟩
  case ffma =>
    intro s s1 s2 s3 s4 s5 h o z x y hi hz hx hy hd
    refine runX_ok _ _ noBad _ s _ _ _ hi rfl ?_
    exact then_ok hz <| then_ok hx <| then_ok hy <| then_ok (xRound_run _ _) <| then_ok hd rfl
  case fsqrt => exact roundedX1_of_runX fun _ _ _ => rfl
  case fmin | fmax => exact twoSourceX_of_xBin (fun _ _ _ => rfl) fun _ _ _ => rfl
  case fcmp => exact compareX_of_runX (f := fun k x y => fcmpCond k (fpVal x) (fpVal y)) fun _ _ _ => rfl
  all_goals exact roundedX_of_fpBin fun _ _ _ => rfl

/-- CVTN converts by the format its slot holds. -/
theorem cvtn_completes (s t1 t2 t3 : State) (h : Hdr) (o : CvtnOp) (x : Word) (hi : s.issueX (.cvtn h o) h = some t1)
    (formatted : (slotElem (s.core s.cur) o.fs).isSome = true) (hx : rdX o.s1 t1 = .ok x t2) :
    let el := (slotElem (s.core s.cur) o.fs).getD .raw
    wrX o.d (if o.dir then (round32 (el.decode (x.toNat % 2 ^ el.width)) (t2.modeX o.rnd) t2.lX).setWidth 64
      else w64 (roundTo el (fpVal x) (t2.modeX o.rnd) o.sat t2.lX)) (t2.roundX o.rnd) = .ok () t3 →
    exec (.cvtn h o) s = .next (s.endX (.cvtn h o) .next t3) := by
  intro el hd
  obtain ⟨k, hk, rfl⟩ := issueX_core hi
  have slot : slotElem k o.fs = slotElem (s.core s.cur) o.fs := by rw [hk]; rfl
  refine runX_ok _ _ (fun k => maskIf (slotElem k o.fs).isNone 5 4) _ s _ _ _ hi ?_ ?_
  · rw [Option.isNone_eq_false_iff.2 formatted]
    rfl
  · refine then_ok (getCore_run _) <| then_ok hx <| then_ok (xRound_run _ _) ?_
    rw [cur_setCore, core_setCore_same, slot]
    exact then_ok hd rfl

/-- Settles O22: the integer conversions by the lemma of their form, CVTN by the format of its slot. -/
theorem executeConversions : Obligations.ExecuteConversions := by
  unfold Obligations.ExecuteConversions
  refine ⟨?cvtf, ?cvti, ?cvtn⟩
  case cvtf => exact roundedX1_of_runX fun _ _ _ => rfl
  case cvti => exact roundedX1_of_runX (f := fun (o : CvtiOp) x m l => cvtiWord o.sg o.wid (fpVal x) m l) fun _ _ _ => rfl
  case cvtn => exact fun s t1 t2 t3 h o x hi formatted hx hd => cvtn_completes s t1 t2 t3 h o x hi formatted hx hd

end Sys2Proof.Machine

/-! The control words of the execute unit (spec 15 R284 to R287): their targets, LOOP's count, and SAFE. -/

namespace Sys2Proof.Machine

/-! ## Targets -/

theorem badTargetX_eq_zero {k : Core} {bits : Nat} {off : Int} (low : 0 ≤ ((k.ring .x).fetch.toNat : Int) + off)
    (high : ((k.ring .x).fetch.toNat : Int) + off < (k.ring .x).count) : badTargetX bits off k = 0 := by
  have inside : inSection (k.ring .x).count (aimAt k.xIndex off) = true := inSection_of_bounds low high
  rw [badTargetX, inside]
  rfl

/-- What the decode stage sees of a register is what reading it then gives. -/
theorem seeX_of_rdX {s t : State} {r : Reg} {x : Word} (h : rdX r s = .ok x t) : (s.core s.cur).seeX r = some x := by
  unfold rdX at h
  unfold Core.seeX
  simp only at h
  split at h
  · next h0 => cases h; exact if_pos h0
  next h0 =>
  rw [if_neg h0]
  split at h
  · next h31 =>
    rw [if_pos h31]
    split at h
    · cases h
    · next front => cases h; rw [front]; rfl
  next h31 =>
  rw [if_neg h31]
  split at h
  · cases h
  · next settled => cases h; exact if_neg settled

/-- Reading a register of the X unit after a word's issue sees what its decode stage saw. -/
theorem seeX_issued {s s2 : State} {k : Core} {r : Reg} {v : Word} (hk : k = { s.core s.cur with flags := k.flags })
    (hr : rdX r (s.setCore s.cur k) = .ok v s2) : (s.core s.cur).seeX r = some v := by
  have seen := seeX_of_rdX hr
  rw [cur_setCore, core_setCore_same, hk] at seen
  exact seen

/-- A register target of the section that follows a SAFE word offends nothing at decode. -/
theorem xJrBad_eq_zero {k : Core} {o : RR2} {t : Word} (seen : k.seeX o.s1 = some t) (inside : t.toNat < (k.ring .x).count)
    (safe : k.afterSafe .x 0x38 t.toNat = true) : xJrBad o k = 0 := by
  rw [xJrBad, seen, Option.any_some, safe, decide_eq_false (Nat.not_le.2 inside)]
  rfl

/-- The issue of a word leaves its index in the section. -/
theorem xIndex_flags {k q : Core} (h : q = { k with flags := q.flags }) : q.xIndex = k.xIndex := by
  rw [h]
  rfl

/-! ## Words -/

theorem brp_completes (s s1 : State) (h : Hdr) (o : BrpOp) (hi : s.issueX (.brp h o) h = some s1) :
    let k := s.core s.cur
    let t : Int := (k.ring .x).fetch.toNat + o.off.toInt
    0 ≤ t → t < (k.ring .x).count → (o.p = 0 ∨ k.xPending (.pred o.p) = false) →
    let b : Bool := o.p = 0 || vget k.p o.p.toNat
    exec (.brp h o) s = .next (s.endX (.brp h o) (if b != o.neg then .goto t.toNat else .next) s1) := by
  intro k t low high settled b
  obtain ⟨q, hq, rfl⟩ := issueX_core hi
  have pred := rdP_run (s.setCore s.cur q) o.p (by rw [cur_setCore, core_setCore_same, hq]; exact settled)
  rw [cur_setCore, core_setCore_same] at pred
  refine runX_ok _ _ (badTargetX 30 o.off.toInt) _ s _ _ _ hi (badTargetX_eq_zero low high) ?_
  refine then_ok (getCore_run _) <| then_ok pred ?_
  rw [cur_setCore, core_setCore_same, xIndex_flags hq, show q.p = k.p by rw [hq]]
  rfl

theorem xJmp_completes (s s1 s2 : State) (h : Hdr) (o : LIOp) (hi : s.issueX (.xJmp h o) h = some s1) :
    let k := s.core s.cur
    let t : Int := (k.ring .x).fetch.toNat + o.imm.toInt
    0 ≤ t → t < (k.ring .x).count → wrX o.d (w64 ((k.ring .x).fetch.toNat + 2)) s1 = .ok () s2 →
    exec (.xJmp h o) s = .next (s.endX (.xJmp h o) (.goto t.toNat) s2) := by
  intro k t low high hd
  obtain ⟨q, hq, rfl⟩ := issueX_core hi
  refine runX_ok _ _ (badTargetX 35 o.imm.toInt) _ s _ _ _ hi (badTargetX_eq_zero low high) ?_
  refine then_ok (getCore_run _) ?_
  rw [cur_setCore, core_setCore_same, xIndex_flags hq]
  exact then_ok hd rfl

theorem xJr_completes (s s1 s2 s3 : State) (h : Hdr) (o : RR2) (t : Word) (hi : s.issueX (.xJr h o) h = some s1)
    (ht : rdX o.s1 s1 = .ok t s2) :
    let k := s.core s.cur
    t.toNat < (k.ring .x).count → k.afterSafe .x 0x38 t.toNat = true →
    wrX o.d (w64 ((k.ring .x).fetch.toNat + 2)) s2 = .ok () s3 →
    exec (.xJr h o) s = .next (s.endX (.xJr h o) (.goto t.toNat) s3) := by
  intro k inside safe hd
  obtain ⟨q, hq, rfl⟩ := issueX_core hi
  refine runX_ok _ _ (xJrBad o) _ s _ _ _ hi (xJrBad_eq_zero (seeX_issued hq ht) inside safe) ?_
  refine then_ok (getCore_run _) <| then_ok ht ?_
  rw [cur_setCore, core_setCore_same, xIndex_flags hq]
  exact then_ok hd rfl

/-- A word that has issued has no operand out of its limits. -/
theorem badOperands_of_issueX {s s1 : State} {i : Instr} {h : Hdr} (hi : s.issueX i h = some s1) : badOperands i = 0 := by
  by_cases bad : badOperands i ||| (s.core s.cur).clauseBad h = 0
  · exact (BitVec.or_eq_zero_iff.1 bad).1
  · rw [State.issueX, if_pos bad] at hi
    cases hi

theorem loop_counter {s s1 : State} {h : Hdr} {o : LoopOp} (hi : s.issueX (.loop h o) h = some s1) : o.s1 ≠ 0 ∧ o.s1 ≠ 31 := by
  have fine : maskIf (o.s1 == 0 || o.s1 == 31) 35 5 = 0 := badOperands_of_issueX hi
  have plain : (o.s1 == 0 || o.s1 == 31) = false := by
    cases port : o.s1 == 0 || o.s1 == 31 with
    | false => rfl
    | true => rw [port] at fine; exact absurd fine (by decide)
  rw [Bool.or_eq_false_iff, beq_eq_false_iff_ne, beq_eq_false_iff_ne] at plain
  exact plain

/-- LOOP reads its counter, leaves at zero, and otherwise counts down. -/
theorem loop_completes (s s1 s2 : State) (h : Hdr) (o : LoopOp) (hi : s.issueX (.loop h o) h = some s1) :
    let k := s.core s.cur
    let t : Int := (k.ring .x).fetch.toNat + o.off.toInt
    let x := vget k.x o.s1.toNat
    0 ≤ t → t < (k.ring .x).count → k.xPending (.reg o.s1) = false →
    (if x = 0 then s2 = s1 else wrX o.s1 (x - 1) s1 = .ok () s2) →
    exec (.loop h o) s = .next (s.endX (.loop h o) (if x = 0 ∨ x = 1 then .next else .goto t.toNat) s2) := by
  intro k t x low high settled hd
  obtain ⟨h0, h31⟩ := loop_counter hi
  obtain ⟨q, hq, rfl⟩ := issueX_core hi
  have counter := rdX_plain (s.setCore s.cur q) o.s1 h0 h31 (by rw [cur_setCore, core_setCore_same, hq]; exact settled)
  rw [cur_setCore, core_setCore_same, show q.x = k.x by rw [hq]] at counter
  refine runX_ok _ _ (badTargetX 30 o.off.toInt) _ s _ _ _ hi (badTargetX_eq_zero low high) ?_
  refine then_ok (getCore_run _) <| then_ok counter ?_
  rw [cur_setCore, core_setCore_same, xIndex_flags hq]
  by_cases zero : x = 0
  · rw [if_pos zero] at hd
    rw [hd]
    refine take_branch zero ?_
    rw [if_pos (Or.inl zero)]
    rfl
  · rw [if_neg zero] at hd
    have last : x - 1 = 0 ↔ x = 0 ∨ x = 1 := sub_eq_zero.trans (or_iff_right zero).symm
    simp only [← last]
    exact pass_check zero <| then_ok hd rfl

theorem xSafe_completes (s s1 : State) (h : Hdr) (n : BitVec 16) (hi : s.issueX (.xSafe h n) h = some s1)
    (calm : (s.core s.cur).preempt = false) (outside : (s.core s.cur).safeAt = none) :
    exec (.xSafe h n) s = .next (s.endX (.xSafe h n) .next s1) := by
  obtain ⟨q, hq, rfl⟩ := issueX_core hi
  have free : (q.preempt || q.safeAt.isSome) = false := by rw [hq]; simp [calm, outside]
  refine runX_ok _ _ noBad _ s _ _ _ hi rfl ?_
  refine then_ok (getCore_run _) ?_
  rw [cur_setCore, core_setCore_same, free]
  rfl

/-- Settles O23: the five words. -/
theorem executeControl : Obligations.ExecuteControl := by
  unfold Obligations.ExecuteControl
  exact ⟨brp_completes, xJmp_completes, xJr_completes, loop_completes, xSafe_completes⟩

end Sys2Proof.Machine

/-! What an X word leaves unchanged (spec 15 R272, R276 to R287): the frame of its issue and body, and what follows the body. -/

namespace Sys2Proof.Machine

/-! ## The frame of an X word -/

/-- A result to come is for the register, the predicate, or the queue that the word names. -/
def XDest.Named (d : Reg) (p : Pred) (e : XDest) : Prop := e = .reg d ∨ e = .pred p ∨ (e = .xa ∧ d = 31)

/-- What an X word up to its body's end leaves of its core: registers and predicates but its destination, queues that it does not name,
the LFSR unless it rounds, other streams, unnamed flags, and all else; results that it keeps for later are for its destinations. -/
structure Core.ExecFrame (d : Reg) (p : Pred) (src : List Reg) (rounds : Bool) (h : Hdr) (k q : Core) : Prop where
  regs : ∀ r : Reg, r ≠ d → vget q.x r.toNat = vget k.x r.toNat
  preds : ∀ r : Pred, r ≠ p → vget q.p r.toNat = vget k.p r.toNat
  xa : d ≠ 31 → q.xa = k.xa
  ax : (31 : Reg) ∉ src → q.ax = k.ax
  lfsr : rounds = false → q.xLfsr = k.xLfsr ∧ q.xReload = k.xReload
  rest : q = q.movedFrom { k with x := q.x, p := q.p, ax := q.ax, xa := q.xa, xLfsr := q.xLfsr, xReload := q.xReload, xRes := q.xRes }
  results : ∃ res, q.xRes = k.xRes ++ res ∧ ∀ e ∈ res, XDest.Named d p e.1
  rings : ∀ t : Strm, t ≠ .x → q.ring t = k.ring t
  flags : q.sameFlags k h

/-- What it leaves of the machine; where words complete at once, it keeps no result. -/
structure State.ExecFrame (d : Reg) (p : Pred) (src : List Reg) (rounds : Bool) (h : Hdr) (s t : State) : Prop where
  rest : t = { s with cores := t.cores }
  others : t.sameOthers s s.cur
  core : (s.core s.cur).ExecFrame d p src rounds h (t.core s.cur)
  atOnce : s.lineOps = none → (t.core s.cur).xRes = (s.core s.cur).xRes

section
variable {d : Reg} {p : Pred} {src : List Reg} {rounds : Bool} {h : Hdr}

namespace Core.ExecFrame

/-- A change that keeps no result for later. -/
theorem of_settled {k q : Core} (regs : ∀ r : Reg, r ≠ d → vget q.x r.toNat = vget k.x r.toNat)
    (preds : ∀ r : Pred, r ≠ p → vget q.p r.toNat = vget k.p r.toNat) (xa : d ≠ 31 → q.xa = k.xa) (ax : (31 : Reg) ∉ src → q.ax = k.ax)
    (lfsr : rounds = false → q.xLfsr = k.xLfsr ∧ q.xReload = k.xReload)
    (rest : q = { k with x := q.x, p := q.p, ax := q.ax, xa := q.xa, xLfsr := q.xLfsr, xReload := q.xReload }) :
    k.ExecFrame d p src rounds h q where
  regs := regs
  preds := preds
  xa := xa
  ax := ax
  lfsr := lfsr
  rest := rest.trans (by rw [rest]; rfl)
  results := ⟨[], by rw [rest, List.append_nil], nofun⟩
  rings _ _ := by rw [rest]; rfl
  flags _ _ := by rw [rest]

theorem refl (k : Core) : k.ExecFrame d p src rounds h k :=
  .of_settled (fun _ _ => rfl) (fun _ _ => rfl) (fun _ => rfl) (fun _ => rfl) (fun _ => ⟨rfl, rfl⟩) rfl

theorem trans {k q u : Core} (h1 : k.ExecFrame d p src rounds h q) (h2 : q.ExecFrame d p src rounds h u) :
    k.ExecFrame d p src rounds h u where
  regs r other := (h2.regs r other).trans (h1.regs r other)
  preds r other := (h2.preds r other).trans (h1.preds r other)
  xa other := (h2.xa other).trans (h1.xa other)
  ax other := (h2.ax other).trans (h1.ax other)
  lfsr exact0 := ⟨(h2.lfsr exact0).1.trans (h1.lfsr exact0).1, (h2.lfsr exact0).2.trans (h1.lfsr exact0).2⟩
  rest := h2.rest.trans (by rw [h1.rest]; rfl)
  results := by
    obtain ⟨res1, e1, named1⟩ := h1.results
    obtain ⟨res2, e2, named2⟩ := h2.results
    refine ⟨res1 ++ res2, by rw [e2, e1, List.append_assoc], fun e listed => ?_⟩
    exact (List.mem_append.1 listed).elim (named1 e) (named2 e)
  rings t other := (h2.rings t other).trans (h1.rings t other)
  flags j unnamed := by
    have num : q.flagNum = k.flagNum := by rw [h1.rest]; rfl
    have base : q.flagBase = k.flagBase := by rw [h1.rest]; rfl
    refine (h2.flags j fun v named => ?_).trans (h1.flags j unnamed)
    rw [num, base]
    exact unnamed v named

/-- A change of what every completed word may move, but for unnamed flags and for the rings of other streams. -/
theorem of_moved {k q : Core} (moved : q = q.movedFrom k) (rings : ∀ t : Strm, t ≠ .x → q.ring t = k.ring t)
    (flags : q.sameFlags k h) : k.ExecFrame d p src rounds h q where
  regs _ _ := by rw [moved]; rfl
  preds _ _ := by rw [moved]; rfl
  xa _ := by rw [moved]; rfl
  ax _ := by rw [moved]; rfl
  lfsr _ := by rw [moved]; exact ⟨rfl, rfl⟩
  rest := moved.trans (by rw [moved]; rfl)
  results := ⟨[], by rw [moved, List.append_nil]; rfl, nofun⟩
  rings := rings
  flags := flags

theorem of_flags {k q : Core} (alone : q = { k with flags := q.flags }) (same : q.sameFlags k h) : k.ExecFrame d p src rounds h q :=
  .of_moved (by rw [alone]; rfl) (fun _ _ => by rw [alone]; rfl) same

/-- A result for one of its destinations, kept for later. -/
theorem of_result (k : Core) {e : XDest} (v : Word) (named : XDest.Named d p e) :
    k.ExecFrame d p src rounds h { k with xRes := k.xRes ++ [(e, v)] } where
  regs _ _ := rfl
  preds _ _ := rfl
  xa _ := rfl
  ax _ := rfl
  lfsr _ := ⟨rfl, rfl⟩
  rest := rfl
  results := ⟨[(e, v)], rfl, fun f listed => by rw [List.mem_singleton.1 listed]; exact named⟩
  rings _ _ := rfl
  flags _ _ := rfl

end Core.ExecFrame

namespace State.ExecFrame

theorem refl (s : State) : s.ExecFrame d p src rounds h s := ⟨rfl, fun _ _ => rfl, .refl _, fun _ => rfl⟩

theorem cur {s t : State} (f : s.ExecFrame d p src rounds h t) : t.cur = s.cur := by rw [f.rest]

theorem lineOps {s t : State} (f : s.ExecFrame d p src rounds h t) : t.lineOps = s.lineOps := by rw [f.rest]

theorem trans {s t u : State} (h1 : s.ExecFrame d p src rounds h t) (h2 : t.ExecFrame d p src rounds h u) :
    s.ExecFrame d p src rounds h u where
  rest := h2.rest.trans (by rw [h1.rest])
  others c other := by rw [h2.others c (by rw [h1.cur]; exact other), h1.others c other]
  core := h1.core.trans (h1.cur ▸ h2.core)
  atOnce here := (h1.cur ▸ h2.atOnce (h1.lineOps.trans here)).trans (h1.atOnce here)

theorem of_setCore {s : State} {q : Core} (f : (s.core s.cur).ExecFrame d p src rounds h q)
    (atOnce : s.lineOps = none → q.xRes = (s.core s.cur).xRes) : s.ExecFrame d p src rounds h (s.setCore s.cur q) where
  rest := rfl
  others c other := by rw [core_setCore_other _ _ _ _ other]
  core := by rw [core_setCore_same]; exact f
  atOnce here := by rw [core_setCore_same]; exact atOnce here

end State.ExecFrame

/-! ## Registers, predicates and rounding -/

theorem execFrame_rdX {s t : State} {r : Reg} {v : Word} (named : r ∈ src) (hr : rdX r s = .ok v t) :
    s.ExecFrame d p src rounds h t := by
  unfold rdX at hr
  dsimp only at hr
  split at hr
  · cases hr
    exact .refl s
  split at hr
  · next port =>
    split at hr
    · cases hr
    · cases hr
      refine .of_setCore ?_ fun _ => rfl
      exact .of_settled (fun _ _ => rfl) (fun _ _ => rfl) (fun _ => rfl) (fun unnamed => absurd (port ▸ named) unnamed)
        (fun _ => ⟨rfl, rfl⟩) rfl
  split at hr
  · cases hr
  · cases hr
    exact .refl s

/-- A result is written now or kept for later. -/
theorem execFrame_keepX {s t : State} {e : XDest} {v : Word} {now : Core → Core} (named : XDest.Named d p e)
    (written : (s.core s.cur).ExecFrame d p src rounds h (now (s.core s.cur))) (alone : (now (s.core s.cur)).xRes = (s.core s.cur).xRes)
    (hk : keepX e v now s = .ok () t) : s.ExecFrame d p src rounds h t := by
  unfold keepX at hk
  dsimp only at hk
  split at hk
  · next later =>
    cases hk
    exact .of_setCore (.of_result _ v named) fun here => by rw [here] at later; cases later
  split at hk
  · cases hk
  · cases hk
    exact .of_setCore written fun _ => alone

theorem execFrame_wrX {s t : State} {v : Word} (hw : wrX d v s = .ok () t) : s.ExecFrame d p src rounds h t := by
  unfold wrX at hw
  dsimp only at hw
  split at hw
  · cases hw
    exact .refl s
  split at hw
  · next port =>
    split at hw
    · cases hw
    · exact execFrame_keepX (.inr (.inr ⟨rfl, port⟩)) (.of_settled (fun _ _ => rfl) (fun _ _ => rfl) (fun other => absurd port other)
        (fun _ => rfl) (fun _ => ⟨rfl, rfl⟩) rfl) rfl hw
  · refine execFrame_keepX (.inl rfl) (.of_settled (fun r other => ?_) (fun _ _ => rfl) (fun _ => rfl) (fun _ => rfl)
      (fun _ => ⟨rfl, rfl⟩) rfl) rfl hw
    dsimp only
    rw [set_eq_vset]
    exact vget_vset_other _ _ _ _ (mt BitVec.eq_of_toNat_eq other)

theorem execFrame_wrP {s t : State} {b : Bool} (hw : wrP p b s = .ok () t) : s.ExecFrame d p src rounds h t := by
  unfold wrP at hw
  split at hw
  · cases hw
    exact .refl s
  · refine execFrame_keepX (.inr (.inl rfl)) (.of_settled (fun _ _ => rfl) (fun r other => ?_) (fun _ => rfl) (fun _ => rfl)
      (fun _ => ⟨rfl, rfl⟩) rfl) rfl hw
    dsimp only
    rw [set_eq_vset]
    exact vget_vset_other _ _ _ _ (mt BitVec.eq_of_toNat_eq other)

theorem execFrame_roundX (s : State) (rnd : BitVec 3) : s.ExecFrame d p src true h (s.roundX rnd) := by
  refine .of_setCore (.of_settled ?_ ?_ ?_ ?_ nofun ?_) fun _ => ?_
  all_goals
    dsimp only
    split <;> split
  all_goals intros
  all_goals rfl

/-! ## Bodies -/

/-- An action that ends within the frame, or stalls. -/
def WithinX {α : Type} (d : Reg) (p : Pred) (src : List Reg) (rounds : Bool) (h : Hdr) (act : M α) : Prop :=
  ∀ s : State, (∃ a t, act s = .ok a t ∧ s.ExecFrame d p src rounds h t) ∨ ∃ t, act s = .error .stall t

section
variable {α : Type}

theorem WithinX.ok {act : M α} (within : WithinX d p src rounds h act) {s t : State} {a : α} (ends : act s = .ok a t) :
    s.ExecFrame d p src rounds h t := by
  obtain ⟨b, u, e, kept⟩ | ⟨u, e⟩ := within s
  · cases ends.symm.trans e
    exact kept
  · cases ends.symm.trans e

theorem withinX_pure (a : α) : WithinX d p src rounds h (pure a) := fun s => .inl ⟨a, s, rfl, .refl s⟩

theorem withinX_ite {c : Prop} [Decidable c] {x y : M α} (hx : WithinX d p src rounds h x) (hy : WithinX d p src rounds h y) :
    WithinX d p src rounds h (if c then x else y) := by
  split
  · exact hx
  · exact hy

theorem withinX_bind {β : Type} {x : M α} {f : α → M β} (first : WithinX d p src rounds h x)
    (rest : ∀ a, WithinX d p src rounds h (f a)) : WithinX d p src rounds h (x >>= f) := by
  intro s
  obtain ⟨a, t, hx, h1⟩ | ⟨t, hx⟩ := first s
  · rw [bind_ok _ _ _ _ _ hx]
    obtain ⟨b, u, hf, h2⟩ | stalled := rest a t
    · exact .inl ⟨b, u, hf, h1.trans h2⟩
    · exact .inr stalled
  · exact .inr ⟨t, bind_error hx⟩

theorem withinX_getCore {f : Core → M α} (rest : ∀ k, WithinX d p src rounds h (f k)) : WithinX d p src rounds h (getCore >>= f) :=
  fun s => rest (s.core s.cur) s

theorem withinX_readFt {f : Word → M α} (rest : ∀ k, WithinX d p src rounds h (f k)) : WithinX d p src rounds h (readFt >>= f) :=
  fun s => rest (s.ftOf (panelOf s.cur)) s

theorem rdX_ok_or_stall (r : Reg) (s : State) : (∃ v t, rdX r s = .ok v t) ∨ rdX r s = .error .stall s := by
  unfold rdX
  dsimp only
  split
  · exact .inl ⟨_, _, rfl⟩
  split
  · split
    · exact .inr rfl
    · exact .inl ⟨_, _, rfl⟩
  split
  · exact .inr rfl
  · exact .inl ⟨_, _, rfl⟩

theorem rdP_ok_or_stall (r : Pred) (s : State) : (∃ b, rdP r s = .ok b s) ∨ rdP r s = .error .stall s := by
  unfold rdP
  dsimp only
  split
  · exact .inr rfl
  · exact .inl ⟨_, rfl⟩

theorem keepX_ok_or_stall (e : XDest) (v : Word) (now : Core → Core) (s : State) :
    (∃ t, keepX e v now s = .ok () t) ∨ keepX e v now s = .error .stall s := by
  unfold keepX
  dsimp only
  split
  · exact .inl ⟨_, rfl⟩
  split
  · exact .inr rfl
  · exact .inl ⟨_, rfl⟩

theorem wrX_ok_or_stall (r : Reg) (v : Word) (s : State) : (∃ t, wrX r v s = .ok () t) ∨ wrX r v s = .error .stall s := by
  unfold wrX
  dsimp only
  split
  · exact .inl ⟨_, rfl⟩
  split
  · split
    · exact .inr rfl
    · exact keepX_ok_or_stall _ _ _ s
  · exact keepX_ok_or_stall _ _ _ s

theorem wrP_ok_or_stall (r : Pred) (b : Bool) (s : State) : (∃ t, wrP r b s = .ok () t) ∨ wrP r b s = .error .stall s := by
  unfold wrP
  split
  · exact .inl ⟨_, rfl⟩
  · exact keepX_ok_or_stall _ _ _ s

theorem withinX_rdX {r : Reg} {f : Word → M α} (named : r ∈ src) (rest : ∀ v, WithinX d p src rounds h (f v)) :
    WithinX d p src rounds h (rdX r >>= f) := by
  refine withinX_bind (fun s => ?_) rest
  obtain ⟨v, t, hr⟩ | stalled := rdX_ok_or_stall r s
  · exact .inl ⟨v, t, hr, execFrame_rdX named hr⟩
  · exact .inr ⟨s, stalled⟩

theorem withinX_rdP {r : Pred} {f : Bool → M α} (rest : ∀ b, WithinX d p src rounds h (f b)) :
    WithinX d p src rounds h (rdP r >>= f) := by
  refine withinX_bind (fun s => ?_) rest
  obtain ⟨b, hr⟩ | stalled := rdP_ok_or_stall r s
  · exact .inl ⟨b, s, hr, .refl s⟩
  · exact .inr ⟨s, stalled⟩

theorem withinX_xRound {rnd : BitVec 3} {f : Mode × Nat → M α} (rest : ∀ r, WithinX d p src true h (f r)) :
    WithinX d p src true h (xRound rnd >>= f) :=
  withinX_bind (fun s => .inl ⟨_, _, xRound_run rnd s, execFrame_roundX s rnd⟩) rest

theorem withinX_wrX {v : Word} {a : α} : WithinX d p src rounds h (wrX d v >>= fun _ => pure a) := by
  refine withinX_bind (fun s => ?_) fun _ => withinX_pure a
  obtain ⟨t, hw⟩ | stalled := wrX_ok_or_stall d v s
  · exact .inl ⟨(), t, hw, execFrame_wrX hw⟩
  · exact .inr ⟨s, stalled⟩

theorem withinX_wrP {b : Bool} {a : α} : WithinX d p src rounds h (wrP p b >>= fun _ => pure a) := by
  refine withinX_bind (fun s => ?_) fun _ => withinX_pure a
  obtain ⟨t, hw⟩ | stalled := wrP_ok_or_stall p b s
  · exact .inl ⟨(), t, hw, execFrame_wrP hw⟩
  · exact .inr ⟨s, stalled⟩

end

/-- The word completes later where words complete in steps of their own, its signal is its word's, and `out` is what the run of an X
word answers whose body ends within the frame, or stalls. -/
def RunsWithinX (i : Instr) (d : Reg) (p : Pred) (src : List Reg) (rounds : Bool) (h : Hdr) (s : State) (out : Out) : Prop :=
  isXSafe i = false ∧ getSig (encodeWord i) = h.sig ∧ ∃ bad body, WithinX d p src rounds h body ∧ out = runX i h bad body s

theorem runsWithinX_runX {i : Instr} {b : BitVec 48} {bad : Core → Word} {body : M Flow} {s : State} (now : isXSafe i = false)
    (hh : i.hdr? = some (.x, h)) (he : encodeBody i = some b) (hb : WithinX d p src rounds h body) :
    RunsWithinX i d p src rounds h s (runX i h bad body s) :=
  ⟨now, by rw [encodeWord_eq hh he]; exact getSig_enc _ _ _, bad, body, hb, rfl⟩

theorem withinX_xBin {i : Instr} {b : BitVec 48} {r1 r2 : Reg} {f : Word → Word → Word} {s : State} (now : isXSafe i = false)
    (hh : i.hdr? = some (.x, h)) (he : encodeBody i = some b) : RunsWithinX i d p [r1, r2] rounds h s (xBin i h d r1 r2 f s) :=
  runsWithinX_runX now hh he <| withinX_rdX (.head _) fun _ => withinX_rdX (.tail _ (.head _)) fun _ => withinX_wrX

theorem withinX_xUn {i : Instr} {b : BitVec 48} {r1 : Reg} {f : Word → Word} {s : State} (now : isXSafe i = false)
    (hh : i.hdr? = some (.x, h)) (he : encodeBody i = some b) : RunsWithinX i d p [r1] rounds h s (xUn i h d r1 f s) :=
  runsWithinX_runX now hh he <| withinX_rdX (.head _) fun _ => withinX_wrX

theorem withinX_fpBin {i : Instr} {b : BitVec 48} {o : RR3K} {f : Val → Val → Mode → Nat → BitVec 32} {s : State}
    (now : isXSafe i = false) (hh : i.hdr? = some (.x, h)) (he : encodeBody i = some b) :
    RunsWithinX i o.d p [o.s1, o.s2] true h s (fpBin i h o f s) :=
  runsWithinX_runX now hh he <| withinX_rdX (.head _) fun _ => withinX_rdX (.tail _ (.head _)) fun _ =>
    withinX_xRound fun _ => withinX_wrX

/-- A comparison reads its two sources and writes its predicate. -/
theorem withinX_compare {r1 r2 : Reg} {f : Word → Word → Bool} {α : Type} {a : α} :
    WithinX d p [r1, r2] rounds h (rdX r1 >>= fun x => rdX r2 >>= fun y => wrP p (f x y) >>= fun _ => pure a) :=
  withinX_rdX (.head _) fun _ => withinX_rdX (.tail _ (.head _)) fun _ => withinX_wrP

/-- A rounding word of one source. -/
theorem withinX_round {r1 : Reg} {rnd : BitVec 3} {f : Word → Mode × Nat → Word} {α : Type} {a : α} :
    WithinX d p [r1] true h (rdX r1 >>= fun x => xRound rnd >>= fun r => wrX d (f x r) >>= fun _ => pure a) :=
  withinX_rdX (.head _) fun _ => withinX_xRound fun _ => withinX_wrX

/-- Every rounding X word of registers runs so, with the registers that it names. -/
theorem exec_roundingRegWord {i : Instr} (s : State) (hh : i.hdr? = some (.x, h)) (hw : executeRegWord i = some (d, p, src, true)) :
    RunsWithinX i d p src true h s (exec i s) := by
  cases i
  case fadd g o | fsub g o | fmul g o | fdiv g o =>
    cases hh
    cases hw
    dsimp only [exec, execFadd, execFsub, execFmul, execFdiv]
    exact withinX_fpBin (o := o) rfl rfl rfl
  case ffma =>
    cases hh
    cases hw
    dsimp only [exec]
    exact runsWithinX_runX rfl rfl rfl <| withinX_rdX (.head _) fun _ => withinX_rdX (.tail _ (.head _)) fun _ =>
      withinX_rdX (.tail _ (.tail _ (.head _))) fun _ => withinX_xRound fun _ => withinX_wrX
  case fsqrt | cvtf | cvti =>
    cases hh
    cases hw
    dsimp only [exec]
    exact runsWithinX_runX rfl rfl rfl withinX_round
  case cvtn =>
    cases hh
    cases hw
    dsimp only [exec]
    exact runsWithinX_runX rfl rfl rfl <| withinX_getCore fun _ => withinX_round
  all_goals cases hw

/-- Every other X word of registers runs so, with the registers and the predicate that it names. -/
theorem exec_exactRegWord {i : Instr} (s : State) (hh : i.hdr? = some (.x, h)) (hw : executeRegWord i = some (d, p, src, false)) :
    RunsWithinX i d p src false h s (exec i s) := by
  cases i
  case xNop =>
    cases hh
    cases hw
    dsimp only [exec]
    exact runsWithinX_runX rfl rfl rfl (withinX_pure _)
  case xLi =>
    cases hh
    cases hw
    dsimp only [exec]
    exact runsWithinX_runX rfl rfl rfl withinX_wrX
  case xLih =>
    cases hh
    cases hw
    dsimp only [exec]
    exact runsWithinX_runX rfl rfl rfl <| withinX_rdX (.head _) fun _ => withinX_wrX
  case xAdd | xSub | xAnd | xOr | xXor | mul | shl | shr | sra | fmin | fmax | mulh | div | rem | min | max =>
    cases hh
    cases hw
    exact withinX_xBin rfl rfl rfl
  case xAddi | popc | clz =>
    cases hh
    cases hw
    exact withinX_xUn rfl rfl rfl
  case sel =>
    cases hh
    cases hw
    dsimp only [exec]
    exact runsWithinX_runX rfl rfl rfl <| withinX_rdX (.head _) fun _ => withinX_rdX (.tail _ (.head _)) fun _ =>
      withinX_rdP fun _ => withinX_wrX
  case cmp | fcmp =>
    cases hh
    cases hw
    dsimp only [exec]
    exact runsWithinX_runX rfl rfl rfl withinX_compare
  case plog =>
    cases hh
    cases hw
    dsimp only [exec]
    exact runsWithinX_runX rfl rfl rfl <| withinX_rdP fun _ => withinX_rdP fun _ => withinX_wrP
  case brp =>
    cases hh
    cases hw
    dsimp only [exec]
    exact runsWithinX_runX rfl rfl rfl <| withinX_getCore fun _ => withinX_rdP fun _ => withinX_pure _
  case xJmp =>
    cases hh
    cases hw
    dsimp only [exec]
    exact runsWithinX_runX rfl rfl rfl <| withinX_getCore fun _ => withinX_wrX
  case xJr =>
    cases hh
    cases hw
    dsimp only [exec]
    exact runsWithinX_runX rfl rfl rfl <| withinX_getCore fun _ => withinX_rdX (.head _) fun _ => withinX_wrX
  case loop =>
    cases hh
    cases hw
    dsimp only [exec]
    exact runsWithinX_runX rfl rfl rfl <| withinX_getCore fun _ => withinX_rdX (.head _) fun _ =>
      withinX_ite (withinX_pure _) withinX_wrX
  case xFtrd =>
    cases hh
    cases hw
    dsimp only [exec]
    exact runsWithinX_runX rfl rfl rfl <| withinX_readFt fun _ => withinX_wrX
  all_goals cases hw

theorem exec_executeRegWord {i : Instr} (s : State) (hh : i.hdr? = some (.x, h)) (hw : executeRegWord i = some (d, p, src, rounds)) :
    RunsWithinX i d p src rounds h s (exec i s) := by
  cases rounds with
  | true => exact exec_roundingRegWord s hh hw
  | false => exact exec_exactRegWord s hh hw

/-! ## Issue, and the move to the next word -/

/-- The issue of an X word keeps its frame: it takes its wait and gives its issue-time signal. -/
theorem execFrame_issueX {s t : State} {i : Instr} (hi : s.issueX i h = some t) : s.ExecFrame d p src rounds h t := by
  obtain ⟨k1, k2, hw, hs, rfl⟩ := issueX_takes hi
  have alone : k2 = { s.core s.cur with flags := k2.flags } := (issueSig_flags hs).trans (by rw [passWait_flags hw])
  refine .of_setCore ((Core.ExecFrame.of_flags (passWait_flags hw) (passWait_sameFlags hw)).trans
    (.of_flags (issueSig_flags hs) (issueSig_sameFlags hs))) fun _ => by rw [alone]

theorem execFrame_advanceX (k : Core) (fl : Flow) : k.ExecFrame d p src rounds h (k.advanceX fl) := by
  have inStream (r : Ring) : k.ExecFrame d p src rounds h (k.setRing .x r) := by
    refine .of_moved rfl (fun t other => ?_) fun _ _ => rfl
    refine vget_vset_other _ _ _ _ ?_
    cases t with
    | x => exact absurd rfl other
    | _ => decide
  cases fl with
  | stay => exact .refl k
  | next => exact inStream _
  | goto pos => exact inStream _

theorem xRes_advanceX (k : Core) (fl : Flow) : (k.advanceX fl).xRes = k.xRes := by cases fl <;> rfl

end

/-! ## What a fault leaves to be seen (R359, R371) -/

theorem xFault_halts (s : State) (w : Word) (f : Flt) : ((s.xFault w f).core s.cur).xHalt ≠ none := by
  unfold State.xFault
  dsimp only
  rw [core_onCore_same]
  nofun

/-- The completion-time signal of an X word whose stream goes on found room. -/
theorem xSignal_goesOn {s : State} {c : CoreId} {w : Issued} (halted : (s.core c).xHalt = none)
    (on : (((s.xSignal c w).getD s).core c).xHalt = none) :
    (s.xSignal c w).getD s = s ∨ ∃ v n k, (s.core c).completionSig (getSig w.word) = some (v, n) ∧ (s.core c).addFlag v n = .ok k ∧
      (s.xSignal c w).getD s = s.setCore c k := by
  cases hc : (s.core c).completionSig (getSig w.word) with
  | none => exact .inl (by rw [xSignal_none hc]; rfl)
  | some x =>
    obtain ⟨v, n⟩ := x
    cases ha : (s.core c).addFlag v n with
    | ok k => exact .inr ⟨v, n, k, rfl, ha, by rw [xSignal_ok hc ha]; rfl⟩
    | error old =>
      unfold State.xSignal at on
      simp only [hc, ha, halted, Option.isSome_none, Bool.false_eq_true, if_false, Option.getD_some] at on
      rw [core_onCore_same] at on
      cases on

theorem issueX_of_parts {s : State} {i : Instr} {h : Hdr} {k1 k2 : Core} (legal : badOperands i ||| (s.core s.cur).clauseBad h = 0)
    (ready : ¬ (!s.dueOk (s.core s.cur) .x || (s.core s.cur).xRowBusy (encodeWord i)) = true)
    (waited : (s.core s.cur).passWait h.wait = some k1) (signalled : k1.issueSig h.sig = .ok k2) :
    s.issueX i h = some (s.setCore s.cur k2) := by
  unfold State.issueX
  dsimp only
  rw [if_neg (not_not.2 legal), if_neg ready, waited]
  dsimp only
  rw [signalled]

/-- The run of an X word whose body ends or stalls, and whose stream goes on: nothing has happened, or the word has issued, run and
completed. -/
theorem runX_goesOn {i : Instr} {d : Reg} {p : Pred} {src : List Reg} {rounds : Bool} {h : Hdr} {bad : Core → Word} {body : M Flow}
    {s u : State} (hb : WithinX d p src rounds h body) (run : runX i h bad body s = .next u) (on : (u.core s.cur).xHalt = none) :
    u = s ∨ ∃ s1 fl t, s.issueX i h = some s1 ∧ body s1 = .ok fl t ∧ u = s.endX i fl t := by
  have fault (w : Word) (f : Flt) {P : Prop} (e : (Host.Outcome.next (s.xFault w f) : Out) = .next u) : P := by
    cases e
    exact absurd on (xFault_halts s w f)
  unfold runX at run
  dsimp only at run
  split at run
  · exact fault _ _ run
  next legal =>
  split at run
  · cases run
    exact .inl rfl
  next ready =>
  split at run
  · cases run
    exact .inl rfl
  next k1 waited =>
  split at run
  · obtain ⟨fl, t, ends, _⟩ | ⟨t, stalls⟩ := hb (s.setCore s.cur k1)
    · rw [ends] at run
      exact fault _ _ run
    · rw [stalls] at run
      cases run
      exact .inl rfl
  next k2 signalled =>
  have issued : s.issueX i h = some (s.setCore s.cur k2) :=
    issueX_of_parts (BitVec.or_eq_zero_iff.1 (not_not.1 legal)).1 ready waited signalled
  obtain ⟨fl, t, ends, _⟩ | ⟨t, stalls⟩ := hb (s.setCore s.cur k2)
  · rw [ends] at run
    cases run
    exact .inr ⟨_, fl, t, issued, ends, rfl⟩
  · rw [stalls] at run
    cases run
    exact .inl rfl

end Sys2Proof.Machine

/-! What an X word leaves unchanged once it has completed, or with its results to come (spec 15 R272, R276 to R287). -/

namespace Sys2Proof.Machine

section
variable {d : Reg} {p : Pred} {src : List Reg} {rounds : Bool} {h : Hdr}

/-! ## The end of the step -/

/-- The end of a step moves no more than the bookkeeping of lateness. -/
theorem execFrame_endLate (s : State) : s.ExecFrame d p src rounds h (s.endLate s.cur) where
  rest := (regFrame_endLate (d := 0) (src := []) (h := h) s).rest
  others := (regFrame_endLate (d := 0) (src := []) (h := h) s).others
  core := by
    rw [core_endLate_moved]
    exact .of_moved rfl (fun _ _ => rfl) fun _ _ => rfl
  atOnce _ := by rw [core_endLate_moved]

/-- The completion-time signal of a word whose stream goes on. -/
theorem execFrame_xSignal {s : State} {w : Issued} (sig : getSig w.word = h.sig) (running : (s.core s.cur).xHalt = none)
    (on : (((s.xSignal s.cur w).getD s).core s.cur).xHalt = none) : s.ExecFrame d p src rounds h ((s.xSignal s.cur w).getD s) := by
  obtain none | ⟨v, n, k, hc, ha, e⟩ := xSignal_goesOn running on
  · rw [none]
    exact .refl s
  · rw [e]
    refine .of_setCore (.of_flags (addFlag_flags ha) (addFlag_sameFlags (sigFlag_of_completionSig (sig ▸ hc)) ha)) fun _ => ?_
    rw [addFlag_flags ha]

/-! ## A word with results to come -/

/-- The core of a word that has issued and completes later: its results are taken into the words in progress, and an entry of XA is
reserved for each that goes there. -/
def Core.withLater (k : Core) (x : Issued) : Core :=
  { k with xProg := k.xProg ++ [{ x with res := k.xRes }], xRes := []
           xa := k.xa ++ (k.xRes.filter fun r => r.1 == .xa).map fun _ => none }

/-- A word that does not name XA reserves no entry of it. -/
theorem xa_withLater {k : Core} {x : Issued} (named : ∀ e ∈ k.xRes, XDest.Named d p e.1) (other : d ≠ 31) :
    (k.withLater x).xa = k.xa := by
  have none : (k.xRes.filter fun r => r.1 == .xa) = [] := by
    refine List.filter_eq_nil_iff.2 fun e listed => ?_
    obtain reg | pred | ⟨-, port⟩ := named e listed
    · rw [reg]; nofun
    · rw [pred]; nofun
    · exact absurd port other
  change k.xa ++ (k.xRes.filter fun r => r.1 == .xa).map (fun _ => Option.none) = k.xa
  rw [none, List.map_nil, List.append_nil]

/-- What an X word leaves of its core, with its results to come. -/
structure Core.Executed (d : Reg) (p : Pred) (src : List Reg) (rounds : Bool) (h : Hdr) (w : Issued) (k q : Core) : Prop where
  regs : ∀ r : Reg, r ≠ d → vget q.x r.toNat = vget k.x r.toNat
  preds : ∀ r : Pred, r ≠ p → vget q.p r.toNat = vget k.p r.toNat
  xa : d ≠ 31 → q.xa = k.xa
  ax : (31 : Reg) ∉ src → q.ax = k.ax
  lfsr : rounds = false → q.xLfsr = k.xLfsr ∧ q.xReload = k.xReload
  rest : q = q.movedFrom { k with x := q.x, p := q.p, ax := q.ax, xa := q.xa, xLfsr := q.xLfsr, xReload := q.xReload, xProg := q.xProg }
  results : q.xProg = k.xProg ∨ ∃ res, q.xProg = k.xProg ++ [{ w with res := res }] ∧ ∀ e ∈ res, XDest.Named d p e.1
  rings : ∀ t : Strm, t ≠ .x → q.ring t = k.ring t
  flags : q.sameFlags k h

/-- Within the frame and with no result kept, the word has completed. -/
theorem Core.Executed.of_frame {k q : Core} {w : Issued} (f : k.ExecFrame d p src rounds h q) (settled : q.xRes = k.xRes) :
    k.Executed d p src rounds h w q where
  regs := f.regs
  preds := f.preds
  xa := f.xa
  ax := f.ax
  lfsr := f.lfsr
  rest := f.rest.trans (by rw [settled, f.rest]; rfl)
  results := .inl (by rw [f.rest]; rfl)
  rings := f.rings
  flags := f.flags

/-- Its results taken into the words in progress, the step ends. -/
theorem Core.Executed.of_later {k m q : Core} {w : Issued} (none : k.xRes = []) (f : k.ExecFrame d p src rounds h m)
    (last : (m.withLater w).ExecFrame d p src rounds h q) (settled : q.xRes = []) : k.Executed d p src rounds h w q := by
  obtain ⟨res, kept, named⟩ := f.results
  rw [none, List.nil_append] at kept
  have taken : q.xProg = (m.withLater w).xProg := by rw [last.rest]; rfl
  have prog : q.xProg = k.xProg ++ [{ w with res := res }] := by
    rw [taken, ← kept]
    change m.xProg ++ _ = _
    rw [show m.xProg = k.xProg by rw [f.rest]; rfl]
  exact {
    regs := fun r other => (last.regs r other).trans (f.regs r other)
    preds := fun r other => (last.preds r other).trans (f.preds r other)
    xa := fun other => (last.xa other).trans ((xa_withLater (kept ▸ named) other).trans (f.xa other))
    ax := fun other => (last.ax other).trans (f.ax other)
    lfsr := fun exact0 => ⟨(last.lfsr exact0).1.trans (f.lfsr exact0).1, (last.lfsr exact0).2.trans (f.lfsr exact0).2⟩
    rest := last.rest.trans (by rw [settled.trans none.symm, taken, f.rest]; rfl)
    results := .inr ⟨res, prog, named⟩
    rings := fun t other => (last.rings t other).trans (f.rings t other)
    flags := fun j unnamed => by
      have num : (m.withLater w).flagNum = k.flagNum := by rw [f.rest]; rfl
      have base : (m.withLater w).flagBase = k.flagBase := by rw [f.rest]; rfl
      refine (last.flags j fun v n => ?_).trans (f.flags j unnamed)
      rw [num, base]
      exact unnamed v n }

/-! ## The frame of the whole word -/

theorem execFrame_moved {s t : State} {fl : Flow} (body : s.ExecFrame d p src rounds h t) :
    s.ExecFrame d p src rounds h (t.onCore s.cur fun q => q.advanceX fl) := by
  rw [← body.cur]
  exact body.trans (.of_setCore (execFrame_advanceX _ _) fun _ => xRes_advanceX _ _)

/-- The issued word names the pass, the context and the place that the word was issued with. -/
theorem issuedX_frame {k q : Core} (f : k.ExecFrame d p src rounds h q) (w : Word) (r : BitVec 13) : q.issuedX w r = k.issuedX w r := by
  rw [f.rest]
  rfl

/-- A completed word: its signal, and the end of the step. -/
theorem executed_atOnce {s m : State} {x : Issued} (sig : getSig x.word = h.sig)
    (moved : s.ExecFrame d p src rounds h m) (running : (s.core s.cur).xHalt = none)
    (on : ((((m.xSignal s.cur x).getD m).endLate s.cur).core s.cur).xHalt = none) :
    s.ExecFrame d p src rounds h (((m.xSignal s.cur x).getD m).endLate s.cur) := by
  have halt : (m.core m.cur).xHalt = none := by rw [moved.cur, moved.core.rest]; exact running
  rw [← moved.cur, core_endLate_moved] at on
  rw [← moved.cur]
  have signalled : m.ExecFrame d p src rounds h ((m.xSignal m.cur x).getD m) := execFrame_xSignal sig halt on
  have last : ((m.xSignal m.cur x).getD m).ExecFrame d p src rounds h _ := execFrame_endLate _
  rw [signalled.cur] at last
  exact moved.trans (signalled.trans last)

/-- What follows a body: the move, the completion or the results to come, and the end of the step. -/
theorem executed_endX {s t : State} {i : Instr} {fl : Flow} (later : isXSafe i = false) (sig : getSig (encodeWord i) = h.sig)
    (body : s.ExecFrame d p src rounds h t) (empty : (s.core s.cur).xRes = []) (running : (s.core s.cur).xHalt = none)
    (on : ((s.endX i fl t).core s.cur).xHalt = none) :
    (s.core s.cur).Executed d p src rounds h ((s.core s.cur).issuedX (encodeWord i) ((s.core s.cur).headWord .x))
        ((s.endX i fl t).core s.cur) ∧
      (s.endX i fl t).sameOthers s s.cur ∧ s.endX i fl t = { s with cores := (s.endX i fl t).cores } := by
  have moved : s.ExecFrame d p src rounds h (t.onCore s.cur fun q => q.advanceX fl) := execFrame_moved body
  unfold State.endX at on ⊢
  dsimp only at on ⊢
  generalize t.onCore s.cur (fun q => q.advanceX fl) = m at moved on ⊢
  have cur : m.cur = s.cur := moved.cur
  unfold State.xComplete at on ⊢
  rw [later, Bool.not_false, Bool.and_true] at on ⊢
  rw [cur, issuedX_frame moved.core] at on ⊢
  dsimp only at on ⊢
  cases here : s.lineOps.isSome with
  | false =>
    rw [here, if_neg Bool.false_ne_true] at on
    rw [if_neg Bool.false_ne_true]
    have whole := executed_atOnce (x := (s.core s.cur).issuedX (encodeWord i) ((s.core s.cur).headWord .x)) sig moved running on
    have now : s.lineOps = none := Option.isNone_iff_eq_none.1 (Option.isSome_eq_false_iff.1 here)
    exact ⟨.of_frame whole.core (whole.atOnce now), whole.others, whole.rest⟩
  | true =>
    rw [if_pos rfl]
    generalize (s.core s.cur).issuedX (encodeWord i) ((s.core s.cur).headWord .x) = x
    change (s.core s.cur).Executed d p src rounds h x (((m.onCore s.cur fun k => k.withLater x).endLate s.cur).core s.cur) ∧
      ((m.onCore s.cur fun k => k.withLater x).endLate s.cur).sameOthers s s.cur ∧
      (m.onCore s.cur fun k => k.withLater x).endLate s.cur =
        { s with cores := ((m.onCore s.cur fun k => k.withLater x).endLate s.cur).cores }
    have last : (m.onCore s.cur fun k => k.withLater x).ExecFrame d p src rounds h _ := execFrame_endLate _
    rw [cur_onCore, cur] at last
    have own := last.core
    rw [cur_onCore, cur, core_onCore_same] at own
    refine ⟨.of_later empty moved.core own ?_, fun c other => ?_, ?_⟩
    · rw [core_endLate_moved, core_onCore_same]
      rfl
    · rw [last.others c (by rw [cur_onCore, cur]; exact other), core_onCore_other _ _ _ _ other, moved.others c other]
    · rw [last.rest, State.onCore, State.setCore, moved.rest]

/-- No byte of memory is among what an X word moves. -/
theorem sameBytes_of_executed {s u : State} {w : Issued} (core : (s.core s.cur).Executed d p src rounds h w (u.core s.cur))
    (others : u.sameOthers s s.cur) (rest : u = { s with cores := u.cores }) : u.sameBytes s := by
  have stores (c : CoreId) : (u.core c).spad = (s.core c).spad ∧ (u.core c).side = (s.core c).side := by
    by_cases own : c = s.cur
    · rw [own, core.rest]
      exact ⟨rfl, rfl⟩
    · rw [others c own]
      exact ⟨rfl, rfl⟩
  have mem : u.mem = s.mem := by rw [rest]
  have boot : u.boot = s.boot := by rw [rest]
  intro a
  refine ⟨by rw [mem], by rw [mem], by rw [boot], fun c => ?_⟩
  rw [(stores c).1, (stores c).2]
  exact ⟨rfl, rfl⟩

end

/-- Settles O59: nothing has happened, or the issue, the body and what follows it have each kept the frame. -/
theorem executeRegisterFrame : Obligations.ExecuteRegisterFrame := by
  unfold Obligations.ExecuteRegisterFrame
  intro s u i h d p src rounds hh hw run k q running on empty
  have frame : k.Executed d p src rounds h (k.issuedX (encodeWord i) (k.headWord .x)) q ∧ u.sameOthers s s.cur ∧
      u = { s with cores := u.cores } := by
    obtain ⟨later, sig, bad, body, within, e⟩ := exec_executeRegWord s hh hw
    obtain rfl | ⟨s1, fl, t, issued, ends, rfl⟩ := runX_goesOn within (e.symm.trans run) on
    · exact ⟨.of_frame (.refl _) rfl, fun _ _ => rfl, rfl⟩
    · exact executed_endX later sig ((execFrame_issueX issued).trans (within.ok ends)) empty running on
  obtain ⟨core, others, rest⟩ := frame
  refine ⟨core.regs, core.preds, core.xa, core.ax, core.lfsr, core.rest, core.results, core.rings, core.flags, others,
    ⟨.inl ?_, ?_⟩, sameBytes_of_executed core others rest⟩
  · rw [rest]
  · rw [rest]

end Sys2Proof.Machine

/-! What a fault of a word leaves of its core: an A word's outside the handler (spec 23 R359, 14 R265, R266) and inside it (24 R376), an X
word's and an engine's head word's (23 R359, R360). -/

namespace Sys2Proof.Machine

/-! ## Faults of A words -/

/-- Outside the handler the core enters it at word 16; its wire rises where the fault's class raises it. -/
theorem core_aFault_enters {s : State} {w : Word} {f : Flt} (outside : (s.core s.cur).priv = false) :
    let k := s.core s.cur
    let q := (s.aFault w f).core s.cur
    q = { k.enterHandler (f.cls.setWidth 64) w (w64 f.laddr) (excRetWord (k.wdone && field w 62 2 != 0) (k.headWord .a)) 16 with
            monitor := q.monitor, scnt := q.scnt, scntAt := q.scntAt, scntRun := q.scntRun, wireInHandler := q.wireInHandler
            stall := k.stall || wireClass f.cls } := by
  intro k q
  have entered : (s.aFault w f).core s.cur = q := rfl
  unfold State.aFault State.raiseWire at entered
  dsimp only at entered
  rw [outside, if_neg Bool.false_ne_true] at entered
  cases wire : wireClass f.cls with
  | true =>
    rw [wire, if_pos rfl, core_syncWire] at entered
    simp only [core_onCore_same] at entered
    rw [core_also_appendFault] at entered
    rw [← entered, Bool.or_true]
    rfl
  | false =>
    rw [wire, if_neg Bool.false_ne_true, core_onCore_same, core_also_appendFault] at entered
    rw [← entered, Bool.or_false]
    rfl

theorem core_also_appendTo (t p : Nat) (r : Rec) (s : State) (c : CoreId) :
    (also (appendTo t p r) s).core c = { s.core c with monitor := ((also (appendTo t p r) s).core c).monitor } :=
  (keeps_also onlyMemory_order.toOrder (keeps_appendTo onlyMemory_order t p r) s).2 c

/-- Inside the handler the core stops, its wire high. -/
theorem core_aFault_stops {s : State} {w : Word} {f : Flt} (inside : (s.core s.cur).priv = true) :
    let q := (s.aFault w f).core s.cur
    q = { s.core s.cur with dead := true, stall := true, monitor := q.monitor, scnt := q.scnt, scntAt := q.scntAt, scntRun := q.scntRun } := by
  intro q
  have stopped : (s.aFault w f).core s.cur = q := rfl
  unfold State.aFault State.raiseWire at stopped
  dsimp only at stopped
  rw [inside, if_pos rfl, core_syncWire] at stopped
  simp only [core_onCore_same] at stopped
  rw [core_also_appendTo] at stopped
  rw [← stopped]

/-- What is recorded of a fault in the handler is one append to the queue of tag 0. -/
theorem aFault_records {s u : State} {w : Word} {f : Flt} (inside : (s.core s.cur).priv = true) :
    let k := s.core s.cur
    let r : Rec :=
      { pass := if k.current then k.passId else 0, owner := k.ctx, unit := 0, cont := 0, block := 63, cls := f.cls, wv := true
        core := s.cur, strm := 0, rword := k.headWord .a, laddr := f.laddr, d0 := f.d0, d1 := f.d1, word := w }
    appendTo 0 (panelOf s.cur) r s = .ok () u → (s.aFault w f).fqs = u.fqs ∧ (s.aFault w f).mem = u.mem := by
  intro k r appended
  have recorded : also (appendTo 0 (panelOf s.cur) r) s = u := by rw [also, appended]
  have stopped : s.aFault w f = (u.onCore s.cur fun k => { k with dead := true }).raiseWire s.cur := by
    rw [← recorded]
    exact if_pos inside
  rw [stopped]
  exact ⟨rfl, rfl⟩

/-! ## Faults of X words and of engine words -/

theorem core_xFault (s : State) (w : Word) (f : Flt) :
    let q := (s.xFault w f).core s.cur
    q = { s.core s.cur with xHalt := some .head, monitor := q.monitor } := by
  intro q
  have halted : (s.xFault w f).core s.cur = q := rfl
  unfold State.xFault at halted
  dsimp only at halted
  rw [core_onCore_same, core_also_appendFault] at halted
  rw [← halted]

theorem core_headFault (s : State) (c : CoreId) (t : Strm) (w : Issued) (f : Flt) :
    let q := (s.headFault c t w f).core c
    q = { (s.core c).haltEngine t (if w.entry.isSome then .entry w.word else .head) with monitor := q.monitor } := by
  intro q
  have halted : (s.headFault c t w f).core c = q := rfl
  unfold State.headFault at halted
  rw [core_onCore_same, core_also_appendFault] at halted
  rw [← halted]
  cases t <;> rfl

/-- Settles O55: the core that enters the handler, the core whose stream halts, and the engine that halts. -/
theorem faultEntries : Obligations.FaultEntries := by
  unfold Obligations.FaultEntries
  refine ⟨?access, core_xFault, ?engine⟩
  case access =>
    intro s w f k q outside
    have entered := core_aFault_enters (w := w) (f := f) outside
    have place : k.headWord .a = (k.ring .a).wordIdx (k.ring .a).fetch.toNat := by
      simp only [Core.headWord, Core.headPos, outside, Bool.and_false, Bool.false_eq_true, if_false]
    rw [← place]
    rw [show q = _ from entered]
    exact ⟨rfl, rfl, rfl, rfl, rfl, rfl, rfl, rfl, rfl, rfl, rfl, rfl, rfl, rfl, rfl, rfl, rfl, rfl, rfl⟩
  case engine =>
    intro s t w f engine k q plain
    have halted := core_headFault s s.cur t w f
    rw [plain] at halted
    rw [show q = _ from halted]
    obtain rfl | rfl | rfl := engine <;> exact ⟨rfl, rfl, rfl, rfl, rfl, rfl, rfl, rfl⟩

/-! ## A core that has stopped (R376) -/

theorem turnOf_dead {s : State} {c : CoreId} {t : Strm} (dead : (s.core c).dead = true) : turnOf c t s = .out (.next s) := by
  unfold turnOf
  dsimp only
  rw [dead, Bool.true_or]
  exact if_pos rfl

/-- No stream of a stopped core issues a word. -/
theorem streamTurn_dead {s : State} {c : CoreId} {t : Strm} (dead : (s.core c).dead = true) :
    streamTurn c t s = .next { s with cur := c } := by
  rw [streamTurn, turnOf_dead (s := { s with cur := c }) dead]

/-- The note of stalled streams is apart from the arbiter's place. -/
theorem stalled_of_arbiter {k q : Core} (h : q = { k with arbAt := q.arbAt, arbRank := q.arbRank }) (v : Vector Bool 5) :
    { q with stalled := v } = { k with arbAt := q.arbAt, arbRank := q.arbRank, stalled := v } :=
  congrArg (fun k : Core => { k with stalled := v }) h

/-- The turn of a stream of a stopped core changes nothing but the place of its core's arbiter and its note of stalled streams. -/
theorem act_dead {s : State} {c : CoreId} {t : Strm} (dead : (s.core c).dead = true) :
    ∃ u, act (.stream c t) s = .next u ∧ u = { s with cores := u.cores, cur := u.cur } ∧
      ∀ d, u.core d = { s.core d with arbAt := (u.core d).arbAt, arbRank := (u.core d).arbRank, stalled := (u.core d).stalled } := by
  cases first : s.outranked c t with
  | some w => exact ⟨s, act_outranked c t w s first, rfl, fun _ => rfl⟩
  | none =>
    rw [act_stream c t s first, takeStream]
    have reached := reach_core s (s.turnPlace (.stream c t))
    have rest : s.reach (s.turnPlace (.stream c t)) = { s with cores := (s.reach (s.turnPlace (.stream c t))).cores } := by
      cases s.turnPlace (.stream c t) <;> rfl
    generalize s.reach (s.turnPlace (.stream c t)) = r at reached rest
    have turn : streamTurn c t r = .next { r with cur := c } := streamTurn_dead (by rw [reached c]; exact dead)
    rw [turn]
    refine ⟨_, rfl, ?_, fun d => ?_⟩
    · rw [rest]
      rfl
    · by_cases own : d = c
      · subst own
        rw [core_onCore_same]
        exact stalled_of_arbiter (reached d) _
      · rw [core_onCore_other _ _ _ _ own]
        exact stalled_of_arbiter (reached d) (r.core d).stalled

/-- Settles O56: the fault stops the core and records, and no turn of a stopped core issues a word. -/
theorem faultInHandler : Obligations.FaultInHandler := by
  unfold Obligations.FaultInHandler
  refine ⟨?stops, ?silent⟩
  case stops =>
    intro s w f k t q r inside
    have stopped := core_aFault_stops (w := w) (f := f) inside
    have recorded (u : State) := aFault_records (u := u) (w := w) (f := f) inside
    rw [show q = _ from stopped]
    exact ⟨rfl, rfl, inside, rfl, rfl, rfl, rfl, rfl, recorded⟩
  case silent =>
    intro s s0 s1 u c t hu actor may passes dead
    obtain ⟨s2, acts, rest, cores⟩ := act_dead (s := { s1 with lineOps := u.lines }) (t := t) dead
    refine ⟨s2, ?_, rest, cores⟩
    rw [step_takeTurn, hu, takeTurn_mayPass may passes, actor]
    exact acts

end Sys2Proof.Machine

/-! The checks of an A word at decode and issue (spec 24 R365 to R370, R374). -/

namespace Sys2Proof.Machine

/-! ## Privileged words (R217, R268) -/

/-- The words of the A stream that run only in the handler. -/
def privWord : Instr → Bool
  | .rfe _ | .lptw _ _ | .ldrain _ _ | .lconf _ _ | .keyset _ _ | .keykill _ _ | .fmap _ _ | .ctxsv _ _ | .ctxld _ _ => true
  | .csrr _ o => csrPriv o.n.toNat
  | .csrw _ o => csrPriv o.n.toNat
  | _ => false

/-- The decode stage tells a privileged word by its opcode, CSRR and CSRW by their register. -/
theorem privOp_encodeWord {i : Instr} {h : Hdr} (hh : i.hdr? = some (.a, h)) : privOp (encodeWord i) = privWord i := by
  cases i
  case csrr g o =>
    have op : field (encodeWord (.csrr g o)) 40 8 = 0x62 := by
      rw [encodeWord_eq rfl rfl, opcode_append]
      rfl
    rw [privOp, decodeA_encodeWord (.csrr g o) g rfl rfl, op]
    rfl
  case csrw g o =>
    have op : field (encodeWord (.csrw g o)) 40 8 = 0x63 := by
      rw [encodeWord_eq rfl rfl, opcode_append]
      rfl
    rw [privOp, decodeA_encodeWord (.csrw g o) g rfl rfl, op]
    rfl
  all_goals cases hh
  all_goals
    rw [privOp, decodeA, encodeWord_eq rfl rfl, opcode_append]
    rfl

/-- `out` is what the run of an A word answers, its privilege as its decoding tells. -/
def RunsChecked (i : Instr) (h : Hdr) (s : State) (out : Out) : Prop := ∃ bad body, out = runA i h (privWord i) bad body s

theorem runsChecked_runA {i : Instr} {h : Hdr} {priv : Bool} {bad : Core → Word} {body : M Flow} {s : State} (told : privWord i = priv) :
    RunsChecked i h s (runA i h priv bad body s) := ⟨bad, body, by rw [told]⟩

theorem exec_checked {i : Instr} {h : Hdr} (s : State) (hh : i.hdr? = some (.a, h)) : RunsChecked i h s (exec i s) := by
  cases i
  all_goals cases hh
  all_goals
    dsimp only [exec, execAAdd, execAAddi, execASub, execAAnd, execAOr, execAXor, execShli, execShri, execLea, aBin, aUn, execBeq,
      execBne, execBlt, execBge, aBranch, execAadd, execAmax, execAmin, execAor, execAxchg, execAcas, aAtomic]
    exact runsChecked_runA rfl

/-! ## Checks before issue -/

theorem runA_privileged {i : Instr} {h : Hdr} {bad : Core → Word} {body : M Flow} {s : State} (outside : (s.core s.cur).priv = false) :
    runA i h true bad body s = .next (s.aFault (encodeWord i) { cls := 0x03, laddr := 0, d0 := 0, d1 := 0 }) := by
  unfold runA
  dsimp only
  rw [outside]
  exact if_pos rfl

theorem runA_badOperand {i : Instr} {h : Hdr} {priv : Bool} {bad : Core → Word} {body : M Flow} {s : State}
    (allowed : (priv && !(s.core s.cur).priv) = false) (offends : badOperands i ||| (s.core s.cur).clauseBad h ||| bad (s.core s.cur) ≠ 0) :
    runA i h priv bad body s = .next (s.aFault (encodeWord i)
      { cls := 0x04, laddr := 0, d0 := badOperands i ||| (s.core s.cur).clauseBad h ||| bad (s.core s.cur), d1 := 0 }) := by
  unfold runA
  dsimp only
  rw [allowed, if_neg Bool.false_ne_true]
  exact if_pos offends

/-- A mask holds the bits it is put together from. -/
theorem or_and_self_left (b c : Word) : (b ||| c) &&& b = b := by
  refine BitVec.eq_of_getLsbD_eq fun i _ => ?_
  rw [BitVec.getLsbD_and, BitVec.getLsbD_or]
  cases b.getLsbD i with
  | false => exact Bool.and_false _
  | true => exact Bool.and_true _

/-- An issued A word whose body ends in a fault faults. -/
theorem runA_faults {i : Instr} {h : Hdr} {bad : Core → Word} {body : M Flow} {s s1 t : State} {f : Flt} 
    (hi : s.issueA i h = some s1) (fine : bad (s.core s.cur) = 0) (ends : body s1 = .error (.fault f) t) :
    ∃ t g, runA i h false bad body s = .next (State.aFault t (encodeWord i) g) ∧ g.cls = f.cls := by
  have run := runA_issued (priv := false) (body := body) hi nofun fine
  rw [ends] at run
  exact ⟨_, f, run, rfl⟩

/-! ## Scratchpad addresses (R374) -/

theorem ldsPlace_misaligned {s : State} {sa : Word} {n : Nat} (inside : sa.toNat + n ≤ 786432) (off : sa.toNat % n ≠ 0) :
    ldsPlace sa n s = .error (.fault { cls := 0x0A, laddr := 0, d0 := sa, d1 := w64 n }) s :=
  then_ok (getCore_run s) <| pass_check (Nat.not_lt.2 inside) <| take_branch off <| bind_error rfl

theorem ldsPlace_engineBank {s : State} {sa : Word} {n : Nat} (inside : sa.toNat + n ≤ 786432) (aligned : sa.toNat % n = 0)
    (own : vget (s.core s.cur).owner (sa.toNat / 4096) = true) :
    ldsPlace sa n s = .error (.fault { cls := 0x06, laddr := 0, d0 := w64 (sa.toNat / 4096), d1 := 0 }) s :=
  then_ok (getCore_run s) <| pass_check (Nat.not_lt.2 inside) <| pass_check (not_not.2 aligned) <| take_branch own <| bind_error rfl

/-- LDS faults where its place in the scratchpad does. -/
theorem lds_faults {s s1 s2 t : State} {h : Hdr} {o : MOp} {b : Word} {f : Flt} (hi : s.issueA (.lds h o) h = some s1)
    (hb : rdA o.base s1 = .ok b s2) (inside : (b + sext64 o.off).toNat + 2 ^ o.size.toNat ≤ 786432)
    (place : ldsPlace (b + sext64 o.off) (2 ^ o.size.toNat) s2 = .error (.fault f) t) :
    ∃ t g, exec (.lds h o) s = .next (State.aFault t (encodeWord (.lds h o)) g) ∧ g.cls = f.cls := by
  obtain ⟨q, hq, rfl⟩ := issueA_core hi
  exact runA_faults hi (ldsBad_eq_zero (seeA_issued hq hb) inside) (then_ok (mAddr_ok hb) <| bind_error place)

/-- STS faults where its place in the scratchpad does. -/
theorem sts_faults {s s1 s2 s3 t : State} {h : Hdr} {o : MOp} {v b : Word} {f : Flt} (hi : s.issueA (.sts h o) h = some s1)
    (hv : rdA o.reg s1 = .ok v s2) (hb : rdA o.base s2 = .ok b s3) (inside : (b + sext64 o.off).toNat + 2 ^ o.size.toNat ≤ 786432)
    (place : ldsPlace (b + sext64 o.off) (2 ^ o.size.toNat) s3 = .error (.fault f) t) :
    ∃ t g, exec (.sts h o) s = .next (State.aFault t (encodeWord (.sts h o)) g) ∧ g.cls = f.cls := by
  obtain ⟨q, hq, rfl⟩ := issueA_core hi
  have seen : (s.core s.cur).seeA [o.reg, o.base] = some b := by
    have issued := (seeA_past_rdA hv o.base []).trans (seeA_of_rdA hb)
    rw [cur_setCore, core_setCore_same] at issued
    exact (seeA_alike _ (by rw [hq]) (by rw [hq])).symm.trans issued
  exact runA_faults hi (ldsBad_eq_zero seen inside) (then_ok hv <| then_ok (mAddr_ok hb) <| bind_error place)

/-- The banks of the core are as at the word's issue once it has read its registers. -/
theorem owner_issued_rdA {s s2 : State} {i : Instr} {h : Hdr} {r : Reg} {v : Word} {t : State} (hi : s.issueA i h = some t)
    (hr : rdA r t = .ok v s2) : s2.cur = s.cur ∧ (s2.core s2.cur).owner = (s.core s.cur).owner := by
  obtain ⟨q, hq, rfl⟩ := issueA_core hi
  have cur : s2.cur = s.cur := (cur_of_rdA hr).trans (cur_setCore ..)
  exact ⟨cur, by rw [cur, core_issued_rdA hq hr]⟩

/-- Settles O57: the two checks before the issue, the places of LDS and STS, and the unassigned opcode. -/
theorem accessChecks : Obligations.AccessChecks := by
  unfold Obligations.AccessChecks
  refine ⟨?privileged, ?operands, ?ldsAligned, ?ldsBank, ?sts, fun _ _ _ => rfl⟩
  case privileged =>
    intro s i h hh op outside
    obtain ⟨bad, body, run⟩ := exec_checked s hh
    rw [← privOp_encodeWord hh, op] at run
    exact run.trans (runA_privileged outside)
  case operands =>
    intro s i h hh allowed b offends
    obtain ⟨bad, body, run⟩ := exec_checked s hh
    rw [← privOp_encodeWord hh] at run
    have may : (privOp (encodeWord i) && !(s.core s.cur).priv) = false := by
      cases op : privOp (encodeWord i) with
      | false => rfl
      | true => rw [allowed op]; rfl
    have more : b ||| bad (s.core s.cur) ≠ 0 := fun none => offends (BitVec.or_eq_zero_iff.1 none).1
    exact ⟨b ||| bad (s.core s.cur), or_and_self_left b _, run.trans (runA_badOperand may more)⟩
  case ldsAligned =>
    intro s s1 s2 h o b hi hb a inside off
    exact lds_faults hi hb inside (ldsPlace_misaligned inside off)
  case ldsBank =>
    intro s s1 s2 h o b hi hb a inside aligned own
    refine lds_faults hi hb inside (ldsPlace_engineBank inside aligned ?_)
    rw [(owner_issued_rdA hi hb).2]
    exact own
  case sts =>
    intro s s1 s2 s3 h o v b hi hv hb a inside
    refine ⟨fun off => sts_faults hi hv hb inside (ldsPlace_misaligned inside off), fun aligned own => ?_⟩
    refine sts_faults hi hv hb inside (ldsPlace_engineBank inside aligned ?_)
    obtain ⟨cur2, owner2⟩ := owner_issued_rdA hi hv
    rw [cur_of_rdA hb, core_of_rdA hb]
    exact (congrArg (vget · (a / 4096)) owner2).trans own

end Sys2Proof.Machine

/-! WLOAD leaves its rows to be set into its stage at completion (spec 16 R298). -/

namespace Sys2Proof.Machine

/-- A word whose effects come at one time performs them as it issues, unless the step makes no line operation. -/
theorem opsNow_whole {s : State} {e : EWord} {c : CoreId} {ds : List Dsc} (h : e.later s c ds = .whole) (hl : s.lineOps ≠ some 0) :
    s.opsNow e c ds = none := by
  unfold State.opsNow
  rw [h]
  cases ops : s.lineOps with
  | none => rfl
  | some n =>
    cases n with
    | zero => exact absurd ops hl
    | succ n => rfl

/-- A word of one effect that takes nothing more at issue, from what the effect makes of itself and of the state. -/
theorem whole_issuesTo {s s1 t : State} {i : Instr} {e : EWord} {w w' : Issued} (hp : e.prep = pure)
    (later : e.later = wholeLater) (now : s.lineOps ≠ some 0) (hi : s.issueE i e = some (w, s1)) (hx : exec i s = runE i e s)
    (hr : e.body { w with todo := true } s1 = .ok { w' with todo := true } t)
    (hw : w'.todo = false ∧ w'.ops = [] ∧ w'.lines = [] ∧ w'.own = none) : IssuesTo i s e.strm w' t := by
  obtain ⟨-, ⟨-, ops, -, own, env⟩, k, rfl, -⟩ := issueE_cases hp hi
  obtain ⟨todo', ops', lines', own'⟩ := hw
  have whole : (s.setCore s.cur k).opsNow e s.cur w.dscs = none := opsNow_whole (by rw [later]; rfl) now
  unfold IssuesTo
  rw [hx, runE_ok i e s _ t w _ hi whole ops env own hr]
  congr 2
  rw [← todo', ← ops', ← lines', ← own']

/-- Settles O25: the rows read are the stage to be set. -/
theorem weightLoad : Obligations.WeightLoad := by
  unfold Obligations.WeightLoad
  intro s s1 s2 h o w rows hi now hr
  obtain ⟨-, ⟨todo, ops, lines, own, -⟩, k, rfl, -⟩ := issueE_cases rfl hi
  refine whole_issuesTo (e := wloadWord h o) rfl rfl now hi rfl ?_ ⟨todo, ops, lines, own⟩
  exact then_ok (getState_run _) <| then_ok hr rfl

end Sys2Proof.Machine

/-! The frame of AST names the engines of all streams but its own, and the engine of streams A and X is the M engine (spec 16 R304). -/

namespace Sys2Proof.Machine

/-- A word that has issued on the M engine stands last among its words in progress. -/
theorem prog_endE (s : State) (c : CoreId) (w : Issued) : ((s.endE c .m w).core c).m.prog = (s.core c).m.prog ++ [w] := by
  unfold State.endE
  rw [core_endLate_moved, core_onCore_same, core_undrain]
  rfl

/-- Two rows of the accumulators that AST stores into the scratchpad, on an idle M engine. -/
def storingState : State := Tests.withD .m [Tests.spadD 2 4 0, Tests.accD 2 4 0] Tests.sE

/-- The AST of those rows. -/
def storingWord : D2Conv := { d0 := 0, d1 := 1, pass := none, sat := false, rnd := 0 }

/-- The AST issues in that state, and the step goes on. -/
theorem storingWord_goesOn : storingState.canonical = true ∧ storingState.allClean = true ∧
    ∃ w s1 t, storingState.issueE (.ast Tests.h1 storingWord) (astWord Tests.h1 storingWord) = some (w, s1) ∧
      exec (.ast Tests.h1 storingWord) storingState = .next t := by
  have met := Tests.VectorFrame_met
  dsimp only at met
  rw [Bool.and_eq_true] at met
  obtain ⟨-, met⟩ := met
  change (storingState.canonical && storingState.allClean && Tests.metE (.ast Tests.h1 storingWord) storingState _) = true at met
  rw [Bool.and_eq_true, Bool.and_eq_true] at met
  obtain ⟨⟨canonical, clean⟩, goes⟩ := met
  have entry : engineWord (.ast Tests.h1 storingWord) = some (astWord Tests.h1 storingWord) := rfl
  rw [Tests.metE, entry, Tests.thenS] at goes
  refine ⟨canonical, clean, ?_⟩
  cases issued : storingState.issueE (.ast Tests.h1 storingWord) (astWord Tests.h1 storingWord) with
  | none =>
    rw [issued, Tests.thenS] at goes
    cases goes
  | some x =>
    rw [issued, Tests.thenS, Bool.and_eq_true] at goes
    obtain ⟨-, goes⟩ := goes
    split at goes
    · next t ran => exact ⟨x.1, x.2, t, rfl, ran⟩
    · cases goes

/-- Refutes O30: AST of two rows issues on the M engine and goes on. The statement has every engine as before but that of stream `.m`, and
`Core.engine` gives the M engine for stream `.a` too, so it has AST's own engine as before, where AST now stands in progress. -/
theorem not_vectorFrame : ¬ Obligations.VectorFrame := by
  unfold Obligations.VectorFrame
  intro holds
  obtain ⟨canonical, clean, w, s1, t, issued, ran⟩ := storingWord_goesOn
  have idle : (storingState.core storingState.cur).m.prog = [] := rfl
  have whole : storingState.lineOps = none := rfl
  obtain ⟨-, cores, -, -, -, w', u, rfl, -⟩ := holds storingState s1 t (.ast Tests.h1 storingWord) (astWord Tests.h1 storingWord) w
    (.inr ⟨Tests.h1, storingWord, rfl⟩) rfl issued canonical clean (by rw [whole]; nofun) ran
  obtain ⟨-, others, -⟩ := cores storingState.cur
  have same : ((u.endE storingState.cur .m w').core storingState.cur).m = (storingState.core storingState.cur).m := others .a nofun
  have listed := prog_endE u storingState.cur w'
  rw [same, idle] at listed
  exact absurd listed.symm (List.append_ne_nil_of_right_ne_nil _ (List.cons_ne_nil w' []))

end Sys2Proof.Machine

/-! Vector words complete whatever the formats of their rows, those of class 8 too, for which the values are free (spec 17 R310 to R319, log 64). -/

namespace Sys2Proof.Machine

/-! ## A vector word at work -/

/-- `u` is a state that a word on chip, issued in `s` and at the start of its effects in `s1`, may come to. -/
structure State.midWord (s s1 u : State) : Prop where
  work : s.atWork u
  frame : u.engineFrame s1

/-- An operand on chip whose rows all have a format. -/
structure State.formatted (s : State) (d : Dsc) (slot : Nat) : Prop where
  chip : onChip d
  rows : ∀ j < dRows d, (Fmt.parse (s.rowEnc s.cur d slot j)).isSome = true

section
variable {α β : Type} {s s1 : State}

theorem atWork_sawMore {t u : State} (h : t.sawMore u) (hu : s.atWork u) : s.atWork t where
  chip := by
    refine ⟨(cur_sawMore h).trans hu.chip.cur, fun q => ?_, fun q => ?_⟩
    · rw [h.2 q]
      exact hu.chip.clean q
    · have same := hu.chip.same q
      rw [h.2 q]
      exact ⟨same.fmtSlot, same.bankFmt, same.accMode, same.bobbins, same.clean⟩
  log := (opLog_sawMore h).trans hu.log

theorem midWord_sawMore {t u : State} (h : t.sawMore u) (hu : s.midWord s1 u) : s.midWord s1 t :=
  ⟨atWork_sawMore h hu.work, engineFrame_sawMore h hu.frame⟩

/-- An action that ends in one state, but for what the panel has come to see, lands where that state is one of the word's. -/
theorem lands_of_sees {act : M α} {v : State → State} {Q : α → Prop} (h : ∀ u, s.midWord s1 u → Sees u act (v u) Q)
    (hv : ∀ u, s.midWord s1 u → s.midWord s1 (v u)) : Lands (s.midWord s1) act Q := by
  intro u hu
  obtain ⟨a, t, e, ht, ha⟩ := h u hu u (sawMore_refl u)
  exact ⟨a, t, e, midWord_sawMore ht (hv u hu), ha⟩

/-- An action that changes nothing, but for what the panel has come to see. -/
theorem lands_of_reads {act : M α} {Q : α → Prop} (h : ∀ u, s.midWord s1 u → Sees u act u Q) : Lands (s.midWord s1) act Q :=
  lands_of_sees h fun _ hu => hu

section
variable {P : State → Prop}

theorem lands_state {f : State → M β} {R : β → Prop} (h : ∀ s, P s → Lands P (f s) R) : Lands P (getState >>= f) R :=
  lands_bind lands_getState h

theorem lands_choice {b : Bool} {x y : M α} {f : α → M β} {R : β → Prop} (hx : b = true → Lands P x fun _ => True)
    (hy : b = false → Lands P y fun _ => True) (hf : ∀ a, Lands P (f a) R) : Lands P (if b = true then x >>= f else y >>= f) R := by
  cases b with
  | true => exact lands_bind (hx rfl) fun a _ => hf a
  | false => exact lands_bind (hy rfl) fun a _ => hf a

theorem lands_atPlace {act : M α} {Q : α → Prop} (p : Perf) (h : Lands P act Q) : Lands P (atPlace p act) Q :=
  lands_bind (lands_attempt h) fun _ ⟨_, e, ha⟩ => by
    rw [e]
    exact lands_pure ha

theorem lands_ownRow {act : M α} {Q : α → Prop} (c : CoreId) (t : Strm) (x : Issued) (p : Pass) (b : Nat) (h : Lands P act Q) :
    Lands P (ownRow c t x p b act) fun r => ∃ a, r = some a ∧ Q a :=
  lands_bind (lands_attempt h) fun _ ⟨a, e, ha⟩ => by
    rw [e]
    exact lands_pure ⟨a, rfl, ha⟩

theorem lands_foldlM {γ : Type} {f : β → γ → M β} {Q : β → Prop} (l : List γ) (h : ∀ x ∈ l, ∀ b, Q b → Lands P (f b x) Q) {b : β}
    (hb : Q b) : Lands P (l.foldlM f b) Q := by
  induction l generalizing b with
  | nil => exact lands_pure hb
  | cons x l ih =>
    rw [List.foldlM_cons]
    exact lands_bind (h x List.mem_cons_self b hb) fun b' hb' => ih (fun y hy => h y (List.mem_cons_of_mem x hy)) hb'

end

/-! ## Rows -/

/-- A row of an operand on chip is read, in the format it had at issue. -/
theorem lands_readFormatted {d : Dsc} {slot j : Nat} (b first : Nat) (hd : s.formatted d slot) (hj : j < dRows d) :
    Lands (s.midWord s1) (readRow s.cur d slot j b first) fun r => r.2 = s.rowEnc s.cur d slot j := by
  obtain ⟨f, hf⟩ := Option.isSome_iff_exists.1 (hd.rows j hj)
  exact lands_of_reads fun u hu => sees_weaken (sees_readRow hu.work b first hd.chip hf) fun r e => by rw [e]

theorem lands_freeWord : Lands (s.midWord s1) freeWord fun _ => True :=
  fun _ hu => ⟨_, _, rfl, ⟨atWork_free hu.work _, engineFrame_free hu.frame _⟩, trivial⟩

/-- The values of a row: as they stand, or free where the row is of class 8. -/
theorem lands_readVals {d : Dsc} {slot j : Nat} (b first : Nat) (hd : s.formatted d slot) (hj : j < dRows d) :
    Lands (s.midWord s1) (readVals s.cur d slot j b first) fun _ => True := by
  obtain ⟨f, hf⟩ := Option.isSome_iff_exists.1 (hd.rows j hj)
  refine lands_bind (lands_readFormatted b first hd hj) fun r he => ?_
  obtain ⟨r, enc⟩ := r
  obtain rfl : enc = _ := he
  simp only [hf]
  split
  · refine lands_mapM _ fun _ _ => ?_
    exact lands_bind lands_freeWord fun _ _ => lands_pure trivial
  · exact lands_pure trivial

theorem lands_vRead {w : Issued} {n j : Nat} (hd : s.formatted (w.dsc n) (w.slot n)) (hj : j < dRows (w.dsc n)) :
    Lands (s.midWord s1) (vRead w n j) fun _ => True := by
  refine lands_state fun t ht => ?_
  dsimp only
  rw [ht.work.chip.cur]
  exact lands_bind (lands_readVals 0 0 hd hj) fun _ _ => lands_pure trivial

theorem lands_writeVals {t : Strm} {d : Dsc} {slot j : Nat} (mode : Mode) (sat : Bool) (vs : List Val) {p : Perf}
    (hd : s.formatted d slot) (hj : j < dRows d) (hp : p.resume = 0) :
    Lands (s.midWord s1) (writeVals s.cur t d slot j 0 0 mode sat vs p) (·.resume = 0) :=
  lands_of_sees (fun _ hu => sees_storeVals hu.work 0 0 mode sat vs hd.chip (hd.rows j hj) hp) fun _ hu =>
    ⟨atWork_storeVals hu.work _ _ _ _ _ _ _ _, engineFrame_storeVals hu.frame _ _ _ _ _ _ _ _⟩

theorem lands_roundMode (c : CoreId) (r : BitVec 3) : Lands (s.midWord s1) (engMode c r) fun _ => True :=
  lands_of_reads fun _ _ => sees_weaken (sees_engMode c r) fun _ _ => trivial

theorem lands_parked (c : CoreId) (p : Pass) (i : Nat) : Lands (s.midWord s1) (parkedNow c p i) fun _ => True :=
  lands_state fun _ _ => lands_pure trivial

/-- One row: left out where it is parked, else read and written. -/
theorem lands_oneRow {c : CoreId} {t : Strm} {w : Issued} {pass : Pass} {parked : M Bool} {b n : Nat} {read : M α}
    {write : α → Perf → M Perf} {p : Perf} (hp : p.resume = 0) (hk : Lands (s.midWord s1) parked fun _ => True)
    (hr : Lands (s.midWord s1) read fun _ => True) (hw : ∀ a, Lands (s.midWord s1) (write a p) (·.resume = 0)) :
    Lands (s.midWord s1) (oneRow c t w pass parked b n read write p) (·.resume = 0) := by
  unfold oneRow
  rw [skipRow_start hp, if_neg Bool.false_ne_true]
  refine lands_bind hk fun k _ => ?_
  split
  · exact lands_pure hp
  refine lands_bind (lands_ownRow _ _ _ _ _ (lands_atPlace p hr)) fun r ⟨a, hra, _⟩ => ?_
  rw [hra]
  refine lands_bind hk fun k _ => ?_
  split
  · exact lands_pure hp
  refine lands_bind (lands_ownRow _ _ _ _ _ (lands_atPlace p (hw a))) fun r ⟨q, hrq, hq⟩ => ?_
  rw [hrq]
  exact lands_pure hq

/-- Rows one after another, from the start of the word's effects. -/
theorem lands_rows {n : Nat} {f : Nat → Perf → M Perf} (h : ∀ i < n, ∀ p, p.resume = 0 → Lands (s.midWord s1) (f i p) (·.resume = 0))
    {p : Perf} (hp : p.resume = 0) : Lands (s.midWord s1) (copyRows n f p) (·.resume = 0) := by
  rw [copyRows_eq]
  refine lands_foldlM _ (fun i hi p hp u hu => ?_) hp
  have row : Lands (s.midWord s1) newRow fun _ => True := lands_of_reads fun u hu => sees_newRow hu.work.log
  obtain ⟨a, t, e, ht, ha⟩ := lands_bind row (fun _ _ => h i (List.mem_range.1 hi) p hp) u hu
  refine ⟨a, t, ?_, ht, ha⟩
  unfold copyStep
  rw [e]

/-- Rows of d0 written from values that are read. -/
theorem lands_vRows {w : Issued} (hw : w.resume = 0) (hd : s.formatted (w.dsc 0) (w.slot 0)) {p : Pass} {rnd : BitVec 3} {sat : Bool}
    {own : Nat → Nat → M (List Val)} (h : ∀ i < dRows (w.dsc 0), ∀ b, Lands (s.midWord s1) (own i b) fun _ => True) :
    Lands (s.midWord s1) (vRows w p rnd sat (dRows (w.dsc 0)) own) fun _ => True := by
  refine lands_state fun t ht => ?_
  dsimp only
  rw [ht.work.chip.cur]
  refine lands_bind (lands_roundMode _ _) fun mode _ => ?_
  refine lands_bind (lands_rows (fun i hi q hq => ?_) hw) fun _ _ => lands_pure trivial
  exact lands_state fun t _ => lands_oneRow hq (lands_parked _ _ _) (h i hi _) fun vs => lands_writeVals _ _ vs hd hi hq

end

/-! ## The start of a vector word -/

/-- What holds of a vector word at the start of its effects, whatever the formats of its rows. -/
structure VBegun (s s1 : State) (ops : List EOp) (check : Bool → State → CoreId → List Dsc → Word) (w : Issued) : Prop where
  resume : w.resume = 0
  operand : ∀ n < ops.length, s.formatted (w.dsc n) (w.slot n)
  check : ∀ issue, check issue s s.cur w.dscs = 0
  core : (s.core s.cur).issuesTo (s1.core s.cur)

theorem vBegun {s s1 : State} {i : Instr} {h : Hdr} {ops : List EOp} {p : Pass} {check : Bool → State → CoreId → List Dsc → Word}
    {body : Issued → M Unit} {w : Issued} (ho : ∀ o ∈ ops, descField o.at0)
    (hi : s.issueE i (vWord h ops p check body) = some (w, s1)) (ha : s.allClean = true) :
    Started s i (vWord h ops p check body) w ∧ VBegun s s1 ops check w ∧ s.midWord s1 s1 := by
  obtain ⟨hs, k, rfl, hk⟩ := started_plain (e := vWord h ops p check body) rfl hi
  refine ⟨hs, ⟨hs.resume, fun n hn => ?_, fun issue => (BitVec.or_eq_zero_iff.1 (hs.check issue)).2, ?_⟩,
    atWork_setCore ha (chipAs_of_issuesTo hk), engineFrame_refl _⟩
  · have field : descField ops[n].at0 := ho _ (List.getElem_mem hn)
    obtain ⟨limits, banks⟩ := operand_ok hs hn field
    have named : (ops[n].at0, w.dsc n) ∈ (ops.map (·.at0)).zip w.dscs := by
      rw [List.zip_map_left]
      exact List.mem_map.2 ⟨_, operand_mem hs hn, rfl⟩
    have kind := (BitVec.or_eq_zero_iff.1 (vOperand_zero (BitVec.or_eq_zero_iff.1 (hs.check false)).1 named)).1
    have chip : onChip (w.dsc n) := onChip_of_kind limits (by simpa using false_of_descField field kind)
    exact ⟨chip, fun j hj => rowEnc_parses chip limits banks (w.slot n) j hj⟩
  · rw [core_setCore_same]
    exact hk

/-- A vector word goes on once it issues while no check fails over the cores' stores, and leaves what `engineFrame` names as it was. -/
def VectorCompletes {ω : Type} (mk : Hdr → ω → Instr) (e : Hdr → ω → EWord) : Prop :=
  ∀ (s s1 : State) (h : Hdr) (o : ω) (w : Issued), s.issueE (mk h o) (e h o) = some (w, s1) → s.allClean = true → s.lineOps ≠ some 0 →
    ∃ w' t, IssuesTo (mk h o) s .v w' t ∧ t.engineFrame s1 ∧ w' = { w with deferred := bobEnds .v (e h o).ops w.dscs }

/-- A vector word completes from its body's landing. -/
theorem vector_completes {ω : Type} {mk : Hdr → ω → Instr} {e : Hdr → ω → EWord} {ops : ω → List EOp} {p : ω → Pass}
    {check : ω → Bool → State → CoreId → List Dsc → Word} {body : ω → Issued → M Unit}
    (he : ∀ h o, engineWord (mk h o) = some (e h o)) (hw : ∀ h o, e h o = vWord h (ops o) (p o) (check o) (body o))
    (ho : ∀ o, ∀ x ∈ ops o, descField x.at0)
    (hb : ∀ s s1 o x, VBegun s s1 (ops o) (check o) x → Lands (s.midWord s1) (body o x) fun _ => True) : VectorCompletes mk e := by
  intro s s1 h o w hi ha hl
  have entry : engineWord (mk h o) = some (vWord h (ops o) (p o) (check o) (body o)) := (he h o).trans (congrArg some (hw h o))
  rw [hw] at hi ⊢
  obtain ⟨started, begun, mid⟩ := vBegun (ho o) hi ha
  obtain ⟨_, t, ran, landed, _⟩ := hb s s1 o { w with todo := true } ⟨begun.resume, begun.operand, begun.check, begun.core⟩ s1 mid
  refine ⟨_, t, issuesTo_run (e := vWord h (ops o) (p o) (check o) (body o))
    (w' := { w with deferred := bobEnds .v (ops o) w.dscs }) entry hi hl (fun _ _ _ => rfl) started.fresh started.fresh ?_, landed.frame, rfl⟩
  exact then_ok ran rfl

end Sys2Proof.Machine

/-! The bodies of the vector words, each landing from what its check gives of its shapes (spec 17 R313 to R319). -/

namespace Sys2Proof.Machine

section
variable {α β : Type} {s s1 : State}

/-! ## Operands that may be one row (R313) -/

/-- The one row of an operand under BR or BC. -/
theorem lands_oneSide {w : Issued} {one : Bool} {n r : Nat} {f : List Val → M β} {R : β → Prop}
    (hd : s.formatted (w.dsc n) (w.slot n)) (hn : dRows (w.dsc n) = if one then 1 else r) (hf : ∀ a, Lands (s.midWord s1) (f a) R) :
    Lands (s.midWord s1) (if one = true then vRead w n 0 >>= f else pure [] >>= f) R := by
  refine lands_choice (fun h => ?_) (fun _ => lands_pure trivial) hf
  rw [if_pos h] at hn
  exact lands_vRead hd (by rw [hn]; exact Nat.one_pos)

/-- That row, or row `j` of the operand. -/
theorem lands_side {w : Issued} {one : Bool} {n r j : Nat} {a : List Val} {f : List Val → M β} {R : β → Prop}
    (hd : s.formatted (w.dsc n) (w.slot n)) (hn : dRows (w.dsc n) = if one then 1 else r) (hj : j < r)
    (hf : ∀ a, Lands (s.midWord s1) (f a) R) :
    Lands (s.midWord s1) (if one = true then pure a >>= f else vRead w n j >>= f) R := by
  refine lands_choice (fun _ => lands_pure trivial) (fun h => ?_) hf
  rw [h, if_neg Bool.false_ne_true] at hn
  exact lands_vRead hd (by rw [hn]; exact hj)

/-! ## What the start of a word leaves of its core's header (R69) -/

theorem blocksOf_midWord {t : State} {c : CoreId} (h : s.midWord s1 t) (hc : (s.core c).issuesTo (s1.core c)) (p : Pass) (rows : Nat) :
    (t.core c).blocksOf p rows = (s.core c).blocksOf p rows := by
  have frame : (t.core c).engineFrame (s1.core c) := h.frame.2 c
  unfold Core.engineFrame at frame
  rw [frame, hc]
  rfl

theorem hdrBlocks_midWord {t : State} {c : CoreId} (h : s.midWord s1 t) (hc : (s.core c).issuesTo (s1.core c)) :
    (t.core c).hdrBlocks = (s.core c).hdrBlocks := by
  have frame : (t.core c).engineFrame (s1.core c) := h.frame.2 c
  unfold Core.engineFrame at frame
  rw [frame, hc]
  rfl

end

/-! ## Elementwise words (R313) -/

theorem completes_vBin {mk : Hdr → VBinOp → Instr} {f : VBin} (he : ∀ h o, engineWord (mk h o) = some (vBinWord h o f)) :
    VectorCompletes mk fun h o => vBinWord h o f := by
  refine vector_completes he (fun _ _ => rfl) (fun _ => fields_three _ _ _) fun s s1 o x start => ?_
  obtain ⟨shapes, -⟩ := BitVec.or_eq_zero_iff.1 (start.check false)
  obtain ⟨shape1, shape2⟩ := BitVec.or_eq_zero_iff.1 shapes
  have rows1 := (rows_of_shapeBad (.inr (.inl rfl)) shape1).1
  have rows2 := rows_of_sideShape (.inr (.inr (.inl rfl))) shape2
  refine lands_oneSide (start.operand 2 (by simp)) rows2 fun one => ?_
  refine lands_vRows start.resume (start.operand 0 (by simp)) fun i hi b => ?_
  refine lands_bind (lands_vRead (start.operand 1 (by simp)) (lt_of_lt_of_eq hi rows1.symm)) fun a _ => ?_
  exact lands_side (start.operand 2 (by simp)) rows2 hi fun _ => lands_pure trivial

theorem completes_vfma : VectorCompletes .vfma vfmaWord := by
  refine vector_completes (fun _ _ => rfl) (fun _ _ => rfl) (fun _ => fields_four _ _ _ _) fun s s1 o x start => ?_
  obtain ⟨shapes, -⟩ := BitVec.or_eq_zero_iff.1 (start.check false)
  obtain ⟨shapes, shape3⟩ := BitVec.or_eq_zero_iff.1 shapes
  obtain ⟨shape1, shape2⟩ := BitVec.or_eq_zero_iff.1 shapes
  have rows1 := (rows_of_shapeBad (.inr (.inl rfl)) shape1).1
  have rows2 := rows_of_sideShape (.inr (.inr (.inl rfl))) shape2
  have rows3 := rows_of_sideShape (.inr (.inr (.inr rfl))) shape3
  refine lands_oneSide (start.operand 2 (by simp)) rows2 fun one => lands_oneSide (start.operand 3 (by simp)) rows3 fun two => ?_
  refine lands_vRows start.resume (start.operand 0 (by simp)) fun i hi b => ?_
  refine lands_bind (lands_vRead (start.operand 1 (by simp)) (lt_of_lt_of_eq hi rows1.symm)) fun a _ => ?_
  exact lands_side (start.operand 2 (by simp)) rows2 hi fun _ => lands_side (start.operand 3 (by simp)) rows3 hi fun _ => lands_pure trivial

theorem completes_vUn {mk : Hdr → D2Conv → Instr} {f : Val → Val} (he : ∀ h o, engineWord (mk h o) = some (vUnWord h o f)) :
    VectorCompletes mk fun h o => vUnWord h o f := by
  refine vector_completes he (fun _ _ => rfl) (fun _ => fields_two _ _) fun s s1 o x start => ?_
  have rows1 := (rows_of_shapeBad (.inr (.inl rfl)) (BitVec.or_eq_zero_iff.1 (start.check false)).1).1
  refine lands_vRows start.resume (start.operand 0 (by simp)) fun i hi b => ?_
  exact lands_bind (lands_vRead (start.operand 1 (by simp)) (lt_of_lt_of_eq hi rows1.symm)) fun _ _ => lands_pure trivial

/-! ## Conversions (R314) -/

theorem completes_vConv {mk : Hdr → D2Conv → Instr} {srcOk dstOk : Fmt → Bool}
    (he : ∀ h o, engineWord (mk h o) = some (vConvWord h o srcOk dstOk)) :
    VectorCompletes mk fun h o => vConvWord h o srcOk dstOk := by
  refine vector_completes he (fun _ _ => rfl) (fun _ => fields_two _ _) fun s s1 o x start => ?_
  obtain ⟨checks, -⟩ := BitVec.or_eq_zero_iff.1 (start.check false)
  obtain ⟨checks, -⟩ := BitVec.or_eq_zero_iff.1 checks
  obtain ⟨checks, -⟩ := BitVec.or_eq_zero_iff.1 checks
  obtain ⟨size, shape⟩ := BitVec.or_eq_zero_iff.1 checks
  dsimp only
  split
  · rename_i whole
    have rows1 : dRows (x.dsc 1) = dRows (x.dsc 0) := by
      by_cases pass : o.pass.isSome = true
      · rw [if_pos pass] at shape
        exact (rows_of_shapeBad (.inr (.inl rfl)) shape).1
      · have cols : dCols (x.dsc 0) = dCols (x.dsc 1) := by simpa [pass] using whole
        have equal : dRows (x.dsc 0) * dCols (x.dsc 0) = dRows (x.dsc 1) * dCols (x.dsc 1) :=
          bne_eq_false_iff_eq.1 (false_of_descField (.inr (.inl rfl)) size)
        rw [cols] at equal
        exact (Nat.eq_of_mul_eq_mul_right (Nat.succ_pos _) equal).symm
    exact lands_vRows start.resume (start.operand 0 (by simp)) fun i hi b =>
      lands_vRead (start.operand 1 (by simp)) (lt_of_lt_of_eq hi rows1.symm)
  · refine lands_state fun t _ => lands_bind (lands_mapM _ fun j hj => ?_) fun rows _ => ?_
    · split
      · exact lands_pure trivial
      · exact lands_vRead (start.operand 1 (by simp)) (List.mem_range.1 hj)
    · exact lands_vRows start.resume (start.operand 0 (by simp)) fun _ _ _ => lands_pure trivial

/-! ## Reductions (R103, R315) -/

theorem completes_vReduce {mk : Hdr → D2Conv → Instr} {op : Val → Val → Val} {id : Val}
    (he : ∀ h o, engineWord (mk h o) = some (vReduceWord h o op id)) : VectorCompletes mk fun h o => vReduceWord h o op id := by
  refine vector_completes he (fun _ _ => rfl) (fun _ => fields_two _ _) fun s s1 o x start => ?_
  obtain ⟨shapes, -⟩ := BitVec.or_eq_zero_iff.1 (start.check false)
  have rows1 := false_of_descField (.inr (.inl rfl)) (BitVec.or_eq_zero_iff.1 shapes).2
  refine lands_vRows start.resume (start.operand 0 (by simp)) fun i hi b => ?_
  exact lands_bind (lands_vRead (start.operand 1 (by simp)) (lt_of_lt_of_eq hi (bne_eq_false_iff_eq.1 rows1).symm))
    fun _ _ => lands_pure trivial

theorem lands_colSums {s s1 : State} {w : Issued} (hd : s.formatted (w.dsc 1) (w.slot 1)) (p : Pass) (b : Nat) :
    Lands (s.midWord s1) (colSums w p b) fun _ => True := by
  refine lands_state fun t _ => lands_foldlM _ (fun i hi acc _ => lands_state fun u _ => ?_) trivial
  dsimp only
  split
  · exact lands_pure trivial
  · exact lands_bind (lands_vRead hd (List.mem_range.1 hi)) fun _ _ => lands_pure trivial

theorem completes_vcsum : VectorCompletes .vcsum vcsumWord := by
  refine vector_completes (fun _ _ => rfl) (fun _ _ => rfl) (fun _ => fields_two _ _) fun s s1 o x start => ?_
  have rows : dRows (x.dsc 0) = ((s.core s.cur).blocksOf o.pass (dRows (x.dsc 1))).2 := by
    have shape := false_of_descField (.inl rfl) (BitVec.or_eq_zero_iff.1 (start.check false)).1
    exact bne_eq_false_iff_eq.1 (Bool.or_eq_false_iff.1 shape).1
  refine lands_state fun t ht => ?_
  dsimp only
  rw [ht.work.chip.cur, blocksOf_midWord ht start.core]
  refine lands_bind (lands_roundMode _ _) fun mode _ => ?_
  refine lands_bind (lands_rows (fun j hj q hq => ?_) start.resume) fun _ _ => lands_pure trivial
  refine lands_state fun u _ => lands_oneRow hq (lands_state fun v _ => lands_pure trivial) (lands_colSums (start.operand 1 (by simp)) _ _)
    fun vs => ?_
  exact lands_writeVals _ _ vs (start.operand 0 (by simp)) (lt_of_lt_of_eq hj rows.symm) hq

/-! ## Layout (R316) -/

theorem completes_vbcast : VectorCompletes .vbcast vbcastWord := by
  refine vector_completes (fun _ _ => rfl) (fun _ _ => rfl) (fun _ => fields_two _ _) fun s s1 o x start => ?_
  have shape := false_of_descField (.inr (.inl rfl)) (BitVec.or_eq_zero_iff.1 (start.check false)).1
  refine lands_choice (fun _ => lands_pure trivial) (fun hc => ?_) fun one => ?_
  · rw [hc, if_neg Bool.false_ne_true] at shape
    have row : dRows (x.dsc 1) = 1 := bne_eq_false_iff_eq.1 (Bool.or_eq_false_iff.1 shape).1
    exact lands_vRead (start.operand 1 (by simp)) (by rw [row]; exact Nat.one_pos)
  refine lands_vRows start.resume (start.operand 0 (by simp)) fun i hi b => ?_
  cases hc : o.col with
  | false =>
    rw [if_neg Bool.false_ne_true]
    exact lands_pure trivial
  | true =>
    rw [hc, if_pos rfl] at shape
    have rows : dRows (x.dsc 1) = dRows (x.dsc 0) := bne_eq_false_iff_eq.1 (Bool.or_eq_false_iff.1 shape).1
    rw [if_pos rfl]
    exact lands_bind (lands_vRead (start.operand 1 (by simp)) (lt_of_lt_of_eq hi rows.symm)) fun _ _ => lands_pure trivial

theorem completes_vtrn : VectorCompletes .vtrn vtrnWord := by
  refine vector_completes (fun _ _ => rfl) (fun _ _ => rfl) (fun _ => fields_two _ _) fun s s1 o x start => ?_
  refine lands_bind (lands_mapM _ fun j hj => lands_vRead (start.operand 1 (by simp)) (List.mem_range.1 hj)) fun rows _ => ?_
  exact lands_vRows start.resume (start.operand 0 (by simp)) fun _ _ _ => lands_pure trivial

/-! ## The epilogue (R317) -/

theorem completes_vepi : VectorCompletes .vepi vepiWord := by
  refine vector_completes (fun _ _ => rfl) (fun _ _ => rfl) (fun o => ?_) fun s s1 o x start => ?_
  · unfold vepiOps
    cases o.bias with
    | none => exact fields_two _ _
    | some d => exact fields_three _ _ _
  obtain ⟨checks, -⟩ := BitVec.or_eq_zero_iff.1 (start.check false)
  obtain ⟨checks, bias⟩ := BitVec.or_eq_zero_iff.1 checks
  have rows1 := (rows_of_shapeBad (.inr (.inl rfl)) (BitVec.or_eq_zero_iff.1 checks).2).1
  refine lands_choice (fun hb => ?_) (fun _ => lands_pure trivial) fun a => ?_
  · have row : dRows (x.dsc 2) = 1 := by
      have := false_of_descField (.inr (.inr (.inl rfl))) bias
      rw [hb, Bool.true_and] at this
      exact bne_eq_false_iff_eq.1 (Bool.or_eq_false_iff.1 this).1
    have third : 2 < (vepiOps o).length := by
      obtain ⟨d, hd⟩ := Option.isSome_iff_exists.1 hb
      simp [vepiOps, hd]
    exact lands_vRead (start.operand 2 third) (by rw [row]; exact Nat.one_pos)
  have two : 1 < (vepiOps o).length := by simp [vepiOps]
  refine lands_vRows start.resume (start.operand 0 (Nat.lt_of_succ_lt two)) fun i hi b => ?_
  exact lands_bind (lands_vRead (start.operand 1 two) (lt_of_lt_of_eq hi rows1.symm)) fun _ _ => lands_pure trivial

/-! ## VTAGSEL (R319) -/

theorem completes_vtagsel : VectorCompletes .vtagsel vtagselWord := by
  refine vector_completes (fun _ _ => rfl) (fun _ _ => rfl) (fun _ => fields_two _ _) fun s s1 o x start => ?_
  have rows : (s.core s.cur).hdrBlocks < dRows (x.dsc 1) := by
    have shape := false_of_descField (.inr (.inl rfl)) (BitVec.or_eq_zero_iff.1 (start.check false)).1
    have := of_decide_eq_false (Bool.or_eq_false_iff.1 shape).1
    exact Nat.lt_of_not_le fun h => this (Nat.lt_succ_of_le h)
  refine lands_state fun t ht => ?_
  dsimp only
  rw [ht.work.chip.cur]
  refine lands_bind (lands_roundMode _ _) fun mode _ => ?_
  refine lands_bind (lands_rows (fun i hi q hq => ?_) start.resume) fun _ _ => lands_pure trivial
  refine lands_state fun u _ => ?_
  simp only [skipRow_start hq, Bool.false_eq_true, if_false]
  refine lands_bind (lands_parked _ _ _) fun k _ => ?_
  split
  · exact lands_pure hq
  have block : (t.core s.cur).rowBlock o.pass i < dRows (x.dsc 1) :=
    Nat.lt_of_le_of_lt (rowBlock_le _ _ _) (by rwa [hdrBlocks_midWord ht start.core])
  refine lands_bind (lands_atPlace q (lands_vRead (start.operand 1 (by simp)) block)) fun ys _ => ?_
  exact lands_oneRow hq (lands_parked _ _ _) (lands_pure trivial) fun vs => lands_writeVals _ _ vs (start.operand 0 (by simp)) hi hq

/-! ## Every vector word -/

/-- Settles O27: each of the words from the landing of its body. -/
theorem vectorWordsComplete : Obligations.VectorWordsComplete := by
  unfold Obligations.VectorWordsComplete
  rintro s s1 i e w ⟨h, hw⟩ he hi ha hl
  obtain ⟨o, rfl⟩ | ⟨o, rfl⟩ | ⟨o, rfl⟩ | ⟨o, rfl⟩ | ⟨o, rfl⟩ | ⟨o, rfl⟩ | ⟨o, rfl⟩ | ⟨o, rfl⟩ |
    ⟨o, rfl⟩ | ⟨o, rfl⟩ | ⟨o, rfl⟩ | ⟨o, rfl⟩ | ⟨o, rfl⟩ | ⟨o, rfl⟩ | ⟨o, rfl⟩ | ⟨o, rfl⟩ |
    ⟨o, rfl⟩ | ⟨o, rfl⟩ | ⟨o, rfl⟩ | ⟨o, rfl⟩ | ⟨o, rfl⟩ | ⟨o, rfl⟩ | ⟨o, rfl⟩ | ⟨o, rfl⟩ := hw <;>
    obtain rfl := Option.some.inj he
  · exact completes_vBin (fun _ _ => rfl) s s1 h o w hi ha hl
  · exact completes_vBin (fun _ _ => rfl) s s1 h o w hi ha hl
  · exact completes_vBin (fun _ _ => rfl) s s1 h o w hi ha hl
  · exact completes_vBin (fun _ _ => rfl) s s1 h o w hi ha hl
  · exact completes_vBin (fun _ _ => rfl) s s1 h o w hi ha hl
  · exact completes_vfma s s1 h o w hi ha hl
  · exact completes_vUn (fun _ _ => rfl) s s1 h o w hi ha hl
  · exact completes_vUn (fun _ _ => rfl) s s1 h o w hi ha hl
  · exact completes_vUn (fun _ _ => rfl) s s1 h o w hi ha hl
  · exact completes_vUn (fun _ _ => rfl) s s1 h o w hi ha hl
  · exact completes_vUn (fun _ _ => rfl) s s1 h o w hi ha hl
  · exact completes_vUn (fun _ _ => rfl) s s1 h o w hi ha hl
  · exact completes_vUn (fun _ _ => rfl) s s1 h o w hi ha hl
  · exact completes_vUn (fun _ _ => rfl) s s1 h o w hi ha hl
  · exact completes_vConv (fun _ _ => rfl) s s1 h o w hi ha hl
  · exact completes_vConv (fun _ _ => rfl) s s1 h o w hi ha hl
  · exact completes_vConv (fun _ _ => rfl) s s1 h o w hi ha hl
  · exact completes_vReduce (fun _ _ => rfl) s s1 h o w hi ha hl
  · exact completes_vReduce (fun _ _ => rfl) s s1 h o w hi ha hl
  · exact completes_vcsum s s1 h o w hi ha hl
  · exact completes_vbcast s s1 h o w hi ha hl
  · exact completes_vtrn s s1 h o w hi ha hl
  · exact completes_vepi s s1 h o w hi ha hl
  · exact completes_vtagsel s s1 h o w hi ha hl

end Sys2Proof.Machine

/-! Actions that end in one state but for a relation, and a row that a copy moves under such a relation (spec 18 R97, R324, R327). -/

namespace Sys2Proof.Machine

/-! ## Actions that end in one state, but for a relation -/

/-- From every state that stands in relation `R` to `u` an action ends well, in a state that stands in it to `v`, with a value that
meets `Q`. -/
def Reaches {α : Type} (R : State → State → Prop) (u : State) (act : M α) (v : State) (Q : α → Prop) : Prop :=
  ∀ t, R t u → ∃ a t', act t = .ok a t' ∧ R t' v ∧ Q a

section
variable {α β : Type} {R : State → State → Prop} {u v w : State}

theorem reaches_pure {a : α} {Q : α → Prop} (h : Q a) : Reaches R u (pure a : M α) u Q := fun t ht => ⟨a, t, rfl, ht, h⟩

theorem reaches_bind {x : M α} {f : α → M β} {Q : α → Prop} {P : β → Prop} (hx : Reaches R u x v Q)
    (hf : ∀ a, Q a → Reaches R v (f a) w P) : Reaches R u (x >>= f) w P := by
  intro t ht
  obtain ⟨a, t', e, ht', ha⟩ := hx t ht
  obtain ⟨b, t'', e', ht'', hb⟩ := hf a ha t' ht'
  exact ⟨b, t'', (bind_ok _ _ _ _ _ e).trans e', ht'', hb⟩

/-- An action that starts with the state as it is. -/
theorem reaches_state {f : State → M β} {P : β → Prop} (h : ∀ t, R t u → Reaches R u (f t) v P) : Reaches R u (getState >>= f) v P :=
  fun t ht => h t ht t ht

theorem reaches_modState {f : State → State} (h : ∀ t, R t u → R (f t) v) : Reaches R u (modState f) v fun _ => True :=
  fun t ht => ⟨(), f t, rfl, h t ht, trivial⟩

theorem reaches_weaken {x : M α} {Q P : α → Prop} (h : Reaches R u x v Q) (hq : ∀ a, Q a → P a) : Reaches R u x v P := by
  intro t ht
  obtain ⟨a, t', e, ht', ha⟩ := h t ht
  exact ⟨a, t', e, ht', hq a ha⟩

/-- A fault that does not come is not caught. -/
theorem reaches_attempt {act : M α} {Q : α → Prop} (h : Reaches R u act v Q) : Reaches R u (attempt act) v fun r => ∃ a, r = .ok a ∧ Q a := by
  intro t ht
  obtain ⟨a, t', e, ht', ha⟩ := h t ht
  exact ⟨.ok a, t', attempt_ok _ _ _ _ e, ht', a, rfl, ha⟩

/-- One action after another, each from what the one before it has made of a state and of a value. -/
theorem reaches_foldlM {γ : Type} {I : State → Prop} {f : β → γ → M β} {P : β → Prop} {step : State → γ → State} (l : List γ)
    (hI : ∀ u x, I u → I (step u x)) (h : ∀ x ∈ l, ∀ u b, I u → P b → Reaches R u (f b x) (step u x) P) {u : State} {b : β}
    (hu : I u) (hb : P b) : Reaches R u (l.foldlM f b) (l.foldl step u) P := by
  induction l generalizing u b with
  | nil => exact reaches_pure hb
  | cons x l ih =>
    rw [List.foldlM_cons]
    refine reaches_bind (h x List.mem_cons_self u b hu hb) fun b' hb' => ?_
    exact ih (fun y hy => h y (List.mem_cons_of_mem x hy)) (hI u x hu) hb'

end

/-! ## Relations that leave a core's formats, rows and engines alone -/

/-- A change of a core that rests neither on the clock of the writes into it nor on its monitor. -/
def Unwatched (f : Core → Core) : Prop :=
  ∀ (k : Core) (x : VClock) (m : Option Monitor), f { k with winClk := x, monitor := m } = { f k with winClk := x, monitor := m }

theorem unwatched_pm (src n : Nat) : Unwatched fun k => k.pm src n := fun _ _ _ => rfl

theorem unwatched_setLfsr (t : Strm) (q : BitVec 32) : Unwatched fun k => k.setEngine t { k.engine t with lfsr := q } := fun k x m => by
  cases t <;> rfl

/-- What a relation between a machine and the state it is held against must grant: the operations on lines, and of each core everything
but the clock of the writes into it and its monitor; and it stands changes of a core that rest on neither. -/
structure Alike (R : State → State → Prop) : Prop where
  cur : ∀ {t u}, R t u → t.cur = u.cur
  log : ∀ {t u}, R t u → t.mem.opLog = u.mem.opLog
  core : ∀ {t u}, R t u → ∀ c, t.core c = { u.core c with winClk := (t.core c).winClk, monitor := (t.core c).monitor }
  onCore : ∀ {t u}, R t u → ∀ c {f}, Unwatched f → R (t.onCore c f) (u.onCore c f)

section
variable {R : State → State → Prop} {t u : State}

theorem rowEnc_alike (hR : Alike R) (h : R t u) (c : CoreId) (d : Dsc) (slot j : Nat) : t.rowEnc c d slot j = u.rowEnc c d slot j := by
  unfold State.rowEnc
  rw [hR.core h c, hR.core h (opCore c d)]
  rfl

theorem rowParked_alike (hR : Alike R) (h : R t u) (c : CoreId) (p : Pass) (i : Nat) :
    (t.core c).rowParked p i = (u.core c).rowParked p i := by
  rw [hR.core h c]
  rfl

theorem reaches_onCore (hR : Alike R) (c : CoreId) {f : Core → Core} (hf : Unwatched f) :
    Reaches R u (modState fun s => s.onCore c f) (u.onCore c f) fun _ => True := reaches_modState fun _ h => hR.onCore h c hf

theorem reaches_engLfsr (hR : Alike R) (c : CoreId) (q : Strm) : Reaches R u (engLfsr c q) u (· = ((u.core c).engine q).lfsr) :=
  reaches_state fun t h => reaches_pure (by rw [hR.core h c]; cases q <;> rfl)

theorem reaches_engMode (hR : Alike R) (c : CoreId) (r : BitVec 3) : Reaches R u (engMode c r) u (· = modeOf r (u.core c).round) :=
  reaches_state fun t h => reaches_pure (by rw [hR.core h c])

theorem reaches_parkedNow (hR : Alike R) (c : CoreId) (p : Pass) (i : Nat) :
    Reaches R u (parkedNow c p i) u (· = (u.core c).rowParked p i) :=
  reaches_state fun _ h => reaches_pure (rowParked_alike hR h c p i)

theorem reaches_newRow (hR : Alike R) (h : u.mem.opLog = none) : Reaches R u newRow u fun _ => True :=
  reaches_modState (f := fun s => s.onMem fun m => { m with opLog := m.opLog.map fun g => { g with made := g.replay } }) fun t ht => by
    have none : t.mem.opLog.map (fun g => { g with made := g.replay }) = t.mem.opLog := by rw [hR.log ht, h]; rfl
    show R ({ t with mem := { t.mem with opLog := t.mem.opLog.map _ } } : State) u
    rw [none]
    exact ht

/-- Rows one after another, from what the rows before have left. -/
theorem reaches_copyRows (hR : Alike R) {I : State → Prop} {n : Nat} {f : Nat → Perf → M Perf} {step : State → Nat → State}
    (hL : ∀ u, I u → u.mem.opLog = none) (hI : ∀ u i, I u → I (step u i))
    (h : ∀ i < n, ∀ u p, I u → p.resume = 0 → Reaches R u (f i p) (step u i) (·.resume = 0)) {p : Perf} (hu : I u) (hp : p.resume = 0) :
    Reaches R u (copyRows n f p) ((List.range n).foldl step u) (·.resume = 0) := by
  rw [copyRows_eq]
  refine reaches_foldlM (I := I) (P := fun p : Perf => p.resume = 0) (List.range n) hI (fun i hi u p hu hp => ?_) hu hp
  intro t ht
  obtain ⟨a, t', e, ht', ha⟩ := reaches_bind (reaches_newRow hR (hL u hu)) (fun _ _ => h i (List.mem_range.1 hi) u p hu hp) t ht
  refine ⟨a, t', ?_, ht', ha⟩
  unfold copyStep
  rw [e]

end

/-! ## A row that is moved -/

section
variable {R : State → State → Prop} {u v : State}

/-- A row put where it belongs counts its bytes (R201). -/
theorem reaches_copyPut (hR : Alike R) {c : CoreId} (w : Issued) {y : RowAt} {b first : Nat} {f : Fmt} {r : Row} {p : Perf}
    (hw : Reaches R u (writeRowTo c y.d y.slot y.row b first f r p) v fun q => q.resume = 0 ∧ q.done = p.done + f.memBytes (dCols y.d)) :
    Reaches R u (copyPut c w y b first f r p) (v.onCore c fun k => k.pm 5 (f.memBytes (dCols y.d))) fun r => r.2 = true ∧ r.1.resume = 0 := by
  refine reaches_bind (reaches_attempt hw) fun r ⟨q, e, hq, done⟩ => ?_
  rw [e]
  dsimp only
  rw [done, Nat.add_sub_cancel_left]
  exact reaches_bind (reaches_onCore hR c (unwatched_pm 5 _)) fun _ _ => reaches_pure ⟨rfl, hq⟩

/-- The bytes of a row are counted before the LFSR is set. -/
theorem wroteRow_eq (u : State) (c : CoreId) (y : RowAt) (b first n : Nat) (r : Row × BitVec 32) :
    u.wroteRow c y b first n r = ((u.dstRow c y.d y.slot y.row b first n r.1).onCore c fun k => k.pm 5 n).onCore c
      fun k => k.setEngine .c { k.engine .c with lfsr := r.2 } := by
  rw [onCore_onCore]
  rfl

/-- A row that can be read and written is moved as `State.moveRow` says. -/
theorem reaches_copyRow (hR : Alike R) {c : CoreId} (w : Issued) {mode : Mode} {sat : Bool} {x y : RowAt} {b first : Nat} {parked : M Bool}
    {p : Perf} {fs fd : Fmt} (hs : Fmt.parse (u.rowEnc c x.d x.slot x.row) = some fs) (hd : Fmt.parse (u.rowEnc c y.d y.slot y.row) = some fd)
    (hp : p.resume = 0) (hk : Reaches R u parked u (· = false))
    (hr : Reaches R u (readRow c x.d x.slot x.row b first) u (· = (u.srcRow c x.d x.slot x.row b first fs, u.rowEnc c x.d x.slot x.row)))
    (hw : ∀ r, r = (convertRow (u.rowEnc c x.d x.slot x.row) (u.rowEnc c y.d y.slot y.row) fs fd (dCols x.d) (dCols y.d) mode sat
        (u.srcRow c x.d x.slot x.row b first fs) (u.core c).c.lfsr).1 →
      Reaches R u (writeRowTo c y.d y.slot y.row b first fd r p) (u.dstRow c y.d y.slot y.row b first (fd.memBytes (dCols y.d)) r)
        fun q => q.resume = 0 ∧ q.done = p.done + fd.memBytes (dCols y.d)) :
    Reaches R u (copyRow c w mode sat x y b first parked p) (u.moveRow u c mode sat x y b first) (·.resume = 0) := by
  refine reaches_state fun t ht => ?_
  unfold State.moveRow
  simp only [rowEnc_alike hR ht, hs, hd, wroteRow_eq, skipRow_start hp, Bool.false_eq_true, if_false]
  refine reaches_bind (reaches_attempt hr) fun r ⟨a, e, ha⟩ => ?_
  rw [e, ha]
  refine reaches_bind hk fun k hk => ?_
  rw [hk]
  simp only [Bool.false_eq_true, if_false, hs]
  refine reaches_bind (reaches_engLfsr hR c .c) fun l hl => ?_
  rw [hl]
  refine reaches_bind (reaches_copyPut hR w (hw _ rfl)) fun q ⟨ok, hq⟩ => ?_
  obtain ⟨q, _⟩ := q
  obtain rfl := ok
  exact reaches_bind (reaches_onCore hR c (unwatched_setLfsr .c _)) fun _ _ => reaches_pure hq

end

end Sys2Proof.Machine

/-! Reading rows of memory that lie in resident lines: nothing but the panel's monitor counts changes (spec 08 R148, 18 R324, R327). -/

namespace Sys2Proof.Machine

/-! ## Bytes of a value -/

theorem tabulate_add {α : Type} (m n : Nat) (f : Nat → α) : tabulate (m + n) f = tabulate m f ++ tabulate n fun i => f (m + i) := by
  simp only [tabulate, List.range_add, List.map_append, List.map_map]
  rfl

theorem bytesAt_tabulate (m : Memory) (a n : Nat) : bytesAt m a n = tabulate n fun i => byteAt m (a + i) := by
  induction n generalizing a with
  | zero => rfl
  | succ n ih =>
    rw [Nat.add_comm, tabulate_add, Nat.add_comm 1 n, bytesAt, ih]
    simp only [← Nat.add_assoc]
    rfl

/-- The bytes of a value from byte `k` up. -/
theorem bytesOfNat_extract (x : BitVec 512) (k n : Nat) :
    bytesOfNat n (x.toNat / 2 ^ (8 * k)) = tabulate n fun i => x.extractLsb' (8 * (k + i)) 8 := by
  induction n generalizing k with
  | zero => rfl
  | succ n ih =>
    have next : 2 ^ (8 * (k + 1)) = 2 ^ (8 * k) * 256 := Nat.pow_add 2 (8 * k) 8
    have rest : x.toNat / 2 ^ (8 * k) / 256 = x.toNat / 2 ^ (8 * (k + 1)) := by rw [Nat.div_div_eq_div_mul, next]
    have first : BitVec.ofNat 8 (x.toNat / 2 ^ (8 * k)) = x.extractLsb' (8 * k) 8 := by
      rw [BitVec.extractLsb', Nat.shiftRight_eq_div_pow]
    rw [Nat.add_comm, tabulate_add, Nat.add_comm 1 n, bytesOfNat, rest, ih, first]
    simp only [← Nat.add_assoc]
    rfl

/-! ## States alike but for the panel's monitor counts -/

/-- `t` is `u` but for the panel's monitor counts (R201). -/
def State.counted (t u : State) : Prop := ∃ x, t = { u with power := { u.power with pmCnt := x } }

theorem counted_refl (u : State) : u.counted u := ⟨_, rfl⟩

theorem counted_trans {t u v : State} (h : t.counted u) (g : u.counted v) : t.counted v := by
  obtain ⟨x, rfl⟩ := h
  obtain ⟨y, rfl⟩ := g
  exact ⟨x, rfl⟩

theorem counted_pmPanel (s : State) (p src n : Nat) : (s.pmPanel p src n).counted s := ⟨_, rfl⟩

theorem alike_counted : Alike State.counted where
  cur := by
    rintro _ u ⟨x, rfl⟩
    rfl
  log := by
    rintro _ u ⟨x, rfl⟩
    rfl
  core := by
    rintro _ u ⟨x, rfl⟩ c
    rfl
  onCore := by
    rintro _ u ⟨x, rfl⟩ c f _
    exact ⟨x, rfl⟩

theorem seenByte_counted {t u : State} (h : t.counted u) (p a : Nat) : t.seenByte p a = u.seenByte p a := by
  obtain ⟨x, rfl⟩ := h
  rfl

theorem resident_counted {t u : State} (h : t.counted u) {p la n : Nat} {write : Bool} (hu : u.resident p la n write) :
    t.resident p la n write := by
  obtain ⟨x, rfl⟩ := h
  exact hu

/-! ## Lines -/

/-- Part of a range is resident where the range is. -/
theorem resident_part {s : State} {p la n la' n' : Nat} {write : Bool} (h : s.resident p la n write) (hl : la ≤ la')
    (hn : la' + n' ≤ la + n) : s.resident p la' n' write := fun a ha hn' => h a (hl.trans ha) (by omega)

/-- Bytes of one line of L2 at its home. -/
theorem seenByte_home {s : State} {p a : Nat} (h : p = homePanel (a / 64)) : s.seenByte p a = byteAt s.mem.l2 a := if_pos h

theorem seenByte_replica {s : State} {p a : Nat} {r : Replica} (h : p ≠ homePanel (a / 64))
    (hr : mapGet s.mem.replicas (replicaKey p (a / 64)) = some r) : s.seenByte p a = r.data.extractLsb' (8 * (a % 64)) 8 := by
  unfold State.seenByte
  rw [if_neg h, hr]

theorem readLine_resident {s : State} {p la n : Nat} (owner : Tag) (va : Word) (hn : 0 < n) (hl : la % 64 + n ≤ 64)
    (h : s.resident p la n false) :
    ∃ t, readLine p owner la n va s = .ok (tabulate n fun i => s.seenByte p (la + i)) t ∧ t.counted s := by
  obtain ⟨-, g, line, good, err, seen, -⟩ := h la le_rfl (by omega)
  have inLine : ∀ i < n, (la + i) / 64 = la / 64 := fun i hi => by omega
  by_cases home : p = homePanel (la / 64)
  · have need : needLine (la / 64) (halves la n) owner va s = .ok () (s.pmPanel (homePanel (la / 64)) 0x100 1) := by
      unfold needLine State.line?
      rw [line]
      simp only [good, err, BitVec.ofNat_eq_ofNat, BitVec.zero_and, bne_self_eq_false, Bool.or_self, Bool.false_eq_true, if_false]
    refine ⟨_, ?_, counted_pmPanel s (homePanel (la / 64)) 0x100 1⟩
    unfold readLine
    simp only [if_pos home, need]
    have same : (s.pmPanel (homePanel (la / 64)) 0x100 1).lineData (la / 64) = s.lineData (la / 64) := rfl
    rw [same, bytesOfNat_lineData s la n hl, bytesAt_tabulate]
    refine congrArg (EStateM.Result.ok · _) (List.map_congr_left fun i hi => ?_)
    rw [seenByte_home (by rw [inLine i (List.mem_range.1 hi)]; exact home)]
  · obtain ⟨r, hr, err⟩ : ∃ r, mapGet s.mem.replicas (replicaKey p (la / 64)) = some r ∧ r.err = 0 := by simpa [home] using seen
    refine ⟨_, ?_, counted_pmPanel s p 0x100 1⟩
    unfold readLine
    simp only [if_neg home, hr, err, BitVec.ofNat_eq_ofNat, BitVec.zero_and, bne_self_eq_false, Bool.false_eq_true, if_false]
    rw [bytesOfNat_extract]
    refine congrArg (EStateM.Result.ok · _) (List.map_congr_left fun i hi => ?_)
    have line := inLine i (List.mem_range.1 hi)
    have place : (la + i) % 64 = la % 64 + i := by have := List.mem_range.1 hi; omega
    rw [seenByte_replica (by rw [line]; exact home) (by rw [line]; exact hr), place]

theorem lineOp_whole {act : M (List Byte)} {s : State} (h : s.mem.opLog = none) : lineOp act s = act s := by
  unfold lineOp
  rw [h]

theorem readSpan_succ (rd : Nat → Nat → M (List Byte)) (fuel la : Nat) {n : Nat} (h : n ≠ 0) :
    readSpan rd (fuel + 1) la n = (rd la (min n (64 - la % 64)) >>= fun b =>
      readSpan rd fuel (la + min n (64 - la % 64)) (n - min n (64 - la % 64)) >>= fun r => pure (b ++ r)) := by
  conv_lhs => unfold readSpan
  exact if_neg h

/-- Bytes of resident lines are read as the panel sees them. -/
theorem readSpan_resident (p : Nat) (owner : Tag) (va : Word) (fuel : Nat) : ∀ (la n : Nat) (s : State), s.mem.opLog = none →
    s.resident p la n false → n ≤ 64 * fuel - la % 64 →
    ∃ t, readSpan (fun a k => lineOp (readLine p owner a k va)) fuel la n s = .ok (tabulate n fun i => s.seenByte p (la + i)) t ∧
      t.counted s := by
  induction fuel with
  | zero =>
    intro la n s _ _ hn
    obtain rfl : n = 0 := by omega
    exact ⟨s, rfl, counted_refl s⟩
  | succ fuel ih =>
    intro la n s log h hn
    by_cases none : n = 0
    · subst none
      exact ⟨s, rfl, counted_refl s⟩
    rw [readSpan_succ _ _ _ none]
    have split : n = min n (64 - la % 64) + (n - min n (64 - la % 64)) := by omega
    have here : 0 < min n (64 - la % 64) ∧ la % 64 + min n (64 - la % 64) ≤ 64 := by omega
    have next : n - min n (64 - la % 64) ≤ 64 * fuel - (la + min n (64 - la % 64)) % 64 := by omega
    generalize min n (64 - la % 64) = k at split here next ⊢
    obtain ⟨some, inLine⟩ := here
    obtain ⟨t, first, ht⟩ := readLine_resident owner va some inLine (resident_part h le_rfl (by omega))
    obtain ⟨u, rest, hu⟩ := ih (la + k) (n - k) t ((alike_counted.log ht).trans log)
      (resident_part (resident_counted ht h) (by omega) (by omega)) next
    refine ⟨u, ?_, counted_trans hu ht⟩
    rw [bind_ok _ _ _ _ _ ((lineOp_whole log).trans first), bind_ok _ _ _ _ _ rest, pure_run]
    conv_rhs => rw [split, tabulate_add]
    simp only [seenByte_counted ht, Nat.add_assoc]

/-! ## Rows of memory -/

section
variable {u : State} {c : CoreId} {d : Dsc}

/-- An operand of KIND 5 lies not on chip. -/
theorem offChip_of_kind5 (h : dKind d = 5) : inAcc d = false ∧ inSpad d = false := by simp [inAcc, inSpad, h]

theorem rowEnc_kind5 (h : dKind d = 5) (slot j : Nat) : u.rowEnc c d slot j = vget (u.core c).fmtSlot (dFmt d) := by
  obtain ⟨acc, spad⟩ := offChip_of_kind5 h
  simp only [State.rowEnc, acc, spad, Bool.false_and, Bool.false_eq_true, if_false]

/-- Where a row of KIND 5 lies, the owner of its block translates it and grants the access. -/
theorem translate_of_lineAddr {j b first n la : Nat} {write : Bool} (h : dKind d = 5) (hla : u.lineAddr c d j b first n write = some la) :
    rangeTranslate ((u.core c).fileSet ((u.core c).rbtOwner b)) (addr5 (u.core c) d b first n) n (if write then 2 else 1) = .ok la := by
  unfold State.lineAddr at hla
  simp only [h] at hla
  split at hla
  · rename_i e
    cases hla
    exact e
  · cases hla

theorem translate5_run (b : Nat) (va : Word) (n need : Nat) (s : State) :
    translate5 c b va n need s = (match rangeTranslate ((s.core c).fileSet ((s.core c).rbtOwner b)) va n need with
      | .ok la => if regionOf la = 4 then raise 0x11 la va (w64 need) else if 3 ≤ regionOf la then raise 0x04 la 0 0 else pure la
      | .bad cls d0 => raise cls 0 d0 (w64 need) : M Nat) s := rfl

theorem reaches_translate5 {R : State → State → Prop} (hR : Alike R) {b n need la : Nat} {va : Word}
    (h : rangeTranslate ((u.core c).fileSet ((u.core c).rbtOwner b)) va n need = .ok la) (region : regionOf la ≤ 1) :
    Reaches R u (translate5 c b va n need) u (· = la) := by
  intro t ht
  refine ⟨la, t, ?_, ht, rfl⟩
  have same : (t.core c).fileSet ((t.core c).rbtOwner b) = (u.core c).fileSet ((u.core c).rbtOwner b) := by
    rw [hR.core ht c]
    rfl
  rw [translate5_run, same, h]
  dsimp only
  rw [if_neg (by omega), if_neg (by omega)]
  rfl

theorem reaches_engRead {la n : Nat} (owner : Tag) (va : Word) (log : u.mem.opLog = none) (lines : u.resident (panelOf c) la n false)
    (hn : 0 < n) : Reaches State.counted u (engRead c owner la n va) u (· = tabulate n fun i => u.seenByte (panelOf c) (la + i)) := by
  have region : regionOf la ≠ 2 := by
    have := (lines la le_rfl (by omega)).1
    omega
  intro t ht
  obtain ⟨v, read, hv⟩ := readSpan_resident (panelOf c) owner va (n / 64 + 2) la n t ((alike_counted.log ht).trans log)
    (resident_counted ht lines) (by omega)
  refine ⟨_, v, ?_, counted_trans hv ht, rfl⟩
  unfold engRead opRead
  rw [if_neg region, read]
  simp only [seenByte_counted ht]

/-- A row of KIND 5 in resident lines is read as the panel sees it. -/
theorem reaches_readMemRow {f : Fmt} {slot j b first : Nat} (kind : dKind d = 5) (hf : Fmt.parse (u.rowEnc c d slot j) = some f)
    (log : u.mem.opLog = none) (there : u.rowThere c d j b first false) :
    Reaches State.counted u (readRow c d slot j b first) u (· = (u.srcRow c d slot j b first f, u.rowEnc c d slot j)) := by
  obtain ⟨acc, spad⟩ := offChip_of_kind5 kind
  have size : 0 < f.memBytes (dCols d) := memBytes_pos hf (Nat.succ_pos _)
  obtain ⟨g, la, hg, hla, lines⟩ := there
  obtain rfl : g = f := Option.some.inj (hg.symm.trans (rowEnc_kind5 kind slot j ▸ hf))
  refine reaches_state fun t ht => ?_
  rw [rowEnc_alike alike_counted ht]
  refine reaches_state fun t ht => ?_
  obtain ⟨x, rfl⟩ := ht
  simp only [hf, acc, spad, kind, Bool.false_eq_true, if_false]
  refine reaches_bind (reaches_translate5 alike_counted (translate_of_lineAddr kind hla) (lines la le_rfl (by omega)).1) fun a ha => ?_
  rw [ha]
  refine reaches_bind (reaches_engRead _ _ log lines size) fun bs hbs => reaches_pure ?_
  rw [hbs]
  simp only [State.srcRow, acc, spad, hla, Bool.or_self, Bool.false_eq_true, if_false]

end

end Sys2Proof.Machine

/-! The bytes that a converted row takes in memory (spec 05 R88, R95, R96, R97). -/

namespace Sys2Proof.Machine

/-! ## Converted values -/

theorem mapLfsr_length (step : Bool) (f : Nat → Val → Nat) (vs : List Val) (q : BitVec 32) : (mapLfsr step f vs q).1.length = vs.length := by
  induction vs generalizing q with
  | nil => rfl
  | cons v vs ih => exact congrArg Nat.succ (ih _)

theorem mxQuantise_length (el : Elem) (mode : Mode) (vs : List Val) (q : BitVec 32) : (mxQuantise el mode vs q).2.1.length = vs.length := by
  unfold mxQuantise
  dsimp only
  split
  · exact List.length_map _
  split
  · exact List.length_map _
  · exact mapLfsr_length _ _ vs q

theorem mxBlocks_succ (el : Elem) (mode : Mode) (blk n : Nat) (vs : List Val) (q : BitVec 32) :
    let one := mxQuantise el mode (vs.take blk) q
    let rest := mxBlocks el mode blk n (vs.drop blk) one.2.2
    mxBlocks el mode blk (n + 1) vs q = (one.1 :: rest.1, one.2.1 ++ rest.2.1, rest.2.2) := rfl

/-- Whole blocks give one scale each, and one code for each value. -/
theorem mxBlocks_length (el : Elem) (mode : Mode) (blk n : Nat) (vs : List Val) (q : BitVec 32) (h : vs.length = n * blk) :
    (mxBlocks el mode blk n vs q).1.length = n ∧ (mxBlocks el mode blk n vs q).2.1.length = vs.length := by
  induction n generalizing vs q with
  | zero => exact ⟨rfl, by rw [h, Nat.zero_mul]; rfl⟩
  | succ n ih =>
    rw [Nat.succ_mul] at h
    have rest : (vs.drop blk).length = n * blk := by rw [List.length_drop, h, Nat.add_sub_cancel]
    obtain ⟨scales, codes⟩ := ih (vs.drop blk) (mxQuantise el mode (vs.take blk) q).2.2 rest
    rw [mxBlocks_succ]
    refine ⟨congrArg Nat.succ scales, ?_⟩
    rw [List.length_append, mxQuantise_length, codes, List.length_take, List.length_drop]
    omega

theorem packCodes_length (w : Nat) (cs : List Nat) : (packCodes w cs).length = (cs.length * w + 7) / 8 := bytesOfNat_length _ _

/-- The bytes of a row in memory: its scales, then its elements (R96). -/
def Row.memory (r : Row) : List Byte := r.scales ++ r.bytes

/-- A row of a format takes the bytes that the format says, an MX row where it holds whole blocks. -/
theorem writeRow_length {f : Fmt} (mode : Mode) (sat : Bool) {vs : List Val} (q : BitVec 32) (h : f.blk = 0 ∨ vs.length % f.blk = 0) :
    (writeRow f mode sat vs q).1.memory.length = f.memBytes vs.length := by
  unfold writeRow Row.memory Fmt.memBytes Fmt.scaleBytes Elem.rowBytes
  by_cases hb : f.blk = 0
  · rw [if_pos hb, if_pos hb, List.length_append, packCodes_length, mapLfsr_length]
    rfl
  · rw [if_neg hb, if_neg hb]
    have whole : vs.length = vs.length / f.blk * f.blk := (Nat.div_mul_cancel (Nat.dvd_of_mod_eq_zero (h.resolve_left hb))).symm
    obtain ⟨scales, codes⟩ := mxBlocks_length f.elem mode f.blk (vs.length / f.blk) vs q whole
    dsimp only
    rw [List.length_append, List.length_map, packCodes_length, scales, codes]

/-! ## Rows that are moved -/

/-- No block has elements of class 8. -/
theorem blk_of_raw {e : BitVec 32} {f : Fmt} (h : Fmt.parse e = some f) (hr : f.elem = .raw) : f.blk = 0 := by
  unfold Fmt.parse at h
  dsimp only at h
  split at h
  case h_7 | h_8 =>
    split at h
    · obtain ⟨-, h⟩ := Option.ite_none_right_eq_some.1 h
      cases h
      cases hr
    · cases h
  case h_10 => cases h
  all_goals
    obtain ⟨-, h⟩ := Option.ite_none_right_eq_some.1 h
    cases h
    rfl

/-- The row of an operand has the bytes and scales of a row of its format. -/
structure Row.sized (r : Row) (f : Fmt) (cols : Nat) : Prop where
  bytes : r.bytes.length = f.elem.rowBytes cols
  scales : r.scales.length = f.scaleBytes cols

theorem memory_sized {r : Row} {f : Fmt} {cols : Nat} (h : r.sized f cols) : r.memory.length = f.memBytes cols := by
  rw [Row.memory, List.length_append, h.bytes, h.scales]
  rfl

/-- A row that may be moved takes the bytes of a row of the destination's format (R97). -/
theorem convertRow_length {es ed : BitVec 32} {fs fd : Fmt} {cs cd : Nat} (mode : Mode) (sat : Bool) {r : Row} (q : BitVec 32)
    (hs : Fmt.parse es = some fs) (hd : Fmt.parse ed = some fd) (pair : movePair es ed cs cd = true) (hr : r.sized fs cs)
    (whole : fd.blk = 0 ∨ cd % fd.blk = 0) : (convertRow es ed fs fd cs cd mode sat r q).1.memory.length = fd.memBytes cd := by
  unfold movePair at pair
  simp only [hs, hd] at pair
  unfold convertRow
  dsimp only
  by_cases same : es = ed
  · have cols : cs = cd := by simpa [same] using pair
    have format : fs = fd := Option.some.inj (hs.symm.trans (same ▸ hd))
    rw [if_pos same, memory_sized hr, cols, format]
  rw [if_neg same]
  by_cases rs : fs.elem = .raw
  · have size : fs.memBytes cs = fd.memBytes cd := by simpa [same, rs] using pair
    have none : r.scales.length = 0 := by rw [hr.scales, Fmt.scaleBytes, if_pos (blk_of_raw hs rs)]
    rw [if_pos rs, ← size, ← memory_sized hr]
    show (r.bytes.take _ ++ r.bytes.drop _).length = (r.scales ++ r.bytes).length
    rw [List.take_append_drop, List.length_append, none, Nat.zero_add]
  rw [if_neg rs]
  by_cases rd : fd.elem = .raw
  · have size : fs.memBytes cs = fd.memBytes cd := by simpa [same, rd] using pair
    rw [if_pos rd, ← size, ← memory_sized hr]
    rfl
  · have cols : cs = cd := by simpa [rs, rd] using pair
    have values : (r.values fs cs).length = cd := by rw [← cols]; exact (List.length_map _).trans List.length_range
    rw [if_neg rd, writeRow_length mode sat q (by rw [values]; exact whole), values]

/-- Elements of 32 bits take four bytes each. -/
theorem rowBytes_four {e : Elem} (h : e.width = 32) (cols : Nat) : e.rowBytes cols = 4 * cols := by
  rw [Elem.rowBytes, h]
  omega

/-- A row on chip has the bytes and scales of its format. -/
theorem rowOf_sized {u : State} {c : CoreId} {d : Dsc} {slot j : Nat} {f : Fmt} (hf : Fmt.parse (u.rowEnc c d slot j) = some f) :
    (u.rowOf c d slot j f).sized f (dCols d) := by
  by_cases acc : inAcc d = true
  · have format : f.elem.rowBytes (dCols d) = 4 * dCols d ∧ f.blk = 0 := by
      unfold State.rowEnc at hf
      simp only [acc, if_true] at hf
      split at hf
      · obtain rfl : f = { elem := .int true 32, blk := 0 } := Option.some.inj (hf.symm.trans (by decide))
        exact ⟨rowBytes_four rfl _, rfl⟩
      · obtain rfl : f = { elem := .flt fp32F, blk := 0 } := Option.some.inj (hf.symm.trans (by decide))
        exact ⟨rowBytes_four (by decide) _, rfl⟩
    unfold State.rowOf
    simp only [acc, if_true]
    refine ⟨?_, ?_⟩
    · rw [format.1]
      exact (flatten_length (fun v : BitVec 32 => bytesOfNat 4 v.toNat) 4 (fun v => bytesOfNat_length 4 v.toNat) _).trans
        (congrArg (4 * ·) ((List.length_map _).trans List.length_range))
    · rw [Fmt.scaleBytes, if_pos format.2]
      rfl
  · unfold State.rowOf
    simp only [acc, Bool.false_eq_true, if_false]
    exact ⟨bytesAt_length _ _ _, bytesAt_length _ _ _⟩

end Sys2Proof.Machine

/-! Writing rows of memory into resident lines: their bytes in L2, and beside them what `State.storedMore` leaves open (spec 07 R134,
08 R140, R166 to R168, 18 R324, R327). -/

namespace Sys2Proof.Machine

/-! ## States alike but for what writes of resident lines leave -/

theorem storedMore_refl (u : State) : u.storedMore u := ⟨rfl, rfl, fun _ => rfl⟩

theorem storedMore_trans {t u v : State} (h : t.storedMore u) (g : u.storedMore v) : t.storedMore v := by
  obtain ⟨et, rt, ct⟩ := h
  obtain ⟨eu, ru, cu⟩ := g
  refine ⟨et.trans (congrArg (fun x : State => { x with
    cores := t.cores, remotes := t.remotes, tree := { x.tree with changes := t.tree.changes }
    power := { x.power with pmCnt := t.power.pmCnt }
    mem := { x.mem with clocks := t.mem.clocks, replicas := t.mem.replicas, updates := t.mem.updates, stamps := t.mem.stamps
                        lines := t.mem.lines } }) eu), rt.trans ru, fun c => ?_⟩
  exact (ct c).trans (congrArg (fun k : Core => { k with winClk := (t.core c).winClk, monitor := (t.core c).monitor }) (cu c))

theorem storedMore_onCore {t u : State} (h : t.storedMore u) (c : CoreId) {f : Core → Core} (hf : Unwatched f) :
    (t.onCore c f).storedMore (u.onCore c f) := by
  obtain ⟨e, remotes, hc⟩ := h
  refine ⟨congrArg (fun x : State => { x with cores := (t.onCore c f).cores }) e, remotes, fun d => ?_⟩
  by_cases hd : d = c
  · rw [hd, core_onCore_same, core_onCore_same, hc c, hf]
  · rw [core_onCore_other _ _ _ _ hd, core_onCore_other _ _ _ _ hd]
    exact hc d

theorem storedMore_sawMore {t u : State} (h : t.sawMore u) : t.storedMore u := by
  obtain ⟨e, hc⟩ := h
  refine ⟨?_, ?_, fun c => ?_⟩
  · rw [e]
  · rw [e]
  · rw [hc c]

/-- A line but for its dirty mark. -/
def Line.cleaned (x : Line) : Line := { x with dirty := false }

/-- `t` is `u` but for what writes of resident lines leave beside their bytes, and holds the same lines but for their dirty marks. -/
structure State.written (t u : State) : Prop where
  more : t.storedMore u
  lines : ∀ l, (mapGet t.mem.lines l).map Line.cleaned = (mapGet u.mem.lines l).map Line.cleaned

theorem written_refl (u : State) : u.written u := ⟨storedMore_refl u, fun _ => rfl⟩

theorem written_trans {t u v : State} (h : t.written u) (g : u.written v) : t.written v :=
  ⟨storedMore_trans h.more g.more, fun l => (h.lines l).trans (g.lines l)⟩

theorem written_sawMore {t u : State} (h : t.sawMore u) : t.written u := ⟨storedMore_sawMore h, fun l => by rw [h.1]⟩

theorem alike_written : Alike State.written where
  cur h := by rw [h.more.1]
  log h := by rw [h.more.1]
  core h := h.more.2.2
  onCore h c _ hf := ⟨storedMore_onCore h.more c hf, h.lines⟩

/-- What a write rests on in the rest of the machine. -/
theorem ground_written {t u : State} (h : t.written u) :
    t.ftRep = u.ftRep ∧ t.ws = u.ws ∧ t.mem.ctls = u.mem.ctls ∧ t.mem.l2 = u.mem.l2 ∧ t.mem.opLines = u.mem.opLines ∧
      t.tree.engines = u.tree.engines := by
  rw [h.more.1]
  exact ⟨rfl, rfl, rfl, rfl, rfl, rfl⟩

/-- Lines that may be written may be written still. -/
theorem resident_written {t u : State} (h : t.written u) {p la n : Nat} (hu : u.resident p la n true) : t.resident p la n true := by
  intro a hl hn
  obtain ⟨region, x, line, failed, err, -, hw⟩ := hu a hl hn
  obtain ⟨w, lease, cached, free⟩ := hw rfl
  obtain ⟨time, ws, ctls, -⟩ := ground_written h
  have same := h.lines (a / 64)
  rw [line] at same
  obtain ⟨y, held, hy⟩ := Option.map_eq_some_iff.1 same
  unfold Line.cleaned at hy
  injection hy with _ hw hexp _ _ hfailed herr
  refine ⟨region, y, held, hfailed.trans failed, herr.trans err, .inl rfl, fun _ => ⟨hw.trans w, ?_, ?_, ?_⟩⟩
  · unfold State.ftOf
    rw [time, hexp]
    exact lease
  · rw [ctls]
    exact cached
  · unfold State.lockedAt
    rw [ws]
    exact free

/-! ## Bytes of L2 -/

/-- Bytes written in L2. -/
def State.putBytes (s : State) (la : Nat) (bs : List Byte) : State := s.onMem fun m => { m with l2 := setBytes m.l2 la bs }

theorem setBytes_append (m : Memory) (a : Nat) (xs ys : List Byte) :
    setBytes m a (xs ++ ys) = setBytes (setBytes m a xs) (a + xs.length) ys := by
  induction xs generalizing m a with
  | nil => rfl
  | cons x xs ih =>
    rw [List.cons_append, setBytes, ih, setBytes, List.length_cons, Nat.add_comm xs.length, Nat.add_assoc]

theorem putBytes_append (s : State) (la : Nat) (xs ys : List Byte) :
    (s.putBytes la xs).putBytes (la + xs.length) ys = s.putBytes la (xs ++ ys) :=
   congrArg (fun l2 => s.onMem fun m => { m with l2 := l2 }) (setBytes_append s.mem.l2 la xs ys).symm

/-! ## A write at its home -/

/-- A memory that a write has found its place in (R167, R168). -/
theorem order_sees (m : Mem) (q h key : Nat) : m.order q h key = { m with
    clocks := (m.order q h key).clocks, replicas := (m.order q h key).replicas, updates := (m.order q h key).updates
    stamps := (m.order q h key).stamps } := by
  unfold Mem.order Mem.catchLine
  dsimp only
  rw [catchUp_sees, catchUp_sees m]

/-- A write may wake the monitor of a core. -/
theorem core_wake (s : State) (line : Nat) (c : CoreId) : ∃ x, (s.wake line).core c = { s.core c with monitor := x } := by
  unfold State.wake State.core
  dsimp only
  rw [mapGet_map]
  case hk =>
    intro e
    split
    · split <;> rfl
    · rfl
  cases mapGet s.cores c.toNat with
  | none => exact ⟨_, rfl⟩
  | some k =>
    dsimp only [Option.map_some, Option.getD_some]
    split
    · split <;> exact ⟨_, rfl⟩
    · exact ⟨_, rfl⟩

/-- A write at its home leaves its bytes in L2, and beside them the order of writes, what the panels have come to see, the marks of
its line and the monitors woken. -/
theorem commit_eq (s : State) (q la : Nat) (bs : List Byte) : s.commit q la bs = { s with
    cores := (s.commit q la bs).cores
    mem := { s.mem with l2 := setBytes s.mem.l2 la bs, clocks := (s.commit q la bs).mem.clocks
                        replicas := (s.commit q la bs).mem.replicas, updates := (s.commit q la bs).mem.updates
                        stamps := (s.commit q la bs).mem.stamps, lines := (s.commit q la bs).mem.lines
                        opLines := (s.commit q la bs).mem.opLines } } := by
  have whole : s.sequence q la bs = { s with
      cores := (s.sequence q la bs).cores
      mem := { s.mem with l2 := setBytes s.mem.l2 la bs, clocks := (s.sequence q la bs).mem.clocks
                          replicas := (s.sequence q la bs).mem.replicas, updates := (s.sequence q la bs).mem.updates
                          stamps := (s.sequence q la bs).mem.stamps, lines := (s.sequence q la bs).mem.lines } } := by
    unfold State.sequence
    dsimp only
    rw [order_sees]
    rfl
  unfold State.commit
  split
  · rw [whole]
  · split
    · rfl
    · rw [whole]
      rfl

theorem commit_core (s : State) (q la : Nat) (bs : List Byte) (c : CoreId) : ∃ x, (s.commit q la bs).core c = { s.core c with monitor := x } := by
  unfold State.commit
  split
  · exact core_wake _ _ c
  · split
    · exact ⟨_, rfl⟩
    · exact core_wake _ _ c

/-- A write into a line that is held leaves the lines held as they were, but for their dirty marks. -/
theorem commit_held {s : State} {q la : Nat} {bs : List Byte} (h : (mapGet s.mem.lines (la / 64)).isSome = true) (l : Nat) :
    (mapGet (s.commit q la bs).mem.lines l).map Line.cleaned = (mapGet s.mem.lines l).map Line.cleaned := by
  obtain ⟨x, hx⟩ := Option.isSome_iff_exists.1 h
  obtain e | e := commit_lines s q la bs
  · rw [e]
  · rw [e, mapGet_mapPut]
    by_cases same : la / 64 = l
    · subst same
      rw [if_pos rfl, hx]
      rfl
    · rw [if_neg same]

/-! ## A write within one line -/

/-- `t` is such a state while an engine's operations on lines are under way (R166). -/
def State.writing (t u : State) : Prop := (t.onMem fun m => { m with opLines := none }).written u

theorem resident_writing {t u : State} (h : t.writing u) {p la n : Nat} (hu : u.resident p la n true) : t.resident p la n true :=
  resident_written h hu

theorem writing_commit {t u : State} (h : t.writing u) {q la : Nat} (bs : List Byte) (held : (mapGet t.mem.lines (la / 64)).isSome = true) :
    (t.commit q la bs).writing (u.putBytes la bs) := by
  obtain ⟨⟨e, remotes, cores⟩, lines⟩ := h
  have now := commit_eq t q la bs
  have core := commit_core t q la bs
  have kept := commit_held (q := q) (bs := bs) held
  generalize t.commit q la bs = t' at now core kept
  refine ⟨⟨?_, ?_, fun c => ?_⟩, fun l => (kept l).trans (lines l)⟩
  · have ended := congrArg (fun x : State => { x with mem := { x.mem with opLines := none } }) now
    refine ended.trans ((congrArg (fun x : State => { x with
      cores := t'.cores
      mem := { x.mem with l2 := setBytes x.mem.l2 la bs, clocks := t'.mem.clocks, replicas := t'.mem.replicas
                          updates := t'.mem.updates, stamps := t'.mem.stamps, lines := t'.mem.lines } }) e).trans ?_)
    rw [now]
    rfl
  · have same : t'.remotes = t.remotes := by rw [now]
    exact (congrArg (List.map Remote.unclocked) same).trans remotes
  · obtain ⟨x, hx⟩ := core c
    show t'.core c = { u.core c with winClk := (t'.core c).winClk, monitor := (t'.core c).monitor }
    rw [hx]
    exact congrArg (fun k : Core => { k with monitor := x }) (cores c)

end Sys2Proof.Machine

/-! Rows written granule by granule into resident lines (spec 07 R134, 08 R140, R166, 18 R324, R383). -/

namespace Sys2Proof.Machine

/-- A range that meets no part of the node table of a tree that runs (R134). -/
def State.offNodes (s : State) (la n : Nat) : Prop :=
  (vget s.tree.engines 0).en = false ∨ la + n ≤ (vget s.tree.engines 0).ntBase.toNat * 2 ^ 29 ∨
    (vget s.tree.engines 0).ntBase.toNat * 2 ^ 29 + 2 ^ 29 ≤ la

theorem offNodes_part {s : State} {la n la' n' : Nat} (h : s.offNodes la n) (hl : la ≤ la') (hn : la' + n' ≤ la + n) : s.offNodes la' n' := by
  obtain off | below | above := h
  · exact .inl off
  · exact .inr (.inl (by omega))
  · exact .inr (.inr (by omega))

theorem offNodes_writing {t u : State} (h : t.writing u) {la n : Nat} (hu : u.offNodes la n) : t.offNodes la n := by
  obtain ⟨-, -, -, -, -, engines⟩ := ground_written h
  have same : t.tree.engines = u.tree.engines := engines
  unfold State.offNodes
  rw [same]
  exact hu

theorem nodesAt_off {s : State} {la n : Nat} (hn : 0 < n) (h : s.offNodes la n) : s.nodesAt la n = [] := by
  unfold State.nodesAt
  dsimp only
  refine if_neg fun live => ?_
  simp only [Bool.and_eq_true, decide_eq_true_eq] at live
  obtain ⟨⟨en, low⟩, high⟩ := live
  obtain off | below | above := h
  · rw [off] at en
    cases en
  · omega
  · omega

section
variable {t u : State} {p : Nat} {owner : Tag} {va : Word}

/-- A resident line is made writable without a fault or a wait. -/
theorem needWrite_resident {la n : Nat} (hn : 0 < n) (h : t.resident p la n true) : needWrite owner la n va t = .ok () t := by
  obtain ⟨-, x, line, failed, err, -, hw⟩ := h la le_rfl (by omega)
  obtain ⟨w, lease, cached, free⟩ := hw rfl
  unfold needWrite State.line?
  simp only [free, line, failed, err, w, decide_eq_true lease, cached, BitVec.ofNat_eq_ofNat, BitVec.zero_and, bne_self_eq_false,
    Bool.false_and, Bool.or_self, Bool.not_false, Bool.and_self, Bool.false_eq_true, if_false, if_true]

/-- Bytes of one resident line off the node table are written as they are. -/
theorem writeLine_resident {la : Nat} {bs : List Byte} (hn : 0 < bs.length) (h : t.resident p la bs.length true)
    (off : t.offNodes la bs.length) : writeLine p owner la bs va .part t = .ok () (t.commit p la bs) := by
  obtain ⟨-, x, line, failed, err, -, -⟩ := h la le_rfl (by omega)
  have clean : t.cleanLine (la / 64) bs.length = t := by simp [State.cleanLine, State.line?, line, failed, err]
  unfold writeLine
  rw [needWrite_resident hn h]
  dsimp only
  rw [clean, if_neg (by decide), nodesAt_off hn off]
  rfl

theorem writing_change {la : Nat} (h : t.writing u) : (t.change la).writing u := by
  unfold State.change
  split
  · obtain ⟨⟨e, remotes, cores⟩, lines⟩ := h
    exact ⟨⟨congrArg (fun x : State => { x with tree := { x.tree with changes := t.tree.changes ++ [patchOf la] } }) e, remotes, cores⟩,
      lines⟩
  · exact h

theorem opLog_writing (h : t.writing u) : t.mem.opLog = u.mem.opLog := alike_written.log (t := t.onMem fun m => { m with opLines := none }) h

/-- One operation on a line, with the change of its patch (R140). -/
def lineWrite (p : Nat) (owner : Tag) (va : Word) (a : Nat) (b : List Byte) : M Unit := do
  let _ ← lineOp (do
    let ls := (← getState).mem.opLines.getD []
    writeLine p owner a b va .part
    modState fun s => if ls.any fun l => patchOf (l * 64) == patchOf a then s else s.change a
    pure [])
  pure ()

theorem opWrite_eq (la : Nat) (bs : List Byte) : opWrite p owner la bs va = writeSpan (lineWrite p owner va) (bs.length / 64 + 2) la bs := rfl

theorem reaches_lineOp {act : M (List Byte)} {v : State} {Q : List Byte → Prop} (log : u.mem.opLog = none)
    (h : Reaches State.writing u act v Q) : Reaches State.writing u (lineOp act) v Q := by
  intro t ht
  rw [lineOp_whole ((opLog_writing ht).trans log)]
  exact h t ht

theorem reaches_lineWrite {la : Nat} {bs : List Byte} (hn : 0 < bs.length) (log : u.mem.opLog = none)
    (lines : u.resident p la bs.length true) (off : u.offNodes la bs.length) :
    Reaches State.writing u (lineWrite p owner va la bs) (u.putBytes la bs) fun _ => True := by
  refine reaches_bind (Q := fun _ => True) (reaches_lineOp log (reaches_state fun s _ => ?_)) fun _ _ => reaches_pure trivial
  refine reaches_bind (v := u.putBytes la bs) (Q := fun _ => True) (fun t ht => ?_) fun _ _ =>
    reaches_bind (reaches_modState fun t ht => ?_) fun _ _ => reaches_pure trivial
  · have there := resident_writing ht lines
    obtain ⟨-, x, line, -⟩ := there la le_rfl (by omega)
    exact ⟨(), _, writeLine_resident hn there (offNodes_writing ht off), writing_commit ht bs (Option.isSome_of_eq_some line), trivial⟩
  · split
    · exact ht
    · exact writing_change ht

/-- Bytes across resident lines. -/
theorem reaches_writeSpan (fuel : Nat) : ∀ (la : Nat) (bs : List Byte) (u : State), u.mem.opLog = none → u.resident p la bs.length true →
    u.offNodes la bs.length → bs.length ≤ 64 * fuel - la % 64 →
    Reaches State.writing u (writeSpan (lineWrite p owner va) fuel la bs) (u.putBytes la bs) fun _ => True := by
  induction fuel with
  | zero =>
    intro la bs u _ _ _ hn
    obtain rfl : bs = [] := List.length_eq_zero_iff.1 (by omega)
    exact reaches_pure trivial
  | succ fuel ih =>
    intro la bs u log lines off hn
    cases bs with
    | nil => exact reaches_pure trivial
    | cons b bs =>
      rw [writeSpan_cons]
      have some : 0 < min (b :: bs).length (64 - la % 64) := by rw [List.length_cons]; omega
      have most : min (b :: bs).length (64 - la % 64) ≤ (b :: bs).length := Nat.min_le_left _ _
      have next : (b :: bs).length - min (b :: bs).length (64 - la % 64) ≤ 64 * fuel - (la + min (b :: bs).length (64 - la % 64)) % 64 := by
        omega
      generalize min (b :: bs).length (64 - la % 64) = k at some most next ⊢
      have first : ((b :: bs).take k).length = k := by rw [List.length_take]; omega
      have rest : ((b :: bs).drop k).length = (b :: bs).length - k := List.length_drop
      refine reaches_bind (v := u.putBytes la ((b :: bs).take k)) (reaches_lineWrite (by rw [first]; exact some) log
        (resident_part lines le_rfl (by omega)) (offNodes_part off le_rfl (by omega))) fun _ _ => ?_
      have whole := putBytes_append u la ((b :: bs).take k) ((b :: bs).drop k)
      rw [first, List.take_append_drop] at whole
      rw [← whole]
      exact ih (la + k) ((b :: bs).drop k) (u.putBytes la ((b :: bs).take k)) log (resident_part lines (by omega) (by omega))
        (offNodes_part off (by omega) (by omega)) (by omega)

/-- The lines of a granule are made writable. -/
theorem reaches_needLines (fuel : Nat) : ∀ la n : Nat, u.resident p la n true →
    Reaches State.written u (needLines owner va fuel la n) u fun _ => True := by
  induction fuel with
  | zero => exact fun _ _ _ => reaches_pure trivial
  | succ fuel ih =>
    intro la n lines
    unfold needLines
    split
    · exact reaches_pure trivial
    · dsimp only
      have some : 0 < min n (64 - la % 64) := by omega
      have most : min n (64 - la % 64) ≤ n := Nat.min_le_left _ _
      generalize min n (64 - la % 64) = k at some most ⊢
      refine reaches_bind (v := u) (Q := fun _ => True) (fun t ht => ⟨(), t, needWrite_resident some (resident_written ht
        (resident_part lines le_rfl (by omega))), ht, trivial⟩) fun _ _ => ih (la + k) (n - k) (resident_part lines (by omega) (by omega))

/-- The bytes that one word has written in a line before are of the same operation (R166). -/
theorem reaches_oneOp {act : M Unit} {v : State} (ls : List Nat) (whole : u.mem.opLines = none)
    (h : Reaches State.writing u act v fun _ => True) : Reaches State.written u (oneOp ls act) v fun _ => True := by
  intro t ht
  obtain ⟨-, -, -, -, kept, -⟩ := ground_written ht
  have back : ((t.onMem fun m => { m with opLines := some ls }).onMem fun m => { m with opLines := none }) = t := by
    show ({ t with mem := { t.mem with opLines := none } } : State) = t
    rw [← kept.trans whole]
  obtain ⟨_, t', run, ht', -⟩ := h (t.onMem fun m => { m with opLines := some ls }) (by unfold State.writing; rw [back]; exact ht)
  refine ⟨t'.mem.opLines.getD ls, t'.onMem fun m => { m with opLines := none }, ?_, ht', trivial⟩
  unfold oneOp
  rw [run]

/-- One granule (R324). -/
theorem reaches_writeGranule {c : CoreId} {la : Nat} {bs : List Byte} {q : Perf} (hn : 0 < bs.length) (hq : q.resume = 0)
    (log : u.mem.opLog = none) (whole : u.mem.opLines = none) (lines : u.resident (panelOf c) la bs.length true) (off : u.offNodes la bs.length) :
    Reaches State.written u (writeGranule c owner la bs va q) (u.putBytes la bs) fun r => r.resume = 0 ∧ r.done = q.done + bs.length := by
  have region := (lines la le_rfl (by omega)).1
  unfold writeGranule
  have due : ¬ decide (q.pos + bs.length ≤ q.resume) = true := by
    rw [hq, decide_eq_true_eq]
    omega
  rw [if_neg due, if_neg (by omega)]
  refine reaches_bind (reaches_needLines _ la bs.length lines) fun _ _ => ?_
  rw [opWrite_eq]
  exact reaches_bind (reaches_oneOp q.lines whole (reaches_writeSpan _ la bs u log lines off (by omega))) fun _ _ => reaches_pure ⟨hq, rfl⟩

theorem writeMemRow_nil (c : CoreId) (isVa : Bool) (fuel la : Nat) (q : Perf) : writeMemRow c owner va isVa fuel la [] q = pure q := by
  cases fuel <;> rfl

/-- A row in granules of 256 bytes. -/
theorem reaches_writeMemRow {c : CoreId} {isVa : Bool} (fuel : Nat) : ∀ (va : Word) (la : Nat) (bs : List Byte) (u : State) (q : Perf),
    q.resume = 0 → u.mem.opLog = none → u.mem.opLines = none → u.resident (panelOf c) la bs.length true → u.offNodes la bs.length →
    bs.length ≤ 256 * fuel →
    Reaches State.written u (writeMemRow c owner va isVa fuel la bs q) (u.putBytes la bs) fun r => r.resume = 0 ∧ r.done = q.done + bs.length := by
  induction fuel with
  | zero =>
    intro va la bs u q hq _ _ _ _ hn
    obtain rfl : bs = [] := List.length_eq_zero_iff.1 (by omega)
    exact reaches_pure ⟨hq, rfl⟩
  | succ fuel ih =>
    intro va la bs u q hq log whole lines off hn
    unfold writeMemRow
    by_cases none : bs = []
    · subst none
      exact reaches_pure ⟨hq, rfl⟩
    have some : 0 < bs.length := List.length_pos_iff.2 none
    have first : (bs.take 256).length = min 256 bs.length := List.length_take
    have rest : (bs.drop 256).length = bs.length - 256 := List.length_drop
    rw [if_neg (by simpa using none)]
    refine reaches_bind (reaches_attempt (reaches_writeGranule (by omega) hq log whole (resident_part lines le_rfl (by omega))
      (offNodes_part off le_rfl (by omega)))) fun r ⟨q', e, hq', done⟩ => ?_
    rw [e]
    dsimp only
    by_cases long : bs.length ≤ 256
    · rw [List.take_of_length_le long] at done ⊢
      rw [List.drop_eq_nil_of_le long, writeMemRow_nil]
      exact reaches_pure ⟨hq', done⟩
    · have joined := putBytes_append u la (bs.take 256) (bs.drop 256)
      rw [first, Nat.min_eq_left (by omega), List.take_append_drop] at joined
      rw [← joined]
      exact reaches_weaken (ih _ (la + 256) (bs.drop 256) (u.putBytes la (bs.take 256)) q' hq' log whole
        (resident_part lines (by omega) (by omega)) (offNodes_part off (by omega) (by omega)) (by omega))
        fun r ⟨hr, hd⟩ => ⟨hr, by omega⟩

end

end Sys2Proof.Machine

/-! The rows that CGATH, CSCAT and CPFA read and write, and the states that a copy goes through (spec 18 R324, R327, R333). -/

namespace Sys2Proof.Machine

/-! ## Rows under a relation -/

section
variable {s u : State} {c : CoreId} {d : Dsc}

/-- A row of KIND 5 is written into its resident lines. -/
theorem reaches_writeMem5 {f : Fmt} {slot j b first : Nat} {r : Row} {q : Perf} (kind : dKind d = 5)
    (hf : Fmt.parse (u.rowEnc c d slot j) = some f) (size : r.memory.length = f.memBytes (dCols d)) (hq : q.resume = 0)
    (log : u.mem.opLog = none) (whole : u.mem.opLines = none) (there : u.rowThere c d j b first true)
    (off : u.clearOfNodes c (rowAt d slot j) b first) :
    Reaches State.written u (writeRowTo c d slot j b first f r q) (u.dstRow c d slot j b first (f.memBytes (dCols d)) r)
      fun x => x.resume = 0 ∧ x.done = q.done + f.memBytes (dCols d) := by
  obtain ⟨acc, spad⟩ := offChip_of_kind5 kind
  have some : 0 < f.memBytes (dCols d) := memBytes_pos hf (Nat.succ_pos _)
  obtain ⟨g, la, hg, hla, lines⟩ := there
  have clear : u.offNodes la (g.memBytes (dCols d)) := off g la hg hla
  obtain rfl : g = f := Option.some.inj (hg.symm.trans (rowEnc_kind5 kind slot j ▸ hf))
  refine reaches_state fun t ht => ?_
  have same : addr5 (t.core c) d b first (g.memBytes (dCols d)) = addr5 (u.core c) d b first (g.memBytes (dCols d)) := by
    rw [alike_written.core ht c]
    rfl
  have due : ¬ decide (q.pos + g.memBytes (dCols d) ≤ q.resume) = true := by
    rw [hq, decide_eq_true_eq]
    omega
  have stored : u.dstRow c d slot j b first (g.memBytes (dCols d)) r = u.putBytes la r.memory := by
    simp only [State.dstRow, acc, spad, hla, Bool.or_self, Bool.false_eq_true, if_false]
    rfl
  simp only [acc, spad, kind, same, due, Bool.or_self, Bool.false_eq_true, if_false]
  refine reaches_bind (reaches_translate5 alike_written (translate_of_lineAddr kind hla) (lines la le_rfl (by omega)).1) fun a ha => ?_
  rw [ha, stored, ← size]
  rw [← size] at lines clear
  exact reaches_writeMemRow _ _ la r.memory u q hq log whole lines clear (by omega)

/-- A row of the issuing core's own stores is written. -/
theorem reaches_writeOwnRow {f : Fmt} {slot j b first : Nat} {r : Row} {q : Perf} (chip : onChip d) (own : dKind d ≠ 7)
    (some : 0 < f.memBytes (dCols d)) (hq : q.resume = 0) :
    Reaches State.counted u (writeRowTo c d slot j b first f r q) (u.dstRow c d slot j b first (f.memBytes (dCols d)) r)
      fun x => x.resume = 0 ∧ x.done = q.done + f.memBytes (dCols d) := by
  have here : (inAcc d || inSpad d) = true := Bool.or_eq_true_iff.2 chip
  have due : ¬ decide (q.pos + f.memBytes (dCols d) ≤ q.resume) = true := by
    rw [hq, decide_eq_true_eq]
    omega
  have self : opCore c d = c := if_neg own
  unfold State.dstRow
  rw [if_pos here]
  refine reaches_state fun t ht => ?_
  obtain ⟨x, rfl⟩ := ht
  simp only [here, if_true, if_neg due, self]
  unfold State.putRow
  rw [self]
  by_cases acc : inAcc d = true
  · simp only [acc, if_true]
    refine reaches_bind (reaches_modState fun t ht => ?_) fun _ _ => reaches_pure ⟨hq, rfl⟩
    obtain ⟨y, rfl⟩ := ht
    exact ⟨y, rfl⟩
  · simp only [acc, Bool.false_eq_true, if_false]
    refine reaches_bind (reaches_modState fun t ht => ?_) fun _ _ => reaches_pure ⟨hq, rfl⟩
    obtain ⟨y, rfl⟩ := ht
    exact ⟨y, rfl⟩

theorem atWork_written {t : State} (h : t.written u) (hu : s.atWork u) : s.atWork t where
  chip := by
    refine ⟨(alike_written.cur h).trans hu.chip.cur, fun q => ?_, fun q => ?_⟩
    · rw [alike_written.core h q]
      exact hu.chip.clean q
    · have same := hu.chip.same q
      rw [alike_written.core h q]
      exact ⟨same.fmtSlot, same.bankFmt, same.accMode, same.bobbins, same.clean⟩
  log := (alike_written.log h).trans hu.log

/-- A row on chip is read while memory is being written. -/
theorem reaches_readChipRow {f : Fmt} {slot j b first : Nat} (hu : s.atWork u) (chip : onChip d) (hf : Fmt.parse (u.rowEnc c d slot j) = some f) :
    Reaches State.written u (readRow c d slot j b first) u (· = (u.srcRow c d slot j b first f, u.rowEnc c d slot j)) := by
  intro t ht
  have enc := rowEnc_onchip hu.chip c d slot j
  rw [enc] at hf ⊢
  obtain ⟨a, t', e, ht', ha⟩ := sees_readRow (atWork_written ht hu) b first chip hf t (sawMore_refl t)
  refine ⟨a, t', e, written_trans (written_sawMore ht') ht, ha.trans ?_⟩
  have here : (inAcc d || inSpad d) = true := Bool.or_eq_true_iff.2 chip
  have row : t.rowOf c d slot j f = u.rowOf c d slot j f := by
    unfold State.rowOf
    rw [alike_written.core ht c, alike_written.core ht (opCore c d)]
    rfl
  unfold State.srcRow
  rw [if_pos here, row]

end

/-! ## The states that a copy goes through -/

/-- A core of which a word at its issue, and its effects, have changed no more than flags, engines, counters and stores. -/
def Core.stirred (q k : Core) : Prop :=
  q = { k with flags := q.flags, m := q.m, v := q.v, c := q.c, pmCnt := q.pmCnt, spad := q.spad, side := q.side, spadErr := q.spadErr
               acc := q.acc, accErr := q.accErr }

theorem stirred_refl (k : Core) : k.stirred k := rfl

theorem stirred_trans {j k q : Core} (h : q.stirred k) (g : k.stirred j) : q.stirred j := by
  unfold Core.stirred at *
  exact h.trans (congrArg (fun x : Core => { x with
    flags := q.flags, m := q.m, v := q.v, c := q.c, pmCnt := q.pmCnt, spad := q.spad, side := q.side, spadErr := q.spadErr
    acc := q.acc, accErr := q.accErr }) g)

theorem stirred_issuesTo {k q : Core} (h : k.issuesTo q) : q.stirred k := by
  unfold Core.issuesTo at h
  unfold Core.stirred
  rw [h]

theorem stirred_setAccRow (k : Core) (r : Nat) (vs : List (BitVec 32)) : (k.setAccRow r vs).stirred k := by
  rw [setAccRow_eq]
  rfl

theorem stirred_putSpadRow (k : Core) (bank row : Nat) (r : Row) : (k.putSpadRow bank row r).stirred k := rfl

theorem stirred_wrote (k : Core) (n : Nat) (q : BitVec 32) : ((k.pm 5 n).setEngine .c { k.c with lfsr := q }).stirred k := rfl

/-- `u` is a state that a copy, issued in `s`, may come to from `s2` by moving rows. -/
structure State.copying (s s2 u : State) : Prop where
  work : s.atWork u
  rest : u = { s2 with cores := u.cores, mem := { s2.mem with l2 := u.mem.l2 } }
  core : ∀ c, (u.core c).stirred (s2.core c)

section
variable {s s2 u : State}

theorem copying_onCore (h : s.copying s2 u) (c : CoreId) {f : Core → Core} (chip : ∀ k : Core, k.chipAs (f k))
    (hf : ∀ k : Core, (f k).stirred k) : s.copying s2 (u.onCore c f) := by
  refine ⟨atWork_onCore h.work c chip, congrArg (fun x : State => { x with cores := (u.onCore c f).cores }) h.rest, fun q => ?_⟩
  by_cases same : q = c
  · rw [same, core_onCore_same]
    exact stirred_trans (hf _) (h.core c)
  · rw [core_onCore_other _ _ _ _ same]
    exact h.core q

theorem copying_putBytes (h : s.copying s2 u) (la : Nat) (bs : List Byte) : s.copying s2 (u.putBytes la bs) :=
  ⟨⟨onchip_onMem h.work.chip _, h.work.log⟩,
    congrArg (fun x : State => { x with mem := { x.mem with l2 := setBytes u.mem.l2 la bs } }) h.rest, h.core⟩

/-- Moving a row is such a step. -/
theorem copying_moveRow (h : s.copying s2 u) (c : CoreId) (mode : Mode) (sat : Bool) (x y : RowAt) (b first : Nat) :
    s.copying s2 (u.moveRow u c mode sat x y b first) := by
  unfold State.moveRow
  dsimp only
  split
  · refine copying_onCore ?_ c (fun k => (chipAs_pm k _ _).trans (chipAs_setEngine _ _ _)) fun k => stirred_wrote k _ _
    unfold State.dstRow
    split
    · unfold State.putRow
      refine copying_onCore h _ (fun k => ?_) fun k => ?_
      · split
        · exact chipAs_setAccRow _ _ _
        · exact chipAs_putSpadRow _ _ _ _
      · split
        · exact stirred_setAccRow _ _ _
        · exact stirred_putSpadRow _ _ _ _
    · split
      · exact copying_putBytes h _ _
      · exact h
  · exact h

theorem lineAddr_copying (h : s.copying s2 u) (c : CoreId) (d : Dsc) (j b first n : Nat) (write : Bool) :
    u.lineAddr c d j b first n write = s2.lineAddr c d j b first n write := by
  have ws : u.ws = s2.ws := by rw [h.rest]
  have core := h.core c
  unfold Core.stirred at core
  unfold State.lineAddr State.lockedWid
  rw [core, ws]
  rfl

theorem fmtSlot_copying (h : s.copying s2 u) (c : CoreId) : (u.core c).fmtSlot = (s2.core c).fmtSlot := by
  have core := h.core c
  unfold Core.stirred at core
  rw [core]

/-- A row that could be accessed may be accessed still. -/
theorem rowThere_copying (h : s.copying s2 u) {c : CoreId} {d : Dsc} {j b first : Nat} {write : Bool} (h2 : s2.rowThere c d j b first write) :
    u.rowThere c d j b first write := by
  obtain ⟨f, la, hf, hla, lines⟩ := h2
  refine ⟨f, la, by rw [fmtSlot_copying h]; exact hf, by rw [lineAddr_copying h]; exact hla, ?_⟩
  rw [h.rest]
  exact lines

theorem clearOfNodes_copying (h : s.copying s2 u) {c : CoreId} {y : RowAt} {b first : Nat} (h2 : s2.clearOfNodes c y b first) :
    u.clearOfNodes c y b first := by
  have tree : u.tree = s2.tree := by rw [h.rest]
  unfold State.clearOfNodes
  simp only [fmtSlot_copying h, lineAddr_copying h, tree]
  exact h2

end

end Sys2Proof.Machine

/-! CGATH, CSCAT and CPFA: the rows that they move, one after another (spec 18 R327, R333). -/

namespace Sys2Proof.Machine

/-! ## The pass of a core (R293) -/

/-- Two cores with one pass. -/
structure Core.samePass (q k : Core) : Prop where
  memory : q.passMem = k.passMem
  header : q.header = k.header

section
variable {q k : Core}

theorem samePass_stirred (h : q.stirred k) : q.samePass k := by
  unfold Core.stirred at h
  exact ⟨by rw [h], by rw [h]⟩

theorem Core.samePass.trans {j : Core} (h : q.samePass k) (g : k.samePass j) : q.samePass j := ⟨h.memory.trans g.memory, h.header.trans g.header⟩

theorem samePass_alike {R : State → State → Prop} (hR : Alike R) {t u : State} (h : R t u) (c : CoreId) : (t.core c).samePass (u.core c) :=
  ⟨by rw [hR.core h c], by rw [hR.core h c]⟩

theorem rbt_samePass (h : q.samePass k) (b w : Nat) : q.rbt b w = k.rbt b w := by rw [Core.rbt, h.memory]; rfl

theorem rbtParked_samePass (h : q.samePass k) (b : Nat) : q.rbtParked b = k.rbtParked b := by rw [Core.rbtParked, rbt_samePass h]; rfl

theorem rbtStart_samePass (h : q.samePass k) (b : Nat) : q.rbtStart b = k.rbtStart b := by rw [Core.rbtStart, rbt_samePass h]; rfl

theorem hdrBlocks_samePass (h : q.samePass k) : q.hdrBlocks = k.hdrBlocks := by rw [Core.hdrBlocks, h.header]; rfl

theorem rowBlock_samePass (h : q.samePass k) (p : Pass) (i : Nat) : q.rowBlock p i = k.rowBlock p i := by
  have start : q.rbtStart = k.rbtStart := funext (rbtStart_samePass h)
  have count : q.rbtCount = k.rbtCount := funext fun b => by rw [Core.rbtCount, rbt_samePass h]; rfl
  unfold Core.rowBlock Core.blockOf
  rw [start, count, hdrBlocks_samePass h]

theorem rowParked_samePass (h : q.samePass k) (p : Pass) (i : Nat) : q.rowParked p i = k.rowParked p i := by
  rw [Core.rowParked, rbtParked_samePass h, rowBlock_samePass h]
  rfl

theorem noAdapter_samePass (h : q.samePass k) (ds : List Dsc) (b : Nat) : noAdapter q ds b = noAdapter k ds b := by
  rw [noAdapter, rbt_samePass h]
  rfl

end

/-! ## One row -/

/-- A row that can be read, and written once it is converted. -/
structure RowMoves (R : State → State → Prop) (u : State) (c : CoreId) (mode : Mode) (sat : Bool) (x y : RowAt) (b first : Nat) (fs fd : Fmt) :
    Prop where
  source : Fmt.parse (u.rowEnc c x.d x.slot x.row) = some fs
  target : Fmt.parse (u.rowEnc c y.d y.slot y.row) = some fd
  read : Reaches R u (readRow c x.d x.slot x.row b first) u (· = (u.srcRow c x.d x.slot x.row b first fs, u.rowEnc c x.d x.slot x.row))
  write : ∀ p : Perf, p.resume = 0 → ∀ r, r = (convertRow (u.rowEnc c x.d x.slot x.row) (u.rowEnc c y.d y.slot y.row) fs fd (dCols x.d)
      (dCols y.d) mode sat (u.srcRow c x.d x.slot x.row b first fs) (u.core c).c.lfsr).1 →
    Reaches R u (writeRowTo c y.d y.slot y.row b first fd r p) (u.dstRow c y.d y.slot y.row b first (fd.memBytes (dCols y.d)) r)
      fun q => q.resume = 0 ∧ q.done = p.done + fd.memBytes (dCols y.d)

/-- Whose fault a row's would be is of no matter where none comes. -/
theorem reaches_movedRow {R : State → State → Prop} (hR : Alike R) {u : State} {c : CoreId} (w : Issued) {mode : Mode} {sat : Bool} {x y : RowAt}
    {b first : Nat} {parked : M Bool} {p : Perf} {fs fd : Fmt} (h : RowMoves R u c mode sat x y b first fs fd) (hp : p.resume = 0)
    (ownX ownY : Bool) (hk : Reaches R u parked u (· = false)) :
    Reaches R u (copyRow c w mode sat { x with own := ownX } { y with own := ownY } b first parked p) (u.moveRow u c mode sat x y b first)
      (·.resume = 0) :=
  reaches_copyRow (x := { x with own := ownX }) (y := { y with own := ownY }) hR w h.source h.target hp hk h.read (h.write p hp)

section
variable {s s2 u : State} {c : CoreId} {x y : RowAt} {b first : Nat} {mode : Mode} {sat : Bool}

/-- A row of memory moves into the issuing core's own stores. -/
theorem rowMoves_gather (h : s.copying s2 u) (kind : dKind x.d = 5) (there : s2.rowThere c x.d x.row b first false) (chip : onChip y.d)
    (own : dKind y.d ≠ 7) (target : (Fmt.parse (s.rowEnc c y.d y.slot y.row)).isSome = true) :
    ∃ fs fd, RowMoves State.counted u c mode sat x y b first fs fd := by
  have there := rowThere_copying h there
  obtain ⟨fd, hd⟩ := Option.isSome_iff_exists.1 target
  rw [← rowEnc_onchip h.work.chip] at hd
  obtain ⟨fs, -, hs, -⟩ := id there
  have hs : Fmt.parse (u.rowEnc c x.d x.slot x.row) = some fs := by rw [rowEnc_kind5 kind]; exact hs
  exact ⟨fs, fd, hs, hd, reaches_readMemRow kind hs h.work.log there,
    fun p hp r _ => reaches_writeOwnRow chip own (memBytes_pos hd (Nat.succ_pos _)) hp⟩

/-- A row on chip moves into memory. -/
theorem rowMoves_scatter (h : s.copying s2 u) (whole : s2.mem.opLines = none) (chip : onChip x.d)
    (source : (Fmt.parse (s.rowEnc c x.d x.slot x.row)).isSome = true) (kind : dKind y.d = 5)
    (pair : movePair (s.rowEnc c x.d x.slot x.row) (s.rowEnc c y.d y.slot y.row) (dCols x.d) (dCols y.d) = true)
    (blocks : ∀ f, Fmt.parse (s.rowEnc c y.d y.slot y.row) = some f → f.blk = 0 ∨ dCols y.d % f.blk = 0)
    (there : s2.rowThere c y.d y.row b first true) (off : s2.clearOfNodes c (rowAt y.d y.slot y.row) b first) :
    ∃ fs fd, RowMoves State.written u c mode sat x y b first fs fd := by
  have there := rowThere_copying h there
  have lines : u.mem.opLines = none := by rw [h.rest]; exact whole
  obtain ⟨fs, hs⟩ := Option.isSome_iff_exists.1 source
  rw [← rowEnc_onchip h.work.chip] at hs pair
  rw [← rowEnc_onchip h.work.chip c y.d] at pair
  obtain ⟨fd, -, hd, -⟩ := id there
  have hd : Fmt.parse (u.rowEnc c y.d y.slot y.row) = some fd := by rw [rowEnc_kind5 kind]; exact hd
  have here : (inAcc x.d || inSpad x.d) = true := Bool.or_eq_true_iff.2 chip
  refine ⟨fs, fd, hs, hd, reaches_readChipRow h.work chip hs, fun p hp r hr => ?_⟩
  refine reaches_writeMem5 kind hd ?_ hp h.work.log lines there (clearOfNodes_copying h off)
  rw [hr]
  refine convertRow_length mode sat _ hs hd pair ?_ (blocks fd (by rw [← rowEnc_onchip h.work.chip]; exact hd))
  unfold State.srcRow
  rw [if_pos here]
  exact rowOf_sized hs

end

/-! ## CGATH and CSCAT (R327) -/

/-- The rows of d1 moved to those of d0, but for those left out. -/
theorem reaches_copyBody {R : State → State → Prop} (hR : Alike R) {s s2 : State} {o : D2Conv} {w : Issued} (hw : w.resume = 0)
    (start : s.copying s2 s2) (kind : dKind (w.dsc 0) ≠ 4)
    (row : ∀ i < dRows (w.dsc 0), (s2.core s.cur).moves o.pass w.dscs i → ∀ u, s.copying s2 u → ∀ mode, ∃ fs fd,
      RowMoves R u s.cur mode o.sat (rowAt (w.dsc 1) (w.slot 1) i) (rowAt (w.dsc 0) (w.slot 0) i)
        ((s2.core s.cur).rowBlock o.pass i) ((s2.core s.cur).firstAt o.pass i) fs fd) :
    Reaches R s2 (copyBody o w) ((List.range (dRows (w.dsc 0))).foldl (fun u i =>
        if (s2.core s.cur).rowParked o.pass i || noAdapter (s2.core s.cur) w.dscs ((s2.core s.cur).rowBlock o.pass i) then u
        else u.moveRow u s.cur (modeOf o.rnd (s2.core s.cur).round) o.sat (rowAt (w.dsc 1) (w.slot 1) i) (rowAt (w.dsc 0) (w.slot 0) i)
          ((s2.core s.cur).rowBlock o.pass i) ((s2.core s.cur).firstAt o.pass i)) s2)
      (· = { w with deferred := bobEnds .c [dst0 o.d0, src1 o.d1] w.dscs }) := by
  have none : (dKind (w.dsc 0) = 4 && dDeclare (w.dsc 0)) = false := by simp [kind]
  refine reaches_state fun t ht => ?_
  dsimp only
  rw [hR.cur ht, start.work.chip.cur]
  refine reaches_bind (reaches_engMode hR s.cur o.rnd) fun mode hm => ?_
  rw [hm]
  unfold declareMarks
  simp only [none, Bool.false_eq_true, if_false]
  refine reaches_bind (v := s2) (Q := fun _ => True) (reaches_pure trivial) fun _ _ => ?_
  refine reaches_bind (reaches_copyRows hR (I := s.copying s2) (fun u hu => hu.work.log) (fun u i hu => ?_) (fun i hi u p hu hp => ?_)
    start hw) fun _ _ => reaches_pure rfl
  · split
    · exact hu
    · exact copying_moveRow hu _ _ _ _ _ _ _
  · refine reaches_state fun t ht => ?_
    have pass := (samePass_alike hR ht s.cur).trans (samePass_stirred (hu.core s.cur))
    simp only [rowParked_samePass pass, noAdapter_samePass pass, rowBlock_samePass pass, rbtStart_samePass pass]
    split
    · exact reaches_pure hp
    · rename_i moved
      simp only [Bool.or_eq_true, not_or, Bool.not_eq_true] at moved
      obtain ⟨fs, fd, moves⟩ := row i hi moved u hu (modeOf o.rnd (s2.core s.cur).round)
      refine reaches_movedRow hR w moves hp _ _ (reaches_weaken (reaches_parkedNow hR s.cur o.pass i) fun k hk => ?_)
      rw [hk, rowParked_samePass (samePass_stirred (hu.core s.cur))]
      exact moved.1

end Sys2Proof.Machine

/-! The results of CGATH, CSCAT and CPFA (spec 18 R327, R333, 23 R361). -/

namespace Sys2Proof.Machine

/-! ## Words of memory rows at their issue -/

theorem storedMore_counted {t u : State} (h : t.counted u) : t.storedMore u := by
  obtain ⟨x, rfl⟩ := h
  exact ⟨rfl, rfl, fun _ => rfl⟩

theorem opsNow_none {s : State} {e : EWord} {c : CoreId} {ds : List Dsc} (h : s.lineOps = none) : s.opsNow e c ds = none := by
  unfold State.opsNow
  rw [h]

/-- A word whose effects are performed whole, and end in one state but for a relation, stands in progress with them performed. -/
theorem issuesTo_reaches {R : State → State → Prop} (refl : ∀ u, R u u) {s s1 v : State} {i : Instr} {e : EWord} {w w' : Issued}
    (he : engineWord i = some e) (hi : s.issueE i e = some (w, s1)) (now : s1.opsNow e s.cur w.dscs = none) (hf : w.fresh) (hf' : w'.fresh)
    (hb : Reaches R s1 (e.body { w with todo := true }) v (· = { w' with todo := true })) : ∃ t, IssuesTo i s e.strm w' t ∧ R t v := by
  obtain ⟨_, t, run, ht, rfl⟩ := hb s1 (refl s1)
  obtain ⟨_, ops, _, own, env⟩ := hf
  obtain ⟨todo', ops', lines', own', _⟩ := hf'
  refine ⟨t, ?_, ht⟩
  unfold IssuesTo
  rw [exec_engine he, runE_ok i e s s1 t w _ hi now ops env own run]
  congr 2
  rw [← todo', ← ops', ← lines', ← own']

/-! ## The checks of a copy (R327) -/

theorem copyCheck_zero {srcs dsts : List Nat} {p : Pass} {decl issue : Bool} {s : State} {c : CoreId} {ds : List Dsc}
    (h : copyCheck srcs dsts p decl issue s c ds = 0) :
    kindIn (ds.getD 0 0) dsts = true ∧ kindIn (ds.getD 1 0) srcs = true ∧ dRows (ds.getD 0 0) = dRows (ds.getD 1 0) ∧
      s.moveOk issue c (ds.getD 0 0) (ds.getD 1 0) = true := by
  obtain ⟨h, -⟩ := BitVec.or_eq_zero_iff.1 h
  obtain ⟨h, -⟩ := BitVec.or_eq_zero_iff.1 h
  obtain ⟨h, -⟩ := BitVec.or_eq_zero_iff.1 h
  obtain ⟨h, move⟩ := BitVec.or_eq_zero_iff.1 h
  obtain ⟨h, rows⟩ := BitVec.or_eq_zero_iff.1 h
  obtain ⟨target, source⟩ := BitVec.or_eq_zero_iff.1 h
  exact ⟨kindIn_of_kindBad (.inl rfl) target, kindIn_of_kindBad (.inr (.inl rfl)) source,
    bne_eq_false_iff_eq.1 (false_of_descField (.inr (.inl rfl)) rows), (Bool.not_eq_false' _).mp (false_of_descField (.inr (.inl rfl)) move)⟩

/-- The kinds of a copy's operand in the stores of its own core. -/
theorem own_of_kindIn {s : State} {c : CoreId} {d : Dsc} {ks : List Nat} (hd : s.dscOk c d = true) (h : kindIn d ks = true)
    (hks : ∀ k ∈ ks, k ∈ [1, 2, 3]) : onChip d ∧ dKind d ≠ 7 ∧ dKind d ≠ 4 := by
  have own : dKind d ∈ [1, 2, 3] := hks _ (List.contains_iff_mem.1 h)
  simp only [List.mem_cons, List.not_mem_nil, or_false] at own
  refine ⟨onChip_of_kind hd (List.contains_iff_mem.2 ?_), by omega, by omega⟩
  simp only [List.mem_cons, List.not_mem_nil, or_false]
  omega

theorem kind5_of_kindIn {d : Dsc} (h : kindIn d [5] = true) : dKind d = 5 := List.mem_singleton.1 (List.contains_iff_mem.1 h)

/-- An MX row of an operand in memory holds whole blocks (R96). -/
theorem wholeBlocks_of_dscOk {s : State} {c : CoreId} {d : Dsc} (hd : s.dscOk c d = true) (kind : dKind d = 5) {slot j : Nat} {f : Fmt}
    (hf : Fmt.parse (s.rowEnc c d slot j) = some f) : f.blk = 0 ∨ dCols d % f.blk = 0 := by
  rw [rowEnc_kind5 kind] at hf
  unfold State.dscOk at hd
  simp only [kind, hf, Bool.and_eq_true, rowWhole, Bool.or_eq_true, beq_iff_eq, decide_eq_true_eq] at hd
  exact hd.2.imp id fun h => h.1

/-- The rows of a scratchpad or accumulator operand have their formats whatever its slot. -/
theorem rowEnc_slot {s : State} {d : Dsc} (chip : onChip d) (own : dKind d ≠ 7) (banks : s.bankFmtsOk s.cur d = true) (slot : Nat) {j : Nat}
    (hj : j < dRows d) : s.rowEnc s.cur d slot j = s.rowEnc s.cur d 0 j := by
  unfold State.rowEnc
  by_cases acc : inAcc d = true
  · simp only [acc, if_true]
  by_cases named : dFmt d = 0
  · have spad : inSpad d = true := chip.resolve_left acc
    simp only [acc, spad, named, beq_self_eq_true, Bool.and_self, Bool.false_eq_true, if_false, if_true]
    have self : opCore s.cur d = s.cur := if_neg own
    have uniform := bankFmt_uniform spad named own banks (placeOf_spans spad slot j hj) (placeOf_spans spad 0 j hj)
    exact uniform
  · simp only [acc, beq_eq_false_iff_ne.2 named, Bool.and_false, Bool.false_eq_true, if_false]

/-! ## CGATH and CSCAT -/

/-- A destination that declares no page marks none. -/
theorem declareMarks_none {c : CoreId} {d : Dsc} {s t : State} (kind : dKind d ≠ 4) (h : declareMarks c d s = .ok () t) : t = s := by
  unfold declareMarks at h
  simp only [decide_eq_false kind, Bool.false_and, Bool.false_eq_true, if_false] at h
  cases h
  rfl

theorem copying_start {s : State} (ha : s.allClean = true) {k : Core} (hk : (s.core s.cur).issuesTo k) :
    s.copying (s.setCore s.cur k) (s.setCore s.cur k) :=
  ⟨atWork_setCore ha (chipAs_of_issuesTo hk), rfl, fun _ => stirred_refl _⟩

theorem opLines_of_allClean {s : State} (h : s.allClean = true) : s.mem.opLines = none := by
  unfold State.allClean at h
  simp only [Bool.and_eq_true, Option.isNone_iff_eq_none] at h
  exact h.2

theorem rowThere_of_rowHere {s : State} {c : CoreId} {d : Dsc} {j b first : Nat} {write : Bool} (kind : dKind d = 5)
    (h : s.rowHere c d j b first write) : s.rowThere c d j b first write := by
  obtain ⟨acc, spad⟩ := offChip_of_kind5 kind
  obtain h | h | h := h
  · rw [acc] at h
    cases h
  · rw [spad] at h
    cases h
  · exact h

theorem result_cgath : CopyResult .cgath cgathWord := by
  intro s s1 s2 h o w hi ha hl hd c k x y b n rows
  obtain ⟨started, q, rfl, hq⟩ := started_plain (e := cgathWord h o) rfl hi
  obtain ⟨target, source, -, -⟩ := copyCheck_zero (started.check false)
  obtain ⟨limits, banks⟩ := operand_ok started (n := 0) Nat.zero_lt_two (.inl rfl)
  obtain ⟨chip, own, notDeclared⟩ := own_of_kindIn limits target (by decide)
  have memory : dKind (w.dsc 1) = 5 := kind5_of_kindIn source
  obtain rfl := declareMarks_none notDeclared hd
  have body := reaches_copyBody alike_counted (o := o) (w := { w with todo := true }) started.resume (copying_start ha hq) notDeclared
    fun i hi moves u hu mode => rowMoves_gather hu memory (rowThere_of_rowHere memory (rows i hi moves).1) chip own
      (rowEnc_parses chip limits banks (w.slot 0) i hi)
  obtain ⟨t, ht, counted⟩ := issuesTo_reaches counted_refl (e := cgathWord h o)
    (w' := { w with deferred := bobEnds .c [dst0 o.d0, src1 o.d1] w.dscs }) rfl hi (opsNow_none hl) started.fresh started.fresh body
  exact ⟨t, ht, storedMore_counted counted⟩

theorem result_cscat : CopyResult .cscat cscatWord := by
  intro s s1 s2 h o w hi ha hl hd c k x y b n rows
  obtain ⟨started, q, rfl, hq⟩ := started_plain (e := cscatWord h o) rfl hi
  obtain ⟨target, source, same, -⟩ := copyCheck_zero (started.check false)
  obtain ⟨-, -, -, move⟩ := copyCheck_zero (started.check true)
  obtain ⟨limits0, -⟩ := operand_ok started (n := 0) Nat.zero_lt_two (.inl rfl)
  obtain ⟨limits, banks⟩ := operand_ok started (n := 1) Nat.one_lt_two (.inr (.inl rfl))
  obtain ⟨chip, own, -⟩ := own_of_kindIn limits source (by decide)
  have memory : dKind (w.dsc 0) = 5 := kind5_of_kindIn target
  have notDeclared : dKind (w.dsc 0) ≠ 4 := by omega
  obtain rfl := declareMarks_none notDeclared hd
  have body := reaches_copyBody alike_written (o := o) (w := { w with todo := true }) started.resume (copying_start ha hq) notDeclared
    fun i hi moves u hu mode => by
      obtain ⟨-, there, off, -⟩ := rows i hi moves
      have hi1 : i < dRows (w.dsc 1) := lt_of_lt_of_eq hi same
      have pair : movePair (s.rowEnc s.cur (w.dsc 1) 0 i) (s.rowEnc s.cur (w.dsc 0) 0 i) (dCols (w.dsc 1)) (dCols (w.dsc 0)) = true :=
        List.all_eq_true.1 move i (List.mem_range.2 (lt_min hi hi1))
      have whole : (s.setCore s.cur q).mem.opLines = none := opLines_of_allClean (s := s) ha
      refine rowMoves_scatter hu whole chip (rowEnc_parses chip limits banks (w.slot 1) i hi1) memory ?_
        (fun f hf => wholeBlocks_of_dscOk limits0 memory hf) (rowThere_of_rowHere memory there) off
      show movePair (s.rowEnc s.cur (w.dsc 1) (w.slot 1) i) (s.rowEnc s.cur (w.dsc 0) (w.slot 0) i) _ _ = true
      rw [rowEnc_slot chip own banks (w.slot 1) hi1, rowEnc_kind5 memory]
      rwa [rowEnc_kind5 memory] at pair
  obtain ⟨t, ht, written⟩ := issuesTo_reaches written_refl (e := cscatWord h o)
    (w' := { w with deferred := bobEnds .c [dst0 o.d0, src1 o.d1] w.dscs }) rfl hi (opsNow_none hl) started.fresh started.fresh body
  exact ⟨t, ht, written.more⟩

/-! ## CPFA (R333) -/

theorem cpfaCheck_zero {h : Hdr} {o : CpfaOp} {issue : Bool} {s : State} {c : CoreId} {ds : List Dsc}
    (hc : (cpfaWord h o).check issue s c ds = 0) :
    dKind (ds.getD 0 0) = 2 ∧ dKind (ds.getD 1 0) = 5 ∧ dRows (ds.getD 0 0) = dRows (ds.getD 1 0) := by
  obtain ⟨hc, -⟩ := BitVec.or_eq_zero_iff.1 hc
  obtain ⟨hc, rows⟩ := BitVec.or_eq_zero_iff.1 hc
  obtain ⟨hc, -⟩ := BitVec.or_eq_zero_iff.1 hc
  obtain ⟨target, source⟩ := BitVec.or_eq_zero_iff.1 hc
  exact ⟨List.mem_singleton.1 (List.contains_iff_mem.1 (kindIn_of_kindBad (.inl rfl) target)),
    kind5_of_kindIn (kindIn_of_kindBad (.inr (.inl rfl)) source), bne_eq_false_iff_eq.1 (false_of_descField (.inl rfl) rows)⟩

/-- The adapter rows of one block, moved one after another, but for a block that is parked or has none. -/
def State.blockMoved (s : State) (o : CpfaOp) (w : Issued) (u : State) (b : Nat) : State :=
  let c := s.cur
  let k := s.core c
  if k.rbtParked b = true ∨ k.rbt b 4 = 0 then u
  else (List.range (dRows (w.dsc 1))).foldl (fun u j =>
    u.moveRow u c (modeOf o.rnd k.round) o.sat (rowAt (w.dsc 1) 0 j)
      (rowAt (w.dsc 0) ((w.slot 0 + b) % ((vget k.bobbins (dBob (w.dsc 0)).toNat).count + 1)) j) b j) u

/-- The same, the block being asked about again at each row. -/
theorem blockMoved_eq (s : State) (o : CpfaOp) (w : Issued) (u : State) (b : Nat) :
    s.blockMoved o w u b = (List.range (dRows (w.dsc 1))).foldl (fun u j =>
      if (s.core s.cur).rbtParked b = true ∨ (s.core s.cur).rbt b 4 = 0 then u
      else u.moveRow u s.cur (modeOf o.rnd (s.core s.cur).round) o.sat (rowAt (w.dsc 1) 0 j)
        (rowAt (w.dsc 0) ((w.slot 0 + b) % ((vget (s.core s.cur).bobbins (dBob (w.dsc 0)).toNat).count + 1)) j) b j) u := by
  unfold State.blockMoved
  dsimp only
  split
  · exact (List.foldl_fixed _).symm
  · rfl

theorem copying_foldl {s s2 : State} {step : State → Nat → State} (hs : ∀ u i, s.copying s2 u → s.copying s2 (step u i)) (l : List Nat)
    {u : State} (h : s.copying s2 u) : s.copying s2 (l.foldl step u) := by
  induction l generalizing u with
  | nil => exact h
  | cons i l ih => exact ih (hs u i h)

theorem copying_blockMoved {s s2 u : State} (h : s.copying s2 u) (o : CpfaOp) (w : Issued) (b : Nat) :
    s.copying s2 (s.blockMoved o w u b) := by
  unfold State.blockMoved
  dsimp only
  split
  · exact h
  · exact copying_foldl (fun u j hu => copying_moveRow hu _ _ _ _ _ _ _) _ h

theorem reaches_cpfaBody {s s1 : State} {h : Hdr} {o : CpfaOp} {w : Issued} (hw : w.resume = 0) (start : s.copying s s1)
    (row : ∀ b j, b ≤ (s.core s.cur).hdrBlocks → j < dRows (w.dsc 1) → (s.core s.cur).rbtParked b = false → (s.core s.cur).rbt b 4 ≠ 0 →
      ∀ u, s.copying s u → ∀ mode slot, ∃ fs fd,
        RowMoves State.counted u s.cur mode o.sat (rowAt (w.dsc 1) 0 j) (rowAt (w.dsc 0) slot j) b j fs fd) :
    Reaches State.counted s1 ((cpfaWord h o).body w) ((List.range ((s.core s.cur).hdrBlocks + 1)).foldl (s.blockMoved o w) s1)
      (· = { w with deferred := [.advance (dBob (w.dsc 0)) ((s.core s.cur).hdrBlocks + 1)] }) := by
  refine reaches_state fun t ht => ?_
  have pass := (samePass_alike alike_counted ht s.cur).trans (samePass_stirred (start.core s.cur))
  have core : (t.core s.cur).bobbins = (s.core s.cur).bobbins ∧ (s1.core s.cur).round = (s.core s.cur).round := by
    have stirred := start.core s.cur
    unfold Core.stirred at stirred
    rw [alike_counted.core ht s.cur, stirred]
    exact ⟨rfl, rfl⟩
  obtain ⟨bobbins, round⟩ := core
  dsimp only
  rw [alike_counted.cur ht, start.work.chip.cur, hdrBlocks_samePass pass, bobbins]
  refine reaches_bind (reaches_engMode alike_counted s.cur o.rnd) fun mode hm => ?_
  rw [hm, round]
  refine reaches_bind (reaches_copyRows alike_counted (I := s.copying s) (fun u hu => hu.work.log) (fun u b hu => copying_blockMoved hu o w b)
    (fun b hb u p hu hp => ?_) start hw) fun _ _ => reaches_pure rfl
  refine reaches_state fun t ht => ?_
  have blocks : b ≤ (s.core s.cur).hdrBlocks := Nat.lt_succ_iff.1 hb
  rw [blockMoved_eq]
  refine reaches_copyRows alike_counted (I := s.copying s) (fun u hu => hu.work.log) (fun u j hu => ?_) (fun j hj u p hu hp => ?_) hu hp
  · split
    · exact hu
    · exact copying_moveRow hu _ _ _ _ _ _ _
  refine reaches_state fun t ht => ?_
  have pass := (samePass_alike alike_counted ht s.cur).trans (samePass_stirred (hu.core s.cur))
  simp only [rbtParked_samePass pass, rbt_samePass pass]
  by_cases out : (s.core s.cur).rbtParked b = true ∨ (s.core s.cur).rbt b 4 = 0
  · rw [if_pos out, if_pos (by simpa using out)]
    exact reaches_pure hp
  · rw [if_neg out, if_neg (by simpa using out)]
    obtain ⟨live, adapter⟩ := not_or.1 out
    obtain ⟨fs, fd, moves⟩ := row b j blocks hj (Bool.eq_false_iff.2 live) adapter u hu _ _
    refine reaches_movedRow alike_counted w moves hp _ _ (reaches_state fun t ht => reaches_pure ?_)
    rw [rbtParked_samePass ((samePass_alike alike_counted ht s.cur).trans (samePass_stirred (hu.core s.cur)))]
    exact Bool.eq_false_iff.2 live

theorem result_cpfa (s s1 : State) (h : Hdr) (o : CpfaOp) (w : Issued) (hi : s.issueE (.cpfa h o) (cpfaWord h o) = some (w, s1))
    (ha : s.allClean = true) (hl : s.lineOps ≠ some 0)
    (rows : ∀ b j, b ≤ (s.core s.cur).hdrBlocks → j < dRows (w.dsc 1) → (s.core s.cur).rbtParked b = false →
      (s.core s.cur).rbt b 4 ≠ 0 →
      s.rowThere s.cur (w.dsc 1) j b j false) :
    ∃ t, IssuesTo (.cpfa h o) s .c { w with deferred := [.advance (dBob (w.dsc 0)) ((s.core s.cur).hdrBlocks + 1)] } t ∧
      t.storedMore ((List.range ((s.core s.cur).hdrBlocks + 1)).foldl (s.blockMoved o w) s1) := by
  obtain ⟨started, q, rfl, hq⟩ := started_plain (e := cpfaWord h o) rfl hi
  obtain ⟨target, source, same⟩ := cpfaCheck_zero (started.check false)
  obtain ⟨limits, banks⟩ := operand_ok started (n := 0) Nat.zero_lt_two (.inl rfl)
  obtain ⟨chip, own, -⟩ := own_of_kindIn (ks := [2]) limits (List.contains_iff_mem.2 (List.mem_singleton.2 target)) (by decide)
  have start : s.copying s (s.setCore s.cur q) := by
    refine ⟨atWork_setCore ha (chipAs_of_issuesTo hq), rfl, fun c => ?_⟩
    by_cases mine : c = s.cur
    · rw [mine, core_setCore_same]
      exact stirred_issuesTo hq
    · rw [core_setCore_other _ _ _ _ mine]
      exact stirred_refl _
  have body := reaches_cpfaBody (h := h) (o := o) (w := { w with todo := true }) started.resume start
    fun b j hb hj live adapter u hu mode slot => rowMoves_gather hu source (rows b j hb hj live adapter) chip own
      (rowEnc_parses chip limits banks slot j (lt_of_lt_of_eq hj same.symm))
  obtain ⟨t, ht, counted⟩ := issuesTo_reaches counted_refl (e := cpfaWord h o)
    (w' := { w with deferred := [.advance (dBob (w.dsc 0)) ((s.core s.cur).hdrBlocks + 1)] }) rfl hi (opsNow_whole rfl hl) started.fresh
    started.fresh body
  exact ⟨t, ht, storedMore_counted counted⟩

/-- Settles O32: CGATH and CPFA read resident lines and write their core's own stores, CSCAT writes resident lines from them. -/
theorem gatherScatterComplete : Obligations.GatherScatterComplete := by
  unfold Obligations.GatherScatterComplete
  exact ⟨result_cgath, result_cscat, fun s s1 h o w hi ha hl rows => result_cpfa s s1 h o w hi ha hl rows⟩

end Sys2Proof.Machine
